-- ==== Sys2Proof/Word.lean ====
section
/-!
DEFINITION. Words and the containers the model uses: machine words, lane vectors, sparse maps in one canonical form.
-/
set_option Elab.async false
namespace Sys2Proof

/-- A byte. -/
abbrev Byte := BitVec 8
/-- A 32-bit unit of the instruction stream or a lane mask (R47, R20). -/
abbrev Word32 := BitVec 32
/-- A 64-bit register value (R25). -/
abbrev Word64 := BitVec 64

/-- One value for each of the 32 lanes of a group (R4). -/
abbrev Lanes (α : Type) := Vector α 32

namespace Lanes
/-- The lane vector whose lane `l` is `f l`. -/
def gen {α : Type} (f : Nat → α) : Lanes α := ⟨⟨(List.range 32).map f⟩, by simp⟩
/-- Lane `l` of a lane vector; `d` beyond lane 31. -/
def get {α : Type} (v : Lanes α) (l : Nat) (d : α) : α := v.toArray.getD l d
/-- The same value in every lane. -/
def const {α : Type} (a : α) : Lanes α := gen fun _ => a
end Lanes

/-- The lane numbers 0 to 31, in ascending order. -/
def laneList : List Nat := List.range 32

/-- A table of `n` equal entries. -/
def tableOf {α : Type} (n : Nat) (a : α) : Vector α n := ⟨⟨List.replicate n a⟩, by simp⟩

/-- Entry `i` of a table; `d` beyond its end. -/
def tget {α : Type} {n : Nat} (t : Vector α n) (i : Nat) (d : α) : α := t.toArray.getD i d

/-- The table with entry `i` replaced; unchanged beyond its end. -/
def tset {α : Type} {n : Nat} (t : Vector α n) (i : Nat) (a : α) : Vector α n := t.setIfInBounds i a

/-- Sparse data by key: strictly rising keys, and no entry equal to the default. -/
abbrev Sparse (α : Type) := List (Nat × α)

namespace Sparse
/-- What key `k` holds; `d` when it is not listed. -/
def get {α : Type} (d : α) : Sparse α → Nat → α
  | [], _ => d
  | (k, v) :: r, q => if k = q then v else if q < k then d else get d r q

/-- Write `v` at key `q`, keeping the keys rising and dropping an entry equal to `d`. -/
def set {α : Type} [DecidableEq α] (d : α) : Sparse α → Nat → α → Sparse α
  | [], q, v => if v = d then [] else [(q, v)]
  | (k, w) :: r, q, v =>
    if q < k then (if v = d then (k, w) :: r else (q, v) :: (k, w) :: r)
    else if q = k then (if v = d then r else (k, v) :: r)
    else (k, w) :: set d r q v

/-- The canonical form: keys strictly rising, no entry equal to the default. -/
def wf {α : Type} [DecidableEq α] (d : α) : Sparse α → Bool
  | [] => true
  | (_, v) :: [] => decide (v ≠ d)
  | (k, v) :: (k', v') :: r => decide (v ≠ d) && decide (k < k') && wf d ((k', v') :: r)
end Sparse

/-- Sign-extend the low `w` bits of `n` to an integer. -/
def signedOf (w n : Nat) : Int := if n % 2 ^ w < 2 ^ (w - 1) then ((n % 2 ^ w : Nat) : Int) else ((n % 2 ^ w : Nat) : Int) - 2 ^ w

/-- The low `w` bits of an integer, as a natural number. -/
def lowBits (w : Nat) (i : Int) : Nat := (i % (2 ^ w : Int)).toNat

/-- Bits `hi` to `lo` of a number. -/
def bitsOf (n hi lo : Nat) : Nat := n / 2 ^ lo % 2 ^ (hi + 1 - lo)

/-- Bit `i` of a number. -/
def bitOf (n i : Nat) : Bool := n / 2 ^ i % 2 == 1

/-- A Bool as a number. -/
def b2n (b : Bool) : Nat := if b then 1 else 0

/-- Round `n` up to a multiple of `m`. -/
def roundUp (n m : Nat) : Nat := (n + m - 1) / m * m

/-- The bytes of `n`, `k` of them, least significant first (R8). -/
def bytesLE : Nat → Nat → List Byte
  | 0, _ => []
  | k + 1, n => BitVec.ofNat 8 n :: bytesLE k (n / 256)

/-- The number whose bytes, least significant first, are given (R8). -/
def natLE : List Byte → Nat
  | [] => 0
  | b :: r => b.toNat + 256 * natLE r

end Sys2Proof
end

