-- ==== Sys2Proof/Config.lean ====
section
/-!
DEFINITION. What an implementation fixes and the spec leaves open: opaque constants, of which no proof can see a value.
-/
set_option Elab.async false
namespace Sys2Proof.Config

/-- What the board populates on each LPDDR-6 channel: 0, 1 or 2, modulo 3, for 8, 16 or 32 GiB (R3; log entry 12). -/
opaque lpddrCode : Nat → Nat
/-- The populated bytes of an LPDDR-6 channel (R3). -/
def lpddrOf (ch : Nat) : Nat := 2 ^ (33 + lpddrCode ch % 3)
/-- The populated bytes of each channel of a board that passes the population check (R3, R333). -/
def lpddrBytes : Nat := lpddrOf 0
/-- The 32 channels are not all populated alike (R3). -/
def lpddrMixed : Bool := (List.range 32).any fun ch => lpddrOf ch ≠ lpddrOf 0

/-- A free bit for each step: which of two values that a rule allows is taken (log entry 13). -/
opaque freeBit : Nat → Bool

/-- Which of several allowed values is taken, for a step (log entry 13). -/
opaque freeChoice : Nat → Nat

/-- The clocks that a core counts in a step of the model (R39; log entry 7). -/
opaque coreTicks : Nat → Nat → Nat
/-- The clocks that a core has counted when a step begins (R39). -/
def coreClock (core step : Nat) : Nat := ((List.range step).map (coreTicks core)).sum

/-- The fused digest of the vendor public key (R435; log entry 6). -/
opaque fuseDigest : BitVec 256
/-- The fuse configuration, as M1 is extended with it (R437; log entry 6). -/
opaque fuseBytes : List Byte
/-- The fused security version counter at first power-on (R435; log entry 6). -/
opaque fuseCounter : Nat
/-- The firmware image in the board flash at power-on (R436; log entry 6). -/
opaque flashImage : List Byte
/-- The training outcome of a step of a boot, as M3 is extended with it (R437; log entry 6). -/
opaque trainingOutcome : Nat → Nat → List Byte
/-- The fused 48-byte identity seed (R435; log entry 6). -/
opaque identitySeed : BitVec 384
/-- The random bytes of a signature, for a step (R435; log entry 9). -/
opaque signRandom : Nat → BitVec 128
/-- What the SRAM self-test of a start finds: classes and UNITs as R402 names them (R439; log entry 34). -/
opaque selfTest : Nat → List (Nat × Nat)
/-- The DER X.509 chain of the identity key (R438; log entry 9). -/
opaque certChain : List Byte

/-- Initial value and final complement of the flit CRC-64 (R426; log entry 10). -/
opaque crcInit : BitVec 64
opaque crcXorOut : BitVec 64

/-- The header of a transaction as PCI Express lays it out, of its kind, target, length, tag and operation (R426, R430; log entry 32). -/
opaque tlpHead : List Nat → List Byte
/-- What stands in a control frame, by its code and its channel or number (R426; log entry 32). -/
opaque controlBody : Nat → Nat → List Byte
/-- What a byte of a function's configuration space reads as until software writes it: function and offset (R430; log entry 33). -/
opaque configByte : Nat → Nat → Byte
/-- Where a capability begins in a configuration space: 0 SR-IOV, 1 ARI, 2 MSI-X, 3 PCI Express (R430; log entry 33). -/
opaque capBase : Nat → Nat
/-- The security version and the key that a firmware image's 256-byte header holds, and whether its magic word is in order and its length that of the image
(R436; log entry 34). -/
opaque imageSvn : List Byte → Nat
opaque imageKey : List Byte → List Byte
opaque imageFormed : List Byte → Nat → Bool
/-- The boot journal as M2 is extended with it (R437; log entry 34). -/
opaque journalBytes : List Nat → List Byte

/-- The free parts of a sequence header, by the frame's descriptor and the part (R294; log entry 8). -/
opaque seqBits : List Byte → Nat → List Bool
/-- The free parts of a frame: what the earlier frames of its stream left, whether it is a key frame, its descriptor, its source bytes and those of the previous
reconstruction, and the part (R294; log entry 8). -/
opaque frameBits : Nat → Bool → List Byte → List Byte → List Byte → Nat → List Bool
/-- A byte of the reconstruction of a frame, by its offset (R294; log entry 8). -/
opaque recon : Nat → Bool → List Byte → List Byte → List Byte → Nat → Byte
/-- What a frame leaves for the later frames of its stream (R294; log entry 8). -/
opaque past : Nat → Bool → List Byte → List Byte → List Byte → Nat

/-- What a byte of host or peer memory holds, at a step, as an engine or a walk reads it there (R432; log entry 23). -/
opaque windowByte : Nat → Nat → BitVec 8

/-- What a stopped traversal leaves in the stack entries of its record at SP and above, by the record's header and the entry (R270; log entry 24). -/
opaque deadEntry : List (BitVec 8) → Nat → BitVec 64

/-- A special-function result that the model's interval search could not settle (log entry 14). -/
opaque sfuTail : Nat → BitVec 64 → Nat

end Sys2Proof.Config
end

