-- ==== Sys2Proof/Syntax.lean ====
section
/-!
DEFINITION. The instruction set as data: one constructor of `Instr` for each row of the opcode table. The first part holds the instructions of
the opcode map (R73) with their operands; the second the events of the device, its hosts and its links, each with what the agent supplies.
-/
set_option Elab.async false
namespace Sys2Proof

/-- Rounding modes and rounding clauses (R80, R60). -/
inductive Rounding | rne | rz | rdn | rup | rna
deriving DecidableEq, Repr

/-- The type suffixes of R57, by name. -/
inductive Ty
  | none | i8 | i16 | i32 | i64 | n8 | n16 | n32 | n64 | b8 | b16 | b32 | b64
  | f16 | bf16 | f32 | f64 | e4m3 | e5m2 | e3m2 | e2m3 | e2m1 | e8m0 | e5m3n
deriving DecidableEq, Repr

/-- Comparison conditions of `ssetp` and `isetp` (R122). -/
inductive Cmp | eq | ne | lt | le | gt | ge
deriving DecidableEq, Repr

/-- Conditions of `fsetp` (R141). -/
inductive FCmp | eq | ne | lt | le | gt | ge | num | nan | equ | neu | ltu | leu | gtu | geu
deriving DecidableEq, Repr

/-- Modes of `shfl` (R152). -/
inductive ShflMode | gat | fwd | back | rot | flip
deriving DecidableEq, Repr

/-- Directions of `qswp` (R153). -/
inductive QDir | h | v | d | b0 | b1 | b2 | b3
deriving DecidableEq, Repr

/-- Operations of `red` and `scan` (R154). -/
inductive RedOp | add | min | max | and | or | xor | minidx | maxidx
deriving DecidableEq, Repr

/-- Scopes (R159). -/
inductive Scope | g | w | k | t | s
deriving DecidableEq, Repr

/-- Orderings of `fence` (R172). -/
inductive FenceOrd | acq | rel | ar | sc
deriving DecidableEq, Repr

/-- Orderings of `atom` and `apost` (R164). -/
inductive AtomOrd | rlx | acq | rel | ar
deriving DecidableEq, Repr

/-- Operations of the atomics (R164). -/
inductive AtomOp | add | sub | min | max | and | or | xor | xchg | cas | fadd | dmin
deriving DecidableEq, Repr

/-- The seven in-flight paths (R170). -/
inductive Path | load | store | copy | mx | filt | ray | rem
deriving DecidableEq, Repr

/-- Tile kinds (R175). -/
inductive TKind | data | barrier | ring
deriving DecidableEq, Repr

/-- Engine formats (R200). -/
inductive EFmt | f32 | bf16 | f16 | e5m2 | e4m3 | e3m2 | e2m3 | e2m1 | int8 | int4
deriving DecidableEq, Repr

/-- Texture dimensions (R240). -/
inductive TexDim | d2 | d2a | d3 | cube
deriving DecidableEq, Repr

/-- What `ray.get` reads (R278). -/
inductive RaySel | hit | leaf | oray
deriving DecidableEq, Repr

/-- Cull modes of `ray.trc` (R265). -/
inductive Cull | none | back | front
deriving DecidableEq, Repr

/-- Cache-control codes of `ld` and `st` (R159). -/
inductive CachePol | dflt | l2 | ev
deriving DecidableEq, Repr

/-- Register counts of `ld`, `st`, `ldt`, `stt` (R159). -/
inductive RegCnt | x1 | x2 | x4
deriving DecidableEq, Repr

/-- A prefix unit (R60). `mask` holds MPRED when MEN is set; `rmode` the clause when one is given. -/
structure Prefix where
  idxC : Bool := false
  idxB : Bool := false
  idxA : Bool := false
  idxD : Bool := false
  zero : Bool := false
  srcC : BitVec 8 := 0
  rmode : Option Rounding := none
  mask : Option (BitVec 6) := none
deriving DecidableEq, Repr

/-- What every base instruction carries: guard, switch marker and its prefix, if it has one (R54, R58, R61). -/
structure Ctl where
  guard : BitVec 6 := 63
  gneg : Bool := false
  mark : Bool := false
  pre : Option Prefix := none
deriving DecidableEq, Repr

/-- A source register with its kill bit (R54). -/
structure Src where
  reg : BitVec 8
  kill : Bool := false
deriving DecidableEq, Repr

/-- Source B of the uniform instructions: a register, or the 16-bit immediate of BI = 1 (R120). -/
inductive UB | reg (r : Src) | imm (n : BitVec 16)
deriving DecidableEq, Repr

/-- Source of `setx` and limit of `waitc`: a uniform register or an immediate (R118, R171). -/
inductive RegImm (w : Nat) | reg (r : Src) | imm (n : BitVec w)
deriving DecidableEq, Repr

/-- How a barrier instruction names its barrier (R180). -/
inductive BarRef | tile (h : BitVec 8) | peer (h : BitVec 8) (wg : BitVec 2) | glob (a : Src)
deriving DecidableEq, Repr

/-- The parity of `tbar.wait` and `tbar.test.ph` (R180). -/
inductive Par | imm (b : Bool) | reg (r : Src)
deriving DecidableEq, Repr

/-- An operand of `mxmma`: a register run or a tile (R200). -/
inductive MxSrc | reg (r : Src) | tile (h : BitVec 8)
deriving DecidableEq, Repr

structure UArith where
  d : BitVec 8
  a : Src
  b : UB
  sat : Bool := false
  ty : Ty
deriving DecidableEq, Repr

structure UUn where
  d : BitVec 8
  a : Src
  ty : Ty
deriving DecidableEq, Repr

structure USetp where
  d : BitVec 8
  a : Src
  b : UB
  cmp : Cmp
  ty : Ty
deriving DecidableEq, Repr

structure USel where
  d : BitVec 8
  a : Src
  b : Src
  cp : BitVec 6
  ty : Ty
deriving DecidableEq, Repr

structure ULoad where
  d : BitVec 8
  a : Src
  off : BitVec 13
  ty : Ty
deriving DecidableEq, Repr

structure UStore where
  a : Src
  b : Src
  off : BitVec 13
  ty : Ty
deriving DecidableEq, Repr

/-- `pand`, `por`, `pxor` with NA and NB (R125). -/
structure PBin where
  d : BitVec 8
  a : Src
  b : Src
  na : Bool := false
  nb : Bool := false
deriving DecidableEq, Repr

/-- One-source predicate and vote instructions with NA (R125, R126). -/
structure PUn where
  d : BitVec 8
  a : Src
  na : Bool := false
deriving DecidableEq, Repr

/-- A destination and two sources, nothing else. -/
structure DAB where
  d : BitVec 8
  a : Src
  b : Src
deriving DecidableEq, Repr

/-- A destination and one source, nothing else. -/
structure DA where
  d : BitVec 8
  a : Src
deriving DecidableEq, Repr

/-- Two sources, no destination. -/
structure AB where
  a : Src
  b : Src
deriving DecidableEq, Repr

/-- Vector integer arithmetic (R130): UNI makes source B uniform. -/
structure VInt where
  d : BitVec 8
  a : Src
  b : Src
  uni : Bool := false
  sat : Bool := false
  ty : Ty
deriving DecidableEq, Repr

structure VUn where
  d : BitVec 8
  a : Src
  sat : Bool := false
  ty : Ty
deriving DecidableEq, Repr

structure Lop3 where
  d : BitVec 8
  a : Src
  b : Src
  uni : Bool := false
  f0 : BitVec 4
  f1 : BitVec 4
deriving DecidableEq, Repr

structure ISetp where
  d : BitVec 8
  a : Src
  b : Src
  uni : Bool := false
  cmp : Cmp
  sel : BitVec 3 := 0
  ty : Ty
deriving DecidableEq, Repr

structure IMov where
  d : BitVec 8
  a : Src
  uni : Bool := false
deriving DecidableEq, Repr

structure ISel where
  d : BitVec 8
  a : Src
  b : Src
  uni : Bool := false
deriving DecidableEq, Repr

structure Idp4 where
  d : BitVec 8
  a : Src
  b : Src
  uni : Bool := false
  sat : Bool := false
  ta : Ty
  tb : Ty
deriving DecidableEq, Repr

/-- A destination register and a signed 27-bit immediate (R55). -/
structure MovImm where
  d : BitVec 8
  imm : BitVec 27
deriving DecidableEq, Repr

/-- Two-source floating point with negations (R138). -/
structure F2 where
  d : BitVec 8
  a : Src
  b : Src
  uni : Bool := false
  na : Bool := false
  nb : Bool := false
  ty : Ty
deriving DecidableEq, Repr

structure F3 where
  d : BitVec 8
  a : Src
  b : Src
  uni : Bool := false
  na : Bool := false
  nb : Bool := false
  nc : Bool := false
  ty : Ty
deriving DecidableEq, Repr

structure FSetp where
  d : BitVec 8
  a : Src
  b : Src
  uni : Bool := false
  na : Bool := false
  nb : Bool := false
  cmp : FCmp
  sel : BitVec 3 := 0
  ty : Ty
deriving DecidableEq, Repr

structure FClass where
  d : BitVec 8
  a : Src
  cls : BitVec 10
  sel : BitVec 3 := 0
  ty : Ty
deriving DecidableEq, Repr

/-- One-source floating point with negation (R138). -/
structure F1 where
  d : BitVec 8
  a : Src
  na : Bool := false
  ty : Ty
deriving DecidableEq, Repr

structure Cvt where
  d : BitVec 8
  a : Src
  sat : Bool := false
  part : BitVec 3 := 0
  src : Ty
  dst : Ty
deriving DecidableEq, Repr

structure Shfl where
  mode : ShflMode
  d : BitVec 8
  a : Src
  b : Src
  uni : Bool := false
  ty : Ty
deriving DecidableEq, Repr

structure Qswp where
  dir : QDir
  d : BitVec 8
  a : Src
deriving DecidableEq, Repr

structure Red where
  op : RedOp
  sdst : Bool := false
  d : BitVec 8
  a : Src
  ty : Ty
deriving DecidableEq, Repr

structure Scan where
  op : RedOp
  excl : Bool := false
  d : BitVec 8
  a : Src
  ty : Ty
deriving DecidableEq, Repr

structure Append where
  d : BitVec 8
  h : BitVec 8
  b : Src
  ty : Ty
deriving DecidableEq, Repr

/-- `ld` and `st` (R159). `b` is the lane offset when VO = 1. -/
structure MemOp where
  d : BitVec 8
  a : Src
  b : Option Src := none
  off : BitVec 8 := 0
  cp : CachePol := .dflt
  cnt : RegCnt := .x1
  ty : Ty
deriving DecidableEq, Repr

/-- `lda` and `strl` (R159). -/
structure ScopedOp where
  d : BitVec 8
  a : Src
  b : Option Src := none
  off : BitVec 8 := 0
  scope : Scope
  ty : Ty
deriving DecidableEq, Repr

/-- `ldt` and `stt` (R163). -/
structure TileOp where
  d : BitVec 8
  h : BitVec 8
  b : Src
  off : BitVec 8 := 0
  peer : Option (BitVec 2) := none
  cnt : RegCnt := .x1
  ty : Ty
deriving DecidableEq, Repr

structure Fence where
  ord : FenceOrd
  scope : Scope
deriving DecidableEq, Repr

structure Waitc where
  path : Path
  lim : RegImm 8
deriving DecidableEq, Repr

structure Pref where
  a : Src
  b : Option Src := none
  off : BitVec 8 := 0
  l2 : Bool := false
deriving DecidableEq, Repr

structure Cinv where
  a : Src
  b : Src
  l2 : Bool := false
deriving DecidableEq, Repr

structure Atom where
  d : BitVec 8
  a : Src
  b : Src
  op : AtomOp
  scope : Scope
  ord : AtomOrd := .rlx
  ty : Ty
deriving DecidableEq, Repr

structure APost where
  a : Src
  b : Src
  op : AtomOp
  scope : Scope
  ord : AtomOrd := .rlx
  ty : Ty
deriving DecidableEq, Repr

structure RAtom where
  d : BitVec 8
  a : Src
  b : Src
  op : AtomOp
  ty : Ty
deriving DecidableEq, Repr

structure TAlloc where
  h : BitVec 8
  a : Src
  clus : Bool
  kind : TKind
deriving DecidableEq, Repr

structure TQry where
  d : BitVec 8
  h : BitVec 8
deriving DecidableEq, Repr

/-- `cpy.in`, `cpy.out`, `cpy.win` (R180). -/
structure Cpy where
  d : BitVec 8
  u : Src
  bar : Option (BitVec 8) := none
deriving DecidableEq, Repr

structure CpyMc where
  d : BitVec 8
  u : Src
  b : BitVec 8
  wgm : BitVec 4 := 0
deriving DecidableEq, Repr

structure BarB where
  bar : BarRef
  b : Src
deriving DecidableEq, Repr

structure BarPar where
  bar : BarRef
  par : Par
deriving DecidableEq, Repr

structure BarTest where
  d : BitVec 8
  bar : BarRef
  par : Par
deriving DecidableEq, Repr

structure BarBrk where
  d : BitVec 8
  bar : BarRef
deriving DecidableEq, Repr

structure MxMma where
  d : BitVec 8
  a : MxSrc
  b : MxSrc
  win : Bool := false
  rcnt : BitVec 2 := 0
  fa : EFmt
  fb : EFmt
deriving DecidableEq, Repr

structure MxScl where
  sideB : Bool
  a : Src
  b : Src
deriving DecidableEq, Repr

structure MxDrn where
  d : BitVec 8
  a : BitVec 8
  clr : Bool := false
deriving DecidableEq, Repr

structure WregSet where
  id : BitVec 6
  a : Src
  b : Src
deriving DecidableEq, Repr

structure Tex where
  d : BitVec 8
  a : Src
  b : Src
  dim : TexDim
  ty : Ty
deriving DecidableEq, Repr

structure TexQ where
  d : BitVec 8
  a : Src
  b : Src
  dim : TexDim
deriving DecidableEq, Repr

structure Hg where
  d : BitVec 8
  a : Src
  b : Src
  d3 : Bool
  nregm : BitVec 6 := 0
  ty : Ty
deriving DecidableEq, Repr

structure HgScat where
  d : BitVec 8
  a : Src
  b : Src
  d3 : Bool
  exact : Bool
  nregm : BitVec 6 := 0
  ty : Ty
deriving DecidableEq, Repr

structure RayTrc where
  d : BitVec 8
  a : Src
  b : Src
  noproc : Bool := false
  any : Bool := false
  cull : Cull := .none
  imask : BitVec 8 := 0xFF
deriving DecidableEq, Repr

structure RayRsm where
  a : Src
  b : Option Src := none
deriving DecidableEq, Repr

structure RayGet where
  d : BitVec 8
  a : Src
  sel : RaySel
deriving DecidableEq, Repr

structure RingPush where
  h : BitVec 8
  b : Src
  peer : Option (BitVec 2) := none
deriving DecidableEq, Repr

structure RingPop where
  d : BitVec 8
  h : BitVec 8
  peer : Option (BitVec 2) := none
deriving DecidableEq, Repr

/-- Payload of a link flit as the transport hands it over (R426). `body` is the flit's own account of what it carries, made by the sender. -/
structure Flit where
  seq : BitVec 12
  ctrl : BitVec 4
  crc : Word64
  body : List Byte
deriving DecidableEq, Repr

/-- The transactions that a link carries (R430, R434): memory writes, MSI-X writes among them, and reads, the three AtomicOps, completions, configuration
requests, the two messages, and whatever else arrives. -/
inductive TlpKind | write | read | fetchAdd | swap | cas | completion | config | request | reply | other
deriving DecidableEq, Repr

/-- What an outside agent presents with an event of the links or of the host interface: each event reads the fields its rule names. -/
structure Port where
  link : Nat := 0
  /-- Of a transaction that this device sends (R430). -/
  kind : TlpKind := .write
  /-- Which BAR of function `fn` an incoming transaction addresses (R431). -/
  bar : Nat := 2
  requester : Nat := 0
  chan : Nat := 0
  seq : BitVec 12 := 0
  flit : Flit := { seq := 0, ctrl := 0, crc := 0, body := [] }
  fn : Nat := 0
  vf : Nat := 0
  addr : Nat := 0
  len : Nat := 0
  tag : Nat := 0
  data : List Byte := []
  op : AtomOp := .add
  ty : Ty := .n64
  opB : Word64 := 0
  opC : Word64 := 0
  status : Nat := 0
  posted : Bool := false
  /-- Relaxed Ordering (R430). -/
  ro : Bool := false
  write : Option Word32 := none
  value : Word64 := 0
deriving DecidableEq, Repr

/-- The instructions of R73 and the events of the device: one constructor for each row of the opcode table. -/
inductive Instr
  -- major 0x0: control and system (R99)
  | br (c : Ctl) (imm : BitVec 27)
  | brc (c : Ctl) (imm : BitVec 27)
  | jmp (c : Ctl) (a : Src)
  | call (c : Ctl) (imm : BitVec 27)
  | ret (c : Ctl)
  | exit (c : Ctl)
  | trap (c : Ctl) (n : BitVec 11)
  | trapRet (c : Ctl)
  | trapSkip (c : Ctl)
  | brk (c : Ctl) (n : BitVec 13)
  | nop (c : Ctl)
  | yield (c : Ctl)
  | park (c : Ctl)
  | daymark (c : Ctl) (n : BitVec 12) (a : Option Src)
  | syncWg (c : Ctl)
  | syncGang (c : Ctl)
  | launch (c : Ctl) (o : AB)
  | getsr (c : Ctl) (d sr : BitVec 8) (vdst : Bool)
  | setsr (c : Ctl) (sr : BitVec 8) (a : Src)
  | setx (c : Ctl) (v : RegImm 12)
  | wmovToW (c : Ctl) (d : BitVec 8) (a : Src)
  | wmovFromW (c : Ctl) (d a : BitVec 8)
  -- major 0x1: uniform (R120 to R124)
  | sadd (c : Ctl) (o : UArith)
  | ssub (c : Ctl) (o : UArith)
  | smul (c : Ctl) (o : UArith)
  | smulh (c : Ctl) (o : UArith)
  | sand (c : Ctl) (o : UArith)
  | sor (c : Ctl) (o : UArith)
  | sxor (c : Ctl) (o : UArith)
  | snot (c : Ctl) (o : UUn)
  | sshl (c : Ctl) (o : UArith)
  | sshr (c : Ctl) (o : UArith)
  | ssar (c : Ctl) (o : UArith)
  | smin (c : Ctl) (o : UArith)
  | smax (c : Ctl) (o : UArith)
  | ssetp (c : Ctl) (o : USetp)
  | smov (c : Ctl) (o : DA)
  | smovi (c : Ctl) (o : MovImm)
  | ssel (c : Ctl) (o : USel)
  | sld (c : Ctl) (o : ULoad)
  | sst (c : Ctl) (o : UStore)
  -- major 0x2: predicate (R125, R126)
  | pand (c : Ctl) (o : PBin)
  | por (c : Ctl) (o : PBin)
  | pxor (c : Ctl) (o : PBin)
  | pnot (c : Ctl) (o : DA)
  | pmov (c : Ctl) (o : PUn)
  | psel (c : Ctl) (o : DAB)
  | voteAny (c : Ctl) (o : PUn)
  | voteAll (c : Ctl) (o : PUn)
  | voteBal (c : Ctl) (o : DA)
  -- major 0x3: vector integer (R130 to R137)
  | iadd (c : Ctl) (o : VInt)
  | isub (c : Ctl) (o : VInt)
  | imul (c : Ctl) (o : VInt)
  | imulh (c : Ctl) (o : VInt)
  | imad (c : Ctl) (o : VInt)
  | iabs (c : Ctl) (o : VUn)
  | ineg (c : Ctl) (o : VUn)
  | imin (c : Ctl) (o : VInt)
  | imax (c : Ctl) (o : VInt)
  | isad (c : Ctl) (o : VInt)
  | ishl (c : Ctl) (o : VInt)
  | ishr (c : Ctl) (o : VInt)
  | isar (c : Ctl) (o : VInt)
  | lop3 (c : Ctl) (o : Lop3)
  | popc (c : Ctl) (o : VUn)
  | clz (c : Ctl) (o : VUn)
  | brev (c : Ctl) (o : VUn)
  | bfe (c : Ctl) (o : VInt)
  | bfi (c : Ctl) (o : VInt)
  | isetp (c : Ctl) (o : ISetp)
  | imov (c : Ctl) (o : IMov)
  | imovi (c : Ctl) (o : MovImm)
  | isel (c : Ctl) (o : ISel)
  | idp4 (c : Ctl) (o : Idp4)
  | swz (c : Ctl) (o : VInt)
  -- major 0x4: floating point (R138 to R143, R148)
  | fadd (c : Ctl) (o : F2)
  | fsub (c : Ctl) (o : F2)
  | fmul (c : Ctl) (o : F2)
  | ffma (c : Ctl) (o : F3)
  | fmin (c : Ctl) (o : F2)
  | fmax (c : Ctl) (o : F2)
  | fsetp (c : Ctl) (o : FSetp)
  | fclass (c : Ctl) (o : FClass)
  | frnd (c : Ctl) (o : F1)
  | cvt (c : Ctl) (o : Cvt)
  -- major 0x5: special functions (R144)
  | frcp (c : Ctl) (o : F1)
  | frsq (c : Ctl) (o : F1)
  | fsqrt (c : Ctl) (o : F1)
  | fexp2 (c : Ctl) (o : F1)
  | flog2 (c : Ctl) (o : F1)
  | fsin (c : Ctl) (o : F1)
  | fcos (c : Ctl) (o : F1)
  -- major 0x6: cross-lane (R151 to R157)
  | shfl (c : Ctl) (o : Shfl)
  | qswp (c : Ctl) (o : Qswp)
  | red (c : Ctl) (o : Red)
  | scan (c : Ctl) (o : Scan)
  | append (c : Ctl) (o : Append)
  | match_ (c : Ctl) (o : UUn)
  -- major 0x7: memory and ordering (R158 to R174)
  | ld (c : Ctl) (o : MemOp)
  | st (c : Ctl) (o : MemOp)
  | ldt (c : Ctl) (o : TileOp)
  | stt (c : Ctl) (o : TileOp)
  | lda (c : Ctl) (o : ScopedOp)
  | strl (c : Ctl) (o : ScopedOp)
  | fence (c : Ctl) (o : Fence)
  | waitc (c : Ctl) (o : Waitc)
  | pref (c : Ctl) (o : Pref)
  | cinv (c : Ctl) (o : Cinv)
  | cwb (c : Ctl) (o : AB)
  -- major 0x8: atomics and tiles (R164 to R178)
  | atom (c : Ctl) (o : Atom)
  | apost (c : Ctl) (o : APost)
  | ratom (c : Ctl) (o : RAtom)
  | rpoll (c : Ctl) (o : UUn)
  | talloc (c : Ctl) (o : TAlloc)
  | tfree (c : Ctl) (h : BitVec 8)
  | tqry (c : Ctl) (o : TQry)
  -- major 0x9: copy and barriers (R180)
  | cpyIn (c : Ctl) (o : Cpy)
  | cpyOut (c : Ctl) (o : Cpy)
  | cpyMc (c : Ctl) (o : CpyMc)
  | cpyWin (c : Ctl) (o : Cpy)
  | tbarInit (c : Ctl) (o : BarB)
  | tbarArv (c : Ctl) (bar : BarRef)
  | tbarExp (c : Ctl) (o : BarB)
  | tbarExpArv (c : Ctl) (o : BarB)
  | tbarWait (c : Ctl) (o : BarPar)
  | tbarTestPh (c : Ctl) (o : BarTest)
  | tbarTestBrk (c : Ctl) (o : BarBrk)
  | tbarInval (c : Ctl) (bar : BarRef)
  -- major 0xA: matrix (R200)
  | mxreq (c : Ctl) (d : BitVec 8)
  | mxrel (c : Ctl) (d : BitVec 8)
  | mxmma (c : Ctl) (o : MxMma)
  | mxscl (c : Ctl) (o : MxScl)
  | mxsclNone (c : Ctl) (sideB : Bool)
  | mxwin (c : Ctl) (a : Src)
  | mxzero (c : Ctl) (d : BitVec 8)
  | mxdrn (c : Ctl) (o : MxDrn)
  | mxpass (c : Ctl) (a : Src)
  -- major 0xB: delta (R222)
  | dlrBind (c : Ctl) (o : AB)
  | dlrInval (c : Ctl) (a : Src)
  | dlrStat (c : Ctl) (o : DA)
  | mxdelta (c : Ctl) (a : Src)
  | wregSet (c : Ctl) (o : WregSet)
  | wregClr (c : Ctl) (id : BitVec 6)
  -- major 0xC: filter (R239)
  | texS (c : Ctl) (o : Tex)
  | texL (c : Ctl) (o : Tex)
  | texQDim (c : Ctl) (o : TexQ)
  | texQLod (c : Ctl) (o : TexQ)
  | hgFetch (c : Ctl) (o : Hg)
  | hgScat (c : Ctl) (o : HgScat)
  -- major 0xD: ray, raster, encode (R265)
  | rayTrc (c : Ctl) (o : RayTrc)
  | rayRsm (c : Ctl) (o : RayRsm)
  | rayCmt (c : Ctl) (o : AB)
  | rayGet (c : Ctl) (o : RayGet)
  | rastSub (c : Ctl) (a : Src)
  | ringPush (c : Ctl) (o : RingPush)
  | ringPop (c : Ctl) (o : RingPop)
  | encTile (c : Ctl) (o : AB)
  | encFrm (c : Ctl) (a : Src)
  -- events of the cores
  /-- A pending commit park of group `g` is taken (R66). -/
  | commitPark (g : Nat)
  | trapDelivery (g : Nat)
  | groupEnd (g : Nat)
  /-- Operation `op` of group `g` completes; `l1` says that an L1 copy of each line serves it where one is held (R312). -/
  | loadComplete (g op : Nat) (l1 : Bool)
  | storePerformed (g op : Nat)
  /-- The lanes of operation `op` on the line that `lane` addresses are performed (R165). -/
  | atomicPerform (g op lane : Nat)
  /-- The target answers lane `lane` of remote operation `op`; `fail` is the link's failure (R167, R168). -/
  | ratomReply (g op lane : Nat) (fail : Bool)
  | tallocComplete (wg h : Nat)
  | tileRelease (wg h : Nat)
  | copyByteCount (g op ix : Nat)
  | arrivalPerformed (g op : Nat)
  | tbarInitArm (g : Nat) (slot : Bool)
  -- events of the engines
  | passGrant (cl : Nat)
  | rowRetire (cl : Nat)
  | detachedPassComplete (cl : Nat)
  | deltaInvocation (cl : Nat)
  | deltaComplete (cl : Nat)
  | filterResult (g op : Nat)
  | slotAdd (g op ix : Nat)
  | traversalStop (g op lane : Nat)
  | rastDraw (gr : Nat)
  | rastDrawComplete (gr : Nat)
  | superblockEncode (gr stream : Nat)
  | frameComplete (gr stream : Nat)
  -- events of the memory system
  | lineFill (vf line : Nat)
  | invalidationComplete (vf : Nat) (stage2 : Bool)
  | migrationComplete (die : Nat)
  -- events of the lantern and the dispatcher
  | takeRecord (gr vf q : Nat)
  | dependenceRecheck (gr : Nat)
  | lanternChoice (gr : Nat)
  | launchComplete (lx : Nat)
  | accountingWindow (gr : Nat)
  | pwaitExpiry (gr : Nat)
  | graceExpiry (g : Nat)
  | gangSave (gang : Nat)
  | loadThrottlePeriod (core : Nat)
  | quantumEnd (gr : Nat)
  | preloadComplete (gr : Nat)
  | contextSwap (gr : Nat)
  | watchdogHang (gr : Nat)
  -- errors
  /-- An uncorrectable error at the site `site` (R397). -/
  | uncorrectableError (site : Nat) (addr : Nat)
  /-- A corrected error of class `cls` in instance `unit`, found at `addr` (R401). -/
  | correctedError (cls unit addr : Nat)
  | softErrorWindow (gr : Nat)
  -- host registers with a row of their own
  | qtailWrite (vf q : Nat) (v : Word32)
  | prqpop (vf : Nat) (stage2 : Bool)
  | prqrspRetry (vf : Nat) (stage2 : Bool) (tag : Nat)
  | prqrspFail (vf : Nat) (stage2 : Bool) (tag : Nat)
  | xinvcGo (vf : Nat) (stage2 : Bool) (v : Word64)
  | mgctlGo (die : Nat) (v : Word64)
  | pcmdFuse (first num : Nat)
  | pcmdSplit (first num : Nat)
  | pcmdRefusedOp (v : Word64)
  | sctlHold (gr : Nat) (hold : Bool)
  | sliceQuiescent (gr : Nat)
  | sctlRst (gr : Nat)
  | sliceResetDone (gr : Nat)
  | vfBind (vf slice brw : Nat)
  | vfUnbind (vf : Nat)
  | vfUnbindComplete (vf : Nat)
  | functionLevelReset (vf : Nat)
  | leaseGrant (cl : Nat)
  | controlInterval (cl : Nat)
  | railStep (r : Nat)
  | railHoldExpiry (r : Nat)
  | slpowWrite (gr : Nat) (v : Word64)
  | opcfgRailWrite (gr : Nat) (r : Nat)
  | opcfgTopWrite (gr : Nat) (t : Nat)
  | gatingCommit (unit : Nat)
  | wakeComplete (unit : Nat)
  | dbgfHreq (vf : Nat)
  | dbgfResume (vf : Nat)
  | haltComplete (vf : Nat)
  | rpctlEn (gr : Nat) (en : Bool)
  | rpctlGo (gr : Nat)
  | replayIntervalStart (gr : Nat)
  | replayStop (gr : Nat)
  -- links
  | flowStateRepeat (link : Nat)
  | nonpostedTimeout (link : Nat) (tag : Nat)
  | lnkstRetrain (link : Nat)
  | incomingAccessTimeout (vf tag : Nat)
  | bootStep (ok : Bool)
  | registerWrite (fn off : Nat) (v : Word64)
  | sliceTick (gr : Nat)
  /-- An item that R74 or R47 refuses: the 64 bits read there. -/
  | unlistedOpcode (w : Word64)
  | linkTrainingComplete (link : Nat)
  | functionLevelResetDone (vf : Nat)
  -- events with no argument of their own: what an outside agent presents with one of them stands in the machine's port (`Port`)
  | powerArbiterPeriod
  | mbAttest
  | mbCertificateChain
  | mbUpdate
  | mbRaiseCounter
  | mbClearMarks
  | mailboxCommandDone
  | packageReset
  | pcmdOperationDone
  | flitReceive
  | nakReceive
  | ackReceive
  | pauseReceive
  | resumeReceive
  | incomingWrite
  | incomingRead
  | incomingAtomicop
  | incomingCompletion
  | configurationRequest
  | atomicRequestMessage
  | atomicReplyMessage
  | unsupportedTlp
  | mbBadCommand
deriving DecidableEq, Repr

end Sys2Proof
end

