-- ==== Sys2Proof/WellFormed.lean ====
section
/-!
DEFINITION. Well-formed instructions: which registers each operand names, which types and prefix fields each instruction accepts. A word that reads
as an ill-formed instruction raises ILLEGAL at decode (R56, R57, R62, R72 step 3).
-/
set_option Elab.async false
namespace Sys2Proof

/-- The register classes an operand field can name (R25). -/
inductive RClass | v | s | p | h | a | w
deriving DecidableEq, Repr

/-- The highest register number of a class (R56). -/
def RClass.maxNum : RClass → Nat
  | .v => 255 | .s => 63 | .p => 63 | .h => 31 | .a => 7 | .w => 15

/-- Classes whose sources may carry a kill bit (R56). -/
def RClass.killable : RClass → Bool
  | .v | .s | .p => true
  | .h | .a | .w => false

/-- A named operand: its class, its encoded number and how many consecutive registers it takes. -/
structure Opnd where
  cls : RClass
  num : BitVec 8
  span : Nat := 1
  kill : Bool := false
deriving DecidableEq, Repr

/-- The operands in the four fields an index bit can mark, and the predicate of `ssel` (R122), which none can. -/
structure Opnds where
  d : Option Opnd := none
  a : Option Opnd := none
  b : Option Opnd := none
  c : Option Opnd := none
  cp : Option Opnd := none
deriving DecidableEq, Repr

def Opnd.of (cls : RClass) (n : BitVec 8) (span : Nat := 1) : Option Opnd := some { cls, num := n, span }
def Opnd.src (cls : RClass) (r : Src) (span : Nat := 1) : Option Opnd := some { cls, num := r.reg, span, kill := r.kill }
def Opnd.opt (cls : RClass) : Option Src → Option Opnd
  | some r => Opnd.src cls r
  | none => none
def UB.opnd : UB → Option Opnd
  | .reg r => Opnd.src .s r
  | .imm _ => none
def RegImm.opnd {w : Nat} : RegImm w → Option Opnd
  | .reg r => Opnd.src .s r
  | .imm _ => none
def Par.opnd : Par → Option Opnd
  | .reg r => Opnd.src .s r
  | .imm _ => none
def BarRef.opnd : BarRef → Option Opnd
  | .tile h => Opnd.of .h h
  | .peer h _ => Opnd.of .h h
  | .glob a => Opnd.src .s a

/-- UNI makes the operand uniform (R128). -/
def uniCls (uni : Bool) : RClass := if uni then .s else .v

/-- Registers of one `regs` count of `mxmma` (R200). -/
def rcntRegs (r : BitVec 2) : Nat := 2 ^ (r.toNat + 1)

def MxSrc.opnd (n : Nat) : MxSrc → Option Opnd
  | .reg r => Opnd.src .v r n
  | .tile h => Opnd.of .h h
def MxSrc.isTile : MxSrc → Bool
  | .tile _ => true
  | .reg _ => false

/-- Registers of one CNT (R159). -/
def RegCnt.num : RegCnt → Nat
  | .x1 => 1 | .x2 => 2 | .x4 => 4

/-- Source and destination register counts of `tex.*` (R240). -/
def TexDim.srcRegs : TexDim → Nat
  | .d2 => 1
  | .d2a | .d3 | .cube => 2

namespace Ctl
def srcC (c : Ctl) : BitVec 8 := match c.pre with
  | some p => p.srcC
  | none => 0
end Ctl

/-- Operand C, of class `cls`, named by the prefix (R60). -/
def opC (c : Ctl) (cls : RClass) (span : Nat := 1) : Option Opnd := Opnd.of cls c.srcC span

def UArith.ops (o : UArith) : Opnds := { d := Opnd.of .s o.d, a := Opnd.src .s o.a, b := o.b.opnd }
def PBin.ops (o : PBin) : Opnds := { d := Opnd.of .p o.d, a := Opnd.src .p o.a, b := Opnd.src .p o.b }
def PUn.ops (o : PUn) : Opnds := { d := Opnd.of .p o.d, a := Opnd.src .p o.a }
def VInt.ops (o : VInt) : Opnds := { d := Opnd.of .v o.d, a := Opnd.src .v o.a, b := Opnd.src (uniCls o.uni) o.b }
def VUn.ops (o : VUn) : Opnds := { d := Opnd.of .v o.d, a := Opnd.src .v o.a }
def F2.ops (o : F2) : Opnds := { d := Opnd.of .v o.d, a := Opnd.src .v o.a, b := Opnd.src (uniCls o.uni) o.b }
def F1.ops (o : F1) : Opnds := { d := Opnd.of .v o.d, a := Opnd.src .v o.a }
def MemOp.ops (o : MemOp) : Opnds := { d := Opnd.of .v o.d o.cnt.num, a := Opnd.src .s o.a, b := Opnd.opt .v o.b }
def ScopedOp.ops (o : ScopedOp) : Opnds := { d := Opnd.of .v o.d, a := Opnd.src .s o.a, b := Opnd.opt .v o.b }
def TileOp.ops (o : TileOp) : Opnds := { d := Opnd.of .v o.d o.cnt.num, a := Opnd.of .h o.h, b := Opnd.src .v o.b }
def Cpy.ops (o : Cpy) (n : Nat) : Opnds := { d := Opnd.of .h o.d, a := Opnd.src .s o.u n, b := match o.bar with | some h => Opnd.of .h h | none => none }
/-- Result registers of `tex.s` and `tex.l` (R240). -/
def Tex.dstRegs (o : Tex) : Nat := if o.ty = .f32 then 2 else 1
def hgRegs (n : BitVec 6) : Nat := n.toNat + 1
def hgSrcRegs (d3 : Bool) : Nat := if d3 then 2 else 1

/-- The operands of an instruction (R99, R120, R124, R125, R129, R152, R159, R164, R175, R180, R200, R222, R239, R265). -/
def Instr.operands : Instr → Opnds
  | .jmp _ a => { a := Opnd.src .s a }
  | .daymark _ _ a => { a := Opnd.opt .s a }
  | .launch _ o => { a := Opnd.src .s o.a, b := Opnd.src .s o.b }
  | .getsr _ d _ vdst => { d := Opnd.of (if vdst then .v else .s) d }
  | .setsr _ _ a => { a := Opnd.src .s a }
  | .setx _ v => { a := v.opnd }
  | .wmovToW _ d a => { d := Opnd.of .w d, a := Opnd.src .s a }
  | .wmovFromW _ d a => { d := Opnd.of .s d, a := Opnd.of .w a }
  | .sadd _ o | .ssub _ o | .smul _ o | .smulh _ o | .sand _ o | .sor _ o | .sxor _ o
  | .sshl _ o | .sshr _ o | .ssar _ o | .smin _ o | .smax _ o => o.ops
  | .snot _ o => { d := Opnd.of .s o.d, a := Opnd.src .s o.a }
  | .ssetp _ o => { d := Opnd.of .p o.d, a := Opnd.src .s o.a, b := o.b.opnd }
  | .smov _ o => { d := Opnd.of .s o.d, a := Opnd.src .s o.a }
  | .smovi _ o => { d := Opnd.of .s o.d }
  | .ssel _ o => { d := Opnd.of .s o.d, a := Opnd.src .s o.a, b := Opnd.src .s o.b, cp := Opnd.of .p (o.cp.setWidth 8) }
  | .sld _ o => { d := Opnd.of .s o.d, a := Opnd.src .s o.a }
  | .sst _ o => { a := Opnd.src .s o.a, b := Opnd.src .s o.b }
  | .pand _ o | .por _ o | .pxor _ o => o.ops
  | .pnot _ o => { d := Opnd.of .p o.d, a := Opnd.src .p o.a }
  | .pmov _ o | .voteAny _ o | .voteAll _ o => o.ops
  | .psel c o => { d := Opnd.of .p o.d, a := Opnd.src .p o.a, b := Opnd.src .p o.b, c := opC c .p }
  | .voteBal _ o => { d := Opnd.of .s o.d, a := Opnd.src .p o.a }
  | .iadd _ o | .isub _ o | .imul _ o | .imulh _ o | .imin _ o | .imax _ o
  | .ishl _ o | .ishr _ o | .isar _ o | .bfe _ o | .swz _ o => o.ops
  | .imad c o | .isad c o | .bfi c o => { o.ops with c := opC c .v }
  | .iabs _ o | .ineg _ o | .popc _ o | .clz _ o | .brev _ o => o.ops
  | .lop3 c o => { d := Opnd.of .v o.d, a := Opnd.src .v o.a, b := Opnd.src (uniCls o.uni) o.b, c := opC c .v }
  | .isetp _ o => { d := Opnd.of .p o.d, a := Opnd.src .v o.a, b := Opnd.src (uniCls o.uni) o.b }
  | .imov _ o => { d := Opnd.of .v o.d, a := Opnd.src (uniCls o.uni) o.a }
  | .imovi _ o => { d := Opnd.of .v o.d }
  | .isel c o => { d := Opnd.of .v o.d, a := Opnd.src .v o.a, b := Opnd.src (uniCls o.uni) o.b, c := opC c .p }
  | .idp4 c o => { d := Opnd.of .v o.d, a := Opnd.src .v o.a, b := Opnd.src (uniCls o.uni) o.b, c := opC c .v }
  | .fadd _ o | .fsub _ o | .fmul _ o | .fmin _ o | .fmax _ o => o.ops
  | .ffma c o => { d := Opnd.of .v o.d, a := Opnd.src .v o.a, b := Opnd.src (uniCls o.uni) o.b, c := opC c .v }
  | .fsetp _ o => { d := Opnd.of .p o.d, a := Opnd.src .v o.a, b := Opnd.src (uniCls o.uni) o.b }
  | .fclass _ o => { d := Opnd.of .p o.d, a := Opnd.src .v o.a }
  | .frnd _ o | .frcp _ o | .frsq _ o | .fsqrt _ o | .fexp2 _ o | .flog2 _ o | .fsin _ o | .fcos _ o => o.ops
  | .cvt _ o => { d := Opnd.of .v o.d, a := Opnd.src .v o.a }
  | .shfl _ o => { d := Opnd.of .v o.d, a := Opnd.src .v o.a, b := Opnd.src (uniCls o.uni) o.b }
  | .qswp _ o => { d := Opnd.of .v o.d, a := Opnd.src .v o.a }
  | .red _ o => { d := Opnd.of (if o.sdst then .s else .v) o.d, a := Opnd.src .v o.a }
  | .scan _ o => { d := Opnd.of .v o.d, a := Opnd.src .v o.a }
  | .append _ o => { d := Opnd.of .v o.d, a := Opnd.of .h o.h, b := Opnd.src .v o.b }
  | .match_ _ o => { d := Opnd.of .v o.d, a := Opnd.src .v o.a }
  | .ld _ o | .st _ o => o.ops
  | .ldt _ o | .stt _ o => o.ops
  | .lda _ o | .strl _ o => o.ops
  | .waitc _ o => { a := o.lim.opnd }
  | .pref _ o => { a := Opnd.src .s o.a, b := Opnd.opt .v o.b }
  | .cinv _ o => { a := Opnd.src .s o.a, b := Opnd.src .s o.b }
  | .cwb _ o => { a := Opnd.src .s o.a, b := Opnd.src .s o.b }
  | .atom c o => { d := Opnd.of .v o.d, a := Opnd.src .v o.a, b := Opnd.src .v o.b, c := if o.op = .cas then opC c .v else none }
  | .apost _ o => { a := Opnd.src .v o.a, b := Opnd.src .v o.b }
  | .ratom c o => { d := Opnd.of .s o.d, a := Opnd.src .v o.a, b := Opnd.src .v o.b, c := if o.op = .cas then opC c .v else none }
  | .rpoll _ o => { d := Opnd.of .v o.d, a := Opnd.src .s o.a }
  | .talloc _ o => { d := Opnd.of .h o.h, a := Opnd.src .s o.a }
  | .tfree _ h => { a := Opnd.of .h h }
  | .tqry _ o => { d := Opnd.of .s o.d, a := Opnd.of .h o.h }
  | .cpyIn _ o | .cpyOut _ o => o.ops 3
  | .cpyWin _ o => o.ops 4
  | .cpyMc c o => { d := Opnd.of .h o.d, a := Opnd.src .s o.u 3, b := Opnd.of .h o.b, c := opC c .h }
  | .tbarInit _ o | .tbarExp _ o | .tbarExpArv _ o => { a := o.bar.opnd, b := Opnd.src .s o.b }
  | .tbarArv _ bar | .tbarInval _ bar => { a := bar.opnd }
  | .tbarWait _ o => { a := o.bar.opnd, b := o.par.opnd }
  | .tbarTestPh _ o => { d := Opnd.of .p o.d, a := o.bar.opnd, b := o.par.opnd }
  | .tbarTestBrk _ o => { d := Opnd.of .p o.d, a := o.bar.opnd }
  | .mxreq _ d | .mxrel _ d | .mxzero _ d => { d := Opnd.of .a d }
  | .mxmma c o =>
    { d := Opnd.of .a o.d, a := o.a.opnd (rcntRegs o.rcnt), b := o.b.opnd (rcntRegs o.rcnt),
      c := if o.a.isTile || o.b.isTile then opC c .s (2 * (b2n o.a.isTile + b2n o.b.isTile)) else none }
  | .mxscl _ o => { a := Opnd.src .s o.a, b := Opnd.src .s o.b }
  | .mxwin _ a | .mxpass _ a => { a := Opnd.src .s a }
  | .mxdrn _ o => { d := Opnd.of .v o.d, a := Opnd.of .a o.a }
  | .dlrBind _ o => { a := Opnd.src .s o.a, b := Opnd.src .s o.b 2 }
  | .dlrInval _ a | .mxdelta _ a => { a := Opnd.src .s a }
  | .dlrStat _ o => { d := Opnd.of .s o.d, a := Opnd.src .s o.a }
  | .wregSet _ o => { a := Opnd.src .s o.a, b := Opnd.src .s o.b }
  | .texS _ o => { d := Opnd.of .v o.d o.dstRegs, a := Opnd.src .v o.a o.dim.srcRegs, b := Opnd.src .s o.b }
  | .texL _ o => { d := Opnd.of .v o.d o.dstRegs, a := Opnd.src .v o.a 2, b := Opnd.src .s o.b }
  | .texQDim _ o => { d := Opnd.of .v o.d 2, a := Opnd.src .v o.a, b := Opnd.src .s o.b }
  | .texQLod _ o => { d := Opnd.of .v o.d, a := Opnd.src .v o.a o.dim.srcRegs, b := Opnd.src .s o.b }
  | .hgFetch _ o => { d := Opnd.of .v o.d (hgRegs o.nregm), a := Opnd.src .v o.a (hgSrcRegs o.d3), b := Opnd.src .s o.b }
  | .hgScat _ o => { d := Opnd.of .v o.d (hgRegs o.nregm), a := Opnd.src .v o.a (hgSrcRegs o.d3), b := Opnd.src .s o.b }
  | .rayTrc _ o => { d := Opnd.of .v o.d 4, a := Opnd.src .s o.a, b := Opnd.src .s o.b }
  | .rayRsm _ o => { a := Opnd.src .s o.a, b := Opnd.opt .v o.b }
  | .rayCmt _ o => { a := Opnd.src .s o.a, b := Opnd.src .v o.b }
  | .rayGet _ o => { d := Opnd.of .v o.d (match o.sel with | .hit => 3 | .leaf => 2 | .oray => 4), a := Opnd.src .s o.a }
  | .rastSub _ a | .encFrm _ a => { a := Opnd.src .s a }
  | .ringPush _ o => { a := Opnd.of .h o.h, b := Opnd.src .v o.b }
  | .ringPop _ o => { d := Opnd.of .v o.d, a := Opnd.of .h o.h }
  | .encTile _ o => { a := Opnd.src .s o.a, b := Opnd.src .s o.b }
  | _ => {}

/-- What an instruction accepts from a prefix beside index bits, and whether it is per-lane (R62, R99, R120, R125, R129, R151). -/
structure Accept where
  mask : Bool := false
  zero : Bool := false
  rmode : Bool := false
deriving DecidableEq, Repr

/-- Acceptance of MEN, ZERO and RMODE (R62, R99, R122, R125, R129, R151, R181, R200, R241, R266). -/
def Instr.accept : Instr → Accept
  | .exit _ => { mask := true }
  | .getsr _ _ _ vdst => { mask := vdst, zero := vdst }
  | .ssetp .. => { mask := true, zero := true }
  | .pand .. | .por .. | .pxor .. | .pnot .. | .pmov .. | .psel .. | .voteAny .. | .voteAll .. => { mask := true, zero := true }
  | .voteBal .. => { mask := true }
  | .iadd .. | .isub .. | .imul .. | .imulh .. | .imad .. | .iabs .. | .ineg .. | .imin .. | .imax .. | .isad ..
  | .ishl .. | .ishr .. | .isar .. | .lop3 .. | .popc .. | .clz .. | .brev .. | .bfe .. | .bfi .. | .isetp ..
  | .imov .. | .imovi .. | .isel .. | .idp4 .. | .swz .. => { mask := true, zero := true }
  | .fadd .. | .fsub .. | .fmul .. | .ffma .. | .frnd .. | .cvt .. | .fsqrt .. => { mask := true, zero := true, rmode := true }
  | .fmin .. | .fmax .. | .fsetp .. | .fclass .. | .frcp .. | .frsq .. | .fexp2 .. | .flog2 .. | .fsin .. | .fcos .. => { mask := true, zero := true }
  | .shfl .. | .qswp .. | .scan .. | .append .. | .match_ .. => { mask := true, zero := true }
  | .red _ o => { mask := true, zero := !o.sdst }
  | .ld .. | .lda .. | .ldt .. => { mask := true, zero := true }
  | .st .. | .strl .. | .stt .. | .pref .. => { mask := true }
  | .atom .. | .rpoll .. => { mask := true, zero := true }
  | .apost .. | .ratom .. => { mask := true }
  | .tbarTestPh .. | .tbarTestBrk .. | .mxdrn .. => { mask := true, zero := true }
  | .texS .. | .texL .. | .texQDim .. | .texQLod .. | .hgFetch .. => { mask := true, zero := true }
  | .hgScat .. => { mask := true }
  | .rayTrc .. | .rayRsm .. | .rayCmt .. | .ringPush .. => { mask := true }
  | .rayGet .. | .ringPop .. => { mask := true, zero := true }
  | _ => {}

namespace Ty
/-- Width in bits (R75, R77, R79). -/
def width : Ty → Nat
  | .none => 0
  | .i8 | .n8 | .b8 | .e4m3 | .e5m2 | .e3m2 | .e2m3 | .e8m0 | .e5m3n => 8
  | .i16 | .n16 | .b16 | .f16 | .bf16 => 16
  | .i32 | .n32 | .b32 | .f32 => 32
  | .i64 | .n64 | .b64 | .f64 => 64
  | .e2m1 => 4
def isI : Ty → Bool
  | .i8 | .i16 | .i32 | .i64 => true
  | _ => false
def isN : Ty → Bool
  | .n8 | .n16 | .n32 | .n64 => true
  | _ => false
def isB : Ty → Bool
  | .b8 | .b16 | .b32 | .b64 => true
  | _ => false
def isInt (t : Ty) : Bool := t.isI || t.isN
def isF : Ty → Bool
  | .f16 | .bf16 | .f32 | .f64 => true
  | _ => false
def isNarrow : Ty → Bool
  | .e5m2 | .e4m3 | .e3m2 | .e2m3 | .e2m1 => true
  | _ => false
end Ty

/-- Types of `sadd` and its like (R121). -/
def tyU4 (t : Ty) : Bool := t = .i32 || t = .i64 || t = .n32 || t = .n64
def tyB2 (t : Ty) : Bool := t = .b32 || t = .b64
/-- Types of the loads (R159). -/
def tyLoad (t : Ty) : Bool :=
  t = .i8 || t = .i16 || t = .i32 || t = .n8 || t = .n16 || t = .n32 || t.isB

/-- The conversions of R89. -/
def convPair (s d : Ty) : Bool :=
  if s = d then false
  else if s.isInt then d.isInt || d.isF
  else match s with
    | .f64 => d.isInt || d = .f32 || d = .f16 || d = .bf16
    | .f32 => d.isInt || d = .f64 || d = .f16 || d = .bf16 || d.isNarrow || d = .e8m0 || d = .e5m3n
    | .f16 | .bf16 => d.isInt || d.isF || d.isNarrow
    | .e5m2 | .e4m3 | .e3m2 | .e2m3 | .e2m1 => d = .f32 || d = .f16 || d = .bf16
    | .e8m0 | .e5m3n => d = .f32
    | _ => false

/-- SAT of `cvt` is taken by integer pairs and by conversions to E5M2 (R148). -/
def Cvt.ok (o : Cvt) : Bool :=
  convPair o.src o.dst && (!o.sat || (o.src.isInt && o.dst.isInt) || o.dst = .e5m2) &&
  decide (o.part.toNat < max o.src.width o.dst.width / min o.src.width o.dst.width)

/-- Types of each operation of the atomics (R164). -/
def AtomOp.tyOk : AtomOp → Ty → Bool
  | .add, t | .sub, t | .min, t | .max, t => tyU4 t
  | .and, t | .or, t | .xor, t | .xchg, t | .cas, t => tyB2 t
  | .fadd, t => t = .f32 || t = .f64
  | .dmin, t => t = .b64

/-- Types of each operation of `red` (R154). -/
def RedOp.tyOk : RedOp → Ty → Bool
  | .add, t | .min, t | .max, t => t.isInt || t.isF
  | .and, t | .or, t | .xor, t => t.isB
  | .minidx, t | .maxidx, t => (t.isInt && t.width ≠ 64) || t = .f16 || t = .bf16 || t = .f32

namespace EFmt
/-- Width class of an engine format (R200). -/
def width : EFmt → Nat
  | .f32 => 32
  | .bf16 | .f16 => 16
  | .e5m2 | .e4m3 | .e3m2 | .e2m3 | .int8 => 8
  | .e2m1 | .int4 => 4
end EFmt

/-- The numbers of R31. -/
def srListed (n : BitVec 8) : Bool :=
  [0x00, 0x02, 0x03, 0x04, 0x05, 0x06, 0x07, 0x08, 0x09, 0x0A, 0x0B, 0x0C, 0x0D, 0x0E, 0x10, 0x11, 0x12,
   0x18, 0x19, 0x1A, 0x1B, 0x20, 0x21, 0x28, 0x30, 0x31, 0x32, 0x33, 0x34].contains n.toNat

/-- Sub-element select within a lane (R134, R141, R142). -/
def selOk (t : Ty) (sel : BitVec 3) : Bool := decide (sel.toNat < 64 / t.width)

/-- Field values an instruction accepts beyond its register numbers: types and their limits. -/
def Instr.typesOk : Instr → Bool
  | .getsr _ _ sr vdst => srListed sr && (if vdst then sr = 0 else sr ≠ 0)
  | .setsr _ sr _ => srListed sr
  | .sadd _ o | .ssub _ o | .smul _ o => tyU4 o.ty
  | .smulh _ o => (o.ty = .i64 || o.ty = .n64) && !o.sat
  | .sand _ o | .sor _ o | .sxor _ o | .sshl _ o | .sshr _ o | .ssar _ o => tyB2 o.ty && !o.sat
  | .smin _ o | .smax _ o => tyU4 o.ty && !o.sat
  | .snot _ o => tyB2 o.ty
  | .ssetp _ o => (tyU4 o.ty || tyB2 o.ty) && (!o.ty.isB || o.cmp = .eq || o.cmp = .ne)
  | .ssel _ o => tyB2 o.ty
  | .sld _ o => o.ty.isInt || o.ty = .b64
  | .sst _ o => o.ty.isB
  | .iadd _ o | .isub _ o | .imul _ o | .imad _ o | .isad _ o => o.ty.isInt
  | .imulh _ o | .imin _ o | .imax _ o => o.ty.isInt && !o.sat
  | .iabs _ o | .ineg _ o => o.ty.isI
  | .ishl _ o | .ishr _ o | .isar _ o => o.ty.isB && !o.sat
  | .popc _ o | .clz _ o | .brev _ o => o.ty.isB && !o.sat
  | .bfe _ o => tyU4 o.ty && !o.sat
  | .bfi _ o => tyB2 o.ty && !o.sat
  | .isetp _ o => (o.ty.isInt || (o.ty.isB && (o.cmp = .eq || o.cmp = .ne))) && selOk o.ty o.sel
  | .idp4 _ o => (o.ta = .i8 || o.ta = .n8) && (o.tb = .i8 || o.tb = .n8)
  | .swz _ o => (o.ty = .b8 || o.ty = .b16 || o.ty = .b32) && !o.sat
  | .fadd _ o | .fsub _ o | .fmul _ o | .fmin _ o | .fmax _ o => o.ty.isF
  | .ffma _ o => o.ty.isF
  | .fsetp _ o => o.ty.isF && selOk o.ty o.sel
  | .fclass _ o => o.ty.isF && selOk o.ty o.sel
  | .frnd _ o | .fsqrt _ o => o.ty.isF
  | .frcp _ o | .frsq _ o => o.ty = .f64 || o.ty = .f32 || o.ty = .f16
  | .fexp2 _ o | .flog2 _ o | .fsin _ o | .fcos _ o => o.ty = .f32 || o.ty = .f16
  | .cvt _ o => o.ok
  | .shfl _ o => o.ty.isB
  | .red _ o => o.op.tyOk o.ty
  | .scan _ o => o.op.tyOk o.ty && o.op ≠ .minidx && o.op ≠ .maxidx
  | .append _ o => tyB2 o.ty
  | .match_ _ o => tyB2 o.ty
  | .ld _ o => tyLoad o.ty && (o.cnt = .x1 || o.ty = .b64)
  | .st _ o => o.ty.isB && (o.cnt = .x1 || o.ty = .b64)
  | .ldt _ o => tyLoad o.ty && (o.cnt = .x1 || o.ty = .b64)
  | .stt _ o => o.ty.isB && (o.cnt = .x1 || o.ty = .b64)
  | .lda _ o => tyLoad o.ty
  | .strl _ o => o.ty.isB
  | .atom _ o => o.op.tyOk o.ty
  | .apost _ o => o.op.tyOk o.ty && o.op ≠ .xchg && o.op ≠ .cas && (o.ord = .rlx || o.ord = .rel)
  | .ratom _ o => o.op.tyOk o.ty && o.op ≠ .dmin
  | .rpoll _ o => tyU4 o.ty || tyB2 o.ty || o.ty = .f32 || o.ty = .f64
  | .mxmma _ o =>
    decide (o.fa.width = o.fb.width) && (!(o.a.isTile && o.b.isTile) || o.rcnt = 0) && (!o.win || o.a.isTile)
  | .texS _ o | .texL _ o => o.ty = .f32 || o.ty = .f16
  | .hgFetch _ o => o.ty = .f32 || o.ty = .f16 || o.ty = .bf16
  | .hgScat _ o => o.ty = .f32 || o.ty = .f16 || o.ty = .bf16
  | _ => true

/-- An operand within its class maximum, its last register included, and a kill bit only where one is taken (R56). -/
def Opnd.ok (o : Opnd) : Bool := decide (o.num.toNat + o.span ≤ o.cls.maxNum + 1) && (!o.kill || o.cls.killable)

def optOpndOk : Option Opnd → Bool
  | some o => o.ok
  | none => true

/-- The prefix fields that an instruction takes (R62); an instruction with an operand C needs a prefix. -/
def prefixOk (i : Instr) (c : Ctl) : Bool :=
  let o := i.operands
  let a := i.accept
  match c.pre with
  | none => o.c.isNone
  | some p =>
    (!p.zero || a.zero) && (p.mask.isNone || a.mask) && (p.rmode.isNone || a.rmode) && (o.c.isSome || p.srcC = 0) &&
    (!p.idxD || o.d.isSome) && (!p.idxA || o.a.isSome) && (!p.idxB || o.b.isSome) && (!p.idxC || o.c.isSome)

/-- The control part of an instruction of the opcode map; none for an event. -/
def Instr.ctl : Instr → Option Ctl
  | .br c .. | .brc c .. | .jmp c .. | .call c .. | .ret c | .exit c | .trap c .. | .trapRet c | .trapSkip c | .brk c ..
  | .nop c | .yield c | .park c | .daymark c .. | .syncWg c | .syncGang c | .launch c .. | .getsr c .. | .setsr c ..
  | .setx c .. | .wmovToW c .. | .wmovFromW c .. => some c
  | .sadd c _ | .ssub c _ | .smul c _ | .smulh c _ | .sand c _ | .sor c _ | .sxor c _ | .snot c _ | .sshl c _ | .sshr c _
  | .ssar c _ | .smin c _ | .smax c _ | .ssetp c _ | .smov c _ | .smovi c _ | .ssel c _ | .sld c _ | .sst c _ => some c
  | .pand c _ | .por c _ | .pxor c _ | .pnot c _ | .pmov c _ | .psel c _ | .voteAny c _ | .voteAll c _ | .voteBal c _ => some c
  | .iadd c _ | .isub c _ | .imul c _ | .imulh c _ | .imad c _ | .iabs c _ | .ineg c _ | .imin c _ | .imax c _ | .isad c _
  | .ishl c _ | .ishr c _ | .isar c _ | .lop3 c _ | .popc c _ | .clz c _ | .brev c _ | .bfe c _ | .bfi c _ | .isetp c _
  | .imov c _ | .imovi c _ | .isel c _ | .idp4 c _ | .swz c _ => some c
  | .fadd c _ | .fsub c _ | .fmul c _ | .ffma c _ | .fmin c _ | .fmax c _ | .fsetp c _ | .fclass c _ | .frnd c _ | .cvt c _ => some c
  | .frcp c _ | .frsq c _ | .fsqrt c _ | .fexp2 c _ | .flog2 c _ | .fsin c _ | .fcos c _ => some c
  | .shfl c _ | .qswp c _ | .red c _ | .scan c _ | .append c _ | .match_ c _ => some c
  | .ld c _ | .st c _ | .ldt c _ | .stt c _ | .lda c _ | .strl c _ | .fence c _ | .waitc c _ | .pref c _ | .cinv c _ | .cwb c _ => some c
  | .atom c _ | .apost c _ | .ratom c _ | .rpoll c _ | .talloc c _ | .tfree c _ | .tqry c _ => some c
  | .cpyIn c _ | .cpyOut c _ | .cpyMc c _ | .cpyWin c _ | .tbarInit c _ | .tbarArv c _ | .tbarExp c _ | .tbarExpArv c _
  | .tbarWait c _ | .tbarTestPh c _ | .tbarTestBrk c _ | .tbarInval c _ => some c
  | .mxreq c _ | .mxrel c _ | .mxmma c _ | .mxscl c _ | .mxsclNone c _ | .mxwin c _ | .mxzero c _ | .mxdrn c _ | .mxpass c _ => some c
  | .dlrBind c _ | .dlrInval c _ | .dlrStat c _ | .mxdelta c _ | .wregSet c _ | .wregClr c _ => some c
  | .texS c _ | .texL c _ | .texQDim c _ | .texQLod c _ | .hgFetch c _ | .hgScat c _ => some c
  | .rayTrc c _ | .rayRsm c _ | .rayCmt c _ | .rayGet c _ | .rastSub c _ | .ringPush c _ | .ringPop c _ | .encTile c _ | .encFrm c _ => some c
  | _ => none

/-- A well-formed instruction: its types, registers and prefix are ones the spec accepts. An event is well-formed whatever it carries. -/
def Instr.wf (i : Instr) : Bool :=
  match i.ctl with
  | none => true
  | some c =>
    let o := i.operands
    i.typesOk && optOpndOk o.d && optOpndOk o.a && optOpndOk o.b && optOpndOk o.c && optOpndOk o.cp && prefixOk i c

end Sys2Proof
end

