-- ==== Sys2Proof/Decode.lean ====
section
/-!
DEFINITION. The decoder and, after it, the encoder, written from the encoding tables of the spec (R47, R54, R55, R57, R60, R73). The decoder reads the
fields of a word into an instruction and accepts it only when the instruction's own fields are the word's (so a reserved bit is never dropped) and it is
well-formed. Every other word is rejected under a name.
-/
set_option Elab.async false
namespace Sys2Proof

/-! ### Codes of the enumerations -/

/-- Rounding clause codes (R60); 000 stands for no clause. -/
def Rounding.code : Rounding → BitVec 3
  | .rne => 1 | .rz => 2 | .rdn => 3 | .rup => 4 | .rna => 5
def Rounding.ofCode (b : BitVec 3) : Option Rounding :=
  match b.toNat with
  | 1 => some .rne | 2 => some .rz | 3 => some .rdn | 4 => some .rup | 5 => some .rna
  | _ => none
/-- Type codes (R57). -/
def Ty.code : Ty → BitVec 5
  | .none => 0 | .i8 => 1 | .i16 => 2 | .i32 => 3 | .i64 => 4 | .n8 => 5 | .n16 => 6 | .n32 => 7
  | .n64 => 8 | .b8 => 9 | .b16 => 10 | .b32 => 11 | .b64 => 12 | .f16 => 13 | .bf16 => 14 | .f32 => 15
  | .f64 => 16 | .e4m3 => 17 | .e5m2 => 18 | .e3m2 => 19 | .e2m3 => 20 | .e2m1 => 21 | .e8m0 => 22 | .e5m3n => 23
def Ty.ofCode (b : BitVec 5) : Option Ty :=
  match b.toNat with
  | 0 => some .none | 1 => some .i8 | 2 => some .i16 | 3 => some .i32 | 4 => some .i64 | 5 => some .n8 | 6 => some .n16 | 7 => some .n32
  | 8 => some .n64 | 9 => some .b8 | 10 => some .b16 | 11 => some .b32 | 12 => some .b64 | 13 => some .f16 | 14 => some .bf16 | 15 => some .f32
  | 16 => some .f64 | 17 => some .e4m3 | 18 => some .e5m2 | 19 => some .e3m2 | 20 => some .e2m3 | 21 => some .e2m1 | 22 => some .e8m0 | 23 => some .e5m3n
  | _ => none
/-- CMP codes (R122). -/
def Cmp.code : Cmp → BitVec 3
  | .eq => 0 | .ne => 1 | .lt => 2 | .le => 3 | .gt => 4 | .ge => 5
def Cmp.ofCode (b : BitVec 3) : Option Cmp :=
  match b.toNat with
  | 0 => some .eq | 1 => some .ne | 2 => some .lt | 3 => some .le | 4 => some .gt | 5 => some .ge
  | _ => none
/-- CMP codes of `fsetp` (R141). -/
def FCmp.code : FCmp → BitVec 4
  | .eq => 0 | .ne => 1 | .lt => 2 | .le => 3 | .gt => 4 | .ge => 5 | .num => 6 | .nan => 7
  | .equ => 8 | .neu => 9 | .ltu => 10 | .leu => 11 | .gtu => 12 | .geu => 13
def FCmp.ofCode (b : BitVec 4) : Option FCmp :=
  match b.toNat with
  | 0 => some .eq | 1 => some .ne | 2 => some .lt | 3 => some .le | 4 => some .gt | 5 => some .ge | 6 => some .num | 7 => some .nan
  | 8 => some .equ | 9 => some .neu | 10 => some .ltu | 11 => some .leu | 12 => some .gtu | 13 => some .geu
  | _ => none
/-- MODE codes (R152). -/
def ShflMode.code : ShflMode → BitVec 3
  | .gat => 0 | .fwd => 1 | .back => 2 | .rot => 3 | .flip => 4
def ShflMode.ofCode (b : BitVec 3) : Option ShflMode :=
  match b.toNat with
  | 0 => some .gat | 1 => some .fwd | 2 => some .back | 3 => some .rot | 4 => some .flip
  | _ => none
/-- DIR codes (R153). -/
def QDir.code : QDir → BitVec 3
  | .h => 0 | .v => 1 | .d => 2 | .b0 => 4 | .b1 => 5 | .b2 => 6 | .b3 => 7
def QDir.ofCode (b : BitVec 3) : Option QDir :=
  match b.toNat with
  | 0 => some .h | 1 => some .v | 2 => some .d | 4 => some .b0 | 5 => some .b1 | 6 => some .b2 | 7 => some .b3
  | _ => none
/-- OP codes (R154). -/
def RedOp.code : RedOp → BitVec 3
  | .add => 0 | .min => 1 | .max => 2 | .and => 3 | .or => 4 | .xor => 5 | .minidx => 6 | .maxidx => 7
def RedOp.ofCode (b : BitVec 3) : Option RedOp :=
  match b.toNat with
  | 0 => some .add | 1 => some .min | 2 => some .max | 3 => some .and | 4 => some .or | 5 => some .xor | 6 => some .minidx | 7 => some .maxidx
  | _ => none
/-- SCOPE codes (R159). -/
def Scope.code : Scope → BitVec 3
  | .g => 0 | .w => 1 | .k => 2 | .t => 3 | .s => 4
def Scope.ofCode (b : BitVec 3) : Option Scope :=
  match b.toNat with
  | 0 => some .g | 1 => some .w | 2 => some .k | 3 => some .t | 4 => some .s
  | _ => none
/-- ORD codes of `fence` (R172). -/
def FenceOrd.code : FenceOrd → BitVec 2
  | .acq => 0 | .rel => 1 | .ar => 2 | .sc => 3
def FenceOrd.ofCode (b : BitVec 2) : Option FenceOrd :=
  match b.toNat with
  | 0 => some .acq | 1 => some .rel | 2 => some .ar | 3 => some .sc
  | _ => none
/-- ORD codes of the atomics (R164). -/
def AtomOrd.code : AtomOrd → BitVec 2
  | .rlx => 0 | .acq => 1 | .rel => 2 | .ar => 3
def AtomOrd.ofCode (b : BitVec 2) : Option AtomOrd :=
  match b.toNat with
  | 0 => some .rlx | 1 => some .acq | 2 => some .rel | 3 => some .ar
  | _ => none
/-- OP codes of the atomics (R164). -/
def AtomOp.code : AtomOp → BitVec 4
  | .add => 0 | .sub => 1 | .min => 2 | .max => 3 | .and => 4 | .or => 5 | .xor => 6 | .xchg => 7
  | .cas => 8 | .fadd => 9 | .dmin => 10
def AtomOp.ofCode (b : BitVec 4) : Option AtomOp :=
  match b.toNat with
  | 0 => some .add | 1 => some .sub | 2 => some .min | 3 => some .max | 4 => some .and | 5 => some .or | 6 => some .xor | 7 => some .xchg
  | 8 => some .cas | 9 => some .fadd | 10 => some .dmin
  | _ => none
/-- PATH codes (R171). -/
def Path.code : Path → BitVec 3
  | .load => 0 | .store => 1 | .copy => 2 | .mx => 3 | .filt => 4 | .ray => 5 | .rem => 6
def Path.ofCode (b : BitVec 3) : Option Path :=
  match b.toNat with
  | 0 => some .load | 1 => some .store | 2 => some .copy | 3 => some .mx | 4 => some .filt | 5 => some .ray | 6 => some .rem
  | _ => none
/-- KIND codes (R175). -/
def TKind.code : TKind → BitVec 2
  | .data => 0 | .barrier => 1 | .ring => 2
def TKind.ofCode (b : BitVec 2) : Option TKind :=
  match b.toNat with
  | 0 => some .data | 1 => some .barrier | 2 => some .ring
  | _ => none
/-- Engine format codes (R200). -/
def EFmt.code : EFmt → BitVec 4
  | .f32 => 0 | .bf16 => 1 | .f16 => 2 | .e5m2 => 3 | .e4m3 => 4 | .e3m2 => 5 | .e2m3 => 6 | .e2m1 => 7
  | .int8 => 8 | .int4 => 9
def EFmt.ofCode (b : BitVec 4) : Option EFmt :=
  match b.toNat with
  | 0 => some .f32 | 1 => some .bf16 | 2 => some .f16 | 3 => some .e5m2 | 4 => some .e4m3 | 5 => some .e3m2 | 6 => some .e2m3 | 7 => some .e2m1
  | 8 => some .int8 | 9 => some .int4
  | _ => none
/-- DIMS codes (R240). -/
def TexDim.code : TexDim → BitVec 2
  | .d2 => 0 | .d2a => 1 | .d3 => 2 | .cube => 3
def TexDim.ofCode (b : BitVec 2) : Option TexDim :=
  match b.toNat with
  | 0 => some .d2 | 1 => some .d2a | 2 => some .d3 | 3 => some .cube
  | _ => none
/-- SEL codes (R265). -/
def RaySel.code : RaySel → BitVec 2
  | .hit => 0 | .leaf => 1 | .oray => 2
def RaySel.ofCode (b : BitVec 2) : Option RaySel :=
  match b.toNat with
  | 0 => some .hit | 1 => some .leaf | 2 => some .oray
  | _ => none
/-- CULL codes (R265). -/
def Cull.code : Cull → BitVec 2
  | .none => 0 | .back => 1 | .front => 2
def Cull.ofCode (b : BitVec 2) : Option Cull :=
  match b.toNat with
  | 0 => some .none | 1 => some .back | 2 => some .front
  | _ => none
/-- CP codes (R159). -/
def CachePol.code : CachePol → BitVec 2
  | .dflt => 0 | .l2 => 1 | .ev => 2
def CachePol.ofCode (b : BitVec 2) : Option CachePol :=
  match b.toNat with
  | 0 => some .dflt | 1 => some .l2 | 2 => some .ev
  | _ => none
/-- CNT codes (R159). -/
def RegCnt.code : RegCnt → BitVec 2
  | .x1 => 0 | .x2 => 1 | .x4 => 2
def RegCnt.ofCode (b : BitVec 2) : Option RegCnt :=
  match b.toNat with
  | 0 => some .x1 | 1 => some .x2 | 2 => some .x4
  | _ => none

/-- The fields of a base instruction outside its opcode and its guard (R54). In the I-form IMM is MOD, KILLB and SRCB together (R55). -/
structure Fields where
  mod : BitVec 18 := 0
  killB : Bool := false
  srcB : BitVec 8 := 0
  killA : Bool := false
  srcA : BitVec 8 := 0
  dst : BitVec 8 := 0
deriving DecidableEq, Repr

/-- A Bool as one bit. -/
def bit (b : Bool) : BitVec 1 := BitVec.ofBool b

/-- Bits `lo + len - 1` to `lo` of MOD. -/
def Fields.m (f : Fields) (lo len : Nat) : BitVec len := f.mod.extractLsb' lo len
/-- Bit `i` of MOD. -/
def Fields.mb (f : Fields) (i : Nat) : Bool := f.mod.getLsbD i
def Fields.a (f : Fields) : Src := { reg := f.srcA, kill := f.killA }
def Fields.b (f : Fields) : Src := { reg := f.srcB, kill := f.killB }
/-- IMM of the I-form (R55). -/
def Fields.imm (f : Fields) : BitVec 27 := f.mod ++ bit f.killB ++ f.srcB
/-- The type code in MOD[4:0] (R57). -/
def Fields.ty (f : Fields) : Option Ty := Ty.ofCode (f.m 0 5)

/-- Add source A to the fields. -/
def Fields.setA (f : Fields) (s : Src) : Fields := { f with srcA := s.reg, killA := s.kill }
/-- Add source B to the fields. -/
def Fields.setB (f : Fields) (s : Src) : Fields := { f with srcB := s.reg, killB := s.kill }
def Fields.setOptA (f : Fields) : Option Src → Fields
  | some s => f.setA s
  | none => f
def Fields.setOptB (f : Fields) : Option Src → Fields
  | some s => f.setB s
  | none => f
/-- The fields of an I-form instruction (R55). -/
def Fields.ofImm (imm : BitVec 27) (d : BitVec 8 := 0) : Fields :=
  { mod := imm.extractLsb' 9 18, killB := imm.getLsbD 8, srcB := imm.extractLsb' 0 8, dst := d }

/-! ### Fields of each operand shape -/

def UArith.fields (o : UArith) : Fields :=
  match o.b with
  | .reg r => { mod := bit false ++ bit o.sat ++ 0#3 ++ 0#8 ++ o.ty.code, dst := o.d, srcA := o.a.reg, killA := o.a.kill, srcB := r.reg, killB := r.kill }
  | .imm n => { mod := bit true ++ bit o.sat ++ 0#3 ++ n.extractLsb' 8 8 ++ o.ty.code, dst := o.d, srcA := o.a.reg, killA := o.a.kill, srcB := n.extractLsb' 0 8 }
/-- Source B of a uniform instruction: BI in MOD[17], IMMH in MOD[12:5] (R120). -/
def Fields.ub (f : Fields) : UB := if f.mb 17 then .imm (f.m 5 8 ++ f.srcB) else .reg f.b
def UArith.ofFields (f : Fields) : Option UArith := do
  let ty ← f.ty
  pure { d := f.dst, a := f.a, b := f.ub, sat := f.mb 16, ty }

def UUn.fields (o : UUn) : Fields := { mod := 0#13 ++ o.ty.code, dst := o.d, srcA := o.a.reg, killA := o.a.kill }
def UUn.ofFields (f : Fields) : Option UUn := do pure { d := f.dst, a := f.a, ty := ← f.ty }

def USetp.fields (o : USetp) : Fields :=
  match o.b with
  | .reg r => { mod := bit false ++ 0#1 ++ o.cmp.code ++ 0#8 ++ o.ty.code, dst := o.d, srcA := o.a.reg, killA := o.a.kill, srcB := r.reg, killB := r.kill }
  | .imm n => { mod := bit true ++ 0#1 ++ o.cmp.code ++ n.extractLsb' 8 8 ++ o.ty.code, dst := o.d, srcA := o.a.reg, killA := o.a.kill, srcB := n.extractLsb' 0 8 }
def USetp.ofFields (f : Fields) : Option USetp := do
  let cmp ← Cmp.ofCode (f.m 13 3)
  pure { d := f.dst, a := f.a, b := f.ub, cmp, ty := ← f.ty }

def USel.fields (o : USel) : Fields :=
  ({ mod := 0#7 ++ o.cp ++ o.ty.code, dst := o.d } : Fields).setA o.a |>.setB o.b
def USel.ofFields (f : Fields) : Option USel := do pure { d := f.dst, a := f.a, b := f.b, cp := f.m 5 6, ty := ← f.ty }

def ULoad.fields (o : ULoad) : Fields := ({ mod := o.off ++ o.ty.code, dst := o.d } : Fields).setA o.a
def ULoad.ofFields (f : Fields) : Option ULoad := do pure { d := f.dst, a := f.a, off := f.m 5 13, ty := ← f.ty }
def UStore.fields (o : UStore) : Fields := ({ mod := o.off ++ o.ty.code } : Fields).setA o.a |>.setB o.b
def UStore.ofFields (f : Fields) : Option UStore := do pure { a := f.a, b := f.b, off := f.m 5 13, ty := ← f.ty }

def PBin.fields (o : PBin) : Fields := ({ mod := 0#11 ++ bit o.nb ++ bit o.na ++ 0#5, dst := o.d } : Fields).setA o.a |>.setB o.b
def PBin.ofFields (f : Fields) : Option PBin := some { d := f.dst, a := f.a, b := f.b, na := f.mb 5, nb := f.mb 6 }
def PUn.fields (o : PUn) : Fields := ({ mod := 0#12 ++ bit o.na ++ 0#5, dst := o.d } : Fields).setA o.a
def PUn.ofFields (f : Fields) : Option PUn := some { d := f.dst, a := f.a, na := f.mb 5 }
/-- A destination and two sources under a fixed MOD. -/
def DAB.fields (o : DAB) (mod : BitVec 18) : Fields := ({ mod, dst := o.d } : Fields).setA o.a |>.setB o.b
def DAB.ofFields (f : Fields) : Option DAB := some { d := f.dst, a := f.a, b := f.b }
def DA.fields (o : DA) (mod : BitVec 18) : Fields := ({ mod, dst := o.d } : Fields).setA o.a
def DA.ofFields (f : Fields) : Option DA := some { d := f.dst, a := f.a }
def AB.fields (o : AB) (mod : BitVec 18) : Fields := ({ mod } : Fields).setA o.a |>.setB o.b
def AB.ofFields (f : Fields) : Option AB := some { a := f.a, b := f.b }
def Src.fieldsA (a : Src) (mod : BitVec 18) : Fields := ({ mod } : Fields).setA a

def VInt.fields (o : VInt) : Fields := ({ mod := bit o.uni ++ bit o.sat ++ 0#11 ++ o.ty.code, dst := o.d } : Fields).setA o.a |>.setB o.b
def VInt.ofFields (f : Fields) : Option VInt := do pure { d := f.dst, a := f.a, b := f.b, uni := f.mb 17, sat := f.mb 16, ty := ← f.ty }
def VUn.fields (o : VUn) : Fields := ({ mod := 0#1 ++ bit o.sat ++ 0#11 ++ o.ty.code, dst := o.d } : Fields).setA o.a
def VUn.ofFields (f : Fields) : Option VUn := do pure { d := f.dst, a := f.a, sat := f.mb 16, ty := ← f.ty }
def Lop3.fields (o : Lop3) : Fields := ({ mod := bit o.uni ++ 0#4 ++ o.f1 ++ o.f0 ++ Ty.b64.code, dst := o.d } : Fields).setA o.a |>.setB o.b
def Lop3.ofFields (f : Fields) : Option Lop3 := some { d := f.dst, a := f.a, b := f.b, uni := f.mb 17, f0 := f.m 5 4, f1 := f.m 9 4 }
def ISetp.fields (o : ISetp) : Fields :=
  ({ mod := bit o.uni ++ 0#1 ++ o.cmp.code ++ 0#5 ++ o.sel ++ o.ty.code, dst := o.d } : Fields).setA o.a |>.setB o.b
def ISetp.ofFields (f : Fields) : Option ISetp := do
  let cmp ← Cmp.ofCode (f.m 13 3)
  pure { d := f.dst, a := f.a, b := f.b, uni := f.mb 17, cmp, sel := f.m 5 3, ty := ← f.ty }
def IMov.fields (o : IMov) : Fields := ({ mod := bit o.uni ++ 0#12 ++ Ty.b64.code, dst := o.d } : Fields).setA o.a
def IMov.ofFields (f : Fields) : Option IMov := some { d := f.dst, a := f.a, uni := f.mb 17 }
def ISel.fields (o : ISel) : Fields := ({ mod := bit o.uni ++ 0#12 ++ Ty.b64.code, dst := o.d } : Fields).setA o.a |>.setB o.b
def ISel.ofFields (f : Fields) : Option ISel := some { d := f.dst, a := f.a, b := f.b, uni := f.mb 17 }
def Idp4.fields (o : Idp4) : Fields := ({ mod := bit o.uni ++ bit o.sat ++ 0#6 ++ o.tb.code ++ o.ta.code, dst := o.d } : Fields).setA o.a |>.setB o.b
def Idp4.ofFields (f : Fields) : Option Idp4 := do
  let tb ← Ty.ofCode (f.m 5 5)
  pure { d := f.dst, a := f.a, b := f.b, uni := f.mb 17, sat := f.mb 16, ta := ← f.ty, tb }
def MovImm.fields (o : MovImm) : Fields := Fields.ofImm o.imm o.d
def MovImm.ofFields (f : Fields) : Option MovImm := some { d := f.dst, imm := f.imm }

def F2.fields (o : F2) : Fields := ({ mod := bit o.uni ++ bit o.na ++ bit o.nb ++ 0#10 ++ o.ty.code, dst := o.d } : Fields).setA o.a |>.setB o.b
def F2.ofFields (f : Fields) : Option F2 := do pure { d := f.dst, a := f.a, b := f.b, uni := f.mb 17, na := f.mb 16, nb := f.mb 15, ty := ← f.ty }
def F3.fields (o : F3) : Fields :=
  ({ mod := bit o.uni ++ bit o.na ++ bit o.nb ++ bit o.nc ++ 0#9 ++ o.ty.code, dst := o.d } : Fields).setA o.a |>.setB o.b
def F3.ofFields (f : Fields) : Option F3 := do
  pure { d := f.dst, a := f.a, b := f.b, uni := f.mb 17, na := f.mb 16, nb := f.mb 15, nc := f.mb 14, ty := ← f.ty }
def FSetp.fields (o : FSetp) : Fields :=
  ({ mod := bit o.uni ++ bit o.na ++ bit o.nb ++ 0#1 ++ o.cmp.code ++ 0#2 ++ o.sel ++ o.ty.code, dst := o.d } : Fields).setA o.a |>.setB o.b
def FSetp.ofFields (f : Fields) : Option FSetp := do
  let cmp ← FCmp.ofCode (f.m 10 4)
  pure { d := f.dst, a := f.a, b := f.b, uni := f.mb 17, na := f.mb 16, nb := f.mb 15, cmp, sel := f.m 5 3, ty := ← f.ty }
def FClass.fields (o : FClass) : Fields := ({ mod := o.cls ++ o.sel ++ o.ty.code, dst := o.d } : Fields).setA o.a
def FClass.ofFields (f : Fields) : Option FClass := do pure { d := f.dst, a := f.a, cls := f.m 8 10, sel := f.m 5 3, ty := ← f.ty }
def F1.fields (o : F1) : Fields := ({ mod := 0#1 ++ bit o.na ++ 0#11 ++ o.ty.code, dst := o.d } : Fields).setA o.a
def F1.ofFields (f : Fields) : Option F1 := do pure { d := f.dst, a := f.a, na := f.mb 16, ty := ← f.ty }
def Cvt.fields (o : Cvt) : Fields := ({ mod := 0#4 ++ bit o.sat ++ o.part ++ o.src.code ++ o.dst.code, dst := o.d } : Fields).setA o.a
def Cvt.ofFields (f : Fields) : Option Cvt := do
  let src ← Ty.ofCode (f.m 5 5)
  pure { d := f.dst, a := f.a, sat := f.mb 13, part := f.m 10 3, src, dst := ← f.ty }

def Shfl.fields (o : Shfl) : Fields := ({ mod := bit o.uni ++ 0#9 ++ o.mode.code ++ o.ty.code, dst := o.d } : Fields).setA o.a |>.setB o.b
def Shfl.ofFields (f : Fields) : Option Shfl := do
  let mode ← ShflMode.ofCode (f.m 5 3)
  pure { mode, d := f.dst, a := f.a, b := f.b, uni := f.mb 17, ty := ← f.ty }
def Qswp.fields (o : Qswp) : Fields := ({ mod := 0#10 ++ o.dir.code ++ Ty.b64.code, dst := o.d } : Fields).setA o.a
def Qswp.ofFields (f : Fields) : Option Qswp := do pure { dir := ← QDir.ofCode (f.m 5 3), d := f.dst, a := f.a }
def Red.fields (o : Red) : Fields := ({ mod := 0#9 ++ bit o.sdst ++ o.op.code ++ o.ty.code, dst := o.d } : Fields).setA o.a
def Red.ofFields (f : Fields) : Option Red := do
  let op ← RedOp.ofCode (f.m 5 3)
  pure { op, sdst := f.mb 8, d := f.dst, a := f.a, ty := ← f.ty }
def Scan.fields (o : Scan) : Fields := ({ mod := 0#9 ++ bit o.excl ++ o.op.code ++ o.ty.code, dst := o.d } : Fields).setA o.a
def Scan.ofFields (f : Fields) : Option Scan := do
  let op ← RedOp.ofCode (f.m 5 3)
  pure { op, excl := f.mb 8, d := f.dst, a := f.a, ty := ← f.ty }
def Append.fields (o : Append) : Fields := ({ mod := 0#13 ++ o.ty.code, dst := o.d, srcA := o.h } : Fields).setB o.b
def Append.ofFields (f : Fields) : Option Append := do pure { d := f.dst, h := f.srcA, b := f.b, ty := ← f.ty }

/-- MOD of the global accesses: OFF in [17:10] and VO in [9] (R159). -/
def memMod (off : BitVec 8) (b : Option Src) (rest : BitVec 9) : BitVec 18 := off ++ bit b.isSome ++ rest
/-- The lane offset named when VO = 1 (R159). -/
def Fields.vo (f : Fields) : Option Src := if f.mb 9 then some f.b else none
def MemOp.fields (o : MemOp) : Fields :=
  ({ mod := memMod o.off o.b (o.cp.code ++ o.cnt.code ++ o.ty.code), dst := o.d } : Fields).setA o.a |>.setOptB o.b
def MemOp.ofFields (f : Fields) : Option MemOp := do
  let cp ← CachePol.ofCode (f.m 7 2)
  let cnt ← RegCnt.ofCode (f.m 5 2)
  pure { d := f.dst, a := f.a, b := f.vo, off := f.m 10 8, cp, cnt, ty := ← f.ty }
def ScopedOp.fields (o : ScopedOp) : Fields :=
  ({ mod := memMod o.off o.b (0#1 ++ o.scope.code ++ o.ty.code), dst := o.d } : Fields).setA o.a |>.setOptB o.b
def ScopedOp.ofFields (f : Fields) : Option ScopedOp := do
  let scope ← Scope.ofCode (f.m 5 3)
  pure { d := f.dst, a := f.a, b := f.vo, off := f.m 10 8, scope, ty := ← f.ty }
/-- WG and PEER, as three bits (R163, R180). -/
def peerBits : Option (BitVec 2) → BitVec 3
  | some w => w ++ 1#1
  | none => 0#3
/-- WG and PEER read from bit `lo` of MOD up: PEER in bit `lo`, WG in the two above it. -/
def Fields.peer (f : Fields) (lo : Nat) : Option (BitVec 2) := if f.mb lo then some (f.m (lo + 1) 2) else none
def TileOp.fields (o : TileOp) : Fields :=
  ({ mod := o.off ++ peerBits o.peer ++ o.cnt.code ++ o.ty.code, dst := o.d, srcA := o.h } : Fields).setB o.b
def TileOp.ofFields (f : Fields) : Option TileOp := do
  let cnt ← RegCnt.ofCode (f.m 5 2)
  pure { d := f.dst, h := f.srcA, b := f.b, off := f.m 10 8, peer := f.peer 7, cnt, ty := ← f.ty }
def Fence.fields (o : Fence) : Fields := { mod := 0#8 ++ o.ord.code ++ o.scope.code ++ 0#5 }
def Fence.ofFields (f : Fields) : Option Fence := do
  let ord ← FenceOrd.ofCode (f.m 8 2)
  pure { ord, scope := ← Scope.ofCode (f.m 5 3) }
def Waitc.fields (o : Waitc) : Fields :=
  match o.lim with
  | .reg r => { mod := 0#10 ++ o.path.code ++ 0#5, srcA := r.reg, killA := r.kill }
  | .imm n => { mod := 0#1 ++ n ++ 1#1 ++ o.path.code ++ 0#5 }
def Waitc.ofFields (f : Fields) : Option Waitc := do
  let path ← Path.ofCode (f.m 5 3)
  pure { path, lim := if f.mb 8 then .imm (f.m 9 8) else .reg f.a }
def Pref.fields (o : Pref) : Fields := ({ mod := memMod o.off o.b (0#3 ++ bit o.l2 ++ 0#5) } : Fields).setA o.a |>.setOptB o.b
def Pref.ofFields (f : Fields) : Option Pref := some { a := f.a, b := f.vo, off := f.m 10 8, l2 := f.mb 5 }
def Cinv.fields (o : Cinv) : Fields := ({ mod := 0#12 ++ bit o.l2 ++ 0#5 } : Fields).setA o.a |>.setB o.b
def Cinv.ofFields (f : Fields) : Option Cinv := some { a := f.a, b := f.b, l2 := f.mb 5 }

def Atom.fields (o : Atom) : Fields :=
  ({ mod := 0#4 ++ o.ord.code ++ o.scope.code ++ o.op.code ++ o.ty.code, dst := o.d } : Fields).setA o.a |>.setB o.b
def Atom.ofFields (f : Fields) : Option Atom := do
  let ord ← AtomOrd.ofCode (f.m 12 2)
  let scope ← Scope.ofCode (f.m 9 3)
  let op ← AtomOp.ofCode (f.m 5 4)
  pure { d := f.dst, a := f.a, b := f.b, op, scope, ord, ty := ← f.ty }
def APost.fields (o : APost) : Fields :=
  ({ mod := 0#4 ++ o.ord.code ++ o.scope.code ++ o.op.code ++ o.ty.code } : Fields).setA o.a |>.setB o.b
def APost.ofFields (f : Fields) : Option APost := do
  let ord ← AtomOrd.ofCode (f.m 12 2)
  let scope ← Scope.ofCode (f.m 9 3)
  let op ← AtomOp.ofCode (f.m 5 4)
  pure { a := f.a, b := f.b, op, scope, ord, ty := ← f.ty }
def RAtom.fields (o : RAtom) : Fields := ({ mod := 0#9 ++ o.op.code ++ o.ty.code, dst := o.d } : Fields).setA o.a |>.setB o.b
def RAtom.ofFields (f : Fields) : Option RAtom := do
  let op ← AtomOp.ofCode (f.m 5 4)
  pure { d := f.dst, a := f.a, b := f.b, op, ty := ← f.ty }
def TAlloc.fields (o : TAlloc) : Fields := ({ mod := 0#10 ++ o.kind.code ++ bit o.clus ++ 0#5, dst := o.h } : Fields).setA o.a
def TAlloc.ofFields (f : Fields) : Option TAlloc := do pure { h := f.dst, a := f.a, clus := f.mb 5, kind := ← TKind.ofCode (f.m 6 2) }
def TQry.fields (o : TQry) : Fields := { dst := o.d, srcA := o.h }
def TQry.ofFields (f : Fields) : Option TQry := some { d := f.dst, h := f.srcA }

def Cpy.fields (o : Cpy) : Fields :=
  match o.bar with
  | some h => ({ dst := o.d, srcB := h } : Fields).setA o.u
  | none => ({ mod := 0#8 ++ 1#1 ++ 0#9, dst := o.d } : Fields).setA o.u
def Cpy.ofFields (f : Fields) : Option Cpy := some { d := f.dst, u := f.a, bar := if f.mb 9 then none else some f.srcB }
def CpyMc.fields (o : CpyMc) : Fields := ({ mod := 0#9 ++ o.wgm ++ 0#5, dst := o.d, srcB := o.b } : Fields).setA o.u
def CpyMc.ofFields (f : Fields) : Option CpyMc := some { d := f.dst, u := f.a, b := f.srcB, wgm := f.m 5 4 }
/-- MOD[8:5] of a barrier instruction (R180). -/
def BarRef.bits : BarRef → BitVec 4
  | .tile _ => 0#4
  | .peer _ w => w ++ 1#1 ++ 0#1
  | .glob _ => 1#4
def BarRef.src : BarRef → Src
  | .tile h | .peer h _ => { reg := h }
  | .glob a => a
def Fields.bar (f : Fields) : BarRef :=
  if f.mb 5 then .glob f.a else if f.mb 6 then .peer f.srcA (f.m 7 2) else .tile f.srcA
/-- Fields of a barrier instruction with MOD[17:9] given. -/
def BarRef.fields (r : BarRef) (hi : BitVec 9) : Fields := ({ mod := hi ++ r.bits ++ 0#5 } : Fields).setA r.src
def BarB.fields (o : BarB) (arv : Bool) : Fields := (o.bar.fields (0#8 ++ bit arv)).setB o.b
def BarB.ofFields (f : Fields) : Option BarB := some { bar := f.bar, b := f.b }
def Par.src : Par → Option Src
  | .imm _ => none
  | .reg r => some r
def Par.bits : Par → BitVec 2
  | .imm p => 0#1 ++ bit p
  | .reg _ => 2#2
def Fields.par (f : Fields) : Par := if f.mb 11 then .reg f.b else .imm (f.mb 10)
def BarPar.fields (o : BarPar) : Fields := (o.bar.fields (0#6 ++ o.par.bits ++ 0#1)).setOptB o.par.src
def BarPar.ofFields (f : Fields) : Option BarPar := some { bar := f.bar, par := f.par }
def BarTest.fields (o : BarTest) : Fields := { (o.bar.fields (0#6 ++ o.par.bits ++ 0#1)).setOptB o.par.src with dst := o.d }
def BarTest.ofFields (f : Fields) : Option BarTest := some { d := f.dst, bar := f.bar, par := f.par }
def BarBrk.fields (o : BarBrk) : Fields := { o.bar.fields (0#8 ++ 1#1) with dst := o.d }
def BarBrk.ofFields (f : Fields) : Option BarBrk := some { d := f.dst, bar := f.bar }

def MxSrc.src : MxSrc → Src
  | .reg r => r
  | .tile h => { reg := h }
def MxMma.fields (o : MxMma) : Fields :=
  ({ mod := bit o.win ++ bit o.b.isTile ++ bit o.a.isTile ++ o.rcnt ++ o.fb.code ++ o.fa.code ++ 0#5, dst := o.d } : Fields).setA o.a.src |>.setB o.b.src
def MxMma.ofFields (f : Fields) : Option MxMma := do
  let fa ← EFmt.ofCode (f.m 5 4)
  let fb ← EFmt.ofCode (f.m 9 4)
  pure { d := f.dst, a := if f.mb 15 then .tile f.srcA else .reg f.a, b := if f.mb 16 then .tile f.srcB else .reg f.b,
         win := f.mb 17, rcnt := f.m 13 2, fa, fb }
def MxScl.fields (o : MxScl) : Fields := ({ mod := 0#11 ++ 1#1 ++ bit o.sideB ++ 0#5 } : Fields).setA o.a |>.setB o.b
def MxScl.ofFields (f : Fields) : Option MxScl := some { sideB := f.mb 5, a := f.a, b := f.b }
def MxDrn.fields (o : MxDrn) : Fields := { mod := 0#12 ++ bit o.clr ++ 0#5, dst := o.d, srcA := o.a }
def MxDrn.ofFields (f : Fields) : Option MxDrn := some { d := f.dst, a := f.srcA, clr := f.mb 5 }
def WregSet.fields (o : WregSet) : Fields := ({ mod := 0#7 ++ o.id ++ 0#5 } : Fields).setA o.a |>.setB o.b
def WregSet.ofFields (f : Fields) : Option WregSet := some { id := f.m 5 6, a := f.a, b := f.b }

def Tex.fields (o : Tex) : Fields := ({ mod := 0#11 ++ o.dim.code ++ o.ty.code, dst := o.d } : Fields).setA o.a |>.setB o.b
def Tex.ofFields (f : Fields) : Option Tex := do
  let dim ← TexDim.ofCode (f.m 5 2)
  pure { d := f.dst, a := f.a, b := f.b, dim, ty := ← f.ty }
def TexQ.fields (o : TexQ) (lod : Bool) : Fields := ({ mod := 0#10 ++ bit lod ++ o.dim.code ++ 0#5, dst := o.d } : Fields).setA o.a |>.setB o.b
def TexQ.ofFields (f : Fields) : Option TexQ := do pure { d := f.dst, a := f.a, b := f.b, dim := ← TexDim.ofCode (f.m 5 2) }
def Hg.fields (o : Hg) : Fields := ({ mod := 0#6 ++ o.nregm ++ bit o.d3 ++ o.ty.code, dst := o.d } : Fields).setA o.a |>.setB o.b
def Hg.ofFields (f : Fields) : Option Hg := do pure { d := f.dst, a := f.a, b := f.b, d3 := f.mb 5, nregm := f.m 6 6, ty := ← f.ty }
def HgScat.fields (o : HgScat) : Fields :=
  ({ mod := 0#5 ++ bit o.exact ++ o.nregm ++ bit o.d3 ++ o.ty.code, dst := o.d } : Fields).setA o.a |>.setB o.b
def HgScat.ofFields (f : Fields) : Option HgScat := do
  pure { d := f.dst, a := f.a, b := f.b, d3 := f.mb 5, exact := f.mb 12, nregm := f.m 6 6, ty := ← f.ty }

def RayTrc.fields (o : RayTrc) : Fields :=
  ({ mod := 0#1 ++ bit o.noproc ++ bit o.any ++ o.cull.code ++ o.imask ++ 0#5, dst := o.d } : Fields).setA o.a |>.setB o.b
def RayTrc.ofFields (f : Fields) : Option RayTrc := do
  let cull ← Cull.ofCode (f.m 13 2)
  pure { d := f.dst, a := f.a, b := f.b, noproc := f.mb 16, any := f.mb 15, cull, imask := f.m 5 8 }
def RayRsm.fields (o : RayRsm) : Fields := ({ mod := 0#12 ++ bit o.b.isSome ++ 0#5 } : Fields).setA o.a |>.setOptB o.b
def RayRsm.ofFields (f : Fields) : Option RayRsm := some { a := f.a, b := if f.mb 5 then some f.b else none }
def RayGet.fields (o : RayGet) : Fields := ({ mod := 0#11 ++ o.sel.code ++ 0#5, dst := o.d } : Fields).setA o.a
def RayGet.ofFields (f : Fields) : Option RayGet := do pure { d := f.dst, a := f.a, sel := ← RaySel.ofCode (f.m 5 2) }
def RingPush.fields (o : RingPush) : Fields := ({ mod := 0#9 ++ peerBits o.peer ++ 0#6, srcA := o.h } : Fields).setB o.b
def RingPush.ofFields (f : Fields) : Option RingPush := some { h := f.srcA, b := f.b, peer := f.peer 6 }
def RingPop.fields (o : RingPop) : Fields := { mod := 0#9 ++ peerBits o.peer ++ 0#6, dst := o.d, srcA := o.h }
def RingPop.ofFields (f : Fields) : Option RingPop := some { d := f.dst, h := f.srcA, peer := f.peer 6 }

def setxFields : RegImm 12 → Fields
  | .reg r => r.fieldsA 0
  | .imm n => { mod := n ++ 1#1 ++ 0#5 }
def setxOf (f : Fields) : RegImm 12 := if f.mb 5 then .imm (f.m 6 12) else .reg f.a
def daymarkFields (n : BitVec 12) (a : Option Src) : Fields := ({ mod := bit a.isSome ++ n ++ 0#5 } : Fields).setOptA a

/-! ### Opcodes and words -/

/-- The opcode of an instruction (R73); none for an event. -/
def Instr.opcode : Instr → Option (BitVec 10)
  | .br .. => some 0x001
  | .brc .. => some 0x002
  | .jmp .. => some 0x003
  | .call .. => some 0x004
  | .ret .. => some 0x005
  | .exit .. => some 0x006
  | .trap .. => some 0x007
  | .trapRet .. => some 0x007
  | .trapSkip .. => some 0x007
  | .brk .. => some 0x008
  | .nop .. => some 0x009
  | .yield .. => some 0x00A
  | .park .. => some 0x00B
  | .daymark .. => some 0x00C
  | .syncWg .. => some 0x00D
  | .syncGang .. => some 0x00E
  | .launch .. => some 0x00F
  | .getsr .. => some 0x010
  | .setsr .. => some 0x011
  | .setx .. => some 0x012
  | .wmovToW .. => some 0x013
  | .wmovFromW .. => some 0x013
  | .sadd .. => some 0x040
  | .ssub .. => some 0x041
  | .smul .. => some 0x042
  | .smulh .. => some 0x043
  | .sand .. => some 0x044
  | .sor .. => some 0x045
  | .sxor .. => some 0x046
  | .snot .. => some 0x047
  | .sshl .. => some 0x048
  | .sshr .. => some 0x049
  | .ssar .. => some 0x04A
  | .smin .. => some 0x04B
  | .smax .. => some 0x04C
  | .ssetp .. => some 0x04D
  | .smov .. => some 0x04E
  | .smovi .. => some 0x04F
  | .ssel .. => some 0x050
  | .sld .. => some 0x051
  | .sst .. => some 0x052
  | .pand .. => some 0x080
  | .por .. => some 0x081
  | .pxor .. => some 0x082
  | .pnot .. => some 0x083
  | .pmov .. => some 0x084
  | .psel .. => some 0x085
  | .voteAny .. => some 0x086
  | .voteAll .. => some 0x087
  | .voteBal .. => some 0x088
  | .iadd .. => some 0x0C0
  | .isub .. => some 0x0C1
  | .imul .. => some 0x0C2
  | .imulh .. => some 0x0C3
  | .imad .. => some 0x0C4
  | .iabs .. => some 0x0C5
  | .ineg .. => some 0x0C6
  | .imin .. => some 0x0C7
  | .imax .. => some 0x0C8
  | .isad .. => some 0x0C9
  | .ishl .. => some 0x0CA
  | .ishr .. => some 0x0CB
  | .isar .. => some 0x0CC
  | .lop3 .. => some 0x0CD
  | .popc .. => some 0x0CE
  | .clz .. => some 0x0CF
  | .brev .. => some 0x0D0
  | .bfe .. => some 0x0D1
  | .bfi .. => some 0x0D2
  | .isetp .. => some 0x0D3
  | .imov .. => some 0x0D4
  | .imovi .. => some 0x0D5
  | .isel .. => some 0x0D6
  | .idp4 .. => some 0x0D7
  | .swz .. => some 0x0D8
  | .fadd .. => some 0x100
  | .fsub .. => some 0x101
  | .fmul .. => some 0x102
  | .ffma .. => some 0x103
  | .fmin .. => some 0x104
  | .fmax .. => some 0x105
  | .fsetp .. => some 0x106
  | .fclass .. => some 0x107
  | .frnd .. => some 0x108
  | .cvt .. => some 0x109
  | .frcp .. => some 0x140
  | .frsq .. => some 0x141
  | .fsqrt .. => some 0x142
  | .fexp2 .. => some 0x143
  | .flog2 .. => some 0x144
  | .fsin .. => some 0x145
  | .fcos .. => some 0x146
  | .shfl .. => some 0x180
  | .qswp .. => some 0x181
  | .red .. => some 0x182
  | .scan .. => some 0x183
  | .append .. => some 0x184
  | .match_ .. => some 0x185
  | .ld .. => some 0x1C0
  | .st .. => some 0x1C1
  | .ldt .. => some 0x1C2
  | .stt .. => some 0x1C3
  | .lda .. => some 0x1C4
  | .strl .. => some 0x1C5
  | .fence .. => some 0x1C6
  | .waitc .. => some 0x1C7
  | .pref .. => some 0x1C8
  | .cinv .. => some 0x1C9
  | .cwb .. => some 0x1CA
  | .atom .. => some 0x200
  | .apost .. => some 0x201
  | .ratom .. => some 0x202
  | .rpoll .. => some 0x203
  | .talloc .. => some 0x208
  | .tfree .. => some 0x209
  | .tqry .. => some 0x20A
  | .cpyIn .. => some 0x240
  | .cpyOut .. => some 0x241
  | .cpyMc .. => some 0x242
  | .cpyWin .. => some 0x243
  | .tbarInit .. => some 0x248
  | .tbarArv .. => some 0x249
  | .tbarExp .. => some 0x24A
  | .tbarExpArv .. => some 0x24A
  | .tbarWait .. => some 0x24B
  | .tbarTestPh .. => some 0x24C
  | .tbarTestBrk .. => some 0x24C
  | .tbarInval .. => some 0x24D
  | .mxreq .. => some 0x280
  | .mxrel .. => some 0x281
  | .mxmma .. => some 0x282
  | .mxscl .. => some 0x283
  | .mxsclNone .. => some 0x283
  | .mxwin .. => some 0x284
  | .mxzero .. => some 0x285
  | .mxdrn .. => some 0x286
  | .mxpass .. => some 0x287
  | .dlrBind .. => some 0x2C0
  | .dlrInval .. => some 0x2C1
  | .dlrStat .. => some 0x2C2
  | .mxdelta .. => some 0x2C3
  | .wregSet .. => some 0x2C4
  | .wregClr .. => some 0x2C5
  | .texS .. => some 0x300
  | .texL .. => some 0x301
  | .texQDim .. => some 0x302
  | .texQLod .. => some 0x302
  | .hgFetch .. => some 0x303
  | .hgScat .. => some 0x304
  | .rayTrc .. => some 0x340
  | .rayRsm .. => some 0x341
  | .rayCmt .. => some 0x342
  | .rayGet .. => some 0x343
  | .rastSub .. => some 0x344
  | .ringPush .. => some 0x345
  | .ringPop .. => some 0x346
  | .encTile .. => some 0x347
  | .encFrm .. => some 0x348
  | _ => none

/-- The fields of an instruction's word outside its opcode and guard, as its entry lays them out. -/
def Instr.fields : Instr → Fields
  | .br _ imm => Fields.ofImm imm
  | .brc _ imm => Fields.ofImm imm
  | .jmp _ a => a.fieldsA 0
  | .call _ imm => Fields.ofImm imm
  | .ret _ => {}
  | .exit _ => {}
  | .trap _ n => { mod := n ++ 0#7 }
  | .trapRet _ => { mod := 0#11 ++ 1#2 ++ 0#5 }
  | .trapSkip _ => { mod := 0#11 ++ 2#2 ++ 0#5 }
  | .brk _ n => { mod := n ++ 0#5 }
  | .nop _ => {}
  | .yield _ => {}
  | .park _ => {}
  | .daymark _ n a => daymarkFields n a
  | .syncWg _ => {}
  | .syncGang _ => {}
  | .launch _ o => o.fields 0
  | .getsr _ d sr vdst => { mod := 0#12 ++ bit vdst ++ 0#5, dst := d, srcA := sr }
  | .setsr _ sr a => { a.fieldsA 0 with dst := sr }
  | .setx _ v => setxFields v
  | .wmovToW _ d a => { a.fieldsA 0 with dst := d }
  | .wmovFromW _ d a => { mod := 0#12 ++ 1#1 ++ 0#5, dst := d, srcA := a }
  | .sadd _ o => o.fields
  | .ssub _ o => o.fields
  | .smul _ o => o.fields
  | .smulh _ o => o.fields
  | .sand _ o => o.fields
  | .sor _ o => o.fields
  | .sxor _ o => o.fields
  | .snot _ o => o.fields
  | .sshl _ o => o.fields
  | .sshr _ o => o.fields
  | .ssar _ o => o.fields
  | .smin _ o => o.fields
  | .smax _ o => o.fields
  | .ssetp _ o => o.fields
  | .smov _ o => o.fields (0#13 ++ Ty.b64.code)
  | .smovi _ o => o.fields
  | .ssel _ o => o.fields
  | .sld _ o => o.fields
  | .sst _ o => o.fields
  | .pand _ o => o.fields
  | .por _ o => o.fields
  | .pxor _ o => o.fields
  | .pnot _ o => o.fields 0
  | .pmov _ o => o.fields
  | .psel _ o => o.fields 0
  | .voteAny _ o => o.fields
  | .voteAll _ o => o.fields
  | .voteBal _ o => o.fields 0
  | .iadd _ o => o.fields
  | .isub _ o => o.fields
  | .imul _ o => o.fields
  | .imulh _ o => o.fields
  | .imad _ o => o.fields
  | .iabs _ o => o.fields
  | .ineg _ o => o.fields
  | .imin _ o => o.fields
  | .imax _ o => o.fields
  | .isad _ o => o.fields
  | .ishl _ o => o.fields
  | .ishr _ o => o.fields
  | .isar _ o => o.fields
  | .lop3 _ o => o.fields
  | .popc _ o => o.fields
  | .clz _ o => o.fields
  | .brev _ o => o.fields
  | .bfe _ o => o.fields
  | .bfi _ o => o.fields
  | .isetp _ o => o.fields
  | .imov _ o => o.fields
  | .imovi _ o => o.fields
  | .isel _ o => o.fields
  | .idp4 _ o => o.fields
  | .swz _ o => o.fields
  | .fadd _ o => o.fields
  | .fsub _ o => o.fields
  | .fmul _ o => o.fields
  | .ffma _ o => o.fields
  | .fmin _ o => o.fields
  | .fmax _ o => o.fields
  | .fsetp _ o => o.fields
  | .fclass _ o => o.fields
  | .frnd _ o => o.fields
  | .cvt _ o => o.fields
  | .frcp _ o => o.fields
  | .frsq _ o => o.fields
  | .fsqrt _ o => o.fields
  | .fexp2 _ o => o.fields
  | .flog2 _ o => o.fields
  | .fsin _ o => o.fields
  | .fcos _ o => o.fields
  | .shfl _ o => o.fields
  | .qswp _ o => o.fields
  | .red _ o => o.fields
  | .scan _ o => o.fields
  | .append _ o => o.fields
  | .match_ _ o => o.fields
  | .ld _ o => o.fields
  | .st _ o => o.fields
  | .ldt _ o => o.fields
  | .stt _ o => o.fields
  | .lda _ o => o.fields
  | .strl _ o => o.fields
  | .fence _ o => o.fields
  | .waitc _ o => o.fields
  | .pref _ o => o.fields
  | .cinv _ o => o.fields
  | .cwb _ o => o.fields 0
  | .atom _ o => o.fields
  | .apost _ o => o.fields
  | .ratom _ o => o.fields
  | .rpoll _ o => o.fields
  | .talloc _ o => o.fields
  | .tfree _ h => { srcA := h }
  | .tqry _ o => o.fields
  | .cpyIn _ o => o.fields
  | .cpyOut _ o => o.fields
  | .cpyMc _ o => o.fields
  | .cpyWin _ o => o.fields
  | .tbarInit _ o => o.fields false
  | .tbarArv _ bar => bar.fields 0
  | .tbarExp _ o => o.fields false
  | .tbarExpArv _ o => o.fields true
  | .tbarWait _ o => o.fields
  | .tbarTestPh _ o => o.fields
  | .tbarTestBrk _ o => o.fields
  | .tbarInval _ bar => bar.fields 0
  | .mxreq _ d => { dst := d }
  | .mxrel _ d => { dst := d }
  | .mxmma _ o => o.fields
  | .mxscl _ o => o.fields
  | .mxsclNone _ sideB => { mod := 0#12 ++ bit sideB ++ 0#5 }
  | .mxwin _ a => a.fieldsA 0
  | .mxzero _ d => { dst := d }
  | .mxdrn _ o => o.fields
  | .mxpass _ a => a.fieldsA 0
  | .dlrBind _ o => o.fields 0
  | .dlrInval _ a => a.fieldsA 0
  | .dlrStat _ o => o.fields 0
  | .mxdelta _ a => a.fieldsA 0
  | .wregSet _ o => o.fields
  | .wregClr _ id => { mod := 0#7 ++ id ++ 0#5 }
  | .texS _ o => o.fields
  | .texL _ o => o.fields
  | .texQDim _ o => o.fields false
  | .texQLod _ o => o.fields true
  | .hgFetch _ o => o.fields
  | .hgScat _ o => o.fields
  | .rayTrc _ o => o.fields
  | .rayRsm _ o => o.fields
  | .rayCmt _ o => o.fields 0
  | .rayGet _ o => o.fields
  | .rastSub _ a => a.fieldsA 0
  | .ringPush _ o => o.fields
  | .ringPop _ o => o.fields
  | .encTile _ o => o.fields 0
  | .encFrm _ a => a.fieldsA 0
  | _ => {}

/-- The instruction that an opcode and its fields name, before any check of what they hold (R73). -/
def ofFields (op : BitVec 10) (f : Fields) (c : Ctl) : Option Instr :=
  match op.toNat with
  | 0x001 => some (.br c f.imm)
  | 0x002 => some (.brc c f.imm)
  | 0x003 => some (.jmp c f.a)
  | 0x004 => some (.call c f.imm)
  | 0x005 => some (.ret c)
  | 0x006 => some (.exit c)
  | 0x007 => match (f.m 5 2).toNat with | 0 => some (.trap c (f.m 7 11)) | 1 => some (.trapRet c) | 2 => some (.trapSkip c) | _ => none
  | 0x008 => some (.brk c (f.m 5 13))
  | 0x009 => some (.nop c)
  | 0x00A => some (.yield c)
  | 0x00B => some (.park c)
  | 0x00C => some (.daymark c (f.m 5 12) (if f.mb 17 then some f.a else none))
  | 0x00D => some (.syncWg c)
  | 0x00E => some (.syncGang c)
  | 0x00F => AB.ofFields f |>.map (.launch c)
  | 0x010 => some (.getsr c f.dst f.srcA (f.mb 5))
  | 0x011 => some (.setsr c f.dst f.a)
  | 0x012 => some (.setx c (setxOf f))
  | 0x013 => if f.mb 5 then some (.wmovFromW c f.dst f.srcA) else some (.wmovToW c f.dst f.a)
  | 0x040 => UArith.ofFields f |>.map (.sadd c)
  | 0x041 => UArith.ofFields f |>.map (.ssub c)
  | 0x042 => UArith.ofFields f |>.map (.smul c)
  | 0x043 => UArith.ofFields f |>.map (.smulh c)
  | 0x044 => UArith.ofFields f |>.map (.sand c)
  | 0x045 => UArith.ofFields f |>.map (.sor c)
  | 0x046 => UArith.ofFields f |>.map (.sxor c)
  | 0x047 => UUn.ofFields f |>.map (.snot c)
  | 0x048 => UArith.ofFields f |>.map (.sshl c)
  | 0x049 => UArith.ofFields f |>.map (.sshr c)
  | 0x04A => UArith.ofFields f |>.map (.ssar c)
  | 0x04B => UArith.ofFields f |>.map (.smin c)
  | 0x04C => UArith.ofFields f |>.map (.smax c)
  | 0x04D => USetp.ofFields f |>.map (.ssetp c)
  | 0x04E => DA.ofFields f |>.map (.smov c)
  | 0x04F => MovImm.ofFields f |>.map (.smovi c)
  | 0x050 => USel.ofFields f |>.map (.ssel c)
  | 0x051 => ULoad.ofFields f |>.map (.sld c)
  | 0x052 => UStore.ofFields f |>.map (.sst c)
  | 0x080 => PBin.ofFields f |>.map (.pand c)
  | 0x081 => PBin.ofFields f |>.map (.por c)
  | 0x082 => PBin.ofFields f |>.map (.pxor c)
  | 0x083 => DA.ofFields f |>.map (.pnot c)
  | 0x084 => PUn.ofFields f |>.map (.pmov c)
  | 0x085 => DAB.ofFields f |>.map (.psel c)
  | 0x086 => PUn.ofFields f |>.map (.voteAny c)
  | 0x087 => PUn.ofFields f |>.map (.voteAll c)
  | 0x088 => DA.ofFields f |>.map (.voteBal c)
  | 0x0C0 => VInt.ofFields f |>.map (.iadd c)
  | 0x0C1 => VInt.ofFields f |>.map (.isub c)
  | 0x0C2 => VInt.ofFields f |>.map (.imul c)
  | 0x0C3 => VInt.ofFields f |>.map (.imulh c)
  | 0x0C4 => VInt.ofFields f |>.map (.imad c)
  | 0x0C5 => VUn.ofFields f |>.map (.iabs c)
  | 0x0C6 => VUn.ofFields f |>.map (.ineg c)
  | 0x0C7 => VInt.ofFields f |>.map (.imin c)
  | 0x0C8 => VInt.ofFields f |>.map (.imax c)
  | 0x0C9 => VInt.ofFields f |>.map (.isad c)
  | 0x0CA => VInt.ofFields f |>.map (.ishl c)
  | 0x0CB => VInt.ofFields f |>.map (.ishr c)
  | 0x0CC => VInt.ofFields f |>.map (.isar c)
  | 0x0CD => Lop3.ofFields f |>.map (.lop3 c)
  | 0x0CE => VUn.ofFields f |>.map (.popc c)
  | 0x0CF => VUn.ofFields f |>.map (.clz c)
  | 0x0D0 => VUn.ofFields f |>.map (.brev c)
  | 0x0D1 => VInt.ofFields f |>.map (.bfe c)
  | 0x0D2 => VInt.ofFields f |>.map (.bfi c)
  | 0x0D3 => ISetp.ofFields f |>.map (.isetp c)
  | 0x0D4 => IMov.ofFields f |>.map (.imov c)
  | 0x0D5 => MovImm.ofFields f |>.map (.imovi c)
  | 0x0D6 => ISel.ofFields f |>.map (.isel c)
  | 0x0D7 => Idp4.ofFields f |>.map (.idp4 c)
  | 0x0D8 => VInt.ofFields f |>.map (.swz c)
  | 0x100 => F2.ofFields f |>.map (.fadd c)
  | 0x101 => F2.ofFields f |>.map (.fsub c)
  | 0x102 => F2.ofFields f |>.map (.fmul c)
  | 0x103 => F3.ofFields f |>.map (.ffma c)
  | 0x104 => F2.ofFields f |>.map (.fmin c)
  | 0x105 => F2.ofFields f |>.map (.fmax c)
  | 0x106 => FSetp.ofFields f |>.map (.fsetp c)
  | 0x107 => FClass.ofFields f |>.map (.fclass c)
  | 0x108 => F1.ofFields f |>.map (.frnd c)
  | 0x109 => Cvt.ofFields f |>.map (.cvt c)
  | 0x140 => F1.ofFields f |>.map (.frcp c)
  | 0x141 => F1.ofFields f |>.map (.frsq c)
  | 0x142 => F1.ofFields f |>.map (.fsqrt c)
  | 0x143 => F1.ofFields f |>.map (.fexp2 c)
  | 0x144 => F1.ofFields f |>.map (.flog2 c)
  | 0x145 => F1.ofFields f |>.map (.fsin c)
  | 0x146 => F1.ofFields f |>.map (.fcos c)
  | 0x180 => Shfl.ofFields f |>.map (.shfl c)
  | 0x181 => Qswp.ofFields f |>.map (.qswp c)
  | 0x182 => Red.ofFields f |>.map (.red c)
  | 0x183 => Scan.ofFields f |>.map (.scan c)
  | 0x184 => Append.ofFields f |>.map (.append c)
  | 0x185 => UUn.ofFields f |>.map (.match_ c)
  | 0x1C0 => MemOp.ofFields f |>.map (.ld c)
  | 0x1C1 => MemOp.ofFields f |>.map (.st c)
  | 0x1C2 => TileOp.ofFields f |>.map (.ldt c)
  | 0x1C3 => TileOp.ofFields f |>.map (.stt c)
  | 0x1C4 => ScopedOp.ofFields f |>.map (.lda c)
  | 0x1C5 => ScopedOp.ofFields f |>.map (.strl c)
  | 0x1C6 => Fence.ofFields f |>.map (.fence c)
  | 0x1C7 => Waitc.ofFields f |>.map (.waitc c)
  | 0x1C8 => Pref.ofFields f |>.map (.pref c)
  | 0x1C9 => Cinv.ofFields f |>.map (.cinv c)
  | 0x1CA => AB.ofFields f |>.map (.cwb c)
  | 0x200 => Atom.ofFields f |>.map (.atom c)
  | 0x201 => APost.ofFields f |>.map (.apost c)
  | 0x202 => RAtom.ofFields f |>.map (.ratom c)
  | 0x203 => UUn.ofFields f |>.map (.rpoll c)
  | 0x208 => TAlloc.ofFields f |>.map (.talloc c)
  | 0x209 => some (.tfree c f.srcA)
  | 0x20A => TQry.ofFields f |>.map (.tqry c)
  | 0x240 => Cpy.ofFields f |>.map (.cpyIn c)
  | 0x241 => Cpy.ofFields f |>.map (.cpyOut c)
  | 0x242 => CpyMc.ofFields f |>.map (.cpyMc c)
  | 0x243 => Cpy.ofFields f |>.map (.cpyWin c)
  | 0x248 => BarB.ofFields f |>.map (.tbarInit c)
  | 0x249 => some (.tbarArv c f.bar)
  | 0x24A => if f.mb 9 then BarB.ofFields f |>.map (.tbarExpArv c) else BarB.ofFields f |>.map (.tbarExp c)
  | 0x24B => BarPar.ofFields f |>.map (.tbarWait c)
  | 0x24C => if f.mb 9 then BarBrk.ofFields f |>.map (.tbarTestBrk c) else BarTest.ofFields f |>.map (.tbarTestPh c)
  | 0x24D => some (.tbarInval c f.bar)
  | 0x280 => some (.mxreq c f.dst)
  | 0x281 => some (.mxrel c f.dst)
  | 0x282 => MxMma.ofFields f |>.map (.mxmma c)
  | 0x283 => if f.mb 6 then MxScl.ofFields f |>.map (.mxscl c) else some (.mxsclNone c (f.mb 5))
  | 0x284 => some (.mxwin c f.a)
  | 0x285 => some (.mxzero c f.dst)
  | 0x286 => MxDrn.ofFields f |>.map (.mxdrn c)
  | 0x287 => some (.mxpass c f.a)
  | 0x2C0 => AB.ofFields f |>.map (.dlrBind c)
  | 0x2C1 => some (.dlrInval c f.a)
  | 0x2C2 => DA.ofFields f |>.map (.dlrStat c)
  | 0x2C3 => some (.mxdelta c f.a)
  | 0x2C4 => WregSet.ofFields f |>.map (.wregSet c)
  | 0x2C5 => some (.wregClr c (f.m 5 6))
  | 0x300 => Tex.ofFields f |>.map (.texS c)
  | 0x301 => Tex.ofFields f |>.map (.texL c)
  | 0x302 => if f.mb 7 then TexQ.ofFields f |>.map (.texQLod c) else TexQ.ofFields f |>.map (.texQDim c)
  | 0x303 => Hg.ofFields f |>.map (.hgFetch c)
  | 0x304 => HgScat.ofFields f |>.map (.hgScat c)
  | 0x340 => RayTrc.ofFields f |>.map (.rayTrc c)
  | 0x341 => RayRsm.ofFields f |>.map (.rayRsm c)
  | 0x342 => AB.ofFields f |>.map (.rayCmt c)
  | 0x343 => RayGet.ofFields f |>.map (.rayGet c)
  | 0x344 => some (.rastSub c f.a)
  | 0x345 => RingPush.ofFields f |>.map (.ringPush c)
  | 0x346 => RingPop.ofFields f |>.map (.ringPop c)
  | 0x347 => AB.ofFields f |>.map (.encTile c)
  | 0x348 => some (.encFrm c f.a)
  | _ => none

/-- Whether R73 lists an opcode. -/
def opcodeListed (op : BitVec 10) : Bool :=
  let n := op.toNat
  let minor := n % 64
  match n / 64 with
  | 0x0 => decide (1 ≤ minor ∧ minor ≤ 0x13)
  | 0x1 => decide (minor ≤ 0x12)
  | 0x2 => decide (minor ≤ 0x08)
  | 0x3 => decide (minor ≤ 0x18)
  | 0x4 => decide (minor ≤ 0x09)
  | 0x5 => decide (minor ≤ 0x06)
  | 0x6 => decide (minor ≤ 0x05)
  | 0x7 => decide (minor ≤ 0x0A)
  | 0x8 => decide (minor ≤ 0x03 ∨ (8 ≤ minor ∧ minor ≤ 0x0A))
  | 0x9 => decide (minor ≤ 0x03 ∨ (8 ≤ minor ∧ minor ≤ 0x0D))
  | 0xA => decide (minor ≤ 0x07)
  | 0xB => decide (minor ≤ 0x05)
  | 0xC => decide (minor ≤ 0x04)
  | 0xD => decide (minor ≤ 0x08)
  | _ => false

/-- Reasons for which the decoder rejects a run of units. Each of them raises ILLEGAL (R72, steps 2 and 3). -/
inductive Reject
  /-- A unit with kind bits 11 (R47). -/
  | kind11
  /-- A block header where the body needs an item (R48). -/
  | headerInBody
  /-- An item that crosses the end of the body (R48). -/
  | crossesEnd
  /-- A prefix with a nonzero reserved field, an undefined RMODE or MPRED without MEN (R60). -/
  | badPrefix
  /-- A prefix not followed by a base instruction inside the body (R61). -/
  | lonePrefix
  /-- A reserved, undefined or unaccepted field of a listed opcode (R56, R57, R62). -/
  | badField
deriving DecidableEq, Repr

/-- Fields of a 64-bit base word (R54). -/
def wordFields (w : Word64) : Fields :=
  { mod := w.extractLsb' 46 18, killB := w.getLsbD 45, srcB := w.extractLsb' 37 8, killA := w.getLsbD 36, srcA := w.extractLsb' 28 8, dst := w.extractLsb' 20 8 }
/-- 64·MAJOR + MINOR (R54). -/
def wordOpcode (w : Word64) : BitVec 10 := w.extractLsb' 16 4 ++ w.extractLsb' 10 6
/-- Guard and switch marker of a base word, with the prefix given. -/
def wordCtl (w : Word64) (pre : Option Prefix) : Ctl := { guard := w.extractLsb' 4 6, gneg := w.getLsbD 3, mark := w.getLsbD 2, pre }

/-- Read a prefix unit (R60). -/
def decodePrefix (u : Word32) : Option Prefix :=
  if u.extractLsb' 25 7 ≠ 0#7 then none
  else if u.getLsbD 8 = false && u.extractLsb' 2 6 ≠ 0#6 then none
  else do
    let rm ← if u.extractLsb' 9 3 = 0#3 then some none else (Rounding.ofCode (u.extractLsb' 9 3)).map some
    pure { idxC := u.getLsbD 24, idxB := u.getLsbD 23, idxA := u.getLsbD 22, idxD := u.getLsbD 21, zero := u.getLsbD 20,
           srcC := u.extractLsb' 12 8, rmode := rm, mask := if u.getLsbD 8 then some (u.extractLsb' 2 6) else none }

/-- Read a base word after its prefix, if there is one (R72, step 3). -/
def decodeBase (w : Word64) (pre : Option Prefix) : Except Reject Instr :=
  if !opcodeListed (wordOpcode w) then .ok (.unlistedOpcode w)
  else
    match ofFields (wordOpcode w) (wordFields w) (wordCtl w pre) with
    | none => .error .badField
    | some i => if i.fields = wordFields w && i.wf then .ok i else .error .badField

/-- The kind bits of a unit (R47). -/
def unitKind (u : Word32) : Nat := u.toNat % 4

/-- Decode the item at the head of a run of units, of which the first `left` lie in the body; the number is the units it takes
(R47, R48, R61, R72 steps 2 and 3). -/
def decodeUnits (left : Nat) (u0 u1 u2 : Word32) : Except Reject (Instr × Nat) :=
  match unitKind u0 with
  | 0 => if left < 2 then .error .crossesEnd else (decodeBase (u1 ++ u0) none).map (·, 2)
  | 1 =>
    if left < 3 || unitKind u1 ≠ 0 then .error .lonePrefix
    else
      match decodePrefix u0 with
      | none => .error .badPrefix
      | some p => (decodeBase (u2 ++ u1) (some p)).map (·, 3)
  | 2 => .error .headerInBody
  | _ => .ok (.unlistedOpcode (u1 ++ u0), 1)

/-- The instruction the decoder reads from the bytes of `w`, laid out from the least significant byte up as the units of a block body (R8, R47). -/
def decodeTableWord (_nbits w : Nat) : Option Instr :=
  match decodeUnits 3 (BitVec.ofNat 32 w) (BitVec.ofNat 32 (w / 2 ^ 32)) (BitVec.ofNat 32 (w / 2 ^ 64)) with
  | .ok (i, _) => some i
  | .error _ => none

/-! ### Encoder -/

/-- The prefix unit of a prefix (R60). -/
def encodePrefix (p : Prefix) : Word32 :=
  0#7 ++ bit p.idxC ++ bit p.idxB ++ bit p.idxA ++ bit p.idxD ++ bit p.zero ++ p.srcC ++
    (match p.rmode with | some r => r.code | none => 0#3) ++ bit p.mask.isSome ++ (match p.mask with | some m => m | none => 0#6) ++ 1#2

/-- The base word of an opcode, its fields and its guard (R54). -/
def encodeBase (op : BitVec 10) (f : Fields) (c : Ctl) : Word64 :=
  f.mod ++ bit f.killB ++ f.srcB ++ bit f.killA ++ f.srcA ++ f.dst ++ op.extractLsb' 6 4 ++ op.extractLsb' 0 6 ++ c.guard ++ bit c.gneg ++ bit c.mark ++ 0#2

/-- The units of a 64-bit word, lowest address first (R8, R47). -/
def wordUnits (w : Word64) : List Word32 := [w.extractLsb' 0 32, w.extractLsb' 32 32]

/-- The units of an instruction of the opcode map; none for an event. -/
def encode (i : Instr) : Option (List Word32) :=
  match i.opcode, i.ctl with
  | some op, some c =>
    let base := wordUnits (encodeBase op i.fields c)
    some (match c.pre with | some p => encodePrefix p :: base | none => base)
  | _, _ => none

/-- Decode a list of units that is one whole item. -/
def decodeList : List Word32 → Except Reject (Instr × Nat)
  | [u0, u1] => decodeUnits 2 u0 u1 0
  | [u0, u1, u2] => decodeUnits 3 u0 u1 u2
  | _ => .error .crossesEnd

/-! ### Block headers and the kernel header -/

/-- The fields of a block header (R51). -/
structure BlockHeader where
  rsv : Bool
  hot : Bool
  pfh : BitVec 16
  reconv : BitVec 20
  plive : BitVec 6
  vlive : BitVec 8
  len : BitVec 10
deriving DecidableEq, Repr

/-- Read a block header (R51). -/
def decodeHeader (w : Word64) : BlockHeader :=
  { rsv := w.getLsbD 63, hot := w.getLsbD 62, pfh := w.extractLsb' 46 16, reconv := w.extractLsb' 26 20, plive := w.extractLsb' 20 6,
    vlive := w.extractLsb' 12 8, len := w.extractLsb' 2 10 }

/-- The word of a block header (R51). -/
def encodeHeader (h : BlockHeader) : Word64 :=
  bit h.rsv ++ bit h.hot ++ h.pfh ++ h.reconv ++ h.plive ++ h.vlive ++ h.len ++ 2#2

end Sys2Proof
end

