-- ==== Sys2Proof/Machine/State.lean ====
section
/-!
DEFINITION. The state of a CX16 as plain data: groups, workgroups, gangs, launches, engines, memory, functions, slices and the package, with
`State.reset`, the machine right after package reset. Beside the spec's state stand the model's own bookkeeping fields, each said to be so.
-/
set_option Elab.async false
namespace Sys2Proof.Machine
open Sys2Proof

/-- Why the machine stops with a fault. -/
inductive Fault
  /-- Software wrote a live group's divergence stack or split table, or a saved group's control record: the spec calls what follows unpredictable
  (R24, R373). Raised by the group's next divergence step or restore. Safe. -/
  | unpredictable
deriving DecidableEq, Repr

/-- Why the machine refuses an instruction. -/
inductive Refusal
  /-- No meaning has been written for the instruction. Raised by the dispatcher. Safe. -/
  | notModelled (mnemonic : String)
deriving DecidableEq, Repr

/-- Trap causes (R36). -/
inductive Cause
  | illegal | regRange | badTarget | misalign | xlate | perm | copyRights | tileKind | tileBounds | barrierState | scopeDenied
  | divergeDepth | mxReserve | poison | debug
deriving DecidableEq, Repr

/-- Privileges (R36). -/
inductive Priv | u | s
deriving DecidableEq, Repr

/-- States of a PC slot (R20). -/
inductive SlotState | empty | live | waiting
deriving DecidableEq, Repr

/-! ### Groups -/

/-- One register write: of a window instruction that is not banked, or of an uncommitted L result (R67, R68). A uniform value stands in lane 0;
a predicate value is 0 or 1 in each lane. -/
structure RegWrite where
  cls : RClass
  reg : Nat
  lanes : Word32
  val : Lanes Word64
deriving DecidableEq, Repr

/-- One instruction of a window: its place in issue order and its write, if it made one that is neither banked nor dropped (R67). -/
structure WinEnt where
  seq : Nat
  write : Option RegWrite
  killed : Bool := false
deriving DecidableEq, Repr

/-- An uncommitted L result (R65, R68). `ret` says that its value has returned; `op` names the operation it waits for. -/
structure Pend where
  seq : Nat
  slot1 : Bool
  write : RegWrite
  ret : Bool
  flags : BitVec 6 := 0
  op : Nat := 0
deriving DecidableEq, Repr

/-- A barrier as a group's `tbar.wait` names it: a tile's handle of a workgroup, or a global address (R180). -/
inductive BarLoc | tile (wg h : Nat) | glob (vf va pa : Nat)
deriving DecidableEq, Repr

/-- A block entry that a record still has to make at its program counter: at a padding unit, by falling through, by a branch, or at the trap vector
(R48, R52, R53, R36). -/
inductive EntryMode | none | pad | fall | hdr | vec
deriving DecidableEq, Repr

/-- The block a path record stands in: its header, the unit after its body, its RECONV field, and an entry still to be made (R48, R51). The spec's
records hold no such fields; the model keeps them with each record. -/
structure Blk where
  hdr : Word32 := 0xFFFFFFFF
  bend : Word32 := 0
  rc : BitVec 20 := 0
  entry : EntryMode := .none
deriving DecidableEq, Repr

/-- A PC slot (R20) with the header of its block (R103), its window, youngest first (R67), and its wait in `tbar.wait` (R194, R373). -/
structure Slot where
  st : SlotState := .empty
  pc : Word32 := 0
  mask : Word32 := 0
  reconv : Word32 := 0xFFFFFFFF
  parent : BitVec 8 := 0
  blk : Blk := {}
  win : List WinEnt := []
  /-- The commit park of the instruction at `pc` has been taken (R66). -/
  parked : Bool := false
  tw : Option (BarLoc × Word32) := none
  /-- The wait in `tbar.wait` is over: last arriver, 0xFFFF for a broken barrier, and its unit (R194, R416). -/
  woken : Option (Nat × Word32) := none
  /-- The step at which the instruction at `pc` first stalled (R416). -/
  wait : Option Nat := none
  /-- The instruction at `pc` waits for its commit park (R66, R376). -/
  parking : Bool := false
  /-- The item at `pc` has raised DEBUG and is to be passed over (R419). -/
  skip : Bool := false
deriving DecidableEq, Repr

/-- A poll of a barrier by `tbar.test.ph` that has not written 1 yet: the step it began at, and how the phase ended (R416). -/
structure Poll where
  bar : BarLoc
  since : Nat
  fin : Option (Nat × Word32) := none
deriving DecidableEq, Repr

/-- A split-table entry (R24). -/
structure SplitEnt where
  valid : Bool := false
  parent : BitVec 8 := 0
deriving DecidableEq, Repr

/-- A divergence-stack entry (R24). -/
structure DivEnt where
  wait : Bool
  parent : BitVec 8
  mask : Word32
  reconv : Word32
  pc : Word32
  blk : Blk := {}
deriving DecidableEq, Repr

/-- A trap that has been raised and waits for its commit park (R36, R66). -/
structure TrapRec where
  cause : Cause
  slot1 : Bool
  pc : Word32
  addr : Word64
  /-- The item at `pc` is a header that a branch of the slot names: the slot resumes by entering it (R50, R110). -/
  entry : Bool := false
  /-- A watch event raised it, not `brk` (R419, R421). -/
  watch : Bool := false
deriving DecidableEq, Repr

/-- Why a group does not run: halted for a trap, or for the debugger (`skip`: it stopped at `brk`) (R36, R419). -/
inductive Halt | trap (fcause : Nat) (pc : Word32) (addr : Word64) | debug (skip : Bool)
deriving DecidableEq, Repr

/-- An accumulator name: bound or not, which slot's contents, and its drain cursor (R29, R203). -/
structure AccName where
  bound : Bool := false
  key : Nat := 0
  cur : Nat := 0
deriving DecidableEq, Repr

/-- A scale configuration (R209). -/
structure ScaleCfg where
  base : Word64 := 0
  cfg : BitVec 9 := 0
  en : Bool := false
  /-- Place in issue order of the `mxscl` that set it. -/
  since : Nat := 0
deriving DecidableEq, Repr

/-- What a translation gives: permissions, cache policy, and the other captured attributes of its page (R323, R329). -/
structure Attr where
  r : Bool := false
  w : Bool := false
  x : Bool := false
  cpol : Nat := 0
  comp : Bool := false
  watch : Option Nat := none
  /-- Host-physical addresses of the two leaf entries, whose HOT counts the page's fills and writebacks (R331). -/
  leaf1 : Nat := 0
  leaf2 : Nat := 0
  /-- Guest-physical page, by which a stage-2 invalidation names the line (R332). -/
  gpage : Nat := 0
  /-- A 512 MiB page: both leaves map one (R329). -/
  big : Bool := false
deriving DecidableEq, Repr

/-- One access of one lane: its virtual address, its captured location (`Loc`), and whether the lane is a helper whose fault is not raised and
whose value is zero; the attributes that it keeps until it completes (R19, R326). -/
structure LaneAcc where
  lane : Nat
  va : Nat
  pa : Nat
  zero : Bool := false
  attr : Attr := {}
  /-- Its line is allocated as the first to leave (R159). -/
  ev : Bool := false
deriving DecidableEq, Repr

/-- One lane of an atomic: `fin` once it has been performed, or its reply record written (R165, R170). -/
structure AtomLane where
  lane : Nat
  va : Nat
  pa : Nat
  b : Word64
  c : Word64
  fin : Bool := false
  /-- Its reply record is withheld, and still to be written (R170, R380). -/
  held : Bool := false
deriving DecidableEq, Repr

/-- A page that an operation accesses, translated when it was accepted, with the attributes captured then (R185, R326). -/
structure PageMap where
  vpage : Nat
  ppage : Nat
  attr : Attr := {}
deriving DecidableEq, Repr

/-- The window of `cpy.win` (R187). -/
structure WinDesc where
  hgt : Nat
  wid : Nat
  y0 : Int
  x0 : Int
  wwm : Nat
  pb : Nat
  clamp : Bool
deriving DecidableEq, Repr

inductive CopyKind | in_ | out | mc | win (w : WinDesc)
deriving DecidableEq, Repr

/-- A receiver of a copy: its data tile, the barrier that counts it, and the barrier of its acknowledgement (R186). -/
structure CopyRecv where
  wg : Nat
  h : Nat
  rowb : Nat
  bar : Option BarLoc
  ack : Option BarLoc
deriving DecidableEq, Repr

/-- An accepted copy (R183 to R189): `fin` lists the bytes already counted, ascending. -/
structure CopyOp where
  kind : CopyKind
  ga : Nat
  gp : Nat
  to_ : Nat
  rot : Nat
  rb : Nat
  nr : Nat
  recv : List CopyRecv
  pages : List PageMap
  fin : List Nat := []
deriving DecidableEq, Repr

/-- The scale reading of one side of a pass (R209, R213). -/
structure ScaleUse where
  base : Nat
  rsh : Nat
  shp : Bool
  sideB : Bool
  /-- Place of the `mxscl` that the pass goes by; 0 for a detached pass. -/
  since : Nat := 0
deriving DecidableEq, Repr

/-- A register or tile operand of a posted pass (R206 to R208). A register operand holds the 64 operand lines as read at issue. -/
inductive PassOpnd
  | regs (vals : List (Lanes Word64))
  | tile (wg h rowb off tp rp rot : Nat) (win : Option (Nat × Nat × Nat × Nat × Nat))
deriving DecidableEq, Repr

/-- A posted `mxmma` (R210). -/
structure MmaOp where
  key : Nat
  a : PassOpnd
  b : PassOpnd
  fa : EFmt
  fb : EFmt
  k : Nat
  sa : Option ScaleUse
  sb : Option ScaleUse
  pages : List PageMap
deriving DecidableEq, Repr

/-- One add that a scatter still has to make: slot address, and what it adds (R261 to R263). -/
structure ScatAdd where
  va : Nat
  pa : Nat
  fast : Bool
  sum : Int
  fsum : Word32
  headers : List (Nat × Nat)
  fin : Bool := false
deriving DecidableEq, Repr

/-- One lane of a ray operation: its record, its ray or its operand, and how far its traversal has come: whether it has begun, waits for a page, and the
reference it has to visit next, with the address of its word (R275 to R279). -/
structure RayLane where
  lane : Nat
  recVa : Nat
  recPa : Nat
  arg : Word64 := 0
  ray : List Word64 := []
  begun : Bool := false
  waiting : Bool := false
  next : Option (Nat × Nat) := none
  fin : Bool := false
deriving DecidableEq, Repr

inductive RayKind
  | trc (root : Word64) | rsm (shrt : Bool) | cmt | get (sel : RaySel)
deriving DecidableEq, Repr

/-- What an operation in flight does when it completes (R170). -/
inductive OpKind
  | null
  | load (accs : List LaneAcc) (size cnt : Nat) (sgn : Bool) (l2 : Bool) (acq : Option Scope)
  | store (accs : List LaneAcc) (data : List (List Byte)) (rel : Option Scope)
  | tload (accs : List LaneAcc) (wg h : Nat) (size cnt : Nat) (sgn : Bool)
  | tstore (accs : List LaneAcc) (wg h : Nat) (data : List (List Byte))
  | append (wg h esz : Nat) (vals : List (Nat × Word64)) (helpers : Word32)
  | atomic (lanes : List AtomLane) (op : AtomOp) (ty : Ty) (ret : Bool) (acq rel : Option Scope)
  | ratom (lanes : List AtomLane) (op : AtomOp) (ty : Ty) (recs : List LaneAcc)
  | rpoll (base : Word64) (recs : List LaneAcc) (ty : Ty)
  | range (first count : Nat) (inval : Bool) (l1Only : Bool)
  | launch (record : List Byte) (queue : Nat) (slotVa slotPa : Nat)
  | wreg (id : Nat) (set : Option (Nat × Nat))
  | mark (va : Nat) (rect : Word64)
  | copy (c : CopyOp)
  | arrive (bar : BarLoc) (bytes : Word64) (arv : Bool)
  | mma (m : MmaOp)
  | mxzero (key : Nat)
  | mxdrn (key row : Nat) (clr : Bool) (lanes : Word32)
  | pass (desc : List Byte) (va pa : Nat)
  | delta (desc : List Byte) (va pa : Nat)
  | dlr (which : Nat) (va pa : Nat) (w0 w1 : Word64)
  | filter (i : Instr) (desc : List Byte) (lanes : Word32) (helpers : Word32) (srcs : List (Lanes Word64)) (pages : List PageMap)
  | scatter (adds : List ScatAdd)
  | ray (k : RayKind) (lanes : List RayLane) (rayFlags : Word64)
deriving DecidableEq, Repr

/-- An operation in flight, in issue order: `path` when it holds a counter, `fin` once it is complete, `pc` of its instruction (R170). -/
structure Op where
  seq : Nat
  slot1 : Bool
  path : Option Path
  pc : Word32
  kind : OpKind
  fin : Bool := false
  /-- The step of its issue. -/
  stamp : Nat := 0
  /-- A store that its core has seen, and the step at which it was first seen: the groups of the core find their group's older stores with it (R310). -/
  seen : Option Nat := none
  /-- Its requests to host or peer memory have been sent (R318). -/
  asked : Bool := false
  /-- Bytes that its group's younger writes have replaced since, oldest first: location and what stood there (R244, R279). -/
  past : List (Nat × List Byte) := []
deriving DecidableEq, Repr

/-- A stop request: a save for pre-emption, rotation or a halt, or the end of a faulted launch (R369, R395). -/
inductive StopReq | save | endGroup
deriving DecidableEq, Repr

/-- A resident group. `id`, `launch`, `gang` and `wg` are the model's own keys. -/
structure Group where
  id : Nat := 0
  launch : Nat := 0
  gang : Nat := 0
  wg : Nat := 0
  vf : Nat := 0
  slice : Nat := 0
  cluster : Nat := 0
  core : Nat := 0
  gslot : Nat := 0
  gid : Nat := 0
  wgid : Nat := 0
  gx : Nat := 0
  gy : Nat := 0
  gz : Nat := 0
  grid : Word64 := 0
  launchId : Word64 := 0
  kbase : Word64 := 0
  args : Word64 := 0
  saveb : Word64 := 0
  deadline : Word64 := 0xFFFFFFFFFFFFFFFF
  nv : Nat := 8
  ns : Nat := 8
  np : Nat := 16
  na : Nat := 0
  ntiles : Nat := 0
  wgroups : Nat := 1
  gangN : Nat := 1
  producer : Nat := 0xFF
  keepq : Bool := false
  codeEnd : Nat := 0
  slot0 : Slot := {}
  slot1 : Slot := {}
  sel1 : Bool := false
  /-- The step of the group's last issue, and the slot that issued (R366). -/
  issuedAt : Nat := 0
  last1 : Bool := false
  split : Vector SplitEnt 256 := tableOf 256 {}
  stack : List DivEnt := []
  helper : Word32 := 0
  exited : Word32 := 0
  v : Vector (Lanes Word64) 256 := tableOf 256 (Lanes.const 0)
  s : Vector Word64 64 := tableOf 64 0
  p : Vector Word32 64 := tableOf 64 0
  acc : Vector AccName 8 := tableOf 8 {}
  accData : List (Nat × Sparse Word32) := []
  x : BitVec 16 := 0
  fpctl : BitVec 6 := 0
  fpflags : BitVec 6 := 0
  priv : Priv := .u
  trapvec : Word64 := 0
  trapcause : BitVec 5 := 0
  trappc : Word32 := 0
  trapaddr : Word64 := 0
  win : BitVec 24 := 0x016120
  sclA : ScaleCfg := {}
  sclB : ScaleCfg := {}
  ops : List Op := []
  /-- Watch records that wait for those of older operations, oldest first: place in issue order and bytes (R414). -/
  recs : List (Nat × List Byte) := []
  pend : List Pend := []
  seq : Nat := 0
  /-- Banked writes that are younger than a write which still stands in a window: place in issue order, class, register, lanes (R67). -/
  late : List (Nat × RClass × Nat × Word32) := []
  wgGen : BitVec 16 := 0
  gangGen : BitVec 16 := 0
  /-- 0 none, 1 waits in `sync.wg`, 2 waits in `sync.gang`. -/
  waitg : Nat := 0
  /-- Step and unit of the arrival that the group waits after (R416). -/
  syncFrom : Nat := 0
  syncPc : Word32 := 0
  /-- Path code and unit of the operation of each path that completed last, the latest path last (R416). -/
  lastDone : List (Nat × Word32) := []
  wseen : Vector Nat 16 := tableOf 16 0
  polls : List Poll := []
  /-- The steps between which the group was saved, the second 0 while it is: its waits stand still meanwhile (R416). -/
  aways : List (Nat × Nat) := []
  pendTrap : Option TrapRec := none
  /-- The page-request wait of R36: what a FAIL delivers. -/
  pageWait : Option TrapRec := none
  /-- The block that the trapping slot stood in (R110). -/
  trapBlk : Blk := {}
  halt : Option Halt := none
  stop : Option StopReq := none
  grace : Bool := false
  yielded : Bool := false
  /-- Stopped at a boundary: some true for a full save (R370). -/
  stopped : Option Bool := none
  /-- A watch event with WHALT waits for the next boundary (R421). -/
  watchHit : Bool := false
  /-- Software stored to this group's stack or split table (R24). -/
  divTouched : Bool := false
  ended : Bool := false
  /-- The group has ended and given its place back; only operations of it remain (R109). -/
  gone : Bool := false
  /-- Records of the group's suspended traversals (R410). -/
  raySusp : List Nat := []
  /-- The control record as its save wrote it (R373). -/
  saved : List Byte := []
deriving DecidableEq, Repr

/-! ### Workgroups, gangs and launches -/

/-- A barrier's fields (R190). -/
structure Barrier where
  arvc : Word32 := 0
  expc : Word32 := 0
  pend : Word64 := 0
  gen : Word32 := 0
  broken : Bool := false
  armed : Bool := false
  phase : Bool := false
  last : BitVec 16 := 0
  lwait : BitVec 48 := 0
  long : BitVec 16 := 0
deriving DecidableEq, Repr

/-- States of a tile handle (R175). -/
inductive HState | free | allocated | failed | freeing
deriving DecidableEq, Repr

/-- A tile handle's entry (R321) with the bytes of its tile, its barrier, and an allocation in progress (R175). -/
structure Handle where
  st : HState := .free
  kind : TKind := .data
  clus : Bool := false
  base : Nat := 0
  rowb : Nat := 0
  rows : Nat := 0
  bytes : Sparse Byte := []
  poison : List Nat := []
  head : Word64 := 0
  tail : Word64 := 0
  bar : Barrier := {}
  /-- Level, kind and shape that an allocation in progress asks for. -/
  prog : Option (Bool × TKind × Nat × Nat) := none
  progBy : Nat := 0
deriving DecidableEq, Repr

/-- One write to a w-register that some group may still read around: value, writing group, and whether every group must see it (R119). -/
structure WHist where
  val : Word64
  by_ : Nat
  pub : Bool
deriving DecidableEq, Repr

/-- A resident workgroup. `wr` holds each w-register's writes, oldest first, starting from one that every group sees; `wbase` numbers the first. -/
structure Workgroup where
  key : Nat
  gang : Nat
  launch : Nat
  vf : Nat
  cluster : Nat
  core : Nat
  wgid : Nat
  ntiles : Nat
  charge : Nat := 0
  weight : Nat := 0
  wr : Vector (List WHist) 16 := tableOf 16 [⟨0, 0, true⟩]
  wbase : Vector Nat 16 := tableOf 16 0
  handles : Vector Handle 32 := tableOf 32 {}
deriving DecidableEq, Repr

inductive GangState | resident | saved | ended
deriving DecidableEq, Repr

/-- A gang that has been placed: where, and in what order (R361, R363). -/
structure Gang where
  key : Nat
  launch : Nat
  ix : Nat
  slot : Nat
  cluster : Nat
  st : GangState := .resident
  /-- Place in the order of placements, or of saves. -/
  order : Nat := 0
  /-- Saved by a rotation: its registers stay in shadow storage (R378). -/
  shadow : Bool := false
  /-- Its registers and control records are still to be written to its blocks (R378, R379). -/
  unwritten : Bool := false
  /-- The preload has brought its register image into shadow storage (R379). -/
  imaged : Bool := false
deriving DecidableEq, Repr

/-- A kernel header's fields (R40). -/
structure KHeader where
  keepq : Bool := false
  vgran : Nat := 1
  sgran : Nat := 1
  pgran : Nat := 1
  tiles : Nat := 0
  accs : Nat := 0
  wgroups : Nat := 1
  gang : Nat := 1
  producer : Nat := 0xFF
  energy : Nat := 1
  peak : Nat := 0
  codelen : Nat := 0
deriving DecidableEq, Repr

/-- A launch record's fields (R350). -/
structure LRecord where
  kbase : Word64 := 0
  args : Word64 := 0
  saveb : Word64 := 0
  gridx : Nat := 1
  gridy : Nat := 1
  gridz : Nat := 1
  deadline : Word64 := 0xFFFFFFFFFFFFFFFF
  saven : Nat := 1
  trapvec : Word32 := 0
  depaddr : Word64 := 0
  depval : Word64 := 0
  sigaddr : Word64 := 0
  compl : Word64 := 0
  irq : Bool := false
  rsvOk : Bool := true
deriving DecidableEq, Repr

/-- Where a launch stands: its header not read yet, running, done but its completion steps not all performed, or over (R353 to R355). -/
inductive LStage | header | run | finish (step : Nat) | over
deriving DecidableEq, Repr

/-- A launch that has been taken. -/
structure Launch where
  key : Nat
  vf : Nat
  queue : Nat
  id : Word64
  rec_ : LRecord := {}
  hdr : KHeader := {}
  stage : LStage := .header
  status : Nat := 1
  background : Bool := false
  depOk : Bool := false
  /-- Linear index of the next gang to place (R361). -/
  next : Nat := 0
  gangsEnded : Nat := 0
  /-- The slice tick since which its next gang has fitted nowhere (R363). -/
  waitSince : Option Word64 := none
  faulted : Bool := false
  finish : Word64 := 0
  /-- The request of its signal add is outstanding on a link (R355). -/
  signalled : Bool := false
deriving DecidableEq, Repr

/-! ### Engines -/

/-- A reservation entry: the group and operation that posted it (R204). `clk` orders posts. -/
structure ResEnt where
  gid : Nat
  op : Nat
  vf : Nat
  post : Nat
  /-- The step since which a lender may take it (R392). -/
  offered : Option Nat := none
deriving DecidableEq, Repr

/-- The pass an engine runs: rows retired so far (R210), and whether it is borrowed (R392). -/
structure RunPass where
  gid : Nat
  op : Nat
  vf : Nat
  rows : Nat := 0
  /-- Rows of the result, computed when the pass was granted (R210). -/
  result : List (List Word32) := []
  /-- A detached pass or an invocation waits for a page (R214). -/
  waiting : Bool := false
  /-- An invocation has computed; the writes it still has to make, in order: address, location, bytes (R234). -/
  computed : Bool := false
  writes : List (Nat × Nat × List Byte) := []
  borrowed : Bool := false
  home : Nat := 0
deriving DecidableEq, Repr

/-- A cached record header (R235). -/
structure RecLine where
  vf : Nat
  va : Nat
  pa : Nat
deriving DecidableEq, Repr

/-- Gating of a unit: predicted idle length, length of the idle period so far, gated, waking (R410 to R412). -/
structure Gate where
  pred : BitVec 16 := 0
  idleFrom : Option Nat := some 0
  gated : Bool := false
  commitAt : Nat := 0
  waking : Bool := false
deriving DecidableEq, Repr

/-- A line of scales that the engine has cached for a group's side since an `mxscl` of it (R209). -/
structure ScaleLine where
  gid : Nat
  sideB : Bool
  since : Nat
  line : Nat
  bytes : List Byte
deriving DecidableEq, Repr

/-- A cluster: its engine, its power budget and its gates. -/
structure Cluster where
  res : List ResEnt := []
  run : Option RunPass := none
  owner : Option Nat := none
  recs : List RecLine := []
  scales : List ScaleLine := []
  accReserved : Nat := 0
  /-- Control-interval counter (R39). -/
  interval : Nat := 0
  remaining : Nat := 23250
  /-- The budget in force for the interval that runs (R404). -/
  inForce : Nat := 23250
  lent : Nat := 0
  granted : Nat := 0
  /-- What of the grant is part of the budget of the interval that runs (R404). -/
  grantIn : Nat := 0
  admitted : Nat := 0
  weight : Nat := 0
  refused : Bool := false
  /-- Whether each of the last intervals refused an admission, youngest first (R408). -/
  history : List Bool := []
  demanding : Bool := false
  offer : Nat := 0
  point : Nat := 5
  want : Nat := 5
  gEngine : Gate := {}
  gRay : Gate := {}
  /-- Scratchpad and tile-space retirements (R402). -/
  spareBank : Bool := false
deriving DecidableEq, Repr

/-- A line of a core's L1 with its captured attributes; `ev` marks the first to leave (R159, R323, R324). -/
structure L1Line where
  vf : Nat
  line : Nat
  pa : Nat
  attr : Attr := {}
  bytes : List Byte
  ev : Bool := false
deriving DecidableEq, Repr

/-- A core: its L1, its clock base, its load throttle and its gates. -/
structure Core where
  l1 : List L1Line := []
  l1Disabled : List Nat := []
  clkBase : Nat := 0
  level : Nat := 0
  hits : Nat := 0
  misses : Nat := 0
  gQuad : Vector Gate 4 := tableOf 4 {}
  gFilter : Gate := {}
  /-- A switch of a quadrant's register banks to the spare one (R402). -/
  spareRf : Vector Bool 4 := tableOf 4 false
deriving DecidableEq, Repr

/-! ### Memory system -/

/-- A line of the L2 with its captured attributes: the L2 slice of the package that holds it, and `ev` for the first to leave (R159, R323, R325). -/
structure L2Line where
  vf : Nat
  line : Nat
  pa : Nat
  attr : Attr
  bytes : List Byte
  dirty : Bool
  home : Nat := 0
  ev : Bool := false
  /-- The watch mask that its fill read, on a watched page (R323, R345). -/
  mask : Option Word64 := none
deriving DecidableEq, Repr

/-- A watch mask as a fill read it: it holds until its page is invalidated (R332, R345). -/
structure WatchEnt where
  vf : Nat
  line : Nat
  gpage : Nat
  mask : Word64
deriving DecidableEq, Repr

/-- An entry of a walk cache: the table entry as it stood (R330). `base` is where it stands, and `ix` the bits of the walked address that lead to it. -/
structure WalkEnt where
  vf : Nat
  stage2 : Bool
  level : Nat
  base : Nat
  ix : Nat
  val : Word64
deriving DecidableEq, Repr

/-- A translation that the walker has produced: host-physical page, cache policy and COMP, function, the virtual and guest-physical pages, and its leaves
(R331, R334). -/
structure Walked where
  page : Nat
  cpol : Nat
  comp : Bool
  vf : Nat
  vpage : Nat
  gpage : Nat
  big : Bool := false
  /-- The leaf entries whose HOT counts the page's fills (R331). -/
  leaf1 : Nat := 0
  leaf2 : Nat := 0
deriving DecidableEq, Repr

/-- Who made a page request (R344). -/
inductive Requester
  | group (gid : Nat) | pass (cl : Nat) | rayLane (gid op lane : Nat) | rast (gr : Nat) | enc (gr stream : Nat)
  | incoming (tag : Nat) | slotRead (vf q : Nat) | header (l : Nat) | dep (l : Nat) | compl (l : Nat)
deriving DecidableEq, Repr

/-- Kinds of access, from the narrowest to the widest (R343). -/
inductive AccKind | read | write | execute | atomic
deriving DecidableEq, Repr

/-- A page request (R342, R343). -/
structure PageReq where
  tag : Nat
  vf : Nat
  stage2 : Bool
  page : Nat
  kind : AccKind
  taken : Bool := false
  /-- A reserved entry of its function, or a shared one. -/
  reserved : Bool := true
  who : List Requester := []
deriving DecidableEq, Repr

/-- A migration engine (R339). -/
structure Migration where
  src : Word64 := 0
  dst : Word64 := 0
  rep : Word64 := 0
  pages : Nat := 0
  stat : Nat := 0
  meta_ : Bool := false
  /-- The copy that runs: source, destination, report, pages and META as they stood at GO. -/
  job : Nat × Nat × Nat × Nat × Bool := (0, 0, 0, 0, false)
deriving DecidableEq, Repr

/-! ### Functions, slices and the package -/

/-- A launch queue (R347, R348, R351). -/
structure Queue where
  base : Word64 := 0
  cfg : BitVec 12 := 0
  tail : Word32 := 0
  head : Word32 := 0
  taken : Nat := 0
deriving DecidableEq, Repr

/-- A record buffer's registers (R414). -/
structure RecBuf where
  base : Word64 := 0
  drops : Word32 := 0
  log2n : BitVec 5 := 0
  head : Word32 := 0
  tail : Word32 := 0
deriving DecidableEq, Repr

/-- An invalidation in progress (R332). -/
structure Inval where
  addr : Word64 := 0
  pages : Word32 := 0
  stg : Bool := false
  done : Bool := true
  /-- The invalidation that runs: first page, pages and stage 2, as they stood at GO. -/
  job : Nat × Nat × Bool := (0, 0, false)
deriving DecidableEq, Repr

/-- A weight region entry (R218). -/
structure Region where
  reg : Bool := false
  obs : Bool := false
  ver : Word32 := 0
  base : Nat := 0
  size : Nat := 0
deriving DecidableEq, Repr

/-- Who makes an access, as a watch event names it (R346). -/
structure Agent where
  launch : Word64 := 0
  id : Nat := 0xFFFF
  upc : Nat := 0
  gid : Option Nat := none
  /-- The operation's place in its group's issue order (R414). -/
  seq : Nat := 0
deriving DecidableEq, Repr

/-- A completion withheld while its function does not hold the slice (R380). -/
inductive Withheld
  | reply (va pa : Nat) (data : List Byte) (ag : Agent) (lane : Nat)
  | status (va pa : Nat) (data : List Byte) (ag : Agent)
  | launchSteps (l : Nat)
  | pageIrq (stage2 : Bool)
deriving DecidableEq, Repr

/-- A virtual function: its registers in the two BAR0 spaces (R388, R389, R414, R418, R431) and its region entries. -/
structure VFun where
  queues : Vector Queue 16 := tableOf 16 {}
  miss : Word32 := 0
  inv1 : Inval := {}
  inv2 : Inval := {}
  wtbase : Word64 := 0
  rws : Bool := false
  lflt : Bool := false
  srst : Bool := false
  flaunch : Word64 := 0
  finfo : Word64 := 0
  faddr : Word64 := 0
  trace : RecBuf := {}
  beacon : RecBuf := {}
  att : Bool := false
  whalt : Bool := false
  halted : Bool := false
  halting : Bool := false
  winva : Word64 := 0
  spol : BitVec 5 := 0
  busy : Bool := false
  brw : Bool := false
  bound : Bool := false
  slice : Nat := 0
  /-- SLICE as written while the function was bound, until it is unbound (R388). -/
  newSlice : Option Nat := none
  lipass : Word64 := 0
  limac : Word64 := 0
  libyte : Word64 := 0
  flrDone : Bool := true
  regions : Vector Region 64 := tableOf 64 {}
  s1root : Nat := 0
  s2root : Nat := 0
  /-- The completions withheld, each with the step of its arrival (R380). -/
  withheld : List (Nat × Withheld) := []
  /-- MSI-X vectors 0 to 2 raised while their entries mask them (R431). -/
  irq : Vector Bool 3 := tableOf 3 false
  /-- The 256-byte configuration space and its extensions, as software wrote them (R430). -/
  config : Sparse Byte := []
  /-- MSI-X table and PBA (R431). -/
  msix : Sparse Byte := []
deriving DecidableEq, Repr

/-- An accepted draw (R284, R288) and how far it has come: the next primitive to bin, the binned primitives with their words and the entries they
fill, what is left of a flush as (tile, primitive, words), and the flushes. -/
structure Draw where
  vf : Nat
  gid : Nat
  launchId : Word64 := 0
  lastId : Nat := 0
  pc : Word32 := 0
  seq : Nat := 0
  desc : List Byte
  va : Nat
  pa : Nat
  begun : Bool := false
  ix : Nat := 0
  bins : List (Nat × List Nat) := []
  used : Nat := 0
  todo : List (Nat × Nat × List Nat) := []
  flushes : Nat := 0
  /-- The old value of the small-list counter, once the add for the next primitive has been performed (R286). -/
  slot : Option Nat := none
  /-- It waits for a page. -/
  waiting : Bool := false
  /-- STATUS to write. -/
  result : Option Nat := none
deriving DecidableEq, Repr

/-- An open frame (R295 to R298): superblocks marked, and how many have been encoded. `low` counts those of a fused frame's lower half (R293). -/
structure Frame where
  vf : Nat
  gid : Nat
  launchId : Word64 := 0
  lastId : Nat := 0
  pc : Word32 := 0
  desc : List Byte
  va : Nat
  pa : Nat
  marks : List Nat := []
  encoded : Nat := 0
  low : Nat := 0
  /-- Pixels taken at each superblock's encoding, and those of the lower half. -/
  pixels : List Byte := []
  lowPixels : List Byte := []
  waiting : Bool := false
  /-- STATUS 4 or 5, once it has failed. -/
  fail : Option Nat := none
deriving DecidableEq, Repr

/-- A stream of an encoder lane (R293): its open frames, whether the next one is coded as a key frame, and what the earlier frames left (log entry 8). -/
structure Stream where
  frames : List Frame := []
  /-- The function whose frame was accepted last. -/
  owner : Option Nat := none
  nextKey : Bool := true
  past : Nat := 0
deriving DecidableEq, Repr

/-- The error log's registers (R384). -/
structure ErrLog where
  base : Word64 := 0
  drops : Word32 := 0
  en : Bool := false
  log2e : BitVec 5 := 4
  head : Word32 := 0
  tail : Word32 := 0
deriving DecidableEq, Repr

/-- A granule: its tick counter and shadow storage, and, when it is the first of a slice, that slice's control block, lantern, rasteriser (R377,
R384, R403, R413, R422). `num` is 0 for a granule that is not the first of a slice. -/
structure Granule where
  tick : Word64 := 0
  num : Nat := 1
  gracewin : Nat := 256
  lthr : Nat := 0
  bgmin : Nat := 0
  pwait : Nat := 100
  rotEn : Bool := false
  rotNm : Nat := 0
  rotVf : Word32 := 0
  rotNext : Option (Bool × Nat × Word32) := none
  rotq : Word64 := 0
  rdone : Bool := true
  quiet : Bool := false
  hold : Bool := false
  resetting : Bool := false
  lend : BitVec 16 := 0
  lopass : Word64 := 0
  lomac : Word64 := 0
  lobyte : Word64 := 0
  wdog : Word32 := 100000000
  /-- Slice tick at which the slice last made progress (R396). -/
  progress : Word64 := 0
  hangReported : Bool := false
  /-- The passes, invocations, copies, traversals, draws and frames of the slice: number, how far each has come, and the tick of its last progress (R396). -/
  units : List (Nat × Nat × Word64) := []
  /-- A table or the lantern's state is corrupt: only a per-slice reset clears it (R397). -/
  stuck : Bool := false
  log : ErrLog := {}
  slpow : BitVec 16 := 93
  rail : Nat := 0
  top : Nat := 5
  gates : Word64 := 0
  gmiss : Word64 := 0
  vote : Nat := 830
  bthr : Word32 := 0
  traceOn : Bool := false
  prof : Bool := false
  ivl : Nat := 20
  rpStat : Nat := 0
  rpEn : Bool := false
  rpBase : Word64 := 0
  rpSize : Word64 := 0
  rpStop : Word64 := 0
  rpIvl : Word32 := 0
  rpCount : Nat := 0
  /-- The count at which the interval that runs began: 0, or where it began early (R424). -/
  rpBegan : Nat := 0
  /-- An instruction has issued in replay mode and has not retired (R423). -/
  rpOpen : Bool := false
  /-- Place of the group that issued last in replay mode (R423). -/
  rpTurn : Nat := 0
  /-- Rotation entry that holds the slice, when its quantum began, and how far a change of entry has come (R378). -/
  entry : Nat := 0
  quantumFrom : Word64 := 0
  preloaded : Bool := false
  rotating : Bool := false
  windowFrom : Word64 := 0
  bgTicks : Nat := 0
  /-- Cluster-ticks counted since the window's 10 000 ticks were over (R359). -/
  bgNext : Nat := 0
  draws : List Draw := []
  streams : Vector Stream 4 := tableOf 4 {}
deriving DecidableEq, Repr

/-- A non-posted request that this device has sent for a lane of an operation. -/
structure NpReq where
  tag : Nat
  addr : Nat
  gid : Nat
  op : Nat
  lane : Nat
deriving DecidableEq, Repr

/-- A posted write that its link has not acknowledged: first address, group and launch, the number of the last flit that carries it, and whether its last
bytes wait for a flit (R172, R318). -/
structure Unacked where
  addr : Nat
  gid : Nat
  launch : Nat := 0
  flit : Option Nat := none
  tail : Bool := false
deriving DecidableEq, Repr

/-- An incoming access that waits: for the page it has asked for, or behind an earlier one (R433, R434). `kind` is 0 for a write, 1 for a read, 2 for an
AtomicOp, 3 for an atomic-request message; 4 for a write of a register, 5 for a read of one, 6 for a configuration request. Tags rise in the order of
arrival. -/
structure Incoming where
  tag : Nat
  vf : Nat
  port : Port
  kind : Nat
  asked : Bool
deriving DecidableEq, Repr

/-- A link (R426 to R429). Channels are posted, non-posted and completion, 0 to 2. -/
structure Link where
  state : Nat := 0
  replays : Word32 := 0
  txSeq : Nat := 0
  rxSeq : Nat := 0
  /-- Flits not yet released from the replay buffer, oldest first. -/
  buf : List Flit := []
  /-- Bytes of each channel's transactions that wait for a flit (R426). -/
  tx : Vector (List Byte) 3 := tableOf 3 []
  /-- Flits put on the link, control flits and resent ones too, oldest first. -/
  wire : List Flit := []
  txPaused : Vector Bool 3 := tableOf 3 false
  rxPaused : Vector Bool 3 := tableOf 3 false
  /-- The receive buffers: what each channel's flits have brought and no transaction has taken yet (R426, R427). -/
  rx : Vector (List Byte) 3 := tableOf 3 []
  /-- Control frames sent: their code and argument, oldest first. -/
  sent : List (Nat × Nat) := []
  /-- Requests and writes that this device has sent over the link, oldest first. -/
  out : List Port := []
  /-- Posted writes not yet acknowledged, oldest first. -/
  unacked : List Unacked := []
  /-- Transactions not yet started, with their channels, oldest first: the channel is paused or the link is not UP. -/
  held : List (Nat × Port) := []
  /-- Outstanding non-posted requests. -/
  np : List NpReq := []
  npNext : Nat := 0
  /-- Requests of peers waiting in the atomic-engine queue, oldest first. -/
  aq : List Incoming := []
  /-- Answers this device has sent: tag, status and data. -/
  replies : List (Nat × Nat × List Byte) := []
deriving DecidableEq, Repr

/-- A voltage regulator (R409), in mV: its voltage, its target, and the end of its hold on its own µs counter. -/
structure Rail where
  mv : Nat := 830
  target : Nat := 830
  holding : Bool := false
deriving DecidableEq, Repr

/-- The entries of the boot journal (R439). -/
inductive Journal | none | started | done | failed
deriving DecidableEq, Repr

/-- What a turn of a re-execution takes from the recording: its slice's first granule, the step, the slice tick and the next key at which it was taken
(R424, R425). -/
structure Redo where
  gran : Nat
  step : Nat
  tick : Word64
  key : Nat
deriving DecidableEq, Repr

/-- One turn of the machine: which agent acts next. `issue` lets a slot of a group issue; `event` is an event with what its agent presents; the two
others are the same in a re-execution (R425). -/
inductive Turn
  | issue (gid : Nat) (slot1 : Bool)
  | event (i : Instr) (port : Port)
  | redo (r : Redo) (gid : Nat) (slot1 : Bool)
  | redoEvent (r : Redo) (i : Instr) (port : Port)
deriving DecidableEq, Repr

/-- The whole machine but for the checkpoints of replay. -/
structure Device where
  /-- The group that the next issue concerns; the others stand in `groups`. -/
  cur : Group := {}
  groups : List Group := []
  savedGroups : List Group := []
  wgs : List Workgroup := []
  savedWgs : List Workgroup := []
  gangs : List Gang := []
  launches : List Launch := []
  nextKey : Nat := 1
  clusters : Vector Cluster 64 := tableOf 64 {}
  cores : Vector Core 256 := tableOf 256 {}
  mem : List Host.Cell := []
  poison : List Nat := []
  l2 : List L2Line := []
  walks : List WalkEnt := []
  /-- Watch masks that the controllers keep (R345). -/
  masks : List WatchEnt := []
  /-- Mixed host-physical pages, by 64 KiB page number; `true` for a whole 512 MiB page (R329, R334). -/
  mixed : List (Nat × Bool) := []
  /-- Translations that the walker has produced since the page's last invalidation (R334). -/
  walked : List Walked := []
  /-- Registered global barriers: the location of the line, its home L2 slice and its function (R197). -/
  barLines : List (Nat × Nat × Nat) := []
  prq : List PageReq := []
  prqWait : List (Nat × Bool × Nat × AccKind × Requester) := []
  prqFailed : List Requester := []
  migs : Vector Migration 4 := tableOf 4 {}
  vfs : Vector VFun 64 := tableOf 64 {}
  grans : Vector Granule 16
  pcmdStat : Nat := 0
  pcmdOp : Nat := 0
  pcmdNum : Nat := 0
  pcmdFirst : Nat := 0
  /-- The operation that runs: OP, FIRST and NUM as they stood when it started (R386). -/
  pcmdJob : Nat × Nat × Nat := (0, 0, 0)
  cmbase : Word64 := 0
  sewin : Word32 := 100000000
  sethr : Word64 := 0x0008080808080808
  pkpow : BitVec 16 := 1500
  pfRws : Bool := false
  pfIrq : Vector Bool 2 := tableOf 2 false
  pfConfig : Sparse Byte := []
  pfMsix : Sparse Byte := []
  rails : Vector Rail 4 := tableOf 4 {}
  /-- Loans of the power arbiter: lender, borrower and nJ (R406). -/
  loans : List (Nat × Nat × Nat) := []
  links : Vector Link 5 := tableOf 5 {}
  incoming : List Incoming := []
  mbResult : Nat := 0
  mbBusy : Bool := false
  /-- RESULT that the running command will give. -/
  mbPending : Nat := 0
  mbCmd : BitVec 8 := 0
  mbAddr : Word64 := 0
  mbLen : Word64 := 0
  meas : Vector (BitVec 256) 4 := tableOf 4 0
  svcount : Nat := 0
  runningSvn : Nat := 0
  /-- The image that an update has written over the one of the board flash (R438). -/
  flash : Option (List Byte) := none
  journal : Vector Journal 9 := tableOf 9 .none
  alt : Vector Bool 9 := tableOf 9 false
  bootStep : Nat := 0
  bootDone : Bool := false
  /-- The step of the boot has begun and not ended (R439). -/
  bootRuns : Bool := false
  /-- The device identity key pair of this start: two secrets, then the public key (R435). -/
  identity : List Byte := []
  /-- The populated bytes of each LPDDR-6 channel, as the package reported them at start-up (R3). -/
  lpddr : Option Nat := none
  bootStopped : Option Nat := none
  bootCount : Word64 := 0
  /-- Corrected-error counts of the current windows: class, instance and count (R401). -/
  errCounts : List (Nat × Nat × Nat) := []
  retired : List (Nat × Nat) := []
  noSpare : List (Nat × Nat) := []
  packageFault : Bool := false
  /-- The model's own: what the outside agent presents with the current event. -/
  port : Port := {}
  /-- The model's own: the turns still to be taken. -/
  tape : List Turn := []
  /-- The model's own: steps taken, the argument of the free values. -/
  steps : Nat := 0
deriving DecidableEq, Repr

/-- A turn that a recording holds, with the retired-work count before it (R424). -/
structure LogEnt where
  count : Nat
  redo : Redo
  turn : Turn
deriving DecidableEq, Repr

/-- A checkpoint of replay mode: the slice, the interval, the machine at its start, the turns of the slice since, youngest first, and the count that the
interval has reached (R424). -/
structure Ckpt where
  gran : Nat
  ivl : Word32
  /-- The count at which the interval began (R424). -/
  began : Nat := 0
  start : Device
  log : List LogEnt := []
  stop : Nat := 0
deriving DecidableEq, Repr

/-- The state of the machine. -/
structure State extends Device where
  kept : List Ckpt := []
deriving DecidableEq, Repr

/-! ### Reset -/

/-- Granule `g` at package reset: a slice of its own on rail g/4 (R381, R407). -/
def Granule.atReset (g : Nat) : Granule := { rail := g / 4 }

/-- The granules at package reset. -/
def gransAtReset : Vector Granule 16 := ⟨⟨(List.range 16).map Granule.atReset⟩, by simp⟩

/-- The machine right after package reset: no group resident, memory as power-on left it, the boot not begun (R439). -/
def State.reset : State := { grans := gransAtReset, kept := [] }

end Sys2Proof.Machine
end

