-- ==== Sys2Proof/Machine/Ops.lean ====
section
/-!
DEFINITION. The named operations over registers, windows, parks and physical memory, and the taking of a trap and the return from one.
-/
set_option Elab.async false
namespace Sys2Proof.Machine
open Sys2Proof

/-- Why an instruction makes no effect of its own: a trap with its address, a missing translation (stage, page, kind, address), a stall, or a fault. -/
inductive Stop
  | trap (c : Cause) (addr : Nat)
  | xlate (stage2 : Bool) (page : Nat) (kind : AccKind) (va : Nat)
  /-- PERM at `va` for the table entry `entry`, which is malformed or maps an absent address (R329, R333). -/
  | malformed (entry va : Nat)
  /-- POISON at `va`, whose host-physical line is `line` (R397). -/
  | poison (line va : Nat)
  | stall
  /-- A wait at a barrier, whose GEN is given (R194). -/
  | wait (b : BarLoc) (gen : Word32)
  | fault (f : Fault)
  /-- The stop of a fetch that a branch makes: it concerns the item at unit `pc` (R50). -/
  | item (pc : Word32) (e : Stop)
deriving DecidableEq, Repr

/-- An outcome of the machine. -/
abbrev Out := Host.Outcome State Fault Refusal

/-- One effect after another. -/
def Out.andThen (o : Out) (f : State → Out) : Out := match o with | .next s => f s | o => o

/-- A computation that may stop. -/
abbrev M (α : Type) := Except Stop α

/-- Raise `c` when `b` holds. -/
def trapIf (b : Bool) (c : Cause) (addr : Nat := 0) : M Unit := if b then .error (.trap c addr) else .ok ()

/-! ### Lane masks -/

/-- Bit `l` of a lane mask. -/
def lane (m : Word32) (l : Nat) : Bool := m.getLsbD l

/-- The mask of the lanes at which `f` holds. -/
def maskOf (f : Nat → Bool) : Word32 := BitVec.ofNat 32 (laneList.foldr (fun l a => (if f l then 2 ^ l else 0) + a) 0)

/-- The lanes of a mask, ascending. -/
def lanesOf (m : Word32) : List Nat := laneList.filter (lane m)

/-- The number of lanes in a mask. -/
def laneCount (m : Word32) : Nat := (lanesOf m).length

/-- The mask of lane `l` alone. -/
def laneBit (l : Nat) : Word32 := BitVec.ofNat 32 (2 ^ l)

def allLanes : Word32 := 0xFFFFFFFF

/-- No reconvergence target (R20). -/
def noTarget : Word32 := 0xFFFFFFFF

/-! ### Groups and slots -/

namespace Group

/-- The slot numbered 0 or 1. -/
def slot (g : Group) (b : Bool) : Slot := if b then g.slot1 else g.slot0

/-- Replace a slot. -/
def setSlot (g : Group) (b : Bool) (t : Slot) : Group := if b then { g with slot1 := t } else { g with slot0 := t }

/-- The issuing slot. -/
def me (g : Group) : Slot := g.slot g.sel1

/-- Replace the issuing slot. -/
def setMe (g : Group) (t : Slot) : Group := g.setSlot g.sel1 t

/-- The lanes that are live: those of a slot or of a path entry of the stack (R18). -/
def live (g : Group) : Word32 := g.stack.foldl (fun m e => m ||| e.mask) (g.slot0.mask ||| g.slot1.mask)

/-- The helper lanes that execute with slot `b`: those whose quad's lowest-numbered live lane lies in it (R102). -/
def helpersOf (g : Group) (b : Bool) : Word32 :=
  let live := g.live
  maskOf fun l => lane g.helper l &&
    (match [0, 1, 2, 3].find? (fun i => lane live (l / 4 * 4 + i)) with
     | some i => lane (g.slot b).mask (l / 4 * 4 + i)
     | none => false)

/-- Reconverged: one slot LIVE, the other EMPTY, the stack empty (R21). -/
def reconverged (g : Group) : Bool :=
  g.stack.isEmpty && ((g.slot0.st = .live && g.slot1.st = .empty) || (g.slot0.st = .empty && g.slot1.st = .live))

/-- The operation numbered `seq`. -/
def op? (g : Group) (seq : Nat) : Option Op := g.ops.find? (fun o => o.seq = seq)

/-- Replace an operation. -/
def updOp (g : Group) (seq : Nat) (f : Op → Op) : Group := { g with ops := g.ops.map fun o => if o.seq = seq then f o else o }

/-- The operations that still hold a path's counter: those from its oldest incomplete one on (R170). -/
def pathOps (g : Group) (p : Path) : List Op := (g.ops.filter (fun o => o.path = some p)).dropWhile (·.fin)

/-- An in-flight counter (R170). -/
def counter (g : Group) (p : Path) : Nat := (g.pathOps p).length

/-- `sr.paths` (R31). -/
def paths (g : Group) : Word64 :=
  BitVec.ofNat 64 (g.counter .load + 2 ^ 8 * g.counter .store + 2 ^ 16 * g.counter .copy + 2 ^ 24 * g.counter .mx + 2 ^ 32 * g.counter .filt +
    2 ^ 40 * g.counter .ray + 2 ^ 48 * g.counter .rem)

/-- Drop the operations that are complete and hold no counter any more. -/
def sweep (g : Group) : Group :=
  { g with ops := g.ops.filter fun o => !o.fin || (match o.path with | some p => (g.pathOps p).any (fun q => q.seq = o.seq) | none => false) }

/-- Add an operation in flight, numbered by the issue counter; `stamp` is the step of its issue. -/
def addOp (g : Group) (stamp : Nat) (path : Option Path) (kind : OpKind) : Group :=
  { g with ops := g.ops ++ [{ seq := g.seq, slot1 := g.sel1, path, pc := g.me.pc, kind, stamp }] }

/-- Values return for some lanes of the results of operation `op`; `all` says that they are the last. The result numbered `k` takes `f k`. -/
def fillPend (g : Group) (op : Nat) (m : Word32) (all : Bool) (f : Nat → Nat → Word64) : Group :=
  { g with pend := (g.pend.foldl (fun (acc : Nat × List Pend) p =>
      if p.op = op && !p.ret then
        (acc.1 + 1, { p with ret := all, write := { p.write with val := Lanes.gen fun l => if lane m l then f acc.1 l else p.write.val.get l 0 } } :: acc.2)
      else (acc.1, p :: acc.2)) (0, [])).2.reverse }

/-- The results of operation `op` are not to come. -/
def dropPend (g : Group) (op : Nat) : Group := { g with pend := g.pend.filter fun p => p.op ≠ op || p.ret }

/-! ### Reading registers (R67) -/

/-- The value that the youngest window write of a register gives a lane. -/
def winFind (cls : RClass) (n l : Nat) : List WinEnt → Option Word64
  | [] => none
  | e :: r =>
    match e.write with
    | some w => if w.cls = cls && w.reg = n && lane w.lanes l then some (w.val.get l 0) else winFind cls n l r
    | none => winFind cls n l r

/-- The banked value of a register in a lane. -/
def banked (g : Group) (cls : RClass) (n l : Nat) : Word64 :=
  match cls with
  | .v => (tget g.v n (Lanes.const 0)).get l 0
  | .s => tget g.s n 0
  | .p => if lane (tget g.p n 0) l then 1 else 0
  | _ => 0

/-- A read of a register in a lane by the issuing slot; p63 reads as ones (R27, R67). -/
def read (g : Group) (cls : RClass) (n l : Nat) : Word64 :=
  if cls = .p && n = 63 then 1
  else
    let l' := if cls = .s then 0 else l
    match winFind cls n l' g.me.win with
    | some x => x
    | none => g.banked cls n l'

def readV (g : Group) (n l : Nat) : Word64 := g.read .v n l
def readS (g : Group) (n : Nat) : Word64 := g.read .s n 0
def readP (g : Group) (n l : Nat) : Bool := g.read .p n l = 1
/-- A vector register, all lanes, as the issuing slot reads it. -/
def lanesV (g : Group) (n : Nat) : Lanes Word64 := Lanes.gen (g.readV n)

/-! ### Banking and commit (R67, R68) -/

/-- Write lanes of a register to the register file; p63 discards (R27). -/
def bankWrite (g : Group) (w : RegWrite) : Group :=
  match w.cls with
  | .v => { g with v := tset g.v w.reg (Lanes.gen fun l => if lane w.lanes l then w.val.get l 0 else (tget g.v w.reg (Lanes.const 0)).get l 0) }
  | .s => if lane w.lanes 0 then { g with s := tset g.s w.reg (w.val.get 0 0) } else g
  | .p => if w.reg = 63 then g
          else { g with p := tset g.p w.reg (maskOf fun l => if lane w.lanes l then w.val.get l 0 = 1 else lane (tget g.p w.reg 0) l) }
  | _ => g

/-- A younger S write discards an L result: they write one register, in one slot unless it is a uniform register (R68). -/
def discards (w : RegWrite) (seq : Nat) (slot1 : Bool) (p : Pend) : Bool :=
  p.write.cls = w.cls && p.write.reg = w.reg && decide (p.seq < seq) && (p.slot1 = slot1 || w.cls = .s)

/-- Take the lanes of a younger banked S write away from the older L results to the same register: from those that it discards, and from those that a result
which it discards has discarded already, being younger (R68). -/
def shadePend (w : RegWrite) (seq : Nat) (slot1 : Bool) (ps : List Pend) : List Pend :=
  ps.map fun p =>
    if discards w seq slot1 p then { p with write := { p.write with lanes := p.write.lanes &&& ~~~w.lanes } }
    else if p.write.cls = w.cls && p.write.reg = w.reg then
      { p with write := { p.write with lanes := (ps.filter fun q => discards w seq slot1 q && decide (p.seq < q.seq)).foldl (fun m q =>
        m &&& ~~~(q.write.lanes &&& w.lanes)) p.write.lanes } }
    else p

/-- The lanes of a write that no younger write to the register has been banked in: banked writes take effect in issue order (R67). -/
def freshLanes (g : Group) (seq : Nat) (w : RegWrite) : Word32 :=
  g.late.foldl (fun m e => if decide (seq < e.1) && e.2.1 = w.cls && e.2.2.1 = w.reg then m &&& ~~~e.2.2.2 else m) w.lanes

/-- Forget the banked writes that are older than all that the windows hold (R67). -/
def pruneLate (g : Group) : Group :=
  { g with late := g.late.filter fun e => (g.slot0.win ++ g.slot1.win).any fun w => decide (w.seq < e.1) }

/-- Bank one instruction of a slot's window: its write, unless it is killed (R67). -/
def bankEnt (g : Group) (slot1 : Bool) (e : WinEnt) : Group :=
  match e.write with
  | some w =>
    if e.killed then g
    else { g.bankWrite { w with lanes := g.freshLanes e.seq w } with pend := shadePend w e.seq slot1 g.pend,
                                                                       late := (e.seq, w.cls, w.reg, w.lanes) :: g.late }
  | none => g

/-- Bank a whole window, oldest first, and empty it. -/
def bankSlot (g : Group) (b : Bool) : Group :=
  let g' := (g.slot b).win.reverse.foldl (fun g e => g.bankEnt b e) g
  (g'.setSlot b { g'.slot b with win := [] }).pruneLate

/-- The windows of both slots in issue order. -/
def winOrder : List WinEnt → List WinEnt → List (Bool × WinEnt)
  | [], b => b.map (fun e => (true, e))
  | a :: as, bs => (bs.takeWhile (fun e => e.seq < a.seq)).map (fun e => (true, e)) ++ (false, a) :: winOrder as (bs.dropWhile (fun e => e.seq < a.seq))

/-- Bank the windows of both slots in issue order (R67, R68). -/
def bankAll (g : Group) : Group :=
  let g' := (winOrder g.slot0.win.reverse g.slot1.win.reverse).foldl (fun g e => g.bankEnt e.1 e.2) g
  { g' with slot0 := { g'.slot0 with win := [] }, slot1 := { g'.slot1 with win := [] }, late := [] }

/-- Commit one L result, with its flags (R35, R68). -/
def commitOne (g : Group) (p : Pend) : Group :=
  let g' := g.bankWrite p.write
  { g' with fpflags := g'.fpflags ||| p.flags }

/-- Whether every outstanding L result has returned (R66). -/
def returned (g : Group) : Bool := g.pend.all (·.ret)

/-- The commit of a park: bank the windows and write the L results in issue order (R66 to R68). -/
def commit (g : Group) : Group :=
  let g' := g.bankAll
  { g'.pend.foldl (fun g p => g.commitOne p) g' with pend := [] }

/-- Uncommitted destinations (R368). -/
def uncommitted (g : Group) : Nat := g.pend.length

/-- Add an L result that waits for operation `seq`, or has returned (R65). -/
def addPend (g : Group) (cls : RClass) (reg : Nat) (lanes : Word32) (val : Lanes Word64) (ret : Bool) (flags : BitVec 6 := 0) : Group :=
  { g with pend := g.pend ++ [{ seq := g.seq, slot1 := g.sel1, write := { cls, reg, lanes, val }, ret, flags, op := g.seq }] }

/-- Kill the window writes of a register (R67). -/
def killReg (g : Group) (cls : RClass) (n : Nat) : Group :=
  g.setMe { g.me with win := g.me.win.map fun e =>
    match e.write with
    | some w => if w.cls = cls && w.reg = n then { e with killed := true } else e
    | none => e }

/-- An instruction with the write it made joins its slot's window; the ninth leaves it and is banked (R67). -/
def pushWin (g : Group) (w : Option RegWrite) : Group :=
  let win := { seq := g.seq, write := w : WinEnt } :: g.me.win
  let g' := g.setMe { g.me with win := win.take 8 }
  match win[8]? with
  | some e => (g'.bankEnt g.sel1 e).pruneLate
  | none => g'

end Group

/-- Index of a core among the 256 of the package. -/
def coreIx (cluster core : Nat) : Nat := 4 * cluster + core

/-! ### The machine's parts -/

namespace State

/-- Replace the issuing group. -/
def setCur (s : State) (g : Group) : State := { s with cur := g }

/-- A group by its key: a resident one, or a saved one. -/
def group? (s : State) (id : Nat) : Option Group :=
  if s.cur.id = id then some s.cur
  else match s.groups.find? (fun g => g.id = id) with
    | some g => some g
    | none => s.savedGroups.find? fun g => g.id = id

/-- Change the group with a key. -/
def updGroup (s : State) (id : Nat) (f : Group → Group) : State :=
  if s.cur.id = id then { s with cur := f s.cur }
  else
    let w (g : Group) : Group := if g.id = id then f g else g
    { s with groups := s.groups.map w, savedGroups := s.savedGroups.map w }

/-- A group is saved: its operations, but for remote ones, rest (R371). -/
def away (s : State) (id : Nat) : Bool := s.savedGroups.any fun g => g.id = id

/-- All resident groups: the issuing one first. The group that no launch started is not resident. -/
def allGroups (s : State) : List Group := (if s.cur.id = 0 then [] else [s.cur]) ++ s.groups

/-- Change every resident group. -/
def mapGroups (s : State) (f : Group → Group) : State := { s with cur := f s.cur, groups := s.groups.map f }

/-- Make a resident group the issuing one, and slot `slot1` the issuing slot. -/
def select (s : State) (id : Nat) (slot1 : Bool) : Option State :=
  if s.cur.id = id then some { s with cur := { s.cur with sel1 := slot1 } }
  else match s.groups.find? (fun g => g.id = id) with
    | none => none
    | some g =>
      let rest := s.groups.filter (fun h => h.id ≠ id)
      some { s with cur := { g with sel1 := slot1 }, groups := if s.cur.id = 0 then rest else s.cur :: rest }

def vf (s : State) (n : Nat) : VFun := tget s.vfs n {}
def updVf (s : State) (n : Nat) (f : VFun → VFun) : State := { s with vfs := tset s.vfs n (f (s.vf n)) }
def gran (s : State) (n : Nat) : Granule := tget s.grans n {}
def updGran (s : State) (n : Nat) (f : Granule → Granule) : State := { s with grans := tset s.grans n (f (s.gran n)) }
def cluster (s : State) (n : Nat) : Cluster := tget s.clusters n {}
def updCluster (s : State) (n : Nat) (f : Cluster → Cluster) : State := { s with clusters := tset s.clusters n (f (s.cluster n)) }
def coreAt (s : State) (n : Nat) : Core := tget s.cores n {}
def updCore (s : State) (n : Nat) (f : Core → Core) : State := { s with cores := tset s.cores n (f (s.coreAt n)) }
def link (s : State) (n : Nat) : Link := tget s.links n {}
def updLink (s : State) (n : Nat) (f : Link → Link) : State := { s with links := tset s.links n (f (s.link n)) }

def wg? (s : State) (key : Nat) : Option Workgroup := s.wgs.find? (fun w => w.key = key)
def updWg (s : State) (key : Nat) (f : Workgroup → Workgroup) : State := { s with wgs := s.wgs.map fun w => if w.key = key then f w else w }
/-- A tile handle of a workgroup. -/
def handle (s : State) (wg h : Nat) : Handle :=
  match s.wg? wg with
  | some w => tget w.handles h {}
  | none => {}
def updHandle (s : State) (wg h : Nat) (f : Handle → Handle) : State :=
  s.updWg wg fun w => { w with handles := tset w.handles h (f (tget w.handles h {})) }

def gang? (s : State) (key : Nat) : Option Gang := s.gangs.find? (fun g => g.key = key)
def updGang (s : State) (key : Nat) (f : Gang → Gang) : State := { s with gangs := s.gangs.map fun g => if g.key = key then f g else g }
def launch? (s : State) (key : Nat) : Option Launch := s.launches.find? (fun l => l.key = key)
def updLaunch (s : State) (key : Nat) (f : Launch → Launch) : State :=
  { s with launches := s.launches.map fun l => if l.key = key then f l else l }

/-- First granule of the slice that holds granule `g` (R381). -/
def sliceOf (s : State) (g : Nat) : Nat :=
  ((List.range (g + 1)).reverse.find? (fun f => decide ((s.gran f).num ≠ 0 ∧ g < f + (s.gran f).num))).getD g

/-- The tick counter of a slice: that of its first granule (R37). -/
def tickOf (s : State) (slice : Nat) : Word64 := (s.gran slice).tick

/-- Clocks of a core since a step (R39). -/
def clocks (s : State) (core k : Nat) : Nat := Config.coreClock core s.steps - Config.coreClock core k

/-- Core clocks of a group's wait that began at a step; the time for which the group was saved does not count (R416). -/
def clocksSince (s : State) (g : Group) (k : Nat) : Nat :=
  let at_ (n : Nat) : Nat := Config.coreClock (Machine.coreIx g.cluster g.core) n
  s.clocks (Machine.coreIx g.cluster g.core) k - ((g.aways.filter fun a => decide (k ≤ a.1)).map fun a => at_ (if a.2 = 0 then s.steps else a.2) - at_ a.1).sum

/-- The next free value of the model's opaque choices. -/
def fresh (s : State) : Nat := s.steps

end State

def Group.coreIx (g : Group) : Nat := Machine.coreIx g.cluster g.core
/-- A group's identity as LAST codes it (R190). -/
def Group.lastId (g : Group) : BitVec 16 := BitVec.ofNat 16 (g.cluster * 256 + g.core * 64 + g.gslot)

/-! ### Physical memory: bytes by host-physical address, in one canonical form -/

namespace Memory

/-- What an unlisted byte reads as: DESIGN CHOICE, log entry 2. -/
def unlisted : Byte := 0

/-- The canonical form of memory. -/
abbrev wf (m : List Host.Cell) : Prop := Sparse.wf unlisted m = true

/-- Read one byte. -/
def read (m : List Host.Cell) (a : Nat) : Byte := Sparse.get unlisted m a

/-- Write one byte. -/
def write (m : List Host.Cell) (a : Nat) (b : Byte) : List Host.Cell := Sparse.set unlisted m a b

/-- Read `n` bytes from `a` up. -/
def readN (m : List Host.Cell) (a : Nat) : Nat → List Byte
  | 0 => []
  | n + 1 => read m a :: readN m (a + 1) n

/-- Write bytes from `a` up. -/
def writeN (m : List Host.Cell) (a : Nat) : List Byte → List Host.Cell
  | [] => m
  | b :: r => writeN (write m a b) (a + 1) r

end Memory

/-- Where a host-physical address lies (R333, R432). -/
inductive PRegion | hbm | lpddr | host | peer (p : Nat) | absent
deriving DecidableEq, Repr

/-- The host-physical map (R333, R432). -/
def physRegion (a : Nat) : PRegion :=
  if a < 0x10000000000 then (if a / 0x600000000 < 16 then .hbm else .absent)
  else if a < 0x20000000000 then
    (if (a - 0x10000000000) / 0x800000000 < 32 && (a - 0x10000000000) % 0x800000000 < Config.lpddrBytes then .lpddr else .absent)
  else if a < 0x40000000000 then .absent
  else if a < 0x100000000000 then .host
  else if a < 0x500000000000 then .peer ((a - 0x100000000000) / 0x100000000000)
  else .absent

/-- Device memory: HBM4E or LPDDR-6 (R299). -/
def isDevice (a : Nat) : Bool := match physRegion a with | .hbm | .lpddr => true | _ => false
/-- A host or peer window. -/
def isWindow (a : Nat) : Bool := match physRegion a with | .host | .peer _ => true | _ => false
/-- The link that serves a window address (R432). -/
def linkOf (a : Nat) : Nat := match physRegion a with | .peer p => p + 1 | _ => 0
/-- What a window address reaches: a host address, or a BAR2 offset of one of a peer's virtual functions, which is given first (R432). -/
def windowTarget (a : Nat) : Nat × Nat :=
  match physRegion a with
  | .peer p => let o := a - 2 ^ 44 * (p + 1); (o / 2 ^ 38, o % 2 ^ 38)
  | _ => (0, a - 0x40000000000)

/-! ### Links: what is sent (R426, R427, R430) -/

/-- One byte of the CRC-64 of a flit (R426). -/
def crcByte (c : Word64) (b : Byte) : Word64 :=
  (List.range 8).foldl (fun c _ => if c.msb then (c <<< 1) ^^^ 0x42F0E1EBA9EA3693 else c <<< 1) (c ^^^ (b.setWidth 64 <<< 56))

/-- The CRC of a flit's first 248 bytes (R426; log entry 10). -/
def flitSum (f : Flit) : Word64 := (bytesLE 2 (f.ctrl ++ f.seq).toNat ++ f.body).foldl crcByte Config.crcInit ^^^ Config.crcXorOut

/-- A data flit of channel `ch` (R426). -/
def dataFlit (ch seq : Nat) (body : List Byte) : Flit :=
  let f : Flit := { seq := BitVec.ofNat 12 (seq % 1024), ctrl := BitVec.ofNat 4 ch, crc := 0, body := (body ++ List.replicate 246 0).take 246 }
  { f with crc := flitSum f }

/-- The control flit of a frame: 0 PAUSE, 1 RESUME, 2 ACK, 3 NAK, with its channel or number (R426; log entry 32). -/
def controlFlit (code arg : Nat) : Flit :=
  let f : Flit := { seq := 0, ctrl := 4, crc := 0, body := (Config.controlBody code arg ++ List.replicate 246 0).take 246 }
  { f with crc := flitSum f }

/-- The number of a kind of transaction. -/
def kindCode : TlpKind → Nat
  | .write => 0 | .read => 1 | .fetchAdd => 2 | .swap => 3 | .cas => 4 | .completion => 5 | .config => 6 | .request => 7 | .reply => 8 | .other => 9

/-- The payload of a transaction: the data of a write or an answer, the operands of an atomic. -/
def tlpPayload (p : Port) : List Byte :=
  match p.kind with
  | .write | .completion | .other => p.data
  | .reply => bytesLE 8 p.value.toNat
  | .read => []
  | .fetchAdd | .swap => bytesLE (p.ty.width / 8) p.opB.toNat
  | .cas | .request => bytesLE (p.ty.width / 8) p.opC.toNat ++ bytesLE (p.ty.width / 8) p.opB.toNat
  | .config => match p.write with | some v => bytesLE 4 v.toNat | none => []

/-- The bytes of a transaction: a header of 16 bytes, whose first is never zero, and the payload (R426; log entry 32). -/
def tlpOf (p : Port) : List Byte :=
  let fields := [kindCode p.kind, p.fn, p.bar, p.vf, p.addr, p.len, p.tag, p.requester, p.status, p.op.code.toNat, p.ty.width, b2n p.ro, b2n p.posted]
  (match (Config.tlpHead fields ++ List.replicate 16 0).take 16 with
   | b :: r => (if b = 0 then 1 else b) :: r
   | [] => []) ++ tlpPayload p

/-- Put a data flit on the link: it is numbered, and kept in the replay buffer, which holds the last 128; a posted flit carries what waited for it (R426). -/
def Link.emit (l : Link) (ch : Nat) (body : List Byte) : Link :=
  let f := dataFlit ch l.txSeq body
  let all := l.buf ++ [f]
  { l with txSeq := (l.txSeq + 1) % 1024, buf := all.drop (all.length - 128), wire := l.wire ++ [f],
           unacked := if ch = 0 then l.unacked.map fun u => if u.tail then { u with flit := some l.txSeq, tail := false } else u else l.unacked }

/-- Put the full flits of a channel's waiting bytes on the link. -/
def Link.pack (l : Link) (ch : Nat) : Nat → Link
  | 0 => l
  | n + 1 =>
    let b := tget l.tx ch []
    if b.length < 246 then l else (({ l with tx := tset l.tx ch (b.drop 246) } : Link).emit ch (b.take 246)).pack ch n

/-- Put what waits on the link, the last flit of each channel filled up with zeros, which PCI Express reads as no transaction (R426; log entry 32). -/
def Link.drain (l : Link) : Link :=
  (List.range 3).foldl (fun l ch => match tget l.tx ch [] with
    | [] => l
    | b => ({ l with tx := tset l.tx ch [] } : Link).emit ch b) l

/-- The first posted write that has not started gets the number of its last flit, or waits for it. -/
def startUnacked (flit : Option Nat) : List Unacked → List Unacked
  | [] => []
  | u :: r => if u.flit.isNone && !u.tail then { u with flit, tail := flit.isNone } :: r else u :: startUnacked flit r

/-- Start a transaction: its bytes are packed behind those of its channel (R426). -/
def Link.start (l : Link) (ch : Nat) (p : Port) : Link :=
  let b := tget l.tx ch [] ++ tlpOf p
  let l := ({ l with tx := tset l.tx ch b, out := l.out ++ [p] } : Link).pack ch (b.length / 246)
  let flit := if (tget l.tx ch []).isEmpty then some ((l.txSeq + 1023) % 1024) else none
  { l with unacked := if p.posted then startUnacked flit l.unacked else l.unacked }

/-- Send a transaction, or hold it while its channel is paused or the link is not UP (R427; log entry 35). -/
def Link.send (l : Link) (ch : Nat) (p : Port) : Link :=
  if l.state = 2 && !tget l.txPaused ch false && l.held.all (fun h => h.1 ≠ ch) then l.start ch p else { l with held := l.held ++ [(ch, p)] }

/-- Start what is held on the channels that may go (R427). -/
def Link.flush (l : Link) : Link := l.held.foldl (fun l h => l.send h.1 h.2) { l with held := [] }

namespace State

/-- Post a write over link `k`, to an address there of a virtual function there; `a` is the address that a lost write is logged with (R318, R429). -/
def postOver (s : State) (k vf addr a gid launch : Nat) (data : List Byte) : State :=
  s.updLink k fun l =>
    ({ l with unacked := l.unacked ++ [{ addr := a, gid, launch }] } : Link).send 0
      { link := k, kind := .write, addr, vf, data, len := data.length, posted := true }

/-- Post a write to a window address, over the link that serves it (R318, R432). -/
def postWrite (s : State) (a gid launch : Nat) (data : List Byte) : State :=
  s.postOver (linkOf a) (windowTarget a).1 (windowTarget a).2 a gid launch data

/-- Where the host window starts (R432). -/
def hostBase : Nat := 0x40000000000

/-- Post a write to a host address, which goes over the host link whatever the address is (R430, R438). -/
def postHost (s : State) (a : Nat) (data : List Byte) : State := s.postOver 0 0 a (hostBase + a) 0 0 data

/-- A byte of an MSI-X table, whose entries start masked, as PCI Express gives them (R431; log entry 33). -/
def msixByte (m : Sparse Byte) (o : Nat) : Byte := Sparse.get 0 m o ^^^ (if o % 16 = 12 then 1 else 0)

/-- The address and data of vector `n`'s message, unless its entry masks it. -/
def msixMessage (m : Sparse Byte) (n : Nat) : Option (Nat × List Byte) :=
  let bytes (o k : Nat) : List Byte := (List.range k).map fun i => msixByte m (16 * n + o + i)
  if (msixByte m (16 * n + 12)).getLsbD 0 then none else some (natLE (bytes 0 8), bytes 8 4)

/-- Raise an MSI-X vector of a function: 0 completion, 1 page request, 2 debug (R431). -/
def raiseIrq (s : State) (vf n : Nat) : State :=
  match msixMessage (s.vf vf).msix n with
  | some (a, d) => s.postHost a d
  | none => s.updVf vf fun v => { v with irq := tset v.irq n true }

/-- Raise a vector of the physical function: 0 slice error, 1 mailbox (R431). -/
def raisePf (s : State) (n : Nat) : State :=
  match msixMessage s.pfMsix n with
  | some (a, d) => s.postHost a d
  | none => { s with pfIrq := tset s.pfIrq n true }

end State

/-! ### Error log (R400) -/

/-- Write one error-log record of a slice, or count a drop (R400). -/
def State.logError (s : State) (slice kind cls vf unit : Nat) (addr : Nat := 0) (launch : Word64 := 0) : State :=
  let g := s.gran slice
  let l := g.log
  if !l.en then s
  else
    let size := 2 ^ l.log2e.toNat
    if (l.tail - l.head).toNat < size then
      let a := l.base.toNat + 32 * (l.tail.toNat % size)
      let rec_ := bytesLE 8 addr ++ bytesLE 8 g.tick.toNat ++ bytesLE 8 (unit + 2 ^ 32 * vf + 2 ^ 48 * cls + 2 ^ 56 * kind) ++ bytesLE 8 launch.toNat
      let s : State := { s.updGran slice (fun g => { g with log := { l with tail := l.tail + 1 } }) with mem := Memory.writeN s.mem a rec_ }
      if l.tail = l.head then s.raisePf 0 else s
    else s.updGran slice fun g => { g with log := { l with drops := if l.drops = 0xFFFFFFFF then l.drops else l.drops + 1 } }

/-! ### Barriers that a machine event breaks -/

/-- A barrier that lies in global memory at a line. -/
def BarLoc.onLine (pa : Nat) : BarLoc → Bool
  | .tile .. => false
  | .glob _ _ p => p % 2 ^ 60 / 64 = pa / 64

/-- Wake the waiters of the barriers that `p` picks: a slot's wait and a poll are over; `id` is the last arriver, 0xFFFF for a break (R191, R194). -/
def State.wakeWaiters (s : State) (p : BarLoc → Bool) (id : Nat) (lpc : Word32) : State :=
  let slot (t : Slot) : Slot := match t.tw with
    | some (b, _) => if p b then { t with woken := some (id, lpc) } else t
    | none => t
  let wake (g : Group) : Group :=
    { g with slot0 := slot g.slot0, slot1 := slot g.slot1,
             polls := g.polls.map fun q => if p q.bar then { q with fin := some (id, lpc) } else q }
  { s.mapGroups wake with savedGroups := s.savedGroups.map wake }

/-- What an event that breaks a barrier does to it (R196). -/
def Barrier.break_ (b : Barrier) : Barrier := { b with broken := true, armed := false }

/-- Free a handle as `tfree` and the end of a workgroup do: ALLOCATED becomes FREEING, and a barrier breaks (R177). -/
def Handle.freed (h : Handle) : Handle :=
  let h : Handle := { h with prog := none }
  match h.st with
  | .allocated => { h with st := .freeing, bar := if h.kind = .barrier then h.bar.break_ else h.bar }
  | .failed => { h with st := .free }
  | .free | .freeing => h

/-! ### Faulting a launch (R395) -/

/-- Free every handle of a workgroup (R177). -/
def Workgroup.freeAll (w : Workgroup) : Workgroup := { w with handles := ⟨w.handles.toArray.map Handle.freed, by simp⟩ }

/-- A launch faults: no more gangs, saved gangs discarded, other groups asked to end, tiles freed, the function's registers written and the fault
logged (R389, R395). -/
def State.faultLaunch (s : State) (key : Nat) (fcause : Nat) (pc : Word32) (addr : Word64) : State :=
  match s.launch? key with
  | none => s
  | some l =>
    if l.faulted then s
    else
      let s := s.updLaunch key fun l => { l with faulted := true, status := 2 }
      let s : State :=
        { s with
          gangs := s.gangs.map (fun g => if g.launch = key && g.st = .saved then { g with st := .ended } else g)
          groups := s.groups ++ (s.savedGroups.filter fun g => g.launch = key && !g.ops.isEmpty).map (fun g => { g with gone := true, ended := true })
          savedGroups := s.savedGroups.filter (fun g => g.launch ≠ key)
          savedWgs := s.savedWgs.filter (fun w => w.launch ≠ key)
          wgs := s.wgs.map (fun w => if w.launch = key then w.freeAll else w) }
      let s := s.mapGroups fun g => if g.launch = key && !g.gone then { g with stop := some .endGroup } else g
      let s := s.updVf l.vf fun v => { v with flaunch := l.id, finfo := BitVec.ofNat 64 (pc.toNat + 2 ^ 32 * fcause), faddr := addr, lflt := true }
      s.logError (s.vf l.vf).slice 0x08 0xFF l.vf 0 0 l.id

/-! ### Workgroup registers (R119) -/

/-- Drop the writes that every group has to see past (R119). -/
def pruneW (h : List WHist) : Nat × List WHist :=
  match (List.range h.length).reverse.find? (fun i => match h[i]? with | some e => e.pub | none => false) with
  | some i => (i, h.drop i)
  | none => (0, h)

/-- Writes that `f` picks are published: from now on every group of the workgroup reads them or later ones (R119). -/
def Workgroup.publish (w : Workgroup) (f : WHist → Bool) : Workgroup :=
  (List.range 16).foldl (fun w i =>
    let h := tget w.wr i []
    if h.length ≤ 1 then w
    else
      let (n, h) := pruneW (h.map fun e => if f e then { e with pub := true } else e)
      { w with wr := tset w.wr i h, wbase := tset w.wbase i (tget w.wbase i 0 + n) }) w

/-- A group's commit park publishes its writes of workgroup registers (R119). -/
def State.publishW (s : State) (id wg : Nat) : State := s.updWg wg fun w => w.publish fun e => e.by_ = id

/-! ### Allocation of tile space (R175, R319) -/

/-- The space of a tile, in 256-byte units. -/
def tileUnits (rows rowb : Nat) : Nat := roundUp (rows * rowb) 256 / 256
/-- Units of the CORE space of a core and of the CLUS space of a cluster (R319). -/
def spaceUnits (clus : Bool) : Nat := if clus then 3072 else 768

/-- The unit ranges in use in the space that a workgroup's tiles of a level lie in. -/
def State.spaceUsed (s : State) (w : Workgroup) (clus : Bool) : List (Nat × Nat) :=
  let ws := s.wgs.filter fun v => v.cluster = w.cluster && (clus || v.core = w.core)
  (ws.map fun v => (v.handles.toList.filter fun h => (h.st = .allocated || h.st = .freeing) && h.clus = clus).map fun h =>
    (h.base, tileUnits h.rows h.rowb)).flatten

/-- The lowest unit offset at which a free range of `n` units begins: 0, or the end of a range in use (R319). -/
def fitUnits (used : List (Nat × Nat)) (n total : Nat) : Option Nat :=
  let ok (b : Nat) : Bool := decide (b + n ≤ total) && used.all fun u => decide (b + n ≤ u.1) || decide (u.1 + u.2 ≤ b)
  ((0 :: used.map fun u => u.1 + u.2).filter ok).min?

namespace State

/-- The 256-byte units that the CORE tiles of a core take of its L1 (R319). -/
def coreTileUnits (s : State) (core : Nat) : Nat :=
  (((s.wgs.filter fun w => coreIx w.cluster w.core = core).map fun w =>
    ((w.handles.toList.filter fun h => (h.st = .allocated || h.st = .freeing) && !h.clus).map fun h => tileUnits h.rows h.rowb).sum)).sum

/-- The lines that a core's L1 holds room for: 262 144 bytes less the tile space and the disabled frames (R2, R324, R402). -/
def l1Room (s : State) (core : Nat) : Nat := 4096 - 4 * s.coreTileUnits core - (s.coreAt core).l1Disabled.length

/-- The place in a list of the line that leaves first: one allocated so, else one that the model's choice names (R159; log entry 13). -/
def leaver (s : State) (ev : List Bool) : Nat := (ev.findIdx? id).getD (Config.freeChoice s.steps % max 1 ev.length)

/-- Put lines out of a core's L1 until `n` fit beside what is left. -/
def trimL1 (s : State) (core n : Nat) : State :=
  let k := s.coreAt core
  let out := k.l1.length + n - s.l1Room core
  if out = 0 then s
  else s.updCore core fun k => { k with l1 := (List.range out).foldl (fun l _ => l.eraseIdx (s.leaver (l.map (·.ev)))) k.l1 }

end State

/-- An allocation completes: ALLOCATED where the space fits, else FAILED; what a CORE tile takes of its core's L1 holds no lines any more (R2, R175, R324). -/
def State.finishAlloc (s : State) (wg h : Nat) : State :=
  match s.wg? wg with
  | none => s
  | some w =>
    match (tget w.handles h {}).prog with
    | none => s
    | some (clus, kind, rows, rowb) =>
      let s := s.updHandle wg h fun _ =>
        match fitUnits (s.spaceUsed w clus) (tileUnits rows rowb) (spaceUnits clus) with
        | some base => { st := .allocated, kind, clus, base, rowb, rows }
        | none => { st := .failed, kind, clus, rowb, rows }
      if clus then s else s.trimL1 (coreIx w.cluster w.core) 0

/-- The allocations that a group has issued complete, in the order of the handles: at its commit park at the latest (R175). -/
def State.finishAllocs (s : State) (id wg : Nat) : State :=
  match s.wg? wg with
  | none => s
  | some w => (List.range w.ntiles).foldl (fun s h =>
      let t := tget w.handles h {}
      if t.prog.isSome && t.progBy = id then s.finishAlloc wg h else s) s

/-! ### Taking a trap and returning from one (R36, R110) -/

/-- The code of a cause in `sr.trapcause`[3:0] (R36). -/
def Cause.code : Cause → BitVec 4
  | .illegal => 0 | .regRange => 1 | .badTarget => 2 | .misalign => 3 | .xlate => 4 | .perm => 5 | .copyRights => 6 | .tileKind => 7
  | .tileBounds => 8 | .barrierState => 9 | .scopeDenied => 10 | .divergeDepth => 11 | .mxReserve => 12 | .poison => 13 | .debug => 14

/-- The trap registers as a trap writes them (R36). -/
def Group.trapRegs (g : Group) (t : TrapRec) : Group :=
  { g with trapcause := bit t.slot1 ++ t.cause.code, trappc := t.pc, trapaddr := t.addr, trapBlk := if t.entry then { entry := .hdr } else (g.slot t.slot1).blk }

/-- A group with a handler goes to it: the trap registers are written, the privilege becomes S and the trapping slot goes on at `sr.trapvec` (R36).
DESIGN CHOICE: of a vector of 2^32 or more the low 32 bits count (log entry 65). -/
def Group.toHandler (g : Group) (t : TrapRec) : Group :=
  let g := { g.trapRegs t with priv := .s }
  g.setSlot t.slot1 { g.slot t.slot1 with pc := g.trapvec.setWidth 32, parked := false, tw := none, woken := none, wait := none, blk := { entry := .vec } }

/-- The group halts for the debugger: the function's halt begins (R419). -/
def State.debugHalt (s : State) (id : Nat) (skip : Bool) : State :=
  match s.group? id with
  | none => s
  | some g =>
    let s := s.updVf g.vf fun v => { v with halting := true }
    let s := s.mapGroups fun h => if h.vf = g.vf && h.id ≠ id && h.halt.isNone then { h with stop := some .save } else h
    s.updGroup id fun g => { g with halt := some (.debug skip), stop := some .save }

/-- Deliver a trap to a group whose L results have all returned: the commit park, then the handler, the debugger, or the halt (R36, R66). -/
def State.deliver (s : State) (id : Nat) (t : TrapRec) : State :=
  let s := s.updGroup id fun g => { g.commit with pendTrap := none, pageWait := none }
  match s.group? id with
  | none => s
  | some g =>
    let s := (s.publishW id g.wg).finishAllocs id g.wg
    if t.cause = .debug && (s.vf g.vf).att then (s.updGroup id fun g => g.trapRegs t).debugHalt id (!t.watch)
    else if g.priv = .u && g.trapvec ≠ 0 then s.updGroup id fun g => g.toHandler t
    else
      let s := s.updGroup id fun g => { g with halt := some (.trap t.cause.code.toNat t.pc t.addr) }
      s.faultLaunch g.launch t.cause.code.toNat t.pc t.addr

/-- Raise a trap in a group: it is delivered at once when every L result has returned and the group is not saved, and otherwise waits for that (R36, R375). -/
def State.raise (s : State) (id : Nat) (t : TrapRec) : State :=
  match s.group? id with
  | none => s
  | some g => if g.returned && !s.away id then s.deliver id t else s.updGroup id fun g => { g with pendTrap := some t, pageWait := none }

/-- The trap record of the issuing slot's instruction. -/
def State.trapHere (s : State) (c : Cause) (addr : Nat) : TrapRec :=
  { cause := c, slot1 := s.cur.sel1, pc := s.cur.me.pc, addr := BitVec.ofNat 64 addr }

/-- Return from a trap: privilege U, and the trapping slot goes on at `pc` in the block it stood in, or makes the entry `entry` there (R110). -/
def Group.fromTrap (g : Group) (pc : Word32) (entry : EntryMode) : Group :=
  let b := g.trapcause.getLsbD 4
  let g := { g with priv := .u }
  g.setSlot b { g.slot b with pc, parked := false, wait := none, blk := { g.trapBlk with entry } }

end Sys2Proof.Machine
end

