-- ==== Sys2Proof/Machine/Fp.lean ====
section
/-!
DEFINITION. Number formats and arithmetic (R75 to R97, R145 to R147): formats, exact values, the one rounding function, NaNs, flags, conversions
and the special functions. Arithmetic is exact over the rationals; each operation rounds once.
-/
set_option Elab.async false
namespace Sys2Proof.Machine
open Sys2Proof

/-! ### Flags (R34) -/
def flIV : BitVec 6 := 1
def flDZ : BitVec 6 := 2
def flOF : BitVec 6 := 4
def flUF : BitVec 6 := 8
def flNX : BitVec 6 := 16
def flSI : BitVec 6 := 32
def flIf (b : Bool) (f : BitVec 6) : BitVec 6 := if b then f else 0

/-! ### Powers of two and rounding to an integer -/

/-- 2^e, exactly. -/
def pow2 (e : Int) : Rat := if 0 ≤ e then ((2 ^ e.toNat : Nat) : Rat) else 1 / ((2 ^ (-e).toNat : Nat) : Rat)

/-- The integer e with 2^e ≤ q < 2^(e+1), for q > 0. -/
def ilog2 (q : Rat) : Int :=
  let e : Int := (Nat.log2 q.num.natAbs : Int) - (Nat.log2 q.den : Int)
  if pow2 e ≤ q then e else e - 1

/-- Round a non-negative rational of a given sign to an integer (R80). -/
def roundNat (m : Rounding) (neg : Bool) (q : Rat) : Nat :=
  let f := q.num.natAbs / q.den
  let r := q.num.natAbs % q.den
  match m with
  | .rz => f
  | .rdn => if neg && r ≠ 0 then f + 1 else f
  | .rup => if !neg && r ≠ 0 then f + 1 else f
  | .rna => if 2 * r ≥ q.den then f + 1 else f
  | .rne => if 2 * r > q.den then f + 1 else if 2 * r = q.den && f % 2 = 1 then f + 1 else f

/-- Round a rational to an integer. -/
def roundInt (m : Rounding) (q : Rat) : Int :=
  if q < 0 then -((roundNat m true (-q) : Nat) : Int) else ((roundNat m false q : Nat) : Int)

/-! ### Formats (R77, R78) -/

/-- A floating-point format: exponent and mantissa widths, bias, sign, infinities, NaNs, and whether E all ones holds numbers. -/
structure Fmt where
  ebits : Nat
  mbits : Nat
  bias : Nat
  signed : Bool := true
  inf : Bool := true
  nan : Bool := true
deriving DecidableEq, Repr

def fmtOf : Ty → Fmt
  | .f64 => { ebits := 11, mbits := 52, bias := 1023 }
  | .f32 => { ebits := 8, mbits := 23, bias := 127 }
  | .f16 => { ebits := 5, mbits := 10, bias := 15 }
  | .bf16 => { ebits := 8, mbits := 7, bias := 127 }
  | .e5m2 => { ebits := 5, mbits := 2, bias := 15 }
  | .e4m3 => { ebits := 4, mbits := 3, bias := 7, inf := false }
  | .e3m2 => { ebits := 3, mbits := 2, bias := 3, inf := false, nan := false }
  | .e2m3 => { ebits := 2, mbits := 3, bias := 1, inf := false, nan := false }
  | .e2m1 => { ebits := 2, mbits := 1, bias := 1, inf := false, nan := false }
  | .e5m3n => { ebits := 5, mbits := 3, bias := 15, signed := false, inf := false }
  | _ => { ebits := 8, mbits := 23, bias := 127 }

/-- A value read from an encoding: a NaN with its sign, quietness and fraction aligned to 52 bits; an infinity; or a signed magnitude. -/
inductive FpVal
  | nan (neg : Bool) (quiet : Bool) (frac : Nat)
  | inf (neg : Bool)
  | num (neg : Bool) (mag : Rat)
deriving DecidableEq, Repr

namespace Fmt

/-- Position of the sign bit. -/
def signPos (f : Fmt) : Nat := f.ebits + f.mbits
def emax (f : Fmt) : Nat := 2 ^ f.ebits - 1
/-- Encoding of the largest finite value (R77). -/
def maxBits (f : Fmt) : Nat :=
  if f.inf then f.emax * 2 ^ f.mbits - 1 else if f.nan then 2 ^ f.signPos - 2 else 2 ^ f.signPos - 1
/-- Magnitude of an encoding without its sign. -/
def magOf (f : Fmt) (b : Nat) : Rat :=
  let e := b / 2 ^ f.mbits
  let m := b % 2 ^ f.mbits
  if e = 0 then (m : Rat) * pow2 (1 - (f.bias : Int) - f.mbits)
  else ((2 ^ f.mbits + m : Nat) : Rat) * pow2 ((e : Int) - f.bias - f.mbits)
def maxFin (f : Fmt) : Rat := f.magOf f.maxBits
def minNormal (f : Fmt) : Rat := pow2 (1 - (f.bias : Int))
/-- The sign as it is encoded. -/
def signBits (f : Fmt) (neg : Bool) : Nat := if neg && f.signed then 2 ^ f.signPos else 0
/-- The canonical quiet NaN (R78). -/
def qnan (f : Fmt) : Nat := if f.inf then f.emax * 2 ^ f.mbits + 2 ^ (f.mbits - 1) else 2 ^ f.signPos - 1
def infBits (f : Fmt) (neg : Bool) : Nat := f.signBits neg + f.emax * 2 ^ f.mbits

/-- Read an encoding (R77, R78). -/
def decode (f : Fmt) (b : Nat) : FpVal :=
  let neg := f.signed && bitOf b f.signPos
  let a := b % 2 ^ f.signPos
  let e := a / 2 ^ f.mbits
  let m := a % 2 ^ f.mbits
  if f.inf && e = f.emax then
    (if m = 0 then .inf neg else .nan neg (bitOf m (f.mbits - 1)) (m * 2 ^ (52 - f.mbits)))
  else if !f.inf && f.nan && a = 2 ^ f.signPos - 1 then .nan neg true (m * 2 ^ (52 - f.mbits))
  else .num neg (f.magOf a)

end Fmt

/-- Which formats a control flushes (R83). -/
structure FCtl where
  rnd : Rounding := .rne
  ftzs : Bool := false
  ftzh : Bool := false
  nanq : Bool := false
deriving DecidableEq, Repr

/-- The controls of `sr.fpctl` (R33). -/
def fctlOf (b : BitVec 6) : FCtl :=
  { rnd := match (b.extractLsb' 0 3).toNat with | 1 => .rz | 2 => .rdn | 3 => .rup | 4 => .rna | _ => .rne,
    ftzs := b.getLsbD 3, ftzh := b.getLsbD 4, nanq := b.getLsbD 5 }

/-- Whether subnormals of a type are flushed (R83). -/
def FCtl.flushes (c : FCtl) (t : Ty) : Bool :=
  match t with
  | .f32 => c.ftzs
  | .f16 | .bf16 => c.ftzh
  | _ => false

/-- A value with the flags that came with it. -/
abbrev Flagged (α : Type) := α × BitVec 6

/-- Round a nonzero magnitude of a given sign to a format, with its flags (R80 to R83). `sat` is the saturating form of E5M2 (R91). -/
def roundMag (t : Ty) (m : Rounding) (flush sat neg : Bool) (q : Rat) : Flagged Nat :=
  let f := fmtOf t
  let e := ilog2 q
  let n := roundNat m neg (q / pow2 (e - f.mbits))
  let unb := (n : Rat) * pow2 (e - f.mbits)
  if unb < f.minNormal then
    if flush then (f.signBits neg, flUF ||| flNX)
    else
      let quantum := pow2 (1 - (f.bias : Int) - f.mbits)
      let k := roundNat m neg (q / quantum)
      let inexact := (k : Rat) * quantum ≠ q
      (f.signBits neg + k, flIf inexact (flUF ||| flNX))
  else if f.maxFin < unb then
    let toInf := f.inf && !sat && (match m with | .rne | .rna => true | .rz => false | .rdn => neg | .rup => !neg)
    ((if toInf then f.infBits neg else f.signBits neg + f.maxBits), flOF ||| flNX)
  else
    (f.signBits neg + ((e + f.bias).toNat * 2 ^ f.mbits + n - 2 ^ f.mbits), flIf (unb ≠ q) flNX)

/-- Encode an exact value that is not a NaN (R81, R91). -/
def roundVal (t : Ty) (m : Rounding) (flush sat neg : Bool) (q : Rat) : Flagged Nat :=
  if q = 0 then ((fmtOf t).signBits neg, 0) else roundMag t m flush sat neg q

/-- Encode an infinity: ±max finite where the format has none or the form saturates (R81, R91). -/
def encodeInf (t : Ty) (sat neg : Bool) : Flagged Nat :=
  let f := fmtOf t
  if f.inf && !sat then (f.infBits neg, 0) else (f.signBits neg + f.maxBits, flOF ||| flNX)

/-- The NaN result of an operation: canonical under NANQ or without a NaN input, else the first NaN input quieted (R86). That E4M3
takes the canonical NaN under NANQ also from a negative source, for which R91 says the source's sign, is the model's choice (log entry 84). -/
def nanResult (t : Ty) (nanq : Bool) (ins : List FpVal) : Nat :=
  let f := fmtOf t
  match ins.find? (fun v => match v with | .nan .. => true | _ => false) with
  | some (.nan neg _ frac) =>
    if nanq then f.qnan
    else if f.inf then f.signBits neg + f.emax * 2 ^ f.mbits + ((frac ||| 2 ^ 51) / 2 ^ (52 - f.mbits))
    else f.signBits neg + (2 ^ f.signPos - 1)
  | _ => f.qnan

/-- Read an operand: flush a subnormal that the controls cover, and flag a signalling NaN (R83, R85). -/
def readOperand (c : FCtl) (t : Ty) (b : Nat) : Flagged FpVal :=
  let f := fmtOf t
  match f.decode b with
  | .num neg q => (if c.flushes t && q < f.minNormal then .num neg 0 else .num neg q, 0)
  | .nan neg quiet frac => (.nan neg quiet frac, flIf (!quiet) flIV)
  | v => (v, 0)

namespace FpVal
def isNan : FpVal → Bool
  | .nan .. => true
  | _ => false
def neg : FpVal → Bool
  | .nan n _ _ | .inf n | .num n _ => n
/-- The value with its sign flipped, a NaN's included (R138). -/
def flip : FpVal → FpVal
  | .nan n q f => .nan (!n) q f
  | .inf n => .inf (!n)
  | .num n q => .num (!n) q
def flipIf (b : Bool) (v : FpVal) : FpVal := if b then v.flip else v
/-- The signed value of a number. -/
def rat : FpVal → Rat
  | .num n q => if n then -q else q
  | _ => 0
end FpVal

/-- What an exact operation gives: a number, an infinity, an invalid operation, or a NaN passed on. -/
inductive Exact
  | val (v : FpVal)
  | invalid
  | nan
deriving DecidableEq, Repr

/-- The exact product of two values (R84, R87). -/
def mulExact (a b : FpVal) : Exact :=
  match a, b with
  | .nan .., _ | _, .nan .. => .nan
  | .inf n, .inf m => .val (.inf (n != m))
  | .inf n, .num m q | .num m q, .inf n => if q = 0 then .invalid else .val (.inf (n != m))
  | .num n q, .num m r => .val (.num (n != m) (q * r))

/-- The exact sum of terms that are numbers or infinities: the zero-sign rule of R84 under a rounding mode. -/
def sumExact (m : Rounding) (ts : List FpVal) : Exact :=
  if ts.any FpVal.isNan then .nan
  else
    let pos := ts.any (fun t => t = .inf false)
    let ngt := ts.any (fun t => t = .inf true)
    if pos && ngt then .invalid
    else if pos then .val (.inf false)
    else if ngt then .val (.inf true)
    else
      let q := ts.foldl (fun a t => a + t.rat) 0
      if q = 0 then
        .val (.num (if ts.all (fun t => t.neg) then true else if ts.all (fun t => !t.neg) then false else m = .rdn) 0)
      else .val (.num (q < 0) (if q < 0 then -q else q))

/-- Deliver an exact result in a format, with the inputs for a NaN (R80 to R87). -/
def deliverFp (c : FCtl) (t : Ty) (m : Rounding) (ins : List FpVal) : Exact → Flagged Nat
  | .nan => (nanResult t c.nanq ins, 0)
  | .invalid => (nanResult t c.nanq ins, flIV)
  | .val (.num neg q) => roundVal t m (c.flushes t) false neg q
  | .val (.inf neg) => encodeInf t false neg
  | .val (.nan ..) => (nanResult t c.nanq ins, 0)

def orFlags (f : BitVec 6) (r : Flagged Nat) : Flagged Nat := (r.1, r.2 ||| f)

/-- `fadd`: a + b (R139). -/
def fpAdd (c : FCtl) (m : Rounding) (t : Ty) (na nb : Bool) (a b : Nat) : Flagged Nat :=
  let (x, fx) := readOperand c t a
  let (y, fy) := readOperand c t b
  let x := x.flipIf na
  let y := y.flipIf nb
  orFlags (fx ||| fy) (deliverFp c t m [x, y] (sumExact m [x, y]))

/-- `fmul`: a × b (R139). -/
def fpMul (c : FCtl) (m : Rounding) (t : Ty) (na nb : Bool) (a b : Nat) : Flagged Nat :=
  let (x, fx) := readOperand c t a
  let (y, fy) := readOperand c t b
  let x := x.flipIf na
  let y := y.flipIf nb
  orFlags (fx ||| fy) (deliverFp c t m [x, y] (mulExact x y))

/-- `ffma`: a × b + c, rounded once; 0 × ∞ is invalid whatever c holds (R87, R139). -/
def fpFma (c : FCtl) (m : Rounding) (t : Ty) (na nb nc : Bool) (a b d : Nat) : Flagged Nat :=
  let (x, fx) := readOperand c t a
  let (y, fy) := readOperand c t b
  let (z, fz) := readOperand c t d
  let x := x.flipIf na
  let y := y.flipIf nb
  let z := z.flipIf nc
  let e := match mulExact x y with
    | .val p => if z.isNan then .nan else sumExact m [p, z]
    | e => e
  orFlags (fx ||| fy ||| fz) (deliverFp c t m [x, y, z] e)

/-- Compare two values that are not NaN: -1, 0 or 1 as a is below, equal to or above b, with −0 below +0 when `signed0` (R140, R141). -/
def fpCompare (signed0 : Bool) (a b : FpVal) : Int :=
  match a, b with
  | .inf n, .inf m => if n = m then 0 else if n then -1 else 1
  | .inf n, _ => if n then -1 else 1
  | _, .inf m => if m then 1 else -1
  | x, y =>
    if x.rat < y.rat then -1 else if y.rat < x.rat then 1
    else if signed0 && x.rat = 0 && x.neg ≠ y.neg then (if x.neg then -1 else 1) else 0

/-- Encode a value that is already one of its format. -/
def encodeExact (t : Ty) (v : FpVal) : Nat :=
  match v with
  | .num neg q => (roundVal t .rne false false neg q).1
  | .inf neg => (fmtOf t).infBits neg
  | .nan neg _ frac => nanResult t false [.nan neg true frac]

/-- `fmin` and `fmax` (R140). -/
def fpMinMax (c : FCtl) (t : Ty) (isMax na nb : Bool) (a b : Nat) : Flagged Nat :=
  let (x, fx) := readOperand c t a
  let (y, fy) := readOperand c t b
  let x := x.flipIf na
  let y := y.flipIf nb
  let r := match x.isNan, y.isNan with
    | true, true => nanResult t c.nanq [x, y]
    | true, false => encodeExact t y
    | false, true => encodeExact t x
    | false, false =>
      let k := fpCompare true x y
      encodeExact t (if isMax then (if k < 0 then y else x) else (if k > 0 then y else x))
  (r, fx ||| fy)

/-- `fsetp` (R141). -/
def fpSetp (c : FCtl) (t : Ty) (cc : FCmp) (na nb : Bool) (a b : Nat) : Bool × BitVec 6 :=
  let (x, fx) := readOperand c t a
  let (y, fy) := readOperand c t b
  let un := x.isNan || y.isNan
  let k := fpCompare false (x.flipIf na) (y.flipIf nb)
  let r := match cc with
    | .eq => !un && k = 0 | .ne => !un && k ≠ 0 | .lt => !un && k < 0 | .le => !un && k ≤ 0
    | .gt => !un && k > 0 | .ge => !un && k ≥ 0 | .num => !un | .nan => un
    | .equ => un || k = 0 | .neu => un || k ≠ 0 | .ltu => un || k < 0 | .leu => un || k ≤ 0
    | .gtu => un || k > 0 | .geu => un || k ≥ 0
  (r, fx ||| fy)

/-- The class bit of an encoding (R142). -/
def fpClass (t : Ty) (b : Nat) : Nat :=
  let f := fmtOf t
  match f.decode b with
  | .nan _ quiet _ => if quiet then 1 else 0
  | .inf neg => if neg then 2 else 9
  | .num neg q =>
    if q = 0 then (if neg then 5 else 6)
    else if q < f.minNormal then (if neg then 4 else 7) else (if neg then 3 else 8)

/-- `frnd` (R143). -/
def fpRound (c : FCtl) (m : Rounding) (t : Ty) (na : Bool) (a : Nat) : Flagged Nat :=
  let (x, fx) := readOperand c t a
  match x.flipIf na with
  | .num neg q =>
    let n := roundNat m neg q
    ((roundVal t .rne false false neg (n : Rat)).1, fx ||| flIf ((n : Rat) ≠ q) flNX)
  | .inf neg => ((fmtOf t).infBits neg, fx)
  | v => (nanResult t c.nanq [v], fx)

/-! ### Square roots (R145, R146) -/

/-- A rational that every rounding treats as the square root of r > 0: the root itself when it is a dyadic rational of enough bits, else a value strictly
between the two neighbouring multiples of 2^-k. -/
def sqrtRat (r : Rat) : Rat :=
  let k := (70 - ilog2 r / 2).toNat
  let x := r.num.natAbs * 4 ^ k / r.den
  let f := Nat.sqrt x
  if f * f * r.den = r.num.natAbs * 4 ^ k then mkRat f (2 ^ k) else mkRat (2 * f + 1) (2 ^ (k + 1))

/-! ### Elementary functions by enclosure: fixed-point integers of `p` fraction bits (R145) -/

/-- Sum of an alternating or plain series: term `x^(2k+1)/(2k+1)` for odd powers. -/
def atanSeries (alt : Bool) (p : Nat) (x2 : Int) : Nat → Nat → Int → Int
  | 0, _, _ => 0
  | fuel + 1, k, pw =>
    if pw = 0 then 0
    else
      let t := pw / (2 * k + 1 : Nat)
      (if alt && k % 2 = 1 then -t else t) + atanSeries alt p x2 fuel (k + 1) (pw * x2 / (2 ^ p : Nat))

/-- atan(1/n), in units of 2^-p. -/
def atanInv (p n : Nat) : Int := atanSeries true p ((2 ^ p : Nat) / (n * n : Nat)) (p + 2) 0 ((2 ^ p / n : Nat) : Int)

/-- π, in units of 2^-p. -/
def piFix (p : Nat) : Int := 16 * atanInv p 5 - 4 * atanInv p 239

/-- 2·atanh(x), in units of 2^-p. -/
def atanh2 (p : Nat) (x : Int) : Int := 2 * atanSeries false p (x * x / (2 ^ p : Nat)) (p + 2) 0 x

/-- ln 2, in units of 2^-p. -/
def ln2Fix (p : Nat) : Int := atanh2 p ((2 ^ p / 3 : Nat) : Int)

/-- Taylor series with successive factorial denominators: from term `t` with index `k`, taking every `step`-th power and alternating when `alt`. -/
def taylor (alt : Bool) (step p : Nat) (x : Int) : Nat → Nat → Int → Int
  | 0, _, _ => 0
  | fuel + 1, k, t =>
    if t = 0 then 0
    else
      let d := if step = 1 then (k + 1) else (k + 1) * (k + 2)
      let t' := t * x / (2 ^ p : Nat) / (d : Nat)
      t + taylor alt step p x fuel (k + step) (if alt then -t' else t')

/-- e^x for 0 ≤ x < 1, in units of 2^-p. -/
def expFix (p : Nat) (x : Int) : Int := taylor false 1 p x (p + 2) 0 ((2 ^ p : Nat) : Int)
/-- sin x and cos x, in units of 2^-p. -/
def sinFix (p : Nat) (x : Int) : Int := taylor true 2 p (x * x / (2 ^ p : Nat)) (p + 2) 1 x
def cosFix (p : Nat) (x : Int) : Int := taylor true 2 p (x * x / (2 ^ p : Nat)) (p + 2) 0 ((2 ^ p : Nat) : Int)

/-- The elementary functions of major 0x5. -/
inductive Elem | exp2 | log2 | sin | cos
deriving DecidableEq, Repr

/-- An approximation of the function at `a`, in units of 2^-p, with an error below 2^24 units, and the scale by which it is to be multiplied. -/
def elemFix (f : Elem) (p : Nat) (a : Rat) : Int × Int :=
  match f with
  | .exp2 =>
    let n := a.num / a.den
    let x := (a - n) * ((2 ^ p : Nat) : Rat)
    (expFix p (x.num / x.den * ln2Fix p / (2 ^ p : Nat)), n)
  | .log2 =>
    let e := ilog2 a
    let m := a / pow2 e
    let x := (m - 1) / (m + 1) * ((2 ^ p : Nat) : Rat)
    (e * (2 ^ p : Nat) + atanh2 p (x.num / x.den) * (2 ^ p : Nat) / ln2Fix p, 0)
  | .sin | .cos =>
    let wide := p + 160
    let pi := piFix wide
    let x := a * ((2 ^ wide : Nat) : Rat)
    let xi := x.num / x.den
    let k := 2 * xi / pi
    let r := (2 * xi - k * pi) / 2 / (2 ^ 160 : Nat)
    let quad := (k + (if f = .cos then 1 else 0)) % 4
    (if quad = 0 then sinFix p r else if quad = 1 then cosFix p r else if quad = 2 then -sinFix p r else -cosFix p r, 0)

/-- The encoding that an irrational value of a function rounds to under RNE, from enclosures of growing precision (R145, R147). -/
def elemRound (f : Elem) (t : Ty) (flush : Bool) (a : Rat) (bits : Nat) : Nat → Nat → Flagged Nat
  | 0, _ => (Config.sfuTail (match f with | .exp2 => 0 | .log2 => 1 | .sin => 2 | .cos => 3) (BitVec.ofNat 64 bits), flNX)
  | fuel + 1, p =>
    let (v, sc) := elemFix f p a
    let err : Int := 2 ^ 24
    let lo := ((v - err : Int) : Rat) / ((2 ^ p : Nat) : Rat) * pow2 sc
    let hi := ((v + err : Int) : Rat) / ((2 ^ p : Nat) : Rat) * pow2 sc
    if (lo < 0) = (hi < 0) && lo ≠ 0 && hi ≠ 0 then
      let rl := roundMag t .rne flush false (lo < 0) (if lo < 0 then -lo else lo)
      let rh := roundMag t .rne flush false (hi < 0) (if hi < 0 then -hi else hi)
      let tiny := (rl.2 &&& flUF) ||| (rh.2 &&& flUF)
      if rl.1 = rh.1 then (rl.1, (rl.2 &&& flOF) ||| tiny ||| flNX) else elemRound f t flush a bits fuel (2 * p)
    else elemRound f t flush a bits fuel (2 * p)

/-- The special functions. -/
inductive Sfu | rcp | rsq | sqrt | elem (f : Elem)
deriving DecidableEq, Repr

/-- A special function of a nonzero finite value (R145). -/
def sfuNum (f : Sfu) (c : FCtl) (t : Ty) (m : Rounding) (neg : Bool) (q : Rat) (bits : Nat) (ins : List FpVal) : Flagged Nat :=
  let fl := c.flushes t
  match f with
  | .rcp => roundVal t .rne fl false neg (1 / q)
  | .rsq => if neg then (nanResult t c.nanq ins, flIV) else roundVal t .rne fl false false (sqrtRat (1 / q))
  | .sqrt => if neg then (nanResult t c.nanq ins, flIV) else roundVal t m fl false false (sqrtRat q)
  | .elem .exp2 =>
    let a := if neg then -q else q
    if a.den = 1 && a < 5000 && -5000 < a then roundVal t .rne fl false false (pow2 a.num)
    else if 5000 ≤ a then roundVal t .rne fl false false (pow2 5000)
    else if a ≤ -5000 then roundVal t .rne fl false false (pow2 (-5000))
    else elemRound .exp2 t fl a bits 6 96
  | .elem .log2 =>
    if neg then (nanResult t c.nanq ins, flIV)
    else
      let e := ilog2 q
      if q = pow2 e then roundVal t .rne fl false (e < 0) (if e < 0 then ((-e : Int) : Rat) else ((e : Int) : Rat))
      else elemRound .log2 t fl q bits 6 96
  | .elem g =>
    let a := if neg then -q else q
    elemRound g t fl a bits 6 96

/-- A special function of an operand's encoding (R144 to R147). -/
def fpSfu (f : Sfu) (c : FCtl) (m : Rounding) (t : Ty) (na : Bool) (a : Nat) : Flagged Nat :=
  let fm := fmtOf t
  let (x, fx) := readOperand c t a
  let x := x.flipIf na
  let one := (roundVal t .rne false false false 1).1
  let bad : Flagged Nat := (nanResult t c.nanq [x], flIV)
  let r : Flagged Nat :=
    match x with
    | .nan .. => (nanResult t c.nanq [x], 0)
    | .inf neg =>
      match f with
      | .rcp => (fm.signBits neg, 0)
      | .rsq => if neg then bad else (0, 0)
      | .sqrt => if neg then bad else (fm.infBits false, 0)
      | .elem .exp2 => if neg then (0, 0) else (fm.infBits false, 0)
      | .elem .log2 => if neg then bad else (fm.infBits false, 0)
      | .elem .sin | .elem .cos => bad
    | .num neg q =>
      if q = 0 then
        match f with
        | .rcp | .rsq => (fm.infBits neg, flDZ)
        | .sqrt => (fm.signBits neg, 0)
        | .elem .exp2 => (one, 0)
        | .elem .log2 => (fm.infBits true, flDZ)
        | .elem .sin => (fm.signBits neg, 0)
        | .elem .cos => (one, 0)
      else sfuNum f c t m neg q a [x]
  orFlags fx r

/-! ### Integers and conversions (R76, R89 to R92) -/

/-- The range of an integer type. -/
def tyMin (t : Ty) : Int := if t.isI then -(2 ^ (t.width - 1)) else 0
def tyMax (t : Ty) : Int := if t.isI then 2 ^ (t.width - 1) - 1 else 2 ^ t.width - 1

/-- A bit pattern of `t.width` bits read as the type gives. -/
def intOf (t : Ty) (n : Nat) : Int := if t.isI then signedOf t.width n else ((n % 2 ^ t.width : Nat) : Int)

/-- Clamp a value to a range (`Sat`). -/
def clampInt (v lo hi : Int) : Int := if v < lo then lo else if hi < v then hi else v

/-- Fit an exact integer to a type: wrapping, or saturating with SI when the clamp changes it (R76). -/
def fitInt (t : Ty) (sat : Bool) (v : Int) : Flagged Nat :=
  if sat then
    let c := clampInt v (tyMin t) (tyMax t)
    (lowBits t.width c, flIf (c ≠ v) flSI)
  else (lowBits t.width v, 0)

/-- Floating point to integer (R90). -/
def fpToInt (c : FCtl) (m : Rounding) (s d : Ty) (a : Nat) : Flagged Nat :=
  let (x, fx) := readOperand c s a
  match x with
  | .nan .. => (0, fx ||| flIV)
  | .inf neg => (lowBits d.width (if neg then tyMin d else tyMax d), fx ||| flIV ||| flSI)
  | v =>
    let n := roundInt m v.rat
    let k := clampInt n (tyMin d) (tyMax d)
    (lowBits d.width k, fx ||| flIf ((n : Rat) ≠ v.rat) flNX ||| flIf (k ≠ n) (flIV ||| flSI))

/-- FP32 to E8M0 (R92). -/
def fpToE8m0 (c : FCtl) (m : Rounding) (a : Nat) : Flagged Nat :=
  let (x, fx) := readOperand c .f32 a
  match x with
  | .nan .. => (0xFF, fx ||| flIV)
  | .inf neg => if neg then (0xFF, fx ||| flIV) else (0xFE, fx ||| flOF ||| flNX)
  | .num neg q =>
    if neg || q = 0 then (0xFF, fx ||| flIV)
    else
      let e := ilog2 q
      let up := match m with
        | .rz | .rdn => false
        | .rup => q ≠ pow2 e
        | .rne | .rna => decide (pow2 e * 3 / 2 ≤ q)
      let e' := if up then e + 1 else e
      if e' > 127 then (0xFE, fx ||| flOF ||| flNX)
      else if e' < -127 then (0x00, fx ||| flUF ||| flNX)
      else ((e' + 127).toNat, fx ||| flIf (pow2 e' ≠ q) flNX)

/-- Floating point to floating point, the formats of R89 other than E8M0 (R89, R91, R92). DESIGN CHOICE: a tiny FP16 result is flushed under FTZH whatever its
source, a subnormal E5M2 one among them (R83, R88; log entry 74). -/
def fpToFp (c : FCtl) (m : Rounding) (sat : Bool) (s d : Ty) (a : Nat) : Flagged Nat :=
  let fd := fmtOf d
  let (x, fx) := readOperand c s a
  match x with
  | .nan .. => if fd.nan then (nanResult d c.nanq [x], fx ||| flIf (!fd.signed) flIV) else (0, fx ||| flIV)
  | .inf neg => if neg && !fd.signed then (0xFF, fx ||| flIV) else orFlags fx (encodeInf d sat neg)
  | .num neg q =>
    if !fd.signed && neg && q ≠ 0 then (0xFF, fx ||| flIV)
    else orFlags fx (roundVal d m (c.flushes d) sat neg q)

/-- E8M0 or E5M3N to FP32 (R92). -/
def scaleToFp (c : FCtl) (s : Ty) (a : Nat) : Flagged Nat :=
  if a % 256 = 0xFF then (0x7FC00000, 0)
  else
    let q := if s = .e8m0 then pow2 ((a % 256 : Nat) - (127 : Int)) else (fmtOf .e5m3n).magOf (a % 256)
    roundVal .f32 .rne c.ftzs false false q

/-- One element of `cvt` (R89 to R92). That a rounding clause acts on the conversions into E8M0 and E5M3N is the model's choice: R92 rounds them in the instruction's
mode, and R148 names the pairs that R89 calls rounded (log entry 85). -/
def convert (c : FCtl) (m : Rounding) (sat : Bool) (s d : Ty) (a : Nat) : Flagged Nat :=
  if s.isInt then
    (if d.isInt then fitInt d sat (intOf s a)
     else
      let v := intOf s a
      roundVal d m (c.flushes d) false (v < 0) ((v.natAbs : Nat) : Rat))
  else if d.isInt then fpToInt c m s d a
  else if s = .e8m0 || s = .e5m3n then scaleToFp c s a
  else if d = .e8m0 then fpToE8m0 c m a
  else fpToFp c m sat s d a

/-! ### Elements of matrix operands, and the K-block step (R93 to R97) -/

/-- An element's own value in an engine format (R75, R77, R200). -/
def elemVal (f : EFmt) (b : Nat) : FpVal :=
  match f with
  | .f32 => (fmtOf .f32).decode b
  | .bf16 => (fmtOf .bf16).decode b
  | .f16 => (fmtOf .f16).decode b
  | .e5m2 => (fmtOf .e5m2).decode (b % 256)
  | .e4m3 => (fmtOf .e4m3).decode (b % 256)
  | .e3m2 => (fmtOf .e3m2).decode (b % 64)
  | .e2m3 => (fmtOf .e2m3).decode (b % 64)
  | .e2m1 => (fmtOf .e2m1).decode (b % 16)
  | .int8 => let v := signedOf 8 b; .num (v < 0) ((v.natAbs : Nat) : Rat)
  | .int4 => let v := signedOf 4 b; .num (v < 0) ((v.natAbs : Nat) : Rat)

/-- A scale byte: none for a NaN scale (R93, R94). -/
def scaleVal (shp : Bool) (b : Nat) : Option Rat :=
  if b % 256 = 0xFF then none
  else if shp then some ((fmtOf .e5m3n).magOf (b % 256)) else some (pow2 ((b % 256 : Nat) - (127 : Int)))

/-- The decoded value of an element under its block's scale (R93, R94). -/
def scaled (v : FpVal) (s : Option Rat) : FpVal :=
  match s, v with
  | none, _ => .nan false true (2 ^ 51)
  | some _, .nan a b d => .nan a b d
  | some q, .inf n => if q = 0 then .nan false true (2 ^ 51) else .inf n
  | some q, .num n m => .num n (m * q)

/-- One K-block: the accumulator plus its products, exact, rounded once by RNE to FP32 (R96, R97). -/
def kBlock (acc : Nat) (prods : List (FpVal × FpVal)) : Nat :=
  let ps := prods.map fun p => mulExact p.1 p.2
  let bad := ps.any fun p => match p with | .val _ => false | _ => true
  if bad then 0x7FC00000
  else
    let ts := (fmtOf .f32).decode acc :: ps.map fun p => match p with | .val v => v | _ => .num false 0
    (deliverFp { nanq := true } .f32 .rne [] (sumExact .rne ts)).1

end Sys2Proof.Machine
end

