-- ==== Sys2Proof/Machine/Mem.lean ====
section
/-!
DEFINITION. Global memory: compressed blocks, the homes of lines, translation, acceptance of accesses, page requests, and the one operation that writes.

A captured location is one number: the host-physical address of the byte in bits [59:0], and above them what the page's translation adds to it: whether
the page is compressed, its watch slot plus one, and its guest-physical page (R323, R332).
-/
set_option Elab.async false
namespace Sys2Proof.Machine
open Sys2Proof

/-! ### Captured locations -/

namespace Loc
/-- The captured location of a host-physical address. -/
def mk (pa : Nat) (comp : Bool) (watch : Option Nat) (gpage : Nat := 0) : Nat :=
  pa + 2 ^ 60 * b2n comp + 2 ^ 61 * (match watch with | some w => w + 1 | none => 0) + 2 ^ 70 * gpage
/-- Its host-physical address. -/
def pa (l : Nat) : Nat := l % 2 ^ 60
/-- Whether the mapping is a compressed one. -/
def comp (l : Nat) : Bool := bitOf l 60
/-- The watch slot of its page. -/
def watch (l : Nat) : Option Nat := if l / 2 ^ 61 % 512 = 0 then none else some (l / 2 ^ 61 % 512 - 1)
/-- Its guest-physical page. -/
def gpage (l : Nat) : Nat := l / 2 ^ 70
end Loc

/-! ### Compressed blocks (R336 to R338) -/

/-- Delta width of a size code (R337). -/
def codeWidth (c : Nat) : Nat := match c with | 1 => 7 | 2 => 15 | _ => 23
/-- Stored bytes of a size code (R337). -/
def codeBytes (c : Nat) : Nat := if c = 0 then 256 else 64 * c
/-- The words of a run of bytes. -/
def wordsLE : Nat → List Byte → List Nat
  | 0, _ => []
  | n + 1, b => natLE (b.take 4) :: wordsLE n (b.drop 4)
/-- The bytes of a run of words. -/
def bytesOfWords (ws : List Nat) : List Byte := (ws.map (bytesLE 4)).flatten

/-- Decode the stored form of a block (R337); none when a coded block's bytes 4 to 7 are not zero (R338). -/
def blockDecode (code : Nat) (stored : List Byte) : Option (List Byte) :=
  if code = 0 then some (stored.take 256)
  else if natLE ((stored.drop 4).take 4) ≠ 0 then none
  else
    let w := codeWidth code
    let base := natLE (stored.take 4)
    let packed := natLE ((stored.take (codeBytes code)).drop 8)
    some (bytesOfWords ((List.range 64).map fun i => lowBits 32 ((base : Int) + signedOf w (packed / 2 ^ (w * i)))))

/-- The smallest code whose deltas all fit (R338). -/
def blockCode (d : List Nat) : Nat :=
  let base := d.headD 0
  let fits (w : Nat) := d.all fun x => let v := signedOf 32 (lowBits 32 ((x : Int) - base)); decide (-(2 ^ (w - 1)) ≤ v) && decide (v < 2 ^ (w - 1))
  if fits 7 then 1 else if fits 15 then 2 else if fits 23 then 3 else 0

/-- Encode a block: its code and its stored bytes (R337, R338). -/
def blockEncode (bytes : List Byte) : Nat × List Byte :=
  let d := wordsLE 64 bytes
  let c := blockCode d
  if c = 0 then (0, bytes)
  else
    let w := codeWidth c
    let base := d.headD 0
    let packed := d.foldr (fun x a => lowBits w ((x : Int) - base) + 2 ^ w * a) 0
    (c, bytesLE 4 base ++ bytesLE 4 0 ++ bytesLE (codeBytes c - 8) packed)

namespace State

/-- The metadata byte of a block and the block's place in it (R336). -/
def metaByte (s : State) (blk : Nat) : Nat := s.cmbase.toNat + 64 * (blk / 256) + blk % 256 / 4
/-- The size code of block number `blk` (R336). -/
def sizeCode (s : State) (blk : Nat) : Nat := (Memory.read s.mem (s.metaByte blk)).toNat / 4 ^ (blk % 4) % 4
/-- The decoded bytes of a block; none when it reads as poisoned (R338). -/
def block (s : State) (blk : Nat) : Option (List Byte) := blockDecode (s.sizeCode blk) (Memory.readN s.mem (256 * blk) 256)

/-- Write decoded bytes of a block, its stored form and its code (R338). The bytes that a block which read as poisoned holds beside the written ones
are free (log entry 13). -/
def blockWrite (s : State) (blk off : Nat) (data : List Byte) : State :=
  let old := s.block blk
  let whole := old.getD ((List.range 256).map fun i => BitVec.ofNat 8 (Config.freeChoice (256 * s.steps + i)))
  let bytes := whole.take off ++ data ++ whole.drop (off + data.length)
  let (c, st) := if old.isSome then blockEncode bytes else (0, bytes)
  let m := Memory.writeN s.mem (256 * blk) st
  let a := s.metaByte blk
  let b := (Memory.read m a).toNat
  let sh := 4 ^ (blk % 4)
  { s with mem := Memory.write m a (BitVec.ofNat 8 (b - b / sh % 4 * sh + c * sh)) }

/-! ### Controllers and homes (R323 to R325, R334) -/

/-- Bytes as the controller gives them through a mapping: decoded where the page is compressed (R334). What host and peer memory holds is free. -/
def ctlRead (s : State) (loc n : Nat) : List Byte :=
  let a := Loc.pa loc
  if isWindow a then (List.range n).map fun i => Config.windowByte s.steps (a + i)
  else if Loc.comp loc then (match s.block (a / 256) with | some b => (b.drop (a % 256)).take n | none => List.replicate n 0)
  else Memory.readN s.mem a n

/-- Write bytes within one line at the controller. -/
def ctlWrite (s : State) (loc : Nat) (data : List Byte) : State :=
  let a := Loc.pa loc
  if Loc.comp loc then s.blockWrite (a / 256) (a % 256) data else { s with mem := Memory.writeN s.mem a data }

/-- The L2 line that holds a physical line: there is at most one (R334). -/
def l2At (s : State) (loc : Nat) : Option L2Line := s.l2.find? fun l => l.pa = Loc.pa loc / 64 && l.attr.comp = Loc.comp loc

/-- Bytes within one line, as its home gives them (R325). -/
def homeRead (s : State) (loc n : Nat) : List Byte :=
  match s.l2At loc with
  | some l => (l.bytes.drop (Loc.pa loc % 64)).take n
  | none => s.ctlRead loc n

/-- Whether a byte's line is poisoned: as memory holds it, or in a block that does not decode (R338, R397). -/
def poisoned (s : State) (loc : Nat) : Bool :=
  s.poison.contains (Loc.pa loc / 64) || (Loc.comp loc && (s.l2At loc).isNone && (s.block (Loc.pa loc / 256)).isNone)

/-- Whether an engine's request to a line of host or peer memory ends without a completion: its link has failed, or it has had none for 50 ms, which is
free (R429; log entry 67). -/
def lost (s : State) (loc : Nat) : Bool :=
  isWindow (Loc.pa loc) && ((s.link (linkOf (Loc.pa loc))).state = 3 || Config.freeBit (s.steps + 2 ^ 64 * (Loc.pa loc / 64)))

/-- Whether an engine's read of a byte is a poisoned one: of a poisoned line, or one whose request is lost (R397, R429). -/
def engPoisoned (s : State) (loc : Nat) : Bool := s.poisoned loc || s.lost loc

/-- Replace bytes within a line. -/
def spliceLine (b : List Byte) (off : Nat) (data : List Byte) : List Byte := b.take off ++ data ++ b.drop (off + data.length)

/-- Write bytes within one line at its home; a write of the whole line clears its poison (R325, R397). -/
def homeWrite (s : State) (loc : Nat) (data : List Byte) : State :=
  let s : State := if data.length = 64 then { s with poison := s.poison.filter (· ≠ Loc.pa loc / 64) } else s
  match s.l2At loc with
  | some l => { s with l2 := s.l2.map fun m => if m.pa = l.pa then { m with bytes := spliceLine m.bytes (Loc.pa loc % 64) data, dirty := true } else m }
  | none => s.ctlWrite loc data

/-- A request that timed out on a link which has not failed is recorded (R429). -/
def logLost (s : State) (a : Nat) : State := if isWindow a && (s.link (linkOf a)).state ≠ 3 then s.logError 0 0x09 0xFF 0xFF 0 a else s

/-- Add 1 to HOT of a leaf entry, saturating (R331). -/
def bumpHot (s : State) (leaf : Nat) : State :=
  if leaf = 0 then s
  else
    let b := natLE (s.homeRead (leaf + 7) 1)
    if b = 255 then s else s.homeWrite (leaf + 7) [BitVec.ofNat 8 (b + 1)]

/-- Write an L2 line, where it is dirty, back to its captured address, counting it; `keep` says that the L2 keeps it, clean (R331, R338). -/
def writeback (s : State) (keep : Bool) (pa : Nat) : State :=
  match s.l2.find? (fun m => m.pa = pa) with
  | none => s
  | some l =>
    let t : State := { s with l2 := if keep then s.l2.map fun m => if m.pa = pa then { m with dirty := false } else m else s.l2.filter fun m => m.pa ≠ pa }
    if !l.dirty then t
    else ((t.ctlWrite (Loc.mk (64 * pa) l.attr.comp none) l.bytes).bumpHot l.attr.leaf1).bumpHot l.attr.leaf2

/-- The cores of a function's slice. -/
def sliceCores (s : State) (slice : Nat) : List Nat := (List.range (16 * (s.gran slice).num)).map fun i => 16 * slice + i

/-- Drop the lines that `p` picks from every L1. -/
def dropL1s (s : State) (p : L1Line → Bool) : State :=
  if s.cores.toList.all (fun k => k.l1.isEmpty) then s else { s with cores := s.cores.map fun k => { k with l1 := k.l1.filter fun e => !p e } }

/-- Drop a virtual line from every L1 of the function's slice. -/
def dropL1 (s : State) (vf : Nat) (p : Nat → Bool) : State :=
  (s.sliceCores (s.vf vf).slice).foldl (fun s c => s.updCore c fun k => { k with l1 := k.l1.filter fun e => !(e.vf = vf && p e.line) }) s

/-- Write back and drop the L2 lines that `p` picks, and the L1 copies of the same virtual lines (R332, R334). -/
def flushLines (s : State) (p : L2Line → Bool) : State :=
  let ls := s.l2.filter p
  let s := ls.foldl (fun s l => (s.writeback false l.pa).dropL1 l.vf (fun v => v = l.line)) s
  { s with l2 := s.l2.filter fun l => !p l }

/-! ### The L1 (R2, R159, R323, R324) -/

/-- The L1 copy of a virtual line on a core (R323). -/
def l1At (s : State) (core vf va : Nat) : Option L1Line := (s.coreAt core).l1.find? fun e => e.vf = vf && e.line = va / 64

/-- Whether a page is mixed (R334). -/
def isMixed (s : State) (page : Nat) : Bool := s.mixed.any fun m => m.1 = page || (m.2 && m.1 / 8192 = page / 8192)

/-- Whether the L1 may hold a line: its page is cached, not mixed and not watched (R324, R334). -/
def cacheable (s : State) (loc : Nat) (a : Attr) : Bool :=
  isDevice (Loc.pa loc) && a.watch.isNone && a.cpol = 0 && !s.isMixed (Loc.pa loc / 65536)

/-- The core's L1 gives up its copies of a physical line, so that its groups read what stands at home (R305, R308). -/
def dropCoreLine (s : State) (core : Option Nat) (loc : Nat) : State :=
  match core with
  | none => s
  | some c => if (s.coreAt c).l1.isEmpty then s else s.updCore c fun k => { k with l1 := k.l1.filter fun e => e.pa ≠ Loc.pa loc / 64 }

/-- The controller serves a read under a virtual line: a copy that an L2 holds under another one is written back and goes, with its L1 copies; then, where
no L2 holds the line, the read is a fill of its page, which HOT of both leaves counts (R331, R334). -/
def serveFill (s : State) (vf va loc leaf1 leaf2 : Nat) : State :=
  let other (l : L2Line) : Bool := l.pa = Loc.pa loc / 64 && !(l.vf = vf && l.line = va / 64)
  let s := if s.l2.any other then s.flushLines other else s
  if (s.l2At loc).isSome || !isDevice (Loc.pa loc) then s else (s.bumpHot leaf1).bumpHot leaf2

/-- The same for a reader that keeps the page's location alone: the leaves are those of the page's translation. -/
def serveRead (s : State) (vf va loc : Nat) : State :=
  match s.walked.find? fun w => w.vf = vf && w.vpage = va / 65536 && w.page = Loc.pa loc / 65536 with
  | some w => s.serveFill vf va loc w.leaf1 w.leaf2
  | none => s.serveFill vf va loc 0 0

/-- The L1 takes a fresh copy of a line that a read found at its home, with its captured attributes; no other alias of the line stays beside it, and a
line that may not be cached is served without a copy (R312, R317, R323, R324, R334). -/
def fillL1 (s : State) (core vf va loc : Nat) (a : Attr) (ev : Bool) : State :=
  let s := (s.serveFill vf va loc a.leaf1 a.leaf2).dropCoreLine (some core) loc
  if !s.cacheable loc a then s
  else
    let e : L1Line := { vf, line := va / 64, pa := Loc.pa loc / 64, attr := a, bytes := s.homeRead (loc - va % 64) 64, ev }
    let s := s.updCore core fun k => { k with l1 := k.l1.filter fun x => !(x.vf = vf && x.line = e.line) }
    (s.trimL1 core 1).updCore core fun k => { k with l1 := e :: k.l1 }

/-! ### Translation (R327 to R330) -/

/-- What a walk finds. -/
inductive Walk
  | ok (pa : Nat) (entry : Word64) (leaf : Nat) (big : Bool)
  | missing (stage2 : Bool) (page : Nat)
  | malformed (entry : Nat)
deriving DecidableEq, Repr

/-- Index of an address in a table of a level (R327). -/
def tableIx (level a : Nat) : Nat := a / 2 ^ (16 + 13 * level) % (if level = 3 then 4 else 8192)

/-- ADDR of an entry, as an address. -/
def entryAddr (e : Word64) : Nat := bitsOf e.toNat 50 16 * 65536

/-- A malformed entry (R329). An entry of level 0 that maps no page is taken as one too (log entry 15). -/
def badEntry (stage2 : Bool) (level : Nat) (e : Word64) : Bool :=
  e.getLsbD 55 || bitsOf e.toNat 7 5 ≠ 0 || bitsOf e.toNat 52 51 = 3 || (level ≥ 2 && e.getLsbD 1) || (level = 0 && !e.getLsbD 1) ||
  (level = 1 && e.getLsbD 1 && bitsOf e.toNat 28 16 ≠ 0) || (stage2 && e.getLsbD 54) || (!stage2 && e.getLsbD 53) ||
  (level = 1 && e.getLsbD 1 && e.getLsbD 54)

/-- The address that a leaf maps. -/
def leafAddr (e : Word64) (level a : Nat) : Nat := if level = 1 then entryAddr e + a % 2 ^ 29 else entryAddr e + a % 65536

/-- Read a table entry, as memory holds it or as the walk cache took it: which of the two is free where they differ in more than HOT, which no walk uses (R330, R331, log
entry 13). -/
def walkRead (s : State) (vf : Nat) (stage2 : Bool) (level a va : Nat) : State × Word64 :=
  let m : Word64 := BitVec.ofNat 64 (natLE (s.homeRead a 8))
  let ix := va / 2 ^ (16 + 13 * level)
  match s.walks.find? (fun w => w.vf = vf && w.stage2 = stage2 && w.level = level && w.base = a && w.ix = ix) with
  | some w => (s, if w.val.setWidth 56 = m.setWidth 56 then m else if Config.freeBit s.steps then w.val else m)
  | none => (if m.getLsbD 0 then { s with walks := { vf, stage2, level, base := a, ix, val := m } :: s.walks } else s, m)

/-- The stage-2 walk of a guest-physical address, level by level (R327). A leaf into an absent range is as a malformed entry (R333). -/
def walk2 (vf gpa : Nat) : List Nat → Nat → State → State × Walk
  | [], base, s => (s, .malformed base)
  | lv :: r, base, s =>
    let a := base + 8 * tableIx lv gpa
    let (s, e) := s.walkRead vf true lv a gpa
    if !e.getLsbD 0 then (s, .missing true (gpa / 65536))
    else if badEntry true lv e then (s, .malformed a)
    else if e.getLsbD 1 then
      if physRegion (leafAddr e lv gpa) = .absent then (s, .malformed a) else (s, .ok (leafAddr e lv gpa) e a (lv = 1))
    else walk2 vf gpa r (entryAddr e) s

/-- Stage-2 translation of a guest-physical address. -/
def stage2 (s : State) (vf gpa : Nat) : State × Walk := walk2 vf gpa [3, 2, 1, 0] (s.vf vf).s2root s

/-- The stage-1 walk of a guest-virtual address; its pointers are guest-physical (R327). -/
def walk1 (vf va : Nat) : List Nat → Nat → State → State × Walk
  | [], base, s => (s, .malformed base)
  | lv :: r, base, s =>
    match s.stage2 vf (base + 8 * tableIx lv va) with
    | (s, .ok a _ _ _) =>
      let (s, e) := s.walkRead vf false lv a va
      if !e.getLsbD 0 then (s, .missing false (va / 65536))
      else if badEntry false lv e then (s, .malformed a)
      else if e.getLsbD 1 then (s, .ok (leafAddr e lv va) e a (lv = 1))
      else walk1 vf va r (entryAddr e) s
    | (s, w) => (s, w)

/-- What two translations have in common, when they differ in cache policy or COMP: a 64 KiB page, or a 512 MiB page that both map whole (R329, R334). -/
def clash (a b : Walked) : Option (Nat × Bool) :=
  if a.cpol = b.cpol && a.comp = b.comp then none
  else if a.big && b.big then (if a.page / 8192 = b.page / 8192 then some (a.page, true) else none)
  else if a.big then (if a.page / 8192 = b.page / 8192 then some (b.page, false) else none)
  else if b.big then (if a.page / 8192 = b.page / 8192 then some (a.page, false) else none)
  else if a.page = b.page then some (a.page, false) else none

/-- Record a translation that the walker produced; a page whose translations differ in cache policy or COMP becomes mixed, and its cached copies go, on
every core too (R334). -/
def noteWalk (s : State) (t : Walked) : State :=
  let new := (s.walked.filterMap fun w => clash w t).filter fun m => !s.mixed.contains m
  let s : State := if s.walked.contains t then s else { s with walked := t :: s.walked }
  if new.isEmpty then s
  else
    let s : State := { s with mixed := new ++ s.mixed }
    let on (pa : Nat) : Bool := s.isMixed (pa / 1024)
    (s.flushLines fun l => on l.pa).dropL1s fun e => on e.pa

/-- What a translation gives: a captured location and its attributes; a missing translation; or none permitted, with the entry to report (R329, R333). -/
inductive Xlat
  | ok (loc : Nat) (attr : Attr)
  | missing (stage2 : Bool) (page : Nat)
  | malformed (entry : Nat)
deriving DecidableEq, Repr

/-- Translate a virtual address below 2^57 (R327 to R329). -/
def walk (s : State) (vf va : Nat) : State × Xlat :=
  match walk1 vf va [3, 2, 1, 0] (s.vf vf).s1root s with
  | (s, .missing st p) => (s, .missing st p)
  | (s, .malformed e) => (s, .malformed e)
  | (s, .ok gpa e1 l1 big1) =>
    match s.stage2 vf gpa with
    | (s, .missing st p) => (s, .missing st p)
    | (s, .malformed e) => (s, .malformed e)
    | (s, .ok pa e2 l2 big2) =>
      let attr : Attr :=
        { r := e1.getLsbD 2 && e2.getLsbD 2, w := e1.getLsbD 3 && e2.getLsbD 3, x := e1.getLsbD 4 && e2.getLsbD 4,
          cpol := max (bitsOf e1.toNat 52 51) (bitsOf e2.toNat 52 51), comp := e2.getLsbD 53,
          watch := if e1.getLsbD 54 then some (bitsOf e1.toNat 15 8) else none, leaf1 := l1, leaf2 := l2,
          gpage := gpa / 65536, big := big1 && big2 }
      (s.noteWalk { page := pa / 65536, cpol := attr.cpol, comp := attr.comp, vf, vpage := va / 65536, gpage := gpa / 65536, big := attr.big,
                    leaf1 := l1, leaf2 := l2 },
        .ok (Loc.mk pa attr.comp attr.watch attr.gpage) attr)

/-- The translation of an address: the captured attributes of a copy of its line that the function's L2 or the core's own L1 holds, or a walk (R326,
R330). -/
def translate (s : State) (vf va : Nat) (core : Option Nat := none) : State × Xlat :=
  let held : Option (Nat × Attr) :=
    match s.l2.find? (fun l => l.vf = vf && l.line = va / 64) with
    | some l => some (l.pa, l.attr)
    | none => match core with
      | some c => (s.l1At c vf va).map fun e => (e.pa, e.attr)
      | none => none
  match held with
  | some (pl, a) => (s, .ok (Loc.mk (64 * pl + va % 64) a.comp a.watch a.gpage) a)
  | none => s.walk vf va

/-! ### Fills of the L2 (R2, R323 to R325, R331, R334, R338) -/

/-- The L2 slice, among those of the package, that is the home of a virtual line: 96 for each granule; a retired slice's partner serves it (R325,
R402). -/
def l2Home (s : State) (vf va : Nat) : Nat :=
  let v := va / 64
  let f := (s.vf vf).slice
  let h := (v % 4096) ^^^ (v / 2 ^ 12 % 4096) ^^^ (v / 2 ^ 24 % 4096) ^^^ (v / 2 ^ 36 % 4096) ^^^ (v / 2 ^ 48 % 8) ^^^ vf
  let ix := 96 * f + h % (96 * max 1 (s.gran f).num)
  if s.retired.contains (2, ix) then ix ^^^ 1 else ix

/-- The lines that an L2 slice holds room for: 128 KiB (R2). -/
def l2Room : Nat := 2048

/-- Put L2 lines out: any one, or none, which is free since the spec gives no order of replacement (log entry 13); and, where slice `home` is full, one
of its lines. -/
def evict (s : State) (home : Nat) : State :=
  let s := match s.l2[Config.freeChoice s.steps % (s.l2.length + 1)]? with
    | none => s
    | some l => s.writeback false l.pa
  let own := s.l2.filter (·.home = home)
  if own.length < l2Room then s
  else match own[s.leaver (own.map (·.ev))]? with
    | none => s
    | some l => s.writeback false l.pa

/-- A line may be cached in the L2: device memory, cached or L2-only policy, its page not mixed, and its block readable (R324, R329, R334, R338). -/
def fillable (s : State) (loc : Nat) (a : Attr) : Bool :=
  isDevice (Loc.pa loc) && decide (a.cpol ≤ 1) && !s.isMixed (Loc.pa loc / 65536) && (!Loc.comp loc || (s.block (Loc.pa loc / 256)).isSome)

/-- The watch mask of a line: what its fill read, and the L2 keeps; for a line that no L2 holds, what the controller first read since the page's last
invalidation. A mask that stage 2 does not map is taken as empty (R345, log entry 15). -/
def watchMask (s : State) (vf va loc slot : Nat) : State × Word64 :=
  match ((s.l2.find? fun l => l.vf = vf && l.line = va / 64).bind (·.mask)).or ((s.masks.find? fun m => m.vf = vf && m.line = va / 64).map (·.mask)) with
  | some m => (s, m)
  | none =>
    let (s, mask) : State × Word64 := match s.stage2 vf ((s.vf vf).wtbase.toNat + 8192 * slot + 8 * (va / 64 % 1024)) with
      | (s, .ok pa _ _ _) => (s, BitVec.ofNat 64 (natLE (s.homeRead pa 8)))
      | (s, _) => (s, 0)
    ({ s with masks := { vf, line := va / 64, gpage := Loc.gpage loc, mask } :: s.masks }, mask)

/-- What a fill reads of the watch mask of a line (R345). -/
def fillMask (s : State) (vf va loc : Nat) : State × Option Word64 :=
  match Loc.watch loc with
  | some slot => match s.watchMask vf va loc slot with | (s, m) => (s, some m)
  | none => (s, none)

/-- The controller walks, writes back another alias of the line, decodes, counts HOT, reads the watch mask, and the L2 takes the line with its captured
attributes. A line that it holds, that may not be cached, or has no translation, is not filled (R323, R331, R334, R338, R345). -/
def fillL2 (s : State) (vf line : Nat) (ev : Bool) : State :=
  if s.l2.any (fun l => l.vf = vf && l.line = line) then s
  else match s.walk vf (64 * line) with
    | (s, .ok loc a) =>
      if !s.fillable loc a then s
      else
        let pl := Loc.pa loc / 64
        let home := s.l2Home vf (64 * line)
        let (s, mask) := (s.evict home).fillMask vf (64 * line) loc
        let s := s.flushLines fun l => l.pa = pl
        let s := (s.bumpHot a.leaf1).bumpHot a.leaf2
        { s with l2 := { vf, line, pa := pl, attr := a, bytes := s.ctlRead loc 64, dirty := false, home, ev, mask } :: s.l2 }
    | (s, _) => s

/-- The L2's copy of a line is the first to leave (R159). -/
def markEv (s : State) (loc : Nat) : State := { s with l2 := s.l2.map fun l => if l.pa = Loc.pa loc / 64 then { l with ev := true } else l }

/-- Registered weight regions of the function that contain a written byte take a new version (R220). -/
def bumpRegions (s : State) (vf va n : Nat) : State :=
  s.updVf vf fun v => { v with regions := v.regions.map fun r =>
    if r.reg && r.obs && decide (r.base < va + n) && decide (va < r.base + r.size) then { r with ver := r.ver + 1, obs := false } else r }

/-- A registered global barrier whose line is written breaks: BROKEN set, ARMED clear, the line released (R196, R197). -/
def breakLine (s : State) (loc : Nat) : State :=
  match s.barLines.find? (fun b => Loc.pa b.1 / 64 = Loc.pa loc / 64) with
  | none => s
  | some (b, _) =>
    let f := natLE (s.homeRead (b + 0x10) 1)
    let s : State := { s with barLines := s.barLines.filter (·.1 ≠ b) }
    (s.homeWrite (b + 0x10) [BitVec.ofNat 8 ((f - f % 8) + f % 2 + 4)]).wakeWaiters (fun l => l.onLine (Loc.pa b)) 0xFFFF 0

/-- Record caches drop an entry whose line is written, but for the engine `keep` that writes it (R235). -/
def dropRecs (s : State) (loc : Nat) (keep : Option Nat) : State :=
  (List.range 64).foldl (fun s c =>
    if keep = some c || (s.cluster c).recs.isEmpty then s
    else s.updCluster c fun k => { k with recs := k.recs.filter fun r => Loc.pa r.pa / 64 ≠ Loc.pa loc / 64 }) s

/-- A store to a live group's divergence stack or split table is noted (R24). -/
def touchDiv (s : State) (vf va n : Nat) : State :=
  s.mapGroups fun g =>
    if g.vf = vf && decide (va < g.saveb.toNat + 0x1400) && decide (g.saveb.toNat < va + n) then { g with divTouched := true } else g

/-- A tag that no outstanding request of a link holds, from the next on (R430). -/
def freeReq (l : Link) : Nat :=
  (((List.range 1024).map fun i => (l.npNext + i) % 1024).find? fun t => l.np.all fun e => e.tag ≠ t).getD l.npNext

/-- Every link has tags left for the requests of an instruction (R430). -/
def tagsLeft (s : State) : Bool := s.links.toList.all fun l => decide (l.np.length + 32 ≤ 1024)

/-- Send a request of a lane over the link that serves its window, to the address that it has there, and keep it among the outstanding ones (R429, R430,
R432). -/
def sendOver (s : State) (loc gid op lane : Nat) (p : Port) : State :=
  let a := Loc.pa loc
  s.updLink (linkOf a) fun l =>
    let tag := freeReq l
    let t : Link := { l with npNext := (tag + 1) % 1024, np := l.np ++ [{ tag, addr := a, gid, op, lane }] }
    t.send 1 { p with link := linkOf a, addr := (windowTarget a).2, vf := (windowTarget a).1, tag }

/-- Who writes: a barrier instruction (`bar`), the engine that holds a record's header (`keep`), the group, launch, operation and core that issued the
write, and whether the core itself keeps its divergence structures (`own`). -/
structure Writer where
  bar : Bool := false
  keep : Option Nat := none
  core : Option Nat := none
  gid : Nat := 0
  launch : Nat := 0
  seq : Nat := 0
  own : Bool := false
deriving DecidableEq, Repr

/-- An operation in flight whose reads are those of loads at its place, though they are made later (R244, R279). -/
def readsLate : OpKind → Bool
  | .filter .. | .ray .. => true
  | _ => false

/-- What an operation keeps of bytes that a write of its group replaces: of a younger write, the aligned 8-byte parts as they stood; what an older write
puts there it takes over (R161, R244, R279, R313). -/
def Op.keep (o : Op) (seq a : Nat) (data old : List Byte) : Op :=
  if o.fin || !readsLate o.kind || o.seq = seq then o
  else if o.seq < seq then { o with past := o.past ++ [(8 * (a / 8), old)] }
  else { o with past := o.past.map fun p =>
    (p.1, (List.range p.2.length).map fun i => if a ≤ p.1 + i then data.getD (p.1 + i - a) (p.2.getD i 0) else p.2.getD i 0) }

/-- What a group's write replaces is kept for the group's operations that read as loads at their own places (R161, R244, R279). -/
def keepPast (s : State) (loc : Nat) (data : List Byte) (w : Writer) : State :=
  match s.group? w.gid with
  | none => s
  | some g =>
    if g.ops.any fun o => !o.fin && readsLate o.kind then
      let off := Loc.pa loc % 8
      let b := s.homeRead (loc - off) (8 * ((off + data.length + 7) / 8))
      s.updGroup w.gid fun g => { g with ops := g.ops.map fun o => Op.keep o w.seq (Loc.pa loc) data b }
    else s

/-- THE WRITE OF GLOBAL MEMORY: bytes within one line, of a function, at a virtual address and its captured location. Region versions move first; then
the write is performed at its home, or sent to its window; then what stands on the line hears of it (R196, R220, R235, R318). -/
def write (s : State) (vf va loc : Nat) (data : List Byte) (w : Writer := {}) : State :=
  let s := s.bumpRegions vf va data.length
  if isWindow (Loc.pa loc) then
    s.postWrite (Loc.pa loc) w.gid w.launch data
  else
    let s := ((s.keepPast loc data w).homeWrite loc data).dropCoreLine w.core loc
    let s := if w.bar then s else s.breakLine loc
    let s := s.dropRecs loc w.keep
    if w.own then s else s.touchDiv vf va data.length

/-! ### Records and watch events (R345, R346, R414, R415, R420) -/

/-- Whether a function holds its slice: always without rotation, else as the current entry (R378). -/
def holds (s : State) (vf : Nat) : Bool :=
  let v := s.vf vf
  let g := s.gran v.slice
  v.bound && (!g.rotEn || bitsOf g.rotVf.toNat (8 * g.entry + 5) (8 * g.entry) = vf)

/-- Withhold a completion of a function (R380). That the steps of a launch's completion and the interrupts are kept also where the 3 MiB of R5 are full is the
model's choice (log entry 70). -/
def withhold (s : State) (vf : Nat) (w : Withheld) : State := s.updVf vf fun v => { v with withheld := v.withheld ++ [(s.steps, w)] }

/-- The shadow storage of a slice that withheld completions may take is full: 3 MiB for each granule, of which the model lets each take 64 bytes (R377,
R380; log entry 70). -/
def shadowFull (s : State) (slice : Nat) : Bool :=
  decide (49152 * (s.gran slice).num ≤ ((s.vfs.toList.filter fun v => v.bound && v.slice = slice).map fun v => v.withheld.length).sum)

/-- Write one 32-byte record into a record buffer of a function, or count a drop (R414). -/
def record (s : State) (vf : Nat) (beacon : Bool) (data : List Byte) : State :=
  let v := s.vf vf
  let b := if beacon then v.beacon else v.trace
  let put (s : State) (b : RecBuf) : State := s.updVf vf fun v => if beacon then { v with beacon := b } else { v with trace := b }
  let drop (s : State) : State := put s { b with drops := if b.drops = 0xFFFFFFFF then b.drops else b.drops + 1 }
  let size := 2 ^ b.log2n.toNat
  let va := b.base.toNat + 32 * (b.tail.toNat % size)
  if b.base = 0 || b.log2n < 4 || b.log2n > 20 || decide (size ≤ (b.tail - b.head).toNat) || decide (2 ^ 57 ≤ va) then drop s
  else
    match s.translate vf va with
    | (s, .ok loc a) => if a.w then put (s.write vf va loc data) { b with tail := b.tail + 1 } else drop s
    | (s, _) => drop s

/-- An operation may still emit a watch event: it accesses a watched page, or an engine or a unit reads and writes for it (R346). -/
def mayRecord : OpKind → Bool
  | .load accs .. | .store accs .. | .rpoll _ accs _ => accs.any fun a => (Loc.watch a.pa).isSome
  | .atomic lanes .. => lanes.any fun a => (Loc.watch a.pa).isSome
  | .ratom lanes _ _ recs => lanes.any (fun a => (Loc.watch a.pa).isSome) || recs.any fun a => (Loc.watch a.pa).isSome
  | .arrive (.glob _ _ pa) .. => (Loc.watch pa).isSome
  | .copy c => c.pages.any fun p => (Loc.watch p.ppage).isSome
  | .launch .. | .pass .. | .delta .. | .dlr .. | .filter .. | .scatter .. | .ray .. | .mma .. => true
  | _ => false

/-- An operation of the group that is older than place `seq` may still emit a watch event. -/
def owes (g : Group) (seq : Nat) : Bool := g.ops.any fun p => !p.fin && decide (p.seq < seq) && mayRecord p.kind

/-- Put a record behind those that are as old or older. -/
def queueRec (e : Nat × List Byte) (l : List (Nat × List Byte)) : List (Nat × List Byte) :=
  l.takeWhile (fun x => decide (x.1 ≤ e.1)) ++ e :: l.dropWhile (fun x => decide (x.1 ≤ e.1))

/-- Write the trace record of an agent; a group's records are written in its issue order (R414). -/
def traceWatch (s : State) (vf : Nat) (ag : Agent) (data : List Byte) : State :=
  match ag.gid.bind s.group? with
  | none => s.record vf false data
  | some g =>
    if !owes g ag.seq && g.recs.all (fun e => decide (ag.seq < e.1)) then s.record vf false data
    else s.updGroup g.id fun g => { g with recs := queueRec (ag.seq, data) g.recs }

/-- The records of a group that wait for no older operation any more are written (R414). -/
def flushRecs (s : State) (g : Group) : State :=
  let out := g.recs.takeWhile fun e => !owes g e.1
  if out.isEmpty then s
  else out.foldl (fun s e => s.record g.vf false e.2) (s.updGroup g.id fun g => { g with recs := g.recs.drop out.length })

/-- Emit the watch event of an access within one line, when a watched byte of it was accessed (R346, R420, R421). `acc` is the ACC code of R415. -/
def watch (s : State) (vf va loc n acc : Nat) (ag : Agent) : State :=
  match Loc.watch loc with
  | none => s
  | some slot =>
    match s.watchMask vf va loc slot with
    | (s, m) =>
      if m.toNat / 2 ^ (va % 64) % 2 ^ n = 0 then s
      else
        let s := s.traceWatch vf ag (bytesLE 8 ag.launch.toNat ++ bytesLE 8 (s.tickOf (s.vf vf).slice).toNat ++ bytesLE 8 va ++
          bytesLE 8 (ag.upc + 2 ^ 32 * ag.id + 2 ^ 48 * (n - 1) + 2 ^ 57 * acc + 2 ^ 60 * 2))
        match ag.gid with
        | some g => if (s.vf vf).whalt && (s.vf vf).att then s.updGroup g fun g => { g with watchHit := true } else s
        | none => s

/-- What a read at home of a piece of a line does beside reading it: the controller serves it, and it is watched (R331, R346, R420). `acc` is the kind of
the watch event. -/
def noteRead (s : State) (vf acc : Nat) (ag : Agent) (va loc n : Nat) : State := (s.serveRead vf va loc).watch vf va loc n acc ag

end State

/-- The writer that a group's operation is. -/
def Group.writer (g : Group) (seq : Nat := g.seq) : State.Writer := { core := some g.coreIx, gid := g.id, launch := g.launch, seq }

/-- The agent that a group's instruction at `pc` is (R346). -/
def Group.agent (g : Group) (pc : Word32) (seq : Nat := g.seq) : Agent := { launch := g.launchId, id := g.lastId.toNat, upc := pc.toNat, gid := some g.id, seq }

namespace State

/-! ### Page requests (R342, R343) -/

/-- The wider of two kinds (R343). -/
def AccKind.rank : AccKind → Nat
  | .read => 0 | .write => 1 | .execute => 2 | .atomic => 3

/-- A free entry number of the page-request queue. -/
def freeTag (s : State) : Nat := ((List.range 4097).find? fun t => s.prq.all fun r => r.tag ≠ t).getD 4096

/-- Put a request into the queue if an entry is there for it: a reserved one of its function, then a shared one (R342). -/
def placeRequest (s : State) (vf : Nat) (stage2 : Bool) (page : Nat) (kind : AccKind) (who : Requester) : Option State :=
  let own := (s.prq.filter fun r => r.vf = vf && r.reserved).length
  let shared := (s.prq.filter fun r => !r.reserved).length
  let bound := ((List.range 64).filter fun n => (s.vf n).bound).length
  let put (reserved : Bool) : Option State :=
    let fresh := s.prq.all fun r => r.vf ≠ vf || r.stage2 ≠ stage2 || r.taken
    let s : State := { s with prq := s.prq ++ [{ tag := s.freeTag, vf, stage2, page, kind, reserved, who := [who] }] }
    some (if !fresh then s else if s.holds vf then s.raiseIrq vf 1 else s.withhold vf (.pageIrq stage2))
  if (s.vf vf).bound && decide (own < 32) then put true else if shared < 4096 - 32 * bound then put false else none

/-- Make a page request: it joins an unserved entry of the same function, stage and page, takes an entry, or waits for one (R342). -/
def pageRequest (s : State) (vf : Nat) (stage2 : Bool) (page : Nat) (kind : AccKind) (who : Requester) : State :=
  if s.prq.any fun r => r.vf = vf && r.stage2 = stage2 && r.page = page then
    { s with prq := s.prq.map fun r =>
        if r.vf = vf && r.stage2 = stage2 && r.page = page
        then { r with kind := if AccKind.rank r.kind < AccKind.rank kind then kind else r.kind, who := r.who ++ [who] } else r }
  else match s.placeRequest vf stage2 page kind who with
    | some s => s
    | none => { s with prqWait := s.prqWait ++ [(vf, stage2, page, kind, who)] }

end State

/-! ### Acceptance (R326) -/

/-- Whether a translation permits a kind of access: stores and atomics need W, loads R, fetches X (R326). -/
def Attr.permits (a : Attr) : AccKind → Bool
  | .read => a.r
  | .write | .atomic => a.w
  | .execute => a.x

/-- A lane's request to access memory. `helper` marks a helper lane, whose own faults are not raised (R19). -/
structure LaneReq where
  lane : Nat
  va : Nat
  helper : Bool := false
deriving DecidableEq, Repr

/-- The core whose L1 an access of a function may look into: that of the issuing group. -/
def State.coreFor (s : State) (vf : Nat) : Option Nat := if s.cur.id ≠ 0 && s.cur.vf = vf then some s.cur.coreIx else none

/-- Translate each line that the requests name, each once, in lane order. -/
def State.xlatLanes (s : State) (vf : Nat) : List LaneReq → List (Nat × State.Xlat) → State × List (Nat × State.Xlat)
  | [], done => (s, done)
  | r :: rest, done =>
    if decide (2 ^ 57 ≤ r.va) || done.any (fun d => d.1 = r.va / 64) then s.xlatLanes vf rest done
    else match s.translate vf (64 * (r.va / 64)) (s.coreFor vf) with
      | (s, x) => s.xlatLanes vf rest ((r.va / 64, x) :: done)

/-- The translation that a request got. -/
def reqXlat (xs : List (Nat × State.Xlat)) (r : LaneReq) : Option State.Xlat := (xs.find? (fun d => d.1 = r.va / 64)).map (·.2)

/-- The first of the requests of active lanes that `f` answers. -/
def firstReq (rs : List LaneReq) (f : LaneReq → Option Stop) : M Unit :=
  match (rs.filter (fun r => !r.helper)).findSome? f with
  | some e => .error e
  | none => .ok ()

/-- Accept the accesses of an instruction, of `size` bytes each, or raise the first of its causes in the order of R162 (R158, R162, R326): MISALIGN,
PERM at or above 2^57, XLATE, PERM, POISON; within a cause the lowest lane's. With `rd` they need read permission too. The accesses that a helper lane may not make receive zero (R19). -/
def State.accept (s : State) (vf : Nat) (kind : AccKind) (size : Nat) (poison : Bool) (rs : List LaneReq) (rd : Bool := false) : M (State × List LaneAcc) := do
  let may (a : Attr) : Bool := a.permits kind && (!rd || a.r)
  firstReq rs fun r => if r.va % size ≠ 0 then some (.trap .misalign r.va) else none
  firstReq rs fun r => if 2 ^ 57 ≤ r.va then some (.trap .perm r.va) else none
  let (s, xs) := s.xlatLanes vf rs []
  firstReq rs fun r => match reqXlat xs r with
    | some (.missing st p) => some (.xlate st p kind r.va)
    | _ => none
  firstReq rs fun r => match reqXlat xs r with
    | some (.ok _ a) => if may a then none else some (.trap .perm r.va)
    | some (.malformed e) => some (.malformed e r.va)
    | _ => none
  let bad (loc : Nat) : Bool := poison && s.poisoned loc
  firstReq rs fun r => match reqXlat xs r with
    | some (.ok l _) => if bad (l + r.va % 64) then some (.poison (Loc.pa l / 64) r.va) else none
    | _ => none
  pure (s, rs.map fun r => match reqXlat xs r with
    | some (.ok l a) =>
      { lane := r.lane, va := r.va, pa := l + r.va % 64, zero := r.va % size ≠ 0 || !may a || bad (l + r.va % 64), attr := a }
    | _ => { lane := r.lane, va := r.va, pa := 0, zero := true })

end Sys2Proof.Machine
end

