-- ==== Sys2Proof/Machine/Diverge.lean ====
section
/-!
DEFINITION. Divergence (R101 to R109): path records, entering a header, fusing, ending splits, refilling the slots, calls and leaving lanes, as
functions of a group; and the image of the stack and the split table in the group block.
-/
set_option Elab.async false
namespace Sys2Proof.Machine
open Sys2Proof

/-- A path record, wherever it stands (R20, R24). -/
structure PathRec where
  wait : Bool
  pc : Word32
  mask : Word32
  reconv : Word32
  parent : BitVec 8
  blk : Blk
deriving DecidableEq, Repr

/-- Where a path record stands: a slot, or a place of the stack counted from the youngest entry. -/
inductive PRef | slot (b : Bool) | stk (i : Nat)
deriving DecidableEq, Repr

/-- The record of a slot. -/
def Slot.path (t : Slot) : PathRec := { wait := t.st = .waiting, pc := t.pc, mask := t.mask, reconv := t.reconv, parent := t.parent, blk := t.blk }

/-- A slot that takes a record: its window is empty (R67). -/
def PathRec.slot (p : PathRec) : Slot :=
  { st := if p.wait then .waiting else .live, pc := p.pc, mask := p.mask, reconv := p.reconv, parent := p.parent, blk := p.blk }

/-- The stack entry of a record. -/
def PathRec.entry (p : PathRec) : DivEnt := { wait := p.wait, parent := p.parent, mask := p.mask, reconv := p.reconv, pc := p.pc, blk := p.blk }
def DivEnt.path (e : DivEnt) : PathRec := { wait := e.wait, pc := e.pc, mask := e.mask, reconv := e.reconv, parent := e.parent, blk := e.blk }

/-- A frame entry, a join entry (R101). -/
def DivEnt.isFrame (e : DivEnt) : Bool := e.mask = 0 && !e.wait
def DivEnt.isJoin (e : DivEnt) : Bool := e.mask = 0 && e.wait

namespace Group

/-- The path records of a group. -/
def pathRefs (g : Group) : List PRef :=
  (if g.slot0.st = .empty then [] else [.slot false]) ++ (if g.slot1.st = .empty then [] else [.slot true]) ++
    (List.range g.stack.length).filterMap fun i => match g.stack[i]? with
      | some e => if e.mask = 0 then none else some (.stk i)
      | none => none

def path (g : Group) : PRef → PathRec
  | .slot b => (g.slot b).path
  | .stk i => ((g.stack[i]?).getD { wait := false, parent := 0, mask := 0, reconv := 0, pc := 0 }).path

/-- Replace a record in its place; a slot keeps its window, and one that stays live keeps what its instruction has come to. -/
def setPath (g : Group) (r : PRef) (p : PathRec) : Group :=
  match r with
  | .slot b =>
    if p.wait then g.setSlot b { p.slot with win := (g.slot b).win }
    else g.setSlot b { g.slot b with st := .live, pc := p.pc, mask := p.mask, reconv := p.reconv, parent := p.parent, blk := p.blk }
  | .stk i => { g with stack := g.stack.set i p.entry }

/-- Take a record away. -/
def dropPath (g : Group) : PRef → Group
  | .slot b => g.setSlot b {}
  | .stk i => { g with stack := g.stack.eraseIdx i }

/-- Whether a chain of PARENT links from `p` reaches `n`. -/
def under (g : Group) (n : Nat) : Nat → Nat → Bool
  | 0, _ => false
  | f + 1, p => p = n || (p ≠ 0 && g.under n f (tget g.split p {}).parent.toNat)

/-- The subtree of a split identifier (R101). -/
def subtree (g : Group) (n : Nat) : List PRef := g.pathRefs.filter fun r => g.under n 257 (g.path r).parent.toNat

/-- The split table with an identifier given back: VALID alone changes (R105). -/
def freed (g : Group) (n : Nat) : Vector SplitEnt 256 := tset g.split n { tget g.split n {} with valid := false }

/-- Remove the join entry that serves split `n`, if there is one, and give its target (R105). -/
def takeJoin (g : Group) (n : Nat) : Group × Option Word32 :=
  match g.stack.findIdx? (fun e => e.isJoin && e.parent.toNat = n) with
  | some i => ({ g with stack := g.stack.eraseIdx i }, (g.stack[i]?).map (·.reconv))
  | none => (g, none)

/-- The place of a record after the entry at place `i` was removed. -/
def PRef.after (i : Nat) : PRef → PRef
  | .stk j => .stk (if i < j then j - 1 else j)
  | r => r

/-- Two waiting records become one: in slot 0, in the slot, or in the place of the older entry (R104). -/
def fuse (g : Group) (r o : PRef) : Group × PRef :=
  let p : PathRec := { g.path r with mask := (g.path r).mask ||| (g.path o).mask, wait := true }
  match r, o with
  | .slot _, .slot _ => ((g.setPath (.slot false) p).dropPath (.slot true), .slot false)
  | .slot b, .stk i | .stk i, .slot b => ((g.setPath (.slot b) p).dropPath (.stk i), .slot b)
  | .stk i, .stk j => ((g.setPath (.stk (max i j)) p).dropPath (.stk (min i j)), .stk (max i j - 1))

/-- Steps of R104 and R105 still to be made: look for the partner of a waiting record, end a split. -/
inductive DivTask | settle (r : PRef) | end_ (n : Nat)
deriving DecidableEq, Repr

/-- Perform the steps of R104 (2, 3) and R105. -/
def settle : Nat → List DivTask → Group → Group
  | 0, _, g => g
  | _, [], g => g
  | f + 1, .settle r :: ts, g =>
    let p := g.path r
    match g.pathRefs.find? (fun o => o ≠ r && (g.path o).wait && (g.path o).parent = p.parent && (g.path o).pc = p.pc) with
    | none => settle f ts g
    | some o =>
      let g' := (g.fuse r o).1
      settle f (.end_ p.parent.toNat :: ts) g'
  | f + 1, .end_ n :: ts, g =>
    if n = 0 || !(tget g.split n {}).valid then settle f ts g
    else
      let up := (tget g.split n {}).parent
      match g.subtree n with
      | [] =>
        let g := (g.takeJoin n).1
        settle f (.end_ up.toNat :: ts) { g with split := g.freed n }
      | [r] =>
        let i := g.stack.findIdx? (fun e => e.isJoin && e.parent.toNat = n)
        let (g, j) := g.takeJoin n
        let r := match i with
          | some i => PRef.after i r
          | none => r
        let p := g.path r
        let reconv := j.getD noTarget
        let w := p.pc = reconv
        let g := { g.setPath r { p with parent := up, reconv, wait := w } with split := g.freed n }
        settle f ((if w then [.settle r] else []) ++ .end_ up.toNat :: ts) g
      | _ => settle f ts g

/-- Enough steps: each takes a record or a split away, or ends a task. -/
def divFuel : Nat := 4096

/-- `Enter`: the record at `r` stands at the header it enters (R104). -/
def enter (g : Group) (r : PRef) : Group :=
  let p := g.path r
  let g := if p.pc = p.reconv then g.setPath r { p with wait := true } else g
  settle divFuel [.settle r] g

/-- The youngest path entry that `f` accepts. -/
def youngest (g : Group) (f : DivEnt → Bool) : Option Nat := g.stack.findIdx? fun e => e.mask ≠ 0 && f e

/-- Step 1 of R106 for one slot. -/
def refillSlot (b : Bool) (g : Group) : Group :=
  if (g.slot b).st ≠ .empty then g
  else match g.youngest (fun _ => true) with
    | none => g
    | some i => (g.setSlot b (g.path (.stk i)).slot).dropPath (.stk i)

def anyLive (g : Group) : Bool := g.slot0.st = .live || g.slot1.st = .live

/-- Fill the slots (R106). -/
def refill (g : Group) : Group :=
  let g := refillSlot true (refillSlot false g)
  if g.anyLive then g
  else match g.youngest (fun e => !e.wait) with
    | some i =>
      let b := g.slot1.st = .waiting
      let out := (g.slot b).path
      let g := g.bankSlot b
      let p := g.path (.stk i)
      let g := g.dropPath (.stk i)
      { g.setSlot b p.slot with stack := { out.entry with wait := true } :: g.stack }
    | none =>
      let g := if g.slot0.st = .empty then { g with slot0 := g.slot1, slot1 := {} } else g
      if g.slot0.st = .waiting then { g with slot0 := { g.slot0 with st := .live, reconv := noTarget } } else g

/-- The slot is live and stands at the header that it has entered (R103, R104). -/
def atHeader (g : Group) (b : Bool) : Bool :=
  let t := g.slot b
  t.st = .live && t.blk.entry = .none && t.pc = t.blk.hdr

/-- A slot that issues from the header it has entered issues the first item of the body. -/
def startBody (g : Group) (b : Bool) : Group := if g.atHeader b then g.setSlot b { g.slot b with pc := (g.slot b).pc + 2 } else g

/-- A slot whose item has not issued stands where `old`, from which it was to issue, stood: at the header (R103, R370). -/
def unstart (old g : Group) (b : Bool) : Group :=
  let t := g.slot b
  if old.atHeader b && g.seq = old.seq && t.st = .live && t.blk = (old.slot b).blk && t.pc = (old.slot b).pc + 2 then
    g.setSlot b { t with pc := (old.slot b).pc }
  else g

/-- The lowest free split identifier (R22). -/
def freeSplit (g : Group) : Option Nat := (List.range 256).find? fun n => n ≠ 0 && !(tget g.split n {}).valid

/-- `brc` splits: the lanes `taken` of slot `b` go to `tgt` in the other slot, the others go on (R103). None when an identifier or room is missing. -/
def splitSlot (g : Group) (b : Bool) (taken tgt next rc : Word32) : Option Group :=
  let t := g.slot b
  let o := g.slot (!b)
  let need := b2n (t.reconv ≠ noTarget) + b2n (o.st ≠ .empty)
  match g.freeSplit with
  | none => none
  | some n =>
    if g.stack.length + need > 256 then none
    else
      let id := BitVec.ofNat 8 n
      let g := if o.st = .empty then g else g.bankSlot (!b)
      let st := if t.reconv = noTarget then g.stack else { wait := true, parent := id, mask := 0, reconv := t.reconv, pc := 0 } :: g.stack
      let st := if o.st = .empty then st else { o.path.entry with wait := o.st = .waiting } :: st
      let g := { g with stack := st, split := tset g.split n { valid := true, parent := t.parent } }
      let g := g.setSlot (!b) { st := .live, pc := tgt, mask := taken, reconv := rc, parent := id, blk := { entry := .hdr } }
      some (g.setSlot b { g.slot b with pc := next, mask := t.mask &&& ~~~taken, reconv := rc, parent := id })

/-- The lanes of any path record. -/
def pathLanes (g : Group) : Word32 := g.live

/-- Remove every frame entry whose RECONV shares no lane with a path record (R109). -/
def dropFrames (g : Group) : Group :=
  let m := g.pathLanes
  { g with stack := g.stack.filter fun e => !(e.isFrame && e.reconv &&& m = 0) }

/-- Lanes of quads in which some lane is live. -/
def liveQuads (live : Word32) : Word32 := maskOf fun l => [0, 1, 2, 3].any fun i => lane live (l / 4 * 4 + i)

/-- Lanes leave the issuing slot, becoming helper or exited lanes; splits that this leaves with at most one record end; the slots are refilled
(R18, R105, R109). -/
def leave (g : Group) (out : Word32) : Group :=
  let b := g.sel1
  let t := g.slot b
  let m := t.mask &&& ~~~out
  let g := if m = 0 then g.setSlot b {} else g.setSlot b { t with mask := m }
  let q := liveQuads g.live
  let helper := (g.helper ||| (if g.keepq then out else 0)) &&& q
  let g := { g with helper, exited := g.exited ||| ((g.helper ||| out) &&& ~~~helper) }
  let g := if m = 0 then settle divFuel [.end_ t.parent.toNat] g else g
  g.dropFrames.refill

end Group

/-! ### The image in memory (R23, R24) -/

/-- The 16 bytes of a divergence-stack entry (R24). -/
def DivEnt.bytes (e : DivEnt) : List Byte :=
  bytesLE 4 e.pc.toNat ++ bytesLE 4 e.reconv.toNat ++ bytesLE 4 e.mask.toNat ++ bytesLE 4 (e.parent.toNat + 2 ^ 16 * b2n e.wait)

/-- The 4 bytes of a split-table entry (R24). -/
def SplitEnt.bytes (e : SplitEnt) : List Byte := bytesLE 4 (e.parent.toNat + 256 * b2n e.valid)

/-- The entries of the stack and of the split table that a step changes, each with its offset in the group block and whether it stood there before:
the step reads those and writes what now stands (R24). A stack entry stands at 16 times its place from the oldest. -/
def Group.divChanges (old g : Group) : List (Nat × Option (List Byte) × Bool) :=
  let stk (l : List DivEnt) (k : Nat) : Option DivEnt := if k < l.length then l[l.length - 1 - k]? else none
  (if g.stack = old.stack then [] else
    (List.range (max g.stack.length old.stack.length)).filterMap fun k =>
      if stk g.stack k = stk old.stack k then none else some (16 * k, (stk g.stack k).map DivEnt.bytes, (stk old.stack k).isSome)) ++
  (if g.split = old.split then [] else
    (List.range 256).filterMap fun n =>
      if tget g.split n {} = tget old.split n {} then none else some (0x1000 + 4 * n, some (tget g.split n {}).bytes, true))

/-- The accesses of a kind that the core makes to a group's stack and split table, as lanes of one instruction of the group (R24). -/
def Group.divReqs (g : Group) (offs : List Nat) : List LaneReq := offs.map fun o => { lane := 0, va := (g.saveb.toNat + o) % 2 ^ 64 }

/-- What stops a step from changing the stack and the split table in memory: a cause that one of its accesses raises, as an access of the group (R24). -/
def State.mirrorStop (s : State) (old : Group) : Option Stop :=
  if s.cur.id ≠ old.id then none
  else match old.divChanges s.cur with
    | [] => none
    | ch =>
      match s.accept s.cur.vf .read 1 true (s.cur.divReqs ((ch.filter (·.2.2)).map (·.1))) with
      | .error e => some e
      | .ok (s, _) =>
        match s.accept s.cur.vf .write 1 false (s.cur.divReqs ((ch.filter (·.2.1.isSome)).map (·.1))) with
        | .error e => some e
        | .ok _ => none

/-- Write bytes of a group's block as the core does, as a write of the group where the block translates (R24). -/
def State.coreWrite (s : State) (vf va : Nat) (data : List Byte) (w : State.Writer) (ag : Agent) : State :=
  if 2 ^ 57 ≤ va then s
  else match s.translate vf va with
    | (s, .ok loc a) => if a.w then (s.write vf va loc data { w with own := true }).watch vf va loc data.length 1 ag else s
    | (s, _) => s

/-- What a read of bytes of a group's block does beside reading them, where the block translates for reading (R24, R331, R346). -/
def State.coreNote (s : State) (vf va n : Nat) (ag : Agent) : State :=
  if 2 ^ 57 ≤ va then s
  else match s.translate vf va with
    | (t, .ok loc a) => if a.r then t.noteRead vf 0 ag va loc n else s
    | (_, _) => s

/-- Read and write the entries of the stack and of the split table that a step has changed (R24). -/
def State.mirror (s : State) (old : Group) : State :=
  if s.cur.id ≠ old.id then s
  else
    let at_ (e : Nat × Option (List Byte) × Bool) : Nat := s.cur.saveb.toNat + e.1
    let ag := s.cur.agent s.cur.me.pc
    (old.divChanges s.cur).foldl (fun s e =>
      let s := if e.2.2 then s.coreNote s.cur.vf (at_ e) (if e.1 < 0x1000 then 16 else 4) ag else s
      match e.2.1 with
      | some b => s.coreWrite s.cur.vf (at_ e) b s.cur.writer ag
      | none => s) s

/-- A divergence step of a group whose stack or split table software has written is unpredictable (R24). -/
def Group.divGuard (g : Group) : M Unit := if g.divTouched then .error (.fault .unpredictable) else .ok ()

end Sys2Proof.Machine
end

