-- ==== Sys2Proof/Machine/Issue.lean ====
section
/-!
DEFINITION. Issue: fetching units, entering blocks, the checks every instruction makes before its own, the window and the program counter after it
(R47 to R53, R58 to R72, R36).
-/
set_option Elab.async false
namespace Sys2Proof.Machine
open Sys2Proof

/-! ### Stops -/

/-- The page-request wait of an instruction, or of an entry, at unit `pc` of slot `b` (R36). -/
def State.waitPage (s : State) (b : Bool) (pc : Word32) (st : Bool) (page : Nat) (kind : AccKind) (va : Nat) (entry : Bool := false) : State :=
  let g := s.cur
  let s := s.setCur { g with pageWait := some { cause := .perm, slot1 := b, pc, addr := BitVec.ofNat 64 va, entry } }
  s.pageRequest g.vf st page kind (.group g.id)

/-- Raise a trap of slot `b` at unit `pc` (R36). -/
def State.raiseAt (s : State) (b : Bool) (pc : Word32) (c : Cause) (addr : Nat) (entry : Bool := false) : State :=
  s.raise s.cur.id { cause := c, slot1 := b, pc, addr := BitVec.ofNat 64 addr, entry }

/-- What becomes of a slot whose instruction, or whose entry, stops at unit `pc`: the trap, the page request, the stall or the fault; `entry` says that
the stop concerns the header at `pc`, which a branch of the slot names (R50). -/
def State.stopAt (s : State) (b : Bool) (pc : Word32) (e : Stop) (entry : Bool := false) : Out :=
  match e with
  | .trap c addr => .next (s.raiseAt b pc c addr entry)
  | .xlate st page kind va => .next (s.waitPage b pc st page kind va entry)
  | .malformed e va => .next ((s.logError (s.vf s.cur.vf).slice 0x02 0xFF s.cur.vf 0 e s.cur.launchId).raiseAt b pc .perm va entry)
  | .poison line va => .next (((s.logLost (64 * line)).logError (s.vf s.cur.vf).slice 0x01 0xFF s.cur.vf 0 (64 * line) s.cur.launchId).raiseAt b pc .poison va entry)
  | .stall =>
    let g := s.cur
    let t := g.slot b
    .next (s.setCur (g.setSlot b (if t.wait.isNone then { t with wait := some s.steps } else t)))
  | .wait b' gen =>
    let g := s.cur
    let t := g.slot b
    .next (s.setCur (g.setSlot b { t with tw := some (b', gen), wait := some (t.wait.getD s.steps) }))
  | .fault f => .fault f
  | .item pc e => s.stopAt b pc e true

/-! ### Fetch (R50) -/

/-- Read one unit of the kernel, through the L1 (R50, R324). After a store to the code range a unit holds its value at launch start or a value stored
since: DESIGN CHOICE, the model takes the L1's copy of the line where there is one, else what its home holds at the fetch (log entry 63). A poisoned line
raises POISON, as any read does (R397; log entry 17). -/
def State.fetchUnit (s : State) (off : Nat) : M (State × Word32) :=
  let g := s.cur
  let va := (g.kbase.toNat + 4 * off) % 2 ^ 64
  if 2 ^ 57 ≤ va then .error (.trap .perm va)
  else match s.translate g.vf va (some g.coreIx) with
    | (_, .missing st p) => .error (.xlate st p .execute va)
    | (_, .malformed e) => .error (.malformed e va)
    | (s, .ok loc a) =>
      if !a.x then .error (.trap .perm va)
      else if s.poisoned loc then .error (.poison (Loc.pa loc / 64) va)
      else
        let s := s.watch g.vf va loc 4 0 (g.agent (BitVec.ofNat 32 off))
        match s.l1At g.coreIx g.vf va with
        | some e => .ok (s, BitVec.ofNat 32 (natLE ((e.bytes.drop (va % 64)).take 4)))
        | none => .ok (s.fillL1 g.coreIx g.vf va loc a false, BitVec.ofNat 32 (natLE (s.homeRead loc 4)))

/-- The units of a kernel (R40). -/
def Group.codeUnits (g : Group) : Nat := g.codeEnd

/-- The checks of R53 on a target; the stop of a unit that cannot be fetched concerns the item there (R50). -/
def State.checkTarget (s : State) (tgt : Nat) : M State :=
  if tgt % 2 ≠ 0 || decide (tgt < 16) || decide (s.cur.codeUnits ≤ tgt) then .error (.trap .badTarget 0)
  else match s.fetchUnit tgt with
    | .error e => .error (.item (BitVec.ofNat 32 tgt) e)
    | .ok (s, u) => if unitKind u ≠ 2 then .error (.trap .badTarget 0) else .ok s

/-! ### Block entry (R48, R52, R104) -/

/-- Check the header at unit `h`, and give the block (R51, R52). -/
def State.readHeader (s : State) (h : Word32) : M (State × Blk) := do
  let (s, u0) ← s.fetchUnit h.toNat
  let (s, u1) ← s.fetchUnit (h.toNat + 1)
  let d := decodeHeader (u1 ++ u0)
  if d.rsv || d.len = 0 || decide (s.cur.codeUnits < h.toNat + 2 + d.len.toNat) then .error (.trap .illegal 0)
  else pure (s, { hdr := h, bend := h + 2 + d.len.setWidth 32, rc := d.reconv, entry := .none })

/-- Enter the block at the slot's program counter: its window leaves, and R104 applies unless it is a trap handler's entry. -/
def State.enterBlock (s : State) (b : Bool) (join : Bool) : M State := do
  let (s, k) ← s.readHeader (s.cur.slot b).pc
  let g := s.cur.bankSlot b
  let g := g.setSlot b { g.slot b with blk := k }
  pure (s.setCur (if join then (g.enter (.slot b)).refill else g))

/-- Pass the padding unit at the slot's program counter: it must hold zero (R48). -/
def State.passPad (s : State) (b : Bool) : M State :=
  let t := s.cur.slot b
  if t.blk.entry ≠ .pad then pure s
  else do
    let (s, u) ← s.fetchUnit t.pc.toNat
    if u ≠ 0 then .error (.trap .illegal 0)
    else pure (s.setCur (s.cur.setSlot b { t with pc := t.pc + 1, blk := { t.blk with entry := .fall } }))

/-- The checks of an entry once its padding is passed, and the entry (R52, R53). DESIGN CHOICE: at a trap handler the model makes the checks of R53 and
R52 at the vector's own unit, and takes no step of R104 (log entry 64). -/
def State.passHeader (s : State) (b : Bool) : M State :=
  let t := s.cur.slot b
  match t.blk.entry with
  | .none | .pad => pure s
  | .hdr => s.enterBlock b true
  | .vec => do
    let s ← s.checkTarget t.pc.toNat
    s.enterBlock b false
  | .fall =>
    if s.cur.codeUnits ≤ t.pc.toNat then .error (.trap .badTarget 0)
    else do
      let (s, u) ← s.fetchUnit t.pc.toNat
      if unitKind u ≠ 2 then .error (.trap .illegal 0) else s.enterBlock b true

/-- Make the entry that slot `b` has pending. A check that fails raises its trap at the unit checked, and the entry stays pending (R48, R52, R110). -/
def State.makeEntry (s : State) (b : Bool) : Out :=
  match s.passPad b with
  | .error e => s.stopAt b (s.cur.slot b).pc e
  | .ok s =>
    match s.passHeader b with
    | .error e => s.stopAt b (s.cur.slot b).pc e
    | .ok s => .next s

/-! ### Operand numbers, active lanes (R58, R63, R64) -/

/-- A register number after indexing (R64). -/
def idxReg (on : Bool) (n : BitVec 8) (x : BitVec 16) : Nat := n.toNat + if on then x.toNat else 0

end Sys2Proof.Machine

namespace Sys2Proof.Ctl
def idxD (c : Ctl) : Bool := match c.pre with | some p => p.idxD | none => false
def idxA (c : Ctl) : Bool := match c.pre with | some p => p.idxA | none => false
def idxB (c : Ctl) : Bool := match c.pre with | some p => p.idxB | none => false
def idxC (c : Ctl) : Bool := match c.pre with | some p => p.idxC | none => false
def zero (c : Ctl) : Bool := match c.pre with | some p => p.zero | none => false
def mask (c : Ctl) : Option (BitVec 6) := match c.pre with | some p => p.mask | none => none
def rmode (c : Ctl) : Option Rounding := match c.pre with | some p => p.rmode | none => none
/-- Units of the instruction (R47, R61). -/
def units (c : Ctl) : Nat := if c.pre.isSome then 3 else 2
end Sys2Proof.Ctl

namespace Sys2Proof.Machine
open Sys2Proof

namespace Group
def rD (g : Group) (c : Ctl) (n : BitVec 8) : Nat := idxReg c.idxD n g.x
def rA (g : Group) (c : Ctl) (n : BitVec 8) : Nat := idxReg c.idxA n g.x
def rB (g : Group) (c : Ctl) (n : BitVec 8) : Nat := idxReg c.idxB n g.x
def rC (g : Group) (c : Ctl) : Nat := idxReg c.idxC c.srcC g.x

/-- The lanes that pass the guard (R58). -/
def guardLanes (g : Group) (c : Ctl) : Word32 := maskOf fun l => g.readP c.guard.toNat l != c.gneg

/-- The active lanes of an instruction of the issuing slot (R58, R63). -/
def active (g : Group) (c : Ctl) : Word32 :=
  g.me.mask &&& g.guardLanes c &&& (match c.mask with | some m => maskOf (g.readP m.toNat) | none => allLanes)

/-- Whether a group-level instruction takes effect (R58). -/
def passes (g : Group) (c : Ctl) : Bool := g.me.mask &&& g.guardLanes c ≠ 0

/-- The helper lanes that execute with the issuing slot. -/
def helpers (g : Group) : Word32 := g.helpersOf g.sel1

/-- The helper lanes that a per-lane instruction writes: none when no lane is active (R59). -/
def helpersFor (g : Group) (c : Ctl) : Word32 := if g.active c = 0 then 0 else g.helpers

/-- The lanes that the zero clause writes (R63). -/
def zeroLanes (g : Group) (c : Ctl) : Word32 := if c.zero then g.me.mask &&& ~~~(g.active c) else 0

/-- The lanes that a per-lane result with helper lanes is written in. -/
def written (g : Group) (c : Ctl) : Word32 := g.active c ||| g.helpersFor c ||| g.zeroLanes c

/-- The declared count of a class (R25). -/
def count (g : Group) : RClass → Nat
  | .v => g.nv | .s => g.ns | .p => g.np | .h => g.ntiles | .a => g.na | .w => 16

/-- An operand below its declared count after indexing; p63 is exempt (R25, R30). -/
def inRange (g : Group) (idx : Bool) : Option Opnd → Bool
  | none => true
  | some o => let n := idxReg idx o.num g.x; decide (n + o.span ≤ g.count o.cls) || (o.cls = .p && n = 63)

/-- Step 4 of R72: every register an instruction names is below its declared count. -/
def rangeOk (g : Group) (i : Instr) (c : Ctl) : Bool :=
  let o := i.operands
  g.inRange c.idxD o.d && g.inRange c.idxA o.a && g.inRange c.idxB o.b && g.inRange c.idxC o.c && g.inRange false o.cp &&
  g.inRange false (Opnd.of .p (c.guard.setWidth 8)) && (match c.mask with | some m => g.inRange false (Opnd.of .p (m.setWidth 8)) | none => true)

/-- Kill the window writes of every register of a killed operand (R67). -/
def killOpnd (g : Group) (idx : Bool) : Option Opnd → Group
  | none => g
  | some o => if o.kill then (List.range o.span).foldl (fun g k => g.killReg o.cls (idxReg idx o.num g.x + k)) g else g

/-- The kill bits of an instruction act (R67; log entry 18). -/
def kills (g : Group) (i : Instr) (c : Ctl) (x : BitVec 16) : Group :=
  let y := g.x
  let o := i.operands
  let g' := ({ g with x := x }.killOpnd c.idxA o.a).killOpnd c.idxB o.b
  { g' with x := y }

/-- A result for the lanes of a per-lane instruction; lanes of the zero clause take zero. -/
def laneWrite (g : Group) (c : Ctl) (cls : RClass) (reg : Nat) (f : Nat → Word64) : RegWrite :=
  let z := g.zeroLanes c
  { cls, reg, lanes := g.written c, val := Lanes.gen fun l => if lane z l then 0 else f l }

/-- A uniform result. -/
def uniWrite (reg : Nat) (v : Word64) : RegWrite := { cls := .s, reg, lanes := allLanes, val := Lanes.const v }
end Group

end Sys2Proof.Machine

namespace Sys2Proof

/-! ### Commit classes (R65, R73) -/

/-- The destinations that an L instruction adds to those not committed; `ring.pop` counts from its handle (R368). -/
def Instr.pendCount (i : Instr) : Nat :=
  let l : Bool := match i with
    | .sld .. | .frcp .. | .frsq .. | .fsqrt .. | .fexp2 .. | .flog2 .. | .fsin .. | .fcos .. | .shfl .. | .qswp .. | .red .. | .scan .. | .append ..
    | .match_ .. | .ld .. | .ldt .. | .lda .. | .atom .. | .rpoll .. | .tqry .. | .tbarTestPh .. | .tbarTestBrk .. | .mxdrn .. | .dlrStat .. | .texS ..
    | .texL .. | .texQDim .. | .texQLod .. | .hgFetch .. | .rayGet .. => true
    | _ => false
  match l, i.operands.d with
  | true, some o => o.span
  | _, _ => 0

end Sys2Proof

namespace Sys2Proof.Machine
open Sys2Proof

/-! ### Issue of one instruction -/

/-- The slot's program counter moves on to the next item; at the end of its block the next block is entered (R48, R52). -/
def State.advance (s : State) (n : Nat) : Out :=
  let g := s.cur
  let b := g.sel1
  let t := g.me
  let next := t.pc + BitVec.ofNat 32 n
  let t := { t with pc := next, parked := false, wait := none, tw := none, woken := none }
  if next = t.blk.bend then
    (s.setCur (g.setSlot b { t with blk := { t.blk with entry := if next.toNat % 2 = 1 then .pad else .fall } })).makeEntry b
  else .next (s.setCur (g.setSlot b t))

/-- The commit park before an instruction: none when it cannot be taken yet; once taken it is not taken again (R66). -/
def State.takePark (s : State) (park : Bool) : Option State :=
  let g := s.cur
  if !park || g.me.parked then some s
  else if g.returned then
    let g := g.commit
    some (((s.setCur (g.setMe { g.me with parked := true, parking := false })).publishW g.id g.wg).finishAllocs g.id g.wg)
  else none

/-- Keep the image of the divergence state in step with the group, which was `old`; where memory does not let the step do so, the step is not made, and
the slot of state `s` stops at `pc` (R24). -/
def mirrored (old : Group) (s : State) (b : Bool) (pc : Word32) : Out → Out
  | .next t => match t.mirrorStop old with
    | none => .next (t.mirror old)
    | some e => s.stopAt b pc e
  | o => o

/-- Make the pending entry of a slot that has not issued: the steps of R104 to R106 reach the image too (R24). -/
def State.enterPending (s : State) (b : Bool) : Out := mirrored s.cur s b (s.cur.slot b).pc (s.makeEntry b)

/-- What an instruction's own part gives: the state with its effect, the write of an S instruction, and how its slot goes on. -/
abbrev Effect := State × Option RegWrite × (State → Out)

/-- The group has issued an instruction (R366, R370). -/
def Group.issued (g : Group) (step : Nat) : Group := { g with seq := g.seq + 1, issuedAt := step, last1 := g.sel1, yielded := false }

/-- ISSUE OF AN INSTRUCTION that passed decode (R72): REG_RANGE, its commit park, the count of uncommitted destinations, then its own checks and effect
(`body`), its kill bits, its place in the window, and how its slot goes on. DESIGN CHOICE: its kill bits act whether or not a lane passes its guard
(log entry 18). -/
def runWith (i : Instr) (c : Ctl) (park : Bool) (body : State → M Effect) (s : State) : Out :=
  let g := s.cur
  let b := g.sel1
  let pc := g.me.pc
  if !g.rangeOk i c then s.stopAt b pc (.trap .regRange 0)
  else match s.takePark park with
    | none => .next (s.setCur (s.cur.setMe { s.cur.me with parking := true }))
    | some s =>
      if i.pendCount ≠ 0 && decide (128 < s.cur.uncommitted + i.pendCount) then s.stopAt b pc (.trap .illegal 0)
      else match body s with
        | .error e => s.stopAt b pc e
        | .ok (t, w, go) =>
          let h := (t.cur.kills i c s.cur.x).pushWin w
          mirrored g s b pc (go (t.setCur (h.issued s.steps)))

/-- Issue of an instruction that goes on to the next item. -/
def runInstr (i : Instr) (c : Ctl) (body : State → M (State × Option RegWrite)) (s : State) : Out :=
  runWith i c c.mark (fun s => do let (t, w) ← body s; pure (t, w, fun s => s.advance c.units)) s

/-- A group-level body takes effect only when some lane passes the guard (R58). -/
def groupLevel (c : Ctl) (body : State → M (State × Option RegWrite)) (s : State) : M (State × Option RegWrite) :=
  if s.cur.passes c then body s else .ok (s, none)

/-- A body that changes the group alone. -/
def onGroup (f : Group → Group) (s : State) : M (State × Option RegWrite) := .ok (s.setCur (f s.cur), none)

/-- The short-latency result of an instruction, with its flags (R35, R65). -/
def shortResult (f : Group → Option RegWrite × BitVec 6) (s : State) : M (State × Option RegWrite) :=
  let (w, fl) := f s.cur
  .ok (s.setCur { s.cur with fpflags := s.cur.fpflags ||| fl }, w)

/-- A long-latency result that is there at once and commits at the next park (R65). -/
def longResult (f : Group → RegWrite × BitVec 6) (s : State) : M (State × Option RegWrite) :=
  let (w, fl) := f s.cur
  .ok (s.setCur (s.cur.addPend w.cls w.reg w.lanes w.val true fl), none)

/-- An instruction that would raise a full counter stalls; a throttled core's late groups stall on loads (R32, R367). -/
def State.pathFree (s : State) (p : Path) : M Unit :=
  let g := s.cur
  if 255 ≤ g.counter p then .error .stall
  else if p = .load && decide (16 / 2 ^ (s.coreAt g.coreIx).level ≤ g.gslot % 16) then .error .stall
  else .ok ()

/-- Transfer the issuing slot to a header (R53, R104). -/
def State.transfer (s : State) (tgt : Word32) : Out :=
  let g := s.cur
  let b := g.sel1
  (s.setCur (g.setSlot b { g.me with pc := tgt, parked := false, wait := none, tw := none, woken := none, blk := { g.me.blk with entry := .hdr } })).makeEntry b

/-- A slot may issue now: it is live, its group neither waits nor stands at the other slot's commit park, and no handler runs in the other slot (R20, R36,
R66, R114). -/
def Group.canIssue (g : Group) (b : Bool) : Bool :=
  g.id ≠ 0 && (g.slot b).st = .live && g.waitg = 0 && g.pendTrap.isNone && g.pageWait.isNone && g.halt.isNone && g.stopped.isNone && !g.ended &&
  !(g.slot (!b)).parking && (g.priv = .u || g.trapcause.getLsbD 4 = b)

/-- The issuing slot stands at the item that it issues next: behind the header that it has entered (R103). -/
def State.atItem (s : State) : State := s.setCur (s.cur.startBody s.cur.sel1)

/-- What an attempt to issue has come to, from the group `old`: a slot whose item has not issued stands where it stood (R103, R370). -/
def State.unstarted (old : Group) (b : Bool) (u : State) : State := if u.cur.id = old.id then u.setCur (old.unstart u.cur b) else u

/-- Fetch and decode the item that the issuing slot issues next (R47, R72 steps 1 to 3). -/
def State.fetchItem (s : State) : M (State × Instr) := do
  let s := s.atItem
  let t := s.cur.me
  let left := (t.blk.bend - t.pc).toNat
  let at_ := t.pc.toNat
  let (s, u0) ← s.fetchUnit at_
  let (s, u1) ← if unitKind u0 ≤ 1 && decide (2 ≤ left) then s.fetchUnit (at_ + 1) else pure (s, 0)
  let (s, u2) ← if unitKind u0 = 1 && unitKind u1 = 0 && decide (3 ≤ left) then s.fetchUnit (at_ + 2) else pure (s, 0)
  match decodeUnits left u0 u1 u2 with
  | .ok (i, _) => pure (s, i)
  | .error _ => .error (.trap .illegal 0)

end Sys2Proof.Machine
end

