-- ==== Sys2Proof/Machine/Operands.lean ====
section
/-!
DEFINITION. Operand forms: sub-elements (R26, R127), uniform sources and immediates (R120, R128), global, tile and lane addresses (R158, R163).
-/
set_option Elab.async false
namespace Sys2Proof.Machine
open Sys2Proof

/-! ### Sub-elements -/

/-- Sub-element `k` of width `w` (R26). -/
def subEl (w : Nat) (v : Word64) (k : Nat) : Nat := v.toNat / 2 ^ (w * k) % 2 ^ w

/-- The lane value of a list of sub-elements of width `w`, the first the least significant. -/
def packSubs (w : Nat) : List Nat → Nat
  | [] => 0
  | x :: r => x % 2 ^ w + 2 ^ w * packSubs w r

/-- Sub-elements of width `w` in a lane. -/
def subCount (w : Nat) : Nat := 64 / w

/-- A lane value whose sub-element `k` is `f k`. -/
def bySub (w : Nat) (f : Nat → Nat) : Word64 := BitVec.ofNat 64 (packSubs w ((List.range (subCount w)).map f))

/-- The same with the flags that its sub-elements raise (R127). -/
def bySubF (w : Nat) (f : Nat → Flagged Nat) : Flagged Word64 :=
  let r := (List.range (subCount w)).map f
  (BitVec.ofNat 64 (packSubs w (r.map (·.1))), r.foldl (fun a x => a ||| x.2) 0)

/-! ### Sources -/

/-- Source B of a vector instruction in a lane: a vector register, or a uniform one under UNI (R128). -/
def Group.srcB (g : Group) (c : Ctl) (uni : Bool) (b : Src) (l : Nat) : Word64 :=
  if uni then g.readS (g.rB c b.reg) else g.readV (g.rB c b.reg) l

/-- Source B of a uniform instruction: a register, or the sign-extended 16-bit immediate (R120). -/
def Group.ubVal (g : Group) (c : Ctl) : UB → Word64
  | .reg r => g.readS (g.rB c r.reg)
  | .imm n => n.signExtend 64

/-- Source A of a vector instruction in a lane. -/
def Group.srcA (g : Group) (c : Ctl) (a : Src) (l : Nat) : Word64 := g.readV (g.rA c a.reg) l

/-- A uniform source A. -/
def Group.uniA (g : Group) (c : Ctl) (a : Src) : Word64 := g.readS (g.rA c a.reg)
/-- A uniform source B. -/
def Group.uniB (g : Group) (c : Ctl) (b : Src) : Word64 := g.readS (g.rB c b.reg)
/-- Operand C of a vector instruction in a lane. -/
def Group.srcC (g : Group) (c : Ctl) (l : Nat) : Word64 := g.readV (g.rC c) l

/-! ### Results -/

/-- A per-lane result with the flags of its active lanes (R127). -/
def Group.laneResult (g : Group) (c : Ctl) (cls : RClass) (reg : Nat) (f : Nat → Flagged Word64) : RegWrite × BitVec 6 :=
  let act := g.active c
  let rs : Lanes (Flagged Word64) := Lanes.gen fun l => if lane (g.written c) l then f l else (0, 0)
  (g.laneWrite c cls reg fun l => (rs.get l (0, 0)).1,
   laneList.foldl (fun a l => if lane act l then a ||| (rs.get l (0, 0)).2 else a) 0)

/-- A Bool as a predicate value. -/
def predVal (b : Bool) : Word64 := if b then 1 else 0

/-- The write of a lane result, none where no lane is written. -/
def someWrite (r : RegWrite × BitVec 6) : Option RegWrite × BitVec 6 := (if r.1.lanes = 0 then none else some r.1, r.2)

/-- A short-latency per-lane instruction (R65, R127). -/
def laneShort (c : Ctl) (cls : RClass) (reg : Group → Nat) (f : Group → Nat → Flagged Word64) (s : State) : M (State × Option RegWrite) :=
  shortResult (fun g => someWrite (g.laneResult c cls (reg g) (f g))) s

/-- A long-latency per-lane instruction whose results are there at issue (R65, R144, R151). -/
def laneLong (c : Ctl) (cls : RClass) (reg : Group → Nat) (f : Group → Nat → Flagged Word64) (s : State) : M (State × Option RegWrite) :=
  longResult (fun g => g.laneResult c cls (reg g) (f g)) s

/-- The result of a uniform instruction, which takes effect once for the group (R58, R120). -/
def uniShort (c : Ctl) (d : BitVec 8) (f : Group → Flagged Word64) : State → M (State × Option RegWrite) :=
  groupLevel c (shortResult fun g => let r := f g; (some (Group.uniWrite (g.rD c d) r.1), r.2))

/-! ### Addresses -/

/-- The lanes of a memory access: active lanes, and helper lanes of a load (R19, R160). -/
def Group.accLanes (g : Group) (c : Ctl) (helpers : Bool) : List (Nat × Bool) :=
  let a := g.active c
  let h := if helpers then g.helpersFor c else 0
  laneList.filterMap fun l => if lane a l then some (l, false) else if lane h l then some (l, true) else none

/-- The address of a global access in a lane (R158). -/
def Group.globalVa (g : Group) (c : Ctl) (a : Src) (b : Option Src) (off : BitVec 8) (l : Nat) : Nat :=
  (g.uniA c a + (match b with | some b => g.readV (g.rB c b.reg) l | none => 0) + off.signExtend 64).toNat

/-- The byte offset of a tile access in a lane, without wrapping (R163). -/
def Group.tileOff (g : Group) (c : Ctl) (b : Src) (off : BitVec 8) (l : Nat) : Nat := (g.readV (g.rB c b.reg) l).toNat + off.toNat

/-- Bytes of a type in memory. -/
def tyBytes (t : Sys2Proof.Ty) : Nat := t.width / 8

/-- A loaded value extended to a register (R160). -/
def extend (sgn : Bool) (bytes : List Byte) : Word64 :=
  if sgn then BitVec.ofInt 64 (signedOf (8 * bytes.length) (natLE bytes)) else BitVec.ofNat 64 (natLE bytes)

end Sys2Proof.Machine
end

