-- ==== Sys2Proof/Machine/Flags.lean ====
section
/-!
DEFINITION. The flag computations that instructions share: which control an instruction rounds under, and the sticky flags of integer and
floating-point results (R33 to R35, R76, R80).
-/
set_option Elab.async false
namespace Sys2Proof.Machine
open Sys2Proof

/-- The floating-point control an instruction issues under (R35, R83). -/
def Group.fctl (g : Group) : FCtl := fctlOf g.fpctl

/-- Its rounding mode: the prefix's clause, else RND (R33, R60). -/
def Group.rmode (g : Group) (c : Ctl) : Rounding := c.rmode.getD g.fctl.rnd

/-- An exact integer result of a type in each sub-element, wrapped or saturated with SI (R76, R131). -/
def intSubs (t : Ty) (sat : Bool) (f : Nat → Int) : Flagged Word64 := bySubF t.width fun k => fitInt t sat (f k)

/-- Sub-element `k` read with the signedness of a type (R131). -/
def intSub (t : Ty) (v : Word64) (k : Nat) : Int := intOf t (subEl t.width v k)

/-- A uniform value read as a type gives (R121). -/
def uniInt (t : Ty) (v : Word64) : Int := intOf t v.toNat

/-- A uniform result fitted to a type and extended: by sign for `.i32`, by zeros for the other 32-bit types (R121). -/
def uniFit (t : Ty) (sat : Bool) (v : Int) : Flagged Word64 :=
  let (n, f) := fitInt t sat v
  (BitVec.ofInt 64 (intOf t n), f)

/-- A comparison of two integers (R122). -/
def cmpHolds (cc : Cmp) (a b : Int) : Bool :=
  match cc with
  | .eq => a = b | .ne => a ≠ b | .lt => a < b | .le => a ≤ b | .gt => a > b | .ge => a ≥ b

/-- A left shift in a width; a count at or above it gives 0 (R121, R132). -/
def shiftLeft (w a n : Nat) : Nat := if w ≤ n then 0 else a * 2 ^ n % 2 ^ w
/-- A right shift with zero fill. -/
def shiftRight (w a n : Nat) : Nat := if w ≤ n then 0 else a % 2 ^ w / 2 ^ n
/-- A right shift with sign fill. -/
def shiftSign (w a n : Nat) : Nat := lowBits w (signedOf w a / 2 ^ min n w)

end Sys2Proof.Machine
end

