-- ==== Sys2Proof/Machine/Control.lean ====
section
/-!
DEFINITION. Control and system instructions but for `launch` (R99 to R119).
-/
set_option Elab.async false
namespace Sys2Proof.Machine
open Sys2Proof

/-! ### Branches (R100 to R108) -/

/-- The target of `br`, `brc` and `call`: a signed offset from the instruction's own unit (R100). A sum outside the 32 bits is no header. -/
def Group.target (g : Group) (imm : BitVec 27) : Nat :=
  let t : Int := (g.me.pc.toNat : Int) + imm.toInt
  if t < 0 then 1 else t.toNat

/-- How a branch goes on: to its header when it is taken, else to the next item (R101). -/
def goIf (taken : Bool) (tgt n : Nat) : State → Out := fun s => if taken then s.transfer (BitVec.ofNat 32 tgt) else s.advance n

def execBr (c : Ctl) (imm : BitVec 27) (s : State) : Out :=
  runWith (.br c imm) c c.mark (fun s => do
    let tgt := s.cur.target imm
    let s ← s.checkTarget tgt
    pure (s, none, goIf (s.cur.passes c) tgt c.units)) s

/-- `jmp`: the target is a unit offset in S[A] (R100). -/
def execJmp (c : Ctl) (a : Src) (s : State) : Out :=
  runWith (.jmp c a) c c.mark (fun s => do
    let tgt := (s.cur.uniA c a).toNat
    trapIf (decide (2 ^ 32 ≤ tgt)) .badTarget
    let s ← s.checkTarget tgt
    pure (s, none, goIf (s.cur.passes c) tgt c.units)) s

/-- Both slots of a split go on: the other enters the target, the issuing one its next item (R103). -/
def goSplit (n : Nat) (split : Group → Option Group) (s : State) : Out :=
  let g := s.cur
  let b := g.sel1
  match split g with
  | none => .next s
  | some g =>
    let t := g.slot b
    let next := t.pc + BitVec.ofNat 32 n
    let t := { t with pc := next, parked := false, wait := none, tw := none, woken := none }
    let t := if next = t.blk.bend then { t with blk := { t.blk with entry := if next.toNat % 2 = 1 then .pad else .fall } } else t
    match (s.setCur (g.setSlot b t)).makeEntry (!b) with
    | .next s => if s.cur.canIssue b then s.makeEntry b else .next s
    | o => o

/-- `brc` (R103). -/
def execBrc (c : Ctl) (imm : BitVec 27) (s : State) : Out :=
  runWith (.brc c imm) c c.mark (fun s => do
    let tgt := s.cur.target imm
    let s ← s.checkTarget tgt
    let g := s.cur
    let m := g.me.mask
    let t := m &&& g.guardLanes c
    if t = 0 then pure (s, none, goIf false tgt c.units)
    else if t = m then pure (s, none, goIf true tgt c.units)
    else do
      let rc : Int := (g.me.blk.hdr.toNat : Int) + g.me.blk.rc.toInt
      let s ← if g.me.blk.rc = 0 then pure s else s.checkTarget (if rc < 0 then 1 else rc.toNat)
      g.divGuard
      let rcw := if g.me.blk.rc = 0 then noTarget else BitVec.ofInt 32 rc
      let split (g : Group) : Option Group := g.splitSlot g.sel1 t (BitVec.ofNat 32 tgt) g.me.pc rcw
      trapIf (split g).isNone .divergeDepth
      pure (s, none, goSplit c.units split)) s

/-- `call`: a frame entry keeps where the slot goes on after it (R108). -/
def execCall (c : Ctl) (imm : BitVec 27) (s : State) : Out :=
  runWith (.call c imm) c c.mark (fun s => do
    let tgt := s.cur.target imm
    let s ← s.checkTarget tgt
    let g := s.cur
    if !g.passes c then pure (s, none, goIf false tgt c.units)
    else do
      g.divGuard
      trapIf (decide (256 ≤ g.stack.length)) .divergeDepth
      let next := g.me.pc + BitVec.ofNat 32 c.units
      let back := if next = g.me.blk.bend && next.toNat % 2 = 1 then next + 1 else next
      let e : DivEnt := { wait := false, parent := g.me.parent, mask := 0, reconv := g.me.mask, pc := back }
      pure (s.setCur { g with stack := e :: g.stack }, none, goIf true tgt c.units)) s

/-- `ret`: the youngest frame entry of the slot's split that shares a lane with it (R108). -/
def execRet (c : Ctl) (s : State) : Out :=
  runWith (.ret c) c c.mark (fun s => do
    let g := s.cur
    if !g.passes c then pure (s, none, goIf false 0 c.units)
    else do
      g.divGuard
      match g.stack.findIdx? (fun e => e.isFrame && e.parent = g.me.parent && e.reconv &&& g.me.mask ≠ 0) with
      | none => .error (.trap .badTarget 0)
      | some k =>
        let tgt := ((g.stack[k]?).map (·.pc.toNat)).getD 1
        let s ← s.checkTarget tgt
        pure (s.setCur { s.cur with stack := s.cur.stack.eraseIdx k }, none, goIf true tgt c.units)) s

/-- The lanes that execute `exit` leave; the slot goes on with the others; a group with no live lane has ended but for its operations (R109). -/
def goExit (out : Word32) (n : Nat) (s : State) : Out :=
  let stay := s.cur.me.mask &&& ~~~out
  let g := s.cur.leave out
  let g := g.setSlot s.cur.sel1 { g.slot s.cur.sel1 with parked := false, wait := none }
  let s := s.setCur { g with ended := g.live = 0 }
  if stay = 0 then .next s else s.advance n

/-- `exit`: a commit park, then the active lanes leave (R109). -/
def execExit (c : Ctl) (s : State) : Out :=
  runWith (.exit c) c true (fun s => do
    let out := s.cur.active c
    if out ≠ 0 then s.cur.divGuard
    pure (s, none, if out = 0 then (fun s => s.advance c.units) else goExit out c.units)) s

/-! ### Traps and markers (R110 to R113) -/

/-- `trap #n` raises ILLEGAL (R110). -/
def execTrap (c : Ctl) (n : BitVec 11) (s : State) : Out :=
  runInstr (.trap c n) c (groupLevel c fun _ => .error (.trap .illegal 0)) s

/-- Resume after a trap at `pc`, entering a block there if one is pending; what the handler left in its window is banked (R67, R110). -/
def goResume (pc : Word32) (entry : EntryMode) (s : State) : Out :=
  let b := s.cur.trapcause.getLsbD 4
  (s.setCur ((s.cur.bankSlot b).fromTrap pc entry)).makeEntry b

/-- A return form: PERM at U; at S what `f` says (R110). -/
def trapReturn (i : Instr) (c : Ctl) (f : State → M Effect) (s : State) : Out :=
  runWith i c c.mark (fun s =>
    if !s.cur.passes c then pure (s, none, fun s => s.advance c.units)
    else if s.cur.priv = .u then .error (.trap .perm 0)
    else f s) s

/-- `trap.ret` (R110). -/
def execTrapRet (c : Ctl) (s : State) : Out :=
  trapReturn (.trapRet c) c (fun s => pure (s, none, goResume s.cur.trappc s.cur.trapBlk.entry)) s

/-- The units of the item at `pc` inside a block that ends at `bend`: what `trap.skip` and the debugger's resumption pass over (R47, R110; log entry 19). -/
def State.itemUnits (s : State) (pc bend : Word32) : M (State × Nat) := do
  let left := (bend - pc).toNat
  let (s, u0) ← s.fetchUnit pc.toNat
  match unitKind u0 with
  | 0 => pure (s, min 2 left)
  | 1 =>
    if left < 3 then pure (s, 1)
    else do
      let (s, u1) ← s.fetchUnit (pc.toNat + 1)
      pure (s, if unitKind u1 = 0 then 3 else 1)
  | _ => pure (s, 1)

/-- Where `trap.skip` resumes: unit and pending entry (R110). -/
def State.skipTo (s : State) (pc : Word32) (k : Blk) : M (State × Word32 × EntryMode) :=
  match k.entry with
  | .pad => pure (s, pc + 1, .fall)
  | .none => do
    let (s, n) ← s.itemUnits pc k.bend
    let next := pc + BitVec.ofNat 32 n
    pure (s, next, if next = k.bend then (if next.toNat % 2 = 1 then .pad else .fall) else .none)
  | e => pure (s, pc, e)

/-- `trap.skip` (R110). -/
def execTrapSkip (c : Ctl) (s : State) : Out :=
  trapReturn (.trapSkip c) c (fun s => do
    let (s, pc, e) ← s.skipTo s.cur.trappc s.cur.trapBlk
    pure (s, none, goResume pc e)) s

/-- `brk` raises DEBUG (R111). -/
def execBrk (c : Ctl) (n : BitVec 13) (s : State) : Out := runInstr (.brk c n) c (groupLevel c fun _ => .error (.trap .debug 0)) s

def execNop (c : Ctl) (s : State) : Out := runInstr (.nop c) c (onGroup id) s
/-- `yield`: a pending pre-emption request is taken at the boundary after it (R112). -/
def execYield (c : Ctl) (s : State) : Out :=
  runWith (.yield c) c c.mark (fun s =>
    let y := s.cur.passes c
    pure (s, none, fun s => (s.setCur { s.cur with yielded := y }).advance c.units)) s

/-- `park`: a commit park; one whose guard no lane passes is none (R58, R112). -/
def execPark (c : Ctl) (s : State) : Out := runWith (.park c) c (c.mark || s.cur.passes c) (fun s => pure (s, none, fun s => s.advance c.units)) s

/-- `daymark`: a KIND 1 trace record while tracing is enabled, behind those of the group's older operations (R113, R414, R415). -/
def execDaymark (c : Ctl) (n : BitVec 12) (a : Option Src) (s : State) : Out :=
  runInstr (.daymark c n a) c (groupLevel c fun s =>
    let g := s.cur
    if !(s.gran g.slice).traceOn then .ok (s, none)
    else
      let v : Word64 := match a with | some a => g.uniA c a | none => 0
      .ok (s.traceWatch g.vf (g.agent g.me.pc) (bytesLE 8 g.launchId.toNat ++ bytesLE 8 (s.tickOf g.slice).toNat ++ bytesLE 8 v.toNat ++
        bytesLE 8 (g.me.pc.toNat + 2 ^ 32 * g.lastId.toNat + 2 ^ 48 * n.toNat + 2 ^ 60)), none)) s

/-! ### Group synchronisation (R114) -/

/-- The groups of a set that live, saved ones included; a group that has ended counts as arrived (R114). -/
def State.members (s : State) (p : Group → Bool) : List Group := (s.allGroups ++ s.savedGroups).filter fun g => p g && !g.gone

/-- A group's generation at one of the two barriers (R114). -/
def Group.syncGen (gang : Bool) (g : Group) : BitVec 16 := if gang then g.gangGen else g.wgGen

/-- Clear the wait of the groups of a completed generation; at `.k` the resumption invalidates the cores' L1 lines of the function (R114, R304). -/
def State.syncWake (s : State) (gang : Bool) (p : Group → Bool) : State :=
  let w (g : Group) : Group := if p g && g.waitg = (if gang then 2 else 1) then { g with waitg := 0 } else g
  let cores := (s.allGroups.filter p).map fun g => (g.coreIx, g.vf)
  let s : State := { s.mapGroups w with savedGroups := s.savedGroups.map w }
  if gang then cores.foldl (fun s k => s.updCore k.1 fun q => { q with l1 := q.l1.filter fun e => e.vf ≠ k.2 }) s
  else s

/-- Complete a generation that every member has reached: beacon record, published w-registers, resumption (R114, R119, R416). -/
def State.syncCheck (s : State) (gang : Bool) (key : Nat) (last : Option Group) : State :=
  let p (g : Group) : Bool := if gang then g.gang = key else g.wg = key
  let ms := s.members p
  let code := if gang then 2 else 1
  match ms.find? (fun g => g.waitg = code) with
  | none => s
  | some w =>
    if ms.all fun g => g.waitg = code && g.syncGen gang = w.syncGen gang then
      let s := if gang then s else s.updWg key fun w => w.publish fun _ => true
      let early := ms.foldl (fun (b : Group) g => if g.syncFrom < b.syncFrom then g else b) w
      let len := s.clocksSince early early.syncFrom
      let gr := s.gran w.slice
      let s :=
        if gr.prof && decide (gr.bthr.toNat ≤ len) then
          s.record w.vf true (bytesLE 8 early.launchId.toNat ++ bytesLE 8 (s.tickOf w.slice).toNat ++
            bytesLE 8 (early.syncPc.toNat + 2 ^ 32 * early.lastId.toNat + 2 ^ 60 * code) ++
            bytesLE 8 ((match last with | some g => g.syncPc.toNat | none => 0) + 2 ^ 32 * min len 65535 +
              2 ^ 48 * (match last with | some g => g.lastId.toNat | none => 0xFFFF)))
        else s
      s.syncWake gang p
    else s

/-- Arrive at a barrier of the group's set, once the group's older loads, stores and tile accesses are complete (R114, R304; log entry 20). -/
def syncArrive (i : Instr) (c : Ctl) (gang : Bool) (s : State) : Out :=
  runWith i c c.mark (fun s =>
    let g := s.cur
    if !g.passes c then pure (s, none, fun s => s.advance c.units)
    else if g.counter .load ≠ 0 || g.counter .store ≠ 0 then .error .stall
    else
      let me := { g with syncFrom := s.steps, syncPc := g.me.pc }
      let me := if gang then { me with gangGen := me.gangGen + 1, waitg := 2 } else { me with wgGen := me.wgGen + 1, waitg := 1 }
      pure ((s.setCur me).syncCheck gang (if gang then g.gang else g.wg) (some me), none, fun s => s.advance c.units)) s

def execSyncWg (c : Ctl) (s : State) : Out := syncArrive (.syncWg c) c false s
def execSyncGang (c : Ctl) (s : State) : Out := syncArrive (.syncGang c) c true s

/-! ### Special registers, index, workgroup registers (R116 to R119) -/

/-- Core clocks since the core last left reset (R39; log entry 7). -/
def State.clk (s : State) (core : Nat) : Word64 := BitVec.ofNat 64 (Config.coreClock core s.steps - (s.coreAt core).clkBase)

/-- A special register as it stands (R31). -/
def State.special (s : State) (n : BitVec 8) : Word64 :=
  let g := s.cur
  match n.toNat with
  | 0x02 => BitVec.ofNat 64 g.gslot
  | 0x03 => BitVec.ofNat 64 g.gid
  | 0x04 => BitVec.ofNat 64 g.wgid
  | 0x05 => BitVec.ofNat 64 g.core
  | 0x06 => BitVec.ofNat 64 g.cluster
  | 0x07 => BitVec.ofNat 64 g.gx
  | 0x08 => BitVec.ofNat 64 g.gy
  | 0x09 => BitVec.ofNat 64 g.gz
  | 0x0A => g.grid
  | 0x0B => g.args
  | 0x0C => g.launchId
  | 0x0D => BitVec.ofNat 64 g.vf
  | 0x0E => BitVec.ofNat 64 (g.slice + 16 * (s.gran g.slice).num)
  | 0x10 => s.tickOf g.slice
  | 0x11 => s.clk g.coreIx
  | 0x12 => g.deadline
  | 0x18 => g.me.mask.setWidth 64
  | 0x19 => g.helper.setWidth 64
  | 0x1A => BitVec.ofNat 64 g.stack.length
  | 0x1B => g.paths
  | 0x20 => g.fpctl.setWidth 64
  | 0x21 => g.fpflags.setWidth 64
  | 0x28 => if g.priv = .s then 1 else 0
  | 0x30 => g.trapvec
  | 0x31 => g.trapcause.setWidth 64
  | 0x32 => g.trappc.setWidth 64
  | 0x33 => g.trapaddr
  | 0x34 => g.saveb
  | _ => 0

/-- Special registers read at S only (R31). -/
def srSystem (n : BitVec 8) : Bool := decide (0x31 ≤ n.toNat) && decide (n.toNat ≤ 0x34)

/-- `getsr` (R116). DESIGN CHOICE: the vector form writes helper lanes as active ones (log entry 66). -/
def execGetsr (c : Ctl) (d sr : BitVec 8) (vdst : Bool) (s : State) : Out :=
  runInstr (.getsr c d sr vdst) c
    (if vdst then laneShort c .v (fun g => g.rD c d) fun _ l => (BitVec.ofNat 64 l, 0)
     else groupLevel c fun s => do
      trapIf (srSystem sr && s.cur.priv = .u) .perm
      pure (s, some (Group.uniWrite (s.cur.rD c d) (s.special sr)))) s

/-- `setsr` (R117). -/
def execSetsr (c : Ctl) (sr : BitVec 8) (a : Src) (s : State) : Out :=
  runInstr (.setsr c sr a) c (groupLevel c fun s => do
    let g := s.cur
    let v := g.uniA c a
    let n := sr.toNat
    trapIf (!(n = 0x20 || n = 0x21 || (n = 0x30 && g.priv = .s))) .perm
    trapIf (n ≠ 0x30 && decide (64 ≤ v.toNat)) .illegal
    trapIf (n = 0x20 && decide (5 ≤ v.toNat % 8)) .illegal
    pure (s.setCur (if n = 0x20 then { g with fpctl := v.setWidth 6 } else if n = 0x21 then { g with fpflags := v.setWidth 6 } else { g with trapvec := v }),
      none)) s

/-- `setx` (R118). -/
def execSetx (c : Ctl) (v : RegImm 12) (s : State) : Out :=
  runInstr (.setx c v) c (groupLevel c (onGroup fun g =>
    { g with x := match v with | .reg r => (g.uniA c r).setWidth 16 | .imm n => n.setWidth 16 })) s

/-- `wmov wD, sA`: the write joins the register's order of writes (R119). -/
def execWmovToW (c : Ctl) (d : BitVec 8) (a : Src) (s : State) : Out :=
  runInstr (.wmovToW c d a) c (groupLevel c fun s =>
    let g := s.cur
    let n := g.rD c d
    .ok (s.updWg g.wg fun w => { w with wr := tset w.wr n (tget w.wr n [] ++ [{ val := g.uniA c a, by_ := g.id, pub := false }]) }, none)) s

/-- The place in the order of writes at or after which a group must read a w-register (R119). -/
def wLow (g : Group) (base n : Nat) (h : List WHist) : Nat :=
  let last := ((List.range h.length).reverse.find? fun i => match h[i]? with | some e => e.pub || e.by_ = g.id | none => false).getD 0
  max (tget g.wseen n 0) (base + last)

/-- `wmov sD, wA`: one of the writes that R119 allows the group; which one, where several are allowed, is free (log entry 13). -/
def execWmovFromW (c : Ctl) (d a : BitVec 8) (s : State) : Out :=
  runInstr (.wmovFromW c d a) c (groupLevel c fun s =>
    let g := s.cur
    let n := g.rA c a
    match s.wg? g.wg with
    | none => .ok (s, some (Group.uniWrite (g.rD c d) 0))
    | some w =>
      let h := tget w.wr n []
      let base := tget w.wbase n 0
      let low := wLow g base n h
      let k := base + h.length - low
      let ix := if k ≤ 1 then low else low + Config.freeChoice s.steps % k
      let v : Word64 := match h[ix - base]? with | some e => e.val | none => 0
      .ok (s.setCur { g with wseen := tset g.wseen n ix }, some (Group.uniWrite (g.rD c d) v))) s

/-- An item that the opcode map does not list raises ILLEGAL at decode (R47, R74). -/
def execUnlistedOpcode (_w : Word64) (s : State) : Out := s.stopAt s.cur.sel1 s.cur.me.pc (.trap .illegal 0)

end Sys2Proof.Machine
end

