-- ==== Sys2Proof/Machine/Inflight.lean ====
section
/-!
DEFINITION. Operations in flight: when each may be performed, what a load reads, how an operation completes, and the checks of tile handles
(R161, R170, R176, R304, R305, R310).
-/
set_option Elab.async false
namespace Sys2Proof.Machine
open Sys2Proof

/-! ### What an operation touches -/

/-- A run of bytes: space (0 for global memory, else a tile), first byte, length. -/
abbrev Span := Nat × Nat × Nat

def tileSpace (wg h : Nat) : Nat := 1 + 32 * wg + h

/-- The bytes that a memory operation reads or writes. -/
def OpKind.touch : OpKind → List Span
  | .load accs size cnt _ _ _ => (accs.filter (!·.zero)).map fun a => (0, Loc.pa a.pa, size * cnt)
  | .store accs data _ => (accs.zip data).map fun p => (0, Loc.pa p.1.pa, p.2.length)
  | .tload accs wg h size cnt _ => (accs.filter (!·.zero)).map fun a => (tileSpace wg h, a.pa, size * cnt)
  | .tstore accs wg h data => (accs.zip data).map fun p => (tileSpace wg h, p.1.pa, p.2.length)
  | .append wg h _ _ _ => [(tileSpace wg h, 0, 2 ^ 40)]
  | .atomic lanes _ ty _ _ _ => (lanes.filter (!·.fin)).map fun a => (0, Loc.pa a.pa, tyBytes ty)
  | .ratom lanes _ ty _ => (lanes.filter (!·.fin)).map fun a => (0, Loc.pa a.pa, tyBytes ty)
  | .rpoll _ recs _ => recs.map fun a => (0, Loc.pa a.pa, 16)
  | .launch _ _ _ slotPa => [(0, Loc.pa slotPa, 128)]
  | .arrive (.glob _ _ pa) _ _ => [(0, Loc.pa pa, 64)]
  | _ => []

def Span.meets (a b : Span) : Bool := a.1 = b.1 && decide (a.2.1 < b.2.1 + b.2.2) && decide (b.2.1 < a.2.1 + a.2.2)
def overlaps (a b : List Span) : Bool := a.any fun x => b.any fun y => Span.meets x y

/-- Operations that make later events of the group wait: acquires (R304). -/
def OpKind.acquires : OpKind → Option Scope
  | .load _ _ _ _ _ acq => acq
  | .atomic _ _ _ _ acq _ => acq
  | _ => none
/-- Operations that wait for the group's older accesses: releases (R304). -/
def OpKind.releases : OpKind → Option Scope
  | .store _ _ rel => rel
  | .atomic _ _ _ _ _ rel => rel
  | _ => none
def OpKind.isStore : OpKind → Bool
  | .store .. => true
  | _ => false
def OpKind.isLoad : OpKind → Bool
  | .load .. | .rpoll .. => true
  | _ => false

/-- Every link has acknowledged the group's stores to windows (R172, R318). -/
def State.acked (s : State) (gid : Nat) : Bool := (List.range 5).all fun k => (s.link k).unacked.all fun u => u.gid ≠ gid

/-- The operations of the other groups on a group's core. -/
def State.coreOps (s : State) (g : Group) : List Op := ((s.allGroups.filter fun h => h.id ≠ g.id && h.coreIx = g.coreIx).map (·.ops)).flatten

/-- The older operations of a group that are open. -/
def Group.olderOpen (g : Group) (seq : Nat) : List Op := g.ops.filter fun p => decide (p.seq < seq) && !p.fin

/-- An operation reads or writes host or peer memory. -/
def OpKind.windowed (k : OpKind) : Bool := k.touch.any fun t => t.1 = 0 && isWindow t.2.1

/-- A load's access lies in the range of a `cinv` (R312). -/
def OpKind.invalidated (range load : OpKind) : Bool :=
  match range, load with
  | .range first count true _, .load accs _ _ _ _ _ => accs.any fun a => decide (first ≤ a.va / 64) && decide (a.va / 64 < first + count)
  | _, _ => false

/-- An older open operation `p` of its group keeps `o` waiting: an acquire; one on the same bytes, but that a load or a store of device memory may come
to an older store there, which it reads or follows; a `cinv` of a line that a load reads (R161, R304, R305, R312). -/
def Op.waitsFor (o p : Op) : Bool :=
  p.kind.acquires.isSome ||
  (overlaps p.kind.touch o.kind.touch && !(p.kind.isStore && (o.kind.isStore || (o.kind.isLoad && !o.kind.windowed)))) ||
  p.kind.invalidated o.kind

/-- As far as its own group goes, an operation may take effect: no older one keeps it waiting, and a release finds the older loads, stores and tile
accesses complete (R304, R305). -/
def State.inOrder (s : State) (g : Group) (o : Op) : Bool :=
  (g.olderOpen o.seq).all (fun p => !o.waitsFor p) &&
  (match o.kind.releases with
   | none => true
   | some sc => (g.olderOpen o.seq).all (fun p => p.path ≠ some .load && p.path ≠ some .store) && (sc ≠ .s || s.acked g.id))

/-- The stores that the core sees once `o` takes effect: of a store, the group's older ones and itself; of a load, those up to the youngest older one that
it reads (R310). -/
def Group.shown (g : Group) (o : Op) : List Op :=
  let st := g.ops.filter fun p => !p.fin && p.kind.isStore
  if o.kind.isStore then st.filter fun p => decide (p.seq ≤ o.seq)
  else if o.kind.isLoad then
    match (st.filter fun p => decide (p.seq < o.seq) && overlaps p.kind.touch o.kind.touch).reverse.head? with
    | some q => st.filter fun p => decide (p.seq ≤ q.seq)
    | none => []
  else []

/-- No other group of the core has a store to these bytes that the core has seen, earlier than `seen` where that is given, and that is still to be
performed (R310; log entry 22). -/
def State.coreClear (s : State) (g : Group) (seen : Option Nat) (t : List Span) : Bool :=
  (s.coreOps g).all fun p => p.fin || !p.kind.isStore || !overlaps p.kind.touch t ||
    (match p.seen, seen with
     | none, _ => true
     | some v, some w => decide (w < v)
     | some _, none => false)

/-- As far as the order of its group and of its core goes, an operation may be performed: it is in order in its group, and so is every store that the core
sees with it; a store finds the older ones on its bytes performed; and what other groups of the core have shown of its bytes is performed (R161, R304,
R305, R310). -/
def State.free (s : State) (g : Group) (o : Op) : Bool :=
  s.inOrder g o && (g.shown o).all (fun p => p.seen.isSome || s.inOrder g p) &&
  (!o.kind.isStore || (g.olderOpen o.seq).all fun p => !(p.kind.isStore && overlaps p.kind.touch o.kind.touch)) &&
  s.coreClear g o.seen o.kind.touch

/-- A read of these bytes finds no pending store of another group of the core on them that may be performed: such a store comes first, so that the core's
loads see the core's pending stores (R310; log entry 22). -/
def State.consulted (s : State) (g : Group) (t : List Span) : Bool :=
  (s.allGroups.filter fun h => h.id ≠ g.id && h.coreIx = g.coreIx).all fun h =>
    h.ops.all fun p => p.fin || !p.kind.isStore || !overlaps p.kind.touch t || !s.free h p

/-- WHETHER A MEMORY OPERATION MAY BE PERFORMED: it is free to be, and a load has consulted the core's pending stores (R161, R304, R305, R310). -/
def State.ready (s : State) (g : Group) (o : Op) : Bool := s.free g o && (!o.kind.isLoad || s.consulted g o.kind.touch)

/-- The core sees the stores that go with an operation (R310). -/
def State.show (s : State) (g : Group) (o : Op) : State :=
  match (g.shown o).filter (fun p => p.seen.isNone) with
  | [] => s
  | ps => s.updGroup g.id fun g => { g with ops := g.ops.map fun p => if ps.any (fun q => q.seq = p.seq) then { p with seen := some s.steps } else p }

/-- An engine may access bytes for an operation at place `seq` as a load there would: no older acquire of the group is open, its older accesses of these
bytes are complete, and so are the stores to them that the core's loads see (R189, R244, R279, R310, R315). -/
def State.engineReady (s : State) (g : Group) (seq : Nat) (t : List Span) : Bool :=
  (g.olderOpen seq).all (fun p => p.kind.acquires.isNone && !overlaps p.kind.touch t) && s.coreClear g none t && s.consulted g t

/-- An older `cinv` of the group is still open: a read that may be served from the L1 waits for it (R312, R315). -/
def Group.cinvOpen (g : Group) (seq : Nat) : Bool := (g.olderOpen seq).any fun p => match p.kind with | .range _ _ inval _ => inval | _ => false

/-- An instruction whose own effect reads or writes memory at its issue waits, at issue, as an engine's access of those bytes does (R305, R310; log
entry 22). -/
def State.settled (s : State) (spans : List Span) : M Unit := if s.engineReady s.cur s.cur.seq spans then .ok () else .error .stall

/-! ### Completion -/

/-- An operation is complete: its counter falls in issue order (R170). -/
def Group.finishOp (g : Group) (op : Nat) : Group :=
  match g.op? op with
  | none => g
  | some o =>
    let g := g.updOp op fun o => { o with fin := true }
    match o.path with
    | some p => { g.sweep with lastDone := g.lastDone.filter (fun e => e.1 ≠ p.code.toNat) ++ [(p.code.toNat, o.pc)] }
    | none => g.sweep

/-- The issuing core's L1 lines of a function go (R172, R304). -/
def State.dropCoreL1 (s : State) (core vf : Nat) : State := s.updCore core fun k => { k with l1 := k.l1.filter fun e => e.vf ≠ vf }

/-- What an acquire at a scope does to the core's L1 (R304). -/
def State.acquireAt (s : State) (g : Group) (sc : Option Scope) : State :=
  match sc with
  | some .k | some .t | some .s => s.dropCoreL1 g.coreIx g.vf
  | _ => s

/-! ### What a load reads (R310, R312) -/

/-- Put an entry into a list that `le` orders. -/
def insertBy {α : Type} (le : α → α → Bool) (x : α) : List α → List α
  | [] => [x]
  | y :: r => if le x y then x :: y :: r else y :: insertBy le x r

/-- A list in the order of `le`; equals keep their places. -/
def sortBy {α : Type} (le : α → α → Bool) (l : List α) : List α := l.foldr (insertBy le) []

/-- The group's own pending stores that a load at place `seq` reads, the youngest first: address and bytes (R161). -/
def State.overlay (_s : State) (g : Group) (seq : Nat) : List (Nat × List Byte) :=
  (((g.olderOpen seq).filter (·.kind.isStore)).reverse.map fun o => match o.kind with
    | .store accs data _ => ((accs.zip data).map fun p => (Loc.pa p.1.pa, p.2)).reverse
    | _ => []).flatten

/-- The byte at an address in a list of pending stores. -/
def overlayByte (ov : List (Nat × List Byte)) (a : Nat) : Option Byte :=
  ov.findSome? fun p => if p.1 ≤ a then p.2[a - p.1]? else none

/-- Bytes that a load of a group reads: a pending store of its own, else a copy in its L1 if `l1` says so, else the home (R310, R312). -/
def State.coreRead (s : State) (g : Group) (seq : Nat) (l1 : Bool) (va loc n : Nat) : List Byte :=
  let base := match (if l1 then s.l1At g.coreIx g.vf va else none) with
    | some e => (e.bytes.drop (va % 64)).take n
    | none => s.homeRead loc n
  match s.overlay g seq with
  | [] => base
  | ov => (List.range n).map fun i => (overlayByte ov (Loc.pa loc + i)).getD (base.getD i 0)

/-- Bytes as they stood for an operation: what is read now, but for what the group's younger writes have replaced (R161, R244, R279). -/
def Op.asOf (o : Op) (loc : Nat) (now : List Byte) : List Byte :=
  if o.past.isEmpty then now else (List.range now.length).map fun i => (overlayByte o.past (Loc.pa loc + i)).getD (now.getD i 0)

/-- Bytes that an engine reads at their home for an operation, as a load at its place (R244, R279). -/
def State.engRead (s : State) (o : Op) (loc n : Nat) : List Byte := o.asOf loc (s.homeRead loc n)

/-- An operation of an engine is complete; what it read may be newer than the core's L1 copies, which go (R305, R308). -/
def State.engineDone (s : State) (g : Group) (op : Nat) : State := (s.updGroup g.id fun g => g.finishOp op).dropCoreL1 g.coreIx g.vf

/-! ### Tile handles (R175, R176) -/

/-- The tile of a handle, of the kind that an instruction requires; an allocation in progress stalls it (R175, R176). -/
def State.tileOf (s : State) (wg h : Nat) (kind : TKind) : M Handle :=
  let t := s.handle wg h
  if t.prog.isSome then .error .stall
  else match t.st with
    | .free | .freeing => .error (.trap .tileKind 0)
    | .failed => .error (.trap .tileBounds 0)
    | .allocated => if t.kind = kind then .ok t else .error (.trap .tileKind 0)

/-- The key of workgroup `n` of the issuing group's gang; one that has ended has no handles. -/
def State.peerWg (s : State) (g : Group) (n : Nat) : Option Nat := (s.wgs.find? fun w => w.gang = g.gang && w.wgid = n).map (·.key)

/-- The tile that an instruction with PEER and WG names, and the key of its workgroup (R162, R163). -/
def State.tileNamed (s : State) (h : Nat) (peer : Option (BitVec 2)) (kind : TKind) : M (Nat × Handle) :=
  let g := s.cur
  match peer with
  | none => do let t ← s.tileOf g.wg h kind; pure (g.wg, t)
  | some n =>
    if g.gangN ≤ n.toNat then .error (.trap .tileBounds 0)
    else match s.peerWg g n.toNat with
      | none => .error (.trap .tileKind 0)
      | some k => do
        let t ← s.tileOf k h kind
        if !t.clus && kind ≠ .barrier then .error (.trap .tileKind 0) else pure (k, t)

/-- Bytes of a tile. -/
def Handle.size (t : Handle) : Nat := t.rows * t.rowb
/-- A byte of a tile: zero until it is written (R175). -/
def Handle.byte (t : Handle) (o : Nat) : Byte := Sparse.get 0 t.bytes o
def Handle.readN (t : Handle) (o n : Nat) : List Byte := (List.range n).map fun i => t.byte (o + i)
/-- Write bytes of a tile; a written 8-byte word is poisoned no longer when it is written whole (R397). -/
def Handle.writeN (t : Handle) (o : Nat) (data : List Byte) : Handle :=
  { t with bytes := (data.foldl (fun (a : Nat × Sparse Byte) b => (a.1 + 1, Sparse.set 0 a.2 a.1 b)) (o, t.bytes)).2,
           poison := t.poison.filter fun w => !(decide (o ≤ 8 * w) && decide (8 * w + 8 ≤ o + data.length)) }
/-- Whether a run of a tile's bytes holds a poisoned word (R397). -/
def Handle.poisoned (t : Handle) (o n : Nat) : Bool := t.poison.any fun w => decide (8 * w < o + n) && decide (o < 8 * w + 8)

/-- Whether some operation in flight uses a tile (R177). -/
def OpKind.usesTile (wg h : Nat) (k : OpKind) : Bool :=
  k.touch.any (fun t => t.1 = tileSpace wg h) ||
  (match k with
   | .copy c => c.recv.any fun r => (r.wg = wg && r.h = h) || (match r.bar with | some (.tile w b) => w = wg && b = h | _ => false) ||
        (match r.ack with | some (.tile w b) => w = wg && b = h | _ => false)
   | .arrive (.tile w b) _ _ => w = wg && b = h
   | .mma m => (match m.a with | .tile w b .. => w = wg && b = h | _ => false) || (match m.b with | .tile w b .. => w = wg && b = h | _ => false)
   | _ => false)

/-- A write to all tile space of a freed tile is over: FREEING becomes FREE once no operation uses it (R177). -/
def State.tileBusy (s : State) (wg h : Nat) : Bool :=
  (s.allGroups ++ s.savedGroups).any fun g => g.ops.any fun o => !o.fin && o.kind.usesTile wg h

/-! ### Waits that write a beacon record (R416, R417) -/

/-- A wait of a group's instruction at `pc` that began at step `k` ends: a beacon record when it lasted BTHR clocks or more. -/
def State.beaconSince (s : State) (g : Group) (pc : Word32) (k kind path lastId lpc : Nat) : State :=
  let gr := s.gran g.slice
  let len := s.clocksSince g k
  if gr.prof && decide (gr.bthr.toNat ≤ len) then
    s.record g.vf true (bytesLE 8 g.launchId.toNat ++ bytesLE 8 (s.tickOf g.slice).toNat ++
      bytesLE 8 (pc.toNat + 2 ^ 32 * g.lastId.toNat + 2 ^ 53 * path + 2 ^ 60 * kind) ++ bytesLE 8 (lpc + 2 ^ 32 * min len 65535 + 2 ^ 48 * lastId))
  else s

/-- The wait of the issuing slot's instruction ends. -/
def State.beacon (s : State) (kind path lastId lpc : Nat) : State :=
  match s.cur.me.wait with
  | none => s
  | some k => s.beaconSince s.cur s.cur.me.pc k kind path lastId lpc

/-- The beacon record of a wait for the group's own operations on some paths: it names the one of them that completed last (R416). -/
def State.beaconOwn (s : State) (kind : Nat) (paths : List Path) : State :=
  match (s.cur.lastDone.filter fun e => paths.any fun p => p.code.toNat = e.1).reverse.head? with
  | some e => s.beacon kind e.1 s.cur.lastId.toNat e.2.toNat
  | none => s.beacon kind 0 s.cur.lastId.toNat 0

end Sys2Proof.Machine
end

