-- ==== Sys2Proof/Machine/Memory.lean ====
section
/-!
DEFINITION. Global loads and stores, fences, waits and cache control (R124, R158 to R162, R170 to R174), and the completion of loads.
-/
set_option Elab.async false
namespace Sys2Proof.Machine
open Sys2Proof

/-- SCOPE_DENIED when the scope is `.s` and the function's policy does not permit bit `bit` (R303). -/
def State.scopeOk (s : State) (sc : Scope) (bit : Nat) : M Unit :=
  trapIf (sc = .s && !(s.vf s.cur.vf).spol.getLsbD bit) .scopeDenied

/-- A per-lane check that an instruction with no active lane does not make (R59). -/
def ifActive (g : Group) (c : Ctl) (m : M Unit) : M Unit := if g.active c = 0 then .ok () else m

/-- Results of an operation that has just been added: `n` registers from `reg` on, in `lanes`, with values still to come (R65). -/
def Group.awaiting (g : Group) (cls : RClass) (reg n : Nat) (lanes : Word32) : Group :=
  (List.range n).foldl (fun g k => g.addPend cls (reg + k) lanes (Lanes.const 0) false) g

/-- The requests of the lanes of an access. -/
def Group.laneReqs (g : Group) (c : Ctl) (helpers : Bool) (va : Nat → Nat) : List LaneReq :=
  (g.accLanes c helpers).map fun p => { lane := p.1, va := va p.1, helper := p.2 }

/-- Requests for the lanes of an operation that lie in host or peer memory go out with their tags (R318, R432). -/
def State.request (s : State) (gid seq : Nat) (n : Nat) (accs : List LaneAcc) : State :=
  accs.foldl (fun s a => if a.zero || !isWindow (Loc.pa a.pa) then s else s.sendOver a.pa gid seq a.lane { kind := .read, len := n }) s

/-- Accesses whose lines are allocated as the first to leave, where `cp` says so (R159). -/
def marked (cp : CachePol) (accs : List LaneAcc) : List LaneAcc := if cp = .ev then accs.map fun a => { a with ev := true } else accs

/-- A global load is issued: its accesses are accepted and its results awaited. -/
def issueLoad (c : Ctl) (d : BitVec 8) (ty : Ty) (cnt : Nat) (cp : CachePol) (acq : Option Scope) (va : Group → Nat → Nat) (s : State) :
    M (State × Option RegWrite) := do
  s.pathFree .load
  let n := tyBytes ty
  let (s, accs) ← s.accept s.cur.vf .read (n * cnt) true (s.cur.laneReqs c true (va s.cur))
  let g := s.cur
  let g := g.addOp s.steps (some .load) (.load (marked cp accs) n cnt ty.isI (cp = .l2) acq)
  pure (s.setCur (g.awaiting .v (g.rD c d) cnt (g.written c)), none)

def execLd (c : Ctl) (o : MemOp) (s : State) : Out :=
  runInstr (.ld c o) c (issueLoad c o.d o.ty o.cnt.num o.cp none (fun g => g.globalVa c o.a o.b o.off)) s

/-- `lda`: a load-acquire at its scope (R159, R160). -/
def execLda (c : Ctl) (o : ScopedOp) (s : State) : Out :=
  runInstr (.lda c o) c (fun s => do
    ifActive s.cur c (s.scopeOk o.scope 0)
    issueLoad c o.d o.ty 1 .dflt (some o.scope) (fun g => g.globalVa c o.a o.b o.off) s) s

/-- The bytes that a store takes from its data registers in a lane (R160). -/
def Group.storeData (g : Group) (c : Ctl) (d : BitVec 8) (ty : Ty) (cnt l : Nat) : List Byte :=
  ((List.range cnt).map fun k => bytesLE (tyBytes ty) (g.readV (g.rD c d + k) l).toNat).flatten

/-- A global store is issued. -/
def issueStore (c : Ctl) (d : BitVec 8) (ty : Ty) (cnt : Nat) (cp : CachePol) (rel : Option Scope) (va : Group → Nat → Nat) (s : State) :
    M (State × Option RegWrite) := do
  s.pathFree .store
  let (s, accs) ← s.accept s.cur.vf .write (tyBytes ty * cnt) false (s.cur.laneReqs c false (va s.cur))
  let g := s.cur
  pure (s.setCur (g.addOp s.steps (some .store) (.store (marked cp accs) (accs.map fun a => g.storeData c d ty cnt a.lane) rel)), none)

def execSt (c : Ctl) (o : MemOp) (s : State) : Out :=
  runInstr (.st c o) c (issueStore c o.d o.ty o.cnt.num o.cp none (fun g => g.globalVa c o.a o.b o.off)) s

/-- `strl`: a store-release at its scope (R159, R160). -/
def execStrl (c : Ctl) (o : ScopedOp) (s : State) : Out :=
  runInstr (.strl c o) c (fun s => do
    ifActive s.cur c (s.scopeOk o.scope 1)
    issueStore c o.d o.ty 1 .dflt (some o.scope) (fun g => g.globalVa c o.a o.b o.off) s) s

/-- The address of `sld` and `sst` (R124). -/
def Group.uniVa (g : Group) (c : Ctl) (a : Src) (off : BitVec 13) : Nat := (g.uniA c a + off.signExtend 64).toNat

/-- `sld`: one access for the group; its counter rises whatever the guard (R124). -/
def execSld (c : Ctl) (o : ULoad) (s : State) : Out :=
  runInstr (.sld c o) c (fun s => do
    s.pathFree .load
    let on := s.cur.passes c
    let n := tyBytes o.ty
    let (s, accs) ← s.accept s.cur.vf .read n true (if on then [{ lane := 0, va := s.cur.uniVa c o.a o.off }] else [])
    let g := s.cur
    let g := g.addOp s.steps (some .load) (.load accs n 1 o.ty.isI false none)
    pure (s.setCur (if on then g.awaiting .s (g.rD c o.d) 1 allLanes else g), none)) s

/-- `sst` (R124). -/
def execSst (c : Ctl) (o : UStore) (s : State) : Out :=
  runInstr (.sst c o) c (fun s => do
    s.pathFree .store
    let n := tyBytes o.ty
    let (s, accs) ← s.accept s.cur.vf .write n false (if s.cur.passes c then [{ lane := 0, va := s.cur.uniVa c o.a o.off }] else [])
    let g := s.cur
    pure (s.setCur (g.addOp s.steps (some .store) (.store accs (accs.map fun _ => bytesLE n (g.uniB c o.b).toNat) none)), none)) s

/-- `fence` (R172). -/
def execFence (c : Ctl) (o : Fence) (s : State) : Out :=
  runInstr (.fence c o) c (groupLevel c fun s => do
    let g := s.cur
    s.scopeOk o.scope 2
    if g.counter .load ≠ 0 || g.counter .store ≠ 0 then .error .stall
    else if o.ord ≠ .acq && o.scope = .s && !s.acked g.id then .error .stall
    else
      let s := s.beaconOwn 4 [.load, .store]
      pure (if o.ord = .rel then s else s.acquireAt g (some o.scope), none)) s

/-- `waitc` (R171). -/
def execWaitc (c : Ctl) (o : Waitc) (s : State) : Out :=
  runInstr (.waitc c o) c (groupLevel c fun s =>
    let g := s.cur
    let lim := match o.lim with | .reg r => (g.uniA c r).toNat | .imm n => n.toNat
    if lim < g.counter o.path then .error .stall else .ok (s.beaconOwn 5 [o.path], none)) s

/-- The line at an address comes nearer to the issuing core: into its L1, or into the L2, as LVL says; one that is unmapped, not permitted, poisoned or
at or above 2^57 does not (R173). -/
def State.prefetch (s : State) (lvl2 : Bool) (va : Nat) : State :=
  let g := s.cur
  let line := 64 * (va / 64)
  if 2 ^ 57 ≤ va then s
  else match s.translate g.vf line (some g.coreIx) with
    | (t, .ok loc a) =>
      if !a.r || s.poisoned loc then s
      else if lvl2 then t.fillL2 g.vf (va / 64) false
      else if (t.l1At g.coreIx g.vf va).isSome || isWindow (Loc.pa loc) then t
      else t.fillL1 g.coreIx g.vf line loc a false
    | _ => s

/-- `pref`: the lines of the active lanes, in lane order (R173). -/
def execPref (c : Ctl) (o : Pref) (s : State) : Out :=
  runInstr (.pref c o) c (fun s =>
    .ok ((lanesOf (s.cur.active c)).foldl (fun t l => t.prefetch o.l2 (s.cur.globalVa c o.a o.b o.off l)) s, none)) s

/-- `cinv` and `cwb`: a range of lines, on the STORE path (R174). DESIGN CHOICE: the address of a MISALIGN that S[B] alone raises is the value of S[B]
(log entry 68). -/
def rangeOp (i : Instr) (c : Ctl) (o : AB) (inval l1Only : Bool) (s : State) : Out :=
  runInstr i c (fun s => do
    s.pathFree .store
    let g := s.cur
    if !g.passes c then pure (s.setCur (g.addOp s.steps (some .store) .null), none)
    else do
      let a := (g.uniA c o.a).toNat
      let n := (g.uniB c o.b).toNat
      trapIf (a % 64 ≠ 0) .misalign a
      trapIf (n % 64 ≠ 0) .misalign n
      pure (s.setCur (g.addOp s.steps (some .store) (.range (a / 64) (n / 64) inval l1Only)), none)) s

def execCinv (c : Ctl) (o : Cinv) (s : State) : Out := rangeOp (.cinv c o) c { a := o.a, b := o.b } true (!o.l2) s
def execCwb (c : Ctl) (o : AB) (s : State) : Out := rangeOp (.cwb c o) c o false false s

/-- What a range operation does to the lines that the function has cached, but for the lines of registered barriers (R174, R197). -/
def State.rangePerformed (s : State) (g : Group) (first count : Nat) (inval l1Only : Bool) : State :=
  let inR (line : Nat) : Bool := decide (first ≤ line) && decide (line < first + count)
  let mine (l : L2Line) : Bool := l.vf = g.vf && inR l.line && s.barLines.all fun b => Loc.pa b.1 / 64 ≠ l.pa
  if l1Only then s.updCore g.coreIx fun k => { k with l1 := k.l1.filter fun e => !(e.vf = g.vf && inR e.line) }
  else if inval then (s.flushLines mine).dropL1 g.vf inR
  else (s.l2.filter mine).foldl (fun s l => s.writeback true l.pa) s

/-! ### Completion of loads (R170) -/

/-- The line requests of an operation of the LOAD path count once each as a hit or a miss of the core's L1: its addresses are given (R367). -/
def State.countHits (s : State) (g : Group) (l1 : Bool) (vas : List Nat) : State :=
  let lines := vas.foldl (fun (ls : List Nat) a => if ls.contains (a / 64) then ls else a / 64 :: ls) []
  let hits := (lines.filter fun ln => l1 && (s.l1At g.coreIx g.vf (64 * ln)).isSome).length
  if lines.isEmpty then s else s.updCore g.coreIx fun k => { k with hits := k.hits + hits, misses := k.misses + (lines.length - hits) }

/-- Read the accesses of a load, in lane order: values by lane, and the L1 as it then stands (R312, R324). -/
def State.readAccs (s : State) (g : Group) (o : Op) (n : Nat) (l2 l1 : Bool) : List LaneAcc → List (Nat × List Byte) → State × List (Nat × List Byte)
  | [], got => (s, got)
  | a :: r, got =>
    if a.zero then s.readAccs g o n l2 l1 r ((a.lane, []) :: got)
    else
      let hit := l1 && (s.l1At g.coreIx g.vf a.va).isSome
      let data := s.coreRead g o.seq l1 a.va a.pa n
      let s := if a.ev then s.markEv a.pa else s
      let s := if l2 then (s.serveFill g.vf a.va a.pa a.attr.leaf1 a.attr.leaf2).dropCoreLine (some g.coreIx) a.pa
        else if hit then s else s.fillL1 g.coreIx g.vf a.va a.pa a.attr a.ev
      let s := if lane g.helper a.lane then s else s.watch g.vf a.va a.pa n 0 (g.agent o.pc o.seq)
      s.readAccs g o n l2 l1 r ((a.lane, data) :: got)

/-- The value that register `k` of a load takes in a lane. -/
def loadedValue (got : List (Nat × List Byte)) (n : Nat) (sgn : Bool) (k l : Nat) : Word64 :=
  match got.find? (fun p => p.1 = l) with
  | some (_, b) => extend sgn ((b.drop (n * k)).take n)
  | none => 0

/-- The mask of the lanes that a list of values names. -/
def gotLanes (got : List (Nat × List Byte)) : Word32 := maskOf fun l => got.any fun p => p.1 = l

/-- A load reads what it has accepted; its core sees the older stores that it reads (R160, R310). Requests for its lanes in host or peer memory go out
once, when tags are left for them, and their link brings the values (R318). -/
def State.loadPerformed (s : State) (g : Group) (o : Op) (accs : List LaneAcc) (n cnt : Nat) (sgn l2 : Bool) (acq : Option Scope) (l1 : Bool) : State :=
  let away := accs.filter fun a => !a.zero && isWindow (Loc.pa a.pa)
  let here := accs.filter fun a => a.zero || !isWindow (Loc.pa a.pa)
  let l1 := l1 && acq.isNone && !l2
  let (s, got) := ((s.show g o).countHits g l1 ((here.filter (!·.zero)).map (·.va))).readAccs g o (n * cnt) l2 l1 here []
  let sent := o.asked || s.tagsLeft
  let s := if o.asked || !sent then s else (s.request g.id o.seq (n * cnt) away).countHits g false (away.map (·.va))
  let s := s.updGroup g.id fun g =>
    let g := g.fillPend o.seq (gotLanes got) away.isEmpty fun k l => loadedValue got n sgn k l
    if away.isEmpty then g.finishOp o.seq else g.updOp o.seq fun o => { o with kind := .load away n cnt sgn l2 acq, asked := sent }
  if away.isEmpty then s.acquireAt g acq else s

/-- The reply records of an `rpoll`: lane, record, OLD and STATUS (R168). -/
def State.pollRecords (s : State) (g : Group) (o : Op) (recs : List LaneAcc) : List (LaneAcc × Word64 × Nat) :=
  recs.map fun a => let b := s.coreRead g o.seq false a.va a.pa 16
    (a, BitVec.ofNat 64 (natLE (b.take 8)), natLE ((b.drop 8).take 1))

/-- Extend an old value as the types of atomics give (R165). -/
def oldValue (t : Ty) (n : Nat) : Word64 := if t = .i32 then BitVec.ofInt 64 (signedOf 32 n) else BitVec.ofNat 64 (n % 2 ^ t.width)

/-- `rpoll` completes when every record has a STATUS or nothing is outstanding; a failed lane raises PERM (R169). The read that completes it is watched
(R346). -/
def State.pollPerformed (s : State) (g : Group) (o : Op) (recs : List LaneAcc) (ty : Ty) : State :=
  let rs := s.pollRecords g o recs
  if rs.any (fun r => r.2.2 = 0) && g.counter .rem ≠ 0 then s
  else
    let s := recs.foldl (fun s a => ((s.serveRead g.vf a.va a.pa).watch g.vf a.va a.pa 16 0 (g.agent o.pc o.seq)).dropCoreLine (some g.coreIx) a.pa)
      ((s.show g o).countHits g false (recs.map (·.va)))
    match rs.find? (fun r => r.2.2 = 2 || r.2.2 = 3) with
    | some r =>
      let s := s.updGroup g.id fun g => (g.dropPend o.seq).finishOp o.seq
      s.raise g.id { cause := .perm, slot1 := o.slot1, pc := o.pc, addr := BitVec.ofNat 64 r.1.va }
    | none => s.updGroup g.id fun g =>
        (g.fillPend o.seq (maskOf fun l => rs.any fun r => r.1.lane = l) true fun _ l =>
          match rs.find? (fun r => r.1.lane = l) with
          | some r => oldValue ty r.2.1.toNat
          | none => 0).finishOp o.seq

/-- `append`: cursor and elements in one step (R156). -/
def State.appendPerformed (s : State) (g : Group) (o : Op) (wg h esz : Nat) (vals : List (Nat × Word64)) (helpers : Word32) : State :=
  let t := s.handle wg h
  let cur := natLE (t.readN 0 8)
  let step (acc : Handle × Nat × List (Nat × Word64)) (v : Nat × Word64) : Handle × Nat × List (Nat × Word64) :=
    let (t, i, out) := acc
    let off := 8 + esz * (cur + i)
    if off + esz ≤ t.size then (t.writeN off (bytesLE esz v.2.toNat), i + 1, (v.1, BitVec.ofNat 64 (cur + i)) :: out)
    else (t, i + 1, (v.1, 0xFFFFFFFFFFFFFFFF) :: out)
  let (t', n, out) := vals.foldl step (t, 0, [])
  let s := if vals.isEmpty then s else s.updHandle wg h fun _ => t'.writeN 0 (bytesLE 8 (cur + n))
  s.updGroup g.id fun g =>
    (g.fillPend o.seq (helpers ||| maskOf fun l => out.any fun r => r.1 = l) true fun _ l =>
      match out.find? (fun r => r.1 = l) with
      | some r => r.2
      | none => 0xFFFFFFFFFFFFFFFF).finishOp o.seq

/-- A tile load reads its bytes (R163). -/
def State.tloadPerformed (s : State) (g : Group) (o : Op) (accs : List LaneAcc) (wg h n cnt : Nat) (sgn : Bool) : State :=
  let t := s.handle wg h
  let got := accs.map fun a => (a.lane, if a.zero then [] else t.readN a.pa (n * cnt))
  s.updGroup g.id fun g => (g.fillPend o.seq (gotLanes got) true fun k l => loadedValue got n sgn k l).finishOp o.seq

/-- LOAD_COMPLETE: an operation of the LOAD path reads its values, if it may be performed now (R170). -/
def execLoadComplete (gid op : Nat) (l1 : Bool) (s : State) : Out :=
  match s.group? gid with
  | none => .next s
  | some g =>
    match g.op? op with
    | none => .next s
    | some o =>
      if o.fin || s.away gid || !s.ready g o then .next s
      else match o.kind with
        | .load accs n cnt sgn l2 acq => .next (s.loadPerformed g o accs n cnt sgn l2 acq l1)
        | .tload accs wg h n cnt sgn => .next (s.tloadPerformed g o accs wg h n cnt sgn)
        | .append wg h esz vals helpers => .next (s.appendPerformed g o wg h esz vals helpers)
        | .rpoll _ recs ty => .next (s.pollPerformed g o recs ty)
        | _ => .next s

end Sys2Proof.Machine
end

