-- ==== Sys2Proof/Machine/Atomics.lean ====
section
/-!
DEFINITION. Atomics at the L2 and at remote agents (R164 to R169, R434).
-/
set_option Elab.async false
namespace Sys2Proof.Machine
open Sys2Proof

/-- The new value at a location (R164). Floating-point addition keeps subnormals, rounds to nearest and writes the canonical NaN. -/
def atomNew (op : AtomOp) (t : Ty) (old b c : Nat) : Nat :=
  let w := t.width
  let o := intOf t old
  let x := intOf t b
  match op with
  | .add => lowBits w (o + x)
  | .sub => lowBits w (o - x)
  | .min => lowBits w (min o x)
  | .max => lowBits w (max o x)
  | .and => old &&& (b % 2 ^ w)
  | .or => old ||| (b % 2 ^ w)
  | .xor => old ^^^ (b % 2 ^ w)
  | .xchg => b % 2 ^ w
  | .cas => if old = c % 2 ^ w then b % 2 ^ w else old
  | .fadd => (fpAdd { nanq := true } .rne t false false old (b % 2 ^ w)).1
  | .dmin => min old (b % 2 ^ w)

/-- Perform one lane's atomic at its home: the old value (R165, R334). -/
def State.atomAt (s : State) (vf : Nat) (op : AtomOp) (t : Ty) (a : AtomLane) (w : State.Writer) : State × Nat :=
  let n := tyBytes t
  let s := s.serveRead vf a.va a.pa
  let old := natLE (s.homeRead a.pa n)
  (s.write vf a.va a.pa (bytesLE n (atomNew op t old a.b.toNat a.c.toNat)) w, old)

/-- The lanes of an atomic with their operands (R164). -/
def Group.atomLanes (g : Group) (c : Ctl) (b : Src) (op : AtomOp) (accs : List LaneAcc) : List AtomLane :=
  accs.map fun a => { lane := a.lane, va := a.va, pa := a.pa, b := g.srcB c false b a.lane, c := if op = .cas then g.srcC c a.lane else 0 }

/-- The operations that travel to the host as an AtomicOp (R434). -/
def hostAtomic : AtomOp → Bool
  | .add | .sub | .xchg | .cas => true
  | _ => false

/-- How an operation travels to a location: to the host as an AtomicOp, to a peer as an atomic-request message (R434). -/
def atomicKind (loc : Nat) (op : AtomOp) : TlpKind :=
  if physRegion (Loc.pa loc) ≠ .host then .request else match op with | .xchg => .swap | .cas => .cas | _ => .fetchAdd

/-- The request of an atomic's lane goes to its target; a `.sub` goes to the host as FetchAdd of −b (R434). -/
def State.sendAtomic (s : State) (gid seq : Nat) (op : AtomOp) (ty : Ty) (a : AtomLane) : State :=
  let neg : Bool := op = .sub && physRegion (Loc.pa a.pa) = .host
  s.sendOver a.pa gid seq a.lane
    { kind := atomicKind a.pa op, op := if neg then .add else op, ty, opB := if neg then -a.b else a.b, opC := a.c, len := tyBytes ty }

/-- Issue of `atom` and `apost` (R164, R166). -/
def issueAtomic (c : Ctl) (path : Path) (a b : Src) (op : AtomOp) (ty : Ty) (sc : Scope) (ord : AtomOrd) (ret : Bool) (f : Group → Group) (s : State) :
    M (State × Option RegWrite) := do
  ifActive s.cur c (s.scopeOk sc 3)
  s.pathFree path
  let (s, accs) ← s.accept s.cur.vf .atomic (tyBytes ty) ret (s.cur.laneReqs c false fun l => (s.cur.srcA c a l).toNat)
  let g := s.cur
  let acq := if ord = .acq || ord = .ar then some sc else none
  let rel := if ord = .rel || ord = .ar then some sc else none
  pure (s.setCur (f (g.addOp s.steps (some path) (.atomic (g.atomLanes c b op accs) op ty ret acq rel))), none)

def execAtom (c : Ctl) (o : Atom) (s : State) : Out :=
  runInstr (.atom c o) c (issueAtomic c .load o.a o.b o.op o.ty o.scope o.ord true fun g => g.awaiting .v (g.rD c o.d) 1 (g.written c &&& ~~~(g.helpersFor c))) s

def execApost (c : Ctl) (o : APost) (s : State) : Out :=
  runInstr (.apost c o) c (issueAtomic c .store o.a o.b o.op o.ty o.scope o.ord false id) s

/-- One lane of a run on a line; a poisoned line loses an `apost` lane and logs it (R166, R397). -/
def State.atomLane (s : State) (g : Group) (o : Op) (op : AtomOp) (ty : Ty) (ret : Bool) (a : AtomLane) : State × Nat :=
  if !ret && s.poisoned a.pa then (s.logError (s.vf g.vf).slice 0x01 0xFF g.vf 0 (64 * (Loc.pa a.pa / 64)) g.launchId, 0)
  else
    let (s, old) := s.atomAt g.vf op ty a (g.writer o.seq)
    (s.watch g.vf a.va a.pa (tyBytes ty) 2 (g.agent o.pc o.seq), old)

/-- The lanes of an atomic that lie on one line are performed as one run, in lane order (R165). -/
def State.atomRun (s : State) (g : Group) (o : Op) (lanes : List AtomLane) (op : AtomOp) (ty : Ty) (ret : Bool) (acq rel : Option Scope) (line : Nat) :
    State :=
  let mine (a : AtomLane) : Bool := !a.fin && Loc.pa a.pa / 64 = line
  let s := if ret then s.countHits g false ((lanes.filter mine).map (·.va)) else s
  let (s, old) := (lanes.filter mine).foldl (fun (acc : State × List (Nat × Nat)) a =>
    let (s, n) := acc.1.atomLane g o op ty ret a
    (s, (a.lane, n) :: acc.2)) (s, [])
  let lanes := lanes.map fun a => if mine a then { a with fin := true } else a
  let all := lanes.all (·.fin)
  let s := s.updGroup g.id fun g =>
    let g := g.fillPend o.seq (maskOf fun l => old.any fun p => p.1 = l) all fun _ l =>
      match old.find? (fun p => p.1 = l) with
      | some p => oldValue ty p.2
      | none => 0
    if all then g.finishOp o.seq else g.updOp o.seq fun o => { o with kind := .atomic lanes op ty ret acq rel }
  if all then s.acquireAt g acq else s

/-- The requests of an atomic's lanes in host or peer memory go out, once. A lane whose operation the host link does not carry is not sent and takes a
free value (R430; log entry 56). -/
def State.sendLanes (s : State) (g : Group) (o : Op) (lanes : List AtomLane) (op : AtomOp) (ty : Ty) (ret : Bool) (acq rel : Option Scope) : State :=
  let far (a : AtomLane) : Bool := !a.fin && isWindow (Loc.pa a.pa)
  let none_ (a : AtomLane) : Bool := far a && physRegion (Loc.pa a.pa) = .host && !hostAtomic op
  let s := lanes.foldl (fun s a => if far a && !none_ a then s.sendAtomic g.id o.seq op ty a else s) s
  let s := if ret then s.countHits g false ((lanes.filter fun a => far a && !none_ a).map (·.va)) else s
  let lanes' := lanes.map fun a => if none_ a then { a with fin := true } else a
  let all := lanes'.all (·.fin)
  let s := s.updGroup g.id fun g =>
    let g := g.fillPend o.seq (maskOf fun l => lanes.any fun a => a.lane = l && none_ a) all fun _ l =>
      oldValue ty (BitVec.ofNat 64 (Config.freeChoice (32 * s.steps + l))).toNat
    if all then g.finishOp o.seq else g.updOp o.seq fun o => { o with kind := .atomic lanes' op ty ret acq rel, asked := true }
  if all then s.acquireAt g acq else s

/-- ATOMIC_PERFORM: the L2 atomic unit performs the lanes on the line that `lane` addresses; where that lies in host or peer memory, the requests go out
(R165, R166, R434). An atomic with no active lane completes. -/
def execAtomicPerform (gid op l : Nat) (s : State) : Out :=
  match s.group? gid with
  | none => .next s
  | some g =>
    match g.op? op with
    | none => .next s
    | some o =>
      match o.kind with
      | .atomic lanes aop ty ret acq rel =>
        if o.fin || !s.ready g o then .next s
        else if lanes.isEmpty then .next (s.atomRun g o lanes aop ty ret acq rel 0)
        else match lanes.find? (fun a => a.lane = l && !a.fin) with
          | none => .next s
          | some a =>
            if isWindow (Loc.pa a.pa) then .next (if o.asked || !s.tagsLeft then s else s.sendLanes g o lanes aop ty ret acq rel)
            else .next (s.atomRun g o lanes aop ty ret acq rel (Loc.pa a.pa / 64))
      | _ => .next s

/-! ### Remote atomics (R167, R168) -/

/-- Accept the reply records and the targets of a `ratom`, lane by lane, as the accesses of one instruction, each of which needs W (R162, R167, R326). -/
def State.acceptPairs (s : State) (vf : Nat) (replies targets : List LaneReq) : M (State × List (LaneAcc × LaneAcc)) :=
  match s.accept vf .write 1 false ((replies.zip targets).flatMap fun p => [p.1, p.2]) with
  | .error (.xlate st page _ va) => .error (.xlate st page (if replies.any fun r => r.va = va then .write else .atomic) va)
  | .error e => .error e
  | .ok (s, accs) => .ok (s, (List.range replies.length).filterMap fun i =>
      match accs[2 * i]?, accs[2 * i + 1]? with
      | some r, some a => some (r, a)
      | _, _ => none)

/-- `ratom`: each reply record is zeroed, then its request queued at the target (R167). The records and the targets are accepted as one instruction's lines,
all of which it may write (R162, R326); requests over a link are queued once the group's older accesses of their bytes are complete (R305). DESIGN CHOICE: the address of a misaligned reply base is S[D] itself (log entry 69). -/
def execRatom (c : Ctl) (o : RAtom) (s : State) : Out :=
  runInstr (.ratom c o) c (fun s => do
    let g := s.cur
    ifActive g c (s.scopeOk .s 4)
    s.pathFree .rem
    let base := (g.readS (g.rD c o.d)).toNat
    let n := tyBytes o.ty
    ifActive g c (trapIf (base % 16 ≠ 0) .misalign base)
    let targets := g.laneReqs c false fun l => (g.srcA c o.a l).toNat
    let replies := g.laneReqs c false fun l => (base + 16 * l) % 2 ^ 64
    firstReq targets fun r => if r.va % n ≠ 0 then some (.trap .misalign r.va) else none
    let (s, both) ← s.acceptPairs g.vf replies targets
    let recs := both.map (·.1)
    let accs := both.map (·.2)
    s.settled ((recs.map fun r => (0, Loc.pa r.pa, 16)) ++ ((accs.filter fun a => isWindow (Loc.pa a.pa)).map fun a => (0, Loc.pa a.pa, n)))
    (if s.tagsLeft then pure () else .error .stall)
    let lanes := g.atomLanes c o.b o.op accs
    let s := recs.foldl (fun s r =>
      (s.write g.vf r.va r.pa (List.replicate 16 0) g.writer).watch g.vf r.va r.pa 16 1 (g.agent g.me.pc)) s
    let s := lanes.foldl (fun s a =>
      if !isWindow (Loc.pa a.pa) || (physRegion (Loc.pa a.pa) = .host && !hostAtomic o.op) then s else s.sendAtomic g.id g.seq o.op o.ty a) s
    pure (s.setCur (s.cur.addOp s.steps (some .rem) (.ratom lanes o.op o.ty recs)), none)) s

/-- `rpoll` (R169). -/
def execRpoll (c : Ctl) (o : UUn) (s : State) : Out :=
  runInstr (.rpoll c o) c (fun s => do
    s.pathFree .load
    let g := s.cur
    let base := g.uniA c o.a
    ifActive g c (trapIf (base.toNat % 16 ≠ 0) .misalign base.toNat)
    let (s, recs) ← s.accept g.vf .read 16 true (g.laneReqs c false fun l => (base.toNat + 16 * l) % 2 ^ 64)
    let g := s.cur
    let g := g.addOp s.steps (some .load) (.rpoll base recs o.ty)
    pure (s.setCur (g.awaiting .v (g.rD c o.d) 1 (g.written c &&& ~~~(g.helpersFor c))), none)) s

/-- The 16 bytes of a reply record (R168). -/
def replyBytes (status : Nat) (old : Word64) : List Byte := bytesLE 8 (if status = 1 then old.toNat else 0) ++ bytesLE 8 status

/-- A reply record of a function is written, or withheld while the function does not hold its slice (R346, R380). -/
def State.deliverReply (s : State) (vf va pa : Nat) (data : List Byte) (w : State.Writer) (ag : Agent) (lane : Nat) : State :=
  if s.holds vf then (s.write vf va pa data w).watch vf va pa data.length 4 ag else s.withhold vf (.reply va pa data ag lane)

/-- What the target answers for a lane: its own memory performs the operation, refusing a poisoned line, which is recorded (R397; log entry 21); the host gets STATUS 2 for the
operations it is not sent; another agent's answer is what its port brings (R167, R434). -/
def State.remoteAnswer (s : State) (g : Group) (o : Op) (op : AtomOp) (ty : Ty) (a : AtomLane) (fail : Bool) : State × Nat × Word64 :=
  if !isWindow (Loc.pa a.pa) then
    if s.poisoned a.pa then (s.logError (s.vf g.vf).slice 0x01 0xFF g.vf 0 (64 * (Loc.pa a.pa / 64)) g.launchId, 2, 0)
    else
      let (s, old) := s.atomAt g.vf op ty a (g.writer o.seq)
      (s.watch g.vf a.va a.pa (tyBytes ty) 2 (g.agent o.pc o.seq), 1, oldValue ty old)
  else if physRegion (Loc.pa a.pa) = .host && !hostAtomic op then (s, 2, 0)
  else if fail then (s, 3, 0)
  else if s.port.status = 0 then (s, 1, oldValue ty s.port.value.toNat)
  else (s, 2, 0)

/-- The target answers lanes of a remote atomic: the one that the reply names, and, in this device's own memory, all on its line as one run in ascending
order, once the group's older accesses of their bytes are complete. A link can fail no lane of the device's own memory. A lane whose reply record is
withheld is over when that is written (R165, R167, R168, R170, R305, R380). -/
def State.ratomReply (s : State) (gid op l : Nat) (fail : Bool) : State :=
  match s.group? gid with
  | none => s
  | some g =>
    match g.op? op with
    | none => s
    | some o =>
      match o.kind with
      | .ratom lanes aop ty recs =>
        if lanes.isEmpty then s.updGroup gid fun g => g.finishOp op
        else match lanes.find? (fun a => a.lane = l && !a.fin && !a.held) with
        | none => s
        | some a =>
          let near := !isWindow (Loc.pa a.pa)
          let mine (b : AtomLane) : Bool := !b.fin && !b.held && (b.lane = l || (near && Loc.pa b.pa / 64 = Loc.pa a.pa / 64))
          if near && !s.engineReady g op ((lanes.filter mine).map fun b => (0, Loc.pa b.pa, tyBytes ty)) then s
          else
            let now := s.holds g.vf
            let s := (lanes.filter mine).foldl (fun s b =>
              match s.remoteAnswer g o aop ty b (fail && !near), recs.find? (fun r => r.lane = b.lane) with
              | (s, st, old), some r => s.deliverReply g.vf r.va r.pa (replyBytes st old) (g.writer o.seq) (g.agent o.pc o.seq) b.lane
              | (s, _, _), none => s) s
            let lanes := lanes.map fun b => if mine b then { b with fin := now, held := !now } else b
            s.updGroup gid fun g =>
              if lanes.all (·.fin) then g.finishOp op else g.updOp op fun o => { o with kind := .ratom lanes aop ty recs }
      | _ => s

/-- A withheld reply record of a lane has been written (R170, R380). -/
def State.replyWritten (s : State) (gid op l : Nat) : State :=
  s.updGroup gid fun g =>
    match (g.op? op).map Op.kind with
    | some (.ratom lanes aop ty recs) =>
      let lanes := lanes.map fun b => if b.lane = l && b.held then { b with fin := true, held := false } else b
      if lanes.all (·.fin) then g.finishOp op else g.updOp op fun o => { o with kind := .ratom lanes aop ty recs }
    | _ => g

/-- The slice that takes a remote atomic's reply has paused replies: the record would be withheld, and no shadow storage is left for it (R380). -/
def State.repliesPaused (s : State) (gid op : Nat) : Bool :=
  match s.group? gid with
  | none => false
  | some g => match (g.op? op).map Op.kind with
    | some (OpKind.ratom ..) => !s.holds g.vf && s.shadowFull (s.vf g.vf).slice
    | _ => false

/-- RATOM_REPLY (R167): the request is no longer outstanding. -/
def execRatomReply (gid op l : Nat) (fail : Bool) (s : State) : Out :=
  if s.repliesPaused gid op then .next s else
  let s : State := { s with links := s.links.map fun k => { k with np := k.np.filter fun e => !(e.gid = gid && e.op = op && e.lane = l) } }
  .next (s.ratomReply gid op l fail)

end Sys2Proof.Machine
end

