-- ==== Sys2Proof/Machine/Tiles.lean ====
section
/-!
DEFINITION. Tile handles, tile loads and stores, and `append` (R156, R163, R175 to R179, R319).
-/
set_option Elab.async false
namespace Sys2Proof.Machine
open Sys2Proof

/-! ### Tile loads and stores (R163) -/

/-- The lane checks of a tile access: bounds, then alignment; a helper lane's offset raises neither (R163). -/
def tileAccs (t : Handle) (n : Nat) (poison : Bool) (rs : List LaneReq) : M (List LaneAcc) := do
  firstReq rs fun r => if t.size < r.va + n then some (.trap .tileBounds r.va) else none
  firstReq rs fun r => if r.va % n ≠ 0 then some (.trap .misalign r.va) else none
  firstReq rs fun r => if poison && t.poisoned r.va n then some (.poison 0 r.va) else none
  pure (rs.map fun r =>
    let out : Bool := decide (t.size < r.va + n) || r.va % n ≠ 0 || (poison && t.poisoned r.va n)
    { lane := r.lane, va := r.va, pa := r.va, zero := out })

/-- The tile of a per-lane instruction: checked only when some lane is active (R59, R176). -/
def State.laneTile (s : State) (c : Ctl) (h : BitVec 8) (peer : Option (BitVec 2)) (kind : TKind) : M (Nat × Handle) :=
  if s.cur.active c = 0 then .ok (s.cur.wg, {}) else s.tileNamed (s.cur.rA c h) peer kind

def execLdt (c : Ctl) (o : TileOp) (s : State) : Out :=
  runInstr (.ldt c o) c (fun s => do
    s.pathFree .load
    let g := s.cur
    let (wg, t) ← s.laneTile c o.h o.peer .data
    let n := tyBytes o.ty
    let accs ← tileAccs t (n * o.cnt.num) true (g.laneReqs c true fun l => g.tileOff c o.b o.off l)
    let g := g.addOp s.steps (some .load) (.tload accs wg (g.rA c o.h) n o.cnt.num o.ty.isI)
    pure (s.setCur (g.awaiting .v (g.rD c o.d) o.cnt.num (g.written c)), none)) s

def execStt (c : Ctl) (o : TileOp) (s : State) : Out :=
  runInstr (.stt c o) c (fun s => do
    s.pathFree .store
    let g := s.cur
    let (wg, t) ← s.laneTile c o.h o.peer .data
    let accs ← tileAccs t (tyBytes o.ty * o.cnt.num) false (g.laneReqs c false fun l => g.tileOff c o.b o.off l)
    let data := accs.map fun a => g.storeData c o.d o.ty o.cnt.num a.lane
    pure (s.setCur (g.addOp s.steps (some .store) (.tstore accs wg (g.rA c o.h) data)), none)) s

/-- `append`: it reads the cursor's word alone, and raises POISON where that is poisoned (R156, R397). -/
def execAppend (c : Ctl) (o : Append) (s : State) : Out :=
  runInstr (.append c o) c (fun s => do
    s.pathFree .load
    let g := s.cur
    let (wg, t) ← s.laneTile c o.h none .data
    ifActive g c (if t.poisoned 0 8 then .error (.poison 0 0) else pure ())
    let vals := (lanesOf (g.active c)).map fun l => (l, g.readV (g.rB c o.b.reg) l)
    let g := g.addOp s.steps (some .load) (.append wg (g.rA c o.h) (tyBytes o.ty) vals (g.helpersFor c))
    pure (s.setCur (g.awaiting .v (g.rD c o.d) 1 (g.written c)), none)) s

/-! ### Allocation (R175, R319) -/

/-- The limits of a shape (R175). -/
def shapeOk (k : TKind) (v : Word64) : Bool :=
  let rowb := bitsOf v.toNat 31 16
  let rows := bitsOf v.toNat 15 0
  bitsOf v.toNat 63 32 = 0 &&
  (match k with
   | .data => decide (1 ≤ rows) && rowb % 8 = 0 && decide (8 ≤ rowb) && decide (rowb ≤ 65528)
   | .barrier => rows = 1 && rowb = 64
   | .ring => decide (2 ≤ rows) && decide (rows ≤ 4096) && rowb % 8 = 0 && decide (8 ≤ rowb) && decide (rowb ≤ 256))

/-- `talloc` (R175). -/
def execTalloc (c : Ctl) (o : TAlloc) (s : State) : Out :=
  runInstr (.talloc c o) c (groupLevel c fun s => do
    let g := s.cur
    let h := g.rD c o.h
    let t := s.handle g.wg h
    trapIf (t.st = .allocated || t.st = .freeing || t.prog.isSome) .tileKind
    let v := g.uniA c o.a
    trapIf (!shapeOk o.kind v) .tileBounds
    pure (s.updHandle g.wg h fun t =>
      { t with prog := some (o.clus, o.kind, bitsOf v.toNat 15 0, bitsOf v.toNat 31 16), progBy := g.id }, none)) s

/-- TALLOC_COMPLETE: an allocation in progress completes (R175). -/
def execTallocComplete (wg h : Nat) (s : State) : Out := .next (s.finishAlloc wg h)

/-- `tfree`: ALLOCATED becomes FREEING, and a barrier breaks; FAILED becomes FREE (R177). -/
def execTfree (c : Ctl) (h : BitVec 8) (s : State) : Out :=
  runInstr (.tfree c h) c (groupLevel c fun s => do
    let n := s.cur.rA c h
    let t := s.handle s.cur.wg n
    if t.prog.isSome then .error .stall
    else do
      trapIf (t.st = .free || t.st = .freeing) .tileKind
      let key := s.cur.wg
      pure ((s.updHandle key n Handle.freed).wakeWaiters (fun b => b = .tile key n) 0xFFFF 0, none)) s

/-- TILE_RELEASE: a FREEING handle becomes FREE once no operation uses its tile (R177). -/
def execTileRelease (wg h : Nat) (s : State) : Out :=
  if (s.handle wg h).st = .freeing && !s.tileBusy wg h then .next (s.updHandle wg h fun _ => {}) else .next s

/-- Codes of a handle's state and kind (R178). -/
def HState.code : HState → Nat
  | .free => 0 | .allocated => 1 | .failed => 2 | .freeing => 3

/-- The summary of a handle (R178). -/
def Handle.summary (t : Handle) : Word64 :=
  BitVec.ofNat 64 (2 ^ 35 * t.st.code +
    if t.st = .allocated then t.rows + 2 ^ 16 * t.rowb + 2 ^ 32 * b2n t.clus + 2 ^ 33 * t.kind.code.toNat else 0)

/-- `tqry` (R178). -/
def execTqry (c : Ctl) (o : TQry) (s : State) : Out :=
  runInstr (.tqry c o) c (groupLevel c fun s =>
    let g := s.cur
    let t := s.handle g.wg (g.rA c o.h)
    if t.prog.isSome then .error .stall
    else .ok (s.setCur (g.addPend .s (g.rD c o.d) allLanes (Lanes.const t.summary) true), none)) s

end Sys2Proof.Machine
end

