-- ==== Sys2Proof/Machine/Barrier.lean ====
section
/-!
DEFINITION. Transaction barriers in tiles and in global memory (R180, R181, R190 to R199).
-/
set_option Elab.async false
namespace Sys2Proof.Machine
open Sys2Proof

/-! ### Layout and place (R190, R197, R325) -/

/-- The 64 bytes of a barrier (R190). -/
def Barrier.bytes (b : Barrier) : List Byte :=
  bytesLE 4 b.expc.toNat ++ bytesLE 4 b.arvc.toNat ++ bytesLE 8 b.pend.toNat ++ bytesLE 4 (b2n b.phase + 2 * b2n b.armed + 4 * b2n b.broken) ++
  bytesLE 4 b.gen.toNat ++ bytesLE 8 b.last.toNat ++ bytesLE 8 (b.long.toNat + 2 ^ 16 * b.lwait.toNat) ++ List.replicate 24 0

/-- The barrier that 64 bytes hold (R190). -/
def Barrier.ofBytes (d : List Byte) : Barrier :=
  let at_ (o n : Nat) : Nat := natLE ((d.drop o).take n)
  { expc := BitVec.ofNat 32 (at_ 0 4), arvc := BitVec.ofNat 32 (at_ 4 4), pend := BitVec.ofNat 64 (at_ 8 8), phase := bitOf (at_ 16 4) 0,
    armed := bitOf (at_ 16 4) 1, broken := bitOf (at_ 16 4) 2, gen := BitVec.ofNat 32 (at_ 20 4), last := BitVec.ofNat 16 (at_ 24 2),
    long := BitVec.ofNat 16 (at_ 32 2), lwait := BitVec.ofNat 48 (at_ 34 6) }

/-- Barrier lines that an L2 slice can register: 4, or 8 for the partner of a retired slice (R197, R402). -/
def State.barRoom (s : State) (ix : Nat) : Nat := if s.retired.contains (2, ix ^^^ 1) then 8 else 4

/-- Two names of one barrier. -/
def BarLoc.same : BarLoc → BarLoc → Bool
  | .tile w h, .tile v k => w = v && h = k
  | .glob _ _ p, .glob _ _ q => Loc.pa p / 64 = Loc.pa q / 64
  | _, _ => false

/-- A barrier as it stands; a global one is armed exactly while its line is registered (R191). -/
def State.readBar (s : State) : BarLoc → Barrier
  | .tile wg h => (s.handle wg h).bar
  | .glob _ _ pa => { Barrier.ofBytes (s.homeRead pa 64) with armed := s.barLines.any fun b => Loc.pa b.1 / 64 = Loc.pa pa / 64 }

/-- UNARMED (R191). -/
def Barrier.unarmed (b : Barrier) : Bool := !b.armed && !b.broken

/-- Write a barrier for a group's instruction; a global one that is no longer armed gives up its line (R196, R197). -/
def State.writeBar (s : State) (l : BarLoc) (b : Barrier) (w : State.Writer) : State :=
  match l with
  | .tile wg h => s.updHandle wg h fun t => { t with bar := b }
  | .glob vf va pa =>
    let s := s.write vf va pa b.bytes { w with bar := true }
    if b.armed then s else { s with barLines := s.barLines.filter fun x => Loc.pa x.1 / 64 ≠ Loc.pa pa / 64 }

/-! ### Steps on an armed barrier (R191, R193) -/

/-- One arrival, by the group coded `id`: one that finds ARVC = EXPC breaks the barrier (R191, R199). -/
def Barrier.arrive (prof : Bool) (id : BitVec 16) (b : Barrier) : Barrier :=
  if b.arvc = b.expc then b.break_ else { b with arvc := b.arvc + 1, last := if prof then id else b.last }

/-- A byte count. -/
def Barrier.count (n : Word64) (b : Barrier) : Barrier := { b with pend := b.pend + n }

/-- The byte count and the arrival of `tbar.exp.arv`: the arrival is tested against ARVC as the step found it (R191, R193). -/
def Barrier.countArrive (prof : Bool) (id : BitVec 16) (n : Word64) (b : Barrier) : Barrier := (b.count n).arrive prof id

/-- The check at the end of a step (R191). -/
def Barrier.phaseDone (b : Barrier) : Bool := b.armed && b.arvc = b.expc && b.pend = 0

/-- The completion of a phase (R191). -/
def Barrier.nextPhase (b : Barrier) : Barrier := { b with phase := !b.phase, gen := b.gen + 1, arvc := 0 }

/-- AN INDIVISIBLE STEP THAT CHANGES ARVC OR PEND: on an ARMED barrier `f` is made and the check of R191 applied once; any other is left alone (R191,
R193). `lpc` is the unit of the instruction that makes it. -/
def State.barStep (s : State) (l : BarLoc) (f : Barrier → Barrier) (lpc : Word32) (w : State.Writer) : State :=
  let b := s.readBar l
  if !b.armed then s
  else
    let b := f b
    if b.broken then (s.writeBar l b w).wakeWaiters (BarLoc.same l) 0xFFFF 0
    else if b.phaseDone then (s.writeBar l b.nextPhase w).wakeWaiters (BarLoc.same l) b.last.toNat lpc
    else s.writeBar l b w

/-- A barrier breaks (R196). -/
def State.breakBar (s : State) (l : BarLoc) (w : State.Writer) : State := s.barStep l Barrier.break_ 0 w

/-- Profiling is enabled for a group's slice (R413). -/
def State.profiled (s : State) (g : Group) : Bool := (s.gran g.slice).prof

/-- A consumer of a poisoned tile word, other than `ldt`, `append` and `ring.pop`, faults its launch with FCAUSE 0x10; the consumption is logged (R397). -/
def State.consume (s : State) (g : Group) (pc : Word32) (poisoned : Bool) : State :=
  if poisoned then (s.logError (s.vf g.vf).slice 0x01 0xFF g.vf 0 0 g.launchId).faultLaunch g.launch 0x10 pc 0 else s

/-! ### Naming a barrier (R180, R176, R197) -/

/-- The bytes of a global barrier. -/
def BarLoc.spans : BarLoc → List Span
  | .tile .. => []
  | .glob _ _ pa => [(0, Loc.pa pa, 64)]

/-- The barrier that an instruction names, after its checks; a global one is read at its home, and its core keeps no copy of the line (R308). Its checks are those of a handle, or those of an atomic on 64 bytes (R162, R176, R180, R197). -/
def State.barAt (s : State) (c : Ctl) : BarRef → M (State × BarLoc)
  | .tile h => do
    let (k, t) ← s.tileNamed (s.cur.rA c h) none .barrier
    pure (s.consume s.cur s.cur.me.pc (!t.poison.isEmpty), .tile k (s.cur.rA c h))
  | .peer h n => do
    let (k, t) ← s.tileNamed (s.cur.rA c h) (some n) .barrier
    pure (s.consume s.cur s.cur.me.pc (!t.poison.isEmpty), .tile k (s.cur.rA c h))
  | .glob a => do
    let va := (s.cur.uniA c a).toNat
    let (s, accs) ← s.accept s.cur.vf .atomic 64 true [{ lane := 0, va }]
    let pa := ((accs.head?).map (·.pa)).getD 0
    let s := ((s.serveRead s.cur.vf va pa).dropCoreLine (some s.cur.coreIx) pa).watch s.cur.vf va pa 64 2 (s.cur.agent s.cur.me.pc)
    pure (s, .glob s.cur.vf va pa)

/-- The same, with the barrier found not UNARMED (R193 to R195). -/
def State.barArmed (s : State) (c : Ctl) (r : BarRef) : M (State × BarLoc × Barrier) := do
  let (s, l) ← s.barAt c r
  let b := s.readBar l
  trapIf b.unarmed .barrierState
  pure (s, l, b)

/-- A copy in flight that counts at a barrier, or acknowledges there (R186, R192). -/
def OpKind.countsAt (l : BarLoc) : OpKind → Bool
  | .copy c => c.recv.any fun r => (match r.bar with | some b => b.same l | none => false) || (match r.ack with | some b => b.same l | none => false)
  | _ => false

/-- `tbar.init` (R192, R197). -/
def execTbarInit (c : Ctl) (o : BarB) (s : State) : Out :=
  runInstr (.tbarInit c o) c (groupLevel c fun s => do
    let (s, l) ← s.barAt c o.bar
    let n := (s.cur.uniB c o.b).toNat
    trapIf (n = 0 || decide (2 ^ 32 ≤ n) || (s.readBar l).armed) .barrierState
    s.settled l.spans
    let home := match l with | .glob vf va _ => s.l2Home vf va | .tile .. => 0
    let full : Bool := match l with
      | .glob .. => decide (s.barRoom home ≤ (s.barLines.filter fun b => b.2.1 = home).length)
      | .tile .. => false
    if full || s.allGroups.any fun g => g.ops.any fun p => !p.fin && p.kind.countsAt l then .error .stall
    else
      let s := s.writeBar l { expc := BitVec.ofNat 32 n, armed := true } s.cur.writer
      pure (match l with
        | .glob _ _ pa => ({ s with barLines := (pa, home, s.cur.vf) :: s.barLines }, none)
        | .tile .. => (s, none))) s

/-- TBAR_INIT_ARM: a slot that stands at a `tbar.init` issues it again; it arms the barrier once the copies that count there are complete (R192). -/
def execTbarInitArm (gid : Nat) (slot1 : Bool) (s : State) : Out :=
  match s.select gid slot1 with
  | none => .next s
  | some t =>
    if !t.cur.canIssue slot1 || t.cur.me.blk.entry ≠ .none then .next s
    else match t.fetchItem with
      | .ok (u, .tbarInit c o) => (execTbarInit c o u).andThen fun v => .next (v.unstarted t.cur slot1)
      | _ => .next s

/-- Some older load, store or tile access of a group is still open (R193). -/
def Group.accessOpen (g : Group) (seq : Nat) : Bool :=
  g.ops.any fun o => !o.fin && decide (o.seq < seq) && (o.path = some .load || o.path = some .store)

/-- A deferred step of the group at a barrier (R193). -/
def Group.deferredAt (g : Group) (seq : Nat) (l : BarLoc) : Bool :=
  g.ops.any fun o => !o.fin && decide (o.seq < seq) && (match o.kind with | .arrive b _ _ => b.same l | _ => false)

/-- A step of the group at place `seq` has to wait: an arrival for the group's older accesses, a byte count for its older deferred steps there, and
either for an open acquire and, at a global barrier, for the older accesses of the line (R193, R304, R305; log entry 22). -/
def State.arrivalWaits (s : State) (g : Group) (seq : Nat) (l : BarLoc) (arv : Bool) : Bool :=
  (if arv then g.accessOpen seq else g.deferredAt seq l) || !s.engineReady g seq l.spans

/-- What `tbar.arv`, `tbar.exp` and `tbar.exp.arv` do to the barrier (R193). -/
def State.arriveNow (s : State) (g : Group) (seq : Nat) (l : BarLoc) (n : Word64) (arv : Bool) (pc : Word32) : State :=
  s.barStep l (fun b => if arv then b.countArrive (s.profiled g) g.lastId n else b.count n) pc (g.writer seq)

/-- Issue of an arrival or a byte count: at once, or deferred behind the group's older accesses, or behind its deferred steps (R193). -/
def issueArrival (c : Ctl) (r : BarRef) (n : Group → Word64) (arv : Bool) (s : State) : M (State × Option RegWrite) := do
  let (s, l, b) ← s.barArmed c r
  let g := s.cur
  if !b.armed then pure (s, none)
  else if s.arrivalWaits g g.seq l arv then pure (s.setCur (g.addOp s.steps none (.arrive l (n g) arv)), none)
  else pure (s.arriveNow g g.seq l (n g) arv g.me.pc, none)

def execTbarArv (c : Ctl) (bar : BarRef) (s : State) : Out :=
  runInstr (.tbarArv c bar) c (groupLevel c (issueArrival c bar (fun _ => 0) true)) s
def execTbarExp (c : Ctl) (o : BarB) (s : State) : Out :=
  runInstr (.tbarExp c o) c (groupLevel c (issueArrival c o.bar (fun g => g.uniB c o.b) false)) s
def execTbarExpArv (c : Ctl) (o : BarB) (s : State) : Out :=
  runInstr (.tbarExpArv c o) c (groupLevel c (issueArrival c o.bar (fun g => g.uniB c o.b) true)) s

/-- ARRIVAL_PERFORMED: a deferred arrival or byte count is performed once what it waits for is complete (R193). -/
def execArrivalPerformed (gid op : Nat) (s : State) : Out :=
  match s.group? gid with
  | none => .next s
  | some g =>
    match g.op? op with
    | none => .next s
    | some o =>
      match o.kind with
      | .arrive l n arv =>
        if o.fin || s.arrivalWaits g op l arv then .next s
        else .next ((s.arriveNow g op l n arv o.pc).updGroup gid fun g => g.finishOp op)
      | _ => .next s

/-! ### Waits and tests (R194, R198, R199) -/

/-- The parity that a wait or a test compares with (R180). -/
def Group.parity (g : Group) (c : Ctl) : Par → Bool
  | .imm b => b
  | .reg r => (g.uniB c r).getLsbD 0

/-- The scope of a barrier (R198). -/
def State.barScope (s : State) : BarLoc → Scope
  | .glob .. => .t
  | .tile wg h => if (s.handle wg h).clus then .k else .w

/-- LONG and LWAIT take a wait that is longer (R199). -/
def State.noteWait (s : State) (l : BarLoc) : State :=
  let g := s.cur
  match g.me.wait with
  | none => s
  | some k =>
    let b := s.readBar l
    let len := min (s.clocksSince g k) (2 ^ 48 - 1)
    let live : Bool := match l with | .tile wg h => (s.handle wg h).st = .allocated && (s.handle wg h).kind = .barrier | .glob .. => true
    if s.profiled g && live && decide (b.lwait.toNat < len) then s.writeBar l { b with long := g.lastId, lwait := BitVec.ofNat 48 len } g.writer else s

/-- A `tbar.wait` returns: beacon record, longest wait, and the acquire of a completed phase (R194, R198, R416). -/
def State.waitOver (s : State) (l : BarLoc) (broken : Bool) (id : Nat) (lpc : Word32) : State :=
  let s := (s.beacon 3 0 (if broken then 0xFFFF else id) (if broken then 0 else lpc.toNat)).noteWait l
  let s := match l with | .glob _ _ pa => s.dropCoreLine (some s.cur.coreIx) pa | .tile .. => s
  if broken then s else s.acquireAt s.cur (some (s.barScope l))

/-- `tbar.wait`. A wait that has begun returns once it is woken, or once GEN has moved or the barrier is BROKEN (R194, R375). -/
def execTbarWait (c : Ctl) (o : BarPar) (s : State) : Out :=
  runInstr (.tbarWait c o) c (groupLevel c fun s =>
    match s.cur.me.tw, s.cur.me.woken with
    | some (l, _), some (id, lpc) => .ok (s.waitOver l (id = 0xFFFF) id lpc, none)
    | some (l, gen), none =>
      let b := s.readBar l
      if b.broken || b.gen ≠ gen then .ok (s.waitOver l b.broken b.last.toNat 0, none) else .error (.wait l gen)
    | none, _ => do
      let (s, l, b) ← s.barArmed c o.bar
      s.settled l.spans
      if b.broken || b.phase != s.cur.parity c o.par then pure (s.waitOver l b.broken b.last.toNat 0, none)
      else .error (.wait l b.gen)) s

/-- The result of a barrier test, class L, in every written lane (R181, R194). -/
def testResult (c : Ctl) (d : BitVec 8) (v : Bool) : State → M (State × Option RegWrite) :=
  longResult fun g => (g.laneWrite c .p (g.rD c d) fun _ => predVal v, 0)

/-- A poll that writes 0 goes on; one that writes 1 ends, with its beacon record (R416). -/
def State.polled (s : State) (l : BarLoc) (v : Bool) : State :=
  let g := s.cur
  match g.polls.find? (fun q => q.bar.same l) with
  | none => if v then s else s.setCur { g with polls := { bar := l, since := s.steps } :: g.polls }
  | some q =>
    if v then
      let e := q.fin.getD ((s.readBar l).last.toNat, 0)
      (s.setCur { g with polls := g.polls.filter fun q => !q.bar.same l }).beaconSince g g.me.pc q.since 3 0 e.1 e.2.toNat
    else s

/-- `tbar.test.ph` (R194). DEDUCED: its read, made at issue, comes behind an open acquire and the group's own accesses of the line (R304, R305; log entry
22). -/
def execTbarTestPh (c : Ctl) (o : BarTest) (s : State) : Out :=
  runInstr (.tbarTestPh c o) c (fun s =>
    if s.cur.active c = 0 then testResult c o.d false s
    else do
      let (s, l, b) ← s.barArmed c o.bar
      s.settled l.spans
      let v := b.broken || b.phase != s.cur.parity c o.par
      let s := s.polled l v
      testResult c o.d v (if v && !b.broken then s.acquireAt s.cur (some (s.barScope l)) else s)) s

/-- `tbar.test.brk` (R194; log entry 22). -/
def execTbarTestBrk (c : Ctl) (o : BarBrk) (s : State) : Out :=
  runInstr (.tbarTestBrk c o) c (fun s =>
    if s.cur.active c = 0 then testResult c o.d false s
    else do
      let (s, l, b) ← s.barArmed c o.bar
      s.settled l.spans
      testResult c o.d b.broken s) s

/-- `tbar.inval` (R195). -/
def execTbarInval (c : Ctl) (bar : BarRef) (s : State) : Out :=
  runInstr (.tbarInval c bar) c (groupLevel c fun s => do
    let (s, l, _) ← s.barArmed c bar
    s.settled l.spans
    pure (s.breakBar l s.cur.writer, none)) s

end Sys2Proof.Machine
end

