-- ==== Sys2Proof/Machine/Copy.lean ====
section
/-!
DEFINITION. Asynchronous copies (R180 to R189).
-/
set_option Elab.async false
namespace Sys2Proof.Machine
open Sys2Proof

/-- The swizzle of a tile offset (R184). -/
def swz (rowb o rot : Nat) : Nat := o ^^^ (o / rowb % 2 ^ rot * 32)

/-! ### What a copy moves (R184, R187) -/

/-- Bytes of a row of a copy. -/
def CopyOp.rowBytes (c : CopyOp) : Nat := match c.kind with | .win w => w.wwm * w.pb + w.pb | _ => c.rb

/-- Bytes of a copy for one receiver. -/
def CopyOp.total (c : CopyOp) : Nat := c.nr * c.rowBytes

/-- The global address of a window's pixel, none where it is zero filled (R187). -/
def CopyOp.pixel (c : CopyOp) (w : WinDesc) (row col : Nat) : Option Nat :=
  let y := w.y0 + (row : Int)
  let x := w.x0 + (col : Int)
  let inside := decide (0 ≤ y) && decide (y < (w.hgt : Int)) && decide (0 ≤ x) && decide (x < (w.wid : Int))
  if !inside && !w.clamp then none
  else
    let y := (max 0 (min y ((w.hgt : Int) - 1))).toNat
    let x := (max 0 (min x ((w.wid : Int) - 1))).toNat
    some ((c.ga + y * c.gp + x * w.pb) % 2 ^ 64)

/-- The global address of a copy's byte `ix`. -/
def CopyOp.src (c : CopyOp) (ix : Nat) : Option Nat :=
  let row := ix / c.rowBytes
  let b := ix % c.rowBytes
  match c.kind with
  | .win w => (c.pixel w row (b / w.pb)).map fun a => (a + b % w.pb) % 2 ^ 64
  | _ => some ((c.ga + row * c.gp + b) % 2 ^ 64)

/-- The tile byte of a copy's byte `ix` in a tile with rows of `rowb` bytes. -/
def CopyOp.dst (c : CopyOp) (rowb ix : Nat) : Nat := swz rowb (c.to_ + ix / c.rowBytes * rowb + ix % c.rowBytes) c.rot

/-- The runs of global memory that a copy touches: address and length. -/
def CopyOp.runs (c : CopyOp) : List (Nat × Nat) :=
  (List.range c.nr).flatMap fun row =>
    match c.kind with
    | .win w => (List.range (w.wwm + 1)).filterMap fun col => (c.pixel w row col).map fun a => (a, w.pb)
    | _ => [((c.ga + row * c.gp) % 2 ^ 64, c.rb)]

/-- The pages that runs touch, each with the lowest address in it, ascending; a run wraps at the end of the address space. -/
def pagesOf (runs : List (Nat × Nat)) : Sparse (Option Nat) :=
  runs.foldl (fun m r =>
    let put (m : Sparse (Option Nat)) (a : Nat) : Sparse (Option Nat) :=
      match Sparse.get none m (a / 65536) with
      | some b => if a < b then Sparse.set none m (a / 65536) (some a) else m
      | none => Sparse.set none m (a / 65536) (some a)
    let e := r.1 + r.2 - 1
    (List.range (e / 65536 - r.1 / 65536 + 1)).foldl (fun m i => put m (if i = 0 then r.1 else (r.1 / 65536 + i) * 65536 % 2 ^ 64)) m) []

/-- Translate pages in ascending order, and check them for a kind of access: XLATE for the first without a translation, then PERM (R185, R188). -/
def State.mapPages (s : State) (vf : Nat) (kind : AccKind) (pages : List (Nat × Nat)) : M (State × List PageMap) := do
  let (s, rs) := pages.foldl (fun (acc : State × List (Nat × State.Xlat)) p =>
    match acc.1.translate vf p.2 with
    | (s, x) => (s, (p.2, x) :: acc.2)) (s, [])
  let rs := rs.reverse
  match rs.findSome? (fun r => match r.2 with | .missing st p => some (Stop.xlate st p kind r.1) | _ => none) with
  | some e => .error e
  | none =>
    match rs.findSome? (fun r => match r.2 with
      | .ok _ a => if a.permits kind then none else some (Stop.trap .perm r.1)
      | .malformed e => some (.malformed e r.1)
      | _ => none) with
    | some e => .error e
    | none => pure (s, rs.filterMap fun r => match r.2 with
        | .ok l a => some { vpage := r.1 / 65536, ppage := l - r.1 % 65536, attr := a }
        | _ => none)

/-- The captured location of an address in a list of pages. -/
def pageLoc (pages : List PageMap) (va : Nat) : Nat :=
  match pages.find? (fun p => p.vpage = va / 65536) with
  | some p => p.ppage + va % 65536
  | none => 0

/-- The captured attributes of an address in a list of pages. -/
def pageAttr (pages : List PageMap) (va : Nat) : Attr := match pages.find? (fun p => p.vpage = va / 65536) with | some p => p.attr | none => {}

/-! ### Issue (R181 to R183, R186 to R188) -/

/-- The tile bounds of R183 and R187. -/
def CopyOp.fits (c : CopyOp) (t : Handle) : Bool :=
  decide (0 < c.nr) && decide (0 < c.rowBytes) && decide (c.to_ % t.rowb + c.rowBytes ≤ t.rowb) &&
  decide (c.to_ + (c.nr - 1) * t.rowb + c.rowBytes ≤ t.size) && (c.rot = 0 || t.rowb % (32 * 2 ^ c.rot) = 0) &&
  (match c.kind with | .win w => decide (0 < w.hgt) && decide (0 < w.wid) && decide (0 < w.pb) | _ => true)

/-- A handle as a copy checks it first: a stall while it is being allocated, TILE_KIND for its state, kind or level (R176, R188). -/
def copyHandle (t : Handle) (kind : TKind) (clus : Bool) : M Unit :=
  if t.prog.isSome then .error .stall
  else trapIf (t.st = .free || t.st = .freeing || (t.st = .allocated && (t.kind ≠ kind || (clus && !t.clus)))) .tileKind

/-- A tile barrier that a copy counts at, and its checks: none with NOBAR. -/
abbrev BarName := Option (Nat × Nat)

/-- The shape of a copy, from its descriptor registers: `cpy.in`, `cpy.out` and `cpy.mc` (R183). -/
def rowShape (kind : CopyKind) (u0 u1 u2 : Word64) : CopyOp × Bool :=
  ({ kind, ga := u0.toNat, gp := bitsOf u1.toNat 63 32, to_ := bitsOf u1.toNat 31 0, rot := bitsOf u2.toNat 33 32, rb := bitsOf u2.toNat 31 16,
     nr := bitsOf u2.toNat 15 0, recv := [], pages := [] }, bitsOf u2.toNat 63 34 ≠ 0)

/-- The shape of `cpy.win` (R187). -/
def winShape (u0 u1 u2 u3 : Word64) : CopyOp × Bool :=
  let w : WinDesc :=
    { hgt := bitsOf u1.toNat 31 16, wid := bitsOf u1.toNat 15 0, y0 := signedOf 16 (bitsOf u2.toNat 63 48),
      x0 := signedOf 16 (bitsOf u2.toNat 47 32), wwm := bitsOf u2.toNat 23 16, pb := 8 * bitsOf u2.toNat 15 8, clamp := u2.getLsbD 7 }
  ({ kind := .win w, ga := u0.toNat, gp := bitsOf u1.toNat 63 32, to_ := bitsOf u3.toNat 31 0, rot := bitsOf u3.toNat 33 32, rb := 0,
     nr := bitsOf u2.toNat 31 24 + 1, recv := [], pages := [] }, bitsOf u2.toNat 6 0 ≠ 0 || bitsOf u3.toNat 63 34 ≠ 0)

/-- The lowest of a list of addresses. -/
def lowest (l : List Nat) : Option Nat := l.min?

/-- THE CHECKS OF A COPY AND ITS ISSUE, in the order of R188. `wgs` are the receivers' workgroup numbers, none for the issuing workgroup's own tile;
`low` says that some receiver does not exist. -/
def issueCopy (c : Ctl) (shape : CopyOp × Bool) (d : BitVec 8) (bar ack : Option (BitVec 8)) (wgs : Option (List Nat)) (low : Bool) (s : State) :
    M (State × Option RegWrite) := do
  let g := s.cur
  trapIf (g.gid ≠ g.producer || g.producer = 0xFF) .copyRights
  let keys : List (Option Nat) := match wgs with
    | none => [some g.wg]
    | some l => l.map fun n => s.peerWg g n
  let hD := g.rD c d
  let clus := wgs.isSome
  let tile (k : Option Nat) (h : Nat) : Handle := match k with | some k => s.handle k h | none => {}
  let _ ← keys.mapM fun k => copyHandle (tile k hD) .data clus
  let _ ← keys.mapM fun k => match bar with | some b => copyHandle (tile k (g.rB c b)) .barrier false | none => pure ()
  (match ack with | some b => copyHandle (s.handle g.wg (idxReg c.idxC b g.x)) .barrier false | none => pure ())
  trapIf low .tileBounds
  trapIf (keys.any fun k => (tile k hD).st = .failed || (match bar with | some b => (tile k (g.rB c b)).st = .failed | none => false)) .tileBounds
  trapIf (match ack with | some b => (s.handle g.wg (idxReg c.idxC b g.x)).st = .failed | none => false) .tileBounds
  trapIf (keys.any fun k => !shape.1.fits (tile k hD)) .tileBounds
  trapIf (keys.any fun k => match bar with | some b => (tile k (g.rB c b)).bar.unarmed | none => false) .barrierState
  trapIf (match ack with | some b => (s.handle g.wg (idxReg c.idxC b g.x)).bar.unarmed | none => false) .barrierState
  trapIf shape.2 .illegal
  let runs := shape.1.runs
  let odd := lowest ((runs.map (·.1)).filter fun a => a % 8 ≠ 0)
  trapIf (shape.1.ga % 8 ≠ 0 || shape.1.gp % 8 ≠ 0 || shape.1.to_ % 8 ≠ 0) .misalign (odd.getD 0)
  let pages := (pagesOf runs).filterMap fun p => p.2.map fun a => (p.1, a)
  (match pages.find? (fun p => decide (2 ^ 57 ≤ p.2)) with
    | some p => .error (.trap .perm p.2)
    | none => pure ())
  let (s, maps) ← s.mapPages g.vf (match shape.1.kind with | .out => .write | _ => .read) pages
  let recv := keys.filterMap fun k => k.map fun k =>
    { wg := k, h := hD, rowb := (s.handle k hD).rowb, bar := bar.map fun b => .tile k (g.rB c b),
      ack := ack.map fun b => .tile g.wg (idxReg c.idxC b g.x) : CopyRecv }
  pure (s.setCur (s.cur.addOp s.steps (some .copy) (.copy { shape.1 with recv, pages := maps })), none)

/-- A group-level instruction that raises a path's counter and lowers it in issue order when no lane passes its guard (R181, R223). -/
def counted (c : Ctl) (p : Path) (body : State → M (State × Option RegWrite)) (s : State) : M (State × Option RegWrite) := do
  s.pathFree p
  if s.cur.passes c then body s
  else
    let g := s.cur.addOp s.steps (some p) .null
    pure (s.setCur ((g.updOp g.seq fun o => { o with fin := true }).sweep), none)

def execCpyIn (c : Ctl) (o : Cpy) (s : State) : Out :=
  runInstr (.cpyIn c o) c (counted c .copy fun s =>
    let g := s.cur
    let u := g.rA c o.u.reg
    issueCopy c (rowShape .in_ (g.readS u) (g.readS (u + 1)) (g.readS (u + 2))) o.d o.bar none none false s) s

def execCpyOut (c : Ctl) (o : Cpy) (s : State) : Out :=
  runInstr (.cpyOut c o) c (counted c .copy fun s =>
    let g := s.cur
    let u := g.rA c o.u.reg
    issueCopy c (rowShape .out (g.readS u) (g.readS (u + 1)) (g.readS (u + 2))) o.d o.bar none none false s) s

/-- `cpy.mc`: WGM 0 selects every workgroup of the gang (R186). -/
def execCpyMc (c : Ctl) (o : CpyMc) (s : State) : Out :=
  runInstr (.cpyMc c o) c (counted c .copy fun s =>
    let g := s.cur
    let u := g.rA c o.u.reg
    let m := if o.wgm = 0 then 2 ^ g.gangN - 1 else o.wgm.toNat
    issueCopy c (rowShape .mc (g.readS u) (g.readS (u + 1)) (g.readS (u + 2))) o.d (some o.b) (some c.srcC)
      (some ((List.range g.gangN).filter fun n => bitOf m n)) (decide (2 ^ g.gangN ≤ m)) s) s

def execCpyWin (c : Ctl) (o : Cpy) (s : State) : Out :=
  runInstr (.cpyWin c o) c (counted c .copy fun s =>
    let g := s.cur
    let u := g.rA c o.u.reg
    issueCopy c (winShape (g.readS u) (g.readS (u + 1)) (g.readS (u + 2)) (g.readS (u + 3))) o.d o.bar none none false s) s

/-! ### Moving and counting bytes (R184 to R186, R189) -/

/-- A copy's byte waits for the group's older accesses to the same tile byte; its global byte is read as a load at the copy's place reads, or written after
the group's older accesses of it (R189, R305, R315). -/
def State.copyByteReady (s : State) (g : Group) (seq : Nat) (r : CopyRecv) (off : Nat) (loc : Option Nat) : Bool :=
  let tile : List Span := [(tileSpace r.wg r.h, off, 1)]
  (g.olderOpen seq).all (fun o => !overlaps o.kind.touch tile) &&
  (match loc with
   | some l => s.engineReady g seq [(0, Loc.pa l, 1)]
   | none => true)

/-- Byte `j` of a copy stands beside byte `b`, in one row and one line of memory. -/
def CopyOp.beside (k : CopyOp) (b j : Nat) : Bool :=
  j / k.rowBytes = b / k.rowBytes && (match k.src b, k.src j with | some x, some y => x / 64 = y / 64 && y + b = x + j | _, _ => false)

/-- The bytes of a copy that stand beside byte `b`: the first of them, and how many. -/
def CopyOp.lineRun (k : CopyOp) (b : Nat) : Nat × Nat :=
  let lo := ((List.range 64).takeWhile fun i => decide (i ≤ b) && k.beside b (b - i)).length - 1
  (b - lo, lo + ((List.range 64).takeWhile fun i => k.beside b (b + i)).length)

/-- The watch event of a copy's access of a line, made when the first of its bytes there moves, which is when the controller serves a read of it (R331, R346,
R420; log entry 38). `base` numbers the receiver's first byte. -/
def State.watchCopy (s : State) (g : Group) (o : Op) (k : CopyOp) (base b va loc acc : Nat) : State :=
  let (f, n) := k.lineRun b
  if (List.range n).any fun i => k.fin.contains (base + f + i) then s
  else (if acc = 3 then s.serveRead g.vf va loc else s).watch g.vf (va + f - b) (loc + f - b) n acc (g.agent o.pc o.seq)

/-- Move one byte of a copy to or from receiver `r`; says whether a poisoned line was read (R184, R185, R397). -/
def State.moveByte (s : State) (g : Group) (o : Op) (k : CopyOp) (r : CopyRecv) (base b : Nat) : State × Bool :=
  let off := k.dst r.rowb b
  match k.kind, k.src b with
  | .out, some va =>
    let t := s.handle r.wg r.h
    let loc := pageLoc k.pages va
    let s := s.consume g o.pc (t.poisoned off 1)
    ((s.write g.vf va loc [t.byte off] (g.writer o.seq)).watchCopy g o k base b va loc 4, false)
  | _, some va =>
    let loc := pageLoc k.pages va
    let bad := s.engPoisoned loc
    let data := if bad then [0] else s.homeRead loc 1
    let first := !(k.fin.any fun j => match k.src (j % k.total) with | some a => a / 64 = va / 64 | none => false)
    let s := if bad && first then s.logError (s.vf g.vf).slice 0x01 0xFF g.vf 0 (64 * (Loc.pa loc / 64)) g.launchId else s
    (((s.updHandle r.wg r.h fun t => t.writeN off data).dropCoreLine (some g.coreIx) loc).watchCopy g o k base b va loc 3, bad)
  | _, none => (s.updHandle r.wg r.h fun t => t.writeN off [0], false)

/-- The barriers that count a copy: those of its bytes and those of its acknowledgements (R185, R196). -/
def CopyOp.bars (k : CopyOp) : List BarLoc := k.recv.filterMap (·.bar) ++ k.recv.filterMap (·.ack)

/-- COPY_BYTE_COUNT: byte `ix` of a copy, numbered through its receivers, is moved and counted; a receiver's last byte is acknowledged; the last of all
completes the copy (R184, R186, R189). -/
def execCopyByteCount (gid op ix : Nat) (s : State) : Out :=
  match s.group? gid with
  | none => .next s
  | some g =>
    match g.op? op with
    | none => .next s
    | some o =>
      match o.kind with
      | .copy k =>
        match k.recv[ix / k.total]? with
        | none => .next s
        | some r =>
          let b := ix % k.total
          let loc := (k.src b).map (pageLoc k.pages)
          if o.fin || k.fin.contains ix || !s.copyByteReady g op r (k.dst r.rowb b) loc then .next s
          else
            let (s, bad) := s.moveByte g o k r (ix / k.total * k.total) b
            let s := match r.bar with
              | some l => s.barStep l (Barrier.count (-1)) o.pc (g.writer op)
              | none => s
            let s := if bad then k.bars.foldl (fun s l => s.breakBar l (g.writer op)) s else s
            let k := { k with fin := insertBy (fun a b => decide (a ≤ b)) ix k.fin }
            let whole : Bool := decide ((k.fin.filter fun j => j / k.total = ix / k.total).length = k.total)
            let s := match (if (whole : Bool) then r.ack else none) with
              | some l => s.barStep l (Barrier.arrive (s.profiled g) g.lastId) o.pc (g.writer op)
              | none => s
            .next (s.updGroup gid fun g =>
              let g := g.updOp op fun o => { o with kind := .copy k }
              if k.fin.length = k.total * k.recv.length then g.finishOp op else g)
      | _ => .next s

end Sys2Proof.Machine
end

