-- ==== Sys2Proof/Machine/Gating.lean ====
section
/-!
DEFINITION. Gating of the quadrants, filter units, ray units and matrix engines (R410 to R412). A gated unit keeps its state; work that reaches it waits
for its wake.

Units are numbered: quadrant q of core c is 4c + q; the filter unit of core c is 1024 + c; the ray unit of cluster k is 1280 + k; its engine is 1344 + k.
-/
set_option Elab.async false
namespace Sys2Proof.Machine
open Sys2Proof

def quadUnit (core gslot : Nat) : Nat := 4 * core + gslot / 16
def filterUnit (core : Nat) : Nat := 1024 + core
def rayUnit (cl : Nat) : Nat := 1280 + cl
def engineUnit (cl : Nat) : Nat := 1344 + cl

/-- BE and WAKE of a unit, in core clocks (R410). -/
def gateBE (u : Nat) : Nat := if u < 1024 then 512 else if u < 1280 then 768 else if u < 1344 then 1024 else 2048

namespace State

/-- The gate of a unit. -/
def gate (s : State) (u : Nat) : Gate :=
  if u < 1024 then tget (s.coreAt (u / 4)).gQuad (u % 4) {}
  else if u < 1280 then (s.coreAt (u - 1024)).gFilter
  else if u < 1344 then (s.cluster (u - 1280)).gRay
  else (s.cluster (u - 1344)).gEngine

def setGate (s : State) (u : Nat) (g : Gate) : State :=
  if u < 1024 then s.updCore (u / 4) fun c => { c with gQuad := tset c.gQuad (u % 4) g }
  else if u < 1280 then s.updCore (u - 1024) fun c => { c with gFilter := g }
  else if u < 1344 then s.updCluster (u - 1280) fun c => { c with gRay := g }
  else s.updCluster (u - 1344) fun c => { c with gEngine := g }

/-- The core whose clock a unit runs at: its own, or the first of its cluster (R39, R408; log entry 7). -/
def unitCore (u : Nat) : Nat := if u < 1024 then u / 4 else if u < 1280 then u - 1024 else if u < 1344 then 4 * (u - 1280) else 4 * (u - 1344)

/-- The granule of a unit. -/
def unitGran (u : Nat) : Nat := if u < 1024 then u / 64 else if u < 1280 then (u - 1024) / 16 else if u < 1344 then (u - 1280) / 4 else (u - 1344) / 4

/-- A unit becomes idle (R410). -/
def idle (s : State) (u : Nat) : State :=
  let g := s.gate u
  if g.idleFrom.isSome then s else s.setGate u { g with idleFrom := some s.steps }

/-- Work arrives at a unit (R411, R412): the idle period ends and the prediction moves; a gated unit starts to wake, and GMISS counts a wake that came
too soon. The last of a core's four quadrants to leave the gated state resets `sr.clk` (R39, R410). -/
def arrive (s : State) (u : Nat) : State :=
  let g := s.gate u
  match g.idleFrom with
  | none => s
  | some k =>
    let pred := (3 * g.pred.toNat + min (s.clocks (unitCore u) k) 65535) / 4
    let s := if u < 1024 && (s.coreAt (u / 4)).gQuad.toList.all (·.gated) then
        s.updCore (u / 4) fun c => { c with clkBase := Config.coreClock (u / 4) s.steps } else s
    let sl := s.sliceOf (unitGran u)
    let s := if g.gated && decide (s.clocks (unitCore u) g.commitAt < gateBE u) then s.updGran sl fun r => { r with gmiss := r.gmiss + 1 } else s
    s.setGate u { g with pred := BitVec.ofNat 16 pred, idleFrom := none, gated := false, waking := g.gated }

end State

/-- GATING_COMMIT: a unit that has been idle for 8 core clocks and whose prediction reached BE gates, and GATES advances (R411, R412). -/
def execGatingCommit (u : Nat) (s : State) : Out :=
  let g := s.gate u
  let due := match g.idleFrom with | some k => decide (8 ≤ s.clocks (State.unitCore u) k) | none => false
  if due && !g.gated && !g.waking && decide (gateBE u ≤ g.pred.toNat) then
    .next ((s.setGate u { g with gated := true, commitAt := s.steps }).updGran (s.sliceOf (State.unitGran u)) fun r => { r with gates := r.gates + 1 })
  else .next s

/-- WAKE_COMPLETE: the unit runs (R412). -/
def execWakeComplete (u : Nat) (s : State) : Out := .next (s.setGate u { s.gate u with waking := false })

end Sys2Proof.Machine
end

