-- ==== Sys2Proof/Machine/Records.lean ====
section
/-!
DEFINITION. Runs of global memory as engines use them; headers of delta-layer records, the record caches, and what `dlr.bind`, `dlr.inval` and `dlr.stat`
do when they take effect (R216, R217, R223 to R226, R235).
-/
set_option Elab.async false
namespace Sys2Proof.Machine
open Sys2Proof

/-! ### Runs of global memory, as engines read and write them -/

/-- The pieces of a run that lie in one line each: address and length. -/
def linePieces (va n : Nat) : List (Nat × Nat) :=
  (List.range ((va % 64 + n + 63) / 64)).map fun i =>
    let a := max va ((va / 64 + i) * 64)
    (a, min (va + n) ((va / 64 + i + 1) * 64) - a)

/-- Bytes of a run, as the engine reads them at their homes. -/
def State.readRun (s : State) (pages : List PageMap) (va n : Nat) : List Byte :=
  (linePieces va n).flatMap fun p => s.homeRead (pageLoc pages p.1) p.2

/-- The bytes of runs, as an operation touches them. -/
def runSpans (pages : List PageMap) (runs : List (Nat × Nat)) : List Span :=
  runs.flatMap fun r => (linePieces r.1 r.2).map fun p => (0, Loc.pa (pageLoc pages p.1), p.2)

/-- The first line of a list of runs whose read is a poisoned one (R397, R429). -/
def State.poisonIn (s : State) (pages : List PageMap) (runs : List (Nat × Nat)) : Option Nat :=
  runs.findSome? fun r => ((linePieces r.1 r.2).find? fun p => s.engPoisoned (pageLoc pages p.1)).map fun p => Loc.pa (pageLoc pages p.1) / 64

/-- What an engine's reads of runs do beside reading them, piece by piece (R331, R346). -/
def State.noteReads (s : State) (vf acc : Nat) (ag : Agent) (pages : List PageMap) (runs : List (Nat × Nat)) : State :=
  runs.foldl (fun s r => (linePieces r.1 r.2).foldl (fun s p => s.noteRead vf acc ag p.1 (pageLoc pages p.1) p.2) s) s

/-- Write a run of bytes. -/
def State.writeRun (s : State) (vf : Nat) (w : State.Writer) (ag : Agent) (pages : List PageMap) (va : Nat) (data : List Byte) : State :=
  (linePieces va data.length).foldl (fun s p =>
    (s.write vf p.1 (pageLoc pages p.1) ((data.drop (p.1 - va)).take p.2) w).watch vf p.1 (pageLoc pages p.1) p.2 4 ag) s

/-- An instruction reads lines as it issues, as loads of its group that are served at their homes: it waits for the group's older accesses of them. `acc` is
the kind of the watch events; the lines are given by address, location and length. A line of host or peer memory whose request is lost is a poisoned one
(R213, R244, R305, R346, R429). -/
def State.readNow (s : State) (acc : Nat) (lines : List (Nat × Nat × Nat)) : M (State × List Byte) := do
  s.settled (lines.map fun l => (0, Loc.pa l.2.1, l.2.2))
  (match lines.find? fun l => s.lost l.2.1 with
    | some l => .error (.poison (Loc.pa l.2.1 / 64) l.1)
    | none => pure ())
  let ag := s.cur.agent s.cur.me.pc
  pure (lines.foldl (fun s l => (s.dropCoreLine (some s.cur.coreIx) l.2.1).noteRead s.cur.vf acc ag l.1 l.2.1 l.2.2) s,
    lines.flatMap fun l => s.homeRead l.2.1 l.2.2)

/-- A poisoned line that an engine consumed is recorded (R397). -/
def State.logPoison (s : State) (g : Group) (line : Nat) : State :=
  (s.logLost (64 * line)).logError (s.vf g.vf).slice 0x01 0xFF g.vf 0 (64 * line) g.launchId

/-- A field of a descriptor. -/
def fieldAt (d : List Byte) (off hi lo : Nat) : Nat := bitsOf (natLE ((d.drop off).take 8)) hi lo

/-! ### Headers (R217) -/

/-- A header is well-formed (R217). -/
def hdrOk (h : List Byte) : Bool :=
  fieldAt h 0 2 2 = 0 && fieldAt h 0 15 8 = 0 && fieldAt h 0 23 22 = 0 && fieldAt h 0 31 30 = 0 && fieldAt h 0x18 15 0 = 0 && (h.drop 0x28).all (· = 0) &&
  decide (1 ≤ fieldAt h 8 4 0) && decide (fieldAt h 8 4 0 ≤ 16) && decide (fieldAt h 8 4 0 * (fieldAt h 8 15 5 + 1) ≤ 2048) &&
  fieldAt h 8 63 63 = 0 && decide (fieldAt h 8 63 32 ≤ 0x7F800000)

/-- VALID, as a header holds it. -/
def hdrValid (h : List Byte) : Bool := fieldAt h 0 0 0 = 1

/-- A header with VALID cleared. -/
def hdrInvalid (h : List Byte) : List Byte := match h with | b :: r => (b &&& 0xFE) :: r | [] => []

/-- The header that `dlr.bind` writes (R224). -/
def hdrFresh (w0 w1 : Word64) (vf : Nat) : List Byte :=
  bytesLE 8 (w0.toNat + 2 ^ 24 * vf) ++ bytesLE 8 w1.toNat ++ List.replicate 48 0

/-- Word 0 of the bind words holds nothing but NAME, REGION and FMT, and word 1 makes a well-formed header (R224). -/
def bindOk (w0 w1 : Word64) : Bool := bitsOf w0.toNat 31 22 = 0 && bitsOf w0.toNat 15 2 = 0 && !w0.getLsbD 0 && hdrOk (hdrFresh w0 w1 0)

/-- A bound header resumes: valid, of this function, well-formed, and described by the same words (R224). -/
def hdrResumes (h : List Byte) (w0 w1 : Word64) (vf : Nat) : Bool :=
  hdrValid h && fieldAt h 0 29 24 = vf && hdrOk h && fieldAt h 0 63 32 = bitsOf w0.toNat 63 32 && fieldAt h 0 21 16 = bitsOf w0.toNat 21 16 &&
  fieldAt h 0 1 1 = bitsOf w0.toNat 1 1 && fieldAt h 8 63 0 = w1.toNat

/-- The summary that `dlr.stat` gives (R226). -/
def hdrSummary (h : List Byte) (vf : Nat) : Word64 :=
  BitVec.ofNat 64 (2 ^ 32 * fieldAt h 0x10 63 32 + 2 ^ 16 * fieldAt h 0x18 31 16 + 2 ^ 13 * fieldAt h 0 7 5 + 2 ^ 11 * fieldAt h 0 4 3 +
    2 ^ 10 * fieldAt h 0 0 0 + 2 ^ 9 * b2n (fieldAt h 0 29 24 = vf))

/-! ### The record cache (R235) -/

/-- Registrations of record headers at an L2 slice. -/
def State.recCount (s : State) (home : Nat) : Nat :=
  ((s.clusters.toList.map fun k => (k.recs.filter fun r => s.l2Home r.vf r.va = home).length)).sum

/-- An engine uses a header: it joins the cache as the most recently used, while its home slice has a registration left (R235). -/
def State.cacheRec (s : State) (cl vf va pa : Nat) : State :=
  let k := s.cluster cl
  let mine (r : RecLine) : Bool := Loc.pa r.pa / 64 = Loc.pa pa / 64
  let home := s.l2Home vf va
  let room := if s.retired.contains (2, home ^^^ 1) then 32 else 16
  if !(k.recs.any mine) && decide (room ≤ s.recCount home) then s
  else s.updCluster cl fun k => { k with recs := ({ vf, va, pa } :: k.recs.filter fun r => !mine r).take 16 }

/-- Write a header, or its first bytes, for an operation of the engine of cluster `cl`. -/
def State.writeHdr (s : State) (g : Group) (o : Op) (cl va pa : Nat) (h : List Byte) : State :=
  (s.write g.vf va pa h { g.writer o.seq with keep := some cl }).watch g.vf va pa h.length 4 (g.agent o.pc o.seq)

/-! ### The record instructions take effect (R223 to R226) -/

/-- Older operations of the MX path are still open (R223). -/
def Group.mxBefore (g : Group) (seq : Nat) : Bool := g.ops.any fun o => !o.fin && decide (o.seq < seq) && o.path = some .mx

/-- An invocation that has computed and still has its writes to make holds the header line that the last of them names: what else names the record comes
after it (R223). -/
def RunPass.holds (r : RunPass) (pa : Nat) : Bool :=
  match r.writes.reverse.head? with
  | some w => r.computed && Loc.pa w.2.1 / 64 = Loc.pa pa / 64
  | none => false

/-- Some invocation holds a record's header line (R223). -/
def State.recHeld (s : State) (pa : Nat) : Bool := (List.range 64).any fun c => match (s.cluster c).run with | some r => r.holds pa | none => false

/-- `dlr.bind` (0), `dlr.inval` (1) and `dlr.stat` (2) take effect (R224 to R226). The line is read at its home, and the core keeps no copy of it (R308). A
`dlr.stat` that finds it poisoned then raises POISON (R226). -/
def State.dlrEffect (s : State) (g : Group) (o : Op) (which va pa : Nat) (w0 w1 : Word64) : State :=
  let h := s.homeRead pa 64
  let bad := s.poisoned pa
  let s := (s.noteRead g.vf 3 (g.agent o.pc o.seq) va pa 64).dropCoreLine (some g.coreIx) pa
  if bad && which = 2 then
    ((s.logPoison g (Loc.pa pa / 64)).updGroup g.id fun g => (g.dropPend o.seq).finishOp o.seq).raise g.id
      { cause := .poison, slot1 := o.slot1, pc := o.pc, addr := BitVec.ofNat 64 va }
  else
  let s :=
    if which = 0 then
      let s := if !bad && hdrResumes h w0 w1 g.vf then s else s.writeHdr g o g.cluster va pa (hdrFresh w0 w1 g.vf)
      s.cacheRec g.cluster g.vf va pa
    else if which = 1 then
      let s := if bad then s else s.writeHdr g o g.cluster va pa ((hdrInvalid h).take 1)
      s.updCluster g.cluster fun k => { k with recs := k.recs.filter fun r => Loc.pa r.pa / 64 ≠ Loc.pa pa / 64 }
    else s.updGroup g.id fun g => g.fillPend o.seq allLanes true fun _ _ => hdrSummary h g.vf
  s.updGroup g.id fun g => g.finishOp o.seq

end Sys2Proof.Machine
end

