-- ==== Sys2Proof/Machine/Matrix.lean ====
section
/-!
DEFINITION. The matrix engine: accumulators, the reservation table, passes and drains, detached passes (R200 to R215).
-/
set_option Elab.async false
namespace Sys2Proof.Machine
open Sys2Proof

/-! ### Elements and passes (R93 to R97, R201, R206 to R208) -/

/-- Bit field `k` of `w` bits in a run of bytes. -/
def packedAt (w : Nat) (b : List Byte) (k : Nat) : Nat :=
  if w = 4 then natLE ((b.drop (k / 2)).take 1) / 16 ^ (k % 2) % 16 else natLE ((b.drop (w / 8 * k)).take (w / 8))

/-- Element `k` of operand line `r` in registers (R206). -/
def regElem (w : Nat) (vals : List (Lanes Word64)) (r k : Nat) : Nat :=
  let e := 32 / w
  let v := ((vals.getD (k / e) (Lanes.const 0)).get (r / 2) 0).toNat
  v / 2 ^ (32 * (r % 2) + w * (k % e)) % 2 ^ w

/-- The tile byte at which chunk `c` of operand line `r` begins, before the swizzle (R207, R208). -/
def chunkAt (off tp rp r c : Nat) : Option (Nat × Nat × Nat × Nat × Nat) → Nat
  | none => off + c * tp + r * rp
  | some (chc, _, kw, ow, st) =>
    let t := c / chc
    off + (r / ow * st + t / kw) * tp + (r % ow * st + t % kw) * rp + 32 * (c % chc)

/-- Element `k` of operand line `r` of a tile operand. -/
def tileElem (t : Handle) (w rowb off tp rp rot : Nat) (win : Option (Nat × Nat × Nat × Nat × Nat)) (r k : Nat) : Nat :=
  let e := 256 / w
  packedAt w (t.readN (swz rowb (chunkAt off tp rp r (k / e) win) rot) 32) (k % e)

/-- An operand's elements, as the engine reads them. -/
def State.opndElem (s : State) (w : Nat) : PassOpnd → Nat → Nat → Nat
  | .regs vals => regElem w vals
  | .tile wg h rowb off tp rp rot win => tileElem (s.handle wg h) w rowb off tp rp rot win

/-- The elements of an operand line in K-blocks of eight, ascending; indices at or beyond K contribute +0 (R96). -/
def lineBlocks (k : Nat) (a : Nat → FpVal) : List (List FpVal) :=
  (List.range ((k + 7) / 8)).map fun n => (List.range 8).map fun m => if 8 * n + m < k then a (8 * n + m) else .num false 0

/-- One element of a result: the K-blocks of its two lines in order (R96). -/
def dotBlocks (acc : Nat) (a b : List (List FpVal)) : Nat := (a.zip b).foldl (fun acc x => kBlock acc (x.1.zip x.2)) acc

/-- The rows of a result from its starting values (R210). -/
def passRows (k : Nat) (a b : Nat → Nat → FpVal) (c : Nat → Nat → Nat) : List (List Word32) :=
  let r := List.range 64
  let la := r.map fun i => lineBlocks k (a i)
  let lb := r.map fun j => lineBlocks k (b j)
  (la.zip r).map fun x => (lb.zip r).map fun y => BitVec.ofNat 32 (dotBlocks (c x.2 y.2) x.1 y.1)

/-- The largest K of a width class (R201). -/
def kLimit (w : Nat) : Nat := match w with | 4 => 131072 | 8 => 65536 | 16 => 32768 | _ => 4096

/-- A side is block-scaled when its format is in width class 8 or 4 (R209). -/
def scales (f : EFmt) : Bool := f.width = 8 || f.width = 4
/-- Elements of a block (R93). -/
def blockLen (shp : Bool) : Nat := if shp then 16 else 32
/-- The scale bytes of a side: one run for each operand line (R209). -/
def scaleRuns (base rsh k : Nat) (shp : Bool) : List (Nat × Nat) :=
  (List.range 64).map fun r => ((base + r * 2 ^ rsh) % 2 ^ 64, (k + blockLen shp - 1) / blockLen shp)

/-- A decoded element: its own value, or its value under its block's scale (R93). -/
def decElem (f : EFmt) (raw : Nat) (scl : Option (Option Rat)) : FpVal :=
  match scl with
  | none => elemVal f raw
  | some q => scaled (elemVal f raw) q

/-! ### Accumulators (R203, R205, R212) -/

/-- An accumulator's contents by key: element (i, j) at 64i + j. -/
def Group.accOf (g : Group) (key : Nat) : Sparse Word32 := match g.accData.find? (fun p => p.1 = key) with | some p => p.2 | none => []
def Group.setAccOf (g : Group) (key : Nat) (d : Sparse Word32) : Group :=
  { g with accData := (key, d) :: g.accData.filter fun p => p.1 ≠ key }
/-- Write one row. -/
def accRow (d : Sparse Word32) (i : Nat) (row : List Word32) : Sparse Word32 :=
  (row.foldl (fun (a : Nat × Sparse Word32) x => (a.1 + 1, Sparse.set 0 a.2 (64 * i + a.1) x)) (0, d)).2

/-- The accumulator that an operation works on. -/
def OpKind.accKey : OpKind → Option Nat
  | .mma m => some m.key
  | .mxzero k => some k
  | .mxdrn k _ _ _ => some k
  | _ => none

def Group.accName (g : Group) (n : Nat) : AccName := tget g.acc n {}
def Group.setAccName (g : Group) (n : Nat) (a : AccName) : Group := { g with acc := tset g.acc n a }

/-! ### The reservation table (R204) -/

/-- Whether background work of a slice is owed (R359). -/
def State.owed (s : State) (slice : Nat) : Bool :=
  let g := s.gran slice
  let e := (g.tick - g.windowFrom).toNat
  decide ((if e < 10000 then g.bgTicks else if e % 10000 = 0 then 0 else g.bgNext) * 256 < g.bgmin * (4 * g.num) * (e % 10000))

/-- The key of R358 of a launch, as two numbers of which the smaller is the more urgent. -/
def State.urgency (s : State) (l : Launch) : Nat × Nat :=
  let slice := (s.vf l.vf).slice
  if !l.background then (0, l.rec_.deadline.toNat) else if s.owed slice then (0, (s.tickOf slice).toNat) else (1, 0)

/-- Lexicographic order of keys. -/
def keyLt (a b : Nat × Nat) : Bool := decide (a.1 < b.1) || (a.1 = b.1 && decide (a.2 < b.2))

/-- The key of a group's launch. -/
def State.groupKey (s : State) (gid : Nat) : Nat × Nat :=
  match (s.group? gid).bind fun g => s.launch? g.launch with
  | some l => s.urgency l
  | none => (1, 0)

/-- Entries that are eligible: the oldest of each group (R204). -/
def eligibleEntries : List ResEnt → List ResEnt
  | [] => []
  | e :: r => e :: (eligibleEntries r).filter fun x => x.gid ≠ e.gid

/-- A detached pass: the only work that a lender's engine runs (R392). -/
def State.isDetached (s : State) (e : ResEnt) : Bool :=
  match (s.group? e.gid).bind fun g => g.op? e.op with
  | some o => (match o.kind with | .pass .. => true | _ => false)
  | none => false

/-- Note since when each detached pass of a cluster has been offered to lenders: eligible while the engine runs another pass (R392). -/
def State.noteOffers (s : State) (cl : Nat) : State :=
  let k := s.cluster cl
  let el := eligibleEntries k.res
  let res := k.res.map fun e =>
    let off := k.run.isSome && el.any (fun x => x.gid = e.gid && x.op = e.op) && s.isDetached e
    { e with offered := if off then some (e.offered.getD s.steps) else none }
  s.updCluster cl fun k => { k with res := res }

/-- Post an entry for the operation that the issuing group is about to add; a full table stalls (R204). -/
def State.post (s : State) : M State :=
  let g := s.cur
  if 64 ≤ (s.cluster g.cluster).res.length then .error .stall
  else
    let s := s.arrive (engineUnit g.cluster)
    .ok (s.updCluster g.cluster fun k => { k with res := k.res ++ [{ gid := g.id, op := g.seq, vf := g.vf, post := s.steps }] })

/-- An engine with no pass and no entry is idle (R410). -/
def State.engineIdle (s : State) (cl : Nat) : State :=
  let k := s.cluster cl
  if k.run.isNone && k.res.isEmpty then s.idle (engineUnit cl) else s

/-- Entries leave a reservation table. -/
def State.dropEntries (s : State) (cl : Nat) (p : ResEnt → Bool) : State :=
  ((s.updCluster cl fun k => { k with res := k.res.filter fun e => !p e }).noteOffers cl).engineIdle cl

/-- The engine clears its scale cache and its record cache at a change of owner (R215, R236). No accumulator is bound on an engine whose owner changes:
a lendable one has none reserved (R392), and a rotation has saved them (R205). Ungranted entries of `old` are dropped. -/
def State.clearEngine (s : State) (cl : Nat) (old : Option Nat) : State :=
  let s := s.updCluster cl fun k => { k with scales := [], recs := [] }
  match old with
  | some f => s.dropEntries cl fun e => e.vf = f
  | none => s

/-! ### Drains, zeroings and record instructions take effect (R205, R212, R223) -/

/-- The pass that the group's engine has under way, when it is operation `op` of the group: rows retired. -/
def State.rowsOf (s : State) (g : Group) (op : Nat) : Nat :=
  match (s.cluster g.cluster).run with
  | some r => if r.gid = g.id && r.op = op then r.rows else 0
  | none => 0

/-- Whether a zeroing or a drain may take effect: every older operation on its accumulator has, but for a pass whose row `row` is retired. -/
def State.accReady (s : State) (g : Group) (o : Op) : Bool :=
  (g.ops.filter fun p => decide (p.seq < o.seq) && !p.fin && p.kind.accKey.isSome && p.kind.accKey = o.kind.accKey).all fun p =>
    match p.kind, o.kind with
    | .mma _, .mxdrn _ row _ _ => decide (row < s.rowsOf g p.seq)
    | _, _ => false

/-- A drain reads its row, clears it with CLR, and returns its lanes (R212). -/
def Group.drain (g : Group) (o : Op) (key row : Nat) (clr : Bool) (lanes : Word32) : Group :=
  let d := g.accOf key
  let at_ (j : Nat) : Nat := (Sparse.get 0 d (64 * row + j)).toNat
  let g := if clr then g.setAccOf key (accRow d row (List.replicate 64 0)) else g
  (g.fillPend o.seq allLanes true fun _ l => if lane lanes l then BitVec.ofNat 64 (at_ (2 * l) + 2 ^ 32 * at_ (2 * l + 1)) else 0).finishOp o.seq

/-- The zeroings, drains and record instructions of a group that may take effect do so, in issue order; `by_` is the unit of the pass that retired a row (R416). -/
def State.settleAcc (s : State) (gid : Nat) (by_ : Option Word32) : State :=
  match s.group? gid with
  | none => s
  | some g0 =>
    g0.ops.foldl (fun s o =>
      match s.group? gid with
      | none => s
      | some g =>
        if o.fin || !s.accReady g o then s
        else match o.kind with
          | .dlr which va pa w0 w1 => if g.mxBefore o.seq || s.recHeld pa then s else s.dlrEffect g o which va pa w0 w1
          | .mxzero key => s.updGroup gid fun g => (g.setAccOf key []).finishOp o.seq
          | .mxdrn key row clr lanes =>
            let s := match by_ with
              | some pc => s.beaconSince g o.pc o.stamp 6 Path.mx.code.toNat g.lastId.toNat pc.toNat
              | none => s
            s.updGroup gid fun g => g.drain o key row clr lanes
          | _ => s) s

/-- The record instructions that waited for a header line take effect, in the order of their arrival (R223). -/
def State.settleRecs (s : State) : State :=
  let held := s.allGroups.flatMap fun g => (g.ops.filter fun o => !o.fin && (match o.kind with | .dlr .. => true | _ => false)).map fun o => (o.stamp, g.id)
  (sortBy (fun a b => decide (a.1 ≤ b.1)) held).foldl (fun s p => s.settleAcc p.2 none) s

/-! ### Accumulator instructions -/

/-- `mxreq` (R203): the name's contents get a key of their own. -/
def execMxreq (c : Ctl) (d : BitVec 8) (s : State) : Out :=
  runInstr (.mxreq c d) c (groupLevel c fun s => do
    let g := s.cur
    let n := g.rD c d
    trapIf (g.accName n).bound .mxReserve
    pure (s.setCur (g.setAccName n { bound := true, key := g.seq, cur := 0 }), none)) s

/-- `mxrel` (R203, R29). -/
def execMxrel (c : Ctl) (d : BitVec 8) (s : State) : Out :=
  runInstr (.mxrel c d) c (groupLevel c fun s => do
    let g := s.cur
    let n := g.rD c d
    trapIf (!(g.accName n).bound) .mxReserve
    pure (s.setCur (g.setAccName n {}), none)) s

/-- `mxzero` (R203). -/
def execMxzero (c : Ctl) (d : BitVec 8) (s : State) : Out :=
  runInstr (.mxzero c d) c (counted c .mx fun s => do
    let g := s.cur
    let n := g.rD c d
    let a := g.accName n
    trapIf (!a.bound) .mxReserve
    let g := (g.setAccName n { a with cur := 0 }).addOp s.steps (some .mx) (.mxzero a.key)
    pure ((s.setCur g).settleAcc g.id none, none)) s

/-- `mxdrn` (R212). -/
def execMxdrn (c : Ctl) (o : MxDrn) (s : State) : Out :=
  runInstr (.mxdrn c o) c (fun s => do
    s.pathFree .mx
    let g := s.cur
    let n := idxReg c.idxA o.a g.x
    let a := g.accName n
    ifActive g c (trapIf (!a.bound || decide (64 ≤ a.cur)) .mxReserve)
    if g.active c = 0 then
      let g := (g.addOp s.steps (some .mx) .null).awaiting .v (g.rD c o.d) 1 (g.written c)
      pure (s.setCur ((g.fillPend g.seq allLanes true fun _ _ => 0).finishOp g.seq), none)
    else
      let g := (g.setAccName n { a with cur := a.cur + 1 }).addOp s.steps (some .mx) (.mxdrn a.key a.cur o.clr (g.active c ||| g.helpersFor c))
      let g := g.awaiting .v (g.rD c o.d) 1 (g.written c)
      pure ((s.setCur g).settleAcc g.id none, none)) s

/-- `mxscl.a` and `mxscl.b` (R209): the configuration, and the engine's cached scales of that side of the group go. -/
def State.setScale (s : State) (sideB : Bool) (k : ScaleCfg) : State :=
  let g := s.cur
  let s := s.setCur (if sideB then { g with sclB := k } else { g with sclA := k })
  s.updCluster g.cluster fun e => { e with scales := e.scales.filter fun l => !(l.gid = g.id && l.sideB = sideB) }

def execMxscl (c : Ctl) (o : MxScl) (s : State) : Out :=
  runInstr (.mxscl c o) c (groupLevel c fun s => do
    let v := s.cur.uniB c o.b
    trapIf (bitsOf v.toNat 63 9 ≠ 0 || bitsOf v.toNat 7 5 ≠ 0 || decide (24 < bitsOf v.toNat 4 0)) .illegal
    pure (s.setScale o.sideB { base := s.cur.uniA c o.a, cfg := v.setWidth 9, en := true, since := s.cur.seq }, none)) s

def execMxsclNone (c : Ctl) (sideB : Bool) (s : State) : Out :=
  runInstr (.mxsclNone c sideB) c (groupLevel c fun s =>
    .ok (s.setScale sideB { (if sideB then s.cur.sclB else s.cur.sclA) with en := false }, none)) s

/-- `mxwin` (R208). That a CHC of 0, outside the range of its field, raises ILLEGAL as a KH or KW of 0 does is the model's choice (log entry 86). -/
def execMxwin (c : Ctl) (a : Src) (s : State) : Out :=
  runInstr (.mxwin c a) c (groupLevel c fun s => do
    let v := s.cur.uniA c a
    let n := v.toNat
    trapIf (bitsOf n 63 24 ≠ 0 || bitOf n 15 || bitsOf n 4 0 ≠ 0 || bitsOf n 14 12 = 7 || bitsOf n 10 8 = 0 || bitsOf n 7 5 = 0 || bitsOf n 23 16 = 0)
      .illegal
    pure (s.setCur { s.cur with win := v.setWidth 24 }, none)) s

/-! ### Posting a pass (R207 to R210) -/

/-- A tile operand as its two uniform registers describe it (R207). -/
structure TileDesc where
  off : Nat
  tp : Nat
  rp : Nat
  klen : Nat
  rot : Nat
  rsv : Bool

def TileDesc.of (x y : Word64) : TileDesc :=
  { off := bitsOf x.toNat 19 0, tp := bitsOf x.toNat 39 20, rp := bitsOf y.toNat 17 0, klen := bitsOf y.toNat 35 18, rot := bitsOf y.toNat 37 36,
    rsv := bitsOf x.toNat 63 40 ≠ 0 || bitsOf y.toNat 63 38 ≠ 0 }

/-- Bounds of a tile operand for K elements a line: every chunk inside the tile, and the swizzle's condition (R183, R207). -/
def TileDesc.fits (d : TileDesc) (t : Handle) (w k : Nat) (win : Option (Nat × Nat × Nat × Nat × Nat)) : Bool :=
  (d.rot = 0 || t.rowb % (32 * 2 ^ d.rot) = 0) &&
  (List.range 64).all fun r => (List.range ((k + 256 / w - 1) / (256 / w))).all fun ch => decide (chunkAt d.off d.tp d.rp r ch win + 32 ≤ t.size)

/-- The window state as chunks per pixel, kernel rows and columns, output width and stride (R208). -/
def Group.winOf (g : Group) : Nat × Nat × Nat × Nat × Nat :=
  let n := g.win.toNat
  (bitsOf n 23 16, bitsOf n 10 8, bitsOf n 7 5, 2 ^ bitsOf n 14 12, 1 + bitsOf n 11 11)

/-- The configuration of a side that a pass uses: none when it is disabled or its format ignores it (R209). -/
def ScaleCfg.use (k : ScaleCfg) (f : EFmt) (sideB : Bool) : Option ScaleUse :=
  if k.en && scales f then some { base := k.base.toNat, rsh := bitsOf k.cfg.toNat 4 0, shp := k.cfg.getLsbD 8, sideB, since := k.since } else none

/-- SHP = 1 with a format other than e2m1 (R209). -/
def badShape (u : Option ScaleUse) (f : EFmt) : Bool := match u with | some u => u.shp && f ≠ .e2m1 | none => false

/-- `mxmma` (R210). -/
def execMxmma (c : Ctl) (o : MxMma) (s : State) : Out :=
  runInstr (.mxmma c o) c (counted c .mx fun s => do
    let g := s.cur
    let nm := g.rD c o.d
    let acc := g.accName nm
    let w := o.fa.width
    let n := rcntRegs o.rcnt
    let tile (m : MxSrc) (idx : Bool) : Option (Nat × Handle) := match m with
      | .tile h => let k := idxReg idx h g.x; some (k, s.handle g.wg k)
      | .reg _ => none
    let ta := tile o.a c.idxA
    let tb := tile o.b c.idxB
    let sC := g.rC c
    let da := if ta.isSome then some (TileDesc.of (g.readS sC) (g.readS (sC + 1))) else none
    let sB := if ta.isSome then sC + 2 else sC
    let db := if tb.isSome then some (TileDesc.of (g.readS sB) (g.readS (sB + 1))) else none
    let win := if o.win then some g.winOf else none
    let sa := g.sclA.use o.fa false
    let sb := g.sclB.use o.fb true
    trapIf (!acc.bound) .mxReserve
    (match ta with | some t => copyHandle t.2 .data true | none => pure ())
    (match tb with | some t => copyHandle t.2 .data true | none => pure ())
    let descs := [da, db].filterMap id
    trapIf (descs.any (·.rsv) || badShape sa o.fa || badShape sb o.fb) .illegal
    trapIf (ta.any (fun t => t.2.st = .failed) || tb.any (fun t => t.2.st = .failed)) .tileBounds
    let k := match da with
      | some d => if o.win then bitsOf g.win.toNat 10 8 * bitsOf g.win.toNat 7 5 * bitsOf g.win.toNat 23 16 * (256 / w) else d.klen
      | none => n * (32 / w)
    trapIf (match da with | some d => if o.win then d.klen ≠ 0 else d.klen = 0 | none => false) .tileBounds
    trapIf (match db with | some d => d.klen ≠ 0 | none => false) .tileBounds
    trapIf (da.isSome && db.isNone && k ≠ n * (32 / w)) .tileBounds
    trapIf (decide (kLimit w < k)) .tileBounds
    trapIf (match da, ta with | some d, some t => !d.fits t.2 w k win | _, _ => false) .tileBounds
    trapIf (match db, tb with | some d, some t => !d.fits t.2 w k none | _, _ => false) .tileBounds
    trapIf (descs.any fun d => d.off % 32 ≠ 0 || d.tp % 32 ≠ 0 || d.rp % 32 ≠ 0) .misalign
    let runs (u : Option ScaleUse) : List (Nat × Nat) := match u with | some u => scaleRuns u.base u.rsh k u.shp | none => []
    let pages := (pagesOf (runs sa ++ runs sb)).filterMap fun p => p.2.map fun a => (p.1, a)
    (match pages.find? (fun p => decide (2 ^ 57 ≤ p.2)) with
      | some p => .error (.trap .perm p.2)
      | none => pure ())
    let (s, maps) ← s.mapPages g.vf .read pages
    let s ← s.post
    let opnd (m : MxSrc) (t : Option (Nat × Handle)) (d : Option TileDesc) (idx : Bool) (win : Option (Nat × Nat × Nat × Nat × Nat)) : PassOpnd :=
      match m, t, d with
      | .reg r, _, _ => .regs ((List.range n).map fun i => g.lanesV (idxReg idx r.reg g.x + i))
      | .tile _, some t, some d => .tile g.wg t.1 t.2.rowb d.off d.tp d.rp d.rot win
      | .tile _, _, _ => .regs []
    let op : MmaOp := { key := acc.key, a := opnd o.a ta da c.idxA win, b := opnd o.b tb db c.idxB none, fa := o.fa, fb := o.fb, k, sa, sb, pages := maps }
    let g := (s.cur.setAccName nm { acc with cur := 0 }).addOp s.steps (some .mx) (.mma op)
    pure ((s.setCur g).noteOffers g.cluster, none)) s

/-! ### Scales (R209) -/

/-- Read the scale bytes of a side, a line at a time: a line that the engine has cached since the `mxscl` that the pass goes by may serve, else memory
does, and the engine caches what it gave; a poisoned line is recorded and gives no bytes. The lines read: line number and bytes (R209; log entry 13). -/
def State.readScales (s : State) (g : Group) (o : Op) (cl : Nat) (u : ScaleUse) (k : Nat) (pages : List PageMap) :
    State × List (Nat × Option (List Byte)) :=
  let pieces := (scaleRuns u.base u.rsh k u.shp).flatMap fun r => linePieces r.1 r.2
  let lines := (pieces.map fun p => p.1 / 64).eraseDups
  lines.foldl (fun (acc : State × List (Nat × Option (List Byte))) ln =>
    let s := acc.1
    let loc := pageLoc pages (64 * ln)
    let mine (e : ScaleLine) : Bool := e.gid = g.id && e.sideB = u.sideB && e.since = u.since && e.line = ln
    match (if Config.freeBit (s.steps + 2 ^ 64 * ln) then (s.cluster cl).scales.find? mine else none) with
    | some e => (s, (ln, some e.bytes) :: acc.2)
    | none =>
      let s := s.noteReads g.vf 3 (g.agent o.pc o.seq) pages (pieces.filter fun p => p.1 / 64 = ln)
      if s.engPoisoned loc then (s.logPoison g (Loc.pa loc / 64), (ln, none) :: acc.2)
      else
        let e : ScaleLine := { gid := g.id, sideB := u.sideB, since := u.since, line := ln, bytes := s.homeRead loc 64 }
        (s.updCluster cl fun k => { k with scales := e :: k.scales.filter fun x => !mine x }, (ln, some e.bytes) :: acc.2))
    (s, [])

/-- The scale of operand line `r` and element `k`: a NaN scale where the line is poisoned (R94, R209). -/
def scaleOf (u : ScaleUse) (lines : List (Nat × Option (List Byte))) (r k : Nat) : Option Rat :=
  let a := (u.base + r * 2 ^ u.rsh + k / blockLen u.shp) % 2 ^ 64
  match (lines.find? fun l => l.1 = a / 64).bind (·.2) with
  | some b => scaleVal u.shp (natLE ((b.drop (a % 64)).take 1))
  | none => none

/-! ### Grant and retirement (R204, R210, R211) -/

/-- The lines that a run lies in, whole. -/
def wholeLines (r : Nat × Nat) : Nat × Nat := (64 * (r.1 / 64), roundUp (r.1 % 64 + r.2) 64)

/-- A pass waits for the group's older acquires and accesses of its tile operands, for older operations on its accumulator, and for the stores to the lines
of its scales, which the engine caches whole, that come before the `mxscl` it goes by (R205, R209, R211, R304, R308). -/
def State.passReady (s : State) (g : Group) (o : Op) (m : MmaOp) : Bool :=
  (g.olderOpen o.seq).all (fun p =>
    p.kind.acquires.isNone && p.kind.accKey ≠ some m.key &&
    (match p.kind with
     | .tstore _ wg h _ | .append wg h _ _ _ | .tload _ wg h _ _ _ => !(OpKind.mma m).usesTile wg h
     | _ => true)) &&
  ([m.sa, m.sb].filterMap id).all fun u => s.engineReady g u.since (runSpans m.pages ((scaleRuns u.base u.rsh m.k u.shp).map wholeLines))

/-- The tile words that a pass of K elements of `w` bits reads include a poisoned one (R397). -/
def State.passPoison (s : State) (w k : Nat) : PassOpnd → Bool
  | .tile wg h rowb off tp rp rot win =>
    let t := s.handle wg h
    let e := 256 / w
    !t.poison.isEmpty && (List.range 64).any fun r => (List.range ((k + e - 1) / e)).any fun c =>
      t.poisoned (swz rowb (chunkAt off tp rp r c win) rot) ((min e (k - c * e) * w + 7) / 8)
  | .regs _ => false

/-- Compute a granted `mxmma`: its rows (R210). -/
def State.computeMma (s : State) (g : Group) (o : Op) (cl : Nat) (m : MmaOp) : State × List (List Word32) :=
  let s := s.consume g o.pc (s.passPoison m.fa.width m.k m.a || s.passPoison m.fb.width m.k m.b)
  let get (s : State) (u : Option ScaleUse) : State × List (Nat × Option (List Byte)) := match u with
    | some u => s.readScales g o cl u m.k m.pages
    | none => (s, [])
  let (s, la) := get s m.sa
  let (s, lb) := get s m.sb
  let w := m.fa.width
  let dec (f : EFmt) (p : PassOpnd) (u : Option ScaleUse) (ls : List (Nat × Option (List Byte))) (r k : Nat) : FpVal :=
    decElem f (s.opndElem w p r k) (u.map fun u => scaleOf u ls r k)
  let acc := g.accOf m.key
  (s, passRows m.k (dec m.fa m.a m.sa la) (dec m.fb m.b m.sb lb) fun i j => (Sparse.get 0 acc (64 * i + j)).toNat)

/-- The entry that an engine grants: the most urgent eligible one, the oldest among equals (R204). -/
def State.nextEntry (s : State) (cl : Nat) : Option ResEnt :=
  (eligibleEntries (s.cluster cl).res).foldl (fun best e =>
    match best with
    | none => some e
    | some b =>
      let kb := s.groupKey b.gid
      let ke := s.groupKey e.gid
      if keyLt ke kb || (ke = kb && decide (e.post < b.post)) then some e else some b) none

/-- PASS_GRANT: an idle engine grants the next pass. After a lease it clears first (R204, R215, R393). A pass whose operands older operations of its
group still change is not granted yet. -/
def execPassGrant (cl : Nat) (s : State) : Out :=
  let k := s.cluster cl
  if k.run.isSome || (s.gate (engineUnit cl)).waking then .next s
  else match s.nextEntry cl with
    | none => .next s
    | some e =>
      let s := s.settleAcc e.gid none
      let mine (x : ResEnt) : Bool := x.gid = e.gid && x.op = e.op
      match s.group? e.gid with
      | none => .next (s.dropEntries cl mine)
      | some g =>
        match g.op? e.op with
        | none => .next (s.dropEntries cl mine)
        | some o =>
          let wait : Bool := match o.kind with | .mma m => !s.passReady g o m | _ => false
          if wait then .next s
          else
            let s := if k.owner.isSome then s.clearEngine cl k.owner else s
            let s := s.updCluster cl fun k => { k with res := k.res.filter (fun x => !mine x), owner := none }
            let (s, rows) := match o.kind with | .mma m => s.computeMma g o cl m | _ => (s, [])
            let s := s.updCluster cl fun k => { k with run := some { gid := e.gid, op := e.op, vf := e.vf, result := rows, home := cl } }
            .next (s.noteOffers cl)

/-- A pass is over: the engine is free, and its group's later operations go on. -/
def State.passOver (s : State) (cl gid op : Nat) : State :=
  let pc := ((s.group? gid).bind fun g => g.op? op).map (·.pc)
  let s := s.updCluster cl fun k => { k with run := none }
  let s := match s.group? gid with | some g => s.engineDone g op | none => s
  ((s.settleAcc gid pc).noteOffers cl).engineIdle cl

/-- ROW_RETIRE: the engine retires the next row of the pass it runs, and the drains that wait on it take effect; row 63 ends the pass (R210, R212). -/
def execRowRetire (cl : Nat) (s : State) : Out :=
  match (s.cluster cl).run with
  | none => .next s
  | some r =>
    match r.result with
    | [] => .next s
    | row :: rest =>
      let key := match (s.group? r.gid).bind fun g => g.op? r.op with
        | some o => o.kind.accKey
        | none => none
      let s := match key with
        | some k => s.updGroup r.gid fun g => g.setAccOf k (accRow (g.accOf k) r.rows row)
        | none => s
      let s := s.updCluster cl fun k => { k with run := some { r with rows := r.rows + 1, result := rest } }
      if rest.isEmpty then .next (s.passOver cl r.gid r.op)
      else .next (s.settleAcc r.gid (((s.group? r.gid).bind fun g => g.op? r.op).map (·.pc)))

/-! ### Detached passes (R213, R214, R394) -/

/-- The descriptor of a detached pass or of an invocation, as the instruction reads it at issue: a line checked as the target of an atomic, for reads and
writes (R213). -/
def State.takeDescriptor (s : State) (va : Nat) : M (State × List Byte × Nat) := do
  let (s, accs) ← s.accept s.cur.vf .atomic 64 true [{ lane := 0, va }] true
  let pa := ((accs.head?).map (·.pa)).getD 0
  let (s, d) ← s.readNow 0 [(va, pa, 64)]
  pure (s, d, pa)

/-- Write STATUS of a descriptor (R214). -/
def State.writeStatus (s : State) (g : Group) (pc : Word32) (va pa st : Nat) (seq : Nat := g.seq) : State :=
  (s.write g.vf (va + 0x3A) (pa + 0x3A) [BitVec.ofNat 8 st] (g.writer seq)).watch g.vf (va + 0x3A) (pa + 0x3A) 1 4 (g.agent pc seq)

/-- `mxpass` (R213). -/
def execMxpass (c : Ctl) (a : Src) (s : State) : Out :=
  runInstr (.mxpass c a) c (counted c .mx fun s => do
    let va := (s.cur.uniA c a).toNat
    let (s, d, pa) ← s.takeDescriptor va
    let s ← s.post
    let s := s.writeStatus s.cur s.cur.me.pc va pa 0
    let g := s.cur.addOp s.steps (some .mx) (.pass d va pa)
    pure ((s.setCur g).noteOffers g.cluster, none)) s

/-- The fields of a pass descriptor that its checks and its arithmetic use (R213). -/
structure PassDesc where
  ab : Nat
  bb : Nat
  cb : Nat
  lda : Nat
  ldb : Nat
  ldc : Nat
  cin : Bool
  fa : EFmt
  fb : EFmt
  k : Nat
  sa : Option ScaleUse
  sb : Option ScaleUse

/-- The captured fields checked: none for a bad descriptor (R214). -/
def PassDesc.of (d : List Byte) : Option PassDesc := do
  let fa ← EFmt.ofCode (BitVec.ofNat 4 (fieldAt d 0x30 53 50))
  let fb ← EFmt.ofCode (BitVec.ofNat 4 (fieldAt d 0x30 57 54))
  let use (en : Bool) (base rsh : Nat) (shp : Bool) (f : EFmt) (sideB : Bool) : Option ScaleUse :=
    if en && scales f then some { base, rsh, shp, sideB } else none
  let sa := use (fieldAt d 0x38 6 6 = 1) (fieldAt d 0x18 63 0) (fieldAt d 0x38 4 0) (fieldAt d 0x38 5 5 = 1) fa false
  let sb := use (fieldAt d 0x38 14 14 = 1) (fieldAt d 0x20 63 0) (fieldAt d 0x38 12 8) (fieldAt d 0x38 13 13 = 1) fb true
  let p : PassDesc :=
    { ab := fieldAt d 0 63 0, bb := fieldAt d 8 63 0, cb := fieldAt d 0x10 63 0, lda := fieldAt d 0x28 31 0, ldb := fieldAt d 0x28 63 32,
      ldc := fieldAt d 0x30 31 0, cin := fieldAt d 0x30 58 58 = 1, fa, fb, k := fieldAt d 0x30 49 32, sa, sb }
  if fieldAt d 0x30 63 59 ≠ 0 || fieldAt d 0x38 63 24 ≠ 0 || fieldAt d 0x38 15 15 ≠ 0 || fieldAt d 0x38 7 7 ≠ 0 || fa.width ≠ fb.width ||
    p.ab % 32 ≠ 0 || p.bb % 32 ≠ 0 || p.cb % 256 ≠ 0 || p.lda % 32 ≠ 0 || p.ldb % 32 ≠ 0 || p.ldc % 256 ≠ 0 ||
    p.k = 0 || decide (kLimit fa.width < p.k) || badShape sa fa || badShape sb fb then none
  else some p

/-- Bytes of an operand line of K elements. -/
def lineBytes (w k : Nat) : Nat := (w * k + 7) / 8

def strided (base pitch n len : Nat) : List (Nat × Nat) := (List.range n).map fun r => ((base + r * pitch) % 2 ^ 64, len)

def PassDesc.aRuns (p : PassDesc) : List (Nat × Nat) := strided p.ab p.lda 64 (lineBytes p.fa.width p.k)
def PassDesc.bRuns (p : PassDesc) : List (Nat × Nat) := strided p.bb p.ldb 64 (lineBytes p.fa.width p.k)
def PassDesc.cRuns (p : PassDesc) : List (Nat × Nat) := strided p.cb p.ldc 64 256
def PassDesc.sRuns (p : PassDesc) (u : Option ScaleUse) : List (Nat × Nat) := match u with | some u => scaleRuns u.base u.rsh p.k u.shp | none => []

/-- What an engine's translation of its lines comes to; `perm` gives the host-physical address of the line that is not permitted, 0 where it has none, and
nothing where a malformed entry has been recorded. -/
inductive Mapped
  | ok (s : State) (pages : List PageMap)
  | wait (s : State)
  | perm (s : State) (line : Option Nat)

/-- Translate the lines of runs for an engine: a missing translation makes a page request, unless an earlier one was answered with FAIL (R214, R344). -/
def State.engineMap (s : State) (vf : Nat) (who : Requester) (kind : AccKind) (runs : List (Nat × Nat)) : Mapped :=
  if s.prqFailed.contains who then .perm { s with prqFailed := s.prqFailed.filter (· ≠ who) } (some 0)
  else
    let pages := (pagesOf runs).filterMap fun p => p.2.map fun a => (p.1, a)
    if pages.any fun p => decide (2 ^ 57 ≤ p.2) then .perm s (some 0)
    else match s.mapPages vf kind pages with
      | .ok (s, maps) => .ok s maps
      | .error (.xlate st page k _) => .wait (s.pageRequest vf st page k who)
      | .error (.malformed e _) => .perm (s.logError (s.vf vf).slice 0x02 0xFF vf 0 e 0) none
      | .error (.trap _ a) => .perm s (some (match s.translate vf a with | (_, .ok loc _) => 64 * (Loc.pa loc / 64) | _ => 0))
      | .error _ => .perm s (some 0)

/-- The decoded elements of a side of a detached pass, from its bytes. -/
def sideElems (f : EFmt) (lines : List (List Byte)) (u : Option ScaleUse) (scl : List (List Byte)) (r k : Nat) : FpVal :=
  decElem f (packedAt f.width (lines.getD r []) k) (u.map fun u => scaleVal u.shp (natLE (((scl.getD r []).drop (k / blockLen u.shp)).take 1)))

/-- The end of a detached pass: STATUS, the meters of a borrowed one, and the MX counter (R214, R394). -/
def State.endPass (s : State) (cl : Nat) (r : RunPass) (g : Group) (o : Op) (va pa st macs bytes : Nat) : State :=
  let s := s.writeStatus g o.pc va pa st o.seq
  let add (x : Word64) (n : Nat) : Word64 := x + BitVec.ofNat 64 n
  let s :=
    if r.borrowed then
      let s := s.updGran (s.sliceOf (cl / 4)) fun k =>
        { k with lopass := add k.lopass 1, lomac := add k.lomac macs, lobyte := add k.lobyte bytes }
      s.updVf g.vf fun v => { v with lipass := add v.lipass 1, limac := add v.limac macs, libyte := add v.libyte bytes }
    else s
  s.passOver cl r.gid r.op

/-- Run a detached pass to its end, or to a page request; it waits for the group's older accesses of what it reads (R214). -/
def State.runDetached (s : State) (cl : Nat) (r : RunPass) (g : Group) (o : Op) (d : List Byte) (va pa : Nat) : State :=
  match PassDesc.of d with
  | none => s.endPass cl r g o va pa 2 0 0
  | some p =>
    let hold (s : State) : State := s.updCluster cl fun k => { k with run := some { r with waiting := true } }
    let ins := p.aRuns ++ p.bRuns ++ p.sRuns p.sa ++ p.sRuns p.sb
    match s.engineMap g.vf (.pass cl) .read (ins ++ if p.cin then p.cRuns else []) with
    | .wait s => hold s
    | .perm s _ => s.endPass cl r g o va pa 3 0 0
    | .ok s mr =>
      match s.engineMap g.vf (.pass cl) .write p.cRuns with
      | .wait s => hold s
      | .perm s _ => s.endPass cl r g o va pa 3 0 0
      | .ok s mw =>
        let pages := mr ++ mw
        let reads := ins ++ if p.cin then p.cRuns else []
        if !s.engineReady g o.seq (runSpans pages reads) then s
        else match s.poisonIn pages reads with
        | some ln => (s.logPoison g ln).endPass cl r g o va pa 4 0 0
        | none =>
          let get (rs : List (Nat × Nat)) : List (List Byte) := rs.map fun x => s.readRun pages x.1 x.2
          let a := get p.aRuns
          let b := get p.bRuns
          let c0 := if p.cin then get p.cRuns else []
          let rows := passRows p.k (sideElems p.fa a p.sa (get (p.sRuns p.sa))) (sideElems p.fb b p.sb (get (p.sRuns p.sb)))
            fun i j => if p.cin then natLE (((c0.getD i []).drop (4 * j)).take 4) else 0
          let s := s.noteReads g.vf 3 (g.agent o.pc o.seq) pages reads
          let s := (p.cRuns.zip rows).foldl (fun s x =>
            s.writeRun g.vf (g.writer o.seq) (g.agent o.pc o.seq) pages x.1.1 (x.2.map fun v => bytesLE 4 v.toNat).flatten) s
          let bytes := (reads.map (·.2)).sum + (p.cRuns.map (·.2)).sum
          s.endPass cl r g o va pa 1 (4096 * p.k) bytes

/-- DETACHED_PASS_COMPLETE (R214). -/
def execDetachedPassComplete (cl : Nat) (s : State) : Out :=
  match (s.cluster cl).run with
  | none => .next s
  | some r =>
    if r.waiting then .next s
    else match s.group? r.gid with
      | none => .next s
      | some g =>
        match g.op? r.op with
        | none => .next s
        | some o =>
          match o.kind with
          | .pass d va pa => .next (s.runDetached cl r g o d va pa)
          | _ => .next s

end Sys2Proof.Machine
end

