-- ==== Sys2Proof/Machine/Delta.lean ====
section
/-!
DEFINITION. Delta layers: record instructions, weight regions, invocations (R216 to R238).
-/
set_option Elab.async false
namespace Sys2Proof.Machine
open Sys2Proof

/-! ### Record instructions at issue (R223 to R226) -/

/-- Issue of a record instruction: the checks of its header line, then its place among the MX operations (R223). The header of a `dlr.stat` is read when that
takes effect, which is here and now where nothing older holds it up: only then is its poison tested here (R226). -/
def issueDlr (which : Nat) (va : Nat) (w0 w1 : Word64) (dst : Option Nat) (s : State) : M (State × Option RegWrite) := do
  let kind : AccKind := if which = 2 then .read else .write
  let (s, accs) ← s.accept s.cur.vf kind 256 false [{ lane := 0, va }]
  let pa := ((accs.head?).map (·.pa)).getD 0
  s.settled [(0, Loc.pa pa, 64)]
  (if which = 2 && !s.cur.mxBefore s.cur.seq && !s.recHeld pa && s.poisoned pa then .error (.poison (Loc.pa pa / 64) va) else pure ())
  let g := s.cur.addOp s.steps (some .mx) (.dlr which va pa w0 w1)
  let g := match dst with | some d => g.awaiting .s d 1 allLanes | none => g
  pure ((s.setCur g).settleAcc g.id none, none)

def execDlrBind (c : Ctl) (o : AB) (s : State) : Out :=
  runInstr (.dlrBind c o) c (counted c .mx fun s => do
    let n := s.cur.rB c o.b.reg
    let w0 := s.cur.readS n
    let w1 := s.cur.readS (n + 1)
    trapIf (!bindOk w0 w1) .illegal
    issueDlr 0 (s.cur.uniA c o.a).toNat w0 w1 none s) s

def execDlrInval (c : Ctl) (a : Src) (s : State) : Out :=
  runInstr (.dlrInval c a) c (counted c .mx fun s => issueDlr 1 (s.cur.uniA c a).toNat 0 0 none s) s

def execDlrStat (c : Ctl) (o : DA) (s : State) : Out :=
  runInstr (.dlrStat c o) c (counted c .mx fun s => issueDlr 2 (s.cur.uniA c o.a).toNat 0 0 (some (s.cur.rD c o.d)) s) s

/-! ### Weight regions (R219) -/

/-- `wreg.set` (R219). That `sr.trapaddr` holds the value of S[B] for its MISALIGN, and the base for PERM, is the model's choice (log entry 68). -/
def execWregSet (c : Ctl) (o : WregSet) (s : State) : Out :=
  runInstr (.wregSet c o) c (counted c .store fun s => do
    let b := (s.cur.uniA c o.a).toNat
    let n := (s.cur.uniB c o.b).toNat
    trapIf (b % 64 ≠ 0) .misalign b
    trapIf (n % 64 ≠ 0) .misalign n
    trapIf (n = 0 || decide (2 ^ 40 < n)) .illegal
    trapIf (decide (2 ^ 57 < b + n)) .perm b
    pure (s.setCur (s.cur.addOp s.steps (some .store) (.wreg o.id.toNat (some (b, n)))), none)) s

def execWregClr (c : Ctl) (id : BitVec 6) (s : State) : Out :=
  runInstr (.wregClr c id) c (counted c .store fun s =>
    .ok (s.setCur (s.cur.addOp s.steps (some .store) (.wreg id.toNat none)), none)) s

/-- A region entry is written (R219). -/
def State.setRegion (s : State) (vf id : Nat) (v : Option (Nat × Nat)) : State :=
  s.updVf vf fun f =>
    let r := tget f.regions id {}
    let r := match v with
      | some (b, n) => { r with reg := true, base := b, size := n }
      | none => { r with reg := false }
    { f with regions := tset f.regions id { r with ver := r.ver + 1, obs := false } }

/-! ### Invocations (R227 to R234) -/

/-- `mxdelta` (R228, step 1). -/
def execMxdelta (c : Ctl) (a : Src) (s : State) : Out :=
  runInstr (.mxdelta c a) c (counted c .mx fun s => do
    let va := (s.cur.uniA c a).toNat
    let (s, d, pa) ← s.takeDescriptor va
    let s ← s.post
    let s := s.writeStatus s.cur s.cur.me.pc va pa 0
    let g := s.cur.addOp s.steps (some .mx) (.delta d va pa)
    pure ((s.setCur g).noteOffers g.cluster, none)) s

/-- A delta descriptor's fields (R227). -/
structure DeltaDesc where
  rb : Nat
  xb : Nat
  wb : Nat
  yb : Nat
  swb : Nat
  ldx : Nat
  ldw : Nat
  ldy : Nat
  fw : EFmt
  fx : EFmt
  sclw : Bool
  rshw : Nat

/-- The formats of W (R227). -/
def deltaFmt (f : EFmt) : Bool := match f with | .e5m2 | .e4m3 | .e3m2 | .e2m3 | .int8 => true | _ => false

/-- The descriptor, none for one that step 3 of R228 turns away. -/
def DeltaDesc.of (d : List Byte) : Option DeltaDesc := do
  let fw ← EFmt.ofCode (BitVec.ofNat 4 (fieldAt d 0x30 29 26))
  let fx ← match fieldAt d 0x30 25 24 with | 0 => some EFmt.f32 | 1 => some .bf16 | 2 => some .f16 | _ => none
  let x : DeltaDesc :=
    { rb := fieldAt d 0 63 0, xb := fieldAt d 8 63 0, wb := fieldAt d 0x10 63 0, yb := fieldAt d 0x18 63 0, swb := fieldAt d 0x20 63 0,
      ldx := fieldAt d 0x28 31 0, ldw := fieldAt d 0x28 63 32, ldy := fieldAt d 0x30 63 32, fw, fx, sclw := fieldAt d 0x30 14 14 = 1,
      rshw := fieldAt d 0x30 12 8 }
  if fieldAt d 0x30 31 30 ≠ 0 || fieldAt d 0x30 23 15 ≠ 0 || fieldAt d 0x30 13 13 ≠ 0 || fieldAt d 0x30 7 0 ≠ 0 || fieldAt d 0x38 63 24 ≠ 0 ||
    fieldAt d 0x38 15 0 ≠ 0 || !deltaFmt fw || x.rb % 256 ≠ 0 || x.xb % 32 ≠ 0 || x.wb % 32 ≠ 0 || x.yb % 256 ≠ 0 || x.ldx % 32 ≠ 0 ||
    x.ldw % 32 ≠ 0 || x.ldy % 256 ≠ 0 then none
  else some x

/-- The shape of a record: K-blocks of 32, and column tiles (R216, R217). -/
structure Shape where
  kb : Nat
  nt : Nat

def Shape.of (h : List Byte) : Shape := { kb := fieldAt h 8 15 5 + 1, nt := fieldAt h 8 4 0 }
def Shape.k (p : Shape) : Nat := 32 * p.kb
def Shape.n (p : Shape) : Nat := 64 * p.nt
/-- Offset of Y_ref in a record (R216). -/
def Shape.yr (p : Shape) : Nat := 0x100 + 8192 * p.kb

def DeltaDesc.xRuns (d : DeltaDesc) (p : Shape) : List (Nat × Nat) := strided d.xb d.ldx 64 (p.k * (d.fx.width / 8))
def DeltaDesc.wRuns (d : DeltaDesc) (p : Shape) : List (Nat × Nat) := strided d.wb d.ldw p.n p.k
def DeltaDesc.sRuns (d : DeltaDesc) (p : Shape) : List (Nat × Nat) := if d.sclw then strided d.swb (2 ^ d.rshw) p.n p.kb else []
def DeltaDesc.yRuns (d : DeltaDesc) (p : Shape) : List (Nat × Nat) := strided d.yb d.ldy 64 (256 * p.nt)
def DeltaDesc.xrRuns (d : DeltaDesc) (p : Shape) : List (Nat × Nat) := strided (d.rb + 0x100) (128 * p.kb) 64 (128 * p.kb)
def DeltaDesc.yrRuns (d : DeltaDesc) (p : Shape) : List (Nat × Nat) := strided (d.rb + p.yr) (256 * p.nt) 64 (256 * p.nt)

/-- Two lists of runs share a byte. -/
def runsMeet (a b : List (Nat × Nat)) : Bool := a.any fun x => b.any fun y => decide (x.1 < y.1 + y.2) && decide (y.1 < x.1 + x.2)

/-- The region entry that a header names. -/
def State.regionOf (s : State) (vf : Nat) (h : List Byte) : Region := tget (s.vf vf).regions (fieldAt h 0 21 16) {}

/-- Step 5 of R228: the record and the descriptor fit one another. -/
def DeltaDesc.recordOk (d : DeltaDesc) (h : List Byte) (r : Region) : Bool :=
  let p := Shape.of h
  let within (x : List (Nat × Nat)) : Bool := x.all fun q => decide (r.base ≤ q.1) && decide (q.1 + q.2 ≤ r.base + r.size)
  let rec_ := [(d.rb, p.yr + 16384 * p.nt)]
  hdrOk h && decide (256 * p.nt ≤ d.ldy) && (!r.reg || (within (d.wRuns p) && within (d.sRuns p))) &&
  !(runsMeet (d.yRuns p) (rec_ ++ d.xRuns p ++ d.wRuns p ++ d.sRuns p)) && !(runsMeet (d.xRuns p) rec_)

/-- The value of a finite number. -/
def finite (v : FpVal) : Option Rat := match v with | .num n m => some (if n then -m else m) | _ => none

/-- The mode of an invocation: the code of REASON, 0 for a delta invocation (R229). -/
def modeOf (h : List Byte) (r : Region) (vf : Nat) : Nat :=
  let drift := (fmtOf .f32).decode (fieldAt h 0x18 63 32)
  let bound := (fmtOf .f32).decode (fieldAt h 8 63 32)
  let gt : Bool := match finite drift, finite bound with
    | some a, some b => decide (b < a)
    | none, some _ => drift = .inf false
    | some _, none => bound = .inf true
    | none, none => drift = .inf false && bound = .inf true
  if !hdrValid h then 1
  else if fieldAt h 0 29 24 ≠ vf then 2
  else if !r.reg || r.ver.toNat ≠ fieldAt h 0x10 31 0 then 3
  else if fieldAt h 8 31 16 ≠ 0 && decide (fieldAt h 8 31 16 ≤ fieldAt h 0x18 31 16) then 4
  else if gt then 5 else 0

/-- A quantised difference block: none for a zero block; `e` none for a non-finite one (R230). -/
structure QBlock where
  e : Option Int
  q : List Int

/-- Quantise one block from its differences, none for a difference that is NaN or infinite (R230). -/
def quantise (qmax : Nat) (d : List (Option Rat)) : Option QBlock :=
  if d.any (·.isNone) then some { e := none, q := [] }
  else
    let d := d.map fun x => x.getD 0
    let m := d.foldl (fun a x => max a |x|) 0
    if m = 0 then none
    else
      let t := m / (qmax : Rat)
      let e0 := ilog2 t
      let e := max (if pow2 e0 < t then e0 + 1 else e0) (-127)
      let q := d.map fun x => roundInt .rne (x / pow2 e)
      if q.all (· = 0) then none else some { e := some e, q }

/-- The value of element `k` of a block as the product takes it (R230). -/
def QBlock.val (b : QBlock) (k : Nat) : FpVal :=
  match b.e with
  | none => .nan false true (2 ^ 51)
  | some e => let q := b.q.getD k 0; .num (q < 0) ((q.natAbs : Nat) * pow2 e)

/-- The results of an invocation: rows of Y, rows of X_ref, and what the header counts (R231, R232). -/
structure DeltaOut where
  y : List (List Nat)
  xref : List (List (Option Nat))
  zblk : Nat
  skips : Nat
  sigma : Rat
  nonfinite : Bool

/-- The arithmetic of an invocation (R230, R231). `x` gives X, `w` W by column and index; the references are FP32 words. -/
def deltaCompute (p : Shape) (full int8 : Bool) (x w : Nat → Nat → FpVal) (xref yref : Nat → Nat → Nat) : DeltaOut :=
  let ref (i k : Nat) : FpVal := if full then .num false 0 else (fmtOf .f32).decode (xref i k)
  let diff (i k : Nat) : Option Rat := do let a ← finite (x i k); let b ← finite (ref i k); pure (a - b)
  let blocks : List (List (Option QBlock)) := (List.range 64).map fun i => (List.range p.kb).map fun b =>
    quantise (if full || int8 then 127 else 7) ((List.range 32).map fun m => diff i (32 * b + m))
  let vals : List (List (Option (List (List FpVal)))) := blocks.map fun bs => bs.map fun q => q.map fun q =>
    (List.range 4).map fun m => (List.range 8).map fun t => q.val (8 * m + t)
  let cols : List (List (List (List FpVal))) := (List.range p.n).map fun j => (List.range p.kb).map fun b =>
    (List.range 4).map fun m => (List.range 8).map fun t => w j (32 * b + 8 * m + t)
  let y := (vals.zip (List.range 64)).map fun (bs, i) => (cols.zip (List.range p.n)).map fun (col, j) =>
    (bs.zip col).foldl (fun acc x => match x.1 with | none => acc | some q => dotBlocks acc q x.2) (if full then 0 else yref i j)
  let xr := (blocks.zip (List.range 64)).map fun (bs, i) => (bs.zip (List.range p.kb)).flatMap fun (blk, b) => (List.range 32).map fun m =>
    match blk with
    | some q => some (kBlock (if full then 0 else xref i (32 * b + m)) [(q.val m, .num false 1)])
    | none => if full then some 0 else none
  let all := blocks.flatten
  { y, xref := xr, zblk := (all.filter (·.isNone)).length,
    skips := 4 * p.nt * ((List.range p.kb).filter fun b => blocks.all fun bs => (bs.getD b none).isNone).length,
    sigma := (all.map fun b => match b with | some { e := some e, .. } => pow2 e | _ => 0).sum,
    nonfinite := all.any fun b => match b with | some { e := none, .. } => true | _ => false }

/-- The header after a successful invocation (R232). -/
def hdrAfter (h : List Byte) (mode vf : Nat) (r : Region) (o : DeltaOut) : List Byte :=
  let full := mode ≠ 0
  let w0 := fieldAt h 0 63 0
  let keep := w0 / 2 ^ 32 * 2 ^ 32 + bitsOf w0 21 16 * 2 ^ 16 + bitsOf w0 1 1 * 2
  let tag := if full then vf else bitsOf w0 29 24
  let drift := if full then 0 else kBlock (fieldAt h 0x18 63 32) [(.num false o.sigma, .num false 1)]
  let count := if full then 0 else min (fieldAt h 0x18 31 16 + 1) 65535
  bytesLE 8 (keep + tag * 2 ^ 24 + mode * 2 ^ 5 + (if full then 2 else 1) * 2 ^ 3 + b2n (!o.nonfinite)) ++ bytesLE 8 (fieldAt h 8 63 0) ++
  bytesLE 4 r.ver.toNat ++ bytesLE 4 (fieldAt h 0x10 63 32 + 1) ++ bytesLE 8 (2 ^ 32 * drift + 2 ^ 16 * count) ++
  bytesLE 4 o.zblk ++ bytesLE 4 o.skips ++ List.replicate 24 0

/-- The words of X_ref that change, as runs of bytes (R231). -/
def refWrites (base : Nat) (row : List (Option Nat)) : List (Nat × List Byte) :=
  (List.range (row.length / 32)).filterMap fun b => (((row.drop (32 * b)).take 32).mapM id).map fun vs => (base + 128 * b, (vs.map (bytesLE 4)).flatten)

/-- The bytes that an invocation of a mode reads (R228 to R231). -/
def DeltaDesc.reads (d : DeltaDesc) (p : Shape) (full : Bool) : List (Nat × Nat) :=
  d.xRuns p ++ d.wRuns p ++ d.sRuns p ++ if full then [] else d.xrRuns p ++ d.yrRuns p

/-- An invocation's lines, translated and checked (R228, step 6): the references are read by a delta invocation alone. -/
def State.deltaMap (s : State) (vf cl : Nat) (d : DeltaDesc) (p : Shape) (full : Bool) : Mapped :=
  match s.engineMap vf (.pass cl) .read (d.reads p full) with
  | .ok s a =>
    match s.engineMap vf (.pass cl) .write (d.xrRuns p ++ d.yrRuns p ++ d.yRuns p) with
    | .ok s b => .ok s (a ++ b)
    | o => o
  | o => o

/-- The line of an invocation that is not permitted is recorded; the spec gives the record no kind, and it is a free one of those it lists (R234, R400;
log entry 75). -/
def State.logDenied (s : State) (g : Group) : Option Nat → State
  | some a => s.logError (s.vf g.vf).slice (Config.freeChoice s.steps % 10) 0xFF g.vf 0 a g.launchId
  | none => s

/-- Steps 7 and 8 of R228 for an invocation whose lines are mapped: VER is read and OBS set, the results are computed, and the first write of R234 is
made; the others are left for DELTA_COMPLETE. -/
def State.deltaRun (s : State) (cl : Nat) (rn : RunPass) (g : Group) (o : Op) (d : DeltaDesc) (h : List Byte) (hpa va pa : Nat) (pages : List PageMap) :
    State :=
  let p := Shape.of h
  let r := s.regionOf g.vf h
  let mode := modeOf h r g.vf
  let full := mode ≠ 0
  let s := if r.reg then s.updVf g.vf fun v => { v with regions := tset v.regions (fieldAt h 0 21 16) { r with obs := true } } else s
  let reads := d.reads p full
  let clear (s : State) : State := s.writeHdr g o cl d.rb hpa ((hdrInvalid h).take 1)
  match s.poisonIn pages reads with
  | some ln => ((clear s).logPoison g ln).endPass cl rn g o va pa 4 0 0
  | none =>
    let get (rs : List (Nat × Nat)) : List (List Byte) := rs.map fun x => s.readRun pages x.1 x.2
    let xb := get (d.xRuns p)
    let wb := get (d.wRuns p)
    let sb := get (d.sRuns p)
    let xr := if full then [] else get (d.xrRuns p)
    let yr := if full then [] else get (d.yrRuns p)
    let word (b : List (List Byte)) (i k : Nat) : Nat := natLE (((b.getD i []).drop (4 * k)).take 4)
    let u := if d.sclw then some ({ base := d.swb, rsh := d.rshw, shp := false, sideB := true } : ScaleUse) else none
    let out := deltaCompute p full (fieldAt h 0 1 1 = 1) (fun i k => elemVal d.fx (packedAt d.fx.width (xb.getD i []) k)) (sideElems d.fw wb u sb)
      (word xr) (word yr)
    let ys := out.y.map fun row => (row.map (bytesLE 4)).flatten
    let put (va : Nat) (data : List Byte) : List (Nat × Nat × List Byte) :=
      (linePieces va data.length).map fun q => (q.1, pageLoc pages q.1, (data.drop (q.1 - va)).take q.2)
    let yrw := ((d.yrRuns p).zip ys).flatMap fun q => put q.1.1 q.2
    let xrw := ((d.xrRuns p).zip out.xref).flatMap fun q => (refWrites q.1.1 q.2).flatMap fun w => put w.1 w.2
    let yw := ((d.yRuns p).zip ys).flatMap fun q => put q.1.1 q.2
    let s := clear (s.noteReads g.vf 3 (g.agent o.pc o.seq) pages reads)
    let rn := { rn with computed := true, writes := yrw ++ xrw ++ yw ++ [(d.rb, hpa, hdrAfter h mode g.vf r out)] }
    s.updCluster cl fun k => { k with run := some rn }

/-- Steps 2 to 8 of R228. It waits while another invocation holds the record, and for the group's older accesses of what it reads (R223, R234). -/
def State.invoke (s : State) (cl : Nat) (rn : RunPass) (g : Group) (o : Op) (desc : List Byte) (va pa : Nat) : State :=
  let done_ (s : State) (st : Nat) : State := s.endPass cl rn g o va pa st 0 0
  let hold (s : State) : State := s.updCluster cl fun k => { k with run := some { rn with waiting := true } }
  match DeltaDesc.of desc with
  | none => done_ s 2
  | some d =>
    match s.engineMap g.vf (.pass cl) .write [(d.rb, 64)] with
    | .wait s => hold s
    | .perm s ln => done_ (s.logDenied g ln) 3
    | .ok s hp =>
      match s.engineMap g.vf (.pass cl) .read [(d.rb, 64)] with
      | .wait s => hold s
      | .perm s ln => done_ (s.logDenied g ln) 3
      | .ok s _ =>
        let hpa := pageLoc hp d.rb
        if s.recHeld hpa then s
        else if s.engPoisoned hpa then done_ (s.logPoison g (Loc.pa hpa / 64)) 4
        else
          let h := s.homeRead hpa 64
          let used (s : State) : State := (s.cacheRec cl g.vf d.rb hpa).noteRead g.vf 3 (g.agent o.pc o.seq) d.rb hpa 64
          let r := s.regionOf g.vf h
          let full : Bool := modeOf h r g.vf ≠ 0
          if !d.recordOk h r then done_ (used s) 2
          else match s.deltaMap g.vf cl d (Shape.of h) full with
            | .wait s => hold s
            | .perm s ln => done_ ((used s).logDenied g ln) 3
            | .ok s pages =>
              if s.engineReady g o.seq (runSpans pages (d.reads (Shape.of h) full)) then (used s).deltaRun cl rn g o d h hpa va pa pages else s

/-- The invocation that an engine runs, with its group and operation. -/
def State.runningDelta (s : State) (cl : Nat) : Option (RunPass × Group × Op × List Byte × Nat × Nat) := do
  let r ← (s.cluster cl).run
  let g ← s.group? r.gid
  let o ← g.op? r.op
  match o.kind with
  | .delta d va pa => some (r, g, o, d, va, pa)
  | _ => none

/-- DELTA_INVOCATION: a granted invocation runs once its group's older stores are complete (R228, R229 to R231). -/
def execDeltaInvocation (cl : Nat) (s : State) : Out :=
  match s.runningDelta cl with
  | none => .next s
  | some (r, g, o, d, va, pa) =>
    let stores := g.ops.any fun p => !p.fin && decide (p.seq < o.seq) && p.path = some .store
    if r.waiting || r.computed || stores then .next s else .next (s.invoke cl r g o d va pa)

/-- DELTA_COMPLETE: the writes of R234, in order, then STATUS 1. -/
def execDeltaComplete (cl : Nat) (s : State) : Out :=
  match s.runningDelta cl with
  | none => .next s
  | some (r, g, o, _, va, pa) =>
    if !r.computed then .next s
    else
      let s := r.writes.foldl (fun s w =>
        (s.write g.vf w.1 w.2.1 w.2.2 { g.writer o.seq with keep := some cl }).watch g.vf w.1 w.2.1 w.2.2.length 4 (g.agent o.pc o.seq)) s
      .next ((s.endPass cl r g o va pa 1 0 0).settleRecs)

end Sys2Proof.Machine
end

