-- ==== Sys2Proof/Machine/Filter.lean ====
section
/-!
DEFINITION. The filter unit: interpolation, texture descriptors, levels of detail, sampling and queries (R239 to R256).
-/
set_option Elab.async false
namespace Sys2Proof.Machine
open Sys2Proof

/-! ### Arithmetic (R245, R246) -/

def canonNan : Nat := 0x7FC00000
def f32Val (b : Nat) : FpVal := (fmtOf .f32).decode b
/-- A word with a NaN made canonical (R241). -/
def canon (b : Nat) : Nat := if (f32Val b).isNan then canonNan else b

/-- Interpolation of FP32 words (R245). -/
def lerp (a b : Nat) (t : Rat) : Nat :=
  if t = 0 then canon a
  else match f32Val a, f32Val b with
    | .nan .., _ => canonNan
    | _, .nan .. => canonNan
    | .inf x, .inf y => if x = y then a else canonNan
    | .inf _, _ => a
    | _, .inf _ => b
    | .num x p, .num y q => (deliverFp { nanq := true } .f32 .rne [] (sumExact .rne [.num x (p * (1 - t)), .num y (q * t)])).1

/-- Reduce a list of values by pairs along one axis. -/
def lerpPairs (t : Rat) : List Nat → List Nat
  | a :: b :: r => lerp a b t :: lerpPairs t r
  | l => l

/-- Round a fraction toward zero to FP32, or down to a multiple of 1/256 (R246). -/
def weight (exact : Bool) (f : Rat) : Rat :=
  if exact then (match f32Val (roundMag .f32 .rz false false false f).1 with | .num _ m => m | _ => 0) else ((256 * f).floor : Rat) / 256

/-- Along one axis: the indices and the weight (R246). -/
def axisTaps (linear exact : Bool) (c : Rat) : List Int × Rat :=
  if linear then
    let i := (c - 1 / 2).floor
    ([i, i + 1], weight exact (c - 1 / 2 - i))
  else ([c.floor], 0)

/-! ### Descriptors (R247 to R250) -/

/-- A texture descriptor (R247). -/
structure TexDesc where
  base : Nat
  depthm : Nat
  heightm : Nat
  widthm : Nat
  pitch : Nat
  dim : Nat
  fmt : Nat
  levelsm : Nat
  au : Nat
  av : Nat
  aw : Nat
  border : Nat
  texc : Bool
  maglin : Bool
  minlin : Bool
  mip : Nat
  bias : Int
  maxlod : Nat
  minlod : Nat

def TexDesc.of (d : List Byte) : TexDesc :=
  { base := fieldAt d 0 63 0, depthm := fieldAt d 8 47 32, heightm := fieldAt d 8 31 16, widthm := fieldAt d 8 15 0, pitch := fieldAt d 0x10 31 0,
    dim := fieldAt d 0x18 29 28, fmt := fieldAt d 0x18 27 24, levelsm := fieldAt d 0x18 23 20, au := fieldAt d 0x18 19 18, av := fieldAt d 0x18 17 16,
    aw := fieldAt d 0x18 15 14, border := fieldAt d 0x18 13 12, texc := fieldAt d 0x18 11 11 = 1, maglin := fieldAt d 0x18 10 10 = 1,
    minlin := fieldAt d 0x18 9 9 = 1, mip := fieldAt d 0x18 8 7, bias := signedOf 16 (fieldAt d 0x20 47 32), maxlod := fieldAt d 0x20 31 16,
    minlod := fieldAt d 0x20 15 0 }

/-- Texel bytes by format (R249). -/
def texelBytes (f : Nat) : Nat := [1, 2, 4, 2, 2, 4, 8, 4, 8, 16, 2].getD f 1

/-- The faults of a descriptor (R248). -/
def TexDesc.bad (x : TexDesc) (d : List Byte) (dim : TexDim) : Bool :=
  fieldAt d 8 63 48 ≠ 0 || fieldAt d 0x10 63 32 ≠ 0 || fieldAt d 0x18 63 30 ≠ 0 || fieldAt d 0x18 6 0 ≠ 0 || fieldAt d 0x20 63 48 ≠ 0 ||
  !((d.drop 0x28).all (· = 0)) || x.dim ≠ dim.code.toNat || decide (11 ≤ x.fmt) || x.border = 3 || x.mip = 3 || x.base % 256 ≠ 0 || x.pitch % 64 ≠ 0 ||
  decide (x.pitch < (x.widthm + 1) * texelBytes x.fmt) ||
  decide (Nat.log2 (max (max (x.widthm + 1) (x.heightm + 1)) (if dim = .d3 then x.depthm + 1 else 0)) < x.levelsm) ||
  ((dim = .d2 || dim = .cube) && x.depthm ≠ 0) || (dim = .cube && (x.widthm ≠ x.heightm || x.texc))

namespace TexDesc
/-- Axis sizes of a level (R250). -/
def nu (x : TexDesc) (l : Nat) : Nat := max 1 ((x.widthm + 1) / 2 ^ l)
def nv (x : TexDesc) (l : Nat) : Nat := max 1 ((x.heightm + 1) / 2 ^ l)
def nw (x : TexDesc) (l : Nat) : Nat := max 1 ((x.depthm + 1) / 2 ^ l)
def rowPitch (x : TexDesc) (l : Nat) : Nat := if l = 0 then x.pitch else roundUp (x.nu l * texelBytes x.fmt) 64
def slicePitch (x : TexDesc) (l : Nat) : Nat := roundUp (x.rowPitch l * x.nv l) 256
def slices (x : TexDesc) (l : Nat) : Nat := match x.dim with | 0 => 1 | 1 => x.depthm + 1 | 2 => x.nw l | _ => 6
/-- Where a level starts (R250). -/
def levelBase (x : TexDesc) (l : Nat) : Nat := (List.range l).foldl (fun a k => a + x.slicePitch k * x.slices k) x.base
/-- The address of a texel (R250). -/
def texelAt (x : TexDesc) (l sl tx ty : Nat) : Nat :=
  (x.levelBase l + sl * x.slicePitch l + ty * x.rowPitch l + tx * texelBytes x.fmt) % 2 ^ 64
/-- Weights are exact fractions in the FP32 formats (R246). -/
def fine (x : TexDesc) : Bool := x.fmt = 7 || x.fmt = 8 || x.fmt = 9
end TexDesc

/-- The components of a texel as FP32 words (R249). -/
def texelRgba (f : Nat) (b : List Byte) : List Nat :=
  let at_ (o n : Nat) : Nat := natLE ((b.drop o).take n)
  let unorm (v m : Nat) : Nat := (roundVal .f32 .rne false false false ((v : Rat) / m)).1
  let half (t : Ty) (v : Nat) : Nat := match (fmtOf t).decode v with
    | .nan .. => canonNan
    | .inf n => if n then 0xFF800000 else 0x7F800000
    | .num n q => (roundVal .f32 .rne false false n q).1
  let one := 0x3F800000
  match f with
  | 0 => [unorm (at_ 0 1) 255, 0, 0, one]
  | 1 => [unorm (at_ 0 1) 255, unorm (at_ 1 1) 255, 0, one]
  | 2 => [unorm (at_ 0 1) 255, unorm (at_ 1 1) 255, unorm (at_ 2 1) 255, unorm (at_ 3 1) 255]
  | 3 => [unorm (at_ 0 2) 65535, 0, 0, one]
  | 4 => [half .f16 (at_ 0 2), 0, 0, one]
  | 5 => [half .f16 (at_ 0 2), half .f16 (at_ 2 2), 0, one]
  | 6 => [half .f16 (at_ 0 2), half .f16 (at_ 2 2), half .f16 (at_ 4 2), half .f16 (at_ 6 2)]
  | 7 => [at_ 0 4, 0, 0, one]
  | 8 => [at_ 0 4, at_ 4 4, 0, one]
  | 9 => [at_ 0 4, at_ 4 4, at_ 8 4, at_ 12 4]
  | _ => [half .bf16 (at_ 0 2), 0, 0, one]

/-- The border colour (R247). -/
def borderRgba (b : Nat) : List Nat := match b with | 0 => [0, 0, 0, 0] | 1 => [0, 0, 0, 0x3F800000] | _ => List.replicate 4 0x3F800000

/-- An index mapped by an addressing mode: none outside under border (R251). -/
def mapIndex (mode n : Nat) (i : Int) : Option Nat :=
  match mode with
  | 0 => some (i % (n : Int)).toNat
  | 1 => let m := (i % (2 * n : Int)).toNat; some (if m < n then m else 2 * n - 1 - m)
  | 2 => some (max 0 (min i ((n : Int) - 1))).toNat
  | _ => if 0 ≤ i ∧ i < (n : Int) then some i.toNat else none

/-! ### Coordinates and levels of detail (R240, R252 to R254) -/

/-- A coordinate as a number: none for a NaN or an infinity. -/
def coord (v : Word64) (k : Nat) : Option Rat := match f32Val (subEl 32 v k) with | .num n q => some (if n then -q else q) | _ => none

/-- The face and the coordinates of a direction: none where a component is not finite or the major one is zero (R242, R252). -/
def cubeFace (a b : Word64) : Option (Nat × Rat × Rat) := do
  let x ← coord a 0
  let y ← coord a 1
  let z ← coord b 0
  let neg (w : Word64) (k : Nat) : Bool := bitOf (subEl 32 w k) 31
  let (face, sc, tc, ma) :=
    if |y| ≤ |z| && |x| ≤ |z| then (if neg b 0 then (5, -x, -y, z) else (4, x, -y, z))
    else if |x| ≤ |y| then (if neg a 1 then (3, x, -z, y) else (2, x, z, y))
    else if neg a 0 then (1, z, -y, x) else (0, -z, -y, x)
  if ma = 0 then none else some (face, (sc / |ma| + 1) / 2, (tc / |ma| + 1) / 2)

/-- What a lane asks for: slice, and coordinates along u, v and w; none where R242 applies. -/
def lanePoint (x : TexDesc) (dim : TexDim) (a b : Word64) : Option (Nat × List Rat) :=
  match dim with
  | .d2 => do pure (0, [← coord a 0, ← coord a 1])
  | .d2a => do
    let l ← coord b 0
    pure ((max 0 (min (roundInt .rne l) (x.depthm : Int))).toNat, [← coord a 0, ← coord a 1])
  | .d3 => do pure (0, [← coord a 0, ← coord a 1, ← coord b 0])
  | .cube => do let (f, u, v) ← cubeFace a b; pure (f, [u, v])

/-- The coordinates whose differences give the level of detail: the layer of `.2da` takes no part (R253). -/
def lodPoint (dim : TexDim) (a b : Word64) : Option (List Rat) :=
  match dim with
  | .d2 | .d2a => do pure [← coord a 0, ← coord a 1]
  | .d3 => do pure [← coord a 0, ← coord a 1, ← coord b 0]
  | .cube => do let (_, u, v) ← cubeFace a b; pure [u, v]

/-- A level of detail in units of 1/256. -/
inductive Lod | ninf | fin (n : Int) | pinf
deriving DecidableEq, Repr

/-- λ of a quad, from the coordinates of its positions 0 to 2 (R253). Half of log2 in units of 1/256 is half of Floor(log2 of the 256th power), and no
tie arises. -/
def quadLod (x : TexDesc) (ps : List (Option (List Rat))) : Lod :=
  let sizes : List Rat := if x.texc then [1, 1, 1] else [((x.widthm + 1 : Nat) : Rat), ((x.heightm + 1 : Nat) : Rat), ((x.depthm + 1 : Nat) : Rat)]
  match ps with
  | [some p0, some p1, some p2] =>
    let sc (p : List Rat) : List Rat := List.zipWith (· * ·) p sizes
    let d2 (p : List Rat) : Rat := ((List.zipWith (· - ·) (sc p) (sc p0)).map fun d => d * d).sum
    let r := max (d2 p1) (d2 p2)
    if r = 0 then .ninf else .fin ((ilog2 (r ^ 256) + 1) / 2 + x.bias)
  | _ => .ninf

/-- λ of `tex.l`: none for a NaN (R242, R254). -/
def givenLod (x : TexDesc) (b : Word64) : Option Lod :=
  match f32Val (subEl 32 b 1) with
  | .nan .. => none
  | .inf n => some (if n then .ninf else .pinf)
  | .num n q => some (.fin (roundInt .rne (256 * (if n then -q else q) + (x.bias : Rat))))

/-- λ′ (R254). -/
def clampLod (x : TexDesc) (l : Lod) : Nat :=
  match l with
  | .ninf => min (min x.minlod x.maxlod) (256 * x.levelsm)
  | .pinf => min x.maxlod (256 * x.levelsm)
  | .fin n => min (min (max n x.minlod).toNat x.maxlod) (256 * x.levelsm)

/-! ### Sampling (R255) -/

/-- The taps of one level: address, or none for the border colour; and the weights along the axes. -/
structure LevelTaps where
  taps : List (Option Nat)
  ts : List Rat

/-- The taps at level `l` of a point (R246, R251, R255). -/
def levelTaps (x : TexDesc) (dim : TexDim) (linear : Bool) (l sl : Nat) (p : List Rat) : LevelTaps :=
  let scale (c : Rat) (n n0 : Nat) : Rat := if x.texc then c * n / n0 else c * n
  let ax (k n n0 : Nat) : List Int × Rat := axisTaps linear x.fine (scale (p.getD k 0) n n0)
  let u := ax 0 (x.nu l) (x.nu 0)
  let v := ax 1 (x.nv l) (x.nv 0)
  let mu := if dim = .cube then 2 else x.au
  let mv := if dim = .cube then 2 else x.av
  let tap (sl : Option Nat) (iv iu : Int) : Option Nat := do
    let s ← sl
    let a ← mapIndex mu (x.nu l) iu
    let b ← mapIndex mv (x.nv l) iv
    pure (x.texelAt l s a b)
  let plane (sl : Option Nat) : List (Option Nat) := v.1.flatMap fun iv => u.1.map fun iu => tap sl iv iu
  if dim = .d3 then
    let w := ax 2 (x.nw l) (x.nw 0)
    { taps := w.1.flatMap fun iw => plane (mapIndex x.aw (x.nw l) iw), ts := if linear then [u.2, v.2, w.2] else [] }
  else { taps := plane (some sl), ts := if linear then [u.2, v.2] else [] }

/-- The levels that λ′ selects, with the weight between them (R254). -/
def levelsOf (x : TexDesc) (lp : Nat) : List Nat × Rat :=
  match x.mip with
  | 0 => ([0], 0)
  | 1 => ([(lp + 128) / 256], 0)
  | _ =>
    let l0 := lp / 256
    if lp % 256 = 0 then ([l0], 0) else ([l0, min (l0 + 1) x.levelsm], ((lp % 256 : Nat) : Rat) / 256)

/-- Everything a lane reads, level by level, and the weight between levels. -/
structure LanePlan where
  levels : List LevelTaps
  t : Rat

/-- The plan of a lane from its coordinates and its level of detail. -/
def lanePlan (x : TexDesc) (dim : TexDim) (a b : Word64) (lod : Lod) : Option LanePlan := do
  let (sl, p) ← lanePoint x dim a b
  let lp := clampLod x lod
  let linear := (x.maglin && lp = 0) || (x.minlin && decide (0 < lp))
  let (ls, t) := levelsOf x lp
  pure { levels := ls.map fun l => levelTaps x dim linear l sl p, t }

/-- Colours reduced along the axes, component by component. -/
def reduceTaps (ts : List Rat) (cs : List (List Nat)) : List Nat :=
  (List.range 4).map fun k =>
    let v := ts.foldl (fun vs t => lerpPairs t vs) (cs.map fun c => c.getD k 0)
    canon (v.getD 0 0)

/-- The colour of a lane, given a reader of texels. -/
def LanePlan.colour (p : LanePlan) (x : TexDesc) (rd : Nat → List Byte) : List Nat :=
  let one (l : LevelTaps) : List Nat := reduceTaps l.ts (l.taps.map fun t => match t with | some a => texelRgba x.fmt (rd a) | none => borderRgba x.border)
  match p.levels.map one with
  | [c] => c
  | [c, d] => List.zipWith (fun a b => lerp a b p.t) c d
  | _ => [0, 0, 0, 0]

/-- An FP32 word rounded to a 16-bit format (R255, R259). -/
def narrow16 (t : Ty) (b : Nat) : Nat :=
  match f32Val b with
  | .nan .. => if t = .f16 then 0x7E00 else 0x7FC0
  | .inf n => (fmtOf t).infBits n
  | .num n q => (roundVal t .rne false false n q).1

/-- The plans of a texture instruction's lanes, from its source registers (R253, R254). -/
def texPlan (x : TexDesc) (dim : TexDim) (given : Bool) (va vb : Lanes Word64) (l : Nat) : Option LanePlan :=
  let a := va.get l 0
  let b := vb.get l 0
  if given then (givenLod x b).bind fun lod => lanePlan x dim a b lod
  else
    let q := l / 4 * 4
    lanePlan x dim a b (quadLod x ((List.range 3).map fun p => lodPoint dim (va.get (q + p) 0) (vb.get (q + p) 0)))

/-- The addresses that a plan reads. -/
def LanePlan.reads (p : LanePlan) : List Nat := p.levels.flatMap fun l => l.taps.filterMap id

/-! ### Issue (R241 to R244) -/

/-- Read a run at issue as a load of the issuing group, one line after another, with the traps of R243. -/
def State.readTable (s : State) (va n : Nat) : M (State × List Byte) := do
  let (s, accs) ← s.accept s.cur.vf .read 1 true ((List.range ((n + 63) / 64)).map fun i => { lane := 0, va := (va + 64 * i) % 2 ^ 64 })
  let (s, d) ← s.readNow 3 (accs.map fun a => (a.va, a.pa, 64))
  pure (s, d.take n)

/-- The pages of accepted accesses. -/
def accPages (accs : List LaneAcc) : List PageMap :=
  (accs.filter (!·.zero)).foldl (fun ps a =>
    if ps.any fun p => p.vpage = a.va / 65536 then ps else { vpage := a.va / 65536, ppage := a.pa - a.va % 65536, attr := a.attr } :: ps) []

/-- Accept the lanes' data accesses; a helper lane with a fault is left out of the lanes that read (R19, R241, R243). Of
several faulting addresses of one lane the first that it reads is named: the model's choice (log entry 87). -/
def State.acceptData (s : State) (c : Ctl) (helpers : Bool) (reads : Nat → List Nat) : M (State × List PageMap × Word32) := do
  let reqs := (s.cur.accLanes c helpers).flatMap fun p => (reads p.1).map fun va => ({ lane := p.1, va, helper := p.2 } : LaneReq)
  let (s, accs) ← s.accept s.cur.vf .read 1 true reqs
  let bad := maskOf fun l => accs.any fun a => a.lane = l && a.zero
  pure (s, accPages accs, (if helpers then s.cur.helpersFor c else 0) &&& ~~~bad)

/-- A filter instruction joins the FILT path with its awaited results (R170, R241). -/
def State.addFilter (s : State) (i : Instr) (c : Ctl) (d n : Nat) (desc : List Byte) (helpers lanes : Word32) (srcs : List (Lanes Word64))
    (pages : List PageMap) : State :=
  let s := s.arrive (filterUnit s.cur.coreIx)
  let g := s.cur.addOp s.steps (some .filt) (.filter i desc (s.cur.active c) helpers srcs pages)
  s.setCur (g.awaiting .v d n lanes)

/-- The texture descriptor of an instruction, read and checked (R243, R248). -/
def State.texDesc (s : State) (c : Ctl) (b : Src) (dim : TexDim) : M (State × List Byte) := do
  let va := (s.cur.uniB c b).toNat
  trapIf (va % 64 ≠ 0) .misalign va
  let (s, d) ← s.readTable va 64
  trapIf ((TexDesc.of d).bad d dim) .illegal va
  pure (s, d)

/-- A filter instruction with no active lane raises and lowers its counter; its ZERO lanes are still written (R59). -/
def idleFilter (d n : Nat) (lanes : Word32) (s : State) : M (State × Option RegWrite) :=
  let g := (s.cur.addOp s.steps (some .filt) .null).awaiting .v d n lanes
  .ok (s.setCur ((g.fillPend g.seq allLanes true fun _ _ => 0).finishOp g.seq), none)

/-- Source registers of a texture instruction, as the issuing slot reads them in every lane. -/
def Group.texSrcs (g : Group) (c : Ctl) (a : Src) : List (Lanes Word64) := [g.lanesV (g.rA c a.reg), g.lanesV (g.rA c a.reg + 1)]

/-- `tex.s` and `tex.l` at issue. -/
def issueTex (i : Instr) (c : Ctl) (o : Tex) (given : Bool) (s : State) : M (State × Option RegWrite) := do
  s.pathFree .filt
  let n := o.dstRegs
  let d := s.cur.rD c o.d
  if s.cur.active c = 0 then idleFilter d n (s.cur.written c) s
  else
    let (s, desc) ← s.texDesc c o.b o.dim
    let srcs := s.cur.texSrcs c o.a
    let x := TexDesc.of desc
    let plan (l : Nat) := texPlan x o.dim given (srcs.getD 0 (Lanes.const 0)) (srcs.getD 1 (Lanes.const 0)) l
    let (s, pages, helpers) ← s.acceptData c true fun l => match plan l with | some p => p.reads | none => []
    pure (s.addFilter i c d n desc helpers (s.cur.written c) srcs pages, none)

def execTexS (c : Ctl) (o : Tex) (s : State) : Out := runInstr (.texS c o) c (issueTex (.texS c o) c o false) s
def execTexL (c : Ctl) (o : Tex) (s : State) : Out := runInstr (.texL c o) c (issueTex (.texL c o) c o true) s

/-- `tex.q` at issue: it reads the descriptor alone (R256). -/
def issueTexQ (i : Instr) (c : Ctl) (o : TexQ) (n : Nat) (s : State) : M (State × Option RegWrite) := do
  s.pathFree .filt
  let d := s.cur.rD c o.d
  if s.cur.active c = 0 then idleFilter d n (s.cur.written c) s
  else
    let (s, desc) ← s.texDesc c o.b o.dim
    pure (s.addFilter i c d n desc (s.cur.helpersFor c) (s.cur.written c) (s.cur.texSrcs c o.a) [], none)

def execTexQDim (c : Ctl) (o : TexQ) (s : State) : Out := runInstr (.texQDim c o) c (issueTexQ (.texQDim c o) c o 2) s
def execTexQLod (c : Ctl) (o : TexQ) (s : State) : Out := runInstr (.texQLod c o) c (issueTexQ (.texQLod c o) c o 1) s

/-! ### Results -/

/-- The registers of a sampled colour (R255). -/
def colourRegs (ty : Ty) (rgba : List Nat) (k : Nat) : Word64 :=
  let at_ (i : Nat) : Nat := rgba.getD i 0
  if ty = .f32 then BitVec.ofNat 64 (at_ (2 * k) + 2 ^ 32 * at_ (2 * k + 1))
  else BitVec.ofNat 64 (packSubs 16 (rgba.map (narrow16 .f16)))

/-- `tex.q.dim` of a level number (R256). -/
def queryDim (x : TexDesc) (a : Word64) (k : Nat) : Word64 :=
  let l := subEl 32 a 0
  let in_ := decide (l ≤ x.levelsm)
  if k = 0 then (if in_ then BitVec.ofNat 64 (x.nu l + 2 ^ 32 * x.nv l) else 0)
  else BitVec.ofNat 64 ((if in_ then x.slices l else 0) + 2 ^ 32 * (x.levelsm + 1))

/-- A level of detail as an FP32 word. -/
def Lod.word : Lod → Nat
  | .ninf => 0xFF800000
  | .pinf => 0x7F800000
  | .fin n => (roundVal .f32 .rne false false (n < 0) ((n.natAbs : Rat) / 256)).1

/-- `tex.q.lod` of a lane (R256). -/
def queryLod (x : TexDesc) (dim : TexDim) (va vb : Lanes Word64) (l : Nat) : Word64 :=
  let q := l / 4 * 4
  let lod := quadLod x ((List.range 3).map fun p => lodPoint dim (va.get (q + p) 0) (vb.get (q + p) 0))
  BitVec.ofNat 64 ((Lod.fin (clampLod x lod)).word + 2 ^ 32 * lod.word)

/-- Read an aligned texel or feature as the filter unit does: a copy in the core's L1, else the home, as they stood for the instruction (R244, R312). -/
def State.filterRead (s : State) (g : Group) (o : Op) (pages : List PageMap) (va n : Nat) : List Byte :=
  let loc := pageLoc pages va
  o.asOf loc (match s.l1At g.coreIx g.vf va with | some e => (e.bytes.drop (va % 64)).take n | none => s.homeRead loc n)

/-- The L1 takes the lines that the unit has read at their homes, and watched bytes are reported for the active lanes (R312, R346). -/
def State.filterTouch (s : State) (g : Group) (o : Op) (pages : List PageMap) (reads : List (Nat × Nat)) : State :=
  reads.foldl (fun s r =>
    let loc := pageLoc pages r.1
    let s := if (s.l1At g.coreIx g.vf r.1).isSome then s else s.fillL1 g.coreIx g.vf r.1 loc (pageAttr pages r.1) false
    s.watch g.vf r.1 loc r.2 3 (g.agent o.pc o.seq)) s

/-- After an operation of the filter unit, the unit is idle when none is left on its core (R410). -/
def State.filterIdle (s : State) (core : Nat) : State :=
  let busy := s.allGroups.any fun g => g.coreIx = core && g.ops.any fun o => !o.fin && (match o.kind with | .filter .. | .scatter _ => true | _ => false)
  if busy then s else s.idle (filterUnit core)

end Sys2Proof.Machine
end

