-- ==== Sys2Proof/Machine/HashGrid.lean ====
section
/-!
DEFINITION. Hash grids: level tables, `hg.fetch` and `hg.scat`, and the filter unit's events (R257 to R264).
-/
set_option Elab.async false
namespace Sys2Proof.Machine
open Sys2Proof

/-! ### Level tables (R257, R260) -/

/-- An entry of a level table (R257). -/
structure GridLevel where
  tb : Nat
  res : Nat
  k : Nat
  fc : Nat
  ff : Nat
  gb : Nat

def GridLevel.of (d : List Byte) (l : Nat) : GridLevel :=
  let e := 0x40 + 32 * l
  { tb := fieldAt d e 63 0, res := fieldAt d (e + 8) 39 16, k := fieldAt d (e + 8) 15 11, fc := 2 * 2 ^ fieldAt d (e + 8) 10 9,
    ff := fieldAt d (e + 8) 8 7, gb := fieldAt d (e + 0x10) 63 0 }

/-- The number of levels. -/
def gridLevels (d : List Byte) : Nat := fieldAt d 0 3 0 + 1
/-- Levels of a table with their numbers, ascending. -/
def gridList (d : List Byte) : List GridLevel := (List.range (gridLevels d)).map (GridLevel.of d)
/-- NF (R257). -/
def gridFeatures (d : List Byte) : Nat := ((gridList d).map (·.fc)).sum
/-- Elements of a register (R257). -/
def perReg (ty : Ty) : Nat := if ty = .f32 then 2 else 4
/-- Bytes and type of a feature (R257). -/
def GridLevel.fty (l : GridLevel) : Ty := match l.ff with | 0 => .bf16 | 1 => .f16 | _ => .f32

/-- The faults of a level table (R257). -/
def gridBad (d : List Byte) (d3 : Bool) (n : Nat) (ty : Ty) : Bool :=
  fieldAt d 0 63 5 ≠ 0 || !(((d.take 64).drop 8).all (· = 0)) || (fieldAt d 0 4 4 = 1) != d3 ||
  ((List.range (gridLevels d)).any fun i =>
    let l := GridLevel.of d i
    let e := 0x40 + 32 * i
    fieldAt d (e + 8) 63 40 ≠ 0 || fieldAt d (e + 8) 6 0 ≠ 0 || fieldAt d (e + 0x18) 63 0 ≠ 0 || l.res = 0 || decide (24 < l.k) ||
    fieldAt d (e + 8) 10 9 = 3 || l.ff = 3 || l.tb % 64 ≠ 0 || l.gb % 64 ≠ 0) ||
  n ≠ (gridFeatures d + perReg ty - 1) / perReg ty

/-- Read and check the level table of an instruction (R243). -/
def State.gridTable (s : State) (c : Ctl) (o : Src) (d3 : Bool) (n : Nat) (ty : Ty) : M (State × List Byte × Nat) := do
  let va := (s.cur.uniB c o).toNat
  trapIf (va % 64 ≠ 0) .misalign va
  let (s, h) ← s.readTable va 64
  let (s, r) ← s.readTable ((va + 64) % 2 ^ 64) (32 * gridLevels h)
  pure (s, h ++ r, if gridBad (h ++ r) d3 n ty then va + 1 else 0)

/-! ### Corners (R258, R259) -/

/-- The entry of a corner (R258). -/
def cornerIx (k : Nat) (cx cy cz : Int) : Nat :=
  let m (c : Int) (f : Nat) : Nat := lowBits 32 c * f % 2 ^ 32
  let h := m cx 0x2F5AC6B9 ^^^ m cy 0xB3E17A45 ^^^ m cz 0x6D29E4C3
  if k = 0 then 0 else h / 2 ^ (32 - k)

/-- Axes of a grid. -/
def axes (d3 : Bool) : Nat := if d3 then 3 else 2

/-- A lane's coordinates: none where R242 applies. -/
def gridPoint (d3 : Bool) (a b : Word64) : Option (List Rat) :=
  if d3 then do pure [← coord a 0, ← coord a 1, ← coord b 0] else do pure [← coord a 0, ← coord a 1]

/-- A lane at one level: the entries of its corners in order, and the weights along the axes (R259). -/
def gridCorners (l : GridLevel) (p : List Rat) : List Nat × List Rat :=
  let ss : List Rat := p.map fun c => c * (l.res : Rat)
  let cs := ss.map fun s => s.floor
  let ts := ss.map fun s => weight true (s - s.floor)
  ((List.range (2 ^ p.length)).map fun m =>
    let at_ (a : Nat) : Int := cs.getD a 0 + (if a < p.length && bitOf m a then 1 else 0)
    cornerIx l.k (at_ 0) (at_ 1) (at_ 2), ts)

/-- Address of feature `f` of an entry (R257). -/
def GridLevel.featAt (l : GridLevel) (e f : Nat) : Nat := (l.tb + (e * l.fc + f) * tyBytes l.fty) % 2 ^ 64

/-- The features that a lane reads: address and length. -/
def gridReads (d : List Byte) (p : Option (List Rat)) : List (Nat × Nat) :=
  match p with
  | none => []
  | some p => (gridList d).flatMap fun l => (gridCorners l p).1.flatMap fun e => (List.range l.fc).map fun f => (l.featAt e f, tyBytes l.fty)

/-- A feature as an FP32 word (R259). -/
def featWord (t : Ty) (b : List Byte) : Nat :=
  let n := natLE b
  if t = .f32 then n else match (fmtOf t).decode n with
    | .nan .. => canonNan
    | .inf x => if x then 0xFF800000 else 0x7F800000
    | .num x q => (roundVal .f32 .rne false false x q).1

/-- The features of a lane, concatenated (R259). -/
def gridFetch (d : List Byte) (p : Option (List Rat)) (rd : Nat → Nat → List Byte) : List Nat :=
  match p with
  | none => List.replicate (gridFeatures d) 0
  | some p => (gridList d).flatMap fun l =>
      let (es, ts) := gridCorners l p
      (List.range l.fc).map fun f => canon ((ts.foldl (fun v t => lerpPairs t v)
        (es.map fun e => featWord l.fty (rd (l.featAt e f) (tyBytes l.fty)))).getD 0 0)

/-- Register `k` of a list of elements (R259). -/
def gridReg (ty : Ty) (fs : List Nat) (k : Nat) : Word64 :=
  if ty = .f32 then BitVec.ofNat 64 (packSubs 32 ((List.range 2).map fun j => fs.getD (2 * k + j) 0))
  else BitVec.ofNat 64 (packSubs 16 ((List.range 4).map fun j => match fs[4 * k + j]? with | some v => narrow16 ty v | none => 0))

/-! ### `hg.fetch` and `hg.scat` at issue (R243, R244, R261 to R263) -/

/-- Trap for a table that failed its checks. -/
def gridCheck (bad : Nat) : M Unit := trapIf (bad ≠ 0) .illegal (bad - 1)

def execHgFetch (c : Ctl) (o : Hg) (s : State) : Out :=
  runInstr (.hgFetch c o) c (fun s => do
    s.pathFree .filt
    let n := hgRegs o.nregm
    let d := s.cur.rD c o.d
    let lanes := s.cur.active c ||| s.cur.zeroLanes c
    if s.cur.active c = 0 then idleFilter d n lanes s
    else
      let (s, tab, bad) ← s.gridTable c o.b o.d3 n o.ty
      gridCheck bad
      let srcs := s.cur.texSrcs c o.a
      let (s, pages, _) ← s.acceptData c false fun l =>
        (gridReads tab (gridPoint o.d3 ((srcs.getD 0 (Lanes.const 0)).get l 0) ((srcs.getD 1 (Lanes.const 0)).get l 0))).map (·.1)
      pure (s.addFilter (.hgFetch c o) c d n tab 0 lanes srcs pages, none)) s

/-- One contribution to a slot, in the order of R262: level, slot address, gradient, weight. -/
structure Contrib where
  level : Nat
  slot : Nat
  g : FpVal
  w : Rat

/-- Bytes of a slot (R260). -/
def slotBytes (exact : Bool) : Nat := if exact then 8 else 4
/-- Address of slot (e, f) of a level (R260). -/
def GridLevel.slotAt (l : GridLevel) (exact : Bool) (e f : Nat) : Nat := (l.gb + 64 + slotBytes exact * (e * l.fc + f)) % 2 ^ 64

/-- The contributions of an instruction, by level, then lane, then corner (R261, R262). `grad l e` is a lane's gradient `e`. -/
def contributions (tab : List Byte) (exact : Bool) (lanes : List (Nat × List Rat)) (grad : Nat → Nat → FpVal) : List Contrib :=
  let ls := gridList tab
  (List.range ls.length).flatMap fun i =>
    match ls[i]? with
    | none => []
    | some l =>
      if l.gb = 0 then []
      else
        let first := ((ls.take i).map (·.fc)).sum
        lanes.flatMap fun (ln, p) =>
          let (es, ts) := gridCorners l p
          (es.zip (List.range es.length)).flatMap fun (e, m) =>
            let w := ((ts.zip (List.range ts.length)).map fun (t, a) => if bitOf m a then t else 1 - t).foldl (· * ·) 1
            (List.range l.fc).map fun f => { level := i, slot := l.slotAt exact e f, g := grad ln (first + f), w }

/-- The product of R262, rounded to FP32. -/
def fastTerm (c : Contrib) : Nat :=
  match c.g with
  | .nan .. => canonNan
  | g => (deliverFp { nanq := true } .f32 .rne [] (mulExact g (.num false c.w))).1

/-- The combined adds of `.fast` mode (R262). -/
def fastAdds (cs : List Contrib) : List (Nat × Nat) :=
  cs.foldl (fun acc c =>
    let x := fastTerm c
    match acc.find? (fun a => a.1 = c.slot) with
    | some _ => acc.map fun a => if a.1 = c.slot then (a.1, (fpAdd { nanq := true } .rne .f32 false false a.2 x).1) else a
    | none => acc ++ [(c.slot, x)]) []

/-- The combined adds of `.exact` mode: slot, sum, contributing levels; and the levels with a contribution that is not finite (R263). -/
def exactAdds (exps : List Int) (cs : List Contrib) : List (Nat × Int × List Nat) × List Nat :=
  cs.foldl (fun acc c =>
    match finite c.g with
    | none => (acc.1, if acc.2.contains c.level then acc.2 else acc.2 ++ [c.level])
    | some g =>
      let n := roundInt .rne (g * c.w / pow2 (exps.getD c.level 0))
      (match acc.1.find? (fun a => a.1 = c.slot) with
       | some _ => acc.1.map fun a =>
           if a.1 = c.slot then (a.1, a.2.1 + n, if a.2.2.contains c.level then a.2.2 else a.2.2 ++ [c.level]) else a
       | none => acc.1 ++ [(c.slot, n, [c.level])], acc.2)) ([], [])

/-- Read and check the gradient headers of `.exact` mode, also those of a table that R257 turns away: level, address, location, EXP (R243, R260). A
cause of step 2 is looked for in every header before the next cause: the model's choice (log entry 87). -/
def State.gradHeaders (s : State) (tab : List Byte) : M (State × List (Nat × Nat × Nat × Int)) := do
  let ls := ((gridList tab).zip (List.range (gridLevels tab))).filter fun l => l.1.gb ≠ 0
  let reqs : List LaneReq := ls.flatMap fun l => (linePieces l.1.gb 64).map fun p => { lane := 0, va := p.1 }
  let (s, accs) ← s.accept s.cur.vf .atomic 1 true reqs true
  let loc (a : Nat) : Nat := match accs.find? (fun x => x.va = a) with | some x => x.pa | none => 0
  let hs := ls.map fun l => (l.2, l.1.gb, loc l.1.gb, s.homeRead (loc l.1.gb) 64)
  let (s, _) ← s.readNow 3 (accs.map fun a => (a.va, a.pa, min 64 (64 - a.va % 64)))
  pure (s, hs.map fun h => (h.1, h.2.1, h.2.2.1, if fieldAt h.2.2.2 0 63 9 ≠ 0 || !((h.2.2.2.drop 8).all (· = 0)) then 1000 else
    signedOf 8 (fieldAt h.2.2.2 0 7 0)))

/-- `hg.scat` (R261 to R264): its adds are all translated before any is performed. -/
def execHgScat (c : Ctl) (o : HgScat) (s : State) : Out :=
  runInstr (.hgScat c o) c (fun s => do
    s.pathFree .filt
    let n := hgRegs o.nregm
    if s.cur.active c = 0 then
      pure (s.setCur (((s.cur.addOp s.steps (some .filt) .null).finishOp s.cur.seq)), none)
    else
      let (s, tab, bad) ← s.gridTable c o.b o.d3 n o.ty
      let (s, hs) ← if o.exact then s.gradHeaders tab else pure (s, [])
      gridCheck bad
      (match hs.find? (fun h => h.2.2.2 = 1000) with | some h => .error (.trap .illegal h.2.1) | none => pure ())
      let g := s.cur
      let pts := (lanesOf (g.active c)).filterMap fun l =>
        (gridPoint o.d3 (g.readV (g.rA c o.a.reg) l) (g.readV (g.rA c o.a.reg + 1) l)).map fun p => (l, p)
      let w := if o.ty = .f32 then 32 else 16
      let grad (l e : Nat) : FpVal := (fmtOf o.ty).decode (subEl w (g.readV (g.rD c o.d + e / perReg o.ty) l) (e % perReg o.ty))
      let reqs := pts.flatMap fun p => (contributions tab o.exact [p] (fun _ _ => .num false 0)).map fun x => ({ lane := p.1, va := x.slot } : LaneReq)
      let (s, accs) ← s.accept s.cur.vf .atomic 1 false reqs
      let pages := accPages accs
      let cs := contributions tab o.exact pts grad
      let head (l : Nat) : List (Nat × Nat) := match hs.find? (fun h => h.1 = l) with | some h => [(h.2.1, h.2.2.1)] | none => []
      let adds : List ScatAdd :=
        if o.exact then
          let exps := (List.range (gridLevels tab)).map fun l => match hs.find? (fun h => h.1 = l) with | some h => h.2.2.2 | none => 0
          let (as_, odd) := exactAdds exps cs
          as_.map (fun a => { va := a.1, pa := pageLoc pages a.1, fast := false, sum := a.2.1, fsum := 0, headers := a.2.2.flatMap head }) ++
          odd.map (fun l => { va := 0, pa := 0, fast := true, sum := 0, fsum := 0, headers := head l })
        else (fastAdds cs).map fun a => { va := a.1, pa := pageLoc pages a.1, fast := true, sum := 0, fsum := BitVec.ofNat 32 a.2, headers := [] }
      let s := s.arrive (filterUnit s.cur.coreIx)
      let g := s.cur.addOp s.steps (some .filt) (.scatter adds)
      let s := s.setCur (if adds.isEmpty then g.finishOp g.seq else g)
      pure (if adds.isEmpty then s.filterIdle g.coreIx else s, none)) s

/-! ### Events of the filter unit -/

/-- The results of a filter operation: the values of register `k` by lane, and what was read (R255, R256, R259). -/
def State.filterValues (s : State) (g : Group) (o : Op) (i : Instr) (desc : List Byte) (lanes : Word32) (srcs : List (Lanes Word64)) (pages : List PageMap) :
    (Nat → Nat → Word64) × List (Nat × Nat) :=
  let va := srcs.getD 0 (Lanes.const 0)
  let vb := srcs.getD 1 (Lanes.const 0)
  let x := TexDesc.of desc
  let tex (ty : Ty) (dim : TexDim) (given : Bool) : (Nat → Nat → Word64) × List (Nat × Nat) :=
    let n := texelBytes x.fmt
    let vals : Lanes (List Nat) := Lanes.gen fun l => match texPlan x dim given va vb l with
      | some p => if p.reads.all (fun a => pages.any fun q => q.vpage = a / 65536) then p.colour x (fun a => s.filterRead g o pages a n) else [0, 0, 0, 0]
      | none => [0, 0, 0, 0]
    (fun k l => colourRegs ty (vals.get l []) k,
     (lanesOf lanes).flatMap fun l => match texPlan x dim given va vb l with | some p => p.reads.map fun a => (a, n) | none => [])
  match i with
  | .texS _ t => tex t.ty t.dim false
  | .texL _ t => tex t.ty t.dim true
  | .texQDim _ _ => (fun k l => queryDim x (va.get l 0) k, [])
  | .texQLod _ t => (fun _ l => queryLod x t.dim va vb l, [])
  | .hgFetch _ t =>
    let pt (l : Nat) := gridPoint t.d3 (va.get l 0) (vb.get l 0)
    let vals : Lanes (List Nat) := Lanes.gen fun l => if lane lanes l then gridFetch desc (pt l) (s.filterRead g o pages) else []
    (fun k l => gridReg t.ty (vals.get l []) k, (lanesOf lanes).flatMap fun l => gridReads desc (pt l))
  | _ => (fun _ _ => 0, [])

/-- FILTER_RESULT: the unit reads and interpolates, and the results return (R244). What it reads may be served from the L1, so an older `cinv` of the group
comes first (R315). -/
def execFilterResult (gid op : Nat) (s : State) : Out :=
  match s.group? gid with
  | none => .next s
  | some g =>
    match g.op? op with
    | none => .next s
    | some o =>
      match o.kind with
      | .filter i desc lanes helpers srcs pages =>
        let m := lanes ||| helpers
        if o.fin || (s.gate (filterUnit g.coreIx)).waking || g.cinvOpen op || !s.engineReady g op (runSpans pages (s.filterValues g o i desc m srcs pages).2) then .next s
        else
          let (f, reads) := s.filterValues g o i desc lanes srcs pages
          let s := s.filterTouch g o pages reads
          let s := s.updGroup gid fun g => (g.fillPend op allLanes true fun k l => if lane m l then f k l else 0).finishOp op
          .next (s.filterIdle g.coreIx)
      | _ => .next s

/-- OR OVF into gradient headers (R263). -/
def State.setOvf (s : State) (g : Group) (o : Op) (hs : List (Nat × Nat)) : State :=
  hs.foldl (fun s h =>
    let b := natLE (s.homeRead (h.2 + 1) 1)
    ((s.serveRead g.vf (h.1 + 1) (h.2 + 1)).write g.vf (h.1 + 1) (h.2 + 1) [BitVec.ofNat 8 (b ||| 1)] (g.writer o.seq)).watch g.vf (h.1 + 1) (h.2 + 1) 1 2 (g.agent o.pc o.seq)) s

/-- One add of a scatter at its atomic unit (R261 to R263). An add in `.fast` form that names headers sets OVF alone. -/
def State.scatterAdd (s : State) (g : Group) (o : Op) (a : ScatAdd) : State :=
  if a.fast && !a.headers.isEmpty then s.setOvf g o a.headers
  else if s.poisoned a.pa then s.logPoison g (Loc.pa a.pa / 64)
  else
  let s := s.serveRead g.vf a.va a.pa
  if a.fast then
    let old := natLE (s.homeRead a.pa 4)
    let v := atomNew .fadd .f32 old a.fsum.toNat 0
    (s.write g.vf a.va a.pa (bytesLE 4 v) (g.writer o.seq)).watch g.vf a.va a.pa 4 2 (g.agent o.pc o.seq)
  else
    let old := signedOf 64 (natLE (s.homeRead a.pa 8))
    let v := clampInt (old + a.sum) (-(2 ^ 63)) (2 ^ 63 - 1)
    let s := (s.write g.vf a.va a.pa (bytesLE 8 (lowBits 64 v)) (g.writer o.seq)).watch g.vf a.va a.pa 8 2 (g.agent o.pc o.seq)
    if v = old + a.sum then s else s.setOvf g o a.headers

/-- The bytes that an add reads and writes: its slot, and the OVF bytes of its headers. -/
def ScatAdd.spans (a : ScatAdd) : List Span :=
  (if a.fast && !a.headers.isEmpty then [] else [(0, Loc.pa a.pa, if a.fast then 4 else 8)]) ++ a.headers.map fun h => (0, Loc.pa h.2 + 1, 1)

/-- SLOT_ADD: add `ix` of a scatter is performed; the last completes it (R244, R261). -/
def execSlotAdd (gid op ix : Nat) (s : State) : Out :=
  match s.group? gid with
  | none => .next s
  | some g =>
    match g.op? op with
    | none => .next s
    | some o =>
      match o.kind with
      | .scatter adds =>
        match adds[ix]? with
        | none => .next s
        | some a =>
          if o.fin || a.fin || !s.engineReady g op a.spans || (s.gate (filterUnit g.coreIx)).waking then .next s
          else
            let s := s.scatterAdd g o a
            let adds := adds.mapIdx fun k b => if k = ix then { b with fin := true } else b
            let s := s.updGroup gid fun g =>
              let g := g.updOp op fun o => { o with kind := .scatter adds }
              if adds.all (·.fin) then g.finishOp op else g
            .next (s.filterIdle g.coreIx)
      | _ => .next s

end Sys2Proof.Machine
end

