-- ==== Sys2Proof/Machine/Ray.lean ====
section
/-!
DEFINITION. The ray unit: references, records, the exact tests, traversal, and the `ray.*` instructions (R265 to R282).
-/
set_option Elab.async false
namespace Sys2Proof.Machine
open Sys2Proof

/-! ### Vectors of exact numbers -/

/-- A vector of three numbers. -/
structure V3 where
  x : Rat
  y : Rat
  z : Rat

namespace V3
def sub (a b : V3) : V3 := ⟨a.x - b.x, a.y - b.y, a.z - b.z⟩
def dot (a b : V3) : Rat := a.x * b.x + a.y * b.y + a.z * b.z
def cross (a b : V3) : V3 := ⟨a.y * b.z - a.z * b.y, a.z * b.x - a.x * b.z, a.x * b.y - a.y * b.x⟩
/-- The vector of three finite FP32 words. -/
def ofWords (w : List Nat) : V3 := ⟨(f32Val (w.getD 0 0)).rat, (f32Val (w.getD 1 0)).rat, (f32Val (w.getD 2 0)).rat⟩
end V3

/-- A finite FP32 word. -/
def finite32 (b : Nat) : Bool := match f32Val b with | .num .. => true | _ => false

/-- The order of FP32 words as values, with −0 below +0 (R274). -/
def f32Key (b : Nat) : Int := if bitOf b 31 then -((b % 2 ^ 31 : Nat) : Int) - 1 else ((b % 2 ^ 31 : Nat) : Int)

/-- A number or an infinity. -/
inductive Ext | ninf | fin (q : Rat) | pinf

namespace Ext
def ofVal : FpVal → Ext
  | .inf n => if n then .ninf else .pinf
  | v => .fin v.rat
def le : Ext → Ext → Bool
  | .ninf, _ => true
  | _, .pinf => true
  | .fin a, .fin b => decide (a ≤ b)
  | _, _ => false
def max (a b : Ext) : Ext := if a.le b then b else a
def min (a b : Ext) : Ext := if a.le b then a else b
/-- (b − o)/d, for d ≠ 0. -/
def slab (b : Ext) (o d : Rat) : Ext :=
  match b with
  | .fin q => .fin ((q - o) / d)
  | .ninf => if 0 < d then .ninf else .pinf
  | .pinf => if 0 < d then .pinf else .ninf
end Ext

/-! ### References and words (R268, R269) -/

/-- KIND of a reference. -/
def refKind (r : Nat) : Nat := bitsOf r 63 61
/-- The address that a reference names. -/
def refAddr (r : Nat) : Nat := 64 * bitsOf r 56 6
/-- A malformed reference (R268). -/
def refBad (r : Nat) : Bool :=
  decide (5 ≤ refKind r) || bitsOf r 60 57 ≠ 0 || (refKind r = 0 && r ≠ 0) || (refKind r = 1 && bitsOf r 5 0 ≠ 0)
/-- The remainder of a leaf after its first item; 0 when none remains (R268). -/
def refRest (r : Nat) : Nat :=
  if bitsOf r 5 0 = 0 then 0 else 2 ^ 61 * refKind r + (refAddr r + 64) % 2 ^ 57 + (bitsOf r 5 0 - 1)

/-- A 32-bit word of a run of bytes. -/
def wordAt (b : List Byte) (off : Nat) : Nat := natLE ((b.drop off).take 4)
/-- `n` words of a run of bytes. -/
def wordsAt (b : List Byte) (off n : Nat) : List Nat := (List.range n).map fun i => wordAt b (off + 4 * i)
def quadAt (b : List Byte) (off : Nat) : Nat := natLE ((b.drop off).take 8)

/-! ### Records (R270) -/

/-- A traversal record. Rays are words in the order of R267. -/
structure Trav where
  status : Nat
  ini : Bool
  any : Bool
  noproc : Bool
  cull : Nat
  cmt : Bool
  imask : Nat
  world : List Nat
  object : List Nat
  cinst : Nat
  puser : Nat
  pprim : Nat
  leaf : Nat
  hkind : Nat
  ht : Nat
  hinst : Nat
  hprim : Nat
  hv : Nat
  hu : Nat
  faddr : Nat
  /-- Stack entries, the top first. -/
  stack : List Nat

/-- Read a record. -/
def Trav.of (b : List Byte) : Trav :=
  let w := quadAt b 0
  { status := bitsOf w 39 32, ini := bitOf w 23, any := bitOf w 22, noproc := bitOf w 21, cull := bitsOf w 20 19, cmt := bitOf w 16,
    imask := bitsOf w 15 8, world := wordsAt b 8 8, object := wordsAt b 0x28 8, cinst := wordAt b 0x4C, puser := wordAt b 0x54, pprim := wordAt b 0x50,
    leaf := quadAt b 0x58, hkind := bitsOf (quadAt b 0x60) 39 32, ht := wordAt b 0x60, hinst := wordAt b 0x6C, hprim := wordAt b 0x68,
    hv := wordAt b 0x74, hu := wordAt b 0x70, faddr := quadAt b 0x78,
    stack := (List.range (min (bitsOf w 31 24) 32)).reverse.map fun e => quadAt b (0x100 + 8 * e) }

/-- Bytes 0x000 to 0x0FF of a record. -/
def Trav.header (t : Trav) : List Byte :=
  bytesLE 8 (2 ^ 32 * t.status + 2 ^ 24 * t.stack.length + 2 ^ 23 * b2n t.ini + 2 ^ 22 * b2n t.any + 2 ^ 21 * b2n t.noproc + 2 ^ 19 * t.cull +
      2 ^ 16 * b2n t.cmt + 2 ^ 8 * t.imask) ++
  bytesOfWords t.world ++ bytesOfWords t.object ++ bytesLE 8 (2 ^ 32 * t.cinst) ++ bytesLE 8 (2 ^ 32 * t.puser + t.pprim) ++ bytesLE 8 t.leaf ++
  bytesLE 8 (2 ^ 32 * t.hkind + t.ht) ++ bytesLE 8 (2 ^ 32 * t.hinst + t.hprim) ++ bytesLE 8 (2 ^ 32 * t.hv + t.hu) ++ bytesLE 8 t.faddr ++
  List.replicate 128 0

/-- A whole record; the entries at SP and above have no meaning, and are free. -/
def Trav.bytes (t : Trav) : List Byte :=
  let h := t.header
  h ++ ((List.range 32).map fun e =>
    if e < t.stack.length then bytesLE 8 (t.stack.getD (t.stack.length - 1 - e) 0) else bytesLE 8 (Config.deadEntry h e).toNat).flatten

/-- The record that `ray.trc` writes, from its flag word and its ray (R270, R275). -/
def Trav.reset (flags : Nat) (ray : List Nat) : Trav :=
  { status := 1, ini := false, any := bitOf flags 22, noproc := bitOf flags 21, cull := bitsOf flags 20 19, cmt := false, imask := bitsOf flags 15 8,
    world := ray, object := (ray.set 3 0).set 7 0, cinst := 0xFFFFFFFF, puser := 0, pprim := 0, leaf := 0, hkind := 0, ht := 0x7F800000,
    hinst := 0xFFFFFFFF, hprim := 0xFFFFFFFF, hv := 0, hu := 0, faddr := 0, stack := [] }

/-- A nonzero RSV field, or more stack entries than there are (R276). -/
def recordBad (b : List Byte) : Bool :=
  let w := quadAt b 0
  decide (32 < bitsOf w 31 24) || bitsOf w 63 40 ≠ 0 || bitsOf w 18 17 ≠ 0 || bitsOf w 7 0 ≠ 0 || wordAt b 0x48 ≠ 0 || bitsOf (quadAt b 0x60) 63 40 ≠ 0 ||
  !(((b.drop 0x80).take 128).all (· = 0))

namespace Trav
/-- Words of a ray: origin x, y, z, tmin, direction x, y, z, tmax. -/
def tminW (t : Trav) : Nat := t.world.getD 3 0
def tmaxW (t : Trav) : Nat := t.world.getD 7 0
def setTmax (t : Trav) (b : Nat) : Trav := { t with world := t.world.set 7 b }
/-- The object ray's origin and direction. -/
def org (t : Trav) : V3 := V3.ofWords t.object
def dir (t : Trav) : V3 := V3.ofWords (t.object.drop 4)
end Trav

/-- An invalid ray (R267). -/
def rayBad (r : List Nat) : Bool :=
  let w (i : Nat) : Nat := r.getD i 0
  !([0, 1, 2, 4, 5, 6].all fun i => finite32 (w i)) || (f32Val (w 3)).isNan || (f32Val (w 7)).isNan ||
  decide (0 < fpCompare false (f32Val (w 3)) (f32Val (w 7)))

/-! ### Tests (R271 to R274) -/

/-- A box entered by the record's object ray: the entry (R271). -/
def Trav.entry (t : Trav) (box : List Nat) : Option Ext :=
  let v (i : Nat) : FpVal := f32Val (box.getD i 0)
  if (List.range 6).any (fun i => (v i).isNan) || (List.range 3).any (fun a => decide (0 < fpCompare false (v a) (v (a + 3)))) then none
  else
    let o := t.org
    let d := t.dir
    let axis (lo hi : FpVal) (o d : Rat) : Ext × Ext :=
      let lo := Ext.ofVal lo
      let hi := Ext.ofVal hi
      if d = 0 then (if lo.le (.fin o) && (Ext.fin o).le hi then (.ninf, .pinf) else (.pinf, .ninf))
      else
        let a := lo.slab o d
        let b := hi.slab o d
        (a.min b, a.max b)
    let sx := axis (v 0) (v 3) o.x d.x
    let sy := axis (v 1) (v 4) o.y d.y
    let sz := axis (v 2) (v 5) o.z d.z
    let l := ((sx.1.max sy.1).max sz.1).max (Ext.ofVal (f32Val t.tminW))
    let u := ((sx.2.min sy.2).min sz.2).min (Ext.ofVal (f32Val t.tmaxW))
    match l, u with
    | .pinf, _ => none
    | _, .ninf => none
    | l, u => if l.le u then some l else none

/-- A component of the object ray: an exact sum of products and a term, once rounded (R272). -/
def sumProducts (m v : List Nat) (extra : List Nat) : Nat :=
  let ps := (List.zip m v).map fun p => match mulExact (f32Val p.1) (f32Val p.2) with | .val x => x | _ => .nan false true 0
  (deliverFp { nanq := true } .f32 .rne [] (sumExact .rne (ps ++ extra.map f32Val))).1

/-- The object ray of an instance, or none when its content is unreachable (R272). -/
def instanceRay (world m : List Nat) : Option (List Nat) :=
  if !(m.all finite32) then none
  else
    let row (r : Nat) : List Nat := (m.drop (4 * r)).take 3
    let o := (List.range 3).map fun r => sumProducts (row r) (world.take 3) [m.getD (4 * r + 3) 0]
    let d := (List.range 3).map fun r => sumProducts (row r) ((world.drop 4).take 3) []
    if (o ++ d).all finite32 then some (o ++ [0] ++ d ++ [0]) else none

/-- Round an exact quotient to FP32. -/
def round32 (q : Rat) : Nat := (roundVal .f32 .rne false false (q < 0) |q|).1

/-- Key of a vertex (R273). -/
def vertexKey (p : List Nat) : Nat := 2 ^ 64 * p.getD 0 0 + 2 ^ 32 * p.getD 1 0 + p.getD 2 0

/-- The sign of an edge value, its tie broken by the keys (R273). -/
def edgeSign (e : Rat) (p q : List Nat) : Int :=
  if 0 < e then 1 else if e < 0 then -1 else if vertexKey p < vertexKey q then 1 else -1

/-- The test of a triangle: t, u and v when it is hit. `tie2` replaces the tie sign of e2 (R273). -/
def triHit (t : Trav) (p0 p1 p2 : List Nat) (tie2 : Option Int) : Option (Nat × Nat × Nat) :=
  if !((p0 ++ p1 ++ p2).all finite32) then none
  else
    let o := t.org
    let d := t.dir
    let v0 := V3.ofWords p0
    let v1 := V3.ofWords p1
    let v2 := V3.ofWords p2
    let edge (p q : V3) : Rat := d.dot ((p.sub o).cross (q.sub o))
    let e0 := edge v1 v2
    let e1 := edge v2 v0
    let e2 := edge v0 v1
    let dd := e0 + e1 + e2
    let s0 := edgeSign e0 p1 p2
    let s1 := edgeSign e1 p2 p0
    let s2 := if e2 = 0 then tie2.getD (edgeSign e2 p0 p1) else edgeSign e2 p0 p1
    if dd = 0 || s0 ≠ s1 || s1 ≠ s2 || (t.cull = 1 && decide (0 < dd)) || (t.cull = 2 && decide (dd < 0)) then none
    else
      let n := (v0.sub o).dot ((v1.sub v0).cross (v2.sub v0))
      some (round32 (n / dd), round32 (e1 / dd), round32 (e2 / dd))

/-- The key of a candidate is below that of the closest hit (R274). -/
def keyBelow (t i p t' i' p' : Nat) : Bool :=
  decide (f32Key t < f32Key t') || (t = t' && (decide (i < i') || (i = i' && decide (p < p'))))

/-- A candidate is accepted (R274). -/
def Trav.accepts (t : Trav) (tb prim : Nat) : Bool :=
  finite32 tb && decide (fpCompare false (f32Val t.tminW) (f32Val tb) ≤ 0) && decide (fpCompare false (f32Val tb) (f32Val t.tmaxW) ≤ 0) &&
  (t.hkind = 0 || keyBelow tb t.cinst prim t.ht t.hinst t.hprim)

/-- An accepted candidate becomes the closest hit (R274). -/
def Trav.hit (t : Trav) (kind tb prim u v : Nat) : Trav :=
  { t.setTmax tb with hkind := kind, ht := tb, hinst := t.cinst, hprim := prim, hu := u, hv := v }

/-- Offer a triangle's hit: the record, and whether it was accepted. -/
def Trav.offer (t : Trav) (h : Option (Nat × Nat × Nat)) (prim : Nat) : Trav × Bool :=
  match h with
  | some (tb, u, v) => if t.accepts tb prim then (t.hit 1 tb prim u v, true) else (t, false)
  | none => (t, false)

/-! ### Fetches (R279) -/

/-- What a fetch gives. -/
inductive Fetched
  | bytes (b : List Byte)
  | missing (stage2 : Bool) (page va : Nat)
  | denied (va : Nat)
  | poisoned (va : Nat)
  | held

/-- Fetch lines from an address up, as loads at the operation's place: a line may still have to wait for older accesses of the group (R279, R315). -/
def State.fetchLines (s : State) (g : Group) (o : Op) (va : Nat) : Nat → List Byte → State × Fetched
  | 0, acc => (s, .bytes acc)
  | n + 1, acc =>
    match s.translate g.vf va with
    | (s, .missing st p) => (s, .missing st p va)
    | (s, .malformed e) => (s.logError (s.vf g.vf).slice 0x02 0xFF g.vf 0 e g.launchId, .denied va)
    | (s, .ok loc a) =>
      if !a.r then (s, .denied va)
      else if !s.engineReady g o.seq [(0, Loc.pa loc, 64)] then (s, .held)
      else if s.engPoisoned loc then (s.logPoison g (Loc.pa loc / 64), .poisoned va)
      else
        let b := s.engRead o loc 64
        (s.noteRead g.vf 3 (g.agent o.pc o.seq) va loc 64).fetchLines g o ((va + 64) % 2 ^ 57) n (acc ++ b)

/-! ### Traversal (R275) -/

/-- How a traversal goes on after one visit: to the given reference, to a stop, to wait for a page, or later where it stands. -/
inductive Going
  | on (next : Option (Nat × Nat))
  | stop
  | held
  | wait (stage2 : Bool) (page va : Nat)

def Trav.stopped (t : Trav) (status : Nat) (faddr : Option Nat) : Trav := { t with status, faddr := faddr.getD t.faddr }

/-- Push a list of references, the first pushed first; none when the stack overflows (R275). -/
def Trav.push (t : Trav) : List Nat → Trav × Bool
  | [] => (t, true)
  | r :: rest => if 32 ≤ t.stack.length then (t.stopped 5 none, false) else ({ t with stack := r :: t.stack } : Trav).push rest

/-- The children that a node's ray enters, in order: entry, child, reference (R271). -/
def Trav.children (t : Trav) (b : List Byte) : List (Nat × Nat) :=
  let es := (List.range 4).filterMap fun c => (t.entry (wordsAt b (24 * c) 6)).map fun e => (e, c)
  (sortBy (fun (x y : Ext × Nat) => if x.1.le y.1 && y.1.le x.1 then decide (x.2 ≤ y.2) else x.1.le y.1) es).map fun e =>
    (e.2, quadAt b (0x60 + 8 * e.2))

/-- Visit one node, or the first item of a leaf, once fetched: `r` was read at address `wa` (R275). -/
def Trav.visit (t : Trav) (r wa : Nat) (b : List Byte) : Trav × Going :=
  let rest : Option (Nat × Nat) := if refRest r = 0 then none else some (refRest r, wa)
  if refKind r = 1 then
    match t.children b with
    | [] => (t, .on none)
    | (c, first) :: others =>
      match t.push (others.reverse.map (·.2)) with
      | (t, true) => (t, .on (some (first, refAddr r + 0x60 + 8 * c)))
      | (t, false) => (t, .stop)
  else if refKind r = 2 then
    let v (i : Nat) : List Nat := wordsAt b (12 * i) 3
    let prim := wordAt b 0x30
    let (t, a) := t.offer (triHit t (v 0) (v 1) (v 2) none) prim
    if a && t.any then (t.stopped 3 none, .stop)
    else
      let e0 := edgeSign (t.dir.dot (((V3.ofWords (v 1)).sub t.org).cross ((V3.ofWords (v 2)).sub t.org))) (v 1) (v 2)
      let (t, a) := if bitOf (wordAt b 0x34) 0 then t.offer (triHit t (v 2) (v 1) (v 3) (some (-e0))) ((prim + 1) % 2 ^ 32) else (t, false)
      if a && t.any then (t.stopped 3 none, .stop) else (t, .on rest)
  else if refKind r = 3 then
    if bitsOf (wordAt b 0x38) 7 0 &&& t.imask = 0 then (t, .on rest)
    else
      match t.push ((match rest with | some (x, _) => [x] | none => []) ++ [1]) with
      | (t, false) => (t, .stop)
      | (t, true) =>
        let t := { t with ini := true, cinst := bitsOf (wordAt b 0x38) 31 8 }
        match instanceRay t.world (wordsAt b 0 12) with
        | some ray => ({ t with object := ray }, .on (some (quadAt b 0x30, refAddr r + 0x30)))
        | none => (t, .on none)
  else
    match t.entry (wordsAt b 0 6) with
    | some _ => ({ t with status := 2, pprim := wordAt b 0x18, puser := wordAt b 0x1C, leaf := refRest r }, .stop)
    | none => (t, .on rest)

/-- One turn of the loop of R275 on record `rec`: take the next reference from the stack, or visit the one at hand. A FAIL of the page request that a fetch
has made ends the traversal (R279, R344). -/
def State.travStep (s : State) (g : Group) (o : Op) (rec : Nat) (t : Trav) (failed : Bool) : Option (Nat × Nat) → State × Trav × Going
  | none =>
    match t.stack with
    | [] => (s, t.stopped (if t.hkind ≠ 0 then 3 else 4) none, .stop)
    | r :: rest =>
      let t := { t with stack := rest }
      if r = 1 then (s, { t with ini := false, cinst := 0xFFFFFFFF, object := (t.world.set 3 0).set 7 0 }, .on none)
      else (s, t, .on (some (r, rec + 0x100 + 8 * rest.length)))
  | some (r, wa) =>
    if refBad r then (s, t.stopped 7 (some wa), .stop)
    else if refKind r = 0 || (refKind r = 4 && t.noproc) then (s, t, .on none)
    else if refKind r = 3 && t.ini then (s, t.stopped 7 (some wa), .stop)
    else
      match s.fetchLines g o (refAddr r) (if refKind r = 1 then 2 else 1) [] with
      | (u, x) =>
      if failed then (s, t.stopped 6 (some (match x with | .missing _ _ va => va | _ => refAddr r)), .stop)
      else match u, x with
      | s, .held => (s, t, .held)
      | s, .missing st p va => (s, t, .wait st p va)
      | s, .denied va => (s, t.stopped 6 (some va), .stop)
      | s, .poisoned va => (s, t.stopped 8 (some va), .stop)
      | s, .bytes b => let (t, k) := t.visit r wa b; (s, t, k)

/-- Run a traversal for a number of turns: it stops, waits, or has more to do. -/
def State.travRun (s : State) (g : Group) (o : Op) (rec : Nat) (t : Trav) (failed : Bool) (next : Option (Nat × Nat)) :
    Nat → State × Trav × Going × Option (Nat × Nat)
  | 0 => (s, t, .on next, next)
  | n + 1 =>
    match s.travStep g o rec t failed next with
    | (s, t, .on next) => s.travRun g o rec t false next n
    | (s, t, k) => (s, t, k, next)

/-- Turns of a traversal that one event takes. -/
def travTurns : Nat := 4096

/-! ### Records in memory -/

/-- The record of a lane: as a load at the operation's place reads it, or, once its traversal has begun, as the unit has left it (R278, R279). -/
def State.recRead (s : State) (o : Op) (l : RayLane) : List Byte :=
  (List.range 8).flatMap fun i => s.engRead { o with past := if l.begun then [] else o.past } (l.recPa + 64 * i) 64

/-- Write bytes of a record at an offset. -/
def State.recWrite (s : State) (g : Group) (o : Op) (l : RayLane) (off : Nat) (data : List Byte) : State :=
  (linePieces (l.recVa + off) data.length).foldl (fun s p =>
    let loc := l.recPa + (p.1 - l.recVa)
    (s.write g.vf p.1 loc ((data.drop (p.1 - l.recVa - off)).take p.2) (g.writer o.seq)).watch g.vf p.1 loc p.2 4 (g.agent o.pc o.seq)) s

/-- A record is read: the controllers serve its lines, and a watched page sees it (R331, R346). -/
def State.recSeen (s : State) (g : Group) (o : Op) (l : RayLane) : State :=
  (List.range 8).foldl (fun s i => s.noteRead g.vf 3 (g.agent o.pc o.seq) (l.recVa + 64 * i) (l.recPa + 64 * i) 64) s

/-! ### Issue (R275 to R278) -/

/-- Accept the records of the active lanes and start a ray operation: the traps of R275 in their order. -/
def issueRay (c : Ctl) (a : Src) (kind : AccKind) (k : RayKind) (flags : Word64) (lane_ : Group → Nat → Word64 × List Word64) (s : State) : M State := do
  s.pathFree .ray
  let base := (s.cur.uniA c a).toNat
  ifActive s.cur c (do
    (match k with
     | .trc root => trapIf (refBad root.toNat) .illegal
     | _ => pure ())
    trapIf (base % 512 ≠ 0) .misalign base)
  let reqs := (s.cur.laneReqs c false fun l => (base + 512 * l) % 2 ^ 64).flatMap fun r => (List.range 8).map fun i => { r with va := r.va + 64 * i }
  let (s, accs) ← s.accept s.cur.vf kind 1 false reqs
  let g := s.cur
  let lanes := (accs.filter fun x => x.va % 512 = 0).map fun x =>
    let (arg, ray) := lane_ g x.lane
    { lane := x.lane, recVa := x.va, recPa := x.pa, arg, ray : RayLane }
  let s := s.arrive (rayUnit g.cluster)
  pure (s.setCur (s.cur.addOp s.steps (some .ray) (.ray k lanes flags)))

/-- CULL of `ray.trc`. -/
def cullCode : Cull → Nat
  | .none => 0 | .back => 1 | .front => 2

def execRayTrc (c : Ctl) (o : RayTrc) (s : State) : Out :=
  runInstr (.rayTrc c o) c (fun s => do
    let d := s.cur.rD c o.d
    let flags : Word64 := BitVec.ofNat 64 (2 ^ 22 * b2n o.any + 2 ^ 21 * b2n o.noproc + 2 ^ 19 * cullCode o.cull + 2 ^ 8 * o.imask.toNat)
    let s ← issueRay c o.a .write (.trc (s.cur.uniB c o.b)) flags (fun g l => (0, (List.range 4).map fun k => g.readV (d + k) l)) s
    pure (s, none)) s

def execRayRsm (c : Ctl) (o : RayRsm) (s : State) : Out :=
  runInstr (.rayRsm c o) c (fun s => do
    let s ← issueRay c o.a .write (.rsm o.b.isSome) 0 (fun g l => (match o.b with | some b => g.readV (g.rB c b.reg) l | none => 0, [])) s
    pure (s, none)) s

def execRayCmt (c : Ctl) (o : AB) (s : State) : Out :=
  runInstr (.rayCmt c o) c (fun s => do
    let s ← issueRay c o.a .write .cmt 0 (fun g l => (g.readV (g.rB c o.b.reg) l, [])) s
    pure (s, none)) s

/-- Registers that `ray.get` writes (R278). -/
def rayRegs : RaySel → Nat
  | .hit => 3 | .leaf => 2 | .oray => 4

def execRayGet (c : Ctl) (o : RayGet) (s : State) : Out :=
  runInstr (.rayGet c o) c (fun s => do
    let s ← issueRay c o.a .read (.get o.sel) 0 (fun _ _ => (0, [])) s
    let g := s.cur
    pure (s.setCur (g.awaiting .v (g.rD c o.d) (rayRegs o.sel) (g.active c ||| g.zeroLanes c)), none)) s

/-! ### Completion (R276 to R281) -/

/-- An older `ray.*` instruction is open for the lane, or the unit has to wait before it accesses the record as a load at the instruction's place does
(R281, R305, R315). -/
def State.rayBlocked (s : State) (g : Group) (op : Nat) (l : RayLane) : Bool :=
  (g.olderOpen op).any (fun p => match p.kind with | .ray _ ls _ => ls.any fun x => x.lane = l.lane && !x.fin | _ => false) ||
  !s.engineReady g op [(0, Loc.pa l.recPa, 512)]

/-- The values of `ray.get` (R278). -/
def rayValues (sel : RaySel) (b : List Byte) (k : Nat) : Word64 :=
  let t := Trav.of b
  let w (hi lo : Nat) : Word64 := BitVec.ofNat 64 (2 ^ 32 * hi + lo)
  match sel, k with
  | .hit, 0 => w (t.status + 2 ^ 8 * t.hkind) t.ht
  | .hit, 1 => w t.hinst t.hprim
  | .hit, _ => w t.hv t.hu
  | .leaf, 0 => w t.puser t.pprim
  | .leaf, _ => w t.status t.cinst
  | .oray, 0 => w (t.object.getD 1 0) (t.object.getD 0 0)
  | .oray, 1 => w t.tminW (t.object.getD 2 0)
  | .oray, 2 => w (t.object.getD 5 0) (t.object.getD 4 0)
  | .oray, _ => w t.tmaxW (t.object.getD 6 0)

/-- A traversal begins: the record that it starts from, and the reference it visits first; or the record at which it ends at once (R275, R276). That a
malformed LEAF is found at the record's word at offset 0x58 is the model's choice (log entry 88). -/
def rayBegin (k : RayKind) (flags : Word64) (l : RayLane) (b : List Byte) : Trav × Option (Option (Nat × Nat)) :=
  match k with
  | .trc root =>
    let ray := l.ray.flatMap fun w => [w.toNat % 2 ^ 32, w.toNat / 2 ^ 32]
    let t := Trav.reset flags.toNat ray
    if rayBad ray then (t.stopped 4 none, none) else (t, some (some (root.toNat, l.recVa + 0x100)))
  | .rsm shrt =>
    let t := Trav.of b
    let v := l.arg.toNat % 2 ^ 32
    let t := if shrt && !(f32Val v).isNan && decide (f32Key v < f32Key t.tmaxW) then t.setTmax v else t
    if t.cmt then ({ t with status := 3, cmt := false }, none)
    else ({ t with status := 1 }, some (if t.leaf = 0 then none else some (t.leaf, l.recVa + 0x58)))
  | _ => (Trav.of b, none)

/-- What a lane of `ray.cmt` writes in its record: offset and bytes (R277). -/
def rayCommit (l : RayLane) (b : List Byte) : List (Nat × List Byte) :=
  let t := Trav.of b
  let tb := l.arg.toNat % 2 ^ 32
  if t.status = 2 && t.accepts tb t.pprim then
    (if t.any then [(2, [BitVec.ofNat 8 (bitsOf (quadAt b 0) 23 16 ||| 1)])] else []) ++
    [(0x24, bytesLE 4 tb), (0x60, bytesLE 4 tb ++ [2]), (0x68, bytesLE 4 t.pprim ++ bytesLE 4 t.cinst), (0x70, bytesLE 4 (l.arg.toNat / 2 ^ 32) ++ bytesLE 4 0)]
  else []

/-- No ray operation and no suspended traversal is left on a cluster: its unit is idle (R410). -/
def State.rayIdle (s : State) (cl : Nat) : State :=
  let busy := s.allGroups.any fun g => g.cluster = cl &&
    (!g.raySusp.isEmpty || g.ops.any fun o => !o.fin && (match o.kind with | .ray .. => true | _ => false))
  if busy then s else s.idle (rayUnit cl)

/-- A lane of a ray operation changes; the operation completes with its last lane, and the core's L1 gives up what may be older than what it read. -/
def State.rayLaneTo (s : State) (gid op : Nat) (l : RayLane) : State :=
  let s := s.updGroup gid fun g =>
    match g.op? op with
    | some o =>
      match o.kind with
      | .ray k ls f =>
        let ls := ls.map fun x => if x.lane = l.lane then l else x
        let g := g.updOp op fun o => { o with kind := .ray k ls f }
        if ls.all (·.fin) then g.finishOp op else g
      | _ => g
    | none => g
  match s.group? gid with
  | some g => (s.dropCoreL1 g.coreIx g.vf).rayIdle g.cluster
  | none => s

/-- A record becomes that of a suspended traversal, or ceases to be. -/
def State.raySuspend (s : State) (gid : Nat) (l : RayLane) (yes : Bool) : State :=
  s.updGroup gid fun g => { g with raySusp := (if yes then [l.recPa] else []) ++ g.raySusp.filter (· ≠ l.recPa) }

/-- The traversal of a lane runs (R275, R279). -/
def State.rayRunLane (s : State) (g : Group) (o : Op) (k : RayKind) (flags : Word64) (l : RayLane) : State :=
  let b := s.recRead o l
  let (t, next) := if l.begun then (Trav.of b, some l.next) else rayBegin k flags l b
  let me : Requester := .rayLane g.id o.seq l.lane
  let failed := s.prqFailed.contains me
  let s : State := { s with prqFailed := s.prqFailed.filter (· ≠ me) }
  match next with
  | none => ((s.recWrite g o l 0 t.header).raySuspend g.id l false).rayLaneTo g.id o.seq { l with begun := true, fin := true }
  | some next =>
    match s.travRun g o l.recVa t failed next travTurns with
    | (s, t, .stop, _) => ((s.recWrite g o l 0 t.bytes).raySuspend g.id l (t.status = 2)).rayLaneTo g.id o.seq { l with begun := true, fin := true }
    | (s, t, .wait st p _, next) =>
      ((s.recWrite g o l 0 t.bytes).rayLaneTo g.id o.seq { l with begun := true, waiting := true, next }).pageRequest g.vf st p .read me
    | (s, t, _, next) => (s.recWrite g o l 0 t.bytes).rayLaneTo g.id o.seq { l with begun := true, next }

/-- One lane of a ray operation acts. -/
def State.rayLane (s : State) (g : Group) (o : Op) (k : RayKind) (flags : Word64) (l : RayLane) : State :=
  let b := s.recRead o l
  let fin : RayLane := { l with fin := true }
  match k with
  | .get sel => ((s.recSeen g o l).updGroup g.id fun g => g.fillPend o.seq (laneBit l.lane) false fun j _ => rayValues sel b j).rayLaneTo g.id o.seq fin
  | .cmt => ((rayCommit l b).foldl (fun s p => s.recWrite g o l p.1 p.2) (s.recSeen g o l)).rayLaneTo g.id o.seq fin
  | .rsm _ =>
    if l.begun then s.rayRunLane g o k flags l
    else if bitsOf (quadAt b 0) 39 32 ≠ 2 then (s.recSeen g o l).rayLaneTo g.id o.seq fin
    else if recordBad b then
      (((s.recSeen g o l).recWrite g o l 4 [7]).recWrite g o l 0x78 (bytesLE 8 l.recVa) |>.raySuspend g.id l false).rayLaneTo g.id o.seq fin
    else (s.recSeen g o l).rayRunLane g o k flags l
  | .trc _ => s.rayRunLane g o k flags l

/-- The results of a `ray.get` whose last lane has answered have returned. -/
def Group.rayReturned (g : Group) (op : Nat) : Group :=
  match g.op? op with
  | some o => if o.fin then g.fillPend op 0 true fun _ _ => 0 else g
  | none => g.fillPend op 0 true fun _ _ => 0

/-- TRAVERSAL_STOP: lane `l` of a ray operation takes effect, and its traversal stops unless it waits for a page or has more to do (R281). -/
def execTraversalStop (gid op l : Nat) (s : State) : Out :=
  match s.group? gid with
  | none => .next s
  | some g =>
    match g.op? op with
    | none => .next s
    | some o =>
      match o.kind with
      | .ray k ls flags =>
        if o.fin || s.away gid || (s.gate (rayUnit g.cluster)).waking then .next s
        else if ls.all (·.fin) then .next (((s.updGroup gid fun g => g.finishOp op).updGroup gid fun g => g.rayReturned op).rayIdle g.cluster)
        else match ls.find? (fun x => x.lane = l && !x.fin) with
          | none => .next s
          | some x =>
            if x.waiting || s.rayBlocked g op x then .next s
            else .next ((s.rayLane g o k flags x).updGroup gid fun g => g.rayReturned op)
      | _ => .next s

/-- A save writes the record of each lane whose traversal runs, with STATUS 1; one that has not begun yet begins (R281). -/
def State.saveRays (s : State) (gid : Nat) : State :=
  match s.group? gid with
  | none => s
  | some g =>
    g.ops.foldl (fun s o =>
      match o.kind with
      | .ray k ls flags => ls.foldl (fun s l =>
          if l.fin || l.begun || s.rayBlocked g o.seq l then s
          else match k with
            | .trc _ =>
              match rayBegin k flags l [] with
              | (t, some next) => (s.recWrite g o l 0 t.header).rayLaneTo gid o.seq { l with begun := true, next }
              | (_, none) => s
            | .rsm _ =>
              let b := s.recRead o l
              if bitsOf (quadAt b 0) 39 32 ≠ 2 || recordBad b then s
              else match rayBegin k flags l b with
                | (t, some next) => (s.recWrite g o l 0 t.header).rayLaneTo gid o.seq { l with begun := true, next }
                | (_, none) => s
            | _ => s) s
      | _ => s) s

/-- Lanes with a running traversal (R281). -/
def Group.rayRun (g : Group) : Word32 :=
  maskOf fun l => g.ops.any fun o => match o.kind with
    | .ray _ ls _ => ls.any fun x => x.lane = l && x.begun && !x.fin
    | _ => false

end Sys2Proof.Machine
end

