-- ==== Sys2Proof/Machine/Raster.lean ====
section
/-!
DEFINITION. The rasteriser: draws, coverage, binning and the target's writes (R283 to R288).
-/
set_option Elab.async false
namespace Sys2Proof.Machine
open Sys2Proof

/-! ### Descriptors (R284) -/

/-- A draw descriptor. -/
structure DrawDesc where
  pbase : Nat
  idbase : Nat
  pcount : Nat
  tbase : Nat
  tpitch : Nat
  height : Nat
  width : Nat
  slbase : Nat
  slcap : Nat
  smax : Nat
  slcnt : Nat
  ord : Bool
  cull : Nat

def DrawDesc.of (d : List Byte) : DrawDesc :=
  { pbase := fieldAt d 0 63 0, idbase := fieldAt d 8 63 32, pcount := fieldAt d 8 31 0, tbase := fieldAt d 0x10 63 0, tpitch := fieldAt d 0x18 63 32,
    height := fieldAt d 0x18 31 16, width := fieldAt d 0x18 15 0, slbase := fieldAt d 0x20 63 0, slcap := fieldAt d 0x28 63 32,
    smax := fieldAt d 0x28 7 0, slcnt := fieldAt d 0x30 63 0, ord := fieldAt d 0x38 3 3 = 1, cull := fieldAt d 0x38 2 1 }

/-- What gives a descriptor STATUS 2 (R288). -/
def DrawDesc.bad (x : DrawDesc) (d : List Byte) : Bool :=
  fieldAt d 0x28 31 8 ≠ 0 || fieldAt d 0x38 31 24 ≠ 0 || fieldAt d 0x38 15 4 ≠ 0 || fieldAt d 0x38 0 0 ≠ 0 || x.cull = 3 || x.pbase % 16 ≠ 0 ||
  x.tbase % 256 ≠ 0 || x.tpitch % 256 ≠ 0 || x.slbase % 8 ≠ 0 || x.slcnt % 8 ≠ 0 || x.height = 0 || decide (16384 < x.height) || x.width = 0 ||
  decide (16384 < x.width) || decide (x.tpitch < 8 * x.width)

/-! ### Coverage and depth (R285) -/

/-- A primitive to draw: its vertices in drawing order, x and y exact, z as FP32 values; and A, made positive. -/
structure Prim where
  xs : List Rat
  ys : List Rat
  zs : List FpVal
  area : Rat

/-- The primitive of nine words x, y, z of three vertices: none for one that draws nothing (R285). -/
def primOf (cull : Nat) (w : List Nat) : Option Prim :=
  let x (k : Nat) : Nat := w.getD (3 * k) 0
  let y (k : Nat) : Nat := w.getD (3 * k + 1) 0
  let z (k : Nat) : FpVal := f32Val (w.getD (3 * k + 2) 0)
  if !((List.range 9).all fun k => finite32 (w.getD k 0)) then none
  else
    let q (b : Nat) : Rat := (f32Val b).rat
    let a := (q (x 1) - q (x 0)) * (q (y 2) - q (y 0)) - (q (x 2) - q (x 0)) * (q (y 1) - q (y 0))
    if a = 0 || (cull = 1 && decide (a < 0)) || (cull = 2 && decide (0 < a)) then none
    else
      let order := if a < 0 then [0, 2, 1] else [0, 1, 2]
      some { xs := order.map fun k => q (x k), ys := order.map fun k => q (y k), zs := order.map z, area := |a| }

namespace Prim
def vx (p : Prim) (k : Nat) : Rat := p.xs.getD k 0
def vy (p : Prim) (k : Nat) : Rat := p.ys.getD k 0

/-- F of the edge (a, b) at a centre (R285). -/
def edge (p : Prim) (a b : Nat) (cx cy : Rat) : Rat := (p.vx b - p.vx a) * (cy - p.vy a) - (p.vy b - p.vy a) * (cx - p.vx a)

/-- The edge rule at a centre (R285). -/
def inside (p : Prim) (a b : Nat) (cx cy : Rat) : Bool :=
  let f := p.edge a b cx cy
  decide (0 < f) || (f = 0 && (decide (p.vy b < p.vy a) || (p.vy b = p.vy a && decide (p.vx a < p.vx b))))

/-- A pixel is covered (R285). -/
def covers (p : Prim) (px py : Nat) : Bool :=
  let cx : Rat := (px : Rat) + 1 / 2
  let cy : Rat := (py : Rat) + 1 / 2
  p.inside 0 1 cx cy && p.inside 1 2 cx cy && p.inside 2 0 cx cy

/-- The depth word at a covered pixel; none for a NaN or a negative one (R285). -/
def depth (p : Prim) (px py : Nat) : Option Nat :=
  let cx : Rat := (px : Rat) + 1 / 2
  let cy : Rat := (py : Rat) + 1 / 2
  let term (a b k : Nat) : FpVal :=
    match mulExact (.num false (p.edge a b cx cy / p.area)) (p.zs.getD k (.num false 0)) with | .val v => v | _ => .nan false true 0
  let z := (deliverFp { nanq := true } .f32 .rne [] (sumExact .rne [term 1 2 0, term 2 0 1, term 0 1 2])).1
  match f32Val z with
  | .nan .. => none
  | .num n q => if q = 0 then some 0 else if n then none else some z
  | .inf n => if n then none else some z

end Prim

/-- The candidate rectangle of vertices: its first and last column and row, in the target (R286). -/
def boxRect (xs ys : List Rat) (w h : Nat) : Int × Int × Int × Int :=
  let lo (l : List Rat) : Rat := (l.min?).getD 0
  let hi (l : List Rat) : Rat := (l.max?).getD 0
  (max 0 ((lo xs - 1 / 2).ceil), min ((w : Int) - 1) ((hi xs - 1 / 2).floor), max 0 ((lo ys - 1 / 2).ceil), min ((h : Int) - 1) ((hi ys - 1 / 2).floor))

/-- The candidate rectangle of a primitive's nine words, whether it draws or not; none where an x or a y is not finite (R286). -/
def wordsRect (w : List Nat) (width height : Nat) : Option (Int × Int × Int × Int) :=
  let at_ (k : Nat) : List Nat := (List.range 3).map fun i => w.getD (3 * i + k) 0
  if (at_ 0 ++ at_ 1).all finite32 then some (boxRect ((at_ 0).map fun b => (f32Val b).rat) ((at_ 1).map fun b => (f32Val b).rat) width height) else none

/-- Columns and rows of a rectangle; none of either when it is empty. -/
def rectSize (r : Int × Int × Int × Int) : Nat × Nat :=
  let w := (r.2.1 - r.1 + 1).toNat
  let h := (r.2.2.2 - r.2.2.1 + 1).toNat
  if w = 0 || h = 0 then (0, 0) else (w, h)

/-- The screen tiles that a rectangle meets, numbered row by row (R287). -/
def rectTiles (width : Nat) (r : Int × Int × Int × Int) : List Nat :=
  if (rectSize r).1 = 0 then []
  else
    let across := (width + 31) / 32
    let x0 := r.1.toNat / 32
    let x1 := r.2.1.toNat / 32
    let y0 := r.2.2.1.toNat / 32
    let y1 := r.2.2.2.toNat / 32
    (List.range (y1 - y0 + 1)).flatMap fun j => (List.range (x1 - x0 + 1)).map fun i => (y0 + j) * across + (x0 + i)

/-- The covered pixels of a primitive in a tile, with their depth words. -/
def tilePixels (x : DrawDesc) (p : Prim) (tile : Nat) : List (Nat × Nat × Nat) :=
  let across := (x.width + 31) / 32
  let r := boxRect p.xs p.ys x.width x.height
  (List.range 32).flatMap fun j => (List.range 32).filterMap fun i =>
    let px := tile % across * 32 + i
    let py := tile / across * 32 + j
    if r.1 ≤ px && (px : Int) ≤ r.2.1 && r.2.2.1 ≤ py && (py : Int) ≤ r.2.2.2 && p.covers px py then (p.depth px py).map fun z => (px, py, z) else none

/-! ### `rast.sub` (R288) -/

def execRastSub (c : Ctl) (a : Src) (s : State) : Out :=
  runInstr (.rastSub c a) c (groupLevel c fun s => do
    let va := (s.cur.uniA c a).toNat
    let (s, accs) ← s.accept s.cur.vf .read 64 true [{ lane := 0, va }]
    let pa := ((accs.head?).map (·.pa)).getD 0
    if 16 ≤ (s.gran s.cur.slice).draws.length then .error .stall
    else do
      let (s, desc) ← s.readNow 0 [(va, pa, 64)]
      let g := s.cur
      let d : Draw := { vf := g.vf, gid := g.id, launchId := g.launchId, lastId := g.lastId.toNat, pc := g.me.pc, seq := g.seq, desc, va, pa }
      pure (s.updGran g.slice fun k => { k with draws := k.draws ++ [d] }, none)) s

/-! ### Drawing (R286, R287) -/

/-- The agent of a draw, as watch events name it (R420). -/
def Draw.agent (d : Draw) : Agent := { launch := d.launchId, id := d.lastId, upc := d.pc.toNat }

/-- A draw may read a run as loads at its place in issue order: nothing of its group stands before them (R288, R315). -/
def State.drawReady (s : State) (d : Draw) (spans : List Span) : Bool :=
  match s.group? d.gid with
  | some g => s.engineReady g d.seq spans
  | none => true

/-- What a part of a draw comes to: done; nothing yet; a wait for a page; or a STATUS that stops it. -/
inductive DrawPart
  | on (s : State) (d : Draw)
  | hold (s : State)
  | wait (s : State)
  | stop (s : State) (st : Nat)

/-- Map runs for a draw, and go on. -/
def State.drawMap (s : State) (d : Draw) (gr : Nat) (kind : AccKind) (runs : List (Nat × Nat)) (k : State → List PageMap → DrawPart) : DrawPart :=
  match s.engineMap d.vf (.rast gr) kind runs with
  | .ok s pages => k s pages
  | .wait s => .wait s
  | .perm s _ => .stop s 3

/-- A poisoned line that a draw read is recorded (R397). -/
def State.drawPoison (s : State) (d : Draw) (loc : Nat) : State := s.logError (s.vf d.vf).slice 0x01 0xFF d.vf 0 (64 * (Loc.pa loc / 64)) d.launchId

/-- Write a pixel: minimum mode is an `apost.dmin`, ordered mode replaces a greater DEPTH (R287). -/
def State.drawPixel (s : State) (d : Draw) (x : DrawDesc) (pages : List PageMap) (va z id : Nat) : State :=
  let loc := pageLoc pages va
  let new := 2 ^ 32 * z + id
  if !x.ord && s.poisoned loc then s.drawPoison d loc
  else
    let old := natLE (s.homeRead loc 8)
    let put := if x.ord then decide (z < old / 2 ^ 32) else decide (new < old)
    let s := s.serveRead d.vf va loc
    let s := if put then s.write d.vf va loc (bytesLE 8 new) else s
    s.watch d.vf va loc 8 (if x.ord then 4 else 2) d.agent

/-- Draw one primitive in one tile. DESIGN CHOICE: in ordered mode a poisoned line of the target stops the draw as a poisoned primitive line does (R288 names
those alone; log entry 81). -/
def State.drawTile (s : State) (d : Draw) (gr : Nat) (x : DrawDesc) (tile i : Nat) (w : List Nat) : DrawPart :=
  match primOf x.cull w with
  | none => .on s d
  | some p =>
    let px := tilePixels x p tile
    let at_ (q : Nat × Nat × Nat) : Nat := (x.tbase + q.2.1 * x.tpitch + 8 * q.1) % 2 ^ 64
    s.drawMap d gr (if x.ord then .write else .atomic) (px.map fun q => (at_ q, 8)) fun s pages =>
      match (if x.ord then (px.map fun q => pageLoc pages (at_ q)).find? s.poisoned else none) with
      | some loc => .stop (s.drawPoison d loc) 4
      | none => .on (px.foldl (fun s q => s.drawPixel d x pages (at_ q) q.2.2 ((x.idbase + i) % 2 ^ 32)) s) d

/-- Count a small primitive, which the list may have room for (R286). DESIGN CHOICE: a poisoned line of the counter stops the draw as a poisoned primitive line
does (R288 names those alone; log entry 81). -/
def State.drawSmall (s : State) (d : Draw) (gr : Nat) (x : DrawDesc) : DrawPart :=
  s.drawMap d gr .atomic [(x.slcnt, 8)] fun s pages =>
    let loc := pageLoc pages x.slcnt
    if s.poisoned loc then .stop (s.drawPoison d loc) 4
    else
      let k := natLE (s.homeRead loc 8)
      let s := ((s.serveRead d.vf x.slcnt loc).write d.vf x.slcnt loc (bytesLE 8 (k + 1))).watch d.vf x.slcnt loc 8 2 d.agent
      .on s (if x.slcap ≤ k then { d with ix := d.ix + 1 } else { d with slot := some k })

/-- Write the entry of a small primitive that has been counted (R286). -/
def State.drawEntry (s : State) (d : Draw) (gr k : Nat) (x : DrawDesc) : DrawPart :=
  let va := (x.slbase + 8 * k) % 2 ^ 64
  s.drawMap d gr .write [(va, 8)] fun s pages =>
    let loc := pageLoc pages va
    .on ((s.write d.vf va loc (bytesLE 8 ((x.idbase + d.ix) % 2 ^ 32))).watch d.vf va loc 8 4 d.agent) { d with ix := d.ix + 1, slot := none }

/-- Everything binned, tile by tile and in each tile in ascending i (R287). -/
def flushOrder (x : DrawDesc) (bins : List (Nat × List Nat)) : List (Nat × Nat × List Nat) :=
  sortBy (fun a b => decide (a.1 < b.1) || (a.1 = b.1 && decide (a.2.1 ≤ b.2.1))) (bins.flatMap fun b =>
    match wordsRect b.2 x.width x.height with
    | some r => (rectTiles x.width r).map fun t => (t, b.1, b.2)
    | none => [])

/-- Bin the next primitive: it is listed, binned, or makes a flush (R286, R287). One whose rectangle is not defined is skipped or listed, which is free
(log entry 76). -/
def State.drawNext (s : State) (d : Draw) (gr : Nat) (x : DrawDesc) : DrawPart :=
  let va := (x.pbase + 48 * d.ix) % 2 ^ 64
  s.drawMap d gr .read [(va, 48)] fun s pages =>
    if !s.drawReady d (runSpans pages [(va, 48)]) then .hold s
    else match s.poisonIn pages [(va, 48)] with
    | some l => .stop ((s.logLost (64 * l)).drawPoison d (64 * l)) 4
    | none =>
      let b := s.readRun pages va 48
      let w := (List.range 3).flatMap fun k => wordsAt b (16 * k) 3
      let s := s.noteReads d.vf 3 d.agent pages [(va, 48)]
      match wordsRect w x.width x.height with
      | none => if x.smax ≠ 0 && Config.freeBit s.steps then s.drawSmall d gr x else .on s { d with ix := d.ix + 1 }
      | some r =>
        let (cols, rows) := rectSize r
        if x.smax ≠ 0 && decide (cols ≤ x.smax) && decide (rows ≤ x.smax) then s.drawSmall d gr x
        else
          let n := (rectTiles x.width r).length
          if d.used + n ≤ 65536 then .on s { d with ix := d.ix + 1, bins := d.bins ++ [(d.ix, w)], used := d.used + n }
          else
            let d : Draw := { d with todo := flushOrder x d.bins, bins := [], used := 0, flushes := d.flushes + 1 }
            if n ≤ 65536 then .on s d else .on s { d with ix := d.ix + 1, todo := d.todo ++ flushOrder x [(d.ix, w)] }

/-- One part of a draw: what is left of a flush, the entry of a counted primitive, then the next primitive, then what remains binned, then the end. -/
def State.drawStep (s : State) (d : Draw) (gr : Nat) (x : DrawDesc) : DrawPart :=
  match d.todo with
  | (t, i, w) :: rest =>
    match s.drawTile d gr x t i w with
    | .on s d => .on s { d with todo := rest }
    | k => k
  | [] =>
    match d.slot with
    | some k => s.drawEntry d gr k x
    | none =>
    if d.ix < x.pcount then s.drawNext d gr x
    else if !d.bins.isEmpty then .on s { d with todo := flushOrder x d.bins, bins := [], used := 0 }
    else .stop s 1

/-- Run a draw for a number of parts. -/
def State.drawRun (s : State) (d : Draw) (gr : Nat) (x : DrawDesc) : Nat → State × Draw
  | 0 => (s, d)
  | n + 1 =>
    match s.drawStep d gr x with
    | .on s d => s.drawRun d gr x n
    | .hold s => (s, d)
    | .wait s => (s, { d with waiting := true })
    | .stop s st => (s, { d with result := some st, todo := [], bins := [] })

/-- Parts of a draw that one event takes. -/
def drawParts : Nat := 65536

/-- RAST_DRAW: the rasteriser of a slice takes the oldest accepted draw and draws, until it ends, waits for a page, or has more to do (R287). -/
def execRastDraw (gr : Nat) (s : State) : Out :=
  match (s.gran gr).draws with
  | [] => .next s
  | d :: rest =>
    if d.waiting || d.result.isSome then .next s
    else
      let x := DrawDesc.of d.desc
      let (s, d) := if x.bad d.desc then (s, { d with result := some 2 }) else s.drawRun d gr x drawParts
      .next (s.updGran gr fun k => { k with draws := d :: rest })

/-- A STATUS write has to wait: its function does not hold the slice, and what withholds completions is full (R380). -/
def State.statusStalls (s : State) (vf : Nat) : Bool := !s.holds vf && s.shadowFull (s.vf vf).slice

/-- A STATUS write of a function, or what stands for it while the function does not hold its slice (R380). -/
def State.statusWrite (s : State) (vf va pa : Nat) (data : List Byte) (ag : Agent) : State :=
  if s.holds vf then (s.write vf va pa data).watch vf va pa data.length 4 ag else s.withhold vf (.status va pa data ag)

/-- RAST_DRAW_COMPLETE: the draw's FLUSHES and STATUS are written, with release at `.t`, and the next draw may begin (R288). -/
def execRastDrawComplete (gr : Nat) (s : State) : Out :=
  match (s.gran gr).draws with
  | [] => .next s
  | d :: rest =>
    match d.result with
    | none => .next s
    | some st =>
      if s.statusStalls d.vf then .next s
      else
      let s := s.updGran gr fun k => { k with draws := rest }
      let s := (s.write d.vf (d.va + 0x3C) (d.pa + 0x3C) (bytesLE 4 d.flushes)).watch d.vf (d.va + 0x3C) (d.pa + 0x3C) 4 4 d.agent
      .next (s.statusWrite d.vf (d.va + 0x3A) (d.pa + 0x3A) [BitVec.ofNat 8 st] d.agent)

end Sys2Proof.Machine
end

