-- ==== Sys2Proof/Machine/Ring.lean ====
section
/-!
DEFINITION. Ring queues (R289 to R292).
-/
set_option Elab.async false
namespace Sys2Proof.Machine
open Sys2Proof

/-- The low bytes of registers from `b` on, in a lane, as an entry takes them (R290). -/
def Group.ringEntry (g : Group) (b n l : Nat) : List Byte := (List.range n).flatMap fun k => bytesLE 8 (g.readV (b + k) l).toNat

/-- REG_RANGE when the last of `n` registers from `reg` on is not declared (R290). -/
def Group.regsOk (g : Group) (reg n : Nat) : M Unit := trapIf (decide (g.nv < reg + n)) .regRange

/-- Kill further registers of an operand whose count only the handle gives (R67). -/
def Group.killMore (g : Group) (b : Src) (reg n : Nat) : Group :=
  if b.kill then (List.range n).foldl (fun g k => g.killReg .v (reg + k)) g else g

/-- `ring.push`: its checks in the order of R290, then one indivisible step, after the group's older accesses (R292, R304). -/
def execRingPush (c : Ctl) (o : RingPush) (s : State) : Out :=
  runInstr (.ringPush c o) c (fun s => do
    let g := s.cur
    let act := lanesOf (g.active c)
    if act.isEmpty then pure (s, none)
    else
      let h := g.rA c o.h
      let (k, t) ← s.tileNamed h o.peer .ring
      let n := t.rowb / 8
      let b := g.rB c o.b.reg
      trapIf (decide (t.rows < act.length)) .tileBounds
      g.regsOk b n
      if t.rows < (t.tail - t.head).toNat + act.length || g.counter .load ≠ 0 || g.counter .store ≠ 0 then .error .stall
      else
        let s := s.updHandle k h fun t => act.foldl (fun t l =>
          { t.writeN (t.tail.toNat % t.rows * t.rowb) (g.ringEntry b n l) with tail := t.tail + 1 }) t
        pure (s.setCur (s.cur.killMore o.b b n), none)) s

/-- `ring.pop`, once no older acquire is open (R304): entries go to the active lanes in ascending order, and the other active lanes take the empty mark (R291). -/
def execRingPop (c : Ctl) (o : RingPop) (s : State) : Out :=
  runInstr (.ringPop c o) c (fun s => do
    let g := s.cur
    let act := lanesOf (g.active c)
    let h := g.rA c o.h
    let d := g.rD c o.d
    let put (g : Group) (m : Word32) (n : Nat) (f : Nat → Nat → Word64) : Group :=
      (List.range (n + 1)).foldl (fun g k => if g.nv ≤ d + k then g else g.addPend .v (d + k) m (Lanes.gen (f k)) true) g
    if act.isEmpty then
      let z := g.zeroLanes c
      let t := s.handle g.wg h
      let t := match o.peer with
        | none => t
        | some n => match s.peerWg g n.toNat with | some k => s.handle k h | none => {}
      if z = 0 then pure (s, none)
      else pure (s.setCur (put g z (if t.st = .allocated && t.kind = .ring then t.rowb / 8 else 0) fun _ _ => 0), none)
    else
      let (k, t) ← s.tileNamed h o.peer .ring
      s.settled []
      let n := t.rowb / 8
      g.regsOk d (n + 1)
      trapIf (decide (128 < g.uncommitted + n + 1)) .illegal
      let avail := min (t.tail - t.head).toNat act.length
      let row (i : Nat) : Nat := (t.head.toNat + i) % t.rows * t.rowb
      (if (List.range avail).any fun i => t.poisoned (row i) t.rowb then .error (.poison 0 0) else pure ())
      let value (j l : Nat) : Word64 :=
        match act.findIdx? (· = l) with
        | none => 0
        | some i =>
          if i < avail then (if j = 0 then BitVec.ofNat 64 ((t.head.toNat + i) % 2 ^ 32) else BitVec.ofNat 64 (natLE (t.readN (row i + 8 * (j - 1)) 8)))
          else if j = 0 then 0x8000000000000000 else 0
      let s := s.updHandle k h fun t => { t with head := t.head + BitVec.ofNat 64 avail }
      let s := if avail ≠ 0 && t.clus then s.acquireAt g (some .k) else s
      pure (s.setCur (put s.cur (g.active c ||| g.zeroLanes c) n value), none)) s

end Sys2Proof.Machine
end

