-- ==== Sys2Proof/Machine/Encode.lean ====
section
/-!
DEFINITION. Encoder lanes: frames, marks, superblocks and the end of a frame (R293 to R298). What the OBUs of a bitstream hold, and the reconstruction,
are free values.
-/
set_option Elab.async false
namespace Sys2Proof.Machine
open Sys2Proof

/-! ### Descriptors (R293, R295) -/

/-- A frame descriptor. -/
structure FrameDesc where
  srcy : Nat
  srcc : Nat
  pitchc : Nat
  pitchy : Nat
  obase : Nat
  ocap : Nat
  height : Nat
  width : Nat
  recon : Nat
  prev : Nat
  lane : Nat
  stream : Nat
  fuse : Bool
  key : Bool
  b10 : Bool
  qidx : Nat
  tbits : Nat

def FrameDesc.of (d : List Byte) : FrameDesc :=
  { srcy := fieldAt d 0 63 0, srcc := fieldAt d 8 63 0, pitchc := fieldAt d 0x10 63 32, pitchy := fieldAt d 0x10 31 0, obase := fieldAt d 0x18 63 0,
    ocap := fieldAt d 0x20 63 32, height := fieldAt d 0x20 31 16, width := fieldAt d 0x20 15 0, recon := fieldAt d 0x28 63 0,
    prev := fieldAt d 0x30 63 0, lane := fieldAt d 0x40 11 8, stream := fieldAt d 0x40 7 6, fuse := fieldAt d 0x40 5 5 = 1,
    key := fieldAt d 0x40 4 4 = 1, b10 := fieldAt d 0x40 3 3 = 1, qidx := fieldAt d 0x38 39 32,
    tbits := fieldAt d 0x38 31 0 }

/-- Fields that fail R293 or R295, for a slice of `num` granules. -/
def FrameDesc.bad (x : FrameDesc) (d : List Byte) (num : Nat) : Bool :=
  fieldAt d 0x38 63 40 ≠ 0 || fieldAt d 0x40 63 12 ≠ 0 || fieldAt d 0x40 2 0 ≠ 0 || !((d.drop 0x48).take 48).all (· = 0) || fieldAt d 0x78 31 8 ≠ 0 ||
  x.srcy % 256 ≠ 0 || x.srcc % 256 ≠ 0 || x.pitchc % 256 ≠ 0 || x.pitchy % 256 ≠ 0 || x.obase % 256 ≠ 0 || x.recon % 256 ≠ 0 ||
  decide (x.width < 16) || decide (x.height < 16) || x.width % 2 ≠ 0 || x.height % 2 ≠ 0 ||
  decide ((if x.fuse then 8192 else 4096) < x.width) || decide ((if x.fuse then 4352 else 2304) < x.height) ||
  decide (num ≤ x.lane) || (x.fuse && (x.lane % 2 ≠ 0 || decide (num ≤ x.lane + 1)))

namespace FrameDesc
/-- Superblocks across and down (R294). -/
def cols (x : FrameDesc) : Nat := (x.width + 63) / 64
def rows (x : FrameDesc) : Nat := (x.height + 63) / 64
/-- The superblocks that lane LANE encodes: all, or a fused frame's upper half of the rows (R293; log entry 77). -/
def upper (x : FrameDesc) : Nat := if x.fuse then x.cols * ((x.rows + 1) / 2) else x.cols * x.rows
/-- Bytes of a sample (R295). -/
def bps (x : FrameDesc) : Nat := if x.b10 then 2 else 1
/-- The source runs of a superblock: its luma rows, then its rows of Cb and Cr. -/
def sbRuns (x : FrameDesc) (n : Nat) : List (Nat × Nat) :=
  let c := n % x.cols * 64
  let r := n / x.cols * 64
  let w := min 64 (x.width - c)
  let h := min 64 (x.height - r)
  ((List.range h).map fun j => ((x.srcy + (r + j) * x.pitchy + c * x.bps) % 2 ^ 64, w * x.bps)) ++
  (List.range (h / 2)).map fun j => ((x.srcc + (r / 2 + j) * x.pitchc + c * x.bps) % 2 ^ 64, w * x.bps)
/-- The runs of a reconstruction: the source layout, its pitches rounded up to 256, from `base` on. R295 gives one address for both planes: that the chroma plane
follows the luma plane is the model's choice (log entry 8). -/
def planeRuns (x : FrameDesc) (base : Nat) : List (Nat × Nat) :=
  let p := roundUp (x.width * x.bps) 256
  (List.range (x.height + x.height / 2)).map fun j => ((base + j * p) % 2 ^ 64, x.width * x.bps)
end FrameDesc

/-! ### Streams -/

namespace State
def stream (s : State) (gr n : Nat) : Stream := tget (s.gran gr).streams n {}
def updStream (s : State) (gr n : Nat) (f : Stream → Stream) : State :=
  s.updGran gr fun k => { k with streams := tset k.streams n (f (tget k.streams n {})) }
/-- Change the oldest frame of a stream. -/
def updHead (s : State) (gr n : Nat) (f : Frame → Frame) : State :=
  s.updStream gr n fun t => match t.frames with | x :: r => { t with frames := f x :: r } | [] => t
end State

/-- Another function holds the stream, on one of the lanes that it uses (R293, R296). -/
def State.streamHeld (s : State) (vf gr : Nat) (x : FrameDesc) : Bool :=
  let other (k : Nat) (p : Frame → Bool) : Bool := match (s.stream k x.stream).frames with | f :: _ => f.vf ≠ vf && p f | [] => false
  other gr (fun _ => true) || (x.fuse && other (gr + 1) fun _ => true) || (x.lane % 2 = 1 && other (gr - 1) fun f => (FrameDesc.of f.desc).fuse)

/-- A function opens a frame on a stream: after frames of another one it begins anew, with a key frame, so that nothing of theirs reaches it (R295, R390). -/
def Stream.takenBy (t : Stream) (vf : Nat) : Stream :=
  if t.owner = some vf then t else { t with owner := some vf, nextKey := true, past := 0 }

/-! ### `enc.frm` and `enc.tile` (R296, R297) -/

/-- `enc.frm` (R296). The descriptor is checked as a load alone; that STATUS and BYTES are written also where its page has no write permission is the model's
choice (log entry 89). -/
def execEncFrm (c : Ctl) (a : Src) (s : State) : Out :=
  runInstr (.encFrm c a) c (groupLevel c fun s => do
    let va := (s.cur.uniA c a).toNat
    trapIf (va % 128 ≠ 0) .misalign va
    let (s, accs) ← s.accept s.cur.vf .read 64 true [{ lane := 0, va }, { lane := 0, va := va + 64 }]
    let pa := ((accs.head?).map (·.pa)).getD 0
    let (s, desc) ← s.readNow 0 (accs.map fun a => (a.va, a.pa, 64))
    let g := s.cur
    let ag := g.agent g.me.pc
    let put (s : State) (st : Nat) : State := (s.write g.vf (va + 0x78) (pa + 0x78) [BitVec.ofNat 8 st] g.writer).watch g.vf (va + 0x78) (pa + 0x78) 1 4 ag
    let x := FrameDesc.of desc
    if x.bad desc (s.gran g.slice).num then pure (put s 2, none)
    else
      let gr := g.slice + x.lane
      if s.streamHeld g.vf gr x then pure (put s 6, none)
      else
        let f : Frame := { vf := g.vf, gid := g.id, launchId := g.launchId, lastId := g.lastId.toNat, pc := g.me.pc, desc, va, pa }
        pure ((put s 0).updStream gr x.stream fun t => { t.takenBy f.vf with frames := t.frames ++ [f] }, none)) s

/-- `enc.tile`: its marks wait for the group's older stores (R297). -/
def execEncTile (c : Ctl) (o : AB) (s : State) : Out :=
  runInstr (.encTile c o) c (groupLevel c fun s => do
    let g := s.cur
    let rect := g.uniB c o.b
    trapIf (bitsOf rect.toNat 63 48 ≠ 0) .illegal
    pure (s.setCur (g.addOp s.steps none (.mark (g.uniA c o.a).toNat rect)), none)) s

/-- The superblocks of a rectangle that lie in a frame. -/
def FrameDesc.marked (x : FrameDesc) (rect : Word64) : List Nat :=
  let r := rect.toNat
  (List.range (bitsOf r 47 40 + 1)).flatMap fun j => (List.range (bitsOf r 39 32 + 1)).filterMap fun i =>
    let row := bitsOf r 31 16 + j
    let col := bitsOf r 15 0 + i
    if row < x.rows && decide (col < x.cols) then some (row * x.cols + col) else none

/-- The first frame in a list that a function has open at an address takes marks. -/
def markFrames (vf va : Nat) (rect : Word64) : List Frame → List Frame × Bool
  | [] => ([], false)
  | f :: r =>
    if f.vf = vf && f.va = va then
      ({ f with marks := f.marks ++ ((FrameDesc.of f.desc).marked rect).filter (fun n => !f.marks.contains n) } :: r, true)
    else match markFrames vf va rect r with
      | (r, b) => (f :: r, b)

/-- The marks of `enc.tile` take effect; a frame that is not open takes none (R297). -/
def State.applyMark (s : State) (g : Group) (va : Nat) (rect : Word64) : State :=
  ((List.range (s.gran g.slice).num).flatMap fun k => (List.range 4).map fun n => (g.slice + k, n)).foldl (fun (acc : State × Bool) p =>
    if acc.2 then acc
    else match markFrames g.vf va rect (acc.1.stream p.1 p.2).frames with
      | (fs, true) => (acc.1.updStream p.1 p.2 fun t => { t with frames := fs }, true)
      | (_, false) => acc) (s, false) |>.1

/-! ### Encoding (R294, R297, R298) -/

/-- The agent of a frame, as watch events name it. -/
def Frame.agent (f : Frame) : Agent := { launch := f.launchId, id := f.lastId, upc := f.pc.toNat }

/-- Read runs for a frame. -/
def State.frameRead (s : State) (pages : List PageMap) (runs : List (Nat × Nat)) : List Byte :=
  runs.flatMap fun r => s.readRun pages r.1 r.2

/-- The encoder reads runs for the oldest frame of a stream: a wait, a failure, or the bytes (R296, R298). -/
def State.encRead (s : State) (gr n : Nat) (f : Frame) (runs : List (Nat × Nat)) (k : State → List Byte → State) : State :=
  match s.engineMap f.vf (.enc gr n) .read runs with
  | .wait s => s.updHead gr n fun f => { f with waiting := true }
  | .perm s _ => s.updHead gr n fun f => { f with fail := some 4 }
  | .ok s pages =>
    match s.poisonIn pages runs with
    | some l => (s.logError (s.vf f.vf).slice 0x01 0xFF f.vf 0 (64 * l) f.launchId).updHead gr n fun f => { f with fail := some 5 }
    | none => k (s.noteReads f.vf 3 f.agent pages runs) (s.frameRead pages runs)

/-- The lane that encodes lane `gr`'s own frame takes its next superblock, in raster order, once it is marked (R297). -/
def State.encodeUpper (s : State) (gr n : Nat) (f : Frame) (x : FrameDesc) : State :=
  if decide (x.upper ≤ f.encoded) || !f.marks.contains f.encoded then s
  else s.encRead gr n f (x.sbRuns f.encoded) fun s b => s.updHead gr n fun f => { f with encoded := f.encoded + 1, pixels := f.pixels ++ b }

/-- The second lane of a fused frame that lane `gr` holds takes the next superblock of its lower half (R293, R297). -/
def State.encodeLower (s : State) (gr n : Nat) (f : Frame) (x : FrameDesc) : State :=
  let k := x.upper + f.low
  if decide (x.cols * x.rows ≤ k) || !f.marks.contains k then s
  else s.encRead gr n f (x.sbRuns k) fun s b => s.updHead gr n fun f => { f with low := f.low + 1, lowPixels := f.lowPixels ++ b }

/-- SUPERBLOCK_ENCODE: a lane acts on the oldest frame of a stream of its own, or else, as the second lane of a pair, on the oldest of its partner's where
that is fused (R293, R297). -/
def execSuperblockEncode (gr n : Nat) (s : State) : Out :=
  let free (f : Frame) : Bool := !f.waiting && f.fail.isNone
  match (s.stream gr n).frames with
  | f :: _ => .next (if free f then s.encodeUpper gr n f (FrameDesc.of f.desc) else s)
  | [] =>
    if (gr - s.sliceOf gr) % 2 = 0 then .next s
    else match (s.stream (gr - 1) n).frames with
      | [] => .next s
      | f :: _ => .next (if free f && (FrameDesc.of f.desc).fuse then s.encodeLower (gr - 1) n f (FrameDesc.of f.desc) else s)

/-! ### The bitstream (R294; log entry 8) -/

/-- A number as AV1 writes sizes: seven bits a byte, the low ones first. -/
def leb128 : Nat → Nat → List Byte
  | 0, _ => []
  | n + 1, v => if v < 128 then [BitVec.ofNat 8 v] else BitVec.ofNat 8 (128 + v % 128) :: leb128 n (v / 128)

/-- An OBU of a type, without extension and with its size field. -/
def obu (ty : Nat) (payload : List Byte) : List Byte := BitVec.ofNat 8 (8 * ty + 2) :: leb128 8 payload.length ++ payload

/-- The `n` bits of a number, the highest first. -/
def bitsBE (n v : Nat) : List Bool := (List.range n).map fun i => v.testBit (n - 1 - i)

/-- Bits as bytes, the first bit the highest, with zeros at the end. -/
def packBits (b : List Bool) : List Byte :=
  (List.range ((b.length + 7) / 8)).map fun i => BitVec.ofNat 8 (((List.range 8).map fun j => if b.getD (8 * i + j) false then 2 ^ (7 - j) else 0).sum)

/-- A sequence header: seq_profile 0 of a moving picture, one operating point, superblocks of 64x64, CDEF on and restoration off, the bit depth, colour at 4:2:0,
no film grain, and the bit that ends it; the rest is free (R294). -/
def sequenceHeader (desc : List Byte) : List Byte :=
  let free := Config.seqBits desc
  packBits (bitsBE 5 0 ++ free 0 ++ bitsBE 5 0 ++ free 1 ++ [false] ++ free 2 ++ [true, false, (FrameDesc.of desc).b10, false] ++ free 3 ++ [false, true])

/-- How often `blk` doubles to reach `target`, at most `n` times. -/
def tileLog2 (blk target : Nat) : Nat → Nat
  | 0 => 0
  | n + 1 => if target ≤ blk then 0 else 1 + tileLog2 (2 * blk) target n

/-- The tiles of a frame: uniform, one, or two rows for a fused stream, or as many as AV1 asks for at the least; `rest` gives the free bits where there is more
than one (R294). -/
def tileInfo (x : FrameDesc) (rest : Nat) : List Bool :=
  let cols := tileLog2 64 x.cols 8
  let least := max cols (tileLog2 2304 (x.rows * x.cols) 8) - cols
  let most := tileLog2 1 (min x.rows 64) 8
  let rows := max least (min most (b2n x.fuse))
  [true] ++ (if cols < tileLog2 1 (min x.cols 64) 8 then [false] else []) ++ List.replicate (rows - least) true ++ (if rows < most then [false] else []) ++
  (if cols + rows = 0 then [] else bitsBE (cols + rows + 2) rest)

/-- A frame: it shows a KEY_FRAME or an INTER_FRAME, with its tiles and its base_q_idx, which is QIDX where TBITS is 0; the rest is free (R294, R295). -/
def frameBits (past : Nat) (key : Bool) (desc pixels prev : List Byte) : List Byte :=
  let x := FrameDesc.of desc
  let free := Config.frameBits past key desc pixels prev
  let num (i : Nat) : Nat := ((free i).map b2n).sum
  packBits (bitsBE 4 (if key then 1 else 3) ++ free 0 ++ tileInfo x (num 1) ++ bitsBE 8 (if x.tbits = 0 then x.qidx else num 2) ++ free 3)

/-- The temporal unit of a frame: a temporal delimiter; on a key frame a sequence header; and one OBU_FRAME (R294). -/
def temporalUnit (past : Nat) (key : Bool) (desc pixels prev : List Byte) : List Byte :=
  obu 2 [] ++ (if key then obu 1 (sequenceHeader desc) else []) ++ obu 6 (frameBits past key desc pixels prev)

/-- Every source byte of a frame, as it was taken. -/
def Frame.source (f : Frame) : List Byte := f.pixels ++ f.lowPixels

/-- The oldest frame of a stream ends with a STATUS, and BYTES where one is given (R298). -/
def State.endFrame (s : State) (gr n : Nat) (f : Frame) (st : Nat) (bytes : Option Nat) (past : Option Nat) : State :=
  let s := s.updStream gr n fun t => { t with frames := t.frames.tail, nextKey := st ≠ 1, past := past.getD t.past }
  let s := match bytes with
    | some b => (s.write f.vf (f.va + 0x7C) (f.pa + 0x7C) (bytesLE 4 b)).watch f.vf (f.va + 0x7C) (f.pa + 0x7C) 4 4 f.agent
    | none => s
  s.statusWrite f.vf (f.va + 0x78) (f.pa + 0x78) [BitVec.ofNat 8 st] f.agent

/-- Write a run of bytes for a frame. -/
def State.frameWrite (s : State) (f : Frame) (pages : List PageMap) (va : Nat) (data : List Byte) : State :=
  s.writeRun f.vf {} f.agent pages va data

/-- The encoder writes the bitstream and the reconstruction, then BYTES and STATUS (R298). Whether a bitstream that does not fit leaves its first bytes
in the buffer, and its reconstruction, is free. -/
def State.finishFrame (s : State) (gr n : Nat) (f : Frame) (x : FrameDesc) (key : Bool) (prev : List Byte) : State :=
  let past := (s.stream gr n).past
  let bits := temporalUnit past key f.desc f.source prev
  let fits := decide (bits.length ≤ x.ocap)
  let out := bits.take (if fits || Config.freeBit s.steps then x.ocap else 0)
  let planes := if fits || Config.freeBit (s.steps + 1) then x.planeRuns x.recon else []
  let runs := (if out.isEmpty then [] else [(x.obase, out.length)]) ++ planes
  match s.engineMap f.vf (.enc gr n) .write runs with
  | .wait s => s.updHead gr n fun f => { f with waiting := true }
  | .perm s _ => s.updHead gr n fun f => { f with fail := some 4 }
  | .ok s pages =>
    let s := s.frameWrite f pages x.obase out
    let s := (planes.foldl (fun (acc : State × Nat) r =>
      (acc.1.frameWrite f pages r.1 ((List.range r.2).map fun i => Config.recon past key f.desc f.source prev (acc.2 + i)), acc.2 + r.2)) (s, 0)).1
    if fits then s.endFrame gr n f 1 (some bits.length) (some (Config.past past key f.desc f.source prev)) else s.endFrame gr n f 3 (some 0) none

/-- FRAME_COMPLETE: a stream's oldest frame is over: every superblock has been encoded, or it has failed (R298). -/
def execFrameComplete (gr n : Nat) (s : State) : Out :=
  match (s.stream gr n).frames with
  | [] => .next s
  | f :: _ =>
    let x := FrameDesc.of f.desc
    if f.waiting || s.statusStalls f.vf then .next s
    else match f.fail with
      | some st => .next (s.endFrame gr n f st none none)
      | none =>
        if f.encoded + f.low < x.cols * x.rows then .next s
        else
          let key := x.key || (s.stream gr n).nextKey
          if key then .next (s.finishFrame gr n f x key [])
          else .next (s.encRead gr n f (x.planeRuns x.prev) fun s b => s.finishFrame gr n f x key b)

end Sys2Proof.Machine
end

