-- ==== Sys2Proof/Machine/Launch.lean ====
section
/-!
DEFINITION. Launch records and kernel headers, the `launch` instruction, the taking of records, and the completion of launches (R40, R115, R347 to R356).
-/
set_option Elab.async false
namespace Sys2Proof.Machine
open Sys2Proof

/-! ### Queues (R347 to R349, R352) -/

namespace State
def queue (s : State) (vf q : Nat) : Queue := tget (s.vf vf).queues q {}
def updQueue (s : State) (vf q : Nat) (f : Queue → Queue) : State :=
  s.updVf vf fun v => { v with queues := tset v.queues q (f (tget v.queues q {})) }

/-- An engine or the lantern has a page request open or waiting. -/
def asking (s : State) (who : Requester) : Bool := (s.prq.any fun r => r.who.contains who) || s.prqWait.any fun w => w.2.2.2.2 = who
/-- The last page request of a requester was answered with FAIL. -/
def failed (s : State) (who : Requester) : Bool := s.prqFailed.contains who
def clearFailed (s : State) (who : Requester) : State := { s with prqFailed := s.prqFailed.filter (· ≠ who) }
end State

namespace Queue
/-- LOG2N of a queue that is not disabled by it (R348). -/
def log2n (q : Queue) : Option Nat := let n := (q.cfg.extractLsb' 0 5).toNat; if 1 ≤ n && decide (n ≤ 16) then some n else none
/-- The lantern reads the queue: EN, with a LOG2N of 1 to 16. -/
def enabled (q : Queue) : Bool := q.cfg.getLsbD 8 && q.log2n.isSome
def dev (q : Queue) : Bool := q.cfg.getLsbD 9
def bg (q : Queue) : Bool := q.cfg.getLsbD 10
def ser (q : Queue) : Bool := q.cfg.getLsbD 11
def size (q : Queue) : Nat := 2 ^ (q.log2n.getD 0)
/-- Records in the queue (R349). -/
def held (q : Queue) : Nat := (q.tail - q.head).toNat
/-- The address of the slot of record `k` (R349). -/
def slotAt (q : Queue) (k : Nat) : Nat := (q.base.toNat + 128 * (k % q.size)) % 2 ^ 64
end Queue

/-! ### `launch` (R115, R352) -/

/-- Launches of a function to a queue that the lantern has not accepted yet, in the order of their issue. -/
def State.unaccepted (s : State) (vf q : Nat) : List (Group × Op) :=
  (s.allGroups.filter fun g => g.vf = vf).flatMap fun g => (g.ops.filter fun o => !o.fin && (match o.kind with
    | .launch _ n _ _ => n = q
    | _ => false)).map fun o => (g, o)

/-- `launch`: the record is read and its slot checked at issue; the lantern accepts it once the group's older operations allow (R115). -/
def execLaunch (c : Ctl) (o : AB) (s : State) : Out :=
  runInstr (.launch c o) c (fun s => do
    s.pathFree .store
    let g := s.cur
    if !g.passes c then pure (s.setCur (g.addOp s.steps (some .store) .null), none)
    else do
      let va := (g.uniA c o.a).toNat
      let q := (g.uniB c o.b).toNat
      trapIf (va % 64 ≠ 0) .misalign va
      trapIf (decide (16 ≤ q) || !(s.queue g.vf q).enabled || !(s.queue g.vf q).dev) .perm
      let two (a : Nat) : List LaneReq := [{ lane := 0, va := a }, { lane := 0, va := (a + 64) % 2 ^ 64 }]
      let (s, accs) ← s.accept g.vf .read 1 true (two va)
      let (s, rec_) ← s.readNow 0 (accs.map fun a => (a.va, a.pa, 64))
      let qu := s.queue g.vf q
      let k := (s.unaccepted g.vf q).length
      if qu.size ≤ qu.held + k then .error .stall
      else
        let slot := qu.slotAt (qu.tail.toNat + k)
        let (s, out) ← s.accept g.vf .write 1 false (two slot)
        let pa := ((out.head?).map (·.pa)).getD 0
        pure (s.setCur (s.cur.addOp s.steps (some .store) (.launch rec_ q slot pa)), none)) s

/-- The lantern may accept a `launch` now: it is the oldest for its queue, and the group's older loads and stores are complete (R115, R352). -/
def State.launchReady (s : State) (g : Group) (o : Op) (q : Nat) : Bool :=
  (g.ops.all fun p => p.fin || decide (o.seq ≤ p.seq) || (p.path ≠ some .load && p.path ≠ some .store)) &&
  (s.unaccepted g.vf q).all fun p => decide (o.stamp ≤ p.2.stamp)

/-- Acceptance: the slot is written and QTAIL advances, in one step (R352). -/
def State.launchAccept (s : State) (g : Group) (o : Op) (data : List Byte) (q va pa : Nat) : State :=
  let ag := g.agent o.pc o.seq
  let put (s : State) (k : Nat) : State :=
    (s.write g.vf (va + k) (pa + k) ((data.drop k).take 64) (g.writer o.seq)).watch g.vf (va + k) (pa + k) 64 1 ag
  (put (put s 0) 64).updQueue g.vf q fun x => { x with tail := x.tail + 1 }

/-! ### Records and headers (R40, R350, R353) -/

/-- Read a launch record. -/
def LRecord.of (b : List Byte) : LRecord :=
  let w (off : Nat) : Word64 := BitVec.ofNat 64 (fieldAt b off 63 0)
  { kbase := w 0, args := w 8, saveb := w 0x10, gridx := fieldAt b 0x18 15 0, gridy := fieldAt b 0x18 31 16, gridz := fieldAt b 0x18 47 32,
    deadline := w 0x20, saven := fieldAt b 0x28 47 32, trapvec := BitVec.ofNat 32 (fieldAt b 0x28 31 0), depaddr := w 0x30, depval := w 0x38,
    sigaddr := w 0x40, compl := w 0x48, irq := fieldAt b 0x50 0 0 = 1,
    rsvOk := fieldAt b 0x18 63 48 = 0 && fieldAt b 0x28 63 48 = 0 && fieldAt b 0x50 63 1 = 0 && (b.drop 0x58).all (· = 0) }

/-- Gangs of a launch. -/
def LRecord.gangs (r : LRecord) : Nat := r.gridx * r.gridy * r.gridz

/-- A record whose fields are in order (R350, R353). -/
def LRecord.ok (r : LRecord) : Bool :=
  r.rsvOk && r.kbase.toNat % 64 = 0 && r.saveb.toNat % 4096 = 0 && decide (1 ≤ r.gridx) && decide (1 ≤ r.gridy) && decide (1 ≤ r.gridz) &&
  decide (1 ≤ r.saven) && r.depaddr.toNat % 8 = 0 && r.sigaddr.toNat % 8 = 0 && r.compl.toNat % 32 = 0 && decide (r.gangs ≤ 2 ^ 32 - 1)

/-- Read a kernel header. -/
def KHeader.of (b : List Byte) : KHeader :=
  { keepq := fieldAt b 0 16 16 = 1, vgran := fieldAt b 4 7 0, sgran := fieldAt b 5 7 0, pgran := fieldAt b 6 7 0, tiles := fieldAt b 7 7 0,
    accs := fieldAt b 8 7 0, wgroups := fieldAt b 9 7 0, gang := fieldAt b 0x0A 7 0, producer := fieldAt b 0x0B 7 0, energy := fieldAt b 0x10 31 0,
    peak := fieldAt b 0x14 7 0, codelen := fieldAt b 0x18 31 0 }

/-- The checks of a kernel header: R40, R202, and the quadrant limits of R15 (R353). -/
def KHeader.ok (h : KHeader) (b : List Byte) : Bool :=
  let in_ (x lo hi : Nat) : Bool := decide (lo ≤ x) && decide (x ≤ hi)
  let mx := fieldAt b 0 17 17 = 1
  let per := (h.wgroups + 3) / 4
  fieldAt b 0 7 0 = 1 && fieldAt b 0 15 8 = 8 && fieldAt b 0 31 18 = 0 && in_ h.vgran 1 32 && in_ h.sgran 1 8 && in_ h.pgran 1 4 &&
  in_ h.tiles 0 32 && in_ h.accs 0 8 && (mx || h.accs = 0) && in_ h.wgroups 1 16 && in_ h.gang 1 4 &&
  (h.producer = 0xFF || decide (h.producer < h.wgroups)) && fieldAt b 0x0C 31 0 = 0 && decide (1 ≤ h.energy) && in_ h.peak 0 7 &&
  fieldAt b 0x14 31 8 = 0 && h.codelen % 8 = 0 && fieldAt b 0x18 63 32 = 0 && (b.drop 0x20).all (· = 0) &&
  decide (h.gang * h.wgroups * h.accs ≤ 64) && decide (per * (8 * h.vgran) ≤ 512) && decide (per * (8 * h.sgran) ≤ 1024) &&
  decide (per * (16 * h.pgran) ≤ 1024)

/-! ### Completion (R355, R356) -/

/-- What the lantern's read or write of an address comes to (R342, R344). -/
inductive Reach
  | ok (s : State) (loc : Nat)
  | wait (s : State)
  | fail (s : State)

/-- Translate an address for the lantern: a missing translation makes a page request; one answered with FAIL, and a permission that is not there, fail. -/
def State.reach (s : State) (vf va : Nat) (kind : AccKind) (who : Requester) (permits : Attr → Bool) : Reach :=
  if s.asking who then .wait s
  else if s.failed who then .fail (s.clearFailed who)
  else if 2 ^ 57 ≤ va then .fail s
  else match s.translate vf va with
    | (s, .missing st p) => .wait (s.pageRequest vf st p kind who)
    | (s, .malformed e) => .fail (s.logError (s.vf vf).slice 0x02 0xFF vf 0 e)
    | (s, .ok loc a) => if permits a then .ok s loc else .fail s

/-- LATE of a launch (R356). -/
def Launch.late (l : Launch) : Bool := !l.background && decide (l.rec_.deadline.toNat < l.finish.toNat)

/-- The completion record (R356). -/
def Launch.record (l : Launch) : List Byte :=
  bytesLE 8 l.id.toNat ++ bytesLE 8 l.finish.toNat ++ bytesLE 8 (l.status + 2 ^ 8 * b2n l.late) ++ List.replicate 8 0

/-- A completion step that cannot be performed is skipped and logged (R355). -/
def State.skipStep (s : State) (l : Launch) : State := s.logError (s.vf l.vf).slice 0x04 0xFF l.vf 0 0 l.id

/-- The launch goes on to a later completion step, or is over after the last. -/
def State.toStep (s : State) (key n : Nat) : State :=
  if n = 3 then { s with launches := s.launches.filter fun l => l.key ≠ key }
  else s.updLaunch key fun l => { l with stage := .finish n }

/-- Every link has acknowledged a launch's writes to host or peer memory (R172, R355). -/
def State.launchAcked (s : State) (key : Nat) : Bool := (List.range 5).all fun k => (s.link k).unacked.all fun u => u.launch ≠ key

/-- One completion step of a launch, or nothing while its page, the acknowledgement of its writes, or the answer to its signal add is awaited. A signal in
host or peer memory takes its add as a request over the link (R355, R430). -/
def State.finishStep (s : State) (l : Launch) (n : Nat) : State :=
  let next (s : State) : State := s.toStep l.key (n + 1)
  if n = 0 then
    let va := l.rec_.compl.toNat
    if va = 0 then next s
    else if !s.launchAcked l.key then s
    else match s.reach l.vf va .write (.compl l.key) (·.w) with
      | .ok s loc => next ((s.write l.vf va loc l.record { launch := l.key }).watch l.vf va loc 32 5 {})
      | .wait s => s
      | .fail s => next (s.skipStep l)
  else if n = 1 then
    let va := l.rec_.sigaddr.toNat
    if va = 0 then next s
    else if l.signalled || !s.launchAcked l.key then s
    else match s.reach l.vf va .atomic (.compl l.key) (·.w) with
      | .ok s loc =>
        if isWindow (Loc.pa loc) then
          if s.tagsLeft then (s.updLaunch l.key fun l => { l with signalled := true }).sendOver loc l.key 0 0 { kind := atomicKind loc .add, op := .add, ty := .n64, opB := 1, len := 8 }
          else s
        else if s.poisoned loc then next (s.logError (s.vf l.vf).slice 0x01 0xFF l.vf 0 (64 * (Loc.pa loc / 64)) l.id)
        else
          let old := natLE (s.homeRead loc 8)
          next (((s.serveRead l.vf va loc).write l.vf va loc (bytesLE 8 (old + 1)) { launch := l.key }).watch l.vf va loc 8 2 {})
      | .wait s => s
      | .fail s => next (s.skipStep l)
  else if l.rec_.irq then (if s.launchAcked l.key then next (s.raiseIrq l.vf 0) else s)
  else next s

/-- The completion steps of a launch from where it stands, as far as they go now; they are withheld while its function does not hold the slice (R355,
R380). -/
def State.finishSteps (s : State) (key : Nat) : Nat → State
  | 0 => s
  | k + 1 =>
    match s.launch? key with
    | some l =>
      match l.stage with
      | .finish n =>
        if s.holds l.vf then (s.finishStep l n).finishSteps key k
        else if (s.vf l.vf).withheld.any fun w => w.2 = .launchSteps key then s
        else s.withhold l.vf (.launchSteps key)
      | _ => s
    | none => s

/-- The answer to a launch's signal add has come, or its link has failed: the next step follows (R355, R429). -/
def State.signalDone (s : State) (key : Nat) : State :=
  match s.launch? key with
  | some l => if l.signalled then ((s.updLaunch key fun l => { l with signalled := false }).toStep key 2).finishSteps key 3 else s
  | none => s

/-- A launch completes with a STATUS: MISS counts a late one, and its steps are performed, or withheld while its function does not hold the slice
(R355, R360, R380). -/
def State.completeLaunch (s : State) (key status : Nat) : State :=
  match s.launch? key with
  | none => s
  | some l =>
    let l : Launch := { l with status, finish := s.tickOf (s.vf l.vf).slice, stage := .finish 0 }
    let s := s.updLaunch key fun _ => l
    let s := if l.late then s.updVf l.vf fun v => { v with miss := if v.miss = 0xFFFFFFFF then v.miss else v.miss + 1 } else s
    s.finishSteps key 3

/-- A group that has ended has no open operation on an accumulator: its slots return to the cluster (R109, R202). -/
def State.freeAccs (s : State) (g : Group) : State :=
  if g.gone && g.na ≠ 0 && g.ops.all (fun o => o.fin || o.kind.accKey.isNone) then
    (s.updCluster g.cluster fun k => { k with accReserved := k.accReserved - g.na }).updGroup g.id fun g => { g with na := 0 }
  else s

/-- What has ended with nothing open any more is there no longer: groups, and workgroups whose handles are all FREE (R109, R177). -/
def State.reap (s : State) : State :=
  let s := s.allGroups.foldl (fun s g => s.freeAccs g) s
  let over_ (g : Group) : Bool := g.gone && g.ops.all (·.fin)
  let s : State := { s with cur := if over_ s.cur then {} else s.cur, groups := s.groups.filter fun g => !over_ g }
  let left (w : Workgroup) : Bool := s.allGroups.any (fun g => g.wg = w.key && !g.gone) || w.handles.toList.any fun h => h.st ≠ .free || h.prog.isSome
  { s with wgs := s.wgs.filter left }

/-- The groups of a launch that are still there, saved or ended with open operations included. -/
def State.groupsOf (s : State) (key : Nat) : List Group := (s.allGroups ++ s.savedGroups).filter fun g => g.launch = key

/-- LAUNCH_COMPLETE: every group of a launch has ended and its operations are complete; or a completion step that waited goes on (R355, R395). -/
def execLaunchComplete (key : Nat) (s : State) : Out :=
  let s := s.reap
  match s.launch? key with
  | none => .next s
  | some l =>
    match l.stage with
    | .finish _ =>
      let held := (s.vf l.vf).withheld.any fun w => w.2 = .launchSteps key
      .next (if held then s else s.finishSteps key 3)
    | .run =>
      let done_ : Bool := (s.groupsOf key).isEmpty && (s.gangs.all fun g => g.launch ≠ key || g.st = .ended) && (l.faulted || decide (l.rec_.gangs ≤ l.next))
      .next (if done_ then s.completeLaunch key (if l.faulted then 2 else 1) else s)
    | _ => .next s

/-! ### Taking records (R349, R351, R353, R354) -/

/-- A launch is refused (R353). -/
def State.refuse (s : State) (key : Nat) : State := s.completeLaunch key 3

/-- Read and check the kernel header of a launch whose record is in order, or wait for its page (R353). -/
def State.readKernel (s : State) (key : Nat) : State :=
  match s.launch? key with
  | none => s
  | some l =>
    if l.stage ≠ .header then s
    else match s.reach l.vf l.rec_.kbase.toNat .read (.header key) (fun a => a.r || a.x) with
      | .wait s => s
      | .fail s => s.refuse key
      | .ok s loc =>
        if s.engPoisoned loc then ((s.logLost (64 * (Loc.pa loc / 64))).logError (s.vf l.vf).slice 0x01 0xFF l.vf 0 (64 * (Loc.pa loc / 64)) l.id).refuse key
        else
          let b := s.homeRead loc 64
          let h := KHeader.of b
          let s := s.noteRead l.vf 0 {} l.rec_.kbase.toNat loc 64
          if h.ok b then s.updLaunch key fun l => { l with hdr := h, stage := .run, depOk := l.rec_.depaddr = 0 } else s.refuse key

/-- Read a launch's dependence, unless it is satisfied already (R354). -/
def State.checkDep (s : State) (key : Nat) : State :=
  match s.launch? key with
  | none => s
  | some l =>
    if l.depOk || l.stage ≠ .run then s
    else
      let va := l.rec_.depaddr.toNat
      match s.reach l.vf va .read (.dep key) (·.r) with
      | .wait s => s
      | .fail s => s.refuse key
      | .ok s loc =>
        if s.engPoisoned loc then ((s.logLost (64 * (Loc.pa loc / 64))).logError (s.vf l.vf).slice 0x01 0xFF l.vf 0 (64 * (Loc.pa loc / 64)) l.id).refuse key
        else
          let v := natLE (s.homeRead loc 8)
          (s.noteRead l.vf 0 {} va loc 8).updLaunch key fun l => { l with depOk := decide (l.rec_.depval.toNat ≤ v) }

/-- A launch identifier (R351). -/
def launchIdOf (vf q taken : Nat) : Word64 := BitVec.ofNat 64 (2 ^ 58 * vf + 2 ^ 54 * q + taken % 2 ^ 54)

/-- QHEAD and the count of taken records advance. -/
def State.advanceHead (s : State) (vf q : Nat) : State := s.updQueue vf q fun x => { x with head := x.head + 1, taken := x.taken + 1 }

/-- A slot that cannot be read is taken without its contents (R349). -/
def State.takeBare (s : State) (vf q va : Nat) (cause : Cause) : State :=
  let id := launchIdOf vf q (s.queue vf q).taken
  let s := (s.advanceHead vf q).updVf vf fun v =>
    { v with flaunch := id, finfo := BitVec.ofNat 64 (2 ^ 32 * cause.code.toNat), faddr := BitVec.ofNat 64 va, lflt := true }
  s.logError (s.vf vf).slice 0x08 0xFF vf 0 0 id

/-- A record is taken: the launch exists, its record and its header are checked, its dependence is read (R349 to R354). -/
def State.takeSlot (s : State) (vf q : Nat) (b : List Byte) : State :=
  let qu := s.queue vf q
  let r := LRecord.of b
  let key := s.nextKey
  let l : Launch := { key, vf, queue := q, id := launchIdOf vf q qu.taken, rec_ := r, background := qu.bg || r.deadline = allOnes64 }
  let s := s.advanceHead vf q
  let s : State := { s with nextKey := key + 1, launches := s.launches ++ [l] }
  if r.ok then (s.readKernel key).checkDep key else s.refuse key
where
  allOnes64 : Word64 := 0xFFFFFFFFFFFFFFFF

/-- The lantern of a slice works: it is not held, not being reset, and its state is not corrupt (R385, R397, R398). -/
def State.lanternOn (s : State) (gr : Nat) : Bool := (s.gran gr).num ≠ 0 && !(s.gran gr).hold && !(s.gran gr).resetting && !(s.gran gr).stuck

/-- A function is bound to a slice. -/
def State.boundTo (s : State) (vf gr : Nat) : Bool := (s.vf vf).bound && (s.vf vf).slice = gr

/-- TAKE_RECORD: the lantern takes the oldest record of a queue, if it may (R349). -/
def execTakeRecord (gr vf q : Nat) (s : State) : Out :=
  let qu := s.queue vf q
  if !s.lanternOn gr || !s.boundTo vf gr || decide (16 ≤ q) || !qu.enabled || qu.held = 0 then .next s
  else
    let va := qu.slotAt qu.head.toNat
    match s.reach vf va .read (.slotRead vf q) (·.r) with
    | .wait s => .next s
    | .fail s => .next (s.takeBare vf q va .perm)
    | .ok s loc =>
      match [loc, loc + 64].find? s.engPoisoned with
      | some p => .next (((s.logLost (64 * (Loc.pa p / 64))).logError (s.vf vf).slice 0x01 0xFF vf 0 (64 * (Loc.pa p / 64))).takeBare vf q va .poison)
      | none =>
        let s := (s.noteRead vf 0 {} va loc 64).noteRead vf 0 {} (va + 64) (loc + 64) 64
        .next (s.takeSlot vf q (s.homeRead loc 64 ++ s.homeRead (loc + 64) 64))

/-- DEPENDENCE_RECHECK: the lantern of a slice reads the dependences, and the headers still to be read, again (R353, R354). -/
def execDependenceRecheck (gr : Nat) (s : State) : Out :=
  .next ((s.launches.filter fun l => s.boundTo l.vf gr).foldl (fun s l => (s.readKernel l.key).checkDep l.key) s)

/-- QTAIL_WRITE: the host publishes records of a queue that it fills; a write that would overfill it is ignored and noted, one to a queue that the device
fills is ignored (R9, R347, R349). -/
def execQtailWrite (vf q : Nat) (v : Word32) (s : State) : Out :=
  let qu := s.queue vf q
  if decide (16 ≤ q) || qu.dev then .next s
  else if decide (2 ^ (qu.cfg.extractLsb' 0 5).toNat < (v - qu.head).toNat) then .next (s.updVf vf fun f => { f with rws := true })
  else .next (s.updQueue vf q fun x => { x with tail := v })

end Sys2Proof.Machine
end

