-- ==== Sys2Proof/Machine/Incoming.lean ====
section
/-!
DEFINITION. Accesses of the host and of peers through a function's memory window, and a port's atomic-engine queue (R318, R335, R433, R434).
-/
set_option Elab.async false
namespace Sys2Proof.Machine
open Sys2Proof

/-- Answer a request that arrived over a link: 0 success, 1 Unsupported Request, 4 Completer Abort (R430). -/
def State.sendReply (s : State) (k tag status : Nat) (data : List Byte) (kind : TlpKind := .completion) : State :=
  s.updLink k fun l => { l with replies := l.replies ++ [(tag, status, data)] }.send 2
    { link := k, kind, tag, status, data, value := BitVec.ofNat 64 (natLE data), len := data.length }

/-- What answers an incoming access: a completion, or a reply message for an atomic-request message (R430, R434). -/
def Incoming.answer (a : Incoming) : TlpKind := if a.kind = 3 then .reply else .completion

/-- An incoming access is refused: a write is dropped, another one receives Completer Abort, and either is logged, with the host-physical line or entry
concerned, if any (R400, R433). -/
def State.refuseIncoming (s : State) (a : Incoming) (line : Nat) : State :=
  let s := s.logError 0 0x09 0xFF a.vf 0 line
  if a.kind = 0 then s else s.sendReply a.port.link a.port.tag 4 [] a.answer

/-- How an incoming access accesses memory, and how many bytes. -/
def Incoming.access (a : Incoming) : AccKind := match a.kind with | 0 => .write | 1 => .read | _ => .atomic
def Incoming.bytes (a : Incoming) : Nat := match a.kind with | 0 => a.port.data.length | 1 => a.port.len | _ => tyBytes a.port.ty

/-- Perform an incoming access under its function's translation, as a store, a load or an atomic of the function (R318, R335). It answers false when the
access has asked for a page and waits. Its watch events are a read, a host or peer write, or an atomic (R415). -/
def State.performIncoming (s : State) (a : Incoming) : State × Bool :=
  let va := (s.vf a.vf).winva.toNat + a.port.addr
  let run := [(va, a.bytes)]
  match s.engineMap a.vf (.incoming a.tag) a.access run with
  | .wait s => (s, false)
  | .perm s line => (s.refuseIncoming a (line.getD 0), true)
  | .ok s pages =>
    if a.kind = 0 then
      ((linePieces va a.bytes).foldl (fun s p =>
        (s.write a.vf p.1 (pageLoc pages p.1) ((a.port.data.drop (p.1 - va)).take p.2)).watch a.vf p.1 (pageLoc pages p.1) p.2 5 {}) s, true)
    else match s.poisonIn pages run with
      | some ln => ((s.logError (s.vf a.vf).slice 0x01 0xFF a.vf 0 (64 * ln)).refuseIncoming a (64 * ln), true)
      | none =>
        if a.kind = 1 then
          let data := (linePieces va a.bytes).flatMap fun p => s.homeRead (pageLoc pages p.1) p.2
          let s := s.noteReads a.vf 0 {} pages run
          (s.sendReply a.port.link a.port.tag 0 data, true)
        else if va % a.bytes ≠ 0 then (s.refuseIncoming a 0, true)
        else
          let loc := pageLoc pages va
          let (s, old) := s.atomAt a.vf a.port.op a.port.ty { lane := 0, va, pa := loc, b := a.port.opB, c := a.port.opC } {}
          ((s.watch a.vf va loc a.bytes 2 {}).sendReply a.port.link a.port.tag 0 (bytesLE a.bytes old) a.answer, true)

/-! ### What waits behind what (R318, R433, R434) -/

/-- The function that an access is for: 0 the physical one, `n + 1` virtual function `n`. -/
def Incoming.fn (a : Incoming) : Nat := if a.kind ≤ 3 then a.vf + 1 else a.port.fn

/-- The later access `b` waits behind `a`: both are of one requester to one function, or both are its writes, to whatever function; but a write with Relaxed
Ordering waits behind no write; or both stand in the atomic-engine queue of one link (R318, R427, R433, R434; log entry 78). -/
def Incoming.before (a b : Incoming) : Bool :=
  a.port.link = b.port.link &&
  ((a.kind = 3 && b.kind = 3) ||
   (a.port.requester = b.port.requester && (if a.kind = 0 && b.kind = 0 then !b.port.ro else a.fn = b.fn)))

/-- Every access that waits. -/
def State.waiters (s : State) : List Incoming := s.incoming ++ s.links.toList.flatMap (·.aq)

/-- An earlier access stands before this one. -/
def State.behind (s : State) (b : Incoming) : Bool := s.waiters.any fun a => decide (a.tag < b.tag) && a.before b

/-- An access waits no longer. -/
def State.leave (s : State) (tag : Nat) : State :=
  { s with incoming := s.incoming.filter (fun c => c.tag ≠ tag),
           links := s.links.map fun l => { l with aq := l.aq.filter fun c => c.tag ≠ tag } }

/-- Perform an access whose turn it is, or let it wait for its page. -/
def State.tryIncoming (s : State) (a : Incoming) : State :=
  match (s.leave a.tag).performIncoming a with
  | (t, true) => t
  | (t, false) => { t with incoming := t.incoming ++ [{ a with asked := true }] }

/-- Window accesses and atomic-request messages that nothing stands before any more go on, in the order of arrival (R433, R434). -/
def State.drainIncoming (s : State) : Nat → State
  | 0 => s
  | n + 1 =>
    match s.waiters.find? (fun a => !a.asked && decide (a.kind ≤ 3) && !s.behind a) with
    | none => s
    | some a => (s.tryIncoming a).drainIncoming n

/-- An access arrives through a window (R433). -/
def State.arriveIncoming (s : State) (kind : Nat) (p : Port) : State :=
  let a : Incoming := { tag := s.nextKey, vf := p.vf, port := p, kind, asked := false }
  let s : State := { s with nextKey := s.nextKey + 1 }
  if s.behind a then { s with incoming := s.incoming ++ [a] } else s.tryIncoming a

/-- A request enters a port's atomic-engine queue; one at its head is performed (R434). -/
def State.arriveMessage (s : State) (p : Port) : State :=
  let a : Incoming := { tag := s.nextKey, vf := p.vf, port := p, kind := 3, asked := false }
  let s : State := { s with nextKey := s.nextKey + 1 }
  if s.behind a then s.updLink p.link fun l => { l with aq := l.aq ++ [a] } else s.tryIncoming a

/-- The requests that a port's atomic-engine queue holds (R434). -/
def State.queued (s : State) (k : Nat) : Nat := (s.waiters.filter fun a => a.kind = 3 && a.port.link = k).length

/-- The page request of an access is answered: with RETRY it looks again, with FAIL, or when its time is over, it is refused (R344, R433). -/
def State.answerIncoming (s : State) (tag : Nat) (fail : Bool) : State :=
  match s.incoming.find? (fun a => a.tag = tag && a.asked) with
  | none => s
  | some a =>
    let s := if fail then (s.leave tag).refuseIncoming a 0 else s.tryIncoming a
    s.drainIncoming s.waiters.length

end Sys2Proof.Machine
end

