-- ==== Sys2Proof/Machine/Caches.lean ====
section
/-!
DEFINITION. Operations of the STORE path performed, line fills and writebacks, invalidations, migration engines, and the answers to page requests
(R170, R323 to R344).
-/
set_option Elab.async false
namespace Sys2Proof.Machine
open Sys2Proof

/-! ### The STORE path (R170) -/

/-- The lanes of a store are performed, in lane order (R160, R161). -/
def State.storeLanes (s : State) (g : Group) (o : Op) (accs : List LaneAcc) (data : List (List Byte)) : State :=
  (accs.zip data).foldl (fun s p =>
    (linePieces p.1.va p.2.length).foldl (fun s q =>
      let off := q.1 - p.1.va
      let s := (s.write g.vf q.1 (p.1.pa + off) ((p.2.drop off).take q.2) (g.writer o.seq)).watch g.vf q.1 (p.1.pa + off) q.2 1 (g.agent o.pc o.seq)
      if p.1.ev then s.markEv (p.1.pa + off) else s) s) s

/-- The lanes of a tile store are performed, in lane order (R163). -/
def State.storeTile (s : State) (wg h : Nat) (accs : List LaneAcc) (data : List (List Byte)) : State :=
  s.updHandle wg h fun t => (accs.zip data).foldl (fun t p => t.writeN p.1.pa p.2) t

/-- The older STORE-path operations of the group are complete (R219, R297). -/
def Group.olderStored (g : Group) (o : Op) : Bool := g.ops.all fun p => p.fin || p.path ≠ some .store || decide (o.seq ≤ p.seq)

/-- What an operation of the STORE path does when it is performed; none when it may not be performed yet. -/
def State.storeEffect (s : State) (g : Group) (o : Op) : Option State :=
  match o.kind with
  | .null => some s
  | .store accs data _ => some (s.storeLanes g o accs data)
  | .tstore accs wg h data => some (s.storeTile wg h accs data)
  | .range first count inval l1Only => some (s.rangePerformed g first count inval l1Only)
  | .launch record q va pa => if s.launchReady g o q then some (s.launchAccept g o record q va pa) else none
  | .wreg id set => if g.olderStored o then some (s.setRegion g.vf id set) else none
  | .mark va rect => if g.olderStored o then some (s.applyMark g va rect) else none
  | _ => none

/-- STORE_PERFORMED: an operation of the STORE path is performed, if it may be, and the counter falls; the core sees it and its group's older stores (R170,
R310). -/
def execStorePerformed (gid op : Nat) (s : State) : Out :=
  match s.group? gid with
  | none => .next s
  | some g =>
    match g.op? op with
    | none => .next s
    | some o =>
      if o.fin || s.away gid || !s.ready g o then .next s
      else match (s.show g o).storeEffect g o with
        | some s => .next (s.updGroup gid fun g => g.finishOp op)
        | none => .next s

/-! ### Lines (R323, R331, R334, R338) -/

/-- LINE_FILL: the L2 takes a line, if it may (R323, R331, R334, R338, R345). -/
def execLineFill (vf line : Nat) (s : State) : Out := if 64 ≤ vf || 2 ^ 51 ≤ line then .next s else .next (s.fillL2 vf line false)

/-! ### Invalidation (R332) -/

/-- The bytes of a captured page. -/
def PageMap.held (p : PageMap) : Nat × Nat × Nat := (65536 * p.vpage, 65536, p.ppage)

/-- The bytes that an operation in flight has translated: address, length, and location of the first. -/
def OpKind.held : OpKind → List (Nat × Nat × Nat)
  | .load accs size cnt _ _ _ => accs.map fun a => (a.va, size * cnt, a.pa)
  | .store accs data _ => (accs.zip data).map fun p => (p.1.va, p.2.length, p.1.pa)
  | .atomic lanes _ ty _ _ _ => (lanes.filter (!·.fin)).map fun a => (a.va, tyBytes ty, a.pa)
  | .ratom lanes _ ty recs => (lanes.map fun a => (a.va, tyBytes ty, a.pa)) ++ recs.map fun a => (a.va, 16, a.pa)
  | .rpoll _ recs _ => recs.map fun a => (a.va, 16, a.pa)
  | .launch _ _ va pa => [(va, 128, pa)]
  | .copy c => c.pages.map PageMap.held
  | .arrive (.glob _ va pa) _ _ => [(va, 64, pa)]
  | .mma m => m.pages.map PageMap.held
  | .pass _ va pa | .delta _ va pa | .dlr _ va pa _ _ => [(va, 64, pa)]
  | .filter _ _ _ _ _ pages => pages.map PageMap.held
  | .scatter adds => (adds.filter (!·.fin)).flatMap fun a => (a.va, 8, a.pa) :: a.headers.map fun h => (h.1, 64, h.2)
  | .ray _ lanes _ => (lanes.filter (!·.fin)).map fun l => (l.recVa, 512, l.recPa)
  | _ => []

/-- The bytes that a withheld completion will write. -/
def Withheld.held : Withheld → List (Nat × Nat × Nat)
  | .reply va pa data _ _ | .status va pa data _ => [(va, data.length, pa)]
  | _ => []

/-- The accesses of a function that have been accepted and are not complete: those of operations in flight, accepted draws, open frames, running passes
and withheld completions (R332). -/
def State.accepted (s : State) (vf : Nat) : List (Nat × Nat × Nat) :=
  ((s.allGroups ++ s.savedGroups).filter (·.vf = vf)).flatMap (fun g => (g.ops.filter (!·.fin)).flatMap (·.kind.held)) ++
  s.grans.toList.flatMap (fun k => ((k.draws.filter (·.vf = vf)).map fun d => (d.va, 64, d.pa)) ++
    (k.streams.toList.flatMap (·.frames) |>.filter (·.vf = vf)).map fun f => (f.va, 128, f.pa)) ++
  s.clusters.toList.flatMap (fun k => match k.run with
    | some r => if r.vf = vf then r.writes.map fun w => (w.1, w.2.2.length, w.2.1) else []
    | none => []) ++
  (s.vf vf).withheld.flatMap fun w => w.2.held

/-- The 64 KiB pages of a range that starts at page `first`; a count of 0 takes the function's whole space (R332). -/
def inPages (first count page : Nat) : Bool := count = 0 || (decide (first ≤ page) && decide (page < first + count))

/-- The invalidation register of a stage (R332). -/
def VFun.inval (v : VFun) (stage2 : Bool) : Inval := if stage2 then v.inv2 else v.inv1
def VFun.setInval (v : VFun) (stage2 : Bool) (i : Inval) : VFun := if stage2 then { v with inv2 := i } else { v with inv1 := i }

/-- An accepted access of the function that translated into the range is open (R332). -/
def State.invalBusy (s : State) (vf : Nat) (stage2 : Bool) (first count : Nat) : Bool :=
  (s.accepted vf).any fun a => count = 0 ||
    (if stage2 then inPages first count (Loc.gpage a.2.2) else decide (65536 * first < a.1 + a.2.1) && decide (a.1 < 65536 * (first + count)))

/-- XINVC_GO: a write of XINVC sets PAGES and STG, and with GO starts an invalidation of the range as it then stands, unless one runs; `stage2` names the
physical function's copy, whose STG says which stage (R9, R332). -/
def execXinvcGo (vf : Nat) (stage2 : Bool) (v : Word64) (s : State) : Out :=
  let i := (s.vf vf).inval stage2
  let i : Inval := { i with pages := v.extractLsb' 32 32, stg := stage2 && v.getLsbD 1 }
  .next (s.updVf vf fun f => f.setInval stage2
    (if i.done && v.getLsbD 0 then { i with done := false, job := (i.addr.toNat / 65536, i.pages.toNat, i.stg) } else i))

/-- INVALIDATION_COMPLETE: once no accepted access of the range is open, its lines are written back and dropped from the L2 and every L1, with the
walk-cache entries, the watch masks and the mixed states of its pages, and DONE is set (R332). -/
def execInvalidationComplete (vf : Nat) (stage2 : Bool) (s : State) : Out :=
  let i := (s.vf vf).inval stage2
  let (first, n, two) := i.job
  if i.done || s.invalBusy vf two first n then .next s
  else
    let s := s.flushLines fun l => l.vf = vf && inPages first n (if two then l.attr.gpage else l.line / 1024)
    let s := s.dropL1s fun e => e.vf = vf && inPages first n (if two then e.attr.gpage else e.line / 1024)
    let gone (w : Walked) : Bool := w.vf = vf && inPages first n (if two then w.gpage else w.vpage)
    let out := s.walked.filter gone
    let covers (w : WalkEnt) : Bool :=
      let lo := w.ix * 2 ^ (13 * w.level)
      n = 0 || (decide (lo < first + n) && decide (first < lo + 2 ^ (13 * w.level)))
    let s : State :=
      { s with
        walks := s.walks.filter (fun w => !(w.vf = vf && w.stage2 = two && covers w))
        masks := s.masks.filter (fun m => !(m.vf = vf && inPages first n (if two then m.gpage else m.line / 1024)))
        mixed := s.mixed.filter (fun m => !out.any fun w => w.page = m.1 || (m.2 && w.page / 8192 = m.1 / 8192))
        walked := s.walked.filter (fun w => !gone w) }
    .next (s.updVf vf fun f => f.setInval stage2 { i with done := true })

/-! ### Migration (R339 to R341) -/

def State.mig (s : State) (d : Nat) : Migration := tget s.migs d {}
def State.setMig (s : State) (d : Nat) (m : Migration) : State := { s with migs := tset s.migs d m }

/-- A range of pages lies wholly in device memory. -/
def wholeDevice (a pages : Nat) : Bool := (List.range pages).all fun k => isDevice (a + 65536 * k)

/-- A request that a migration engine takes (R339). -/
def Migration.ok (m : Migration) : Bool :=
  let a := m.src.toNat
  let b := m.dst.toNat
  let n := 65536 * m.pages
  m.pages ≠ 0 && a % 65536 = 0 && b % 65536 = 0 && m.rep.toNat % 64 = 0 && (decide (a + n ≤ b) || decide (b + n ≤ a)) &&
  wholeDevice a m.pages && wholeDevice b m.pages

/-- MGCTL_GO: a write of MGCTL sets PAGES and META, and with GO starts a copy that is in order, as the registers then stand, unless one runs (R9, R339). -/
def execMgctlGo (d : Nat) (v : Word64) (s : State) : Out :=
  let m := s.mig d
  let m : Migration := { m with pages := (v.extractLsb' 32 16).toNat, meta_ := v.getLsbD 1 }
  .next (s.setMig d (
    if m.stat = 1 || !v.getLsbD 0 then m
    else if m.ok then { m with stat := 1, job := (m.src.toNat, m.dst.toNat, m.rep.toNat, m.pages, m.meta_) } else { m with stat := 3 }))

/-- Copy one line of stored bytes, poison with it: the line has been written back first, and no other alias of the destination stays cached (R340, R341). -/
def State.migrateLine (s : State) (src dst : Nat) : State × Bool :=
  let s := s.flushLines fun l => l.pa = src / 64 || l.pa = dst / 64
  let bad := s.poison.contains (src / 64)
  let s : State := { s with mem := Memory.writeN s.mem dst (Memory.readN s.mem src 64), poison := s.poison.filter (· ≠ dst / 64) }
  ({ s with poison := if bad then dst / 64 :: s.poison else s.poison }, bad)

/-- The report of a migration of `pages` pages from `src` (R341). -/
def migReport (src pages : Nat) (bad : List Nat) : List Byte :=
  let flag (k : Nat) : Nat := ((List.range 8).map fun b => if bad.any (fun i => i / 1024 = 8 * k + b) then 2 ^ b else 0).sum
  bytesLE 4 pages ++ bytesLE 4 bad.length ++ List.replicate 56 (0 : Byte) ++
  ((List.range 1024).flatMap fun k => bytesLE 8 (match bad[k]? with | some i => src + 64 * i | none => 0)) ++
  ((List.range ((pages + 7) / 8)).map fun k => BitVec.ofNat 8 (flag k))

/-- MIGRATION_COMPLETE: the lines are copied in ascending order, the metadata with META, and the report and STAT are written (R340, R341). The copy stands as
one step here: a write to a source line comes before it or after it, which R340 allows. -/
def execMigrationComplete (d : Nat) (s : State) : Out :=
  let m := s.mig d
  if m.stat ≠ 1 then .next s
  else
    let (src, dst, rep, pages, md) := m.job
    let go (acc : State × List Nat) (i : Nat) : State × List Nat :=
      match acc.1.migrateLine (src + 64 * i) (dst + 64 * i) with
      | (s, true) => (s, acc.2 ++ [i])
      | (s, false) => (s, acc.2)
    let (s, bad) := (List.range (1024 * pages)).foldl go (s, [])
    let s := bad.foldl (fun s i => s.logError 0 0x01 0xFF 0xFF 0 (src + 64 * i)) s
    let s : State := if md then
        { s with mem := Memory.writeN s.mem (s.cmbase.toNat + dst / 1024) (Memory.readN s.mem (s.cmbase.toNat + src / 1024) (64 * pages)) }
      else s
    let s : State := { s with mem := Memory.writeN s.mem rep (migReport src pages bad) }
    .next (s.setMig d { m with stat := 2 })

/-! ### Answers to page requests (R342 to R344) -/

/-- PRQPOP: the oldest record not yet taken is taken; what the read returns stands in the port's data (R343). -/
def execPrqpop (vf : Nat) (stage2 : Bool) (s : State) : Out :=
  let mine (r : PageReq) : Bool := r.vf = vf && r.stage2 = stage2 && !r.taken
  match s.prq.find? mine with
  | none => .next { s with port := { s.port with data := List.replicate 16 0 } }
  | some r =>
    let kind := match r.kind with | .read => 0 | .write => 1 | .execute => 2 | .atomic => 3
    let w : Nat := kind + 8 * b2n stage2 + 65536 * r.page + 2 ^ 64 * r.tag + 2 ^ 80
    .next { s with prq := s.prq.map (fun q => if q.tag = r.tag then { q with taken := true } else q),
                   port := { s.port with data := bytesLE 16 w } }

/-- Entries have freed: waiting requests take them in order of arrival (R342). -/
def State.refill (s : State) : State :=
  let ws := s.prqWait
  ws.foldl (fun s w => match s.placeRequest w.1 w.2.1 w.2.2.1 w.2.2.2.1 w.2.2.2.2 with
    | some s => s
    | none => { s with prqWait := s.prqWait ++ [w] }) { s with prqWait := [] }

/-- Whether a lane of a ray operation waits no longer. -/
def OpKind.rayGo (ln : Nat) : OpKind → OpKind
  | .ray k lanes f => .ray k (lanes.map fun l => if l.lane = ln then { l with waiting := false } else l) f
  | k => k

/-- A requester resumes (R344): with `fail` it finds the failure. Groups issue again; engines and the lantern look again. -/
def State.resumeReq (s : State) (fail : Bool) (who : Requester) : State :=
  let note (s : State) : State := if fail then { s with prqFailed := s.prqFailed ++ [who] } else s
  match who with
  | .group gid =>
    match s.group? gid with
    | none => s
    | some g =>
      match g.pageWait with
      | none => s
      | some t =>
        let s := s.updGroup gid fun g => { g with pageWait := none }
        if fail then s.raise gid t else s
  | .pass cl => note (s.updCluster cl fun k => { k with run := k.run.map fun r => { r with waiting := false } })
  | .rayLane gid op ln => note (s.updGroup gid fun g => g.updOp op fun o => { o with kind := o.kind.rayGo ln })
  | .rast gr => note (s.updGran gr fun g => { g with draws := match g.draws with | d :: r => { d with waiting := false } :: r | [] => [] })
  | .enc gr n => note (s.updHead gr n fun f => { f with waiting := false })
  | .incoming tag => s.answerIncoming tag fail
  | .slotRead .. => note s
  | .header l => ((note s).readKernel l).checkDep l
  | .dep l => (note s).checkDep l
  | .compl l => (note s).finishSteps l 3

/-- An answer frees its entry, and its requesters resume in the order of attachment; an answer that names no outstanding entry is ignored (R343, R344). -/
def State.answer (s : State) (vf : Nat) (stage2 fail : Bool) (tag : Nat) : State :=
  match s.prq.find? (fun r => r.tag = tag && r.vf = vf && r.stage2 = stage2) with
  | none => s
  | some r =>
    let t : State := { s with prq := s.prq.filter fun q => q.tag ≠ tag }
    (r.who.foldl (fun (s : State) w => s.resumeReq fail w) t).refill

/-- PRQRSP with RETRY. -/
def execPrqrspRetry (vf : Nat) (stage2 : Bool) (tag : Nat) (s : State) : Out := .next (s.answer vf stage2 false tag)
/-- PRQRSP with FAIL. -/
def execPrqrspFail (vf : Nat) (stage2 : Bool) (tag : Nat) (s : State) : Out := .next (s.answer vf stage2 true tag)

end Sys2Proof.Machine
end

