-- ==== Sys2Proof/Machine/Save.lean ====
section
/-!
DEFINITION. The end of a group, the boundaries at which a requested group stops, and the save and the restore of gangs (R44 to R46, R109, R364, R369 to
R376).
-/
set_option Elab.async false
namespace Sys2Proof.Machine
open Sys2Proof

/-! ### Layout of the save area (R44, R45, R364) -/

/-- Offsets in a group block of the predicate, vector and accumulator parts, and its size (R44). -/
def blockP (ns : Nat) : Nat := 0x1500 + 8 * ns
def blockV (ns np : Nat) : Nat := roundUp (blockP ns + 4 * np) 256
def blockA (ns np nv : Nat) : Nat := blockV ns np + 256 * nv
def blockSize (ns np nv na : Nat) : Nat := roundUp (blockA ns np nv + 16384 * na) 4096

/-- Declared register counts of a kernel (R25, R40). -/
def KHeader.nv (h : KHeader) : Nat := 8 * h.vgran
def KHeader.ns (h : KHeader) : Nat := 8 * h.sgran
def KHeader.np (h : KHeader) : Nat := 16 * h.pgran
/-- GB of R364. -/
def KHeader.gb (h : KHeader) : Nat := blockSize h.ns h.np h.nv h.accs
/-- Bytes of the tile image of a gang slot: T of R364. -/
def KHeader.tileBytes (h : KHeader) : Nat := if h.tiles = 0 then 0 else h.gang * 196608 + 786432
/-- A, B, C and GS of R364. -/
def KHeader.offA (h : KHeader) : Nat := roundUp (1024 * h.gang) 4096
def KHeader.offB (h : KHeader) : Nat := h.offA + h.tileBytes
def KHeader.offC (h : KHeader) : Nat := h.offB + h.gang * h.wgroups * h.gb
def KHeader.gs (h : KHeader) : Nat := h.offC + h.gang * h.wgroups * 40960

/-- Where gang slot `k` of a launch begins. -/
def Launch.slotBase (l : Launch) (k : Nat) : Nat := (l.rec_.saveb.toNat + k * l.hdr.gs) % 2 ^ 64
def Launch.wgBlock (l : Launch) (k w : Nat) : Nat := l.slotBase k + 1024 * w
def Launch.tileImage (l : Launch) (k : Nat) : Nat := l.slotBase k + l.hdr.offA
/-- The block and the pending image of group `i` of workgroup `w`. -/
def Launch.groupBlock (l : Launch) (k w i : Nat) : Nat := (l.slotBase k + l.hdr.offB + (w * l.hdr.wgroups + i) * l.hdr.gb) % 2 ^ 64
def Launch.pendImage (l : Launch) (k w i : Nat) : Nat := l.slotBase k + l.hdr.offC + (w * l.hdr.wgroups + i) * 40960

/-! ### Bytes of the save area (log entry 16) -/

/-- Write bytes of a save area under the function's translation; a line that does not translate for writing is passed over. -/
def State.blockPut (s : State) (vf va : Nat) (data : List Byte) (ag : Agent) : State :=
  (linePieces va data.length).foldl (fun s p => s.coreWrite vf p.1 ((data.drop (p.1 - va)).take p.2) {} ag) s

/-- Read bytes of a save area: none for a byte whose line does not translate for reading. -/
def State.blockGet (s : State) (vf va n : Nat) : List (Option Byte) :=
  (linePieces va n).flatMap fun p =>
    if 2 ^ 57 ≤ p.1 then List.replicate p.2 none
    else match s.translate vf p.1 with
      | (s, .ok loc a) => if a.r then (s.homeRead loc p.2).map some else List.replicate p.2 none
      | _ => List.replicate p.2 none

/-- The bytes of a save area, and where one cannot be read the byte that `d` gives. -/
def State.blockRead (s : State) (vf va : Nat) (d : List Byte) : List Byte :=
  (s.blockGet vf va d.length).zip d |>.map fun p => p.1.getD p.2

/-- What reads of runs of a save area do beside reading them (R331, R346). -/
def State.blockNote (s : State) (vf : Nat) (runs : List (Nat × Nat)) (ag : Agent) : State :=
  runs.foldl (fun s r => (linePieces r.1 r.2).foldl (fun s p => s.coreNote vf p.1 p.2 ag) s) s

/-! ### The end of a group (R109) -/

/-- A workgroup's last group has ended: its handles are freed and its place, weight and table entries go back (R109, R177, R319, R405). -/
def State.endWg (s : State) (key : Nat) : State :=
  match s.wg? key with
  | none => s
  | some w =>
    let s := (s.updWg key fun w => { w.freeAll with ntiles := 0, weight := 0 }).updCluster w.cluster fun k => { k with weight := k.weight - w.weight }
    s.wakeWaiters (fun b => match b with | .tile k _ => k = key | _ => false) 0xFFFF 0

/-- A gang whose groups have all ended is over. -/
def State.endGang (s : State) (key : Nat) : State :=
  match s.gang? key with
  | none => s
  | some g => { s with gangs := s.gangs.filter fun g => g.key ≠ key }.updLaunch g.launch fun l => { l with gangsEnded := l.gangsEnded + 1 }

/-- A quadrant without a resident group becomes idle (R410). -/
def State.quadIdle (s : State) (core gslot : Nat) : State :=
  if s.allGroups.any fun h => !h.gone && h.coreIx = core && h.gslot / 16 = gslot / 16 then s else s.idle (quadUnit core gslot)

/-- A group ends: it gives back its place, counts as arrived at every barrier of its sets, as the last arriver where that completes a generation, and
ends its workgroup and its gang with the last (R109, R114, R416). -/
def State.endGroup (s : State) (g : Group) : State :=
  let s := s.updGroup g.id fun g => { g with ended := true, gone := true, stop := none, stopped := none, halt := none, waitg := 0, pend := [], polls := [],
                                             pendTrap := none, pageWait := none, raySusp := [] }
  let s := (s.quadIdle g.coreIx g.gslot).rayIdle g.cluster
  let s := (s.syncCheck false g.wg (some { g with syncPc := g.me.pc })).syncCheck true g.gang (some { g with syncPc := g.me.pc })
  let left (p : Group → Bool) : Bool := (s.allGroups ++ s.savedGroups).any fun h => p h && !h.gone
  let s := if left (fun h => h.wg = g.wg) then s else s.endWg g.wg
  if left (fun h => h.gang = g.gang) then s else s.endGang g.gang

/-- GROUP_END: a group without live lanes ends once its LOAD, COPY, FILT and RAY counters are zero (R109). -/
def execGroupEnd (gid : Nat) (s : State) : Out :=
  match s.group? gid with
  | none => .next s
  | some g =>
    if !g.ended || g.gone || s.away gid || g.counter .load ≠ 0 || g.counter .copy ≠ 0 || g.counter .filt ≠ 0 || g.counter .ray ≠ 0 then .next s
    else .next ((s.endGroup g).reap)

/-! ### Boundaries and stops (R370, R376, R395) -/

/-- Where a group with a request stands: `some false` at a boundary for a short save, `some true` for a full one (R370). A group that waits at a commit
park, or with a trap to be delivered, is at no boundary (R376). -/
def Group.boundary (g : Group) : Option Bool :=
  if g.slot0.parking || g.slot1.parking || g.pendTrap.isSome then none
  else if g.reconverged then some false
  else if g.yielded || g.grace then some true
  else none

/-- A group with a stop request stops if it is at a boundary for it; a group of a faulted launch ends (R370, R395). -/
def State.tryStop (s : State) (gid : Nat) : State :=
  s.updGroup gid fun g =>
    match g.stop with
    | none => g
    | some .endGroup => if g.gone then g else { g with ended := true, stop := none, stopped := none, halt := none, pendTrap := none, pageWait := none }
    | some .save =>
      if g.ended || g.gone || g.stopped.isSome then g
      else match g.boundary with
        | some full => { g with stopped := some full }
        | none => g

/-- A pre-emption request reaches every group of a gang (R369). -/
def State.askSave (s : State) (gang : Nat) : State :=
  s.mapGroups fun g => if g.gang = gang && !g.gone && !g.ended && g.stop.isNone && g.stopped.isNone then { g with stop := some .save, grace := false } else g

/-- GRACE_EXPIRY: a group's grace window ends (R370). -/
def execGraceExpiry (gid : Nat) (s : State) : Out :=
  .next ((s.updGroup gid fun g => if g.stop = some .save then { g with grace := true } else g).tryStop gid)

/-- COMMIT_PARK: the pending commit park of a group is taken once every L result has returned (R66). -/
def execCommitPark (gid : Nat) (s : State) : Out :=
  match s.group? gid with
  | none => .next s
  | some g =>
    if !(g.slot0.parking || g.slot1.parking) || !g.returned || s.away gid then .next s
    else
      let t (t : Slot) : Slot := if t.parking then { t with parking := false, parked := true } else t
      let s := s.updGroup gid fun g => let g := g.commit
                                       { g with slot0 := t g.slot0, slot1 := t g.slot1 }
      .next (((s.publishW gid g.wg).finishAllocs gid g.wg).tryStop gid)

/-- TRAP_DELIVERY: a trap that waits is delivered once every L result has returned (R36, R66). -/
def execTrapDelivery (gid : Nat) (s : State) : Out :=
  match s.group? gid with
  | none => .next s
  | some g =>
    match g.pendTrap with
    | none => .next s
    | some t => if g.returned && !s.away gid then .next ((s.deliver gid t).tryStop gid) else .next s

/-! ### What a save writes (R372 to R374) -/

def SlotState.code : SlotState → Nat
  | .empty => 0 | .live => 1 | .waiting => 2

/-- The words of a slot in the control record (R373). -/
def Slot.record (t : Slot) : List Byte :=
  bytesLE 4 t.pc.toNat ++ bytesLE 4 t.reconv.toNat ++ bytesLE 8 (t.mask.toNat + 2 ^ 32 * t.parent.toNat + 2 ^ 40 * t.st.code)

/-- An entry of the pending image: header and payload (R374). -/
structure PendEnt where
  seq : Nat
  kind : Nat
  cls : RClass
  reg : Nat
  lanes : Word32
  flags : BitVec 6 := 0
  killed : Bool := false
  age : Nat := 0
  slot1 : Bool
  payload : List Byte
deriving DecidableEq, Repr

/-- The payload of a value (R374). -/
def payloadOf (cls : RClass) (v : Lanes Word64) : List Byte :=
  match cls with
  | .v => laneList.flatMap fun l => bytesLE 8 (v.get l 0).toNat
  | .p => bytesLE 4 (maskOf fun l => v.get l 0 = 1).toNat ++ List.replicate 252 0
  | _ => bytesLE 8 (v.get 0 0).toNat ++ List.replicate 248 0

/-- The value of a payload. -/
def payloadVal (cls : RClass) (b : List Byte) : Lanes Word64 :=
  match cls with
  | .v => Lanes.gen fun l => BitVec.ofNat 64 (natLE ((b.drop (8 * l)).take 8))
  | .p => let m : Word32 := BitVec.ofNat 32 (natLE (b.take 4))
          Lanes.gen fun l => if lane m l then 1 else 0
  | _ => Lanes.const (BitVec.ofNat 64 (natLE (b.take 8)))

def classCode : RClass → Nat
  | .v => 0 | .s => 1 | .p => 2 | _ => 3

/-- The 264 bytes of an entry. -/
def PendEnt.bytes (e : PendEnt) : List Byte :=
  bytesLE 8 (e.reg + 2 ^ 8 * classCode e.cls + 2 ^ 11 * b2n e.slot1 + 2 ^ 12 * e.age + 2 ^ 15 * b2n e.killed + 2 ^ 16 * e.kind + 2 ^ 18 * e.flags.toNat +
    2 ^ 32 * e.lanes.toNat) ++ e.payload

/-- The base of a deferred `rpoll` (R371). -/
def Group.pollBase (g : Group) (op : Nat) : Option Word64 :=
  match g.op? op with
  | some o => if o.fin then none else (match o.kind with | .rpoll b _ _ => some b | _ => none)
  | none => none

/-- The window writes of a slot that are not banked. -/
def winEnts (slot1 : Bool) (w : List WinEnt) : List PendEnt :=
  (List.range w.length).filterMap fun k => (w[k]?).bind fun e => e.write.map fun r =>
    { seq := e.seq, kind := 0, cls := r.cls, reg := r.reg, lanes := if r.cls = .s then allLanes else r.lanes, killed := e.killed, age := k, slot1,
      payload := payloadOf r.cls r.val }

/-- The pending image of a group, in issue order (R374). -/
def Group.pendEnts (g : Group) : List PendEnt :=
  let l := g.pend.map fun p => match g.pollBase p.op with
    | some b => { seq := p.seq, kind := 2, cls := p.write.cls, reg := p.write.reg, lanes := p.write.lanes, slot1 := p.slot1,
                  payload := bytesLE 8 b.toNat ++ List.replicate 248 0 : PendEnt }
    | none => { seq := p.seq, kind := 1, cls := p.write.cls, reg := p.write.reg, lanes := p.write.lanes, flags := p.flags, slot1 := p.slot1,
                payload := payloadOf p.write.cls p.write.val }
  sortBy (fun a b => decide (a.seq ≤ b.seq)) (winEnts false g.slot0.win ++ winEnts true g.slot1.win ++ l)

/-- WIN and the scale configuration, as the control record holds them. -/
def ScaleCfg.record (k : ScaleCfg) : List Byte := bytesLE 8 k.base.toNat ++ bytesLE 8 (k.cfg.toNat + 2 ^ 9 * b2n k.en)

/-- The control record of a group (R373). -/
def Group.control (g : Group) (full : Bool) : List Byte :=
  let gen (t : Slot) : Nat := match t.tw with | some (_, n) => n.toNat | none => 0
  let acc (n : Nat) : AccName := tget g.acc n {}
  let dcur := ((List.range 8).map fun n => (acc n).cur % 128 * 2 ^ (7 * n)).sum
  let bound := ((List.range 8).map fun n => b2n (acc n).bound * 2 ^ n).sum
  g.slot0.record ++ g.slot1.record ++ bytesLE 4 g.helper.toNat ++ bytesLE 4 g.exited.toNat ++
  bytesLE 8 (g.rayRun.toNat + 2 ^ 40 * g.slot0.win.length + 2 ^ 44 * g.slot1.win.length + 2 ^ 48 * g.pendEnts.length) ++
  bytesLE 8 (g.x.toNat + 2 ^ 16 * (if g.priv = .s then 1 else 0) + 2 ^ 19 * b2n full) ++ bytesLE 8 g.paths.toNat ++ bytesLE 8 g.fpctl.toNat ++
  bytesLE 8 g.fpflags.toNat ++ bytesLE 8 g.trapvec.toNat ++ bytesLE 8 g.trapcause.toNat ++ bytesLE 8 g.trappc.toNat ++ bytesLE 8 g.trapaddr.toNat ++
  bytesLE 8 (bound + 256 * dcur) ++ bytesLE 8 g.win.toNat ++ g.sclA.record ++ g.sclB.record ++
  bytesLE 8 (g.wgGen.toNat + 2 ^ 16 * g.gangGen.toNat + 2 ^ 32 * g.waitg + 2 ^ 34 * b2n g.slot0.tw.isSome + 2 ^ 35 * b2n g.slot1.tw.isSome) ++
  bytesLE 8 (gen g.slot0 + 2 ^ 32 * gen g.slot1) ++ List.replicate 80 0

/-- The contents of an accumulator: zeros when it is not bound (R44). -/
def Group.accBytes (g : Group) (n : Nat) : List Byte :=
  let a := tget g.acc n {}
  let d := if a.bound then g.accOf a.key else []
  (List.range 4096).flatMap fun k => bytesLE 4 (Sparse.get 0 d k).toNat

/-- A short save keeps one path record, in slot 0's words: a group whose live slot is slot 1 stands there with its slots exchanged (R372). -/
def Group.shortForm (g : Group) : Group :=
  if g.slot0.st = .live then g
  else
    let flip (p : Pend) : Pend := { p with slot1 := false }
    { g with slot0 := g.slot1, slot1 := {}, pend := g.pend.map flip, ops := g.ops.map (fun o => { o with slot1 := false }), sel1 := false,
             trapcause := if g.priv = .s then g.trapcause &&& 0x0F else g.trapcause }

/-- Write the control record and the register files of a group to its block (R372, R373, R379). -/
def State.saveRegs (s : State) (g : Group) (full : Bool) (block : Nat) : State :=
  let put (off : Nat) (d : List Byte) (s : State) : State := s.blockPut g.vf (block + off) d (g.agent g.me.pc)
  let c := g.saved
  let s := if full then put 0x1400 c s else put 0x1420 (c.drop 0x20) (put 0x1400 (c.take 0x10) s)
  let s := put 0x1500 ((List.range g.ns).flatMap fun n => bytesLE 8 (tget g.s n 0).toNat) s
  let s := put (blockP g.ns) ((List.range g.np).flatMap fun n => bytesLE 4 (tget g.p n 0).toNat) s
  (List.range g.nv).foldl (fun s n => put (blockV g.ns g.np + 256 * n) (payloadOf .v (tget g.v n (Lanes.const 0))) s) s

/-- Write the accumulators, a full save's stack and split table, and the pending image of a group (R372). -/
def State.saveRest (s : State) (g : Group) (full : Bool) (block image : Nat) : State :=
  let put (off : Nat) (d : List Byte) (s : State) : State := s.blockPut g.vf (block + off) d (g.agent g.me.pc)
  let s := (List.range g.na).foldl (fun s n => put (blockA g.ns g.np g.nv + 16384 * n) (g.accBytes n) s) s
  let s := if full then
      put 0 (g.stack.reverse.flatMap DivEnt.bytes) (put 0x1000 ((List.range 256).flatMap fun n => (tget g.split n {}).bytes) s) else s
  s.blockPut g.vf image (g.pendEnts.flatMap PendEnt.bytes) (g.agent g.me.pc)

/-- A tile-handle entry (R321). -/
def Handle.entry (t : Handle) : List Byte :=
  let ring := t.st = .allocated && t.kind = .ring
  bytesLE 8 (if t.st = .free then 0 else
    t.rows + 2 ^ 16 * t.rowb + 2 ^ 44 * t.base + 2 ^ 59 * b2n t.clus + 2 ^ 60 * t.kind.code.toNat + 2 ^ 62 * t.st.code) ++
  bytesLE 8 (if ring then 2 ^ 19 * (t.tail - t.head).toNat + 2 ^ 32 * (t.head.toNat % 2 ^ 32) else 0)

/-- The bytes of a tile, padded to its rounded size (R322). -/
def Handle.image (t : Handle) : List Byte :=
  let b := if t.kind = .barrier then t.bar.bytes else t.readN 0 t.size
  b ++ List.replicate (256 * tileUnits t.rows t.rowb - b.length) 0

/-- The w-register a save writes: the latest value (R119, log entry 25). -/
def Workgroup.wLast (w : Workgroup) (n : Nat) : Word64 := (((tget w.wr n []).getLast?).map (·.val)).getD 0

/-- Write a workgroup's block, and its tiles from `image` on; the image's next byte (R45, R322). -/
def State.saveWg (s : State) (w : Workgroup) (block image : Nat) : State × Nat :=
  let hs := w.handles.toList
  let s := s.blockPut w.vf block (((List.range 16).flatMap fun n => bytesLE 8 (w.wLast n).toNat) ++ hs.flatMap Handle.entry ++ List.replicate 384 0) {}
  (hs.filter fun t => t.st = .allocated).foldl (fun (a : State × Nat) t => (a.1.blockPut w.vf a.2 t.image {}, a.2 + 256 * tileUnits t.rows t.rowb)) (s, image)

/-! ### The save of a gang (R371, R372) -/

/-- Operations that a save does not wait for: those of the RAY and REM paths, and an outstanding `rpoll` (R371). -/
def OpKind.goesOn : OpKind → Bool
  | .rpoll .. => true
  | .ratom .. => true
  | .ray (.get _) _ _ => false
  | .ray _ _ _ => true
  | _ => false

/-- A stopped group has drained (R371). -/
def Group.drained (g : Group) : Bool :=
  g.stopped.isSome && g.ops.all (fun o => o.fin || o.kind.goesOn) &&
  g.pend.all fun p => p.ret || (g.pollBase p.op).isSome

/-- A workgroup whose handles are all settled (R322). -/
def Workgroup.settled (w : Workgroup) : Bool := w.handles.toList.all fun t => t.st ≠ .freeing && t.prog.isNone

/-- A rotation of the gang's slice is under way: its register files stay in place until the swap (R378, R379). -/
def State.rotates (s : State) (l : Launch) : Bool := (s.gran (s.vf l.vf).slice).rotating

/-- The groups and workgroups of a gang leave their places: the groups' registers are kept beside the image, workgroups give back what they held. -/
def State.depart (s : State) (k : Gang) (gs : List Group) (ws : List Workgroup) (shadow : Bool) : State :=
  let ids := gs.map (·.id)
  let out (g : Group) : Bool := ids.contains g.id
  let s : State :=
    { s with
      cur := if out s.cur then {} else s.cur
      groups := s.groups.filter (fun g => !out g)
      savedGroups := s.savedGroups ++ gs.map (fun g => { g with stop := none, grace := false, aways := g.aways ++ [(s.steps, 0)] })
      wgs := s.wgs.filter (fun w => w.gang ≠ k.key)
      savedWgs := s.savedWgs ++ ws
      nextKey := s.nextKey + 1 }
  let s := s.updGang k.key fun g => { g with st := .saved, order := s.nextKey, shadow, unwritten := shadow, imaged := false }
  let accs := (gs.map (·.na)).sum
  let weight := (ws.map (·.weight)).sum
  let s := s.updCluster k.cluster fun c => { c with accReserved := c.accReserved - accs, weight := c.weight - weight }
  gs.foldl (fun s g => (s.quadIdle g.coreIx g.gslot).rayIdle g.cluster) s

/-- The save of a gang: once every group of it has stopped and drained and no handle of it is FREEING, its registers, control records, pending images,
workgroup blocks and tile images are written, and it is saved; under a rotation the registers and control records are written at the swap. A poisoned word of
a tile faults its launch instead, which is recorded (R371, R372, R378, R397). -/
def State.saveGang (s : State) (key : Nat) : State :=
  match s.gang? key with
  | none => s
  | some k =>
    let s := (s.allGroups.filter fun g => g.gang = key).foldl (fun s g => s.tryStop g.id) s
    let gs := s.allGroups.filter fun g => g.gang = key && !g.gone
    let ws := s.wgs.filter fun w => w.gang = key && gs.any fun g => g.wg = w.key
    match s.launch? k.launch with
    | none => s
    | some l =>
      if k.st ≠ .resident || gs.isEmpty || !gs.all Group.drained || !(s.wgs.filter fun w => w.gang = key).all Workgroup.settled then s
      else if ws.any fun w => w.handles.toList.any fun t => t.st = .allocated && !t.poison.isEmpty then
        (s.logError (s.vf l.vf).slice 0x01 0xFF l.vf 0 0 l.id).faultLaunch l.key 0x10 0 0
      else
        let s := gs.foldl (fun s g => s.saveRays g.id) s
        let gs := gs.map fun g => let g := (s.group? g.id).getD g
                                  if g.stopped = some false then g.shortForm else g
        let gs := gs.map fun g => { g with saved := g.control (g.stopped = some true) }
        let shadow := s.rotates l
        let s := gs.foldl (fun s g =>
          let block := l.groupBlock k.slot g.wgid g.gid
          let s := if shadow then s else s.saveRegs g (g.stopped = some true) block
          s.saveRest g (g.stopped = some true) block (l.pendImage k.slot g.wgid g.gid)) s
        let (s, _) := (sortBy (fun a b => decide (a.wgid ≤ b.wgid)) ws).foldl (fun (a : State × Nat) w =>
          a.1.saveWg w (l.wgBlock k.slot w.wgid) a.2) (s, l.tileImage k.slot)
        s.depart k gs ws shadow

/-- GANG_SAVE (R371, R372). -/
def execGangSave (key : Nat) (s : State) : Out := .next (s.saveGang key)

/-! ### The restore of a gang (R322, R375) -/

/-- An entry of the pending image as the save area holds it (R374). -/
def PendEnt.ofBytes (b : List Byte) : PendEnt :=
  let h := natLE (b.take 8)
  { seq := 0, kind := h / 2 ^ 16 % 4, reg := h % 256, lanes := BitVec.ofNat 32 (h / 2 ^ 32), flags := BitVec.ofNat 6 (h / 2 ^ 18), killed := bitOf h 15,
    age := h / 2 ^ 12 % 8, slot1 := bitOf h 11, payload := b.drop 8, cls := match h / 2 ^ 8 % 8 with | 0 => .v | 1 => .s | _ => .p }

/-- The write of an entry. -/
def PendEnt.write (e : PendEnt) : RegWrite := { cls := e.cls, reg := e.reg, lanes := e.lanes, val := payloadVal e.cls e.payload }

/-- A slot's window rebuilt: each place holds the write that the image has for it (R375). -/
def reloadWin (slot1 : Bool) (es : List PendEnt) (w : List WinEnt) : List WinEnt :=
  (List.range w.length).filterMap fun k => (w[k]?).map fun e =>
    match es.find? (fun p => p.kind = 0 && p.slot1 = slot1 && p.age = k) with
    | some p => { e with write := some p.write, killed := p.killed }
    | none => { e with write := none }

/-- The uncommitted results rebuilt, in order (R375). -/
def reloadPend : List PendEnt → List Pend → List Pend
  | e :: es, p :: ps =>
    (if e.kind = 2 then { p with slot1 := e.slot1, write := { p.write with cls := e.cls, reg := e.reg, lanes := e.lanes } }
     else { p with slot1 := e.slot1, write := e.write, flags := e.flags, ret := true }) :: reloadPend es ps
  | _, ps => ps

/-- Where a re-armed `rpoll` finds a record; one without a readable translation is looked for where it was (log entry 16). -/
def State.recordLoc (s : State) (vf va old : Nat) : Nat :=
  if 2 ^ 57 ≤ va then old
  else match (s.translate vf va).2 with
    | .ok loc a => if a.r then loc else old
    | _ => old

/-- A deferred `rpoll` is re-armed with the base that the image holds; one whose entry is a result now is over (R375). -/
def State.reloadPolls (s : State) (es : List PendEnt) (old : List Pend) (g : Group) : Group :=
  { g with ops := g.ops.map fun o => match o.kind with
      | .rpoll b recs ty =>
        if o.fin then o
        else match (old.findIdx? fun p => p.op = o.seq).bind fun k => es[k]? with
        | some e =>
          let nb : Word64 := BitVec.ofNat 64 (natLE (e.payload.take 8))
          if e.kind ≠ 2 then { o with fin := true }
          else if nb = b then o
          else { o with kind := .rpoll nb (recs.map fun a =>
            let va := (nb.toNat + (a.va + 2 ^ 64 - b.toNat)) % 2 ^ 64
            { a with va, pa := s.recordLoc g.vf va a.pa }) ty }
        | none => o
      | _ => o }

/-- The stack as the save area holds it: an entry keeps its block while its program counter stands, and one whose program counter software changed makes
what follows unpredictable (R24). -/
def reloadStack (b : List Byte) (st : List DivEnt) : List DivEnt × Bool :=
  let old := st.reverse
  let new := (List.range old.length).map fun k =>
    let d := (b.drop (16 * k)).take 16
    let at_ (o n : Nat) : Nat := natLE ((d.drop o).take n)
    { pc := BitVec.ofNat 32 (at_ 0 4), reconv := BitVec.ofNat 32 (at_ 4 4), mask := BitVec.ofNat 32 (at_ 8 4), parent := BitVec.ofNat 8 (at_ 12 1),
      wait := bitOf (at_ 14 1) 0, blk := ((old[k]?).map (·.blk)).getD {} : DivEnt }
  (new.reverse, (old.zip new).any fun p => p.1.pc ≠ p.2.pc)

/-- The runs of a group's block that hold its control record and its register files (R372, R375). -/
def Group.regRuns (g : Group) (block : Nat) : List (Nat × Nat) :=
  (if g.stopped = some true then [(block + 0x1400, 256)] else [(block + 0x1400, 16), (block + 0x1420, 224)]) ++
  [(block + 0x1500, 8 * g.ns), (block + blockP g.ns, 4 * g.np), (block + blockV g.ns g.np, 256 * g.nv)]

/-- The runs that hold the rest of a saved group: its pending image, its bound accumulators, and a full save's stack and split table (R372, R375). -/
def Group.restRuns (g : Group) (block image : Nat) : List (Nat × Nat) :=
  [(image, 264 * g.pendEnts.length)] ++
  ((List.range g.na).filter fun n => (tget g.acc n {}).bound).map (fun n => (block + blockA g.ns g.np g.nv + 16384 * n, 16384)) ++
  if g.stopped = some true then [(block, 16 * g.stack.length), (block + 0x1000, 1024)] else []

/-- The runs of tile images that hold a list of handles (R322). -/
def tileRuns : Nat → List Handle → List (Nat × Nat)
  | _, [] => []
  | a, t :: r => if t.st ≠ .allocated then tileRuns a r else (a, t.image.length) :: tileRuns (a + 256 * tileUnits t.rows t.rowb) r

/-- Reload the register files of a saved group from its block; none when its control record has been written (R373, R375, R379). -/
def State.loadRegs (s : State) (g : Group) (block : Nat) : Option Group :=
  let full := g.stopped = some true
  let rd (off : Nat) (d : List Byte) : List Byte := s.blockRead g.vf (block + off) d
  let c := g.saved
  let same := if full then rd 0x1400 c = c else rd 0x1400 (c.take 0x10) = c.take 0x10 && rd 0x1420 (c.drop 0x20) = c.drop 0x20
  if !same then none
  else
    let word (n off : Nat) (v : Nat) : Nat := natLE (rd off (bytesLE n v))
    some { g with
      s := (List.range g.ns).foldl (fun t n => tset t n (BitVec.ofNat 64 (word 8 (0x1500 + 8 * n) (tget g.s n 0).toNat))) g.s
      p := (List.range g.np).foldl (fun t n => if n = 63 then t else tset t n (BitVec.ofNat 32 (word 4 (blockP g.ns + 4 * n) (tget g.p n 0).toNat))) g.p
      v := (List.range g.nv).foldl (fun t n =>
        tset t n (payloadVal .v (rd (blockV g.ns g.np + 256 * n) (payloadOf .v (tget g.v n (Lanes.const 0)))))) g.v }

/-- Reload what a group keeps beside its registers: the windows and results from its pending image, its accumulators, and a full save's stack and split
table; the group goes on (R375). -/
def State.loadRest (s : State) (g : Group) (block image : Nat) : Group :=
  let rd (off : Nat) (d : List Byte) : List Byte := s.blockRead g.vf (block + off) d
  let ents := g.pendEnts
  let pb := s.blockRead g.vf image (ents.flatMap PendEnt.bytes)
  let es := (List.range ents.length).map fun k => PendEnt.ofBytes ((pb.drop (264 * k)).take 264)
  let ls := es.filter fun e => e.kind ≠ 0
  let g1 : Group :=
    { g with
      slot0 := { g.slot0 with win := reloadWin false es g.slot0.win }
      slot1 := { g.slot1 with win := reloadWin true es g.slot1.win }
      pend := reloadPend ls g.pend }
  let g2 := (List.range g.na).foldl (fun h n =>
    let a := tget g.acc n {}
    if !a.bound then h
    else
      let b := rd (blockA g.ns g.np g.nv + 16384 * n) (g.accBytes n)
      h.setAccOf a.key ((wordsLE 4096 b).foldl (fun (q : Nat × Sparse Word32) w => (q.1 + 1, Sparse.set 0 q.2 q.1 (BitVec.ofNat 32 w))) (0, [])).2) g1
  let g3 := s.reloadPolls ls g.pend g2
  let g4 :=
    if g.stopped = some true then
      let (st, bad) := reloadStack (rd 0 (g.stack.reverse.flatMap DivEnt.bytes)) g.stack
      { g3 with stack := st, divTouched := g3.divTouched || bad,
                split := (List.range 256).foldl (fun t n =>
                  let w := natLE (rd (0x1000 + 4 * n) (tget g.split n {}).bytes)
                  tset t n { valid := n = 0 || bitOf w 8, parent := BitVec.ofNat 8 w }) g.split }
    else { g3 with slot1 := {}, stack := [], split := tset (tableOf 256 {}) 0 { valid := true, parent := (tget g.split 0 {}).parent } }
  { g4 with stopped := none, stop := none, grace := false, yielded := false, aways := g4.aways.map fun a => if a.2 = 0 then (a.1, s.steps) else a }

/-- Read a tile-handle entry; none when it fails the limits of R175 or holds a nonzero RSV field (R322). -/
def Handle.ofEntry (b : List Byte) : Option Handle :=
  let lo := natLE (b.take 8)
  let hi := natLE (b.drop 8)
  let rows := lo % 2 ^ 16
  let rowb := bitsOf lo 31 16
  let clus := bitOf lo 59
  let fill := bitsOf hi 31 19
  let head := bitsOf hi 63 32
  if bitsOf lo 43 32 ≠ 0 || bitsOf lo 58 56 ≠ 0 || bitsOf hi 18 0 ≠ 0 then none
  else match TKind.ofCode (BitVec.ofNat 2 (bitsOf lo 61 60)) with
    | none => none
    | some kind =>
      match bitsOf lo 63 62 with
      | 0 => some {}
      | 1 => if shapeOk kind (BitVec.ofNat 64 (rows + 2 ^ 16 * rowb)) && decide (tileUnits rows rowb ≤ spaceUnits clus) && decide (fill ≤ rows) then
          some { st := .allocated, kind, clus, rowb, rows, head := BitVec.ofNat 64 head, tail := BitVec.ofNat 64 (head + fill) } else none
      | 2 => some { st := .failed, kind, clus, rowb, rows }
      | _ => none

/-- The handles of a saved workgroup as its block holds them, or the address of the first entry that is not in order (R322). -/
def State.savedHandles (s : State) (w : Workgroup) (block : Nat) : Except Nat (List Handle) :=
  (List.range 32).foldl (fun acc n => do
    let hs ← acc
    let t := tget w.handles n {}
    match Handle.ofEntry (s.blockRead w.vf (block + 0x80 + 16 * n) t.entry) with
    | some h => .ok (hs ++ [{ t with st := h.st, kind := h.kind, clus := h.clus, rowb := h.rowb, rows := h.rows,
                                     head := if h.head.toNat = t.head.toNat % 2 ^ 32 then t.head else h.head,
                                     tail := if h.head.toNat = t.head.toNat % 2 ^ 32 then t.head + (h.tail - h.head) else h.tail }])
    | none => .error (block + 0x80 + 16 * n)) (.ok [])

/-- Place the ALLOCATED tiles of a workgroup again, in the order of its handles, beside what is in use; none when they do not fit (R319, R322). -/
def replaceTiles (core clus : List (Nat × Nat)) : List Handle → Option (List Handle)
  | [] => some []
  | t :: r =>
    if t.st ≠ .allocated then (replaceTiles core clus r).map (t :: ·)
    else
      let n := tileUnits t.rows t.rowb
      match fitUnits (if t.clus then clus else core) n (spaceUnits t.clus) with
      | none => none
      | some b =>
        (replaceTiles (if t.clus then core else (b, n) :: core) (if t.clus then (b, n) :: clus else clus) r).map ({ t with base := b } :: ·)

/-- Reload the contents of placed tiles from the image at `a`; the image's next byte (R322). -/
def State.loadTiles (s : State) (vf : Nat) : Nat → List Handle → List Handle × Nat
  | a, [] => ([], a)
  | a, t :: r =>
    if t.st ≠ .allocated then
      let (ts, a) := s.loadTiles vf a r
      (t :: ts, a)
    else
      let b := s.blockRead vf a t.image
      let t : Handle := if t.kind = .barrier then { t with bar := Barrier.ofBytes b } else { t.writeN 0 (b.take t.size) with poison := [] }
      let (ts, a) := s.loadTiles vf (a + 256 * tileUnits t.rows t.rowb) r
      (t :: ts, a)

/-- A workgroup with its w-registers and its handles reloaded (R375). -/
def State.loadWg (s : State) (w : Workgroup) (block : Nat) (hs : List Handle) : Workgroup :=
  { w with
    wr := ⟨⟨(List.range 16).map fun n => [⟨BitVec.ofNat 64 (natLE (s.blockRead w.vf (block + 8 * n) (bytesLE 8 (w.wLast n).toNat))), 0, true⟩]⟩, by simp⟩
    wbase := ⟨⟨(List.range 16).map fun n => tget w.wbase n 0 + ((tget w.wr n []).length - 1)⟩, by simp⟩
    handles := ⟨⟨(List.range 32).map fun n => hs.getD n {}⟩, by simp⟩ }

end Sys2Proof.Machine
end

