-- ==== Sys2Proof/Machine/Lantern.lean ====
section
/-!
DEFINITION. The lantern's choice of the next gang, its placement and restore, pre-emption for a deadline, the rotation of functions, the load throttle, and
leases (R16, R354 to R367, R377 to R380, R392, R405).
-/
set_option Elab.async false
namespace Sys2Proof.Machine
open Sys2Proof

/-! ### Eligibility and order (R354, R358) -/

/-- The gangs of a launch that are saved, oldest save first (R361). -/
def State.savedGangs (s : State) (key : Nat) : List Gang :=
  sortBy (fun a b => decide (a.order ≤ b.order)) (s.gangs.filter fun g => g.launch = key && g.st = .saved)

/-- A launch still has gangs to place, saved ones included (R354). -/
def State.toPlace (s : State) (l : Launch) : Bool :=
  !l.faulted && (match l.stage with
    | .header => true
    | .run => decide (l.next < l.rec_.gangs) || !(s.savedGangs l.key).isEmpty
    | _ => false)

/-- A function's work may be placed: it holds the slice, is not being unbound, and stands in no debug halt (R358, R378, R388, R419). -/
def State.mayPlace (s : State) (vf : Nat) : Bool := s.holds vf && !(s.vf vf).busy && !(s.vf vf).halting && !(s.vf vf).halted

/-- Launches of the same queue that were taken before a launch. -/
def State.olderLaunches (s : State) (l : Launch) : List Launch :=
  (s.launches.takeWhile fun m => m.key ≠ l.key).filter fun m => m.vf = l.vf && m.queue = l.queue

/-- Eligible launches (R354). -/
def State.eligible (s : State) (l : Launch) : Bool :=
  s.mayPlace l.vf && l.stage = .run && l.depOk && s.toPlace l && (s.olderLaunches l).all (fun m => !s.toPlace m) &&
  (!(s.queue l.vf l.queue).ser || (s.olderLaunches l).all fun m => match m.stage with | .finish _ | .over => true | _ => false)

/-- The eligible launches of a slice in the order of R358: by key, then by queue; between functions, which only a slice without rotation compares, by
function (log entry 26). -/
def State.choices (s : State) (gr : Nat) : List Launch :=
  let le (a b : Launch) : Bool :=
    let ka := s.urgency a
    let kb := s.urgency b
    keyLt ka kb || (ka = kb && (decide (a.queue < b.queue) || (a.queue = b.queue && decide (a.vf ≤ b.vf))))
  sortBy le (s.launches.filter fun l => s.boundTo l.vf gr && s.eligible l)

/-! ### What a gang needs and where it fits (R16, R202, R319, R361, R405) -/

/-- The base budget of a cluster, and the budget in force for an interval that begins now (R404). -/
def State.baseBudget (s : State) (cl : Nat) : Nat :=
  let g := s.gran (s.sliceOf (cl / 4))
  1000 * g.slpow.toNat / (4 * max 1 g.num)
def State.budget (s : State) (cl : Nat) : Nat := s.baseBudget cl - (s.cluster cl).lent + (s.cluster cl).granted

/-- A workgroup to be placed: its index, the indexes of its groups, and, when it is saved, its handles. -/
structure WgNeed where
  wgid : Nat
  gids : List Nat
  handles : List Handle := []
deriving DecidableEq, Repr

/-- The groups resident on a quadrant of a core. -/
def State.onQuad (s : State) (core q : Nat) : List Group := s.allGroups.filter fun g => !g.gone && g.coreIx = core && g.gslot / 16 = q

/-- A quadrant has room for `n` more groups of a kernel (R15, R16). -/
def State.quadRoom (s : State) (h : KHeader) (core q n : Nat) : Bool :=
  let gs := s.onQuad core q
  decide (gs.length + n ≤ 16) && decide ((gs.map (·.nv)).sum + n * h.nv ≤ 512) && decide ((gs.map (·.ns)).sum + n * h.ns ≤ 1024) &&
  decide ((gs.map (·.np)).sum + n * h.np ≤ 1024)

/-- The lowest first quadrant at which a workgroup fits a core (R16). -/
def State.fitQuad (s : State) (h : KHeader) (core : Nat) (w : WgNeed) : Option Nat :=
  (List.range 4).find? fun q0 => (List.range 4).all fun q => s.quadRoom h core q (w.gids.filter fun i => (q0 + i) % 4 = q).length

/-- Units of tile space in use on a core, or in a cluster's scratchpad. -/
def State.unitsUsed (s : State) (cluster core : Nat) (clus : Bool) : List (Nat × Nat) :=
  let ws := s.wgs.filter fun v => v.cluster = cluster && (clus || v.core = core)
  ws.flatMap fun v => (v.handles.toList.filter fun h => (h.st = .allocated || h.st = .freeing) && h.clus = clus).map fun h =>
    (h.base, tileUnits h.rows h.rowb)

/-- Assign the workgroups of a gang to cores of a cluster, ascending: core, first quadrant and placed handles of each; none when they do not fit (R361). -/
def State.fitCores (s : State) (h : KHeader) (cl : Nat) (cores : List Nat) (clus : List (Nat × Nat)) : List WgNeed → Option (List (Nat × Nat × List Handle))
  | [] => some []
  | w :: r =>
    let try_ (c : Nat) : Option (Nat × Nat × List Handle) :=
      match s.fitQuad h (coreIx cl c) w with
      | none => none
      | some q0 => (replaceTiles (s.unitsUsed cl c false) clus w.handles).map fun hs => (c, q0, hs)
    match cores.findSome? try_ with
    | none => none
    | some (c, q0, hs) =>
      let more := (hs.filter fun t => t.st = .allocated && t.clus).map fun t => (t.base, tileUnits t.rows t.rowb)
      (s.fitCores h cl (cores.filter fun d => decide (c < d)) (more ++ clus) r).map ((c, q0, hs) :: ·)

/-- Where a gang fits on a cluster but for power (R202, R319, R361). -/
def State.fitCluster (s : State) (h : KHeader) (cl : Nat) (ws : List WgNeed) : Option (List (Nat × Nat × List Handle)) :=
  let groups := (ws.map fun w => w.gids.length).sum
  let entries := ((s.wgs.filter fun w => w.cluster = cl).map (·.ntiles)).sum
  if decide (64 < (s.cluster cl).accReserved + groups * h.accs) || decide (128 < entries + ws.length * h.tiles) then none
  else s.fitCores h cl [0, 1, 2, 3] (s.unitsUsed cl 0 true) ws

/-- What each workgroup of a gang charges to a cluster, by the budget in force for the interval that runs (R405). -/
def State.charge (s : State) (h : KHeader) (cl : Nat) : Nat := min h.energy (s.cluster cl).inForce

/-- A cluster has current capacity for a gang's weight; in replay mode it always has (R405, R423). -/
def State.carries (s : State) (h : KHeader) (cl n : Nat) : Bool :=
  (s.gran (s.sliceOf (cl / 4))).rpEn || decide ((s.cluster cl).weight + n * 2 ^ h.peak ≤ 256)

/-- A gang passes power admission: its weight and its energy are there; in replay mode it always does (R405, R423). -/
def State.affords (s : State) (h : KHeader) (cl n : Nat) : Bool :=
  s.carries h cl n && ((s.gran (s.sliceOf (cl / 4))).rpEn || decide (n * s.charge h cl ≤ (s.cluster cl).remaining))

/-- The gang that a launch places next: a saved one, or the number of a gang slot for a new one (R361). -/
inductive NextGang | saved (g : Gang) | new (slot : Nat)
deriving DecidableEq, Repr

def State.nextGang (s : State) (l : Launch) : Option NextGang :=
  match s.savedGangs l.key with
  | g :: _ => some (.saved g)
  | [] =>
    if l.rec_.gangs ≤ l.next then none
    else ((List.range l.rec_.saven).find? fun k => s.gangs.all fun g => g.launch ≠ l.key || g.slot ≠ k).map .new

/-- The workgroups that a gang brings; for a saved one, or the address of the first tile-handle entry that is not in order (R322). -/
def State.needs (s : State) (l : Launch) : NextGang → Except Nat (List WgNeed)
  | .new _ => .ok ((List.range l.hdr.gang).map fun w => { wgid := w, gids := List.range l.hdr.wgroups })
  | .saved k =>
    (sortBy (fun a b => decide (a.wgid ≤ b.wgid)) (s.savedWgs.filter fun w => w.gang = k.key)).foldl (fun acc w => do
      let ns ← acc
      let hs ← s.savedHandles w (l.wgBlock k.slot w.wgid)
      pure (ns ++ [{ wgid := w.wgid, gids := (s.savedGroups.filter fun g => g.wg = w.key).map (·.gid), handles := hs }])) (.ok [])

/-! ### Placement (R20, R25, R43, R361) -/

/-- The lowest free group slot of a quadrant (R16). -/
def State.freeGslot (s : State) (core q : Nat) : Nat :=
  16 * q + (((List.range 16).find? fun j => (s.onQuad core q).all fun g => g.gslot ≠ 16 * q + j).getD 0)

/-- A group joins the resident ones; it goes without issuing from now on (R366). -/
def State.join (s : State) (g : Group) : State :=
  let s := s.arrive (quadUnit g.coreIx g.gslot)
  let g := { g with issuedAt := s.steps }
  if s.cur.id = 0 then { s with cur := g } else { s with groups := s.groups ++ [g] }

/-- The state of a new group (R20, R25, R33, R36, R43). DESIGN CHOICE: its first block is entered as by falling through, without a block before it (log
entry 73). -/
def Launch.group (l : Launch) (id gang wg slice cluster core gslot slot ix wgid gid : Nat) : Group :=
  let x := max 1 l.rec_.gridx
  let y := max 1 l.rec_.gridy
  { id, launch := l.key, gang, wg, vf := l.vf, slice, cluster, core, gslot, gid, wgid,
    gx := ix % x, gy := ix / x % y, gz := ix / (x * y),
    grid := BitVec.ofNat 64 (l.rec_.gridx + 2 ^ 16 * l.rec_.gridy + 2 ^ 32 * l.rec_.gridz),
    launchId := l.id, kbase := l.rec_.kbase, args := l.rec_.args, saveb := BitVec.ofNat 64 (l.groupBlock slot wgid gid),
    deadline := if l.background then 0xFFFFFFFFFFFFFFFF else l.rec_.deadline,
    nv := l.hdr.nv, ns := l.hdr.ns, np := l.hdr.np, na := l.hdr.accs, ntiles := l.hdr.tiles, wgroups := l.hdr.wgroups, gangN := l.hdr.gang,
    producer := l.hdr.producer, keepq := l.hdr.keepq, codeEnd := l.hdr.codelen / 4,
    slot0 := { st := .live, pc := 16, mask := allLanes, blk := { entry := .fall } },
    split := tset (tableOf 256 {}) 0 { valid := true },
    s := tset (tset (tableOf 64 0) 0 l.rec_.args) 1 (BitVec.ofNat 64 ix),
    p := tset (tableOf 64 0) 63 allLanes,
    trapvec := l.rec_.trapvec.setWidth 64 }

/-- Account for a gang of `n` workgroups and `groups` groups on a cluster (R202, R405). -/
def State.enrol (s : State) (h : KHeader) (cl n groups : Nat) : State :=
  let e := n * s.charge h cl
  s.updCluster cl fun k => { k with accReserved := k.accReserved + groups * h.accs, remaining := k.remaining - e, admitted := k.admitted + e,
                                    weight := k.weight + n * 2 ^ h.peak }

/-- Place a new gang (R361): each group's start acquires at `.t` (R304). That no image of the split table is written to the group block here is the model's
choice: R24 gives entry 0 VALID as its reset value, and the entries stand in memory from the group's first full save on (log entry 82). -/
def State.placeNew (s : State) (gr : Nat) (l : Launch) (slot cl : Nat) (at_ : List (Nat × Nat × List Handle)) : State :=
  let ix := l.next
  let gang := s.nextKey
  let s : State := { s with nextKey := gang + 1, gangs := s.gangs ++ [{ key := gang, launch := l.key, ix, slot, cluster := cl, order := gang }] }
  let s := (s.enrol l.hdr cl at_.length (at_.length * l.hdr.wgroups)).updLaunch l.key fun m => { m with next := ix + 1, waitSince := none }
  (at_.foldl (fun (a : State × Nat) p =>
    let (s, w) := a
    let wg := s.nextKey
    let s : State := { s with
      nextKey := wg + 1
      wgs := s.wgs ++ [{ key := wg, gang, launch := l.key, vf := l.vf, cluster := cl, core := p.1, wgid := w, ntiles := l.hdr.tiles,
                         charge := s.charge l.hdr cl, weight := 2 ^ l.hdr.peak }] }
    let s := (List.range l.hdr.wgroups).foldl (fun s i =>
      let core := coreIx cl p.1
      let g := l.group s.nextKey gang wg gr cl p.1 (s.freeGslot core ((p.2.1 + i) % 4)) slot ix w i
      { s with nextKey := s.nextKey + 1 }.join g) s
    (s.dropCoreL1 (coreIx cl p.1) l.vf, w + 1)) (s, 0)).1

/-- The groups of a saved gang take their places, each where `at_` says: group, cluster, core, group slot; none when a control record has been written
(R365, R373, R375). Registers that are in shadow storage stand as they are (R379). A restored group's core drops the function's L1 lines. -/
def State.reloadGroups (s : State) (l : Launch) (k : Gang) (at_ : State → Group → Nat × Nat × Nat) : List Group → Option State
  | [] => some s
  | g :: r =>
    let block := l.groupBlock k.slot g.wgid g.gid
    match if k.imaged || k.unwritten then some g else s.loadRegs g block with
    | none => none
    | some h =>
      let s := if k.imaged || k.unwritten then s else s.blockNote l.vf (g.regRuns block) (g.agent g.me.pc)
      let s := s.blockNote l.vf (h.restRuns block (l.pendImage k.slot g.wgid g.gid)) (g.agent g.me.pc)
      let h := s.loadRest h block (l.pendImage k.slot g.wgid g.gid)
      let (cl, core, gslot) := at_ s g
      let h : Group := { h with cluster := cl, core, gslot, slice := (s.vf l.vf).slice }
      let s : State := { s with savedGroups := s.savedGroups.filter fun x => x.id ≠ g.id }
      let s := s.join h
      let s := if h.ops.any (fun o => match o.kind with | .ray .. => !o.fin | _ => false) then s.arrive (rayUnit cl) else s
      (s.dropCoreL1 (coreIx cl core) l.vf).reloadGroups l k at_ r

/-- The workgroups of a saved gang take their places: core and handles of each, in order; what their CORE tiles take of a core's L1 holds no lines any more
(R322, R324, R375). -/
def State.reloadWgs (s : State) (l : Launch) (k : Gang) (cl : Nat) : Nat → List (Workgroup × Nat × List Handle) → State
  | _, [] => s
  | image, (w, core, hs) :: r =>
    let s := s.blockNote l.vf ((l.wgBlock k.slot w.wgid, 640) :: tileRuns image hs) {}
    let (hs, image) := s.loadTiles l.vf image hs
    let w' := { s.loadWg w (l.wgBlock k.slot w.wgid) hs with cluster := cl, core }
    let s : State := { s with savedWgs := s.savedWgs.filter (fun x => x.key ≠ w.key), wgs := s.wgs ++ [w'] }
    (s.trimL1 (coreIx cl core) 0).reloadWgs l k cl image r

/-- The workgroups of a saved gang, in order. -/
def State.gangWgs (s : State) (k : Gang) : List Workgroup :=
  sortBy (fun a b => decide (a.wgid ≤ b.wgid)) (s.savedWgs.filter fun w => w.gang = k.key)

/-- Restore a saved gang on a cluster; none when a control record of it has been written (R375). -/
def State.placeSaved (s : State) (l : Launch) (k : Gang) (cl : Nat) (at_ : List (Nat × Nat × List Handle)) : Option State :=
  let ws := s.gangWgs k
  let gs := sortBy (fun a b => decide ((a.wgid, a.gid).1 < b.wgid) || (a.wgid = b.wgid && decide (a.gid ≤ b.gid))) (s.savedGroups.filter fun g => g.gang = k.key)
  let s := (s.enrol l.hdr cl ws.length gs.length).updLaunch l.key fun m => { m with waitSince := none }
  let s : State := { s with nextKey := s.nextKey + 1 }.updGang k.key fun g =>
    { g with st := .resident, cluster := cl, shadow := false, unwritten := false, imaged := false, order := s.nextKey }
  let s := s.reloadWgs l k cl (l.tileImage k.slot) ((ws.zip at_).map fun p => (p.1, p.2.1, p.2.2.2))
  let spot (s : State) (g : Group) : Nat × Nat × Nat :=
    match (ws.zip at_).find? (fun p => p.1.key = g.wg) with
    | some p => (cl, p.2.1, s.freeGslot (coreIx cl p.2.1) ((p.2.2.1 + g.gid) % 4))
    | none => (cl, 0, 0)
  s.reloadGroups l k spot gs

/-- What an attempt to place a launch's next gang comes to. -/
inductive Placed
  | done (s : State)
  | no (s : State)
  | fault

/-- `Place` (R361): the clusters of the slice in ascending order; the first that the gang fits takes it. A cluster that only power refuses notes it (R406). -/
def State.place (s : State) (gr : Nat) (l : Launch) : Placed :=
  match s.nextGang l with
  | none => .no s
  | some k =>
    match s.needs l k with
    | .error va => .done (s.faultLaunch l.key 0x12 0 (BitVec.ofNat 64 va))
    | .ok ws =>
      let cls := (List.range (4 * (s.gran gr).num)).map fun i => 4 * gr + i
      let refuse (s : State) (cl : Nat) : State := s.updCluster cl fun c => { c with refused := true }
      let go (acc : State × Option (Nat × List (Nat × Nat × List Handle))) (cl : Nat) : State × Option (Nat × List (Nat × Nat × List Handle)) :=
        match acc.2 with
        | some _ => acc
        | none =>
          match acc.1.fitCluster l.hdr cl ws with
          | none => acc
          | some p => if acc.1.affords l.hdr cl ws.length then (acc.1, some (cl, p)) else (refuse acc.1 cl, none)
      match cls.foldl go (s, none) with
      | (s, none) => .no s
      | (s, some (cl, p)) =>
        match k with
        | .new slot => .done (s.placeNew gr l slot cl p)
        | .saved g => match s.placeSaved l g cl p with
          | some s => .done s
          | none => .fault

/-- The next gang of a launch has found no room, from now on or since an earlier attempt (R363). -/
def State.waits (s : State) (gr : Nat) (l : Launch) : State :=
  s.updLaunch l.key fun m => { m with waitSince := some (m.waitSince.getD (s.tickOf gr)) }

/-- The loop of R358: the first launch in order whose gang fits takes its place; the launches before it go on waiting. -/
def State.choose (s : State) (gr : Nat) : List Launch → Placed
  | [] => .no s
  | l :: r =>
    match s.place gr l with
    | .no s => (s.waits gr l).choose gr r
    | p => p

/-- LANTERN_CHOICE: the lantern places or restores the next gang that fits (R358). -/
def execLanternChoice (gr : Nat) (s : State) : Out :=
  if !s.lanternOn gr || (s.gran gr).rotating then .next s
  else
    let ls := s.choices gr
    match s.choose gr ls with
    | .done s => .next s
    | .no s => .next s
    | .fault => .fault .unpredictable

/-! ### Accounting windows and deadlines (R359, R363) -/

/-- ACCOUNTING_WINDOW: a window of 10 000 slice ticks has ended; what the ticks since then have counted belongs to the next (R359). -/
def execAccountingWindow (gr : Nat) (s : State) : Out :=
  let g := s.gran gr
  let e := (g.tick - g.windowFrom).toNat
  if e < 10000 then .next s
  else .next (s.updGran gr fun g =>
    { g with windowFrom := g.windowFrom + BitVec.ofNat 64 (e / 10000 * 10000), bgTicks := if e % 10000 = 0 then 0 else g.bgNext, bgNext := 0 })

/-- The machine as it will be once some gangs have left. -/
def State.without (s : State) (gangs : List Nat) : State :=
  let gone (g : Group) : Bool := gangs.contains g.gang
  let ws := s.wgs.filter fun w => gangs.contains w.gang
  let u : State := { s with cur := if gone s.cur then {} else s.cur, groups := s.groups.filter (fun g => !gone g),
                            wgs := s.wgs.filter fun w => !gangs.contains w.gang }
  (s.gangs.filter fun k => gangs.contains k.key).foldl (fun t k =>
    let n := ((s.allGroups.filter fun g => g.gang = k.key).map (·.na)).sum
    t.updCluster k.cluster fun c => { c with accReserved := c.accReserved - n, weight := c.weight - ((ws.filter fun w => w.gang = k.key).map (·.weight)).sum }) u

/-- Resident gangs that have been asked to stop. -/
def State.leaving (s : State) : List Nat := (s.allGroups.filter fun g => !g.gone && (g.stop.isSome || g.stopped.isSome)).map (·.gang)

/-- The gangs of a cluster that may be pre-empted for a launch, in the order in which they are (R363). -/
def State.victims (s : State) (l : Launch) (cl : Nat) : List Nat :=
  let key (g : Gang) : Nat × Nat := match s.launch? g.launch with | some m => s.urgency m | none => (1, 0)
  let vs := s.gangs.filter fun g => g.st = .resident && g.cluster = cl && keyLt (s.urgency l) (key g) && !s.leaving.contains g.key
  (sortBy (fun a b => keyLt (key b) (key a) || (key a = key b && decide (b.order ≤ a.order))) vs).map (·.key)

/-- The victims on the lowest cluster where pre-empting some lets the gang fit, as many as are enough (R363). -/
def State.pickVictims (s : State) (l : Launch) (ws : List WgNeed) (cls : List Nat) : List Nat :=
  let away := s.leaving
  let fits (cl : Nat) (vs : List Nat) : Bool :=
    let t := s.without (away ++ vs)
    (t.fitCluster l.hdr cl ws).isSome && t.carries l.hdr cl ws.length
  if cls.any fun cl => fits cl [] then []
  else (cls.findSome? fun cl =>
    let vs := s.victims l cl
    ((List.range vs.length).find? fun n => fits cl (vs.take (n + 1))).map fun n => vs.take (n + 1)).getD []

/-- PWAIT_EXPIRY: the next gang of the first deadline launch has fitted nowhere for PWAIT ticks, and gangs are pre-empted for it (R363). -/
def execPwaitExpiry (gr : Nat) (s : State) : Out :=
  let g := s.gran gr
  if !s.lanternOn gr || g.rotating then .next s
  else match (s.choices gr).find? fun l => !l.background with
    | none => .next s
    | some l =>
      match l.waitSince, s.nextGang l with
      | some t, some k =>
        if (g.tick - t).toNat < g.pwait then .next s
        else match s.needs l k with
          | .error _ => .next s
          | .ok ws => .next ((s.pickVictims l ws ((List.range (4 * g.num)).map fun i => 4 * gr + i)).foldl (fun s k => s.askSave k) s)
      | _, _ => .next s

/-! ### The load throttle (R367) -/

/-- LOAD_THROTTLE_PERIOD: 4096 core clocks are over (R367). -/
def execLoadThrottlePeriod (core : Nat) (s : State) : Out :=
  let lthr := (s.gran (s.sliceOf (core / 16))).lthr
  .next (s.updCore core fun k =>
    let up := k.misses ≠ 0 && decide (256 * k.hits < lthr * (k.hits + k.misses))
    { k with hits := 0, misses := 0, level := if up then min 4 (k.level + 1) else k.level - 1 })

/-! ### Rotation (R377 to R380) -/

/-- The function of a rotation entry. -/
def Granule.entryVf (g : Granule) (k : Nat) : Nat := bitsOf g.rotVf.toNat (8 * k + 5) (8 * k)
/-- The quantum of an entry, in slice ticks. -/
def Granule.quantum (g : Granule) (k : Nat) : Nat := 100 * bitsOf g.rotq.toNat (16 * k + 15) (16 * k)

/-- An entry that is not skipped: a quantum, and a function bound to the slice (R377, R388). -/
def State.entryOk (s : State) (gr k : Nat) : Bool := (s.gran gr).quantum k ≠ 0 && s.boundTo ((s.gran gr).entryVf k) gr

/-- A function has work: launches not over, or records not taken. -/
def State.hasWork (s : State) (vf : Nat) : Bool :=
  s.launches.any (fun l => l.vf = vf) || (List.range 16).any fun q => (s.queue vf q).enabled && (s.queue vf q).held ≠ 0

/-- The entry that follows in the rotation function `vf`, which holds the slice as the current entry: the next that is not skipped; the current one too, where a
write of ROTCFG has given it to another function (R377, R378). -/
def State.nextRot (s : State) (gr vf : Nat) : Option Nat :=
  let g := s.gran gr
  ((List.range (g.rotNm + 1)).map fun i => (g.entry + 1 + i) % (g.rotNm + 1)).find? fun k => (k ≠ g.entry || g.entryVf k ≠ vf) && s.entryOk gr k

/-- A write to ROTCFG that waited for the quantum boundary takes effect (R377). -/
def Granule.applyRot (g : Granule) : Granule :=
  match g.rotNext with
  | none => g
  | some (en, nm, vfe) => { g with rotEn := en, rotNm := nm, rotVf := vfe, rotNext := none }

/-- One withheld completion of a function is released; a write keeps its agent (R380, R420). -/
def State.release1 (s : State) (vf : Nat) : Withheld → State
  | .status va pa data ag => (s.write vf va pa data).watch vf va pa data.length 4 ag
  | .reply va pa data ag lane => ((s.write vf va pa data).watch vf va pa data.length 4 ag).replyWritten (ag.gid.getD 0) ag.seq lane
  | .launchSteps l => s.finishSteps l 3
  | .pageIrq _ => s.raiseIrq vf 1

/-- The withheld completions of some functions of slice `gr` are released in order of arrival; meanwhile they count as holding it (R380, R387). -/
def State.releaseWithheld (s : State) (gr : Nat) (fs : List Nat) : State :=
  let ws := sortBy (fun a b => decide (a.2.1 ≤ b.2.1)) (fs.flatMap fun f => (s.vf f).withheld.map fun w => (f, w))
  if ws.isEmpty then s
  else
    let en := (s.gran gr).rotEn
    let s := s.updGran gr fun g => { g with rotEn := false }
    let s := fs.foldl (fun s f => s.updVf f fun v => { v with withheld := [] }) s
    (ws.foldl (fun s w => s.release1 w.1 w.2.2) s).updGran gr fun g => { g with rotEn := en }

/-- A change of ROTCFG has taken effect: the functions that hold the slice now have their withheld completions released, and without rotation no gang waits
in shadow storage (R377, R380). -/
def State.newHolders (s : State) (gr : Nat) : State :=
  let fs := (List.range 64).filter fun f => s.boundTo f gr
  let s := s.releaseWithheld gr (fs.filter fun f => s.holds f)
  if (s.gran gr).rotEn then s
  else { s with gangs := s.gangs.map fun q => if q.shadow && (s.launch? q.launch).any (fun l => fs.contains l.vf) then { q with shadow := false } else q }

/-- A rotation that is not under way takes the entry `k`, from a new quantum on; a waiting write of ROTCFG takes effect (R377, R378). -/
def State.stays (s : State) (gr k : Nat) : State := (s.updGran gr fun g => { g.applyRot with entry := k, quantumFrom := g.tick }).newHolders gr

/-- QUANTUM_END: the quantum of the current entry is over and the preload finished; the slice's gangs are asked to stop. Without a swap the function goes on
where it is the only one in rotation that has work, where no other is in rotation, or where a waiting write of ROTCFG ends the rotation (R377 to R379). -/
def execQuantumEnd (gr : Nat) (s : State) : Out :=
  let g := s.gran gr
  let over_ := !s.entryOk gr g.entry || decide (g.quantum g.entry ≤ (g.tick - g.quantumFrom).toNat)
  if g.num = 0 || !g.rotEn || g.hold || g.resetting || g.rotating || !over_ then .next s
  else
    let vf := g.entryVf g.entry
    let t := s.updGran gr Granule.applyRot
    let g' := t.gran gr
    let ks := (List.range (g'.rotNm + 1)).filter fun j => t.entryOk gr j
    let mine := (if ks.contains g.entry && g'.entryVf g.entry = vf then some g.entry else none).or (ks.find? fun j => g'.entryVf j = vf)
    let works := ks.filter fun j => s.hasWork (g'.entryVf j)
    if !g'.rotEn then .next (s.stays gr g.entry)
    else match t.nextRot gr vf with
      | none => .next (match mine with | some m => s.stays gr m | none => s)
      | some k =>
        if mine.isSome && !works.isEmpty && works.all (fun j => g'.entryVf j = vf) then .next (s.stays gr (mine.getD g.entry))
        else if !g.preloaded && g'.entryVf k ≠ vf then .next s
        else .next ((s.gangs.filter fun q => q.st = .resident && gr ≤ q.cluster / 4 && q.cluster / 4 < gr + g.num).foldl (fun s q => s.askSave q.key)
          (s.updGran gr fun g => { g with rotating := true }))

/-- The saved gangs of a function that a rotation has stopped, oldest save first (R378). -/
def State.shadowGangs (s : State) (vf : Nat) : List Gang :=
  sortBy (fun a b => decide (a.order ≤ b.order)) (s.gangs.filter fun q => q.st = .saved && q.shadow && (s.launch? q.launch).any fun l => l.vf = vf)

/-- Read the register images of a gang's groups into shadow storage; none when a control record has been written (R373, R379). -/
def State.preloadGang (s : State) (k : Gang) : Option State :=
  match s.launch? k.launch with
  | none => some s
  | some l =>
    let take (acc : Option (List Group)) (g : Group) : Option (List Group) :=
      acc.bind fun gs => if g.gang = k.key && !k.unwritten then (s.loadRegs g (l.groupBlock k.slot g.wgid g.gid)).map fun h => gs ++ [h] else some (gs ++ [g])
    let s := (s.savedGroups.filter fun g => g.gang = k.key && !k.unwritten).foldl (fun s g =>
      s.blockNote l.vf (g.regRuns (l.groupBlock k.slot g.wgid g.gid)) (g.agent g.me.pc)) s
    (s.savedGroups.foldl take (some [])).map fun gs => ({ s with savedGroups := gs } : State).updGang k.key fun q => { q with imaged := true }

/-- PRELOAD_COMPLETE: the register image of the next entry's function is in shadow storage, and no other one is (R379). -/
def execPreloadComplete (gr : Nat) (s : State) : Out :=
  let g := s.gran gr
  let t := s.updGran gr Granule.applyRot
  if g.rotating then .next s
  else match t.nextRot gr (g.entryVf g.entry) with
    | none => .next (s.updGran gr fun g => { g with preloaded := true })
    | some k =>
      let vf := (t.gran gr).entryVf k
      let away (q : Gang) : Bool := (s.launch? q.launch).any fun l => s.boundTo l.vf gr
      let u : State := { s with gangs := s.gangs.map fun q => if away q then { q with imaged := false } else q }
      match (u.shadowGangs vf).foldl (fun (a : Option State) q => a.bind fun s => s.preloadGang q) (some u) with
      | some u => .next (u.updGran gr fun g => { g with preloaded := true })
      | none => .fault .unpredictable

/-- The registers and control records of some functions that stand in shadow storage alone are written to their groups' blocks (R379). -/
def State.writeImages (s : State) (fs : List Nat) : State :=
  (s.gangs.filter fun q => q.unwritten && (s.launch? q.launch).any fun l => fs.contains l.vf).foldl (fun s q =>
    match s.launch? q.launch with
    | none => s
    | some l =>
      let s := (s.savedGroups.filter fun g => g.gang = q.key).foldl (fun s g =>
        s.saveRegs g (g.stopped = some true) (l.groupBlock q.slot g.wgid g.gid)) s
      s.updGang q.key fun q => { q with unwritten := false }) s

/-- Place the tiles of a gang's workgroups again, each on its own core; none when they do not fit (R319, R322). -/
def State.replaceAll (s : State) (cl : Nat) (clus : List (Nat × Nat)) : List (Nat × List Handle) → Option (List (List Handle))
  | [] => some []
  | (c, hs) :: r =>
    match replaceTiles (s.unitsUsed cl c false) clus hs with
    | none => none
    | some hs =>
      let more := (hs.filter fun t => t.st = .allocated && t.clus).map fun t => (t.base, tileUnits t.rows t.rowb)
      (s.replaceAll cl (more ++ clus) r).map (hs :: ·)

/-- A gang that a rotation saved returns to the places that it left, its tiles placed again; one whose tiles fit there no longer waits as any saved gang
does (R322, R365, R378). -/
def State.returnGang (s : State) (k : Gang) : Option State :=
  match s.launch? k.launch with
  | none => some s
  | some l =>
    match s.needs l (.saved k) with
    | .error va => some (s.faultLaunch l.key 0x12 0 (BitVec.ofNat 64 va))
    | .ok ns =>
      let ws := s.gangWgs k
      let gs := s.savedGroups.filter fun g => g.gang = k.key
      match s.replaceAll k.cluster (s.unitsUsed k.cluster 0 true) ((ws.zip ns).map fun p => (p.1.core, p.2.handles)) with
      | none => some (s.updGang k.key fun g => { g with shadow := false })
      | some hs =>
        let s := s.enrol l.hdr k.cluster ws.length gs.length
        let s : State := { s with nextKey := s.nextKey + 1 }.updGang k.key fun g =>
          { g with st := .resident, shadow := false, unwritten := false, imaged := false, order := s.nextKey }
        let s := s.reloadWgs l k k.cluster (l.tileImage k.slot) ((ws.zip hs).map fun p => (p.1, p.1.core, p.2))
        s.reloadGroups l k (fun _ g => (g.cluster, g.core, g.gslot)) gs

/-- CONTEXT_SWAP: with every group of the slice saved, the next entry takes it, unless the slice is held: the outgoing registers go to their blocks, the
incoming function's withheld completions are released, and the gangs that a rotation saved resume where they stood (R378 to R380, R385). The engines change
owner (R215, R236). A waiting write of ROTCFG takes effect (R377). -/
def execContextSwap (gr : Nat) (s : State) : Out :=
  let g := s.gran gr
  let mine (x : Group) : Bool := !x.gone && decide (gr ≤ x.cluster / 4) && decide (x.cluster / 4 < gr + g.num)
  if !g.rotating || g.hold || s.allGroups.any mine then .next s
  else
    let old := g.entryVf g.entry
    let t := s.updGran gr Granule.applyRot
    let k := (t.nextRot gr old).getD g.entry
    let vf := (t.gran gr).entryVf k
    let s := s.writeImages [old]
    let s := s.updGran gr fun g => { g.applyRot with entry := k, rotating := false, preloaded := false, quantumFrom := g.tick }
    let s := ((List.range (4 * g.num)).map fun i => 4 * gr + i).foldl (fun s c => if old = vf then s else s.clearEngine c (some old)) s
    let s := s.newHolders gr
    let s : State := if s.mayPlace vf then s else { s with gangs := s.gangs.map fun q => if (s.launch? q.launch).any (fun l => l.vf = vf) then { q with shadow := false } else q }
    match (s.shadowGangs vf).foldl (fun (a : Option State) q => a.bind fun s => s.returnGang q) (some s) with
    | some s => .next s
    | none => .fault .unpredictable

/-! ### Leases (R392, R393) -/

/-- An engine may run a borrowed pass: no slot of it is reserved, and its own slice has neither an entry nor a pass there (R392). -/
def State.lendable (s : State) (cl : Nat) : Bool :=
  let k := s.cluster cl
  k.accReserved = 0 && k.res.isEmpty && k.run.isNone

/-- A pass that some engine offers, and that an engine of slice `lender` may run (R392). -/
def State.offers (s : State) (lender : Nat) : List (Nat × ResEnt) :=
  let l := s.gran lender
  (List.range 64).flatMap fun c =>
    let b := s.sliceOf (c / 4)
    if b = lender || !l.lend.getLsbD b || l.hold || (s.gran b).hold || l.rpEn || (s.gran b).rpEn then []
    else ((s.cluster c).res.filter fun e => e.offered.isSome && (s.vf e.vf).brw).map fun e => (c, e)

/-- LEASE_GRANT: an idle lendable engine takes the pass that was offered earliest, of the lower cluster on a tie; a change of owner clears it. A
cluster below point 5 takes none, since a borrowed pass keeps its clock at 1.7 GHz or above. An engine that has woken for a pass which is offered no more is
idle again (R392, R393, R410; log entry 79). -/
def execLeaseGrant (cl : Nat) (s : State) : Out :=
  let off (p : Nat × ResEnt) : Nat := p.2.offered.getD 0
  if !s.lendable cl || decide ((s.cluster cl).point < 5) then .next s
  else match (s.offers (s.sliceOf (cl / 4))).foldl (fun (b : Option (Nat × ResEnt)) p =>
      match b with
      | none => some p
      | some q => if off p < off q then some p else some q) none with
    | none => .next (s.engineIdle cl)
    | some (c, e) =>
      let s := s.arrive (engineUnit cl)
      if (s.gate (engineUnit cl)).waking then .next s
      else
        let s := if (s.cluster cl).owner = some e.vf then s else s.clearEngine cl none
        let s := s.updCluster c fun k => { k with res := k.res.filter fun x => !(x.gid = e.gid && x.op = e.op) }
        .next ((s.updCluster cl fun k =>
          { k with owner := some e.vf, run := some { gid := e.gid, op := e.op, vf := e.vf, borrowed := true, home := c } }).noteOffers c)

end Sys2Proof.Machine
end

