-- ==== Sys2Proof/Machine/Slices.lean ====
section
/-!
DEFINITION. Slices and functions as the hypervisor shapes them: hold and quiescence, fuse and split, binding, and resets (R381 to R388, R398, R399).
-/
set_option Elab.async false
namespace Sys2Proof.Machine
open Sys2Proof

namespace State

/-- A granule is the first of a slice. -/
def isSlice (s : State) (gr : Nat) : Bool := decide (gr < 16) && (s.gran gr).num ≠ 0

/-- The functions bound to a slice. -/
def functionsOf (s : State) (gr : Nat) : List Nat := (List.range 64).filter fun n => s.boundTo n gr

/-- The physical function's reserved-write status bit (R383). -/
def pfNote (s : State) : State := { s with pfRws := true }

/-- Gangs resident on the clusters of a slice. -/
def gangsOn (s : State) (gr : Nat) : List Gang :=
  s.gangs.filter fun k => k.st = .resident && decide (gr ≤ k.cluster / 4) && decide (k.cluster / 4 < gr + (s.gran gr).num)

/-- Passes, invocations, copies, traversals and draws of some functions that are outstanding (R385). -/
def outstanding (s : State) (fs : List Nat) : Bool :=
  let open_ (k : OpKind) : Bool := match k with
    | .pass .. | .delta .. | .mma .. | .copy .. | .ray .. => true
    | _ => false
  (s.allGroups.any fun g => fs.contains g.vf && g.ops.any fun o => !o.fin && open_ o.kind) ||
  (s.grans.toList.any fun g => g.draws.any fun d => fs.contains d.vf) ||
  s.clusters.toList.any fun k => (k.res.any fun e => fs.contains e.vf) || (match k.run with | some r => fs.contains r.vf | none => false)

/-- Groups of some functions are resident. -/
def residents (s : State) (fs : List Nat) : Bool := s.allGroups.any fun g => !g.gone && fs.contains g.vf

/-- Page requests of some functions are unserved. -/
def asksPages (s : State) (fs : List Nat) : Bool := (s.prq.any fun r => fs.contains r.vf) || s.prqWait.any fun w => fs.contains w.1

end State

/-! ### Rails (R407 to R409) -/

/-- The voltage of an operating point, in mV (R407). -/
def pointMv (p : Nat) : Nat := match p with | 0 => 600 | 1 => 650 | 2 => 700 | 3 => 750 | 4 => 800 | 5 => 830 | 6 => 880 | _ => 920

namespace State

def rail (s : State) (r : Nat) : Rail := tget s.rails r {}
def setRail (s : State) (r : Nat) (x : Rail) : State := { s with rails := tset s.rails r x }

/-- The clusters of a slice. -/
def clustersOf (s : State) (gr : Nat) : List Nat := (List.range (4 * (s.gran gr).num)).map fun i => 4 * gr + i

/-- A slice's vote (R409). -/
def sliceVote (s : State) (gr : Nat) : Nat := ((s.clustersOf gr).map fun c => pointMv (max (s.cluster c).point (s.cluster c).want)).foldl max 0

/-- A rail takes a target: a rise cancels a hold or a descent; a fall begins a hold, but one during a hold or a descent is taken at once (R409). -/
def railAimed (x : Rail) (t : Nat) : Rail :=
  { x with target := t, holding := decide (t < x.mv) && (if x.target < x.mv then x.holding else true) }

/-- The votes are counted again, and a rail whose target changes acts on it (R409). -/
def revote (s : State) : State :=
  let sl := (List.range 16).filter s.isSlice
  let s := sl.foldl (fun s g => s.updGran g fun k => { k with vote := s.sliceVote g }) s
  (List.range 4).foldl (fun s r =>
    let t := ((sl.filter fun g => (s.gran g).rail = r).map fun g => (s.gran g).vote).foldl max 0
    if t = 0 || t = (s.rail r).target then s else s.setRail r (railAimed (s.rail r) t)) s

/-- The highest point, from `p` down, whose voltage a rail carries; the lowest one where it carries none (R408). -/
def carried (mv : Nat) : Nat → Nat
  | 0 => 0
  | p + 1 => if pointMv (p + 1) ≤ mv then p + 1 else carried mv p

/-- A slice stands on another rail: its clusters have lowered to points that the rail carries, and the votes are counted (R408, R409). -/
def settleRail (s : State) (gr : Nat) : State :=
  let mv := (s.rail (s.gran gr).rail).mv
  ((s.clustersOf gr).foldl (fun s c => s.updCluster c fun k => { k with point := carried mv k.point, want := carried mv k.point }) s).revote

end State

/-! ### Hold and quiescence (R385) -/

/-- SCTL.HOLD is written: 1 stops the lantern and asks every resident gang to stop; 0 lets it go on (R385). -/
def execSctlHold (gr : Nat) (hold : Bool) (s : State) : Out :=
  if !s.isSlice gr then .next s
  else if hold then .next ((s.gangsOn gr).foldl (fun s k => s.askSave k.key) (s.updGran gr fun g => { g with hold := true }))
  else .next (s.updGran gr fun g => { g with hold := false, quiet := false })

/-- SLICE_QUIESCENT: nothing of the slice is resident or outstanding, and every gang is saved to memory, what a rotation left in shadow storage too (R385). -/
def execSliceQuiescent (gr : Nat) (s : State) : Out :=
  let fs := s.functionsOf gr
  let lent := (List.range (4 * (s.gran gr).num)).any fun i => match (s.cluster (4 * gr + i)).run with | some r => r.borrowed | none => false
  if !s.isSlice gr || !(s.gran gr).hold || s.residents fs || !(s.gangsOn gr).isEmpty || s.outstanding fs || lent || s.asksPages fs then .next s
  else .next ((s.writeImages fs).updGran gr fun g => { g with quiet := true })

/-! ### Fuse and split (R386, R387) -/

/-- The slices that a range of granules touches. -/
def State.slicesIn (s : State) (first num : Nat) : List Nat :=
  (List.range 16).filter fun g => s.isSlice g && decide (g < first + num) && decide (first < g + (s.gran g).num)

/-- A slice is quiescent and has no open frame (R386). -/
def State.calm (s : State) (gr : Nat) : Bool :=
  (s.gran gr).quiet && (List.range (s.gran gr).num).all fun k => (s.gran (gr + k)).streams.toList.all fun t => t.frames.isEmpty

/-- A fuse that is not refused (R386). -/
def State.fuseOk (s : State) (first num : Nat) : Bool :=
  let sl := s.slicesIn first num
  decide (1 ≤ num) && decide (first + num ≤ 16) && decide (2 ≤ sl.length) && s.isSlice first &&
  sl.all (fun g => decide (first ≤ g) && decide (g + (s.gran g).num ≤ first + num)) && sl.all s.calm &&
  sl.all fun g => g = first || (s.functionsOf g).isEmpty

/-- A split that is not refused (R386). -/
def State.splitOk (s : State) (first num : Nat) : Bool :=
  let a := s.sliceOf first
  let n := (s.gran a).num
  decide (1 ≤ num) && decide (first + num ≤ 16) && decide (first + num ≤ a + n) && !(first = a && num = n) && s.calm a

/-- A write of PCMD that starts operation `op`, unless one runs (R386). -/
def State.pcmd (s : State) (op first num : Nat) (ok : Bool) : State :=
  if s.pcmdStat = 1 then s
  else { s with pcmdOp := op, pcmdFirst := first, pcmdNum := num, pcmdJob := (op, first, num), pcmdStat := if ok then 1 else 3 }

def execPcmdFuse (first num : Nat) (s : State) : Out := .next (s.pcmd 1 first num (s.fuseOk first num))
def execPcmdSplit (first num : Nat) (s : State) : Out := .next (s.pcmd 2 first num (s.splitOk first num))
/-- OP 11 is refused at once (R386). -/
def execPcmdRefusedOp (v : Word64) (s : State) : Out := .next (s.pcmd 3 (v.toNat % 16) (bitsOf v.toNat 12 8) false)

/-- What a granule keeps whatever slice it belongs to: its tick counter and its streams (R37). -/
def Granule.keeping (g old : Granule) : Granule := { g with tick := old.tick, streams := old.streams, progress := old.tick, units := [], windowFrom := old.tick,
                                                                             bgTicks := 0, bgNext := 0 }

/-- Make `n` granules from `f` on one slice with the control block `c`: the others' blocks are inactive (R382, R387). -/
def State.shape (s : State) (f n : Nat) (c : Granule) : State :=
  (List.range n).foldl (fun s k => s.updGran (f + k) fun old =>
    if k = 0 then Granule.keeping { c with num := n, hold := true, quiet := true } old
    else Granule.keeping { Granule.atReset (f + k) with num := 0 } old) s

/-- The steps of an accepted operation: the withheld completions of its slices go out and the L2 lines of their colours are written back and dropped,
whoever's they are (R387, R403, R407). -/
def State.pcmdFinish (s : State) : State :=
  if s.pcmdStat ≠ 1 then s
  else
    let first := s.pcmdJob.2.1
    let num := s.pcmdJob.2.2
    let sl := s.slicesIn first num
    let fs := sl.flatMap s.functionsOf
    let s := s.releaseWithheld (sl.headD first) fs
    let s := s.flushLines fun l => sl.any fun g => decide (g ≤ l.home / 96) && decide (l.home / 96 < g + (s.gran g).num)
    let s :=
      if s.pcmdJob.1 = 1 then
        s.shape first num { s.gran first with slpow := BitVec.ofNat 16 ((sl.map fun g => (s.gran g).slpow.toNat).sum) }
      else
        let a := sl.headD first
        let c := s.gran a
        let share (n : Nat) : BitVec 16 := BitVec.ofNat 16 (c.slpow.toNat * n / max 1 c.num)
        let part (s : State) (f n : Nat) : State :=
          if n = 0 then s
          else if f = a then s.shape f n { c with slpow := share n }
          else s.shape f n { Granule.atReset f with slpow := share n, rail := c.rail }
        part (part (part s a (first - a)) first num) (first + num) (a + c.num - (first + num))
    { ((List.range 16).filter fun g => sl.contains (s.sliceOf g) || (decide (first ≤ g) && decide (g < first + num))).foldl (fun s g =>
        if s.isSlice g then s.settleRail g else s) s with pcmdStat := 2 }

/-- PCMD_OPERATION_DONE: the accepted fuse or split takes place (R387). -/
def execPcmdOperationDone (s : State) : Out := .next s.pcmdFinish

/-! ### Resets of a slice and of a function (R398, R399) -/

/-- The groups, workgroups and gangs of some functions are there no longer, and their clusters get back what they held. -/
def State.discard (s : State) (fs : List Nat) : State :=
  let mine (g : Group) : Bool := fs.contains g.vf
  let ks := (s.launches.filter fun l => fs.contains l.vf).map (·.key)
  let gs := s.allGroups.filter mine
  let ws := s.wgs.filter fun w => fs.contains w.vf
  let s := gs.foldl (fun s g => s.updCluster g.cluster fun c => { c with accReserved := c.accReserved - g.na }) s
  let s := ws.foldl (fun s w => s.updCluster w.cluster fun c => { c with weight := c.weight - w.weight }) s
  let s : State :=
    { s with
      cur := if mine s.cur then {} else s.cur
      groups := s.groups.filter (fun g => !mine g)
      savedGroups := s.savedGroups.filter (fun g => !mine g)
      wgs := s.wgs.filter (fun w => !fs.contains w.vf)
      savedWgs := s.savedWgs.filter (fun w => !fs.contains w.vf)
      gangs := s.gangs.filter fun k => !ks.contains k.launch }
  gs.foldl (fun s g => if g.gone then s else ((s.quadIdle g.coreIx g.gslot).rayIdle g.cluster).filterIdle g.coreIx) s

/-- A requester asks for no page any more. -/
def State.dropAsker (s : State) (who : Requester) : State :=
  { s with
    prq := s.prq.map (fun r => { r with who := r.who.filter (· ≠ who) })
    prqWait := s.prqWait.filter (fun w => w.2.2.2.2 ≠ who)
    prqFailed := s.prqFailed.filter (· ≠ who) }

/-- The passes of some functions stop: their entries and cached headers go, and an engine that runs one is free and clear; another function's borrowed
pass on these clusters goes back to its own engine, and what it asked of the page-request queue for the lender with it (R390, R398, R410). -/
def State.stopPasses (s : State) (fs : List Nat) (here : Nat → Bool) : State :=
  let stop (s : State) (c : Nat) : State :=
    let s := s.updCluster c fun k => { k with recs := k.recs.filter fun r => !fs.contains r.vf }
    let s := match (s.cluster c).run with
      | none => s
      | some r =>
        if fs.contains r.vf then s.updCluster c fun k => { k with run := none, scales := [], recs := [] }
        else if here c && r.borrowed then
          ((((s.updCluster c fun k => { k with run := none }).dropAsker (.pass c)).arrive (engineUnit r.home)).updCluster r.home fun k =>
            { k with res := { gid := r.gid, op := r.op, vf := r.vf, post := 0 } :: k.res }).noteOffers r.home
        else s
    s.dropEntries c fun e => fs.contains e.vf
  ((List.range 64).foldl stop s).settleRecs

/-- Accepted draws and open frames of some functions are abandoned; each stream whose latest frame was one of theirs, or that stands in the slice, codes
its next one as a key frame (R398, R399). -/
def State.stopUnits (s : State) (fs : List Nat) (here : Nat → Bool) : State :=
  (List.range 16).foldl (fun s n => s.updGran n fun g =>
    let stream (t : Stream) : Stream :=
      { t with frames := t.frames.filter (fun f => !fs.contains f.vf), nextKey := t.nextKey || here (4 * n) || t.owner.any fs.contains }
    { g with draws := g.draws.filter (fun d => !fs.contains d.vf), streams := g.streams.map stream }) s

/-- The function of a requester. -/
def State.requesterVf (s : State) : Requester → Option Nat
  | .group gid | .rayLane gid _ _ => (s.group? gid).map (·.vf)
  | .pass cl => (s.cluster cl).run.map (·.vf)
  | .rast gr => (s.gran gr).draws.head?.map (·.vf)
  | .enc gr n => (tget (s.gran gr).streams n {}).frames.head?.map (·.vf)
  | .incoming tag => (s.incoming.find? fun a => a.tag = tag).map (·.vf)
  | .slotRead vf _ => some vf
  | .header l | .dep l | .compl l => (s.launch? l).map (·.vf)

/-- The page-request entries of some functions are freed, with the failures that their requesters have not yet met, and no requester is resumed (R344,
R398). -/
def State.dropRequests (s : State) (fs : List Nat) : State :=
  { s with
    prq := s.prq.filter (fun r => !fs.contains r.vf)
    prqWait := s.prqWait.filter (fun w => !fs.contains w.1)
    prqFailed := s.prqFailed.filter fun r => !(s.requesterVf r).any fs.contains }.refill

/-- The work of some functions is abandoned: groups, passes, draws, frames, page requests, and their lines; with them go the lines and the registered lines
of the colours of the clusters that `here` picks (R398). -/
def State.abandon (s : State) (fs : List Nat) (here : Nat → Bool) : State :=
  let s := ((s.dropRequests fs).stopPasses fs here).stopUnits fs here
  let s := s.discard fs
  let s := s.flushLines fun l => fs.contains l.vf || here (l.home / 96 * 4)
  let s := { s with barLines := s.barLines.filter fun b => !(here (b.2.1 / 96 * 4) || fs.contains b.2.2) }
  s.dropL1s fun e => fs.contains e.vf

/-- A launch is completed with STATUS 4 by a reset; one whose completion was withheld is complete already, and only its record changes (R356, R360, R380,
R398). -/
def State.abandonLaunch (s : State) (key : Nat) : State :=
  match s.launch? key with
  | none => s
  | some l => match l.stage with
    | .finish _ => (s.updLaunch key fun l => { l with status := 4, stage := .finish 0 }).finishSteps key 3
    | _ => s.completeLaunch key 4

/-- Launches of some functions that have been taken and are not complete, or whose completion is withheld, in the order taken (R380, R398). -/
def State.unfinished (s : State) (fs : List Nat) : List Nat :=
  (s.launches.filter fun l => fs.contains l.vf && (match l.stage with
    | .finish _ => (s.vf l.vf).withheld.any fun w => w.2 = .launchSteps l.key
    | _ => true)).map (·.key)

/-- SCTL_RST: a per-slice reset abandons and clears the work of every function bound to the slice. An accepted PCMD operation on the slice finishes first
(R398). -/
def execSctlRst (gr : Nat) (s : State) : Out :=
  if !s.isSlice gr || !(s.gran gr).rdone then .next s
  else
    let s := if s.pcmdStat = 1 && (s.slicesIn s.pcmdJob.2.1 s.pcmdJob.2.2).contains gr then s.pcmdFinish else s
    let fs := s.functionsOf gr
    let n := (s.gran gr).num
    let here (c : Nat) : Bool := decide (gr ≤ c / 4) && decide (c / 4 < gr + n)
    let work (f : Nat) : Bool := s.launches.any (fun l => l.vf = f) || s.outstanding [f] || !(s.vf f).withheld.isEmpty ||
      s.grans.toList.any fun g => g.streams.toList.any fun t => t.frames.any fun x => x.vf = f
    let s := fs.foldl (fun s f => if work f then s.updVf f fun v => { v with srst := true } else s) s
    let keys := s.unfinished fs
    let s := s.abandon fs here
    let s := fs.foldl (fun s f => s.updVf f fun v => { v with withheld := [] }) s
    let s := keys.foldl (fun s k => s.abandonLaunch k) s
    let s := (List.range (4 * n)).foldl (fun s i => s.updCluster (4 * gr + i) fun k => { k with scales := [], recs := [], owner := none }) s
    let s := (s.sliceCores gr).foldl (fun s c => s.updCore c fun k => { k with l1 := [] }) s
    .next (s.updGran gr fun g => { g with rdone := false, resetting := true, rotating := false, stuck := false, units := [] })

/-- SLICE_RESET_DONE: HOLD, QUIET and RDONE are set, and the votes are counted (R398, R409). -/
def execSliceResetDone (gr : Nat) (s : State) : Out :=
  if !(s.gran gr).resetting then .next s
  else .next (s.updGran gr fun g => { g with resetting := false, hold := true, quiet := true, rdone := true, hangReported := false }).revote

/-- FUNCTION_LEVEL_RESET: the function's work is abandoned without a completion record or a signal, its own registers, region entries and launch numbering
take their reset values, and a function that holds the slice under rotation gives it up (R399). -/
def execFunctionLevelReset (vf : Nat) (s : State) : Out :=
  if 64 ≤ vf || !(s.vf vf).flrDone then .next s
  else
    let gr := (s.vf vf).slice
    let held := (s.vf vf).bound && s.holds vf && (s.gran gr).rotEn
    let s := s.abandon [vf] fun _ => false
    let s : State := { s with launches := s.launches.filter fun l => l.vf ≠ vf }
    let s := s.updVf vf fun v =>
      { spol := v.spol, inv2 := v.inv2, busy := v.busy, brw := v.brw, bound := v.bound, slice := v.slice, newSlice := v.newSlice, lipass := v.lipass, limac := v.limac,
        libyte := v.libyte, s1root := v.s1root, s2root := v.s2root, config := v.config, msix := v.msix, flrDone := false }
    if !held then .next s
    else match s.nextRot gr vf with
      | none => .next s
      | some _ => execContextSwap gr (s.updGran gr fun g => { g with rotating := true })

/-- FUNCTION_LEVEL_RESET_DONE (R399). -/
def execFunctionLevelResetDone (vf : Nat) (s : State) : Out := .next (if vf < 64 then s.updVf vf fun v => { v with flrDone := true } else s)

/-! ### Binding (R388) -/

/-- VF_BIND: BOUND := 1 is written, with its SLICE and BRW; in the three cases of R388 the write is ignored and noted. A function that is bound already, or whose
unbinding is under way, takes BRW and SLICE: it goes on as it was, and SLICE counts once it is unbound (R9; log entries 27 and 72). -/
def execVfBind (vf slice brw : Nat) (s : State) : Out :=
  let v := s.vf vf
  let sl := slice % 16
  let full := decide (4 ≤ ((s.functionsOf sl).filter (· ≠ vf)).length)
  if 64 ≤ vf then .next s
  else if !s.isSlice sl || full || ((s.gran sl).hold && !(s.gran sl).quiet) then .next s.pfNote
  else if v.bound then .next (s.updVf vf fun v => { v with brw := brw ≠ 0, newSlice := some sl })
  else .next (s.updVf vf fun v => { v with bound := true, slice := sl, brw := brw ≠ 0 }).refill

/-- VF_UNBIND: BOUND := 0 is written; the function's gangs are asked to stop. One that is being unbound goes on with that (R388). -/
def execVfUnbind (vf : Nat) (s : State) : Out :=
  let v := s.vf vf
  if 64 ≤ vf || !v.bound || v.busy then .next s
  else
    let ks := (s.allGroups.filter fun g => g.vf = vf && !g.gone).map (·.gang)
    .next (ks.foldl (fun s k => s.askSave k) (s.updVf vf fun v => { v with busy := true }))

/-- VF_UNBIND_COMPLETE: every gang of the function is saved and its outstanding work complete; its withheld completions are released and its reserved
entries freed, and SLICE is what was written meanwhile (R388). -/
def execVfUnbindComplete (vf : Nat) (s : State) : Out :=
  if !(s.vf vf).busy || s.residents [vf] || s.outstanding [vf] || s.asksPages [vf] then .next s
  else
    let s := (s.writeImages [vf]).releaseWithheld (s.vf vf).slice [vf]
    let s : State := { s with gangs := s.gangs.map fun q => if (s.launch? q.launch).any (fun l => l.vf = vf) then { q with shadow := false, imaged := false } else q }
    .next (s.updVf vf fun v => { v with bound := false, busy := false, slice := v.newSlice.getD v.slice, newSlice := none }).refill

end Sys2Proof.Machine
end

