-- ==== Sys2Proof/Machine/Faults.lean ====
section
/-!
DEFINITION. Errors that the hardware detects: the watchdog, uncorrectable and corrected errors, and retirement (R396, R397, R400 to R402).
-/
set_option Elab.async false
namespace Sys2Proof.Machine
open Sys2Proof

/-- A hang is reported: an error-log record of kind 0x07 and the slice error interrupt (R396). -/
def State.reportHang (s : State) (gr : Nat) : State :=
  let s := s.logError gr 0x07 0xFF 0xFF 0
  s.raisePf 0

/-- A list of numbers as one number. -/
def joined (l : List Nat) : Nat := l.foldl (fun a x => a * 2 ^ 64 + x % 2 ^ 64) l.length

/-- The passes, invocations, copies, traversals, draws and frames of a slice: each with a number of its own and how far it has come (R396). -/
def State.unitsOf (s : State) (gr : Nat) : List (Nat × Nat) :=
  let n := (s.gran gr).num
  let run (gid op : Nat) : Nat :=
    (s.clusters.toList.findSome? fun k => k.run.bind fun r =>
      if r.gid = gid && r.op = op then some (joined [1, r.rows, b2n r.computed, r.writes.length]) else none).getD 0
  let op (g : Group) (o : Op) : Option Nat := match o.kind with
    | .pass .. | .delta .. | .mma .. => some (run g.id o.seq)
    | .copy c => some c.fin.length
    | .ray _ lanes _ => some (joined (lanes.flatMap fun l => [b2n l.begun, b2n l.fin, (l.next.map (·.1)).getD 0, (l.next.map (·.2)).getD 0]))
    | _ => none
  ((s.allGroups.filter fun g => g.slice = gr).flatMap fun g => (g.ops.filter (!·.fin)).filterMap fun o => (op g o).map fun m => (joined [1, g.id, o.seq], m)) ++
  (List.range n).flatMap fun k =>
    ((s.gran (gr + k)).draws.map fun d => (joined [2, d.gid, d.seq], joined [b2n d.begun, d.ix, d.used, d.todo.length, d.flushes, b2n d.slot.isSome])) ++
    (List.range 4).flatMap fun i => (tget (s.gran (gr + k)).streams i {}).frames.map fun f =>
      (joined [3, f.gid, f.va, 4 * (gr + k) + i], joined [f.marks.length, f.encoded, f.low])

/-- The watchdog notes when each unit of work of a slice last made progress (R396). -/
def State.noteUnits (s : State) (gr : Nat) : State :=
  let now := if (s.gran gr).wdog = 0 then [] else s.unitsOf gr
  s.updGran gr fun g =>
    let keep (u : Nat × Nat) : Nat × Nat × Word64 := (g.units.find? fun x => x.1 = u.1 && x.2.1 = u.2).getD (u.1, u.2, g.tick)
    { g with units := now.map keep }

/-- WATCHDOG_HANG: groups of the slice are resident and nothing of it has moved for WDOG ticks; or one pass, invocation, copy, traversal, draw or frame of it
has not (R396). -/
def execWatchdogHang (gr : Nat) (s : State) : Out :=
  let g := s.gran gr
  let old (t : Word64) : Bool := decide (g.wdog.toNat ≤ (g.tick - t).toNat)
  let long := s.residents (s.functionsOf gr) && old g.progress
  if !s.isSlice gr || g.wdog = 0 || g.hangReported || !(long || g.units.any fun u => old u.2.2) then .next s
  else .next ((s.reportHang gr).updGran gr fun g => { g with hangReported := true })

/-! ### Uncorrectable errors (R397) -/

/-- The slice in whose log an error of a granule is written. -/
def State.logOf (s : State) (granule : Nat) : Nat := s.sliceOf (min granule 15)

/-- The granule of a line of device memory: its HBM4E, or the half of its LPDDR-6 channels. -/
def memGran (a : Nat) : Nat := if a < 0x10000000000 then a / 0x600000000 else (a - 0x10000000000) / 0x800000000 / 2

/-- The class of a line of memory: HBM4E or LPDDR-6 (R402). -/
def memClass (a : Nat) : Nat := if a < 0x10000000000 then 0 else 1

/-- The launches of some groups fault (R395, R397). -/
def State.faultGroups (s : State) (p : Group → Bool) (cause : Nat) : State :=
  (((s.allGroups ++ s.savedGroups).filter fun g => p g && !g.gone).map (·.launch)).foldl (fun s k => s.faultLaunch k cause 0 0) s

/-- UNCORRECTABLE_ERROR, by site (R397; log entry 29). Site 0: the line at host-physical `addr`. Site 1: a register-file word of group slot `addr` mod 64 of
core `addr` / 64. Site 2: word `addr` mod 2^32 of tile handle `addr` / 2^32 mod 32 of workgroup key `addr` / 2^37. Site 3: the register image of saved group
`addr`. Site 4: the oldest withheld completion of function `addr`. Site 5: tile table, reservation table or lantern state of the slice of granule `addr`.
Other sites: the package's own structures. -/
def execUncorrectableError (site addr : Nat) (s : State) : Out :=
  match site with
  | 0 =>
    if !isDevice addr then .next s
    else
      let s := s.logError (s.logOf (memGran addr)) 0x03 (memClass addr) 0xFF 0 (64 * (addr / 64))
      .next (if s.poison.contains (addr / 64) then s else { s with poison := addr / 64 :: s.poison })
  | 1 =>
    let p (g : Group) : Bool := g.coreIx = addr / 64 && g.gslot = addr % 64 && s.allGroups.any fun h => h.id = g.id
    let s := s.logError (s.logOf (addr / 1024)) 0x03 4 0xFF (8 * (addr / 16))
    .next (s.faultGroups p 0x10)
  | 2 =>
    match s.wg? (addr / 2 ^ 37) with
    | none => .next s
    | some w =>
      let s := s.logError (s.logOf (w.cluster / 4)) 0x03 5 w.vf (33 * w.cluster)
      .next (s.updHandle w.key (addr / 2 ^ 32 % 32) fun t => if t.st = .allocated then { t with poison := addr % 2 ^ 32 :: t.poison } else t)
  | 3 =>
    match s.savedGroups.find? (fun g => g.id = addr) with
    | none => .next s
    | some g => .next ((s.logError (s.logOf (g.cluster / 4)) 0x03 6 g.vf (17 * (g.cluster / 4))).faultGroups (fun h => h.id = addr) 0x11)
  | 4 =>
    let v := s.vf addr
    let s := s.logError v.slice 0x03 6 addr (17 * v.slice)
    match v.withheld with
    | [] => .next s
    | w :: r =>
      let s := s.updVf addr fun v => { v with withheld := r }
      match w.2 with
      | .launchSteps l => .next ((s.updLaunch l fun l => { l with status := 2, stage := .finish 0 }).finishSteps l 3)
      | .reply _ _ _ ag _ | .status _ _ _ ag =>
        let s := match w.2 with | .reply _ _ _ _ lane => s.replyWritten (ag.gid.getD 0) ag.seq lane | _ => s
        match s.launches.find? fun l => l.vf = addr && l.id = ag.launch with
        | some l => .next (s.faultLaunch l.key 0x11 0 0)
        | none => .next s
      | .pageIrq _ => .next s
  | 5 => .next (((s.logError (s.logOf addr) 0x03 0xFF 0xFF 0).reportHang (s.logOf addr)).updGran (s.logOf addr) fun g => { g with stuck := true })
  | _ => .next { s.logError 0 0x03 0xFF 0xFF 0 with packageFault := true }

/-! ### Corrected errors (R401, R402) -/

/-- The granule that holds an instance (R402). -/
def errGran (cls unit addr : Nat) : Nat :=
  match cls with
  | 0 | 1 => memGran addr
  | 2 => unit / 96
  | 3 => unit / 4096 / 16
  | 4 => unit / 8 / 64
  | 5 => unit / 33 / 4
  | _ => unit / 17

/-- A name of an instance among those of its class: rows have no number of their own, so the row's first line names them. -/
def instanceOf (cls unit addr : Nat) : Nat := if cls ≤ 1 then addr / 64 else unit

/-- The errors of a granule's instances are counted from zero again (R401). -/
def State.restartWindow (s : State) (granule : Nat) : State :=
  { s with errCounts := s.errCounts.filter fun e => errGran e.1 e.2.1 (64 * e.2.1) ≠ granule }

/-- SOFT_ERROR_WINDOW: the granule's tick counter stands at a multiple of SEWIN, and a window begins (R401). -/
def execSoftErrorWindow (gr : Nat) (s : State) : Out :=
  if s.sewin = 0 || (s.gran gr).tick.toNat % s.sewin.toNat ≠ 0 then .next s else .next (s.restartWindow gr)

/-- Whether a spare is left for an instance. How many of a bank's spare rows earlier retirements have taken is free: the spec names no bank of a row
(R402, log entry 13). -/
def State.spareLeft (s : State) (cls unit : Nat) : Bool :=
  let used (f : Nat → Bool) : Nat := (s.retired.filter fun r => r.1 = cls && f r.2).length
  match cls with
  | 0 => used (fun _ => true) < 4 || Config.freeBit s.steps
  | 1 => used (fun _ => true) < 2 || Config.freeBit s.steps
  | 2 => !s.retired.contains (2, unit ^^^ 1)
  | 3 => used (fun u => u / 4096 = unit / 4096) < 64
  | 4 => used (fun u => u / 8 = unit / 8) < 1
  | 5 => used (fun u => u / 33 = unit / 33) < 1
  | _ => used (fun u => u / 17 = unit / 17) < 1

/-- RETIREMENT of an instance (R402): an L2 slice is written back and its lines and registrations pass to its partner; an L1 frame is disabled, and a line
that has no frame left goes; no value changes. -/
def State.retire (s : State) (cls unit addr : Nat) : State :=
  let inst := instanceOf cls unit addr
  let s :=
    if cls = 2 then
      let s := s.flushLines fun l => l.home = unit
      { s with barLines := s.barLines.map fun b => if b.2.1 = unit then (b.1, unit ^^^ 1, b.2.2) else b }
    else if cls = 3 then (s.updCore (unit / 4096) fun k => { k with l1Disabled := unit % 4096 :: k.l1Disabled }).trimL1 (unit / 4096) 0
    else if cls = 4 then s.updCore (unit / 32) fun k => { k with spareRf := tset k.spareRf (unit / 8 % 4) true }
    else if cls = 5 then s.updCluster (unit / 33) fun k => { k with spareBank := true }
    else s
  { s with retired := (cls, inst) :: s.retired }

/-- An instance is retired with a spare; without one, that is logged once (R401, R402). -/
def State.repair (s : State) (cls unit addr : Nat) : State :=
  let inst := instanceOf cls unit addr
  let gr := s.logOf (errGran cls unit addr)
  let log (s : State) (kind : Nat) : State := s.logError gr kind cls 0xFF (if cls ≤ 1 then 0 else unit) (if cls ≤ 1 then addr else 0)
  if s.retired.contains (cls, inst) then s
  else if s.spareLeft cls unit then log (s.retire cls unit addr) 0x05
  else if s.noSpare.contains (cls, inst) then s
  else log { s with noSpare := (cls, inst) :: s.noSpare } 0x06

/-- CORRECTED_ERROR: the instance's count rises, and at its class's threshold it is retired, or, without a spare, logged once (R401, R402). -/
def execCorrectedError (cls unit addr : Nat) (s : State) : Out :=
  if 7 ≤ cls then .next s
  else
    let inst := instanceOf cls unit addr
    let mine (e : Nat × Nat × Nat) : Bool := e.1 = cls && e.2.1 = inst
    let n := (((s.errCounts.find? mine).map (·.2.2)).getD 0) + 1
    let s : State := { s with errCounts := (cls, inst, n) :: s.errCounts.filter fun e => !mine e }
    let thr := bitsOf s.sethr.toNat (8 * cls + 7) (8 * cls)
    .next (if thr = 0 || n < thr then s else s.repair cls unit addr)

end Sys2Proof.Machine
end

