-- ==== Sys2Proof/Machine/Power.lean ====
section
/-!
DEFINITION. Power: control intervals, the power arbiter, operating points and rails, and the power registers (R403 to R409).
-/
set_option Elab.async false
namespace Sys2Proof.Machine
open Sys2Proof

namespace State

/-- A cluster raises its clock to the point it wants once its rail carries that point's voltage (R408). -/
def raiseClock (s : State) (cl : Nat) : State :=
  let k := s.cluster cl
  let r := s.rail (s.gran (s.sliceOf (cl / 4))).rail
  if k.point < k.want && decide (pointMv (k.point + 1) ≤ r.mv) then s.updCluster cl fun k => { k with point := k.point + 1 } else s

end State

/-- CONTROL_INTERVAL: a cluster's 1 µs interval begins: the offer and the demand of the one that ended, the remaining energy, and the operating point
(R404, R406, R408). -/
def execControlInterval (cl : Nat) (s : State) : Out :=
  if 64 ≤ cl then .next s
  else
    let k := s.cluster cl
    let g := s.gran (s.sliceOf (cl / 4))
    let hist := (k.refused :: k.history).take 8
    let lent : Bool := match k.run with | some r => r.borrowed | none => false
    let lower : Bool := (decide (g.top < k.point) || (k.refused && decide (min 5 g.top < k.point))) && !(lent && decide (k.point ≤ 5))
    let point := if lower then k.point - 1 else k.point
    let want := if !lower && decide (point < g.top) && hist.all (!·) && k.granted = 0 then point + 1 else point
    let s := s.updCluster cl fun k =>
      { k with interval := k.interval + 1, demanding := k.refused, offer := if k.refused then 0 else s.baseBudget cl - k.admitted, history := hist,
               remaining := s.budget cl, inForce := s.budget cl, grantIn := k.granted, admitted := 0, refused := false, point, want }
    .next ((s.revote).raiseClock cl).revote

/-- What a cluster can lend in a period of the arbiter: its offer, as far as what it has lent already and its remaining energy cover it (R406). -/
def Cluster.lendable (k : Cluster) : Nat := if k.demanding then 0 else min k.offer (k.lent + k.remaining)

/-- The demanding clusters' shares of what is offered: in proportion to their base budgets, rounded down, none above its base budget (R406, log entry 30). -/
def State.shares (s : State) : List (Nat × Nat) :=
  let all := List.range 64
  let total := (all.map fun c => (s.cluster c).lendable).sum
  let ds := all.filter fun c => (s.cluster c).demanding
  let den := (ds.map s.baseBudget).sum
  ds.map fun c => (c, if den = 0 then 0 else min (s.baseBudget c) (total * s.baseBudget c / den))

/-- The lenders fund a share, in ascending cluster order: lender, borrower, energy; and what each has left to lend (log entry 30). -/
def fund (borrower : Nat) : Nat → List (Nat × Nat) → List (Nat × Nat × Nat) × List (Nat × Nat)
  | _, [] => ([], [])
  | n, (c, left) :: r =>
    let x := min n left
    let (ls, rest) := fund borrower (n - x) r
    (if x = 0 then ls else (c, borrower, x) :: ls, (c, left - x) :: rest)

/-- A cluster's loans stand as a list gives them: a loan that grows is deducted from the budget in force and the energy that remains, one that shrinks is back with the next
interval; a grant that shrinks stops further admissions at once, one that grows counts from the next interval on (R404, R406). -/
def Cluster.relend (k : Cluster) (lent granted : Nat) : Cluster :=
  let cut := k.grantIn - granted
  { k with lent, granted, grantIn := k.grantIn - cut, inForce := k.inForce - cut - (lent - k.lent), remaining := k.remaining - cut - (lent - k.lent) }

/-- POWER_ARBITER_PERIOD: the offers of the period are divided among the demanding clusters. A grant whose lender demands now is revoked, and the lender has
it back once the borrower's is reduced (R406). -/
def execPowerArbiterPeriod (s : State) : Out :=
  let left := (List.range 64).map fun c => (c, (s.cluster c).lendable)
  let (loans, _) := s.shares.foldl (fun (a : List (Nat × Nat × Nat) × List (Nat × Nat)) p =>
    let (ls, rest) := fund p.1 p.2 a.2
    (a.1 ++ ls, rest)) ([], left)
  let s : State := { s with loans }
  let sumOf (p : Nat × Nat × Nat → Bool) : Nat := ((loans.filter p).map (·.2.2)).sum
  .next ((List.range 64).foldl (fun s c => s.updCluster c fun k => k.relend (sumOf fun l => l.1 = c) (sumOf fun l => l.2.1 = c)) s)

/-! ### Rails (R409) -/

/-- RAIL_STEP: a microsecond of a regulator: it rises by 25 mV toward a higher target, or, after the hold, falls by 10 mV once every cluster on it runs at a
point that allows the step; clusters that want a point the rail now carries raise (R408, R409). -/
def execRailStep (r : Nat) (s : State) : Out :=
  if 4 ≤ r then .next s
  else
    let x := s.rail r
    let sl := (List.range 16).filter fun g => s.isSlice g && (s.gran g).rail = r
    let cs := sl.flatMap s.clustersOf
    if x.mv < x.target then
      let s := s.setRail r { x with mv := min x.target (x.mv + 25), holding := false }
      .next (cs.foldl (fun s c => s.raiseClock c) s).revote
    else if x.target < x.mv && !x.holding then
      let v := max x.target (x.mv - 10)
      .next (if cs.all fun c => decide (pointMv (s.cluster c).point ≤ v) then s.setRail r { x with mv := v } else s)
    else .next (cs.foldl (fun s c => s.raiseClock c) s).revote

/-- RAIL_HOLD_EXPIRY: the 20 µs hold is over (R409). -/
def execRailHoldExpiry (r : Nat) (s : State) : Out := .next (if r < 4 then s.setRail r { s.rail r with holding := false } else s)

/-! ### Power registers (R403, R407) -/

/-- SLPOW_WRITE: a share that keeps the sum within PKPOW is taken (R10, R403). -/
def execSlpowWrite (gr : Nat) (v : Word64) (s : State) : Out :=
  if !s.isSlice gr then .next s
  else
    let s := if v.toNat < 2 ^ 16 then s else s.pfNote
    let n := v.toNat % 2 ^ 16
    let others := (((List.range 16).filter fun g => s.isSlice g && g ≠ gr).map fun g => (s.gran g).slpow.toNat).sum
    if s.pkpow.toNat < others + n then .next s.pfNote else .next (s.updGran gr fun g => { g with slpow := BitVec.ofNat 16 n })

/-- OPCFG.RAIL is written: taken only while the slice is held and quiescent; its clusters lower to points that the rail carries before their vote moves there
(R407 to R409). -/
def execOpcfgRailWrite (gr r : Nat) (s : State) : Out :=
  if !s.isSlice gr then .next s
  else if (s.gran gr).hold && (s.gran gr).quiet then .next ((s.updGran gr fun g => { g with rail := r % 4 }).settleRail gr)
  else .next s.pfNote

/-- OPCFG.TOP is written (R407). -/
def execOpcfgTopWrite (gr t : Nat) (s : State) : Out :=
  if !s.isSlice gr then .next s else .next (s.updGran gr fun g => { g with top := t % 8 })

end Sys2Proof.Machine
end

