-- ==== Sys2Proof/Machine/Debug.lean ====
section
/-!
DEFINITION. Debug halts and replay (R418 to R425).
-/
set_option Elab.async false
namespace Sys2Proof.Machine
open Sys2Proof

/-! ### Debug halts (R418, R419) -/

/-- DBGF_HREQ: a halt of the function starts, or the request joins one in progress (R419). -/
def execDbgfHreq (vf : Nat) (s : State) : Out :=
  if 64 ≤ vf || (s.vf vf).halted then .next s
  else
    let ks := (s.allGroups.filter fun g => g.vf = vf && !g.gone).map (·.gang)
    .next (ks.foldl (fun s k => s.askSave k) (s.updVf vf fun v => { v with halting := true }))

/-- HALT_COMPLETE: every gang of the function is saved; HALTED is set and the debug interrupt raised (R419). -/
def execHaltComplete (vf : Nat) (s : State) : Out :=
  let v := s.vf vf
  if !v.halting || v.halted || s.residents [vf] then .next s
  else .next ((s.updVf vf fun v => { v with halted := true }).raiseIrq vf 2)

/-- A group that a debugger's halt stopped goes on: after `brk` at the item behind it (R419). -/
def Group.unhalt (g : Group) : Group :=
  match g.halt with
  | some (.debug skip) =>
    let b := g.trapcause.getLsbD 4
    let b := if (g.slot b).st = .empty then !b else b
    let g := { g with halt := none, watchHit := false }
    if skip then g.setSlot b { g.slot b with skip := true, parked := false } else g
  | _ => g

/-- DBGF_RESUME: a halt ends and the function's gangs are eligible again (R419). -/
def execDbgfResume (vf : Nat) (s : State) : Out :=
  if !(s.vf vf).halted then .next s
  else
    let go (g : Group) : Group := if g.vf = vf then g.unhalt else g
    .next { (s.mapGroups go).updVf vf fun v => { v with halted := false, halting := false } with savedGroups := s.savedGroups.map go }

/-! ### Replay (R422 to R425) -/

/-- A checkpoint of a slice: the machine as it stands (R424). -/
def State.checkpoint (s : State) (gr : Nat) : Ckpt := { gran := gr, ivl := (s.gran gr).rpIvl, began := (s.gran gr).rpBegan, start := s.toDevice }

/-- The conditions under which EN := 1 is taken (R422). -/
def State.replayOk (s : State) (gr : Nat) : Bool :=
  let g := s.gran gr
  g.hold && g.quiet && decide ((s.functionsOf gr).length ≤ 1) && !g.rotEn && g.lend = 0 &&
  decide (2 * (24 * 2 ^ 20 * g.num) + 2 * 2 ^ 20 ≤ g.rpSize.toNat)

/-- RPCTL_EN: replay mode begins where its conditions hold, with the first checkpoint; or it ends, but not in the middle of a re-execution (R422, R425). -/
def execRpctlEn (gr : Nat) (en : Bool) (s : State) : Out :=
  let g := s.gran gr
  if !s.isSlice gr || g.rpEn = en then .next s
  else if en then
    if !s.replayOk gr then .next s.pfNote
    else
      let s := s.updGran gr fun g => { g with rpEn := true, rpStat := 1, rpIvl := 0, rpCount := 0, rpBegan := 0, rpTurn := 0 }
      .next { s with kept := (s.kept.filter fun c => c.gran ≠ gr) ++ [s.checkpoint gr] }
  else if g.rpStat = 2 then .next s.pfNote
  else .next { s.updGran gr fun g => { g with rpEn := false, rpStat := 0 } with kept := s.kept.filter fun c => c.gran ≠ gr }

/-- The count that the current interval has reached is noted with its checkpoint. -/
def State.noteEnd (s : State) (gr : Nat) : State :=
  let g := s.gran gr
  { s with kept := s.kept.map fun c => if c.gran = gr && c.ivl = g.rpIvl then { c with stop := g.rpCount } else c }

/-- The bytes that the region has for the undo log of one interval: half of what the two checkpoints leave (R422, R424; log entry 31). -/
def State.undoRoom (s : State) (gr : Nat) : Nat := ((s.gran gr).rpSize.toNat - 2 * (24 * 2 ^ 20 * (s.gran gr).num)) / 2

/-- The undo log of the interval that runs is full: it holds 64 bytes of each line of memory that has changed since the checkpoint (R424; log entry 31). -/
def State.undoFull (s : State) (gr : Nat) : Bool :=
  match s.kept.find? fun c => c.gran = gr && c.ivl = (s.gran gr).rpIvl with
  | none => false
  | some c =>
    let moved := (s.mem.filter fun x => !c.start.mem.contains x) ++ c.start.mem.filter fun x => !s.mem.contains x
    let lines := (moved.map fun x => x.1 / 64) ++ (s.l2.filter (·.dirty)).map (·.pa)
    decide (s.undoRoom gr ≤ 64 * lines.eraseDups.length)

/-- REPLAY_INTERVAL_START: a new interval begins with a checkpoint, at 2^IVL retirements or early, when the undo log is full; the checkpoints of two
intervals are kept. DESIGN CHOICE: in an interval that begins early the count goes on from where it stood (R424; log entry 31). -/
def execReplayIntervalStart (gr : Nat) (s : State) : Out :=
  let g := s.gran gr
  let due := decide (2 ^ g.ivl ≤ g.rpCount)
  if !g.rpEn || g.rpStat ≠ 1 || !(due || s.undoFull gr) then .next s
  else
    let from_ := if due then 0 else g.rpCount
    let s := (s.noteEnd gr).updGran gr fun g => { g with rpIvl := g.rpIvl + 1, rpCount := from_, rpBegan := from_ }
    let old := s.kept.filter fun c => c.gran = gr
    .next { s with kept := (s.kept.filter fun c => c.gran ≠ gr) ++ old.drop (old.length - 1) ++ [s.checkpoint gr] }

/-- The slice's part of an earlier machine comes back: memory and its cached lines, and the state of the slice and of the functions bound to it; its tick
counters run on and its replay registers stand (R424, R425). -/
def State.rollback (s : State) (gr : Nat) (d : Device) : State :=
  let n := (s.gran gr).num
  let fs := s.functionsOf gr
  let here (c : Nat) : Bool := decide (gr ≤ c) && decide (c < gr + n)
  let old : State := { d with kept := s.kept }
  let mine (g : Group) : Bool := fs.contains g.vf
  let ks := (s.launches ++ d.launches).filter (fun l => fs.contains l.vf) |>.map (·.key)
  let part {α : Type} (f : α → Bool) (now then_ : List α) : List α := now.filter (fun x => !f x) ++ then_.filter f
  let s : State :=
    { s with
      cur := {}
      groups := part mine s.allGroups old.allGroups
      savedGroups := part mine s.savedGroups d.savedGroups
      wgs := part (fun w => fs.contains w.vf) s.wgs d.wgs
      savedWgs := part (fun w => fs.contains w.vf) s.savedWgs d.savedWgs
      gangs := part (fun g => ks.contains g.launch) s.gangs d.gangs
      launches := part (fun l => fs.contains l.vf) s.launches d.launches
      prq := part (fun r => fs.contains r.vf) s.prq d.prq
      prqWait := part (fun w => fs.contains w.1) s.prqWait d.prqWait
      prqFailed := d.prqFailed
      mem := d.mem, poison := d.poison, l2 := d.l2, walks := d.walks, mixed := d.mixed, masks := d.masks, walked := d.walked, barLines := d.barLines }
  let s := ((List.range 64).filter fun c => here (c / 4)).foldl (fun s c => s.updCluster c fun _ => old.cluster c) s
  let s := ((List.range 256).filter fun c => here (c / 16)).foldl (fun s c => s.updCore c fun _ => old.coreAt c) s
  let s := fs.foldl (fun s f => s.updVf f fun _ => old.vf f) s
  (List.range n).foldl (fun s k => s.updGran (gr + k) fun g =>
    let o := old.gran (gr + k)
    { o with tick := g.tick, rpStat := g.rpStat, rpEn := g.rpEn, rpBase := g.rpBase, rpSize := g.rpSize, rpStop := g.rpStop, ivl := g.ivl }) s

/-- A logged turn as a re-execution takes it. -/
def LogEnt.again (e : LogEnt) : Turn :=
  match e.turn with
  | .issue gid b => .redo e.redo gid b
  | .event i p => .redoEvent e.redo i p
  | t => t

/-- RPCTL_GO: a stop that a kept interval holds is taken: the slice goes back to the interval's start and the logged turns before the count come again,
then the stop (R425). Another one is refused; so is GO on a slice that is not quiescent (log entry 31). -/
def execRpctlGo (gr : Nat) (s : State) : Out :=
  let g := s.gran gr
  let ivl := g.rpStop.extractLsb' 32 32
  let cnt := g.rpStop.toNat % 2 ^ 32
  if !g.rpEn || !(g.rpStat = 1 || g.rpStat = 3) || !g.quiet then .next s
  else
    let s := if g.rpStat = 1 then s.noteEnd gr else s
    match s.kept.find? fun c => c.gran = gr && c.ivl = ivl with
    | none => .next s
    | some c =>
      if c.stop < cnt then .next s
      else
        let s := (s.rollback gr c.start).updGran gr fun g => { g with rpStat := 2, rpIvl := ivl, rpCount := c.began, rpBegan := c.began }
        let turns := (c.log.reverse.filter fun e => decide (e.count < cnt)).map LogEnt.again
        .next { s with tape := turns ++ [.event (.replayStop gr) {}] ++ s.tape }

/-- REPLAY_STOP: the re-execution has reached its count; every gang of the slice is saved and STAT becomes stopped (R425). -/
def execReplayStop (gr : Nat) (s : State) : Out :=
  let g := s.gran gr
  if g.rpStat ≠ 2 then .next s
  else
    let ks := (s.gangsOn gr).map (·.key)
    let s := ks.foldl (fun s k => s.askSave k) s
    let s := s.mapGroups fun g => if ks.contains g.gang then { g with grace := true } else g
    let s := ks.foldl (fun s k => s.saveGang k) s
    if s.residents (s.functionsOf gr) then .next s
    else .next (s.updGran gr fun g => { g with rpStat := 3, hold := true, quiet := true })

end Sys2Proof.Machine
end

