-- ==== Sys2Proof/Machine/Links.lean ====
section
/-!
DEFINITION. The Odosh links: flits, flow control, failure and training, and the completions of this device's own requests (R426 to R430, R434).
-/
set_option Elab.async false
namespace Sys2Proof.Machine
open Sys2Proof

/-! ### Flits (R426) -/

/-- A control frame goes out in a control flit of its own, which is never sent again: 0 PAUSE, 1 RESUME, 2 ACK, 3 NAK, with its channel or number. -/
def Link.control (l : Link) (code arg : Nat) : Link := { l with sent := l.sent ++ [(code, arg)], wire := l.wire ++ [controlFlit code arg] }

/-- The flit that the port presents is the control flit of a frame, its CRC right (R426). -/
def State.heard (s : State) (code arg : Nat) : Bool :=
  decide (s.port.link < 5) && (s.link s.port.link).state = 2 && decide (s.port.flit = controlFlit code arg)

/-- Bytes of a channel's receive buffer, and the free space below which it pauses (R427). -/
def bufferBytes (ch : Nat) : Nat := if ch = 1 then 65536 else 262144
def pauseBelow (ch : Nat) : Nat := if ch = 1 then 16384 else 65536

/-- A receive buffer without the zeros before its next transaction, which carry none (R426; log entry 32). -/
def unpad (b : List Byte) : List Byte := b.dropWhile (· = 0)

/-- The free space of a channel's receive buffer; a full atomic-engine queue is a full buffer of non-posted requests (R427, R434). -/
def Link.room (l : Link) (ch : Nat) : Nat := if ch = 1 && decide (1024 ≤ l.aq.length) then 0 else bufferBytes ch - (tget l.rx ch []).length

/-- Pause or resume a channel as its free space asks (R427). -/
def Link.flow (l : Link) (ch : Nat) : Link :=
  let free := l.room ch
  let paused := tget l.rxPaused ch false
  if !paused && decide (free < pauseBelow ch) then { l with rxPaused := tset l.rxPaused ch true }.control 0 ch
  else if paused && decide (2 * pauseBelow ch ≤ free) then { l with rxPaused := tset l.rxPaused ch false }.control 1 ch
  else l

/-- A lane of a load from a window receives its bytes. -/
def State.loadReturned (s : State) (g : Group) (o : Op) (accs : List LaneAcc) (n cnt : Nat) (sgn l2 : Bool) (acq : Option Scope) (l : Nat)
    (data : List Byte) : State :=
  let rest := accs.filter fun a => a.lane ≠ l
  let s := s.updGroup g.id fun g =>
    let g := g.fillPend o.seq (laneBit l) rest.isEmpty fun k l' => loadedValue [(l, data)] n sgn k l'
    if rest.isEmpty then g.finishOp o.seq else g.updOp o.seq fun o => { o with kind := .load rest n cnt sgn l2 acq }
  if rest.isEmpty then s.acquireAt g acq else s

/-- An operation ends with POISON at an address: its results are not to come (R162). -/
def State.poisonGroup (s : State) (g : Group) (o : Op) (va : Nat) : State :=
  (s.updGroup g.id fun g => (g.dropPend o.seq).finishOp o.seq).raise g.id { cause := .poison, slot1 := o.slot1, pc := o.pc, addr := BitVec.ofNat 64 va }

/-- A lane of a load or an atomic reads poison, which is logged: an `apost` lane is lost, a helper lane of a load receives zero, and another one's group
raises POISON (R19, R162, R166, R397, R429). -/
def State.poisonLane (s : State) (g : Group) (o : Op) (l va pa : Nat) : State :=
  let s := s.logError (s.vf g.vf).slice 0x01 0xFF g.vf 0 (pa / 64 * 64) g.launchId
  match o.kind with
  | .atomic lanes op ty false acq rel =>
    let lanes := lanes.map fun a => if a.lane = l then { a with fin := true } else a
    s.updGroup g.id fun g =>
      if lanes.all (·.fin) then g.finishOp o.seq else g.updOp o.seq fun o => { o with kind := .atomic lanes op ty false acq rel }
  | .load accs n cnt sgn l2 acq =>
    if lane g.helper l then s.loadReturned g o accs n cnt sgn l2 acq l [] else s.poisonGroup g o va
  | _ => s.poisonGroup g o va

/-- The virtual address that a lane of an operation accesses. -/
def OpKind.laneVa (l : Nat) : OpKind → Nat
  | .load accs _ _ _ _ _ => ((accs.find? fun a => a.lane = l).map (·.va)).getD 0
  | .atomic lanes _ _ _ _ _ => ((lanes.find? fun a => a.lane = l).map (·.va)).getD 0
  | _ => 0

/-- An outstanding request ends without an answer: a `ratom` lane writes STATUS 3, another lane reads poison, and a launch's signal add is over (R355,
R429). -/
def State.failRequest (s : State) (e : NpReq) : State :=
  match s.group? e.gid with
  | none => s.signalDone e.gid
  | some g =>
    match g.op? e.op with
    | none => s
    | some o =>
      if o.fin then s
      else match o.kind with
        | .ratom .. => s.ratomReply e.gid e.op e.lane true
        | _ => s.poisonLane g o e.lane (o.kind.laneVa e.lane) e.addr

/-- A link enters FAILED: what is outstanding on it ends, its unacknowledged writes are lost, and the failure is logged with the first lost address
(R429). -/
def State.failLink (s : State) (k : Nat) : State :=
  let l := s.link k
  let first := match l.unacked, l.np with | u :: _, _ => u.addr | [], e :: _ => e.addr | [], [] => 0
  let s := s.updLink k fun l => { l with state := 3, np := [], unacked := [], held := [], buf := [], tx := tableOf 3 [], aq := [] }
  let s : State := { s with incoming := s.incoming.filter fun a => !(a.kind = 3 && a.port.link = k) }
  l.np.foldl State.failRequest (s.logError 0 0x09 0xFF 0xFF 0 first)

/-- FLIT_RECEIVE: a data flit whose CRC is right and whose turn it is fills its channel's buffer and is acknowledged; one whose CRC is wrong is discarded
with every later one and NAK names the flit that is expected; a full buffer fails the link (R426, R427). What its bytes carry is taken as it stands first
in the buffer (`State.arrived`). -/
def execFlitReceive (s : State) : Out :=
  let k := s.port.link
  let f := s.port.flit
  let l := s.link k
  let ch := f.ctrl.toNat % 4
  let seq := f.seq.toNat % 1024
  let body := (f.body ++ List.replicate 246 0).take 246
  if decide (5 ≤ k) || l.state ≠ 2 || f.ctrl.toNat / 4 ≠ 0 || ch = 3 then .next s
  else if f.crc ≠ flitSum { f with body } then .next (s.updLink k fun l => l.control 3 l.rxSeq)
  else if seq ≠ l.rxSeq then .next s
  else if l.room ch < 246 then .next (s.failLink k)
  else .next (s.updLink k fun l =>
    ({ l with rxSeq := (l.rxSeq + 1) % 1024, rx := tset l.rx ch (unpad (tget l.rx ch [] ++ body)) }.control 2 seq).flow ch)

/-- The transaction that the port presents, as one of a kind. -/
def State.tlp (s : State) (kind : TlpKind) : Port := { s.port with kind }

/-- A transaction of a kind has arrived on channel `ch`: the link is UP, and the bytes of what the port presents stand first in the channel's receive buffer
(R426). -/
def State.arrived (s : State) (kind : TlpKind) (ch : Nat) : Bool :=
  decide (s.port.link < 5) && (s.link s.port.link).state = 2 && (tlpOf (s.tlp kind)).isPrefixOf (tget (s.link s.port.link).rx ch [])

/-- That transaction leaves its receive buffer (R426, R427). -/
def State.takeTlp (s : State) (kind : TlpKind) (ch : Nat) : State :=
  s.updLink s.port.link fun l => { l with rx := tset l.rx ch (unpad ((tget l.rx ch []).drop (tlpOf (s.tlp kind)).length)) }.flow ch

/-- NAK_RECEIVE: the sender resends from the named flit, or the link fails when it no longer holds it (R426, R428). -/
def execNakReceive (s : State) : Out :=
  let k := s.port.link
  let seq := s.port.seq.toNat % 1024
  let again := (s.link k).buf.dropWhile fun f => f.seq.toNat ≠ seq
  if !s.heard 3 seq then .next s
  else if again.isEmpty then .next (s.failLink k)
  else .next (s.updLink k fun l =>
    { l with wire := l.wire ++ again, replays := BitVec.ofNat 32 (min (2 ^ 32 - 1) (l.replays.toNat + again.length)) })

/-- Flit `n` is at or before flit `seq`, in the numbering modulo 1024. -/
def upTo (seq n : Nat) : Bool := decide ((seq + 1024 - n) % 1024 < 512)

/-- ACK_RECEIVE: flits up to the named one leave the replay buffer, and the writes that they carried are acknowledged (R172, R318, R426). -/
def execAckReceive (s : State) : Out :=
  let seq := s.port.seq.toNat % 1024
  if !s.heard 2 seq then .next s
  else .next (s.updLink s.port.link fun l =>
    { l with
      buf := l.buf.filter fun f => !upTo seq f.seq.toNat
      unacked := l.unacked.filter fun u => match u.flit with | some n => !upTo seq n | none => true })

/-- PAUSE_RECEIVE: no further transaction starts on the channel (R427). -/
def execPauseReceive (s : State) : Out :=
  if !s.heard 0 s.port.chan then .next s
  else .next (s.updLink s.port.link fun l => { l with txPaused := tset l.txPaused s.port.chan true })

/-- RESUME_RECEIVE: what waits on the channel starts (R427). -/
def execResumeReceive (s : State) : Out :=
  if !s.heard 1 s.port.chan then .next s
  else .next (s.updLink s.port.link fun l => { l with txPaused := tset l.txPaused s.port.chan false }.flush)

/-- FLOW_STATE_REPEAT: the receiver repeats the state of each channel, and what waits for a flit goes out at the latest with that (R427; log entry 32). -/
def execFlowStateRepeat (k : Nat) (s : State) : Out :=
  if decide (5 ≤ k) || (s.link k).state ≠ 2 then .next s
  else .next (s.updLink k fun l => (List.range 3).foldl (fun l c => l.control (if tget l.rxPaused c false then 0 else 1) c) l.drain)

/-! ### Failure and training (R428, R429) -/

/-- NONPOSTED_TIMEOUT: a request has had no completion for 50 ms (R429). -/
def execNonpostedTimeout (k tag : Nat) (s : State) : Out :=
  match (s.link k).np.find? (fun e => e.tag = tag) with
  | none => .next s
  | some e => .next (((s.updLink k fun l => { l with np := l.np.filter fun e => e.tag ≠ tag }).logError 0 0x09 0xFF 0xFF 0 e.addr).failRequest e)

/-- LNKST_RETRAIN: a failed link trains again, from the first numbers (R428). -/
def execLnkstRetrain (k : Nat) (s : State) : Out :=
  if decide (5 ≤ k) || (s.link k).state ≠ 3 then .next s
  else .next (s.updLink k fun l => { state := 1, replays := l.replays, held := l.held, unacked := l.unacked, np := l.np, npNext := l.npNext,
                                     sent := l.sent, wire := l.wire, out := l.out, replies := l.replies })

/-- LINK_TRAINING_COMPLETE: a link in TRAINING is UP, and what waited for it starts (R428). -/
def execLinkTrainingComplete (k : Nat) (s : State) : Out :=
  if decide (5 ≤ k) || (s.link k).state ≠ 1 then .next s else .next (s.updLink k fun l => { l with state := 2 }.flush)

/-! ### Answers to this device's requests (R318, R430, R434) -/

/-- A lane of an atomic on a window receives its old value. -/
def State.atomReturned (s : State) (g : Group) (o : Op) (lanes : List AtomLane) (op : AtomOp) (ty : Ty) (ret : Bool) (acq rel : Option Scope) (l : Nat)
    (data : List Byte) : State :=
  let lanes := lanes.map fun a => if a.lane = l then { a with fin := true } else a
  let all := lanes.all (·.fin)
  let s := s.updGroup g.id fun g =>
    let g := g.fillPend o.seq (laneBit l) all fun _ _ => oldValue ty (natLE (data.take (tyBytes ty)))
    if all then g.finishOp o.seq else g.updOp o.seq fun o => { o with kind := .atomic lanes op ty ret acq rel }
  if all then s.acquireAt g acq else s

/-- The answer to an outstanding request: its lane receives the data; without success it reads poison, or a `ratom` lane is refused (R168, R429, R430). -/
def State.answerRequest (s : State) (e : NpReq) (status : Nat) (data : List Byte) : State :=
  match s.group? e.gid with
  | none => s.signalDone e.gid
  | some g =>
    match g.op? e.op with
    | none => s
    | some o =>
      if o.fin then s
      else match o.kind with
        | .ratom .. => ({ s with port := { s.port with status, value := BitVec.ofNat 64 (natLE (data.take 8)) } } : State).ratomReply e.gid e.op e.lane false
        | .load accs n cnt sgn l2 acq =>
          if status ≠ 0 then s.poisonLane g o e.lane (o.kind.laneVa e.lane) e.addr else s.loadReturned g o accs n cnt sgn l2 acq e.lane data
        | .atomic lanes op ty ret acq rel =>
          if status ≠ 0 then s.poisonLane g o e.lane (o.kind.laneVa e.lane) e.addr else s.atomReturned g o lanes op ty ret acq rel e.lane data
        | _ => s

/-- A completion, or a reply message, for the request that its tag names. It stays in the receive buffer while its slice pauses incoming replies. -/
def State.takeAnswer (s : State) (kind : TlpKind) (data : List Byte) : State :=
  let p := s.port
  let t := s.takeTlp kind 2
  match (t.link p.link).np.find? (fun e => e.tag = p.tag) with
  | none => t
  | some e => if s.repliesPaused e.gid e.op then s else (t.updLink p.link fun l => { l with np := l.np.filter fun x => x.tag ≠ p.tag }).answerRequest e p.status data

/-- INCOMING_COMPLETION (R430). -/
def execIncomingCompletion (s : State) : Out :=
  if s.arrived .completion 2 then .next (s.takeAnswer .completion s.port.data) else .next s

/-- ATOMIC_REPLY_MESSAGE: a peer returns an old value (R434). -/
def execAtomicReplyMessage (s : State) : Out :=
  if s.port.link ≠ 0 && s.arrived .reply 2 then .next (s.takeAnswer .reply (bytesLE 8 s.port.value.toNat)) else .next s

end Sys2Proof.Machine
end

