-- ==== Sys2Proof/Machine/Signature.lean ====
section
/-!
DEFINITION. The hash and the signatures that the controller measures and verifies with (R435): SHA-256 and SLH-DSA-SHA2-128s.
-/
set_option Elab.async false
namespace Sys2Proof.Machine
open Sys2Proof

/-! ### SHA-256 (R435; PRESUMED as FIPS 180-4 gives it, log entry 34) -/

def shaStart : List Word32 :=
  [0x6A09E667, 0xBB67AE85, 0x3C6EF372, 0xA54FF53A, 0x510E527F, 0x9B05688C, 0x1F83D9AB, 0x5BE0CD19]

def shaK : List Word32 :=
  [0x428A2F98, 0x71374491, 0xB5C0FBCF, 0xE9B5DBA5, 0x3956C25B, 0x59F111F1, 0x923F82A4, 0xAB1C5ED5,
   0xD807AA98, 0x12835B01, 0x243185BE, 0x550C7DC3, 0x72BE5D74, 0x80DEB1FE, 0x9BDC06A7, 0xC19BF174,
   0xE49B69C1, 0xEFBE4786, 0x0FC19DC6, 0x240CA1CC, 0x2DE92C6F, 0x4A7484AA, 0x5CB0A9DC, 0x76F988DA,
   0x983E5152, 0xA831C66D, 0xB00327C8, 0xBF597FC7, 0xC6E00BF3, 0xD5A79147, 0x06CA6351, 0x14292967,
   0x27B70A85, 0x2E1B2138, 0x4D2C6DFC, 0x53380D13, 0x650A7354, 0x766A0ABB, 0x81C2C92E, 0x92722C85,
   0xA2BFE8A1, 0xA81A664B, 0xC24B8B70, 0xC76C51A3, 0xD192E819, 0xD6990624, 0xF40E3585, 0x106AA070,
   0x19A4C116, 0x1E376C08, 0x2748774C, 0x34B0BCB5, 0x391C0CB3, 0x4ED8AA4A, 0x5B9CCA4F, 0x682E6FF3,
   0x748F82EE, 0x78A5636F, 0x84C87814, 0x8CC70208, 0x90BEFFFA, 0xA4506CEB, 0xBEF9A3F7, 0xC67178F2]

/-- Bytes of a number, the highest first. -/
def bytesBE (n v : Nat) : List Byte := (bytesLE n v).reverse
/-- The number that bytes give, the highest first. -/
def natBE (b : List Byte) : Nat := natLE b.reverse

/-- A message with its padding. -/
def shaPad (m : List Byte) : List Byte := m ++ [(0x80 : Byte)] ++ List.replicate ((119 - m.length % 64) % 64) 0 ++ bytesBE 8 (8 * m.length)

/-- The 64 words of a block's schedule. -/
def shaWords (b : List Byte) : List Word32 :=
  let w0 : List Word32 := (List.range 16).map fun i => BitVec.ofNat 32 (natBE ((b.drop (4 * i)).take 4))
  (List.range 48).foldl (fun w i =>
    let x := w.getD (i + 1) 0
    let y := w.getD (i + 14) 0
    let s0 := x.rotateRight 7 ^^^ x.rotateRight 18 ^^^ (x >>> 3)
    let s1 := y.rotateRight 17 ^^^ y.rotateRight 19 ^^^ (y >>> 10)
    w ++ [w.getD i 0 + s0 + w.getD (i + 9) 0 + s1]) w0

/-- One round over the eight working words. -/
def shaRound (h : List Word32) (kw : Word32) : List Word32 :=
  match h with
  | [a, b, c, d, e, f, g, x] =>
    let s1 := e.rotateRight 6 ^^^ e.rotateRight 11 ^^^ e.rotateRight 25
    let t1 := x + s1 + ((e &&& f) ^^^ (~~~e &&& g)) + kw
    let s0 := a.rotateRight 2 ^^^ a.rotateRight 13 ^^^ a.rotateRight 22
    let t2 := s0 + ((a &&& b) ^^^ (a &&& c) ^^^ (b &&& c))
    [t1 + t2, a, b, c, d + t1, e, f, g]
  | h => h

/-- One block. -/
def shaBlock (h : List Word32) (b : List Byte) : List Word32 :=
  List.zipWith (· + ·) h ((List.zipWith (· + ·) shaK (shaWords b)).foldl shaRound h)

/-- SHA-256 of a message. -/
def sha256 (m : List Byte) : BitVec 256 :=
  let p := shaPad m
  let h := (List.range (p.length / 64)).foldl (fun h i => shaBlock h ((p.drop (64 * i)).take 64)) shaStart
  BitVec.ofNat 256 (natBE (h.flatMap fun w => bytesBE 4 w.toNat))

/-! ### SLH-DSA-SHA2-128s (R435; PRESUMED as FIPS 205 gives it, log entry 9)

A node is 16 bytes. The hypertree has 7 layers of trees of height 9; a message is signed under 14 trees of height 12. -/

/-- An address of a hash: its layer, its tree, what is hashed (0 a chain, 1 the ends of a key's chains, 2 a tree, 3 a tree of the message, 4 the roots of those,
5 a secret of a chain, 6 a secret of a message tree), the key pair, then the chain and the place in it, or the height and the index. -/
structure HashAddr where
  layer : Nat := 0
  tree : Nat := 0
  kind : Nat := 0
  pair : Nat := 0
  x : Nat := 0
  y : Nat := 0
  deriving DecidableEq, Repr

def HashAddr.bytes (a : HashAddr) : List Byte :=
  bytesBE 1 a.layer ++ bytesBE 8 a.tree ++ bytesBE 1 a.kind ++ bytesBE 4 a.pair ++ bytesBE 4 a.x ++ bytesBE 4 a.y

/-- Every keyed hash of the scheme, at an address. -/
def slhHash (seed : List Byte) (a : HashAddr) (m : List Byte) : List Byte :=
  (bytesBE 32 (sha256 (seed ++ List.replicate 48 0 ++ a.bytes ++ m)).toNat).take 16

/-- Part `i` of a signature. -/
def slhPart (b : List Byte) (i : Nat) : List Byte := (b.drop (16 * i)).take 16

/-- The `n` digits of `b` bits of a number, the highest first. -/
def digits (b n v : Nat) : List Nat := (List.range n).map fun i => v / 2 ^ (b * (n - 1 - i)) % 2 ^ b

/-- How far a node is up each of the 35 chains: its digits and their checksum's. -/
def wotsDigits (m : List Byte) : List Nat :=
  let d := digits 4 32 (natBE m)
  d ++ digits 4 3 (d.map fun x => 15 - x).sum

/-- `n` steps up a chain, from place `i`. -/
def wotsChain (seed : List Byte) (a : HashAddr) (x : List Byte) (i n : Nat) : List Byte :=
  (List.range n).foldl (fun x j => slhHash seed { a with y := i + j } x) x

/-- A one-time key from the ends of its chains. -/
def wotsKey (seed : List Byte) (a : HashAddr) (ends : Nat → List Byte) : List Byte :=
  slhHash seed { a with kind := 1 } ((List.range 35).flatMap ends)

/-- The one-time key that a signature of a node gives. -/
def wotsFromSig (seed : List Byte) (a : HashAddr) (sig m : List Byte) : List Byte :=
  let d := wotsDigits m
  wotsKey seed a fun i => wotsChain seed { a with x := i } (slhPart sig i) (d.getD i 0) (15 - d.getD i 0)

/-- From a leaf to the root of a tree of height `h`, along the path that a signature holds. -/
def treeRoot (seed : List Byte) (a : HashAddr) (i h : Nat) (path leaf : List Byte) : List Byte :=
  (List.range h).foldl (fun x k =>
    slhHash seed { a with x := k + 1, y := i / 2 ^ (k + 1) } (if i / 2 ^ k % 2 = 0 then x ++ slhPart path k else slhPart path k ++ x)) leaf

/-- The root that layer `j`'s part of a signature of a node gives, at leaf `i` of the hypertree's lowest layer. -/
def layerRoot (seed : List Byte) (i j : Nat) (sig m : List Byte) : List Byte :=
  let a : HashAddr := { layer := j, tree := i / 2 ^ (9 * (j + 1)) }
  let leaf := i / 2 ^ (9 * j) % 512
  treeRoot seed { a with kind := 2 } leaf 9 (sig.drop 560) (wotsFromSig seed { a with pair := leaf } (sig.take 560) m)

/-- What a signature signs with: the digits of the message's digest, and the leaf of the lowest layer. -/
def slhDigest (r seed root m : List Byte) : List Nat × Nat :=
  let h := bytesBE 32 (sha256 (r ++ seed ++ root ++ m)).toNat
  let d := bytesBE 32 (sha256 (r ++ seed ++ h ++ bytesBE 4 0)).toNat
  (digits 12 14 (natBE (d.take 21)), natBE ((d.drop 21).take 7) % 2 ^ 54 * 512 + natBE ((d.drop 28).take 2) % 512)

/-- The address of the message trees at a leaf. -/
def forsAddr (i : Nat) : HashAddr := { tree := i / 512, kind := 3, pair := i % 512 }

/-- The key of the message trees that a signature gives. -/
def forsFromSig (seed : List Byte) (i : Nat) (d : List Nat) (sig : List Byte) : List Byte :=
  slhHash seed { forsAddr i with kind := 4 } ((List.range 14).flatMap fun t =>
    let part := sig.drop (208 * t)
    let leaf := 4096 * t + d.getD t 0
    treeRoot seed (forsAddr i) leaf 12 (part.drop 16) (slhHash seed { forsAddr i with y := leaf } (part.take 16)))

/-- A message in the pure form with an empty context. -/
def slhMessage (m : List Byte) : List Byte := [0, 0] ++ m

/-- A signature of a message verifies under a 32-byte public key. -/
def slhVerify (key m sig : List Byte) : Bool :=
  let seed := key.take 16
  let (d, i) := slhDigest (sig.take 16) seed (key.drop 16) (slhMessage m)
  let tops := sig.drop 2928
  sig.length = 7856 &&
    (List.range 7).foldl (fun x j => layerRoot seed i j ((tops.drop (704 * j)).take 704) x) (forsFromSig seed i d (sig.drop 16)) = key.drop 16

/-- The secret at the foot of a chain. -/
def wotsSecret (sk seed : List Byte) (a : HashAddr) : List Byte := slhHash seed { a with kind := 5, y := 0 } sk

/-- Node `i` at height `z` of a tree of one-time keys. -/
def keyNode (sk seed : List Byte) (a : HashAddr) : Nat → Nat → List Byte
  | 0, i =>
    let a := { a with pair := i }
    wotsKey seed a fun c => wotsChain seed { a with x := c } (wotsSecret sk seed { a with x := c }) 0 15
  | z + 1, i => slhHash seed { a with kind := 2, x := z + 1, y := i } (keyNode sk seed a z (2 * i) ++ keyNode sk seed a z (2 * i + 1))

/-- The secret at a leaf of the message trees. -/
def forsSecret (sk seed : List Byte) (a : HashAddr) (i : Nat) : List Byte := slhHash seed { a with kind := 6, y := i } sk

/-- Node `i` at height `z` of the message trees. -/
def forsNode (sk seed : List Byte) (a : HashAddr) : Nat → Nat → List Byte
  | 0, i => slhHash seed { a with y := i } (forsSecret sk seed a i)
  | z + 1, i => slhHash seed { a with x := z + 1, y := i } (forsNode sk seed a z (2 * i) ++ forsNode sk seed a z (2 * i + 1))

/-- The leaf beside `i` at height `k`. -/
def sibling (i k : Nat) : Nat := if i / 2 ^ k % 2 = 0 then i / 2 ^ k + 1 else i / 2 ^ k - 1

/-- The 64-byte key pair that a 48-byte seed gives: the two secrets, then the public key (R435). -/
def slhKeys (seed : List Byte) : List Byte :=
  seed.take 48 ++ keyNode (seed.take 16) ((seed.drop 32).take 16) { layer := 6 } 9 0

/-- Layer `j`'s part of a signature of a node. -/
def layerSign (sk seed : List Byte) (i j : Nat) (m : List Byte) : List Byte :=
  let a : HashAddr := { layer := j, tree := i / 2 ^ (9 * (j + 1)) }
  let leaf := i / 2 ^ (9 * j) % 512
  ((List.range 35).flatMap fun c =>
    let b : HashAddr := { a with pair := leaf, x := c }
    wotsChain seed b (wotsSecret sk seed b) 0 ((wotsDigits m).getD c 0)) ++
  (List.range 9).flatMap fun k => keyNode sk seed a k (sibling leaf k)

/-- The message trees' part of a signature. -/
def forsSign (sk seed : List Byte) (i : Nat) (d : List Nat) : List Byte :=
  (List.range 14).flatMap fun t =>
    let leaf := 4096 * t + d.getD t 0
    forsSecret sk seed (forsAddr i) leaf ++ (List.range 12).flatMap fun k => forsNode sk seed (forsAddr i) k (sibling leaf k)

/-- HMAC-SHA-256 under a key of at most 64 bytes. -/
def hmac (key m : List Byte) : List Byte :=
  let pad := fun (x : Byte) => (key ++ List.replicate (64 - key.length) 0).map fun b => b ^^^ x
  bytesBE 32 (sha256 (pad 0x5C ++ bytesBE 32 (sha256 (pad 0x36 ++ m)).toNat)).toNat

/-- A signature of a message with a key pair and 16 random bytes. -/
def slhSign (keys m random : List Byte) : List Byte :=
  let sk := keys.take 16
  let seed := (keys.drop 32).take 16
  let r := (hmac ((keys.drop 16).take 16) (random ++ slhMessage m)).take 16
  let (d, i) := slhDigest r seed ((keys.drop 48).take 16) (slhMessage m)
  let fors := forsSign sk seed i d
  let tops := (List.range 7).foldl (fun (x : List Byte × List Byte) j =>
    let part := layerSign sk seed i j x.1
    (layerRoot seed i j part x.1, x.2 ++ part)) (forsFromSig seed i d fors, [])
  r ++ fors ++ tops.2

end Sys2Proof.Machine
end

