-- ==== Sys2Proof/Machine/Boot.lean ====
section
/-!
DEFINITION. Security and start-up: measurements, the firmware check, the boot journal and the mailbox (R435 to R440).
-/
set_option Elab.async false
namespace Sys2Proof.Machine
open Sys2Proof

/-! ### Measurements (R437) -/

/-- Extend measurement `n` (R437). -/
def State.extend (s : State) (n : Nat) (d : List Byte) : State :=
  { s with meas := tset s.meas n (sha256 (bytesBE 32 (tget s.meas n 0).toNat ++ d)) }

/-! ### The firmware image (R435, R436) -/

/-- The security version counter of 64 positions: the fused one, or a later one that the mailbox has raised (R435, R438). -/
def State.counter (s : State) : Nat := max (min 64 Config.fuseCounter) s.svcount

/-- What an image's 256-byte header holds: the vendor public key, the security version, and that the magic word and the length are in order (R436; where they
stand in it is log entry 34's). -/
def imageKey (b : List Byte) : List Byte := (Config.imageKey (b.take 256) ++ List.replicate 32 0).take 32
def imageSvn (b : List Byte) : Nat := Config.imageSvn (b.take 256)
def imageFormed (b : List Byte) : Bool := decide (256 + 7856 ≤ b.length) && Config.imageFormed (b.take 256) b.length

/-- What the controller finds in an image: 1 accepted, 3 verification failed, 4 version below the counter (R436, R438). -/
def State.checkImage (s : State) (b : List Byte) : Nat :=
  if !imageFormed b || sha256 (imageKey b) ≠ Config.fuseDigest || !slhVerify (imageKey b) (b.take (b.length - 7856)) (b.drop (b.length - 7856)) then 3
  else if imageSvn b < s.counter then 4 else 1

/-- The image in the board flash. -/
def State.flashImage (s : State) : List Byte := s.flash.getD Config.flashImage

/-! ### Start-up (R439, R440) -/

/-- Package reset: the journal with its marks, the counters, the flash and what the model keeps for itself persist; everything else is as at power-on, and
the cores' clocks count from zero (R39, R439). -/
def State.packageReset (s : State) : State :=
  { State.reset with journal := s.journal, alt := s.alt, svcount := s.svcount, flash := s.flash, bootCount := s.bootCount, tape := s.tape, steps := s.steps,
                     cores := ⟨⟨(List.range 256).map fun c => { clkBase := Config.coreClock c s.steps }⟩, by simp⟩ }

/-- PACKAGE_RESET (R439). -/
def execPackageReset (s : State) : Out := .next s.packageReset

/-- Steps that have no alternate path (R439). -/
def noAlternate (n : Nat) : Bool := n = 0 || n = 7 || n = 8

/-- What the controller journals of each step, as a number. -/
def Journal.code : Journal → Nat
  | .none => 0 | .started => 1 | .done => 2 | .failed => 3

/-- The journal as M2 is extended with it (R437). -/
def State.journalBytes (s : State) : List Byte := Config.journalBytes ((s.journal.toList.map Journal.code) ++ s.alt.toList.map b2n)

/-- The image that step 1 verifies: the flash's, or, on the alternate path, the one that the management port brings (R439). -/
def State.bootImage (s : State) (alternate : Bool) : List Byte := if alternate then s.port.data else s.flashImage

/-- What the self-test of step 5 finds is retired, with a spare (R402, R439; log entry 34). -/
def State.selfTest (s : State) : State :=
  (Config.selfTest s.bootCount.toNat).foldl (fun s e => if 2 ≤ e.1 && decide (e.1 < 7) then s.repair e.1 e.2 0 else s) s

/-- The work of a step that succeeds: step 0 makes the identity key pair of the seed (R435), step 4 reports the populated capacity of a channel, and step 5
repairs what its self-test finds unless its alternate path skips that (R3, R437, R439). -/
def State.bootWork (s : State) (n : Nat) (alternate : Bool) : State :=
  match n with
  | 0 => { s.extend 1 Config.fuseBytes with identity := slhKeys (bytesBE 48 Config.identitySeed.toNat) }
  | 1 => { s.extend 0 (bytesBE 32 (sha256 (s.bootImage alternate)).toNat) with runningSvn := imageSvn (s.bootImage alternate) }
  | 6 => ({ s with links := s.links.map fun l => ({ l with state := 2 } : Link).flush } : State).extend 3 (Config.trainingOutcome s.bootCount.toNat n)
  | 2 | 3 => s.extend 3 (Config.trainingOutcome s.bootCount.toNat n)
  | 4 => { s.extend 3 (Config.trainingOutcome s.bootCount.toNat n) with lpddr := some Config.lpddrBytes }
  | 5 => if alternate then s else s.selfTest
  | _ => s

/-- What a step's own check finds: step 1 accepts the image, and step 4 finds every LPDDR-6 channel with the same capacity (R3, R436, R439). -/
def State.bootCheck (s : State) (n : Nat) (alternate : Bool) : Bool :=
  (n ≠ 1 || s.checkImage (s.bootImage alternate) = 1) && (n ≠ 4 || !Config.lpddrMixed)

/-- A step begins: the journal entry is STARTED, and the step takes its alternate path when it is marked ALT or an earlier start left it FAILED or STARTED. The
start of the boot extends M2 with the journal as it stands (R437, R439). -/
def State.startStep (s : State) (n : Nat) : State :=
  let s : State := if n = 0 then { s.extend 2 s.journalBytes with bootCount := s.bootCount + 1 } else s
  let before := tget s.journal n .none
  { s with bootRuns := true, journal := tset s.journal n .started,
           alt := tset s.alt n (!noAlternate n && (tget s.alt n false || before = .failed || before = .started)) }

/-- A step ends with DONE or FAILED. A failure on the main path resets the package; one on the alternate path, or of a step that has none, stops the boot with
the host link DOWN (R439, R440). -/
def State.endStep (s : State) (n : Nat) (ok : Bool) : State :=
  let alternate := tget s.alt n false
  let s : State := { s with bootRuns := false }
  if ok && s.bootCheck n alternate then
    let s := s.bootWork n alternate
    let s : State := { s with journal := tset s.journal n .done }
    if n = 8 then { s with bootDone := true } else { s with bootStep := n + 1 }
  else
    let s : State := { s with journal := tset s.journal n .failed }
    if alternate || noAlternate n then ({ s with bootStopped := some n } : State).updLink 0 fun l => { l with state := 0 } else s.packageReset

/-- BOOT_STEP: the controller begins the next step, or ends the one that it runs; a reset may come between (R439). `ok` says that the hardware of the step
does its part. -/
def execBootStep (ok : Bool) (s : State) : Out :=
  if s.bootDone || s.bootStopped.isSome || decide (9 ≤ s.bootStep) then .next s
  else .next (if s.bootRuns then s.endStep s.bootStep ok else s.startStep s.bootStep)

/-- BOOTST (R440). -/
def State.bootst (s : State) : Nat :=
  (match s.bootStopped with
   | some n => n + 2 ^ 9 + 2 ^ 12 * n
   | none => if s.bootDone then 8 + 2 ^ 8 else if s.bootRuns then s.bootStep else s.bootStep - 1) +
  2 ^ 16 * ((List.range 9).map fun n => if tget s.alt n false then 2 ^ n else 0).sum

/-! ### The mailbox (R438) -/

/-- Where a host bus address stands among the locations outside the device: in the host window of R432, or past every location when it lies beyond that
window, which the controller reaches all the same. -/
def hostLocation (a : Nat) : Nat := if a < 0xC0000000000 then State.hostBase + a else 2 ^ 64 + a

/-- Bytes of host memory, as the controller reads them over the host link (log entry 23). -/
def State.hostBytes (s : State) (a n : Nat) : List Byte := (List.range n).map fun i => Config.windowByte s.steps (hostLocation (a + i))

/-- Write host memory over the host link, a line at a time. -/
def State.hostWrite (s : State) (a : Nat) (b : List Byte) : State :=
  (List.range ((b.length + 63) / 64)).foldl (fun s i => s.postHost (a + 64 * i) ((b.drop (64 * i)).take 64)) s

/-- A command starts, unless one runs, which is noted; its RESULT is seen when it is done (R383, R438). -/
def State.mailbox (s : State) (cmd : BitVec 8) (f : State → State × Nat) : State :=
  let s : State := { s with mbCmd := cmd }
  if s.mbBusy then { s with pfRws := true }
  else
    let (s, r) := f s
    { s with mbBusy := true, mbPending := r }

/-- The report's first 176 bytes (R438). -/
def State.reportBody (s : State) : List Byte :=
  s.hostBytes s.mbAddr.toNat 32 ++ (List.range 4).flatMap (fun n => bytesBE 32 (tget s.meas n 0).toNat) ++ bytesLE 8 s.bootCount.toNat ++ List.replicate 8 0

/-- The report: its body and the identity key's signature of it, 8032 bytes (R438). -/
def State.report (s : State) : List Byte := s.reportBody ++ slhSign s.identity s.reportBody (bytesBE 16 (Config.signRandom s.steps).toNat)

/-- MB_ATTEST: nonce, measurements and boot count, signed (R438). -/
def execMbAttest (s : State) : Out :=
  .next (s.mailbox 1 fun s =>
    if s.mbAddr.toNat % 64 ≠ 0 then (s, 2) else (s.hostWrite s.mbAddr.toNat s.report, 1))

/-- MB_CERTIFICATE_CHAIN (R438). -/
def execMbCertificateChain (s : State) : Out :=
  .next (s.mailbox 2 fun s => if s.mbAddr.toNat % 64 ≠ 0 then (s, 2) else (s.hostWrite s.mbAddr.toNat (Config.certChain.take s.mbLen.toNat), 1))

/-- MB_UPDATE: an image that the check accepts replaces the one in the board flash (R436, R438). -/
def execMbUpdate (s : State) : Out :=
  .next (s.mailbox 3 fun s =>
    let b := s.hostBytes s.mbAddr.toNat s.mbLen.toNat
    if s.mbAddr.toNat % 64 ≠ 0 then (s, 2) else (if s.checkImage b = 1 then { s with flash := some b } else s, s.checkImage b))

/-- MB_RAISE_COUNTER: the counter takes the running image's version (R438). -/
def execMbRaiseCounter (s : State) : Out := .next (s.mailbox 4 fun s => ({ s with svcount := max s.svcount (min 64 s.runningSvn) }, 1))

/-- MB_CLEAR_MARKS: after a boot that has reached step 8, every ALT mark goes (R438, R439). -/
def execMbClearMarks (s : State) : Out := .next (s.mailbox 5 fun s => if s.bootDone then ({ s with alt := tableOf 9 false }, 1) else (s, 2))

/-- MB_BAD_COMMAND: another command code gives RESULT 2; while a command runs it is ignored and noted (R383, R438). -/
def execMbBadCommand (s : State) : Out :=
  let s : State := { s with mbCmd := s.port.value.setWidth 8 }
  .next (if s.mbBusy then { s with pfRws := true } else { s with mbResult := 2 })

/-- MAILBOX_COMMAND_DONE (R438). -/
def execMailboxCommandDone (s : State) : Out :=
  .next (if s.mbBusy then ({ s with mbBusy := false, mbResult := s.mbPending } : State).raisePf 1 else s)

end Sys2Proof.Machine
end

