-- ==== Sys2Proof/Machine/CrossLane.lean ====
section
/-!
DEFINITION. Cross-lane instructions but for `append` (R151 to R155, R157).
-/
set_option Elab.async false
namespace Sys2Proof.Machine
open Sys2Proof

/-- Sub-element with group index `s` of a lane vector (R152). -/
def groupEl (w : Nat) (v : Lanes Word64) (s : Nat) : Nat := subEl w (v.get (s / subCount w) 0) (s % subCount w)

/-- The group index that a `shfl` sub-element takes (R152). -/
def shflIndex (m : ShflMode) (c g b : Nat) : Nat :=
  let n := 32 * c
  match m with
  | .gat => b % n
  | .fwd => if n ≤ g + b then g else g + b
  | .back => if g < b then g else g - b
  | .rot => (g + b % n) % n
  | .flip => g ^^^ (b % n)

def execShfl (c : Ctl) (o : Shfl) (s : State) : Out :=
  let w := o.ty.width
  runInstr (.shfl c o) c (laneLong c .v (fun g => g.rD c o.d) fun g =>
    let a := g.lanesV (g.rA c o.a.reg)
    fun l => (bySub w fun k => groupEl w a (shflIndex o.mode (subCount w) (subCount w * l + k) (subEl w (g.srcB c o.uni o.b l) k)), 0)) s

/-- The quad position a `qswp` lane reads (R153). -/
def qswpPos (dir : QDir) (p : Nat) : Nat :=
  match dir with
  | .h => p ^^^ 1 | .v => p ^^^ 2 | .d => p ^^^ 3 | .b0 => 0 | .b1 => 1 | .b2 => 2 | .b3 => 3

def execQswp (c : Ctl) (o : Qswp) (s : State) : Out :=
  runInstr (.qswp c o) c (laneLong c .v (fun g => g.rD c o.d) fun g l => (g.srcA c o.a (l / 4 * 4 + qswpPos o.dir (l % 4)), 0)) s

/-! ### Reductions and scans (R154, R155) -/

/-- The identity of an operation (R154). -/
def redIdentity (op : RedOp) (t : Ty) : Nat :=
  let f := fmtOf t
  match op with
  | .add => if t.isF then f.signBits true else 0
  | .min => if t.isF then f.infBits false else lowBits t.width (tyMax t)
  | .max => if t.isF then f.infBits true else lowBits t.width (tyMin t)
  | .and => 2 ^ t.width - 1
  | .or | .xor | .minidx | .maxidx => 0

/-- One step of a reduction or scan (R154). -/
def redStep (k : FCtl) (op : RedOp) (t : Ty) (a x : Nat) : Flagged Nat :=
  match op with
  | .add => if t.isF then fpAdd k k.rnd t false false a x else (lowBits t.width (intOf t a + intOf t x), 0)
  | .min => if t.isF then fpMinMax k t false false false a x else (lowBits t.width (min (intOf t a) (intOf t x)), 0)
  | .max => if t.isF then fpMinMax k t true false false a x else (lowBits t.width (max (intOf t a) (intOf t x)), 0)
  | .and => (a &&& x, 0)
  | .or => (a ||| x, 0)
  | .xor => (a ^^^ x, 0)
  | .minidx | .maxidx => (a, 0)

/-- The sub-elements that contribute, each with its group index, in ascending order (R151). -/
def Group.contrib (g : Group) (c : Ctl) (w : Nat) (a : Lanes Word64) : List (Nat × Nat) :=
  let act := g.active c
  ((List.range (32 * subCount w)).filter fun i => lane act (i / subCount w)).map fun i => (i, groupEl w a i)

/-- Fold the contributing sub-elements (R154). -/
def redFold (k : FCtl) (op : RedOp) (t : Ty) (es : List (Nat × Nat)) : Flagged Nat :=
  es.foldl (fun acc e => let r := redStep k op t acc.1 e.2; (r.1, acc.2 ||| r.2)) (redIdentity op t, 0)

/-- Whether a value is strictly better than another in an index form (R154). -/
def idxBetter (max : Bool) (t : Ty) (x y : FpVal) (a b : Int) : Bool :=
  if t.isF then !x.isNan && (y.isNan || (if max then fpCompare true x y > 0 else fpCompare true x y < 0))
  else if max then a > b else a < b

/-- The winner of an index form: its value and index as the destination holds them, with the flags (R154). -/
def redIndex (k : FCtl) (max : Bool) (t : Ty) (es : List (Nat × Nat)) : Flagged Nat :=
  match es with
  | [] => (0, 0)
  | e :: r =>
    let val (n : Nat) : FpVal := (readOperand k t n).1
    let w := r.foldl (fun best x => if idxBetter max t (val x.2) (val best.2) (intOf t x.2) (intOf t best.2) then x else best) e
    let fl : BitVec 6 := if t.isF then es.foldl (fun a x => a ||| (readOperand k t x.2).2) 0 else 0
    let v : Nat :=
      if t.isF then (if (val w.2).isNan then nanResult t k.nanq [val w.2] else encodeExact t (val w.2))
      else lowBits 32 (intOf t w.2)
    (v + 2 ^ 32 * w.1, fl)

/-- The value that `red` delivers (R154). -/
def redValue (g : Group) (c : Ctl) (o : Red) : Flagged Word64 :=
  let es := g.contrib c o.ty.width (g.lanesV (g.rA c o.a.reg))
  match o.op with
  | .minidx => let r := redIndex g.fctl false o.ty es; (BitVec.ofNat 64 r.1, r.2)
  | .maxidx => let r := redIndex g.fctl true o.ty es; (BitVec.ofNat 64 r.1, r.2)
  | _ => let r := redFold g.fctl o.op o.ty es; (bySub o.ty.width fun _ => r.1, r.2)

/-- `red`: to every written lane, or once to a uniform register; nothing when no lane is active but what ZERO asks (R59, R154). -/
def execRed (c : Ctl) (o : Red) (s : State) : Out :=
  runInstr (.red c o) c (longResult fun g =>
    let act := g.active c
    let r := if act = 0 then (0, 0) else redValue g c o
    if o.sdst then ({ cls := .s, reg := g.rD c o.d, lanes := if act = 0 then 0 else allLanes, val := Lanes.const r.1 }, r.2)
    else (g.laneWrite c .v (g.rD c o.d) fun _ => r.1, r.2)) s

/-- The running values of a scan: from sub-element `i` up, what each takes, and the flags (R155). -/
def scanRun (k : FCtl) (op : RedOp) (t : Ty) (excl : Bool) (act : Word32) (a : Lanes Word64) : List Nat → Nat → BitVec 6 → List Nat × BitVec 6
  | [], _, fl => ([], fl)
  | i :: r, acc, fl =>
    let w := t.width
    if lane act (i / subCount w) then
      let n := redStep k op t acc (groupEl w a i)
      let (rest, f) := scanRun k op t excl act a r n.1 (fl ||| n.2)
      ((if excl then acc else n.1) :: rest, f)
    else
      let (rest, f) := scanRun k op t excl act a r acc fl
      (acc :: rest, f)

def execScan (c : Ctl) (o : Scan) (s : State) : Out :=
  runInstr (.scan c o) c (longResult fun g =>
    let w := o.ty.width
    let r := scanRun g.fctl o.op o.ty o.excl (g.active c) (g.lanesV (g.rA c o.a.reg)) (List.range (32 * subCount w)) (redIdentity o.op o.ty) 0
    (g.laneWrite c .v (g.rD c o.d) fun l => bySub w fun k => r.1.getD (subCount w * l + k) 0, r.2)) s

/-- `match`: the contributing lanes whose compared bits equal the lane's own (R157). -/
def execMatch (c : Ctl) (o : UUn) (s : State) : Out :=
  runInstr (.match_ c o) c (laneLong c .v (fun g => g.rD c o.d) fun g =>
    let act := g.active c
    fun l => ((maskOf fun k => lane act k && subEl o.ty.width (g.srcA c o.a k) 0 = subEl o.ty.width (g.srcA c o.a l) 0).setWidth 64, 0)) s

end Sys2Proof.Machine
end

