-- ==== Sys2Proof/Machine/HostRegs.lean ====
section
/-!
DEFINITION. The registers of the functions' BARs, as the host writes and reads them (R9, R10, R382 to R384, R388, R389), and the slice tick (R37).
Function 0 is the physical one, and function n + 1 virtual function n (R388, R430).
-/
set_option Elab.async false
namespace Sys2Proof.Machine
open Sys2Proof

/-- A field of a written value. -/
def fieldOf (v : Word64) (hi lo : Nat) : Nat := bitsOf v.toNat hi lo

namespace State

/-- The reserved-write status bit of a virtual function (R10, R389). -/
def vfNote (s : State) (n : Nat) : State := s.updVf n fun v => { v with rws := true }
/-- Note a write of nonzero values to RSV fields, or one that is ignored (R10, R383). -/
def pfNoteIf (s : State) (b : Bool) : State := if b then s.pfNote else s
def vfNoteIf (s : State) (n : Nat) (b : Bool) : State := if b then s.vfNote n else s

end State

/-! ### Record buffers (R414) -/

def RecBuf.readAt (b : RecBuf) (o : Nat) : Nat :=
  if o = 0 then b.base.toNat else if o = 8 then b.log2n.toNat + 2 ^ 32 * b.drops.toNat else if o = 0x10 then b.head.toNat else b.tail.toNat

/-- A write of a record buffer's register, and whether it is noted: a base that is no multiple of 4096 is ignored (log entry 36). -/
def RecBuf.writeAt (b : RecBuf) (o : Nat) (v : Word64) : RecBuf × Bool :=
  if o = 0 then (if v.toNat % 4096 = 0 then ({ b with base := v }, false) else (b, true))
  else if o = 8 then
    ({ b with log2n := BitVec.ofNat 5 (fieldOf v 4 0), drops := if fieldOf v 63 32 = 0 then b.drops else 0 }, fieldOf v 31 5 ≠ 0)
  else if o = 0x10 then ({ b with head := BitVec.ofNat 32 (fieldOf v 31 0) }, fieldOf v 63 32 ≠ 0)
  else (b, false)

/-! ### Invalidation and answers (R332, R343) -/

/-- XINVA: a base that is no multiple of 65 536 is ignored and noted (log entry 36). -/
def State.writeXinva (s : State) (n : Nat) (copy : Bool) (v : Word64) : State × Bool :=
  if v.toNat % 65536 = 0 then (s.updVf n fun f => f.setInval copy { f.inval copy with addr := v }, false) else (s, true)

/-- XINVC: PAGES, STG and GO. A GO while an invalidation runs is ignored, which PFSTAT notes for the copy of the physical function (R332, R383). -/
def State.writeXinvc (s : State) (n : Nat) (copy : Bool) (v : Word64) : Out × Bool :=
  (execXinvcGo n copy v s, fieldOf v 31 3 ≠ 0 || (copy && v.getLsbD 0 && !((s.vf n).inval copy).done))

def Inval.readC (i : Inval) : Nat := 2 * b2n i.stg + 4 * b2n i.done + 2 ^ 32 * i.pages.toNat

/-- PRQRSP: OUT 01 is RETRY and 10 FAIL; another value, or a TAG that is not outstanding, is ignored, which PFSTAT notes for the copy of the physical
function (R343, R383). -/
def State.writePrqrsp (s : State) (n : Nat) (copy : Bool) (v : Word64) : Out :=
  let known := s.prq.any fun r => r.tag = fieldOf v 11 0 && r.vf = n && r.stage2 = copy
  let s := s.pfNoteIf (copy && !(known && (fieldOf v 13 12 = 1 || fieldOf v 13 12 = 2)))
  match fieldOf v 13 12 with
  | 1 => execPrqrspRetry n copy (fieldOf v 11 0) s
  | 2 => execPrqrspFail n copy (fieldOf v 11 0) s
  | _ => .next s

/-! ### BAR0 of a virtual function (R347, R348, R389, R414, R418, R431) -/

/-- The lantern block (R347 to R349). -/
def State.writeLantern (s : State) (n off : Nat) (v : Word64) : Out :=
  let q := off / 32
  if off < 0x200 then
    if off % 32 = 0 then
      .next (if v.toNat % 128 = 0 then s.updQueue n q fun x => { x with base := v } else s.vfNote n)
    else if off % 32 = 8 then
      let s := s.vfNoteIf n (fieldOf v 63 12 ≠ 0 || fieldOf v 7 5 ≠ 0)
      let new := BitVec.ofNat 12 (fieldOf v 11 0) &&& 0xF1F
      .next (s.updQueue n q fun x => { x with cfg := if x.cfg.getLsbD 8 then (x.cfg &&& 0xEFF) ||| (new &&& 0x100) else new })
    else if off % 32 = 16 then
      let s := s.vfNoteIf n (fieldOf v 63 32 ≠ 0)
      if (s.queue n q).dev then .next s else execQtailWrite n q (v.setWidth 32) s
    else .next s
  else if off = 0x208 then
    let s := s.vfNoteIf n (fieldOf v 63 32 ≠ 0)
    .next (if fieldOf v 31 0 = 0 then s else s.updVf n fun f => { f with miss := 0 })
  else if off = 0x200 then .next s
  else .next (s.vfNote n)

/-- DBGF (R418). -/
def State.writeDbgf (s : State) (n : Nat) (v : Word64) : Out :=
  let s := (s.vfNoteIf n (fieldOf v 63 5 ≠ 0)).updVf n fun f => { f with att := v.getLsbD 0, whalt := v.getLsbD 1 }
  (if v.getLsbD 3 then execDbgfResume n s else .next s).andThen fun s => if v.getLsbD 2 then execDbgfHreq n s else .next s

/-- A write to BAR0 of virtual function `n`. -/
def State.writeVf (s : State) (n off : Nat) (v : Word64) : Out :=
  let note (p : State × Bool) : Out := .next (p.1.vfNoteIf n p.2)
  if off % 8 ≠ 0 then .next (s.vfNote n)
  else if off < 0x1000 then s.writeLantern n off v
  else if off = 0x1000 then note (s.writeXinva n false v)
  else if off = 0x1008 then match s.writeXinvc n false v with | (o, b) => o.andThen fun s => .next (s.vfNoteIf n b)
  else if off = 0x1010 then .next (if v.toNat % 8192 = 0 then s.updVf n fun f => { f with wtbase := v } else s.vfNote n)
  else if off = 0x1030 then s.writePrqrsp n false v
  else if off = 0x1040 then
    let s := s.updVf n fun f =>
      { f with rws := f.rws && !v.getLsbD 0, lflt := f.lflt && !v.getLsbD 1, srst := f.srst && !v.getLsbD 2 }
    .next (s.vfNoteIf n (fieldOf v 63 3 ≠ 0))
  else if [0x1020, 0x1028, 0x1048, 0x1050, 0x1058].contains off then .next s
  else if 0x1100 ≤ off && off < 0x1140 then
    let beacon : Bool := off ≥ 0x1120
    let f := s.vf n
    match (if beacon then f.beacon else f.trace).writeAt (off % 32) v with
    | (b, bad) => note (s.updVf n fun f => if beacon then { f with beacon := b } else { f with trace := b }, bad)
  else if off = 0x1140 then s.writeDbgf n v
  else if off = 0x1200 then .next (if v.toNat % 65536 = 0 then s.updVf n fun f => { f with winva := v } else s.vfNote n)
  else .next (s.vfNote n)

/-- What BAR0 of virtual function `n` reads; the two words of PRQPOP are read by `PRQPOP`. -/
def State.readVf (s : State) (n off : Nat) : Nat :=
  let f := s.vf n
  let q := s.queue n (off / 32)
  if off % 8 ≠ 0 then 0
  else if off < 0x200 then
    (if off % 32 = 0 then q.base.toNat else if off % 32 = 8 then q.cfg.toNat else if off % 32 = 16 then q.tail.toNat else q.head.toNat)
  else if off = 0x200 then (s.tickOf f.slice).toNat
  else if off = 0x208 then f.miss.toNat
  else if off = 0x1000 then f.inv1.addr.toNat
  else if off = 0x1008 then f.inv1.readC
  else if off = 0x1010 then f.wtbase.toNat
  else if off = 0x1040 then b2n f.rws + 2 * b2n f.lflt + 4 * b2n f.srst
  else if off = 0x1048 then f.flaunch.toNat
  else if off = 0x1050 then f.finfo.toNat
  else if off = 0x1058 then f.faddr.toNat
  else if 0x1100 ≤ off && off < 0x1120 then f.trace.readAt (off % 32)
  else if 0x1120 ≤ off && off < 0x1140 then f.beacon.readAt (off % 32)
  else if off = 0x1140 then b2n f.att + 2 * b2n f.whalt + 16 * b2n f.halted
  else if off = 0x1200 then f.winva.toNat
  else 0

/-! ### BAR0 of the physical function (R382) -/

/-- A register that holds a host-physical base in device memory: another value is ignored and noted (log entry 36). -/
def baseOk (v : Word64) (align : Nat) : Bool := v.toNat % align = 0 && isDevice v.toNat

/-- PCMD: with OP 00 its fields are set and no operation starts; another write while one runs is ignored and noted (R9, R386). -/
def State.writePcmd (s : State) (v : Word64) : Out :=
  let s := s.pfNoteIf (fieldOf v 63 20 ≠ 0 || fieldOf v 15 13 ≠ 0 || fieldOf v 7 4 ≠ 0)
  let first := fieldOf v 3 0
  let num := fieldOf v 12 8
  if fieldOf v 17 16 = 0 then .next { s with pcmdOp := 0, pcmdFirst := first, pcmdNum := num }
  else if s.pcmdStat = 1 then .next s.pfNote
  else match fieldOf v 17 16 with
    | 1 => execPcmdFuse first num s
    | 2 => execPcmdSplit first num s
    | _ => execPcmdRefusedOp v s

/-- MBCMD (R438). -/
def State.writeMbcmd (s : State) (v : Word64) : Out :=
  let s := s.pfNoteIf (fieldOf v 63 16 ≠ 0 || fieldOf v 11 10 ≠ 0)
  if !v.getLsbD 8 then .next { s with mbCmd := v.setWidth 8 }
  else match fieldOf v 7 0 with
    | 1 => execMbAttest s
    | 2 => execMbCertificateChain s
    | 3 => execMbUpdate s
    | 4 => execMbRaiseCounter s
    | 5 => execMbClearMarks s
    | _ => execMbBadCommand { s with port := { s.port with value := v } }

/-- MGCTL (R339). -/
def State.writeMgctl (s : State) (d : Nat) (v : Word64) : Out :=
  let s := s.pfNoteIf (fieldOf v 63 48 ≠ 0 || fieldOf v 31 4 ≠ 0 || (s.mig d).stat = 1)
  execMgctlGo d v s

/-- The sum of SLPOW over the active slice control blocks (R403). -/
def State.slpowSum (s : State) : Nat := (((List.range 16).filter s.isSlice).map fun g => (s.gran g).slpow.toNat).sum

/-- A write to the package block (R382). -/
def State.writePackage (s : State) (off : Nat) (v : Word64) : Out :=
  if off = 0 then s.writePcmd v
  else if off = 8 then .next (if baseOk v 65536 then { s with cmbase := v } else s.pfNote)
  else if off = 0x10 then .next (({ s with sewin := v.setWidth 32 } : State).pfNoteIf (fieldOf v 63 32 ≠ 0))
  else if off = 0x18 then .next (({ s with sethr := v &&& 0x00FFFFFFFFFFFFFF } : State).pfNoteIf (fieldOf v 63 56 ≠ 0))
  else if off = 0x20 then
    let s := s.pfNoteIf (fieldOf v 63 16 ≠ 0)
    .next (if fieldOf v 15 0 < s.slpowSum then s.pfNote else { s with pkpow := v.setWidth 16 })
  else if off = 0x28 then .next s.pfNote
  else if off = 0x30 then .next (({ s with pfRws := s.pfRws && !v.getLsbD 0 } : State).pfNoteIf (fieldOf v 63 1 ≠ 0))
  else if 0x200 ≤ off && off < 0x228 then
    let s := s.pfNoteIf (fieldOf v 31 4 ≠ 0 || v.getLsbD 2)
    let k := (off - 0x200) / 8
    if v.getLsbD 3 then execLnkstRetrain k (s.pfNoteIf ((s.link k).state ≠ 3)) else .next s
  else if off = 0x800 then s.writeMbcmd v
  else if off = 0x808 then .next { s with mbAddr := v }
  else if off = 0x810 then .next { s with mbLen := v }
  else if 0x100 ≤ off && off < 0x200 then
    let d := (off - 0x100) / 0x40
    let o := (off - 0x100) % 0x40
    if o = 0 then .next (s.setMig d { s.mig d with src := v })
    else if o = 8 then .next (s.setMig d { s.mig d with dst := v })
    else if o = 0x10 then .next (s.setMig d { s.mig d with rep := v })
    else if o = 0x18 then s.writeMgctl d v
    else .next s.pfNote
  else .next s.pfNote

/-- ROTCFG: while a rotation is in progress the write waits for the quantum boundary (R377). -/
def State.writeRotcfg (s : State) (gr : Nat) (v : Word64) : State :=
  let vfe : Word32 := v.setWidth 32 &&& 0x3F3F3F3F
  let s := s.pfNoteIf (fieldOf v 63 35 ≠ 0 || v &&& 0xC0C0C0C0 ≠ 0)
  let s := s.updGran gr fun g => { g with rotNext := some (v.getLsbD 34, fieldOf v 33 32, vfe), preloaded := false }
  let g := s.gran gr
  if g.rotEn && (!g.hold || g.rotating) then s
  else (s.updGran gr fun g =>
    let g := g.applyRot
    if g.rotEn then { g with entry := 0, quantumFrom := g.tick } else g).newHolders gr

/-- SCTL (R384, R385, R398). -/
def State.writeSctl (s : State) (gr : Nat) (v : Word64) : Out :=
  let g := s.gran gr
  let s := s.pfNoteIf (fieldOf v 63 4 ≠ 0 || (v.getLsbD 2 && !g.rdone))
  (if g.hold = v.getLsbD 0 then .next s else execSctlHold gr (v.getLsbD 0) s).andThen fun s => if v.getLsbD 2 then execSctlRst gr s else .next s

/-- ELCFG (R384). -/
def State.writeElcfg (s : State) (gr : Nat) (v : Word64) : State :=
  let n := fieldOf v 4 0
  let s := s.pfNoteIf (fieldOf v 31 9 ≠ 0 || fieldOf v 7 5 ≠ 0)
  s.updGran gr fun g =>
    { g with log := { g.log with
      log2e := BitVec.ofNat 5 (if 4 ≤ n && n ≤ 16 then n else 16)
      en := v.getLsbD 8
      drops := if fieldOf v 63 32 = 0 then g.log.drops else 0 } }

/-- RPCTL: IVL, EN and GO; a refused GO is noted (R383, R422, R425). DESIGN CHOICE: an IVL outside 10 to 30 is not taken, which is noted; the rest of the
write is (log entry 71). -/
def State.writeRpctl (s : State) (gr : Nat) (v : Word64) : Out :=
  let n := fieldOf v 23 16
  let s := s.pfNoteIf (fieldOf v 63 24 ≠ 0 || fieldOf v 15 4 ≠ 0 || n < 10 || 30 < n)
  let s := if 10 ≤ n && n ≤ 30 then s.updGran gr fun g => { g with ivl := n } else s
  (execRpctlEn gr (v.getLsbD 0) s).andThen fun s =>
    if v.getLsbD 1 then (execRpctlGo gr s).andThen fun s => .next (s.pfNoteIf ((s.gran gr).rpStat ≠ 2)) else .next s

/-- OPCFG: RAIL is taken, or ignored and noted, whether or not its value is new (R407). -/
def State.writeOpcfg (s : State) (gr : Nat) (v : Word64) : Out :=
  let s := s.pfNoteIf (fieldOf v 63 10 ≠ 0 || fieldOf v 7 3 ≠ 0)
  (execOpcfgRailWrite gr (fieldOf v 9 8) s).andThen (execOpcfgTopWrite gr (fieldOf v 2 0))

/-- A write to the slice control block of granule `gr`; an inactive block ignores it, which is noted (R382 to R384, R377, R403, R413, R422). -/
def State.writeSlice (s : State) (gr off : Nat) (v : Word64) : Out :=
  let up (f : Granule → Granule) : State := s.updGran gr f
  if !s.isSlice gr then .next s.pfNote
  else if off = 0 then
    .next ((up fun g => { g with gracewin := min 4096 (fieldOf v 12 0) }).pfNoteIf (fieldOf v 63 13 ≠ 0))
  else if off = 8 then
    .next ((up fun g => { g with lthr := fieldOf v 23 16, bgmin := fieldOf v 7 0 }).pfNoteIf (fieldOf v 63 24 ≠ 0 || fieldOf v 15 8 ≠ 0))
  else if off = 0x10 then .next ((up fun g => { g with pwait := fieldOf v 15 0 }).pfNoteIf (fieldOf v 63 16 ≠ 0))
  else if off = 0x18 then .next (s.writeRotcfg gr v)
  else if off = 0x20 then .next (up fun g => { g with rotq := v })
  else if off = 0x28 then s.writeSctl gr v
  else if off = 0x38 then .next ((up fun g => { g with lend := v.setWidth 16 }).pfNoteIf (fieldOf v 63 16 ≠ 0))
  else if off = 0x40 then .next (up fun g => { g with lopass := v })
  else if off = 0x48 then .next (up fun g => { g with lomac := v })
  else if off = 0x50 then .next (up fun g => { g with lobyte := v })
  else if off = 0x58 then .next ((up fun g => { g with wdog := v.setWidth 32 }).pfNoteIf (fieldOf v 63 32 ≠ 0))
  else if off = 0x60 then .next (if baseOk v 4096 then up fun g => { g with log := { g.log with base := v } } else s.pfNote)
  else if off = 0x68 then .next (s.writeElcfg gr v)
  else if off = 0x70 then .next ((up fun g => { g with log := { g.log with head := v.setWidth 32 } }).pfNoteIf (fieldOf v 63 32 ≠ 0))
  else if off = 0x100 then execSlpowWrite gr v s
  else if off = 0x108 then s.writeOpcfg gr v
  else if off = 0x110 then .next (up fun g => { g with gates := v })
  else if off = 0x118 then .next (up fun g => { g with gmiss := v })
  else if off = 0x120 then
    .next ((up fun g => { g with bthr := BitVec.ofNat 32 (fieldOf v 63 32), traceOn := v.getLsbD 1, prof := v.getLsbD 0 }).pfNoteIf (fieldOf v 31 2 ≠ 0))
  else if off = 0x128 then s.writeRpctl gr v
  else if off = 0x130 then .next (if baseOk v 65536 then up fun g => { g with rpBase := v } else s.pfNote)
  else if off = 0x138 then .next (up fun g => { g with rpSize := v })
  else if off = 0x140 then .next (up fun g => { g with rpStop := v })
  else .next s.pfNote

/-- VFBIND: SLICE and BRW are set with BOUND; SLICE takes effect once an unbinding is complete. DESIGN CHOICE: while BUSY a write sets both, and the unbinding
goes on whatever BOUND it holds (R9, R388; log entry 72). -/
def State.writeVfbind (s : State) (n : Nat) (v : Word64) : Out :=
  let s := s.pfNoteIf (fieldOf v 63 11 ≠ 0 || fieldOf v 7 4 ≠ 0)
  if v.getLsbD 8 then execVfBind n (fieldOf v 3 0) (fieldOf v 9 9) s
  else if !(s.vf n).bound then .next (s.updVf n fun f => { f with slice := fieldOf v 3 0, brw := v.getLsbD 9 })
  else execVfUnbind n (s.updVf n fun f => { f with newSlice := some (fieldOf v 3 0), brw := v.getLsbD 9 })

/-- A write to the per-function block of virtual function `n` (R388). -/
def State.writePerFunction (s : State) (n off : Nat) (v : Word64) : Out :=
  if off = 0 then .next ((s.updVf n fun f => { f with spol := v.setWidth 5 }).pfNoteIf (fieldOf v 63 5 ≠ 0))
  else if off = 8 then match s.writeXinva n true v with | (s, b) => .next (s.pfNoteIf b)
  else if off = 0x10 then match s.writeXinvc n true v with | (o, b) => o.andThen fun s => .next (s.pfNoteIf b)
  else if off = 0x30 then s.writePrqrsp n true v
  else if off = 0x38 then s.writeVfbind n v
  else if off = 0x40 then .next (s.updVf n fun f => { f with lipass := v })
  else if off = 0x48 then .next (s.updVf n fun f => { f with limac := v })
  else if off = 0x50 then .next (s.updVf n fun f => { f with libyte := v })
  else if off = 0x58 then
    let s := s.pfNoteIf (fieldOf v 63 2 ≠ 0)
    if v.getLsbD 0 then execFunctionLevelReset n (s.pfNoteIf !(s.vf n).flrDone) else .next s
  else .next s.pfNote

/-- A write to BAR0 of the physical function (R382). -/
def State.writePf (s : State) (off : Nat) (v : Word64) : Out :=
  if off % 8 ≠ 0 then .next s.pfNote
  else if off < 0x10000 then s.writePackage off v
  else if off < 0x20000 then s.writeSlice ((off - 0x10000) / 0x1000) (off % 0x1000) v
  else if off < 0x60000 then s.writePerFunction ((off - 0x20000) / 0x1000) (off % 0x1000) v
  else .next s.pfNote

/-- What the package block reads (R382). -/
def State.readPackage (s : State) (off : Nat) : Nat :=
  if off = 0 then s.pcmdFirst + 2 ^ 8 * s.pcmdNum + 2 ^ 16 * s.pcmdOp + 2 ^ 18 * s.pcmdStat
  else if off = 8 then s.cmbase.toNat
  else if off = 0x10 then s.sewin.toNat
  else if off = 0x18 then s.sethr.toNat
  else if off = 0x20 then s.pkpow.toNat
  else if off = 0x28 then s.bootst
  else if off = 0x30 then b2n s.pfRws
  else if 0x200 ≤ off && off < 0x228 then
    let l := s.link ((off - 0x200) / 8)
    l.state + 2 ^ 32 * l.replays.toNat
  else if off = 0x800 then s.mbCmd.toNat + 2 ^ 9 * b2n s.mbBusy + 2 ^ 12 * s.mbResult
  else if off = 0x808 then s.mbAddr.toNat
  else if off = 0x810 then s.mbLen.toNat
  else if 0x100 ≤ off && off < 0x200 then
    let m := s.mig ((off - 0x100) / 0x40)
    let o := (off - 0x100) % 0x40
    if o = 0 then m.src.toNat else if o = 8 then m.dst.toNat else if o = 0x10 then m.rep.toNat
    else if o = 0x18 then 2 * b2n m.meta_ + 4 * m.stat + 2 ^ 32 * m.pages else 0
  else 0

/-- What a slice control block reads; an inactive one reads zero (R377, R382, R384, R403, R413, R422). -/
def State.readSlice (s : State) (gr off : Nat) : Nat :=
  let g := s.gran gr
  if !s.isSlice gr then 0
  else if off = 0 then g.gracewin
  else if off = 8 then g.bgmin + 2 ^ 16 * g.lthr
  else if off = 0x10 then g.pwait
  else if off = 0x18 then g.rotVf.toNat + 2 ^ 32 * g.rotNm + 2 ^ 34 * b2n g.rotEn
  else if off = 0x20 then g.rotq.toNat
  else if off = 0x28 then b2n g.hold + 2 * b2n g.quiet + 8 * b2n g.rdone
  else if off = 0x30 then 4 * gr + 2 ^ 8 * (4 * (gr + g.num) - 1)
  else if off = 0x38 then g.lend.toNat
  else if off = 0x40 then g.lopass.toNat
  else if off = 0x48 then g.lomac.toNat
  else if off = 0x50 then g.lobyte.toNat
  else if off = 0x58 then g.wdog.toNat
  else if off = 0x60 then g.log.base.toNat
  else if off = 0x68 then g.log.log2e.toNat + 2 ^ 8 * b2n g.log.en + 2 ^ 32 * g.log.drops.toNat
  else if off = 0x70 then g.log.head.toNat
  else if off = 0x78 then g.log.tail.toNat
  else if off = 0x100 then g.slpow.toNat
  else if off = 0x108 then g.top + 2 ^ 8 * g.rail
  else if off = 0x110 then g.gates.toNat
  else if off = 0x118 then g.gmiss.toNat
  else if off = 0x120 then b2n g.prof + 2 * b2n g.traceOn + 2 ^ 32 * g.bthr.toNat
  else if off = 0x128 then b2n g.rpEn + 4 * g.rpStat + 2 ^ 16 * g.ivl
  else if off = 0x130 then g.rpBase.toNat
  else if off = 0x138 then g.rpSize.toNat
  else if off = 0x140 then g.rpStop.toNat
  else if off = 0x148 then g.rpCount % 2 ^ 32 + 2 ^ 32 * g.rpIvl.toNat
  else 0

/-- What a per-function block reads; the two words of PRQPOP are read by `PRQPOP` (R388). -/
def State.readPerFunction (s : State) (n off : Nat) : Nat :=
  let f := s.vf n
  if off = 0 then f.spol.toNat
  else if off = 8 then f.inv2.addr.toNat
  else if off = 0x10 then f.inv2.readC
  else if off = 0x38 then f.newSlice.getD f.slice + 2 ^ 8 * b2n f.bound + 2 ^ 9 * b2n f.brw + 2 ^ 10 * b2n f.busy
  else if off = 0x40 then f.lipass.toNat
  else if off = 0x48 then f.limac.toNat
  else if off = 0x50 then f.libyte.toNat
  else if off = 0x58 then 2 * b2n f.flrDone
  else 0

/-- What BAR0 of the physical function reads (R382). -/
def State.readPf (s : State) (off : Nat) : Nat :=
  if off % 8 ≠ 0 then 0
  else if off < 0x10000 then s.readPackage off
  else if off < 0x20000 then s.readSlice ((off - 0x10000) / 0x1000) (off % 0x1000)
  else if off < 0x60000 then s.readPerFunction ((off - 0x20000) / 0x1000) (off % 0x1000)
  else 0

/-! ### BAR4: MSI-X tables (R431) -/

/-- Write bytes of an MSI-X table; the pending-bit array is read-only. -/
def writeMsix (m : Sparse Byte) (o : Nat) (data : List Byte) : Sparse Byte :=
  (List.range (min data.length (4096 - o))).foldl (fun m i =>
    Sparse.set 0 m (o + i) (data.getD i 0 ^^^ (if (o + i) % 16 = 12 then 1 else 0))) m

/-- What eight bytes of BAR4 read: the table, or the pending bits (R431). -/
def readMsix (m : Sparse Byte) (irq : List Bool) (o : Nat) : Nat :=
  if o < 4096 then natLE ((List.range 8).map fun i => State.msixByte m (o + i))
  else if o = 4096 then irq.foldr (fun b a => b2n b + 2 * a) 0
  else 0

/-- Vectors that are pending and no longer masked send their messages. -/
def State.sendPending (s : State) (fn : Nat) : State :=
  if fn = 0 then
    (List.range 2).foldl (fun s n => if tget s.pfIrq n false then ({ s with pfIrq := tset s.pfIrq n false } : State).raisePf n else s) s
  else
    (List.range 3).foldl (fun s n =>
      if tget (s.vf (fn - 1)).irq n false then (s.updVf (fn - 1) fun v => { v with irq := tset v.irq n false }).raiseIrq (fn - 1) n else s) s

/-- A write to BAR4 of a function. -/
def State.writeBar4 (s : State) (fn o : Nat) (data : List Byte) : State :=
  (if fn = 0 then { s with pfMsix := writeMsix s.pfMsix o data }
   else s.updVf (fn - 1) fun f => { f with msix := writeMsix f.msix o data }).sendPending fn

/-- What BAR4 of a function reads. -/
def State.readBar4 (s : State) (fn o : Nat) : Nat :=
  if fn = 0 then readMsix s.pfMsix s.pfIrq.toList o else readMsix (s.vf (fn - 1)).msix (s.vf (fn - 1)).irq.toList o

/-! ### The events -/

/-- REGISTER_WRITE: the host writes eight bytes at offset `off` of BAR0 of function `fn`; offsets from 2^20 on name its BAR4 (R9, R10, R382, R389, R431). -/
def execRegisterWrite (fn off : Nat) (v : Word64) (s : State) : Out :=
  if 64 < fn then .next s
  else if 2 ^ 20 ≤ off then .next (if off - 2 ^ 20 < 8192 then s.writeBar4 fn (off - 2 ^ 20) (bytesLE 8 v.toNat) else s)
  else if fn = 0 then s.writePf off v
  else if off < 65536 then s.writeVf (fn - 1) off v
  else .next s

/-- What a register reads. -/
def State.registerRead (s : State) (fn off : Nat) : Nat :=
  if 64 < fn then 0
  else if 2 ^ 20 ≤ off then s.readBar4 fn (off - 2 ^ 20)
  else if fn = 0 then s.readPf off
  else if off < 65536 then s.readVf (fn - 1) off
  else 0

/-- Clusters of a slice that hold a gang of background work (R359). -/
def State.bgClusters (s : State) (gr : Nat) : Nat :=
  ((s.clustersOf gr).filter fun c => s.gangs.any fun k =>
    k.st = .resident && k.cluster = c && match s.launch? k.launch with | some l => l.background | none => false).length

/-- SLICE_TICK: the granule's oscillator advances its counter; the counts that run with a slice's ticks go on, those after the window's
last tick apart (R37, R359, R401). -/
def execSliceTick (gr : Nat) (s : State) : Out :=
  if 16 ≤ gr then .next s
  else
    let e := ((s.gran gr).tick - (s.gran gr).windowFrom).toNat
    let n := if (s.gran gr).num = 0 then 0 else s.bgClusters gr
    let s := s.updGran gr fun g =>
      { g with tick := g.tick + 1, bgTicks := if e < 10000 then g.bgTicks + n else g.bgTicks,
               bgNext := if e < 10000 then g.bgNext else if e % 10000 = 0 then n else g.bgNext + n }
    .next (if s.sewin ≠ 0 && (s.gran gr).tick.toNat % s.sewin.toNat = 0 then s.restartWindow gr else s)

end Sys2Proof.Machine
end

