-- ==== Sys2Proof/Machine/Predicate.lean ====
section
/-!
DEFINITION. Predicate instructions and votes (R125, R126).
-/
set_option Elab.async false
namespace Sys2Proof.Machine
open Sys2Proof

/-- A predicate instruction: each active and each helper lane takes `f` of its lane (R125). -/
def predLanes (i : Instr) (c : Ctl) (d : BitVec 8) (f : Group → Nat → Bool) (s : State) : Out :=
  runInstr i c (laneShort c .p (fun g => g.rD c d) fun g l => (predVal (f g l), 0)) s

/-- Predicate source A, inverted by NA. -/
def Group.predA (g : Group) (c : Ctl) (a : Src) (na : Bool) (l : Nat) : Bool := g.readP (g.rA c a.reg) l != na
/-- Predicate source B, inverted by NB. -/
def Group.predB (g : Group) (c : Ctl) (b : Src) (nb : Bool) (l : Nat) : Bool := g.readP (g.rB c b.reg) l != nb

def execPand (c : Ctl) (o : PBin) (s : State) : Out :=
  predLanes (.pand c o) c o.d (fun g l => g.predA c o.a o.na l && g.predB c o.b o.nb l) s
def execPor (c : Ctl) (o : PBin) (s : State) : Out :=
  predLanes (.por c o) c o.d (fun g l => g.predA c o.a o.na l || g.predB c o.b o.nb l) s
def execPxor (c : Ctl) (o : PBin) (s : State) : Out :=
  predLanes (.pxor c o) c o.d (fun g l => g.predA c o.a o.na l != g.predB c o.b o.nb l) s
def execPnot (c : Ctl) (o : DA) (s : State) : Out := predLanes (.pnot c o) c o.d (fun g l => !g.predA c o.a false l) s
def execPmov (c : Ctl) (o : PUn) (s : State) : Out := predLanes (.pmov c o) c o.d (fun g l => g.predA c o.a o.na l) s
def execPsel (c : Ctl) (o : DAB) (s : State) : Out :=
  predLanes (.psel c o) c o.d (fun g l => if g.readP (g.rC c) l then g.predA c o.a false l else g.predB c o.b false l) s

/-- Lanes that contribute to a vote: the active ones (R126). -/
def Group.voters (g : Group) (c : Ctl) : List Nat := lanesOf (g.active c)

def execVoteAny (c : Ctl) (o : PUn) (s : State) : Out :=
  predLanes (.voteAny c o) c o.d (fun g _ => (g.voters c).any fun k => g.predA c o.a o.na k) s
def execVoteAll (c : Ctl) (o : PUn) (s : State) : Out :=
  predLanes (.voteAll c o) c o.d (fun g _ => (g.voters c).all fun k => g.predA c o.a o.na k) s
/-- `vote.bal`: the mask of contributing lanes whose source is 1; nothing when no lane is active (R59, R126). -/
def execVoteBal (c : Ctl) (o : DA) (s : State) : Out :=
  runInstr (.voteBal c o) c (shortResult fun g =>
    if g.active c = 0 then (none, 0)
    else (some (Group.uniWrite (g.rD c o.d) ((g.active c &&& maskOf (g.predA c o.a false)).setWidth 64)), 0)) s

end Sys2Proof.Machine
end

