-- ==== Sys2Proof/Machine/Transactions.lean ====
section
/-!
DEFINITION. Transactions that arrive over a link: window accesses, register accesses, atomics, configuration requests and unsupported ones (R318, R335,
R430 to R434).
-/
set_option Elab.async false
namespace Sys2Proof
open Machine

/-- Whether a window access lies in BAR2 of a virtual function (R431). -/
def Port.inWindow (p : Port) (n : Nat) : Bool := p.bar = 2 && decide (p.vf < 64) && decide (p.addr + n ≤ 2 ^ 38)

/-- A register access of the host: BAR0 of function `fn`, or whole double words of its BAR4, as an offset that `registerRead` knows (R431). -/
def Port.register? (p : Port) : Option Nat :=
  if p.link ≠ 0 || decide (64 < p.fn) then none
  else if p.bar = 0 then some (p.addr % 2 ^ 20)
  else if p.bar = 4 && p.addr % 4 = 0 then some (2 ^ 20 + p.addr) else none

/-- The atomics that a requester may send as an AtomicOp (R430). -/
def Port.atomicOk (p : Port) : Bool :=
  (p.op = .add || p.op = .xchg || p.op = .cas) && (tyBytes p.ty = 4 || tyBytes p.ty = 8)

end Sys2Proof

namespace Sys2Proof.Machine
open Sys2Proof

/-! ### Registers and configuration space (R343, R430, R431) -/

/-- A write of the host to a register of a BAR: eight bytes at once, and four or eight to BAR4; another one is ignored, which BAR0 notes (R383; log entry 36). -/
def State.writeRegister (s : State) (p : Port) : Out :=
  match p.register? with
  | none => .next s
  | some off =>
    if 2 ^ 20 ≤ off && p.data.length = 4 then .next (if off - 2 ^ 20 < 8192 then s.writeBar4 p.fn (off - 2 ^ 20) p.data else s)
    else if p.data.length = 8 then execRegisterWrite p.fn off (BitVec.ofNat 64 (natLE p.data)) s
    else .next (if 2 ^ 20 ≤ off then s else if p.fn = 0 then s.pfNote else s.vfNote (p.fn - 1))

/-- What a read of registers returns; PRQPOP takes its record (R343). -/
def State.readRegisters (s : State) (fn off n : Nat) : State × List Byte :=
  let vfPop : Bool := fn ≠ 0 && off = 0x1020
  let pfPop : Bool := fn = 0 && decide (0x20000 ≤ off) && decide (off < 0x60000) && off % 0x1000 = 0x20
  if n = 16 && (vfPop || pfPop) then
    match execPrqpop (if vfPop then fn - 1 else (off - 0x20000) / 0x1000) pfPop s with
    | .next t => (t, t.port.data)
    | _ => (s, [])
  else (s, (List.range ((n + 7) / 8)).flatMap fun i => bytesLE 8 (s.registerRead fn (off + 8 * i)))

/-- What the spec fixes of a function's configuration space: offset, bytes, the fixed bits and their values. The sizes of the BARs of R431; TotalVFs 64, first
offset 1 and stride 1; ARI, function-level reset and MSI-X with the vectors of R431 (R430). The places are those of PCI Express, and where a capability begins is
the device's (log entry 33). -/
def configFields (fn : Nat) : List (Nat × Nat × Nat × Nat) :=
  let sriov := Config.capBase 0
  let msix := Config.capBase 2
  let pcie := Config.capBase 3
  [(Config.capBase 1, 2, 0xFFFF, 0x000E), (msix, 1, 0xFF, 0x11), (msix + 2, 2, 0x7FF, if fn = 0 then 1 else 2), (msix + 4, 4, 2 ^ 32 - 1, 4),
   (msix + 8, 4, 2 ^ 32 - 1, 4096 + 4), (pcie, 1, 0xFF, 0x10), (pcie + 4, 4, 2 ^ 28, 2 ^ 28), (pcie + 8, 2, 2 ^ 15, 0)] ++
  (if fn ≠ 0 then []
   else [(0x10, 8, 2 ^ 20 - 1, 4), (0x20, 8, 2 ^ 13 - 1, 4), (sriov, 2, 0xFFFF, 0x0010), (sriov + 0x0E, 2, 0xFFFF, 64), (sriov + 0x14, 2, 0xFFFF, 1),
         (sriov + 0x16, 2, 0xFFFF, 1), (sriov + 0x24, 8, 2 ^ 16 - 1, 4), (sriov + 0x2C, 8, 2 ^ 38 - 1, 0xC), (sriov + 0x34, 8, 2 ^ 13 - 1, 4)])

/-- A byte of a function's configuration space: its fixed bits, and else as software wrote it or as the implementation has it (log entry 33). -/
def configGet (m : Sparse Byte) (fn off : Nat) : Byte :=
  (configFields fn).foldl (fun b f =>
    if f.1 ≤ off && off < f.1 + f.2.1 then
      let mask := BitVec.ofNat 8 (f.2.2.1 / 256 ^ (off - f.1))
      (b &&& ~~~mask) ||| (BitVec.ofNat 8 (f.2.2.2 / 256 ^ (off - f.1)) &&& mask)
    else b) (Sparse.get 0 m off ^^^ Config.configByte fn off)

/-- Write four bytes of a configuration space. -/
def configSet (m : Sparse Byte) (fn off : Nat) (v : Word32) : Sparse Byte :=
  (List.range 4).foldl (fun m i => Sparse.set 0 m (off + i) (v.extractLsb' (8 * i) 8 ^^^ Config.configByte fn (off + i))) m

/-- A function's configuration space. -/
def State.configOf (s : State) (fn : Nat) : Sparse Byte := if fn = 0 then s.pfConfig else (s.vf (fn - 1)).config

/-- The function-level reset of the physical function: its configuration space and MSI-X table are as at reset, and the virtual functions, which it takes away,
take their function-level reset and lose theirs (R430; log entry 33). -/
def State.pfReset (s : State) : Out :=
  (List.range 64).foldl (fun o v => o.andThen fun s => execFunctionLevelReset v (s.updVf v fun f => { f with config := [], msix := [] }))
    (.next { s with pfConfig := [], pfMsix := [] })

/-- The host reads or writes four bytes of a function's configuration space; a request from a peer is unsupported, and before step 8 of the boot one of the host
is to be tried again (R430, R439; log entry 33). A write of Initiate Function Level Reset starts that reset (R399). -/
def State.configure (s : State) (p : Port) : Out :=
  let off := 4 * (p.addr % 4096 / 4)
  let flr := off = Config.capBase 3 + 8
  if p.link ≠ 0 || decide (64 < p.fn) then .next (s.sendReply p.link p.tag 1 [])
  else if !s.bootDone then .next (s.sendReply 0 p.tag 2 [])
  else match p.write with
    | none => .next (s.sendReply 0 p.tag 0 ((List.range 4).map fun i => configGet (s.configOf p.fn) p.fn (off + i)))
    | some v =>
      let s : State := if p.fn = 0 then { s with pfConfig := configSet s.pfConfig 0 off v }
        else s.updVf (p.fn - 1) fun f => { f with config := configSet f.config p.fn off v }
      (if !flr || !v.getLsbD 15 then .next s else if p.fn = 0 then s.pfReset else execFunctionLevelReset (p.fn - 1) s).andThen fun s =>
        .next (s.sendReply 0 p.tag 0 [])

/-! ### Arrival and order (R430, R433) -/

/-- Perform a register write, a register read or a configuration request whose turn it is. -/
def State.performRegister (s : State) (a : Incoming) : Out :=
  if a.kind = 4 then s.writeRegister a.port
  else if a.kind = 6 then s.configure a.port
  else match a.port.register? with
    | none => .next (s.sendReply a.port.link a.port.tag 1 [])
    | some off => match s.readRegisters a.port.fn off a.port.len with
      | (s, b) => .next (s.sendReply a.port.link a.port.tag 0 (b.take a.port.len))

/-- A register access or a configuration request arrives: it waits behind the earlier accesses of its requester to its function (R433). -/
def State.arriveRegister (s : State) (kind : Nat) (p : Port) : Out :=
  let a : Incoming := { tag := s.nextKey, vf := p.fn - 1, port := p, kind, asked := false }
  if s.behind a then .next { s with nextKey := s.nextKey + 1, incoming := s.incoming ++ [a] } else s.performRegister a

/-- Register accesses and configuration requests that nothing stands before any more go on, and what waited behind them (R433). -/
def State.settleIncoming (s : State) : Nat → Out
  | 0 => .next s
  | n + 1 =>
    match s.incoming.find? (fun a => decide (4 ≤ a.kind) && !s.behind a) with
    | none => .next s
    | some a => ((s.leave a.tag).performRegister a).andThen fun s => (s.drainIncoming s.waiters.length).settleIncoming n

/-- INCOMING_WRITE: a write of at most 512 bytes through a window is performed as a store of the function; a write to a register of a BAR sets it (R335,
R430, R431, R433). -/
def execIncomingWrite (s : State) : Out :=
  let p := s.port
  if !s.arrived .write 0 then .next s
  else
    let s := s.takeTlp .write 0
    if p.inWindow p.data.length && decide (p.data.length ≤ 512) then .next (s.arriveIncoming 0 p) else s.arriveRegister 4 p

/-- INCOMING_READ: a read of at most 4096 bytes through a window is served under the function's translation and completed; so is a read of registers
(R343, R430, R431, R433). -/
def execIncomingRead (s : State) : Out :=
  let p := s.port
  if !s.arrived .read 1 then .next s
  else
    let s := s.takeTlp .read 1
    if p.inWindow p.len && decide (p.len ≤ 4096) then .next (s.arriveIncoming 1 p) else s.arriveRegister 5 p

/-- INCOMING_ATOMICOP: performed at the L2 atomic unit of the function's line (R165, R318, R335). -/
def execIncomingAtomicop (s : State) : Out :=
  let p := s.port
  let kind : TlpKind := match p.op with | .xchg => .swap | .cas => .cas | _ => .fetchAdd
  if !s.arrived kind 1 then .next s
  else
    let s := s.takeTlp kind 1
    .next (if p.atomicOk && p.inWindow (tyBytes p.ty) then s.arriveIncoming 2 p else s.sendReply p.link p.tag 1 [])

/-- ATOMIC_REQUEST_MESSAGE: a peer's request enters the queue of 1024 of its port, which performs its requests in the order of arrival; while the queue is
full it stays in the receive buffer, which is as full (R427, R434). -/
def execAtomicRequestMessage (s : State) : Out :=
  let p := s.port
  if !s.arrived .request 1 || p.link = 0 || decide (1024 ≤ s.queued p.link) then .next s
  else
    let s := s.takeTlp .request 1
    .next (if p.inWindow (tyBytes p.ty) then (s.arriveMessage p).updLink p.link (·.flow 1) else s.sendReply p.link p.tag 4 [] .reply)

/-- INCOMING_ACCESS_TIMEOUT: an access whose page request has stood for 10 ms is refused (R433). -/
def execIncomingAccessTimeout (vf tag : Nat) (s : State) : Out :=
  if !s.incoming.any fun a => a.tag = tag && a.vf = vf && a.asked then .next s
  else
    let s : State := { s with
      prq := s.prq.map (fun r => { r with who := r.who.filter (· ≠ .incoming tag) })
      prqWait := s.prqWait.filter (fun w => w.2.2.2.2 ≠ .incoming tag) }
    .next (s.answerIncoming tag true)

/-- UNSUPPORTED_TLP: Unsupported Request for a non-posted one, and another is dropped (R430). -/
def execUnsupportedTlp (s : State) : Out :=
  let p := s.port
  let ch := if p.posted then 0 else 1
  if !s.arrived .other ch then .next s
  else
    let s := s.takeTlp .other ch
    .next (if p.posted then s else s.sendReply p.link p.tag 1 [])

/-- CONFIGURATION_REQUEST (R430). -/
def execConfigurationRequest (s : State) : Out :=
  if s.arrived .config 1 then (s.takeTlp .config 1).arriveRegister 6 s.port else .next s

end Sys2Proof.Machine
end

