-- ==== Sys2Proof/Machine/Uniform.lean ====
section
/-!
DEFINITION. The uniform instructions of major 0x1 but for `sld` and `sst` (R120 to R123).
-/
set_option Elab.async false
namespace Sys2Proof.Machine
open Sys2Proof

/-- Arithmetic on two uniform sources, fitted by R76 (R121). -/
def uniArith (i : Instr) (c : Ctl) (o : UArith) (f : Int → Int → Int) (s : State) : Out :=
  runInstr i c (uniShort c o.d fun g => uniFit o.ty o.sat (f (uniInt o.ty (g.uniA c o.a)) (uniInt o.ty (g.ubVal c o.b)))) s

/-- Logic on two uniform sources (R121). -/
def uniLogic (i : Instr) (c : Ctl) (o : UArith) (f : Word64 → Word64 → Word64) (s : State) : Out :=
  runInstr i c (uniShort c o.d fun g => (BitVec.ofNat 64 ((f (g.uniA c o.a) (g.ubVal c o.b)).toNat % 2 ^ o.ty.width), 0)) s

/-- A shift of a uniform source by all 64 bits of B (R121). -/
def uniShift (i : Instr) (c : Ctl) (o : UArith) (f : Nat → Nat → Nat → Nat) (s : State) : Out :=
  runInstr i c (uniShort c o.d fun g => (BitVec.ofNat 64 (f o.ty.width ((g.uniA c o.a).toNat % 2 ^ o.ty.width) (g.ubVal c o.b).toNat), 0)) s

def execSadd (c : Ctl) (o : UArith) (s : State) : Out := uniArith (.sadd c o) c o (· + ·) s
def execSsub (c : Ctl) (o : UArith) (s : State) : Out := uniArith (.ssub c o) c o (· - ·) s
def execSmul (c : Ctl) (o : UArith) (s : State) : Out := uniArith (.smul c o) c o (· * ·) s
/-- `smulh`: bits [127:64] of the product (R121). -/
def execSmulh (c : Ctl) (o : UArith) (s : State) : Out := uniArith (.smulh c o) c o (fun a b => a * b / 2 ^ 64) s
def execSand (c : Ctl) (o : UArith) (s : State) : Out := uniLogic (.sand c o) c o (· &&& ·) s
def execSor (c : Ctl) (o : UArith) (s : State) : Out := uniLogic (.sor c o) c o (· ||| ·) s
def execSxor (c : Ctl) (o : UArith) (s : State) : Out := uniLogic (.sxor c o) c o (· ^^^ ·) s
/-- `snot` (R121). -/
def execSnot (c : Ctl) (o : UUn) (s : State) : Out :=
  runInstr (.snot c o) c (uniShort c o.d fun g => (BitVec.ofNat 64 ((~~~(g.uniA c o.a)).toNat % 2 ^ o.ty.width), 0)) s
def execSshl (c : Ctl) (o : UArith) (s : State) : Out := uniShift (.sshl c o) c o shiftLeft s
def execSshr (c : Ctl) (o : UArith) (s : State) : Out := uniShift (.sshr c o) c o shiftRight s
def execSsar (c : Ctl) (o : UArith) (s : State) : Out := uniShift (.ssar c o) c o shiftSign s
def execSmin (c : Ctl) (o : UArith) (s : State) : Out := uniArith (.smin c o) c o min s
def execSmax (c : Ctl) (o : UArith) (s : State) : Out := uniArith (.smax c o) c o max s

/-- `ssetp`: per-lane in its destination, helper lanes too (R122). -/
def execSsetp (c : Ctl) (o : USetp) (s : State) : Out :=
  runInstr (.ssetp c o) c (laneShort c .p (fun g => g.rD c o.d) fun g _ =>
    (predVal (cmpHolds o.cmp (uniInt o.ty (g.uniA c o.a)) (uniInt o.ty (g.ubVal c o.b))), 0)) s

/-- `smov` (R121). -/
def execSmov (c : Ctl) (o : DA) (s : State) : Out := runInstr (.smov c o) c (uniShort c o.d fun g => (g.uniA c o.a, 0)) s
/-- `smovi` (R123). -/
def execSmovi (c : Ctl) (o : MovImm) (s : State) : Out := runInstr (.smovi c o) c (uniShort c o.d fun _ => (o.imm.signExtend 64, 0)) s

/-- `ssel`: A when the predicate is set in some active lane (R122). -/
def execSsel (c : Ctl) (o : USel) (s : State) : Out :=
  runInstr (.ssel c o) c (uniShort c o.d fun g =>
    let a := g.active c
    let any := laneList.any fun l => lane a l && g.readP o.cp.toNat l
    (BitVec.ofNat 64 ((if any then g.uniA c o.a else g.uniB c o.b).toNat % 2 ^ o.ty.width), 0)) s

end Sys2Proof.Machine
end

