-- ==== Sys2Proof/Machine/VectorFp.lean ====
section
/-!
DEFINITION. Floating-point instructions, conversions and the special functions (R138 to R150).
-/
set_option Elab.async false
namespace Sys2Proof.Machine
open Sys2Proof

/-- A two-source floating-point instruction on sub-elements (R138). -/
def fp2 (i : Instr) (c : Ctl) (o : F2) (f : FCtl → Rounding → Nat → Nat → Flagged Nat) (s : State) : Out :=
  runInstr i c (laneShort c .v (fun g => g.rD c o.d) fun g l =>
    bySubF o.ty.width fun k => f g.fctl (g.rmode c) (subEl o.ty.width (g.srcA c o.a l) k) (subEl o.ty.width (g.srcB c o.uni o.b l) k)) s

def execFadd (c : Ctl) (o : F2) (s : State) : Out := fp2 (.fadd c o) c o (fun k m a b => fpAdd k m o.ty o.na o.nb a b) s
/-- `fsub`: a + (−b) (R139). -/
def execFsub (c : Ctl) (o : F2) (s : State) : Out := fp2 (.fsub c o) c o (fun k m a b => fpAdd k m o.ty o.na (!o.nb) a b) s
def execFmul (c : Ctl) (o : F2) (s : State) : Out := fp2 (.fmul c o) c o (fun k m a b => fpMul k m o.ty o.na o.nb a b) s
def execFmin (c : Ctl) (o : F2) (s : State) : Out := fp2 (.fmin c o) c o (fun k _ a b => fpMinMax k o.ty false o.na o.nb a b) s
def execFmax (c : Ctl) (o : F2) (s : State) : Out := fp2 (.fmax c o) c o (fun k _ a b => fpMinMax k o.ty true o.na o.nb a b) s

/-- `ffma`, rounded once (R139). -/
def execFfma (c : Ctl) (o : F3) (s : State) : Out :=
  let w := o.ty.width
  runInstr (.ffma c o) c (laneShort c .v (fun g => g.rD c o.d) fun g l =>
    bySubF w fun k => fpFma g.fctl (g.rmode c) o.ty o.na o.nb o.nc (subEl w (g.srcA c o.a l) k) (subEl w (g.srcB c o.uni o.b l) k)
      (subEl w (g.srcC c l) k)) s

/-- `fsetp` (R141). -/
def execFsetp (c : Ctl) (o : FSetp) (s : State) : Out :=
  let w := o.ty.width
  let k := o.sel.toNat
  runInstr (.fsetp c o) c (laneShort c .p (fun g => g.rD c o.d) fun g l =>
    let r := fpSetp g.fctl o.ty o.cmp o.na o.nb (subEl w (g.srcA c o.a l) k) (subEl w (g.srcB c o.uni o.b l) k)
    (predVal r.1, r.2)) s

/-- `fclass`: the raw encoding's class against the mask (R142). -/
def execFclass (c : Ctl) (o : FClass) (s : State) : Out :=
  runInstr (.fclass c o) c (laneShort c .p (fun g => g.rD c o.d) fun g l =>
    (predVal (o.cls.getLsbD (fpClass o.ty (subEl o.ty.width (g.srcA c o.a l) o.sel.toNat))), 0)) s

/-- `frnd` (R143). -/
def execFrnd (c : Ctl) (o : F1) (s : State) : Out :=
  runInstr (.frnd c o) c (laneShort c .v (fun g => g.rD c o.d) fun g l =>
    bySubF o.ty.width fun k => fpRound g.fctl (g.rmode c) o.ty o.na (subEl o.ty.width (g.srcA c o.a l) k)) s

/-- The elements of `cvt` in a lane: each converted, and the others of the destination kept when it is the narrower (R149). -/
def cvtLane (f : Nat → Flagged Nat) (o : Cvt) (a old : Word64) : Flagged Word64 :=
  let ws := if o.src.width = 4 then 4 else o.src.width
  let wd := if o.dst.width = 4 then 4 else o.dst.width
  let e := 64 / max ws wd
  let part := o.part.toNat
  if wd < ws then
    bySubF wd fun k => if decide (part * e ≤ k) && decide (k < part * e + e) then f (subEl ws a (k - part * e)) else (subEl wd old k, 0)
  else bySubF wd fun k => f (subEl ws a (if ws < wd then part * e + k else k))

/-- `cvt` (R148 to R150). -/
def execCvt (c : Ctl) (o : Cvt) (s : State) : Out :=
  runInstr (.cvt c o) c (laneShort c .v (fun g => g.rD c o.d) fun g l =>
    cvtLane (convert g.fctl (g.rmode c) o.sat o.src o.dst) o (g.srcA c o.a l) (g.readV (g.rD c o.d) l)) s

/-- A special function on sub-elements, long-latency (R144). -/
def sfuLanes (i : Instr) (c : Ctl) (o : F1) (f : Sfu) (s : State) : Out :=
  runInstr i c (laneLong c .v (fun g => g.rD c o.d) fun g l =>
    bySubF o.ty.width fun k => fpSfu f g.fctl (g.rmode c) o.ty o.na (subEl o.ty.width (g.srcA c o.a l) k)) s

def execFrcp (c : Ctl) (o : F1) (s : State) : Out := sfuLanes (.frcp c o) c o .rcp s
def execFrsq (c : Ctl) (o : F1) (s : State) : Out := sfuLanes (.frsq c o) c o .rsq s
def execFsqrt (c : Ctl) (o : F1) (s : State) : Out := sfuLanes (.fsqrt c o) c o .sqrt s
def execFexp2 (c : Ctl) (o : F1) (s : State) : Out := sfuLanes (.fexp2 c o) c o (.elem .exp2) s
def execFlog2 (c : Ctl) (o : F1) (s : State) : Out := sfuLanes (.flog2 c o) c o (.elem .log2) s
def execFsin (c : Ctl) (o : F1) (s : State) : Out := sfuLanes (.fsin c o) c o (.elem .sin) s
def execFcos (c : Ctl) (o : F1) (s : State) : Out := sfuLanes (.fcos c o) c o (.elem .cos) s

end Sys2Proof.Machine
end

