-- ==== Sys2Proof/Machine/VectorInt.lean ====
section
/-!
DEFINITION. Vector integer instructions (R130 to R137).
-/
set_option Elab.async false
namespace Sys2Proof.Machine
open Sys2Proof

/-- Two-source arithmetic on sub-elements, fitted by R76 (R131). -/
def vecArith (i : Instr) (c : Ctl) (o : VInt) (f : Int → Int → Int) (s : State) : Out :=
  runInstr i c (laneShort c .v (fun g => g.rD c o.d) fun g l =>
    intSubs o.ty o.sat fun k => f (intSub o.ty (g.srcA c o.a l) k) (intSub o.ty (g.srcB c o.uni o.b l) k)) s

/-- Three-source arithmetic: sources A and B, and operand C (R131). -/
def vecArith3 (i : Instr) (c : Ctl) (o : VInt) (f : Int → Int → Int → Int) (s : State) : Out :=
  runInstr i c (laneShort c .v (fun g => g.rD c o.d) fun g l =>
    intSubs o.ty o.sat fun k => f (intSub o.ty (g.srcA c o.a l) k) (intSub o.ty (g.srcB c o.uni o.b l) k) (intSub o.ty (g.srcC c l) k)) s

/-- One-source arithmetic (R131). -/
def vecUnary (i : Instr) (c : Ctl) (o : VUn) (f : Int → Int) (s : State) : Out :=
  runInstr i c (laneShort c .v (fun g => g.rD c o.d) fun g l => intSubs o.ty o.sat fun k => f (intSub o.ty (g.srcA c o.a l) k)) s

/-- Two-source operation on the bits of sub-elements of width `w` (R132, R133). -/
def vecBits (i : Instr) (c : Ctl) (o : VInt) (f : Nat → Nat → Nat) (s : State) : Out :=
  runInstr i c (laneShort c .v (fun g => g.rD c o.d) fun g l =>
    (bySub o.ty.width fun k => f (subEl o.ty.width (g.srcA c o.a l) k) (subEl o.ty.width (g.srcB c o.uni o.b l) k), 0)) s

/-- One-source operation on bits (R132). -/
def vecBits1 (i : Instr) (c : Ctl) (o : VUn) (f : Nat → Nat) (s : State) : Out :=
  runInstr i c (laneShort c .v (fun g => g.rD c o.d) fun g l => (bySub o.ty.width fun k => f (subEl o.ty.width (g.srcA c o.a l) k), 0)) s

/-- A whole-lane operation on A, B and a third value (R135). -/
def vecWhole (i : Instr) (c : Ctl) (d : BitVec 8) (f : Group → Nat → Word64) (s : State) : Out :=
  runInstr i c (laneShort c .v (fun g => g.rD c d) fun g l => (f g l, 0)) s

def execIadd (c : Ctl) (o : VInt) (s : State) : Out := vecArith (.iadd c o) c o (· + ·) s
def execIsub (c : Ctl) (o : VInt) (s : State) : Out := vecArith (.isub c o) c o (· - ·) s
def execImul (c : Ctl) (o : VInt) (s : State) : Out := vecArith (.imul c o) c o (· * ·) s
/-- `imulh`: bits [2N-1:N] of the exact product (R131). -/
def execImulh (c : Ctl) (o : VInt) (s : State) : Out := vecArith (.imulh c o) c o (fun a b => a * b / (2 ^ o.ty.width : Int)) s
def execImad (c : Ctl) (o : VInt) (s : State) : Out := vecArith3 (.imad c o) c o (fun a b d => a * b + d) s
def execIabs (c : Ctl) (o : VUn) (s : State) : Out := vecUnary (.iabs c o) c o (fun a => if a < 0 then -a else a) s
def execIneg (c : Ctl) (o : VUn) (s : State) : Out := vecUnary (.ineg c o) c o (fun a => -a) s
def execImin (c : Ctl) (o : VInt) (s : State) : Out := vecArith (.imin c o) c o min s
def execImax (c : Ctl) (o : VInt) (s : State) : Out := vecArith (.imax c o) c o max s
/-- `isad`: c + |a − b| (R131). -/
def execIsad (c : Ctl) (o : VInt) (s : State) : Out := vecArith3 (.isad c o) c o (fun a b d => d + (if a < b then b - a else a - b)) s
def execIshl (c : Ctl) (o : VInt) (s : State) : Out := vecBits (.ishl c o) c o (shiftLeft o.ty.width) s
def execIshr (c : Ctl) (o : VInt) (s : State) : Out := vecBits (.ishr c o) c o (shiftRight o.ty.width) s
def execIsar (c : Ctl) (o : VInt) (s : State) : Out := vecBits (.isar c o) c o (shiftSign o.ty.width) s

/-- The number of 1 bits among the low `w` (R132). -/
def popCount (w n : Nat) : Nat := ((List.range w).filter (bitOf n)).length
/-- The number of 0 bits above the highest 1 bit of the low `w` (R132). -/
def leadingZeros (w n : Nat) : Nat := if n % 2 ^ w = 0 then w else w - 1 - Nat.log2 (n % 2 ^ w)
/-- The low `w` bits in reverse order (R132). -/
def bitReverse (w n : Nat) : Nat := (List.range w).foldl (fun a j => 2 * a + b2n (bitOf n j)) 0

def execPopc (c : Ctl) (o : VUn) (s : State) : Out := vecBits1 (.popc c o) c o (popCount o.ty.width) s
def execClz (c : Ctl) (o : VUn) (s : State) : Out := vecBits1 (.clz c o) c o (leadingZeros o.ty.width) s
def execBrev (c : Ctl) (o : VUn) (s : State) : Out := vecBits1 (.brev c o) c o (bitReverse o.ty.width) s

/-- `bfe` on one sub-element (R133). -/
def bitExtract (t : Ty) (a b : Nat) : Nat :=
  let n := t.width
  let off := b % 256
  let wid := min (b / 256 % 256) n
  if wid = 0 then 0
  else
    -- the bits above the sub-element are copies of its sign, or zeros
    let fld := lowBits wid (intOf t a / (2 ^ off : Int))
    if t.isI then lowBits n (signedOf wid fld) else fld

/-- `bfi` on one sub-element (R133). -/
def bitInsert (n a b d : Nat) : Nat :=
  let off := b % 256
  let wid := min (b / 256 % 256) n
  packSubs 1 ((List.range n).map fun j => b2n (if decide (off ≤ j) && decide (j < off + wid) then bitOf a (j - off) else bitOf d j))

def execBfe (c : Ctl) (o : VInt) (s : State) : Out := vecBits (.bfe c o) c o (bitExtract o.ty) s
def execBfi (c : Ctl) (o : VInt) (s : State) : Out :=
  vecWhole (.bfi c o) c o.d (fun g l => bySub o.ty.width fun k =>
    bitInsert o.ty.width (subEl o.ty.width (g.srcA c o.a l) k) (subEl o.ty.width (g.srcB c o.uni o.b l) k) (subEl o.ty.width (g.srcC c l) k)) s

/-- `isetp`: one sub-element a lane (R134). -/
def execIsetp (c : Ctl) (o : ISetp) (s : State) : Out :=
  runInstr (.isetp c o) c (laneShort c .p (fun g => g.rD c o.d) fun g l =>
    (predVal (cmpHolds o.cmp (intSub o.ty (g.srcA c o.a l) o.sel.toNat) (intSub o.ty (g.srcB c o.uni o.b l) o.sel.toNat)), 0)) s

/-- A two-input function by its code (R135): bit 0 of the code is the value at (1,1), bit 1 at (1,0), bit 2 at (0,1), bit 3 at (0,0). -/
def fun2 (code : BitVec 4) (a b : Word64) : Word64 :=
  (if code.getLsbD 0 then a &&& b else 0) ||| (if code.getLsbD 1 then a &&& ~~~b else 0) |||
  (if code.getLsbD 2 then ~~~a &&& b else 0) ||| (if code.getLsbD 3 then ~~~a &&& ~~~b else 0)

def execLop3 (c : Ctl) (o : Lop3) (s : State) : Out :=
  vecWhole (.lop3 c o) c o.d (fun g l =>
    let a := g.srcA c o.a l
    let b := g.srcB c o.uni o.b l
    let d := g.srcC c l
    (fun2 o.f0 a b &&& ~~~d) ||| (fun2 o.f1 a b &&& d)) s

/-- `imov`: UNI applies to source A (R128, R135). -/
def execImov (c : Ctl) (o : IMov) (s : State) : Out :=
  vecWhole (.imov c o) c o.d (fun g l => if o.uni then g.uniA c o.a else g.srcA c o.a l) s
def execImovi (c : Ctl) (o : MovImm) (s : State) : Out := vecWhole (.imovi c o) c o.d (fun _ _ => o.imm.signExtend 64) s
def execIsel (c : Ctl) (o : ISel) (s : State) : Out :=
  vecWhole (.isel c o) c o.d (fun g l => if g.readP (g.rC c) l then g.srcA c o.a l else g.srcB c o.uni o.b l) s

/-- `idp4`: two sums of four byte products and C (R95, R136). -/
def execIdp4 (c : Ctl) (o : Idp4) (s : State) : Out :=
  let t : Ty := if o.ta = .i8 || o.tb = .i8 then .i32 else .n32
  runInstr (.idp4 c o) c (laneShort c .v (fun g => g.rD c o.d) fun g l =>
    intSubs t o.sat fun h =>
      let p (j : Nat) : Int := intSub o.ta (g.srcA c o.a l) (4 * h + j) * intSub o.tb (g.srcB c o.uni o.b l) (4 * h + j)
      intSub t (g.srcC c l) h + p 0 + p 1 + p 2 + p 3) s

/-- `swz`: sub-elements of a lane permuted, or zeroed where the selector's top bit is set (R137). -/
def execSwz (c : Ctl) (o : VInt) (s : State) : Out :=
  let w := o.ty.width
  vecWhole (.swz c o) c o.d (fun g l => bySub w fun k =>
    let b := subEl w (g.srcB c o.uni o.b l) k
    if bitOf b (w - 1) then 0 else subEl w (g.srcA c o.a l) (b % subCount w)) s

end Sys2Proof.Machine
end

