-- ==== Sys2Proof/Machine/Dispatch.lean ====
section
/-!
DEFINITION. The dispatcher: one arm for each constructor of `Instr`, each a direct call of its meaning.
-/
namespace Sys2Proof.Machine
open Sys2Proof

/-- What an instruction, or an event, does to the machine. -/
def exec (i : Instr) (s : State) : Host.Outcome State Fault Refusal :=
  match i with
  | .br c imm => Sys2Proof.Machine.execBr c imm s
  | .brc c imm => Sys2Proof.Machine.execBrc c imm s
  | .jmp c a => Sys2Proof.Machine.execJmp c a s
  | .call c imm => Sys2Proof.Machine.execCall c imm s
  | .ret c => Sys2Proof.Machine.execRet c s
  | .exit c => Sys2Proof.Machine.execExit c s
  | .trap c n => Sys2Proof.Machine.execTrap c n s
  | .trapRet c => Sys2Proof.Machine.execTrapRet c s
  | .trapSkip c => Sys2Proof.Machine.execTrapSkip c s
  | .brk c n => Sys2Proof.Machine.execBrk c n s
  | .nop c => Sys2Proof.Machine.execNop c s
  | .yield c => Sys2Proof.Machine.execYield c s
  | .park c => Sys2Proof.Machine.execPark c s
  | .daymark c n a => Sys2Proof.Machine.execDaymark c n a s
  | .syncWg c => Sys2Proof.Machine.execSyncWg c s
  | .syncGang c => Sys2Proof.Machine.execSyncGang c s
  | .launch c o => Sys2Proof.Machine.execLaunch c o s
  | .getsr c d sr vdst => Sys2Proof.Machine.execGetsr c d sr vdst s
  | .setsr c sr a => Sys2Proof.Machine.execSetsr c sr a s
  | .setx c v => Sys2Proof.Machine.execSetx c v s
  | .wmovToW c d a => Sys2Proof.Machine.execWmovToW c d a s
  | .wmovFromW c d a => Sys2Proof.Machine.execWmovFromW c d a s
  | .sadd c o => Sys2Proof.Machine.execSadd c o s
  | .ssub c o => Sys2Proof.Machine.execSsub c o s
  | .smul c o => Sys2Proof.Machine.execSmul c o s
  | .smulh c o => Sys2Proof.Machine.execSmulh c o s
  | .sand c o => Sys2Proof.Machine.execSand c o s
  | .sor c o => Sys2Proof.Machine.execSor c o s
  | .sxor c o => Sys2Proof.Machine.execSxor c o s
  | .snot c o => Sys2Proof.Machine.execSnot c o s
  | .sshl c o => Sys2Proof.Machine.execSshl c o s
  | .sshr c o => Sys2Proof.Machine.execSshr c o s
  | .ssar c o => Sys2Proof.Machine.execSsar c o s
  | .smin c o => Sys2Proof.Machine.execSmin c o s
  | .smax c o => Sys2Proof.Machine.execSmax c o s
  | .ssetp c o => Sys2Proof.Machine.execSsetp c o s
  | .smov c o => Sys2Proof.Machine.execSmov c o s
  | .smovi c o => Sys2Proof.Machine.execSmovi c o s
  | .ssel c o => Sys2Proof.Machine.execSsel c o s
  | .sld c o => Sys2Proof.Machine.execSld c o s
  | .sst c o => Sys2Proof.Machine.execSst c o s
  | .pand c o => Sys2Proof.Machine.execPand c o s
  | .por c o => Sys2Proof.Machine.execPor c o s
  | .pxor c o => Sys2Proof.Machine.execPxor c o s
  | .pnot c o => Sys2Proof.Machine.execPnot c o s
  | .pmov c o => Sys2Proof.Machine.execPmov c o s
  | .psel c o => Sys2Proof.Machine.execPsel c o s
  | .voteAny c o => Sys2Proof.Machine.execVoteAny c o s
  | .voteAll c o => Sys2Proof.Machine.execVoteAll c o s
  | .voteBal c o => Sys2Proof.Machine.execVoteBal c o s
  | .iadd c o => Sys2Proof.Machine.execIadd c o s
  | .isub c o => Sys2Proof.Machine.execIsub c o s
  | .imul c o => Sys2Proof.Machine.execImul c o s
  | .imulh c o => Sys2Proof.Machine.execImulh c o s
  | .imad c o => Sys2Proof.Machine.execImad c o s
  | .iabs c o => Sys2Proof.Machine.execIabs c o s
  | .ineg c o => Sys2Proof.Machine.execIneg c o s
  | .imin c o => Sys2Proof.Machine.execImin c o s
  | .imax c o => Sys2Proof.Machine.execImax c o s
  | .isad c o => Sys2Proof.Machine.execIsad c o s
  | .ishl c o => Sys2Proof.Machine.execIshl c o s
  | .ishr c o => Sys2Proof.Machine.execIshr c o s
  | .isar c o => Sys2Proof.Machine.execIsar c o s
  | .lop3 c o => Sys2Proof.Machine.execLop3 c o s
  | .popc c o => Sys2Proof.Machine.execPopc c o s
  | .clz c o => Sys2Proof.Machine.execClz c o s
  | .brev c o => Sys2Proof.Machine.execBrev c o s
  | .bfe c o => Sys2Proof.Machine.execBfe c o s
  | .bfi c o => Sys2Proof.Machine.execBfi c o s
  | .isetp c o => Sys2Proof.Machine.execIsetp c o s
  | .imov c o => Sys2Proof.Machine.execImov c o s
  | .imovi c o => Sys2Proof.Machine.execImovi c o s
  | .isel c o => Sys2Proof.Machine.execIsel c o s
  | .idp4 c o => Sys2Proof.Machine.execIdp4 c o s
  | .swz c o => Sys2Proof.Machine.execSwz c o s
  | .fadd c o => Sys2Proof.Machine.execFadd c o s
  | .fsub c o => Sys2Proof.Machine.execFsub c o s
  | .fmul c o => Sys2Proof.Machine.execFmul c o s
  | .ffma c o => Sys2Proof.Machine.execFfma c o s
  | .fmin c o => Sys2Proof.Machine.execFmin c o s
  | .fmax c o => Sys2Proof.Machine.execFmax c o s
  | .fsetp c o => Sys2Proof.Machine.execFsetp c o s
  | .fclass c o => Sys2Proof.Machine.execFclass c o s
  | .frnd c o => Sys2Proof.Machine.execFrnd c o s
  | .cvt c o => Sys2Proof.Machine.execCvt c o s
  | .frcp c o => Sys2Proof.Machine.execFrcp c o s
  | .frsq c o => Sys2Proof.Machine.execFrsq c o s
  | .fsqrt c o => Sys2Proof.Machine.execFsqrt c o s
  | .fexp2 c o => Sys2Proof.Machine.execFexp2 c o s
  | .flog2 c o => Sys2Proof.Machine.execFlog2 c o s
  | .fsin c o => Sys2Proof.Machine.execFsin c o s
  | .fcos c o => Sys2Proof.Machine.execFcos c o s
  | .shfl c o => Sys2Proof.Machine.execShfl c o s
  | .qswp c o => Sys2Proof.Machine.execQswp c o s
  | .red c o => Sys2Proof.Machine.execRed c o s
  | .scan c o => Sys2Proof.Machine.execScan c o s
  | .append c o => Sys2Proof.Machine.execAppend c o s
  | .match_ c o => Sys2Proof.Machine.execMatch c o s
  | .ld c o => Sys2Proof.Machine.execLd c o s
  | .st c o => Sys2Proof.Machine.execSt c o s
  | .ldt c o => Sys2Proof.Machine.execLdt c o s
  | .stt c o => Sys2Proof.Machine.execStt c o s
  | .lda c o => Sys2Proof.Machine.execLda c o s
  | .strl c o => Sys2Proof.Machine.execStrl c o s
  | .fence c o => Sys2Proof.Machine.execFence c o s
  | .waitc c o => Sys2Proof.Machine.execWaitc c o s
  | .pref c o => Sys2Proof.Machine.execPref c o s
  | .cinv c o => Sys2Proof.Machine.execCinv c o s
  | .cwb c o => Sys2Proof.Machine.execCwb c o s
  | .atom c o => Sys2Proof.Machine.execAtom c o s
  | .apost c o => Sys2Proof.Machine.execApost c o s
  | .ratom c o => Sys2Proof.Machine.execRatom c o s
  | .rpoll c o => Sys2Proof.Machine.execRpoll c o s
  | .talloc c o => Sys2Proof.Machine.execTalloc c o s
  | .tfree c h => Sys2Proof.Machine.execTfree c h s
  | .tqry c o => Sys2Proof.Machine.execTqry c o s
  | .cpyIn c o => Sys2Proof.Machine.execCpyIn c o s
  | .cpyOut c o => Sys2Proof.Machine.execCpyOut c o s
  | .cpyMc c o => Sys2Proof.Machine.execCpyMc c o s
  | .cpyWin c o => Sys2Proof.Machine.execCpyWin c o s
  | .tbarInit c o => Sys2Proof.Machine.execTbarInit c o s
  | .tbarArv c bar => Sys2Proof.Machine.execTbarArv c bar s
  | .tbarExp c o => Sys2Proof.Machine.execTbarExp c o s
  | .tbarExpArv c o => Sys2Proof.Machine.execTbarExpArv c o s
  | .tbarWait c o => Sys2Proof.Machine.execTbarWait c o s
  | .tbarTestPh c o => Sys2Proof.Machine.execTbarTestPh c o s
  | .tbarTestBrk c o => Sys2Proof.Machine.execTbarTestBrk c o s
  | .tbarInval c bar => Sys2Proof.Machine.execTbarInval c bar s
  | .mxreq c d => Sys2Proof.Machine.execMxreq c d s
  | .mxrel c d => Sys2Proof.Machine.execMxrel c d s
  | .mxmma c o => Sys2Proof.Machine.execMxmma c o s
  | .mxscl c o => Sys2Proof.Machine.execMxscl c o s
  | .mxsclNone c sideB => Sys2Proof.Machine.execMxsclNone c sideB s
  | .mxwin c a => Sys2Proof.Machine.execMxwin c a s
  | .mxzero c d => Sys2Proof.Machine.execMxzero c d s
  | .mxdrn c o => Sys2Proof.Machine.execMxdrn c o s
  | .mxpass c a => Sys2Proof.Machine.execMxpass c a s
  | .dlrBind c o => Sys2Proof.Machine.execDlrBind c o s
  | .dlrInval c a => Sys2Proof.Machine.execDlrInval c a s
  | .dlrStat c o => Sys2Proof.Machine.execDlrStat c o s
  | .mxdelta c a => Sys2Proof.Machine.execMxdelta c a s
  | .wregSet c o => Sys2Proof.Machine.execWregSet c o s
  | .wregClr c id => Sys2Proof.Machine.execWregClr c id s
  | .texS c o => Sys2Proof.Machine.execTexS c o s
  | .texL c o => Sys2Proof.Machine.execTexL c o s
  | .texQDim c o => Sys2Proof.Machine.execTexQDim c o s
  | .texQLod c o => Sys2Proof.Machine.execTexQLod c o s
  | .hgFetch c o => Sys2Proof.Machine.execHgFetch c o s
  | .hgScat c o => Sys2Proof.Machine.execHgScat c o s
  | .rayTrc c o => Sys2Proof.Machine.execRayTrc c o s
  | .rayRsm c o => Sys2Proof.Machine.execRayRsm c o s
  | .rayCmt c o => Sys2Proof.Machine.execRayCmt c o s
  | .rayGet c o => Sys2Proof.Machine.execRayGet c o s
  | .rastSub c a => Sys2Proof.Machine.execRastSub c a s
  | .ringPush c o => Sys2Proof.Machine.execRingPush c o s
  | .ringPop c o => Sys2Proof.Machine.execRingPop c o s
  | .encTile c o => Sys2Proof.Machine.execEncTile c o s
  | .encFrm c a => Sys2Proof.Machine.execEncFrm c a s
  | .commitPark g => Sys2Proof.Machine.execCommitPark g s
  | .trapDelivery g => Sys2Proof.Machine.execTrapDelivery g s
  | .groupEnd g => Sys2Proof.Machine.execGroupEnd g s
  | .loadComplete g op l1 => Sys2Proof.Machine.execLoadComplete g op l1 s
  | .storePerformed g op => Sys2Proof.Machine.execStorePerformed g op s
  | .atomicPerform g op lane => Sys2Proof.Machine.execAtomicPerform g op lane s
  | .ratomReply g op lane fail => Sys2Proof.Machine.execRatomReply g op lane fail s
  | .tallocComplete wg h => Sys2Proof.Machine.execTallocComplete wg h s
  | .tileRelease wg h => Sys2Proof.Machine.execTileRelease wg h s
  | .copyByteCount g op ix => Sys2Proof.Machine.execCopyByteCount g op ix s
  | .arrivalPerformed g op => Sys2Proof.Machine.execArrivalPerformed g op s
  | .tbarInitArm g slot => Sys2Proof.Machine.execTbarInitArm g slot s
  | .passGrant cl => Sys2Proof.Machine.execPassGrant cl s
  | .rowRetire cl => Sys2Proof.Machine.execRowRetire cl s
  | .detachedPassComplete cl => Sys2Proof.Machine.execDetachedPassComplete cl s
  | .deltaInvocation cl => Sys2Proof.Machine.execDeltaInvocation cl s
  | .deltaComplete cl => Sys2Proof.Machine.execDeltaComplete cl s
  | .filterResult g op => Sys2Proof.Machine.execFilterResult g op s
  | .slotAdd g op ix => Sys2Proof.Machine.execSlotAdd g op ix s
  | .traversalStop g op lane => Sys2Proof.Machine.execTraversalStop g op lane s
  | .rastDraw gr => Sys2Proof.Machine.execRastDraw gr s
  | .rastDrawComplete gr => Sys2Proof.Machine.execRastDrawComplete gr s
  | .superblockEncode gr stream => Sys2Proof.Machine.execSuperblockEncode gr stream s
  | .frameComplete gr stream => Sys2Proof.Machine.execFrameComplete gr stream s
  | .lineFill vf line => Sys2Proof.Machine.execLineFill vf line s
  | .invalidationComplete vf stage2 => Sys2Proof.Machine.execInvalidationComplete vf stage2 s
  | .migrationComplete die => Sys2Proof.Machine.execMigrationComplete die s
  | .takeRecord gr vf q => Sys2Proof.Machine.execTakeRecord gr vf q s
  | .dependenceRecheck gr => Sys2Proof.Machine.execDependenceRecheck gr s
  | .lanternChoice gr => Sys2Proof.Machine.execLanternChoice gr s
  | .launchComplete lx => Sys2Proof.Machine.execLaunchComplete lx s
  | .accountingWindow gr => Sys2Proof.Machine.execAccountingWindow gr s
  | .pwaitExpiry gr => Sys2Proof.Machine.execPwaitExpiry gr s
  | .graceExpiry g => Sys2Proof.Machine.execGraceExpiry g s
  | .gangSave gang => Sys2Proof.Machine.execGangSave gang s
  | .loadThrottlePeriod core => Sys2Proof.Machine.execLoadThrottlePeriod core s
  | .quantumEnd gr => Sys2Proof.Machine.execQuantumEnd gr s
  | .preloadComplete gr => Sys2Proof.Machine.execPreloadComplete gr s
  | .contextSwap gr => Sys2Proof.Machine.execContextSwap gr s
  | .watchdogHang gr => Sys2Proof.Machine.execWatchdogHang gr s
  | .uncorrectableError site addr => Sys2Proof.Machine.execUncorrectableError site addr s
  | .correctedError cls unit addr => Sys2Proof.Machine.execCorrectedError cls unit addr s
  | .softErrorWindow gr => Sys2Proof.Machine.execSoftErrorWindow gr s
  | .qtailWrite vf q v => Sys2Proof.Machine.execQtailWrite vf q v s
  | .prqpop vf stage2 => Sys2Proof.Machine.execPrqpop vf stage2 s
  | .prqrspRetry vf stage2 tag => Sys2Proof.Machine.execPrqrspRetry vf stage2 tag s
  | .prqrspFail vf stage2 tag => Sys2Proof.Machine.execPrqrspFail vf stage2 tag s
  | .xinvcGo vf stage2 v => Sys2Proof.Machine.execXinvcGo vf stage2 v s
  | .mgctlGo die v => Sys2Proof.Machine.execMgctlGo die v s
  | .pcmdFuse first num => Sys2Proof.Machine.execPcmdFuse first num s
  | .pcmdSplit first num => Sys2Proof.Machine.execPcmdSplit first num s
  | .pcmdRefusedOp v => Sys2Proof.Machine.execPcmdRefusedOp v s
  | .sctlHold gr hold => Sys2Proof.Machine.execSctlHold gr hold s
  | .sliceQuiescent gr => Sys2Proof.Machine.execSliceQuiescent gr s
  | .sctlRst gr => Sys2Proof.Machine.execSctlRst gr s
  | .sliceResetDone gr => Sys2Proof.Machine.execSliceResetDone gr s
  | .vfBind vf slice brw => Sys2Proof.Machine.execVfBind vf slice brw s
  | .vfUnbind vf => Sys2Proof.Machine.execVfUnbind vf s
  | .vfUnbindComplete vf => Sys2Proof.Machine.execVfUnbindComplete vf s
  | .functionLevelReset vf => Sys2Proof.Machine.execFunctionLevelReset vf s
  | .leaseGrant cl => Sys2Proof.Machine.execLeaseGrant cl s
  | .controlInterval cl => Sys2Proof.Machine.execControlInterval cl s
  | .railStep r => Sys2Proof.Machine.execRailStep r s
  | .railHoldExpiry r => Sys2Proof.Machine.execRailHoldExpiry r s
  | .slpowWrite gr v => Sys2Proof.Machine.execSlpowWrite gr v s
  | .opcfgRailWrite gr r => Sys2Proof.Machine.execOpcfgRailWrite gr r s
  | .opcfgTopWrite gr t => Sys2Proof.Machine.execOpcfgTopWrite gr t s
  | .gatingCommit unit => Sys2Proof.Machine.execGatingCommit unit s
  | .wakeComplete unit => Sys2Proof.Machine.execWakeComplete unit s
  | .dbgfHreq vf => Sys2Proof.Machine.execDbgfHreq vf s
  | .dbgfResume vf => Sys2Proof.Machine.execDbgfResume vf s
  | .haltComplete vf => Sys2Proof.Machine.execHaltComplete vf s
  | .rpctlEn gr en => Sys2Proof.Machine.execRpctlEn gr en s
  | .rpctlGo gr => Sys2Proof.Machine.execRpctlGo gr s
  | .replayIntervalStart gr => Sys2Proof.Machine.execReplayIntervalStart gr s
  | .replayStop gr => Sys2Proof.Machine.execReplayStop gr s
  | .flowStateRepeat link => Sys2Proof.Machine.execFlowStateRepeat link s
  | .nonpostedTimeout link tag => Sys2Proof.Machine.execNonpostedTimeout link tag s
  | .lnkstRetrain link => Sys2Proof.Machine.execLnkstRetrain link s
  | .incomingAccessTimeout vf tag => Sys2Proof.Machine.execIncomingAccessTimeout vf tag s
  | .bootStep ok => Sys2Proof.Machine.execBootStep ok s
  | .registerWrite fn off v => Sys2Proof.Machine.execRegisterWrite fn off v s
  | .sliceTick gr => Sys2Proof.Machine.execSliceTick gr s
  | .unlistedOpcode w => Sys2Proof.Machine.execUnlistedOpcode w s
  | .linkTrainingComplete link => Sys2Proof.Machine.execLinkTrainingComplete link s
  | .functionLevelResetDone vf => Sys2Proof.Machine.execFunctionLevelResetDone vf s
  | .powerArbiterPeriod => Sys2Proof.Machine.execPowerArbiterPeriod s
  | .mbAttest => Sys2Proof.Machine.execMbAttest s
  | .mbCertificateChain => Sys2Proof.Machine.execMbCertificateChain s
  | .mbUpdate => Sys2Proof.Machine.execMbUpdate s
  | .mbRaiseCounter => Sys2Proof.Machine.execMbRaiseCounter s
  | .mbClearMarks => Sys2Proof.Machine.execMbClearMarks s
  | .mailboxCommandDone => Sys2Proof.Machine.execMailboxCommandDone s
  | .packageReset => Sys2Proof.Machine.execPackageReset s
  | .pcmdOperationDone => Sys2Proof.Machine.execPcmdOperationDone s
  | .flitReceive => Sys2Proof.Machine.execFlitReceive s
  | .nakReceive => Sys2Proof.Machine.execNakReceive s
  | .ackReceive => Sys2Proof.Machine.execAckReceive s
  | .pauseReceive => Sys2Proof.Machine.execPauseReceive s
  | .resumeReceive => Sys2Proof.Machine.execResumeReceive s
  | .incomingWrite => Sys2Proof.Machine.execIncomingWrite s
  | .incomingRead => Sys2Proof.Machine.execIncomingRead s
  | .incomingAtomicop => Sys2Proof.Machine.execIncomingAtomicop s
  | .incomingCompletion => Sys2Proof.Machine.execIncomingCompletion s
  | .configurationRequest => Sys2Proof.Machine.execConfigurationRequest s
  | .atomicRequestMessage => Sys2Proof.Machine.execAtomicRequestMessage s
  | .atomicReplyMessage => Sys2Proof.Machine.execAtomicReplyMessage s
  | .unsupportedTlp => Sys2Proof.Machine.execUnsupportedTlp s
  | .mbBadCommand => Sys2Proof.Machine.execMbBadCommand s

end Sys2Proof.Machine
end

