-- ==== Sys2Proof/Machine/Turns.lean ====
section
/-!
DEFINITION. Turns: which agent acts next, how a slot issues, and how the host's test word comes before the machine.
-/
set_option Elab.async false
namespace Sys2Proof

/-- Accesses of the host and of peers, which a link pauses while their slice re-executes (R425). -/
def Instr.arrives : Instr → Bool
  | .incomingWrite | .incomingRead | .incomingAtomicop | .atomicRequestMessage => true
  | _ => false

end Sys2Proof

namespace Sys2Proof.Machine
open Sys2Proof

/-! ### Issue (R72, R370, R412, R419, R421, R423) -/

/-- The debugger resumed the slot behind the item that it stands at (R419). -/
def State.passItem (s : State) (b : Bool) : Out :=
  let t := s.cur.slot b
  match s.skipTo t.pc t.blk with
  | .error e => s.stopAt b t.pc e
  | .ok (s, pc, e) => .next (s.setCur (s.cur.setSlot b { t with pc, skip := false, blk := { t.blk with entry := e } }))

/-- The selected slot may issue, and its quadrant is not waking (R412). -/
def State.mayGo (s : State) : Bool := s.cur.canIssue s.cur.sel1 && !(s.gate (quadUnit s.cur.coreIx s.cur.gslot)).waking

/-- A watch event's halt: the group raises DEBUG at the boundary that its slot stands at (R421). -/
def State.watchTrap (s : State) (b : Bool) : State :=
  s.raise s.cur.id { cause := .debug, slot1 := b, pc := (s.cur.slot b).pc, addr := 0, watch := true }

/-- One turn of a slot of the issuing group: a pending block entry, the item that the debugger passes over, a watch event's halt (R421), or its next
instruction, which is the first of its block where it stands at the header (R72). -/
def State.issue (s : State) : Out :=
  let b := s.cur.sel1
  if s.cur.me.blk.entry ≠ .none then s.enterPending b
  else
    let t := s.atItem
    (if t.cur.me.skip then t.passItem b
     else if t.cur.watchHit && (t.vf t.cur.vf).att && (t.vf t.cur.vf).whalt then .next (t.watchTrap b)
     else match s.fetchItem with
       | .error e => t.stopAt b t.cur.me.pc e
       | .ok (u, i) => exec i u).andThen fun u => .next (u.unstarted s.cur b)

/-! ### Replay mode (R423, R424) -/

/-- The groups resident on a slice. -/
def State.onSlice (s : State) (gr : Nat) : List Group := s.allGroups.filter fun g => !g.gone && g.slice = gr
/-- A group's place in the order of replay mode. -/
def Group.place (g : Group) : Nat := 1 + g.lastId.toNat
/-- The slot that a group may issue from in replay mode: it changes only when it stops being LIVE. -/
def Group.replaySlot (g : Group) : Bool := if (g.slot g.sel1).st = .live then g.sel1 else !g.sel1

/-- A slot of a group is a candidate: a turn of it changes more of its group than what the slot waits for, as a stall does (R366). -/
def State.moves (s : State) (gid : Nat) (b : Bool) : Bool :=
  let still (g : Group) : Group := g.setSlot b { g.slot b with wait := none, tw := none, parking := false }
  match s.select gid b with
  | none => false
  | some t => t.mayGo && match t.issue with | .next u => decide (still u.cur ≠ still t.cur) | _ => true

/-- The group whose turn it is: the next candidate after the one that issued last, in ascending order of places. -/
def State.replayNext (s : State) (gr : Nat) : Option Group :=
  let gs := sortBy (fun a b => decide (a.place ≤ b.place)) ((s.onSlice gr).filter fun g => s.moves g.id g.replaySlot)
  (gs.find? fun g => decide ((s.gran gr).rpTurn < g.place)).or gs.head?

/-- Operations of a slice are open. -/
def State.openOps (s : State) (gr : Nat) : Nat := ((s.allGroups.filter fun g => g.slice = gr).map fun g => (g.ops.filter fun o => !o.fin).length).sum

/-- What is in progress on a slice: operations, and the passes, draws and frames of its engines, rasterisers and encoders (R423). -/
def State.openWork (s : State) (gr : Nat) : Nat :=
  let n := (s.gran gr).num
  s.openOps gr + ((List.range (4 * n)).map fun i => let k := s.cluster (4 * gr + i); k.res.length + b2n k.run.isSome).sum +
  ((List.range n).map fun i => let k := s.gran (gr + i); k.draws.length + (k.streams.toList.map fun x => x.frames.length).sum).sum

/-- A group goes before another one of its quadrant: it is more urgent, or as urgent and longer without an issue (R366). -/
def State.goesBefore (s : State) (h g : Group) : Bool :=
  keyLt (s.groupKey h.id) (s.groupKey g.id) || (s.groupKey h.id = s.groupKey g.id && decide (h.issuedAt < g.issuedAt))

/-- The groups of a group's quadrant that have not given their places back. -/
def State.mates (s : State) (g : Group) : List Group := s.allGroups.filter fun h => !h.gone && h.coreIx = g.coreIx && h.gslot / 16 = g.gslot / 16

/-- A slot has yielded the clock: its group issued a `yield` from it, and the quadrant has issued nothing since (R112). -/
def State.yields (s : State) (g : Group) (b : Bool) : Bool :=
  g.yielded && b = g.last1 && (s.mates g).all fun h => decide (h.issuedAt ≤ g.issuedAt)

/-- A slot of a group is a candidate that has not yielded the clock. -/
def State.offers1 (s : State) (g : Group) (b : Bool) : Bool := !s.yields g b && s.moves g.id b

/-- The quadrant's choice: no candidate of it goes before the group, and the slot is the one that issued last, or that one cannot issue (R366); a slot that
has yielded the clock comes behind every other one (R112). A turn that issues no instruction, but ends or enters a block, is not chosen. -/
def State.chosen (s : State) (g : Group) (b : Bool) : Bool :=
  let t := g.slot b
  t.blk.entry ≠ .none || t.skip ||
  (if s.yields g b then (s.mates g).all fun h => !s.offers1 h false && !s.offers1 h true
   else
    (b = g.last1 || !s.offers1 g g.last1) &&
      (s.mates g).all fun h => h.id = g.id || !s.goesBefore h g || !(s.offers1 h false || s.offers1 h true))

/-- A slot may have the turn: outside replay mode its quadrant chooses it; in replay mode a slice issues one instruction at a time, and in the order of R423;
`redo` says that a re-execution takes the turn. -/
def State.mayIssue (s : State) (gid : Nat) (b redo : Bool) : Bool :=
  match s.group? gid with
  | none => true
  | some g =>
    let k := s.gran g.slice
    if !k.rpEn then s.chosen g b
    else if k.rpStat = 2 then redo
    else k.rpStat = 1 && decide (k.rpCount < 2 ^ k.ivl) && s.openWork g.slice = 0 && !s.asksPages (s.functionsOf g.slice) &&
      match s.replayNext g.slice with
      | some h => h.id = gid && h.replaySlot = b
      | none => false

/-- The slice that an event concerns: that of its group, cluster, function or granule; none for one of the package. -/
def State.eventSlice (s : State) (i : Instr) : Option Nat :=
  let ofVf (n : Nat) : Option Nat := some (s.vf n).slice
  let ofGroup (g : Nat) : Option Nat := (s.group? g).map (·.slice)
  let ofWg (k : Nat) : Option Nat := (s.wg? k).bind fun w => ofVf w.vf
  let ofCl (c : Nat) : Option Nat := some (s.sliceOf (c / 4))
  match i with
  | .commitPark g | .trapDelivery g | .groupEnd g | .loadComplete g _ _ | .storePerformed g _ | .atomicPerform g _ _ | .ratomReply g _ _ _
  | .copyByteCount g _ _ | .arrivalPerformed g _ | .tbarInitArm g _ | .filterResult g _ | .slotAdd g _ _ | .traversalStop g _ _ | .graceExpiry g => ofGroup g
  | .tallocComplete w _ | .tileRelease w _ => ofWg w
  | .passGrant c | .rowRetire c | .detachedPassComplete c | .deltaInvocation c | .deltaComplete c | .leaseGrant c | .controlInterval c => ofCl c
  | .rastDraw g | .rastDrawComplete g | .superblockEncode g _ | .frameComplete g _ => some (s.sliceOf g)
  | .takeRecord g _ _ | .dependenceRecheck g | .lanternChoice g | .accountingWindow g | .pwaitExpiry g | .quantumEnd g | .preloadComplete g
  | .contextSwap g => some g
  | .sctlHold g _ | .sliceQuiescent g | .sctlRst g | .sliceResetDone g => some g
  | .lineFill v _ | .invalidationComplete v _ | .qtailWrite v _ _ | .prqpop v _ | .prqrspRetry v _ _ | .prqrspFail v _ _ | .xinvcGo v _ _
  | .vfUnbind v | .vfUnbindComplete v | .functionLevelReset v | .functionLevelResetDone v | .dbgfHreq v | .dbgfResume v | .haltComplete v
  | .incomingAccessTimeout v _ => ofVf v
  | .vfBind _ g _ => some g
  | .launchComplete l => (s.launch? l).bind fun l => ofVf l.vf
  | .gangSave k => (s.gang? k).map fun k => s.sliceOf (k.cluster / 4)
  | .loadThrottlePeriod c => ofCl (c / 4)
  | .registerWrite fn off _ =>
    if fn ≠ 0 then ofVf (fn - 1)
    else if 0x10000 ≤ off && off < 0x20000 then some ((off - 0x10000) / 0x1000)
    else if 0x20000 ≤ off && off < 0x60000 then ofVf ((off - 0x20000) / 0x1000)
    else none
  | .incomingWrite | .incomingRead | .incomingAtomicop | .atomicRequestMessage => ofVf s.port.vf
  | .incomingCompletion | .atomicReplyMessage => ((s.link s.port.link).np.find? fun e => e.tag = s.port.tag).bind fun e => ofGroup e.gid
  | .sliceTick g => some (s.sliceOf g)
  | .gatingCommit u | .wakeComplete u => some (s.sliceOf (State.unitGran u))
  | .nonpostedTimeout k tag => ((s.link k).np.find? fun e => e.tag = tag).bind fun e => ofGroup e.gid
  | _ => none

/-- The slice that a turn concerns. -/
def State.turnSlice (s : State) : Turn → Option Nat
  | .issue gid _ | .redo _ gid _ => (s.group? gid).map (·.slice)
  | .event i p | .redoEvent _ i p => ({ s with port := p } : State).eventSlice i

/-- A recording slice keeps the turns that concern it, with its count (R424). -/
def State.logTurn (s : State) (gr : Nat) (t : Turn) : State :=
  let g := s.gran gr
  if !g.rpEn || g.rpStat ≠ 1 then s
  else
    let e : LogEnt := { count := g.rpCount, redo := { gran := gr, step := s.steps, tick := g.tick, key := s.nextKey }, turn := t }
    { s with kept := s.kept.map fun c => if c.gran = gr && c.ivl = g.rpIvl then { c with log := e :: c.log } else c }

/-! ### Turns -/

/-- Let a slot issue, if it may. A stop request is looked at first (R370). -/
def State.issueTurn (s : State) (gid : Nat) (b redo : Bool) : Out :=
  if !s.mayIssue gid b redo then .next s
  else
    let s := s.tryStop gid
    match s.select gid b with
    | some t => if t.mayGo then t.issue else .next s
    | none => .next s

/-- An event takes place. A constructor that is an instruction is no event, and passes. -/
def State.eventTurn (s : State) (i : Instr) (p : Port) (redo : Bool) : Out :=
  let s : State := { s with port := p }
  if i.opcode.isSome then .next s
  else
    let held : Bool := match s.eventSlice i with | some gr => i.arrives && !redo && (s.gran gr).rpStat = 2 | none => false
    if held then .next s else exec i s

/-- A turn of a re-execution finds the step, the tick and the keys that the recording had (R425). -/
def State.redoTurn (s : State) (r : Redo) (f : State → Out) : Out :=
  let t : State := { s.updGran r.gran fun g => { g with tick := r.tick } with steps := r.step, nextKey := r.key }
  (f t).andThen fun u =>
    .next { u.updGran r.gran fun g => { g with tick := (s.gran r.gran).tick } with steps := s.steps, nextKey := max s.nextKey u.nextKey }

/-- Take one turn. -/
def State.take (s : State) : Turn → Out
  | .issue gid b => s.issueTurn gid b false
  | .event i p => s.eventTurn i p false
  | .redo r gid b => s.redoTurn r fun s => s.issueTurn gid b true
  | .redoEvent r i p => s.redoTurn r fun s => s.eventTurn i p true

/-- A group's instruction was issued, or its trap delivered, between two of its states (R423). -/
def Group.went (old new : Group) : Bool :=
  new.seq ≠ old.seq || (new.halt.isSome && new.halt ≠ old.halt) || (new.priv = .s && old.priv = .u)

/-- An operation of a group was completed between two of its states. -/
def Group.finished (old new : Group) : Bool :=
  old.ops.any fun o => !o.fin && match new.op? o.seq with | some p => p.fin | none => true

/-- Some group of a slice came to a state from which `f` says it did, as a turn was taken. -/
def State.anyMoved (s old : State) (gr : Nat) (f : Group → Group → Bool) : Bool :=
  (s.allGroups ++ s.savedGroups).any fun g => g.slice = gr && match old.group? g.id with
    | some h => f h g
    | none => false

/-- A slice made progress as a turn was taken: a group became resident or issued an instruction, or an operation of its functions was completed, on whatever
engine (R396). -/
def State.progressed (s old : State) (gr : Nat) : Bool :=
  ((s.onSlice gr).any fun g => (old.group? g.id).isNone || old.away g.id) || s.anyMoved old gr fun h g => h.went g || h.finished g

/-- After a turn, which led from `old` to `u`: the watchdogs of the slices see their progress (R396). -/
def State.note (s u old : State) : State :=
  ((List.range 16).filter fun gr => (s.gran gr).num ≠ 0).foldl (fun s gr =>
    (if u.progressed old gr then s.updGran gr fun g => { g with progress := g.tick, hangReported := false } else s).noteUnits gr) s

/-- In replay mode an instruction that has issued, or whose trap has been delivered, retires once its operations are complete (R423). -/
def State.noteRetired (s u old : State) (gr : Nat) : State :=
  if !(s.gran gr).rpEn then s
  else
    let began : Bool := (s.gran gr).rpOpen || u.anyMoved old gr Group.went
    if began && s.openWork gr = 0 then s.updGran gr fun g => { g with rpOpen := false, rpCount := g.rpCount + 1 }
    else s.updGran gr fun g => { g with rpOpen := began }

/-- In replay mode a group that issued, or trapped at, an instruction has had its turn; entering a block is none (R423). -/
def State.noteTurn (s : State) (old : State) : Turn → State
  | .issue gid b | .redo _ gid b =>
    match s.group? gid, old.group? gid with
    | some g, some h =>
      if (s.gran g.slice).rpEn && (h.slot b).blk.entry = .none && !(h.slot b).skip then s.updGran g.slice fun k => { k with rpTurn := g.place } else s
    | _, _ => s
  | _ => s

/-- A flit that no further transaction fills goes out when its port chooses, and at the latest with the repeated flow states (R426; log entries 13 and 32). -/
def State.pad (s : State) : State := { s with links := if Config.freeBit (2 ^ 65 + s.steps) then s.links.map Link.drain else s.links }

/-- What follows from a turn: records that waited for older ones are written (R414), what waited for its turn at a link goes on (R433), last flits may go
out (R426), and groups that are over go. -/
def State.settleTurn (s : State) : Out :=
  let s := (s.allGroups.filter fun g => !g.recs.isEmpty).foldl (fun s g => s.flushRecs g) s
  (s.settleIncoming s.incoming.length).andThen fun s => .next s.pad.reap

/-- Take one turn, and what follows from it: progress is noted, and a recording slice keeps the turn and counts what retires. -/
def State.turn (s : State) (t : Turn) : Out :=
  let s' := match s.turnSlice t with | some gr => s.logTurn gr t | none => s
  (s'.take t).andThen fun u => u.settleTurn.andThen fun v =>
    let w := (v.noteTurn s t).note u s
    .next (match s.turnSlice t with | some gr => w.noteRetired u s gr | none => w)

/-! ### The turn that the model takes of itself (log entry 1) -/

/-- The event by which an operation in flight goes on. -/
def Op.event (g : Group) (o : Op) : Option Instr :=
  match o.kind with
  | .load .. | .tload .. | .append .. | .rpoll .. => some (.loadComplete g.id o.seq true)
  | .store .. | .tstore .. | .range .. | .null | .launch .. | .wreg .. | .mxzero .. | .mxdrn .. | .dlr .. | .mark .. => some (.storePerformed g.id o.seq)
  | .atomic lanes .. => some (.atomicPerform g.id o.seq (((lanes.find? fun a => !a.fin).map (·.lane)).getD 0))
  | .ratom lanes .. => some (.ratomReply g.id o.seq (((lanes.find? fun a => !a.fin).map (·.lane)).getD 0) false)
  | .copy c => some (.copyByteCount g.id o.seq (((List.range (c.fin.length + 1)).find? fun k => !c.fin.contains k).getD 0))
  | .arrive .. => some (.arrivalPerformed g.id o.seq)
  | .filter .. => some (.filterResult g.id o.seq)
  | .scatter adds => some (.slotAdd g.id o.seq (((List.range adds.length).find? fun k => match adds[k]? with | some a => !a.fin | none => false).getD 0))
  | .ray _ lanes _ => some (.traversalStop g.id o.seq (((lanes.find? fun a => !a.fin).map (·.lane)).getD 0))
  | .mma .. | .pass .. | .delta .. => none

/-- The turns that might be taken: operations and groups, engines, rasterisers and encoders, tiles, the lanterns, and issue last. -/
def State.candidates (s : State) : List Turn :=
  let ev (i : Instr) : Turn := .event i {}
  let gs := s.allGroups.rotateLeft s.steps
  (gs.flatMap fun g => (g.ops.filter fun o => !o.fin).filterMap fun o => (Op.event g o).map ev) ++
  (gs.flatMap fun g => [ev (.commitPark g.id), ev (.trapDelivery g.id), ev (.groupEnd g.id)]) ++
  ((List.range 64).flatMap fun c =>
    if (s.cluster c).res.isEmpty && (s.cluster c).run.isNone then []
    else [ev (.passGrant c), ev (.rowRetire c), ev (.detachedPassComplete c), ev (.deltaInvocation c), ev (.deltaComplete c)]) ++
  ((List.range 16).flatMap fun k =>
    (if (s.gran k).draws.isEmpty then [] else [ev (.rastDraw k), ev (.rastDrawComplete k)]) ++
    ((List.range 4).flatMap fun n =>
      if (tget (s.gran k).streams n {}).frames.isEmpty then [] else [ev (.superblockEncode k n), ev (.frameComplete k n)])) ++
  (s.wgs.flatMap fun w => (List.range w.ntiles).flatMap fun h => [ev (.tallocComplete w.key h), ev (.tileRelease w.key h)]) ++
  (s.gangs.map fun k => ev (.gangSave k.key)) ++ (s.launches.map fun l => ev (.launchComplete l.key)) ++
  ((List.range 64).flatMap fun n =>
    if !(s.vf n).bound then []
    else (List.range 16).filterMap fun q => if (s.queue n q).enabled && (s.queue n q).held ≠ 0 then some (ev (.takeRecord (s.vf n).slice n q)) else none) ++
  (if s.launches.isEmpty then [] else (List.range 16).map fun k => ev (.lanternChoice k)) ++
  (gs.flatMap fun g => [.issue g.id g.sel1, .issue g.id (!g.sel1)]) ++
  [ev (.bootStep true)]

/-- The machine without what a turn that does nothing may change: which group is at hand, and the port. -/
def State.atRest (s : State) : State :=
  { s with cur := {}, groups := sortBy (fun a b => decide (a.id ≤ b.id)) (s.allGroups.map fun g => { g with sel1 := false }), port := {} }

/-- A turn changes something. -/
def State.useful (s : State) (t : Turn) : Bool :=
  match s.take t with
  | .next u => decide (u.atRest ≠ s.atRest)
  | _ => true

/-- The turn that the model takes when its tape is empty: the first candidate that changes something, else an issue of the group at hand. -/
def State.autoTurn (s : State) : Turn := (s.candidates.find? s.useful).getD (.issue s.cur.id s.cur.sel1)

/-- The next turn, and the machine with it taken off the tape. -/
def State.nextTurn (s : State) : Turn × State :=
  match s.tape with
  | t :: r => (t, { s with tape := r })
  | [] => (s.autoTurn, s)

/-! ### The host's test word -/

/-- The kernel of a test word: its group, alone on core 0, at unit 18 of a block of eight units, with every register declared (log entry 3). -/
def testGroup : Group :=
  { id := 1, launch := 1, gang := 1, wg := 1, kbase := 0x100000, saveb := 0x200000, nv := 256, ns := 64, np := 64, na := 8, ntiles := 32, codeEnd := 64,
    split := tset (tableOf 256 {}) 0 { valid := true, parent := 0 }, p := tset (tableOf 64 0) 63 allLanes,
    slot0 := { st := .live, pc := 18, mask := allLanes, blk := { hdr := 16, bend := 26 } } }

/-- The table entries that map the first 512 MiB to themselves in both stages: address and entry (R327 to R329). -/
def testTables : List (Nat × Nat) :=
  [(0x10000, 0x20001), (0x20000, 0x30001), (0x30000, 0x1F), (0x40000, 0x50001), (0x50000, 0x60001), (0x60000, 0x1F)]

/-- Memory with the tables and, at unit 18 of the kernel, the instruction. -/
def testMemory (m : List Host.Cell) (nbits w : Nat) : List Host.Cell :=
  let m := testTables.foldl (fun m e => Memory.writeN m e.1 (bytesLE 8 e.2)) m
  Memory.writeN m (0x100000 + 72) (bytesLE 12 (w % 2 ^ nbits))

/-- The machine with the test word before it: a launch of one group, and the turn that issues it. -/
def State.loadTest (s : State) (nbits w : Nat) : State :=
  { s with
    cur := testGroup
    mem := testMemory s.mem nbits w
    wgs := [{ key := 1, gang := 1, launch := 1, vf := 0, cluster := 0, core := 0, wgid := 0, ntiles := 32 }]
    gangs := [{ key := 1, launch := 1, ix := 0, slot := 0, cluster := 0 }]
    launches := [{ key := 1, vf := 0, queue := 0, id := 0, stage := .run, next := 1 }]
    vfs := tset s.vfs 0 { s.vf 0 with bound := true, s1root := 0x40000, s2root := 0x10000 }
    tape := [.issue 1 false] }

end Sys2Proof.Machine
end

