-- ==== Sys2Proof/Machine/Step.lean ====
section
/-!
DEFINITION. One step of the machine.
-/
set_option Elab.async false
namespace Sys2Proof.Machine
open Sys2Proof

/-- One step: the next turn is taken, and the steps are counted. -/
def step (s : State) : Host.Outcome State Fault Refusal :=
  let (t, s') := s.nextTurn
  { s' with steps := s'.steps + 1 }.turn t

/-- The machine with an instruction stored where the next step fetches (log entry 3). -/
def State.withFetchWord (s : State) (nbits w : Nat) : State := s.loadTest nbits w

end Sys2Proof.Machine
end

