-- ==== Sys2Proof/Certificates/Slice0/Vocabulary.lean ====
section
/-!
DEFINITION. The terms that the statements use: what a program reads of a register, when an instruction goes through (R72), and what it leaves unchanged.
-/
set_option Elab.async false
namespace Sys2Proof.Machine
open Sys2Proof

/-! ### Registers as a program reads them -/

/-- What the issuing slot reads of a register in a lane; a predicate as 0 or 1 (R25, R67). -/
def Group.seen (g : Group) (cls : RClass) (n l : Nat) : Word64 :=
  match cls with
  | .v => g.readV n l
  | .s => g.readS n
  | .p => predVal (g.readP n l)
  | _ => 0

/-- The registers of a class (R25). -/
def regCount : RClass → Nat
  | .v => 256 | .s => 64 | .p => 64
  | _ => 0

/-- A register write covers register `n` of a class in lane `l`: a uniform register has one value. -/
def RegWrite.covers (w : RegWrite) (cls : RClass) (n l : Nat) : Bool :=
  w.cls = cls && w.reg = n && lane w.lanes (if cls = .s then 0 else l)

/-- The oldest write of a full window leaves it without reaching the register file: it was killed, and what its register then reads as is not stated; or a
younger write of the other slot to it is banked already, and it reads as that (R67). -/
def Group.dropsOldest (g : Group) (cls : RClass) (n l : Nat) : Bool :=
  match g.me.win[7]? with
  | some e => match e.write with
    | some w => w.covers cls n l && (e.killed || !({ w with lanes := g.freshLanes e.seq w } : RegWrite).covers cls n l)
    | none => false
  | none => false

/-! ### What a commit park leaves in a register (R66 to R68) -/

/-- A write that is to be banked, since nothing killed it, covers register `n` of a class in lane `l` (R67). -/
def WinEnt.puts (e : WinEnt) (cls : RClass) (n l : Nat) : Bool := !e.killed && e.write.any fun w => w.covers cls n l

/-- A write younger than `seq` that covers register `n` of a class in lane `l` is banked already (R67). -/
def Group.lateAfter (g : Group) (seq : Nat) (cls : RClass) (n l : Nat) : Bool :=
  g.late.any fun e => decide (seq < e.1) && e.2.1 = cls && e.2.2.1 = n && lane e.2.2.2 (if cls = .s then 0 else l)

/-- A younger S write discards an L result for register `n` of a class in lane `l`: one of its slot, or of either where they share the register (R68). -/
def Group.shadowed (g : Group) (q : Pend) (cls : RClass) (n l : Nat) : Prop :=
  ∃ b, ∃ e ∈ (g.slot b).win, e.puts cls n l = true ∧ q.seq < e.seq ∧ (cls = .s ∨ b = q.slot1)

/-- A value as a register of a class holds it: of a predicate register, whether it is 1. -/
def asHeld (cls : RClass) (v : Word64) : Word64 := if cls = .p then predVal (v = 1) else v

/-- The value that a write gives a lane of a register of a class. -/
def RegWrite.gives (w : RegWrite) (cls : RClass) (l : Nat) : Word64 := asHeld cls (w.val.get (if cls = .s then 0 else l) 0)

/-- The windows and the uncommitted results of a group are in issue order, and no two instructions have one place in it (R67, R68). -/
structure Group.Ordered (g : Group) : Prop where
  win : ∀ b, (g.slot b).win.Pairwise fun young old => old.seq < young.seq
  slots : ∀ e ∈ g.slot0.win, ∀ f ∈ g.slot1.win, e.seq ≠ f.seq
  pend : g.pend.Pairwise fun old young => old.seq < young.seq ∨ (old.seq = young.seq ∧ (old.write.cls, old.write.reg) ≠ (young.write.cls, young.write.reg))

/-! ### When an instruction goes through -/

/-- A window holds at most eight instructions, all older than the next one to issue (R67): an invariant of the model. -/
abbrev Group.WindowOk (g : Group) : Prop := ∀ b, (g.slot b).win.length ≤ 8 ∧ ∀ e ∈ (g.slot b).win, e.seq < g.seq

/-- What holds of every group from its start on: its windows are in order, and its declared counts lie within the register classes (R25, R67). -/
abbrev Group.Sound (g : Group) : Prop := g.WindowOk ∧ g.nv ≤ 256 ∧ g.ns ≤ 64 ∧ g.np ≤ 64

/-- The instruction may go through at a state (R72): it is well formed, every register it names is below its declared count (R25), the commit park that its
M bit asks for can be taken and gives `s1` (R66), its results find room among the uncommitted ones (R368), and it is not the last item of its block. -/
abbrev Ready (i : Instr) (c : Ctl) (s s1 : State) : Prop :=
  i.wf = true ∧ s.cur.rangeOk i c = true ∧ s.takePark c.mark = some s1 ∧ s1.cur.Sound ∧
  (i.pendCount = 0 ∨ s1.cur.uncommitted + i.pendCount ≤ 128) ∧ s1.cur.me.pc + BitVec.ofNat 32 c.units ≠ s1.cur.me.blk.bend

/-! ### What an instruction leaves unchanged -/

/-- An uncommitted result but for the lanes that it still writes. -/
def Pend.core (p : Pend) : Pend := { p with write := { p.write with lanes := 0 } }

/-- The fields of a group that no register, window or flag belongs to, nor the choice of who issues next (R366, R370). -/
def Group.bare (g : Group) : Group :=
  { g with slot0 := {}, slot1 := {}, v := tableOf 256 (Lanes.const 0), s := tableOf 64 0, p := tableOf 64 0, pend := [], seq := 0, fpflags := 0,
           late := [], issuedAt := 0, last1 := false, yielded := false }

/-- `t` is the state `u` with the instruction `i` behind it: its slot stands at the next item, its other slot, its mask and its block are those of `u`;
every register but those that `dest` names reads as in `u`, where the one write that leaves a full window is banked; and everything else is as in
`u`: the flags, the trap and special registers, the accumulators, the operations in flight, the uncommitted results but for lanes that a younger write
takes over (R68), the instruction's own whole, and everything outside the group: all of memory, every other group, every tile. `x` is `sr.x` at issue, which places the kill bits. -/
structure After (i : Instr) (c : Ctl) (x : BitVec 16) (u t : State) (dest : RClass → Nat → Nat → Bool) : Prop where
  outside : t.setCur u.cur = u
  rest : t.cur.bare = u.cur.bare
  flags : t.cur.fpflags = u.cur.fpflags
  other : t.cur.slot (!u.cur.sel1) = u.cur.slot (!u.cur.sel1)
  path : t.cur.me.st = u.cur.me.st ∧ t.cur.me.mask = u.cur.me.mask ∧ t.cur.me.reconv = u.cur.me.reconv ∧
    t.cur.me.parent = u.cur.me.parent ∧ t.cur.me.blk = u.cur.me.blk
  pc : t.cur.me.pc = u.cur.me.pc + BitVec.ofNat 32 c.units
  regs : ∀ cls n l, n < regCount cls → l < 32 → dest cls n l = false → (u.cur.kills i c x).dropsOldest cls n l = false →
    t.cur.seen cls n l = u.cur.seen cls n l
  pends : t.cur.pend.map Pend.core = u.cur.pend.map Pend.core
  own : ∀ p ∈ u.cur.pend, p.seq = u.cur.seq → p ∈ t.cur.pend

/-- The state with flags added to the sticky ones (R35). -/
def State.withFlags (s : State) (fl : BitVec 6) : State := s.setCur { s.cur with fpflags := s.cur.fpflags ||| fl }

/-- The destination of a per-lane instruction: register `n` of a class in the lanes that it writes (R58, R63). -/
def laneDest (g : Group) (c : Ctl) (cls : RClass) (n : Nat) : RClass → Nat → Nat → Bool :=
  fun k m l => k = cls && m = n && lane (g.written c) l

/-- The destination of an instruction that acts once for the group: a uniform register, when some lane passes the guard (R58). -/
def uniDest (g : Group) (c : Ctl) (n : Nat) : RClass → Nat → Nat → Bool :=
  fun k m _ => k = .s && m = n && g.passes c

/-- No destination. -/
def noDest : RClass → Nat → Nat → Bool := fun _ _ _ => false

/-! ### Elements of registers, and exact results that are fitted to a type -/

/-- The least and the greatest value of an integer type (R76). -/
def least (t : Ty) : Int := if t.isI then -(2 ^ (t.width - 1)) else 0
def greatest (t : Ty) : Int := least t + 2 ^ t.width - 1

/-- An exact value as an integer type holds it: clamped to its range, or wrapped into it (R76). -/
def fit (t : Ty) (sat : Bool) (x : Int) : Int := if sat then max (least t) (min (greatest t) x) else least t + (x - least t) % 2 ^ t.width

/-- Sub-element `k` of a lane value as an integer of a type (R26). -/
def elem (t : Ty) (v : Word64) (k : Nat) : Int := fit t false ((v.toNat / 2 ^ (t.width * k) : Nat) : Int)

/-- Sub-element `k` of a lane value as its bits (R26). -/
def bitsAt (t : Ty) (v : Word64) (k : Nat) : Nat := v.toNat / 2 ^ (t.width * k) % 2 ^ t.width

/-- The SI flag, raised when saturation changes a result in some active lane and sub-element (R34, R76). -/
def siFlag (g : Group) (c : Ctl) (t : Ty) (sat : Bool) (x : Nat → Nat → Int) : BitVec 6 :=
  if sat && (List.range 32).any fun l => lane (g.active c) l && (List.range (64 / t.width)).any fun k => fit t true (x l k) ≠ x l k then 0x20 else 0

/-- Lanes that take the result of a per-lane instruction: the active ones, and the helper lanes that go with them (R19, R58). -/
def takes (g : Group) (c : Ctl) (l : Nat) : Prop := lane (g.active c ||| g.helpersFor c) l = true ∧ lane (g.zeroLanes c) l = false

/-- The instruction completes: it answers a next state, which is `u` with the instruction behind it. -/
def Completes (i : Instr) (c : Ctl) (s s1 u : State) (dest : RClass → Nat → Nat → Bool) : Prop := ∃ t, exec i s = .next t ∧ After i c s1.cur.x u t dest

/-- A scope that the function's policy bit permits (R303); the check is not made when no lane is active (R59). -/
def scopeAllows (s : State) (c : Ctl) (sc : Scope) (bit : Nat) : Prop := s.cur.active c = 0 ∨ sc ≠ .s ∨ (s.vf s.cur.vf).spol.getLsbD bit = true

/-! ### Reductions (R154, R155) -/

/-- The contributing sub-elements of a width, by their group index, ascending (R151). -/
def contributors (g : Group) (c : Ctl) (w : Nat) : List Nat := (List.range (32 * (64 / w))).filter fun i => lane (g.active c) (i / (64 / w))

/-- The sub-element with a group index of a vector register (R151, R152). -/
def groupSub (g : Group) (t : Ty) (n i : Nat) : Nat := bitsAt t (g.readV n (i / (64 / t.width))) (i % (64 / t.width))

/-- The steps of an operation over sub-elements in the order of a list, from its identity, with the flags that they raise (R154). -/
def reduce (k : FCtl) (op : RedOp) (t : Ty) (src : Nat → Nat) (es : List Nat) : Flagged Nat :=
  es.foldl (fun a i => ((redStep k op t a.1 (src i)).1, a.2 ||| (redStep k op t a.1 (src i)).2)) (redIdentity op t, 0)

/-- In an index form, the value at group index `i` is strictly better than the one at `j` (R154). -/
def better (k : FCtl) (max : Bool) (t : Ty) (src : Nat → Nat) (i j : Nat) : Bool :=
  idxBetter max t (readOperand k t (src i)).1 (readOperand k t (src j)).1 (intOf t (src i)) (intOf t (src j))

/-! ### Instructions that place their slot themselves, and traps -/

/-- The first checks of an instruction are met, whatever follows it in its block: those of `Ready` but for the last; `park` says whether it takes a
commit park (R66, R72). -/
abbrev Clear (i : Instr) (c : Ctl) (park : Bool) (s s1 : State) : Prop :=
  i.wf = true ∧ s.cur.rangeOk i c = true ∧ s.takePark park = some s1 ∧ s1.cur.Sound ∧ (i.pendCount = 0 ∨ s1.cur.uncommitted + i.pendCount ≤ 128)

/-- An instruction without a result has its place in the window of its slot, and its kill bits act (R67). -/
def State.placed (i : Instr) (c : Ctl) (x : BitVec 16) (u : State) : State :=
  let g := (u.cur.kills i c x).pushWin none
  u.setCur (g.issued u.steps)

/-- The issuing slot stands at a header that it is about to enter (R53). -/
def State.aimed (s : State) (tgt : Word32) : State :=
  s.setCur (s.cur.setMe { s.cur.me with pc := tgt, parked := false, wait := none, tw := none, woken := none, blk := { s.cur.me.blk with entry := .hdr } })

/-- The issuing slot enters the block `k` at whose header it stands: its window is banked, and R104 and R106 apply (R48, R67). -/
def State.entered (s : State) (k : Blk) : State :=
  let g := s.cur.bankSlot s.cur.sel1
  let g := g.setMe { g.me with blk := k }
  s.setCur (g.enter (.slot g.sel1)).refill

/-- The issuing slot stands at the next item. -/
def State.onward (s : State) (c : Ctl) : State :=
  s.setCur (s.cur.setMe { s.cur.me with pc := s.cur.me.pc + BitVec.ofNat 32 c.units, parked := false, wait := none, tw := none, woken := none })

/-- The branch transfers its slot to the header `tgt`, from `u`, where its checks and its own changes are made: where that header can be read as the block
`k`, and the steps of the entry reach the group block in memory, the machine's next state is that of the slot inside it (R24, R48, R53, R104). -/
def Transfers (i : Instr) (c : Ctl) (s s1 u : State) (tgt : Nat) : Prop :=
  ∀ (s3 : State) (k : Blk), ((u.placed i c s1.cur.x).aimed (BitVec.ofNat 32 tgt)).readHeader (BitVec.ofNat 32 tgt) = .ok (s3, k) →
    (s3.entered k).mirrorStop s.cur = none → exec i s = .next ((s3.entered k).mirror s.cur)

/-- A trap of the issuing slot at its own item (R36). -/
def State.traps (s : State) (c : Cause) (addr : Nat) : State := s.raiseAt s.cur.sel1 s.cur.me.pc c addr

/-! ### Operations in flight, and bytes of memory -/

/-- Group `gid` of the machine is `g`, it is not saved, and its operation `op` is `o` and is open (R170). -/
abbrev OpenOp (s : State) (gid op : Nat) (g : Group) (o : Op) : Prop := s.group? gid = some g ∧ s.away gid = false ∧ g.op? op = some o ∧ o.fin = false

/-- Operation `op` of group `gid` is complete (R170). -/
def Finished (t : State) (gid op : Nat) : Prop := ∃ h, t.group? gid = some h ∧ ∀ p, h.op? op = some p → p.fin = true

/-- The bytes of a run of places that lanes write in lane order: where some lane covers a place, what the last such lane writes; elsewhere what stood there. `at_` is
where a lane's bytes begin. -/
def WrittenInOrder (at_ : LaneAcc → Nat) (accs : List LaneAcc) (data : List (List Byte)) (new old : Nat → Byte) (x : Nat) : Prop :=
  ((∀ p ∈ accs.zip data, ¬(at_ p.1 ≤ x ∧ x < at_ p.1 + p.2.length)) → new x = old x) ∧
  (∀ (i : Nat) (a : LaneAcc) (d : List Byte), accs[i]? = some a → data[i]? = some d → at_ a ≤ x → x < at_ a + d.length →
    (∀ (j : Nat) (a' : LaneAcc) (d' : List Byte), i < j → accs[j]? = some a' → data[j]? = some d' → ¬(at_ a' ≤ x ∧ x < at_ a' + d'.length)) →
    new x = d.getD (x - at_ a) 0)

/-- The contents of every tile are in their canonical form. -/
def State.TilesWf (s : State) : Prop := ∀ w ∈ s.wgs, ∀ h < 32, Sparse.wf 0 (tget w.handles h {}).bytes = true

/-- A location in device memory whose page is not watched. -/
def plainLoc (loc : Nat) : Prop := isWindow (Loc.pa loc) = false ∧ Loc.watch loc = none

/-- A line that an instruction reads as it issues, served at its home: its core keeps no copy, its controller counts the read, and a watched line is
reported (R312, R331, R346). -/
def State.readOnce (s : State) (acc : Nat) (ag : Agent) (l : Nat × Nat) : State :=
  (s.dropCoreLine (some s.cur.coreIx) l.2).noteRead s.cur.vf acc ag l.1 l.2 64

/-- No L2 line holds a physical line under another virtual line than that of an access (R334). -/
def State.unaliased (s : State) (vf va loc : Nat) : Prop := ∀ l ∈ s.l2, l.pa = Loc.pa loc / 64 → l.vf = vf ∧ l.line = va / 64

/-- A byte of memory at a captured location, as its home gives it (R325). -/
def State.byteAt (s : State) (loc : Nat) : Byte := (s.homeRead loc 1).getD 0 0

/-- The L2 lines hold 64 bytes each (R323). -/
def State.LinesWhole (s : State) : Prop := ∀ l ∈ s.l2, l.bytes.length = 64

/-- No registered barrier stands on the line of a location (R197). -/
def State.noBarrierAt (s : State) (loc : Nat) : Prop := ∀ b ∈ s.barLines, Loc.pa b.1 / 64 ≠ Loc.pa loc / 64

/-- The bytes that count a fill of an access's line: HOT of the entries that map its page (R331). -/
def LaneAcc.hot (a : LaneAcc) : List Nat := (([a.attr.leaf1, a.attr.leaf2]).filter (· ≠ 0)).map (· + 7)

/-- A step on a barrier that no break ends: `f` is made where it is armed, and a phase with every arrival made and no byte owed is over (R191). -/
def Barrier.stepped (f : Barrier → Barrier) (b : Barrier) : Barrier :=
  let c := f b
  if b.armed = false then b else if c.broken = false ∧ c.arvc = c.expc ∧ c.pend = 0 then { c with phase := !c.phase, gen := c.gen + 1, arvc := 0 } else c

/-- What follows from byte `ix` of a copy for receiver `r`, once it is moved: the receiver's barrier counts it, its last byte arrives at the barrier of
acknowledgements, and the copy is complete with the last byte of all (R184 to R186, R189, R191). -/
structure CopyCounted (s t : State) (gid op ix : Nat) (g : Group) (k : CopyOp) (r : CopyRecv) : Prop where
  bar : ∀ wg h, r.bar = some (.tile wg h) → r.ack ≠ r.bar → (s.wg? wg).isSome = true → h < 32 → (s.readBar (.tile wg h)).broken = false →
    t.readBar (.tile wg h) = (s.readBar (.tile wg h)).stepped fun b => { b with pend := b.pend - 1 }
  ack : ∀ wg h, r.ack = some (.tile wg h) → r.ack ≠ r.bar → (s.wg? wg).isSome = true → h < 32 → (s.readBar (.tile wg h)).broken = false →
    t.readBar (.tile wg h) =
      (if (k.fin.filter fun j => j / k.total = ix / k.total).length + 1 = k.total then
         (s.readBar (.tile wg h)).stepped fun b =>
           if b.arvc = b.expc then { b with broken := true, armed := false }
           else { b with arvc := b.arvc + 1, last := if (s.gran g.slice).prof then g.lastId else b.last }
       else s.readBar (.tile wg h))
  more : k.fin.length + 1 ≠ k.total * k.recv.length → ∃ h p f, t.group? gid = some h ∧ h.op? op = some p ∧ p.fin = false ∧ p.kind = .copy { k with fin := f } ∧
    ∀ j, j ∈ f ↔ j = ix ∨ j ∈ k.fin
  last : k.fin.length + 1 = k.total * k.recv.length → Finished t gid op

/-- The value that register `k` of a load takes in lane `l` from what the homes of its accesses hold (R160). -/
def loadValue (s : State) (accs : List LaneAcc) (n cnt : Nat) (sgn : Bool) (k l : Nat) : Word64 :=
  match accs.find? (fun a => a.lane = l) with
  | some a => if a.zero then 0 else extend sgn (((s.homeRead a.pa (n * cnt)).drop (n * k)).take n)
  | none => 0

end Sys2Proof.Machine
end

