-- ==== Sys2Proof/Certificates/Slice0/Results.lean ====
section
/-!
DEFINITION. What each instruction that acts on registers alone delivers, as the opcode tables of the spec give it: one table for each shape of result.
-/
set_option Elab.async false
namespace Sys2Proof.Machine
open Sys2Proof

/-! ### Vector integer results (R131 to R137) -/

/-- Exact integer results: destination, type, SAT, and the exact value of sub-element `k` of lane `l` (R131, R136). -/
inductive IntResult : Instr → Ctl → BitVec 8 → Ty → Bool → (Group → Nat → Nat → Int) → Prop
  | iadd (c : Ctl) (o : VInt) : IntResult (.iadd c o) c o.d o.ty o.sat fun g l k => elem o.ty (g.srcA c o.a l) k + elem o.ty (g.srcB c o.uni o.b l) k
  | isub (c : Ctl) (o : VInt) : IntResult (.isub c o) c o.d o.ty o.sat fun g l k => elem o.ty (g.srcA c o.a l) k - elem o.ty (g.srcB c o.uni o.b l) k
  | imul (c : Ctl) (o : VInt) : IntResult (.imul c o) c o.d o.ty o.sat fun g l k => elem o.ty (g.srcA c o.a l) k * elem o.ty (g.srcB c o.uni o.b l) k
  | imulh (c : Ctl) (o : VInt) : IntResult (.imulh c o) c o.d o.ty o.sat fun g l k =>
      elem o.ty (g.srcA c o.a l) k * elem o.ty (g.srcB c o.uni o.b l) k / 2 ^ o.ty.width
  | imad (c : Ctl) (o : VInt) : IntResult (.imad c o) c o.d o.ty o.sat fun g l k =>
      elem o.ty (g.srcA c o.a l) k * elem o.ty (g.srcB c o.uni o.b l) k + elem o.ty (g.srcC c l) k
  | iabs (c : Ctl) (o : VUn) : IntResult (.iabs c o) c o.d o.ty o.sat fun g l k => |elem o.ty (g.srcA c o.a l) k|
  | ineg (c : Ctl) (o : VUn) : IntResult (.ineg c o) c o.d o.ty o.sat fun g l k => -elem o.ty (g.srcA c o.a l) k
  | imin (c : Ctl) (o : VInt) : IntResult (.imin c o) c o.d o.ty o.sat fun g l k => min (elem o.ty (g.srcA c o.a l) k) (elem o.ty (g.srcB c o.uni o.b l) k)
  | imax (c : Ctl) (o : VInt) : IntResult (.imax c o) c o.d o.ty o.sat fun g l k => max (elem o.ty (g.srcA c o.a l) k) (elem o.ty (g.srcB c o.uni o.b l) k)
  | isad (c : Ctl) (o : VInt) : IntResult (.isad c o) c o.d o.ty o.sat fun g l k =>
      elem o.ty (g.srcC c l) k + |elem o.ty (g.srcA c o.a l) k - elem o.ty (g.srcB c o.uni o.b l) k|
  | idp4 (c : Ctl) (o : Idp4) : IntResult (.idp4 c o) c o.d (if o.ta = .i8 ∨ o.tb = .i8 then .i32 else .n32) o.sat fun g l h =>
      elem (if o.ta = .i8 ∨ o.tb = .i8 then .i32 else .n32) (g.srcC c l) h +
        elem o.ta (g.srcA c o.a l) (4 * h) * elem o.tb (g.srcB c o.uni o.b l) (4 * h) +
        elem o.ta (g.srcA c o.a l) (4 * h + 1) * elem o.tb (g.srcB c o.uni o.b l) (4 * h + 1) +
        elem o.ta (g.srcA c o.a l) (4 * h + 2) * elem o.tb (g.srcB c o.uni o.b l) (4 * h + 2) +
        elem o.ta (g.srcA c o.a l) (4 * h + 3) * elem o.tb (g.srcB c o.uni o.b l) (4 * h + 3)

/-- Bit `j` of sub-element `k` of a lane value (R26). -/
def bitAt (t : Ty) (v : Word64) (k j : Nat) : Bool := v.getLsbD (t.width * k + j)

/-- The two-input functions of `lop3`, by their code (R135). -/
def twoInput (code : BitVec 4) (a b : Bool) : Bool := code.getLsbD (match a, b with | true, true => 0 | true, false => 1 | false, true => 2 | false, false => 3)

/-- The offset and the width that a field instruction reads from sub-element `b` (R133). -/
def fieldOff (b : Nat) : Nat := b % 256
def fieldWid (t : Ty) (b : Nat) : Nat := min (b / 256 % 256) t.width

/-- Results given bit by bit: destination, type, and bit `j` of sub-element `k` of lane `l` (R132, R133, R135, R137). -/
inductive BitResult : Instr → Ctl → BitVec 8 → Ty → (Group → Nat → Nat → Nat → Bool) → Prop
  | ishl (c : Ctl) (o : VInt) : BitResult (.ishl c o) c o.d o.ty fun g l k j =>
      decide (bitsAt o.ty (g.srcB c o.uni o.b l) k ≤ j) && bitAt o.ty (g.srcA c o.a l) k (j - bitsAt o.ty (g.srcB c o.uni o.b l) k)
  | ishr (c : Ctl) (o : VInt) : BitResult (.ishr c o) c o.d o.ty fun g l k j =>
      decide (j + bitsAt o.ty (g.srcB c o.uni o.b l) k < o.ty.width) && bitAt o.ty (g.srcA c o.a l) k (j + bitsAt o.ty (g.srcB c o.uni o.b l) k)
  | isar (c : Ctl) (o : VInt) : BitResult (.isar c o) c o.d o.ty fun g l k j =>
      bitAt o.ty (g.srcA c o.a l) k (min (j + bitsAt o.ty (g.srcB c o.uni o.b l) k) (o.ty.width - 1))
  | brev (c : Ctl) (o : VUn) : BitResult (.brev c o) c o.d o.ty fun g l k j => bitAt o.ty (g.srcA c o.a l) k (o.ty.width - 1 - j)
  | bfe (c : Ctl) (o : VInt) : BitResult (.bfe c o) c o.d o.ty fun g l k j =>
      let b := bitsAt o.ty (g.srcB c o.uni o.b l) k
      let fld (i : Nat) : Bool :=
        if fieldOff b + i < o.ty.width then bitAt o.ty (g.srcA c o.a l) k (fieldOff b + i)
        else o.ty.isI && bitAt o.ty (g.srcA c o.a l) k (o.ty.width - 1)
      if j < fieldWid o.ty b then fld j else o.ty.isI && fieldWid o.ty b ≠ 0 && fld (fieldWid o.ty b - 1)
  | bfi (c : Ctl) (o : VInt) : BitResult (.bfi c o) c o.d o.ty fun g l k j =>
      let b := bitsAt o.ty (g.srcB c o.uni o.b l) k
      if fieldOff b ≤ j ∧ j < fieldOff b + fieldWid o.ty b then bitAt o.ty (g.srcA c o.a l) k (j - fieldOff b) else bitAt o.ty (g.srcC c l) k j
  | swz (c : Ctl) (o : VInt) : BitResult (.swz c o) c o.d o.ty fun g l k j =>
      !bitAt o.ty (g.srcB c o.uni o.b l) k (o.ty.width - 1) && bitAt o.ty (g.srcA c o.a l) (bitsAt o.ty (g.srcB c o.uni o.b l) k % (64 / o.ty.width)) j
  | lop3 (c : Ctl) (o : Lop3) : BitResult (.lop3 c o) c o.d .b64 fun g l _ j =>
      twoInput (if (g.srcC c l).getLsbD j then o.f1 else o.f0) ((g.srcA c o.a l).getLsbD j) ((g.srcB c o.uni o.b l).getLsbD j)
  | imov (c : Ctl) (o : IMov) : BitResult (.imov c o) c o.d .b64 fun g l _ j => (if o.uni then g.uniA c o.a else g.srcA c o.a l).getLsbD j
  | imovi (c : Ctl) (o : MovImm) : BitResult (.imovi c o) c o.d .b64 fun _ _ _ j => o.imm.getLsbD (min j 26)
  | isel (c : Ctl) (o : ISel) : BitResult (.isel c o) c o.d .b64 fun g l _ j =>
      (if g.readP (g.rC c) l then g.srcA c o.a l else g.srcB c o.uni o.b l).getLsbD j

/-! ### Uniform results (R121 to R123) -/

/-- Exact uniform results: destination, type, SAT and the exact value (R121). -/
inductive UniExact : Instr → Ctl → BitVec 8 → Ty → Bool → (Group → Int) → Prop
  | sadd (c : Ctl) (o : UArith) : UniExact (.sadd c o) c o.d o.ty o.sat fun g => elem o.ty (g.uniA c o.a) 0 + elem o.ty (g.ubVal c o.b) 0
  | ssub (c : Ctl) (o : UArith) : UniExact (.ssub c o) c o.d o.ty o.sat fun g => elem o.ty (g.uniA c o.a) 0 - elem o.ty (g.ubVal c o.b) 0
  | smul (c : Ctl) (o : UArith) : UniExact (.smul c o) c o.d o.ty o.sat fun g => elem o.ty (g.uniA c o.a) 0 * elem o.ty (g.ubVal c o.b) 0
  | smulh (c : Ctl) (o : UArith) : UniExact (.smulh c o) c o.d o.ty o.sat fun g => elem o.ty (g.uniA c o.a) 0 * elem o.ty (g.ubVal c o.b) 0 / 2 ^ 64
  | smin (c : Ctl) (o : UArith) : UniExact (.smin c o) c o.d o.ty o.sat fun g => min (elem o.ty (g.uniA c o.a) 0) (elem o.ty (g.ubVal c o.b) 0)
  | smax (c : Ctl) (o : UArith) : UniExact (.smax c o) c o.d o.ty o.sat fun g => max (elem o.ty (g.uniA c o.a) 0) (elem o.ty (g.ubVal c o.b) 0)

/-- Uniform results given bit by bit: destination, and bit `j` of the 64-bit register (R121 to R123). -/
inductive UniBits : Instr → Ctl → BitVec 8 → (Group → Nat → Bool) → Prop
  | sand (c : Ctl) (o : UArith) : UniBits (.sand c o) c o.d fun g j => decide (j < o.ty.width) && (g.uniA c o.a).getLsbD j && (g.ubVal c o.b).getLsbD j
  | sor (c : Ctl) (o : UArith) : UniBits (.sor c o) c o.d fun g j => decide (j < o.ty.width) && ((g.uniA c o.a).getLsbD j || (g.ubVal c o.b).getLsbD j)
  | sxor (c : Ctl) (o : UArith) : UniBits (.sxor c o) c o.d fun g j => decide (j < o.ty.width) && ((g.uniA c o.a).getLsbD j != (g.ubVal c o.b).getLsbD j)
  | snot (c : Ctl) (o : UUn) : UniBits (.snot c o) c o.d fun g j => decide (j < o.ty.width) && !(g.uniA c o.a).getLsbD j
  | sshl (c : Ctl) (o : UArith) : UniBits (.sshl c o) c o.d fun g j =>
      decide (j < o.ty.width) && decide ((g.ubVal c o.b).toNat ≤ j) && (g.uniA c o.a).getLsbD (j - (g.ubVal c o.b).toNat)
  | sshr (c : Ctl) (o : UArith) : UniBits (.sshr c o) c o.d fun g j =>
      decide (j + (g.ubVal c o.b).toNat < o.ty.width) && (g.uniA c o.a).getLsbD (j + (g.ubVal c o.b).toNat)
  | ssar (c : Ctl) (o : UArith) : UniBits (.ssar c o) c o.d fun g j =>
      decide (j < o.ty.width) && (g.uniA c o.a).getLsbD (min (j + (g.ubVal c o.b).toNat) (o.ty.width - 1))
  | smov (c : Ctl) (o : DA) : UniBits (.smov c o) c o.d fun g j => (g.uniA c o.a).getLsbD j
  | smovi (c : Ctl) (o : MovImm) : UniBits (.smovi c o) c o.d fun _ j => o.imm.getLsbD (min j 26)
  | ssel (c : Ctl) (o : USel) : UniBits (.ssel c o) c o.d fun g j => decide (j < o.ty.width) &&
      (if (List.range 32).any (fun l => lane (g.active c) l && g.readP o.cp.toNat l) then g.uniA c o.a else g.uniB c o.b).getLsbD j

/-! ### Predicate results (R122, R125, R126, R134, R141, R142) -/

/-- The conditions of `ssetp` and `isetp` (R122). -/
def condition : Cmp → Int → Int → Bool
  | .eq, a, b => a == b | .ne, a, b => a != b | .lt, a, b => a < b | .le, a, b => a ≤ b | .gt, a, b => b < a | .ge, a, b => b ≤ a

/-- Predicate source A or B of lane `l`, inverted where its bit says so (R125). -/
def predSrc (g : Group) (n : Nat) (inv : Bool) (l : Nat) : Bool := g.readP n l != inv

/-- Per-lane predicate results without flags: destination, and the value that lane `l` takes. -/
inductive PredResult : Instr → Ctl → BitVec 8 → (Group → Nat → Bool) → Prop
  | pand (c : Ctl) (o : PBin) : PredResult (.pand c o) c o.d fun g l => predSrc g (g.rA c o.a.reg) o.na l && predSrc g (g.rB c o.b.reg) o.nb l
  | por (c : Ctl) (o : PBin) : PredResult (.por c o) c o.d fun g l => predSrc g (g.rA c o.a.reg) o.na l || predSrc g (g.rB c o.b.reg) o.nb l
  | pxor (c : Ctl) (o : PBin) : PredResult (.pxor c o) c o.d fun g l => predSrc g (g.rA c o.a.reg) o.na l ^^ predSrc g (g.rB c o.b.reg) o.nb l
  | pnot (c : Ctl) (o : DA) : PredResult (.pnot c o) c o.d fun g l => !g.readP (g.rA c o.a.reg) l
  | pmov (c : Ctl) (o : PUn) : PredResult (.pmov c o) c o.d fun g l => predSrc g (g.rA c o.a.reg) o.na l
  | psel (c : Ctl) (o : DAB) : PredResult (.psel c o) c o.d fun g l => if g.readP (g.rC c) l then g.readP (g.rA c o.a.reg) l else g.readP (g.rB c o.b.reg) l
  | voteAny (c : Ctl) (o : PUn) : PredResult (.voteAny c o) c o.d fun g _ =>
      (List.range 32).any fun k => lane (g.active c) k && predSrc g (g.rA c o.a.reg) o.na k
  | voteAll (c : Ctl) (o : PUn) : PredResult (.voteAll c o) c o.d fun g _ =>
      (List.range 32).all fun k => !lane (g.active c) k || predSrc g (g.rA c o.a.reg) o.na k
  | ssetp (c : Ctl) (o : USetp) : PredResult (.ssetp c o) c o.d fun g _ => condition o.cmp (elem o.ty (g.uniA c o.a) 0) (elem o.ty (g.ubVal c o.b) 0)
  | isetp (c : Ctl) (o : ISetp) : PredResult (.isetp c o) c o.d fun g l =>
      condition o.cmp (elem o.ty (g.srcA c o.a l) o.sel.toNat) (elem o.ty (g.srcB c o.uni o.b l) o.sel.toNat)
  | fclass (c : Ctl) (o : FClass) : PredResult (.fclass c o) c o.d fun g l =>
      o.cls.getLsbD (fpClass o.ty (bitsAt o.ty (g.srcA c o.a l) o.sel.toNat))

/-! ### Floating-point results (R139, R140, R143) -/

/-- Short floating-point results: destination, type, and the bits and flags of sub-element `k` of lane `l`. -/
inductive FpResult : Instr → Ctl → BitVec 8 → Ty → (Group → Nat → Nat → Flagged Nat) → Prop
  | fadd (c : Ctl) (o : F2) : FpResult (.fadd c o) c o.d o.ty fun g l k =>
      fpAdd g.fctl (g.rmode c) o.ty o.na o.nb (bitsAt o.ty (g.srcA c o.a l) k) (bitsAt o.ty (g.srcB c o.uni o.b l) k)
  | fsub (c : Ctl) (o : F2) : FpResult (.fsub c o) c o.d o.ty fun g l k =>
      fpAdd g.fctl (g.rmode c) o.ty o.na (!o.nb) (bitsAt o.ty (g.srcA c o.a l) k) (bitsAt o.ty (g.srcB c o.uni o.b l) k)
  | fmul (c : Ctl) (o : F2) : FpResult (.fmul c o) c o.d o.ty fun g l k =>
      fpMul g.fctl (g.rmode c) o.ty o.na o.nb (bitsAt o.ty (g.srcA c o.a l) k) (bitsAt o.ty (g.srcB c o.uni o.b l) k)
  | ffma (c : Ctl) (o : F3) : FpResult (.ffma c o) c o.d o.ty fun g l k =>
      fpFma g.fctl (g.rmode c) o.ty o.na o.nb o.nc (bitsAt o.ty (g.srcA c o.a l) k) (bitsAt o.ty (g.srcB c o.uni o.b l) k) (bitsAt o.ty (g.srcC c l) k)
  | fmin (c : Ctl) (o : F2) : FpResult (.fmin c o) c o.d o.ty fun g l k =>
      fpMinMax g.fctl o.ty false o.na o.nb (bitsAt o.ty (g.srcA c o.a l) k) (bitsAt o.ty (g.srcB c o.uni o.b l) k)
  | fmax (c : Ctl) (o : F2) : FpResult (.fmax c o) c o.d o.ty fun g l k =>
      fpMinMax g.fctl o.ty true o.na o.nb (bitsAt o.ty (g.srcA c o.a l) k) (bitsAt o.ty (g.srcB c o.uni o.b l) k)
  | frnd (c : Ctl) (o : F1) : FpResult (.frnd c o) c o.d o.ty fun g l k => fpRound g.fctl (g.rmode c) o.ty o.na (bitsAt o.ty (g.srcA c o.a l) k)

/-! ### Operations on numbers (R76 to R92, R138 to R147) -/

/-- The types of vector floating-point arithmetic (R79). -/
def fpTypes : List Ty := [.f64, .f32, .f16, .bf16]

/-- A magnitude with its sign. -/
def signed (s : Bool) (q : Rat) : Rat := if s then -q else q

/-- An operand as an instruction takes it: a subnormal that the controls flush is the zero of its sign, then the sign is flipped where the instruction
negates (R83, R138). -/
def operand (k : FCtl) (t : Ty) (flip : Bool) (b : Nat) : FpVal :=
  match (fmtOf t).decode b with
  | .num s q => .num (s != flip) (if k.flushes t = true ∧ q < (fmtOf t).minNormal then 0 else q)
  | .inf s => .inf (s != flip)
  | .nan s quiet frac => .nan (s != flip) quiet frac

/-- IV, for a signalling NaN (R85). -/
def sigFlag (t : Ty) (b : Nat) : BitVec 6 := match (fmtOf t).decode b with | .nan _ false _ => flIV | _ => 0

/-- The NaN that an operation delivers in type `t` (R86): the canonical one under NANQ or where no input is a NaN, else the first input NaN, quieted, with
its sign and the high-order bits of its payload; a format with one NaN for each sign takes the sign alone. -/
def NanOf (k : FCtl) (t : Ty) (ins : List FpVal) (r : Nat) : Prop :=
  match ins.find? FpVal.isNan with
  | some (.nan s _ frac) =>
    if k.nanq = true then r = (fmtOf t).qnan
    else if (fmtOf t).inf = true then
      r < 2 ^ t.width ∧ (fmtOf t).decode r = .nan s true ((frac ||| 2 ^ 51) / 2 ^ (52 - (fmtOf t).mbits) * 2 ^ (52 - (fmtOf t).mbits))
    else r = (fmtOf t).signBits s + (2 ^ (fmtOf t).signPos - 1)
  | _ => r = (fmtOf t).qnan

/-- Which of two neighbours a mode takes for a magnitude between them: whether the upper one; `odd` says that the lower one's last bit is 1 (R80). -/
def takesUpper (m : Rounding) (neg odd : Bool) (lo hi q : Rat) : Bool :=
  match m with
  | .rz => false
  | .rdn => neg
  | .rup => !neg
  | .rna => decide (lo + hi ≤ 2 * q)
  | .rne => decide (lo + hi < 2 * q) || (decide (lo + hi = 2 * q) && odd)

/-- One value lies below another, zeros of either sign being equal; and with −0 below +0 (R140, R141). -/
def below (x y : FpVal) : Bool :=
  match x, y with
  | .inf true, .inf false | .inf true, .num .. | .num .., .inf false => true
  | .num s q, .num u p => decide (signed s q < signed u p)
  | _, _ => false

def below0 (x y : FpVal) : Bool := below x y || (x == .num true 0 && y == .num false 0)

/-- The conditions of `fsetp` on operands that are `lt` below, `gt` above one another, or unordered (R141). -/
def fpCondition (un lt gt : Bool) : FCmp → Bool
  | .eq => !un && !lt && !gt | .ne => !un && (lt || gt) | .lt => !un && lt | .le => !un && !gt | .gt => !un && gt | .ge => !un && !lt
  | .num => !un | .nan => un
  | .equ => un || (!lt && !gt) | .neu => un || lt || gt | .ltu => un || lt | .leu => un || !gt | .gtu => un || gt | .geu => un || !lt

/-- The exact sum of numbers rounds once; a sum of 0 has the sign of its terms where they agree, else + but for RDN (R84, R88). -/
def sumOf (k : FCtl) (t : Ty) (m : Rounding) (s u : Bool) (z : Rat) : Flagged Nat :=
  if z = 0 then ((fmtOf t).signBits (if s = u then s else m = .rdn), 0) else roundVal t m (k.flushes t) false (z < 0) |z|

/-- An integer that a mode picks for a magnitude (R80, R90, R143). -/
def Picks (m : Rounding) (neg : Bool) (q : Rat) (h : Nat) : Prop :=
  ∀ n : Nat, (n : Rat) ≤ q → q < n + 1 → h = if q ≠ n ∧ takesUpper m neg (n % 2 = 1) n (n + 1) q = true then n + 1 else n

/-- A conversion to an integer type: an integral value is delivered where the type holds it, else clamped, with IV and SI (R90). -/
def clampTo (t : Ty) (z : Int) : Flagged Nat :=
  (((if z < least t then least t else if greatest t < z then greatest t else z) % 2 ^ t.width).toNat,
    if z < least t ∨ greatest t < z then flIV ||| flSI else 0)

/-- The special functions, whose results are long-latency: the function that each instruction delivers (R144). -/
inductive SfuResult : Instr → Ctl → F1 → Sfu → Prop
  | frcp (c : Ctl) (o : F1) : SfuResult (.frcp c o) c o .rcp
  | frsq (c : Ctl) (o : F1) : SfuResult (.frsq c o) c o .rsq
  | fsqrt (c : Ctl) (o : F1) : SfuResult (.fsqrt c o) c o .sqrt
  | fexp2 (c : Ctl) (o : F1) : SfuResult (.fexp2 c o) c o (.elem .exp2)
  | flog2 (c : Ctl) (o : F1) : SfuResult (.flog2 c o) c o (.elem .log2)
  | fsin (c : Ctl) (o : F1) : SfuResult (.fsin c o) c o (.elem .sin)
  | fcos (c : Ctl) (o : F1) : SfuResult (.fcos c o) c o (.elem .cos)

/-- The group index that sub-element `i` of a `shfl` takes, of `n` in the group (R152). -/
def shflFrom (m : ShflMode) (n i b : Nat) : Nat :=
  match m with
  | .gat => b % n
  | .fwd => if i + b < n then i + b else i
  | .back => if b ≤ i then i - b else i
  | .rot => (i + b % n) % n
  | .flip => Nat.xor i (b % n)

/-- Long-latency moves between lanes: destination, type, and bit `j` of sub-element `k` of lane `l` (R152, R153, R157). -/
inductive MoveResult : Instr → Ctl → BitVec 8 → Ty → (Group → Nat → Nat → Nat → Bool) → Prop
  | shfl (c : Ctl) (o : Shfl) : MoveResult (.shfl c o) c o.d o.ty fun g l k j =>
      let n := 64 / o.ty.width
      let i := shflFrom o.mode (32 * n) (n * l + k) (bitsAt o.ty (g.srcB c o.uni o.b l) k)
      bitAt o.ty (g.readV (g.rA c o.a.reg) (i / n)) (i % n) j
  | qswp (c : Ctl) (o : Qswp) : MoveResult (.qswp c o) c o.d .b64 fun g l _ j =>
      let p := match o.dir with | .h => Nat.xor (l % 4) 1 | .v => Nat.xor (l % 4) 2 | .d => Nat.xor (l % 4) 3 | .b0 => 0 | .b1 => 1 | .b2 => 2 | .b3 => 3
      (g.readV (g.rA c o.a.reg) (4 * (l / 4) + p)).getLsbD j
  | match_ (c : Ctl) (o : UUn) : MoveResult (.match_ c o) c o.d .b64 fun g l _ j =>
      decide (j < 32) && lane (g.active c) j && bitsAt o.ty (g.readV (g.rA c o.a.reg) j) 0 == bitsAt o.ty (g.readV (g.rA c o.a.reg) l) 0

/-! ### Copies (R183, R186, R187) -/

/-- The copies of one tile: destination, shape from its descriptor registers, and barrier. -/
inductive CopyForm : Instr → Ctl → BitVec 8 → (Group → CopyOp × Bool) → Option (BitVec 8) → Prop
  | cpyIn (c : Ctl) (o : Cpy) : CopyForm (.cpyIn c o) c o.d
      (fun g => rowShape .in_ (g.readS (g.rA c o.u.reg)) (g.readS (g.rA c o.u.reg + 1)) (g.readS (g.rA c o.u.reg + 2))) o.bar
  | cpyOut (c : Ctl) (o : Cpy) : CopyForm (.cpyOut c o) c o.d
      (fun g => rowShape .out (g.readS (g.rA c o.u.reg)) (g.readS (g.rA c o.u.reg + 1)) (g.readS (g.rA c o.u.reg + 2))) o.bar
  | cpyWin (c : Ctl) (o : Cpy) : CopyForm (.cpyWin c o) c o.d
      (fun g => winShape (g.readS (g.rA c o.u.reg)) (g.readS (g.rA c o.u.reg + 1)) (g.readS (g.rA c o.u.reg + 2)) (g.readS (g.rA c o.u.reg + 3))) o.bar

/-- A tile that a copy can use: allocated, of its kind, with no allocation in progress (R176, R188). -/
def tileUsable (t : Handle) (kind : TKind) : Prop := t.prog = none ∧ t.st = .allocated ∧ t.kind = kind

/-- What a copy checks before its effect (R182, R183, R185 to R188): the issuer may copy; each receiver's tile takes the shape, and its barrier and the
barrier of the acknowledgement count; nothing reserved is set; addresses are aligned and mapped. -/
structure CopyOk (s s2 : State) (shape : CopyOp × Bool) (keys : List Nat) (clus : Bool) (h : Nat) (bar ack : Option Nat) (maps : List PageMap) : Prop where
  rights : s.cur.gid = s.cur.producer ∧ s.cur.producer ≠ 0xFF
  tiles : ∀ k ∈ keys, tileUsable (s.handle k h) .data ∧ (clus = true → (s.handle k h).clus = true) ∧ shape.1.fits (s.handle k h) = true
  bars : ∀ b, bar = some b → ∀ k ∈ keys, tileUsable (s.handle k b) .barrier ∧ (s.handle k b).bar.unarmed = false
  acks : ∀ b, ack = some b → tileUsable (s.handle s.cur.wg b) .barrier ∧ (s.handle s.cur.wg b).bar.unarmed = false
  reserved : shape.2 = false
  aligned : shape.1.ga % 8 = 0 ∧ shape.1.gp % 8 = 0 ∧ shape.1.to_ % 8 = 0
  low : ∀ p ∈ pagesOf shape.1.runs, ∀ a, p.2 = some a → a < 2 ^ 57
  mapped : s.mapPages s.cur.vf (if shape.1.kind = .out then .write else .read)
    ((pagesOf shape.1.runs).filterMap fun p => p.2.map fun a => (p.1, a)) = .ok (s2, maps)

/-- The copy as it is accepted. -/
def copyOf (s : State) (shape : CopyOp × Bool) (keys : List Nat) (h : Nat) (bar ack : Option Nat) (maps : List PageMap) : CopyOp :=
  { shape.1 with
    recv := keys.map fun k => { wg := k, h, rowb := (s.handle k h).rowb, bar := bar.map fun b => .tile k b, ack := ack.map fun b => .tile s.cur.wg b }
    pages := maps }

/-- The arrivals and byte counts: their barrier, their count and whether they arrive (R193). -/
inductive ArrivalForm : Instr → Ctl → BarRef → (Group → Word64) → Bool → Prop
  | tbarArv (c : Ctl) (bar : BarRef) : ArrivalForm (.tbarArv c bar) c bar (fun _ => 0) true
  | tbarExp (c : Ctl) (o : BarB) : ArrivalForm (.tbarExp c o) c o.bar (fun g => g.uniB c o.b) false
  | tbarExpArv (c : Ctl) (o : BarB) : ArrivalForm (.tbarExpArv c o) c o.bar (fun g => g.uniB c o.b) true

/-- An operation of a path that is over at once: its counter rises, and falls in issue order (R59, R181). -/
def nullOp (s : State) (p : Path) : State :=
  s.setCur (((s.cur.addOp s.steps (some p) .null).updOp s.cur.seq fun o => { o with fin := true }).sweep)

/-- The flags that the active lanes of an instruction raise, each in `n` sub-elements (R87, R127). -/
def raised (g : Group) (c : Ctl) (n : Nat) (fl : Nat → Nat → BitVec 6) : BitVec 6 :=
  (List.range 32).foldl (fun a l => a ||| (List.range n).foldl (fun a k => a ||| if lane (g.active c) l then fl l k else 0) 0) 0

/-! ### Matrix operands (R207 to R210) -/

/-- The tile that a source of `mxmma` names, if it names one, and its descriptor from the uniform registers at `n` (R207). -/
def mmaTile (s : State) (idx : Bool) : MxSrc → Option (Nat × Handle)
  | .tile h => some (idxReg idx h s.cur.x, s.handle s.cur.wg (idxReg idx h s.cur.x))
  | .reg _ => none

def mmaDesc (s : State) (m : MxSrc) (n : Nat) : Option TileDesc :=
  match m with | .tile _ => some (TileDesc.of (s.cur.readS n) (s.cur.readS (n + 1))) | .reg _ => none

/-- The descriptors of the two sources: B's follows A's where both are tiles (R207). -/
def mmaDescA (s : State) (c : Ctl) (o : MxMma) : Option TileDesc := mmaDesc s o.a (s.cur.rC c)
def mmaDescB (s : State) (c : Ctl) (o : MxMma) : Option TileDesc :=
  mmaDesc s o.b (match o.a with | .tile _ => s.cur.rC c + 2 | .reg _ => s.cur.rC c)

/-- The length K of a pass (R207, R208). -/
def mmaK (s : State) (c : Ctl) (o : MxMma) : Nat :=
  match mmaDescA s c o with
  | some d => if o.win then (let (chc, kh, kw, _, _) := s.cur.winOf; kh * kw * chc * (256 / o.fa.width)) else d.klen
  | none => rcntRegs o.rcnt * (32 / o.fa.width)

/-- A source of a pass as it is posted (R206, R207). -/
def mmaSource (s : State) (o : MxMma) (m : MxSrc) (idx : Bool) (d : Option TileDesc) (win : Bool) : PassOpnd :=
  match m, d with
  | .tile h, some d => .tile s.cur.wg (idxReg idx h s.cur.x) (s.handle s.cur.wg (idxReg idx h s.cur.x)).rowb d.off d.tp d.rp d.rot
      (if win then some s.cur.winOf else none)
  | .reg r, _ => .regs ((List.range (rcntRegs o.rcnt)).map fun i => s.cur.lanesV (idxReg idx r.reg s.cur.x + i))
  | .tile _, none => .regs []

/-- The bytes of scales that a pass reads, page by page (R209). -/
def mmaPages (s : State) (c : Ctl) (o : MxMma) : List (Nat × Nat) :=
  (pagesOf ([s.cur.sclA.use o.fa false, s.cur.sclB.use o.fb true].flatMap fun u =>
    match u with | some u => scaleRuns u.base u.rsh (mmaK s c o) u.shp | none => [])).filterMap fun p => p.2.map fun a => (p.1, a)

/-- What `mxmma` checks (R207 to R210): its accumulator is reserved; its tiles are allocated data tiles at `.k` that hold every chunk; its descriptors
have nothing reserved set, are aligned and give one K below the limit of the width; a scale shape fits its format; the scale bytes are mapped. -/
structure MmaOk (s s2 : State) (c : Ctl) (o : MxMma) (maps : List PageMap) : Prop where
  bound : (s.cur.accName (s.cur.rD c o.d)).bound = true
  tileA : ∀ t, mmaTile s c.idxA o.a = some t → tileUsable t.2 .data ∧ t.2.clus = true
  tileB : ∀ t, mmaTile s c.idxB o.b = some t → tileUsable t.2 .data ∧ t.2.clus = true
  descs : ∀ d, mmaDescA s c o = some d ∨ mmaDescB s c o = some d → d.rsv = false ∧ d.off % 32 = 0 ∧ d.tp % 32 = 0 ∧ d.rp % 32 = 0
  shapes : badShape (s.cur.sclA.use o.fa false) o.fa = false ∧ badShape (s.cur.sclB.use o.fb true) o.fb = false
  lenA : ∀ d, mmaDescA s c o = some d → (o.win = true ↔ d.klen = 0)
  lenB : ∀ d, mmaDescB s c o = some d → d.klen = 0
  regB : (mmaDescA s c o).isSome = true → mmaDescB s c o = none → mmaK s c o = rcntRegs o.rcnt * (32 / o.fa.width)
  limit : mmaK s c o ≤ kLimit o.fa.width
  fitsA : ∀ d t, mmaDescA s c o = some d → mmaTile s c.idxA o.a = some t → d.fits t.2 o.fa.width (mmaK s c o) (if o.win then some s.cur.winOf else none) = true
  fitsB : ∀ d t, mmaDescB s c o = some d → mmaTile s c.idxB o.b = some t → d.fits t.2 o.fa.width (mmaK s c o) none = true
  low : ∀ p ∈ mmaPages s c o, p.2 < 2 ^ 57
  mapped : s.mapPages s.cur.vf .read (mmaPages s c o) = .ok (s2, maps)

/-- The pass that `mxmma` posts (R210). -/
def mmaOf (s : State) (c : Ctl) (o : MxMma) (maps : List PageMap) : MmaOp :=
  { key := (s.cur.accName (s.cur.rD c o.d)).key, a := mmaSource s o o.a c.idxA (mmaDescA s c o) o.win, b := mmaSource s o o.b c.idxB (mmaDescB s c o) false,
    fa := o.fa, fb := o.fb, k := mmaK s c o, sa := s.cur.sclA.use o.fa false, sb := s.cur.sclB.use o.fb true, pages := maps }

/-- The instructions that run a matrix or a delta pass in memory: their descriptor register and the operation that they post (R213, R228). -/
inductive DetachedForm : Instr → Ctl → Src → (List Byte → Nat → Nat → OpKind) → Prop
  | mxpass (c : Ctl) (a : Src) : DetachedForm (.mxpass c a) c a .pass
  | mxdelta (c : Ctl) (a : Src) : DetachedForm (.mxdelta c a) c a .delta

/-- The record instructions: their header address, the words that they carry, and their access (R223 to R226). -/
inductive RecordForm : Instr → Ctl → Src → Nat → (Group → Word64 × Word64) → AccKind → Option (BitVec 8) → Prop
  | dlrBind (c : Ctl) (o : AB) : RecordForm (.dlrBind c o) c o.a 0 (fun g => (g.readS (g.rB c o.b.reg), g.readS (g.rB c o.b.reg + 1))) .write none
  | dlrInval (c : Ctl) (a : Src) : RecordForm (.dlrInval c a) c a 1 (fun _ => (0, 0)) .write none
  | dlrStat (c : Ctl) (o : DA) : RecordForm (.dlrStat c o) c o.a 2 (fun _ => (0, 0)) .read (some o.d)

/-- The instructions that take effect once for the group and raise the counter of a path (R32, R59). -/
inductive CountedForm : Instr → Ctl → Path → Prop
  | mxmma (c : Ctl) (o : MxMma) : CountedForm (.mxmma c o) c .mx
  | mxzero (c : Ctl) (d : BitVec 8) : CountedForm (.mxzero c d) c .mx
  | mxpass (c : Ctl) (a : Src) : CountedForm (.mxpass c a) c .mx
  | mxdelta (c : Ctl) (a : Src) : CountedForm (.mxdelta c a) c .mx
  | dlrBind (c : Ctl) (o : AB) : CountedForm (.dlrBind c o) c .mx
  | dlrInval (c : Ctl) (a : Src) : CountedForm (.dlrInval c a) c .mx
  | dlrStat (c : Ctl) (o : DA) : CountedForm (.dlrStat c o) c .mx
  | wregSet (c : Ctl) (o : WregSet) : CountedForm (.wregSet c o) c .store
  | wregClr (c : Ctl) (id : BitVec 6) : CountedForm (.wregClr c id) c .store

/-- The instructions that take effect once for the group and raise no counter (R58). -/
inductive GroupForm : Instr → Ctl → Prop
  | mxreq (c : Ctl) (d : BitVec 8) : GroupForm (.mxreq c d) c
  | mxrel (c : Ctl) (d : BitVec 8) : GroupForm (.mxrel c d) c
  | mxscl (c : Ctl) (o : MxScl) : GroupForm (.mxscl c o) c
  | mxsclNone (c : Ctl) (b : Bool) : GroupForm (.mxsclNone c b) c
  | mxwin (c : Ctl) (a : Src) : GroupForm (.mxwin c a) c
  | rastSub (c : Ctl) (a : Src) : GroupForm (.rastSub c a) c
  | encTile (c : Ctl) (o : AB) : GroupForm (.encTile c o) c
  | encFrm (c : Ctl) (a : Src) : GroupForm (.encFrm c a) c
  | trap (c : Ctl) (n : BitVec 11) : GroupForm (.trap c n) c
  | brk (c : Ctl) (n : BitVec 13) : GroupForm (.brk c n) c
  | yield (c : Ctl) : GroupForm (.yield c) c
  | daymark (c : Ctl) (n : BitVec 12) (a : Option Src) : GroupForm (.daymark c n a) c
  | setsr (c : Ctl) (sr : BitVec 8) (a : Src) : GroupForm (.setsr c sr a) c
  | setx (c : Ctl) (v : RegImm 12) : GroupForm (.setx c v) c
  | wmovToW (c : Ctl) (d : BitVec 8) (a : Src) : GroupForm (.wmovToW c d a) c
  | wmovFromW (c : Ctl) (d a : BitVec 8) : GroupForm (.wmovFromW c d a) c
  | getsr (c : Ctl) (d sr : BitVec 8) : GroupForm (.getsr c d sr false) c

/-! ### The filter unit (R241 to R244, R253, R259 to R263) -/

/-- A filter instruction with no active lane: its counter rises and falls, and the lanes of its zero clause take zero (R59). -/
def nullFilter (s : State) (d n : Nat) (lanes : Word32) : State :=
  s.setCur ((((s.cur.addOp s.steps (some .filt) .null).awaiting .v d n lanes).fillPend s.cur.seq allLanes true fun _ _ => 0).finishOp s.cur.seq)

/-- `tex.s` and `tex.l`: whether the level of detail is given (R253). -/
inductive TexForm : Instr → Ctl → Tex → Bool → Prop
  | texS (c : Ctl) (o : Tex) : TexForm (.texS c o) c o false
  | texL (c : Ctl) (o : Tex) : TexForm (.texL c o) c o true

/-- `tex.q.dim` and `tex.q.lod`: their destination registers (R256). -/
inductive TexQForm : Instr → Ctl → TexQ → Nat → Prop
  | dim (c : Ctl) (o : TexQ) : TexQForm (.texQDim c o) c o 2
  | lod (c : Ctl) (o : TexQ) : TexQForm (.texQLod c o) c o 1

/-- The texels that lane `l` of a texture instruction reads (R253, R254). -/
def texReads (g : Group) (c : Ctl) (o : Tex) (given : Bool) (desc : List Byte) (l : Nat) : List Nat :=
  match texPlan (TexDesc.of desc) o.dim given (g.lanesV (g.rA c o.a.reg)) (g.lanesV (g.rA c o.a.reg + 1)) l with
  | some p => p.reads
  | none => []

/-- The coordinates of lane `l` of a grid instruction, and the features that it reads (R258, R259). -/
def gridLane (g : Group) (c : Ctl) (a : Src) (d3 : Bool) (l : Nat) : Option (List Rat) :=
  gridPoint d3 (g.readV (g.rA c a.reg) l) (g.readV (g.rA c a.reg + 1) l)

/-- The lanes that an `hg.scat` scatters from, with their coordinates (R261). -/
def scatPoints (g : Group) (c : Ctl) (o : HgScat) : List (Nat × List Rat) :=
  (lanesOf (g.active c)).filterMap fun l => (gridLane g c o.a o.d3 l).map fun p => (l, p)

/-- The gradient of feature `e` in lane `l` (R261). -/
def scatGrad (g : Group) (c : Ctl) (o : HgScat) (l e : Nat) : FpVal :=
  (fmtOf o.ty).decode (subEl (if o.ty = .f32 then 32 else 16) (g.readV (g.rD c o.d + e / perReg o.ty) l) (e % perReg o.ty))

/-- The slots that an `hg.scat` adds to, lane by lane (R261). -/
def scatSlots (g : Group) (c : Ctl) (o : HgScat) (tab : List Byte) : List LaneReq :=
  (scatPoints g c o).flatMap fun p => (contributions tab o.exact [p] fun _ _ => .num false 0).map fun x => { lane := p.1, va := x.slot }

/-- The adds of an `hg.scat`: one for each slot, in `.exact` mode with the headers of the levels that contribute, and one for each level with a
contribution that is not finite (R262, R263). -/
def scatAdds (g : Group) (c : Ctl) (o : HgScat) (tab : List Byte) (hs : List (Nat × Nat × Nat × Int)) (pages : List PageMap) : List ScatAdd :=
  let cs := contributions tab o.exact (scatPoints g c o) (scatGrad g c o)
  let head (l : Nat) : List (Nat × Nat) := match hs.find? (fun h => h.1 = l) with | some h => [(h.2.1, h.2.2.1)] | none => []
  let exps := (List.range (gridLevels tab)).map fun l => match hs.find? (fun h => h.1 = l) with | some h => h.2.2.2 | none => 0
  if o.exact then
    (exactAdds exps cs).1.map (fun a => { va := a.1, pa := pageLoc pages a.1, fast := false, sum := a.2.1, fsum := 0, headers := a.2.2.flatMap head }) ++
    (exactAdds exps cs).2.map (fun l => { va := 0, pa := 0, fast := true, sum := 0, fsum := 0, headers := head l })
  else (fastAdds cs).map fun a => { va := a.1, pa := pageLoc pages a.1, fast := true, sum := 0, fsum := BitVec.ofNat 32 a.2, headers := [] }

/-! ### Rays (R275 to R278) -/

/-- The ray instructions: record base, access, kind, flags, and what each lane hands over. -/
inductive RayForm : Instr → Ctl → Src → AccKind → (Group → RayKind) → Word64 → (Group → Nat → Word64 × List Word64) → Option (BitVec 8 × Nat) → Prop
  | rayTrc (c : Ctl) (o : RayTrc) : RayForm (.rayTrc c o) c o.a .write (fun g => .trc (g.uniB c o.b))
      (BitVec.ofNat 64 (2 ^ 22 * b2n o.any + 2 ^ 21 * b2n o.noproc + 2 ^ 19 * (match o.cull with | .none => 0 | .back => 1 | .front => 2) + 2 ^ 8 * o.imask.toNat))
      (fun g l => (0, (List.range 4).map fun k => g.readV (g.rD c o.d + k) l)) none
  | rayRsm (c : Ctl) (o : RayRsm) : RayForm (.rayRsm c o) c o.a .write (fun _ => .rsm o.b.isSome) 0
      (fun g l => (match o.b with | some b => g.readV (g.rB c b.reg) l | none => 0, [])) none
  | rayCmt (c : Ctl) (o : AB) : RayForm (.rayCmt c o) c o.a .write (fun _ => .cmt) 0 (fun g l => (g.readV (g.rB c o.b.reg) l, [])) none
  | rayGet (c : Ctl) (o : RayGet) : RayForm (.rayGet c o) c o.a .read (fun _ => .get o.sel) 0 (fun _ _ => (0, []))
      (some (o.d, match o.sel with | .hit => 3 | .leaf => 2 | .oray => 4))

/-- The lines of the records of the active lanes, 512 bytes each from the base on (R274, R275). -/
def rayLines (g : Group) (c : Ctl) (base : Nat) : List LaneReq :=
  (g.laneReqs c false fun l => (base + 512 * l) % 2 ^ 64).flatMap fun r => (List.range 8).map fun i => { r with va := r.va + 64 * i }

/-! ### Branches (R100 to R108) -/

/-- The branches, with what they check, whether they are taken, their target and the state that their own effect leaves. -/
inductive BranchForm : Instr → Ctl → State → Bool → Nat → State → Prop
  | br (c : Ctl) (imm : BitVec 27) (s s2 : State) : s.checkTarget (s.cur.target imm) = .ok s2 → BranchForm (.br c imm) c s (s.cur.passes c) (s.cur.target imm) s2
  | jmp (c : Ctl) (a : Src) (s s2 : State) : (s.cur.uniA c a).toNat < 2 ^ 32 → s.checkTarget (s.cur.uniA c a).toNat = .ok s2 →
      BranchForm (.jmp c a) c s (s.cur.passes c) (s.cur.uniA c a).toNat s2
  | brcNone (c : Ctl) (imm : BitVec 27) (s s2 : State) : s.checkTarget (s.cur.target imm) = .ok s2 → s.cur.me.mask &&& s.cur.guardLanes c = 0 →
      BranchForm (.brc c imm) c s false (s.cur.target imm) s2
  | brcAll (c : Ctl) (imm : BitVec 27) (s s2 : State) : s.checkTarget (s.cur.target imm) = .ok s2 →
      s.cur.me.mask &&& s.cur.guardLanes c = s.cur.me.mask → s.cur.me.mask ≠ 0 → BranchForm (.brc c imm) c s true (s.cur.target imm) s2
  | callNone (c : Ctl) (imm : BitVec 27) (s s2 : State) : s.checkTarget (s.cur.target imm) = .ok s2 → s.cur.passes c = false →
      BranchForm (.call c imm) c s false (s.cur.target imm) s2
  | call (c : Ctl) (imm : BitVec 27) (s s2 : State) : s.checkTarget (s.cur.target imm) = .ok s2 → s.cur.passes c = true →
      s2.cur.divTouched = false → s.cur.stack.length < 256 →
      BranchForm (.call c imm) c s true (s.cur.target imm) (s2.setCur { s2.cur with
        stack := { wait := false, parent := s.cur.me.parent, mask := 0, reconv := s.cur.me.mask,
                   pc := (let next := s.cur.me.pc + BitVec.ofNat 32 c.units; if next = s.cur.me.blk.bend ∧ next.toNat % 2 = 1 then next + 1 else next) }
                 :: s2.cur.stack })
  | retNone (c : Ctl) (s : State) : s.cur.passes c = false → BranchForm (.ret c) c s false 0 s
  | ret (c : Ctl) (s s2 : State) (e : DivEnt) (young old : List DivEnt) : s.cur.passes c = true → s.cur.divTouched = false →
      s.cur.stack = young ++ e :: old → e.isFrame = true → e.parent = s.cur.me.parent → e.reconv &&& s.cur.me.mask ≠ 0 →
      (∀ f ∈ young, ¬(f.isFrame = true ∧ f.parent = s.cur.me.parent ∧ f.reconv &&& s.cur.me.mask ≠ 0)) → s.checkTarget e.pc.toNat = .ok s2 →
      BranchForm (.ret c) c s true e.pc.toNat (s2.setCur { s2.cur with stack := young ++ old })

/-- The join entry of split `n` in a stack, if there is one: its target, and the stack without it (R101, R105). -/
inductive JoinOf (n : BitVec 8) : List DivEnt → Option Word32 → List DivEnt → Prop
  | none (st : List DivEnt) : (∀ e ∈ st, ¬(e.isJoin = true ∧ e.parent = n)) → JoinOf n st none st
  | some (young : List DivEnt) (e : DivEnt) (old : List DivEnt) : e.isJoin = true → e.parent = n →
      (∀ f ∈ young, ¬(f.isJoin = true ∧ f.parent = n)) → JoinOf n (young ++ e :: old) (some e.reconv) (young ++ old)

/-- Split `n` is in use, and its parent is no split that could end with it (R105). -/
def outerSplit (g : Group) (n up : BitVec 8) : Prop :=
  n ≠ 0 ∧ tget g.split n.toNat {} = { valid := true, parent := up } ∧ (up = 0 ∨ (tget g.split up.toNat {}).valid = false)

/-- The split table with split `n` given back (R105). -/
def splitGone (g : Group) (n up : BitVec 8) : Vector SplitEnt 256 := tset g.split n.toNat { valid := false, parent := up }

/-- A unit offset that is no header: odd, in the file's header, or past the code (R53). -/
def offHeader (s : State) (t : Nat) : Prop := t % 2 = 1 ∨ t < 16 ∨ s.cur.codeUnits ≤ t

/-- A unit that can be fetched and is no header (R53). -/
def notHeader (s : State) (t : Nat) : Prop := ¬offHeader s t ∧ ∃ s2 u, s.fetchUnit t = .ok (s2, u) ∧ unitKind u ≠ 2

/-- The branches with an offset (R100). -/
inductive OffsetForm : Instr → Ctl → BitVec 27 → Prop
  | br (c : Ctl) (imm : BitVec 27) : OffsetForm (.br c imm) c imm
  | brc (c : Ctl) (imm : BitVec 27) : OffsetForm (.brc c imm) c imm
  | call (c : Ctl) (imm : BitVec 27) : OffsetForm (.call c imm) c imm

/-- A `brc` whose lanes disagree, and its reconvergence target (R103). -/
def disagrees (g : Group) (c : Ctl) : Prop := g.me.mask &&& g.guardLanes c ≠ 0 ∧ g.me.mask &&& g.guardLanes c ≠ g.me.mask
def reconvOf (g : Group) : Nat := let t : Int := (g.me.blk.hdr.toNat : Int) + g.me.blk.rc.toInt; if t < 0 then 1 else t.toNat

/-- Why a handle does not serve as a tile of a kind: it is free or being freed, its allocation failed, or it is of another kind (R176). -/
inductive Unfit (t : Handle) (kind : TKind) : Cause → Prop
  | free : t.prog = none → t.st = .free ∨ t.st = .freeing → Unfit t kind .tileKind
  | kind : t.prog = none → t.st = .allocated → t.kind ≠ kind → Unfit t kind .tileKind
  | failed : t.prog = none → t.st = .failed → Unfit t kind .tileBounds

/-- Why a handle name finds no tile of a kind: the handle of the group's own workgroup, or of another one of its gang, which must exist and, but for a
barrier, lie at level `.k` (R162, R163, R176). -/
inductive NoTile (s : State) (h : Nat) (kind : TKind) : Option (BitVec 2) → Cause → Prop
  | own (cause : Cause) : Unfit (s.handle s.cur.wg h) kind cause → NoTile s h kind none cause
  | far (n : BitVec 2) : s.cur.gangN ≤ n.toNat → NoTile s h kind (some n) .tileBounds
  | gone (n : BitVec 2) : n.toNat < s.cur.gangN → s.peerWg s.cur n.toNat = none → NoTile s h kind (some n) .tileKind
  | peer (n : BitVec 2) (k : Nat) (cause : Cause) : n.toNat < s.cur.gangN → s.peerWg s.cur n.toNat = some k → Unfit (s.handle k h) kind cause →
      NoTile s h kind (some n) cause
  | level (n : BitVec 2) (k : Nat) : n.toNat < s.cur.gangN → s.peerWg s.cur n.toNat = some k → tileUsable (s.handle k h) kind →
      (s.handle k h).clus = false → kind ≠ .barrier → NoTile s h kind (some n) .tileKind

/-- The tile instructions whose active lanes name one tile, with its register, PEER and kind (R163, R156, R290, R291). -/
inductive LaneTileForm : Instr → Ctl → BitVec 8 → Option (BitVec 2) → TKind → Option Path → Prop
  | ldt (c : Ctl) (o : TileOp) : LaneTileForm (.ldt c o) c o.h o.peer .data (some .load)
  | stt (c : Ctl) (o : TileOp) : LaneTileForm (.stt c o) c o.h o.peer .data (some .store)
  | append (c : Ctl) (o : Append) : LaneTileForm (.append c o) c o.h none .data (some .load)
  | ringPush (c : Ctl) (o : RingPush) : LaneTileForm (.ringPush c o) c o.h o.peer .ring none
  | ringPop (c : Ctl) (o : RingPop) : LaneTileForm (.ringPop c o) c o.h o.peer .ring none

/-- Tile loads and stores, and their paths (R163). -/
inductive TileAccessForm : Instr → Ctl → TileOp → Path → Prop
  | ldt (c : Ctl) (o : TileOp) : TileAccessForm (.ldt c o) c o .load
  | stt (c : Ctl) (o : TileOp) : TileAccessForm (.stt c o) c o .store

/-- The instructions that need a barrier which is armed or broken; the tests act for their active lanes (R193 to R195). -/
inductive BarrierForm : Instr → Ctl → BarRef → Bool → Prop
  | tbarArv (c : Ctl) (b : BarRef) : BarrierForm (.tbarArv c b) c b false
  | tbarExp (c : Ctl) (o : BarB) : BarrierForm (.tbarExp c o) c o.bar false
  | tbarExpArv (c : Ctl) (o : BarB) : BarrierForm (.tbarExpArv c o) c o.bar false
  | tbarInval (c : Ctl) (b : BarRef) : BarrierForm (.tbarInval c b) c b false
  | tbarTestPh (c : Ctl) (o : BarTest) : BarrierForm (.tbarTestPh c o) c o.bar true
  | tbarTestBrk (c : Ctl) (o : BarBrk) : BarrierForm (.tbarTestBrk c o) c o.bar true

/-- A name of a tile barrier: its register and its PEER (R180). -/
inductive TileBar : BarRef → BitVec 8 → Option (BitVec 2) → Prop
  | tile (h : BitVec 8) : TileBar (.tile h) h none
  | peer (h : BitVec 8) (n : BitVec 2) : TileBar (.peer h n) h (some n)

/-- The instructions with a scope, and the bit of the function's policy that permits `.s` (R303). -/
inductive ScopedForm : Instr → Ctl → Scope → Nat → Prop
  | lda (c : Ctl) (o : ScopedOp) : ScopedForm (.lda c o) c o.scope 0
  | strl (c : Ctl) (o : ScopedOp) : ScopedForm (.strl c o) c o.scope 1
  | atom (c : Ctl) (o : Atom) : ScopedForm (.atom c o) c o.scope 3
  | apost (c : Ctl) (o : APost) : ScopedForm (.apost c o) c o.scope 3
  | ratom (c : Ctl) (o : RAtom) : ScopedForm (.ratom c o) c .s 4

/-- The copies (R182). -/
inductive IsCopy : Instr → Ctl → Prop
  | cpyIn (c : Ctl) (o : Cpy) : IsCopy (.cpyIn c o) c
  | cpyOut (c : Ctl) (o : Cpy) : IsCopy (.cpyOut c o) c
  | cpyWin (c : Ctl) (o : Cpy) : IsCopy (.cpyWin c o) c
  | cpyMc (c : Ctl) (o : CpyMc) : IsCopy (.cpyMc c o) c

/-- The causes that instructions raise at their own unit by the state of their group, of a tile or of a barrier, or by the function's policy (R53, R102,
R103, R108, R156, R163, R175 to R177, R182, R192 to R195, R203, R212, R290, R303). `s2` is the state in which the branch's target has been fetched. -/
inductive Raises : Instr → Ctl → State → Cause → Nat → Prop
  | target (i : Instr) (c : Ctl) (imm : BitVec 27) (s : State) : OffsetForm i c imm → offHeader s (s.cur.target imm) ∨ notHeader s (s.cur.target imm) →
      Raises i c s .badTarget 0
  | jmp (c : Ctl) (a : Src) (s : State) : 2 ^ 32 ≤ (s.cur.uniA c a).toNat ∨ offHeader s (s.cur.uniA c a).toNat ∨ notHeader s (s.cur.uniA c a).toNat →
      Raises (.jmp c a) c s .badTarget 0
  | ret (c : Ctl) (s : State) : s.cur.passes c = true → s.cur.divTouched = false →
      (∀ e ∈ s.cur.stack, ¬(e.isFrame = true ∧ e.parent = s.cur.me.parent ∧ e.reconv &&& s.cur.me.mask ≠ 0)) → Raises (.ret c) c s .badTarget 0
  | reconv (c : Ctl) (imm : BitVec 27) (s s2 : State) : s.checkTarget (s.cur.target imm) = .ok s2 → disagrees s2.cur c → s2.cur.me.blk.rc ≠ 0 →
      offHeader s2 (reconvOf s2.cur) ∨ notHeader s2 (reconvOf s2.cur) → Raises (.brc c imm) c s .badTarget 0
  | split (c : Ctl) (imm : BitVec 27) (s s2 s3 : State) : s.checkTarget (s.cur.target imm) = .ok s2 → disagrees s2.cur c →
      (if s2.cur.me.blk.rc = 0 then s3 = s2 else s2.checkTarget (reconvOf s2.cur) = .ok s3) → s2.cur.divTouched = false →
      (∀ n, 0 < n → n < 256 → (tget s2.cur.split n {}).valid = true) ∨
        256 < s2.cur.stack.length + (if s2.cur.me.reconv = noTarget then 0 else 1) + (if (s2.cur.slot (!s2.cur.sel1)).st = .empty then 0 else 1) →
      Raises (.brc c imm) c s .divergeDepth 0
  | call (c : Ctl) (imm : BitVec 27) (s s2 : State) : s.checkTarget (s.cur.target imm) = .ok s2 → s2.cur.passes c = true → s2.cur.divTouched = false →
      256 ≤ s2.cur.stack.length → Raises (.call c imm) c s .divergeDepth 0
  | mxreq (c : Ctl) (d : BitVec 8) (s : State) : s.cur.passes c = true → (s.cur.accName (s.cur.rD c d)).bound = true → Raises (.mxreq c d) c s .mxReserve 0
  | mxrel (c : Ctl) (d : BitVec 8) (s : State) : s.cur.passes c = true → (s.cur.accName (s.cur.rD c d)).bound = false → Raises (.mxrel c d) c s .mxReserve 0
  | mxzero (c : Ctl) (d : BitVec 8) (s : State) : s.cur.passes c = true → s.pathFree .mx = .ok () → (s.cur.accName (s.cur.rD c d)).bound = false →
      Raises (.mxzero c d) c s .mxReserve 0
  | mxmma (c : Ctl) (o : MxMma) (s : State) : s.cur.passes c = true → s.pathFree .mx = .ok () → (s.cur.accName (s.cur.rD c o.d)).bound = false →
      Raises (.mxmma c o) c s .mxReserve 0
  | mxdrn (c : Ctl) (o : MxDrn) (s : State) : s.cur.active c ≠ 0 → s.pathFree .mx = .ok () →
      (let a := s.cur.accName (idxReg c.idxA o.a s.cur.x); a.bound = false ∨ 64 ≤ a.cur) → Raises (.mxdrn c o) c s .mxReserve 0
  | laneTile (i : Instr) (c : Ctl) (h : BitVec 8) (peer : Option (BitVec 2)) (kind : TKind) (p : Option Path) (s : State) (cause : Cause) :
      LaneTileForm i c h peer kind p → s.cur.active c ≠ 0 → (∀ q, p = some q → s.pathFree q = .ok ()) → NoTile s (s.cur.rA c h) kind peer cause →
      Raises i c s cause 0
  | bounds (i : Instr) (c : Ctl) (o : TileOp) (p : Path) (s : State) (wg : Nat) (t : Handle) (l : Nat) : TileAccessForm i c o p → s.cur.active c ≠ 0 →
      s.pathFree p = .ok () → s.tileNamed (s.cur.rA c o.h) o.peer .data = .ok (wg, t) → lane (s.cur.active c) l = true → l < 32 →
      t.size < s.cur.tileOff c o.b o.off l + tyBytes o.ty * o.cnt.num →
      (∀ k < l, lane (s.cur.active c) k = true → s.cur.tileOff c o.b o.off k + tyBytes o.ty * o.cnt.num ≤ t.size) →
      Raises i c s .tileBounds (s.cur.tileOff c o.b o.off l)
  | tbarTile (i : Instr) (c : Ctl) (b : BarRef) (lanes : Bool) (h : BitVec 8) (peer : Option (BitVec 2)) (s : State) (cause : Cause) :
      BarrierForm i c b lanes → TileBar b h peer → (if lanes then s.cur.active c ≠ 0 else s.cur.passes c = true) → NoTile s (s.cur.rA c h) .barrier peer cause →
      Raises i c s cause 0
  | unarmed (i : Instr) (c : Ctl) (b : BarRef) (lanes : Bool) (s s2 : State) (l : BarLoc) : BarrierForm i c b lanes →
      (if lanes then s.cur.active c ≠ 0 else s.cur.passes c = true) → s.barAt c b = .ok (s2, l) → (s2.readBar l).unarmed = true → Raises i c s .barrierState 0
  | waitUnarmed (c : Ctl) (o : BarPar) (s s2 : State) (l : BarLoc) : s.cur.passes c = true → s.cur.me.tw = none → s.barAt c o.bar = .ok (s2, l) →
      (s2.readBar l).unarmed = true → Raises (.tbarWait c o) c s .barrierState 0
  | init (c : Ctl) (o : BarB) (s s2 : State) (l : BarLoc) : s.cur.passes c = true → s.barAt c o.bar = .ok (s2, l) →
      (s2.cur.uniB c o.b).toNat = 0 ∨ 2 ^ 32 ≤ (s2.cur.uniB c o.b).toNat ∨ (s2.readBar l).armed = true → Raises (.tbarInit c o) c s .barrierState 0
  | talloc (c : Ctl) (o : TAlloc) (s : State) : s.cur.passes c = true →
      (let t := s.handle s.cur.wg (s.cur.rD c o.h); t.st = .allocated ∨ t.st = .freeing ∨ t.prog.isSome = true) → Raises (.talloc c o) c s .tileKind 0
  | shape (c : Ctl) (o : TAlloc) (s : State) : s.cur.passes c = true →
      (let t := s.handle s.cur.wg (s.cur.rD c o.h); (t.st = .free ∨ t.st = .failed) ∧ t.prog = none) → shapeOk o.kind (s.cur.uniA c o.a) = false →
      Raises (.talloc c o) c s .tileBounds 0
  | tfree (c : Ctl) (h : BitVec 8) (s : State) : s.cur.passes c = true →
      (let t := s.handle s.cur.wg (s.cur.rA c h); t.prog = none ∧ (t.st = .free ∨ t.st = .freeing)) → Raises (.tfree c h) c s .tileKind 0
  | ringFull (c : Ctl) (o : RingPush) (s : State) (k : Nat) (t : Handle) : s.cur.active c ≠ 0 → s.tileNamed (s.cur.rA c o.h) o.peer .ring = .ok (k, t) →
      t.rows < (lanesOf (s.cur.active c)).length → Raises (.ringPush c o) c s .tileBounds 0
  | scope (i : Instr) (c : Ctl) (sc : Scope) (bit : Nat) (s : State) : ScopedForm i c sc bit → s.cur.active c ≠ 0 → sc = .s →
      (s.vf s.cur.vf).spol.getLsbD bit = false → Raises i c s .scopeDenied 0
  | fence (c : Ctl) (o : Fence) (s : State) : s.cur.passes c = true → o.scope = .s → (s.vf s.cur.vf).spol.getLsbD 2 = false →
      Raises (.fence c o) c s .scopeDenied 0
  | rights (i : Instr) (c : Ctl) (s : State) : IsCopy i c → s.cur.passes c = true → s.pathFree .copy = .ok () →
      s.cur.gid ≠ s.cur.producer ∨ s.cur.producer = 0xFF → Raises i c s .copyRights 0

/-- The instructions whose accesses of global memory are accepted together, with their path and what acceptance answers (R124, R160, R162, R164, R169). -/
inductive Accesses : Instr → Ctl → State → Path → M (State × List LaneAcc) → Prop
  | ld (c : Ctl) (o : MemOp) (s : State) : Accesses (.ld c o) c s .load
      (s.accept s.cur.vf .read (tyBytes o.ty * o.cnt.num) true (s.cur.laneReqs c true (s.cur.globalVa c o.a o.b o.off)))
  | lda (c : Ctl) (o : ScopedOp) (s : State) : scopeAllows s c o.scope 0 → Accesses (.lda c o) c s .load
      (s.accept s.cur.vf .read (tyBytes o.ty) true (s.cur.laneReqs c true (s.cur.globalVa c o.a o.b o.off)))
  | sld (c : Ctl) (o : ULoad) (s : State) : s.cur.passes c = true → Accesses (.sld c o) c s .load
      (s.accept s.cur.vf .read (tyBytes o.ty) true [{ lane := 0, va := s.cur.uniVa c o.a o.off }])
  | st (c : Ctl) (o : MemOp) (s : State) : Accesses (.st c o) c s .store
      (s.accept s.cur.vf .write (tyBytes o.ty * o.cnt.num) false (s.cur.laneReqs c false (s.cur.globalVa c o.a o.b o.off)))
  | strl (c : Ctl) (o : ScopedOp) (s : State) : scopeAllows s c o.scope 1 → Accesses (.strl c o) c s .store
      (s.accept s.cur.vf .write (tyBytes o.ty) false (s.cur.laneReqs c false (s.cur.globalVa c o.a o.b o.off)))
  | sst (c : Ctl) (o : UStore) (s : State) : s.cur.passes c = true → Accesses (.sst c o) c s .store
      (s.accept s.cur.vf .write (tyBytes o.ty) false [{ lane := 0, va := s.cur.uniVa c o.a o.off }])
  | atom (c : Ctl) (o : Atom) (s : State) : scopeAllows s c o.scope 3 → Accesses (.atom c o) c s .load
      (s.accept s.cur.vf .atomic (tyBytes o.ty) true (s.cur.laneReqs c false fun l => (s.cur.srcA c o.a l).toNat))
  | apost (c : Ctl) (o : APost) (s : State) : scopeAllows s c o.scope 3 → Accesses (.apost c o) c s .store
      (s.accept s.cur.vf .atomic (tyBytes o.ty) false (s.cur.laneReqs c false fun l => (s.cur.srcA c o.a l).toNat))
  | rpoll (c : Ctl) (o : UUn) (s : State) : s.cur.active c = 0 ∨ (s.cur.uniA c o.a).toNat % 16 = 0 → Accesses (.rpoll c o) c s .load
      (s.accept s.cur.vf .read 16 true (s.cur.laneReqs c false fun l => ((s.cur.uniA c o.a).toNat + 16 * l) % 2 ^ 64))

/-- The instructions that read a tile, with the first bytes that they find poisoned: of the lowest such lane of `ldt`, and the cursor of `append` (R156, R163,
R397). The address that the trap names is 0 for the cursor. -/
inductive ReadsPoison : Instr → Ctl → State → Nat → Prop
  | ldt (c : Ctl) (o : TileOp) (s : State) (wg : Nat) (t : Handle) (l : Nat) : s.cur.active c ≠ 0 → s.pathFree .load = .ok () →
      s.tileNamed (s.cur.rA c o.h) o.peer .data = .ok (wg, t) → lane (s.cur.active c) l = true → l < 32 →
      (∀ k < 32, lane (s.cur.active c) k = true → s.cur.tileOff c o.b o.off k + tyBytes o.ty * o.cnt.num ≤ t.size ∧
        s.cur.tileOff c o.b o.off k % (tyBytes o.ty * o.cnt.num) = 0) →
      t.poisoned (s.cur.tileOff c o.b o.off l) (tyBytes o.ty * o.cnt.num) = true →
      (∀ k < l, lane (s.cur.active c) k = true → t.poisoned (s.cur.tileOff c o.b o.off k) (tyBytes o.ty * o.cnt.num) = false) →
      ReadsPoison (.ldt c o) c s (s.cur.tileOff c o.b o.off l)
  | append (c : Ctl) (o : Append) (s : State) (wg : Nat) (t : Handle) : s.cur.active c ≠ 0 → s.pathFree .load = .ok () →
      s.tileNamed (s.cur.rA c o.h) none .data = .ok (wg, t) → t.poisoned 0 8 = true → ReadsPoison (.append c o) c s 0

/-- The instructions whose results are registers alone, each with its control fields (R121 to R157). -/
inductive RegisterForm : Instr → Ctl → Prop
  | int (i : Instr) (c : Ctl) (d : BitVec 8) (t : Ty) (sat : Bool) (x : Group → Nat → Nat → Int) : IntResult i c d t sat x → RegisterForm i c
  | bits (i : Instr) (c : Ctl) (d : BitVec 8) (t : Ty) (b : Group → Nat → Nat → Nat → Bool) : BitResult i c d t b → RegisterForm i c
  | popc (c : Ctl) (o : VUn) : RegisterForm (.popc c o) c
  | clz (c : Ctl) (o : VUn) : RegisterForm (.clz c o) c
  | uniExact (i : Instr) (c : Ctl) (d : BitVec 8) (t : Ty) (sat : Bool) (x : Group → Int) : UniExact i c d t sat x → RegisterForm i c
  | uniBits (i : Instr) (c : Ctl) (d : BitVec 8) (b : Group → Nat → Bool) : UniBits i c d b → RegisterForm i c
  | pred (i : Instr) (c : Ctl) (d : BitVec 8) (b : Group → Nat → Bool) : PredResult i c d b → RegisterForm i c
  | voteBal (c : Ctl) (o : DA) : RegisterForm (.voteBal c o) c
  | fp (i : Instr) (c : Ctl) (d : BitVec 8) (t : Ty) (f : Group → Nat → Nat → Flagged Nat) : FpResult i c d t f → RegisterForm i c
  | fsetp (c : Ctl) (o : FSetp) : RegisterForm (.fsetp c o) c
  | cvt (c : Ctl) (o : Cvt) : RegisterForm (.cvt c o) c
  | sfu (i : Instr) (c : Ctl) (o : F1) (f : Sfu) : SfuResult i c o f → RegisterForm i c
  | move (i : Instr) (c : Ctl) (d : BitVec 8) (t : Ty) (b : Group → Nat → Nat → Nat → Bool) : MoveResult i c d t b → RegisterForm i c
  | red (c : Ctl) (o : Red) : RegisterForm (.red c o) c
  | scan (c : Ctl) (o : Scan) : RegisterForm (.scan c o) c

/-- The loads and stores of global memory whose accesses are accepted, from `s`, and the state in which the operation has been posted: its counter is raised, and
a load awaits its registers (R124, R160, R170). -/
inductive MemoryIssue : Instr → Ctl → State → State → Prop
  | ld (c : Ctl) (o : MemOp) (s s2 : State) (accs : List LaneAcc) :
      s.accept s.cur.vf .read (tyBytes o.ty * o.cnt.num) true (s.cur.laneReqs c true (s.cur.globalVa c o.a o.b o.off)) = .ok (s2, accs) →
      MemoryIssue (.ld c o) c s (s2.setCur ((s.cur.addOp s.steps (some .load)
        (.load (if o.cp = .ev then accs.map fun a => { a with ev := true } else accs) (tyBytes o.ty) o.cnt.num o.ty.isI (o.cp = .l2) none)).awaiting
          .v (s.cur.rD c o.d) o.cnt.num (s.cur.written c)))
  | lda (c : Ctl) (o : ScopedOp) (s s2 : State) (accs : List LaneAcc) : scopeAllows s c o.scope 0 →
      s.accept s.cur.vf .read (tyBytes o.ty) true (s.cur.laneReqs c true (s.cur.globalVa c o.a o.b o.off)) = .ok (s2, accs) →
      MemoryIssue (.lda c o) c s (s2.setCur ((s.cur.addOp s.steps (some .load)
        (.load accs (tyBytes o.ty) 1 o.ty.isI false (some o.scope))).awaiting .v (s.cur.rD c o.d) 1 (s.cur.written c)))
  | sld (c : Ctl) (o : ULoad) (s s2 : State) (accs : List LaneAcc) : s.cur.passes c = true →
      s.accept s.cur.vf .read (tyBytes o.ty) true [{ lane := 0, va := s.cur.uniVa c o.a o.off }] = .ok (s2, accs) →
      MemoryIssue (.sld c o) c s (s2.setCur ((s.cur.addOp s.steps (some .load)
        (.load accs (tyBytes o.ty) 1 o.ty.isI false none)).awaiting .s (s.cur.rD c o.d) 1 allLanes))
  | st (c : Ctl) (o : MemOp) (s s2 : State) (accs : List LaneAcc) :
      s.accept s.cur.vf .write (tyBytes o.ty * o.cnt.num) false (s.cur.laneReqs c false (s.cur.globalVa c o.a o.b o.off)) = .ok (s2, accs) →
      MemoryIssue (.st c o) c s (s2.setCur (s.cur.addOp s.steps (some .store)
        (.store (if o.cp = .ev then accs.map fun a => { a with ev := true } else accs) (accs.map fun a => s.cur.storeData c o.d o.ty o.cnt.num a.lane) none)))
  | strl (c : Ctl) (o : ScopedOp) (s s2 : State) (accs : List LaneAcc) : scopeAllows s c o.scope 1 →
      s.accept s.cur.vf .write (tyBytes o.ty) false (s.cur.laneReqs c false (s.cur.globalVa c o.a o.b o.off)) = .ok (s2, accs) →
      MemoryIssue (.strl c o) c s (s2.setCur (s.cur.addOp s.steps (some .store)
        (.store accs (accs.map fun a => s.cur.storeData c o.d o.ty 1 a.lane) (some o.scope))))
  | sst (c : Ctl) (o : UStore) (s s2 : State) (accs : List LaneAcc) :
      s.accept s.cur.vf .write (tyBytes o.ty) false (if s.cur.passes c then [{ lane := 0, va := s.cur.uniVa c o.a o.off }] else []) = .ok (s2, accs) →
      MemoryIssue (.sst c o) c s (s2.setCur (s.cur.addOp s.steps (some .store)
        (.store accs (accs.map fun _ => bytesLE (tyBytes o.ty) (s.cur.uniB c o.b).toNat) none)))

/-- Its path (R32). -/
def memoryPath : Instr → Path
  | .st .. | .strl .. | .sst .. => .store
  | _ => .load

/-- The trap forms that return to where their trap record says (R110). -/
inductive ReturnForm : Instr → Ctl → State → State → Word32 → EntryMode → Prop
  | trapRet (c : Ctl) (s : State) : ReturnForm (.trapRet c) c s s s.cur.trappc s.cur.trapBlk.entry
  | trapSkip (c : Ctl) (s s2 : State) (pc : Word32) (e : EntryMode) : s.skipTo s.cur.trappc s.cur.trapBlk = .ok (s2, pc, e) →
      ReturnForm (.trapSkip c) c s s2 pc e

end Sys2Proof.Machine
end

