-- ==== Sys2Proof/Certificates/Slice0/Obligations.lean ====
section
/-!
DEFINITION. The statements for the provers.
-/
set_option Elab.async false
open Sys2Proof Sys2Proof.Machine

/-! ## Instructions on registers -/

/-- R131, R136: vector integer arithmetic delivers the exact result of each sub-element fitted to the type, wrapping or saturating by SAT with SI, in the
lanes that the guard, the mask predicate and the helper rule pick, and zero in those of the zero clause. -/
def Obligations.VectorIntegerArithmetic : Prop :=
  ∀ (i : Instr) (c : Ctl) (d : BitVec 8) (t : Ty) (sat : Bool) (x : Group → Nat → Nat → Int) (s s1 : State),
    IntResult i c d t sat x → Ready i c s s1 →
    ∃ u, exec i s = .next u ∧
      After i c s1.cur.x (s1.withFlags (siFlag s1.cur c t sat (x s1.cur))) u (laneDest s1.cur c .v (s1.cur.rD c d)) ∧
      ∀ l < 32, (takes s1.cur c l → ∀ k < 64 / t.width, elem t (u.cur.seen .v (s1.cur.rD c d) l) k = fit t sat (x s1.cur l k)) ∧
        (lane (s1.cur.zeroLanes c) l = true → u.cur.seen .v (s1.cur.rD c d) l = 0)

/-- R132, R133, R135, R137: shifts, fields, bit orders, permutations, logic, moves and selects deliver their result bit by bit.
R132: `popc` counts the 1 bits of each sub-element, and `clz` the 0 bits above its highest 1 bit. -/
def Obligations.VectorBits : Prop :=
  (∀ (i : Instr) (c : Ctl) (d : BitVec 8) (t : Ty) (b : Group → Nat → Nat → Nat → Bool) (s s1 : State),
    BitResult i c d t b → Ready i c s s1 →
    ∃ u, exec i s = .next u ∧ After i c s1.cur.x s1 u (laneDest s1.cur c .v (s1.cur.rD c d)) ∧
      ∀ l < 32, (takes s1.cur c l → ∀ k < 64 / t.width, ∀ j < t.width, bitAt t (u.cur.seen .v (s1.cur.rD c d) l) k j = b s1.cur l k j) ∧
        (lane (s1.cur.zeroLanes c) l = true → u.cur.seen .v (s1.cur.rD c d) l = 0)) ∧
  (∀ (c : Ctl) (o : VUn) (s s1 : State),
    (Ready (.popc c o) c s s1 → ∃ u, exec (.popc c o) s = .next u ∧ After (.popc c o) c s1.cur.x s1 u (laneDest s1.cur c .v (s1.cur.rD c o.d)) ∧
      ∀ l < 32, (takes s1.cur c l → ∀ k < 64 / o.ty.width,
          bitsAt o.ty (u.cur.seen .v (s1.cur.rD c o.d) l) k = ((List.range o.ty.width).filter (bitAt o.ty (s1.cur.srcA c o.a l) k)).length) ∧
        (lane (s1.cur.zeroLanes c) l = true → u.cur.seen .v (s1.cur.rD c o.d) l = 0)) ∧
    (Ready (.clz c o) c s s1 → ∃ u, exec (.clz c o) s = .next u ∧ After (.clz c o) c s1.cur.x s1 u (laneDest s1.cur c .v (s1.cur.rD c o.d)) ∧
      ∀ l < 32, (takes s1.cur c l → ∀ k < 64 / o.ty.width, ∀ z, z = bitsAt o.ty (u.cur.seen .v (s1.cur.rD c o.d) l) k →
          z ≤ o.ty.width ∧ (∀ j < o.ty.width, o.ty.width ≤ j + z → bitAt o.ty (s1.cur.srcA c o.a l) k j = false) ∧
          (z < o.ty.width → bitAt o.ty (s1.cur.srcA c o.a l) k (o.ty.width - 1 - z) = true)) ∧
        (lane (s1.cur.zeroLanes c) l = true → u.cur.seen .v (s1.cur.rD c o.d) l = 0)))

/-- R121: uniform arithmetic delivers the exact result fitted to the type and extended to 64 bits, once for the group when some lane passes the guard.
R121, R122, R123: uniform logic, shifts, moves and selects deliver their result bit by bit, zero above a 32-bit type. -/
def Obligations.UniformResults : Prop :=
  (∀ (i : Instr) (c : Ctl) (d : BitVec 8) (t : Ty) (sat : Bool) (x : Group → Int) (s s1 : State), UniExact i c d t sat x → Ready i c s s1 →
    ∃ u, exec i s = .next u ∧
      After i c s1.cur.x (s1.withFlags (if s1.cur.passes c ∧ sat = true ∧ fit t true (x s1.cur) ≠ x s1.cur then 0x20 else 0)) u
        (uniDest s1.cur c (s1.cur.rD c d)) ∧
      (s1.cur.passes c = true → u.cur.readS (s1.cur.rD c d) = BitVec.ofInt 64 (fit t sat (x s1.cur)))) ∧
  (∀ (i : Instr) (c : Ctl) (d : BitVec 8) (b : Group → Nat → Bool) (s s1 : State), UniBits i c d b → Ready i c s s1 →
    ∃ u, exec i s = .next u ∧ After i c s1.cur.x s1 u (uniDest s1.cur c (s1.cur.rD c d)) ∧
      (s1.cur.passes c = true → ∀ j < 64, (u.cur.readS (s1.cur.rD c d)).getLsbD j = b s1.cur j))

/-- R122, R125, R126, R134, R142: predicate logic, votes and comparisons write their predicate lane by lane; p63 discards the write (R27).
R126: `vote.bal` writes the mask of contributing lanes whose source is 1, and nothing when no lane is active (R59). -/
def Obligations.PredicatesAndVotes : Prop :=
  (∀ (i : Instr) (c : Ctl) (d : BitVec 8) (b : Group → Nat → Bool) (s s1 : State), PredResult i c d b → Ready i c s s1 →
    ∃ u, exec i s = .next u ∧ After i c s1.cur.x s1 u (laneDest s1.cur c .p (s1.cur.rD c d)) ∧
      ∀ l < 32, u.cur.readP 63 l = true ∧ (s1.cur.rD c d ≠ 63 →
        (takes s1.cur c l → u.cur.readP (s1.cur.rD c d) l = b s1.cur l) ∧
        (lane (s1.cur.zeroLanes c) l = true → u.cur.readP (s1.cur.rD c d) l = false))) ∧
  (∀ (c : Ctl) (o : DA) (s s1 : State), Ready (.voteBal c o) c s s1 →
    ∃ u, exec (.voteBal c o) s = .next u ∧
      After (.voteBal c o) c s1.cur.x s1 u (fun k n _ => k = .s && n = s1.cur.rD c o.d && s1.cur.active c != 0) ∧
      (s1.cur.active c ≠ 0 → ∀ j < 64, (u.cur.readS (s1.cur.rD c o.d)).getLsbD j =
        (decide (j < 32) && lane (s1.cur.active c) j && s1.cur.readP (s1.cur.rA c o.a.reg) j)))

/-- R138 to R140, R143: the short floating-point instructions deliver the number operations of the formats in each sub-element, under the control in
force at issue, and add the flags of their active lanes at issue (R35).
R141: `fsetp` compares one sub-element of each lane; a signalling NaN of an active lane raises IV.
R83 to R88, R139 to R143: what those operations are: the NaN of a NaN operand, the invalid sums and products, infinities, the signs of zeros, and the one
rounding of the exact result; `fmin` and `fmax` with −0 below +0; the classes of an encoding by its fields; `frnd` by its mode. -/
def Obligations.FloatResults : Prop :=
  (∀ (i : Instr) (c : Ctl) (d : BitVec 8) (t : Ty) (f : Group → Nat → Nat → Flagged Nat) (s s1 : State), FpResult i c d t f → Ready i c s s1 →
    ∃ u, exec i s = .next u ∧
      After i c s1.cur.x (s1.withFlags (raised s1.cur c (64 / t.width) fun l k => (f s1.cur l k).2)) u (laneDest s1.cur c .v (s1.cur.rD c d)) ∧
      ∀ l < 32, (takes s1.cur c l → ∀ k < 64 / t.width, bitsAt t (u.cur.seen .v (s1.cur.rD c d) l) k = (f s1.cur l k).1 % 2 ^ t.width) ∧
        (lane (s1.cur.zeroLanes c) l = true → u.cur.seen .v (s1.cur.rD c d) l = 0)) ∧
  (∀ (c : Ctl) (o : FSetp) (s s1 : State), Ready (.fsetp c o) c s s1 →
    ∃ u, exec (.fsetp c o) s = .next u ∧
      (let r (l : Nat) := fpSetp s1.cur.fctl o.ty o.cmp o.na o.nb (bitsAt o.ty (s1.cur.srcA c o.a l) o.sel.toNat) (bitsAt o.ty (s1.cur.srcB c o.uni o.b l) o.sel.toNat)
       After (.fsetp c o) c s1.cur.x (s1.withFlags (raised s1.cur c 1 fun l _ => (r l).2)) u (laneDest s1.cur c .p (s1.cur.rD c o.d)) ∧
       (s1.cur.rD c o.d ≠ 63 → ∀ l < 32, (takes s1.cur c l → u.cur.readP (s1.cur.rD c o.d) l = (r l).1) ∧
         (lane (s1.cur.zeroLanes c) l = true → u.cur.readP (s1.cur.rD c o.d) l = false)))) ∧
  (∀ (k : FCtl) (m : Rounding) (t : Ty) (na nb nc : Bool) (a b d : Nat), t ∈ fpTypes →
    (let f := fmtOf t
     let x := operand k t na a
     let y := operand k t nb b
     let z := operand k t nc d
     let iv := sigFlag t a ||| sigFlag t b
     (let r := fpAdd k m t na nb a b
      (x.isNan = true ∨ y.isNan = true → NanOf k t [x, y] r.1 ∧ r.2 = iv) ∧
      (∀ s, x = .inf s → y = .inf (!s) → r = (f.qnan, flIV)) ∧
      (∀ s, x = .inf s → y = .inf s ∨ (∃ u p, y = .num u p) → r = (f.infBits s, 0)) ∧
      (∀ s u q, x = .num u q → y = .inf s → r = (f.infBits s, 0)) ∧
      (∀ s q u p, x = .num s q → y = .num u p → r = sumOf k t m s u (signed s q + signed u p))) ∧
     (let r := fpMul k m t na nb a b
      (x.isNan = true ∨ y.isNan = true → NanOf k t [x, y] r.1 ∧ r.2 = iv) ∧
      (∀ s u, x = .inf s ∧ y = .num u 0 ∨ x = .num u 0 ∧ y = .inf s → r = (f.qnan, flIV)) ∧
      (∀ s u q, q ≠ 0 → x = .inf s ∧ (y = .inf u ∨ y = .num u q) ∨ x = .num u q ∧ y = .inf s → r = (f.infBits (s != u), 0)) ∧
      (∀ s q u p, x = .num s q → y = .num u p → r = roundVal t m (k.flushes t) false (s != u) (q * p))) ∧
     (let r := fpFma k m t na nb nc a b d
      let bad : Prop := ∃ s u, x = .inf s ∧ y = .num u 0 ∨ x = .num u 0 ∧ y = .inf s
      (bad → NanOf k t [x, y, z] r.1 ∧ r.2 = iv ||| sigFlag t d ||| flIV) ∧
      (¬bad → x.isNan = true ∨ y.isNan = true ∨ z.isNan = true → NanOf k t [x, y, z] r.1 ∧ r.2 = iv ||| sigFlag t d) ∧
      (∀ s u q, q ≠ 0 → x = .inf s ∧ (y = .inf u ∨ y = .num u q) ∨ x = .num u q ∧ y = .inf s → z.isNan = false →
        r = if z = .inf (!(s != u)) then (f.qnan, flIV) else (f.infBits (s != u), 0)) ∧
      (∀ s q u p w, x = .num s q → y = .num u p → z = .inf w → r = (f.infBits w, 0)) ∧
      (∀ s q u p w v, x = .num s q → y = .num u p → z = .num w v → r = sumOf k t m (s != u) w (signed (s != u) (q * p) + signed w v))) ∧
     (∀ isMax, (let r := fpMinMax k t isMax na nb a b
      r.2 = iv ∧ (x.isNan = true → y.isNan = true → NanOf k t [x, y] r.1) ∧
      (x.isNan = false ∨ y.isNan = false → r.1 < 2 ^ t.width ∧
        f.decode r.1 = if x.isNan then y else if y.isNan then x else if (if isMax then below0 x y else below0 y x) then y else x))) ∧
     (∀ cc, fpSetp k t cc na nb a b = (fpCondition (x.isNan || y.isNan) (below x y) (below y x) cc, iv)) ∧
     (let r := fpRound k m t na a
      (x.isNan = true → NanOf k t [x] r.1 ∧ r.2 = sigFlag t a) ∧
      (∀ s, x = .inf s → r = (f.infBits s, 0)) ∧
      (∀ s q, x = .num s q → r.1 < 2 ^ t.width ∧ ∃ h : Nat, Picks m s q h ∧ f.decode r.1 = .num s h ∧ r.2 = if (h : Rat) = q then 0 else flNX)))) ∧
  (∀ (t : Ty) (neg : Bool) (e n : Nat), t ∈ fpTypes → e ≤ (fmtOf t).emax → n < 2 ^ (fmtOf t).mbits →
    fpClass t ((fmtOf t).signBits neg + (e * 2 ^ (fmtOf t).mbits + n)) =
      if e = (fmtOf t).emax then (if n = 0 then (if neg then 2 else 9) else if n < 2 ^ ((fmtOf t).mbits - 1) then 0 else 1)
      else if e = 0 then (if n = 0 then (if neg then 5 else 6) else if neg then 4 else 7)
      else if neg then 3 else 8)

/-- R148 to R150: `cvt` converts the elements that `part` names, each to its own place, and keeps the other bits of a wider destination.
R144 to R147: the special functions deliver their result of each sub-element as a long-latency result, with its flags.
R76, R89 to R92: what a conversion delivers: integers that wrap or are clamped, floating-point values rounded to an integral value and clamped, one rounding
between formats, and the scale formats. That NANQ decides the sign of the E4M3 NaN, and that the mode acts on the conversions into the scale formats, is the
model's choice (log entries 84, 85).
R145, R146: the special inputs of the special functions; reciprocals, square roots and reciprocal square roots of every number, and the exact cases of `fexp2` and
`flog2`. (Of the others' irrational values no statement speaks.) -/
def Obligations.ConversionsAndFunctions : Prop :=
  (∀ (c : Ctl) (o : Cvt) (s s1 : State), Ready (.cvt c o) c s s1 →
    ∃ u, exec (.cvt c o) s = .next u ∧
      (let n := 64 / max o.src.width o.dst.width
       let src (k : Nat) := if o.src.width < o.dst.width then o.part.toNat * n + k else k
       let dst (k : Nat) := if o.dst.width < o.src.width then o.part.toNat * n + k else k
       let r (l k : Nat) := convert s1.cur.fctl (s1.cur.rmode c) o.sat o.src o.dst (bitsAt o.src (s1.cur.srcA c o.a l) (src k))
       After (.cvt c o) c s1.cur.x (s1.withFlags (raised s1.cur c n fun l k => (r l k).2)) u (laneDest s1.cur c .v (s1.cur.rD c o.d)) ∧
       ∀ l < 32, (takes s1.cur c l → (∀ k < n, bitsAt o.dst (u.cur.seen .v (s1.cur.rD c o.d) l) (dst k) = (r l k).1 % 2 ^ o.dst.width) ∧
           ∀ j < 64 / o.dst.width, (∀ k < n, j ≠ dst k) → bitsAt o.dst (u.cur.seen .v (s1.cur.rD c o.d) l) j = bitsAt o.dst (s1.cur.readV (s1.cur.rD c o.d) l) j) ∧
         (lane (s1.cur.zeroLanes c) l = true → u.cur.seen .v (s1.cur.rD c o.d) l = 0))) ∧
  (∀ (i : Instr) (c : Ctl) (o : F1) (f : Sfu) (s s1 : State), SfuResult i c o f → Ready i c s s1 →
    ∃ v : Lanes Word64,
      (let r (l k : Nat) := fpSfu f s1.cur.fctl (s1.cur.rmode c) o.ty o.na (bitsAt o.ty (s1.cur.srcA c o.a l) k)
       Completes i c s s1 (s1.setCur (s1.cur.addPend .v (s1.cur.rD c o.d) (s1.cur.written c) v true (raised s1.cur c (64 / o.ty.width) fun l k => (r l k).2)))
         noDest ∧
       ∀ l < 32, (takes s1.cur c l → ∀ k < 64 / o.ty.width, bitsAt o.ty (v.get l 0) k = (r l k).1 % 2 ^ o.ty.width) ∧
         (lane (s1.cur.zeroLanes c) l = true → v.get l 0 = 0))) ∧
  (∀ (k : FCtl) (m : Rounding) (sat : Bool) (s d : Ty) (a : Nat),
    (let f := fmtOf d
     let x := operand k s false a
     let n := fit s false (a : Int)
     let r := convert k m sat s d a
     (s.isInt = true → d.isInt = true → r = ((fit d sat n % 2 ^ d.width).toNat, if sat = true ∧ fit d true n ≠ n then flSI else 0)) ∧
     (s.isInt = true → d.isF = true → r = roundVal d m (k.flushes d) false (n < 0) |(n : Rat)|) ∧
     (s.isF = true → d.isInt = true →
       (x.isNan = true → r = (0, flIV)) ∧
       (∀ u, x = .inf u → r = (((if u then least d else greatest d) % 2 ^ d.width).toNat, flIV ||| flSI)) ∧
       (∀ u q, x = .num u q → ∃ h : Nat, Picks m u q h ∧ (let z : Int := if u then -h else h
         r = ((clampTo d z).1, (if (h : Rat) = q then 0 else flNX) ||| (clampTo d z).2)))) ∧
     (s ∈ ([.f64, .f32, .f16, .bf16, .e5m2, .e4m3, .e3m2, .e2m3, .e2m1] : List Ty) →
       d ∈ ([.f64, .f32, .f16, .bf16, .e5m2, .e4m3, .e3m2, .e2m3, .e2m1, .e5m3n] : List Ty) →
       (x.isNan = true → f.nan = true → NanOf k d [x] r.1 ∧ r.2 = if d = .e5m3n then flIV else sigFlag s a) ∧
       (x.isNan = true → f.nan = false → r = (0, flIV)) ∧
       (∀ u, x = .inf u → r = if d = .e5m3n ∧ u = true then (0xFF, flIV) else if f.inf = true ∧ sat = false then (f.infBits u, 0)
         else (f.signBits u + f.maxBits, flOF ||| flNX)) ∧
       (∀ u q, x = .num u q → r = if d = .e5m3n ∧ u = true ∧ q ≠ 0 then (0xFF, flIV) else roundVal d m (k.flushes d) sat u q)) ∧
     (s = .e8m0 ∨ s = .e5m3n → d = .f32 → a < 256 →
       (a = 0xFF → r = (0x7FC00000, 0)) ∧
       (a ≠ 0xFF → r = roundVal .f32 .rne k.ftzs false false (if s = .e8m0 then (2 : Rat) ^ ((a : Int) - 127) else (fmtOf .e5m3n).magOf a))) ∧
     (s = .f32 → d = .e8m0 →
       (x.isNan = true ∨ x = .inf true ∨ (∃ q, x = .num true q) ∨ x = .num false 0 → r = (0xFF, flIV)) ∧
       (x = .inf false → r = (0xFE, flOF ||| flNX)) ∧
       (∀ (q : Rat) (e : Int), x = .num false q → (2 : Rat) ^ e ≤ q → q < 2 ^ (e + 1) →
         (let up : Bool := match m with | .rz | .rdn => false | .rup => decide (q ≠ 2 ^ e) | .rne | .rna => decide (3 * 2 ^ e ≤ 2 * q)
          let h := if up then e + 1 else e
          (127 < h → r = (0xFE, flOF ||| flNX)) ∧ (h < -127 → r = (0, flUF ||| flNX)) ∧
          (-127 ≤ h → h ≤ 127 → r = ((h + 127).toNat, if (2 : Rat) ^ h = q then 0 else flNX))))))) ∧
  (∀ (k : FCtl) (m : Rounding) (t : Ty) (na : Bool) (a : Nat), t ∈ fpTypes →
    (let f := fmtOf t
     let x := operand k t na a
     let one := f.bias * 2 ^ f.mbits
     let r (g : Sfu) := fpSfu g k m t na a
     let e (g : Elem) := fpSfu (.elem g) k m t na a
     (x.isNan = true → ∀ g, NanOf k t [x] (r g).1 ∧ (r g).2 = sigFlag t a) ∧
     (∀ u, x = .num u 0 → r .rcp = (f.infBits u, flDZ) ∧ r .rsq = (f.infBits u, flDZ) ∧ r .sqrt = (f.signBits u, 0) ∧ e .exp2 = (one, 0) ∧
       e .log2 = (f.infBits true, flDZ) ∧ e .sin = (f.signBits u, 0) ∧ e .cos = (one, 0)) ∧
     (x = .inf false → r .rcp = (0, 0) ∧ r .rsq = (0, 0) ∧ r .sqrt = (f.infBits false, 0) ∧ e .exp2 = (f.infBits false, 0) ∧ e .log2 = (f.infBits false, 0)) ∧
     (x = .inf true → r .rcp = (f.signBits true, 0) ∧ e .exp2 = (0, 0)) ∧
     (∀ u, x = .inf u → e .sin = (f.qnan, flIV) ∧ e .cos = (f.qnan, flIV)) ∧
     (x = .inf true ∨ (∃ q, q ≠ 0 ∧ x = .num true q) → r .rsq = (f.qnan, flIV) ∧ r .sqrt = (f.qnan, flIV) ∧ e .log2 = (f.qnan, flIV)) ∧
     (∀ u q, x = .num u q → q ≠ 0 → r .rcp = roundVal t .rne (k.flushes t) false u (1 / q)) ∧
     (∀ q, x = .num false q → q ≠ 0 →
       (∀ p : Rat, 0 < p → p * p = q → r .sqrt = roundVal t m (k.flushes t) false false p) ∧
       (∀ p : Rat, 0 < p → p * p * q = 1 → r .rsq = roundVal t .rne (k.flushes t) false false p) ∧
       ((∀ p : Rat, p * p ≠ q) → ∀ b < f.maxBits, f.magOf b * f.magOf b < q → q < f.magOf (b + 1) * f.magOf (b + 1) →
         (let mid := f.magOf b + f.magOf (b + 1)
          r .sqrt = ((if (match m with | .rz | .rdn => false | .rup => true | .rne | .rna => decide (mid * mid < 4 * q)) = true then b + 1 else b), flNX))) ∧
       ((∀ p : Rat, p * p * q ≠ 1) → ∀ b < f.maxBits, f.magOf b * f.magOf b * q < 1 → 1 < f.magOf (b + 1) * f.magOf (b + 1) * q →
         (let mid := f.magOf b + f.magOf (b + 1)
          r .rsq = ((if mid * mid * q < 4 then b + 1 else b), flNX))) ∧
       (∀ i : Int, (2 : Rat) ^ i = q → e .log2 = roundVal t .rne (k.flushes t) false (i < 0) |(i : Rat)|)) ∧
     (∀ (u : Bool) (q : Rat) (i : Int), x = .num u q → q ≠ 0 → signed u q = i →
       (i.natAbs < 5000 → e .exp2 = roundVal t .rne (k.flushes t) false false (2 ^ i)) ∧
       (t ≠ .f64 → 5000 ≤ i → e .exp2 = (f.infBits false, flOF ||| flNX)) ∧
       (t ≠ .f64 → i ≤ -5000 → e .exp2 = (0, flUF ||| flNX)))))

/-- R152, R153, R157: `shfl`, `qswp` and `match` deliver long-latency results, each bit taken from the lane that the rule names. -/
def Obligations.CrossLaneMoves : Prop :=
  ∀ (i : Instr) (c : Ctl) (d : BitVec 8) (t : Ty) (b : Group → Nat → Nat → Nat → Bool) (s s1 : State), MoveResult i c d t b → Ready i c s s1 →
    ∃ v : Lanes Word64,
      Completes i c s s1 (s1.setCur (s1.cur.addPend .v (s1.cur.rD c d) (s1.cur.written c) v true)) noDest ∧
      ∀ l < 32, (takes s1.cur c l → ∀ k < 64 / t.width, ∀ j < t.width, bitAt t (v.get l 0) k j = b s1.cur l k j) ∧
        (lane (s1.cur.zeroLanes c) l = true → v.get l 0 = 0)

/-- R154: `red` reduces the contributing sub-elements in ascending group index and gives every sub-element of its destination the result; an index form
gives the winning value and its index, ties going to the lowest; with no lane active it delivers nothing but the zeros of the zero clause (R59).
R155: `scan` forms running values over the contributing sub-elements in ascending group index; a helper lane takes the value that has come so far.
R154: the steps: integers wrap, compare in their type and combine bit by bit; floating-point steps add and compare as `fadd`, `fmin` and `fmax` do, in the mode of
`sr.fpctl`; and the identities. In the index forms −0 is below +0 and a NaN is worst. -/
def Obligations.ReductionsAndScans : Prop :=
  (∀ (c : Ctl) (o : Red) (s s1 : State), Ready (.red c o) c s s1 →
    ∃ (v : Word64) (fl : BitVec 6) (val : Lanes Word64),
      Completes (.red c o) c s s1
        (s1.setCur (if o.sdst then s1.cur.addPend .s (s1.cur.rD c o.d) (if s1.cur.active c = 0 then 0 else allLanes) val true fl
          else s1.cur.addPend .v (s1.cur.rD c o.d) (s1.cur.written c) val true fl)) noDest ∧
      (∀ l < 32, val.get l 0 = if o.sdst = false ∧ lane (s1.cur.zeroLanes c) l = true then 0 else v) ∧
      (let src := groupSub s1.cur o.ty (s1.cur.rA c o.a.reg)
       let es := contributors s1.cur c o.ty.width
       (s1.cur.active c = 0 → fl = 0) ∧
       (s1.cur.active c ≠ 0 → o.op ≠ .minidx → o.op ≠ .maxidx →
         fl = (reduce s1.cur.fctl o.op o.ty src es).2 ∧
         ∀ k < 64 / o.ty.width, bitsAt o.ty v k = (reduce s1.cur.fctl o.op o.ty src es).1 % 2 ^ o.ty.width) ∧
       (s1.cur.active c ≠ 0 → o.op = .minidx ∨ o.op = .maxidx →
         ∃ i ∈ es, v.toNat / 2 ^ 32 = i ∧
           (∀ j ∈ es, better s1.cur.fctl (o.op = .maxidx) o.ty src j i = false ∧ (j < i → better s1.cur.fctl (o.op = .maxidx) o.ty src i j = true)) ∧
           (o.ty.isInt = true → v.toNat % 2 ^ 32 = lowBits 32 (intOf o.ty (src i)) ∧ fl = 0) ∧
           (o.ty.isF = true → (∀ b < 6, fl.getLsbD b = es.any fun j => (sigFlag o.ty (src j)).getLsbD b) ∧
             (let x := operand s1.cur.fctl o.ty false (src i)
              (x.isNan = true → NanOf s1.cur.fctl o.ty [x] (v.toNat % 2 ^ 32)) ∧
              (x.isNan = false → (fmtOf o.ty).decode (v.toNat % 2 ^ 32) = x)))))) ∧
  (∀ (c : Ctl) (o : Scan) (s s1 : State), Ready (.scan c o) c s s1 →
    ∃ v : Lanes Word64,
      (let src := groupSub s1.cur o.ty (s1.cur.rA c o.a.reg)
       let es := contributors s1.cur c o.ty.width
       Completes (.scan c o) c s s1
         (s1.setCur (s1.cur.addPend .v (s1.cur.rD c o.d) (s1.cur.written c) v true (reduce s1.cur.fctl o.op o.ty src es).2)) noDest ∧
       ∀ l < 32, (takes s1.cur c l → ∀ k < 64 / o.ty.width, bitsAt o.ty (v.get l 0) k =
           (reduce s1.cur.fctl o.op o.ty src (es.filter fun i => decide (i < 64 / o.ty.width * l + k) ||
             (!o.excl && i == 64 / o.ty.width * l + k))).1 % 2 ^ o.ty.width) ∧
         (lane (s1.cur.zeroLanes c) l = true → v.get l 0 = 0))) ∧
  (∀ (k : FCtl) (t : Ty) (a b : Nat),
    (t.isInt = true → a < 2 ^ t.width → b < 2 ^ t.width →
      redStep k .add t a b = ((a + b) % 2 ^ t.width, 0) ∧
      redStep k .min t a b = (if fit t false (b : Int) < fit t false (a : Int) then b else a, 0) ∧
      redStep k .max t a b = (if fit t false (a : Int) < fit t false (b : Int) then b else a, 0) ∧
      redIdentity .add t = 0 ∧ redIdentity .min t = (greatest t % 2 ^ t.width).toNat ∧ redIdentity .max t = (least t % 2 ^ t.width).toNat) ∧
    (t.isF = true → redStep k .add t a b = fpAdd k k.rnd t false false a b ∧ redStep k .min t a b = fpMinMax k t false false false a b ∧
      redStep k .max t a b = fpMinMax k t true false false a b ∧
      redIdentity .add t = (fmtOf t).signBits true ∧ redIdentity .min t = (fmtOf t).infBits false ∧ redIdentity .max t = (fmtOf t).infBits true) ∧
    (a < 2 ^ t.width → b < 2 ^ t.width → ∀ j, (redStep k .and t a b).1.testBit j = (a.testBit j && b.testBit j) ∧
      (redStep k .or t a b).1.testBit j = (a.testBit j || b.testBit j) ∧ (redStep k .xor t a b).1.testBit j = (a.testBit j ^^ b.testBit j)) ∧
    (redIdentity .and t = 2 ^ t.width - 1 ∧ redIdentity .or t = 0 ∧ redIdentity .xor t = 0)) ∧
  (∀ (k : FCtl) (isMax : Bool) (t : Ty) (src : Nat → Nat) (i j : Nat),
    (t.isInt = true → better k isMax t src i j = decide (if isMax then fit t false (src j : Int) < fit t false (src i : Int)
      else fit t false (src i : Int) < fit t false (src j : Int))) ∧
    (t.isF = true → (let x := operand k t false (src i)
      let y := operand k t false (src j)
      better k isMax t src i j = (!x.isNan && (y.isNan || if isMax then below0 y x else below0 x y)))))

/-! ## Memory instructions -/

/-- R59, R124, R160, R170: a load raises the LOAD counter and awaits its registers; the accesses it will read are the ones that translation accepts.
R59, R124, R160, R170: a store raises the STORE counter and takes its data from its registers at issue; it writes no register and, until it is
performed, no byte of memory. -/
def Obligations.LoadsAndStoresAreIssued : Prop :=
  ((∀ (c : Ctl) (o : MemOp) (s s1 s2 : State) (accs : List LaneAcc), Ready (.ld c o) c s s1 → s1.pathFree .load = .ok () →
    s1.accept s1.cur.vf .read (tyBytes o.ty * o.cnt.num) true (s1.cur.laneReqs c true (s1.cur.globalVa c o.a o.b o.off)) = .ok (s2, accs) →
    Completes (.ld c o) c s s1 (s2.setCur
      ((s1.cur.addOp s1.steps (some .load) (.load (if o.cp = .ev then accs.map fun a => { a with ev := true } else accs) (tyBytes o.ty) o.cnt.num o.ty.isI
        (o.cp = .l2) none)).awaiting .v (s1.cur.rD c o.d) o.cnt.num (s1.cur.written c))) noDest) ∧
  (∀ (c : Ctl) (o : ScopedOp) (s s1 s2 : State) (accs : List LaneAcc), Ready (.lda c o) c s s1 → scopeAllows s1 c o.scope 0 → s1.pathFree .load = .ok () →
    s1.accept s1.cur.vf .read (tyBytes o.ty) true (s1.cur.laneReqs c true (s1.cur.globalVa c o.a o.b o.off)) = .ok (s2, accs) →
    Completes (.lda c o) c s s1 (s2.setCur
      ((s1.cur.addOp s1.steps (some .load) (.load accs (tyBytes o.ty) 1 o.ty.isI false (some o.scope))).awaiting .v (s1.cur.rD c o.d) 1
        (s1.cur.written c))) noDest) ∧
  (∀ (c : Ctl) (o : ULoad) (s s1 s2 : State) (accs : List LaneAcc), Ready (.sld c o) c s s1 → s1.pathFree .load = .ok () →
    (s1.cur.passes c = true →
      s1.accept s1.cur.vf .read (tyBytes o.ty) true [{ lane := 0, va := s1.cur.uniVa c o.a o.off }] = .ok (s2, accs) →
      Completes (.sld c o) c s s1 (s2.setCur
        ((s1.cur.addOp s1.steps (some .load) (.load accs (tyBytes o.ty) 1 o.ty.isI false none)).awaiting .s (s1.cur.rD c o.d) 1 allLanes)) noDest) ∧
    (s1.cur.passes c = false →
      Completes (.sld c o) c s s1 (s1.setCur (s1.cur.addOp s1.steps (some .load) (.load [] (tyBytes o.ty) 1 o.ty.isI false none))) noDest))) ∧
  ((∀ (c : Ctl) (o : MemOp) (s s1 s2 : State) (accs : List LaneAcc), Ready (.st c o) c s s1 → s1.pathFree .store = .ok () →
    s1.accept s1.cur.vf .write (tyBytes o.ty * o.cnt.num) false (s1.cur.laneReqs c false (s1.cur.globalVa c o.a o.b o.off)) = .ok (s2, accs) →
    Completes (.st c o) c s s1 (s2.setCur (s1.cur.addOp s1.steps (some .store)
      (.store (if o.cp = .ev then accs.map fun a => { a with ev := true } else accs) (accs.map fun a => s1.cur.storeData c o.d o.ty o.cnt.num a.lane)
        none))) noDest) ∧
  (∀ (c : Ctl) (o : ScopedOp) (s s1 s2 : State) (accs : List LaneAcc), Ready (.strl c o) c s s1 → scopeAllows s1 c o.scope 1 → s1.pathFree .store = .ok () →
    s1.accept s1.cur.vf .write (tyBytes o.ty) false (s1.cur.laneReqs c false (s1.cur.globalVa c o.a o.b o.off)) = .ok (s2, accs) →
    Completes (.strl c o) c s s1 (s2.setCur (s1.cur.addOp s1.steps (some .store)
      (.store accs (accs.map fun a => s1.cur.storeData c o.d o.ty 1 a.lane) (some o.scope)))) noDest) ∧
  (∀ (c : Ctl) (o : UStore) (s s1 s2 : State) (accs : List LaneAcc), Ready (.sst c o) c s s1 → s1.pathFree .store = .ok () →
    s1.accept s1.cur.vf .write (tyBytes o.ty) false (if s1.cur.passes c then [{ lane := 0, va := s1.cur.uniVa c o.a o.off }] else []) = .ok (s2, accs) →
    Completes (.sst c o) c s s1 (s2.setCur (s1.cur.addOp s1.steps (some .store)
      (.store accs (accs.map fun _ => bytesLE (tyBytes o.ty) (s1.cur.uniB c o.b).toNat) none))) noDest))

/-- R158, R162, R326: the accesses of lanes whose lines the L2 holds are accepted where they are aligned, below 2^57, permitted and not poisoned; each
captures the address and the attributes that its line had, and nothing of the machine changes.
R162, R397: an access meets its causes in the order of the rule: the lowest lane's misalignment first, then its address at or above 2^57, then, once every line
has its translation, a permission that is missing, then a poisoned line. R36, R342: the instruction raises the cause that acceptance answers, with
the address of the access, or waits for the page that it asks for; a malformed entry and a poisoned line are logged.
The causes that instructions raise for a branch target that is no header, a divergence stack or split table that is full, an accumulator that is or is not
reserved, a tile or a barrier that is not as they need it, a scope that the policy denies, a copy without rights, and a poisoned word of a tile. -/
def Obligations.AccessChecks : Prop :=
  (∀ (s : State) (vf size : Nat) (kind : AccKind) (poison : Bool) (rs : List LaneReq) (loc : LaneReq → Nat) (att : LaneReq → Attr),
    (∀ r ∈ rs, r.helper = false ∧ r.va % size = 0 ∧ r.va < 2 ^ 57 ∧
      ∃ l, s.l2.find? (fun m => m.vf = vf && m.line = r.va / 64) = some l ∧ l.attr = att r ∧ (att r).permits kind = true ∧
        loc r = Loc.mk (64 * l.pa) (att r).comp (att r).watch (att r).gpage + r.va % 64 ∧ (poison = true → s.poisoned (loc r) = false)) →
    s.accept vf kind size poison rs = .ok (s, rs.map fun r => { lane := r.lane, va := r.va, pa := loc r, attr := att r })) ∧
  (∀ (s : State) (vf size : Nat) (kind : AccKind) (poison : Bool) (rs : List LaneReq) (r : LaneReq),
    ((rs.filter fun q => !q.helper).find? (fun q => q.va % size ≠ 0) = some r → s.accept vf kind size poison rs = .error (.trap .misalign r.va)) ∧
    ((∀ q ∈ rs, q.helper = false → q.va % size = 0) → (rs.filter fun q => !q.helper).find? (fun q => 2 ^ 57 ≤ q.va) = some r →
      s.accept vf kind size poison rs = .error (.trap .perm r.va))) ∧
  (∀ (s : State) (vf size : Nat) (kind : AccKind) (poison : Bool) (rs : List LaneReq) (loc : LaneReq → Nat) (att : LaneReq → Attr) (r : LaneReq),
    (∀ q ∈ rs, q.helper = false ∧ q.va % size = 0 ∧ q.va < 2 ^ 57 ∧
      ∃ l, s.l2.find? (fun m => m.vf = vf && m.line = q.va / 64) = some l ∧ l.attr = att q ∧
        loc q = Loc.mk (64 * l.pa) (att q).comp (att q).watch (att q).gpage + q.va % 64) →
    (rs.find? (fun q => !(att q).permits kind) = some r → s.accept vf kind size poison rs = .error (.trap .perm r.va)) ∧
    ((∀ q ∈ rs, (att q).permits kind = true) → poison = true → rs.find? (fun q => s.poisoned (loc q)) = some r →
      s.accept vf kind size poison rs = .error (.poison (Loc.pa (loc r) / 64) r.va))) ∧
  (∀ (i : Instr) (c : Ctl) (s s1 : State) (p : Path) (r : M (State × List LaneAcc)), Accesses i c s1 p r → s1.pathFree p = .ok () → Clear i c c.mark s s1 →
    (∀ cause va, r = .error (.trap cause va) → exec i s = .next (s1.traps cause va)) ∧
    (∀ st page kind va, r = .error (.xlate st page kind va) → exec i s = .next (s1.waitPage s1.cur.sel1 s1.cur.me.pc st page kind va)) ∧
    (∀ entry va, r = .error (.malformed entry va) →
      exec i s = .next ((s1.logError (s1.vf s1.cur.vf).slice 0x02 0xFF s1.cur.vf 0 entry s1.cur.launchId).traps .perm va)) ∧
    (∀ line va, r = .error (.poison line va) →
      exec i s = .next (((s1.logLost (64 * line)).logError (s1.vf s1.cur.vf).slice 0x01 0xFF s1.cur.vf 0 (64 * line) s1.cur.launchId).traps .poison va))) ∧
  (∀ (i : Instr) (c : Ctl) (s s1 : State) (cause : Cause) (addr : Nat), Raises i c s1 cause addr → Clear i c c.mark s s1 →
    exec i s = .next (s1.traps cause addr)) ∧
  (∀ (i : Instr) (c : Ctl) (s s1 : State) (addr : Nat), ReadsPoison i c s1 addr → Clear i c c.mark s s1 →
    exec i s = .next ((s1.logError (s1.vf s1.cur.vf).slice 0x01 0xFF s1.cur.vf 0 0 s1.cur.launchId).traps .poison addr))

/-- R163, R156, R176: tile loads, tile stores and `append` find their tile and its checks made at issue, and await or carry their data. -/
def Obligations.TileAccessesAreIssued : Prop :=
  (∀ (c : Ctl) (o : TileOp) (s s1 : State) (wg : Nat) (t : Handle) (accs : List LaneAcc), Ready (.ldt c o) c s s1 → s1.pathFree .load = .ok () →
    s1.laneTile c o.h o.peer .data = .ok (wg, t) →
    tileAccs t (tyBytes o.ty * o.cnt.num) true (s1.cur.laneReqs c true fun l => s1.cur.tileOff c o.b o.off l) = .ok accs →
    Completes (.ldt c o) c s s1 (s1.setCur
      ((s1.cur.addOp s1.steps (some .load) (.tload accs wg (s1.cur.rA c o.h) (tyBytes o.ty) o.cnt.num o.ty.isI)).awaiting .v (s1.cur.rD c o.d) o.cnt.num
        (s1.cur.written c))) noDest) ∧
  (∀ (c : Ctl) (o : TileOp) (s s1 : State) (wg : Nat) (t : Handle) (accs : List LaneAcc), Ready (.stt c o) c s s1 → s1.pathFree .store = .ok () →
    s1.laneTile c o.h o.peer .data = .ok (wg, t) →
    tileAccs t (tyBytes o.ty * o.cnt.num) false (s1.cur.laneReqs c false fun l => s1.cur.tileOff c o.b o.off l) = .ok accs →
    Completes (.stt c o) c s s1 (s1.setCur (s1.cur.addOp s1.steps (some .store)
      (.tstore accs wg (s1.cur.rA c o.h) (accs.map fun a => s1.cur.storeData c o.d o.ty o.cnt.num a.lane)))) noDest) ∧
  (∀ (c : Ctl) (o : Append) (s s1 : State) (wg : Nat) (t : Handle), Ready (.append c o) c s s1 → s1.pathFree .load = .ok () →
    s1.laneTile c o.h none .data = .ok (wg, t) → (s1.cur.active c = 0 ∨ t.poisoned 0 8 = false) →
    Completes (.append c o) c s s1 (s1.setCur
      ((s1.cur.addOp s1.steps (some .load) (.append wg (s1.cur.rA c o.h) (tyBytes o.ty)
        (((List.range 32).filter (lane (s1.cur.active c))).map fun l => (l, s1.cur.readV (s1.cur.rB c o.b.reg) l)) (s1.cur.helpersFor c))).awaiting
        .v (s1.cur.rD c o.d) 1 (s1.cur.written c))) noDest)

/-- R171 to R174: `fence` goes through once the group's LOAD and STORE counters are zero and, for a release at `.s`, its window stores are acknowledged;
`waitc` once its counter is at or below its limit; `pref` always, bringing the active lanes' lines nearer; `cinv` and `cwb` raise the STORE counter for an aligned range. -/
def Obligations.OrderingInstructions : Prop :=
  (∀ (c : Ctl) (o : Fence) (s s1 : State), Ready (.fence c o) c s s1 →
    (s1.cur.passes c = true → (o.scope ≠ .s ∨ (s1.vf s1.cur.vf).spol.getLsbD 2 = true) → s1.cur.counter .load = 0 → s1.cur.counter .store = 0 →
      (o.ord = .acq ∨ o.scope ≠ .s ∨ s1.acked s1.cur.id = true) →
      Completes (.fence c o) c s s1 (if o.ord = .rel ∨ o.scope = .g ∨ o.scope = .w then s1.beaconOwn 4 [.load, .store]
        else (s1.beaconOwn 4 [.load, .store]).dropCoreL1 s1.cur.coreIx s1.cur.vf) noDest) ∧
    (s1.cur.passes c = false → Completes (.fence c o) c s s1 s1 noDest)) ∧
  (∀ (c : Ctl) (o : Waitc) (s s1 : State), Ready (.waitc c o) c s s1 →
    (s1.cur.passes c = true → s1.cur.counter o.path ≤ (match o.lim with | .reg r => (s1.cur.uniA c r).toNat | .imm n => n.toNat) →
      Completes (.waitc c o) c s s1 (s1.beaconOwn 5 [o.path]) noDest) ∧
    (s1.cur.passes c = false → Completes (.waitc c o) c s s1 s1 noDest)) ∧
  (∀ (c : Ctl) (o : Pref) (s s1 : State), Ready (.pref c o) c s s1 →
    Completes (.pref c o) c s s1 ((lanesOf (s1.cur.active c)).foldl (fun t l => t.prefetch o.l2 (s1.cur.globalVa c o.a o.b o.off l)) s1) noDest) ∧
  (∀ (i : Instr) (c : Ctl) (a b : Src) (inval l1 : Bool) (s s1 : State),
    (∃ o, i = .cinv c o ∧ a = o.a ∧ b = o.b ∧ inval = true ∧ l1 = !o.l2) ∨ (∃ o, i = .cwb c o ∧ a = o.a ∧ b = o.b ∧ inval = false ∧ l1 = false) →
    Ready i c s s1 → s1.pathFree .store = .ok () →
    (s1.cur.passes c = true → (s1.cur.uniA c a).toNat % 64 = 0 → (s1.cur.uniB c b).toNat % 64 = 0 →
      Completes i c s s1 (s1.setCur (s1.cur.addOp s1.steps (some .store)
        (.range ((s1.cur.uniA c a).toNat / 64) ((s1.cur.uniB c b).toNat / 64) inval l1))) noDest) ∧
    (s1.cur.passes c = false → Completes i c s s1 (s1.setCur (s1.cur.addOp s1.steps (some .store) .null)) noDest))

/-- R164 to R166: `atom` and `apost` take their addresses and operands at issue; `atom` raises LOAD and awaits its register, `apost` raises STORE; their
order parts make them acquires and releases at their scope.
R167, R168: `ratom` zeroes the reply record of each active lane, then queues the lane's request at its target, and raises the REM counter, once its
links have tags left. -/
def Obligations.AtomicsAreIssued : Prop :=
  ((∀ (c : Ctl) (o : Atom) (s s1 s2 : State) (accs : List LaneAcc), Ready (.atom c o) c s s1 → scopeAllows s1 c o.scope 3 → s1.pathFree .load = .ok () →
    s1.accept s1.cur.vf .atomic (tyBytes o.ty) true (s1.cur.laneReqs c false fun l => (s1.cur.srcA c o.a l).toNat) = .ok (s2, accs) →
    Completes (.atom c o) c s s1 (s2.setCur ((s1.cur.addOp s1.steps (some .load) (.atomic (s1.cur.atomLanes c o.b o.op accs) o.op o.ty true
        (if o.ord = .acq ∨ o.ord = .ar then some o.scope else none) (if o.ord = .rel ∨ o.ord = .ar then some o.scope else none))).awaiting
      .v (s1.cur.rD c o.d) 1 (s1.cur.written c &&& ~~~(s1.cur.helpersFor c)))) noDest) ∧
  (∀ (c : Ctl) (o : APost) (s s1 s2 : State) (accs : List LaneAcc), Ready (.apost c o) c s s1 → scopeAllows s1 c o.scope 3 → s1.pathFree .store = .ok () →
    s1.accept s1.cur.vf .atomic (tyBytes o.ty) false (s1.cur.laneReqs c false fun l => (s1.cur.srcA c o.a l).toNat) = .ok (s2, accs) →
    Completes (.apost c o) c s s1 (s2.setCur (s1.cur.addOp s1.steps (some .store) (.atomic (s1.cur.atomLanes c o.b o.op accs) o.op o.ty false
        none (if o.ord = .rel then some o.scope else none)))) noDest) ∧
  (∀ (c : Ctl) (o : UUn) (s s1 s2 : State) (recs : List LaneAcc), Ready (.rpoll c o) c s s1 → s1.pathFree .load = .ok () →
    (s1.cur.active c = 0 ∨ (s1.cur.uniA c o.a).toNat % 16 = 0) →
    s1.accept s1.cur.vf .read 16 true (s1.cur.laneReqs c false fun l => ((s1.cur.uniA c o.a).toNat + 16 * l) % 2 ^ 64) = .ok (s2, recs) →
    Completes (.rpoll c o) c s s1 (s2.setCur ((s1.cur.addOp s1.steps (some .load) (.rpoll (s1.cur.uniA c o.a) recs o.ty)).awaiting
      .v (s1.cur.rD c o.d) 1 (s1.cur.written c &&& ~~~(s1.cur.helpersFor c)))) noDest)) ∧
  (∀ (c : Ctl) (o : RAtom) (s s1 s2 : State) (both : List (LaneAcc × LaneAcc)), Ready (.ratom c o) c s s1 → scopeAllows s1 c .s 4 → s1.pathFree .rem = .ok () →
    (s1.cur.active c = 0 ∨ (s1.cur.readS (s1.cur.rD c o.d)).toNat % 16 = 0) →
    (∀ r ∈ s1.cur.laneReqs c false fun l => (s1.cur.srcA c o.a l).toNat, r.va % tyBytes o.ty = 0) →
    s1.acceptPairs s1.cur.vf (s1.cur.laneReqs c false fun l => ((s1.cur.readS (s1.cur.rD c o.d)).toNat + 16 * l) % 2 ^ 64)
      (s1.cur.laneReqs c false fun l => (s1.cur.srcA c o.a l).toNat) = .ok (s2, both) →
    s2.settled ((both.map fun p => (0, Loc.pa p.1.pa, 16)) ++
      ((both.filter fun p => isWindow (Loc.pa p.2.pa)).map fun p => (0, Loc.pa p.2.pa, tyBytes o.ty))) = .ok () → s2.tagsLeft = true →
    (let recs := both.map (·.1)
     let lanes := s1.cur.atomLanes c o.b o.op (both.map (·.2))
     let zeroed := recs.foldl (fun s r => (s.write s1.cur.vf r.va r.pa (List.replicate 16 0) s1.cur.writer).watch
       s1.cur.vf r.va r.pa 16 1 (s1.cur.agent s1.cur.me.pc)) s2
     let sent := lanes.foldl (fun s a => if isWindow (Loc.pa a.pa) = false ∨ (physRegion (Loc.pa a.pa) = .host ∧ hostAtomic o.op = false) then s
       else s.sendAtomic s1.cur.id s1.cur.seq o.op o.ty a) zeroed
     Completes (.ratom c o) c s s1 (sent.setCur (sent.cur.addOp sent.steps (some .rem) (.ratom lanes o.op o.ty recs))) noDest))

/-- R175, R177, R178: `talloc` begins an allocation of a free or failed handle; `tfree` frees one and breaks its barrier; `tqry` delivers its summary. -/
def Obligations.TileHandleInstructions : Prop :=
  (∀ (c : Ctl) (o : TAlloc) (s s1 : State), Ready (.talloc c o) c s s1 →
    (let h := s1.cur.rD c o.h
     let v := s1.cur.uniA c o.a
     (s1.cur.passes c = true → (s1.handle s1.cur.wg h).st = .free ∨ (s1.handle s1.cur.wg h).st = .failed → (s1.handle s1.cur.wg h).prog = none →
       shapeOk o.kind v = true →
       Completes (.talloc c o) c s s1 (s1.updHandle s1.cur.wg h fun t =>
         { t with prog := some (o.clus, o.kind, v.toNat % 2 ^ 16, v.toNat / 2 ^ 16 % 2 ^ 16), progBy := s1.cur.id }) noDest) ∧
     (s1.cur.passes c = false → Completes (.talloc c o) c s s1 s1 noDest))) ∧
  (∀ (c : Ctl) (h : BitVec 8) (s s1 : State), Ready (.tfree c h) c s s1 →
    (let n := s1.cur.rA c h
     (s1.cur.passes c = true → (s1.handle s1.cur.wg n).st = .allocated ∨ (s1.handle s1.cur.wg n).st = .failed → (s1.handle s1.cur.wg n).prog = none →
       Completes (.tfree c h) c s s1 ((s1.updHandle s1.cur.wg n Handle.freed).wakeWaiters (fun b => b = .tile s1.cur.wg n) 0xFFFF 0) noDest) ∧
     (s1.cur.passes c = false → Completes (.tfree c h) c s s1 s1 noDest))) ∧
  (∀ (c : Ctl) (o : TQry) (s s1 : State), Ready (.tqry c o) c s s1 →
    (let t := s1.handle s1.cur.wg (s1.cur.rA c o.h)
     (s1.cur.passes c = true → t.prog = none →
       Completes (.tqry c o) c s s1 (s1.setCur (s1.cur.addPend .s (s1.cur.rD c o.d) allLanes (Lanes.const (BitVec.ofNat 64
         (match t.st with
          | .free => 0
          | .allocated => 2 ^ 35 + 2 ^ 33 * (match t.kind with | .data => 0 | .barrier => 1 | .ring => 2) + 2 ^ 32 * (if t.clus then 1 else 0) + 2 ^ 16 * t.rowb + t.rows
          | .failed => 2 ^ 36
          | .freeing => 2 ^ 36 + 2 ^ 35))) true)) noDest) ∧
     (s1.cur.passes c = false → Completes (.tqry c o) c s s1 s1 noDest)))

/-- R181 to R188: a copy that passes its checks is accepted with its shape, its receivers and the pages that its addresses map to; one whose guard no lane
passes raises its counter and is over. -/
def Obligations.CopiesAreIssued : Prop :=
  (∀ (i : Instr) (c : Ctl) (d : BitVec 8) (shape : Group → CopyOp × Bool) (bar : Option (BitVec 8)) (s s1 : State),
    CopyForm i c d shape bar → Ready i c s s1 → s1.pathFree .copy = .ok () →
    (∀ (s2 : State) (maps : List PageMap), s1.cur.passes c = true →
      CopyOk s1 s2 (shape s1.cur) [s1.cur.wg] false (s1.cur.rD c d) (bar.map (s1.cur.rB c)) none maps →
      Completes i c s s1 (s2.setCur (s1.cur.addOp s1.steps (some .copy)
        (.copy (copyOf s1 (shape s1.cur) [s1.cur.wg] (s1.cur.rD c d) (bar.map (s1.cur.rB c)) none maps)))) noDest) ∧
    (s1.cur.passes c = false → Completes i c s s1 (nullOp s1 .copy) noDest)) ∧
  (∀ (c : Ctl) (o : CpyMc) (s s1 : State), Ready (.cpyMc c o) c s s1 → s1.pathFree .copy = .ok () →
    (∀ (s2 : State) (maps : List PageMap) (keys : List Nat), s1.cur.passes c = true → o.wgm.toNat < 2 ^ s1.cur.gangN →
      ((List.range s1.cur.gangN).filter fun n => o.wgm = 0 ∨ o.wgm.getLsbD n = true).map (s1.peerWg s1.cur) = keys.map some →
      (let u := s1.cur.rA c o.u.reg
       let shape := rowShape .mc (s1.cur.readS u) (s1.cur.readS (u + 1)) (s1.cur.readS (u + 2))
       CopyOk s1 s2 shape keys true (s1.cur.rD c o.d) (some (s1.cur.rB c o.b)) (some (s1.cur.rC c)) maps →
       Completes (.cpyMc c o) c s s1 (s2.setCur (s1.cur.addOp s1.steps (some .copy)
         (.copy (copyOf s1 shape keys (s1.cur.rD c o.d) (some (s1.cur.rB c o.b)) (some (s1.cur.rC c)) maps)))) noDest)) ∧
    (s1.cur.passes c = false → Completes (.cpyMc c o) c s s1 (nullOp s1 .copy) noDest))

/-! ## Barriers -/

/-- R192 to R195: what each barrier instruction does to the barrier that it names, once its checks pass; none of them acts when no lane passes its guard.
R181, R194: a barrier test delivers its truth to every written lane as a long-latency predicate: for `tbar.test.ph`, that the barrier is broken or its
phase differs from the parity given; for `tbar.test.brk`, that it is broken. -/
def Obligations.BarrierInstructions : Prop :=
  ((∀ (c : Ctl) (o : BarB) (s s1 s2 : State) (l : BarLoc), Ready (.tbarInit c o) c s s1 →
    (s1.cur.passes c = true → s1.barAt c o.bar = .ok (s2, l) → (s2.readBar l).armed = false → s2.settled l.spans = .ok () →
      0 < (s2.cur.uniB c o.b).toNat → (s2.cur.uniB c o.b).toNat < 2 ^ 32 → (∀ g ∈ s2.allGroups, ∀ p ∈ g.ops, p.fin = false → p.kind.countsAt l = false) →
      (∀ wg h, l = .tile wg h → Completes (.tbarInit c o) c s s1
        (s2.updHandle wg h fun t => { t with bar := { expc := (s2.cur.uniB c o.b).setWidth 32, armed := true } }) noDest) ∧
      (∀ vf va pa, l = .glob vf va pa → (s2.barLines.filter fun b => b.2.1 = s2.l2Home vf va).length < s2.barRoom (s2.l2Home vf va) →
        (let w := s2.writeBar l { expc := (s2.cur.uniB c o.b).setWidth 32, armed := true } s2.cur.writer
         Completes (.tbarInit c o) c s s1 { w with barLines := (pa, s2.l2Home vf va, s2.cur.vf) :: w.barLines } noDest))) ∧
    (s1.cur.passes c = false → Completes (.tbarInit c o) c s s1 s1 noDest)) ∧
  (∀ (i : Instr) (c : Ctl) (bar : BarRef) (n : Group → Word64) (arv : Bool) (s s1 s2 : State) (l : BarLoc), ArrivalForm i c bar n arv → Ready i c s s1 →
    (s1.cur.passes c = true → s1.barAt c bar = .ok (s2, l) → (s2.readBar l).unarmed = false →
      Completes i c s s1
        (if (s2.readBar l).armed = false then s2
         else if s2.arrivalWaits s2.cur s2.cur.seq l arv = true then s2.setCur (s2.cur.addOp s2.steps none (.arrive l (n s2.cur) arv))
         else s2.arriveNow s2.cur s2.cur.seq l (n s2.cur) arv s2.cur.me.pc) noDest) ∧
    (s1.cur.passes c = false → Completes i c s s1 s1 noDest)) ∧
  (∀ (c : Ctl) (o : BarPar) (s s1 s2 : State) (l : BarLoc), Ready (.tbarWait c o) c s s1 →
    (s1.cur.passes c = true → s1.cur.me.tw = none → s1.barAt c o.bar = .ok (s2, l) → (s2.readBar l).unarmed = false →
      s2.settled l.spans = .ok () → (s2.readBar l).broken = true ∨ (s2.readBar l).phase ≠ s2.cur.parity c o.par →
      Completes (.tbarWait c o) c s s1 (s2.waitOver l (s2.readBar l).broken (s2.readBar l).last.toNat 0) noDest) ∧
    (s1.cur.passes c = false → Completes (.tbarWait c o) c s s1 s1 noDest)) ∧
  (∀ (c : Ctl) (bar : BarRef) (s s1 s2 : State) (l : BarLoc), Ready (.tbarInval c bar) c s s1 →
    (s1.cur.passes c = true → s1.barAt c bar = .ok (s2, l) → (s2.readBar l).unarmed = false → s2.settled l.spans = .ok () →
      Completes (.tbarInval c bar) c s s1 (s2.breakBar l s2.cur.writer) noDest) ∧
    (s1.cur.passes c = false → Completes (.tbarInval c bar) c s s1 s1 noDest))) ∧
  ((∀ (c : Ctl) (o : BarTest) (s s1 s2 : State) (l : BarLoc), Ready (.tbarTestPh c o) c s s1 → s1.cur.active c ≠ 0 →
    s1.barAt c o.bar = .ok (s2, l) → (s2.readBar l).unarmed = false → s2.settled l.spans = .ok () →
    ∃ val : Lanes Word64, (∀ n < 32, lane (s1.cur.written c) n = true → val.get n 0 =
        if lane (s1.cur.zeroLanes c) n then 0 else if (s2.readBar l).broken ∨ (s2.readBar l).phase ≠ s2.cur.parity c o.par then 1 else 0) ∧
      (let v := (s2.readBar l).broken || (s2.readBar l).phase != s2.cur.parity c o.par
       let s3 := s2.polled l v
       let s4 := if v && !(s2.readBar l).broken then s3.acquireAt s3.cur (some (s3.barScope l)) else s3
       Completes (.tbarTestPh c o) c s s1 (s4.setCur (s4.cur.addPend .p (s1.cur.rD c o.d) (s1.cur.written c) val true)) noDest)) ∧
  (∀ (c : Ctl) (o : BarBrk) (s s1 s2 : State) (l : BarLoc), Ready (.tbarTestBrk c o) c s s1 → s1.cur.active c ≠ 0 →
    s1.barAt c o.bar = .ok (s2, l) → (s2.readBar l).unarmed = false → s2.settled l.spans = .ok () →
    ∃ val : Lanes Word64, (∀ n < 32, lane (s1.cur.written c) n = true → val.get n 0 =
        if lane (s1.cur.zeroLanes c) n then 0 else if (s2.readBar l).broken then 1 else 0) ∧
      Completes (.tbarTestBrk c o) c s s1 (s2.setCur (s2.cur.addPend .p (s1.cur.rD c o.d) (s1.cur.written c) val true)) noDest) ∧
  (∀ (i : Instr) (c : Ctl) (d : BitVec 8) (s s1 : State), (∃ o : BarTest, i = .tbarTestPh c o ∧ d = o.d) ∨ (∃ o : BarBrk, i = .tbarTestBrk c o ∧ d = o.d) →
    Ready i c s s1 → s1.cur.active c = 0 →
    ∃ val : Lanes Word64, (∀ n < 32, val.get n 0 = 0) ∧
      Completes i c s s1 (s1.setCur (s1.cur.addPend .p (s1.cur.rD c d) (s1.cur.written c) val true)) noDest))

/-- R191, R193, R196: a step on an armed barrier of a tile. An arrival that completes the phase turns PHASE and adds 1 to GEN with ARVC back at 0; one more
than EXPC breaks the barrier; a byte count changes PEND alone. On a barrier that is not armed nothing changes. -/
def Obligations.BarrierSteps : Prop :=
  ∀ (s : State) (wg h : Nat) (w : Workgroup) (prof : Bool) (id : BitVec 16) (n : Word64) (lpc : Word32) (who : State.Writer),
    s.wg? wg = some w → h < 32 →
    (let b := s.readBar (.tile wg h)
     let t := s.barStep (.tile wg h) (Barrier.countArrive prof id n) lpc who
     let u := s.barStep (.tile wg h) (Barrier.count n) lpc who
     let a := t.readBar (.tile wg h)
     let e := u.readBar (.tile wg h)
     (b.armed = false → t = s ∧ u = s) ∧
     (b.armed = true → b.broken = false →
       (b.arvc = b.expc → a.broken = true ∧ a.armed = false ∧ a.phase = b.phase ∧ a.gen = b.gen) ∧
       (b.arvc ≠ b.expc → b.arvc + 1 = b.expc → b.pend + n = 0 → a.phase = !b.phase ∧ a.gen = b.gen + 1 ∧ a.arvc = 0 ∧ a.armed = true ∧ a.broken = false) ∧
       (b.arvc ≠ b.expc → b.arvc + 1 ≠ b.expc ∨ b.pend + n ≠ 0 →
         a.phase = b.phase ∧ a.gen = b.gen ∧ a.arvc = b.arvc + 1 ∧ a.pend = b.pend + n ∧ a.armed = true ∧ a.broken = false) ∧
       (b.arvc = b.expc → b.pend + n = 0 → e.phase = !b.phase ∧ e.gen = b.gen + 1 ∧ e.arvc = 0 ∧ e.broken = false) ∧
       (b.arvc ≠ b.expc ∨ b.pend + n ≠ 0 → e = { b with pend := b.pend + n })))

/-! ## The matrix engine and delta layers -/

/-- R58, R59: an instruction that acts once for its group, when no lane passes its guard, changes nothing, or raises its counter and is over.
R219, R223 to R226: the record instructions check their header's line and join the MX operations; the weight-region instructions join the stores. -/
def Obligations.RecordsRegionsAndIdleForms : Prop :=
  (∀ (i : Instr) (c : Ctl) (s s1 : State), Ready i c s s1 → s1.cur.passes c = false →
    (GroupForm i c → Completes i c s s1 s1 noDest) ∧
    (∀ p, CountedForm i c p → s1.pathFree p = .ok () → Completes i c s s1 (nullOp s1 p) noDest)) ∧
  ((∀ (i : Instr) (c : Ctl) (a : Src) (which : Nat) (w : Group → Word64 × Word64) (kind : AccKind) (dst : Option (BitVec 8)) (s s1 s2 : State) (acc : LaneAcc),
    RecordForm i c a which w kind dst → Ready i c s s1 → s1.pathFree .mx = .ok () → s1.cur.passes c = true →
    (which = 0 → bindOk (w s1.cur).1 (w s1.cur).2 = true) →
    s1.accept s1.cur.vf kind 256 false [{ lane := 0, va := (s1.cur.uniA c a).toNat }] = .ok (s2, [acc]) → s2.settled [(0, Loc.pa acc.pa, 64)] = .ok () →
    (which = 2 → s2.cur.mxBefore s2.cur.seq = true ∨ s2.recHeld acc.pa = true ∨ s2.poisoned acc.pa = false) →
    (let g := s1.cur.addOp s1.steps (some .mx) (.dlr which (s1.cur.uniA c a).toNat acc.pa (w s1.cur).1 (w s1.cur).2)
     Completes i c s s1 ((s2.setCur (match dst with | some d => g.awaiting .s (s1.cur.rD c d) 1 allLanes | none => g)).settleAcc s1.cur.id none) noDest)) ∧
  (∀ (c : Ctl) (o : WregSet) (s s1 : State), Ready (.wregSet c o) c s s1 → s1.pathFree .store = .ok () → s1.cur.passes c = true →
    (let b := (s1.cur.uniA c o.a).toNat
     let n := (s1.cur.uniB c o.b).toNat
     b % 64 = 0 → n % 64 = 0 → 0 < n → n ≤ 2 ^ 40 → b + n ≤ 2 ^ 57 →
     Completes (.wregSet c o) c s s1 (s1.setCur (s1.cur.addOp s1.steps (some .store) (.wreg o.id.toNat (some (b, n))))) noDest)) ∧
  (∀ (c : Ctl) (id : BitVec 6) (s s1 : State), Ready (.wregClr c id) c s s1 → s1.pathFree .store = .ok () → s1.cur.passes c = true →
    Completes (.wregClr c id) c s s1 (s1.setCur (s1.cur.addOp s1.steps (some .store) (.wreg id.toNat none))) noDest))

/-- R29, R203: `mxreq` reserves an accumulator that is free, `mxrel` releases a reserved one, `mxzero` sets its drain row to 0 and joins the operations on its
contents; none of them changes another accumulator.
R212: `mxdrn` takes the next row of its accumulator, with its clear, for a long-latency result in the lanes that it writes; with no lane active it
delivers the zeros of its zero clause and leaves the accumulator (R59).
R208, R209: the settings of the matrix engine. A scale configuration has reserved bits clear and a row shift of at most 24; a window has no field 0 that
must not be and an output width exponent below 7. -/
def Obligations.AccumulatorsAndSettings : Prop :=
  ((∀ (c : Ctl) (d : BitVec 8) (s s1 : State), s1.cur.passes c = true →
    (Ready (.mxreq c d) c s s1 → (s1.cur.accName (s1.cur.rD c d)).bound = false →
      Completes (.mxreq c d) c s s1 (s1.setCur (s1.cur.setAccName (s1.cur.rD c d) { bound := true, key := s1.cur.seq, cur := 0 })) noDest) ∧
    (Ready (.mxrel c d) c s s1 → (s1.cur.accName (s1.cur.rD c d)).bound = true →
      Completes (.mxrel c d) c s s1 (s1.setCur (s1.cur.setAccName (s1.cur.rD c d) {})) noDest) ∧
    (Ready (.mxzero c d) c s s1 → s1.pathFree .mx = .ok () → (s1.cur.accName (s1.cur.rD c d)).bound = true →
      Completes (.mxzero c d) c s s1 ((s1.setCur ((s1.cur.setAccName (s1.cur.rD c d) { s1.cur.accName (s1.cur.rD c d) with cur := 0 }).addOp s1.steps (some .mx)
        (.mxzero (s1.cur.accName (s1.cur.rD c d)).key))).settleAcc s1.cur.id none) noDest)) ∧
  (∀ (c : Ctl) (d : BitVec 8) (g : Group) (a : AccName) (n : Nat), n < 8 → g.rD c d < 8 → n ≠ g.rD c d → (g.setAccName (g.rD c d) a).accName n = g.accName n)) ∧
  (∀ (c : Ctl) (o : MxDrn) (s s1 : State), Ready (.mxdrn c o) c s s1 → s1.pathFree .mx = .ok () →
    (let n := idxReg c.idxA o.a s1.cur.x
     let a := s1.cur.accName n
     (s1.cur.active c ≠ 0 → a.bound = true → a.cur < 64 →
       Completes (.mxdrn c o) c s s1 ((s1.setCur (((s1.cur.setAccName n { a with cur := a.cur + 1 }).addOp s1.steps (some .mx)
         (.mxdrn a.key a.cur o.clr (s1.cur.active c ||| s1.cur.helpersFor c))).awaiting .v (s1.cur.rD c o.d) 1 (s1.cur.written c))).settleAcc s1.cur.id none) noDest) ∧
     (s1.cur.active c = 0 →
       Completes (.mxdrn c o) c s s1 (s1.setCur ((((s1.cur.addOp s1.steps (some .mx) .null).awaiting .v (s1.cur.rD c o.d) 1 (s1.cur.written c)).fillPend s1.cur.seq
         allLanes true fun _ _ => 0).finishOp s1.cur.seq)) noDest))) ∧
  ((∀ (c : Ctl) (o : MxScl) (s s1 : State), Ready (.mxscl c o) c s s1 → s1.cur.passes c = true →
    (s1.cur.uniB c o.b).toNat < 2 ^ 9 → (s1.cur.uniB c o.b).toNat / 32 % 8 = 0 → (s1.cur.uniB c o.b).toNat % 32 ≤ 24 →
    Completes (.mxscl c o) c s s1 (s1.setScale o.sideB { base := s1.cur.uniA c o.a, cfg := (s1.cur.uniB c o.b).setWidth 9, en := true, since := s1.cur.seq })
      noDest) ∧
  (∀ (c : Ctl) (b : Bool) (s s1 : State), Ready (.mxsclNone c b) c s s1 → s1.cur.passes c = true →
    Completes (.mxsclNone c b) c s s1 (s1.setScale b { (if b then s1.cur.sclB else s1.cur.sclA) with en := false }) noDest) ∧
  (∀ (c : Ctl) (a : Src) (s s1 : State), Ready (.mxwin c a) c s s1 → s1.cur.passes c = true →
    (let n := (s1.cur.uniA c a).toNat
     n < 2 ^ 24 → n / 2 ^ 15 % 2 = 0 → n % 32 = 0 → n / 2 ^ 12 % 8 ≠ 7 → n / 2 ^ 8 % 8 ≠ 0 → n / 2 ^ 5 % 8 ≠ 0 → n / 2 ^ 16 ≠ 0 →
     Completes (.mxwin c a) c s s1 (s1.setCur { s1.cur with win := (s1.cur.uniA c a).setWidth 24 }) noDest)))

/-- R204, R207 to R210: an `mxmma` that passes its checks, with room in its cluster's table, posts the pass that its operands describe and resets the
drain row of its accumulator.
R213, R214, R228: `mxpass` and `mxdelta` read their descriptor at issue, write its STATUS to 0, and post their pass. -/
def Obligations.PassesArePosted : Prop :=
  (∀ (c : Ctl) (o : MxMma) (s s1 s2 s3 : State) (maps : List PageMap), Ready (.mxmma c o) c s s1 → s1.pathFree .mx = .ok () → s1.cur.passes c = true →
    MmaOk s1 s2 c o maps → s2.post = .ok s3 →
    (let n := s1.cur.rD c o.d
     Completes (.mxmma c o) c s s1 ((s3.setCur ((s1.cur.setAccName n { s1.cur.accName n with cur := 0 }).addOp s1.steps (some .mx)
       (.mma (mmaOf s1 c o maps)))).noteOffers s1.cur.cluster) noDest)) ∧
  (∀ (i : Instr) (c : Ctl) (a : Src) (k : List Byte → Nat → Nat → OpKind) (s s1 s2 s3 : State) (d : List Byte) (pa : Nat),
    DetachedForm i c a k → Ready i c s s1 → s1.pathFree .mx = .ok () → s1.cur.passes c = true →
    s1.takeDescriptor (s1.cur.uniA c a).toNat = .ok (s2, d, pa) → s2.post = .ok s3 →
    (let va := (s1.cur.uniA c a).toNat
     let s4 := s3.writeStatus s3.cur s3.cur.me.pc va pa 0
     Completes i c s s1 ((s4.setCur (s4.cur.addOp s4.steps (some .mx) (k d va pa))).noteOffers s4.cur.cluster) noDest))

/-! ## The filter unit, rays, ring queues, draws and frames -/

/-- R59, R241 to R243, R253 to R256: a texture instruction reads and checks its descriptor, has every texel of its lanes accepted, and joins the FILT
operations with its awaited registers; `tex.q` reads the descriptor alone. -/
def Obligations.TextureInstructions : Prop :=
  (∀ (i : Instr) (c : Ctl) (o : Tex) (given : Bool) (s s1 : State), TexForm i c o given → Ready i c s s1 → s1.pathFree .filt = .ok () →
    (s1.cur.active c = 0 → Completes i c s s1 (nullFilter s1 (s1.cur.rD c o.d) o.dstRegs (s1.cur.written c)) noDest) ∧
    (∀ (s2 s3 : State) (desc : List Byte) (pages : List PageMap) (helpers : Word32), s1.cur.active c ≠ 0 → s1.texDesc c o.b o.dim = .ok (s2, desc) →
      s2.acceptData c true (texReads s2.cur c o given desc) = .ok (s3, pages, helpers) →
      Completes i c s s1 (s3.addFilter i c (s1.cur.rD c o.d) o.dstRegs desc helpers (s3.cur.written c) (s2.cur.texSrcs c o.a) pages) noDest)) ∧
  (∀ (i : Instr) (c : Ctl) (o : TexQ) (n : Nat) (s s1 : State), TexQForm i c o n → Ready i c s s1 → s1.pathFree .filt = .ok () →
    (s1.cur.active c = 0 → Completes i c s s1 (nullFilter s1 (s1.cur.rD c o.d) n (s1.cur.written c)) noDest) ∧
    (∀ (s2 : State) (desc : List Byte), s1.cur.active c ≠ 0 → s1.texDesc c o.b o.dim = .ok (s2, desc) →
      Completes i c s s1 (s2.addFilter i c (s1.cur.rD c o.d) n desc (s2.cur.helpersFor c) (s2.cur.written c) (s2.cur.texSrcs c o.a) []) noDest))

/-- R243, R257 to R263: `hg.fetch` has every feature of its lanes accepted; `hg.scat` every slot that it adds to before any is changed; each reads and checks
its table, and in `.exact` mode the gradient headers. -/
def Obligations.HashGridInstructions : Prop :=
  (∀ (c : Ctl) (o : Hg) (s s1 : State), Ready (.hgFetch c o) c s s1 → s1.pathFree .filt = .ok () →
    (let lanes := s1.cur.active c ||| s1.cur.zeroLanes c
     (s1.cur.active c = 0 → Completes (.hgFetch c o) c s s1 (nullFilter s1 (s1.cur.rD c o.d) (hgRegs o.nregm) lanes) noDest) ∧
     (∀ (s2 s3 : State) (tab : List Byte) (pages : List PageMap) (h : Word32), s1.cur.active c ≠ 0 → s1.gridTable c o.b o.d3 (hgRegs o.nregm) o.ty = .ok (s2, tab, 0) →
       s2.acceptData c false (fun l => (gridReads tab (gridLane s2.cur c o.a o.d3 l)).map (·.1)) = .ok (s3, pages, h) →
       Completes (.hgFetch c o) c s s1 (s3.addFilter (.hgFetch c o) c (s1.cur.rD c o.d) (hgRegs o.nregm) tab 0 lanes (s2.cur.texSrcs c o.a) pages) noDest))) ∧
  (∀ (c : Ctl) (o : HgScat) (s s1 : State), Ready (.hgScat c o) c s s1 → s1.pathFree .filt = .ok () →
    (s1.cur.active c = 0 → Completes (.hgScat c o) c s s1 (s1.setCur ((s1.cur.addOp s1.steps (some .filt) .null).finishOp s1.cur.seq)) noDest) ∧
    (∀ (s2 s3 s4 : State) (tab : List Byte) (hs : List (Nat × Nat × Nat × Int)) (accs : List LaneAcc), s1.cur.active c ≠ 0 →
      s1.gridTable c o.b o.d3 (hgRegs o.nregm) o.ty = .ok (s2, tab, 0) →
      (if o.exact then s2.gradHeaders tab = .ok (s3, hs) else s3 = s2 ∧ hs = []) → (∀ h ∈ hs, h.2.2.2 ≠ 1000) →
      s3.accept s3.cur.vf .atomic 1 false (scatSlots s3.cur c o tab) = .ok (s4, accs) →
      (let adds := scatAdds s3.cur c o tab hs (accPages accs)
       let s5 := s4.arrive (filterUnit s4.cur.coreIx)
       let g := s5.cur.addOp s5.steps (some .filt) (.scatter adds)
       Completes (.hgScat c o) c s s1 (if adds = [] then (s5.setCur (g.finishOp g.seq)).filterIdle g.coreIx else s5.setCur g) noDest)))

/-- R275 to R278: a ray instruction has the records of its active lanes accepted and joins the RAY operations; `ray.get` awaits its registers. -/
def Obligations.RayInstructions : Prop :=
  ∀ (i : Instr) (c : Ctl) (a : Src) (kind : AccKind) (k : Group → RayKind) (flags : Word64) (f : Group → Nat → Word64 × List Word64)
    (dst : Option (BitVec 8 × Nat)) (s s1 s2 : State) (accs : List LaneAcc), RayForm i c a kind k flags f dst → Ready i c s s1 → s1.pathFree .ray = .ok () →
    (let base := (s1.cur.uniA c a).toNat
     (s1.cur.active c ≠ 0 → base % 512 = 0 ∧ ∀ r, k s1.cur = .trc r → refBad r.toNat = false) →
     s1.accept s1.cur.vf kind 1 false (rayLines s1.cur c base) = .ok (s2, accs) →
     (let lanes : List RayLane := (accs.filter fun x => x.va % 512 = 0).map fun x =>
        { lane := x.lane, recVa := x.va, recPa := x.pa, arg := (f s1.cur x.lane).1, ray := (f s1.cur x.lane).2 }
      let g := s1.cur.addOp s1.steps (some .ray) (.ray (k s1.cur) lanes flags)
      Completes i c s s1 ((s2.arrive (rayUnit s1.cur.cluster)).setCur
        (match dst with | some (d, n) => g.awaiting .v (s1.cur.rD c d) n (s1.cur.active c ||| s1.cur.zeroLanes c) | none => g)) noDest))

/-- R290, R292: `ring.push` puts the entries of its active lanes, in ascending order, behind the tail of a ring that has room, once the group's older
accesses are complete; with no lane active it does nothing.
R291: `ring.pop` gives the entries at the head to the active lanes in ascending order, each with its index; a lane beyond them takes the empty mark. -/
def Obligations.RingQueues : Prop :=
  (∀ (c : Ctl) (o : RingPush) (s s1 : State), Ready (.ringPush c o) c s s1 →
    (s1.cur.active c = 0 → Completes (.ringPush c o) c s s1 s1 noDest) ∧
    (∀ (k : Nat) (t : Handle), s1.cur.active c ≠ 0 → s1.tileNamed (s1.cur.rA c o.h) o.peer .ring = .ok (k, t) →
      (let act := lanesOf (s1.cur.active c)
       let b := s1.cur.rB c o.b.reg
       act.length ≤ t.rows → b + t.rowb / 8 ≤ s1.cur.nv → (t.tail - t.head).toNat + act.length ≤ t.rows →
       s1.cur.counter .load = 0 → s1.cur.counter .store = 0 →
       Completes (.ringPush c o) c s s1 ((s1.updHandle k (s1.cur.rA c o.h) fun q => act.foldl (fun q l =>
           { q.writeN (q.tail.toNat % q.rows * q.rowb) (s1.cur.ringEntry b (t.rowb / 8) l) with tail := q.tail + 1 }) q).setCur
         (s1.cur.killMore o.b b (t.rowb / 8))) noDest))) ∧
  (∀ (c : Ctl) (o : RingPop) (s s1 : State), Ready (.ringPop c o) c s s1 →
    (s1.cur.active c = 0 → s1.cur.zeroLanes c = 0 → Completes (.ringPop c o) c s s1 s1 noDest) ∧
    (∀ t : Handle, s1.cur.active c = 0 → s1.cur.zeroLanes c ≠ 0 →
      t = (match o.peer with
        | none => s1.handle s1.cur.wg (s1.cur.rA c o.h)
        | some m => match s1.peerWg s1.cur m.toNat with | some k => s1.handle k (s1.cur.rA c o.h) | none => {}) →
      Completes (.ringPop c o) c s s1 (s1.setCur ((List.range ((if t.st = .allocated ∧ t.kind = .ring then t.rowb / 8 else 0) + 1)).foldl (fun g j =>
        if g.nv ≤ s1.cur.rD c o.d + j then g else g.addPend .v (s1.cur.rD c o.d + j) (s1.cur.zeroLanes c) (Lanes.gen fun _ => 0) true) s1.cur)) noDest) ∧
    (∀ (k : Nat) (t : Handle), s1.cur.active c ≠ 0 → s1.tileNamed (s1.cur.rA c o.h) o.peer .ring = .ok (k, t) →
      (let n := t.rowb / 8
       let d := s1.cur.rD c o.d
       let avail := min (t.tail - t.head).toNat (lanesOf (s1.cur.active c)).length
       let row (i : Nat) : Nat := (t.head.toNat + i) % t.rows * t.rowb
       s1.settled [] = .ok () → d + (n + 1) ≤ s1.cur.nv → s1.cur.uncommitted + n + 1 ≤ 128 → (∀ i < avail, t.poisoned (row i) t.rowb = false) →
       ∃ val : Nat → Lanes Word64,
         (∀ j ≤ n, ∀ l < 32, lane (s1.cur.active c) l = true → ∀ i, i = ((List.range l).filter (lane (s1.cur.active c))).length →
           ((val j).get l 0).toNat = if i < avail then (if j = 0 then (t.head.toNat + i) % 2 ^ 32 else natLE (t.readN (row i + 8 * (j - 1)) 8))
             else if j = 0 then 2 ^ 63 else 0) ∧
         (∀ j ≤ n, ∀ l < 32, lane (s1.cur.zeroLanes c) l = true → (val j).get l 0 = 0) ∧
         (let s2 := s1.updHandle k (s1.cur.rA c o.h) fun q => { q with head := q.head + BitVec.ofNat 64 avail }
          let s3 := if avail ≠ 0 ∧ t.clus = true then s2.acquireAt s1.cur (some .k) else s2
          Completes (.ringPop c o) c s s1 (s3.setCur ((List.range (n + 1)).foldl (fun g j =>
            g.addPend .v (d + j) (s1.cur.active c ||| s1.cur.zeroLanes c) (val j) true) s3.cur)) noDest))))

/-- R288, R296, R297: `rast.sub` queues a draw with its descriptor where its granule has room; `enc.frm` opens a frame whose descriptor is in order, or
says why not in its STATUS; `enc.tile` joins its marks to the group's operations. -/
def Obligations.DrawsAndFrames : Prop :=
  (∀ (c : Ctl) (a : Src) (s s1 s2 : State) (acc : LaneAcc), Ready (.rastSub c a) c s s1 → s1.cur.passes c = true →
    s1.accept s1.cur.vf .read 64 true [{ lane := 0, va := (s1.cur.uniA c a).toNat }] = .ok (s2, [acc]) → (s2.gran s2.cur.slice).draws.length < 16 →
    s2.settled [(0, Loc.pa acc.pa, 64)] = .ok () → s2.lost acc.pa = false →
    (let va := (s1.cur.uniA c a).toNat
     let s3 := s2.readOnce 0 (s2.cur.agent s2.cur.me.pc) (va, acc.pa)
     let g := s3.cur
     let d : Draw := { vf := g.vf, gid := g.id, launchId := g.launchId, lastId := g.lastId.toNat, pc := g.me.pc, seq := g.seq, desc := s2.homeRead acc.pa 64, va,
                       pa := acc.pa }
     Completes (.rastSub c a) c s s1 (s3.updGran g.slice fun k => { k with draws := k.draws ++ [d] }) noDest)) ∧
  (∀ (c : Ctl) (a : Src) (s s1 s2 : State) (acc high : LaneAcc), Ready (.encFrm c a) c s s1 → s1.cur.passes c = true →
    (s1.cur.uniA c a).toNat % 128 = 0 →
    s1.accept s1.cur.vf .read 64 true [{ lane := 0, va := (s1.cur.uniA c a).toNat }, { lane := 0, va := (s1.cur.uniA c a).toNat + 64 }] = .ok (s2, [acc, high]) →
    s2.settled [(0, Loc.pa acc.pa, 64), (0, Loc.pa high.pa, 64)] = .ok () → s2.lost acc.pa = false → s2.lost high.pa = false →
    (let va := (s1.cur.uniA c a).toNat
     let desc := s2.homeRead acc.pa 64 ++ s2.homeRead high.pa 64
     let ag := s2.cur.agent s2.cur.me.pc
     let s3 := (s2.readOnce 0 ag (acc.va, acc.pa)).readOnce 0 ag (high.va, high.pa)
     let g := s3.cur
     let put (st : Nat) : State :=
       (s3.write g.vf (va + 0x78) (acc.pa + 0x78) [BitVec.ofNat 8 st] g.writer).watch g.vf (va + 0x78) (acc.pa + 0x78) 1 4 (g.agent g.me.pc)
     let x := FrameDesc.of desc
     let gr := g.slice + x.lane
     let frame : Frame := { vf := g.vf, gid := g.id, launchId := g.launchId, lastId := g.lastId.toNat, pc := g.me.pc, desc, va, pa := acc.pa }
     (x.bad desc (s3.gran g.slice).num = true → Completes (.encFrm c a) c s s1 (put 2) noDest) ∧
     (x.bad desc (s3.gran g.slice).num = false → s3.streamHeld g.vf gr x = true → Completes (.encFrm c a) c s s1 (put 6) noDest) ∧
     (x.bad desc (s3.gran g.slice).num = false → s3.streamHeld g.vf gr x = false →
       Completes (.encFrm c a) c s s1 ((put 0).updStream gr x.stream fun t => { t.takenBy g.vf with frames := t.frames ++ [frame] }) noDest))) ∧
  (∀ (c : Ctl) (o : AB) (s s1 : State), Ready (.encTile c o) c s s1 → s1.cur.passes c = true → (s1.cur.uniB c o.b).toNat < 2 ^ 48 →
    Completes (.encTile c o) c s s1 (s1.setCur (s1.cur.addOp s1.steps none (.mark (s1.cur.uniA c o.a).toNat (s1.cur.uniB c o.b)))) noDest)

/-! ## Control, traps and system instructions -/

/-- R53, R100 to R103, R108: a branch that is taken transfers its slot to its target's header; one that is not goes on to the next item. `call` pushes its
frame, `ret` removes the youngest one of its split that shares a lane with it. A divergence step needs a stack that software has not written (R24).
R104: entering a block where nothing waits: the slot stands at the first unit of its body, with its lanes and with its window banked.
R103: a `brc` whose lanes disagree splits its path: the lanes that pass the guard enter the target in the other slot, the others go on at the next
item; both belong to a new split whose parent is the split they come from.
R104, R105: a path that arrives at its reconvergence target waits; where a waiting slot of its split stands there, the two become one path, which ends the split:
the split's identifier is free, the path belongs to the outer split, and its target is that of the join entry, which is taken away. R105, R109: the
split ends as well where `exit` leaves it one path alone; the frame entries that share no lane with a path go.
R106: an EMPTY slot takes the youngest path entry; where both slots wait, the one in slot 1 changes places with the youngest entry that does not; where none
is left, the path in slot 0 goes on, with no target. -/
def Obligations.Branches : Prop :=
  ((∀ (i : Instr) (c : Ctl) (s s1 u : State) (taken : Bool) (tgt : Nat), BranchForm i c s1 taken tgt u → Clear i c c.mark s s1 →
    (taken = true → Transfers i c s s1 u tgt) ∧
    (taken = false → s1.cur.me.pc + BitVec.ofNat 32 c.units ≠ s1.cur.me.blk.bend → Completes i c s s1 u noDest)) ∧
  (∀ (s : State) (k : Blk), s.cur.me.st = .live → (s.cur.slot (!s.cur.sel1)).st = .empty → s.cur.stack = [] → s.cur.me.pc ≠ s.cur.me.reconv →
    s.cur.me.pc = k.hdr → k.entry = .none →
    (let t := s.entered k
     t.cur.me = { s.cur.me with win := [], blk := k } ∧ t.cur.split = s.cur.split ∧ t.setCur s.cur = s))) ∧
  ((∀ (c : Ctl) (imm : BitVec 27) (s s1 s2 s3 w : State) (g : Group), Clear (.brc c imm) c c.mark s s1 →
    s1.checkTarget (s1.cur.target imm) = .ok s2 →
    (let m := s1.cur.me.mask &&& s1.cur.guardLanes c
     let rc : Int := (s1.cur.me.blk.hdr.toNat : Int) + s1.cur.me.blk.rc.toInt
     let v := s3.placed (.brc c imm) c s1.cur.x
     m ≠ 0 → m ≠ s1.cur.me.mask → (if s1.cur.me.blk.rc = 0 then s3 = s2 else s2.checkTarget (if rc < 0 then 1 else rc.toNat) = .ok s3) →
     s2.cur.divTouched = false → (s3.cur.splitSlot s3.cur.sel1 m (BitVec.ofNat 32 (s1.cur.target imm)) s1.cur.me.pc
       (if s1.cur.me.blk.rc = 0 then noTarget else BitVec.ofInt 32 rc)).isSome = true →
     v.cur.splitSlot v.cur.sel1 m (BitVec.ofNat 32 (s1.cur.target imm)) v.cur.me.pc (if s1.cur.me.blk.rc = 0 then noTarget else BitVec.ofInt 32 rc) = some g →
     s1.cur.me.pc + BitVec.ofNat 32 c.units ≠ s1.cur.me.blk.bend →
     ((v.setCur g).onward c).makeEntry (!s1.cur.sel1) = .next w →
     (∀ w2, (if w.cur.canIssue s1.cur.sel1 then w.makeEntry s1.cur.sel1 = .next w2 else w2 = w) → w2.mirrorStop s.cur = none →
       exec (.brc c imm) s = .next (w2.mirror s.cur)))) ∧
  (∀ (g h : Group) (b : Bool) (taken tgt next rc : Word32), g.splitSlot b taken tgt next rc = some h → (g.slot b).st ≠ .empty →
    ∃ n, 0 < n ∧ n < 256 ∧ (tget g.split n {}).valid = false ∧ h.split = tset g.split n { valid := true, parent := (g.slot b).parent } ∧
      (h.slot (!b)).st = .live ∧ (h.slot (!b)).mask = taken ∧ (h.slot b).mask = (g.slot b).mask &&& ~~~taken ∧ (h.slot (!b)).pc = tgt ∧ (h.slot b).pc = next ∧
      (h.slot (!b)).reconv = rc ∧ (h.slot b).reconv = rc ∧ (h.slot (!b)).parent = BitVec.ofNat 8 n ∧ (h.slot b).parent = BitVec.ofNat 8 n)) ∧
  ((∀ (g : Group) (b : Bool) (n up : BitVec 8) (j : Option Word32) (rest : List DivEnt),
    (let t := g.slot b
     let o := g.slot (!b)
     let h := (g.enter (.slot b)).refill
     t.st = .live → t.pc = t.reconv → (∀ e ∈ g.stack, e.mask = 0) →
     (o.st = .live → (h.slot b).path = { t.path with wait := true } ∧ h.slot (!b) = o ∧ h.stack = g.stack ∧ h.split = g.split) ∧
     (t.parent = n → o.st = .waiting → o.parent = n → o.pc = t.pc → outerSplit g n up → JoinOf n g.stack j rest →
       h.slot0.path = { wait := false, pc := t.pc, mask := t.mask ||| o.mask, reconv := if j = some t.pc then noTarget else j.getD noTarget, parent := up,
                        blk := t.blk } ∧
       h.slot1 = {} ∧ h.stack = rest ∧ h.split = splitGone g n up))) ∧
  (∀ (g : Group) (young old : List DivEnt) (e : DivEnt), g.stack = young ++ e :: old → e.mask ≠ 0 →
    (∀ b, (g.slot b).st = .empty → (g.slot (!b)).st = .live → (∀ f ∈ young, f.mask = 0) →
      (g.refill.slot b).path = e.path ∧ (g.refill.slot b).win = [] ∧ g.refill.slot (!b) = g.slot (!b) ∧ g.refill.stack = young ++ old) ∧
    (g.slot0.st = .waiting → g.slot1.st = .waiting → e.wait = false → (∀ f ∈ young, f.mask = 0 ∨ f.wait = true) →
      g.refill.slot1.path = e.path ∧ g.refill.slot1.win = [] ∧ g.refill.slot0 = g.slot0 ∧ g.refill.stack = g.slot1.path.entry :: (young ++ old))) ∧
  (∀ g : Group, (∀ e ∈ g.stack, e.mask = 0 ∨ e.wait = true) → g.slot0.st = .waiting → g.slot1.st = .waiting →
    g.refill = { g with slot0 := { g.slot0 with st := .live, reconv := noTarget } }) ∧
  (∀ g : Group, (∀ e ∈ g.stack, e.mask = 0) → g.slot0.st = .empty → g.slot1.st = .waiting →
    g.refill = { g with slot0 := { g.slot1 with st := .live, reconv := noTarget }, slot1 := {} }) ∧
  (∀ (g : Group) (out : Word32) (n up : BitVec 8) (j : Option Word32) (rest : List DivEnt),
    (let x := g.slot (!g.sel1)
     let h := g.leave out
     g.me.mask &&& ~~~out = 0 → g.me.parent = n → x.parent = n → x.st = .live → (∀ e ∈ g.stack, e.mask = 0) → outerSplit g n up → JoinOf n g.stack j rest →
     h.stack = rest.filter (fun e => !(e.isFrame && e.reconv &&& x.mask = 0)) ∧ h.split = splitGone g n up ∧
     (x.pc ≠ j.getD noTarget → (h.slot (!g.sel1)).path = { x.path with parent := up, reconv := j.getD noTarget } ∧ h.slot g.sel1 = {}) ∧
     (x.pc = j.getD noTarget → h.slot0.path = { x.path with parent := up, reconv := noTarget } ∧ h.slot1 = {}))))

/-- R109: `exit` takes a commit park; then its active lanes leave. The slot goes on with those that stay; where none stays, and no other path is there,
the group has ended and its lanes are exited. With no lane active it goes on to the next item. -/
def Obligations.ExitLeaves : Prop :=
  ∀ (c : Ctl) (s s1 : State), Clear (.exit c) c true s s1 →
    (let out := s1.cur.active c
     let v := s1.placed (.exit c) c s1.cur.x
     let g0 := v.cur.leave out
     let g := g0.setSlot v.cur.sel1 { g0.slot v.cur.sel1 with parked := false, wait := none }
     let u := v.setCur { g with ended := g.live = 0 }
     (out ≠ 0 → s1.cur.divTouched = false → s1.cur.me.mask &&& ~~~out = 0 → u.mirrorStop s.cur = none → exec (.exit c) s = .next (u.mirror s.cur)) ∧
     (out ≠ 0 → s1.cur.divTouched = false → s1.cur.me.mask &&& ~~~out ≠ 0 → u.cur.me.pc + BitVec.ofNat 32 c.units ≠ u.cur.me.blk.bend →
       (u.onward c).mirrorStop s.cur = none → exec (.exit c) s = .next ((u.onward c).mirror s.cur)) ∧
     (out = 0 → s1.cur.me.pc + BitVec.ofNat 32 c.units ≠ s1.cur.me.blk.bend → Completes (.exit c) c s s1 s1 noDest) ∧
     (s1.cur.me.mask &&& ~~~out = 0 → (s1.cur.slot (!s1.cur.sel1)).st = .empty → (s1.cur.slot (!s1.cur.sel1)).mask = 0 → s1.cur.stack = [] → u.cur.ended = true ∧ u.cur.helper = 0 ∧
       u.cur.exited = s1.cur.exited ||| s1.cur.helper ||| out))

/-- R36, R47, R110, R111: `trap` raises ILLEGAL, `brk` raises DEBUG, and an item that the opcode map does not list raises ILLEGAL, each at its own unit.
R25, R72: an instruction that names a register at or above its declared count raises REG_RANGE before it does anything else.
R36, R66: a trap in a group whose results have all returned takes a commit park; at U with a handler, the trap registers then hold the cause with its
slot, the unit and the address, the privilege is S, and the slot enters the handler; no byte of memory changes. R36, R395: at S, or with no handler, the group
halts and its launch faults: its other groups are asked to end, and the function's registers name the launch, the unit, the cause and the address.
Where results are out, the trap waits for them. That the vector's low 32 bits alone count, and that the handler is entered as a header at the vector's own unit,
are the model's choices (log entries 65, 64).
R110: `trap.ret` and `trap.skip` raise PERM at U; at S they give back the privilege U, and the slot that trapped goes on where the form says. -/
def Obligations.Traps : Prop :=
  (((∀ (c : Ctl) (n : BitVec 11) (s s1 : State), Clear (.trap c n) c c.mark s s1 → s1.cur.passes c = true → exec (.trap c n) s = .next (s1.traps .illegal 0)) ∧
  (∀ (c : Ctl) (n : BitVec 13) (s s1 : State), Clear (.brk c n) c c.mark s s1 → s1.cur.passes c = true → exec (.brk c n) s = .next (s1.traps .debug 0)) ∧
  (∀ (w : Word64) (s : State), exec (.unlistedOpcode w) s = .next (s.traps .illegal 0))) ∧
  (∀ (i : Instr) (c : Ctl) (d : BitVec 8) (t : Ty) (s : State), s.cur.rangeOk i c = false →
    ((∃ b, BitResult i c d t b) ∨ (∃ b x, IntResult i c d t b x) ∨ (∃ x, UniBits i c d x) ∨ (∃ p, CountedForm i c p) ∨ GroupForm i c) →
    exec i s = .next (s.traps .regRange 0))) ∧
  (∀ (s : State) (cause : Cause) (addr : Nat),
    (let g := s.cur
     let t := s.traps cause addr
     (g.returned = true → s.away g.id = false → g.priv = .u → g.trapvec ≠ 0 → ¬(cause = .debug ∧ (s.vf g.vf).att = true) →
       t.cur.trapcause = bit g.sel1 ++ cause.code ∧ t.cur.trappc = g.me.pc ∧ t.cur.trapaddr = BitVec.ofNat 64 addr ∧ t.cur.priv = .s ∧
       t.cur.me.pc = g.trapvec.setWidth 32 ∧ t.cur.me.blk.entry = .vec ∧ t.cur.me.mask = g.me.mask ∧ t.cur.trapBlk = g.me.blk ∧ t.cur.pendTrap = none ∧
       t.cur.slot0.win = [] ∧ t.cur.slot1.win = [] ∧ t.cur.pend = [] ∧ (∀ cls n l, t.cur.seen cls n l = g.commit.seen cls n l) ∧
       t.mem = s.mem ∧ t.l2 = s.l2 ∧ t.groups = s.groups) ∧
     (g.returned = true → s.away g.id = false → g.priv = .s ∨ g.trapvec = 0 → ¬(cause = .debug ∧ (s.vf g.vf).att = true) →
       t.cur.halt = some (.trap cause.code.toNat g.me.pc (BitVec.ofNat 64 addr)) ∧ t.cur.pendTrap = none ∧ t.cur.priv = g.priv ∧ t.cur.trapcause = g.trapcause ∧
       t.cur.pend = [] ∧ (∀ cls n l, t.cur.seen cls n l = g.commit.seen cls n l) ∧
       ∀ l : Launch, s.launch? g.launch = some l → l.faulted = false → l.vf < 64 → g.gone = false →
         t.launch? g.launch = some { l with faulted := true, status := 2 } ∧ t.cur.stop = some .endGroup ∧
         (∀ h ∈ t.groups, h.launch = g.launch → h.gone = false → h.stop = some .endGroup) ∧
         (t.vf l.vf).flaunch = l.id ∧ (t.vf l.vf).finfo = BitVec.ofNat 64 (g.me.pc.toNat + 2 ^ 32 * cause.code.toNat) ∧
         (t.vf l.vf).faddr = BitVec.ofNat 64 addr ∧ (t.vf l.vf).lflt = true) ∧
     (g.returned = false → t = s.setCur { g with pendTrap := some (s.trapHere cause addr), pageWait := none }))) ∧
  (∀ (i : Instr) (c : Ctl) (s s1 s2 : State) (pc : Word32) (e : EntryMode), ReturnForm i c s1 s2 pc e → Clear i c c.mark s s1 →
    (s1.cur.passes c = true → s1.cur.priv = .u → exec i s = .next (s1.traps .perm 0)) ∧
    (s1.cur.passes c = false → s1.cur.me.pc + BitVec.ofNat 32 c.units ≠ s1.cur.me.blk.bend → Completes i c s s1 s1 noDest) ∧
    (s1.cur.passes c = true → s1.cur.priv = .s →
      (let v := s2.placed i c s1.cur.x
       let b := v.cur.trapcause.getLsbD 4
       let g := (v.cur.bankSlot b).fromTrap pc e
       g.priv = .u ∧ (g.slot b).pc = pc ∧ (g.slot b).blk = { s2.cur.trapBlk with entry := e } ∧ (g.slot b).win = [] ∧
       (e = .none → exec i s = .next ((v.setCur g).mirror s.cur)) ∧
       (∀ w, (v.setCur g).makeEntry b = .next w → w.mirrorStop s.cur = none → exec i s = .next (w.mirror s.cur)))))

/-- R27, R31, R112, R113, R116 to R118: the system instructions on special registers and the program's own marks.
R31, R116, R117: `getsr` delivers a special register, or the lane numbers, which helper lanes take as active lanes do by the model's choice (log entry 66); those
of the trap are read at S alone. `setsr` writes `sr.fpctl`, `sr.fpflags`
and, at S, `sr.trapvec`; any other raises PERM, and a reserved value ILLEGAL.
R119: a write of a workgroup register joins the order of its writes; a read delivers one of the writes that the rule allows the group, no older than
the last one it has read, its own last one, or the last one published; with no such record it delivers zero. -/
def Obligations.SystemInstructions : Prop :=
  (((∀ (c : Ctl) (s s1 : State), Ready (.nop c) c s s1 → Completes (.nop c) c s s1 s1 noDest) ∧
  (∀ (c : Ctl) (s s1 : State), Ready (.yield c) c s s1 → s1.cur.passes c = true →
    ∃ u, exec (.yield c) s = .next u ∧ After (.yield c) c s1.cur.x s1 u noDest ∧ u.cur.yielded = true) ∧
  (∀ (c : Ctl) (s s1 : State), Ready (.yield c) c s s1 → s1.cur.passes c = false → Completes (.yield c) c s s1 s1 noDest) ∧
  (∀ (c : Ctl) (s s1 : State), Clear (.park c) c (c.mark || s.cur.passes c) s s1 → s1.cur.me.pc + BitVec.ofNat 32 c.units ≠ s1.cur.me.blk.bend →
    Completes (.park c) c s s1 s1 noDest) ∧
  (∀ (c : Ctl) (n : BitVec 12) (a : Option Src) (s s1 : State), Ready (.daymark c n a) c s s1 → s1.cur.passes c = true →
    ((s1.gran s1.cur.slice).traceOn = false → Completes (.daymark c n a) c s s1 s1 noDest) ∧
    ((s1.gran s1.cur.slice).traceOn = true →
      Completes (.daymark c n a) c s s1 (s1.traceWatch s1.cur.vf (s1.cur.agent s1.cur.me.pc) (bytesLE 8 s1.cur.launchId.toNat ++ bytesLE 8 (s1.tickOf s1.cur.slice).toNat ++
        bytesLE 8 (match a with | some a => (s1.cur.uniA c a).toNat | none => 0) ++
        bytesLE 8 (s1.cur.me.pc.toNat + 2 ^ 32 * s1.cur.lastId.toNat + 2 ^ 48 * n.toNat + 2 ^ 60))) noDest)) ∧
  (∀ (c : Ctl) (v : RegImm 12) (s s1 : State), Ready (.setx c v) c s s1 → s1.cur.passes c = true →
    Completes (.setx c v) c s s1 (s1.setCur { s1.cur with x := match v with | .reg r => (s1.cur.uniA c r).setWidth 16 | .imm n => n.setWidth 16 }) noDest)) ∧
  ((∀ (c : Ctl) (d sr : BitVec 8) (s s1 : State), Ready (.getsr c d sr true) c s s1 →
    ∃ u, exec (.getsr c d sr true) s = .next u ∧ After (.getsr c d sr true) c s1.cur.x s1 u (laneDest s1.cur c .v (s1.cur.rD c d)) ∧
      ∀ l < 32, (takes s1.cur c l → u.cur.seen .v (s1.cur.rD c d) l = BitVec.ofNat 64 l) ∧
        (lane (s1.cur.zeroLanes c) l = true → u.cur.seen .v (s1.cur.rD c d) l = 0)) ∧
  (∀ (c : Ctl) (d sr : BitVec 8) (s s1 : State), Ready (.getsr c d sr false) c s s1 → s1.cur.passes c = true →
    (let system := 0x31 ≤ sr.toNat ∧ sr.toNat ≤ 0x34
     (system → s1.cur.priv = .u → exec (.getsr c d sr false) s = .next (s1.traps .perm 0)) ∧
     ((system → s1.cur.priv = .s) →
       ∃ u, exec (.getsr c d sr false) s = .next u ∧ After (.getsr c d sr false) c s1.cur.x s1 u (uniDest s1.cur c (s1.cur.rD c d)) ∧
         u.cur.readS (s1.cur.rD c d) = s1.special sr))) ∧
  (∀ (c : Ctl) (sr : BitVec 8) (a : Src) (s s1 : State), Ready (.setsr c sr a) c s s1 → s1.cur.passes c = true →
    (let v := s1.cur.uniA c a
     (sr = 0x20 → v.toNat < 64 → v.toNat % 8 < 5 → Completes (.setsr c sr a) c s s1 (s1.setCur { s1.cur with fpctl := v.setWidth 6 }) noDest) ∧
     (sr = 0x21 → v.toNat < 64 → Completes (.setsr c sr a) c s s1 (s1.setCur { s1.cur with fpflags := v.setWidth 6 }) noDest) ∧
     (sr = 0x30 → s1.cur.priv = .s → Completes (.setsr c sr a) c s s1 (s1.setCur { s1.cur with trapvec := v }) noDest) ∧
     (sr ≠ 0x20 → sr ≠ 0x21 → (sr = 0x30 → s1.cur.priv = .u) → exec (.setsr c sr a) s = .next (s1.traps .perm 0)) ∧
     (sr = 0x20 ∨ sr = 0x21 → 64 ≤ v.toNat ∨ (sr = 0x20 ∧ 5 ≤ v.toNat % 8) → exec (.setsr c sr a) s = .next (s1.traps .illegal 0)))))) ∧
  ((∀ (c : Ctl) (d : BitVec 8) (a : Src) (s s1 : State), Ready (.wmovToW c d a) c s s1 → s1.cur.passes c = true →
    Completes (.wmovToW c d a) c s s1 (s1.updWg s1.cur.wg fun w =>
      { w with wr := tset w.wr (s1.cur.rD c d) (tget w.wr (s1.cur.rD c d) [] ++ [{ val := s1.cur.uniA c a, by_ := s1.cur.id, pub := false }]) }) noDest) ∧
  (∀ (c : Ctl) (d a : BitVec 8) (s s1 : State) (w : Workgroup), Ready (.wmovFromW c d a) c s s1 → s1.cur.passes c = true → s1.wg? s1.cur.wg = some w →
    (let n := s1.cur.rA c a
     let h := tget w.wr n []
     let base := tget w.wbase n 0
     ∃ (u : State) (ix : Nat), exec (.wmovFromW c d a) s = .next u ∧
       After (.wmovFromW c d a) c s1.cur.x (s1.setCur { s1.cur with wseen := tset s1.cur.wseen n ix }) u (uniDest s1.cur c (s1.cur.rD c d)) ∧
       tget s1.cur.wseen n 0 ≤ ix ∧ (∀ k e, h[k]? = some e → e.pub = true ∨ e.by_ = s1.cur.id → base + k ≤ ix) ∧
       (tget s1.cur.wseen n 0 < base + h.length → h ≠ [] → ix < base + h.length) ∧
       u.cur.readS (s1.cur.rD c d) = (match h[ix - base]? with | some e => e.val | none => 0))))

/-- R114, R304: an arrival at a group barrier waits for the group's loads and stores; then the group waits, at its own generation, until every member of
the set has arrived, when all of them go on. -/
def Obligations.GroupSynchronisation : Prop :=
  ∀ (c : Ctl) (s s1 : State) (gang : Bool) (i : Instr), i = (if gang then .syncGang c else .syncWg c) → Ready i c s s1 →
    (s1.cur.passes c = false → Completes i c s s1 s1 noDest) ∧
    (s1.cur.passes c = true → s1.cur.counter .load = 0 → s1.cur.counter .store = 0 →
      (let me : Group := { s1.cur with syncFrom := s1.steps, syncPc := s1.cur.me.pc }
       let me : Group := if gang then { me with gangGen := me.gangGen + 1, waitg := 2 } else { me with wgGen := me.wgGen + 1, waitg := 1 }
       let u := (s1.setCur me).syncCheck gang (if gang then s1.cur.gang else s1.cur.wg) (some me)
       Completes i c s s1 u noDest ∧
       ((∃ g ∈ (s1.setCur me).members (fun g => if gang then g.gang = s1.cur.gang else g.wg = s1.cur.wg),
          g.waitg ≠ (if gang then 2 else 1) ∨ g.syncGen gang ≠ me.syncGen gang) →
        (∀ g ∈ (s1.setCur me).members (fun g => if gang then g.gang = s1.cur.gang else g.wg = s1.cur.wg),
          g.waitg = (if gang then 2 else 1) → g.syncGen gang = me.syncGen gang) → u = s1.setCur me) ∧
       ((∀ g ∈ (s1.setCur me).members (fun g => if gang then g.gang = s1.cur.gang else g.wg = s1.cur.wg),
          g.waitg = (if gang then 2 else 1) ∧ g.syncGen gang = me.syncGen gang) → me.gone = false → me.id ≠ 0 → (∀ n, (s1.gran n).prof = false) →
        u.cur.waitg = 0 ∧ ∀ g ∈ u.groups, g.id ≠ 0 → g.gone = false → (if gang then g.gang = s1.cur.gang else g.wg = s1.cur.wg) → g.waitg = 0)))

/-- R115, R352: `launch` reads its record and its queue's next slot at issue and joins the STORE operations; the lantern accepts it later. -/
def Obligations.LaunchInstruction : Prop :=
  ∀ (c : Ctl) (o : AB) (s s1 : State), Ready (.launch c o) c s s1 → s1.pathFree .store = .ok () →
    (s1.cur.passes c = false → Completes (.launch c o) c s s1 (s1.setCur (s1.cur.addOp s1.steps (some .store) .null)) noDest) ∧
    (∀ (s2 s3 : State) (accs out : List LaneAcc), s1.cur.passes c = true → s2.settled (accs.map fun a => (0, Loc.pa a.pa, 64)) = .ok () →
      (∀ a ∈ accs, s2.lost a.pa = false) →
      (let va := (s1.cur.uniA c o.a).toNat
       let q := (s1.cur.uniB c o.b).toNat
       let g := s1.cur
       let rec_ := accs.flatMap fun a => s2.homeRead a.pa 64
       let seen := accs.foldl (fun s a => s.readOnce 0 (s2.cur.agent s2.cur.me.pc) (a.va, a.pa)) s2
       let qu := seen.queue g.vf q
       let k := (seen.unaccepted g.vf q).length
       let slot := qu.slotAt (qu.tail.toNat + k)
       va % 64 = 0 → q < 16 → (s1.queue g.vf q).enabled = true → (s1.queue g.vf q).dev = true →
       s1.accept g.vf .read 1 true [{ lane := 0, va }, { lane := 0, va := (va + 64) % 2 ^ 64 }] = .ok (s2, accs) → qu.held + k < qu.size →
       seen.accept g.vf .write 1 false [{ lane := 0, va := slot }, { lane := 0, va := (slot + 64) % 2 ^ 64 }] = .ok (s3, out) →
       Completes (.launch c o) c s s1 (s3.setCur (s3.cur.addOp s3.steps (some .store) (.launch rec_ q slot (((out.head?).map (·.pa)).getD 0)))) noDest))

/-! ## Events: operations complete -/

/-- R160, R163, R170: a load that may be performed reads, for each of its lanes, the bytes at the home of its access, extends each element as its type
says, returns its results and completes; a tile load reads its tile. Neither writes memory.
R331: a load of uncompressed memory changes no byte of memory but the counts of the entries that map what the controller serves for it. -/
def Obligations.LoadsComplete : Prop :=
  (∀ (s : State) (gid op : Nat) (g : Group) (o : Op) (accs : List LaneAcc) (n cnt : Nat) (sgn l2 : Bool),
    OpenOp s gid op g o → s.ready g o = true → o.kind = .load accs n cnt sgn l2 none →
    (∀ a ∈ accs, a.zero = false → plainLoc a.pa ∧ s.unaliased g.vf a.va a.pa ∧ ((s.l2At a.pa).isSome = true ∨ a.hot = [])) →
    (accs.map (·.lane)).Nodup → s.overlay g op = [] →
    ∃ t, exec (.loadComplete gid op false) s = .next t ∧ t.mem = s.mem ∧ t.wgs = s.wgs ∧ (∀ x, t.byteAt x = s.byteAt x) ∧
      t.group? gid = some ((g.fillPend op (maskOf fun l => accs.any fun a => a.lane = l) true fun k l => loadValue s accs n cnt sgn k l).finishOp op)) ∧
  (∀ (s : State) (gid op : Nat) (g : Group) (o : Op) (accs : List LaneAcc) (n cnt : Nat) (sgn l2 : Bool),
    OpenOp s gid op g o → s.ready g o = true → o.kind = .load accs n cnt sgn l2 none → Memory.wf s.mem → s.LinesWhole →
    (∀ a ∈ accs, a.zero = false → plainLoc a.pa ∧ s.unaliased g.vf a.va a.pa ∧ Loc.comp a.pa = false ∧
      ∀ b ∈ accs, ∀ x ∈ b.hot, x < 2 ^ 60 ∧ isWindow x = false ∧ ¬(Loc.pa a.pa ≤ x ∧ x < Loc.pa a.pa + n * cnt)) →
    (accs.map (·.lane)).Nodup → s.overlay g op = [] →
    ∃ t, exec (.loadComplete gid op false) s = .next t ∧ t.wgs = s.wgs ∧
      (∀ x < 2 ^ 60, isWindow x = false → (∀ a ∈ accs, a.zero = false → x ∉ a.hot) → t.byteAt x = s.byteAt x) ∧
      t.group? gid = some ((g.fillPend op (maskOf fun l => accs.any fun a => a.lane = l) true fun k l => loadValue s accs n cnt sgn k l).finishOp op)) ∧
  (∀ (s : State) (gid op : Nat) (g : Group) (o : Op) (accs : List LaneAcc) (wg h n cnt : Nat) (sgn l1 : Bool),
    OpenOp s gid op g o → s.ready g o = true → o.kind = .tload accs wg h n cnt sgn → (accs.map (·.lane)).Nodup →
    ∃ t, exec (.loadComplete gid op l1) s = .next t ∧ t.mem = s.mem ∧ t.l2 = s.l2 ∧ t.wgs = s.wgs ∧
      t.group? gid = some ((g.fillPend op (maskOf fun l => accs.any fun a => a.lane = l) true fun k l =>
        match accs.find? (fun a => a.lane = l) with
        | some a => if a.zero then 0 else extend sgn ((((s.handle wg h).readN a.pa (n * cnt)).drop (n * k)).take n)
        | none => 0).finishOp op))

/-- R160, R161, R305: a store that may be performed writes the bytes of its lanes in lane order and completes: in uncompressed memory every byte that a lane
covers then holds what the last such lane wrote, and every other byte what it held. R163: a store to a tile does so in its tile, and R156: an `append`
puts its elements behind the cursor where the tile holds them, moves the cursor on, and delivers their places. R174: a range operation drops the lines of
its range, or leaves them clean. R219, R297, R352: a registration, the marks of `enc.tile` and a launch take effect once what they wait for is complete. -/
def Obligations.StoresArePerformed : Prop :=
  (∀ (s : State) (gid op : Nat) (g : Group) (o : Op) (accs : List LaneAcc) (data : List (List Byte)) (rel : Option Scope),
    OpenOp s gid op g o → s.ready g o = true → o.kind = .store accs data rel → accs.length = data.length → Memory.wf s.mem → s.LinesWhole →
    (∀ p ∈ accs.zip data, plainLoc p.1.pa ∧ Loc.comp p.1.pa = false ∧ p.1.va % 64 = Loc.pa p.1.pa % 64 ∧ Loc.pa p.1.pa % 64 + p.2.length ≤ 64 ∧
      s.noBarrierAt p.1.pa) →
    ∃ t, exec (.storePerformed gid op) s = .next t ∧ Finished t gid op ∧
      ∀ x < 2 ^ 60, isWindow x = false → WrittenInOrder (fun a => Loc.pa a.pa) accs data t.byteAt s.byteAt x) ∧
  ((∀ (s : State) (gid op : Nat) (g : Group) (o : Op) (accs : List LaneAcc) (wg h : Nat) (data : List (List Byte)),
    OpenOp s gid op g o → s.ready g o = true → o.kind = .tstore accs wg h data → accs.length = data.length → (s.wg? wg).isSome = true → h < 32 →
    Sparse.wf 0 (s.handle wg h).bytes = true →
    ∃ t, exec (.storePerformed gid op) s = .next t ∧ Finished t gid op ∧ t.mem = s.mem ∧ t.l2 = s.l2 ∧
      (∀ k j, (k, j) ≠ (wg, h) → t.handle k j = s.handle k j) ∧
      ∀ x, WrittenInOrder (·.pa) accs data (t.handle wg h).byte (s.handle wg h).byte x) ∧
  (∀ (s : State) (gid op : Nat) (g : Group) (o : Op) (wg h esz : Nat) (vals : List (Nat × Word64)) (helpers : Word32) (l1 : Bool),
    OpenOp s gid op g o → s.ready g o = true → o.kind = .append wg h esz vals helpers → (s.wg? wg).isSome = true → h < 32 →
    Sparse.wf 0 (s.handle wg h).bytes = true → (vals.map (·.1)).Nodup →
    (let q := s.handle wg h
     let n := natLE (q.readN 0 8)
     let fits (i : Nat) : Prop := 8 + esz * (n + i) + esz ≤ q.size
     ∃ t, exec (.loadComplete gid op l1) s = .next t ∧ t.mem = s.mem ∧ t.l2 = s.l2 ∧ (∀ k j, (k, j) ≠ (wg, h) → t.handle k j = s.handle k j) ∧
       t.group? gid = some ((g.fillPend op (helpers ||| maskOf fun l => vals.any fun v => v.1 = l) true fun _ l =>
         match vals.findIdx? (fun v => v.1 = l) with
         | some i => if 8 + esz * (n + i) + esz ≤ q.size then BitVec.ofNat 64 (n + i) else 0xFFFFFFFFFFFFFFFF
         | none => 0xFFFFFFFFFFFFFFFF).finishOp op) ∧
       (vals = [] → t.handle wg h = q) ∧ (vals ≠ [] → (t.handle wg h).readN 0 8 = bytesLE 8 (n + vals.length)) ∧
       (∀ i v j, vals[i]? = some v → fits i → j < esz → (t.handle wg h).byte (8 + esz * (n + i) + j) = (bytesLE esz v.2.toNat).getD j 0) ∧
       (∀ x, 8 ≤ x → (∀ i < vals.length, fits i → ¬(8 + esz * (n + i) ≤ x ∧ x < 8 + esz * (n + i) + esz)) → (t.handle wg h).byte x = q.byte x)))) ∧
  (∀ (s : State) (gid op : Nat) (g : Group) (o : Op) (first count : Nat) (inval l1Only : Bool),
    OpenOp s gid op g o → s.ready g o = true → o.kind = .range first count inval l1Only →
    (let mine (vf line : Nat) : Prop := vf = g.vf ∧ first ≤ line ∧ line < first + count
     let bars (pl : Nat) : Prop := ∃ b ∈ s.barLines, Loc.pa b.1 / 64 = pl
     ∃ t, exec (.storePerformed gid op) s = .next t ∧ Finished t gid op ∧
       (l1Only = true → t.mem = s.mem ∧ t.l2 = s.l2 ∧ ∀ e ∈ (t.coreAt g.coreIx).l1, ¬mine e.vf e.line) ∧
       (l1Only = false → inval = true → (∀ l ∈ t.l2, mine l.vf l.line → bars l.pa) ∧
         ∀ c ∈ s.sliceCores (s.vf g.vf).slice, ∀ e ∈ (t.coreAt c).l1, ¬mine e.vf e.line) ∧
       (l1Only = false → inval = false →
         ((∀ l ∈ s.l2, ∀ m ∈ s.l2, ∀ x ∈ ([m.attr.leaf1, m.attr.leaf2] : List Nat), x = 0 ∨ Loc.pa (x + 7) / 64 ≠ l.pa) →
           ∀ l ∈ t.l2, mine l.vf l.line → bars l.pa ∨ l.dirty = false) ∧
         ∀ l, s.l2.filter (fun l => l.vf = g.vf && decide (first ≤ l.line) && decide (l.line < first + count)) = [l] → l.dirty = true → ¬bars l.pa →
           l.attr.comp = false → l.attr.leaf1 = 0 → l.attr.leaf2 = 0 → 64 * l.pa < 2 ^ 60 → (∀ m ∈ s.l2, m.pa = l.pa → m = l) →
           t.mem = Memory.writeN s.mem (64 * l.pa) l.bytes))) ∧
  (∀ (s : State) (gid op id : Nat) (g : Group) (o : Op) (set : Option (Nat × Nat)), OpenOp s gid op g o → s.ready g o = true → o.kind = .wreg id set →
    g.vf < 64 → id < 64 →
    (g.olderStored o = false → exec (.storePerformed gid op) s = .next s) ∧
    (g.olderStored o = true → ∃ t, exec (.storePerformed gid op) s = .next t ∧ Finished t gid op ∧ t.mem = s.mem ∧ t.l2 = s.l2 ∧
      (∀ k ≠ id, tget (t.vf g.vf).regions k {} = tget (s.vf g.vf).regions k {}) ∧
      (let r := tget (s.vf g.vf).regions id {}
       tget (t.vf g.vf).regions id {} = { r with reg := set.isSome, base := (set.map (·.1)).getD r.base, size := (set.map (·.2)).getD r.size,
                                                 ver := r.ver + 1, obs := false }))) ∧
  (∀ (s : State) (gid op va gr n : Nat) (g : Group) (o : Op) (rect : Word64) (f : Frame) (young rest : List Frame), OpenOp s gid op g o → s.ready g o = true →
    o.kind = .mark va rect →
    (g.olderStored o = false → exec (.storePerformed gid op) s = .next s) ∧
    (g.olderStored o = true → gr < 16 → n < 4 → g.slice ≤ gr → gr < g.slice + (s.gran g.slice).num → (s.stream gr n).frames = young ++ f :: rest →
      f.vf = g.vf → f.va = va → (∀ e ∈ young, ¬(e.vf = g.vf ∧ e.va = va)) →
      (∀ k m, g.slice ≤ k → k < g.slice + (s.gran g.slice).num → m < 4 → (k, m) ≠ (gr, n) → ∀ e ∈ (s.stream k m).frames, ¬(e.vf = g.vf ∧ e.va = va)) →
      (let x := FrameDesc.of f.desc
       let a := rect.toNat
       ∃ (t : State) (marks : List Nat), exec (.storePerformed gid op) s = .next t ∧ Finished t gid op ∧ t.mem = s.mem ∧
         t.stream gr n = { s.stream gr n with frames := young ++ { f with marks } :: rest } ∧
         (∀ k m, (k, m) ≠ (gr, n) → t.stream k m = s.stream k m) ∧
         ∀ row col, row < x.rows → col < x.cols →
           (row * x.cols + col ∈ marks ↔ row * x.cols + col ∈ f.marks ∨
             (a / 2 ^ 16 % 2 ^ 16 ≤ row ∧ row ≤ a / 2 ^ 16 % 2 ^ 16 + a / 2 ^ 40 % 2 ^ 8 ∧ a % 2 ^ 16 ≤ col ∧ col ≤ a % 2 ^ 16 + a / 2 ^ 32 % 2 ^ 8))))) ∧
  (∀ (s : State) (gid op q va pa : Nat) (g : Group) (o : Op) (rec_ : List Byte), OpenOp s gid op g o → s.ready g o = true →
    o.kind = .launch rec_ q va pa →
    (s.launchReady g o q = false → exec (.storePerformed gid op) s = .next s) ∧
    (s.launchReady g o q = true → g.vf < 64 → q < 16 → rec_.length = 128 → plainLoc pa → plainLoc (pa + 64) → Loc.comp pa = false → Loc.pa pa % 64 = 0 →
      Loc.pa pa + 128 ≤ 2 ^ 60 → Memory.wf s.mem → s.LinesWhole → s.noBarrierAt pa → s.noBarrierAt (pa + 64) →
      ∃ t, exec (.storePerformed gid op) s = .next t ∧ Finished t gid op ∧ (∀ x < 128, t.byteAt (pa + x) = rec_.getD x 0) ∧
        t.queue g.vf q = { s.queue g.vf q with tail := (s.queue g.vf q).tail + 1 } ∧ t.launches = s.launches))

/-- R164 to R168: a lane of an atomic that is alone on its line is performed at its home: the old value is taken, the new one written, and the old one
returned; a request of `ratom` to device memory is performed at its home and its reply record written, with STATUS 1. -/
def Obligations.AtomicsArePerformed : Prop :=
  (∀ (s : State) (gid op l : Nat) (g : Group) (o : Op) (young old : List AtomLane) (a : AtomLane) (aop : AtomOp) (ty : Ty) (ret : Bool)
      (acq rel : Option Scope),
    OpenOp s gid op g o → s.ready g o = true → o.kind = .atomic (young ++ a :: old) aop ty ret acq rel → a.lane = l → a.lane < 32 → a.fin = false →
    (∀ b ∈ young ++ old, b.lane ≠ l ∧ (b.fin = false → Loc.pa b.pa / 64 ≠ Loc.pa a.pa / 64)) → plainLoc a.pa → s.poisoned a.pa = false →
    (let n := tyBytes ty
     let r := s.serveRead g.vf a.va a.pa
     let v := natLE (r.homeRead a.pa n)
     let w := r.write g.vf a.va a.pa (bytesLE n (atomNew aop ty v a.b.toNat a.c.toNat)) (g.writer o.seq)
     let rest := young ++ { a with fin := true } :: old
     ∃ t, exec (.atomicPerform gid op l) s = .next t ∧ t.mem = w.mem ∧ t.l2 = w.l2 ∧
       ∀ h, w.group? gid = some h →
         t.group? gid = some (let f := h.fillPend op (laneBit l) (rest.all (·.fin)) fun _ _ => oldValue ty v
           if rest.all (·.fin) then f.finishOp op else f.updOp op fun o => { o with kind := .atomic rest aop ty ret acq rel }))) ∧
  (∀ (s : State) (gid op l : Nat) (g : Group) (o : Op) (young old : List AtomLane) (a : AtomLane) (aop : AtomOp) (ty : Ty) (recs : List LaneAcc) (r : LaneAcc),
    OpenOp s gid op g o → o.kind = .ratom (young ++ a :: old) aop ty recs → a.lane = l → a.fin = false → a.held = false → plainLoc a.pa → s.poisoned a.pa = false →
    s.engineReady g op [(0, Loc.pa a.pa, tyBytes ty)] = true →
    (∀ b ∈ young ++ old, b.lane ≠ l ∧ (b.fin = false → Loc.pa b.pa / 64 ≠ Loc.pa a.pa / 64)) →
    recs.find? (fun r => r.lane = l) = some r → Loc.watch r.pa = none → s.holds g.vf = true →
    (let n := tyBytes ty
     let f := s.serveRead g.vf a.va a.pa
     let v := natLE (f.homeRead a.pa n)
     let w := (f.write g.vf a.va a.pa (bytesLE n (atomNew aop ty v a.b.toNat a.c.toNat)) (g.writer o.seq)).write g.vf r.va r.pa (replyBytes 1 (oldValue ty v))
       (g.writer o.seq)
     ∃ t, exec (.ratomReply gid op l false) s = .next t ∧ t.mem = w.mem ∧ t.l2 = w.l2))

/-- R175, R177, R193: allocations complete where the space fits and fail where it does not; a freed tile that nothing uses is free; deferred arrivals are
performed. R183 to R189: a byte of a copy is moved, into each receiver's tile or, by `cpy.out`, out of the tile, and counted at the receiver's barrier; a
receiver's last byte arrives at the barrier of acknowledgements, and the last of all completes the copy. That one event moves one byte is the model's choice
(log entry 38). A `tbar.init` that waits is issued again, and completes once no copy in flight counts at its barrier (R192). -/
def Obligations.TileAndBarrierEvents : Prop :=
  (∀ (s : State) (wg h rows rowb : Nat) (w : Workgroup) (clus : Bool) (kind : TKind), s.wg? wg = some w → h < 32 →
    (s.handle wg h).prog = some (clus, kind, rows, rowb) →
    ∃ t, exec (.tallocComplete wg h) s = .next t ∧
      t.handle wg h = (match fitUnits (s.spaceUsed w clus) (tileUnits rows rowb) (spaceUnits clus) with
        | some base => { st := .allocated, kind, clus, base, rowb, rows }
        | none => { st := .failed, kind, clus, rowb, rows }) ∧
      (∀ k j, (k, j) ≠ (wg, h) → t.handle k j = s.handle k j) ∧ t.mem = s.mem ∧ t.cur = s.cur) ∧
  (∀ (s : State) (wg h : Nat) (w : Workgroup), s.wg? wg = some w → h < 32 → (s.handle wg h).st = .freeing → s.tileBusy wg h = false →
    ∃ t, exec (.tileRelease wg h) s = .next t ∧ t.handle wg h = {} ∧ (∀ k j, (k, j) ≠ (wg, h) → t.handle k j = s.handle k j) ∧ t.mem = s.mem ∧ t.cur = s.cur) ∧
  (∀ (s : State) (gid op : Nat) (g : Group) (o : Op) (l : BarLoc) (n : Word64) (arv : Bool), OpenOp s gid op g o → o.kind = .arrive l n arv →
    (s.arrivalWaits g op l arv = true → exec (.arrivalPerformed gid op) s = .next s) ∧
    (s.arrivalWaits g op l arv = false → exec (.arrivalPerformed gid op) s =
      .next ((s.barStep l (fun b => if arv then b.countArrive (s.profiled g) g.lastId n else b.count n) o.pc (g.writer op)).updGroup gid fun g => g.finishOp op))) ∧
  (∀ (s : State) (gid op ix : Nat) (g : Group) (o : Op) (k : CopyOp) (r : CopyRecv), OpenOp s gid op g o → o.kind = .copy k →
    k.recv[ix / k.total]? = some r → ix ∉ k.fin → (s.wg? r.wg).isSome = true → r.h < 32 → Sparse.wf 0 (s.handle r.wg r.h).bytes = true →
    (∀ l, r.bar = some l ∨ r.ack = some l → ∃ wg h, l = .tile wg h) →
    (let b := ix % k.total
     let off := k.dst r.rowb b
     let at_ (va : Nat) : Nat := pageLoc k.pages va
     s.copyByteReady g op r off ((k.src b).map at_) = true →
     (∀ va, k.src b = some va → plainLoc (at_ va) ∧ Loc.watch (at_ va + (k.lineRun b).1 - b) = none) →
     (k.kind ≠ .out → (∀ va, k.src b = some va → s.engPoisoned (at_ va) = false) →
       ∃ t, exec (.copyByteCount gid op ix) s = .next t ∧ CopyCounted s t gid op ix g k r ∧
         (t.handle r.wg r.h).byte off = (match k.src b with | some va => s.byteAt (at_ va) | none => 0) ∧
         (∀ x, x ≠ off → (t.handle r.wg r.h).byte x = (s.handle r.wg r.h).byte x) ∧
         (∀ w j, (w, j) ≠ (r.wg, r.h) → (t.handle w j).bytes = (s.handle w j).bytes) ∧
         ((∀ va, k.src b = some va → (s.l2At (at_ va)).isSome = true ∧ s.unaliased g.vf va (at_ va)) → t.mem = s.mem ∧ t.l2 = s.l2)) ∧
     (∀ va, k.kind = .out → k.src b = some va → (s.handle r.wg r.h).poisoned off 1 = false → Loc.comp (at_ va) = false → Memory.wf s.mem → s.LinesWhole →
       s.noBarrierAt (at_ va) →
       ∃ t, exec (.copyByteCount gid op ix) s = .next t ∧ CopyCounted s t gid op ix g k r ∧ t.byteAt (at_ va) = (s.handle r.wg r.h).byte off ∧
         (∀ x < 2 ^ 60, isWindow x = false → x ≠ Loc.pa (at_ va) → t.byteAt x = s.byteAt x) ∧ ∀ w j, (t.handle w j).bytes = (s.handle w j).bytes))) ∧
  (∀ (s t u : State) (gid : Nat) (b : Bool) (c : Ctl) (o : BarB), s.select gid b = some t → t.cur.canIssue b = true → t.cur.me.blk.entry = .none →
    t.fetchItem = .ok (u, .tbarInit c o) →
    exec (.tbarInitArm gid b) s = Out.andThen (exec (.tbarInit c o) u) fun v => .next (v.unstarted t.cur b)) ∧
  (∀ (s t u s1 s2 : State) (gid : Nat) (b : Bool) (c : Ctl) (o : BarB) (l : BarLoc), s.select gid b = some t → t.cur.canIssue b = true →
    t.cur.me.blk.entry = .none → t.fetchItem = .ok (u, .tbarInit c o) → Ready (.tbarInit c o) c u s1 →
    (s1.cur.passes c = true → s1.barAt c o.bar = .ok (s2, l) → (s2.readBar l).armed = false → s2.settled l.spans = .ok () →
      0 < (s2.cur.uniB c o.b).toNat → (s2.cur.uniB c o.b).toNat < 2 ^ 32 → (∀ g ∈ s2.allGroups, ∀ p ∈ g.ops, p.fin = false → p.kind.countsAt l = false) →
      (let armed : Barrier := { expc := (s2.cur.uniB c o.b).setWidth 32, armed := true }
       (∀ wg h, l = .tile wg h → ∃ v, exec (.tbarInitArm gid b) s = .next v ∧
          After (.tbarInit c o) c s1.cur.x (s2.updHandle wg h fun t => { t with bar := armed }) v noDest) ∧
       (∀ vf va pa, l = .glob vf va pa → (s2.barLines.filter fun b => b.2.1 = s2.l2Home vf va).length < s2.barRoom (s2.l2Home vf va) →
          (let w := s2.writeBar l armed s2.cur.writer
           ∃ v, exec (.tbarInitArm gid b) s = .next v ∧
             After (.tbarInit c o) c s1.cur.x { w with barLines := (pa, s2.l2Home vf va, s2.cur.vf) :: w.barLines } v noDest)))) ∧
    (s1.cur.passes c = false → ∃ v, exec (.tbarInitArm gid b) s = .next v ∧ After (.tbarInit c o) c s1.cur.x s1 v noDest))

/-- R66 to R68: what a register reads once a commit park has banked the windows and written the L results: the youngest L result that covers it, where
no younger S write of its slot, or of either slot for a uniform register, does too; else the youngest S write that nothing killed; else what the
register file held. R67: an instruction reads the youngest write in its slot's window, killed or not; the ninth instruction of a window leaves it, and its write
is banked unless it is killed or a younger one to the register is banked already; a kill bit marks the writes of its register in the window and changes no read.
R36, R66, R109, R370: the events of a group. Its commit park is taken and its waiting trap delivered once every result has returned; a grace window that
ends lets a requested group stop; a group without live lanes ends once its LOAD, COPY, FILT and RAY counters are zero. That the vector's low 32 bits alone
count is the model's choice (log entry 65). -/
def Obligations.GroupEvents : Prop :=
  ((∀ (g : Group) (cls : RClass) (n l : Nat), g.Ordered → n < regCount cls → l < 32 → ¬(cls = .p ∧ n = 63) →
    (∀ q ∈ g.pend, q.write.covers cls n l = true → (∀ p ∈ g.pend, p.write.covers cls n l = true → p.seq ≤ q.seq) → ¬g.shadowed q cls n l →
      g.commit.seen cls n l = q.write.gives cls l) ∧
    ((∀ q ∈ g.pend, q.write.covers cls n l = true → ∃ p ∈ g.pend, p.write.covers cls n l = true ∧ q.seq ≤ p.seq ∧ g.shadowed p cls n l) →
      (∀ b, ∀ e ∈ (g.slot b).win, ∀ w, e.write = some w → e.puts cls n l = true → (∀ c, ∀ d ∈ (g.slot c).win, d.puts cls n l = true → d.seq ≤ e.seq) →
        g.commit.seen cls n l = (if g.lateAfter e.seq cls n l = true then g.banked cls n (if cls = .s then 0 else l) else w.gives cls l)) ∧
      ((∀ b, ∀ e ∈ (g.slot b).win, e.puts cls n l = false) → g.commit.seen cls n l = g.banked cls n (if cls = .s then 0 else l)))) ∧
  (∀ g : Group, g.commit.pend = [] ∧ g.commit.slot0.win = [] ∧ g.commit.slot1.win = [] ∧
    ∀ k, g.commit.fpflags.getLsbD k = (g.fpflags.getLsbD k || g.pend.any fun p => p.flags.getLsbD k)) ∧
  (∀ (g : Group) (w : Option RegWrite) (cls : RClass) (n l : Nat), g.WindowOk → n < regCount cls → l < 32 → ¬(cls = .p ∧ n = 63) →
    (let covering (e : WinEnt) : Bool := e.write.any fun w => w.covers cls n l
     let file := g.banked cls n (if cls = .s then 0 else l)
     (∀ e, g.me.win.find? covering = some e → ∀ v, e.write = some v → g.seen cls n l = v.gives cls l) ∧
     (g.me.win.find? covering = none → g.seen cls n l = file) ∧
     (∀ v, w = some v → v.covers cls n l = true → (g.pushWin w).seen cls n l = v.gives cls l) ∧
     ((∀ v, w = some v → v.covers cls n l = false) →
       (∀ e v, (g.me.win.take 7).find? covering = some e → e.write = some v → (g.pushWin w).seen cls n l = v.gives cls l) ∧
       ((g.me.win.take 7).find? covering = none →
         (∀ e v, g.me.win[7]? = some e → e.write = some v → v.covers cls n l = true →
           (g.pushWin w).seen cls n l = (if e.killed = true ∨ g.lateAfter e.seq cls n l = true then file else v.gives cls l)) ∧
         ((∀ e, g.me.win[7]? = some e → covering e = false) → (g.pushWin w).seen cls n l = file))))) ∧
  (∀ (g : Group) (i : Instr) (c : Ctl) (x : BitVec 16),
    (let names (idx : Bool) (o : Option Opnd) (w : RegWrite) : Bool := match o with
       | some o => o.kill && w.cls = o.cls && decide (idxReg idx o.num x ≤ w.reg) && decide (w.reg < idxReg idx o.num x + o.span)
       | none => false
     (g.kills i c x).setMe g.me = g ∧ (∀ cls n l, (g.kills i c x).seen cls n l = g.seen cls n l) ∧
     (g.kills i c x).me.win = g.me.win.map fun e => { e with killed := e.killed || e.write.any fun w => names c.idxA i.operands.a w || names c.idxB i.operands.b w }))) ∧
  (∀ (s : State) (gid : Nat) (g : Group), s.group? gid = some g → s.away gid = false → g.returned = true → (g.slot0.parking = true ∨ g.slot1.parking = true) →
    g.stop = none →
    ∃ t, exec (.commitPark gid) s = .next t ∧ t.mem = s.mem ∧ ∃ h, t.group? gid = some h ∧ h.slot0.parking = false ∧ h.slot1.parking = false ∧ h.pend = [] ∧
      h.slot0.win = [] ∧ h.slot1.win = [] ∧ (g.slot0.parking = true → h.slot0.parked = true) ∧ (g.slot1.parking = true → h.slot1.parked = true) ∧
      ∀ cls n l, h.seen cls n l = g.commit.seen cls n l) ∧
  (∀ (s : State) (gid : Nat) (g : Group) (r : TrapRec), s.group? gid = some g → s.away gid = false → g.returned = true → g.pendTrap = some r → g.priv = .u →
    g.trapvec ≠ 0 → ¬(r.cause = .debug ∧ (s.vf g.vf).att = true) → g.stop = none →
    ∃ t, exec (.trapDelivery gid) s = .next t ∧ t.mem = s.mem ∧ ∃ h, t.group? gid = some h ∧ h.pendTrap = none ∧ h.priv = .s ∧
      h.trapcause = bit r.slot1 ++ r.cause.code ∧ h.trappc = r.pc ∧ h.trapaddr = r.addr ∧ (h.slot r.slot1).pc = g.trapvec.setWidth 32) ∧
  (∀ (s : State) (gid : Nat) (g : Group), s.group? gid = some g → g.stop = some .save → g.ended = false → g.gone = false → g.stopped = none →
    ∃ t h, exec (.graceExpiry gid) s = .next t ∧ t.group? gid = some h ∧ h.grace = true ∧ h.stopped = ({ g with grace := true } : Group).boundary ∧ t.mem = s.mem) ∧
  (∀ (s : State) (gid : Nat) (g : Group), s.group? gid = some g → s.away gid = false → g.ended = true → g.gone = false → g.counter .load = 0 →
    g.counter .copy = 0 → g.counter .filt = 0 → g.counter .ray = 0 → exec (.groupEnd gid) s = .next ((s.endGroup g).reap))

/-- R204, R210 to R214, R234: an idle engine grants its next entry; the pass that it runs retires its rows in ascending order and is over with the last; a
detached pass or an invocation with a bad descriptor ends with STATUS 2; an invocation that has computed makes its writes in order, then STATUS 1.
R203, R212, R224 to R226: what `mxzero`, `mxdrn` and the record instructions do as they take effect. -/
def Obligations.EngineEvents : Prop :=
  ((∀ (s : State) (gid : Nat) (g : Group) (o : Op), s.group? gid = some g → g.ops = [o] → o.fin = false →
    (∀ key, o.kind = .mxzero key → ∃ h, (s.settleAcc gid none).group? gid = some h ∧ (∀ p ∈ h.ops, p.fin = true) ∧
      (∀ x, Sparse.get 0 (h.accOf key) x = 0) ∧ ∀ k ≠ key, h.accOf k = g.accOf k) ∧
    (∀ key row clr lanes, o.kind = .mxdrn key row clr lanes → Sparse.wf 0 (g.accOf key) = true →
      (let d (x : Nat) : Nat := (Sparse.get 0 (g.accOf key) x).toNat
       ∃ h, (s.settleAcc gid none).group? gid = some h ∧ (∀ p ∈ h.ops, p.fin = true) ∧
         h.pend = (g.fillPend o.seq allLanes true fun _ l =>
           if lane lanes l then BitVec.ofNat 64 (d (64 * row + 2 * l) + 2 ^ 32 * d (64 * row + 2 * l + 1)) else 0).pend ∧
         (∀ x, (Sparse.get 0 (h.accOf key) x).toNat = (if clr = true ∧ 64 * row ≤ x ∧ x < 64 * row + 64 then 0 else d x)) ∧
         ∀ k ≠ key, h.accOf k = g.accOf k))) ∧
  (∀ (s : State) (gid which va pa : Nat) (w0 w1 : Word64) (g : Group) (o : Op), s.group? gid = some g → g.ops = [o] → o.fin = false →
    o.kind = .dlr which va pa w0 w1 → which < 3 → plainLoc pa → Loc.comp pa = false → Loc.pa pa % 64 = 0 → (s.l2At pa).isSome = true → s.unaliased g.vf va pa →
    s.LinesWhole → s.noBarrierAt pa → s.poisoned pa = false → s.recHeld pa = false →
    (let b := s.homeRead pa 64
     ∃ h, (s.settleAcc gid none).group? gid = some h ∧ (∀ p ∈ h.ops, p.fin = true) ∧
       (∀ x < 64, (s.settleAcc gid none).byteAt (pa + x) =
         (if which = 0 ∧ hdrResumes b w0 w1 g.vf = false then (hdrFresh w0 w1 g.vf).getD x 0
          else if which = 1 ∧ x = 0 then b.getD 0 0 &&& 0xFE else b.getD x 0)) ∧
       h.pend = (if which = 2 then (g.fillPend o.seq allLanes true fun _ _ => hdrSummary b g.vf).pend else g.pend)))) ∧
  (∀ (s s1 : State) (cl : Nat) (e : ResEnt) (g : Group) (o : Op) (m : MmaOp), cl < 64 → (s.cluster cl).run = none → (s.gate (engineUnit cl)).waking = false →
    (s.cluster cl).owner = none → s.nextEntry cl = some e → s1 = s.settleAcc e.gid none → s1.group? e.gid = some g → g.op? e.op = some o → o.kind = .mma m →
    s1.passReady g o m = true →
    (let keep (k : Cluster) : Cluster := { k with res := k.res.filter fun x => !(x.gid = e.gid && x.op = e.op), owner := none }
     let (s2, rows) := (s1.updCluster cl keep).computeMma g o cl m
     exec (.passGrant cl) s = .next ((s2.updCluster cl fun k => { k with run := some { gid := e.gid, op := e.op, vf := e.vf, result := rows, home := cl } }).noteOffers cl))) ∧
  (∀ (s : State) (cl : Nat) (r : RunPass) (g : Group) (o : Op) (key : Nat) (row : List Word32) (rest : List (List Word32)), cl < 64 →
    (s.cluster cl).run = some r → r.result = row :: rest → s.group? r.gid = some g → g.op? r.op = some o → o.kind.accKey = some key →
    (let s1 := (s.updGroup r.gid fun g => g.setAccOf key (accRow (g.accOf key) r.rows row)).updCluster cl fun k =>
       { k with run := some { r with rows := r.rows + 1, result := rest } }
     exec (.rowRetire cl) s = .next (if rest = [] then s1.passOver cl r.gid r.op else s1.settleAcc r.gid (some o.pc)))) ∧
  (∀ (d : Sparse Word32) (i j k : Nat) (row : List Word32), Sparse.wf 0 d = true → j < row.length →
    Sparse.get 0 (accRow d i row) (64 * i + j) = row.getD j 0 ∧ (k < 64 * i ∨ 64 * i + row.length ≤ k → Sparse.get 0 (accRow d i row) k = Sparse.get 0 d k)) ∧
  (∀ (s : State) (cl va pa : Nat) (r : RunPass) (g : Group) (o : Op) (d : List Byte), (s.cluster cl).run = some r → r.waiting = false →
    s.group? r.gid = some g → g.op? r.op = some o → o.kind = .pass d va pa → PassDesc.of d = none →
    exec (.detachedPassComplete cl) s = .next (s.endPass cl r g o va pa 2 0 0)) ∧
  (∀ (s s1 s2 : State) (cl va pa : Nat) (r : RunPass) (g : Group) (o : Op) (d : List Byte) (p : PassDesc) (mr mw : List PageMap),
    (s.cluster cl).run = some r → r.waiting = false → s.group? r.gid = some g → g.op? r.op = some o → o.kind = .pass d va pa → PassDesc.of d = some p →
    (let reads := p.aRuns ++ p.bRuns ++ p.sRuns p.sa ++ p.sRuns p.sb ++ if p.cin then p.cRuns else []
     s.engineMap g.vf (.pass cl) .read reads = .ok s1 mr → s1.engineMap g.vf (.pass cl) .write p.cRuns = .ok s2 mw →
     s2.engineReady g o.seq (runSpans (mr ++ mw) reads) = true → s2.poisonIn (mr ++ mw) reads = none →
     (let get (rs : List (Nat × Nat)) : List (List Byte) := rs.map fun x => s2.readRun (mr ++ mw) x.1 x.2
      let rows := passRows p.k (sideElems p.fa (get p.aRuns) p.sa (get (p.sRuns p.sa))) (sideElems p.fb (get p.bRuns) p.sb (get (p.sRuns p.sb)))
        fun i j => if p.cin then natLE ((((get p.cRuns).getD i []).drop (4 * j)).take 4) else 0
      let s3 := (p.cRuns.zip rows).foldl (fun s x => s.writeRun g.vf (g.writer o.seq) (g.agent o.pc o.seq) (mr ++ mw) x.1.1 (x.2.map fun v => bytesLE 4 v.toNat).flatten)
        (s2.noteReads g.vf 3 (g.agent o.pc o.seq) (mr ++ mw) reads)
      exec (.detachedPassComplete cl) s = .next (s3.endPass cl r g o va pa 1 (4096 * p.k) ((reads.map (·.2)).sum + (p.cRuns.map (·.2)).sum))))) ∧
  (∀ (s : State) (cl va pa : Nat) (r : RunPass) (g : Group) (o : Op) (d : List Byte), s.runningDelta cl = some (r, g, o, d, va, pa) → r.waiting = false →
    r.computed = false → (g.ops.any fun p => !p.fin && decide (p.seq < o.seq) && p.path = some .store) = false → DeltaDesc.of d = none →
    exec (.deltaInvocation cl) s = .next (s.endPass cl r g o va pa 2 0 0)) ∧
  (∀ (s s1 s2 s3 : State) (cl va pa : Nat) (r : RunPass) (g : Group) (o : Op) (d : List Byte) (x : DeltaDesc) (hp rp pages : List PageMap),
    s.runningDelta cl = some (r, g, o, d, va, pa) → r.waiting = false → r.computed = false →
    (g.ops.any fun p => !p.fin && decide (p.seq < o.seq) && p.path = some .store) = false → DeltaDesc.of d = some x →
    s.engineMap g.vf (.pass cl) .write [(x.rb, 64)] = .ok s1 hp → s1.engineMap g.vf (.pass cl) .read [(x.rb, 64)] = .ok s2 rp →
    s2.recHeld (pageLoc hp x.rb) = false → s2.engPoisoned (pageLoc hp x.rb) = false →
    (let hpa := pageLoc hp x.rb
     let h := s2.homeRead hpa 64
     let reg := s2.regionOf g.vf h
     let full : Bool := modeOf h reg g.vf ≠ 0
     x.recordOk h reg = true → s2.deltaMap g.vf cl x (Shape.of h) full = .ok s3 pages →
     s3.engineReady g o.seq (runSpans pages (x.reads (Shape.of h) full)) = true →
     exec (.deltaInvocation cl) s =
       .next (((s3.cacheRec cl g.vf x.rb hpa).noteRead g.vf 3 (g.agent o.pc o.seq) x.rb hpa 64).deltaRun cl r g o x h hpa va pa pages))) ∧
  (∀ (s : State) (cl va pa : Nat) (r : RunPass) (g : Group) (o : Op) (d : List Byte), s.runningDelta cl = some (r, g, o, d, va, pa) → r.computed = true →
    exec (.deltaComplete cl) s = .next (((r.writes.foldl (fun s w =>
      (s.write g.vf w.1 w.2.1 w.2.2 { g.writer o.seq with keep := some cl }).watch g.vf w.1 w.2.1 w.2.2.length 4 (g.agent o.pc o.seq)) s).endPass cl r g o va pa 1 0 0).settleRecs))

/-- R244, R255, R259, R261, R278, R281: the filter unit returns the results of an operation in the lanes that execute it, and zero in those of the zero
clause; an add of a scatter is performed at its slot, or sets OVF of its header, and the last completes the operation; a lane of `ray.get` delivers its record;
a draw that ended writes FLUSHES and STATUS; a superblock that is marked has its pixels taken; a frame that failed ends with its STATUS (R287, R288, R297, R298).
What one event takes of a draw, that the second lane of a fused frame takes the rows behind its first half, rounded up, and that a failed frame ends by its
stream's next event, are the model's choices (log entries 61, 77, 43); what withheld completions may take up is too (log entry 70). -/
def Obligations.UnitEvents : Prop :=
  (∀ (s : State) (gid op : Nat) (g : Group) (o : Op) (i : Instr) (desc : List Byte) (lanes helpers : Word32) (srcs : List (Lanes Word64)) (pages : List PageMap),
    OpenOp s gid op g o → o.kind = .filter i desc lanes helpers srcs pages → (s.gate (filterUnit g.coreIx)).waking = false → g.cinvOpen op = false →
    s.engineReady g op (runSpans pages (s.filterValues g o i desc (lanes ||| helpers) srcs pages).2) = true →
    (let r := s.filterValues g o i desc lanes srcs pages
     exec (.filterResult gid op) s = .next (((s.filterTouch g o pages r.2).updGroup gid fun g =>
       (g.fillPend op allLanes true fun k l => if lane (lanes ||| helpers) l then r.1 k l else 0).finishOp op).filterIdle g.coreIx))) ∧
  (∀ (s : State) (gid op ix : Nat) (g : Group) (o : Op) (adds : List ScatAdd) (a : ScatAdd), OpenOp s gid op g o → o.kind = .scatter adds →
    adds[ix]? = some a → a.fin = false → s.engineReady g op a.spans = true → (s.gate (filterUnit g.coreIx)).waking = false → s.poisoned a.pa = false →
    plainLoc a.pa →
    (let r := s.serveRead g.vf a.va a.pa
     let sum := signedOf 64 (natLE (r.homeRead a.pa 8)) + a.sum
     let w := if a.fast then r.write g.vf a.va a.pa (bytesLE 4 (atomNew .fadd .f32 (natLE (r.homeRead a.pa 4)) a.fsum.toNat 0)) (g.writer o.seq)
       else r.write g.vf a.va a.pa (bytesLE 8 (lowBits 64 (max (-(2 ^ 63)) (min (2 ^ 63 - 1) sum)))) (g.writer o.seq)
     ((a.headers = [] ∨ (a.fast = false ∧ -(2 ^ 63) ≤ sum ∧ sum < 2 ^ 63)) → ∃ t, exec (.slotAdd gid op ix) s = .next t ∧ t.mem = w.mem ∧ t.l2 = w.l2) ∧
     (∀ va pa, a.headers = [(va, pa)] → plainLoc (pa + 1) → a.fast = true →
       (let q := s.serveRead g.vf (va + 1) (pa + 1)
        let w := q.write g.vf (va + 1) (pa + 1) [BitVec.ofNat 8 (natLE (s.homeRead (pa + 1) 1) ||| 1)] (g.writer o.seq)
        ∃ t, exec (.slotAdd gid op ix) s = .next t ∧ t.mem = w.mem ∧ t.l2 = w.l2)))) ∧
  (∀ (s : State) (gid op l : Nat) (g : Group) (o : Op) (young old : List RayLane) (x : RayLane) (sel : RaySel) (flags : Word64), OpenOp s gid op g o →
    o.kind = .ray (.get sel) (young ++ x :: old) flags → (s.gate (rayUnit g.cluster)).waking = false → x.lane = l → l < 32 → x.fin = false → x.waiting = false →
    (∀ b ∈ young ++ old, b.lane ≠ l) → s.rayBlocked g op x = false → plainLoc x.recPa → Loc.pa x.recPa % 512 = 0 →
    (let f := g.fillPend op (laneBit l) false fun j _ => rayValues sel (s.recRead o x) j
     let rest := young ++ { x with fin := true } :: old
     let h := f.updOp op fun o => { o with kind := .ray (.get sel) rest flags }
     ∃ t, exec (.traversalStop gid op l) s = .next t ∧
       ((∀ i < 8, (s.l2At (x.recPa + 64 * i)).isSome = true ∧ s.unaliased g.vf (x.recVa + 64 * i) (x.recPa + 64 * i)) → t.mem = s.mem ∧ t.l2 = s.l2) ∧
       t.group? gid = some ((if rest.all (·.fin) then h.finishOp op else h).rayReturned op))) ∧
  (∀ (s : State) (gr : Nat) (d : Draw) (rest : List Draw), gr < 16 → (s.gran gr).draws = d :: rest → d.waiting = false → d.result = none →
    (DrawDesc.of d.desc).bad d.desc = true → exec (.rastDraw gr) s = .next (s.updGran gr fun k => { k with draws := { d with result := some 2 } :: rest })) ∧
  (∀ (s s1 : State) (gr : Nat) (d d1 : Draw) (rest : List Draw), gr < 16 → (s.gran gr).draws = d :: rest → d.waiting = false → d.result = none →
    (DrawDesc.of d.desc).bad d.desc = false → s.drawRun d gr (DrawDesc.of d.desc) drawParts = (s1, d1) →
    exec (.rastDraw gr) s = .next (s1.updGran gr fun k => { k with draws := d1 :: rest })) ∧
  (∀ (s : State) (gr st : Nat) (d : Draw) (rest : List Draw), (s.gran gr).draws = d :: rest → d.result = some st →
    (s.statusStalls d.vf = true → exec (.rastDrawComplete gr) s = .next s) ∧
    (s.statusStalls d.vf = false → exec (.rastDrawComplete gr) s = .next ((((s.updGran gr fun k => { k with draws := rest }).write d.vf (d.va + 0x3C) (d.pa + 0x3C)
      (bytesLE 4 d.flushes)).watch d.vf (d.va + 0x3C) (d.pa + 0x3C) 4 4 d.agent).statusWrite d.vf (d.va + 0x3A) (d.pa + 0x3A) [BitVec.ofNat 8 st] d.agent))) ∧
  (∀ (s s1 : State) (gr n : Nat) (f : Frame) (rest : List Frame) (pages : List PageMap), (s.stream gr n).frames = f :: rest →
    (let x := FrameDesc.of f.desc
     f.waiting = false → f.fail = none → f.encoded < x.upper → f.encoded ∈ f.marks →
     s.engineMap f.vf (.enc gr n) .read (x.sbRuns f.encoded) = .ok s1 pages → s1.poisonIn pages (x.sbRuns f.encoded) = none →
     exec (.superblockEncode gr n) s = .next ((s1.noteReads f.vf 3 f.agent pages (x.sbRuns f.encoded)).updHead gr n fun f =>
       { f with encoded := f.encoded + 1, pixels := f.pixels ++ s1.frameRead pages (x.sbRuns f.encoded) }))) ∧
  (∀ (s s1 : State) (gr n : Nat) (f : Frame) (rest : List Frame) (pages : List PageMap), (s.stream (gr + 1) n).frames = [] →
    (gr + 1 - s.sliceOf (gr + 1)) % 2 = 1 → (s.stream gr n).frames = f :: rest →
    (let x := FrameDesc.of f.desc
     let k := x.upper + f.low
     x.fuse = true → f.waiting = false → f.fail = none → k < x.cols * x.rows → k ∈ f.marks →
     s.engineMap f.vf (.enc gr n) .read (x.sbRuns k) = .ok s1 pages → s1.poisonIn pages (x.sbRuns k) = none →
     exec (.superblockEncode (gr + 1) n) s = .next ((s1.noteReads f.vf 3 f.agent pages (x.sbRuns k)).updHead gr n fun f =>
       { f with low := f.low + 1, lowPixels := f.lowPixels ++ s1.frameRead pages (x.sbRuns k) }))) ∧
  (∀ (s : State) (gr n : Nat) (f : Frame) (rest : List Frame), (s.stream gr n).frames = f :: rest → f.waiting = false → s.statusStalls f.vf = false →
    (∀ st, f.fail = some st → exec (.frameComplete gr n) s = .next (s.endFrame gr n f st none none)) ∧
    (let x := FrameDesc.of f.desc
     f.fail = none → x.cols * x.rows ≤ f.encoded + f.low → x.key || (s.stream gr n).nextKey →
     exec (.frameComplete gr n) s = .next (s.finishFrame gr n f x true [])))

/-! ## Events: memory system -/

/-- R323, R331, R332, R334, R339 to R344: a line that may be cached enters the L2 with its attributes and the bytes of its controller, and no alias of it
stays; an invalidation drops the lines and walk-cache entries of its range; a migration copies its pages; a page request is taken and answered. That a write
of XINVC or MGCTL while the unit runs sets the other fields alone is the model's choice (log entry 36), and so is that a migration copies in one event, with the
values that its registers held at GO (log entry 49). -/
def Obligations.MemorySystemEvents : Prop :=
  (∀ (s s1 : State) (vf line loc : Nat) (a : Attr), vf < 64 → line < 2 ^ 51 → (∀ l ∈ s.l2, ¬(l.vf = vf ∧ l.line = line)) → s.walk vf (64 * line) = (s1, .ok loc a) →
    (s1.fillable loc a = false → exec (.lineFill vf line) s = .next s1) ∧
    (s1.fillable loc a = true → ∃ (t : State) (l : L2Line) (rest : List L2Line), exec (.lineFill vf line) s = .next t ∧ t.l2 = l :: rest ∧ l.vf = vf ∧ l.line = line ∧
      l.pa = Loc.pa loc / 64 ∧ l.attr = a ∧ l.dirty = false ∧ l.bytes = t.ctlRead loc 64 ∧ ∀ m ∈ rest, m.pa ≠ Loc.pa loc / 64)) ∧
  (∀ (s : State) (vf : Nat) (copy : Bool) (v : Word64), vf < 64 →
    (let i := (s.vf vf).inval copy
     let j : Inval := { i with pages := v.extractLsb' 32 32, stg := copy && v.getLsbD 1 }
     ∃ t, exec (.xinvcGo vf copy v) s = .next t ∧ t.l2 = s.l2 ∧ t.mem = s.mem ∧ (t.vf vf).inval (!copy) = (s.vf vf).inval (!copy) ∧
      (t.vf vf).inval copy = (if i.done = true ∧ v.getLsbD 0 = true then { j with done := false, job := (i.addr.toNat / 65536, j.pages.toNat, j.stg) } else j))) ∧
  (∀ (s : State) (vf : Nat) (copy : Bool), vf < 64 → ((s.vf vf).inval copy).done = false →
    (∀ (first n : Nat) (two : Bool), ((s.vf vf).inval copy).job = (first, n, two) →
     (s.invalBusy vf two first n = true → exec (.invalidationComplete vf copy) s = .next s) ∧
     (s.invalBusy vf two first n = false → ∃ t, exec (.invalidationComplete vf copy) s = .next t ∧
       ((t.vf vf).inval copy).done = true ∧
       (∀ l ∈ t.l2, ¬(l.vf = vf ∧ inPages first n (if two then l.attr.gpage else l.line / 1024) = true)) ∧
       (∀ c < 256, ∀ e ∈ (t.coreAt c).l1, ¬(e.vf = vf ∧ inPages first n (if two then e.attr.gpage else e.line / 1024) = true)) ∧
       (∀ m ∈ t.masks, ¬(m.vf = vf ∧ inPages first n (if two then m.gpage else m.line / 1024) = true)) ∧
       ∀ w ∈ t.walks, ¬(w.vf = vf ∧ w.stage2 = two ∧ (n = 0 ∨
         (w.ix * 2 ^ (13 * w.level) < first + n ∧ first < w.ix * 2 ^ (13 * w.level) + 2 ^ (13 * w.level))))))) ∧
  (∀ (s : State) (d : Nat) (v : Word64), d < 4 →
    (let m : Migration := { s.mig d with pages := (v.extractLsb' 32 16).toNat, meta_ := v.getLsbD 1 }
     ∃ t, exec (.mgctlGo d v) s = .next t ∧ (∀ k, k ≠ d → t.mig k = s.mig k) ∧ t.mem = s.mem ∧
       t.mig d = (if (s.mig d).stat = 1 ∨ v.getLsbD 0 = false then m
         else if m.ok = true then { m with stat := 1, job := (m.src.toNat, m.dst.toNat, m.rep.toNat, m.pages, m.meta_) } else { m with stat := 3 }))) ∧
  (∀ (s : State) (d src dst rep pages : Nat), d < 4 → (s.mig d).stat = 1 → (s.mig d).job = (src, dst, rep, pages, false) → s.l2 = [] → Memory.wf s.mem →
    src % 65536 = 0 → dst % 65536 = 0 → (src + 65536 * pages ≤ dst ∨ dst + 65536 * pages ≤ src) →
    (let len := 64 + 8192 + (pages + 7) / 8
     (∀ p ∈ s.poison, ¬(src ≤ 64 * p ∧ 64 * p < src + 65536 * pages)) → (rep + len ≤ dst ∨ dst + 65536 * pages ≤ rep) →
     ∃ t, exec (.migrationComplete d) s = .next t ∧ (t.mig d).stat = 2 ∧
       (∀ x < 65536 * pages, Memory.read t.mem (dst + x) = Memory.read s.mem (src + x)) ∧
       Memory.readN t.mem rep 8 = bytesLE 4 pages ++ bytesLE 4 0 ∧
       ∀ x, ¬(dst ≤ x ∧ x < dst + 65536 * pages) → ¬(rep ≤ x ∧ x < rep + len) → Memory.read t.mem x = Memory.read s.mem x)) ∧
  (∀ (s : State) (vf : Nat) (st : Bool),
    ((∀ r ∈ s.prq, ¬(r.vf = vf ∧ r.stage2 = st ∧ r.taken = false)) →
      exec (.prqpop vf st) s = .next { s with port := { s.port with data := List.replicate 16 0 } }) ∧
    (∀ (young old : List PageReq) (r : PageReq), s.prq = young ++ r :: old → (∀ q ∈ young, ¬(q.vf = vf ∧ q.stage2 = st ∧ q.taken = false)) →
      (∀ q ∈ young ++ old, q.tag ≠ r.tag) → r.vf = vf → r.stage2 = st → r.taken = false →
      ∃ t, exec (.prqpop vf st) s = .next t ∧ t.prq = young ++ { r with taken := true } :: old ∧
        t.port.data = bytesLE 16 (State.AccKind.rank r.kind + 8 * b2n st + 65536 * r.page + 2 ^ 64 * r.tag + 2 ^ 80))) ∧
  (∀ (s : State) (vf tag gid : Nat) (st : Bool) (r : PageReq) (g : Group) (w : TrapRec),
    s.prq.find? (fun q => q.tag = tag && q.vf = vf && q.stage2 = st) = some r → r.who = [.group gid] → s.prqWait = [] → s.group? gid = some g → g.pageWait = some w →
    (let u := ({ s with prq := s.prq.filter fun q => q.tag ≠ tag } : State).updGroup gid fun g => { g with pageWait := none }
     exec (.prqrspRetry vf st tag) s = .next u ∧ exec (.prqrspFail vf st tag) s = .next (u.raise gid w).refill)) ∧
  (∀ (s : State) (vf tag : Nat) (st : Bool), (∀ q ∈ s.prq, ¬(q.tag = tag ∧ q.vf = vf ∧ q.stage2 = st)) →
    exec (.prqrspRetry vf st tag) s = .next s ∧ exec (.prqrspFail vf st tag) s = .next s)

/-! ## Events: scheduling -/

/-- R349, R351: a record that can be read is taken; a slot that cannot be read is taken without its contents, with the fault registers naming it. The
launch identifier holds the function, the queue and the count, which is the one before the record is counted, as the model reads R351 (log entry 45). A
write of QTAIL publishes records, and one that would overfill the queue is noted. -/
def Obligations.RecordsAreTaken : Prop :=
  (∀ (s s1 : State) (gr vf q loc : Nat), s.lanternOn gr = true → s.boundTo vf gr = true → q < 16 → (s.queue vf q).enabled = true → (s.queue vf q).held ≠ 0 →
    (let va := (s.queue vf q).slotAt (s.queue vf q).head.toNat
     s.reach vf va .read (.slotRead vf q) (·.r) = .ok s1 loc → s1.engPoisoned loc = false → s1.engPoisoned (loc + 64) = false →
     (let u := (s1.noteRead vf 0 {} va loc 64).noteRead vf 0 {} (va + 64) (loc + 64) 64
      exec (.takeRecord gr vf q) s = .next (u.takeSlot vf q (u.homeRead loc 64 ++ u.homeRead (loc + 64) 64))))) ∧
  (∀ (s s1 : State) (gr vf q : Nat), s.lanternOn gr = true → s.boundTo vf gr = true → vf < 64 → q < 16 → (s.queue vf q).enabled = true → (s.queue vf q).held ≠ 0 →
    (let va := (s.queue vf q).slotAt (s.queue vf q).head.toNat
     s.reach vf va .read (.slotRead vf q) (·.r) = .fail s1 →
     ∃ t, exec (.takeRecord gr vf q) s = .next t ∧ (t.queue vf q).head = (s1.queue vf q).head + 1 ∧ (t.queue vf q).taken = (s1.queue vf q).taken + 1 ∧
       (t.vf vf).flaunch = launchIdOf vf q (s1.queue vf q).taken ∧ (t.vf vf).faddr = BitVec.ofNat 64 va ∧
       (t.vf vf).finfo = BitVec.ofNat 64 (2 ^ 32 * Cause.perm.code.toNat) ∧ (t.vf vf).lflt = true ∧ t.launches = s1.launches)) ∧
  (∀ (vf q taken : Nat), vf < 64 → q < 16 → taken < 2 ^ 54 → (launchIdOf vf q taken).toNat / 2 ^ 58 = vf ∧ (launchIdOf vf q taken).toNat / 2 ^ 54 % 16 = q ∧
    (launchIdOf vf q taken).toNat % 2 ^ 54 = taken) ∧
  (∀ (s : State) (gr : Nat) (l : Launch) (s1 : State) (loc : Nat), s.launches.filter (fun l => s.boundTo l.vf gr) = [l] → s.launch? l.key = some l → l.stage = .run →
    l.depOk = false → s.reach l.vf l.rec_.depaddr.toNat .read (.dep l.key) (·.r) = .ok s1 loc → s1.engPoisoned loc = false →
    exec (.dependenceRecheck gr) s = .next ((s1.noteRead l.vf 0 {} l.rec_.depaddr.toNat loc 8).updLaunch l.key
      fun k => { k with depOk := decide (l.rec_.depval.toNat ≤ natLE (s1.homeRead loc 8)) })) ∧
  (∀ (s : State) (vf q : Nat) (v : Word32), vf < 64 → q < 16 → (s.queue vf q).dev = false →
    (let n := 2 ^ ((s.queue vf q).cfg.extractLsb' 0 5).toNat
     ((v - (s.queue vf q).head).toNat ≤ n → ∃ t, exec (.qtailWrite vf q v) s = .next t ∧ t.queue vf q = { s.queue vf q with tail := v } ∧ t.mem = s.mem ∧
       ∀ k j, (k, j) ≠ (vf, q) → t.queue k j = s.queue k j) ∧
     (n < (v - (s.queue vf q).head).toNat → ∃ t, exec (.qtailWrite vf q v) s = .next t ∧ (t.vf vf).rws = true ∧ ∀ k j, t.queue k j = s.queue k j))) ∧
  (∀ (s : State) (vf q : Nat) (v : Word32), (s.queue vf q).dev = true → exec (.qtailWrite vf q v) s = .next s)

/-- R358: the launches that the lantern considers are eligible and bound to the slice, and no later one has a smaller key than an earlier one; the first
whose next gang fits takes its place. The tie between functions of one slice is the model's choice (log entry 26). -/
def Obligations.LaunchesInOrder : Prop :=
  (∀ (s : State) (gr : Nat), (∀ l ∈ s.choices gr, s.boundTo l.vf gr = true ∧ s.eligible l = true) ∧
    (∀ l ∈ s.launches, s.boundTo l.vf gr = true → s.eligible l = true → l ∈ s.choices gr) ∧
    (s.choices gr).Pairwise fun a b => keyLt (s.urgency b) (s.urgency a) = false ∧ (s.urgency a = s.urgency b → a.queue ≤ b.queue)) ∧
  (∀ (s : State) (gr : Nat), s.lanternOn gr = true → (s.gran gr).rotating = false →
    (∀ (l : Launch) (r : List Launch) (t : State), s.choices gr = l :: r → s.place gr l = .done t → exec (.lanternChoice gr) s = .next t) ∧
    (∀ (a b : Launch) (r : List Launch) (u t : State), s.choices gr = a :: b :: r → s.place gr a = .no u → (u.waits gr a).place gr b = .done t → exec (.lanternChoice gr) s = .next t) ∧
    (s.choices gr = [] → exec (.lanternChoice gr) s = .next s))

/-- R355, R356, R359, R360, R363, R367, R371: a launch all of whose groups have ended completes, late or not: once the links have acknowledged its writes it
has its record written at COMPL and 1 added at SIGADDR, where these are asked for, and then raises its interrupt; an accounting window ends after 10 000
ticks; gangs are pre-empted for a deadline launch that has waited for PWAIT ticks, which ones by the room that they leave being the model's choice (log
entry 53); a drained gang is saved and leaves its place; the load throttle moves by one level. -/
def Obligations.LanternEvents : Prop :=
  (∀ (s : State) (l : Launch), s.reap = s → s.launch? l.key = some l → l.stage = .run → s.groupsOf l.key = [] → (∀ g ∈ s.gangs, g.launch = l.key → g.st = .ended) →
    l.faulted = false → l.rec_.gangs ≤ l.next → s.holds l.vf = true → l.vf < 64 → l.rec_.compl = 0 → l.rec_.sigaddr = 0 → l.rec_.irq = false →
    (let late := !l.background && decide (l.rec_.deadline.toNat < (s.tickOf (s.vf l.vf).slice).toNat)
     let m := (s.vf l.vf).miss
     ∃ t, exec (.launchComplete l.key) s = .next t ∧ t.launch? l.key = none ∧ (∀ k ≠ l.key, t.launch? k = s.launch? k) ∧ t.mem = s.mem ∧
       (t.vf l.vf).miss = (if late && m ≠ 0xFFFFFFFF then m + 1 else m))) ∧
  (∀ (s : State) (l : Launch) (e1 e2 : L2Line), s.reap = s → s.launch? l.key = some l → l.stage = .run → s.groupsOf l.key = [] →
    (∀ g ∈ s.gangs, g.launch = l.key → g.st = .ended) → l.faulted = false → l.rec_.gangs ≤ l.next → s.holds l.vf = true → l.vf < 64 → s.launchAcked l.key = true → l.signalled = false →
    s.asking (.compl l.key) = false → s.failed (.compl l.key) = false → s.LinesWhole →
    (let compl := l.rec_.compl.toNat
     let sig := l.rec_.sigaddr.toNat
     let free (va : Nat) (e : L2Line) : Prop := va ≠ 0 ∧ va < 2 ^ 57 ∧ s.l2.find? (fun m => m.vf = l.vf && m.line = va / 64) = some e ∧ (∀ m ∈ s.l2, m.pa = e.pa → m = e) ∧
       e.attr.w = true ∧ e.attr.watch = none ∧ e.attr.comp = false ∧ 64 * e.pa + 64 ≤ 2 ^ 60 ∧ isWindow (64 * e.pa + va % 64) = false ∧ e.pa ∉ s.poison ∧
       s.noBarrierAt (64 * e.pa)
     let late := !l.background && decide (l.rec_.deadline.toNat < (s.tickOf (s.vf l.vf).slice).toNat)
     let m := (s.vf l.vf).miss
     free compl e1 → free sig e2 → e1.pa ≠ e2.pa → compl % 32 = 0 → sig % 8 = 0 →
     ∃ t, exec (.launchComplete l.key) s = .next t ∧ t.launch? l.key = none ∧ (∀ k ≠ l.key, t.launch? k = s.launch? k) ∧
       t.homeRead (64 * e1.pa + compl % 64) 32 = bytesLE 8 l.id.toNat ++ bytesLE 8 (s.tickOf (s.vf l.vf).slice).toNat ++ bytesLE 8 (1 + 256 * b2n late) ++ bytesLE 8 0 ∧
       natLE (t.homeRead (64 * e2.pa + sig % 64) 8) = (natLE (s.homeRead (64 * e2.pa + sig % 64) 8) + 1) % 2 ^ 64 ∧
       (t.vf l.vf).miss = (if late && m ≠ 0xFFFFFFFF then m + 1 else m) ∧
       (l.rec_.irq = false → t.links = s.links ∧ (t.vf l.vf).irq = (s.vf l.vf).irq) ∧
       (l.rec_.irq = true → match State.msixMessage (s.vf l.vf).msix 0 with
         | some (a, d) => t.links = (s.postHost a d).links
         | none => t.links = s.links ∧ (t.vf l.vf).irq = tset (s.vf l.vf).irq 0 true))) ∧
  (∀ (s : State) (l : Launch), s.reap = s → s.launch? l.key = some l → l.stage = .finish 0 → s.holds l.vf = true → l.rec_.compl ≠ 0 → s.launchAcked l.key = false →
    exec (.launchComplete l.key) s = .next s) ∧
  (∀ (s : State) (l : Launch) (n : Nat), s.reap = s → s.launch? l.key = some l → l.stage = .finish n → (∀ w ∈ (s.vf l.vf).withheld, w.2 ≠ .launchSteps l.key) →
    exec (.launchComplete l.key) s = .next (s.finishSteps l.key 3)) ∧
  (∀ (s : State) (gr : Nat), gr < 16 →
    (((s.gran gr).tick - (s.gran gr).windowFrom).toNat < 10000 → exec (.accountingWindow gr) s = .next s) ∧
    (10000 ≤ ((s.gran gr).tick - (s.gran gr).windowFrom).toNat → ∃ t, exec (.accountingWindow gr) s = .next t ∧ t.mem = s.mem ∧ (∀ k, k ≠ gr → t.gran k = s.gran k) ∧
      (let e := ((s.gran gr).tick - (s.gran gr).windowFrom).toNat
       t.gran gr = { s.gran gr with windowFrom := (s.gran gr).windowFrom + BitVec.ofNat 64 (e / 10000 * 10000),
                                    bgTicks := if e % 10000 = 0 then 0 else (s.gran gr).bgNext, bgNext := 0 }))) ∧
  (∀ (s : State) (gr : Nat) (l : Launch) (t0 : Word64) (k : NextGang) (ws : List WgNeed), s.lanternOn gr = true → (s.gran gr).rotating = false →
    (s.choices gr).find? (fun l => !l.background) = some l → l.waitSince = some t0 → s.nextGang l = some k → s.needs l k = .ok ws →
    (((s.gran gr).tick - t0).toNat < (s.gran gr).pwait → exec (.pwaitExpiry gr) s = .next s) ∧
    ((s.gran gr).pwait ≤ ((s.gran gr).tick - t0).toNat → ∃ t, exec (.pwaitExpiry gr) s = .next t ∧ t.mem = s.mem ∧
      t.cur = (if s.cur.gang ∈ s.pickVictims l ws ((List.range (4 * (s.gran gr).num)).map fun i => 4 * gr + i) ∧ s.cur.gone = false ∧ s.cur.ended = false ∧
        s.cur.stop = none ∧ s.cur.stopped = none then { s.cur with stop := some .save, grace := false } else s.cur))) ∧
  (∀ (s : State) (k : Gang) (l : Launch),
    (let u := (s.allGroups.filter fun g => g.gang = k.key).foldl (fun s g => s.tryStop g.id) s
     let gs := u.allGroups.filter fun g => g.gang = k.key && !g.gone
     s.gang? k.key = some k → k.st = .resident → u.launch? k.launch = some l → gs ≠ [] →
     ((∃ g ∈ gs, g.drained = false) → exec (.gangSave k.key) s = .next u) ∧
     ((∀ g ∈ gs, g.drained = true) → (∀ w ∈ u.wgs, w.gang = k.key → w.settled = true ∧ w.handles.toList.all (fun h => h.poison.isEmpty) = true) →
      ∃ t, exec (.gangSave k.key) s = .next t ∧ (t.gang? k.key).map (·.st) = some .saved ∧ ∀ h ∈ t.allGroups, ∀ g ∈ gs, h.id ≠ g.id))) ∧
  (∀ (s : State) (core : Nat), core < 256 →
    (let k := s.coreAt core
     let up := k.misses ≠ 0 ∧ 256 * k.hits < (s.gran (s.sliceOf (core / 16))).lthr * (k.hits + k.misses)
     ∃ t, exec (.loadThrottlePeriod core) s = .next t ∧ (t.coreAt core).hits = 0 ∧ (t.coreAt core).misses = 0 ∧
       (t.coreAt core).level = (if up then min 4 (k.level + 1) else k.level - 1) ∧ (∀ c, c ≠ core → t.coreAt c = s.coreAt c) ∧ t.mem = s.mem))

/-- R377 to R380, R392, R393: a quantum that is over goes on when the function is the only one with work, else the slice's gangs are asked to stop once the next
register image is loaded; with every group away the next entry takes the slice; an idle engine of a lender takes an offered pass (its cluster at point 5 or
above, log entry 79). -/
def Obligations.RotationAndLeases : Prop :=
  (∀ (s : State) (gr k : Nat), gr < 16 → (s.gran gr).num ≠ 0 → (s.gran gr).rotEn = true → (s.gran gr).hold = false → (s.gran gr).resetting = false →
    (s.gran gr).rotating = false → s.entryOk gr (s.gran gr).entry = true → (s.gran gr).quantum (s.gran gr).entry ≤ ((s.gran gr).tick - (s.gran gr).quantumFrom).toNat →
    (s.gran gr).rotNext = none → s.nextRot gr ((s.gran gr).entryVf (s.gran gr).entry) = some k →
    (let f := (s.gran gr).entryVf (s.gran gr).entry
     let works (j : Nat) : Prop := j ≤ (s.gran gr).rotNm ∧ s.entryOk gr j = true ∧ s.hasWork ((s.gran gr).entryVf j) = true
     ((∃ j, works j) → (∀ j, works j → (s.gran gr).entryVf j = f) → (s.gran gr).entry ≤ (s.gran gr).rotNm →
      exec (.quantumEnd gr) s = .next (s.stays gr (s.gran gr).entry)) ∧
     ((∀ j, ¬works j) ∨ (∃ j, works j ∧ (s.gran gr).entryVf j ≠ f) →
      ((s.gran gr).preloaded = false → (s.gran gr).entryVf k ≠ f → exec (.quantumEnd gr) s = .next s) ∧
      ((s.gran gr).preloaded = true ∨ (s.gran gr).entryVf k = f → ∃ t, exec (.quantumEnd gr) s = .next t ∧ (t.gran gr).rotating = true ∧ t.mem = s.mem ∧
        ∀ g ∈ t.allGroups, (∃ q ∈ s.gangs, q.key = g.gang ∧ q.st = .resident ∧ gr ≤ q.cluster / 4 ∧ q.cluster / 4 < gr + (s.gran gr).num) → g.gone = false →
          g.ended = false → g.stop.isSome = true ∨ g.stopped.isSome = true)))) ∧
  (∀ (s : State) (gr : Nat), gr < 16 → (s.gran gr).num ≠ 0 → (s.gran gr).rotEn = true → (s.gran gr).hold = false → (s.gran gr).resetting = false →
    (s.gran gr).rotating = false → s.entryOk gr (s.gran gr).entry = true → ((s.gran gr).tick - (s.gran gr).quantumFrom).toNat < (s.gran gr).quantum (s.gran gr).entry →
    exec (.quantumEnd gr) s = .next s) ∧
  (∀ (s : State) (gr : Nat), gr < 16 → (s.gran gr).num ≠ 0 → (s.gran gr).rotEn = true → (s.gran gr).hold = false → (s.gran gr).resetting = false →
    (s.gran gr).rotating = false → (s.gran gr).quantum (s.gran gr).entry ≤ ((s.gran gr).tick - (s.gran gr).quantumFrom).toNat →
    (let g := s.gran gr
     (g.rotNext = none → s.entryOk gr g.entry = true → g.entry ≤ g.rotNm → s.nextRot gr (g.entryVf g.entry) = none →
       exec (.quantumEnd gr) s = .next (s.stays gr g.entry)) ∧
     (∀ nm v, g.rotNext = some (false, nm, v) → exec (.quantumEnd gr) s = .next (s.stays gr g.entry)) ∧
     (∀ v, g.rotNext = some (true, 0, v) → g.entry = 0 → v.toNat % 64 ≠ g.entryVf 0 → g.quantum 0 ≠ 0 → s.boundTo (v.toNat % 64) gr = true → g.preloaded = true →
       ∃ t, exec (.quantumEnd gr) s = .next t ∧ (t.gran gr).rotating = true))) ∧
  (∀ (s : State) (gr : Nat), gr < 16 →
    ((s.gran gr).rotating = true → exec (.preloadComplete gr) s = .next s) ∧
    ((s.gran gr).rotating = false → (∀ q ∈ s.gangs, q.st = .saved → q.shadow = false) →
      ∃ t, exec (.preloadComplete gr) s = .next t ∧ t.gran gr = { s.gran gr with preloaded := true } ∧ t.mem = s.mem ∧ t.savedGroups = s.savedGroups)) ∧
  (∀ (s : State) (gr k : Nat), gr < 16 → (s.gran gr).rotating = true → (s.gran gr).hold = false → (s.gran gr).rotEn = true →
    s.nextRot gr ((s.gran gr).entryVf (s.gran gr).entry) = some k → (s.gran gr).rotNext = none → s.gangs = [] → (∀ g ∈ s.allGroups, ¬(g.gone = false ∧ gr ≤ g.cluster / 4 ∧ g.cluster / 4 < gr + (s.gran gr).num)) →
    (s.vf ((s.gran gr).entryVf k)).withheld = [] →
    ∃ t, exec (.contextSwap gr) s = .next t ∧ (t.gran gr).entry = k ∧ (t.gran gr).rotating = false ∧ (t.gran gr).preloaded = false ∧
      (t.gran gr).quantumFrom = (s.gran gr).tick ∧ t.mem = s.mem ∧
      ((s.gran gr).entryVf (s.gran gr).entry ≠ (s.gran gr).entryVf k → ∀ c < 64, 4 * gr ≤ c → c < 4 * (gr + (s.gran gr).num) → (t.cluster c).scales = [] ∧
        (t.cluster c).recs = [])) ∧
  (∀ (s : State) (gr : Nat), ((s.gran gr).rotating = false ∨ (s.gran gr).hold = true ∨ ∃ g ∈ s.allGroups, g.gone = false ∧ gr ≤ g.cluster / 4 ∧ g.cluster / 4 < gr + (s.gran gr).num) →
    exec (.contextSwap gr) s = .next s) ∧
  (∀ (s : State) (cl c : Nat) (e : ResEnt), cl < 64 → c < 64 → c ≠ cl → s.lendable cl = true → 5 ≤ (s.cluster cl).point → s.offers (s.sliceOf (cl / 4)) = [(c, e)] →
    ((s.arrive (engineUnit cl)).gate (engineUnit cl)).waking = false →
    ∃ t, exec (.leaseGrant cl) s = .next t ∧ (t.cluster cl).owner = some e.vf ∧
      (t.cluster cl).run = some { gid := e.gid, op := e.op, vf := e.vf, borrowed := true, home := c } ∧ t.mem = s.mem ∧
      ∀ x ∈ (t.cluster c).res, ¬(x.gid = e.gid ∧ x.op = e.op)) ∧
  (∀ (s : State) (cl : Nat), (s.lendable cl = false ∨ (s.cluster cl).point < 5 → exec (.leaseGrant cl) s = .next s) ∧
    (s.lendable cl = true → 5 ≤ (s.cluster cl).point → s.offers (s.sliceOf (cl / 4)) = [] → exec (.leaseGrant cl) s = .next (s.engineIdle cl)))

/-! ## Events: slices, functions and errors -/

/-- R381, R382, R385 to R387: HOLD stops a slice and asks its gangs to stop; a held slice with nothing left is quiescent; a fuse makes one slice of its
granules and a split two, with the power shares of R403, each granule keeping its tick counter. -/
def Obligations.SliceShapes : Prop :=
  (∀ (s : State) (gr : Nat), s.isSlice gr = true →
    exec (.sctlHold gr false) s = .next (s.updGran gr fun g => { g with hold := false, quiet := false }) ∧
    ∃ t, exec (.sctlHold gr true) s = .next t ∧ t.gran gr = { s.gran gr with hold := true } ∧ t.mem = s.mem ∧
      ∀ g ∈ t.allGroups, (∃ q ∈ s.gangsOn gr, q.key = g.gang) → g.gone = false → g.ended = false → g.stop.isSome = true ∨ g.stopped.isSome = true) ∧
  (∀ (s : State) (gr : Nat) (b : Bool), s.isSlice gr = false → exec (.sctlHold gr b) s = .next s) ∧
  (∀ (s : State) (gr : Nat), s.isSlice gr = true → (s.gran gr).hold = true → s.residents (s.functionsOf gr) = false → s.gangsOn gr = [] →
    s.outstanding (s.functionsOf gr) = false → s.asksPages (s.functionsOf gr) = false →
    (∀ c r, 4 * gr ≤ c → c < 4 * (gr + (s.gran gr).num) → (s.cluster c).run = some r → r.borrowed = false) →
    exec (.sliceQuiescent gr) s = .next ((s.writeImages (s.functionsOf gr)).updGran gr fun g => { g with quiet := true }) ∧
    ((∀ q ∈ s.gangs, q.unwritten = false) → exec (.sliceQuiescent gr) s = .next (s.updGran gr fun g => { g with quiet := true }))) ∧
  (∀ (s : State) (gr : Nat), s.residents (s.functionsOf gr) = true → exec (.sliceQuiescent gr) s = .next s) ∧
  (∀ (s : State) (first num : Nat) (v : Word64),
    (s.pcmdStat = 1 → exec (.pcmdFuse first num) s = .next s ∧ exec (.pcmdSplit first num) s = .next s ∧ exec (.pcmdRefusedOp v) s = .next s) ∧
    (s.pcmdStat ≠ 1 →
      exec (.pcmdFuse first num) s = .next { s with pcmdOp := 1, pcmdFirst := first, pcmdNum := num, pcmdJob := (1, first, num), pcmdStat := if s.fuseOk first num then 1 else 3 } ∧
      exec (.pcmdSplit first num) s = .next { s with pcmdOp := 2, pcmdFirst := first, pcmdNum := num, pcmdJob := (2, first, num), pcmdStat := if s.splitOk first num then 1 else 3 } ∧
      (let first := v.toNat % 16
       let num := v.toNat / 256 % 32
       exec (.pcmdRefusedOp v) s = .next { s with pcmdOp := 3, pcmdFirst := first, pcmdNum := num, pcmdJob := (3, first, num), pcmdStat := 3 }))) ∧
  (∀ s : State, s.pcmdStat ≠ 1 → exec .pcmdOperationDone s = .next s) ∧
  (∀ (s : State) (f n : Nat), s.pcmdStat = 1 → s.pcmdJob = (1, f, n) → f + n ≤ 16 → 1 ≤ n → (∀ f, (s.vf f).withheld = []) →
    (∃ t, exec .pcmdOperationDone s = .next t ∧ t.pcmdStat = 2 ∧ (t.gran f).num = n ∧ (t.gran f).hold = true ∧ (t.gran f).quiet = true ∧
       (t.gran f).slpow.toNat = ((s.slicesIn f n).map fun g => (s.gran g).slpow.toNat).sum % 2 ^ 16 ∧
       (∀ k, 0 < k → k < n → (t.gran (f + k)).num = 0) ∧ (∀ g, (t.gran g).tick = (s.gran g).tick) ∧
       ∀ g, ¬(f ≤ g ∧ g < f + n) → ({ t.gran g with vote := 0 } : Granule) = { s.gran g with vote := 0 })) ∧
  (∀ (s : State) (f n : Nat), s.pcmdStat = 1 → s.pcmdJob = (2, f, n) → 1 ≤ n → s.isSlice f = true → n < (s.gran f).num → f + (s.gran f).num ≤ 16 →
    (∀ f, (s.vf f).withheld = []) → (∀ k, 0 < k → k < (s.gran f).num → (s.gran (f + k)).num = 0) → (∀ g < f, s.isSlice g = true → g + (s.gran g).num ≤ f) →
    (let m := (s.gran f).num
     ∃ t, exec .pcmdOperationDone s = .next t ∧ t.pcmdStat = 2 ∧ (t.gran f).num = n ∧ (t.gran (f + n)).num = m - n ∧
       (t.gran f).slpow.toNat = (s.gran f).slpow.toNat * n / m ∧ (t.gran (f + n)).slpow.toNat = (s.gran f).slpow.toNat * (m - n) / m ∧
       (t.gran (f + n)).hold = true ∧ (t.gran (f + n)).quiet = true ∧ (t.gran (f + n)).rail = (s.gran f).rail ∧ ∀ g, (t.gran g).tick = (s.gran g).tick))

/-- R388, R398, R399: binding and unbinding a function; a per-slice reset leaves no group of the slice's functions and notes SRST; a function-level reset
gives the function's own registers their reset values and discards its launches. That a function already bound takes BRW and SLICE at once, and its slice once it is
unbound, and which registers outlive a function-level reset (its roots among them) are the model's choices (log entries 27, 72, 52 and 4). -/
def Obligations.FunctionEvents : Prop :=
  (∀ (s : State) (vf sl brw : Nat), vf < 64 → sl < 16 →
    (let others := ((s.functionsOf sl).filter (· ≠ vf)).length
     (s.isSlice sl = false ∨ 4 ≤ others ∨ ((s.gran sl).hold = true ∧ (s.gran sl).quiet = false) → exec (.vfBind vf sl brw) s = .next { s with pfRws := true }) ∧
     (s.isSlice sl = true → others < 4 → ((s.gran sl).hold = true → (s.gran sl).quiet = true) →
       ((s.vf vf).bound = true →
         exec (.vfBind vf sl brw) s = .next (s.updVf vf fun v => { v with brw := brw ≠ 0, newSlice := some sl })) ∧
       ((s.vf vf).bound = false → s.prqWait = [] →
         ∃ t, exec (.vfBind vf sl brw) s = .next t ∧ (∀ k, k ≠ vf → t.vf k = s.vf k) ∧ t.mem = s.mem ∧
           t.vf vf = { s.vf vf with bound := true, slice := sl, brw := brw ≠ 0 })))) ∧
  (∀ (s : State) (vf : Nat), vf < 64 → (s.vf vf).bound = true → (s.vf vf).busy = false →
    ∃ t, exec (.vfUnbind vf) s = .next t ∧ (t.vf vf) = { s.vf vf with busy := true } ∧ t.mem = s.mem ∧
      ∀ g ∈ t.allGroups, g.vf = vf → g.gone = false → g.ended = false → g.stop.isSome = true ∨ g.stopped.isSome = true) ∧
  (∀ (s : State) (vf : Nat), vf < 64 → (s.vf vf).busy = true →
    (s.residents [vf] = true ∨ s.outstanding [vf] = true ∨ s.asksPages [vf] = true → exec (.vfUnbindComplete vf) s = .next s) ∧
    (s.residents [vf] = false → s.outstanding [vf] = false → s.asksPages [vf] = false → (s.vf vf).withheld = [] → s.prqWait = [] → (∀ q ∈ s.gangs, q.unwritten = false) →
      ∃ t, exec (.vfUnbindComplete vf) s = .next t ∧
        t.vf vf = { s.vf vf with bound := false, busy := false, slice := (s.vf vf).newSlice.getD (s.vf vf).slice, newSlice := none } ∧ (∀ k, k ≠ vf → t.vf k = s.vf k) ∧ t.mem = s.mem)) ∧
  (∀ (s : State) (gr : Nat), s.isSlice gr = true → (s.gran gr).rdone = true → s.pcmdStat ≠ 1 →
    ∃ t, exec (.sctlRst gr) s = .next t ∧ (t.gran gr).rdone = false ∧ (t.gran gr).resetting = true ∧ (∀ g ∈ t.allGroups, g.vf ∉ s.functionsOf gr) ∧
      ∀ f ∈ s.functionsOf gr, (∃ l ∈ s.launches, l.vf = f) → (t.vf f).srst = true) ∧
  (∀ (s : State) (gr : Nat), s.isSlice gr = false ∨ (s.gran gr).rdone = false → exec (.sctlRst gr) s = .next s) ∧
  (∀ (s : State) (gr : Nat), gr < 16 → ((s.gran gr).resetting = false → exec (.sliceResetDone gr) s = .next s) ∧
    ((s.gran gr).resetting = true → ∃ t, exec (.sliceResetDone gr) s = .next t ∧ t.mem = s.mem ∧ (∀ k, k ≠ gr → ({ t.gran k with vote := 0 } : Granule) = { s.gran k with vote := 0 }) ∧
      ({ t.gran gr with vote := 0 } : Granule) = { s.gran gr with resetting := false, hold := true, quiet := true, rdone := true, hangReported := false, vote := 0 })) ∧
  (∀ (s : State) (vf : Nat), vf < 64 →
    ((s.vf vf).flrDone = false → exec (.functionLevelReset vf) s = .next s) ∧
    ((s.vf vf).flrDone = true → (s.gran (s.vf vf).slice).rotEn = false →
      (let v := s.vf vf
       ∃ t, exec (.functionLevelReset vf) s = .next t ∧ (∀ g ∈ t.allGroups, g.vf ≠ vf) ∧ (∀ l ∈ t.launches, l.vf ≠ vf) ∧ (∀ r ∈ t.prq, r.vf ≠ vf) ∧
         t.vf vf = { spol := v.spol, inv2 := v.inv2, busy := v.busy, brw := v.brw, bound := v.bound, slice := v.slice, newSlice := v.newSlice, lipass := v.lipass, limac := v.limac,
                     libyte := v.libyte, s1root := v.s1root, s2root := v.s2root, config := v.config, msix := v.msix, flrDone := false })) ∧
    exec (.functionLevelResetDone vf) s = .next (s.updVf vf fun v => { v with flrDone := true }))

/-- R396, R397, R400 to R402: an error-log record and its place; a hang, an uncorrectable error of each site and a corrected error, with what each does. Which number names a site, and
which slice's log takes the record of one, are the model's choices (log entry 29). -/
def Obligations.ErrorEvents : Prop :=
  (∀ (s : State) (slice kind cls vf unit addr : Nat) (launch : Word64), slice < 16 → (s.gran slice).log.en = true → Memory.wf s.mem →
    (let l := (s.gran slice).log
     let t := s.logError slice kind cls vf unit addr launch
     let size := 2 ^ l.log2e.toNat
     ((l.tail - l.head).toNat < size → (t.gran slice).log = { l with tail := l.tail + 1 } ∧
       Memory.readN t.mem (l.base.toNat + 32 * (l.tail.toNat % size)) 32 = bytesLE 8 addr ++ bytesLE 8 (s.gran slice).tick.toNat ++
         bytesLE 8 (unit + 2 ^ 32 * vf + 2 ^ 48 * cls + 2 ^ 56 * kind) ++ bytesLE 8 launch.toNat) ∧
     (size ≤ (l.tail - l.head).toNat → t.mem = s.mem ∧ (t.gran slice).log = { l with drops := if l.drops = 0xFFFFFFFF then l.drops else l.drops + 1 }))) ∧
  (∀ (s : State) (slice kind cls vf unit addr : Nat) (launch : Word64), (s.gran slice).log.en = false → s.logError slice kind cls vf unit addr launch = s) ∧
  (∀ (s : State) (gr : Nat), s.isSlice gr = true → (s.gran gr).wdog ≠ 0 → (s.gran gr).hangReported = false →
    (s.residents (s.functionsOf gr) = true ∧ (s.gran gr).wdog.toNat ≤ ((s.gran gr).tick - (s.gran gr).progress).toNat) ∨
      (∃ u ∈ (s.gran gr).units, (s.gran gr).wdog.toNat ≤ ((s.gran gr).tick - u.2.2).toNat) →
    exec (.watchdogHang gr) s = .next (((s.logError gr 0x07 0xFF 0xFF 0).raisePf 0).updGran gr fun g => { g with hangReported := true })) ∧
  (∀ (s : State) (gr : Nat), (s.gran gr).wdog = 0 ∨ (s.gran gr).hangReported = true → exec (.watchdogHang gr) s = .next s) ∧
  (∀ (s : State) (a : Nat), isDevice a = true → ∃ t, exec (.uncorrectableError 0 a) s = .next t ∧ a / 64 ∈ t.poison ∧ (∀ x ∈ s.poison, x ∈ t.poison) ∧ t.l2 = s.l2 ∧
    t.groups = s.groups) ∧
  (∀ (s : State) (core slot : Nat) (g : Group) (l : Launch), core < 256 → slot < 64 → g ∈ s.allGroups → g.id ≠ 0 → g.gone = false → g.coreIx = core →
    g.gslot = slot → s.launch? g.launch = some l → ∃ t, exec (.uncorrectableError 1 (64 * core + slot)) s = .next t ∧ (t.launch? g.launch).map (·.faulted) = some true) ∧
  (∀ (s : State) (key h word : Nat) (w : Workgroup), h < 32 → word < 2 ^ 32 → s.wg? key = some w → (s.handle key h).st = .allocated →
    ∃ t, exec (.uncorrectableError 2 (2 ^ 37 * key + 2 ^ 32 * h + word)) s = .next t ∧ t.handle key h = { s.handle key h with poison := word :: (s.handle key h).poison }) ∧
  (∀ (s : State) (g : Group) (l : Launch), s.savedGroups.find? (fun h => h.id = g.id) = some g → g.gone = false → s.launch? g.launch = some l →
    ∃ t, exec (.uncorrectableError 3 g.id) s = .next t ∧ (t.launch? g.launch).map (·.faulted) = some true) ∧
  (∀ (s : State) (vf k : Nat) (w : Withheld) (r : List (Nat × Withheld)), vf < 64 → (s.vf vf).withheld = (k, w) :: r → (∀ l, w ≠ .launchSteps l) →
    ∃ t, exec (.uncorrectableError 4 vf) s = .next t ∧ (t.vf vf).withheld = r ∧
      ∀ d1 d2 d3 ag n l, w = .reply d1 d2 d3 ag n ∨ w = .status d1 d2 d3 ag → (s.launches.find? fun l => l.vf = vf && l.id = ag.launch) = some l →
        (t.launch? l.key).map (·.faulted) = some true) ∧
  (∀ (s : State) (gr : Nat), gr < 16 → exec (.uncorrectableError 5 gr) s =
    .next (((((s.logError (s.sliceOf gr) 0x03 0xFF 0xFF 0).logError (s.sliceOf gr) 0x07 0xFF 0xFF 0)).raisePf 0).updGran (s.sliceOf gr) fun g => { g with stuck := true })) ∧
  (∀ (s : State) (site a : Nat), 6 ≤ site → ∃ t, exec (.uncorrectableError site a) s = .next t ∧ t.packageFault = true) ∧
  (∀ (s : State) (cls unit addr : Nat), cls < 7 →
    (let inst := if cls ≤ 1 then addr / 64 else unit
     let n := (((s.errCounts.find? fun e => e.1 = cls && e.2.1 = inst).map (·.2.2)).getD 0) + 1
     let thr := s.sethr.toNat / 2 ^ (8 * cls) % 256
     ∃ t, exec (.correctedError cls unit addr) s = .next t ∧ (t.errCounts.find? fun e => e.1 = cls && e.2.1 = inst) = some (cls, inst, n) ∧ t.groups = s.groups ∧
       (thr = 0 ∨ n < thr → t.mem = s.mem ∧ t.retired = s.retired ∧ t.noSpare = s.noSpare) ∧
       (thr ≠ 0 → thr ≤ n → (cls, inst) ∉ s.retired → s.spareLeft cls unit = true → t.retired = (cls, inst) :: s.retired) ∧
       (thr ≠ 0 → thr ≤ n → (cls, inst) ∉ s.retired → s.spareLeft cls unit = false → (cls, inst) ∈ t.noSpare ∧ t.retired = s.retired))) ∧
  (∀ (s : State) (gr : Nat),
    (s.sewin ≠ 0 → (s.gran gr).tick.toNat % s.sewin.toNat = 0 → ∃ t, exec (.softErrorWindow gr) s = .next t ∧ t.mem = s.mem ∧
      ∀ e, e ∈ t.errCounts ↔ e ∈ s.errCounts ∧ errGran e.1 e.2.1 (64 * e.2.1) ≠ gr) ∧
    (s.sewin = 0 ∨ (s.gran gr).tick.toNat % s.sewin.toNat ≠ 0 → exec (.softErrorWindow gr) s = .next s))

/-! ## Events: power, debug and replay -/

/-- R403, R406 to R412: control intervals, the arbiter's period, regulators, the power registers, gating and the slice tick (R37, R39).
How the demanding clusters share what is offered, which lenders fund a share, and how far a lender's remaining energy must cover its offer are the model's choices
(log entry 30). -/
def Obligations.PowerEvents : Prop :=
  (∀ (s : State) (cl : Nat), cl < 64 →
    (let k := s.cluster cl
     let g := s.gran (s.sliceOf (cl / 4))
     ∃ t, exec (.controlInterval cl) s = .next t ∧ (t.cluster cl).interval = k.interval + 1 ∧ (t.cluster cl).demanding = k.refused ∧
       (t.cluster cl).remaining = s.budget cl ∧ (t.cluster cl).inForce = s.budget cl ∧ (t.cluster cl).grantIn = k.granted ∧ (t.cluster cl).admitted = 0 ∧ (t.cluster cl).refused = false ∧
       (t.cluster cl).offer = (if k.refused then 0 else s.baseBudget cl - k.admitted) ∧ t.mem = s.mem ∧
       (g.top < k.point → (∀ r, k.run = some r → r.borrowed = false) → 0 < k.point → (t.cluster cl).point ≤ k.point - 1))) ∧
  (∀ s : State, ∃ t, exec .powerArbiterPeriod s = .next t ∧ t.mem = s.mem ∧
    (∀ l ∈ t.loans, l.1 < 64 ∧ l.2.1 < 64 ∧ (s.cluster l.1).demanding = false ∧ (s.cluster l.2.1).demanding = true) ∧
    ((∀ c < 64, (s.cluster c).demanding = false) → t.loans = [] ∧ ∀ c < 64, (let k := s.cluster c
      t.cluster c = { k with lent := 0, granted := 0, grantIn := 0, inForce := k.inForce - k.grantIn, remaining := k.remaining - k.grantIn }))) ∧
  (∀ (s : State) (b : Nat), b < 64 → (∀ c < 64, (s.cluster c).demanding = decide (c = b)) → 0 < s.baseBudget b →
    (let total := ((List.range 64).map fun c => if c = b then 0 else min (s.cluster c).offer ((s.cluster c).lent + (s.cluster c).remaining)).sum
     ∃ t, exec .powerArbiterPeriod s = .next t ∧ (t.cluster b).granted = min (s.baseBudget b) total ∧
       (t.loans.map (·.2.2)).sum = min (s.baseBudget b) total ∧ (∀ l ∈ t.loans, l.2.1 = b ∧ l.1 < 64 ∧ l.1 ≠ b) ∧
       ∀ c < 64, c ≠ b → (t.cluster c).lent = ((t.loans.filter fun l => l.1 = c).map (·.2.2)).sum ∧ (t.cluster c).granted = 0 ∧
         (let down := (s.cluster c).grantIn + ((t.cluster c).lent - (s.cluster c).lent)
          (t.cluster c).remaining = (s.cluster c).remaining - down ∧ (t.cluster c).inForce = (s.cluster c).inForce - down))) ∧
  (∀ (s : State) (r : Nat), r < 4 →
    ((s.rail r).mv < (s.rail r).target → ∃ t, exec (.railStep r) s = .next t ∧ (t.rail r).mv = min (s.rail r).target ((s.rail r).mv + 25) ∧ t.mem = s.mem) ∧
    ((s.rail r).target < (s.rail r).mv → (s.rail r).holding = false →
      (∀ g c, s.isSlice g = true → (s.gran g).rail = r → 4 * g ≤ c → c < 4 * (g + (s.gran g).num) → pointMv (s.cluster c).point ≤ max (s.rail r).target ((s.rail r).mv - 10)) →
      ∃ t, exec (.railStep r) s = .next t ∧ (t.rail r) = { s.rail r with mv := max (s.rail r).target ((s.rail r).mv - 10) } ∧ (∀ k, k ≠ r → t.rail k = s.rail k) ∧
        t.clusters = s.clusters) ∧
    ∃ t, exec (.railHoldExpiry r) s = .next t ∧ t.rail r = { s.rail r with holding := false } ∧ (∀ k, k ≠ r → t.rail k = s.rail k) ∧ t.clusters = s.clusters) ∧
  (∀ (s : State) (gr : Nat) (v : Word64), s.isSlice gr = true → v.toNat < 2 ^ 16 →
    (let others := (((List.range 16).filter fun g => s.isSlice g && g ≠ gr).map fun g => (s.gran g).slpow.toNat).sum
     (others + v.toNat ≤ s.pkpow.toNat → exec (.slpowWrite gr v) s = .next (s.updGran gr fun g => { g with slpow := BitVec.ofNat 16 v.toNat })) ∧
     (s.pkpow.toNat < others + v.toNat → exec (.slpowWrite gr v) s = .next { s with pfRws := true }))) ∧
  (∀ (s : State) (gr x : Nat), s.isSlice gr = true →
    ((s.gran gr).hold = true → (s.gran gr).quiet = true → ∃ t, exec (.opcfgRailWrite gr x) s = .next t ∧ (t.gran gr).rail = x % 4 ∧ t.mem = s.mem) ∧
    ((s.gran gr).hold = false ∨ (s.gran gr).quiet = false → exec (.opcfgRailWrite gr x) s = .next { s with pfRws := true }) ∧
    exec (.opcfgTopWrite gr x) s = .next (s.updGran gr fun g => { g with top := x % 8 })) ∧
  (∀ (s : State) (u : Nat), u < 1408 →
    (∀ k, (s.gate u).idleFrom = some k → (s.gate u).gated = false → (s.gate u).waking = false → gateBE u ≤ (s.gate u).pred.toNat →
      ∃ t, exec (.gatingCommit u) s = .next t ∧ t.mem = s.mem ∧ (s.clocks (State.unitCore u) k < 8 → t = s) ∧
        (8 ≤ s.clocks (State.unitCore u) k → t.gate u = { s.gate u with gated := true, commitAt := s.steps } ∧
          (t.gran (s.sliceOf (State.unitGran u))).gates = (s.gran (s.sliceOf (State.unitGran u))).gates + 1)) ∧
    ((s.gate u).idleFrom = none ∨ (s.gate u).gated = true ∨ (s.gate u).waking = true ∨ (s.gate u).pred.toNat < gateBE u → exec (.gatingCommit u) s = .next s) ∧
    ∃ t, exec (.wakeComplete u) s = .next t ∧ t.gate u = { s.gate u with waking := false } ∧ (∀ k, k < 1408 → k ≠ u → t.gate k = s.gate k) ∧ t.mem = s.mem) ∧
  (∀ (s : State) (gr : Nat), gr < 16 → ∃ t, exec (.sliceTick gr) s = .next t ∧ (t.gran gr).tick = (s.gran gr).tick + 1 ∧ (∀ k, k ≠ gr → t.gran k = s.gran k) ∧
    t.mem = s.mem ∧ t.cur = s.cur ∧ ((s.gran gr).num ≠ 0 → ((s.gran gr).tick - (s.gran gr).windowFrom).toNat < 10000 → (t.gran gr).bgTicks = (s.gran gr).bgTicks + s.bgClusters gr))

/-- R418, R419, R422 to R425: a debug halt asks the function's groups to stop, is complete once they are saved, and ends with RESUME; replay mode is entered
with a checkpoint and left without; an interval starts with a checkpoint; a stop that no kept interval holds is refused; one that is reached stands. That
GO is refused on a slice that is not quiescent, when the undo log is full and that the count goes on in the interval that it begins, and how much a rollback puts
back are the model's readings (log entries 31 and 54). -/
def Obligations.DebugAndReplay : Prop :=
  (∀ (s : State) (vf : Nat), vf < 64 →
    ((s.vf vf).halted = true → exec (.dbgfHreq vf) s = .next s) ∧
    ((s.vf vf).halted = false → ∃ t, exec (.dbgfHreq vf) s = .next t ∧ t.vf vf = { s.vf vf with halting := true } ∧ t.mem = s.mem ∧
      ∀ g ∈ t.allGroups, g.vf = vf → g.gone = false → g.ended = false → g.stop.isSome = true ∨ g.stopped.isSome = true)) ∧
  (∀ (s : State) (vf : Nat), vf < 64 →
    ((s.vf vf).halting = true → (s.vf vf).halted = false → s.residents [vf] = false →
      exec (.haltComplete vf) s = .next ((s.updVf vf fun v => { v with halted := true }).raiseIrq vf 2)) ∧
    ((s.vf vf).halting = false ∨ (s.vf vf).halted = true ∨ s.residents [vf] = true → exec (.haltComplete vf) s = .next s)) ∧
  (∀ (s : State) (vf : Nat), vf < 64 →
    ((s.vf vf).halted = false → exec (.dbgfResume vf) s = .next s) ∧
    ((s.vf vf).halted = true → ∃ t, exec (.dbgfResume vf) s = .next t ∧ t.vf vf = { s.vf vf with halted := false, halting := false } ∧ t.mem = s.mem ∧
      ∀ g ∈ t.savedGroups, g.vf = vf → ∀ b, g.halt ≠ some (.debug b))) ∧
  (∀ (s : State) (gr : Nat), s.isSlice gr = true →
    ((s.gran gr).rpEn = false →
      (s.replayOk gr = false → exec (.rpctlEn gr true) s = .next { s with pfRws := true }) ∧
      (s.replayOk gr = true → ∃ (t : State) (c : Ckpt), exec (.rpctlEn gr true) s = .next t ∧ (t.gran gr).rpEn = true ∧ (t.gran gr).rpStat = 1 ∧
        (t.gran gr).rpIvl = 0 ∧ (t.gran gr).rpCount = 0 ∧ t.mem = s.mem ∧ t.kept.filter (fun c => c.gran = gr) = [c] ∧ c.ivl = 0 ∧ c.start = t.toDevice ∧ c.log = [])) ∧
    ((s.gran gr).rpEn = true →
      ((s.gran gr).rpStat = 2 → exec (.rpctlEn gr false) s = .next { s with pfRws := true }) ∧
      ((s.gran gr).rpStat ≠ 2 → ∃ t, exec (.rpctlEn gr false) s = .next t ∧ (t.gran gr).rpEn = false ∧ (t.gran gr).rpStat = 0 ∧ t.mem = s.mem ∧
        ∀ c ∈ t.kept, c.gran ≠ gr)) ∧
    ∀ b, (s.gran gr).rpEn = b → exec (.rpctlEn gr b) s = .next s) ∧
  (∀ (s : State) (gr : Nat), gr < 16 → (s.gran gr).rpEn = true → (s.gran gr).rpStat = 1 → 2 ^ (s.gran gr).ivl ≤ (s.gran gr).rpCount ∨ s.undoFull gr = true →
    ∃ (t : State) (c : Ckpt) (old : List Ckpt), exec (.replayIntervalStart gr) s = .next t ∧ (t.gran gr).rpIvl = (s.gran gr).rpIvl + 1 ∧
      (t.gran gr).rpCount = (if 2 ^ (s.gran gr).ivl ≤ (s.gran gr).rpCount then 0 else (s.gran gr).rpCount) ∧ c.began = (t.gran gr).rpCount ∧ t.mem = s.mem ∧ t.kept.filter (fun c => c.gran = gr) = old ++ [c] ∧ old.length ≤ 1 ∧ c.ivl = (s.gran gr).rpIvl + 1 ∧
      (∀ k ∈ t.kept, k.gran ≠ gr → k ∈ s.kept) ∧ ∀ k ∈ s.kept, k.gran ≠ gr → k ∈ t.kept) ∧
  (∀ (s : State) (gr : Nat), (s.gran gr).rpEn = false ∨ (s.gran gr).rpStat ≠ 1 ∨ ((s.gran gr).rpCount < 2 ^ (s.gran gr).ivl ∧ s.undoFull gr = false) →
    exec (.replayIntervalStart gr) s = .next s) ∧
  (∀ (s : State) (gr : Nat), (s.gran gr).rpEn = true → (s.gran gr).rpStat = 3 → (s.gran gr).quiet = true →
    ((∀ c ∈ s.kept, c.gran = gr → c.ivl ≠ (s.gran gr).rpStop.extractLsb' 32 32) → exec (.rpctlGo gr) s = .next s) ∧
    (∀ c, s.kept.find? (fun c => c.gran = gr && c.ivl = (s.gran gr).rpStop.extractLsb' 32 32) = some c → gr < 16 →
      (c.stop < (s.gran gr).rpStop.toNat % 2 ^ 32 → exec (.rpctlGo gr) s = .next s) ∧
      ((s.gran gr).rpStop.toNat % 2 ^ 32 ≤ c.stop → ∃ t, exec (.rpctlGo gr) s = .next t ∧ (t.gran gr).rpStat = 2 ∧ (t.gran gr).rpIvl = c.ivl ∧
        (t.gran gr).rpCount = c.began ∧ (t.gran gr).tick = (s.gran gr).tick ∧ t.mem = c.start.mem ∧ t.l2 = c.start.l2 ∧
        t.tape = ((c.log.reverse.filter fun e => decide (e.count < (s.gran gr).rpStop.toNat % 2 ^ 32)).map LogEnt.again) ++ [.event (.replayStop gr) {}] ++ s.tape))) ∧
  (∀ (s : State) (gr : Nat), (s.gran gr).rpEn = false ∨ (s.gran gr).quiet = false → exec (.rpctlGo gr) s = .next s) ∧
  (∀ (s : State) (gr : Nat), (s.gran gr).rpStat = 2 → s.gangsOn gr = [] → s.residents (s.functionsOf gr) = false →
    exec (.replayStop gr) s = .next (s.updGran gr fun g => { g with rpStat := 3, hold := true, quiet := true })) ∧
  (∀ (s : State) (gr : Nat), (s.gran gr).rpStat ≠ 2 → exec (.replayStop gr) s = .next s)

/-! ## Events: links and the host -/

/-- R172, R426 to R429, R434: a flit in turn fills its buffer and is acknowledged, one with a wrong CRC is answered by a NAK that names the flit that is expected;
what a transaction takes leaves its buffer free again, and PAUSE and RESUME go out as its free space asks; ACK, NAK, PAUSE and RESUME act on the sender's side once
their flit is heard; a request without an answer ends as R429 says; a failed link trains again. What the bytes of a control frame and of a transaction are is the
model's (log entry 32), and so is what waits for a link that is not UP (log entry 35). -/
def Obligations.LinkEvents : Prop :=
  (∀ s : State,
    (let k := s.port.link
     let f := s.port.flit
     let l := s.link k
     let ch := f.ctrl.toNat % 4
     let got := unpad (tget l.rx ch [] ++ f.body)
     let full : Bool := ch = 1 && decide (1024 ≤ l.aq.length)
     k < 5 → l.state = 2 → f.ctrl.toNat < 3 → f.body.length = 246 →
     (f.crc ≠ flitSum f → exec .flitReceive s =
       .next (s.updLink k fun l => { l with sent := l.sent ++ [(3, l.rxSeq)], wire := l.wire ++ [controlFlit 3 l.rxSeq] })) ∧
     (f.crc = flitSum f → f.seq.toNat % 1024 ≠ l.rxSeq → exec .flitReceive s = .next s) ∧
     (f.crc = flitSum f → f.seq.toNat % 1024 = l.rxSeq → (tget l.rx ch []).length + 246 ≤ bufferBytes ch → full = false → ∃ t, exec .flitReceive s = .next t ∧
       (t.link k).rxSeq = (l.rxSeq + 1) % 1024 ∧ tget (t.link k).rx ch [] = got ∧ (∀ c < 3, c ≠ ch → tget (t.link k).rx c [] = tget l.rx c []) ∧
       (2, l.rxSeq) ∈ (t.link k).sent ∧ controlFlit 2 l.rxSeq ∈ (t.link k).wire ∧ (∀ j, j ≠ k → t.link j = s.link j) ∧ t.mem = s.mem ∧
       (tget l.rxPaused ch false = false → bufferBytes ch - got.length < pauseBelow ch →
         tget (t.link k).rxPaused ch false = true ∧ (0, ch) ∈ (t.link k).sent ∧ controlFlit 0 ch ∈ (t.link k).wire) ∧
       (pauseBelow ch ≤ bufferBytes ch - got.length → tget l.rxPaused ch false = false → tget (t.link k).rxPaused ch false = false)) ∧
     (f.crc = flitSum f → f.seq.toNat % 1024 = l.rxSeq → bufferBytes ch < (tget l.rx ch []).length + 246 ∨ full = true →
       exec .flitReceive s = .next (s.failLink k)))) ∧
  (∀ (s : State) (kind : TlpKind) (ch : Nat) (rest : List Byte), ch < 3 → s.arrived kind ch = true →
    tget (s.link s.port.link).rx ch [] = tlpOf { s.port with kind } ++ rest →
    (let l := s.link s.port.link
     let t := s.takeTlp kind ch
     let free := bufferBytes ch - (unpad rest).length
     tget (t.link s.port.link).rx ch [] = unpad rest ∧ t.mem = s.mem ∧ (∀ j, j ≠ s.port.link → t.link j = s.link j) ∧
     (tget l.rxPaused ch false = true → ¬(ch = 1 ∧ 1024 ≤ l.aq.length) → 2 * pauseBelow ch ≤ free →
       tget (t.link s.port.link).rxPaused ch false = false ∧ (t.link s.port.link).sent = l.sent ++ [(1, ch)]) ∧
     (tget l.rxPaused ch false = true → free < 2 * pauseBelow ch → tget (t.link s.port.link).rxPaused ch false = true))) ∧
  (∀ s : State, s.port.link < 5 → (s.link s.port.link).state = 2 →
    (let l := s.link s.port.link
     let n := s.port.seq.toNat % 1024
     (∀ (old rest : List Flit) (f : Flit), s.heard 3 n = true → l.buf = old ++ f :: rest → f.seq.toNat = n → (∀ x ∈ old, x.seq.toNat ≠ n) →
       ∃ t, exec .nakReceive s = .next t ∧ (t.link s.port.link).replays.toNat = min (2 ^ 32 - 1) (l.replays.toNat + (rest.length + 1)) ∧
         (t.link s.port.link).buf = l.buf ∧ (t.link s.port.link).wire = l.wire ++ f :: rest ∧ t.mem = s.mem) ∧
     (s.heard 3 n = true → (∀ x ∈ l.buf, x.seq.toNat ≠ n) → exec .nakReceive s = .next (s.failLink s.port.link)) ∧
     (s.heard 3 n = false → exec .nakReceive s = .next s) ∧
     (s.heard 2 n = true → ∃ t, exec .ackReceive s = .next t ∧ t.mem = s.mem ∧ (∀ f, f ∈ (t.link s.port.link).buf ↔ f ∈ l.buf ∧ upTo n f.seq.toNat = false) ∧
       ∀ u, u ∈ (t.link s.port.link).unacked ↔ u ∈ l.unacked ∧ ∀ x, u.flit = some x → upTo n x = false) ∧
     (s.heard 2 n = false → exec .ackReceive s = .next s) ∧
     (s.port.chan < 3 → s.heard 0 s.port.chan = true →
       ∃ t, exec .pauseReceive s = .next t ∧ t.mem = s.mem ∧ tget (t.link s.port.link).txPaused s.port.chan false = true ∧ (t.link s.port.link).out = l.out) ∧
     (s.heard 0 s.port.chan = false → exec .pauseReceive s = .next s) ∧
     (∀ p, s.port.chan < 3 → s.heard 1 s.port.chan = true → l.held = [(s.port.chan, p)] → ∃ t, exec .resumeReceive s = .next t ∧ t.mem = s.mem ∧
       tget (t.link s.port.link).txPaused s.port.chan false = false ∧ (t.link s.port.link).held = [] ∧ (t.link s.port.link).out = l.out ++ [p]) ∧
     (s.heard 1 s.port.chan = false → exec .resumeReceive s = .next s))) ∧
  (∀ (s : State) (k : Nat), k < 5 → (s.link k).state = 2 → ∃ t, exec (.flowStateRepeat k) s = .next t ∧ t.mem = s.mem ∧
    (let state (c : Nat) : Nat := if tget (s.link k).rxPaused c false then 0 else 1
     (t.link k).sent = (s.link k).sent ++ (List.range 3).map (fun c => (state c, c)) ∧
     (t.link k).wire = (s.link k).drain.wire ++ (List.range 3).map fun c => controlFlit (state c) c)) ∧
  (∀ (s : State) (k tag : Nat), ((s.link k).np.find? (fun e => e.tag = tag) = none → exec (.nonpostedTimeout k tag) s = .next s) ∧
    ∀ e, (s.link k).np.find? (fun e => e.tag = tag) = some e → exec (.nonpostedTimeout k tag) s =
      .next (((s.updLink k fun l => { l with np := l.np.filter fun e => e.tag ≠ tag }).logError 0 0x09 0xFF 0xFF 0 e.addr).failRequest e)) ∧
  (∀ (s : State) (k : Nat), k < 5 →
    ((s.link k).state = 3 → ∃ t, exec (.lnkstRetrain k) s = .next t ∧ (t.link k).state = 1 ∧ (t.link k).txSeq = 0 ∧ (t.link k).rxSeq = 0 ∧
      (t.link k).replays = (s.link k).replays ∧ (t.link k).buf = [] ∧ (∀ c < 3, tget (t.link k).rx c [] = []) ∧ t.mem = s.mem) ∧
    ((s.link k).state ≠ 3 → exec (.lnkstRetrain k) s = .next s) ∧
    (∀ c p, (s.link k).state = 1 → (s.link k).held = [(c, p)] → tget (s.link k).txPaused c false = false → ∃ t, exec (.linkTrainingComplete k) s = .next t ∧
      (t.link k).state = 2 ∧ (t.link k).held = [] ∧ (t.link k).out = (s.link k).out ++ [p] ∧ t.mem = s.mem) ∧
    ((s.link k).state ≠ 1 → exec (.linkTrainingComplete k) s = .next s))

/-- R318, R335, R430 to R434: what arrives over a link, once its bytes stand first in the channel's receive buffer. A completion gives its lane the data; a write, a
read and an atomic through a window are performed under the function's translation; a register access reaches its register; anything else is Unsupported Request.
The layout of the configuration space (its capabilities, Initiate Function Level Reset as bit 15 of a capability's third double word) is the model's (log entry
33), and so are the sizes that a register access may have (log entry 36). -/
def Obligations.IncomingTransactions : Prop :=
  (∀ (s : State) (e : NpReq) (g : Group) (o : Op) (accs : List LaneAcc) (n cnt : Nat) (sgn l2 : Bool), s.arrived .completion 2 = true →
    (s.link s.port.link).np.find? (fun e => e.tag = s.port.tag) = some e → s.port.status = 0 → OpenOp s e.gid e.op g o → o.kind = .load accs n cnt sgn l2 none →
    (let rest := accs.filter fun a => a.lane ≠ e.lane
     let h := g.fillPend e.op (laneBit e.lane) rest.isEmpty fun k l => loadedValue [(e.lane, s.port.data)] n sgn k l
     ∃ t, exec .incomingCompletion s = .next t ∧ t.mem = s.mem ∧ (∀ x ∈ (t.link s.port.link).np, x.tag ≠ s.port.tag) ∧
       t.group? e.gid = some (if rest = [] then h.finishOp e.op else h.updOp e.op fun o => { o with kind := .load rest n cnt sgn l2 none }))) ∧
  (∀ s : State,
    (s.arrived .completion 2 = true → (s.link s.port.link).np.find? (fun e => e.tag = s.port.tag) = none →
      exec .incomingCompletion s = .next (s.takeTlp .completion 2)) ∧
    (s.arrived .reply 2 = true → s.port.link ≠ 0 → (s.link s.port.link).np.find? (fun e => e.tag = s.port.tag) = none →
      exec .atomicReplyMessage s = .next (s.takeTlp .reply 2)) ∧
    (∀ e, s.arrived .reply 2 = true → (s.link s.port.link).np.find? (fun e => e.tag = s.port.tag) = some e → s.repliesPaused e.gid e.op = true →
      exec .atomicReplyMessage s = .next s) ∧
    (s.arrived .completion 2 = false → exec .incomingCompletion s = .next s) ∧ (s.arrived .reply 2 = false → exec .atomicReplyMessage s = .next s)) ∧
  (∀ (s : State) (e : NpReq) (g : Group) (o : Op) (a : AtomLane) (aop : AtomOp) (ty : Ty), s.arrived .reply 2 = true → s.port.link ≠ 0 →
    (s.link s.port.link).np.find? (fun e => e.tag = s.port.tag) = some e → s.port.status = 0 → OpenOp s e.gid e.op g o → o.kind = .atomic [a] aop ty true none none →
    a.lane = e.lane →
    ∃ t, exec .atomicReplyMessage s = .next t ∧ t.mem = s.mem ∧
      t.group? e.gid = some ((g.fillPend e.op (laneBit e.lane) true fun _ _ => oldValue ty (natLE ((bytesLE 8 s.port.value.toNat).take (tyBytes ty)))).finishOp e.op)) ∧
  (∀ (s s2 : State) (pages : List PageMap),
    (let p := s.port
     let u := s.takeTlp .write 0
     let va := (u.vf p.vf).winva.toNat + p.addr
     s.arrived .write 0 = true → p.inWindow p.data.length = true → 0 < p.data.length → va % 64 + p.data.length ≤ 64 → u.waiters = [] →
     ({ u with nextKey := u.nextKey + 1 } : State).engineMap p.vf (.incoming u.nextKey) .write [(va, p.data.length)] = .ok s2 pages →
     exec .incomingWrite s = .next ((s2.write p.vf va (pageLoc pages va) p.data).watch p.vf va (pageLoc pages va) p.data.length 5 {}))) ∧
  (∀ (s : State) (off : Nat), s.arrived .write 0 = true → s.port.inWindow s.port.data.length = false → s.port.register? = some off → s.waiters = [] →
    (let u := s.takeTlp .write 0
     (s.port.data.length = 8 → exec .incomingWrite s = exec (.registerWrite s.port.fn off (BitVec.ofNat 64 (natLE s.port.data))) u) ∧
     (s.port.data.length ≠ 8 → off < 2 ^ 20 →
       exec .incomingWrite s = .next (if s.port.fn = 0 then { u with pfRws := true } else u.updVf (s.port.fn - 1) fun v => { v with rws := true })))) ∧
  (∀ (s s2 : State) (pages : List PageMap),
    (let p := s.port
     let u := s.takeTlp .read 1
     let va := (u.vf p.vf).winva.toNat + p.addr
     s.arrived .read 1 = true → p.inWindow p.len = true → 0 < p.len → va % 64 + p.len ≤ 64 → u.waiters = [] →
     ({ u with nextKey := u.nextKey + 1 } : State).engineMap p.vf (.incoming u.nextKey) .read [(va, p.len)] = .ok s2 pages →
     s2.poisonIn pages [(va, p.len)] = none →
     exec .incomingRead s =
       .next ((s2.noteRead p.vf 0 {} va (pageLoc pages va) p.len).sendReply p.link p.tag 0 (s2.homeRead (pageLoc pages va) p.len)))) ∧
  (∀ (s : State) (off : Nat), s.arrived .read 1 = true → s.port.inWindow s.port.len = false → s.port.register? = some off → s.port.len = 8 → s.waiters = [] →
    exec .incomingRead s = .next ((s.takeTlp .read 1).sendReply s.port.link s.port.tag 0 (bytesLE 8 ((s.takeTlp .read 1).registerRead s.port.fn off)))) ∧
  (∀ s : State,
    (s.arrived .read 1 = true → s.port.inWindow s.port.len = false → s.port.register? = none → s.waiters = [] →
      exec .incomingRead s = .next ((s.takeTlp .read 1).sendReply s.port.link s.port.tag 1 [])) ∧
    (∀ kind, kind = (match s.port.op with | .xchg => .swap | .cas => .cas | _ => .fetchAdd) → s.arrived kind 1 = true → s.port.atomicOk = false →
      exec .incomingAtomicop s = .next ((s.takeTlp kind 1).sendReply s.port.link s.port.tag 1 [])) ∧
    (s.arrived .other 0 = true → s.port.posted = true → exec .unsupportedTlp s = .next (s.takeTlp .other 0)) ∧
    (s.arrived .other 1 = true → s.port.posted = false →
      exec .unsupportedTlp s = .next ((s.takeTlp .other 1).sendReply s.port.link s.port.tag 1 []))) ∧
  (∀ (s s2 : State) (kind : TlpKind) (pages : List PageMap),
    (let p := s.port
     let n := tyBytes p.ty
     let u := s.takeTlp kind 1
     let va := (u.vf p.vf).winva.toNat + p.addr
     let loc := pageLoc pages va
     s.arrived kind 1 = true → p.inWindow n = true → va % n = 0 → u.waiters = [] → s2.poisonIn pages [(va, n)] = none →
     ({ u with nextKey := u.nextKey + 1 } : State).engineMap p.vf (.incoming u.nextKey) .atomic [(va, n)] = .ok s2 pages →
     (let r := s2.serveRead p.vf va loc
      let v := natLE (r.homeRead loc n)
      let w := (r.write p.vf va loc (bytesLE n (atomNew p.op p.ty v p.opB.toNat p.opC.toNat))).watch p.vf va loc n 2 {}
      (kind = (match p.op with | .xchg => .swap | .cas => .cas | _ => .fetchAdd) → p.atomicOk = true →
        exec .incomingAtomicop s = .next (w.sendReply p.link p.tag 0 (bytesLE n v))) ∧
      (kind = .request → p.link ≠ 0 → s.queued p.link < 1024 → exec .atomicRequestMessage s =
        .next ((w.sendReply p.link p.tag 0 (bytesLE n v) .reply).updLink p.link (·.flow 1)))))) ∧
  (∀ s : State, 1024 ≤ s.queued s.port.link → exec .atomicRequestMessage s = .next s) ∧
  (∀ s : State, s.arrived .config 1 = true → s.waiters = [] →
    (let p := s.port
     let off := 4 * (p.addr % 4096 / 4)
     let u := s.takeTlp .config 1
     (p.link ≠ 0 → exec .configurationRequest s = .next (u.sendReply p.link p.tag 1 [])) ∧
     (p.link = 0 → p.fn ≤ 64 → s.bootDone = false → exec .configurationRequest s = .next (u.sendReply 0 p.tag 2 [])) ∧
     (p.link = 0 → p.fn ≤ 64 → s.bootDone = true → p.write = none → exec .configurationRequest s =
       .next (u.sendReply 0 p.tag 0 ((List.range 4).map fun i => configGet (s.configOf p.fn) p.fn (off + i)))) ∧
     (∀ v : Word32, p.link = 0 → p.fn ≤ 64 → s.bootDone = true → Sparse.wf 0 (s.configOf p.fn) = true → p.write = some v →
       (off ≠ Config.capBase 3 + 8 ∨ v.getLsbD 15 = false) → ∃ t, exec .configurationRequest s = .next t ∧ t.mem = s.mem ∧
       (∀ i < 4, (∀ f ∈ configFields p.fn, ¬(f.1 ≤ off + i ∧ off + i < f.1 + f.2.1)) → configGet (t.configOf p.fn) p.fn (off + i) = v.extractLsb' (8 * i) 8) ∧
       ∀ x, ¬(off ≤ x ∧ x < off + 4) → configGet (t.configOf p.fn) p.fn x = configGet (s.configOf p.fn) p.fn x))) ∧
  (∀ (s : State) (vf tag : Nat) (a : Incoming), s.incoming = [a] → s.waiters = [a] → a.tag = tag → a.vf = vf → a.asked = true → a.kind = 1 →
    (let u : State := { s with prq := s.prq.map (fun r => { r with who := r.who.filter (· ≠ .incoming tag) }),
                               prqWait := s.prqWait.filter (fun w => w.2.2.2.2 ≠ .incoming tag), incoming := [] }
     exec (.incomingAccessTimeout vf tag) s = .next ((u.logError 0 0x09 0xFF vf 0 0).sendReply a.port.link a.port.tag 4 []))) ∧
  (∀ (s : State) (vf tag : Nat), s.incoming = [] → exec (.incomingAccessTimeout vf tag) s = .next s) ∧
  (∀ (s : State) (k tag st : Nat) (d : List Byte), k < 5 → ((s.sendReply k tag st d).link k).replies = (s.link k).replies ++ [(tag, st, d)] ∧
    (s.sendReply k tag st d).mem = s.mem ∧ (s.sendReply k tag st d).cur = s.cur)

/-- R435 to R440: each step of the boot is journalled as it begins and as it ends; a step that fails, or that a reset finds begun, takes its alternate path at the
next start, or stops the boot; the mailbox's commands and their results; package reset. What the measurements take of an image, of the journal and of training, and
where an image's header holds its key, its version and the rest, are the model's (log entries 34 and 9), and so are the order of an LPDDR-6 check and what a link
does meanwhile (log entries 12 and 35). -/
def Obligations.BootAndMailbox : Prop :=
  (∀ (s : State) (n : Nat) (ok : Bool), s.bootStep = n → n < 9 → s.bootDone = false → s.bootStopped = none → s.bootRuns = false →
    ∃ t, exec (.bootStep ok) s = .next t ∧ t.bootRuns = true ∧ t.bootStep = n ∧ t.mem = s.mem ∧ tget t.journal n .none = .started ∧
      (∀ k < 9, k ≠ n → tget t.journal k .none = tget s.journal k .none ∧ tget t.alt k false = tget s.alt k false) ∧
      (tget t.alt n false = true ↔ n ≠ 0 ∧ n ≠ 7 ∧ n ≠ 8 ∧
        (tget s.alt n false = true ∨ tget s.journal n .none = .failed ∨ tget s.journal n .none = .started)) ∧
      t.bootCount = (if n = 0 then s.bootCount + 1 else s.bootCount) ∧
      tget t.meas 2 0 = (if n = 0 then sha256 (bytesBE 32 (tget s.meas 2 0).toNat ++ s.journalBytes) else tget s.meas 2 0)) ∧
  (∀ (s : State) (n : Nat), s.bootStep = n → n < 9 → s.bootDone = false → s.bootStopped = none → s.bootRuns = true → tget s.alt n false = false →
    (let goesOn (t : State) : Prop := t.bootStep = n + 1 ∧ tget t.journal n .none = .done ∧ t.bootRuns = false ∧ t.bootDone = false ∧ t.bootStopped = none ∧
       t.alt = s.alt ∧ (n ≠ 5 → t.mem = s.mem)
     let fails (t : State) : Prop := tget t.journal n .none = .failed ∧ t.bootStep = 0 ∧ t.bootRuns = false ∧ t.mem = [] ∧ t.bootCount = s.bootCount ∧
       t.svcount = s.svcount ∧ t.alt = s.alt
     let image := s.flashImage
     (n ≠ 1 → n ≠ 4 → n ≠ 8 → ∃ t, exec (.bootStep true) s = .next t ∧ goesOn t ∧
       (n = 0 → t.identity = slhKeys (bytesBE 48 Config.identitySeed.toNat) ∧ tget t.meas 1 0 = sha256 (bytesBE 32 (tget s.meas 1 0).toNat ++ Config.fuseBytes)) ∧
       (n = 6 → ∀ k < 5, (t.link k).state = 2) ∧
       (n = 2 ∨ n = 3 ∨ n = 6 → tget t.meas 3 0 = sha256 (bytesBE 32 (tget s.meas 3 0).toNat ++ Config.trainingOutcome s.bootCount.toNat n))) ∧
     (n = 1 → ∃ t, exec (.bootStep true) s = .next t ∧
       (if s.checkImage image = 1 then goesOn t ∧ t.runningSvn = Config.imageSvn (image.take 256) ∧
          tget t.meas 0 0 = sha256 (bytesBE 32 (tget s.meas 0 0).toNat ++ bytesBE 32 (sha256 image).toNat)
        else fails t)) ∧
     (n = 4 → ∃ t, exec (.bootStep true) s = .next t ∧ (if Config.lpddrMixed = true then fails t else goesOn t ∧ t.lpddr = some Config.lpddrBytes)) ∧
     (n = 8 → ∃ t, exec (.bootStep true) s = .next t ∧ t.bootDone = true ∧ tget t.journal 8 .none = .done ∧ t.mem = s.mem) ∧
     (n ≠ 0 → n ≠ 7 → n ≠ 8 → ∃ t, exec (.bootStep false) s = .next t ∧ fails t) ∧
     (n = 0 ∨ n = 7 ∨ n = 8 → ∃ t, exec (.bootStep false) s = .next t ∧ t.bootStopped = some n ∧ (t.link 0).state = 0 ∧ tget t.journal n .none = .failed))) ∧
  (∀ (s : State) (n : Nat), s.bootStep = n → 1 ≤ n → n ≤ 6 → s.bootDone = false → s.bootStopped = none → s.bootRuns = true → tget s.alt n false = true →
    (∃ t, exec (.bootStep false) s = .next t ∧ t.bootStopped = some n ∧ tget t.alt n false = true ∧ tget t.journal n .none = .failed ∧ (t.link 0).state = 0) ∧
    (n = 2 ∨ n = 3 ∨ n = 5 ∨ n = 6 ∨ (n = 1 ∧ s.checkImage s.port.data = 1) → ∃ t, exec (.bootStep true) s = .next t ∧ t.bootStep = n + 1 ∧
      tget t.journal n .none = .done ∧ tget t.alt n false = true ∧ t.mem = s.mem)) ∧
  (∀ (s : State) (b : Bool), s.bootDone = true ∨ s.bootStopped.isSome = true → exec (.bootStep b) s = .next s) ∧
  (∀ s : State, ∃ t, exec .packageReset s = .next t ∧ t.mem = [] ∧ t.groups = [] ∧ t.launches = [] ∧ t.journal = s.journal ∧ t.alt = s.alt ∧ t.svcount = s.svcount ∧
    t.bootCount = s.bootCount ∧ t.flash = s.flash ∧ t.vfs = State.reset.vfs ∧ t.grans = State.reset.grans ∧ t.bootStep = 0 ∧ t.bootRuns = false ∧
    ∀ c < 256, (t.coreAt c).clkBase = Config.coreClock c s.steps ∧ (t.coreAt c).l1 = []) ∧
  (∀ s : State, s.mbBusy = true →
    (let ignored (cmd : BitVec 8) : Host.Outcome State Fault Refusal := .next { s with mbCmd := cmd, pfRws := true }
     exec .mbAttest s = ignored 1 ∧ exec .mbCertificateChain s = ignored 2 ∧ exec .mbUpdate s = ignored 3 ∧ exec .mbRaiseCounter s = ignored 4 ∧
     exec .mbClearMarks s = ignored 5 ∧ exec .mbBadCommand s = ignored (s.port.value.setWidth 8) ∧
     exec .mailboxCommandDone s = .next (({ s with mbBusy := false, mbResult := s.mbPending } : State).raisePf 1))) ∧
  (∀ s : State, s.mbBusy = false →
    (s.mbAddr.toNat % 64 ≠ 0 → exec .mbAttest s = .next { s with mbCmd := 1, mbBusy := true, mbPending := 2 } ∧
      exec .mbCertificateChain s = .next { s with mbCmd := 2, mbBusy := true, mbPending := 2 } ∧ exec .mbUpdate s = .next { s with mbCmd := 3, mbBusy := true, mbPending := 2 }) ∧
    (s.mbAddr.toNat % 64 = 0 →
      (let u : State := { s with mbCmd := 1 }
       exec .mbAttest s = .next { u.hostWrite s.mbAddr.toNat u.report with mbBusy := true, mbPending := 1 }) ∧
      exec .mbCertificateChain s = .next { ({ s with mbCmd := 2 } : State).hostWrite s.mbAddr.toNat (Config.certChain.take s.mbLen.toNat) with mbBusy := true, mbPending := 1 } ∧
      (let b := s.hostBytes s.mbAddr.toNat s.mbLen.toNat
       exec .mbUpdate s = .next { s with mbCmd := 3, mbBusy := true, mbPending := s.checkImage b, flash := if s.checkImage b = 1 then some b else s.flash })) ∧
    exec .mbRaiseCounter s = .next { s with mbCmd := 4, mbBusy := true, mbPending := 1, svcount := max s.svcount (min 64 s.runningSvn) } ∧
    exec .mbClearMarks s = .next { s with mbCmd := 5, mbBusy := true, mbPending := if s.bootDone then 1 else 2, alt := if s.bootDone then tableOf 9 false else s.alt } ∧
    exec .mbBadCommand s = .next { s with mbCmd := s.port.value.setWidth 8, mbResult := 2 } ∧ exec .mailboxCommandDone s = .next s) ∧
  (∀ (s : State) (b : List Byte),
    (let key := (Config.imageKey (b.take 256) ++ List.replicate 32 0).take 32
     s.checkImage b =
       (if 256 + 7856 ≤ b.length ∧ Config.imageFormed (b.take 256) b.length = true ∧ sha256 key = Config.fuseDigest ∧
          slhVerify key (b.take (b.length - 7856)) (b.drop (b.length - 7856)) = true
        then (if max (min 64 Config.fuseCounter) s.svcount ≤ Config.imageSvn (b.take 256) then 1 else 4) else 3)))

/-- R9, R10, R377, R382, R384, R388, R389, R403, R414, R438: a write reaches the register at its offset and is read back; a write of 1 clears a W1C field; an
offset that names no register sets the reserved-write bit. Bases that are not aligned are ignored and noted as the model chooses (log entry 36). -/
def Obligations.RegistersOfTheHost : Prop :=
  (∀ (s : State) (n : Nat) (v : Word64), n < 64 →
    (v.toNat % 8192 = 0 → ∃ t, exec (.registerWrite (n + 1) 0x1010 v) s = .next t ∧ t.registerRead (n + 1) 0x1010 = v.toNat ∧ t.vf n = { s.vf n with wtbase := v } ∧ t.mem = s.mem) ∧
    (v.toNat % 65536 = 0 → ∃ t, exec (.registerWrite (n + 1) 0x1200 v) s = .next t ∧ t.registerRead (n + 1) 0x1200 = v.toNat ∧ t.vf n = { s.vf n with winva := v } ∧ t.mem = s.mem) ∧
    (v.toNat < 8 → ∃ t, exec (.registerWrite (n + 1) 0x1040 v) s = .next t ∧ t.mem = s.mem ∧
      t.vf n = { s.vf n with rws := (s.vf n).rws && !v.getLsbD 0, lflt := (s.vf n).lflt && !v.getLsbD 1, srst := (s.vf n).srst && !v.getLsbD 2 }) ∧
    (∀ off, off % 8 = 0 → 0x1208 ≤ off → off < 65536 → ∃ t, exec (.registerWrite (n + 1) off v) s = .next t ∧ t.vf n = { s.vf n with rws := true } ∧
      t.registerRead (n + 1) off = 0) ∧
    (∀ q, q < 16 → v.toNat % 128 = 0 → ∃ t, exec (.registerWrite (n + 1) (32 * q) v) s = .next t ∧ (t.queue n q).base = v ∧ t.registerRead (n + 1) (32 * q) = v.toNat)) ∧
  (∀ (s : State) (v : Word64),
    (∃ t, exec (.registerWrite 0 0x808 v) s = .next t ∧ t.mbAddr = v ∧ t.registerRead 0 0x808 = v.toNat ∧ t.mem = s.mem) ∧
    (∃ t, exec (.registerWrite 0 0x810 v) s = .next t ∧ t.mbLen = v ∧ t.registerRead 0 0x810 = v.toNat ∧ t.mem = s.mem) ∧
    (v.toNat < 2 ^ 32 → ∃ t, exec (.registerWrite 0 0x10 v) s = .next t ∧ t.sewin = v.setWidth 32 ∧ t.registerRead 0 0x10 = v.toNat ∧ t.pfRws = s.pfRws) ∧
    (2 ^ 32 ≤ v.toNat → ∃ t, exec (.registerWrite 0 0x10 v) s = .next t ∧ t.sewin = v.setWidth 32 ∧ t.pfRws = true)) ∧
  (∀ (s : State) (gr : Nat) (v : Word64), s.isSlice gr = true →
    (∃ t, exec (.registerWrite 0 (0x10000 + 0x1000 * gr + 0x20) v) s = .next t ∧ t.gran gr = { s.gran gr with rotq := v } ∧ t.mem = s.mem ∧
      t.registerRead 0 (0x10000 + 0x1000 * gr + 0x20) = v.toNat) ∧
    (v.toNat < 65536 → ∃ t, exec (.registerWrite 0 (0x10000 + 0x1000 * gr + 0x10) v) s = .next t ∧ t.gran gr = { s.gran gr with pwait := v.toNat } ∧
      t.registerRead 0 (0x10000 + 0x1000 * gr + 0x10) = v.toNat)) ∧
  (∀ (s : State) (gr off : Nat) (v : Word64), gr < 16 → s.isSlice gr = false → off < 0x1000 → off % 8 = 0 →
    exec (.registerWrite 0 (0x10000 + 0x1000 * gr + off) v) s = .next { s with pfRws := true } ∧ s.registerRead 0 (0x10000 + 0x1000 * gr + off) = 0) ∧
  (∀ (s : State) (n : Nat) (v : Word64), n < 64 → v.toNat < 32 → ∃ t, exec (.registerWrite 0 (0x20000 + 0x1000 * n) v) s = .next t ∧
    t.vf n = { s.vf n with spol := v.setWidth 5 } ∧ t.mem = s.mem ∧ t.registerRead 0 (0x20000 + 0x1000 * n) = v.toNat)

/-! ## Numbers, encodings, steps and invariants -/

/-- R80, R81: an exact magnitude that a format holds is delivered as it is, without a flag; one between two neighbours as the one that the mode picks, with NX;
one that rounds beyond the largest finite value is an overflow, with OF and NX: an infinity or the largest finite value as the mode says, always the
latter in a format without infinities, and in the saturating form (R91).
R82, R83: an inexact result raises UF exactly where it is tiny: where, rounded without a lower limit of the exponent, it is below the smallest normal value; a
tiny result that is flushed is the zero of its sign, with UF and NX, and no other result is touched.
R77, R78: an encoding up to the largest finite one is read as its magnitude with its sign; the infinities and the canonical NaN are read as such. -/
def Obligations.RoundingAndOverflow : Prop :=
  ∀ (t : Ty) (m : Rounding) (neg : Bool), t ∈ ([.f64, .f32, .f16, .bf16, .e5m2, .e4m3, .e3m2, .e2m3, .e2m1, .e5m3n] : List Ty) →
    (let f := fmtOf t
     let up (b : Nat) (q : Rat) : Bool := takesUpper m neg (b % 2 = 1) (f.magOf b) (f.magOf (b + 1)) q
     let edge : Rat := f.minNormal / 2 ^ (f.mbits + 1)
     let tiny (q : Rat) : Prop := q < f.minNormal ∧ (q ≤ f.minNormal - edge ∨ takesUpper m neg true (f.minNormal - edge) f.minNormal q = false)
     (∀ b, 0 < b → b ≤ f.maxBits → roundVal t m false false neg (f.magOf b) = (f.signBits neg + b, 0)) ∧
     (∀ (b : Nat) (q : Rat), b < f.maxBits → f.magOf b < q → q < f.magOf (b + 1) →
       ∃ fl, roundVal t m false false neg q = (f.signBits neg + (if up b q then b + 1 else b), fl) ∧ fl &&& flNX = flNX ∧ fl &&& flOF = 0 ∧
         (fl &&& flUF = flUF ↔ tiny q)) ∧
     (∀ q : Rat, f.maxFin < q → (f.magOf (f.maxBits + 1) ≤ q ∨ up f.maxBits q = true) →
       roundVal t m false false neg q = (if f.inf && (match m with | .rne | .rna => true | .rz => false | .rdn => neg | .rup => !neg) then f.infBits neg
         else f.signBits neg + f.maxBits, flOF ||| flNX) ∧ roundVal t m false true neg q = (f.signBits neg + f.maxBits, flOF ||| flNX)) ∧
     (∀ q : Rat, f.maxFin < q → q < f.magOf (f.maxBits + 1) → up f.maxBits q = false →
       roundVal t m false false neg q = (f.signBits neg + f.maxBits, flNX)) ∧
     (∀ (q : Rat) (flush sat : Bool), 0 < q → (tiny q → roundVal t m true sat neg q = (f.signBits neg, flUF ||| flNX)) ∧
       (¬tiny q → roundVal t m flush sat neg q = roundVal t m false sat neg q) ∧ (q ≤ f.maxFin → roundVal t m flush sat neg q = roundVal t m flush false neg q)) ∧
     (∀ flush sat, roundVal t m flush sat neg 0 = (f.signBits neg, 0)) ∧
     (∀ b ≤ f.maxBits, f.decode (f.signBits neg + b) = .num (neg && f.signed) (f.magOf b)) ∧
     (f.inf = true → f.decode (f.infBits neg) = .inf neg) ∧ (f.nan = true → ∃ fr, f.decode f.qnan = .nan false true fr))

/-- R37, R377, R381, R382, R384, R388, R389, R401, R403, R428, R439: the machine right after package reset: no group, no launch, the boot at its first step, every
granule a slice of its own, and the registers at the values that their tables give. Memory that nothing has written reads as zero, which is the model's
choice (log entry 2). The reset state meets the invariants that other statements keep. -/
def Obligations.ResetState : Prop :=
  State.reset.groups = [] ∧ State.reset.savedGroups = [] ∧ State.reset.launches = [] ∧ State.reset.gangs = [] ∧ State.reset.l2 = [] ∧ State.reset.prq = [] ∧
  State.reset.bootStep = 0 ∧ State.reset.bootDone = false ∧ State.reset.cur.id = 0 ∧ (∀ k < 5, (State.reset.link k).state = 0) ∧
  (∀ g < 16, State.reset.isSlice g = true ∧ (State.reset.gran g).num = 1 ∧ (State.reset.gran g).tick = 0 ∧ (State.reset.gran g).rail = g / 4 ∧
    State.reset.registerRead 0 (0x10000 + 0x1000 * g) = 256 ∧ State.reset.registerRead 0 (0x10000 + 0x1000 * g + 0x10) = 100 ∧
    State.reset.registerRead 0 (0x10000 + 0x1000 * g + 0x18) = 0 ∧ State.reset.registerRead 0 (0x10000 + 0x1000 * g + 0x58) = 100000000 ∧
    State.reset.registerRead 0 (0x10000 + 0x1000 * g + 0x30) = 4 * g + 2 ^ 8 * (4 * g + 3)) ∧
  (∀ n < 64, (State.reset.vf n).bound = false ∧ (State.reset.vf n).busy = false ∧ State.reset.registerRead 0 (0x20000 + 0x1000 * n + 0x58) = 2 ∧
    State.reset.registerRead (n + 1) 0x1008 = 4 ∧ State.reset.registerRead (n + 1) 0x1040 = 0 ∧ ∀ q < 16, (State.reset.queue n q).enabled = false) ∧
  State.reset.registerRead 0 0x20 = 1500 ∧ Memory.wf State.reset.mem ∧ (∀ a, Memory.read State.reset.mem a = 0) ∧ State.reset.cur.Sound

/-- R47, R54 to R63: words written out from the encodings of the spec decode to the instructions that they stand for; a header or an unlisted field does
not. -/
def Obligations.WordsDecode : Prop :=
  decodeTableWord 64 0x00000000000027F0 = some (.nop { guard := 63 }) ∧
  decodeTableWord 64 0x40004060201303F0 = some (.iadd { guard := 63 } { d := 1, a := { reg := 2 }, b := { reg := 3 }, uni := false, sat := true, ty := .i8 }) ∧
  decodeTableWord 64 0x87F91F00203103F0 = some (.sadd { guard := 63 } { d := 3, a := { reg := 2 }, b := .imm 0xFFF8, sat := false, ty := .i64 }) ∧
  decodeTableWord 64 0x4082C040405703F0 =
    some (.ld { guard := 63 } { d := 5, a := { reg := 4 }, b := some { reg := 2 }, off := 64, cp := .dflt, cnt := .x1, ty := .b32 }) ∧
  decodeTableWord 96 0x0003C0D02044003C00000401 =
    some (.fadd { guard := 3, gneg := true, mark := true, pre := some { rmode := some .rz } }
      { d := 4, a := { reg := 2, kill := true }, b := { reg := 6 }, uni := false, na := false, nb := false, ty := .f32 }) ∧
  decodeTableWord 64 0x0071800_1F0660820 = some (.red { guard := 2 } { op := .minidx, sdst := true, d := 6, a := { reg := 31 }, ty := .n16 }) ∧
  decodeTableWord 64 0x000000000000000E = none ∧ decodeTableWord 64 0x00008000000027F0 = none

/-- R47, R54, R55, R60, R73: decoding the units that encode a well-formed instruction gives it back, with every operand at every value that its encoding
admits. -/
def Obligations.DecodeOfEncode : Prop :=
  ∀ (i : Instr) (us : List Word32), i.wf = true → encode i = some us → decodeList us = .ok (i, us.length) ∧ (us.length = 2 ∨ us.length = 3)

/-- R47, R72: a step of a slot that may issue runs the instruction that its bytes decode to, the first of its block where it stands at the header: the next state
is that of `exec` with what follows from a turn: a slot whose item has not issued stands where it stood; what waited for the turn at the watch records and the links goes
on; groups that are over go; and progress is noted, and in replay mode what retires (R396, R423). A step that takes an event runs that event. -/
def Obligations.StepRunsTheDecoded : Prop :=
  (∀ (s t u v w : State) (gid : Nat) (b : Bool) (r : List Turn) (i : Instr), s.tape = .issue gid b :: r →
    (let s0 : State := { s with tape := r, steps := s.steps + 1 }
     let turn : Turn := .issue gid b
     let s1 := match s0.turnSlice turn with | some gr => s0.logTurn gr turn | none => s0
     s1.mayIssue gid b false = true → (s1.tryStop gid).select gid b = some t → t.mayGo = true → t.cur.me.blk.entry = .none → t.atItem.cur.me.skip = false →
     t.cur.watchHit = false → t.fetchItem = .ok (u, i) → exec i u = .next v → (v.unstarted t.cur b).settleTurn = .next w →
     (let n := (w.noteTurn s0 turn).note (v.unstarted t.cur b) s0
      step s = .next (match s0.turnSlice turn with | some gr => n.noteRetired (v.unstarted t.cur b) s0 gr | none => n)))) ∧
  (∀ s : State,
    (s.cur.atHeader s.cur.sel1 = true → s.atItem = s.setCur (s.cur.setMe { s.cur.me with pc := s.cur.me.pc + 2 })) ∧
    (s.cur.atHeader s.cur.sel1 = false → s.atItem = s)) ∧
  (∀ (s s1 s2 : State) (u0 u1 : Word32) (i : Instr) (n : Nat),
    (let at_ := s.atItem.cur.me.pc.toNat
     let left := (s.atItem.cur.me.blk.bend - s.atItem.cur.me.pc).toNat
     2 ≤ left → s.atItem.fetchUnit at_ = .ok (s1, u0) → unitKind u0 = 0 → s1.fetchUnit (at_ + 1) = .ok (s2, u1) → decodeUnits left u0 u1 0 = .ok (i, n) →
     s.fetchItem = .ok (s2, i))) ∧
  (∀ (s s1 s2 s3 : State) (u0 u1 u2 : Word32) (i : Instr) (n : Nat),
    (let at_ := s.atItem.cur.me.pc.toNat
     let left := (s.atItem.cur.me.blk.bend - s.atItem.cur.me.pc).toNat
     3 ≤ left → s.atItem.fetchUnit at_ = .ok (s1, u0) → unitKind u0 = 1 → s1.fetchUnit (at_ + 1) = .ok (s2, u1) → unitKind u1 = 0 →
     s2.fetchUnit (at_ + 2) = .ok (s3, u2) → decodeUnits left u0 u1 u2 = .ok (i, n) → s.fetchItem = .ok (s3, i))) ∧
  (∀ (s v w : State) (i : Instr) (p : Port) (r : List Turn), s.tape = .event i p :: r → i.opcode = none → i.arrives = false →
    (let s0 : State := { s with tape := r, steps := s.steps + 1 }
     let turn : Turn := .event i p
     let s1 := match s0.turnSlice turn with | some gr => s0.logTurn gr turn | none => s0
     exec i { s1 with port := p } = .next v → v.settleTurn = .next w →
     (let n := (w.noteTurn s0 turn).note v s0
      step s = .next (match s0.turnSlice turn with | some gr => n.noteRetired v s0 gr | none => n)))) ∧
  (∀ s : State, (∀ g ∈ s.allGroups, g.recs = []) → s.incoming = [] → (∀ l ∈ s.links.toList, ∀ c < 3, tget l.tx c [] = []) → s.settleTurn = .next s.reap)

/-- R48, R52: at the last item of its block an instruction whose results are registers alone has the effect that it has inside one, and a load or store of global
memory whose accesses are accepted is posted as it is inside one; its slot then makes the entry of the block that follows, at a padding unit or by falling
through. -/
def Obligations.EndOfBlock : Prop :=
  (∀ (i : Instr) (c : Ctl) (s s1 t w : State) (e : Word32), RegisterForm i c →
    Clear i c c.mark s s1 → s1.cur.me.pc + BitVec.ofNat 32 c.units = s1.cur.me.blk.bend → e ≠ s1.cur.me.blk.bend →
    exec i (s.setCur (s.cur.setMe { s.cur.me with blk := { s.cur.me.blk with bend := e } })) = .next t →
    (t.setCur (t.cur.setMe { t.cur.me with blk := { s.cur.me.blk with entry := if t.cur.me.pc.toNat % 2 = 1 then .pad else .fall } })).makeEntry s.cur.sel1 = .next w →
    w.mirrorStop s.cur = none → exec i s = .next (w.mirror s.cur)) ∧
  (∀ (i : Instr) (c : Ctl) (s s1 u : State), MemoryIssue i c s1 u → s1.pathFree (memoryPath i) = .ok () →
    Clear i c c.mark s s1 → s1.cur.me.pc + BitVec.ofNat 32 c.units = s1.cur.me.blk.bend →
    ∃ t, After i c s1.cur.x u t noDest ∧ ∀ w,
      (t.setCur (t.cur.setMe { t.cur.me with blk := { s.cur.me.blk with entry := if t.cur.me.pc.toNat % 2 = 1 then .pad else .fall } })).makeEntry s.cur.sel1 = .next w →
      w.mirrorStop s.cur = none → exec i s = .next (w.mirror s.cur))

/-- R25, R67: what holds of every group from its start on is kept by the instructions whose results are registers alone, by loads and stores of global memory, by
commit parks and by traps: windows hold at most eight instructions, all older than the next to issue, and the declared counts stand. -/
def Obligations.GroupsStaySound : Prop :=
  (∀ (i : Instr) (c : Ctl) (s s1 t : State), RegisterForm i c → Ready i c s s1 → exec i s = .next t → t.cur.Sound) ∧
  (∀ (i : Instr) (c : Ctl) (s s1 t u : State), MemoryIssue i c s1 u → s1.pathFree (memoryPath i) = .ok () → Ready i c s s1 → exec i s = .next t → t.cur.Sound) ∧
  (∀ (s s1 : State) (park : Bool), s.cur.Sound → s.takePark park = some s1 → s1.cur.Sound) ∧
  (∀ (s t : State) (gid : Nat), (∀ g ∈ s.cur :: s.groups, g.Sound) → exec (.commitPark gid) s = .next t → ∀ g ∈ t.cur :: t.groups, g.Sound) ∧
  (∀ (s : State) (cause : Cause) (addr : Nat), s.cur.Sound → (s.traps cause addr).cur.Sound)

/-- R323, R325: memory keeps its canonical form through every write to a line at its home, through error-log records, and through the events that write it for
groups (stores, appends, atomics, copies, arrivals, gradient adds), for migration, for the host and peers, for the mailbox, for errors and for package reset; a write is
read back, and leaves every other byte. So do the contents of tiles, through the events that write them. -/
def Obligations.MemoryKeepsItsForm : Prop :=
  (∀ (m : List Host.Cell) (a b : Nat) (x : Byte), Memory.wf m → Memory.wf (Memory.write m a x) ∧ Memory.read (Memory.write m a x) a = x ∧
    (b ≠ a → Memory.read (Memory.write m a x) b = Memory.read m b)) ∧
  (∀ m n : List Host.Cell, Memory.wf m → Memory.wf n → (∀ a, Memory.read m a = Memory.read n a) → m = n) ∧
  (∀ (s : State) (loc : Nat) (d : List Byte), Memory.wf s.mem → Memory.wf (s.homeWrite loc d).mem) ∧
  (∀ (s : State) (vf va loc : Nat) (d : List Byte) (w : State.Writer), Memory.wf s.mem → Memory.wf (s.write vf va loc d w).mem) ∧
  (∀ (s t : State) (i : Instr) (gid op l d : Nat) (b : Bool), Memory.wf s.mem →
    i ∈ ([.storePerformed gid op, .loadComplete gid op b, .atomicPerform gid op l, .ratomReply gid op l b, .copyByteCount gid op l, .arrivalPerformed gid op,
      .slotAdd gid op l, .migrationComplete d, .incomingWrite, .incomingRead, .incomingAtomicop, .atomicRequestMessage, .mbAttest, .mbCertificateChain, .mbUpdate,
      .mbRaiseCounter, .mbClearMarks, .mbBadCommand, .mailboxCommandDone, .uncorrectableError l d, .watchdogHang d, .sliceTick d, .packageReset] : List Instr) →
    exec i s = .next t → Memory.wf t.mem) ∧
  (∀ (s t : State) (i : Instr) (gid op l : Nat) (b : Bool), s.TilesWf →
    i ∈ ([.storePerformed gid op, .loadComplete gid op b, .copyByteCount gid op l, .tallocComplete gid op, .tileRelease gid op] : List Instr) →
    exec i s = .next t → t.TilesWf)
end

