-- ==== Sys2Proof/Laws/Encoding.lean ====
section
/-!
SUPPORT. The encoder and the decoder agree on every field: one lemma for each enumeration's codes and one for each operand shape, in the order of
`Decode.lean`. The lemmas on bits of a concatenation come first.
-/
set_option Elab.async false
namespace Sys2Proof
set_option linter.unusedSimpArgs false
set_option linter.unnecessarySeqFocus false
set_option linter.unreachableTactic false
set_option linter.unusedTactic false

/-! ### Bits of a concatenation whose width is a numeral -/

theorem extract_low {v w start len : Nat} {x : BitVec v} {y : BitVec w} (h : start + len ≤ w) :
    @BitVec.extractLsb' (no_index (v + w)) start len (@HAppend.hAppend (BitVec v) (BitVec w) (no_index (BitVec (v + w))) _ x y) =
      y.extractLsb' start len :=
  BitVec.extractLsb'_append_eq_of_add_le h

theorem extract_high {v w start len : Nat} {x : BitVec v} {y : BitVec w} (h : w ≤ start) :
    @BitVec.extractLsb' (no_index (v + w)) start len (@HAppend.hAppend (BitVec v) (BitVec w) (no_index (BitVec (v + w))) _ x y) =
      x.extractLsb' (start - w) len :=
  BitVec.extractLsb'_append_eq_of_le h

theorem bit_low {v w i : Nat} {x : BitVec v} {y : BitVec w} (h : i < w) :
    @BitVec.getLsbD (no_index (v + w)) (@HAppend.hAppend (BitVec v) (BitVec w) (no_index (BitVec (v + w))) _ x y) i = y.getLsbD i := by
  rw [BitVec.getLsbD_append, if_pos h]

theorem bit_high {v w i : Nat} {x : BitVec v} {y : BitVec w} (h : w ≤ i) :
    @BitVec.getLsbD (no_index (v + w)) (@HAppend.hAppend (BitVec v) (BitVec w) (no_index (BitVec (v + w))) _ x y) i = x.getLsbD (i - w) := by
  rw [BitVec.getLsbD_append, if_neg (by omega)]

theorem bit_self (b : Bool) : (bit b).getLsbD 0 = b := by cases b <;> rfl
theorem extract_bit (b : Bool) : (bit b).extractLsb' 0 1 = bit b := BitVec.extractLsb'_eq_self
theorem extract_self {w : Nat} {x : BitVec w} : x.extractLsb' 0 w = x := BitVec.extractLsb'_eq_self

/-- IMMH and the B field together are the 16-bit immediate (R120). -/
theorem imm16_eq (n : BitVec 16) : n.extractLsb' 8 8 ++ n.extractLsb' 0 8 = n := by
  ext i hi
  simp only [BitVec.getElem_append, BitVec.getElem_extractLsb']
  split <;> rename_i h <;> simp only [← BitVec.getLsbD_eq_getElem] <;> congr 1 <;> omega

/-- The three fields of an I-form immediate together are the immediate (R55). -/
theorem imm27_eq (n : BitVec 27) : n.extractLsb' 9 18 ++ bit (n.getLsbD 8) ++ n.extractLsb' 0 8 = n := by
  ext i hi
  simp only [BitVec.getElem_append, BitVec.getElem_extractLsb', bit, BitVec.getElem_ofBool]
  split
  · simp [BitVec.getLsbD_eq_getElem, hi]
  · split
    · rename_i h1 h2
      have : i = 8 := by omega
      subst this; simp
    · simp only [← BitVec.getLsbD_eq_getElem]; congr 1; omega

/-! ### Codes -/

theorem Rounding.ofCode_code (x : Rounding) : Rounding.ofCode x.code = some x := by cases x <;> rfl
theorem Ty.ofCode_code (x : Ty) : Ty.ofCode x.code = some x := by cases x <;> rfl
theorem Cmp.ofCode_code (x : Cmp) : Cmp.ofCode x.code = some x := by cases x <;> rfl
theorem FCmp.ofCode_code (x : FCmp) : FCmp.ofCode x.code = some x := by cases x <;> rfl
theorem ShflMode.ofCode_code (x : ShflMode) : ShflMode.ofCode x.code = some x := by cases x <;> rfl
theorem QDir.ofCode_code (x : QDir) : QDir.ofCode x.code = some x := by cases x <;> rfl
theorem RedOp.ofCode_code (x : RedOp) : RedOp.ofCode x.code = some x := by cases x <;> rfl
theorem Scope.ofCode_code (x : Scope) : Scope.ofCode x.code = some x := by cases x <;> rfl
theorem FenceOrd.ofCode_code (x : FenceOrd) : FenceOrd.ofCode x.code = some x := by cases x <;> rfl
theorem AtomOrd.ofCode_code (x : AtomOrd) : AtomOrd.ofCode x.code = some x := by cases x <;> rfl
theorem AtomOp.ofCode_code (x : AtomOp) : AtomOp.ofCode x.code = some x := by cases x <;> rfl
theorem Path.ofCode_code (x : Path) : Path.ofCode x.code = some x := by cases x <;> rfl
theorem TKind.ofCode_code (x : TKind) : TKind.ofCode x.code = some x := by cases x <;> rfl
theorem EFmt.ofCode_code (x : EFmt) : EFmt.ofCode x.code = some x := by cases x <;> rfl
theorem TexDim.ofCode_code (x : TexDim) : TexDim.ofCode x.code = some x := by cases x <;> rfl
theorem RaySel.ofCode_code (x : RaySel) : RaySel.ofCode x.code = some x := by cases x <;> rfl
theorem Cull.ofCode_code (x : Cull) : Cull.ofCode x.code = some x := by cases x <;> rfl
theorem CachePol.ofCode_code (x : CachePol) : CachePol.ofCode x.code = some x := by cases x <;> rfl
theorem RegCnt.ofCode_code (x : RegCnt) : RegCnt.ofCode x.code = some x := by cases x <;> rfl
theorem Rounding.code_ne_zero (x : Rounding) : (x.code = 0#3) = False := by cases x <;> decide

/-! ### Operand shapes -/

theorem UArith.ofFields_fields (o : UArith) : UArith.ofFields o.fields = some o := by
  obtain ⟨d, a, b | b, _, _⟩ := o <;>
  simp (disch := omega) only [UArith.ofFields, UArith.fields, Fields.ub, Fields.setA, Fields.setB, Fields.ty, Fields.m, Fields.mb, Fields.a, Fields.b, extract_low, extract_high, bit_low, bit_high,
    extract_self, bit_self, Nat.sub_self, Nat.reduceAdd, Nat.reduceSub, Ty.ofCode_code, imm16_eq] <;> rfl

theorem UUn.ofFields_fields (o : UUn) : UUn.ofFields o.fields = some o := by
  simp (disch := omega) only [UUn.ofFields, UUn.fields, Fields.setA, Fields.setB, Fields.ty, Fields.m, Fields.mb, Fields.a, Fields.b, extract_low, extract_high, bit_low, bit_high,
    extract_self, bit_self, Nat.sub_self, Nat.reduceAdd, Nat.reduceSub, Ty.ofCode_code] <;> rfl

theorem USetp.ofFields_fields (o : USetp) : USetp.ofFields o.fields = some o := by
  obtain ⟨d, a, b | b, _, _⟩ := o <;>
  simp (disch := omega) only [USetp.ofFields, USetp.fields, Fields.ub, Fields.setA, Fields.setB, Fields.ty, Fields.m, Fields.mb, Fields.a, Fields.b, extract_low, extract_high, bit_low, bit_high,
    extract_self, bit_self, Nat.sub_self, Nat.reduceAdd, Nat.reduceSub, Cmp.ofCode_code, Ty.ofCode_code, imm16_eq] <;> rfl

theorem USel.ofFields_fields (o : USel) : USel.ofFields o.fields = some o := by
  simp (disch := omega) only [USel.ofFields, USel.fields, Fields.setA, Fields.setB, Fields.ty, Fields.m, Fields.mb, Fields.a, Fields.b, extract_low, extract_high, bit_low, bit_high,
    extract_self, bit_self, Nat.sub_self, Nat.reduceAdd, Nat.reduceSub, Ty.ofCode_code] <;> rfl

theorem ULoad.ofFields_fields (o : ULoad) : ULoad.ofFields o.fields = some o := by
  simp (disch := omega) only [ULoad.ofFields, ULoad.fields, Fields.setA, Fields.setB, Fields.ty, Fields.m, Fields.mb, Fields.a, Fields.b, extract_low, extract_high, bit_low, bit_high,
    extract_self, bit_self, Nat.sub_self, Nat.reduceAdd, Nat.reduceSub, Ty.ofCode_code] <;> rfl

theorem UStore.ofFields_fields (o : UStore) : UStore.ofFields o.fields = some o := by
  simp (disch := omega) only [UStore.ofFields, UStore.fields, Fields.setA, Fields.setB, Fields.ty, Fields.m, Fields.mb, Fields.a, Fields.b, extract_low, extract_high, bit_low, bit_high,
    extract_self, bit_self, Nat.sub_self, Nat.reduceAdd, Nat.reduceSub, Ty.ofCode_code] <;> rfl

theorem PBin.ofFields_fields (o : PBin) : PBin.ofFields o.fields = some o := by
  simp (disch := omega) only [PBin.ofFields, PBin.fields, Fields.setA, Fields.setB, Fields.ty, Fields.m, Fields.mb, Fields.a, Fields.b, extract_low, extract_high, bit_low, bit_high,
    extract_self, bit_self, Nat.sub_self, Nat.reduceAdd, Nat.reduceSub] <;> rfl

theorem PUn.ofFields_fields (o : PUn) : PUn.ofFields o.fields = some o := by
  simp (disch := omega) only [PUn.ofFields, PUn.fields, Fields.setA, Fields.setB, Fields.ty, Fields.m, Fields.mb, Fields.a, Fields.b, extract_low, extract_high, bit_low, bit_high,
    extract_self, bit_self, Nat.sub_self, Nat.reduceAdd, Nat.reduceSub] <;> rfl

theorem DAB.ofFields_fields (o : DAB) (m : BitVec 18) : DAB.ofFields (o.fields m) = some o := rfl

theorem DA.ofFields_fields (o : DA) (m : BitVec 18) : DA.ofFields (o.fields m) = some o := rfl

theorem AB.ofFields_fields (o : AB) (m : BitVec 18) : AB.ofFields (o.fields m) = some o := rfl

theorem VInt.ofFields_fields (o : VInt) : VInt.ofFields o.fields = some o := by
  simp (disch := omega) only [VInt.ofFields, VInt.fields, Fields.setA, Fields.setB, Fields.ty, Fields.m, Fields.mb, Fields.a, Fields.b, extract_low, extract_high, bit_low, bit_high,
    extract_self, bit_self, Nat.sub_self, Nat.reduceAdd, Nat.reduceSub, Ty.ofCode_code] <;> rfl

theorem VUn.ofFields_fields (o : VUn) : VUn.ofFields o.fields = some o := by
  simp (disch := omega) only [VUn.ofFields, VUn.fields, Fields.setA, Fields.setB, Fields.ty, Fields.m, Fields.mb, Fields.a, Fields.b, extract_low, extract_high, bit_low, bit_high,
    extract_self, bit_self, Nat.sub_self, Nat.reduceAdd, Nat.reduceSub, Ty.ofCode_code] <;> rfl

theorem Lop3.ofFields_fields (o : Lop3) : Lop3.ofFields o.fields = some o := by
  simp (disch := omega) only [Lop3.ofFields, Lop3.fields, Fields.setA, Fields.setB, Fields.ty, Fields.m, Fields.mb, Fields.a, Fields.b, extract_low, extract_high, bit_low, bit_high,
    extract_self, bit_self, Nat.sub_self, Nat.reduceAdd, Nat.reduceSub] <;> rfl

theorem ISetp.ofFields_fields (o : ISetp) : ISetp.ofFields o.fields = some o := by
  simp (disch := omega) only [ISetp.ofFields, ISetp.fields, Fields.setA, Fields.setB, Fields.ty, Fields.m, Fields.mb, Fields.a, Fields.b, extract_low, extract_high, bit_low, bit_high,
    extract_self, bit_self, Nat.sub_self, Nat.reduceAdd, Nat.reduceSub, Cmp.ofCode_code, Ty.ofCode_code] <;> rfl

theorem IMov.ofFields_fields (o : IMov) : IMov.ofFields o.fields = some o := by
  simp (disch := omega) only [IMov.ofFields, IMov.fields, Fields.setA, Fields.setB, Fields.ty, Fields.m, Fields.mb, Fields.a, Fields.b, extract_low, extract_high, bit_low, bit_high,
    extract_self, bit_self, Nat.sub_self, Nat.reduceAdd, Nat.reduceSub] <;> rfl

theorem ISel.ofFields_fields (o : ISel) : ISel.ofFields o.fields = some o := by
  simp (disch := omega) only [ISel.ofFields, ISel.fields, Fields.setA, Fields.setB, Fields.ty, Fields.m, Fields.mb, Fields.a, Fields.b, extract_low, extract_high, bit_low, bit_high,
    extract_self, bit_self, Nat.sub_self, Nat.reduceAdd, Nat.reduceSub] <;> rfl

theorem Idp4.ofFields_fields (o : Idp4) : Idp4.ofFields o.fields = some o := by
  simp (disch := omega) only [Idp4.ofFields, Idp4.fields, Fields.setA, Fields.setB, Fields.ty, Fields.m, Fields.mb, Fields.a, Fields.b, extract_low, extract_high, bit_low, bit_high,
    extract_self, bit_self, Nat.sub_self, Nat.reduceAdd, Nat.reduceSub, Ty.ofCode_code] <;> rfl

theorem MovImm.ofFields_fields (o : MovImm) : MovImm.ofFields o.fields = some o := by
  simp only [MovImm.ofFields, MovImm.fields, Fields.imm, Fields.ofImm, imm27_eq]

theorem F2.ofFields_fields (o : F2) : F2.ofFields o.fields = some o := by
  simp (disch := omega) only [F2.ofFields, F2.fields, Fields.setA, Fields.setB, Fields.ty, Fields.m, Fields.mb, Fields.a, Fields.b, extract_low, extract_high, bit_low, bit_high,
    extract_self, bit_self, Nat.sub_self, Nat.reduceAdd, Nat.reduceSub, Ty.ofCode_code] <;> rfl

theorem F3.ofFields_fields (o : F3) : F3.ofFields o.fields = some o := by
  simp (disch := omega) only [F3.ofFields, F3.fields, Fields.setA, Fields.setB, Fields.ty, Fields.m, Fields.mb, Fields.a, Fields.b, extract_low, extract_high, bit_low, bit_high,
    extract_self, bit_self, Nat.sub_self, Nat.reduceAdd, Nat.reduceSub, Ty.ofCode_code] <;> rfl

theorem FSetp.ofFields_fields (o : FSetp) : FSetp.ofFields o.fields = some o := by
  simp (disch := omega) only [FSetp.ofFields, FSetp.fields, Fields.setA, Fields.setB, Fields.ty, Fields.m, Fields.mb, Fields.a, Fields.b, extract_low, extract_high, bit_low, bit_high,
    extract_self, bit_self, Nat.sub_self, Nat.reduceAdd, Nat.reduceSub, FCmp.ofCode_code, Ty.ofCode_code] <;> rfl

theorem FClass.ofFields_fields (o : FClass) : FClass.ofFields o.fields = some o := by
  simp (disch := omega) only [FClass.ofFields, FClass.fields, Fields.setA, Fields.setB, Fields.ty, Fields.m, Fields.mb, Fields.a, Fields.b, extract_low, extract_high, bit_low, bit_high,
    extract_self, bit_self, Nat.sub_self, Nat.reduceAdd, Nat.reduceSub, Ty.ofCode_code] <;> rfl

theorem F1.ofFields_fields (o : F1) : F1.ofFields o.fields = some o := by
  simp (disch := omega) only [F1.ofFields, F1.fields, Fields.setA, Fields.setB, Fields.ty, Fields.m, Fields.mb, Fields.a, Fields.b, extract_low, extract_high, bit_low, bit_high,
    extract_self, bit_self, Nat.sub_self, Nat.reduceAdd, Nat.reduceSub, Ty.ofCode_code] <;> rfl

theorem Cvt.ofFields_fields (o : Cvt) : Cvt.ofFields o.fields = some o := by
  simp (disch := omega) only [Cvt.ofFields, Cvt.fields, Fields.setA, Fields.setB, Fields.ty, Fields.m, Fields.mb, Fields.a, Fields.b, extract_low, extract_high, bit_low, bit_high,
    extract_self, bit_self, Nat.sub_self, Nat.reduceAdd, Nat.reduceSub, Ty.ofCode_code] <;> rfl

theorem Shfl.ofFields_fields (o : Shfl) : Shfl.ofFields o.fields = some o := by
  simp (disch := omega) only [Shfl.ofFields, Shfl.fields, Fields.setA, Fields.setB, Fields.ty, Fields.m, Fields.mb, Fields.a, Fields.b, extract_low, extract_high, bit_low, bit_high,
    extract_self, bit_self, Nat.sub_self, Nat.reduceAdd, Nat.reduceSub, ShflMode.ofCode_code, Ty.ofCode_code] <;> rfl

theorem Qswp.ofFields_fields (o : Qswp) : Qswp.ofFields o.fields = some o := by
  simp (disch := omega) only [Qswp.ofFields, Qswp.fields, Fields.setA, Fields.setB, Fields.ty, Fields.m, Fields.mb, Fields.a, Fields.b, extract_low, extract_high, bit_low, bit_high,
    extract_self, bit_self, Nat.sub_self, Nat.reduceAdd, Nat.reduceSub, QDir.ofCode_code] <;> rfl

theorem Red.ofFields_fields (o : Red) : Red.ofFields o.fields = some o := by
  simp (disch := omega) only [Red.ofFields, Red.fields, Fields.setA, Fields.setB, Fields.ty, Fields.m, Fields.mb, Fields.a, Fields.b, extract_low, extract_high, bit_low, bit_high,
    extract_self, bit_self, Nat.sub_self, Nat.reduceAdd, Nat.reduceSub, RedOp.ofCode_code, Ty.ofCode_code] <;> rfl

theorem Scan.ofFields_fields (o : Scan) : Scan.ofFields o.fields = some o := by
  simp (disch := omega) only [Scan.ofFields, Scan.fields, Fields.setA, Fields.setB, Fields.ty, Fields.m, Fields.mb, Fields.a, Fields.b, extract_low, extract_high, bit_low, bit_high,
    extract_self, bit_self, Nat.sub_self, Nat.reduceAdd, Nat.reduceSub, RedOp.ofCode_code, Ty.ofCode_code] <;> rfl

theorem Append.ofFields_fields (o : Append) : Append.ofFields o.fields = some o := by
  simp (disch := omega) only [Append.ofFields, Append.fields, Fields.setA, Fields.setB, Fields.ty, Fields.m, Fields.mb, Fields.a, Fields.b, extract_low, extract_high, bit_low, bit_high,
    extract_self, bit_self, Nat.sub_self, Nat.reduceAdd, Nat.reduceSub, Ty.ofCode_code] <;> rfl

theorem MemOp.ofFields_fields (o : MemOp) : MemOp.ofFields o.fields = some o := by
  obtain ⟨⟩ := o; rename Option Src => b; cases b <;>
  simp (disch := omega) only [MemOp.ofFields, MemOp.fields, memMod, Fields.setOptB, Fields.vo, Fields.setA, Fields.setB, Fields.ty, Fields.m, Fields.mb, Fields.a, Fields.b, extract_low, extract_high, bit_low, bit_high,
    extract_self, bit_self, Nat.sub_self, Nat.reduceAdd, Nat.reduceSub, CachePol.ofCode_code, RegCnt.ofCode_code, Ty.ofCode_code,
    Option.isSome_none, Option.isSome_some] <;> rfl

theorem ScopedOp.ofFields_fields (o : ScopedOp) : ScopedOp.ofFields o.fields = some o := by
  obtain ⟨⟩ := o; rename Option Src => b; cases b <;>
  simp (disch := omega) only [ScopedOp.ofFields, ScopedOp.fields, memMod, Fields.setOptB, Fields.vo, Fields.setA, Fields.setB, Fields.ty, Fields.m, Fields.mb, Fields.a, Fields.b, extract_low, extract_high, bit_low, bit_high,
    extract_self, bit_self, Nat.sub_self, Nat.reduceAdd, Nat.reduceSub, Scope.ofCode_code, Ty.ofCode_code,
    Option.isSome_none, Option.isSome_some] <;> rfl

theorem TileOp.ofFields_fields (o : TileOp) : TileOp.ofFields o.fields = some o := by
  obtain ⟨⟩ := o; rename Option (BitVec 2) => p; cases p <;>
  simp (disch := omega) only [TileOp.ofFields, TileOp.fields, peerBits, Fields.peer, Fields.setA, Fields.setB, Fields.ty, Fields.m, Fields.mb, Fields.a, Fields.b, extract_low, extract_high, bit_low, bit_high,
    extract_self, bit_self, Nat.sub_self, Nat.reduceAdd, Nat.reduceSub, RegCnt.ofCode_code, Ty.ofCode_code] <;> rfl

theorem Fence.ofFields_fields (o : Fence) : Fence.ofFields o.fields = some o := by
  simp (disch := omega) only [Fence.ofFields, Fence.fields, Fields.setA, Fields.setB, Fields.ty, Fields.m, Fields.mb, Fields.a, Fields.b, extract_low, extract_high, bit_low, bit_high,
    extract_self, bit_self, Nat.sub_self, Nat.reduceAdd, Nat.reduceSub, Scope.ofCode_code, FenceOrd.ofCode_code] <;> rfl

theorem Waitc.ofFields_fields (o : Waitc) : Waitc.ofFields o.fields = some o := by
  obtain ⟨p, r | n⟩ := o <;>
  simp (disch := omega) only [Waitc.ofFields, Waitc.fields, Fields.setA, Fields.setB, Fields.ty, Fields.m, Fields.mb, Fields.a, Fields.b, extract_low, extract_high, bit_low, bit_high,
    extract_self, bit_self, Nat.sub_self, Nat.reduceAdd, Nat.reduceSub, Path.ofCode_code] <;> rfl

theorem Pref.ofFields_fields (o : Pref) : Pref.ofFields o.fields = some o := by
  obtain ⟨⟩ := o; rename Option Src => b; cases b <;>
  simp (disch := omega) only [Pref.ofFields, Pref.fields, memMod, Fields.setOptB, Fields.vo, Fields.setA, Fields.setB, Fields.ty, Fields.m, Fields.mb, Fields.a, Fields.b, extract_low, extract_high, bit_low, bit_high,
    extract_self, bit_self, Nat.sub_self, Nat.reduceAdd, Nat.reduceSub,
    Option.isSome_none, Option.isSome_some] <;> rfl

theorem Cinv.ofFields_fields (o : Cinv) : Cinv.ofFields o.fields = some o := by
  simp (disch := omega) only [Cinv.ofFields, Cinv.fields, Fields.setA, Fields.setB, Fields.ty, Fields.m, Fields.mb, Fields.a, Fields.b, extract_low, extract_high, bit_low, bit_high,
    extract_self, bit_self, Nat.sub_self, Nat.reduceAdd, Nat.reduceSub] <;> rfl

theorem Atom.ofFields_fields (o : Atom) : Atom.ofFields o.fields = some o := by
  simp (disch := omega) only [Atom.ofFields, Atom.fields, Fields.setA, Fields.setB, Fields.ty, Fields.m, Fields.mb, Fields.a, Fields.b, extract_low, extract_high, bit_low, bit_high,
    extract_self, bit_self, Nat.sub_self, Nat.reduceAdd, Nat.reduceSub, Scope.ofCode_code, AtomOrd.ofCode_code, AtomOp.ofCode_code, Ty.ofCode_code] <;> rfl

theorem APost.ofFields_fields (o : APost) : APost.ofFields o.fields = some o := by
  simp (disch := omega) only [APost.ofFields, APost.fields, Fields.setA, Fields.setB, Fields.ty, Fields.m, Fields.mb, Fields.a, Fields.b, extract_low, extract_high, bit_low, bit_high,
    extract_self, bit_self, Nat.sub_self, Nat.reduceAdd, Nat.reduceSub, Scope.ofCode_code, AtomOrd.ofCode_code, AtomOp.ofCode_code, Ty.ofCode_code] <;> rfl

theorem RAtom.ofFields_fields (o : RAtom) : RAtom.ofFields o.fields = some o := by
  simp (disch := omega) only [RAtom.ofFields, RAtom.fields, Fields.setA, Fields.setB, Fields.ty, Fields.m, Fields.mb, Fields.a, Fields.b, extract_low, extract_high, bit_low, bit_high,
    extract_self, bit_self, Nat.sub_self, Nat.reduceAdd, Nat.reduceSub, AtomOp.ofCode_code, Ty.ofCode_code] <;> rfl

theorem TAlloc.ofFields_fields (o : TAlloc) : TAlloc.ofFields o.fields = some o := by
  simp (disch := omega) only [TAlloc.ofFields, TAlloc.fields, Fields.setA, Fields.setB, Fields.ty, Fields.m, Fields.mb, Fields.a, Fields.b, extract_low, extract_high, bit_low, bit_high,
    extract_self, bit_self, Nat.sub_self, Nat.reduceAdd, Nat.reduceSub, TKind.ofCode_code] <;> rfl

theorem TQry.ofFields_fields (o : TQry) : TQry.ofFields o.fields = some o := by
  simp (disch := omega) only [TQry.ofFields, TQry.fields, Fields.setA, Fields.setB, Fields.ty, Fields.m, Fields.mb, Fields.a, Fields.b, extract_low, extract_high, bit_low, bit_high,
    extract_self, bit_self, Nat.sub_self, Nat.reduceAdd, Nat.reduceSub] <;> rfl

theorem Cpy.ofFields_fields (o : Cpy) : Cpy.ofFields o.fields = some o := by
  obtain ⟨d, u, _ | b⟩ := o <;> simp [Cpy.ofFields, Cpy.fields, Fields.setA, Fields.a, Fields.mb]

theorem CpyMc.ofFields_fields (o : CpyMc) : CpyMc.ofFields o.fields = some o := by
  simp (disch := omega) only [CpyMc.ofFields, CpyMc.fields, Fields.setA, Fields.setB, Fields.ty, Fields.m, Fields.mb, Fields.a, Fields.b, extract_low, extract_high, bit_low, bit_high,
    extract_self, bit_self, Nat.sub_self, Nat.reduceAdd, Nat.reduceSub] <;> rfl

theorem BarB.ofFields_fields (o : BarB) (arv : Bool) : BarB.ofFields (o.fields arv) = some o := by
  obtain ⟨_ | _ | _, b⟩ := o <;>
  simp (disch := omega) only [BarB.ofFields, BarB.fields, Fields.bar, BarRef.fields, BarRef.bits, BarRef.src, Fields.setA, Fields.setB, Fields.ty, Fields.m, Fields.mb, Fields.a, Fields.b, extract_low, extract_high, bit_low, bit_high,
    extract_self, bit_self, Nat.sub_self, Nat.reduceAdd, Nat.reduceSub] <;> rfl

theorem BarPar.ofFields_fields (o : BarPar) : BarPar.ofFields o.fields = some o := by
  obtain ⟨_ | _ | _, _ | _⟩ := o <;>
  simp (disch := omega) only [BarPar.ofFields, BarPar.fields, Fields.bar, Fields.par, Par.bits, Par.src, Fields.setOptB, BarRef.fields, BarRef.bits,
    BarRef.src, Fields.setA, Fields.setB, Fields.ty, Fields.m, Fields.mb, Fields.a, Fields.b, extract_low, extract_high, bit_low, bit_high,
    extract_self, bit_self, Nat.sub_self, Nat.reduceAdd, Nat.reduceSub] <;> rfl

theorem BarTest.ofFields_fields (o : BarTest) : BarTest.ofFields o.fields = some o := by
  obtain ⟨d, _ | _ | _, _ | _⟩ := o <;>
  simp (disch := omega) only [BarTest.ofFields, BarTest.fields, Fields.bar, Fields.par, Par.bits, Par.src, Fields.setOptB, BarRef.fields, BarRef.bits,
    BarRef.src, Fields.setA, Fields.setB, Fields.ty, Fields.m, Fields.mb, Fields.a, Fields.b, extract_low, extract_high, bit_low, bit_high,
    extract_self, bit_self, Nat.sub_self, Nat.reduceAdd, Nat.reduceSub] <;> rfl

theorem BarBrk.ofFields_fields (o : BarBrk) : BarBrk.ofFields o.fields = some o := by
  obtain ⟨d, _ | _ | _⟩ := o <;>
  simp (disch := omega) only [BarBrk.ofFields, BarBrk.fields, Fields.bar, BarRef.fields, BarRef.bits, BarRef.src, Fields.setA, Fields.setB, Fields.ty, Fields.m, Fields.mb, Fields.a, Fields.b, extract_low, extract_high, bit_low, bit_high,
    extract_self, bit_self, Nat.sub_self, Nat.reduceAdd, Nat.reduceSub] <;> rfl

theorem MxMma.ofFields_fields (o : MxMma) : MxMma.ofFields o.fields = some o := by
  obtain ⟨d, _ | _, _ | _, _, _, _, _⟩ := o <;>
  simp (disch := omega) only [MxMma.ofFields, MxMma.fields, MxSrc.isTile, MxSrc.src, Fields.setA, Fields.setB, Fields.ty, Fields.m, Fields.mb, Fields.a, Fields.b, extract_low, extract_high, bit_low, bit_high,
    extract_self, bit_self, Nat.sub_self, Nat.reduceAdd, Nat.reduceSub, EFmt.ofCode_code] <;> rfl

theorem MxScl.ofFields_fields (o : MxScl) : MxScl.ofFields o.fields = some o := by
  simp (disch := omega) only [MxScl.ofFields, MxScl.fields, Fields.setA, Fields.setB, Fields.ty, Fields.m, Fields.mb, Fields.a, Fields.b, extract_low, extract_high, bit_low, bit_high,
    extract_self, bit_self, Nat.sub_self, Nat.reduceAdd, Nat.reduceSub] <;> rfl

theorem MxDrn.ofFields_fields (o : MxDrn) : MxDrn.ofFields o.fields = some o := by
  simp (disch := omega) only [MxDrn.ofFields, MxDrn.fields, Fields.setA, Fields.setB, Fields.ty, Fields.m, Fields.mb, Fields.a, Fields.b, extract_low, extract_high, bit_low, bit_high,
    extract_self, bit_self, Nat.sub_self, Nat.reduceAdd, Nat.reduceSub] <;> rfl

theorem WregSet.ofFields_fields (o : WregSet) : WregSet.ofFields o.fields = some o := by
  simp (disch := omega) only [WregSet.ofFields, WregSet.fields, Fields.setA, Fields.setB, Fields.ty, Fields.m, Fields.mb, Fields.a, Fields.b, extract_low, extract_high, bit_low, bit_high,
    extract_self, bit_self, Nat.sub_self, Nat.reduceAdd, Nat.reduceSub] <;> rfl

theorem Tex.ofFields_fields (o : Tex) : Tex.ofFields o.fields = some o := by
  simp (disch := omega) only [Tex.ofFields, Tex.fields, Fields.setA, Fields.setB, Fields.ty, Fields.m, Fields.mb, Fields.a, Fields.b, extract_low, extract_high, bit_low, bit_high,
    extract_self, bit_self, Nat.sub_self, Nat.reduceAdd, Nat.reduceSub, TexDim.ofCode_code, Ty.ofCode_code] <;> rfl

theorem TexQ.ofFields_fields (o : TexQ) (lod : Bool) : TexQ.ofFields (o.fields lod) = some o := by
  simp (disch := omega) only [TexQ.ofFields, TexQ.fields, Fields.setA, Fields.setB, Fields.ty, Fields.m, Fields.mb, Fields.a, Fields.b, extract_low, extract_high, bit_low, bit_high,
    extract_self, bit_self, Nat.sub_self, Nat.reduceAdd, Nat.reduceSub, TexDim.ofCode_code] <;> rfl

theorem Hg.ofFields_fields (o : Hg) : Hg.ofFields o.fields = some o := by
  simp (disch := omega) only [Hg.ofFields, Hg.fields, Fields.setA, Fields.setB, Fields.ty, Fields.m, Fields.mb, Fields.a, Fields.b, extract_low, extract_high, bit_low, bit_high,
    extract_self, bit_self, Nat.sub_self, Nat.reduceAdd, Nat.reduceSub, Ty.ofCode_code] <;> rfl

theorem HgScat.ofFields_fields (o : HgScat) : HgScat.ofFields o.fields = some o := by
  simp (disch := omega) only [HgScat.ofFields, HgScat.fields, Fields.setA, Fields.setB, Fields.ty, Fields.m, Fields.mb, Fields.a, Fields.b, extract_low, extract_high, bit_low, bit_high,
    extract_self, bit_self, Nat.sub_self, Nat.reduceAdd, Nat.reduceSub, Ty.ofCode_code] <;> rfl

theorem RayTrc.ofFields_fields (o : RayTrc) : RayTrc.ofFields o.fields = some o := by
  simp (disch := omega) only [RayTrc.ofFields, RayTrc.fields, Fields.setA, Fields.setB, Fields.ty, Fields.m, Fields.mb, Fields.a, Fields.b, extract_low, extract_high, bit_low, bit_high,
    extract_self, bit_self, Nat.sub_self, Nat.reduceAdd, Nat.reduceSub, Cull.ofCode_code] <;> rfl

theorem RayRsm.ofFields_fields (o : RayRsm) : RayRsm.ofFields o.fields = some o := by
  obtain ⟨a, _ | b⟩ := o <;>
  simp (disch := omega) only [RayRsm.ofFields, RayRsm.fields, Fields.setOptB, Fields.setA, Fields.setB, Fields.ty, Fields.m, Fields.mb, Fields.a, Fields.b, extract_low, extract_high, bit_low, bit_high,
    extract_self, bit_self, Nat.sub_self, Nat.reduceAdd, Nat.reduceSub, Option.isSome_none, Option.isSome_some] <;> rfl

theorem RayGet.ofFields_fields (o : RayGet) : RayGet.ofFields o.fields = some o := by
  simp (disch := omega) only [RayGet.ofFields, RayGet.fields, Fields.setA, Fields.setB, Fields.ty, Fields.m, Fields.mb, Fields.a, Fields.b, extract_low, extract_high, bit_low, bit_high,
    extract_self, bit_self, Nat.sub_self, Nat.reduceAdd, Nat.reduceSub, RaySel.ofCode_code] <;> rfl

theorem RingPush.ofFields_fields (o : RingPush) : RingPush.ofFields o.fields = some o := by
  obtain ⟨⟩ := o; rename Option (BitVec 2) => p; cases p <;>
  simp (disch := omega) only [RingPush.ofFields, RingPush.fields, peerBits, Fields.peer, Fields.setA, Fields.setB, Fields.ty, Fields.m, Fields.mb, Fields.a, Fields.b, extract_low, extract_high, bit_low, bit_high,
    extract_self, bit_self, Nat.sub_self, Nat.reduceAdd, Nat.reduceSub] <;> rfl

theorem RingPop.ofFields_fields (o : RingPop) : RingPop.ofFields o.fields = some o := by
  obtain ⟨⟩ := o; rename Option (BitVec 2) => p; cases p <;>
  simp (disch := omega) only [RingPop.ofFields, RingPop.fields, peerBits, Fields.peer, Fields.setA, Fields.setB, Fields.ty, Fields.m, Fields.mb, Fields.a, Fields.b, extract_low, extract_high, bit_low, bit_high,
    extract_self, bit_self, Nat.sub_self, Nat.reduceAdd, Nat.reduceSub] <;> rfl

/-! ### Words and units -/

theorem wordFields_encodeBase (op : BitVec 10) (f : Fields) (c : Ctl) : wordFields (encodeBase op f c) = f := by
  simp (disch := omega) only [wordFields, encodeBase, extract_low, extract_high, bit_low, bit_high, extract_self, bit_self, Nat.reduceAdd, Nat.reduceSub,
    Nat.sub_self]

theorem opcode_eq (op : BitVec 10) : op.extractLsb' 6 4 ++ op.extractLsb' 0 6 = op := by
  ext i hi
  simp only [BitVec.getElem_append, BitVec.getElem_extractLsb']
  split <;> rename_i h <;> simp only [← BitVec.getLsbD_eq_getElem] <;> congr 1 <;> omega

theorem wordOpcode_encodeBase (op : BitVec 10) (f : Fields) (c : Ctl) : wordOpcode (encodeBase op f c) = op := by
  simp (disch := omega) only [wordOpcode, encodeBase, extract_low, extract_high, extract_self, Nat.reduceAdd, Nat.reduceSub, Nat.sub_self, opcode_eq]

theorem wordCtl_encodeBase (op : BitVec 10) (f : Fields) (c : Ctl) : wordCtl (encodeBase op f c) c.pre = c := by
  simp (disch := omega) only [wordCtl, encodeBase, extract_low, extract_high, bit_low, bit_high, bit_self, extract_self, Nat.reduceAdd,
    Nat.reduceSub, Nat.sub_self]

theorem decodePrefix_encodePrefix (p : Prefix) : decodePrefix (encodePrefix p) = some p := by
  obtain ⟨i1, i2, i3, i4, z, sc, _ | r, _ | m⟩ := p <;>
  simp (disch := omega) [-BitVec.getLsbD_eq_getElem, decodePrefix, encodePrefix, extract_low, extract_high, bit_low, bit_high, extract_self, bit_self,
    Rounding.code_ne_zero, Rounding.ofCode_code]

theorem unitKind_encodePrefix (p : Prefix) : unitKind (encodePrefix p) = 1 := by
  have h : (encodePrefix p).extractLsb' 0 2 = 1#2 := by
    simp (disch := omega) only [encodePrefix, extract_low, extract_self, Nat.reduceAdd, Nat.reduceSub]
  have := congrArg BitVec.toNat h
  simpa [unitKind, BitVec.extractLsb'_toNat] using this

theorem unitKind_encodeBase (op : BitVec 10) (f : Fields) (c : Ctl) : unitKind ((encodeBase op f c).extractLsb' 0 32) = 0 := by
  have h : (encodeBase op f c).extractLsb' 0 2 = 0#2 := by
    simp (disch := omega) only [encodeBase, extract_low, extract_self, Nat.reduceAdd, Nat.reduceSub]
  have := congrArg BitVec.toNat h
  simp [BitVec.extractLsb'_toNat] at this
  simp [unitKind, BitVec.extractLsb'_toNat]; omega

theorem units_eq (w : Word64) : w.extractLsb' 32 32 ++ w.extractLsb' 0 32 = w := by
  ext i hi
  simp only [BitVec.getElem_append, BitVec.getElem_extractLsb']
  split <;> rename_i h <;> simp only [← BitVec.getLsbD_eq_getElem] <;> congr 1 <;> omega

end Sys2Proof
end

