-- ==== Sys2Proof/Laws/State.lean ====
section
/-!
SUPPORT. One lemma per field per update, so that no proof unfolds a record update: what `setCur`, `updVf`, `updGran`, `updCluster`, `updCore`, `updLink`,
`updWg`, `updGang` and `updLaunch` leave of the machine, and what `setSlot` leaves of a group.
-/
set_option Elab.async false
namespace Sys2Proof.Machine
open Sys2Proof

namespace State

/-! ### `setCur` -/

@[simp] theorem setCur_cur (s : State) (g : Group) : (s.setCur g).cur = g := rfl
@[simp] theorem setCur_groups (s : State) (g : Group) : (s.setCur g).groups = s.groups := rfl
@[simp] theorem setCur_savedGroups (s : State) (g : Group) : (s.setCur g).savedGroups = s.savedGroups := rfl
@[simp] theorem setCur_wgs (s : State) (g : Group) : (s.setCur g).wgs = s.wgs := rfl
@[simp] theorem setCur_savedWgs (s : State) (g : Group) : (s.setCur g).savedWgs = s.savedWgs := rfl
@[simp] theorem setCur_gangs (s : State) (g : Group) : (s.setCur g).gangs = s.gangs := rfl
@[simp] theorem setCur_launches (s : State) (g : Group) : (s.setCur g).launches = s.launches := rfl
@[simp] theorem setCur_nextKey (s : State) (g : Group) : (s.setCur g).nextKey = s.nextKey := rfl
@[simp] theorem setCur_clusters (s : State) (g : Group) : (s.setCur g).clusters = s.clusters := rfl
@[simp] theorem setCur_cores (s : State) (g : Group) : (s.setCur g).cores = s.cores := rfl
@[simp] theorem setCur_mem (s : State) (g : Group) : (s.setCur g).mem = s.mem := rfl
@[simp] theorem setCur_poison (s : State) (g : Group) : (s.setCur g).poison = s.poison := rfl
@[simp] theorem setCur_l2 (s : State) (g : Group) : (s.setCur g).l2 = s.l2 := rfl
@[simp] theorem setCur_walks (s : State) (g : Group) : (s.setCur g).walks = s.walks := rfl
@[simp] theorem setCur_masks (s : State) (g : Group) : (s.setCur g).masks = s.masks := rfl
@[simp] theorem setCur_mixed (s : State) (g : Group) : (s.setCur g).mixed = s.mixed := rfl
@[simp] theorem setCur_walked (s : State) (g : Group) : (s.setCur g).walked = s.walked := rfl
@[simp] theorem setCur_barLines (s : State) (g : Group) : (s.setCur g).barLines = s.barLines := rfl
@[simp] theorem setCur_prq (s : State) (g : Group) : (s.setCur g).prq = s.prq := rfl
@[simp] theorem setCur_prqWait (s : State) (g : Group) : (s.setCur g).prqWait = s.prqWait := rfl
@[simp] theorem setCur_prqFailed (s : State) (g : Group) : (s.setCur g).prqFailed = s.prqFailed := rfl
@[simp] theorem setCur_migs (s : State) (g : Group) : (s.setCur g).migs = s.migs := rfl
@[simp] theorem setCur_vfs (s : State) (g : Group) : (s.setCur g).vfs = s.vfs := rfl
@[simp] theorem setCur_grans (s : State) (g : Group) : (s.setCur g).grans = s.grans := rfl
@[simp] theorem setCur_pcmdStat (s : State) (g : Group) : (s.setCur g).pcmdStat = s.pcmdStat := rfl
@[simp] theorem setCur_pcmdOp (s : State) (g : Group) : (s.setCur g).pcmdOp = s.pcmdOp := rfl
@[simp] theorem setCur_pcmdNum (s : State) (g : Group) : (s.setCur g).pcmdNum = s.pcmdNum := rfl
@[simp] theorem setCur_pcmdFirst (s : State) (g : Group) : (s.setCur g).pcmdFirst = s.pcmdFirst := rfl
@[simp] theorem setCur_pcmdJob (s : State) (g : Group) : (s.setCur g).pcmdJob = s.pcmdJob := rfl
@[simp] theorem setCur_cmbase (s : State) (g : Group) : (s.setCur g).cmbase = s.cmbase := rfl
@[simp] theorem setCur_sewin (s : State) (g : Group) : (s.setCur g).sewin = s.sewin := rfl
@[simp] theorem setCur_sethr (s : State) (g : Group) : (s.setCur g).sethr = s.sethr := rfl
@[simp] theorem setCur_pkpow (s : State) (g : Group) : (s.setCur g).pkpow = s.pkpow := rfl
@[simp] theorem setCur_pfRws (s : State) (g : Group) : (s.setCur g).pfRws = s.pfRws := rfl
@[simp] theorem setCur_pfIrq (s : State) (g : Group) : (s.setCur g).pfIrq = s.pfIrq := rfl
@[simp] theorem setCur_pfConfig (s : State) (g : Group) : (s.setCur g).pfConfig = s.pfConfig := rfl
@[simp] theorem setCur_pfMsix (s : State) (g : Group) : (s.setCur g).pfMsix = s.pfMsix := rfl
@[simp] theorem setCur_rails (s : State) (g : Group) : (s.setCur g).rails = s.rails := rfl
@[simp] theorem setCur_loans (s : State) (g : Group) : (s.setCur g).loans = s.loans := rfl
@[simp] theorem setCur_links (s : State) (g : Group) : (s.setCur g).links = s.links := rfl
@[simp] theorem setCur_incoming (s : State) (g : Group) : (s.setCur g).incoming = s.incoming := rfl
@[simp] theorem setCur_mbResult (s : State) (g : Group) : (s.setCur g).mbResult = s.mbResult := rfl
@[simp] theorem setCur_mbBusy (s : State) (g : Group) : (s.setCur g).mbBusy = s.mbBusy := rfl
@[simp] theorem setCur_mbPending (s : State) (g : Group) : (s.setCur g).mbPending = s.mbPending := rfl
@[simp] theorem setCur_mbCmd (s : State) (g : Group) : (s.setCur g).mbCmd = s.mbCmd := rfl
@[simp] theorem setCur_mbAddr (s : State) (g : Group) : (s.setCur g).mbAddr = s.mbAddr := rfl
@[simp] theorem setCur_mbLen (s : State) (g : Group) : (s.setCur g).mbLen = s.mbLen := rfl
@[simp] theorem setCur_meas (s : State) (g : Group) : (s.setCur g).meas = s.meas := rfl
@[simp] theorem setCur_svcount (s : State) (g : Group) : (s.setCur g).svcount = s.svcount := rfl
@[simp] theorem setCur_runningSvn (s : State) (g : Group) : (s.setCur g).runningSvn = s.runningSvn := rfl
@[simp] theorem setCur_flash (s : State) (g : Group) : (s.setCur g).flash = s.flash := rfl
@[simp] theorem setCur_journal (s : State) (g : Group) : (s.setCur g).journal = s.journal := rfl
@[simp] theorem setCur_alt (s : State) (g : Group) : (s.setCur g).alt = s.alt := rfl
@[simp] theorem setCur_bootStep (s : State) (g : Group) : (s.setCur g).bootStep = s.bootStep := rfl
@[simp] theorem setCur_bootDone (s : State) (g : Group) : (s.setCur g).bootDone = s.bootDone := rfl
@[simp] theorem setCur_bootRuns (s : State) (g : Group) : (s.setCur g).bootRuns = s.bootRuns := rfl
@[simp] theorem setCur_identity (s : State) (g : Group) : (s.setCur g).identity = s.identity := rfl
@[simp] theorem setCur_lpddr (s : State) (g : Group) : (s.setCur g).lpddr = s.lpddr := rfl
@[simp] theorem setCur_bootStopped (s : State) (g : Group) : (s.setCur g).bootStopped = s.bootStopped := rfl
@[simp] theorem setCur_bootCount (s : State) (g : Group) : (s.setCur g).bootCount = s.bootCount := rfl
@[simp] theorem setCur_errCounts (s : State) (g : Group) : (s.setCur g).errCounts = s.errCounts := rfl
@[simp] theorem setCur_retired (s : State) (g : Group) : (s.setCur g).retired = s.retired := rfl
@[simp] theorem setCur_noSpare (s : State) (g : Group) : (s.setCur g).noSpare = s.noSpare := rfl
@[simp] theorem setCur_packageFault (s : State) (g : Group) : (s.setCur g).packageFault = s.packageFault := rfl
@[simp] theorem setCur_port (s : State) (g : Group) : (s.setCur g).port = s.port := rfl
@[simp] theorem setCur_tape (s : State) (g : Group) : (s.setCur g).tape = s.tape := rfl
@[simp] theorem setCur_steps (s : State) (g : Group) : (s.setCur g).steps = s.steps := rfl
@[simp] theorem setCur_kept (s : State) (g : Group) : (s.setCur g).kept = s.kept := rfl

/-! ### `updVf` -/

@[simp] theorem updVf_cur (s : State) (n : Nat) (f : VFun → VFun) : (s.updVf n f).cur = s.cur := rfl
@[simp] theorem updVf_groups (s : State) (n : Nat) (f : VFun → VFun) : (s.updVf n f).groups = s.groups := rfl
@[simp] theorem updVf_savedGroups (s : State) (n : Nat) (f : VFun → VFun) : (s.updVf n f).savedGroups = s.savedGroups := rfl
@[simp] theorem updVf_wgs (s : State) (n : Nat) (f : VFun → VFun) : (s.updVf n f).wgs = s.wgs := rfl
@[simp] theorem updVf_savedWgs (s : State) (n : Nat) (f : VFun → VFun) : (s.updVf n f).savedWgs = s.savedWgs := rfl
@[simp] theorem updVf_gangs (s : State) (n : Nat) (f : VFun → VFun) : (s.updVf n f).gangs = s.gangs := rfl
@[simp] theorem updVf_launches (s : State) (n : Nat) (f : VFun → VFun) : (s.updVf n f).launches = s.launches := rfl
@[simp] theorem updVf_nextKey (s : State) (n : Nat) (f : VFun → VFun) : (s.updVf n f).nextKey = s.nextKey := rfl
@[simp] theorem updVf_clusters (s : State) (n : Nat) (f : VFun → VFun) : (s.updVf n f).clusters = s.clusters := rfl
@[simp] theorem updVf_cores (s : State) (n : Nat) (f : VFun → VFun) : (s.updVf n f).cores = s.cores := rfl
@[simp] theorem updVf_mem (s : State) (n : Nat) (f : VFun → VFun) : (s.updVf n f).mem = s.mem := rfl
@[simp] theorem updVf_poison (s : State) (n : Nat) (f : VFun → VFun) : (s.updVf n f).poison = s.poison := rfl
@[simp] theorem updVf_l2 (s : State) (n : Nat) (f : VFun → VFun) : (s.updVf n f).l2 = s.l2 := rfl
@[simp] theorem updVf_walks (s : State) (n : Nat) (f : VFun → VFun) : (s.updVf n f).walks = s.walks := rfl
@[simp] theorem updVf_masks (s : State) (n : Nat) (f : VFun → VFun) : (s.updVf n f).masks = s.masks := rfl
@[simp] theorem updVf_mixed (s : State) (n : Nat) (f : VFun → VFun) : (s.updVf n f).mixed = s.mixed := rfl
@[simp] theorem updVf_walked (s : State) (n : Nat) (f : VFun → VFun) : (s.updVf n f).walked = s.walked := rfl
@[simp] theorem updVf_barLines (s : State) (n : Nat) (f : VFun → VFun) : (s.updVf n f).barLines = s.barLines := rfl
@[simp] theorem updVf_prq (s : State) (n : Nat) (f : VFun → VFun) : (s.updVf n f).prq = s.prq := rfl
@[simp] theorem updVf_prqWait (s : State) (n : Nat) (f : VFun → VFun) : (s.updVf n f).prqWait = s.prqWait := rfl
@[simp] theorem updVf_prqFailed (s : State) (n : Nat) (f : VFun → VFun) : (s.updVf n f).prqFailed = s.prqFailed := rfl
@[simp] theorem updVf_migs (s : State) (n : Nat) (f : VFun → VFun) : (s.updVf n f).migs = s.migs := rfl
@[simp] theorem updVf_grans (s : State) (n : Nat) (f : VFun → VFun) : (s.updVf n f).grans = s.grans := rfl
@[simp] theorem updVf_pcmdStat (s : State) (n : Nat) (f : VFun → VFun) : (s.updVf n f).pcmdStat = s.pcmdStat := rfl
@[simp] theorem updVf_pcmdOp (s : State) (n : Nat) (f : VFun → VFun) : (s.updVf n f).pcmdOp = s.pcmdOp := rfl
@[simp] theorem updVf_pcmdNum (s : State) (n : Nat) (f : VFun → VFun) : (s.updVf n f).pcmdNum = s.pcmdNum := rfl
@[simp] theorem updVf_pcmdFirst (s : State) (n : Nat) (f : VFun → VFun) : (s.updVf n f).pcmdFirst = s.pcmdFirst := rfl
@[simp] theorem updVf_pcmdJob (s : State) (n : Nat) (f : VFun → VFun) : (s.updVf n f).pcmdJob = s.pcmdJob := rfl
@[simp] theorem updVf_cmbase (s : State) (n : Nat) (f : VFun → VFun) : (s.updVf n f).cmbase = s.cmbase := rfl
@[simp] theorem updVf_sewin (s : State) (n : Nat) (f : VFun → VFun) : (s.updVf n f).sewin = s.sewin := rfl
@[simp] theorem updVf_sethr (s : State) (n : Nat) (f : VFun → VFun) : (s.updVf n f).sethr = s.sethr := rfl
@[simp] theorem updVf_pkpow (s : State) (n : Nat) (f : VFun → VFun) : (s.updVf n f).pkpow = s.pkpow := rfl
@[simp] theorem updVf_pfRws (s : State) (n : Nat) (f : VFun → VFun) : (s.updVf n f).pfRws = s.pfRws := rfl
@[simp] theorem updVf_pfIrq (s : State) (n : Nat) (f : VFun → VFun) : (s.updVf n f).pfIrq = s.pfIrq := rfl
@[simp] theorem updVf_pfConfig (s : State) (n : Nat) (f : VFun → VFun) : (s.updVf n f).pfConfig = s.pfConfig := rfl
@[simp] theorem updVf_pfMsix (s : State) (n : Nat) (f : VFun → VFun) : (s.updVf n f).pfMsix = s.pfMsix := rfl
@[simp] theorem updVf_rails (s : State) (n : Nat) (f : VFun → VFun) : (s.updVf n f).rails = s.rails := rfl
@[simp] theorem updVf_loans (s : State) (n : Nat) (f : VFun → VFun) : (s.updVf n f).loans = s.loans := rfl
@[simp] theorem updVf_links (s : State) (n : Nat) (f : VFun → VFun) : (s.updVf n f).links = s.links := rfl
@[simp] theorem updVf_incoming (s : State) (n : Nat) (f : VFun → VFun) : (s.updVf n f).incoming = s.incoming := rfl
@[simp] theorem updVf_mbResult (s : State) (n : Nat) (f : VFun → VFun) : (s.updVf n f).mbResult = s.mbResult := rfl
@[simp] theorem updVf_mbBusy (s : State) (n : Nat) (f : VFun → VFun) : (s.updVf n f).mbBusy = s.mbBusy := rfl
@[simp] theorem updVf_mbPending (s : State) (n : Nat) (f : VFun → VFun) : (s.updVf n f).mbPending = s.mbPending := rfl
@[simp] theorem updVf_mbCmd (s : State) (n : Nat) (f : VFun → VFun) : (s.updVf n f).mbCmd = s.mbCmd := rfl
@[simp] theorem updVf_mbAddr (s : State) (n : Nat) (f : VFun → VFun) : (s.updVf n f).mbAddr = s.mbAddr := rfl
@[simp] theorem updVf_mbLen (s : State) (n : Nat) (f : VFun → VFun) : (s.updVf n f).mbLen = s.mbLen := rfl
@[simp] theorem updVf_meas (s : State) (n : Nat) (f : VFun → VFun) : (s.updVf n f).meas = s.meas := rfl
@[simp] theorem updVf_svcount (s : State) (n : Nat) (f : VFun → VFun) : (s.updVf n f).svcount = s.svcount := rfl
@[simp] theorem updVf_runningSvn (s : State) (n : Nat) (f : VFun → VFun) : (s.updVf n f).runningSvn = s.runningSvn := rfl
@[simp] theorem updVf_flash (s : State) (n : Nat) (f : VFun → VFun) : (s.updVf n f).flash = s.flash := rfl
@[simp] theorem updVf_journal (s : State) (n : Nat) (f : VFun → VFun) : (s.updVf n f).journal = s.journal := rfl
@[simp] theorem updVf_alt (s : State) (n : Nat) (f : VFun → VFun) : (s.updVf n f).alt = s.alt := rfl
@[simp] theorem updVf_bootStep (s : State) (n : Nat) (f : VFun → VFun) : (s.updVf n f).bootStep = s.bootStep := rfl
@[simp] theorem updVf_bootDone (s : State) (n : Nat) (f : VFun → VFun) : (s.updVf n f).bootDone = s.bootDone := rfl
@[simp] theorem updVf_bootRuns (s : State) (n : Nat) (f : VFun → VFun) : (s.updVf n f).bootRuns = s.bootRuns := rfl
@[simp] theorem updVf_identity (s : State) (n : Nat) (f : VFun → VFun) : (s.updVf n f).identity = s.identity := rfl
@[simp] theorem updVf_lpddr (s : State) (n : Nat) (f : VFun → VFun) : (s.updVf n f).lpddr = s.lpddr := rfl
@[simp] theorem updVf_bootStopped (s : State) (n : Nat) (f : VFun → VFun) : (s.updVf n f).bootStopped = s.bootStopped := rfl
@[simp] theorem updVf_bootCount (s : State) (n : Nat) (f : VFun → VFun) : (s.updVf n f).bootCount = s.bootCount := rfl
@[simp] theorem updVf_errCounts (s : State) (n : Nat) (f : VFun → VFun) : (s.updVf n f).errCounts = s.errCounts := rfl
@[simp] theorem updVf_retired (s : State) (n : Nat) (f : VFun → VFun) : (s.updVf n f).retired = s.retired := rfl
@[simp] theorem updVf_noSpare (s : State) (n : Nat) (f : VFun → VFun) : (s.updVf n f).noSpare = s.noSpare := rfl
@[simp] theorem updVf_packageFault (s : State) (n : Nat) (f : VFun → VFun) : (s.updVf n f).packageFault = s.packageFault := rfl
@[simp] theorem updVf_port (s : State) (n : Nat) (f : VFun → VFun) : (s.updVf n f).port = s.port := rfl
@[simp] theorem updVf_tape (s : State) (n : Nat) (f : VFun → VFun) : (s.updVf n f).tape = s.tape := rfl
@[simp] theorem updVf_steps (s : State) (n : Nat) (f : VFun → VFun) : (s.updVf n f).steps = s.steps := rfl
@[simp] theorem updVf_kept (s : State) (n : Nat) (f : VFun → VFun) : (s.updVf n f).kept = s.kept := rfl

/-! ### `updGran` -/

@[simp] theorem updGran_cur (s : State) (n : Nat) (f : Granule → Granule) : (s.updGran n f).cur = s.cur := rfl
@[simp] theorem updGran_groups (s : State) (n : Nat) (f : Granule → Granule) : (s.updGran n f).groups = s.groups := rfl
@[simp] theorem updGran_savedGroups (s : State) (n : Nat) (f : Granule → Granule) : (s.updGran n f).savedGroups = s.savedGroups := rfl
@[simp] theorem updGran_wgs (s : State) (n : Nat) (f : Granule → Granule) : (s.updGran n f).wgs = s.wgs := rfl
@[simp] theorem updGran_savedWgs (s : State) (n : Nat) (f : Granule → Granule) : (s.updGran n f).savedWgs = s.savedWgs := rfl
@[simp] theorem updGran_gangs (s : State) (n : Nat) (f : Granule → Granule) : (s.updGran n f).gangs = s.gangs := rfl
@[simp] theorem updGran_launches (s : State) (n : Nat) (f : Granule → Granule) : (s.updGran n f).launches = s.launches := rfl
@[simp] theorem updGran_nextKey (s : State) (n : Nat) (f : Granule → Granule) : (s.updGran n f).nextKey = s.nextKey := rfl
@[simp] theorem updGran_clusters (s : State) (n : Nat) (f : Granule → Granule) : (s.updGran n f).clusters = s.clusters := rfl
@[simp] theorem updGran_cores (s : State) (n : Nat) (f : Granule → Granule) : (s.updGran n f).cores = s.cores := rfl
@[simp] theorem updGran_mem (s : State) (n : Nat) (f : Granule → Granule) : (s.updGran n f).mem = s.mem := rfl
@[simp] theorem updGran_poison (s : State) (n : Nat) (f : Granule → Granule) : (s.updGran n f).poison = s.poison := rfl
@[simp] theorem updGran_l2 (s : State) (n : Nat) (f : Granule → Granule) : (s.updGran n f).l2 = s.l2 := rfl
@[simp] theorem updGran_walks (s : State) (n : Nat) (f : Granule → Granule) : (s.updGran n f).walks = s.walks := rfl
@[simp] theorem updGran_masks (s : State) (n : Nat) (f : Granule → Granule) : (s.updGran n f).masks = s.masks := rfl
@[simp] theorem updGran_mixed (s : State) (n : Nat) (f : Granule → Granule) : (s.updGran n f).mixed = s.mixed := rfl
@[simp] theorem updGran_walked (s : State) (n : Nat) (f : Granule → Granule) : (s.updGran n f).walked = s.walked := rfl
@[simp] theorem updGran_barLines (s : State) (n : Nat) (f : Granule → Granule) : (s.updGran n f).barLines = s.barLines := rfl
@[simp] theorem updGran_prq (s : State) (n : Nat) (f : Granule → Granule) : (s.updGran n f).prq = s.prq := rfl
@[simp] theorem updGran_prqWait (s : State) (n : Nat) (f : Granule → Granule) : (s.updGran n f).prqWait = s.prqWait := rfl
@[simp] theorem updGran_prqFailed (s : State) (n : Nat) (f : Granule → Granule) : (s.updGran n f).prqFailed = s.prqFailed := rfl
@[simp] theorem updGran_migs (s : State) (n : Nat) (f : Granule → Granule) : (s.updGran n f).migs = s.migs := rfl
@[simp] theorem updGran_vfs (s : State) (n : Nat) (f : Granule → Granule) : (s.updGran n f).vfs = s.vfs := rfl
@[simp] theorem updGran_pcmdStat (s : State) (n : Nat) (f : Granule → Granule) : (s.updGran n f).pcmdStat = s.pcmdStat := rfl
@[simp] theorem updGran_pcmdOp (s : State) (n : Nat) (f : Granule → Granule) : (s.updGran n f).pcmdOp = s.pcmdOp := rfl
@[simp] theorem updGran_pcmdNum (s : State) (n : Nat) (f : Granule → Granule) : (s.updGran n f).pcmdNum = s.pcmdNum := rfl
@[simp] theorem updGran_pcmdFirst (s : State) (n : Nat) (f : Granule → Granule) : (s.updGran n f).pcmdFirst = s.pcmdFirst := rfl
@[simp] theorem updGran_pcmdJob (s : State) (n : Nat) (f : Granule → Granule) : (s.updGran n f).pcmdJob = s.pcmdJob := rfl
@[simp] theorem updGran_cmbase (s : State) (n : Nat) (f : Granule → Granule) : (s.updGran n f).cmbase = s.cmbase := rfl
@[simp] theorem updGran_sewin (s : State) (n : Nat) (f : Granule → Granule) : (s.updGran n f).sewin = s.sewin := rfl
@[simp] theorem updGran_sethr (s : State) (n : Nat) (f : Granule → Granule) : (s.updGran n f).sethr = s.sethr := rfl
@[simp] theorem updGran_pkpow (s : State) (n : Nat) (f : Granule → Granule) : (s.updGran n f).pkpow = s.pkpow := rfl
@[simp] theorem updGran_pfRws (s : State) (n : Nat) (f : Granule → Granule) : (s.updGran n f).pfRws = s.pfRws := rfl
@[simp] theorem updGran_pfIrq (s : State) (n : Nat) (f : Granule → Granule) : (s.updGran n f).pfIrq = s.pfIrq := rfl
@[simp] theorem updGran_pfConfig (s : State) (n : Nat) (f : Granule → Granule) : (s.updGran n f).pfConfig = s.pfConfig := rfl
@[simp] theorem updGran_pfMsix (s : State) (n : Nat) (f : Granule → Granule) : (s.updGran n f).pfMsix = s.pfMsix := rfl
@[simp] theorem updGran_rails (s : State) (n : Nat) (f : Granule → Granule) : (s.updGran n f).rails = s.rails := rfl
@[simp] theorem updGran_loans (s : State) (n : Nat) (f : Granule → Granule) : (s.updGran n f).loans = s.loans := rfl
@[simp] theorem updGran_links (s : State) (n : Nat) (f : Granule → Granule) : (s.updGran n f).links = s.links := rfl
@[simp] theorem updGran_incoming (s : State) (n : Nat) (f : Granule → Granule) : (s.updGran n f).incoming = s.incoming := rfl
@[simp] theorem updGran_mbResult (s : State) (n : Nat) (f : Granule → Granule) : (s.updGran n f).mbResult = s.mbResult := rfl
@[simp] theorem updGran_mbBusy (s : State) (n : Nat) (f : Granule → Granule) : (s.updGran n f).mbBusy = s.mbBusy := rfl
@[simp] theorem updGran_mbPending (s : State) (n : Nat) (f : Granule → Granule) : (s.updGran n f).mbPending = s.mbPending := rfl
@[simp] theorem updGran_mbCmd (s : State) (n : Nat) (f : Granule → Granule) : (s.updGran n f).mbCmd = s.mbCmd := rfl
@[simp] theorem updGran_mbAddr (s : State) (n : Nat) (f : Granule → Granule) : (s.updGran n f).mbAddr = s.mbAddr := rfl
@[simp] theorem updGran_mbLen (s : State) (n : Nat) (f : Granule → Granule) : (s.updGran n f).mbLen = s.mbLen := rfl
@[simp] theorem updGran_meas (s : State) (n : Nat) (f : Granule → Granule) : (s.updGran n f).meas = s.meas := rfl
@[simp] theorem updGran_svcount (s : State) (n : Nat) (f : Granule → Granule) : (s.updGran n f).svcount = s.svcount := rfl
@[simp] theorem updGran_runningSvn (s : State) (n : Nat) (f : Granule → Granule) : (s.updGran n f).runningSvn = s.runningSvn := rfl
@[simp] theorem updGran_flash (s : State) (n : Nat) (f : Granule → Granule) : (s.updGran n f).flash = s.flash := rfl
@[simp] theorem updGran_journal (s : State) (n : Nat) (f : Granule → Granule) : (s.updGran n f).journal = s.journal := rfl
@[simp] theorem updGran_alt (s : State) (n : Nat) (f : Granule → Granule) : (s.updGran n f).alt = s.alt := rfl
@[simp] theorem updGran_bootStep (s : State) (n : Nat) (f : Granule → Granule) : (s.updGran n f).bootStep = s.bootStep := rfl
@[simp] theorem updGran_bootDone (s : State) (n : Nat) (f : Granule → Granule) : (s.updGran n f).bootDone = s.bootDone := rfl
@[simp] theorem updGran_bootRuns (s : State) (n : Nat) (f : Granule → Granule) : (s.updGran n f).bootRuns = s.bootRuns := rfl
@[simp] theorem updGran_identity (s : State) (n : Nat) (f : Granule → Granule) : (s.updGran n f).identity = s.identity := rfl
@[simp] theorem updGran_lpddr (s : State) (n : Nat) (f : Granule → Granule) : (s.updGran n f).lpddr = s.lpddr := rfl
@[simp] theorem updGran_bootStopped (s : State) (n : Nat) (f : Granule → Granule) : (s.updGran n f).bootStopped = s.bootStopped := rfl
@[simp] theorem updGran_bootCount (s : State) (n : Nat) (f : Granule → Granule) : (s.updGran n f).bootCount = s.bootCount := rfl
@[simp] theorem updGran_errCounts (s : State) (n : Nat) (f : Granule → Granule) : (s.updGran n f).errCounts = s.errCounts := rfl
@[simp] theorem updGran_retired (s : State) (n : Nat) (f : Granule → Granule) : (s.updGran n f).retired = s.retired := rfl
@[simp] theorem updGran_noSpare (s : State) (n : Nat) (f : Granule → Granule) : (s.updGran n f).noSpare = s.noSpare := rfl
@[simp] theorem updGran_packageFault (s : State) (n : Nat) (f : Granule → Granule) : (s.updGran n f).packageFault = s.packageFault := rfl
@[simp] theorem updGran_port (s : State) (n : Nat) (f : Granule → Granule) : (s.updGran n f).port = s.port := rfl
@[simp] theorem updGran_tape (s : State) (n : Nat) (f : Granule → Granule) : (s.updGran n f).tape = s.tape := rfl
@[simp] theorem updGran_steps (s : State) (n : Nat) (f : Granule → Granule) : (s.updGran n f).steps = s.steps := rfl
@[simp] theorem updGran_kept (s : State) (n : Nat) (f : Granule → Granule) : (s.updGran n f).kept = s.kept := rfl

/-! ### `updCluster` -/

@[simp] theorem updCluster_cur (s : State) (n : Nat) (f : Cluster → Cluster) : (s.updCluster n f).cur = s.cur := rfl
@[simp] theorem updCluster_groups (s : State) (n : Nat) (f : Cluster → Cluster) : (s.updCluster n f).groups = s.groups := rfl
@[simp] theorem updCluster_savedGroups (s : State) (n : Nat) (f : Cluster → Cluster) : (s.updCluster n f).savedGroups = s.savedGroups := rfl
@[simp] theorem updCluster_wgs (s : State) (n : Nat) (f : Cluster → Cluster) : (s.updCluster n f).wgs = s.wgs := rfl
@[simp] theorem updCluster_savedWgs (s : State) (n : Nat) (f : Cluster → Cluster) : (s.updCluster n f).savedWgs = s.savedWgs := rfl
@[simp] theorem updCluster_gangs (s : State) (n : Nat) (f : Cluster → Cluster) : (s.updCluster n f).gangs = s.gangs := rfl
@[simp] theorem updCluster_launches (s : State) (n : Nat) (f : Cluster → Cluster) : (s.updCluster n f).launches = s.launches := rfl
@[simp] theorem updCluster_nextKey (s : State) (n : Nat) (f : Cluster → Cluster) : (s.updCluster n f).nextKey = s.nextKey := rfl
@[simp] theorem updCluster_cores (s : State) (n : Nat) (f : Cluster → Cluster) : (s.updCluster n f).cores = s.cores := rfl
@[simp] theorem updCluster_mem (s : State) (n : Nat) (f : Cluster → Cluster) : (s.updCluster n f).mem = s.mem := rfl
@[simp] theorem updCluster_poison (s : State) (n : Nat) (f : Cluster → Cluster) : (s.updCluster n f).poison = s.poison := rfl
@[simp] theorem updCluster_l2 (s : State) (n : Nat) (f : Cluster → Cluster) : (s.updCluster n f).l2 = s.l2 := rfl
@[simp] theorem updCluster_walks (s : State) (n : Nat) (f : Cluster → Cluster) : (s.updCluster n f).walks = s.walks := rfl
@[simp] theorem updCluster_masks (s : State) (n : Nat) (f : Cluster → Cluster) : (s.updCluster n f).masks = s.masks := rfl
@[simp] theorem updCluster_mixed (s : State) (n : Nat) (f : Cluster → Cluster) : (s.updCluster n f).mixed = s.mixed := rfl
@[simp] theorem updCluster_walked (s : State) (n : Nat) (f : Cluster → Cluster) : (s.updCluster n f).walked = s.walked := rfl
@[simp] theorem updCluster_barLines (s : State) (n : Nat) (f : Cluster → Cluster) : (s.updCluster n f).barLines = s.barLines := rfl
@[simp] theorem updCluster_prq (s : State) (n : Nat) (f : Cluster → Cluster) : (s.updCluster n f).prq = s.prq := rfl
@[simp] theorem updCluster_prqWait (s : State) (n : Nat) (f : Cluster → Cluster) : (s.updCluster n f).prqWait = s.prqWait := rfl
@[simp] theorem updCluster_prqFailed (s : State) (n : Nat) (f : Cluster → Cluster) : (s.updCluster n f).prqFailed = s.prqFailed := rfl
@[simp] theorem updCluster_migs (s : State) (n : Nat) (f : Cluster → Cluster) : (s.updCluster n f).migs = s.migs := rfl
@[simp] theorem updCluster_vfs (s : State) (n : Nat) (f : Cluster → Cluster) : (s.updCluster n f).vfs = s.vfs := rfl
@[simp] theorem updCluster_grans (s : State) (n : Nat) (f : Cluster → Cluster) : (s.updCluster n f).grans = s.grans := rfl
@[simp] theorem updCluster_pcmdStat (s : State) (n : Nat) (f : Cluster → Cluster) : (s.updCluster n f).pcmdStat = s.pcmdStat := rfl
@[simp] theorem updCluster_pcmdOp (s : State) (n : Nat) (f : Cluster → Cluster) : (s.updCluster n f).pcmdOp = s.pcmdOp := rfl
@[simp] theorem updCluster_pcmdNum (s : State) (n : Nat) (f : Cluster → Cluster) : (s.updCluster n f).pcmdNum = s.pcmdNum := rfl
@[simp] theorem updCluster_pcmdFirst (s : State) (n : Nat) (f : Cluster → Cluster) : (s.updCluster n f).pcmdFirst = s.pcmdFirst := rfl
@[simp] theorem updCluster_pcmdJob (s : State) (n : Nat) (f : Cluster → Cluster) : (s.updCluster n f).pcmdJob = s.pcmdJob := rfl
@[simp] theorem updCluster_cmbase (s : State) (n : Nat) (f : Cluster → Cluster) : (s.updCluster n f).cmbase = s.cmbase := rfl
@[simp] theorem updCluster_sewin (s : State) (n : Nat) (f : Cluster → Cluster) : (s.updCluster n f).sewin = s.sewin := rfl
@[simp] theorem updCluster_sethr (s : State) (n : Nat) (f : Cluster → Cluster) : (s.updCluster n f).sethr = s.sethr := rfl
@[simp] theorem updCluster_pkpow (s : State) (n : Nat) (f : Cluster → Cluster) : (s.updCluster n f).pkpow = s.pkpow := rfl
@[simp] theorem updCluster_pfRws (s : State) (n : Nat) (f : Cluster → Cluster) : (s.updCluster n f).pfRws = s.pfRws := rfl
@[simp] theorem updCluster_pfIrq (s : State) (n : Nat) (f : Cluster → Cluster) : (s.updCluster n f).pfIrq = s.pfIrq := rfl
@[simp] theorem updCluster_pfConfig (s : State) (n : Nat) (f : Cluster → Cluster) : (s.updCluster n f).pfConfig = s.pfConfig := rfl
@[simp] theorem updCluster_pfMsix (s : State) (n : Nat) (f : Cluster → Cluster) : (s.updCluster n f).pfMsix = s.pfMsix := rfl
@[simp] theorem updCluster_rails (s : State) (n : Nat) (f : Cluster → Cluster) : (s.updCluster n f).rails = s.rails := rfl
@[simp] theorem updCluster_loans (s : State) (n : Nat) (f : Cluster → Cluster) : (s.updCluster n f).loans = s.loans := rfl
@[simp] theorem updCluster_links (s : State) (n : Nat) (f : Cluster → Cluster) : (s.updCluster n f).links = s.links := rfl
@[simp] theorem updCluster_incoming (s : State) (n : Nat) (f : Cluster → Cluster) : (s.updCluster n f).incoming = s.incoming := rfl
@[simp] theorem updCluster_mbResult (s : State) (n : Nat) (f : Cluster → Cluster) : (s.updCluster n f).mbResult = s.mbResult := rfl
@[simp] theorem updCluster_mbBusy (s : State) (n : Nat) (f : Cluster → Cluster) : (s.updCluster n f).mbBusy = s.mbBusy := rfl
@[simp] theorem updCluster_mbPending (s : State) (n : Nat) (f : Cluster → Cluster) : (s.updCluster n f).mbPending = s.mbPending := rfl
@[simp] theorem updCluster_mbCmd (s : State) (n : Nat) (f : Cluster → Cluster) : (s.updCluster n f).mbCmd = s.mbCmd := rfl
@[simp] theorem updCluster_mbAddr (s : State) (n : Nat) (f : Cluster → Cluster) : (s.updCluster n f).mbAddr = s.mbAddr := rfl
@[simp] theorem updCluster_mbLen (s : State) (n : Nat) (f : Cluster → Cluster) : (s.updCluster n f).mbLen = s.mbLen := rfl
@[simp] theorem updCluster_meas (s : State) (n : Nat) (f : Cluster → Cluster) : (s.updCluster n f).meas = s.meas := rfl
@[simp] theorem updCluster_svcount (s : State) (n : Nat) (f : Cluster → Cluster) : (s.updCluster n f).svcount = s.svcount := rfl
@[simp] theorem updCluster_runningSvn (s : State) (n : Nat) (f : Cluster → Cluster) : (s.updCluster n f).runningSvn = s.runningSvn := rfl
@[simp] theorem updCluster_flash (s : State) (n : Nat) (f : Cluster → Cluster) : (s.updCluster n f).flash = s.flash := rfl
@[simp] theorem updCluster_journal (s : State) (n : Nat) (f : Cluster → Cluster) : (s.updCluster n f).journal = s.journal := rfl
@[simp] theorem updCluster_alt (s : State) (n : Nat) (f : Cluster → Cluster) : (s.updCluster n f).alt = s.alt := rfl
@[simp] theorem updCluster_bootStep (s : State) (n : Nat) (f : Cluster → Cluster) : (s.updCluster n f).bootStep = s.bootStep := rfl
@[simp] theorem updCluster_bootDone (s : State) (n : Nat) (f : Cluster → Cluster) : (s.updCluster n f).bootDone = s.bootDone := rfl
@[simp] theorem updCluster_bootRuns (s : State) (n : Nat) (f : Cluster → Cluster) : (s.updCluster n f).bootRuns = s.bootRuns := rfl
@[simp] theorem updCluster_identity (s : State) (n : Nat) (f : Cluster → Cluster) : (s.updCluster n f).identity = s.identity := rfl
@[simp] theorem updCluster_lpddr (s : State) (n : Nat) (f : Cluster → Cluster) : (s.updCluster n f).lpddr = s.lpddr := rfl
@[simp] theorem updCluster_bootStopped (s : State) (n : Nat) (f : Cluster → Cluster) : (s.updCluster n f).bootStopped = s.bootStopped := rfl
@[simp] theorem updCluster_bootCount (s : State) (n : Nat) (f : Cluster → Cluster) : (s.updCluster n f).bootCount = s.bootCount := rfl
@[simp] theorem updCluster_errCounts (s : State) (n : Nat) (f : Cluster → Cluster) : (s.updCluster n f).errCounts = s.errCounts := rfl
@[simp] theorem updCluster_retired (s : State) (n : Nat) (f : Cluster → Cluster) : (s.updCluster n f).retired = s.retired := rfl
@[simp] theorem updCluster_noSpare (s : State) (n : Nat) (f : Cluster → Cluster) : (s.updCluster n f).noSpare = s.noSpare := rfl
@[simp] theorem updCluster_packageFault (s : State) (n : Nat) (f : Cluster → Cluster) : (s.updCluster n f).packageFault = s.packageFault := rfl
@[simp] theorem updCluster_port (s : State) (n : Nat) (f : Cluster → Cluster) : (s.updCluster n f).port = s.port := rfl
@[simp] theorem updCluster_tape (s : State) (n : Nat) (f : Cluster → Cluster) : (s.updCluster n f).tape = s.tape := rfl
@[simp] theorem updCluster_steps (s : State) (n : Nat) (f : Cluster → Cluster) : (s.updCluster n f).steps = s.steps := rfl
@[simp] theorem updCluster_kept (s : State) (n : Nat) (f : Cluster → Cluster) : (s.updCluster n f).kept = s.kept := rfl

/-! ### `updCore` -/

@[simp] theorem updCore_cur (s : State) (n : Nat) (f : Core → Core) : (s.updCore n f).cur = s.cur := rfl
@[simp] theorem updCore_groups (s : State) (n : Nat) (f : Core → Core) : (s.updCore n f).groups = s.groups := rfl
@[simp] theorem updCore_savedGroups (s : State) (n : Nat) (f : Core → Core) : (s.updCore n f).savedGroups = s.savedGroups := rfl
@[simp] theorem updCore_wgs (s : State) (n : Nat) (f : Core → Core) : (s.updCore n f).wgs = s.wgs := rfl
@[simp] theorem updCore_savedWgs (s : State) (n : Nat) (f : Core → Core) : (s.updCore n f).savedWgs = s.savedWgs := rfl
@[simp] theorem updCore_gangs (s : State) (n : Nat) (f : Core → Core) : (s.updCore n f).gangs = s.gangs := rfl
@[simp] theorem updCore_launches (s : State) (n : Nat) (f : Core → Core) : (s.updCore n f).launches = s.launches := rfl
@[simp] theorem updCore_nextKey (s : State) (n : Nat) (f : Core → Core) : (s.updCore n f).nextKey = s.nextKey := rfl
@[simp] theorem updCore_clusters (s : State) (n : Nat) (f : Core → Core) : (s.updCore n f).clusters = s.clusters := rfl
@[simp] theorem updCore_mem (s : State) (n : Nat) (f : Core → Core) : (s.updCore n f).mem = s.mem := rfl
@[simp] theorem updCore_poison (s : State) (n : Nat) (f : Core → Core) : (s.updCore n f).poison = s.poison := rfl
@[simp] theorem updCore_l2 (s : State) (n : Nat) (f : Core → Core) : (s.updCore n f).l2 = s.l2 := rfl
@[simp] theorem updCore_walks (s : State) (n : Nat) (f : Core → Core) : (s.updCore n f).walks = s.walks := rfl
@[simp] theorem updCore_masks (s : State) (n : Nat) (f : Core → Core) : (s.updCore n f).masks = s.masks := rfl
@[simp] theorem updCore_mixed (s : State) (n : Nat) (f : Core → Core) : (s.updCore n f).mixed = s.mixed := rfl
@[simp] theorem updCore_walked (s : State) (n : Nat) (f : Core → Core) : (s.updCore n f).walked = s.walked := rfl
@[simp] theorem updCore_barLines (s : State) (n : Nat) (f : Core → Core) : (s.updCore n f).barLines = s.barLines := rfl
@[simp] theorem updCore_prq (s : State) (n : Nat) (f : Core → Core) : (s.updCore n f).prq = s.prq := rfl
@[simp] theorem updCore_prqWait (s : State) (n : Nat) (f : Core → Core) : (s.updCore n f).prqWait = s.prqWait := rfl
@[simp] theorem updCore_prqFailed (s : State) (n : Nat) (f : Core → Core) : (s.updCore n f).prqFailed = s.prqFailed := rfl
@[simp] theorem updCore_migs (s : State) (n : Nat) (f : Core → Core) : (s.updCore n f).migs = s.migs := rfl
@[simp] theorem updCore_vfs (s : State) (n : Nat) (f : Core → Core) : (s.updCore n f).vfs = s.vfs := rfl
@[simp] theorem updCore_grans (s : State) (n : Nat) (f : Core → Core) : (s.updCore n f).grans = s.grans := rfl
@[simp] theorem updCore_pcmdStat (s : State) (n : Nat) (f : Core → Core) : (s.updCore n f).pcmdStat = s.pcmdStat := rfl
@[simp] theorem updCore_pcmdOp (s : State) (n : Nat) (f : Core → Core) : (s.updCore n f).pcmdOp = s.pcmdOp := rfl
@[simp] theorem updCore_pcmdNum (s : State) (n : Nat) (f : Core → Core) : (s.updCore n f).pcmdNum = s.pcmdNum := rfl
@[simp] theorem updCore_pcmdFirst (s : State) (n : Nat) (f : Core → Core) : (s.updCore n f).pcmdFirst = s.pcmdFirst := rfl
@[simp] theorem updCore_pcmdJob (s : State) (n : Nat) (f : Core → Core) : (s.updCore n f).pcmdJob = s.pcmdJob := rfl
@[simp] theorem updCore_cmbase (s : State) (n : Nat) (f : Core → Core) : (s.updCore n f).cmbase = s.cmbase := rfl
@[simp] theorem updCore_sewin (s : State) (n : Nat) (f : Core → Core) : (s.updCore n f).sewin = s.sewin := rfl
@[simp] theorem updCore_sethr (s : State) (n : Nat) (f : Core → Core) : (s.updCore n f).sethr = s.sethr := rfl
@[simp] theorem updCore_pkpow (s : State) (n : Nat) (f : Core → Core) : (s.updCore n f).pkpow = s.pkpow := rfl
@[simp] theorem updCore_pfRws (s : State) (n : Nat) (f : Core → Core) : (s.updCore n f).pfRws = s.pfRws := rfl
@[simp] theorem updCore_pfIrq (s : State) (n : Nat) (f : Core → Core) : (s.updCore n f).pfIrq = s.pfIrq := rfl
@[simp] theorem updCore_pfConfig (s : State) (n : Nat) (f : Core → Core) : (s.updCore n f).pfConfig = s.pfConfig := rfl
@[simp] theorem updCore_pfMsix (s : State) (n : Nat) (f : Core → Core) : (s.updCore n f).pfMsix = s.pfMsix := rfl
@[simp] theorem updCore_rails (s : State) (n : Nat) (f : Core → Core) : (s.updCore n f).rails = s.rails := rfl
@[simp] theorem updCore_loans (s : State) (n : Nat) (f : Core → Core) : (s.updCore n f).loans = s.loans := rfl
@[simp] theorem updCore_links (s : State) (n : Nat) (f : Core → Core) : (s.updCore n f).links = s.links := rfl
@[simp] theorem updCore_incoming (s : State) (n : Nat) (f : Core → Core) : (s.updCore n f).incoming = s.incoming := rfl
@[simp] theorem updCore_mbResult (s : State) (n : Nat) (f : Core → Core) : (s.updCore n f).mbResult = s.mbResult := rfl
@[simp] theorem updCore_mbBusy (s : State) (n : Nat) (f : Core → Core) : (s.updCore n f).mbBusy = s.mbBusy := rfl
@[simp] theorem updCore_mbPending (s : State) (n : Nat) (f : Core → Core) : (s.updCore n f).mbPending = s.mbPending := rfl
@[simp] theorem updCore_mbCmd (s : State) (n : Nat) (f : Core → Core) : (s.updCore n f).mbCmd = s.mbCmd := rfl
@[simp] theorem updCore_mbAddr (s : State) (n : Nat) (f : Core → Core) : (s.updCore n f).mbAddr = s.mbAddr := rfl
@[simp] theorem updCore_mbLen (s : State) (n : Nat) (f : Core → Core) : (s.updCore n f).mbLen = s.mbLen := rfl
@[simp] theorem updCore_meas (s : State) (n : Nat) (f : Core → Core) : (s.updCore n f).meas = s.meas := rfl
@[simp] theorem updCore_svcount (s : State) (n : Nat) (f : Core → Core) : (s.updCore n f).svcount = s.svcount := rfl
@[simp] theorem updCore_runningSvn (s : State) (n : Nat) (f : Core → Core) : (s.updCore n f).runningSvn = s.runningSvn := rfl
@[simp] theorem updCore_flash (s : State) (n : Nat) (f : Core → Core) : (s.updCore n f).flash = s.flash := rfl
@[simp] theorem updCore_journal (s : State) (n : Nat) (f : Core → Core) : (s.updCore n f).journal = s.journal := rfl
@[simp] theorem updCore_alt (s : State) (n : Nat) (f : Core → Core) : (s.updCore n f).alt = s.alt := rfl
@[simp] theorem updCore_bootStep (s : State) (n : Nat) (f : Core → Core) : (s.updCore n f).bootStep = s.bootStep := rfl
@[simp] theorem updCore_bootDone (s : State) (n : Nat) (f : Core → Core) : (s.updCore n f).bootDone = s.bootDone := rfl
@[simp] theorem updCore_bootRuns (s : State) (n : Nat) (f : Core → Core) : (s.updCore n f).bootRuns = s.bootRuns := rfl
@[simp] theorem updCore_identity (s : State) (n : Nat) (f : Core → Core) : (s.updCore n f).identity = s.identity := rfl
@[simp] theorem updCore_lpddr (s : State) (n : Nat) (f : Core → Core) : (s.updCore n f).lpddr = s.lpddr := rfl
@[simp] theorem updCore_bootStopped (s : State) (n : Nat) (f : Core → Core) : (s.updCore n f).bootStopped = s.bootStopped := rfl
@[simp] theorem updCore_bootCount (s : State) (n : Nat) (f : Core → Core) : (s.updCore n f).bootCount = s.bootCount := rfl
@[simp] theorem updCore_errCounts (s : State) (n : Nat) (f : Core → Core) : (s.updCore n f).errCounts = s.errCounts := rfl
@[simp] theorem updCore_retired (s : State) (n : Nat) (f : Core → Core) : (s.updCore n f).retired = s.retired := rfl
@[simp] theorem updCore_noSpare (s : State) (n : Nat) (f : Core → Core) : (s.updCore n f).noSpare = s.noSpare := rfl
@[simp] theorem updCore_packageFault (s : State) (n : Nat) (f : Core → Core) : (s.updCore n f).packageFault = s.packageFault := rfl
@[simp] theorem updCore_port (s : State) (n : Nat) (f : Core → Core) : (s.updCore n f).port = s.port := rfl
@[simp] theorem updCore_tape (s : State) (n : Nat) (f : Core → Core) : (s.updCore n f).tape = s.tape := rfl
@[simp] theorem updCore_steps (s : State) (n : Nat) (f : Core → Core) : (s.updCore n f).steps = s.steps := rfl
@[simp] theorem updCore_kept (s : State) (n : Nat) (f : Core → Core) : (s.updCore n f).kept = s.kept := rfl

/-! ### `updLink` -/

@[simp] theorem updLink_cur (s : State) (n : Nat) (f : Link → Link) : (s.updLink n f).cur = s.cur := rfl
@[simp] theorem updLink_groups (s : State) (n : Nat) (f : Link → Link) : (s.updLink n f).groups = s.groups := rfl
@[simp] theorem updLink_savedGroups (s : State) (n : Nat) (f : Link → Link) : (s.updLink n f).savedGroups = s.savedGroups := rfl
@[simp] theorem updLink_wgs (s : State) (n : Nat) (f : Link → Link) : (s.updLink n f).wgs = s.wgs := rfl
@[simp] theorem updLink_savedWgs (s : State) (n : Nat) (f : Link → Link) : (s.updLink n f).savedWgs = s.savedWgs := rfl
@[simp] theorem updLink_gangs (s : State) (n : Nat) (f : Link → Link) : (s.updLink n f).gangs = s.gangs := rfl
@[simp] theorem updLink_launches (s : State) (n : Nat) (f : Link → Link) : (s.updLink n f).launches = s.launches := rfl
@[simp] theorem updLink_nextKey (s : State) (n : Nat) (f : Link → Link) : (s.updLink n f).nextKey = s.nextKey := rfl
@[simp] theorem updLink_clusters (s : State) (n : Nat) (f : Link → Link) : (s.updLink n f).clusters = s.clusters := rfl
@[simp] theorem updLink_cores (s : State) (n : Nat) (f : Link → Link) : (s.updLink n f).cores = s.cores := rfl
@[simp] theorem updLink_mem (s : State) (n : Nat) (f : Link → Link) : (s.updLink n f).mem = s.mem := rfl
@[simp] theorem updLink_poison (s : State) (n : Nat) (f : Link → Link) : (s.updLink n f).poison = s.poison := rfl
@[simp] theorem updLink_l2 (s : State) (n : Nat) (f : Link → Link) : (s.updLink n f).l2 = s.l2 := rfl
@[simp] theorem updLink_walks (s : State) (n : Nat) (f : Link → Link) : (s.updLink n f).walks = s.walks := rfl
@[simp] theorem updLink_masks (s : State) (n : Nat) (f : Link → Link) : (s.updLink n f).masks = s.masks := rfl
@[simp] theorem updLink_mixed (s : State) (n : Nat) (f : Link → Link) : (s.updLink n f).mixed = s.mixed := rfl
@[simp] theorem updLink_walked (s : State) (n : Nat) (f : Link → Link) : (s.updLink n f).walked = s.walked := rfl
@[simp] theorem updLink_barLines (s : State) (n : Nat) (f : Link → Link) : (s.updLink n f).barLines = s.barLines := rfl
@[simp] theorem updLink_prq (s : State) (n : Nat) (f : Link → Link) : (s.updLink n f).prq = s.prq := rfl
@[simp] theorem updLink_prqWait (s : State) (n : Nat) (f : Link → Link) : (s.updLink n f).prqWait = s.prqWait := rfl
@[simp] theorem updLink_prqFailed (s : State) (n : Nat) (f : Link → Link) : (s.updLink n f).prqFailed = s.prqFailed := rfl
@[simp] theorem updLink_migs (s : State) (n : Nat) (f : Link → Link) : (s.updLink n f).migs = s.migs := rfl
@[simp] theorem updLink_vfs (s : State) (n : Nat) (f : Link → Link) : (s.updLink n f).vfs = s.vfs := rfl
@[simp] theorem updLink_grans (s : State) (n : Nat) (f : Link → Link) : (s.updLink n f).grans = s.grans := rfl
@[simp] theorem updLink_pcmdStat (s : State) (n : Nat) (f : Link → Link) : (s.updLink n f).pcmdStat = s.pcmdStat := rfl
@[simp] theorem updLink_pcmdOp (s : State) (n : Nat) (f : Link → Link) : (s.updLink n f).pcmdOp = s.pcmdOp := rfl
@[simp] theorem updLink_pcmdNum (s : State) (n : Nat) (f : Link → Link) : (s.updLink n f).pcmdNum = s.pcmdNum := rfl
@[simp] theorem updLink_pcmdFirst (s : State) (n : Nat) (f : Link → Link) : (s.updLink n f).pcmdFirst = s.pcmdFirst := rfl
@[simp] theorem updLink_pcmdJob (s : State) (n : Nat) (f : Link → Link) : (s.updLink n f).pcmdJob = s.pcmdJob := rfl
@[simp] theorem updLink_cmbase (s : State) (n : Nat) (f : Link → Link) : (s.updLink n f).cmbase = s.cmbase := rfl
@[simp] theorem updLink_sewin (s : State) (n : Nat) (f : Link → Link) : (s.updLink n f).sewin = s.sewin := rfl
@[simp] theorem updLink_sethr (s : State) (n : Nat) (f : Link → Link) : (s.updLink n f).sethr = s.sethr := rfl
@[simp] theorem updLink_pkpow (s : State) (n : Nat) (f : Link → Link) : (s.updLink n f).pkpow = s.pkpow := rfl
@[simp] theorem updLink_pfRws (s : State) (n : Nat) (f : Link → Link) : (s.updLink n f).pfRws = s.pfRws := rfl
@[simp] theorem updLink_pfIrq (s : State) (n : Nat) (f : Link → Link) : (s.updLink n f).pfIrq = s.pfIrq := rfl
@[simp] theorem updLink_pfConfig (s : State) (n : Nat) (f : Link → Link) : (s.updLink n f).pfConfig = s.pfConfig := rfl
@[simp] theorem updLink_pfMsix (s : State) (n : Nat) (f : Link → Link) : (s.updLink n f).pfMsix = s.pfMsix := rfl
@[simp] theorem updLink_rails (s : State) (n : Nat) (f : Link → Link) : (s.updLink n f).rails = s.rails := rfl
@[simp] theorem updLink_loans (s : State) (n : Nat) (f : Link → Link) : (s.updLink n f).loans = s.loans := rfl
@[simp] theorem updLink_incoming (s : State) (n : Nat) (f : Link → Link) : (s.updLink n f).incoming = s.incoming := rfl
@[simp] theorem updLink_mbResult (s : State) (n : Nat) (f : Link → Link) : (s.updLink n f).mbResult = s.mbResult := rfl
@[simp] theorem updLink_mbBusy (s : State) (n : Nat) (f : Link → Link) : (s.updLink n f).mbBusy = s.mbBusy := rfl
@[simp] theorem updLink_mbPending (s : State) (n : Nat) (f : Link → Link) : (s.updLink n f).mbPending = s.mbPending := rfl
@[simp] theorem updLink_mbCmd (s : State) (n : Nat) (f : Link → Link) : (s.updLink n f).mbCmd = s.mbCmd := rfl
@[simp] theorem updLink_mbAddr (s : State) (n : Nat) (f : Link → Link) : (s.updLink n f).mbAddr = s.mbAddr := rfl
@[simp] theorem updLink_mbLen (s : State) (n : Nat) (f : Link → Link) : (s.updLink n f).mbLen = s.mbLen := rfl
@[simp] theorem updLink_meas (s : State) (n : Nat) (f : Link → Link) : (s.updLink n f).meas = s.meas := rfl
@[simp] theorem updLink_svcount (s : State) (n : Nat) (f : Link → Link) : (s.updLink n f).svcount = s.svcount := rfl
@[simp] theorem updLink_runningSvn (s : State) (n : Nat) (f : Link → Link) : (s.updLink n f).runningSvn = s.runningSvn := rfl
@[simp] theorem updLink_flash (s : State) (n : Nat) (f : Link → Link) : (s.updLink n f).flash = s.flash := rfl
@[simp] theorem updLink_journal (s : State) (n : Nat) (f : Link → Link) : (s.updLink n f).journal = s.journal := rfl
@[simp] theorem updLink_alt (s : State) (n : Nat) (f : Link → Link) : (s.updLink n f).alt = s.alt := rfl
@[simp] theorem updLink_bootStep (s : State) (n : Nat) (f : Link → Link) : (s.updLink n f).bootStep = s.bootStep := rfl
@[simp] theorem updLink_bootDone (s : State) (n : Nat) (f : Link → Link) : (s.updLink n f).bootDone = s.bootDone := rfl
@[simp] theorem updLink_bootRuns (s : State) (n : Nat) (f : Link → Link) : (s.updLink n f).bootRuns = s.bootRuns := rfl
@[simp] theorem updLink_identity (s : State) (n : Nat) (f : Link → Link) : (s.updLink n f).identity = s.identity := rfl
@[simp] theorem updLink_lpddr (s : State) (n : Nat) (f : Link → Link) : (s.updLink n f).lpddr = s.lpddr := rfl
@[simp] theorem updLink_bootStopped (s : State) (n : Nat) (f : Link → Link) : (s.updLink n f).bootStopped = s.bootStopped := rfl
@[simp] theorem updLink_bootCount (s : State) (n : Nat) (f : Link → Link) : (s.updLink n f).bootCount = s.bootCount := rfl
@[simp] theorem updLink_errCounts (s : State) (n : Nat) (f : Link → Link) : (s.updLink n f).errCounts = s.errCounts := rfl
@[simp] theorem updLink_retired (s : State) (n : Nat) (f : Link → Link) : (s.updLink n f).retired = s.retired := rfl
@[simp] theorem updLink_noSpare (s : State) (n : Nat) (f : Link → Link) : (s.updLink n f).noSpare = s.noSpare := rfl
@[simp] theorem updLink_packageFault (s : State) (n : Nat) (f : Link → Link) : (s.updLink n f).packageFault = s.packageFault := rfl
@[simp] theorem updLink_port (s : State) (n : Nat) (f : Link → Link) : (s.updLink n f).port = s.port := rfl
@[simp] theorem updLink_tape (s : State) (n : Nat) (f : Link → Link) : (s.updLink n f).tape = s.tape := rfl
@[simp] theorem updLink_steps (s : State) (n : Nat) (f : Link → Link) : (s.updLink n f).steps = s.steps := rfl
@[simp] theorem updLink_kept (s : State) (n : Nat) (f : Link → Link) : (s.updLink n f).kept = s.kept := rfl

/-! ### `updWg` -/

@[simp] theorem updWg_cur (s : State) (n : Nat) (f : Workgroup → Workgroup) : (s.updWg n f).cur = s.cur := rfl
@[simp] theorem updWg_groups (s : State) (n : Nat) (f : Workgroup → Workgroup) : (s.updWg n f).groups = s.groups := rfl
@[simp] theorem updWg_savedGroups (s : State) (n : Nat) (f : Workgroup → Workgroup) : (s.updWg n f).savedGroups = s.savedGroups := rfl
@[simp] theorem updWg_savedWgs (s : State) (n : Nat) (f : Workgroup → Workgroup) : (s.updWg n f).savedWgs = s.savedWgs := rfl
@[simp] theorem updWg_gangs (s : State) (n : Nat) (f : Workgroup → Workgroup) : (s.updWg n f).gangs = s.gangs := rfl
@[simp] theorem updWg_launches (s : State) (n : Nat) (f : Workgroup → Workgroup) : (s.updWg n f).launches = s.launches := rfl
@[simp] theorem updWg_nextKey (s : State) (n : Nat) (f : Workgroup → Workgroup) : (s.updWg n f).nextKey = s.nextKey := rfl
@[simp] theorem updWg_clusters (s : State) (n : Nat) (f : Workgroup → Workgroup) : (s.updWg n f).clusters = s.clusters := rfl
@[simp] theorem updWg_cores (s : State) (n : Nat) (f : Workgroup → Workgroup) : (s.updWg n f).cores = s.cores := rfl
@[simp] theorem updWg_mem (s : State) (n : Nat) (f : Workgroup → Workgroup) : (s.updWg n f).mem = s.mem := rfl
@[simp] theorem updWg_poison (s : State) (n : Nat) (f : Workgroup → Workgroup) : (s.updWg n f).poison = s.poison := rfl
@[simp] theorem updWg_l2 (s : State) (n : Nat) (f : Workgroup → Workgroup) : (s.updWg n f).l2 = s.l2 := rfl
@[simp] theorem updWg_walks (s : State) (n : Nat) (f : Workgroup → Workgroup) : (s.updWg n f).walks = s.walks := rfl
@[simp] theorem updWg_masks (s : State) (n : Nat) (f : Workgroup → Workgroup) : (s.updWg n f).masks = s.masks := rfl
@[simp] theorem updWg_mixed (s : State) (n : Nat) (f : Workgroup → Workgroup) : (s.updWg n f).mixed = s.mixed := rfl
@[simp] theorem updWg_walked (s : State) (n : Nat) (f : Workgroup → Workgroup) : (s.updWg n f).walked = s.walked := rfl
@[simp] theorem updWg_barLines (s : State) (n : Nat) (f : Workgroup → Workgroup) : (s.updWg n f).barLines = s.barLines := rfl
@[simp] theorem updWg_prq (s : State) (n : Nat) (f : Workgroup → Workgroup) : (s.updWg n f).prq = s.prq := rfl
@[simp] theorem updWg_prqWait (s : State) (n : Nat) (f : Workgroup → Workgroup) : (s.updWg n f).prqWait = s.prqWait := rfl
@[simp] theorem updWg_prqFailed (s : State) (n : Nat) (f : Workgroup → Workgroup) : (s.updWg n f).prqFailed = s.prqFailed := rfl
@[simp] theorem updWg_migs (s : State) (n : Nat) (f : Workgroup → Workgroup) : (s.updWg n f).migs = s.migs := rfl
@[simp] theorem updWg_vfs (s : State) (n : Nat) (f : Workgroup → Workgroup) : (s.updWg n f).vfs = s.vfs := rfl
@[simp] theorem updWg_grans (s : State) (n : Nat) (f : Workgroup → Workgroup) : (s.updWg n f).grans = s.grans := rfl
@[simp] theorem updWg_pcmdStat (s : State) (n : Nat) (f : Workgroup → Workgroup) : (s.updWg n f).pcmdStat = s.pcmdStat := rfl
@[simp] theorem updWg_pcmdOp (s : State) (n : Nat) (f : Workgroup → Workgroup) : (s.updWg n f).pcmdOp = s.pcmdOp := rfl
@[simp] theorem updWg_pcmdNum (s : State) (n : Nat) (f : Workgroup → Workgroup) : (s.updWg n f).pcmdNum = s.pcmdNum := rfl
@[simp] theorem updWg_pcmdFirst (s : State) (n : Nat) (f : Workgroup → Workgroup) : (s.updWg n f).pcmdFirst = s.pcmdFirst := rfl
@[simp] theorem updWg_pcmdJob (s : State) (n : Nat) (f : Workgroup → Workgroup) : (s.updWg n f).pcmdJob = s.pcmdJob := rfl
@[simp] theorem updWg_cmbase (s : State) (n : Nat) (f : Workgroup → Workgroup) : (s.updWg n f).cmbase = s.cmbase := rfl
@[simp] theorem updWg_sewin (s : State) (n : Nat) (f : Workgroup → Workgroup) : (s.updWg n f).sewin = s.sewin := rfl
@[simp] theorem updWg_sethr (s : State) (n : Nat) (f : Workgroup → Workgroup) : (s.updWg n f).sethr = s.sethr := rfl
@[simp] theorem updWg_pkpow (s : State) (n : Nat) (f : Workgroup → Workgroup) : (s.updWg n f).pkpow = s.pkpow := rfl
@[simp] theorem updWg_pfRws (s : State) (n : Nat) (f : Workgroup → Workgroup) : (s.updWg n f).pfRws = s.pfRws := rfl
@[simp] theorem updWg_pfIrq (s : State) (n : Nat) (f : Workgroup → Workgroup) : (s.updWg n f).pfIrq = s.pfIrq := rfl
@[simp] theorem updWg_pfConfig (s : State) (n : Nat) (f : Workgroup → Workgroup) : (s.updWg n f).pfConfig = s.pfConfig := rfl
@[simp] theorem updWg_pfMsix (s : State) (n : Nat) (f : Workgroup → Workgroup) : (s.updWg n f).pfMsix = s.pfMsix := rfl
@[simp] theorem updWg_rails (s : State) (n : Nat) (f : Workgroup → Workgroup) : (s.updWg n f).rails = s.rails := rfl
@[simp] theorem updWg_loans (s : State) (n : Nat) (f : Workgroup → Workgroup) : (s.updWg n f).loans = s.loans := rfl
@[simp] theorem updWg_links (s : State) (n : Nat) (f : Workgroup → Workgroup) : (s.updWg n f).links = s.links := rfl
@[simp] theorem updWg_incoming (s : State) (n : Nat) (f : Workgroup → Workgroup) : (s.updWg n f).incoming = s.incoming := rfl
@[simp] theorem updWg_mbResult (s : State) (n : Nat) (f : Workgroup → Workgroup) : (s.updWg n f).mbResult = s.mbResult := rfl
@[simp] theorem updWg_mbBusy (s : State) (n : Nat) (f : Workgroup → Workgroup) : (s.updWg n f).mbBusy = s.mbBusy := rfl
@[simp] theorem updWg_mbPending (s : State) (n : Nat) (f : Workgroup → Workgroup) : (s.updWg n f).mbPending = s.mbPending := rfl
@[simp] theorem updWg_mbCmd (s : State) (n : Nat) (f : Workgroup → Workgroup) : (s.updWg n f).mbCmd = s.mbCmd := rfl
@[simp] theorem updWg_mbAddr (s : State) (n : Nat) (f : Workgroup → Workgroup) : (s.updWg n f).mbAddr = s.mbAddr := rfl
@[simp] theorem updWg_mbLen (s : State) (n : Nat) (f : Workgroup → Workgroup) : (s.updWg n f).mbLen = s.mbLen := rfl
@[simp] theorem updWg_meas (s : State) (n : Nat) (f : Workgroup → Workgroup) : (s.updWg n f).meas = s.meas := rfl
@[simp] theorem updWg_svcount (s : State) (n : Nat) (f : Workgroup → Workgroup) : (s.updWg n f).svcount = s.svcount := rfl
@[simp] theorem updWg_runningSvn (s : State) (n : Nat) (f : Workgroup → Workgroup) : (s.updWg n f).runningSvn = s.runningSvn := rfl
@[simp] theorem updWg_flash (s : State) (n : Nat) (f : Workgroup → Workgroup) : (s.updWg n f).flash = s.flash := rfl
@[simp] theorem updWg_journal (s : State) (n : Nat) (f : Workgroup → Workgroup) : (s.updWg n f).journal = s.journal := rfl
@[simp] theorem updWg_alt (s : State) (n : Nat) (f : Workgroup → Workgroup) : (s.updWg n f).alt = s.alt := rfl
@[simp] theorem updWg_bootStep (s : State) (n : Nat) (f : Workgroup → Workgroup) : (s.updWg n f).bootStep = s.bootStep := rfl
@[simp] theorem updWg_bootDone (s : State) (n : Nat) (f : Workgroup → Workgroup) : (s.updWg n f).bootDone = s.bootDone := rfl
@[simp] theorem updWg_bootRuns (s : State) (n : Nat) (f : Workgroup → Workgroup) : (s.updWg n f).bootRuns = s.bootRuns := rfl
@[simp] theorem updWg_identity (s : State) (n : Nat) (f : Workgroup → Workgroup) : (s.updWg n f).identity = s.identity := rfl
@[simp] theorem updWg_lpddr (s : State) (n : Nat) (f : Workgroup → Workgroup) : (s.updWg n f).lpddr = s.lpddr := rfl
@[simp] theorem updWg_bootStopped (s : State) (n : Nat) (f : Workgroup → Workgroup) : (s.updWg n f).bootStopped = s.bootStopped := rfl
@[simp] theorem updWg_bootCount (s : State) (n : Nat) (f : Workgroup → Workgroup) : (s.updWg n f).bootCount = s.bootCount := rfl
@[simp] theorem updWg_errCounts (s : State) (n : Nat) (f : Workgroup → Workgroup) : (s.updWg n f).errCounts = s.errCounts := rfl
@[simp] theorem updWg_retired (s : State) (n : Nat) (f : Workgroup → Workgroup) : (s.updWg n f).retired = s.retired := rfl
@[simp] theorem updWg_noSpare (s : State) (n : Nat) (f : Workgroup → Workgroup) : (s.updWg n f).noSpare = s.noSpare := rfl
@[simp] theorem updWg_packageFault (s : State) (n : Nat) (f : Workgroup → Workgroup) : (s.updWg n f).packageFault = s.packageFault := rfl
@[simp] theorem updWg_port (s : State) (n : Nat) (f : Workgroup → Workgroup) : (s.updWg n f).port = s.port := rfl
@[simp] theorem updWg_tape (s : State) (n : Nat) (f : Workgroup → Workgroup) : (s.updWg n f).tape = s.tape := rfl
@[simp] theorem updWg_steps (s : State) (n : Nat) (f : Workgroup → Workgroup) : (s.updWg n f).steps = s.steps := rfl
@[simp] theorem updWg_kept (s : State) (n : Nat) (f : Workgroup → Workgroup) : (s.updWg n f).kept = s.kept := rfl

/-! ### `updGang` -/

@[simp] theorem updGang_cur (s : State) (n : Nat) (f : Gang → Gang) : (s.updGang n f).cur = s.cur := rfl
@[simp] theorem updGang_groups (s : State) (n : Nat) (f : Gang → Gang) : (s.updGang n f).groups = s.groups := rfl
@[simp] theorem updGang_savedGroups (s : State) (n : Nat) (f : Gang → Gang) : (s.updGang n f).savedGroups = s.savedGroups := rfl
@[simp] theorem updGang_wgs (s : State) (n : Nat) (f : Gang → Gang) : (s.updGang n f).wgs = s.wgs := rfl
@[simp] theorem updGang_savedWgs (s : State) (n : Nat) (f : Gang → Gang) : (s.updGang n f).savedWgs = s.savedWgs := rfl
@[simp] theorem updGang_launches (s : State) (n : Nat) (f : Gang → Gang) : (s.updGang n f).launches = s.launches := rfl
@[simp] theorem updGang_nextKey (s : State) (n : Nat) (f : Gang → Gang) : (s.updGang n f).nextKey = s.nextKey := rfl
@[simp] theorem updGang_clusters (s : State) (n : Nat) (f : Gang → Gang) : (s.updGang n f).clusters = s.clusters := rfl
@[simp] theorem updGang_cores (s : State) (n : Nat) (f : Gang → Gang) : (s.updGang n f).cores = s.cores := rfl
@[simp] theorem updGang_mem (s : State) (n : Nat) (f : Gang → Gang) : (s.updGang n f).mem = s.mem := rfl
@[simp] theorem updGang_poison (s : State) (n : Nat) (f : Gang → Gang) : (s.updGang n f).poison = s.poison := rfl
@[simp] theorem updGang_l2 (s : State) (n : Nat) (f : Gang → Gang) : (s.updGang n f).l2 = s.l2 := rfl
@[simp] theorem updGang_walks (s : State) (n : Nat) (f : Gang → Gang) : (s.updGang n f).walks = s.walks := rfl
@[simp] theorem updGang_masks (s : State) (n : Nat) (f : Gang → Gang) : (s.updGang n f).masks = s.masks := rfl
@[simp] theorem updGang_mixed (s : State) (n : Nat) (f : Gang → Gang) : (s.updGang n f).mixed = s.mixed := rfl
@[simp] theorem updGang_walked (s : State) (n : Nat) (f : Gang → Gang) : (s.updGang n f).walked = s.walked := rfl
@[simp] theorem updGang_barLines (s : State) (n : Nat) (f : Gang → Gang) : (s.updGang n f).barLines = s.barLines := rfl
@[simp] theorem updGang_prq (s : State) (n : Nat) (f : Gang → Gang) : (s.updGang n f).prq = s.prq := rfl
@[simp] theorem updGang_prqWait (s : State) (n : Nat) (f : Gang → Gang) : (s.updGang n f).prqWait = s.prqWait := rfl
@[simp] theorem updGang_prqFailed (s : State) (n : Nat) (f : Gang → Gang) : (s.updGang n f).prqFailed = s.prqFailed := rfl
@[simp] theorem updGang_migs (s : State) (n : Nat) (f : Gang → Gang) : (s.updGang n f).migs = s.migs := rfl
@[simp] theorem updGang_vfs (s : State) (n : Nat) (f : Gang → Gang) : (s.updGang n f).vfs = s.vfs := rfl
@[simp] theorem updGang_grans (s : State) (n : Nat) (f : Gang → Gang) : (s.updGang n f).grans = s.grans := rfl
@[simp] theorem updGang_pcmdStat (s : State) (n : Nat) (f : Gang → Gang) : (s.updGang n f).pcmdStat = s.pcmdStat := rfl
@[simp] theorem updGang_pcmdOp (s : State) (n : Nat) (f : Gang → Gang) : (s.updGang n f).pcmdOp = s.pcmdOp := rfl
@[simp] theorem updGang_pcmdNum (s : State) (n : Nat) (f : Gang → Gang) : (s.updGang n f).pcmdNum = s.pcmdNum := rfl
@[simp] theorem updGang_pcmdFirst (s : State) (n : Nat) (f : Gang → Gang) : (s.updGang n f).pcmdFirst = s.pcmdFirst := rfl
@[simp] theorem updGang_pcmdJob (s : State) (n : Nat) (f : Gang → Gang) : (s.updGang n f).pcmdJob = s.pcmdJob := rfl
@[simp] theorem updGang_cmbase (s : State) (n : Nat) (f : Gang → Gang) : (s.updGang n f).cmbase = s.cmbase := rfl
@[simp] theorem updGang_sewin (s : State) (n : Nat) (f : Gang → Gang) : (s.updGang n f).sewin = s.sewin := rfl
@[simp] theorem updGang_sethr (s : State) (n : Nat) (f : Gang → Gang) : (s.updGang n f).sethr = s.sethr := rfl
@[simp] theorem updGang_pkpow (s : State) (n : Nat) (f : Gang → Gang) : (s.updGang n f).pkpow = s.pkpow := rfl
@[simp] theorem updGang_pfRws (s : State) (n : Nat) (f : Gang → Gang) : (s.updGang n f).pfRws = s.pfRws := rfl
@[simp] theorem updGang_pfIrq (s : State) (n : Nat) (f : Gang → Gang) : (s.updGang n f).pfIrq = s.pfIrq := rfl
@[simp] theorem updGang_pfConfig (s : State) (n : Nat) (f : Gang → Gang) : (s.updGang n f).pfConfig = s.pfConfig := rfl
@[simp] theorem updGang_pfMsix (s : State) (n : Nat) (f : Gang → Gang) : (s.updGang n f).pfMsix = s.pfMsix := rfl
@[simp] theorem updGang_rails (s : State) (n : Nat) (f : Gang → Gang) : (s.updGang n f).rails = s.rails := rfl
@[simp] theorem updGang_loans (s : State) (n : Nat) (f : Gang → Gang) : (s.updGang n f).loans = s.loans := rfl
@[simp] theorem updGang_links (s : State) (n : Nat) (f : Gang → Gang) : (s.updGang n f).links = s.links := rfl
@[simp] theorem updGang_incoming (s : State) (n : Nat) (f : Gang → Gang) : (s.updGang n f).incoming = s.incoming := rfl
@[simp] theorem updGang_mbResult (s : State) (n : Nat) (f : Gang → Gang) : (s.updGang n f).mbResult = s.mbResult := rfl
@[simp] theorem updGang_mbBusy (s : State) (n : Nat) (f : Gang → Gang) : (s.updGang n f).mbBusy = s.mbBusy := rfl
@[simp] theorem updGang_mbPending (s : State) (n : Nat) (f : Gang → Gang) : (s.updGang n f).mbPending = s.mbPending := rfl
@[simp] theorem updGang_mbCmd (s : State) (n : Nat) (f : Gang → Gang) : (s.updGang n f).mbCmd = s.mbCmd := rfl
@[simp] theorem updGang_mbAddr (s : State) (n : Nat) (f : Gang → Gang) : (s.updGang n f).mbAddr = s.mbAddr := rfl
@[simp] theorem updGang_mbLen (s : State) (n : Nat) (f : Gang → Gang) : (s.updGang n f).mbLen = s.mbLen := rfl
@[simp] theorem updGang_meas (s : State) (n : Nat) (f : Gang → Gang) : (s.updGang n f).meas = s.meas := rfl
@[simp] theorem updGang_svcount (s : State) (n : Nat) (f : Gang → Gang) : (s.updGang n f).svcount = s.svcount := rfl
@[simp] theorem updGang_runningSvn (s : State) (n : Nat) (f : Gang → Gang) : (s.updGang n f).runningSvn = s.runningSvn := rfl
@[simp] theorem updGang_flash (s : State) (n : Nat) (f : Gang → Gang) : (s.updGang n f).flash = s.flash := rfl
@[simp] theorem updGang_journal (s : State) (n : Nat) (f : Gang → Gang) : (s.updGang n f).journal = s.journal := rfl
@[simp] theorem updGang_alt (s : State) (n : Nat) (f : Gang → Gang) : (s.updGang n f).alt = s.alt := rfl
@[simp] theorem updGang_bootStep (s : State) (n : Nat) (f : Gang → Gang) : (s.updGang n f).bootStep = s.bootStep := rfl
@[simp] theorem updGang_bootDone (s : State) (n : Nat) (f : Gang → Gang) : (s.updGang n f).bootDone = s.bootDone := rfl
@[simp] theorem updGang_bootRuns (s : State) (n : Nat) (f : Gang → Gang) : (s.updGang n f).bootRuns = s.bootRuns := rfl
@[simp] theorem updGang_identity (s : State) (n : Nat) (f : Gang → Gang) : (s.updGang n f).identity = s.identity := rfl
@[simp] theorem updGang_lpddr (s : State) (n : Nat) (f : Gang → Gang) : (s.updGang n f).lpddr = s.lpddr := rfl
@[simp] theorem updGang_bootStopped (s : State) (n : Nat) (f : Gang → Gang) : (s.updGang n f).bootStopped = s.bootStopped := rfl
@[simp] theorem updGang_bootCount (s : State) (n : Nat) (f : Gang → Gang) : (s.updGang n f).bootCount = s.bootCount := rfl
@[simp] theorem updGang_errCounts (s : State) (n : Nat) (f : Gang → Gang) : (s.updGang n f).errCounts = s.errCounts := rfl
@[simp] theorem updGang_retired (s : State) (n : Nat) (f : Gang → Gang) : (s.updGang n f).retired = s.retired := rfl
@[simp] theorem updGang_noSpare (s : State) (n : Nat) (f : Gang → Gang) : (s.updGang n f).noSpare = s.noSpare := rfl
@[simp] theorem updGang_packageFault (s : State) (n : Nat) (f : Gang → Gang) : (s.updGang n f).packageFault = s.packageFault := rfl
@[simp] theorem updGang_port (s : State) (n : Nat) (f : Gang → Gang) : (s.updGang n f).port = s.port := rfl
@[simp] theorem updGang_tape (s : State) (n : Nat) (f : Gang → Gang) : (s.updGang n f).tape = s.tape := rfl
@[simp] theorem updGang_steps (s : State) (n : Nat) (f : Gang → Gang) : (s.updGang n f).steps = s.steps := rfl
@[simp] theorem updGang_kept (s : State) (n : Nat) (f : Gang → Gang) : (s.updGang n f).kept = s.kept := rfl

/-! ### `updLaunch` -/

@[simp] theorem updLaunch_cur (s : State) (n : Nat) (f : Launch → Launch) : (s.updLaunch n f).cur = s.cur := rfl
@[simp] theorem updLaunch_groups (s : State) (n : Nat) (f : Launch → Launch) : (s.updLaunch n f).groups = s.groups := rfl
@[simp] theorem updLaunch_savedGroups (s : State) (n : Nat) (f : Launch → Launch) : (s.updLaunch n f).savedGroups = s.savedGroups := rfl
@[simp] theorem updLaunch_wgs (s : State) (n : Nat) (f : Launch → Launch) : (s.updLaunch n f).wgs = s.wgs := rfl
@[simp] theorem updLaunch_savedWgs (s : State) (n : Nat) (f : Launch → Launch) : (s.updLaunch n f).savedWgs = s.savedWgs := rfl
@[simp] theorem updLaunch_gangs (s : State) (n : Nat) (f : Launch → Launch) : (s.updLaunch n f).gangs = s.gangs := rfl
@[simp] theorem updLaunch_nextKey (s : State) (n : Nat) (f : Launch → Launch) : (s.updLaunch n f).nextKey = s.nextKey := rfl
@[simp] theorem updLaunch_clusters (s : State) (n : Nat) (f : Launch → Launch) : (s.updLaunch n f).clusters = s.clusters := rfl
@[simp] theorem updLaunch_cores (s : State) (n : Nat) (f : Launch → Launch) : (s.updLaunch n f).cores = s.cores := rfl
@[simp] theorem updLaunch_mem (s : State) (n : Nat) (f : Launch → Launch) : (s.updLaunch n f).mem = s.mem := rfl
@[simp] theorem updLaunch_poison (s : State) (n : Nat) (f : Launch → Launch) : (s.updLaunch n f).poison = s.poison := rfl
@[simp] theorem updLaunch_l2 (s : State) (n : Nat) (f : Launch → Launch) : (s.updLaunch n f).l2 = s.l2 := rfl
@[simp] theorem updLaunch_walks (s : State) (n : Nat) (f : Launch → Launch) : (s.updLaunch n f).walks = s.walks := rfl
@[simp] theorem updLaunch_masks (s : State) (n : Nat) (f : Launch → Launch) : (s.updLaunch n f).masks = s.masks := rfl
@[simp] theorem updLaunch_mixed (s : State) (n : Nat) (f : Launch → Launch) : (s.updLaunch n f).mixed = s.mixed := rfl
@[simp] theorem updLaunch_walked (s : State) (n : Nat) (f : Launch → Launch) : (s.updLaunch n f).walked = s.walked := rfl
@[simp] theorem updLaunch_barLines (s : State) (n : Nat) (f : Launch → Launch) : (s.updLaunch n f).barLines = s.barLines := rfl
@[simp] theorem updLaunch_prq (s : State) (n : Nat) (f : Launch → Launch) : (s.updLaunch n f).prq = s.prq := rfl
@[simp] theorem updLaunch_prqWait (s : State) (n : Nat) (f : Launch → Launch) : (s.updLaunch n f).prqWait = s.prqWait := rfl
@[simp] theorem updLaunch_prqFailed (s : State) (n : Nat) (f : Launch → Launch) : (s.updLaunch n f).prqFailed = s.prqFailed := rfl
@[simp] theorem updLaunch_migs (s : State) (n : Nat) (f : Launch → Launch) : (s.updLaunch n f).migs = s.migs := rfl
@[simp] theorem updLaunch_vfs (s : State) (n : Nat) (f : Launch → Launch) : (s.updLaunch n f).vfs = s.vfs := rfl
@[simp] theorem updLaunch_grans (s : State) (n : Nat) (f : Launch → Launch) : (s.updLaunch n f).grans = s.grans := rfl
@[simp] theorem updLaunch_pcmdStat (s : State) (n : Nat) (f : Launch → Launch) : (s.updLaunch n f).pcmdStat = s.pcmdStat := rfl
@[simp] theorem updLaunch_pcmdOp (s : State) (n : Nat) (f : Launch → Launch) : (s.updLaunch n f).pcmdOp = s.pcmdOp := rfl
@[simp] theorem updLaunch_pcmdNum (s : State) (n : Nat) (f : Launch → Launch) : (s.updLaunch n f).pcmdNum = s.pcmdNum := rfl
@[simp] theorem updLaunch_pcmdFirst (s : State) (n : Nat) (f : Launch → Launch) : (s.updLaunch n f).pcmdFirst = s.pcmdFirst := rfl
@[simp] theorem updLaunch_pcmdJob (s : State) (n : Nat) (f : Launch → Launch) : (s.updLaunch n f).pcmdJob = s.pcmdJob := rfl
@[simp] theorem updLaunch_cmbase (s : State) (n : Nat) (f : Launch → Launch) : (s.updLaunch n f).cmbase = s.cmbase := rfl
@[simp] theorem updLaunch_sewin (s : State) (n : Nat) (f : Launch → Launch) : (s.updLaunch n f).sewin = s.sewin := rfl
@[simp] theorem updLaunch_sethr (s : State) (n : Nat) (f : Launch → Launch) : (s.updLaunch n f).sethr = s.sethr := rfl
@[simp] theorem updLaunch_pkpow (s : State) (n : Nat) (f : Launch → Launch) : (s.updLaunch n f).pkpow = s.pkpow := rfl
@[simp] theorem updLaunch_pfRws (s : State) (n : Nat) (f : Launch → Launch) : (s.updLaunch n f).pfRws = s.pfRws := rfl
@[simp] theorem updLaunch_pfIrq (s : State) (n : Nat) (f : Launch → Launch) : (s.updLaunch n f).pfIrq = s.pfIrq := rfl
@[simp] theorem updLaunch_pfConfig (s : State) (n : Nat) (f : Launch → Launch) : (s.updLaunch n f).pfConfig = s.pfConfig := rfl
@[simp] theorem updLaunch_pfMsix (s : State) (n : Nat) (f : Launch → Launch) : (s.updLaunch n f).pfMsix = s.pfMsix := rfl
@[simp] theorem updLaunch_rails (s : State) (n : Nat) (f : Launch → Launch) : (s.updLaunch n f).rails = s.rails := rfl
@[simp] theorem updLaunch_loans (s : State) (n : Nat) (f : Launch → Launch) : (s.updLaunch n f).loans = s.loans := rfl
@[simp] theorem updLaunch_links (s : State) (n : Nat) (f : Launch → Launch) : (s.updLaunch n f).links = s.links := rfl
@[simp] theorem updLaunch_incoming (s : State) (n : Nat) (f : Launch → Launch) : (s.updLaunch n f).incoming = s.incoming := rfl
@[simp] theorem updLaunch_mbResult (s : State) (n : Nat) (f : Launch → Launch) : (s.updLaunch n f).mbResult = s.mbResult := rfl
@[simp] theorem updLaunch_mbBusy (s : State) (n : Nat) (f : Launch → Launch) : (s.updLaunch n f).mbBusy = s.mbBusy := rfl
@[simp] theorem updLaunch_mbPending (s : State) (n : Nat) (f : Launch → Launch) : (s.updLaunch n f).mbPending = s.mbPending := rfl
@[simp] theorem updLaunch_mbCmd (s : State) (n : Nat) (f : Launch → Launch) : (s.updLaunch n f).mbCmd = s.mbCmd := rfl
@[simp] theorem updLaunch_mbAddr (s : State) (n : Nat) (f : Launch → Launch) : (s.updLaunch n f).mbAddr = s.mbAddr := rfl
@[simp] theorem updLaunch_mbLen (s : State) (n : Nat) (f : Launch → Launch) : (s.updLaunch n f).mbLen = s.mbLen := rfl
@[simp] theorem updLaunch_meas (s : State) (n : Nat) (f : Launch → Launch) : (s.updLaunch n f).meas = s.meas := rfl
@[simp] theorem updLaunch_svcount (s : State) (n : Nat) (f : Launch → Launch) : (s.updLaunch n f).svcount = s.svcount := rfl
@[simp] theorem updLaunch_runningSvn (s : State) (n : Nat) (f : Launch → Launch) : (s.updLaunch n f).runningSvn = s.runningSvn := rfl
@[simp] theorem updLaunch_flash (s : State) (n : Nat) (f : Launch → Launch) : (s.updLaunch n f).flash = s.flash := rfl
@[simp] theorem updLaunch_journal (s : State) (n : Nat) (f : Launch → Launch) : (s.updLaunch n f).journal = s.journal := rfl
@[simp] theorem updLaunch_alt (s : State) (n : Nat) (f : Launch → Launch) : (s.updLaunch n f).alt = s.alt := rfl
@[simp] theorem updLaunch_bootStep (s : State) (n : Nat) (f : Launch → Launch) : (s.updLaunch n f).bootStep = s.bootStep := rfl
@[simp] theorem updLaunch_bootDone (s : State) (n : Nat) (f : Launch → Launch) : (s.updLaunch n f).bootDone = s.bootDone := rfl
@[simp] theorem updLaunch_bootRuns (s : State) (n : Nat) (f : Launch → Launch) : (s.updLaunch n f).bootRuns = s.bootRuns := rfl
@[simp] theorem updLaunch_identity (s : State) (n : Nat) (f : Launch → Launch) : (s.updLaunch n f).identity = s.identity := rfl
@[simp] theorem updLaunch_lpddr (s : State) (n : Nat) (f : Launch → Launch) : (s.updLaunch n f).lpddr = s.lpddr := rfl
@[simp] theorem updLaunch_bootStopped (s : State) (n : Nat) (f : Launch → Launch) : (s.updLaunch n f).bootStopped = s.bootStopped := rfl
@[simp] theorem updLaunch_bootCount (s : State) (n : Nat) (f : Launch → Launch) : (s.updLaunch n f).bootCount = s.bootCount := rfl
@[simp] theorem updLaunch_errCounts (s : State) (n : Nat) (f : Launch → Launch) : (s.updLaunch n f).errCounts = s.errCounts := rfl
@[simp] theorem updLaunch_retired (s : State) (n : Nat) (f : Launch → Launch) : (s.updLaunch n f).retired = s.retired := rfl
@[simp] theorem updLaunch_noSpare (s : State) (n : Nat) (f : Launch → Launch) : (s.updLaunch n f).noSpare = s.noSpare := rfl
@[simp] theorem updLaunch_packageFault (s : State) (n : Nat) (f : Launch → Launch) : (s.updLaunch n f).packageFault = s.packageFault := rfl
@[simp] theorem updLaunch_port (s : State) (n : Nat) (f : Launch → Launch) : (s.updLaunch n f).port = s.port := rfl
@[simp] theorem updLaunch_tape (s : State) (n : Nat) (f : Launch → Launch) : (s.updLaunch n f).tape = s.tape := rfl
@[simp] theorem updLaunch_steps (s : State) (n : Nat) (f : Launch → Launch) : (s.updLaunch n f).steps = s.steps := rfl
@[simp] theorem updLaunch_kept (s : State) (n : Nat) (f : Launch → Launch) : (s.updLaunch n f).kept = s.kept := rfl

@[simp] theorem setCur_setCur (s : State) (g h : Group) : (s.setCur g).setCur h = s.setCur h := rfl
@[simp] theorem setCur_self (s : State) : s.setCur s.cur = s := rfl

end State

namespace Group
/-! ### `setSlot` and `setMe` -/

@[simp] theorem setSlot_id (g : Group) (b : Bool) (t : Slot) : (g.setSlot b t).id = g.id := by cases b <;> rfl
@[simp] theorem setMe_id (g : Group) (t : Slot) : (g.setMe t).id = g.id := setSlot_id ..
@[simp] theorem setSlot_launch (g : Group) (b : Bool) (t : Slot) : (g.setSlot b t).launch = g.launch := by cases b <;> rfl
@[simp] theorem setMe_launch (g : Group) (t : Slot) : (g.setMe t).launch = g.launch := setSlot_launch ..
@[simp] theorem setSlot_gang (g : Group) (b : Bool) (t : Slot) : (g.setSlot b t).gang = g.gang := by cases b <;> rfl
@[simp] theorem setMe_gang (g : Group) (t : Slot) : (g.setMe t).gang = g.gang := setSlot_gang ..
@[simp] theorem setSlot_wg (g : Group) (b : Bool) (t : Slot) : (g.setSlot b t).wg = g.wg := by cases b <;> rfl
@[simp] theorem setMe_wg (g : Group) (t : Slot) : (g.setMe t).wg = g.wg := setSlot_wg ..
@[simp] theorem setSlot_vf (g : Group) (b : Bool) (t : Slot) : (g.setSlot b t).vf = g.vf := by cases b <;> rfl
@[simp] theorem setMe_vf (g : Group) (t : Slot) : (g.setMe t).vf = g.vf := setSlot_vf ..
@[simp] theorem setSlot_slice (g : Group) (b : Bool) (t : Slot) : (g.setSlot b t).slice = g.slice := by cases b <;> rfl
@[simp] theorem setMe_slice (g : Group) (t : Slot) : (g.setMe t).slice = g.slice := setSlot_slice ..
@[simp] theorem setSlot_cluster (g : Group) (b : Bool) (t : Slot) : (g.setSlot b t).cluster = g.cluster := by cases b <;> rfl
@[simp] theorem setMe_cluster (g : Group) (t : Slot) : (g.setMe t).cluster = g.cluster := setSlot_cluster ..
@[simp] theorem setSlot_core (g : Group) (b : Bool) (t : Slot) : (g.setSlot b t).core = g.core := by cases b <;> rfl
@[simp] theorem setMe_core (g : Group) (t : Slot) : (g.setMe t).core = g.core := setSlot_core ..
@[simp] theorem setSlot_gslot (g : Group) (b : Bool) (t : Slot) : (g.setSlot b t).gslot = g.gslot := by cases b <;> rfl
@[simp] theorem setMe_gslot (g : Group) (t : Slot) : (g.setMe t).gslot = g.gslot := setSlot_gslot ..
@[simp] theorem setSlot_gid (g : Group) (b : Bool) (t : Slot) : (g.setSlot b t).gid = g.gid := by cases b <;> rfl
@[simp] theorem setMe_gid (g : Group) (t : Slot) : (g.setMe t).gid = g.gid := setSlot_gid ..
@[simp] theorem setSlot_wgid (g : Group) (b : Bool) (t : Slot) : (g.setSlot b t).wgid = g.wgid := by cases b <;> rfl
@[simp] theorem setMe_wgid (g : Group) (t : Slot) : (g.setMe t).wgid = g.wgid := setSlot_wgid ..
@[simp] theorem setSlot_gx (g : Group) (b : Bool) (t : Slot) : (g.setSlot b t).gx = g.gx := by cases b <;> rfl
@[simp] theorem setMe_gx (g : Group) (t : Slot) : (g.setMe t).gx = g.gx := setSlot_gx ..
@[simp] theorem setSlot_gy (g : Group) (b : Bool) (t : Slot) : (g.setSlot b t).gy = g.gy := by cases b <;> rfl
@[simp] theorem setMe_gy (g : Group) (t : Slot) : (g.setMe t).gy = g.gy := setSlot_gy ..
@[simp] theorem setSlot_gz (g : Group) (b : Bool) (t : Slot) : (g.setSlot b t).gz = g.gz := by cases b <;> rfl
@[simp] theorem setMe_gz (g : Group) (t : Slot) : (g.setMe t).gz = g.gz := setSlot_gz ..
@[simp] theorem setSlot_grid (g : Group) (b : Bool) (t : Slot) : (g.setSlot b t).grid = g.grid := by cases b <;> rfl
@[simp] theorem setMe_grid (g : Group) (t : Slot) : (g.setMe t).grid = g.grid := setSlot_grid ..
@[simp] theorem setSlot_launchId (g : Group) (b : Bool) (t : Slot) : (g.setSlot b t).launchId = g.launchId := by cases b <;> rfl
@[simp] theorem setMe_launchId (g : Group) (t : Slot) : (g.setMe t).launchId = g.launchId := setSlot_launchId ..
@[simp] theorem setSlot_kbase (g : Group) (b : Bool) (t : Slot) : (g.setSlot b t).kbase = g.kbase := by cases b <;> rfl
@[simp] theorem setMe_kbase (g : Group) (t : Slot) : (g.setMe t).kbase = g.kbase := setSlot_kbase ..
@[simp] theorem setSlot_args (g : Group) (b : Bool) (t : Slot) : (g.setSlot b t).args = g.args := by cases b <;> rfl
@[simp] theorem setMe_args (g : Group) (t : Slot) : (g.setMe t).args = g.args := setSlot_args ..
@[simp] theorem setSlot_saveb (g : Group) (b : Bool) (t : Slot) : (g.setSlot b t).saveb = g.saveb := by cases b <;> rfl
@[simp] theorem setMe_saveb (g : Group) (t : Slot) : (g.setMe t).saveb = g.saveb := setSlot_saveb ..
@[simp] theorem setSlot_deadline (g : Group) (b : Bool) (t : Slot) : (g.setSlot b t).deadline = g.deadline := by cases b <;> rfl
@[simp] theorem setMe_deadline (g : Group) (t : Slot) : (g.setMe t).deadline = g.deadline := setSlot_deadline ..
@[simp] theorem setSlot_nv (g : Group) (b : Bool) (t : Slot) : (g.setSlot b t).nv = g.nv := by cases b <;> rfl
@[simp] theorem setMe_nv (g : Group) (t : Slot) : (g.setMe t).nv = g.nv := setSlot_nv ..
@[simp] theorem setSlot_ns (g : Group) (b : Bool) (t : Slot) : (g.setSlot b t).ns = g.ns := by cases b <;> rfl
@[simp] theorem setMe_ns (g : Group) (t : Slot) : (g.setMe t).ns = g.ns := setSlot_ns ..
@[simp] theorem setSlot_np (g : Group) (b : Bool) (t : Slot) : (g.setSlot b t).np = g.np := by cases b <;> rfl
@[simp] theorem setMe_np (g : Group) (t : Slot) : (g.setMe t).np = g.np := setSlot_np ..
@[simp] theorem setSlot_na (g : Group) (b : Bool) (t : Slot) : (g.setSlot b t).na = g.na := by cases b <;> rfl
@[simp] theorem setMe_na (g : Group) (t : Slot) : (g.setMe t).na = g.na := setSlot_na ..
@[simp] theorem setSlot_ntiles (g : Group) (b : Bool) (t : Slot) : (g.setSlot b t).ntiles = g.ntiles := by cases b <;> rfl
@[simp] theorem setMe_ntiles (g : Group) (t : Slot) : (g.setMe t).ntiles = g.ntiles := setSlot_ntiles ..
@[simp] theorem setSlot_wgroups (g : Group) (b : Bool) (t : Slot) : (g.setSlot b t).wgroups = g.wgroups := by cases b <;> rfl
@[simp] theorem setMe_wgroups (g : Group) (t : Slot) : (g.setMe t).wgroups = g.wgroups := setSlot_wgroups ..
@[simp] theorem setSlot_gangN (g : Group) (b : Bool) (t : Slot) : (g.setSlot b t).gangN = g.gangN := by cases b <;> rfl
@[simp] theorem setMe_gangN (g : Group) (t : Slot) : (g.setMe t).gangN = g.gangN := setSlot_gangN ..
@[simp] theorem setSlot_producer (g : Group) (b : Bool) (t : Slot) : (g.setSlot b t).producer = g.producer := by cases b <;> rfl
@[simp] theorem setMe_producer (g : Group) (t : Slot) : (g.setMe t).producer = g.producer := setSlot_producer ..
@[simp] theorem setSlot_keepq (g : Group) (b : Bool) (t : Slot) : (g.setSlot b t).keepq = g.keepq := by cases b <;> rfl
@[simp] theorem setMe_keepq (g : Group) (t : Slot) : (g.setMe t).keepq = g.keepq := setSlot_keepq ..
@[simp] theorem setSlot_codeEnd (g : Group) (b : Bool) (t : Slot) : (g.setSlot b t).codeEnd = g.codeEnd := by cases b <;> rfl
@[simp] theorem setMe_codeEnd (g : Group) (t : Slot) : (g.setMe t).codeEnd = g.codeEnd := setSlot_codeEnd ..
@[simp] theorem setSlot_sel1 (g : Group) (b : Bool) (t : Slot) : (g.setSlot b t).sel1 = g.sel1 := by cases b <;> rfl
@[simp] theorem setMe_sel1 (g : Group) (t : Slot) : (g.setMe t).sel1 = g.sel1 := setSlot_sel1 ..
@[simp] theorem setSlot_issuedAt (g : Group) (b : Bool) (t : Slot) : (g.setSlot b t).issuedAt = g.issuedAt := by cases b <;> rfl
@[simp] theorem setMe_issuedAt (g : Group) (t : Slot) : (g.setMe t).issuedAt = g.issuedAt := setSlot_issuedAt ..
@[simp] theorem setSlot_last1 (g : Group) (b : Bool) (t : Slot) : (g.setSlot b t).last1 = g.last1 := by cases b <;> rfl
@[simp] theorem setMe_last1 (g : Group) (t : Slot) : (g.setMe t).last1 = g.last1 := setSlot_last1 ..
@[simp] theorem setSlot_split (g : Group) (b : Bool) (t : Slot) : (g.setSlot b t).split = g.split := by cases b <;> rfl
@[simp] theorem setMe_split (g : Group) (t : Slot) : (g.setMe t).split = g.split := setSlot_split ..
@[simp] theorem setSlot_stack (g : Group) (b : Bool) (t : Slot) : (g.setSlot b t).stack = g.stack := by cases b <;> rfl
@[simp] theorem setMe_stack (g : Group) (t : Slot) : (g.setMe t).stack = g.stack := setSlot_stack ..
@[simp] theorem setSlot_helper (g : Group) (b : Bool) (t : Slot) : (g.setSlot b t).helper = g.helper := by cases b <;> rfl
@[simp] theorem setMe_helper (g : Group) (t : Slot) : (g.setMe t).helper = g.helper := setSlot_helper ..
@[simp] theorem setSlot_exited (g : Group) (b : Bool) (t : Slot) : (g.setSlot b t).exited = g.exited := by cases b <;> rfl
@[simp] theorem setMe_exited (g : Group) (t : Slot) : (g.setMe t).exited = g.exited := setSlot_exited ..
@[simp] theorem setSlot_v (g : Group) (b : Bool) (t : Slot) : (g.setSlot b t).v = g.v := by cases b <;> rfl
@[simp] theorem setMe_v (g : Group) (t : Slot) : (g.setMe t).v = g.v := setSlot_v ..
@[simp] theorem setSlot_s (g : Group) (b : Bool) (t : Slot) : (g.setSlot b t).s = g.s := by cases b <;> rfl
@[simp] theorem setMe_s (g : Group) (t : Slot) : (g.setMe t).s = g.s := setSlot_s ..
@[simp] theorem setSlot_p (g : Group) (b : Bool) (t : Slot) : (g.setSlot b t).p = g.p := by cases b <;> rfl
@[simp] theorem setMe_p (g : Group) (t : Slot) : (g.setMe t).p = g.p := setSlot_p ..
@[simp] theorem setSlot_acc (g : Group) (b : Bool) (t : Slot) : (g.setSlot b t).acc = g.acc := by cases b <;> rfl
@[simp] theorem setMe_acc (g : Group) (t : Slot) : (g.setMe t).acc = g.acc := setSlot_acc ..
@[simp] theorem setSlot_accData (g : Group) (b : Bool) (t : Slot) : (g.setSlot b t).accData = g.accData := by cases b <;> rfl
@[simp] theorem setMe_accData (g : Group) (t : Slot) : (g.setMe t).accData = g.accData := setSlot_accData ..
@[simp] theorem setSlot_x (g : Group) (b : Bool) (t : Slot) : (g.setSlot b t).x = g.x := by cases b <;> rfl
@[simp] theorem setMe_x (g : Group) (t : Slot) : (g.setMe t).x = g.x := setSlot_x ..
@[simp] theorem setSlot_fpctl (g : Group) (b : Bool) (t : Slot) : (g.setSlot b t).fpctl = g.fpctl := by cases b <;> rfl
@[simp] theorem setMe_fpctl (g : Group) (t : Slot) : (g.setMe t).fpctl = g.fpctl := setSlot_fpctl ..
@[simp] theorem setSlot_fpflags (g : Group) (b : Bool) (t : Slot) : (g.setSlot b t).fpflags = g.fpflags := by cases b <;> rfl
@[simp] theorem setMe_fpflags (g : Group) (t : Slot) : (g.setMe t).fpflags = g.fpflags := setSlot_fpflags ..
@[simp] theorem setSlot_priv (g : Group) (b : Bool) (t : Slot) : (g.setSlot b t).priv = g.priv := by cases b <;> rfl
@[simp] theorem setMe_priv (g : Group) (t : Slot) : (g.setMe t).priv = g.priv := setSlot_priv ..
@[simp] theorem setSlot_trapvec (g : Group) (b : Bool) (t : Slot) : (g.setSlot b t).trapvec = g.trapvec := by cases b <;> rfl
@[simp] theorem setMe_trapvec (g : Group) (t : Slot) : (g.setMe t).trapvec = g.trapvec := setSlot_trapvec ..
@[simp] theorem setSlot_trapcause (g : Group) (b : Bool) (t : Slot) : (g.setSlot b t).trapcause = g.trapcause := by cases b <;> rfl
@[simp] theorem setMe_trapcause (g : Group) (t : Slot) : (g.setMe t).trapcause = g.trapcause := setSlot_trapcause ..
@[simp] theorem setSlot_trappc (g : Group) (b : Bool) (t : Slot) : (g.setSlot b t).trappc = g.trappc := by cases b <;> rfl
@[simp] theorem setMe_trappc (g : Group) (t : Slot) : (g.setMe t).trappc = g.trappc := setSlot_trappc ..
@[simp] theorem setSlot_trapaddr (g : Group) (b : Bool) (t : Slot) : (g.setSlot b t).trapaddr = g.trapaddr := by cases b <;> rfl
@[simp] theorem setMe_trapaddr (g : Group) (t : Slot) : (g.setMe t).trapaddr = g.trapaddr := setSlot_trapaddr ..
@[simp] theorem setSlot_win (g : Group) (b : Bool) (t : Slot) : (g.setSlot b t).win = g.win := by cases b <;> rfl
@[simp] theorem setMe_win (g : Group) (t : Slot) : (g.setMe t).win = g.win := setSlot_win ..
@[simp] theorem setSlot_sclA (g : Group) (b : Bool) (t : Slot) : (g.setSlot b t).sclA = g.sclA := by cases b <;> rfl
@[simp] theorem setMe_sclA (g : Group) (t : Slot) : (g.setMe t).sclA = g.sclA := setSlot_sclA ..
@[simp] theorem setSlot_sclB (g : Group) (b : Bool) (t : Slot) : (g.setSlot b t).sclB = g.sclB := by cases b <;> rfl
@[simp] theorem setMe_sclB (g : Group) (t : Slot) : (g.setMe t).sclB = g.sclB := setSlot_sclB ..
@[simp] theorem setSlot_ops (g : Group) (b : Bool) (t : Slot) : (g.setSlot b t).ops = g.ops := by cases b <;> rfl
@[simp] theorem setMe_ops (g : Group) (t : Slot) : (g.setMe t).ops = g.ops := setSlot_ops ..
@[simp] theorem setSlot_recs (g : Group) (b : Bool) (t : Slot) : (g.setSlot b t).recs = g.recs := by cases b <;> rfl
@[simp] theorem setMe_recs (g : Group) (t : Slot) : (g.setMe t).recs = g.recs := setSlot_recs ..
@[simp] theorem setSlot_pend (g : Group) (b : Bool) (t : Slot) : (g.setSlot b t).pend = g.pend := by cases b <;> rfl
@[simp] theorem setMe_pend (g : Group) (t : Slot) : (g.setMe t).pend = g.pend := setSlot_pend ..
@[simp] theorem setSlot_seq (g : Group) (b : Bool) (t : Slot) : (g.setSlot b t).seq = g.seq := by cases b <;> rfl
@[simp] theorem setMe_seq (g : Group) (t : Slot) : (g.setMe t).seq = g.seq := setSlot_seq ..
@[simp] theorem setSlot_late (g : Group) (b : Bool) (t : Slot) : (g.setSlot b t).late = g.late := by cases b <;> rfl
@[simp] theorem setMe_late (g : Group) (t : Slot) : (g.setMe t).late = g.late := setSlot_late ..
@[simp] theorem setSlot_wgGen (g : Group) (b : Bool) (t : Slot) : (g.setSlot b t).wgGen = g.wgGen := by cases b <;> rfl
@[simp] theorem setMe_wgGen (g : Group) (t : Slot) : (g.setMe t).wgGen = g.wgGen := setSlot_wgGen ..
@[simp] theorem setSlot_gangGen (g : Group) (b : Bool) (t : Slot) : (g.setSlot b t).gangGen = g.gangGen := by cases b <;> rfl
@[simp] theorem setMe_gangGen (g : Group) (t : Slot) : (g.setMe t).gangGen = g.gangGen := setSlot_gangGen ..
@[simp] theorem setSlot_waitg (g : Group) (b : Bool) (t : Slot) : (g.setSlot b t).waitg = g.waitg := by cases b <;> rfl
@[simp] theorem setMe_waitg (g : Group) (t : Slot) : (g.setMe t).waitg = g.waitg := setSlot_waitg ..
@[simp] theorem setSlot_syncFrom (g : Group) (b : Bool) (t : Slot) : (g.setSlot b t).syncFrom = g.syncFrom := by cases b <;> rfl
@[simp] theorem setMe_syncFrom (g : Group) (t : Slot) : (g.setMe t).syncFrom = g.syncFrom := setSlot_syncFrom ..
@[simp] theorem setSlot_syncPc (g : Group) (b : Bool) (t : Slot) : (g.setSlot b t).syncPc = g.syncPc := by cases b <;> rfl
@[simp] theorem setMe_syncPc (g : Group) (t : Slot) : (g.setMe t).syncPc = g.syncPc := setSlot_syncPc ..
@[simp] theorem setSlot_lastDone (g : Group) (b : Bool) (t : Slot) : (g.setSlot b t).lastDone = g.lastDone := by cases b <;> rfl
@[simp] theorem setMe_lastDone (g : Group) (t : Slot) : (g.setMe t).lastDone = g.lastDone := setSlot_lastDone ..
@[simp] theorem setSlot_wseen (g : Group) (b : Bool) (t : Slot) : (g.setSlot b t).wseen = g.wseen := by cases b <;> rfl
@[simp] theorem setMe_wseen (g : Group) (t : Slot) : (g.setMe t).wseen = g.wseen := setSlot_wseen ..
@[simp] theorem setSlot_polls (g : Group) (b : Bool) (t : Slot) : (g.setSlot b t).polls = g.polls := by cases b <;> rfl
@[simp] theorem setMe_polls (g : Group) (t : Slot) : (g.setMe t).polls = g.polls := setSlot_polls ..
@[simp] theorem setSlot_aways (g : Group) (b : Bool) (t : Slot) : (g.setSlot b t).aways = g.aways := by cases b <;> rfl
@[simp] theorem setMe_aways (g : Group) (t : Slot) : (g.setMe t).aways = g.aways := setSlot_aways ..
@[simp] theorem setSlot_pendTrap (g : Group) (b : Bool) (t : Slot) : (g.setSlot b t).pendTrap = g.pendTrap := by cases b <;> rfl
@[simp] theorem setMe_pendTrap (g : Group) (t : Slot) : (g.setMe t).pendTrap = g.pendTrap := setSlot_pendTrap ..
@[simp] theorem setSlot_pageWait (g : Group) (b : Bool) (t : Slot) : (g.setSlot b t).pageWait = g.pageWait := by cases b <;> rfl
@[simp] theorem setMe_pageWait (g : Group) (t : Slot) : (g.setMe t).pageWait = g.pageWait := setSlot_pageWait ..
@[simp] theorem setSlot_trapBlk (g : Group) (b : Bool) (t : Slot) : (g.setSlot b t).trapBlk = g.trapBlk := by cases b <;> rfl
@[simp] theorem setMe_trapBlk (g : Group) (t : Slot) : (g.setMe t).trapBlk = g.trapBlk := setSlot_trapBlk ..
@[simp] theorem setSlot_halt (g : Group) (b : Bool) (t : Slot) : (g.setSlot b t).halt = g.halt := by cases b <;> rfl
@[simp] theorem setMe_halt (g : Group) (t : Slot) : (g.setMe t).halt = g.halt := setSlot_halt ..
@[simp] theorem setSlot_stop (g : Group) (b : Bool) (t : Slot) : (g.setSlot b t).stop = g.stop := by cases b <;> rfl
@[simp] theorem setMe_stop (g : Group) (t : Slot) : (g.setMe t).stop = g.stop := setSlot_stop ..
@[simp] theorem setSlot_grace (g : Group) (b : Bool) (t : Slot) : (g.setSlot b t).grace = g.grace := by cases b <;> rfl
@[simp] theorem setMe_grace (g : Group) (t : Slot) : (g.setMe t).grace = g.grace := setSlot_grace ..
@[simp] theorem setSlot_yielded (g : Group) (b : Bool) (t : Slot) : (g.setSlot b t).yielded = g.yielded := by cases b <;> rfl
@[simp] theorem setMe_yielded (g : Group) (t : Slot) : (g.setMe t).yielded = g.yielded := setSlot_yielded ..
@[simp] theorem setSlot_stopped (g : Group) (b : Bool) (t : Slot) : (g.setSlot b t).stopped = g.stopped := by cases b <;> rfl
@[simp] theorem setMe_stopped (g : Group) (t : Slot) : (g.setMe t).stopped = g.stopped := setSlot_stopped ..
@[simp] theorem setSlot_watchHit (g : Group) (b : Bool) (t : Slot) : (g.setSlot b t).watchHit = g.watchHit := by cases b <;> rfl
@[simp] theorem setMe_watchHit (g : Group) (t : Slot) : (g.setMe t).watchHit = g.watchHit := setSlot_watchHit ..
@[simp] theorem setSlot_divTouched (g : Group) (b : Bool) (t : Slot) : (g.setSlot b t).divTouched = g.divTouched := by cases b <;> rfl
@[simp] theorem setMe_divTouched (g : Group) (t : Slot) : (g.setMe t).divTouched = g.divTouched := setSlot_divTouched ..
@[simp] theorem setSlot_ended (g : Group) (b : Bool) (t : Slot) : (g.setSlot b t).ended = g.ended := by cases b <;> rfl
@[simp] theorem setMe_ended (g : Group) (t : Slot) : (g.setMe t).ended = g.ended := setSlot_ended ..
@[simp] theorem setSlot_gone (g : Group) (b : Bool) (t : Slot) : (g.setSlot b t).gone = g.gone := by cases b <;> rfl
@[simp] theorem setMe_gone (g : Group) (t : Slot) : (g.setMe t).gone = g.gone := setSlot_gone ..
@[simp] theorem setSlot_raySusp (g : Group) (b : Bool) (t : Slot) : (g.setSlot b t).raySusp = g.raySusp := by cases b <;> rfl
@[simp] theorem setMe_raySusp (g : Group) (t : Slot) : (g.setMe t).raySusp = g.raySusp := setSlot_raySusp ..
@[simp] theorem setSlot_saved (g : Group) (b : Bool) (t : Slot) : (g.setSlot b t).saved = g.saved := by cases b <;> rfl
@[simp] theorem setMe_saved (g : Group) (t : Slot) : (g.setMe t).saved = g.saved := setSlot_saved ..

@[simp] theorem slot_setSlot (g : Group) (b : Bool) (t : Slot) : (g.setSlot b t).slot b = t := by cases b <;> rfl
@[simp] theorem slot_setSlot_not (g : Group) (b : Bool) (t : Slot) : (g.setSlot b t).slot (!b) = g.slot (!b) := by cases b <;> rfl
@[simp] theorem slot_not_setSlot (g : Group) (b : Bool) (t : Slot) : (g.setSlot (!b) t).slot b = g.slot b := by cases b <;> rfl
@[simp] theorem me_setMe (g : Group) (t : Slot) : (g.setMe t).me = t := by simp [me, setMe]
@[simp] theorem me_setSlot (g : Group) (t : Slot) : (g.setSlot g.sel1 t).me = t := me_setMe g t
@[simp] theorem setSlot_setSlot (g : Group) (b : Bool) (t u : Slot) : (g.setSlot b t).setSlot b u = g.setSlot b u := by cases b <;> rfl
@[simp] theorem setSlot_self (g : Group) (b : Bool) : g.setSlot b (g.slot b) = g := by cases b <;> rfl
@[simp] theorem setMe_setMe (g : Group) (t u : Slot) : (g.setMe t).setMe u = g.setMe u := by simp only [setMe, setSlot_sel1, setSlot_setSlot]
@[simp] theorem setMe_me (g : Group) : g.setMe g.me = g := setSlot_self ..

end Group

end Sys2Proof.Machine
end

