-- ==== Sys2Proof/Laws/Registers.lean ====
section
/-!
SUPPORT. Lane vectors, tables and lane masks; what a group reads of its registers after a write joins its window, after a kill, and after a bank.
-/
set_option Elab.async false
namespace Sys2Proof

@[simp] theorem Lanes.get_gen {α : Type} (f : Nat → α) (l : Nat) (d : α) (h : l < 32) : (Lanes.gen f).get l d = f l := by
  simp [Lanes.get, Lanes.gen, h]

@[simp] theorem Lanes.get_const {α : Type} (a : α) (l : Nat) (d : α) (h : l < 32) : (Lanes.const a).get l d = a := by
  simp [Lanes.const, h]

theorem tget_tset {α : Type} {n : Nat} (t : Vector α n) (i j : Nat) (a d : α) :
    tget (tset t i a) j d = if i = j ∧ j < n then a else tget t j d := by
  simp only [tget, tset, Array.getD_eq_getD_getElem?, Vector.getElem?_toArray, Vector.getElem?_setIfInBounds]
  by_cases h : i = j
  · subst h
    by_cases h2 : i < n <;> simp [h2]
  · simp [h]

@[simp] theorem tget_tset_self {α : Type} {n : Nat} (t : Vector α n) (i : Nat) (a d : α) (h : i < n) : tget (tset t i a) i d = a := by
  simp [tget_tset, h]

theorem tget_tset_ne {α : Type} {n : Nat} (t : Vector α n) (i j : Nat) (a d : α) (h : i ≠ j) : tget (tset t i a) j d = tget t j d := by
  simp [tget_tset, h]

@[simp] theorem tget_tableOf {α : Type} (n i : Nat) (a : α) : tget (tableOf n a) i a = a := by
  simp only [tget, tableOf, Array.getD_eq_getD_getElem?]
  by_cases h : i < n <;> simp [h]

end Sys2Proof

namespace Sys2Proof.Machine
open Sys2Proof

/-! ### Lane masks -/

theorem maskSum_append (f : Nat → Bool) (ls : List Nat) (a : Nat) :
    ls.foldr (fun l a => (if f l then 2 ^ l else 0) + a) a = ls.foldr (fun l a => (if f l then 2 ^ l else 0) + a) 0 + a := by
  induction ls with
  | nil => simp
  | cons x r ih => simp only [List.foldr_cons]; rw [ih]; omega

theorem maskSum_spec (f : Nat → Bool) (n : Nat) :
    (List.range n).foldr (fun l a => (if f l then 2 ^ l else 0) + a) 0 < 2 ^ n ∧
    ∀ l < n, ((List.range n).foldr (fun l a => (if f l then 2 ^ l else 0) + a) 0).testBit l = f l := by
  induction n with
  | zero => simp
  | succ n ih =>
    rw [List.range_succ, List.foldr_append, maskSum_append]
    generalize (List.range n).foldr (fun l a => (if f l then 2 ^ l else 0) + a) 0 = x at ih
    simp only [List.foldr_cons, List.foldr_nil, Nat.add_zero]
    obtain ⟨h1, h2⟩ := ih
    have hx : x.testBit n = false := Nat.testBit_lt_two_pow h1
    refine ⟨by split <;> (rw [Nat.pow_succ]; omega), fun l hl => ?_⟩
    by_cases e : l = n
    · subst e
      cases hf : f l
      · simp [hx]
      · simp [Nat.add_comm x, Nat.testBit_two_pow_add_eq, hx]
    · have hlt : l < n := by omega
      cases hf : f n
      · simp [h2 l hlt]
      · simp [Nat.add_comm x, Nat.testBit_two_pow_add_gt hlt, h2 l hlt]

@[simp] theorem lane_maskOf (f : Nat → Bool) (l : Nat) (h : l < 32) : lane (maskOf f) l = f l := by
  have := (maskSum_spec f 32).2 l h
  simp only [lane, maskOf, laneList, BitVec.getLsbD_ofNat, this, h, decide_true, Bool.true_and]

@[simp] theorem lane_allLanes (l : Nat) (h : l < 32) : lane allLanes l = true := by
  simp only [lane, allLanes]
  have : (BitVec.ofNat 32 0xFFFFFFFF) = BitVec.allOnes 32 := by decide
  show (BitVec.ofNat 32 0xFFFFFFFF).getLsbD l = true
  rw [this, BitVec.getLsbD_allOnes]; simpa using h

@[simp] theorem lane_and (a b : Word32) (l : Nat) : lane (a &&& b) l = (lane a l && lane b l) := by simp [lane]
@[simp] theorem lane_or (a b : Word32) (l : Nat) : lane (a ||| b) l = (lane a l || lane b l) := by simp [lane]
@[simp] theorem lane_zero (l : Nat) : lane 0#32 l = false := by simp [lane]
theorem lane_not (a : Word32) (l : Nat) (h : l < 32) : lane (~~~a) l = !lane a l := by simp [lane, h]

theorem RegWrite.covers_iff (w : RegWrite) (cls : RClass) (n l : Nat) :
    w.covers cls n l = true ↔ w.cls = cls ∧ w.reg = n ∧ lane w.lanes (if cls = .s then 0 else l) = true := by
  unfold RegWrite.covers
  by_cases h1 : w.cls = cls <;> by_cases h2 : w.reg = n <;> simp [h1, h2]

/-! ### Reads -/

namespace Group

@[simp] theorem readP_63 (g : Group) (l : Nat) : g.readP 63 l = true := by simp [readP, read]

/-- A read looks at the window and the register file alone. -/
theorem seen_congr {g h : Group} (hw : h.me.win = g.me.win) (hv : h.v = g.v) (hs : h.s = g.s) (hp : h.p = g.p) (cls : RClass) (n l : Nat) :
    h.seen cls n l = g.seen cls n l := by
  have hb : ∀ c n l, h.banked c n l = g.banked c n l := by intro c n l; cases c <;> simp [banked, hv, hs, hp]
  have : ∀ c n l, h.read c n l = g.read c n l := by intro c n l; simp [read, hw, hb]
  cases cls <;> simp [seen, readV, readS, readP, this]

/-- A register value as `seen` gives it: a predicate is 1 or 0. -/
def norm (cls : RClass) (x : Word64) : Word64 := if cls = .p then predVal (decide (x = 1)) else x

/-- The lane at which a class is looked up. -/
def at_ (cls : RClass) (l : Nat) : Nat := if cls = .s then 0 else l

theorem seen_eq (g : Group) (cls : RClass) (n l : Nat) (h : n < regCount cls) :
    g.seen cls n l = if cls = .p ∧ n = 63 then 1 else
      norm cls (match winFind cls n (at_ cls l) g.me.win with | some x => x | none => g.banked cls n (at_ cls l)) := by
  cases cls
  case v => rfl
  case s => rfl
  case p =>
    by_cases hn : n = 63
    · subst hn; rfl
    · simp only [seen, readP, read, norm, at_, hn, and_false, if_false, reduceCtorEq, predVal, decide_eq_true_eq]
      rfl
  all_goals simp [regCount] at h

theorem norm_banked (g : Group) (cls : RClass) (n l : Nat) : norm cls (g.banked cls n l) = g.banked cls n l := by
  cases cls <;> simp [norm, banked, predVal]

theorem norm_norm (cls : RClass) (x : Word64) : norm cls (norm cls x) = norm cls x := by
  by_cases h : cls = .p <;> simp [norm, h, predVal]

theorem banked_congr {g h : Group} (hv : h.v = g.v) (hs : h.s = g.s) (hp : h.p = g.p) (cls : RClass) (n l : Nat) : h.banked cls n l = g.banked cls n l := by
  cases cls <;> simp [banked, hv, hs, hp]

@[simp] theorem banked_setMe (g : Group) (t : Slot) (cls : RClass) (n l : Nat) : (g.setMe t).banked cls n l = g.banked cls n l :=
  banked_congr (by simp) (by simp) (by simp) ..

/-! ### Banking -/

/-- The vector registers after a write to the register file. -/
theorem bankWrite_v (g : Group) (w : RegWrite) : (g.bankWrite w).v = if w.cls = .v then
    tset g.v w.reg (Lanes.gen fun l => if lane w.lanes l then w.val.get l 0 else (tget g.v w.reg (Lanes.const 0)).get l 0) else g.v := by
  obtain ⟨wc, wr, wl, wv⟩ := w
  cases wc <;> simp only [bankWrite, reduceCtorEq, if_true, if_false] <;> split <;> rfl
/-- The uniform registers after a write to the register file. -/
theorem bankWrite_s (g : Group) (w : RegWrite) : (g.bankWrite w).s = if w.cls = .s ∧ lane w.lanes 0 then tset g.s w.reg (w.val.get 0 0) else g.s := by
  obtain ⟨wc, wr, wl, wv⟩ := w
  cases wc <;> simp only [bankWrite, reduceCtorEq, true_and, false_and, if_false] <;> split <;> rfl
/-- The predicates after a write to the register file. -/
theorem bankWrite_p (g : Group) (w : RegWrite) : (g.bankWrite w).p = if w.cls = .p ∧ w.reg ≠ 63 then
    tset g.p w.reg (maskOf fun l => if lane w.lanes l then w.val.get l 0 = 1 else lane (tget g.p w.reg 0) l) else g.p := by
  obtain ⟨wc, wr, wl, wv⟩ := w
  cases wc <;> simp only [bankWrite, reduceCtorEq, true_and, false_and, if_false, ne_eq, ite_not] <;> split <;> rfl

/-- A write to the register file touches no more than the register file. -/
theorem bankWrite_rest (g : Group) (w : RegWrite) : { g.bankWrite w with v := g.v, s := g.s, p := g.p } = g := by
  obtain ⟨wc, wr, wl, wv⟩ := w
  cases wc <;> simp only [bankWrite] <;> (try split) <;> rfl

/-- The register file after a write to it. -/
theorem banked_bankWrite (g : Group) (w : RegWrite) (cls : RClass) (n l : Nat) (hn : n < regCount cls) (hl : l < 32) (h63 : ¬(cls = .p ∧ n = 63)) :
    (g.bankWrite w).banked cls n (at_ cls l) = if w.covers cls n l then norm cls (w.val.get (at_ cls l) 0) else g.banked cls n (at_ cls l) := by
  cases cls
  case v =>
    simp only [banked, bankWrite_v, RegWrite.covers, norm, at_, reduceCtorEq, if_false]
    by_cases hc : w.cls = .v
    · by_cases h : w.reg = n
      · subst h; simp only [regCount] at hn; simp [hc, hn, hl]
      · simp [hc, h, tget_tset]
    · simp [hc]
  case s =>
    simp only [banked, bankWrite_s, RegWrite.covers, norm, at_, reduceCtorEq, if_false, if_true]
    by_cases hc : w.cls = .s
    · by_cases h : w.reg = n
      · subst h; simp only [regCount] at hn; by_cases hb : lane w.lanes 0 <;> simp [hc, hn, hb]
      · by_cases hb : lane w.lanes 0 <;> simp [hc, h, hb, tget_tset]
    · simp [hc]
  case p =>
    have h63 : n ≠ 63 := by simpa using h63
    simp only [banked, bankWrite_p, RegWrite.covers, norm, at_, reduceCtorEq, if_false, if_true, predVal]
    by_cases hc : w.cls = .p
    · by_cases h : w.reg = n
      · subst h; simp only [regCount] at hn; cases hb : lane w.lanes l <;> simp [hc, hn, hb, h63, hl]
      · have h' : ¬(63 = n) := fun e => h63 e.symm
        by_cases hb : w.reg = 63 <;> simp [hc, h, hb, h', tget_tset]
    · simp [hc]
  all_goals simp [regCount] at hn

/-! ### The window -/

/-- Banking one instruction of a window touches the register file, the lanes of older results and the record of banked writes alone. -/
theorem bankEnt_rest (g : Group) (b : Bool) (e : WinEnt) : { g.bankEnt b e with v := g.v, s := g.s, p := g.p, pend := g.pend, late := g.late } = g := by
  unfold bankEnt
  cases e.write with
  | none => rfl
  | some w =>
    cases e.killed with
    | true => rfl
    | false =>
      have := congrArg (fun h : Group => { h with pend := g.pend, late := g.late }) (bankWrite_rest g { w with lanes := g.freshLanes e.seq w })
      exact this

/-- A banked write keeps lanes of its own alone. -/
theorem freshLanes_le (g : Group) (seq : Nat) (w : RegWrite) (l : Nat) (h : lane (g.freshLanes seq w) l = true) : lane w.lanes l = true := by
  unfold freshLanes at h
  generalize g.late = es at h
  generalize w.lanes = m at h ⊢
  induction es generalizing m with
  | nil => exact h
  | cons e r ih =>
    have h' := ih _ h
    dsimp only at h'
    split at h'
    · rw [lane_and] at h'
      exact (Bool.and_eq_true _ _ ▸ h').1
    · exact h'

/-- A banked write covers what the write covers, but for lanes that a younger one has taken. -/
theorem fresh_covers (g : Group) (seq : Nat) (w : RegWrite) (cls : RClass) (n l : Nat)
    (h : ({ w with lanes := g.freshLanes seq w } : RegWrite).covers cls n l = true) : w.covers cls n l = true := by
  rw [RegWrite.covers_iff] at h ⊢
  exact ⟨h.1, h.2.1, freshLanes_le g seq w _ h.2.2⟩

theorem winFind_cons (e : WinEnt) (r : List WinEnt) (cls : RClass) (n l : Nat) :
    winFind cls n (at_ cls l) (e :: r) = match e.write with
      | some w => if w.covers cls n l then some (w.val.get (at_ cls l) 0) else winFind cls n (at_ cls l) r
      | none => winFind cls n (at_ cls l) r := by
  cases h : e.write <;> simp [winFind, h, RegWrite.covers, at_]

theorem winFind_append (a b : List WinEnt) (cls : RClass) (n l : Nat) :
    winFind cls n l (a ++ b) = (winFind cls n l a).or (winFind cls n l b) := by
  induction a with
  | nil => simp [winFind]
  | cons e r ih =>
    simp only [List.cons_append, winFind]
    split
    · split
      · rfl
      · exact ih
    · exact ih

theorem me_bankEnt (g : Group) (b : Bool) (e : WinEnt) : (g.bankEnt b e).me = g.me := by
  have := congrArg Group.me (bankEnt_rest g b e)
  exact this

@[simp] theorem me_pruneLate (g : Group) : g.pruneLate.me = g.me := rfl
@[simp] theorem banked_pruneLate (g : Group) (cls : RClass) (n l : Nat) : g.pruneLate.banked cls n l = g.banked cls n l := rfl
@[simp] theorem freshLanes_setMe (g : Group) (t : Slot) (seq : Nat) (w : RegWrite) : (g.setMe t).freshLanes seq w = g.freshLanes seq w := by
  simp [freshLanes]

/-- Reading after an instruction joins the window: its own write where it covers the register, else what was read before, unless a killed write has
left the window (R67). -/
theorem seen_pushWin (g : Group) (w : Option RegWrite) (cls : RClass) (n l : Nat) (hn : n < regCount cls) (hl : l < 32)
    (hd : g.dropsOldest cls n l = false) (h8 : g.me.win.length ≤ 8) :
    (g.pushWin w).seen cls n l = match w with
      | some r => if r.covers cls n l ∧ ¬(cls = .p ∧ n = 63) then norm cls (r.val.get (at_ cls l) 0) else g.seen cls n l
      | none => g.seen cls n l := by
  obtain ⟨win, hwin⟩ : ∃ win, g.me.win = win := ⟨_, rfl⟩
  have key : ∀ x : Group, x.me.win = ({ seq := g.seq, write := w } : WinEnt) :: g.me.win.take 7 → ¬(cls = .p ∧ n = 63) →
      (∀ y, winFind cls n (at_ cls l) (g.me.win.take 7) = y → y = none →
        norm cls (x.banked cls n (at_ cls l)) =
          norm cls (match winFind cls n (at_ cls l) (g.me.win.drop 7) with | some v => v | none => g.banked cls n (at_ cls l))) →
      x.seen cls n l = match w with
        | some r => if r.covers cls n l ∧ ¬(cls = .p ∧ n = 63) then norm cls (r.val.get (at_ cls l) 0) else g.seen cls n l
        | none => g.seen cls n l := by
    intro x hx h63 hbk
    have hg : g.seen cls n l = norm cls (match winFind cls n (at_ cls l) g.me.win with | some v => v | none => g.banked cls n (at_ cls l)) := by
      rw [seen_eq g cls n l hn, if_neg h63]
    have hsplit := winFind_append (g.me.win.take 7) (g.me.win.drop 7) cls n (at_ cls l)
    rw [List.take_append_drop] at hsplit
    have hrest : norm cls (match winFind cls n (at_ cls l) (g.me.win.take 7) with | some v => v | none => x.banked cls n (at_ cls l)) = g.seen cls n l := by
      rw [hg, hsplit]
      cases hf : winFind cls n (at_ cls l) (g.me.win.take 7) with
      | some v => rfl
      | none => exact hbk _ hf rfl
    rw [seen_eq x cls n l hn, if_neg h63, hx, winFind_cons]
    cases w with
    | none => exact hrest
    | some r =>
      by_cases hc : r.covers cls n l
      · simp [hc, h63]
      · simp only [hc, if_false, false_and, Bool.false_eq_true]; exact hrest
  by_cases h63 : cls = .p ∧ n = 63
  · obtain ⟨rfl, rfl⟩ := h63
    cases w <;> simp [seen]
  · unfold pushWin
    have hlen : g.me.win.length ≤ 8 := h8
    cases h7 : g.me.win[7]? with
    | none =>
      have hd7 : g.me.win.drop 7 = [] := List.drop_eq_nil_of_le (by simpa using h7)
      simp only [List.getElem?_cons_succ, h7]
      refine key _ (by simp) h63 fun y _ _ => ?_
      rw [hd7, banked_setMe]; rfl
    | some e =>
      have hlt : 7 < g.me.win.length := by
        rcases Nat.lt_or_ge 7 g.me.win.length with h | h
        · exact h
        · simp [List.getElem?_eq_none h] at h7
      have hd7 : g.me.win.drop 7 = [e] := by
        rw [List.drop_eq_getElem_cons hlt, List.drop_eq_nil_of_le (by omega)]
        rw [List.getElem?_eq_getElem hlt] at h7
        simpa using h7
      simp only [List.getElem?_cons_succ, h7]
      refine key _ (by rw [me_pruneLate, me_bankEnt]; simp) h63 fun y _ _ => ?_
      rw [banked_pruneLate]
      rw [hd7]
      simp only [dropsOldest, h7] at hd
      cases hw : e.write with
      | none => simp [bankEnt, hw, winFind]
      | some r =>
        rw [winFind_cons, hw]
        simp only [hw] at hd
        simp only [bankEnt, hw]
        cases hk : e.killed with
        | true =>
          have hcov : r.covers cls n l = false := by simpa [hk] using hd
          simp [hcov, winFind]
        | false =>
          have hcov : ({ r with lanes := g.freshLanes e.seq r } : RegWrite).covers cls n l = r.covers cls n l := by
            cases hr : r.covers cls n l with
            | false =>
              cases h' : ({ r with lanes := g.freshLanes e.seq r } : RegWrite).covers cls n l with
              | false => rfl
              | true => rw [fresh_covers g e.seq r cls n l h'] at hr; cases hr
            | true => simpa [hr, hk] using hd
          have hb := banked_bankWrite (g.setMe { g.me with win := ({ seq := g.seq, write := w } :: g.me.win).take 8 })
            { r with lanes := g.freshLanes e.seq r } cls n l hn hl h63
          rw [hcov] at hb
          have hg : ∀ (h k : Group) (ps : List Pend) (q : List (Nat × RClass × Nat × Word32)), h = k →
              ({ h with pend := ps, late := q } : Group).banked cls n (at_ cls l) = k.banked cls n (at_ cls l) := by
            rintro h k ps q rfl; exact banked_congr rfl rfl rfl ..
          simp only [Bool.false_eq_true, if_false, freshLanes_setMe]
          rw [hg _ _ _ _ rfl, hb]
          cases r.covers cls n l <;> simp [winFind, norm_norm]

/-- An instruction's own write is what its slot reads next (R67). -/
theorem seen_pushWin_own (g : Group) (r : RegWrite) (cls : RClass) (n l : Nat) (hn : n < regCount cls) (h63 : ¬(cls = .p ∧ n = 63))
    (hc : r.covers cls n l = true) : (g.pushWin (some r)).seen cls n l = norm cls (r.val.get (at_ cls l) 0) := by
  have hw : (g.pushWin (some r)).me.win = ({ seq := g.seq, write := some r } : WinEnt) :: g.me.win.take 7 := by
    unfold pushWin
    cases h : g.me.win[7]? <;> simp [h, me_bankEnt]
  rw [seen_eq _ _ _ _ hn, if_neg h63, hw, winFind_cons]
  simp [hc]

/-! ### Kills -/

/-- What a window's reads depend on. -/
def writes (w : List WinEnt) : List (Nat × Option RegWrite) := w.map fun e => (e.seq, e.write)

theorem winFind_writes (cls : RClass) (n l : Nat) : ∀ a b : List WinEnt, writes a = writes b → winFind cls n l a = winFind cls n l b
  | [], [], _ => rfl
  | [], _ :: _, h => by simp [writes] at h
  | _ :: _, [], h => by simp [writes] at h
  | x :: a, y :: b, h => by
    simp only [writes, List.map_cons, List.cons.injEq, Prod.mk.injEq] at h
    obtain ⟨⟨-, h1⟩, h2⟩ := h
    simp only [winFind, h1, winFind_writes cls n l a b h2]

/-- A group whose issuing slot's window may have had writes killed. -/
def KillsOf (g h : Group) : Prop := ∃ win, h = g.setMe { g.me with win } ∧ writes win = writes g.me.win

theorem KillsOf.refl (g : Group) : KillsOf g g := ⟨g.me.win, (setMe_me g).symm, rfl⟩

theorem KillsOf.killReg {g h : Group} (k : KillsOf g h) (cls : RClass) (n : Nat) : KillsOf g (h.killReg cls n) := by
  obtain ⟨win, rfl, hw⟩ := k
  refine ⟨_, by rw [Group.killReg, me_setMe, setMe_setMe], ?_⟩
  rw [← hw]
  simp only [writes, List.map_map]
  refine List.map_congr_left fun e _ => ?_
  simp only [Function.comp]
  cases he : e.write with
  | none => simp [he]
  | some w => by_cases hc : w.cls = cls ∧ w.reg = n <;> simp [he, hc]

theorem KillsOf.killOpnd {g h : Group} (k : KillsOf g h) (idx : Bool) (o : Option Opnd) : KillsOf g (h.killOpnd idx o) := by
  cases o with
  | none => exact k
  | some o =>
    have hf : ∀ (ls : List Nat) (h : Group), KillsOf g h → KillsOf g (ls.foldl (fun g k => g.killReg o.cls (idxReg idx o.num g.x + k)) h) := by
      intro ls
      induction ls with
      | nil => exact fun _ k => k
      | cons a r ih => exact fun h k => ih _ (k.killReg ..)
    by_cases ho : o.kill = true
    · simpa [Group.killOpnd, ho] using hf _ _ k
    · simpa [Group.killOpnd, ho] using k

theorem KillsOf.setX {g h : Group} (k : KillsOf g h) (x : BitVec 16) : KillsOf { g with x := x } { h with x := x } := by
  obtain ⟨win, rfl, hw⟩ := k
  refine ⟨win, ?_, hw⟩
  simp only [setMe, setSlot, me, slot]
  cases g.sel1 <;> rfl

/-- Kills change nothing of a group but which of its window's writes are killed. -/
theorem kills_spec (g : Group) (i : Instr) (c : Ctl) (x : BitVec 16) : KillsOf g (g.kills i c x) := by
  have h : KillsOf { g with x := x } (({ g with x := x }.killOpnd c.idxA i.operands.a).killOpnd c.idxB i.operands.b) :=
    ((KillsOf.refl _).killOpnd ..).killOpnd ..
  exact h.setX g.x

theorem KillsOf.seen {g h : Group} (k : KillsOf g h) (cls : RClass) (n l : Nat) (hn : n < regCount cls) : h.seen cls n l = g.seen cls n l := by
  obtain ⟨win, rfl, hw⟩ := k
  rw [seen_eq _ _ _ _ hn, seen_eq _ _ _ _ hn]
  simp only [me_setMe, banked_setMe, winFind_writes cls n _ win g.me.win hw]

end Group

end Sys2Proof.Machine
end

