-- ==== Sys2Proof/Laws/Issue.lean ====
section
/-!
SUPPORT. What the issue of an instruction comes to (R72): the state it leaves when nothing stops it, once for all instructions.
-/
set_option Elab.async false
namespace Sys2Proof.Machine
open Sys2Proof

namespace Group

/-! ### What the window and the kills leave alone -/

@[simp] theorem bare_setSlot (g : Group) (b : Bool) (t : Slot) : (g.setSlot b t).bare = g.bare := by cases b <;> rfl
@[simp] theorem bare_setMe (g : Group) (t : Slot) : (g.setMe t).bare = g.bare := bare_setSlot ..

@[simp] theorem bare_bankEnt (g : Group) (b : Bool) (e : WinEnt) : (g.bankEnt b e).bare = g.bare :=
  congrArg Group.bare (bankEnt_rest g b e) ▸ rfl

@[simp] theorem slot_bankEnt (g : Group) (b d : Bool) (e : WinEnt) : (g.bankEnt b e).slot d = g.slot d :=
  (congrArg (Group.slot · d) (bankEnt_rest g b e) : _)

theorem fpflags_bankEnt (g : Group) (b : Bool) (e : WinEnt) : (g.bankEnt b e).fpflags = g.fpflags :=
  (congrArg Group.fpflags (bankEnt_rest g b e) : _)
theorem seq_bankEnt (g : Group) (b : Bool) (e : WinEnt) : (g.bankEnt b e).seq = g.seq :=
  (congrArg Group.seq (bankEnt_rest g b e) : _)
theorem sel1_bankEnt (g : Group) (b : Bool) (e : WinEnt) : (g.bankEnt b e).sel1 = g.sel1 :=
  (congrArg Group.sel1 (bankEnt_rest g b e) : _)

@[simp] theorem shadePend_core (w : RegWrite) (n : Nat) (b : Bool) (ps : List Pend) : (shadePend w n b ps).map Pend.core = ps.map Pend.core := by
  simp only [shadePend, List.map_map]
  refine List.map_congr_left fun p _ => ?_
  simp only [Function.comp]
  split
  · rfl
  · split <;> rfl

@[simp] theorem bare_pruneLate (g : Group) : g.pruneLate.bare = g.bare := rfl
@[simp] theorem slot_pruneLate (g : Group) (b : Bool) : g.pruneLate.slot b = g.slot b := rfl
@[simp] theorem fpflags_pruneLate (g : Group) : g.pruneLate.fpflags = g.fpflags := rfl
@[simp] theorem seq_pruneLate (g : Group) : g.pruneLate.seq = g.seq := rfl
@[simp] theorem sel1_pruneLate (g : Group) : g.pruneLate.sel1 = g.sel1 := rfl
@[simp] theorem pend_pruneLate (g : Group) : g.pruneLate.pend = g.pend := rfl

theorem pend_bankEnt (g : Group) (b : Bool) (e : WinEnt) : (g.bankEnt b e).pend.map Pend.core = g.pend.map Pend.core := by
  unfold bankEnt
  split
  · split
    · rfl
    · exact shadePend_core ..
  · rfl

/-- A write that leaves the window takes no lanes from a result that is not older than it (R68). -/
theorem pend_bankEnt_own (g : Group) (b : Bool) (e : WinEnt) {p : Pend} (hp : p ∈ g.pend) (h : e.seq ≤ p.seq) : p ∈ (g.bankEnt b e).pend := by
  unfold bankEnt
  split
  · split
    · exact hp
    · refine List.mem_map.mpr ⟨p, hp, ?_⟩
      rename_i w _ _
      have hd : ∀ q : Pend, (discards w e.seq b q && decide (p.seq < q.seq)) = false := fun q => by
        simp only [discards, Bool.and_eq_false_iff, decide_eq_false_iff_not]; omega
      rw [if_neg (by simp [discards]; intros; omega)]
      simp [hd]
  · exact hp

theorem pend_pushWin_own (g : Group) (w : Option RegWrite) {p : Pend} (hp : p ∈ g.pend) (h : ∀ e ∈ g.me.win, e.seq ≤ p.seq) : p ∈ (g.pushWin w).pend := by
  unfold pushWin
  cases he : (({ seq := g.seq, write := w } : WinEnt) :: g.me.win)[8]? with
  | none => simpa [he] using hp
  | some e =>
    simp only [he]
    refine pend_bankEnt_own _ _ _ (by simpa using hp) (h e ?_)
    rw [List.getElem?_cons_succ] at he
    exact List.mem_of_getElem? he

/-- What joining the window leaves of a group. -/
theorem pushWin_spec (g : Group) (w : Option RegWrite) :
    (g.pushWin w).bare = g.bare ∧ (g.pushWin w).fpflags = g.fpflags ∧ (g.pushWin w).seq = g.seq ∧ (g.pushWin w).sel1 = g.sel1 ∧
    (g.pushWin w).slot (!g.sel1) = g.slot (!g.sel1) ∧
    (g.pushWin w).me = { g.me with win := (({ seq := g.seq, write := w } : WinEnt) :: g.me.win).take 8 } ∧
    (g.pushWin w).pend.map Pend.core = g.pend.map Pend.core := by
  unfold pushWin
  cases h : (({ seq := g.seq, write := w } : WinEnt) :: g.me.win)[8]? with
  | none => simp [h, setMe]
  | some e => simp [h, me_bankEnt, fpflags_bankEnt, seq_bankEnt, sel1_bankEnt, pend_bankEnt, setMe]

end Group

/-! ### Issue -/

/-- The issuing slot once its instruction is done (R48). -/
def Slot.next (t : Slot) (n : Nat) : Slot := { t with pc := t.pc + BitVec.ofNat 32 n, parked := false, wait := none, tw := none, woken := none }

/-- The group once an instruction that left `g1` and made the write `w` is done, at a step. -/
def Group.done (g1 : Group) (i : Instr) (c : Ctl) (x : BitVec 16) (w : Option RegWrite) (k : Nat) : Group :=
  let h := (g1.kills i c x).pushWin w
  (h.issued k).setMe (h.me.next c.units)

/-! #### The commit park -/

namespace Group

@[simp] theorem bare_bankWrite (g : Group) (w : RegWrite) : (g.bankWrite w).bare = g.bare :=
  congrArg Group.bare (bankWrite_rest g w) ▸ rfl

/-- A commit changes no more of a group than its windows, its registers, its uncommitted results and its flags. -/
theorem bare_commit (g : Group) : g.commit.bare = g.bare := by
  have h1 : ∀ (l : List (Bool × WinEnt)) (g : Group), (l.foldl (fun g e => g.bankEnt e.1 e.2) g).bare = g.bare := by
    intro l
    induction l with
    | nil => exact fun _ => rfl
    | cons e r ih => exact fun g => (ih _).trans (bare_bankEnt ..)
  have h2 : g.bankAll.bare = g.bare := h1 _ g
  have h3 : ∀ (l : List Pend) (g : Group), (l.foldl (fun g p => g.commitOne p) g).bare = g.bare := by
    intro l
    induction l with
    | nil => exact fun _ => rfl
    | cons p r ih => exact fun g => (ih _).trans (bare_bankWrite g p.write)
  exact (h3 g.bankAll.pend g.bankAll).trans h2

end Group

@[simp] theorem State.publishW_cur (s : State) (id wg : Nat) : (s.publishW id wg).cur = s.cur := rfl

/-- Putting lines out of an L1 leaves all but the cores. -/
@[simp] theorem State.trimL1_cur (s : State) (core n : Nat) : (s.trimL1 core n).cur = s.cur := by unfold State.trimL1; dsimp only; split <;> rfl
@[simp] theorem State.trimL1_steps (s : State) (core n : Nat) : (s.trimL1 core n).steps = s.steps := by unfold State.trimL1; dsimp only; split <;> rfl

@[simp] theorem State.finishAlloc_cur (s : State) (wg h : Nat) : (s.finishAlloc wg h).cur = s.cur := by
  unfold State.finishAlloc
  split
  · rfl
  · split
    · rfl
    · dsimp only; split <;> simp [State.updHandle]

@[simp] theorem State.finishAlloc_steps (s : State) (wg h : Nat) : (s.finishAlloc wg h).steps = s.steps := by
  unfold State.finishAlloc
  split
  · rfl
  · split
    · rfl
    · dsimp only; split <;> simp [State.updHandle]

@[simp] theorem State.finishAllocs_cur (s : State) (id wg : Nat) : (s.finishAllocs id wg).cur = s.cur := by
  have key : ∀ (f : State → Nat → State), (∀ s h, (f s h).cur = s.cur) → ∀ (l : List Nat) (s : State), (l.foldl f s).cur = s.cur := by
    intro f hf l
    induction l with
    | nil => exact fun _ => rfl
    | cons a r ih => exact fun s => (ih _).trans (hf ..)
  unfold State.finishAllocs
  cases s.wg? wg with
  | none => rfl
  | some w =>
    refine key _ (fun s h => ?_) _ s
    dsimp only
    split <;> simp

/-- Taking a commit park changes no more of the issuing group than a commit does. -/
theorem takePark_bare {s s1 : State} {b : Bool} (h : s.takePark b = some s1) : s1.cur.bare = s.cur.bare := by
  unfold State.takePark at h
  simp only at h
  split at h
  · cases h; rfl
  · split at h
    · cases h; simp [Group.bare_commit]
    · cases h

/-! #### Going through -/

/-- A step that changes neither the stack nor the split table writes neither. -/
theorem Group.divChanges_same (old g : Group) (h1 : g.stack = old.stack) (h2 : g.split = old.split) : old.divChanges g = [] := by
  simp [Group.divChanges, h1, h2]

theorem mirrorStop_same (s : State) (old : Group) (h1 : s.cur.stack = old.stack) (h2 : s.cur.split = old.split) : s.mirrorStop old = none := by
  simp [State.mirrorStop, Group.divChanges_same old s.cur h1 h2]

theorem mirror_same (s : State) (old : Group) (h1 : s.cur.stack = old.stack) (h2 : s.cur.split = old.split) : s.mirror old = s := by
  simp [State.mirror, Group.divChanges_same old s.cur h1 h2]

/-- A step that changes neither is made. -/
theorem mirrored_same (old : Group) (s t : State) (b : Bool) (pc : Word32) (h1 : t.cur.stack = old.stack) (h2 : t.cur.split = old.split) :
    mirrored old s b pc (.next t) = .next t := by
  simp [mirrored, mirrorStop_same t old h1 h2, mirror_same t old h1 h2]

/-- A commit park keeps the machine's step. -/
theorem takePark_steps {s s1 : State} {b : Bool} (h : s.takePark b = some s1) : s1.steps = s.steps := by
  have key : ∀ (f : State → Nat → State), (∀ s h, (f s h).steps = s.steps) → ∀ (l : List Nat) (s : State), (l.foldl f s).steps = s.steps := by
    intro f hf l
    induction l with
    | nil => exact fun _ => rfl
    | cons a r ih => exact fun s => (ih _).trans (hf ..)
  unfold State.takePark at h
  simp only at h
  split at h
  · cases h; rfl
  · split at h
    · cases h
      unfold State.finishAllocs
      split
      · rfl
      · refine (key _ (fun s k => ?_) _ _).trans rfl
        dsimp only
        split <;> simp
    · cases h

theorem Group.stack_of_bare {g h : Group} (e : g.bare = h.bare) : g.stack = h.stack := (congrArg Group.stack e : g.bare.stack = h.bare.stack)
theorem Group.split_of_bare {g h : Group} (e : g.bare = h.bare) : g.split = h.split := (congrArg Group.split e : g.bare.split = h.bare.split)

/-- Moving on inside a block. -/
theorem advance_next (s : State) (n : Nat) (h : s.cur.me.pc + BitVec.ofNat 32 n ≠ s.cur.me.blk.bend) :
    s.advance n = .next (s.setCur (s.cur.setMe (s.cur.me.next n))) := by
  unfold State.advance
  simp only [h, if_false]
  rfl

/-- AN INSTRUCTION THAT NOTHING STOPS: the state that its body leaves, with its kills made, its place in the window and its slot at the next item. -/
theorem runInstr_done {i : Instr} {c : Ctl} {s s1 t : State} {w : Option RegWrite} {body : State → M (State × Option RegWrite)}
    (hr : Ready i c s s1) (hb : body s1 = .ok (t, w)) (hpc : t.cur.me.pc = s1.cur.me.pc) (hbl : t.cur.me.blk.bend = s1.cur.me.blk.bend)
    (hst : t.cur.stack = s1.cur.stack) (hsp : t.cur.split = s1.cur.split) :
    runInstr i c body s = .next (t.setCur (t.cur.done i c s1.cur.x w s1.steps)) := by
  obtain ⟨-, hrange, hpark, -, hroom, hend⟩ := hr
  have hbare := takePark_bare hpark
  obtain ⟨win, hk, hkw⟩ := Group.kills_spec t.cur i c s1.cur.x
  have hp := Group.pushWin_spec (t.cur.kills i c s1.cur.x) w
  generalize hh : (t.cur.kills i c s1.cur.x).pushWin w = h at hp
  obtain ⟨hp1, -, -, hp4, -, hp6, -⟩ := hp
  have hme : h.me.pc = s1.cur.me.pc ∧ h.me.blk.bend = s1.cur.me.blk.bend := by rw [hp6, hk]; simp [hpc, hbl]
  have hbar : h.bare = t.cur.bare := hp1.trans (by rw [hk]; exact Group.bare_setMe ..)
  have hroom' : (i.pendCount ≠ 0 && decide (128 < s1.cur.uncommitted + i.pendCount)) = false := by
    rcases hroom with h | h
    · simp [h]
    · have : ¬ 128 < s1.cur.uncommitted + i.pendCount := by omega
      simp [this]
  have hadv := advance_next (t.setCur (h.issued s1.steps)) c.units (by
    show h.me.pc + _ ≠ h.me.blk.bend
    rw [hme.1, hme.2]; exact hend)
  have hm := mirrored_same s.cur s1 ((t.setCur (h.issued s1.steps)).setCur
      ((t.setCur (h.issued s1.steps)).cur.setMe ((t.setCur (h.issued s1.steps)).cur.me.next c.units))) s.cur.sel1 s.cur.me.pc
    (by simp [Group.issued, Group.stack_of_bare hbar, hst, Group.stack_of_bare hbare])
    (by simp [Group.issued, Group.split_of_bare hbar, hsp, Group.split_of_bare hbare])
  have hbody : (do let (t, w) ← body s1; pure (t, w, fun s : State => s.advance c.units) : M Effect) = .ok (t, w, fun s => s.advance c.units) := by
    rw [hb]; rfl
  have hrun : runInstr i c body s = mirrored s.cur s1 s.cur.sel1 s.cur.me.pc ((t.setCur (h.issued s1.steps)).advance c.units) := by
    unfold runInstr runWith
    simp only [hrange, hpark, hroom', hbody, hh, Bool.not_true, Bool.false_eq_true, if_false]
  rw [hrun, hadv, hm]
  simp only [State.setCur_setCur, Group.done, hh]
  rfl

/-! ### Short results -/

namespace Group

@[simp] theorem issued_bare (g : Group) (k : Nat) : (g.issued k).bare = g.bare := rfl
@[simp] theorem issued_fpflags (g : Group) (k : Nat) : (g.issued k).fpflags = g.fpflags := rfl
@[simp] theorem issued_sel1 (g : Group) (k : Nat) : (g.issued k).sel1 = g.sel1 := rfl
@[simp] theorem issued_pend (g : Group) (k : Nat) : (g.issued k).pend = g.pend := rfl
@[simp] theorem issued_seq (g : Group) (k : Nat) : (g.issued k).seq = g.seq + 1 := rfl
@[simp] theorem issued_slot (g : Group) (k : Nat) (b : Bool) : (g.issued k).slot b = g.slot b := rfl
@[simp] theorem issued_v (g : Group) (k : Nat) : (g.issued k).v = g.v := rfl
@[simp] theorem issued_s (g : Group) (k : Nat) : (g.issued k).s = g.s := rfl
@[simp] theorem issued_p (g : Group) (k : Nat) : (g.issued k).p = g.p := rfl

/-- What the end of an instruction leaves of its group. -/
theorem done_spec (g : Group) (i : Instr) (c : Ctl) (x : BitVec 16) (w : Option RegWrite) (k : Nat) :
    (g.done i c x w k).bare = g.bare ∧ (g.done i c x w k).fpflags = g.fpflags ∧ (g.done i c x w k).slot (!g.sel1) = g.slot (!g.sel1) ∧
    (g.done i c x w k).me.st = g.me.st ∧ (g.done i c x w k).me.mask = g.me.mask ∧ (g.done i c x w k).me.reconv = g.me.reconv ∧
    (g.done i c x w k).me.parent = g.me.parent ∧ (g.done i c x w k).me.blk = g.me.blk ∧ (g.done i c x w k).me.pc = g.me.pc + BitVec.ofNat 32 c.units ∧
    (g.done i c x w k).pend.map Pend.core = g.pend.map Pend.core ∧ (g.done i c x w k).sel1 = g.sel1 ∧ (g.done i c x w k).seq = g.seq + 1 := by
  obtain ⟨win, hk, -⟩ := kills_spec g i c x
  have hp := pushWin_spec (g.kills i c x) w
  obtain ⟨h1, h2, h3, h4, h5, h6, h7⟩ := hp
  unfold done
  generalize hh : (g.kills i c x).pushWin w = h at *
  rw [hk] at h1 h2 h3 h4 h5 h6 h7
  simp only [setMe_sel1, setMe_fpflags, setMe_seq, setMe_pend, bare_setMe, me_setMe] at h1 h2 h3 h4 h5 h6 h7
  have ho : (g.setMe { g.me with win }).slot (!g.sel1) = g.slot (!g.sel1) := slot_setSlot_not ..
  rw [ho] at h5
  refine ⟨by rw [bare_setMe, issued_bare, h1], by simp [h2], ?_, ?_⟩
  · show ((h.issued k).setSlot h.sel1 _).slot (!g.sel1) = _
    rw [h4, slot_setSlot_not, issued_slot]; exact h5
  · simp [Slot.next, h6, h7, h4, h3]

/-- What its slot reads after it. -/
theorem seen_done (g : Group) (i : Instr) (c : Ctl) (x : BitVec 16) (w : Option RegWrite) (k : Nat) (cls : RClass) (n l : Nat) :
    (g.done i c x w k).seen cls n l = ((g.kills i c x).pushWin w).seen cls n l := by
  unfold done
  refine seen_congr ?_ ?_ ?_ ?_ cls n l <;> simp [Slot.next]

/-- Kills look at the issuing slot alone. -/
theorem kills_me {g h : Group} (e : h.me = g.me) (i : Instr) (c : Ctl) (x : BitVec 16) : (h.kills i c x).me = (g.kills i c x).me := by
  have step : ∀ (idx : Bool) (o : Option Opnd) (g h : Group), h.me = g.me ∧ h.x = g.x →
      (h.killOpnd idx o).me = (g.killOpnd idx o).me ∧ (h.killOpnd idx o).x = (g.killOpnd idx o).x := by
    intro idx o g h e
    cases o with
    | none => exact e
    | some o =>
      have hf : ∀ (ls : List Nat) (g h : Group), h.me = g.me ∧ h.x = g.x →
          (ls.foldl (fun g k => g.killReg o.cls (idxReg idx o.num g.x + k)) h).me = (ls.foldl (fun g k => g.killReg o.cls (idxReg idx o.num g.x + k)) g).me ∧
          (ls.foldl (fun g k => g.killReg o.cls (idxReg idx o.num g.x + k)) h).x = (ls.foldl (fun g k => g.killReg o.cls (idxReg idx o.num g.x + k)) g).x := by
        intro ls
        induction ls with
        | nil => exact fun _ _ e => e
        | cons a r ih => exact fun g h e => ih _ _ (by simp [killReg, e.1, e.2])
      by_cases ho : o.kill = true
      · simpa [Group.killOpnd, ho] using hf _ g h e
      · simpa [Group.killOpnd, ho] using e
  exact (step _ _ _ _ (step c.idxA i.operands.a { g with x := x } { h with x := x } ⟨e, rfl⟩)).1

end Group

/-- AN INSTRUCTION GOES THROUGH: whatever its body leaves as `u`, it is behind it; and its slot reads the register write that it made. -/
theorem runInstr_after {i : Instr} {c : Ctl} {s s1 u : State} {w : Option RegWrite} {body : State → M (State × Option RegWrite)}
    {dest : RClass → Nat → Nat → Bool} (hr : Ready i c s s1) (hb : body s1 = .ok (u, w))
    (hwin : u.cur.me.win = s1.cur.me.win) (hpc : u.cur.me.pc = s1.cur.me.pc) (hbl : u.cur.me.blk.bend = s1.cur.me.blk.bend)
    (hq : u.cur.seq = s1.cur.seq)
    (hst : u.cur.stack = s1.cur.stack) (hsp : u.cur.split = s1.cur.split)
    (hd : ∀ r, w = some r → ∀ cls n l, n < regCount cls → l < 32 → r.covers cls n l = true → dest cls n l = true) :
    ∃ t, runInstr i c body s = .next t ∧ After i c s1.cur.x u t dest ∧
      ∀ r, w = some r → ∀ cls n l, n < regCount cls → l < 32 → ¬(cls = .p ∧ n = 63) → r.covers cls n l = true →
        t.cur.seen cls n l = Group.norm cls (r.val.get (Group.at_ cls l) 0) := by
  have hrun := runInstr_done hr hb hpc hbl hst hsp
  obtain ⟨d1, d2, d3, d4, d5, d6, d7, d8, d9, d10, d11, -⟩ := Group.done_spec u.cur i c s1.cur.x w s1.steps
  refine ⟨_, hrun, ⟨rfl, d1, d2, d3, ⟨d4, d5, d6, d7, d8⟩, d9, ?_, d10, ?_⟩, ?_⟩
  · intro cls n l hn hl hdst hdrop
    have hks := Group.kills_spec u.cur i c s1.cur.x
    have hlen : (u.cur.kills i c s1.cur.x).me.win.length ≤ 8 := by
      obtain ⟨win, e, hw⟩ := hks
      have h1 := congrArg List.length hw
      simp only [Group.writes, List.length_map] at h1
      rw [e]; simp only [Group.me_setMe, h1, hwin]
      exact (hr.2.2.2.1.1 s1.cur.sel1).1
    rw [State.setCur_cur, Group.seen_done, Group.seen_pushWin _ _ _ _ _ hn hl hdrop hlen]
    have hold := hks.seen cls n l hn
    cases w with
    | none => exact hold
    | some r =>
      simp only
      split
      · rename_i hc
        have := hd r rfl cls n l hn hl hc.1
        rw [hdst] at this; cases this
      · exact hold
  · intro p hp hs
    obtain ⟨win, e, hw⟩ := Group.kills_spec u.cur i c s1.cur.x
    have hin : p ∈ ((u.cur.kills i c s1.cur.x).pushWin w).pend := by
      refine Group.pend_pushWin_own _ _ (by rw [e]; simpa using hp) fun e1 he1 => ?_
      have hseq : (u.cur.kills i c s1.cur.x).me.win.map (·.seq) = u.cur.me.win.map (·.seq) := by rw [e]; simp only [Group.me_setMe]; simpa [Group.writes, List.map_map, Function.comp_def] using congrArg (List.map Prod.fst) hw
      have : e1.seq ∈ u.cur.me.win.map (·.seq) := hseq ▸ List.mem_map_of_mem he1
      obtain ⟨e0, h0, h00⟩ := List.mem_map.mp this
      rw [hwin] at h0
      have := (hr.2.2.2.1.1 s1.cur.sel1).2 e0 h0
      rw [hs, hq, ← h00]; omega
    simpa [Group.done] using hin
  · intro r hw cls n l hn hl h63 hc
    subst hw
    rw [State.setCur_cur, Group.seen_done]
    exact Group.seen_pushWin_own _ r cls n l hn h63 hc

/-- The same for an instruction that writes no register of its own. -/
theorem runInstr_after_none {i : Instr} {c : Ctl} {s s1 u : State} {body : State → M (State × Option RegWrite)}
    (hr : Ready i c s s1) (hb : body s1 = .ok (u, none))
    (hwin : u.cur.me.win = s1.cur.me.win) (hpc : u.cur.me.pc = s1.cur.me.pc) (hbl : u.cur.me.blk.bend = s1.cur.me.blk.bend)
    (hq : u.cur.seq = s1.cur.seq)
    (hst : u.cur.stack = s1.cur.stack) (hsp : u.cur.split = s1.cur.split) :
    ∃ t, runInstr i c body s = .next t ∧ After i c s1.cur.x u t noDest :=
  let ⟨t, h, a, _⟩ := runInstr_after (dest := noDest) hr hb hwin hpc hbl hq hst hsp (by intro r hw; cases hw)
  ⟨t, h, a⟩

end Sys2Proof.Machine
end

