-- ==== Sys2Proof/Laws/Memory.lean ====
section
/-!
SUPPORT. Sparse tables and memory: reads after writes, and the canonical form kept by every operation that writes bytes of memory (R323, R325, R338).
-/
set_option Elab.async false
namespace Sys2Proof

/-- Every key of a table lies above `k`. -/
def Sparse.above {α : Type} (k : Nat) (m : Sparse α) : Prop := ∀ e ∈ m, k < e.1

/-- The canonical form of a table with a first entry. -/
theorem Sparse.wf_cons {α : Type} [DecidableEq α] {d : α} {k : Nat} {v : α} {r : Sparse α} :
    Sparse.wf d ((k, v) :: r) = true ↔ v ≠ d ∧ Sparse.above k r ∧ Sparse.wf d r = true := by
  induction r generalizing k v with
  | nil => simp [Sparse.wf, Sparse.above]
  | cons e r ih =>
    obtain ⟨k', v'⟩ := e
    simp only [Sparse.wf, Bool.and_eq_true, decide_eq_true_eq]
    constructor
    · rintro ⟨⟨hv, hk⟩, hw⟩
      refine ⟨hv, ?_, hw⟩
      intro e he
      rcases List.mem_cons.1 he with rfl | he
      · exact hk
      · exact Nat.lt_trans hk ((ih.1 hw).2.1 e he)
    · rintro ⟨hv, ha, hw⟩
      exact ⟨⟨hv, ha (k', v') (List.mem_cons_self ..)⟩, hw⟩

/-- A write adds no key but its own. -/
theorem Sparse.mem_set {α : Type} [DecidableEq α] {d : α} {m : Sparse α} {q : Nat} {v : α} {e : Nat × α} (h : e ∈ Sparse.set d m q v) :
    e.1 = q ∨ e ∈ m := by
  induction m with
  | nil => unfold Sparse.set at h; split at h <;> simp_all
  | cons x r ih =>
    obtain ⟨k, w⟩ := x
    unfold Sparse.set at h
    split at h
    · split at h
      · exact .inr h
      · rcases List.mem_cons.1 h with rfl | h
        · exact .inl rfl
        · exact .inr h
    · split at h
      · split at h
        · exact .inr (List.mem_cons_of_mem _ h)
        · rcases List.mem_cons.1 h with rfl | h
          · simp_all
          · exact .inr (List.mem_cons_of_mem _ h)
      · rcases List.mem_cons.1 h with rfl | h
        · simp
        · rcases ih h with h | h <;> simp [h]

/-- A write keeps the canonical form. -/
theorem Sparse.set_wf {α : Type} [DecidableEq α] {d : α} {m : Sparse α} (q : Nat) (v : α) (h : Sparse.wf d m = true) :
    Sparse.wf d (Sparse.set d m q v) = true := by
  induction m with
  | nil => unfold Sparse.set; split <;> simp_all [Sparse.wf]
  | cons x r ih =>
    obtain ⟨k, w⟩ := x
    obtain ⟨hw, ha, hr⟩ := Sparse.wf_cons.1 h
    unfold Sparse.set
    split
    · rename_i hq
      split
      · exact h
      · refine Sparse.wf_cons.2 ⟨‹_›, ?_, h⟩
        intro e he
        rcases List.mem_cons.1 he with rfl | he
        · exact hq
        · exact Nat.lt_trans hq (ha e he)
    · split
      · split
        · exact hr
        · exact Sparse.wf_cons.2 ⟨‹_›, ha, hr⟩
      · refine Sparse.wf_cons.2 ⟨hw, ?_, ih hr⟩
        intro e he
        rcases Sparse.mem_set he with h1 | h1
        · omega
        · exact ha e h1

/-- A key below every listed key reads as the default. -/
theorem Sparse.get_above {α : Type} {d : α} {m : Sparse α} {q : Nat} (h : Sparse.above q m) : Sparse.get d m q = d := by
  cases m with
  | nil => rfl
  | cons x r =>
    obtain ⟨k, w⟩ := x
    have := h (k, w) (List.mem_cons_self ..)
    simp only at this
    simp [Sparse.get, this, Nat.ne_of_gt this]

/-- A write is read back. -/
theorem Sparse.get_set_self {α : Type} [DecidableEq α] {d : α} {m : Sparse α} (q : Nat) (v : α) (h : Sparse.wf d m = true) :
    Sparse.get d (Sparse.set d m q v) q = v := by
  induction m with
  | nil => unfold Sparse.set; split <;> simp_all [Sparse.get]
  | cons x r ih =>
    obtain ⟨k, w⟩ := x
    obtain ⟨hw, ha, hr⟩ := Sparse.wf_cons.1 h
    unfold Sparse.set
    split
    · rename_i hq
      split <;> simp_all [Sparse.get]
      omega
    · split
      · rename_i hq
        subst hq
        split
        · rename_i hv
          rw [hv]; exact Sparse.get_above ha
        · simp [Sparse.get]
      · have : k ≠ q := by omega
        simp [Sparse.get, this, show ¬ q < k by omega, ih hr]

/-- A write leaves every other key. -/
theorem Sparse.get_set_ne {α : Type} [DecidableEq α] {d : α} {m : Sparse α} {p q : Nat} (v : α) (h : Sparse.wf d m = true) (hp : p ≠ q) :
    Sparse.get d (Sparse.set d m q v) p = Sparse.get d m p := by
  induction m with
  | nil => unfold Sparse.set; split <;> simp_all [Sparse.get]; omega
  | cons x r ih =>
    obtain ⟨k, w⟩ := x
    obtain ⟨hw, ha, hr⟩ := Sparse.wf_cons.1 h
    unfold Sparse.set
    split
    · split
      · rfl
      · by_cases h1 : p < q
        · have h2 : p < k := by omega
          simp [Sparse.get, Ne.symm hp, h1, h2, Nat.ne_of_gt h2]
        · simp [Sparse.get, Ne.symm hp, h1]
    · split
      · rename_i hq
        subst hq
        split
        · by_cases h1 : p < q
          · rw [Sparse.get_above (fun e he => Nat.lt_trans h1 (ha e he))]
            simp [Sparse.get, Ne.symm hp, h1]
          · simp [Sparse.get, Ne.symm hp, h1]
        · simp [Sparse.get, Ne.symm hp]
      · simp only [Sparse.get, ih hr]

namespace Machine

/-- A byte write keeps the canonical form. -/
theorem Memory.write_wf {m : List Host.Cell} (a : Nat) (b : Byte) (h : Memory.wf m) : Memory.wf (Memory.write m a b) := Sparse.set_wf a b h

/-- A write of several bytes keeps the canonical form. -/
theorem Memory.writeN_wf {m : List Host.Cell} (a : Nat) (d : List Byte) (h : Memory.wf m) : Memory.wf (Memory.writeN m a d) := by
  induction d generalizing m a with
  | nil => exact h
  | cons b r ih => exact ih (a + 1) (Memory.write_wf a b h)

/-- A byte outside the written ones reads as before. -/
theorem Memory.read_writeN {m : List Host.Cell} (a p : Nat) (d : List Byte) (h : Memory.wf m) (hp : p < a ∨ a + d.length ≤ p) :
    Memory.read (Memory.writeN m a d) p = Memory.read m p := by
  induction d generalizing m a with
  | nil => rfl
  | cons b r ih =>
    simp only [List.length_cons] at hp
    exact (ih (a + 1) (Memory.write_wf a b h) (by omega)).trans (Sparse.get_set_ne b h (by omega))

/-- A write to a compressed block keeps the canonical form (R338). -/
theorem State.blockWrite_wf {s : State} (blk off : Nat) (d : List Byte) (h : Memory.wf s.mem) : Memory.wf (s.blockWrite blk off d).mem :=
  Memory.write_wf _ _ (Memory.writeN_wf _ _ h)

/-- A write at the controller keeps the canonical form (R334). -/
theorem State.ctlWrite_wf {s : State} (loc : Nat) (d : List Byte) (h : Memory.wf s.mem) : Memory.wf (s.ctlWrite loc d).mem := by
  unfold State.ctlWrite
  simp only []
  split
  · exact State.blockWrite_wf _ _ _ h
  · exact Memory.writeN_wf _ _ h

/-- An interrupt of the physical function leaves memory (R431). -/
theorem State.raisePf_mem (s : State) (n : Nat) : (s.raisePf n).mem = s.mem := by
  unfold State.raisePf; repeat' split <;> rfl

/-- An error-log record keeps the canonical form (R400). -/
theorem State.logError_wf {s : State} (sl kind cls vf unit addr : Nat) (lx : Word64) (h : Memory.wf s.mem) :
    Memory.wf (s.logError sl kind cls vf unit addr lx).mem := by
  unfold State.logError
  simp only []
  split
  · exact h
  · split
    · split
      · rw [State.raisePf_mem]; dsimp only; exact Memory.writeN_wf _ _ h
      · dsimp only; exact Memory.writeN_wf _ _ h
    · exact h

/-- A write at a line's home keeps the canonical form (R325). -/
theorem State.homeWrite_wf {s : State} (loc : Nat) (d : List Byte) (h : Memory.wf s.mem) : Memory.wf (s.homeWrite loc d).mem := by
  unfold State.homeWrite
  simp only []
  split
  · split <;> exact h
  · split <;> exact State.ctlWrite_wf _ _ h

/-- Reset memory lists nothing (log entry 2). -/
theorem State.reset_mem_wf : Memory.wf State.reset.mem := rfl

end Machine
end Sys2Proof
end

