-- ==== Sys2Proof/Laws/Operands.lean ====
section
/-!
SUPPORT. What the operand forms come to: packed sub-elements, per-lane and uniform results.
-/
set_option Elab.async false
namespace Sys2Proof.Machine
open Sys2Proof

/-! ### Sub-elements (R26) -/

theorem packSubs_lt (w : Nat) : ∀ xs : List Nat, packSubs w xs < 2 ^ (w * xs.length)
  | [] => by simp [packSubs]
  | x :: r => by
    have h1 : x % 2 ^ w < 2 ^ w := Nat.mod_lt _ (by positivity)
    have h2 := packSubs_lt w r
    simp only [packSubs, List.length_cons, Nat.mul_succ, Nat.pow_add]
    calc x % 2 ^ w + 2 ^ w * packSubs w r < 2 ^ w + 2 ^ w * packSubs w r := by omega
      _ = 2 ^ w * (packSubs w r + 1) := by ring
      _ ≤ 2 ^ w * 2 ^ (w * r.length) := Nat.mul_le_mul_left _ h2
      _ = _ := by ring

theorem packSubs_get (w : Nat) : ∀ (xs : List Nat) (k : Nat) (h : k < xs.length), packSubs w xs / 2 ^ (w * k) % 2 ^ w = xs[k] % 2 ^ w
  | [], _, h => by simp at h
  | x :: r, 0, _ => by simp [packSubs]
  | x :: r, k + 1, h => by
    have h1 : x % 2 ^ w < 2 ^ w := Nat.mod_lt _ (by positivity)
    have ih := packSubs_get w r k (by simpa using h)
    have e : (x % 2 ^ w + 2 ^ w * packSubs w r) / 2 ^ w = packSubs w r := by
      rw [Nat.add_mul_div_left _ _ (by positivity), Nat.div_eq_of_lt h1, Nat.zero_add]
    rw [packSubs, Nat.mul_succ, Nat.add_comm (w * k), Nat.pow_add, ← Nat.div_div_eq_div_mul, e, ih]
    rfl

/-- Sub-element `k` of a packed lane. -/
theorem subEl_bySub (w : Nat) (f : Nat → Nat) (k : Nat) (h : k < subCount w) (hw : w * subCount w ≤ 64) : subEl w (bySub w f) k = f k % 2 ^ w := by
  have hl : packSubs w ((List.range (subCount w)).map f) < 2 ^ 64 := by
    refine Nat.lt_of_lt_of_le (packSubs_lt w _) (Nat.pow_le_pow_right (by omega) ?_)
    simpa using hw
  simp only [subEl, bySub, BitVec.toNat_ofNat, Nat.mod_eq_of_lt hl]
  rw [packSubs_get w _ k (by simpa using h)]
  simp

theorem subEl_bySubF (w : Nat) (f : Nat → Flagged Nat) (k : Nat) (h : k < subCount w) (hw : w * subCount w ≤ 64) :
    subEl w (bySubF w f).1 k = (f k).1 % 2 ^ w := by
  have e : (bySubF w f).1 = bySub w fun k => (f k).1 := by simp [bySubF, bySub, List.map_map, Function.comp_def]
  rw [e, subEl_bySub w _ k h hw]

/-- A list's flags, bit by bit. -/
theorem foldFlags_bit {α : Type} (g : α → BitVec 6) (j : Nat) : ∀ (l : List α) (a : BitVec 6),
    (l.foldl (fun a x => a ||| g x) a).getLsbD j = (a.getLsbD j || l.any fun x => (g x).getLsbD j)
  | [], a => by simp
  | x :: r, a => by simp [foldFlags_bit g j r, Bool.or_assoc]

/-! ### Per-lane and uniform short results (R58, R65, R127) -/

/-- A SHORT PER-LANE RESULT goes through: it writes its destination in the active lanes, in the helper lanes that go with them and, as zero, in the lanes
of the zero clause; the flags of its active lanes are added; nothing else changes. -/
theorem laneShort_after {i : Instr} {c : Ctl} {s s1 : State} {cls : RClass} {reg : Group → Nat} {f : Group → Nat → Flagged Word64}
    (hr : Ready i c s s1) (hs : cls ≠ .s) :
    ∃ t, runInstr i c (laneShort c cls reg f) s = .next t ∧
      After i c s1.cur.x (s1.withFlags (s1.cur.laneResult c cls (reg s1.cur) (f s1.cur)).2) t (laneDest s1.cur c cls (reg s1.cur)) ∧
      ∀ l < 32, reg s1.cur < regCount cls → ¬(cls = .p ∧ reg s1.cur = 63) → lane (s1.cur.written c) l = true →
        t.cur.seen cls (reg s1.cur) l = Group.norm cls (if lane (s1.cur.zeroLanes c) l then 0 else (f s1.cur l).1) := by
  obtain ⟨t, h1, h2, h4⟩ := runInstr_after (dest := laneDest s1.cur c cls (reg s1.cur)) (body := laneShort c cls reg f)
    (w := if (s1.cur.laneResult c cls (reg s1.cur) (f s1.cur)).1.lanes = 0 then none else some (s1.cur.laneResult c cls (reg s1.cur) (f s1.cur)).1)
    (u := s1.withFlags (s1.cur.laneResult c cls (reg s1.cur) (f s1.cur)).2) hr rfl rfl rfl rfl rfl rfl rfl (by
    intro r hw k n l hn hl hc
    split at hw
    · cases hw
    · cases hw
      obtain ⟨h1, h2, h3⟩ := (RegWrite.covers_iff ..).mp hc
      have h1 : cls = k := h1
      have h2 : reg s1.cur = n := h2
      subst h1 h2
      rw [if_neg hs] at h3
      have h3 : lane (s1.cur.written c) l = true := h3
      simp [laneDest, h3])
  refine ⟨t, h1, h2, fun l hl hn h63 hw => ?_⟩
  have hne : (s1.cur.laneResult c cls (reg s1.cur) (f s1.cur)).1.lanes ≠ 0 := by
    intro h
    have : (s1.cur.written c) = 0#32 := h
    rw [this, lane_zero] at hw; cases hw
  have := h4 (s1.cur.laneResult c cls (reg s1.cur) (f s1.cur)).1 (if_neg hne) cls (reg s1.cur) l hn hl h63
    ((RegWrite.covers_iff ..).mpr ⟨rfl, rfl, by rw [if_neg hs]; exact hw⟩)
  rw [this]
  simp only [Group.laneResult, Group.laneWrite, Group.at_, if_neg hs, Lanes.get_gen _ _ _ hl, hw, if_true]

/-- A SHORT UNIFORM RESULT goes through: when some lane passes the guard it writes its destination and adds its flags; nothing else changes. -/
theorem uniShort_after {i : Instr} {c : Ctl} {s s1 : State} {d : BitVec 8} {f : Group → Flagged Word64} (hr : Ready i c s s1) :
    ∃ t, runInstr i c (uniShort c d f) s = .next t ∧
      After i c s1.cur.x (s1.withFlags (if s1.cur.passes c then (f s1.cur).2 else 0)) t (uniDest s1.cur c (s1.cur.rD c d)) ∧
      (s1.cur.passes c = true → s1.cur.rD c d < 64 → t.cur.readS (s1.cur.rD c d) = (f s1.cur).1) := by
  by_cases hp : s1.cur.passes c = true
  · obtain ⟨t, h1, h2, h4⟩ := runInstr_after (w := some (Group.uniWrite (s1.cur.rD c d) (f s1.cur).1)) (u := s1.withFlags (f s1.cur).2)
      (dest := uniDest s1.cur c (s1.cur.rD c d)) (body := uniShort c d f) hr (by simp [uniShort, groupLevel, hp, shortResult, State.withFlags])
      rfl rfl rfl rfl rfl rfl (by
        intro r hw k n l hn hl hc
        cases hw
        obtain ⟨h1, h2, -⟩ := (RegWrite.covers_iff ..).mp hc
        have h1 : RClass.s = k := h1
        have h2 : s1.cur.rD c d = n := h2
        subst h1 h2
        simp [uniDest, hp])
    refine ⟨t, h1, by simpa only [hp, if_true] using h2, fun _ hn => ?_⟩
    have := h4 _ rfl .s (s1.cur.rD c d) 0 hn (by decide) (by simp) ((RegWrite.covers_iff ..).mpr ⟨rfl, rfl, by rw [if_pos rfl]; exact lane_allLanes 0 (by decide)⟩)
    refine this.trans ?_
    show Group.norm .s ((Lanes.const (f s1.cur).1).get 0 0) = _
    rw [Lanes.get_const _ _ _ (by decide)]; rfl
  · have hz : s1.withFlags (0 : BitVec 6) = s1 := by
      have : s1.cur.fpflags ||| (0 : BitVec 6) = s1.cur.fpflags := BitVec.or_zero
      unfold State.withFlags
      rw [this]; rfl
    obtain ⟨t, h1, h2, -⟩ := runInstr_after (w := none) (u := s1)
      (dest := uniDest s1.cur c (s1.cur.rD c d)) (body := uniShort c d f) hr (by simp [uniShort, groupLevel, hp]) rfl rfl rfl rfl rfl rfl
      (by intro r hw; cases hw)
    exact ⟨t, h1, by simpa only [hp, if_false, Bool.false_eq_true, hz] using h2, fun h => absurd h hp⟩

/-- A LONG RESULT that is there at issue goes through: it joins the uncommitted results whole, with its flags; nothing else changes. -/
theorem longResult_after {i : Instr} {c : Ctl} {s s1 : State} {f : Group → RegWrite × BitVec 6} (hr : Ready i c s s1) :
    ∃ t, runInstr i c (longResult f) s = .next t ∧
      After i c s1.cur.x (s1.setCur (s1.cur.addPend (f s1.cur).1.cls (f s1.cur).1.reg (f s1.cur).1.lanes (f s1.cur).1.val true (f s1.cur).2)) t noDest :=
  runInstr_after_none hr rfl rfl rfl rfl rfl rfl rfl

end Sys2Proof.Machine
end

