-- ==== Sys2Proof/Laws/PerInstr.lean ====
section
/-!
SUPPORT. The encoding of each instruction, by constructor: the decoder's table of R73 gives back the instruction from the opcode and the fields
      that its
entry lays out, whatever its operands, and the opcode is listed. An event has neither.
-/
set_option Elab.async false
namespace Sys2Proof
set_option linter.unusedSimpArgs false

/-- The decoder's table reads an instruction back from its own opcode and fields, and R73 lists that opcode. -/
def Laws.Encoding.Statement (i : Instr) : Prop :=
  ∀ (op : BitVec 10) (c : Ctl), i.opcode = some op → i.ctl = some c → ofFields op i.fields c = some i ∧ opcodeListed op = true

/-- An event has no opcode. -/
theorem Laws.Encoding.event {i : Instr} (h : i.opcode = none) : Laws.Encoding.Statement i := fun _ _ h1 => by simp [h] at h1

/-- The statement for an instruction whose table row is known. -/
theorem Laws.Encoding.row {i : Instr} (op : BitVec 10) (c : Ctl) (h : i.opcode = some op) (hc : i.ctl = some c)
    (h1 : ofFields op i.fields c = some i) (h2 : opcodeListed op = true) : Laws.Encoding.Statement i := by
  intro op' c' ho hc'
  rw [h] at ho; rw [hc] at hc'
  cases ho; cases hc'
  exact ⟨h1, h2⟩

/-- MOD[9] of `tbar.exp` and `tbar.exp.arv` (R180). -/
theorem BarB.mb9 (o : BarB) (arv : Bool) : (o.fields arv).mod.getLsbD 9 = arv := by
  simp (disch := omega) only [BarB.fields, BarRef.fields, Fields.setA, Fields.setB, bit_low, bit_high, bit_self, Nat.reduceAdd, Nat.reduceSub]

theorem BarTest.mb9 (o : BarTest) : o.fields.mod.getLsbD 9 = false := by
  obtain ⟨d, _ | _ | _, _ | _⟩ := o <;> simp (disch := omega) only [BarTest.fields, BarRef.fields, Fields.setA, Fields.setB, Fields.setOptB,
      Par.src, Par.bits, bit_low, bit_high, bit_self, Nat.reduceAdd, Nat.reduceSub] <;> rfl

theorem BarBrk.mb9 (o : BarBrk) : o.fields.mod.getLsbD 9 = true := by
  simp (disch := omega) only [BarBrk.fields, BarRef.fields, Fields.setA, bit_low, bit_high, Nat.reduceAdd, Nat.reduceSub]; rfl

/-- MOD[7] of `tex.q` (R240). -/
theorem TexQ.mb7 (o : TexQ) (lod : Bool) : (o.fields lod).mod.getLsbD 7 = lod := by
  simp (disch := omega) only [TexQ.fields, Fields.setA, Fields.setB, bit_low, bit_high, bit_self, Nat.reduceAdd, Nat.reduceSub]

/-- MOD[6] of `mxscl` (R200). -/
theorem MxScl.mb6 (o : MxScl) : o.fields.mod.getLsbD 6 = true := by
  simp (disch := omega) only [MxScl.fields, Fields.setA, Fields.setB, bit_low, bit_high, Nat.reduceAdd, Nat.reduceSub]; rfl

theorem ofFields_0x007 (f : Fields) (c : Ctl) : ofFields 0x007 f c =
    (match (f.m 5 2).toNat with | 0 => some (.trap c (f.m 7 11)) | 1 => some (.trapRet c) | 2 => some (.trapSkip c) | _ => none) := rfl
theorem ofFields_0x008 (f : Fields) (c : Ctl) : ofFields 0x008 f c =
    (some (.brk c (f.m 5 13))) := rfl
theorem ofFields_0x00C (f : Fields) (c : Ctl) : ofFields 0x00C f c =
    (some (.daymark c (f.m 5 12) (if f.mb 17 then some f.a else none))) := rfl
theorem ofFields_0x010 (f : Fields) (c : Ctl) : ofFields 0x010 f c =
    (some (.getsr c f.dst f.srcA (f.mb 5))) := rfl
theorem ofFields_0x012 (f : Fields) (c : Ctl) : ofFields 0x012 f c =
    (some (.setx c (setxOf f))) := rfl
theorem ofFields_0x013 (f : Fields) (c : Ctl) : ofFields 0x013 f c =
    (if f.mb 5 then some (.wmovFromW c f.dst f.srcA) else some (.wmovToW c f.dst f.a)) := rfl
theorem ofFields_0x249 (f : Fields) (c : Ctl) : ofFields 0x249 f c =
    (some (.tbarArv c f.bar)) := rfl
theorem ofFields_0x24A (f : Fields) (c : Ctl) : ofFields 0x24A f c =
    (if f.mb 9 then BarB.ofFields f |>.map (.tbarExpArv c) else BarB.ofFields f |>.map (.tbarExp c)) := rfl
theorem ofFields_0x24C (f : Fields) (c : Ctl) : ofFields 0x24C f c =
    (if f.mb 9 then BarBrk.ofFields f |>.map (.tbarTestBrk c) else BarTest.ofFields f |>.map (.tbarTestPh c)) := rfl
theorem ofFields_0x24D (f : Fields) (c : Ctl) : ofFields 0x24D f c =
    (some (.tbarInval c f.bar)) := rfl
theorem ofFields_0x283 (f : Fields) (c : Ctl) : ofFields 0x283 f c =
    (if f.mb 6 then MxScl.ofFields f |>.map (.mxscl c) else some (.mxsclNone c (f.mb 5))) := rfl
theorem ofFields_0x2C5 (f : Fields) (c : Ctl) : ofFields 0x2C5 f c =
    (some (.wregClr c (f.m 5 6))) := rfl
theorem ofFields_0x302 (f : Fields) (c : Ctl) : ofFields 0x302 f c =
    (if f.mb 7 then TexQ.ofFields f |>.map (.texQLod c) else TexQ.ofFields f |>.map (.texQDim c)) := rfl

theorem Laws.Encoding.br (c : Ctl) (imm : BitVec 27) : Laws.Encoding.Statement (.br c imm) :=
  Laws.Encoding.row 0x001 c rfl rfl (by
    exact congrArg (fun x => some (Instr.br c x)) (imm27_eq imm)) rfl
theorem Laws.Encoding.brc (c : Ctl) (imm : BitVec 27) : Laws.Encoding.Statement (.brc c imm) :=
  Laws.Encoding.row 0x002 c rfl rfl (by
    exact congrArg (fun x => some (Instr.brc c x)) (imm27_eq imm)) rfl
theorem Laws.Encoding.jmp (c : Ctl) (a : Src) : Laws.Encoding.Statement (.jmp c a) :=
  Laws.Encoding.row 0x003 c rfl rfl rfl rfl
theorem Laws.Encoding.call (c : Ctl) (imm : BitVec 27) : Laws.Encoding.Statement (.call c imm) :=
  Laws.Encoding.row 0x004 c rfl rfl (by
    exact congrArg (fun x => some (Instr.call c x)) (imm27_eq imm)) rfl
theorem Laws.Encoding.ret (c : Ctl) : Laws.Encoding.Statement (.ret c) :=
  Laws.Encoding.row 0x005 c rfl rfl rfl rfl
theorem Laws.Encoding.exit (c : Ctl) : Laws.Encoding.Statement (.exit c) :=
  Laws.Encoding.row 0x006 c rfl rfl rfl rfl
theorem Laws.Encoding.trap (c : Ctl) (n : BitVec 11) : Laws.Encoding.Statement (.trap c n) :=
  Laws.Encoding.row 0x007 c rfl rfl (by
rw [ofFields_0x007];     simp (disch := omega) [-BitVec.getLsbD_eq_getElem, Instr.fields, Fields.m, Fields.mb, Fields.a, Fields.setA, Fields.setB,
      Src.fieldsA, Fields.b, extract_low, extract_high, bit_low, bit_high, extract_self, bit_self]) rfl
theorem Laws.Encoding.trapRet (c : Ctl) : Laws.Encoding.Statement (.trapRet c) :=
  Laws.Encoding.row 0x007 c rfl rfl (by
rw [ofFields_0x007];     simp (disch := omega) [-BitVec.getLsbD_eq_getElem, Instr.fields, Fields.m, Fields.mb, Fields.a, Fields.setA, Fields.setB,
      Src.fieldsA, Fields.b, extract_low, extract_high, bit_low, bit_high, extract_self, bit_self]) rfl
theorem Laws.Encoding.trapSkip (c : Ctl) : Laws.Encoding.Statement (.trapSkip c) :=
  Laws.Encoding.row 0x007 c rfl rfl (by
rw [ofFields_0x007];     simp (disch := omega) [-BitVec.getLsbD_eq_getElem, Instr.fields, Fields.m, Fields.mb, Fields.a, Fields.setA, Fields.setB,
      Src.fieldsA, Fields.b, extract_low, extract_high, bit_low, bit_high, extract_self, bit_self]) rfl
theorem Laws.Encoding.brk (c : Ctl) (n : BitVec 13) : Laws.Encoding.Statement (.brk c n) :=
  Laws.Encoding.row 0x008 c rfl rfl (by
rw [ofFields_0x008];     simp (disch := omega) [-BitVec.getLsbD_eq_getElem, Instr.fields, Fields.m, Fields.mb, Fields.a, Fields.setA, Fields.setB,
      Src.fieldsA, Fields.b, extract_low, extract_high, bit_low, bit_high, extract_self, bit_self]) rfl
theorem Laws.Encoding.nop (c : Ctl) : Laws.Encoding.Statement (.nop c) :=
  Laws.Encoding.row 0x009 c rfl rfl rfl rfl
theorem Laws.Encoding.yield (c : Ctl) : Laws.Encoding.Statement (.yield c) :=
  Laws.Encoding.row 0x00A c rfl rfl rfl rfl
theorem Laws.Encoding.park (c : Ctl) : Laws.Encoding.Statement (.park c) :=
  Laws.Encoding.row 0x00B c rfl rfl rfl rfl
theorem Laws.Encoding.daymark (c : Ctl) (n : BitVec 12) (a : Option Src) : Laws.Encoding.Statement (.daymark c n a) :=
  Laws.Encoding.row 0x00C c rfl rfl (by
rw [ofFields_0x00C];     cases a <;> simp (disch := omega) [-BitVec.getLsbD_eq_getElem, Instr.fields, Fields.m, Fields.mb, Fields.a, Fields.setA,
      Fields.setB, Src.fieldsA, Fields.b, extract_low, extract_high, bit_low, bit_high, extract_self, bit_self, daymarkFields, Fields.setOptA]) rfl
theorem Laws.Encoding.syncWg (c : Ctl) : Laws.Encoding.Statement (.syncWg c) :=
  Laws.Encoding.row 0x00D c rfl rfl rfl rfl
theorem Laws.Encoding.syncGang (c : Ctl) : Laws.Encoding.Statement (.syncGang c) :=
  Laws.Encoding.row 0x00E c rfl rfl rfl rfl
theorem Laws.Encoding.launch (c : Ctl) (o : AB) : Laws.Encoding.Statement (.launch c o) :=
  Laws.Encoding.row 0x00F c rfl rfl (congrArg (Option.map _) (AB.ofFields_fields o _)) rfl
theorem Laws.Encoding.getsr (c : Ctl) (d sr : BitVec 8) (vdst : Bool) : Laws.Encoding.Statement (.getsr c d sr vdst) :=
  Laws.Encoding.row 0x010 c rfl rfl (by
rw [ofFields_0x010];     simp (disch := omega) [-BitVec.getLsbD_eq_getElem, Instr.fields, Fields.m, Fields.mb, Fields.a, Fields.setA, Fields.setB,
      Src.fieldsA, Fields.b, extract_low, extract_high, bit_low, bit_high, extract_self, bit_self]) rfl
theorem Laws.Encoding.setsr (c : Ctl) (sr : BitVec 8) (a : Src) : Laws.Encoding.Statement (.setsr c sr a) :=
  Laws.Encoding.row 0x011 c rfl rfl rfl rfl
theorem Laws.Encoding.setx (c : Ctl) (v : RegImm 12) : Laws.Encoding.Statement (.setx c v) :=
  Laws.Encoding.row 0x012 c rfl rfl (by
rw [ofFields_0x012];     cases v <;> simp (disch := omega) [-BitVec.getLsbD_eq_getElem, Instr.fields, Fields.m, Fields.mb, Fields.a, Fields.setA,
      Fields.setB, Src.fieldsA, Fields.b, extract_low, extract_high, bit_low, bit_high, extract_self, bit_self, setxFields, setxOf]) rfl
theorem Laws.Encoding.wmovToW (c : Ctl) (d : BitVec 8) (a : Src) : Laws.Encoding.Statement (.wmovToW c d a) :=
  Laws.Encoding.row 0x013 c rfl rfl (by
rw [ofFields_0x013];     simp (disch := omega) [-BitVec.getLsbD_eq_getElem, Instr.fields, Fields.m, Fields.mb, Fields.a, Fields.setA, Fields.setB,
      Src.fieldsA, Fields.b, extract_low, extract_high, bit_low, bit_high, extract_self, bit_self]) rfl
theorem Laws.Encoding.wmovFromW (c : Ctl) (d a : BitVec 8) : Laws.Encoding.Statement (.wmovFromW c d a) :=
  Laws.Encoding.row 0x013 c rfl rfl (by
rw [ofFields_0x013];     simp (disch := omega) [-BitVec.getLsbD_eq_getElem, Instr.fields, Fields.m, Fields.mb, Fields.a, Fields.setA, Fields.setB,
      Src.fieldsA, Fields.b, extract_low, extract_high, bit_low, bit_high, extract_self, bit_self]) rfl
theorem Laws.Encoding.sadd (c : Ctl) (o : UArith) : Laws.Encoding.Statement (.sadd c o) :=
  Laws.Encoding.row 0x040 c rfl rfl (congrArg (Option.map _) (UArith.ofFields_fields o)) rfl
theorem Laws.Encoding.ssub (c : Ctl) (o : UArith) : Laws.Encoding.Statement (.ssub c o) :=
  Laws.Encoding.row 0x041 c rfl rfl (congrArg (Option.map _) (UArith.ofFields_fields o)) rfl
theorem Laws.Encoding.smul (c : Ctl) (o : UArith) : Laws.Encoding.Statement (.smul c o) :=
  Laws.Encoding.row 0x042 c rfl rfl (congrArg (Option.map _) (UArith.ofFields_fields o)) rfl
theorem Laws.Encoding.smulh (c : Ctl) (o : UArith) : Laws.Encoding.Statement (.smulh c o) :=
  Laws.Encoding.row 0x043 c rfl rfl (congrArg (Option.map _) (UArith.ofFields_fields o)) rfl
theorem Laws.Encoding.sand (c : Ctl) (o : UArith) : Laws.Encoding.Statement (.sand c o) :=
  Laws.Encoding.row 0x044 c rfl rfl (congrArg (Option.map _) (UArith.ofFields_fields o)) rfl
theorem Laws.Encoding.sor (c : Ctl) (o : UArith) : Laws.Encoding.Statement (.sor c o) :=
  Laws.Encoding.row 0x045 c rfl rfl (congrArg (Option.map _) (UArith.ofFields_fields o)) rfl
theorem Laws.Encoding.sxor (c : Ctl) (o : UArith) : Laws.Encoding.Statement (.sxor c o) :=
  Laws.Encoding.row 0x046 c rfl rfl (congrArg (Option.map _) (UArith.ofFields_fields o)) rfl
theorem Laws.Encoding.snot (c : Ctl) (o : UUn) : Laws.Encoding.Statement (.snot c o) :=
  Laws.Encoding.row 0x047 c rfl rfl (congrArg (Option.map _) (UUn.ofFields_fields o)) rfl
theorem Laws.Encoding.sshl (c : Ctl) (o : UArith) : Laws.Encoding.Statement (.sshl c o) :=
  Laws.Encoding.row 0x048 c rfl rfl (congrArg (Option.map _) (UArith.ofFields_fields o)) rfl
theorem Laws.Encoding.sshr (c : Ctl) (o : UArith) : Laws.Encoding.Statement (.sshr c o) :=
  Laws.Encoding.row 0x049 c rfl rfl (congrArg (Option.map _) (UArith.ofFields_fields o)) rfl
theorem Laws.Encoding.ssar (c : Ctl) (o : UArith) : Laws.Encoding.Statement (.ssar c o) :=
  Laws.Encoding.row 0x04A c rfl rfl (congrArg (Option.map _) (UArith.ofFields_fields o)) rfl
theorem Laws.Encoding.smin (c : Ctl) (o : UArith) : Laws.Encoding.Statement (.smin c o) :=
  Laws.Encoding.row 0x04B c rfl rfl (congrArg (Option.map _) (UArith.ofFields_fields o)) rfl
theorem Laws.Encoding.smax (c : Ctl) (o : UArith) : Laws.Encoding.Statement (.smax c o) :=
  Laws.Encoding.row 0x04C c rfl rfl (congrArg (Option.map _) (UArith.ofFields_fields o)) rfl
theorem Laws.Encoding.ssetp (c : Ctl) (o : USetp) : Laws.Encoding.Statement (.ssetp c o) :=
  Laws.Encoding.row 0x04D c rfl rfl (congrArg (Option.map _) (USetp.ofFields_fields o)) rfl
theorem Laws.Encoding.smov (c : Ctl) (o : DA) : Laws.Encoding.Statement (.smov c o) :=
  Laws.Encoding.row 0x04E c rfl rfl (congrArg (Option.map _) (DA.ofFields_fields o _)) rfl
theorem Laws.Encoding.smovi (c : Ctl) (o : MovImm) : Laws.Encoding.Statement (.smovi c o) :=
  Laws.Encoding.row 0x04F c rfl rfl (congrArg (Option.map _) (MovImm.ofFields_fields o)) rfl
theorem Laws.Encoding.ssel (c : Ctl) (o : USel) : Laws.Encoding.Statement (.ssel c o) :=
  Laws.Encoding.row 0x050 c rfl rfl (congrArg (Option.map _) (USel.ofFields_fields o)) rfl
theorem Laws.Encoding.sld (c : Ctl) (o : ULoad) : Laws.Encoding.Statement (.sld c o) :=
  Laws.Encoding.row 0x051 c rfl rfl (congrArg (Option.map _) (ULoad.ofFields_fields o)) rfl
theorem Laws.Encoding.sst (c : Ctl) (o : UStore) : Laws.Encoding.Statement (.sst c o) :=
  Laws.Encoding.row 0x052 c rfl rfl (congrArg (Option.map _) (UStore.ofFields_fields o)) rfl
theorem Laws.Encoding.pand (c : Ctl) (o : PBin) : Laws.Encoding.Statement (.pand c o) :=
  Laws.Encoding.row 0x080 c rfl rfl (congrArg (Option.map _) (PBin.ofFields_fields o)) rfl
theorem Laws.Encoding.por (c : Ctl) (o : PBin) : Laws.Encoding.Statement (.por c o) :=
  Laws.Encoding.row 0x081 c rfl rfl (congrArg (Option.map _) (PBin.ofFields_fields o)) rfl
theorem Laws.Encoding.pxor (c : Ctl) (o : PBin) : Laws.Encoding.Statement (.pxor c o) :=
  Laws.Encoding.row 0x082 c rfl rfl (congrArg (Option.map _) (PBin.ofFields_fields o)) rfl
theorem Laws.Encoding.pnot (c : Ctl) (o : DA) : Laws.Encoding.Statement (.pnot c o) :=
  Laws.Encoding.row 0x083 c rfl rfl (congrArg (Option.map _) (DA.ofFields_fields o _)) rfl
theorem Laws.Encoding.pmov (c : Ctl) (o : PUn) : Laws.Encoding.Statement (.pmov c o) :=
  Laws.Encoding.row 0x084 c rfl rfl (congrArg (Option.map _) (PUn.ofFields_fields o)) rfl
theorem Laws.Encoding.psel (c : Ctl) (o : DAB) : Laws.Encoding.Statement (.psel c o) :=
  Laws.Encoding.row 0x085 c rfl rfl (congrArg (Option.map _) (DAB.ofFields_fields o _)) rfl
theorem Laws.Encoding.voteAny (c : Ctl) (o : PUn) : Laws.Encoding.Statement (.voteAny c o) :=
  Laws.Encoding.row 0x086 c rfl rfl (congrArg (Option.map _) (PUn.ofFields_fields o)) rfl
theorem Laws.Encoding.voteAll (c : Ctl) (o : PUn) : Laws.Encoding.Statement (.voteAll c o) :=
  Laws.Encoding.row 0x087 c rfl rfl (congrArg (Option.map _) (PUn.ofFields_fields o)) rfl
theorem Laws.Encoding.voteBal (c : Ctl) (o : DA) : Laws.Encoding.Statement (.voteBal c o) :=
  Laws.Encoding.row 0x088 c rfl rfl (congrArg (Option.map _) (DA.ofFields_fields o _)) rfl
theorem Laws.Encoding.iadd (c : Ctl) (o : VInt) : Laws.Encoding.Statement (.iadd c o) :=
  Laws.Encoding.row 0x0C0 c rfl rfl (congrArg (Option.map _) (VInt.ofFields_fields o)) rfl
theorem Laws.Encoding.isub (c : Ctl) (o : VInt) : Laws.Encoding.Statement (.isub c o) :=
  Laws.Encoding.row 0x0C1 c rfl rfl (congrArg (Option.map _) (VInt.ofFields_fields o)) rfl
theorem Laws.Encoding.imul (c : Ctl) (o : VInt) : Laws.Encoding.Statement (.imul c o) :=
  Laws.Encoding.row 0x0C2 c rfl rfl (congrArg (Option.map _) (VInt.ofFields_fields o)) rfl
theorem Laws.Encoding.imulh (c : Ctl) (o : VInt) : Laws.Encoding.Statement (.imulh c o) :=
  Laws.Encoding.row 0x0C3 c rfl rfl (congrArg (Option.map _) (VInt.ofFields_fields o)) rfl
theorem Laws.Encoding.imad (c : Ctl) (o : VInt) : Laws.Encoding.Statement (.imad c o) :=
  Laws.Encoding.row 0x0C4 c rfl rfl (congrArg (Option.map _) (VInt.ofFields_fields o)) rfl
theorem Laws.Encoding.iabs (c : Ctl) (o : VUn) : Laws.Encoding.Statement (.iabs c o) :=
  Laws.Encoding.row 0x0C5 c rfl rfl (congrArg (Option.map _) (VUn.ofFields_fields o)) rfl
theorem Laws.Encoding.ineg (c : Ctl) (o : VUn) : Laws.Encoding.Statement (.ineg c o) :=
  Laws.Encoding.row 0x0C6 c rfl rfl (congrArg (Option.map _) (VUn.ofFields_fields o)) rfl
theorem Laws.Encoding.imin (c : Ctl) (o : VInt) : Laws.Encoding.Statement (.imin c o) :=
  Laws.Encoding.row 0x0C7 c rfl rfl (congrArg (Option.map _) (VInt.ofFields_fields o)) rfl
theorem Laws.Encoding.imax (c : Ctl) (o : VInt) : Laws.Encoding.Statement (.imax c o) :=
  Laws.Encoding.row 0x0C8 c rfl rfl (congrArg (Option.map _) (VInt.ofFields_fields o)) rfl
theorem Laws.Encoding.isad (c : Ctl) (o : VInt) : Laws.Encoding.Statement (.isad c o) :=
  Laws.Encoding.row 0x0C9 c rfl rfl (congrArg (Option.map _) (VInt.ofFields_fields o)) rfl
theorem Laws.Encoding.ishl (c : Ctl) (o : VInt) : Laws.Encoding.Statement (.ishl c o) :=
  Laws.Encoding.row 0x0CA c rfl rfl (congrArg (Option.map _) (VInt.ofFields_fields o)) rfl
theorem Laws.Encoding.ishr (c : Ctl) (o : VInt) : Laws.Encoding.Statement (.ishr c o) :=
  Laws.Encoding.row 0x0CB c rfl rfl (congrArg (Option.map _) (VInt.ofFields_fields o)) rfl
theorem Laws.Encoding.isar (c : Ctl) (o : VInt) : Laws.Encoding.Statement (.isar c o) :=
  Laws.Encoding.row 0x0CC c rfl rfl (congrArg (Option.map _) (VInt.ofFields_fields o)) rfl
theorem Laws.Encoding.lop3 (c : Ctl) (o : Lop3) : Laws.Encoding.Statement (.lop3 c o) :=
  Laws.Encoding.row 0x0CD c rfl rfl (congrArg (Option.map _) (Lop3.ofFields_fields o)) rfl
theorem Laws.Encoding.popc (c : Ctl) (o : VUn) : Laws.Encoding.Statement (.popc c o) :=
  Laws.Encoding.row 0x0CE c rfl rfl (congrArg (Option.map _) (VUn.ofFields_fields o)) rfl
theorem Laws.Encoding.clz (c : Ctl) (o : VUn) : Laws.Encoding.Statement (.clz c o) :=
  Laws.Encoding.row 0x0CF c rfl rfl (congrArg (Option.map _) (VUn.ofFields_fields o)) rfl
theorem Laws.Encoding.brev (c : Ctl) (o : VUn) : Laws.Encoding.Statement (.brev c o) :=
  Laws.Encoding.row 0x0D0 c rfl rfl (congrArg (Option.map _) (VUn.ofFields_fields o)) rfl
theorem Laws.Encoding.bfe (c : Ctl) (o : VInt) : Laws.Encoding.Statement (.bfe c o) :=
  Laws.Encoding.row 0x0D1 c rfl rfl (congrArg (Option.map _) (VInt.ofFields_fields o)) rfl
theorem Laws.Encoding.bfi (c : Ctl) (o : VInt) : Laws.Encoding.Statement (.bfi c o) :=
  Laws.Encoding.row 0x0D2 c rfl rfl (congrArg (Option.map _) (VInt.ofFields_fields o)) rfl
theorem Laws.Encoding.isetp (c : Ctl) (o : ISetp) : Laws.Encoding.Statement (.isetp c o) :=
  Laws.Encoding.row 0x0D3 c rfl rfl (congrArg (Option.map _) (ISetp.ofFields_fields o)) rfl
theorem Laws.Encoding.imov (c : Ctl) (o : IMov) : Laws.Encoding.Statement (.imov c o) :=
  Laws.Encoding.row 0x0D4 c rfl rfl (congrArg (Option.map _) (IMov.ofFields_fields o)) rfl
theorem Laws.Encoding.imovi (c : Ctl) (o : MovImm) : Laws.Encoding.Statement (.imovi c o) :=
  Laws.Encoding.row 0x0D5 c rfl rfl (congrArg (Option.map _) (MovImm.ofFields_fields o)) rfl
theorem Laws.Encoding.isel (c : Ctl) (o : ISel) : Laws.Encoding.Statement (.isel c o) :=
  Laws.Encoding.row 0x0D6 c rfl rfl (congrArg (Option.map _) (ISel.ofFields_fields o)) rfl
theorem Laws.Encoding.idp4 (c : Ctl) (o : Idp4) : Laws.Encoding.Statement (.idp4 c o) :=
  Laws.Encoding.row 0x0D7 c rfl rfl (congrArg (Option.map _) (Idp4.ofFields_fields o)) rfl
theorem Laws.Encoding.swz (c : Ctl) (o : VInt) : Laws.Encoding.Statement (.swz c o) :=
  Laws.Encoding.row 0x0D8 c rfl rfl (congrArg (Option.map _) (VInt.ofFields_fields o)) rfl
theorem Laws.Encoding.fadd (c : Ctl) (o : F2) : Laws.Encoding.Statement (.fadd c o) :=
  Laws.Encoding.row 0x100 c rfl rfl (congrArg (Option.map _) (F2.ofFields_fields o)) rfl
theorem Laws.Encoding.fsub (c : Ctl) (o : F2) : Laws.Encoding.Statement (.fsub c o) :=
  Laws.Encoding.row 0x101 c rfl rfl (congrArg (Option.map _) (F2.ofFields_fields o)) rfl
theorem Laws.Encoding.fmul (c : Ctl) (o : F2) : Laws.Encoding.Statement (.fmul c o) :=
  Laws.Encoding.row 0x102 c rfl rfl (congrArg (Option.map _) (F2.ofFields_fields o)) rfl
theorem Laws.Encoding.ffma (c : Ctl) (o : F3) : Laws.Encoding.Statement (.ffma c o) :=
  Laws.Encoding.row 0x103 c rfl rfl (congrArg (Option.map _) (F3.ofFields_fields o)) rfl
theorem Laws.Encoding.fmin (c : Ctl) (o : F2) : Laws.Encoding.Statement (.fmin c o) :=
  Laws.Encoding.row 0x104 c rfl rfl (congrArg (Option.map _) (F2.ofFields_fields o)) rfl
theorem Laws.Encoding.fmax (c : Ctl) (o : F2) : Laws.Encoding.Statement (.fmax c o) :=
  Laws.Encoding.row 0x105 c rfl rfl (congrArg (Option.map _) (F2.ofFields_fields o)) rfl
theorem Laws.Encoding.fsetp (c : Ctl) (o : FSetp) : Laws.Encoding.Statement (.fsetp c o) :=
  Laws.Encoding.row 0x106 c rfl rfl (congrArg (Option.map _) (FSetp.ofFields_fields o)) rfl
theorem Laws.Encoding.fclass (c : Ctl) (o : FClass) : Laws.Encoding.Statement (.fclass c o) :=
  Laws.Encoding.row 0x107 c rfl rfl (congrArg (Option.map _) (FClass.ofFields_fields o)) rfl
theorem Laws.Encoding.frnd (c : Ctl) (o : F1) : Laws.Encoding.Statement (.frnd c o) :=
  Laws.Encoding.row 0x108 c rfl rfl (congrArg (Option.map _) (F1.ofFields_fields o)) rfl
theorem Laws.Encoding.cvt (c : Ctl) (o : Cvt) : Laws.Encoding.Statement (.cvt c o) :=
  Laws.Encoding.row 0x109 c rfl rfl (congrArg (Option.map _) (Cvt.ofFields_fields o)) rfl
theorem Laws.Encoding.frcp (c : Ctl) (o : F1) : Laws.Encoding.Statement (.frcp c o) :=
  Laws.Encoding.row 0x140 c rfl rfl (congrArg (Option.map _) (F1.ofFields_fields o)) rfl
theorem Laws.Encoding.frsq (c : Ctl) (o : F1) : Laws.Encoding.Statement (.frsq c o) :=
  Laws.Encoding.row 0x141 c rfl rfl (congrArg (Option.map _) (F1.ofFields_fields o)) rfl
theorem Laws.Encoding.fsqrt (c : Ctl) (o : F1) : Laws.Encoding.Statement (.fsqrt c o) :=
  Laws.Encoding.row 0x142 c rfl rfl (congrArg (Option.map _) (F1.ofFields_fields o)) rfl
theorem Laws.Encoding.fexp2 (c : Ctl) (o : F1) : Laws.Encoding.Statement (.fexp2 c o) :=
  Laws.Encoding.row 0x143 c rfl rfl (congrArg (Option.map _) (F1.ofFields_fields o)) rfl
theorem Laws.Encoding.flog2 (c : Ctl) (o : F1) : Laws.Encoding.Statement (.flog2 c o) :=
  Laws.Encoding.row 0x144 c rfl rfl (congrArg (Option.map _) (F1.ofFields_fields o)) rfl
theorem Laws.Encoding.fsin (c : Ctl) (o : F1) : Laws.Encoding.Statement (.fsin c o) :=
  Laws.Encoding.row 0x145 c rfl rfl (congrArg (Option.map _) (F1.ofFields_fields o)) rfl
theorem Laws.Encoding.fcos (c : Ctl) (o : F1) : Laws.Encoding.Statement (.fcos c o) :=
  Laws.Encoding.row 0x146 c rfl rfl (congrArg (Option.map _) (F1.ofFields_fields o)) rfl
theorem Laws.Encoding.shfl (c : Ctl) (o : Shfl) : Laws.Encoding.Statement (.shfl c o) :=
  Laws.Encoding.row 0x180 c rfl rfl (congrArg (Option.map _) (Shfl.ofFields_fields o)) rfl
theorem Laws.Encoding.qswp (c : Ctl) (o : Qswp) : Laws.Encoding.Statement (.qswp c o) :=
  Laws.Encoding.row 0x181 c rfl rfl (congrArg (Option.map _) (Qswp.ofFields_fields o)) rfl
theorem Laws.Encoding.red (c : Ctl) (o : Red) : Laws.Encoding.Statement (.red c o) :=
  Laws.Encoding.row 0x182 c rfl rfl (congrArg (Option.map _) (Red.ofFields_fields o)) rfl
theorem Laws.Encoding.scan (c : Ctl) (o : Scan) : Laws.Encoding.Statement (.scan c o) :=
  Laws.Encoding.row 0x183 c rfl rfl (congrArg (Option.map _) (Scan.ofFields_fields o)) rfl
theorem Laws.Encoding.append (c : Ctl) (o : Append) : Laws.Encoding.Statement (.append c o) :=
  Laws.Encoding.row 0x184 c rfl rfl (congrArg (Option.map _) (Append.ofFields_fields o)) rfl
theorem Laws.Encoding.match_ (c : Ctl) (o : UUn) : Laws.Encoding.Statement (.match_ c o) :=
  Laws.Encoding.row 0x185 c rfl rfl (congrArg (Option.map _) (UUn.ofFields_fields o)) rfl
theorem Laws.Encoding.ld (c : Ctl) (o : MemOp) : Laws.Encoding.Statement (.ld c o) :=
  Laws.Encoding.row 0x1C0 c rfl rfl (congrArg (Option.map _) (MemOp.ofFields_fields o)) rfl
theorem Laws.Encoding.st (c : Ctl) (o : MemOp) : Laws.Encoding.Statement (.st c o) :=
  Laws.Encoding.row 0x1C1 c rfl rfl (congrArg (Option.map _) (MemOp.ofFields_fields o)) rfl
theorem Laws.Encoding.ldt (c : Ctl) (o : TileOp) : Laws.Encoding.Statement (.ldt c o) :=
  Laws.Encoding.row 0x1C2 c rfl rfl (congrArg (Option.map _) (TileOp.ofFields_fields o)) rfl
theorem Laws.Encoding.stt (c : Ctl) (o : TileOp) : Laws.Encoding.Statement (.stt c o) :=
  Laws.Encoding.row 0x1C3 c rfl rfl (congrArg (Option.map _) (TileOp.ofFields_fields o)) rfl
theorem Laws.Encoding.lda (c : Ctl) (o : ScopedOp) : Laws.Encoding.Statement (.lda c o) :=
  Laws.Encoding.row 0x1C4 c rfl rfl (congrArg (Option.map _) (ScopedOp.ofFields_fields o)) rfl
theorem Laws.Encoding.strl (c : Ctl) (o : ScopedOp) : Laws.Encoding.Statement (.strl c o) :=
  Laws.Encoding.row 0x1C5 c rfl rfl (congrArg (Option.map _) (ScopedOp.ofFields_fields o)) rfl
theorem Laws.Encoding.fence (c : Ctl) (o : Fence) : Laws.Encoding.Statement (.fence c o) :=
  Laws.Encoding.row 0x1C6 c rfl rfl (congrArg (Option.map _) (Fence.ofFields_fields o)) rfl
theorem Laws.Encoding.waitc (c : Ctl) (o : Waitc) : Laws.Encoding.Statement (.waitc c o) :=
  Laws.Encoding.row 0x1C7 c rfl rfl (congrArg (Option.map _) (Waitc.ofFields_fields o)) rfl
theorem Laws.Encoding.pref (c : Ctl) (o : Pref) : Laws.Encoding.Statement (.pref c o) :=
  Laws.Encoding.row 0x1C8 c rfl rfl (congrArg (Option.map _) (Pref.ofFields_fields o)) rfl
theorem Laws.Encoding.cinv (c : Ctl) (o : Cinv) : Laws.Encoding.Statement (.cinv c o) :=
  Laws.Encoding.row 0x1C9 c rfl rfl (congrArg (Option.map _) (Cinv.ofFields_fields o)) rfl
theorem Laws.Encoding.cwb (c : Ctl) (o : AB) : Laws.Encoding.Statement (.cwb c o) :=
  Laws.Encoding.row 0x1CA c rfl rfl (congrArg (Option.map _) (AB.ofFields_fields o _)) rfl
theorem Laws.Encoding.atom (c : Ctl) (o : Atom) : Laws.Encoding.Statement (.atom c o) :=
  Laws.Encoding.row 0x200 c rfl rfl (congrArg (Option.map _) (Atom.ofFields_fields o)) rfl
theorem Laws.Encoding.apost (c : Ctl) (o : APost) : Laws.Encoding.Statement (.apost c o) :=
  Laws.Encoding.row 0x201 c rfl rfl (congrArg (Option.map _) (APost.ofFields_fields o)) rfl
theorem Laws.Encoding.ratom (c : Ctl) (o : RAtom) : Laws.Encoding.Statement (.ratom c o) :=
  Laws.Encoding.row 0x202 c rfl rfl (congrArg (Option.map _) (RAtom.ofFields_fields o)) rfl
theorem Laws.Encoding.rpoll (c : Ctl) (o : UUn) : Laws.Encoding.Statement (.rpoll c o) :=
  Laws.Encoding.row 0x203 c rfl rfl (congrArg (Option.map _) (UUn.ofFields_fields o)) rfl
theorem Laws.Encoding.talloc (c : Ctl) (o : TAlloc) : Laws.Encoding.Statement (.talloc c o) :=
  Laws.Encoding.row 0x208 c rfl rfl (congrArg (Option.map _) (TAlloc.ofFields_fields o)) rfl
theorem Laws.Encoding.tfree (c : Ctl) (h : BitVec 8) : Laws.Encoding.Statement (.tfree c h) :=
  Laws.Encoding.row 0x209 c rfl rfl rfl rfl
theorem Laws.Encoding.tqry (c : Ctl) (o : TQry) : Laws.Encoding.Statement (.tqry c o) :=
  Laws.Encoding.row 0x20A c rfl rfl (congrArg (Option.map _) (TQry.ofFields_fields o)) rfl
theorem Laws.Encoding.cpyIn (c : Ctl) (o : Cpy) : Laws.Encoding.Statement (.cpyIn c o) :=
  Laws.Encoding.row 0x240 c rfl rfl (congrArg (Option.map _) (Cpy.ofFields_fields o)) rfl
theorem Laws.Encoding.cpyOut (c : Ctl) (o : Cpy) : Laws.Encoding.Statement (.cpyOut c o) :=
  Laws.Encoding.row 0x241 c rfl rfl (congrArg (Option.map _) (Cpy.ofFields_fields o)) rfl
theorem Laws.Encoding.cpyMc (c : Ctl) (o : CpyMc) : Laws.Encoding.Statement (.cpyMc c o) :=
  Laws.Encoding.row 0x242 c rfl rfl (congrArg (Option.map _) (CpyMc.ofFields_fields o)) rfl
theorem Laws.Encoding.cpyWin (c : Ctl) (o : Cpy) : Laws.Encoding.Statement (.cpyWin c o) :=
  Laws.Encoding.row 0x243 c rfl rfl (congrArg (Option.map _) (Cpy.ofFields_fields o)) rfl
theorem Laws.Encoding.tbarInit (c : Ctl) (o : BarB) : Laws.Encoding.Statement (.tbarInit c o) :=
  Laws.Encoding.row 0x248 c rfl rfl (congrArg (Option.map _) (BarB.ofFields_fields o _)) rfl
theorem Laws.Encoding.tbarArv (c : Ctl) (bar : BarRef) : Laws.Encoding.Statement (.tbarArv c bar) :=
  Laws.Encoding.row 0x249 c rfl rfl (by
rw [ofFields_0x249];     cases bar <;> simp (disch := omega) [-BitVec.getLsbD_eq_getElem, Instr.fields, Fields.m, Fields.mb, Fields.a, Fields.setA,
      Fields.setB, Src.fieldsA, Fields.b, extract_low, extract_high, bit_low, bit_high, extract_self, bit_self, Fields.bar, BarRef.fields,
      BarRef.bits, BarRef.src]) rfl
theorem Laws.Encoding.tbarExp (c : Ctl) (o : BarB) : Laws.Encoding.Statement (.tbarExp c o) :=
  Laws.Encoding.row 0x24A c rfl rfl (by
rw [ofFields_0x24A];     simp (disch := omega) [-BitVec.getLsbD_eq_getElem, Instr.fields, Fields.m, Fields.mb, Fields.a, Fields.setA, Fields.setB,
      Src.fieldsA, Fields.b, extract_low, extract_high, bit_low, bit_high, extract_self, bit_self, BarB.mb9, BarB.ofFields_fields]) rfl
theorem Laws.Encoding.tbarExpArv (c : Ctl) (o : BarB) : Laws.Encoding.Statement (.tbarExpArv c o) :=
  Laws.Encoding.row 0x24A c rfl rfl (by
rw [ofFields_0x24A];     simp (disch := omega) [-BitVec.getLsbD_eq_getElem, Instr.fields, Fields.m, Fields.mb, Fields.a, Fields.setA, Fields.setB,
      Src.fieldsA, Fields.b, extract_low, extract_high, bit_low, bit_high, extract_self, bit_self, BarB.mb9, BarB.ofFields_fields]) rfl
theorem Laws.Encoding.tbarWait (c : Ctl) (o : BarPar) : Laws.Encoding.Statement (.tbarWait c o) :=
  Laws.Encoding.row 0x24B c rfl rfl (congrArg (Option.map _) (BarPar.ofFields_fields o)) rfl
theorem Laws.Encoding.tbarTestPh (c : Ctl) (o : BarTest) : Laws.Encoding.Statement (.tbarTestPh c o) :=
  Laws.Encoding.row 0x24C c rfl rfl (by
rw [ofFields_0x24C];     simp (disch := omega) [-BitVec.getLsbD_eq_getElem, Instr.fields, Fields.m, Fields.mb, Fields.a, Fields.setA, Fields.setB,
      Src.fieldsA, Fields.b, extract_low, extract_high, bit_low, bit_high, extract_self, bit_self, BarTest.mb9, BarTest.ofFields_fields]) rfl
theorem Laws.Encoding.tbarTestBrk (c : Ctl) (o : BarBrk) : Laws.Encoding.Statement (.tbarTestBrk c o) :=
  Laws.Encoding.row 0x24C c rfl rfl (by
rw [ofFields_0x24C];     simp (disch := omega) [-BitVec.getLsbD_eq_getElem, Instr.fields, Fields.m, Fields.mb, Fields.a, Fields.setA, Fields.setB,
      Src.fieldsA, Fields.b, extract_low, extract_high, bit_low, bit_high, extract_self, bit_self, BarBrk.mb9, BarBrk.ofFields_fields]) rfl
theorem Laws.Encoding.tbarInval (c : Ctl) (bar : BarRef) : Laws.Encoding.Statement (.tbarInval c bar) :=
  Laws.Encoding.row 0x24D c rfl rfl (by
rw [ofFields_0x24D];     cases bar <;> simp (disch := omega) [-BitVec.getLsbD_eq_getElem, Instr.fields, Fields.m, Fields.mb, Fields.a, Fields.setA,
      Fields.setB, Src.fieldsA, Fields.b, extract_low, extract_high, bit_low, bit_high, extract_self, bit_self, Fields.bar, BarRef.fields,
      BarRef.bits, BarRef.src]) rfl
theorem Laws.Encoding.mxreq (c : Ctl) (d : BitVec 8) : Laws.Encoding.Statement (.mxreq c d) :=
  Laws.Encoding.row 0x280 c rfl rfl rfl rfl
theorem Laws.Encoding.mxrel (c : Ctl) (d : BitVec 8) : Laws.Encoding.Statement (.mxrel c d) :=
  Laws.Encoding.row 0x281 c rfl rfl rfl rfl
theorem Laws.Encoding.mxmma (c : Ctl) (o : MxMma) : Laws.Encoding.Statement (.mxmma c o) :=
  Laws.Encoding.row 0x282 c rfl rfl (congrArg (Option.map _) (MxMma.ofFields_fields o)) rfl
theorem Laws.Encoding.mxscl (c : Ctl) (o : MxScl) : Laws.Encoding.Statement (.mxscl c o) :=
  Laws.Encoding.row 0x283 c rfl rfl (by
rw [ofFields_0x283];     simp (disch := omega) [-BitVec.getLsbD_eq_getElem, Instr.fields, Fields.m, Fields.mb, Fields.a, Fields.setA, Fields.setB,
      Src.fieldsA, Fields.b, extract_low, extract_high, bit_low, bit_high, extract_self, bit_self, MxScl.mb6, MxScl.ofFields_fields]) rfl
theorem Laws.Encoding.mxsclNone (c : Ctl) (sideB : Bool) : Laws.Encoding.Statement (.mxsclNone c sideB) :=
  Laws.Encoding.row 0x283 c rfl rfl (by
rw [ofFields_0x283];     simp (disch := omega) [-BitVec.getLsbD_eq_getElem, Instr.fields, Fields.m, Fields.mb, Fields.a, Fields.setA, Fields.setB,
      Src.fieldsA, Fields.b, extract_low, extract_high, bit_low, bit_high, extract_self, bit_self]) rfl
theorem Laws.Encoding.mxwin (c : Ctl) (a : Src) : Laws.Encoding.Statement (.mxwin c a) :=
  Laws.Encoding.row 0x284 c rfl rfl rfl rfl
theorem Laws.Encoding.mxzero (c : Ctl) (d : BitVec 8) : Laws.Encoding.Statement (.mxzero c d) :=
  Laws.Encoding.row 0x285 c rfl rfl rfl rfl
theorem Laws.Encoding.mxdrn (c : Ctl) (o : MxDrn) : Laws.Encoding.Statement (.mxdrn c o) :=
  Laws.Encoding.row 0x286 c rfl rfl (congrArg (Option.map _) (MxDrn.ofFields_fields o)) rfl
theorem Laws.Encoding.mxpass (c : Ctl) (a : Src) : Laws.Encoding.Statement (.mxpass c a) :=
  Laws.Encoding.row 0x287 c rfl rfl rfl rfl
theorem Laws.Encoding.dlrBind (c : Ctl) (o : AB) : Laws.Encoding.Statement (.dlrBind c o) :=
  Laws.Encoding.row 0x2C0 c rfl rfl (congrArg (Option.map _) (AB.ofFields_fields o _)) rfl
theorem Laws.Encoding.dlrInval (c : Ctl) (a : Src) : Laws.Encoding.Statement (.dlrInval c a) :=
  Laws.Encoding.row 0x2C1 c rfl rfl rfl rfl
theorem Laws.Encoding.dlrStat (c : Ctl) (o : DA) : Laws.Encoding.Statement (.dlrStat c o) :=
  Laws.Encoding.row 0x2C2 c rfl rfl (congrArg (Option.map _) (DA.ofFields_fields o _)) rfl
theorem Laws.Encoding.mxdelta (c : Ctl) (a : Src) : Laws.Encoding.Statement (.mxdelta c a) :=
  Laws.Encoding.row 0x2C3 c rfl rfl rfl rfl
theorem Laws.Encoding.wregSet (c : Ctl) (o : WregSet) : Laws.Encoding.Statement (.wregSet c o) :=
  Laws.Encoding.row 0x2C4 c rfl rfl (congrArg (Option.map _) (WregSet.ofFields_fields o)) rfl
theorem Laws.Encoding.wregClr (c : Ctl) (id : BitVec 6) : Laws.Encoding.Statement (.wregClr c id) :=
  Laws.Encoding.row 0x2C5 c rfl rfl (by
rw [ofFields_0x2C5];     simp (disch := omega) [-BitVec.getLsbD_eq_getElem, Instr.fields, Fields.m, Fields.mb, Fields.a, Fields.setA, Fields.setB,
      Src.fieldsA, Fields.b, extract_low, extract_high, bit_low, bit_high, extract_self, bit_self]) rfl
theorem Laws.Encoding.texS (c : Ctl) (o : Tex) : Laws.Encoding.Statement (.texS c o) :=
  Laws.Encoding.row 0x300 c rfl rfl (congrArg (Option.map _) (Tex.ofFields_fields o)) rfl
theorem Laws.Encoding.texL (c : Ctl) (o : Tex) : Laws.Encoding.Statement (.texL c o) :=
  Laws.Encoding.row 0x301 c rfl rfl (congrArg (Option.map _) (Tex.ofFields_fields o)) rfl
theorem Laws.Encoding.texQDim (c : Ctl) (o : TexQ) : Laws.Encoding.Statement (.texQDim c o) :=
  Laws.Encoding.row 0x302 c rfl rfl (by
rw [ofFields_0x302];     simp (disch := omega) [-BitVec.getLsbD_eq_getElem, Instr.fields, Fields.m, Fields.mb, Fields.a, Fields.setA, Fields.setB,
      Src.fieldsA, Fields.b, extract_low, extract_high, bit_low, bit_high, extract_self, bit_self, TexQ.mb7, TexQ.ofFields_fields]) rfl
theorem Laws.Encoding.texQLod (c : Ctl) (o : TexQ) : Laws.Encoding.Statement (.texQLod c o) :=
  Laws.Encoding.row 0x302 c rfl rfl (by
rw [ofFields_0x302];     simp (disch := omega) [-BitVec.getLsbD_eq_getElem, Instr.fields, Fields.m, Fields.mb, Fields.a, Fields.setA, Fields.setB,
      Src.fieldsA, Fields.b, extract_low, extract_high, bit_low, bit_high, extract_self, bit_self, TexQ.mb7, TexQ.ofFields_fields]) rfl
theorem Laws.Encoding.hgFetch (c : Ctl) (o : Hg) : Laws.Encoding.Statement (.hgFetch c o) :=
  Laws.Encoding.row 0x303 c rfl rfl (congrArg (Option.map _) (Hg.ofFields_fields o)) rfl
theorem Laws.Encoding.hgScat (c : Ctl) (o : HgScat) : Laws.Encoding.Statement (.hgScat c o) :=
  Laws.Encoding.row 0x304 c rfl rfl (congrArg (Option.map _) (HgScat.ofFields_fields o)) rfl
theorem Laws.Encoding.rayTrc (c : Ctl) (o : RayTrc) : Laws.Encoding.Statement (.rayTrc c o) :=
  Laws.Encoding.row 0x340 c rfl rfl (congrArg (Option.map _) (RayTrc.ofFields_fields o)) rfl
theorem Laws.Encoding.rayRsm (c : Ctl) (o : RayRsm) : Laws.Encoding.Statement (.rayRsm c o) :=
  Laws.Encoding.row 0x341 c rfl rfl (congrArg (Option.map _) (RayRsm.ofFields_fields o)) rfl
theorem Laws.Encoding.rayCmt (c : Ctl) (o : AB) : Laws.Encoding.Statement (.rayCmt c o) :=
  Laws.Encoding.row 0x342 c rfl rfl (congrArg (Option.map _) (AB.ofFields_fields o _)) rfl
theorem Laws.Encoding.rayGet (c : Ctl) (o : RayGet) : Laws.Encoding.Statement (.rayGet c o) :=
  Laws.Encoding.row 0x343 c rfl rfl (congrArg (Option.map _) (RayGet.ofFields_fields o)) rfl
theorem Laws.Encoding.rastSub (c : Ctl) (a : Src) : Laws.Encoding.Statement (.rastSub c a) :=
  Laws.Encoding.row 0x344 c rfl rfl rfl rfl
theorem Laws.Encoding.ringPush (c : Ctl) (o : RingPush) : Laws.Encoding.Statement (.ringPush c o) :=
  Laws.Encoding.row 0x345 c rfl rfl (congrArg (Option.map _) (RingPush.ofFields_fields o)) rfl
theorem Laws.Encoding.ringPop (c : Ctl) (o : RingPop) : Laws.Encoding.Statement (.ringPop c o) :=
  Laws.Encoding.row 0x346 c rfl rfl (congrArg (Option.map _) (RingPop.ofFields_fields o)) rfl
theorem Laws.Encoding.encTile (c : Ctl) (o : AB) : Laws.Encoding.Statement (.encTile c o) :=
  Laws.Encoding.row 0x347 c rfl rfl (congrArg (Option.map _) (AB.ofFields_fields o _)) rfl
theorem Laws.Encoding.encFrm (c : Ctl) (a : Src) : Laws.Encoding.Statement (.encFrm c a) :=
  Laws.Encoding.row 0x348 c rfl rfl rfl rfl
theorem Laws.Encoding.commitPark (g : Nat) : Laws.Encoding.Statement (.commitPark g) := Laws.Encoding.event rfl
theorem Laws.Encoding.trapDelivery (g : Nat) : Laws.Encoding.Statement (.trapDelivery g) := Laws.Encoding.event rfl
theorem Laws.Encoding.groupEnd (g : Nat) : Laws.Encoding.Statement (.groupEnd g) := Laws.Encoding.event rfl
theorem Laws.Encoding.loadComplete (g op : Nat) (l1 : Bool) : Laws.Encoding.Statement (.loadComplete g op l1) := Laws.Encoding.event rfl
theorem Laws.Encoding.storePerformed (g op : Nat) : Laws.Encoding.Statement (.storePerformed g op) := Laws.Encoding.event rfl
theorem Laws.Encoding.atomicPerform (g op lane : Nat) : Laws.Encoding.Statement (.atomicPerform g op lane) := Laws.Encoding.event rfl
theorem Laws.Encoding.ratomReply (g op lane : Nat) (fail : Bool) : Laws.Encoding.Statement (.ratomReply g op lane fail) := Laws.Encoding.event rfl
theorem Laws.Encoding.tallocComplete (wg h : Nat) : Laws.Encoding.Statement (.tallocComplete wg h) := Laws.Encoding.event rfl
theorem Laws.Encoding.tileRelease (wg h : Nat) : Laws.Encoding.Statement (.tileRelease wg h) := Laws.Encoding.event rfl
theorem Laws.Encoding.copyByteCount (g op ix : Nat) : Laws.Encoding.Statement (.copyByteCount g op ix) := Laws.Encoding.event rfl
theorem Laws.Encoding.arrivalPerformed (g op : Nat) : Laws.Encoding.Statement (.arrivalPerformed g op) := Laws.Encoding.event rfl
theorem Laws.Encoding.tbarInitArm (g : Nat) (slot : Bool) : Laws.Encoding.Statement (.tbarInitArm g slot) := Laws.Encoding.event rfl
theorem Laws.Encoding.passGrant (cl : Nat) : Laws.Encoding.Statement (.passGrant cl) := Laws.Encoding.event rfl
theorem Laws.Encoding.rowRetire (cl : Nat) : Laws.Encoding.Statement (.rowRetire cl) := Laws.Encoding.event rfl
theorem Laws.Encoding.detachedPassComplete (cl : Nat) : Laws.Encoding.Statement (.detachedPassComplete cl) := Laws.Encoding.event rfl
theorem Laws.Encoding.deltaInvocation (cl : Nat) : Laws.Encoding.Statement (.deltaInvocation cl) := Laws.Encoding.event rfl
theorem Laws.Encoding.deltaComplete (cl : Nat) : Laws.Encoding.Statement (.deltaComplete cl) := Laws.Encoding.event rfl
theorem Laws.Encoding.filterResult (g op : Nat) : Laws.Encoding.Statement (.filterResult g op) := Laws.Encoding.event rfl
theorem Laws.Encoding.slotAdd (g op ix : Nat) : Laws.Encoding.Statement (.slotAdd g op ix) := Laws.Encoding.event rfl
theorem Laws.Encoding.traversalStop (g op lane : Nat) : Laws.Encoding.Statement (.traversalStop g op lane) := Laws.Encoding.event rfl
theorem Laws.Encoding.rastDraw (gr : Nat) : Laws.Encoding.Statement (.rastDraw gr) := Laws.Encoding.event rfl
theorem Laws.Encoding.rastDrawComplete (gr : Nat) : Laws.Encoding.Statement (.rastDrawComplete gr) := Laws.Encoding.event rfl
theorem Laws.Encoding.superblockEncode (gr stream : Nat) : Laws.Encoding.Statement (.superblockEncode gr stream) := Laws.Encoding.event rfl
theorem Laws.Encoding.frameComplete (gr stream : Nat) : Laws.Encoding.Statement (.frameComplete gr stream) := Laws.Encoding.event rfl
theorem Laws.Encoding.lineFill (vf line : Nat) : Laws.Encoding.Statement (.lineFill vf line) := Laws.Encoding.event rfl
theorem Laws.Encoding.invalidationComplete (vf : Nat) (stage2 : Bool) : Laws.Encoding.Statement (.invalidationComplete vf stage2) :=
      Laws.Encoding.event rfl
theorem Laws.Encoding.migrationComplete (die : Nat) : Laws.Encoding.Statement (.migrationComplete die) := Laws.Encoding.event rfl
theorem Laws.Encoding.takeRecord (gr vf q : Nat) : Laws.Encoding.Statement (.takeRecord gr vf q) := Laws.Encoding.event rfl
theorem Laws.Encoding.dependenceRecheck (gr : Nat) : Laws.Encoding.Statement (.dependenceRecheck gr) := Laws.Encoding.event rfl
theorem Laws.Encoding.lanternChoice (gr : Nat) : Laws.Encoding.Statement (.lanternChoice gr) := Laws.Encoding.event rfl
theorem Laws.Encoding.launchComplete (lx : Nat) : Laws.Encoding.Statement (.launchComplete lx) := Laws.Encoding.event rfl
theorem Laws.Encoding.accountingWindow (gr : Nat) : Laws.Encoding.Statement (.accountingWindow gr) := Laws.Encoding.event rfl
theorem Laws.Encoding.pwaitExpiry (gr : Nat) : Laws.Encoding.Statement (.pwaitExpiry gr) := Laws.Encoding.event rfl
theorem Laws.Encoding.graceExpiry (g : Nat) : Laws.Encoding.Statement (.graceExpiry g) := Laws.Encoding.event rfl
theorem Laws.Encoding.gangSave (gang : Nat) : Laws.Encoding.Statement (.gangSave gang) := Laws.Encoding.event rfl
theorem Laws.Encoding.loadThrottlePeriod (core : Nat) : Laws.Encoding.Statement (.loadThrottlePeriod core) := Laws.Encoding.event rfl
theorem Laws.Encoding.quantumEnd (gr : Nat) : Laws.Encoding.Statement (.quantumEnd gr) := Laws.Encoding.event rfl
theorem Laws.Encoding.preloadComplete (gr : Nat) : Laws.Encoding.Statement (.preloadComplete gr) := Laws.Encoding.event rfl
theorem Laws.Encoding.contextSwap (gr : Nat) : Laws.Encoding.Statement (.contextSwap gr) := Laws.Encoding.event rfl
theorem Laws.Encoding.watchdogHang (gr : Nat) : Laws.Encoding.Statement (.watchdogHang gr) := Laws.Encoding.event rfl
theorem Laws.Encoding.uncorrectableError (site : Nat) (addr : Nat) : Laws.Encoding.Statement (.uncorrectableError site addr) := Laws.Encoding.event
      rfl
theorem Laws.Encoding.correctedError (cls unit addr : Nat) : Laws.Encoding.Statement (.correctedError cls unit addr) := Laws.Encoding.event rfl
theorem Laws.Encoding.softErrorWindow (gr : Nat) : Laws.Encoding.Statement (.softErrorWindow gr) := Laws.Encoding.event rfl
theorem Laws.Encoding.qtailWrite (vf q : Nat) (v : Word32) : Laws.Encoding.Statement (.qtailWrite vf q v) := Laws.Encoding.event rfl
theorem Laws.Encoding.prqpop (vf : Nat) (stage2 : Bool) : Laws.Encoding.Statement (.prqpop vf stage2) := Laws.Encoding.event rfl
theorem Laws.Encoding.prqrspRetry (vf : Nat) (stage2 : Bool) (tag : Nat) : Laws.Encoding.Statement (.prqrspRetry vf stage2 tag) :=
      Laws.Encoding.event rfl
theorem Laws.Encoding.prqrspFail (vf : Nat) (stage2 : Bool) (tag : Nat) : Laws.Encoding.Statement (.prqrspFail vf stage2 tag) :=
      Laws.Encoding.event rfl
theorem Laws.Encoding.xinvcGo (vf : Nat) (stage2 : Bool) (v : Word64) : Laws.Encoding.Statement (.xinvcGo vf stage2 v) := Laws.Encoding.event rfl
theorem Laws.Encoding.mgctlGo (die : Nat) (v : Word64) : Laws.Encoding.Statement (.mgctlGo die v) := Laws.Encoding.event rfl
theorem Laws.Encoding.pcmdFuse (first num : Nat) : Laws.Encoding.Statement (.pcmdFuse first num) := Laws.Encoding.event rfl
theorem Laws.Encoding.pcmdSplit (first num : Nat) : Laws.Encoding.Statement (.pcmdSplit first num) := Laws.Encoding.event rfl
theorem Laws.Encoding.pcmdRefusedOp (v : Word64) : Laws.Encoding.Statement (.pcmdRefusedOp v) := Laws.Encoding.event rfl
theorem Laws.Encoding.sctlHold (gr : Nat) (hold : Bool) : Laws.Encoding.Statement (.sctlHold gr hold) := Laws.Encoding.event rfl
theorem Laws.Encoding.sliceQuiescent (gr : Nat) : Laws.Encoding.Statement (.sliceQuiescent gr) := Laws.Encoding.event rfl
theorem Laws.Encoding.sctlRst (gr : Nat) : Laws.Encoding.Statement (.sctlRst gr) := Laws.Encoding.event rfl
theorem Laws.Encoding.sliceResetDone (gr : Nat) : Laws.Encoding.Statement (.sliceResetDone gr) := Laws.Encoding.event rfl
theorem Laws.Encoding.vfBind (vf slice brw : Nat) : Laws.Encoding.Statement (.vfBind vf slice brw) := Laws.Encoding.event rfl
theorem Laws.Encoding.vfUnbind (vf : Nat) : Laws.Encoding.Statement (.vfUnbind vf) := Laws.Encoding.event rfl
theorem Laws.Encoding.vfUnbindComplete (vf : Nat) : Laws.Encoding.Statement (.vfUnbindComplete vf) := Laws.Encoding.event rfl
theorem Laws.Encoding.functionLevelReset (vf : Nat) : Laws.Encoding.Statement (.functionLevelReset vf) := Laws.Encoding.event rfl
theorem Laws.Encoding.leaseGrant (cl : Nat) : Laws.Encoding.Statement (.leaseGrant cl) := Laws.Encoding.event rfl
theorem Laws.Encoding.controlInterval (cl : Nat) : Laws.Encoding.Statement (.controlInterval cl) := Laws.Encoding.event rfl
theorem Laws.Encoding.railStep (r : Nat) : Laws.Encoding.Statement (.railStep r) := Laws.Encoding.event rfl
theorem Laws.Encoding.railHoldExpiry (r : Nat) : Laws.Encoding.Statement (.railHoldExpiry r) := Laws.Encoding.event rfl
theorem Laws.Encoding.slpowWrite (gr : Nat) (v : Word64) : Laws.Encoding.Statement (.slpowWrite gr v) := Laws.Encoding.event rfl
theorem Laws.Encoding.opcfgRailWrite (gr : Nat) (r : Nat) : Laws.Encoding.Statement (.opcfgRailWrite gr r) := Laws.Encoding.event rfl
theorem Laws.Encoding.opcfgTopWrite (gr : Nat) (t : Nat) : Laws.Encoding.Statement (.opcfgTopWrite gr t) := Laws.Encoding.event rfl
theorem Laws.Encoding.gatingCommit (unit : Nat) : Laws.Encoding.Statement (.gatingCommit unit) := Laws.Encoding.event rfl
theorem Laws.Encoding.wakeComplete (unit : Nat) : Laws.Encoding.Statement (.wakeComplete unit) := Laws.Encoding.event rfl
theorem Laws.Encoding.dbgfHreq (vf : Nat) : Laws.Encoding.Statement (.dbgfHreq vf) := Laws.Encoding.event rfl
theorem Laws.Encoding.dbgfResume (vf : Nat) : Laws.Encoding.Statement (.dbgfResume vf) := Laws.Encoding.event rfl
theorem Laws.Encoding.haltComplete (vf : Nat) : Laws.Encoding.Statement (.haltComplete vf) := Laws.Encoding.event rfl
theorem Laws.Encoding.rpctlEn (gr : Nat) (en : Bool) : Laws.Encoding.Statement (.rpctlEn gr en) := Laws.Encoding.event rfl
theorem Laws.Encoding.rpctlGo (gr : Nat) : Laws.Encoding.Statement (.rpctlGo gr) := Laws.Encoding.event rfl
theorem Laws.Encoding.replayIntervalStart (gr : Nat) : Laws.Encoding.Statement (.replayIntervalStart gr) := Laws.Encoding.event rfl
theorem Laws.Encoding.replayStop (gr : Nat) : Laws.Encoding.Statement (.replayStop gr) := Laws.Encoding.event rfl
theorem Laws.Encoding.flowStateRepeat (link : Nat) : Laws.Encoding.Statement (.flowStateRepeat link) := Laws.Encoding.event rfl
theorem Laws.Encoding.nonpostedTimeout (link : Nat) (tag : Nat) : Laws.Encoding.Statement (.nonpostedTimeout link tag) := Laws.Encoding.event rfl
theorem Laws.Encoding.lnkstRetrain (link : Nat) : Laws.Encoding.Statement (.lnkstRetrain link) := Laws.Encoding.event rfl
theorem Laws.Encoding.incomingAccessTimeout (vf tag : Nat) : Laws.Encoding.Statement (.incomingAccessTimeout vf tag) := Laws.Encoding.event rfl
theorem Laws.Encoding.bootStep (ok : Bool) : Laws.Encoding.Statement (.bootStep ok) := Laws.Encoding.event rfl
theorem Laws.Encoding.registerWrite (fn off : Nat) (v : Word64) : Laws.Encoding.Statement (.registerWrite fn off v) := Laws.Encoding.event rfl
theorem Laws.Encoding.sliceTick (gr : Nat) : Laws.Encoding.Statement (.sliceTick gr) := Laws.Encoding.event rfl
theorem Laws.Encoding.unlistedOpcode (w : Word64) : Laws.Encoding.Statement (.unlistedOpcode w) := Laws.Encoding.event rfl
theorem Laws.Encoding.linkTrainingComplete (link : Nat) : Laws.Encoding.Statement (.linkTrainingComplete link) := Laws.Encoding.event rfl
theorem Laws.Encoding.functionLevelResetDone (vf : Nat) : Laws.Encoding.Statement (.functionLevelResetDone vf) := Laws.Encoding.event rfl
theorem Laws.Encoding.powerArbiterPeriod : Laws.Encoding.Statement (.powerArbiterPeriod) := Laws.Encoding.event rfl
theorem Laws.Encoding.mbAttest : Laws.Encoding.Statement (.mbAttest) := Laws.Encoding.event rfl
theorem Laws.Encoding.mbCertificateChain : Laws.Encoding.Statement (.mbCertificateChain) := Laws.Encoding.event rfl
theorem Laws.Encoding.mbUpdate : Laws.Encoding.Statement (.mbUpdate) := Laws.Encoding.event rfl
theorem Laws.Encoding.mbRaiseCounter : Laws.Encoding.Statement (.mbRaiseCounter) := Laws.Encoding.event rfl
theorem Laws.Encoding.mbClearMarks : Laws.Encoding.Statement (.mbClearMarks) := Laws.Encoding.event rfl
theorem Laws.Encoding.mailboxCommandDone : Laws.Encoding.Statement (.mailboxCommandDone) := Laws.Encoding.event rfl
theorem Laws.Encoding.packageReset : Laws.Encoding.Statement (.packageReset) := Laws.Encoding.event rfl
theorem Laws.Encoding.pcmdOperationDone : Laws.Encoding.Statement (.pcmdOperationDone) := Laws.Encoding.event rfl
theorem Laws.Encoding.flitReceive : Laws.Encoding.Statement (.flitReceive) := Laws.Encoding.event rfl
theorem Laws.Encoding.nakReceive : Laws.Encoding.Statement (.nakReceive) := Laws.Encoding.event rfl
theorem Laws.Encoding.ackReceive : Laws.Encoding.Statement (.ackReceive) := Laws.Encoding.event rfl
theorem Laws.Encoding.pauseReceive : Laws.Encoding.Statement (.pauseReceive) := Laws.Encoding.event rfl
theorem Laws.Encoding.resumeReceive : Laws.Encoding.Statement (.resumeReceive) := Laws.Encoding.event rfl
theorem Laws.Encoding.incomingWrite : Laws.Encoding.Statement (.incomingWrite) := Laws.Encoding.event rfl
theorem Laws.Encoding.incomingRead : Laws.Encoding.Statement (.incomingRead) := Laws.Encoding.event rfl
theorem Laws.Encoding.incomingAtomicop : Laws.Encoding.Statement (.incomingAtomicop) := Laws.Encoding.event rfl
theorem Laws.Encoding.incomingCompletion : Laws.Encoding.Statement (.incomingCompletion) := Laws.Encoding.event rfl
theorem Laws.Encoding.configurationRequest : Laws.Encoding.Statement (.configurationRequest) := Laws.Encoding.event rfl
theorem Laws.Encoding.atomicRequestMessage : Laws.Encoding.Statement (.atomicRequestMessage) := Laws.Encoding.event rfl
theorem Laws.Encoding.atomicReplyMessage : Laws.Encoding.Statement (.atomicReplyMessage) := Laws.Encoding.event rfl
theorem Laws.Encoding.unsupportedTlp : Laws.Encoding.Statement (.unsupportedTlp) := Laws.Encoding.event rfl
theorem Laws.Encoding.mbBadCommand : Laws.Encoding.Statement (.mbBadCommand) := Laws.Encoding.event rfl

end Sys2Proof
end

