-- ==== Sys2Proof/Laws/Results.lean ====
section
/-!
SUPPORT. What the shared result forms deliver: destinations that exist, the flags of active lanes, and integer results fitted to a type.
-/
set_option Elab.async false
namespace Sys2Proof.Machine
open Sys2Proof

/-! ### Destinations -/

/-- The destination of an instruction that goes through lies in its class, but for p63 (R25). -/
theorem Ready.dest {i : Instr} {c : Ctl} {s s1 : State} (hr : Ready i c s s1) {cls : RClass} {d : BitVec 8} {n : Nat}
    (h : i.operands.d = Opnd.of cls d n) (hn : 0 < n) (hc : cls = .v ∨ cls = .s ∨ cls = .p) : s1.cur.rD c d < regCount cls := by
  obtain ⟨-, hrange, hpark, ⟨-, hv, hs, hp⟩, -, -⟩ := hr
  have hb := takePark_bare hpark
  have ex : s1.cur.x = s.cur.x := (congrArg Group.x hb : _)
  have ev : s1.cur.nv = s.cur.nv := (congrArg Group.nv hb : _)
  have es : s1.cur.ns = s.cur.ns := (congrArg Group.ns hb : _)
  have ep : s1.cur.np = s.cur.np := (congrArg Group.np hb : _)
  rw [ev] at hv
  rw [es] at hs
  rw [ep] at hp
  have hd : s.cur.inRange c.idxD (Opnd.of cls d n) = true := by
    simp only [Group.rangeOk, Bool.and_eq_true, h] at hrange
    exact hrange.1.1.1.1.1.1
  simp only [Group.inRange, Opnd.of, Bool.or_eq_true, Bool.and_eq_true, decide_eq_true_eq] at hd
  simp only [Group.rD, ex]
  rcases hc with rfl | rfl | rfl <;> simp only [Group.count, regCount] at hd ⊢
  · rcases hd with hd | hd
    · omega
    · simp at hd
  · rcases hd with hd | hd
    · omega
    · simp at hd
  · rcases hd with hd | hd <;> omega

/-! ### Flags -/

theorem noFlag (j : Nat) : (0 : BitVec 6).getLsbD j = false := by simp

theorem laneFold_bit (act : Word32) (f : Nat → BitVec 6) (j : Nat) : ∀ (l : List Nat) (a : BitVec 6),
    (l.foldl (fun a l => if lane act l then a ||| f l else a) a).getLsbD j = (a.getLsbD j || l.any fun l => lane act l && (f l).getLsbD j)
  | [], a => by simp
  | x :: r, a => by
    rw [List.foldl_cons, laneFold_bit act f j r]
    by_cases h : lane act x = true <;> simp [h, Bool.or_assoc]

/-- The flags of a per-lane result, bit by bit. -/
theorem laneResult_flags (g : Group) (c : Ctl) (cls : RClass) (reg : Nat) (f : Nat → Flagged Word64) (j : Nat) :
    (g.laneResult c cls reg f).2.getLsbD j = (List.range 32).any fun l => lane (g.active c) l && (f l).2.getLsbD j := by
  simp only [Group.laneResult, laneFold_bit, noFlag, Bool.false_or, laneList]
  rw [Bool.eq_iff_iff]
  simp only [List.any_eq_true, List.mem_range, Bool.and_eq_true]
  refine exists_congr fun l => and_congr_right fun hl => and_congr_right fun ha => ?_
  have hw : lane (g.written c) l = true := by simp [Group.written, lane_or, ha]
  rw [Lanes.get_gen _ _ _ hl, if_pos hw]

/-- The flags of a lane's sub-elements, bit by bit. -/
theorem bySubF_flags (w : Nat) (f : Nat → Flagged Nat) (j : Nat) :
    (bySubF w f).2.getLsbD j = (List.range (64 / w)).any fun k => (f k).2.getLsbD j := by
  simp only [bySubF, foldFlags_bit, noFlag, Bool.false_or, List.any_map, subCount]
  rfl

/-- The flags that active lanes raise, bit by bit. -/
theorem raised_bit (g : Group) (c : Ctl) (n : Nat) (fl : Nat → Nat → BitVec 6) (j : Nat) :
    (raised g c n fl).getLsbD j = (List.range 32).any fun l => lane (g.active c) l && (List.range n).any fun k => (fl l k).getLsbD j := by
  simp only [raised, foldFlags_bit, noFlag, Bool.false_or]
  refine congrArg _ (funext fun l => ?_)
  by_cases h : lane (g.active c) l = true <;> simp [h]

/-- The flags of a per-lane result made of sub-elements. -/
theorem laneResult_raised (g : Group) (c : Ctl) (cls : RClass) (reg w : Nat) (f : Nat → Nat → Flagged Nat) :
    (g.laneResult c cls reg fun l => bySubF w (f l)).2 = raised g c (64 / w) fun l k => (f l k).2 := by
  refine BitVec.eq_of_getLsbD_eq fun j hj => ?_
  rw [laneResult_flags, raised_bit]
  simp only [bySubF_flags]

/-! ### Integers fitted to a type -/

theorem pow_cast (w : Nat) : ((2 ^ w : Nat) : Int) = (2 : Int) ^ w := by push_cast; rfl

theorem lowBits_cast (w : Nat) (x : Int) : ((lowBits w x : Nat) : Int) = x % 2 ^ w := by
  have : 0 ≤ x % (2 ^ w : Int) := Int.emod_nonneg _ (by positivity)
  simp [lowBits, Int.toNat_of_nonneg this]

theorem fit_mod (t : Ty) (x : Int) : fit t false (x % 2 ^ t.width) = fit t false x := by
  simp only [fit, Bool.false_eq_true, if_false]
  congr 1
  rw [Int.sub_emod, Int.emod_emod_of_dvd _ (dvd_refl _), ← Int.sub_emod]

theorem two_pow_half {w : Nat} (h : 0 < w) : (2 : Int) ^ w = 2 * 2 ^ (w - 1) := by
  obtain ⟨n, rfl⟩ : ∃ n, w = n + 1 := ⟨w - 1, by omega⟩
  simp [pow_succ, mul_comm]

theorem least_greatest {t : Ty} (h : 0 < t.width) : tyMin t = least t ∧ tyMax t = greatest t ∧ least t ≤ greatest t := by
  have h2 := two_pow_half h
  have hp : (0 : Int) < 2 ^ (t.width - 1) := by positivity
  simp only [tyMin, tyMax, greatest, least]
  generalize (2 : Int) ^ t.width = x at *
  generalize (2 : Int) ^ (t.width - 1) = y at *
  cases t.isI <;> simp <;> omega

/-- A value inside the range of a type is its own wrapped value. -/
theorem fit_inside {t : Ty} {x : Int} (h1 : least t ≤ x) (h2 : x ≤ greatest t) : fit t false x = x := by
  simp only [fit, Bool.false_eq_true, if_false]
  rw [Int.emod_eq_of_lt (by omega) (by simp only [greatest] at h2; omega)]
  omega

theorem clampInt_eq (v lo hi : Int) (h : lo ≤ hi) : clampInt v lo hi = max lo (min hi v) := by
  unfold clampInt
  split
  · omega
  · split <;> omega

/-- What fitting delivers: its bits hold the fitted value, and SI says that saturation changed it (R76). -/
theorem fitInt_spec {t : Ty} (h : 0 < t.width) (sat : Bool) (v : Int) :
    fit t false ((fitInt t sat v).1 : Nat) = fit t sat v ∧ (fitInt t sat v).2 = if sat ∧ fit t true v ≠ v then 0x20 else 0 := by
  obtain ⟨h1, h2, h3⟩ := least_greatest h
  cases sat with
  | false => simp [fitInt, lowBits_cast, fit_mod]
  | true =>
    have hc := clampInt_eq v _ _ h3
    simp only [fitInt, if_true, h1, h2, hc, lowBits_cast, fit_mod, flIf, flSI]
    refine ⟨?_, ?_⟩
    · rw [fit_inside (by omega) (by omega)]; simp [fit]
    · simp [fit]

/-- A sub-element read with the signedness of its type. -/
theorem intSub_elem {t : Ty} (h : 0 < t.width) (v : Word64) (k : Nat) : intSub t v k = elem t v k := by
  have h2 := two_pow_half h
  have hp : (0 : Int) < 2 ^ (t.width - 1) := by positivity
  have hn : ((2 ^ (t.width - 1) : Nat) : Int) = 2 ^ (t.width - 1) := by push_cast; rfl
  have hw : ((2 ^ t.width : Nat) : Int) = 2 ^ t.width := by push_cast; rfl
  simp only [intSub, intOf, subEl, elem, fit, Bool.false_eq_true, if_false, Nat.mod_mod]
  generalize v.toNat / 2 ^ (t.width * k) = x
  have hx1 : x % 2 ^ t.width < 2 ^ t.width := Nat.mod_lt _ (by positivity)
  have hx : ((x % 2 ^ t.width : Nat) : Int) = (x : Int) % 2 ^ t.width := by push_cast; rfl
  have hx2 : ((x % 2 ^ t.width : Nat) : Int) < 2 ^ t.width := by rw [← hw]; exact_mod_cast hx1
  split
  · rename_i hi
    simp only [least, hi, if_true]
    rw [Int.ModEq.sub (n := 2 ^ t.width) (hx ▸ (Int.mod_modEq (x : Int) (2 ^ t.width)).symm : (x : Int) ≡ ((x % 2 ^ t.width : Nat) : Int) [ZMOD 2 ^ t.width]) (Int.ModEq.refl (-2 ^ (t.width - 1))), signedOf]
    simp only [Nat.mod_mod]
    split
    · rename_i hlt
      have : ((x % 2 ^ t.width : Nat) : Int) < 2 ^ (t.width - 1) := by rw [← hn]; exact_mod_cast hlt
      rw [Int.emod_eq_of_lt (by omega) (by omega)]; omega
    · rename_i hge
      have : (2 : Int) ^ (t.width - 1) ≤ ((x % 2 ^ t.width : Nat) : Int) := by rw [← hn]; exact_mod_cast (not_lt.mp hge)
      rw [show ((x % 2 ^ t.width : Nat) : Int) - -(2 : Int) ^ (t.width - 1) = (((x % 2 ^ t.width : Nat) : Int) - 2 ^ (t.width - 1)) + 2 ^ t.width by omega,
        Int.add_emod_right, Int.emod_eq_of_lt (by omega) (by omega)]
      omega
  · rename_i hi
    simp only [least, hi, if_false, Bool.false_eq_true]
    rw [hx]; simp

/-- Sub-element `k` of a fitted lane. -/
theorem elem_intSubs {t : Ty} (h : 0 < t.width) (sat : Bool) (f : Nat → Int) {k : Nat} (hk : k < 64 / t.width) :
    elem t (intSubs t sat f).1 k = fit t sat (f k) := by
  have hw : t.width * subCount t.width ≤ 64 := Nat.mul_div_le ..
  have := subEl_bySubF t.width (fun k => fitInt t sat (f k)) k hk hw
  have e : elem t (intSubs t sat f).1 k = fit t false ((subEl t.width (intSubs t sat f).1 k : Nat) : Int) := by
    simp only [elem, subEl]
    rw [show (((intSubs t sat f).1.toNat / 2 ^ (t.width * k) % 2 ^ t.width : Nat) : Int) =
      (((intSubs t sat f).1.toNat / 2 ^ (t.width * k) : Nat) : Int) % 2 ^ t.width by push_cast; rfl, fit_mod]
  rw [e]
  unfold intSubs
  rw [this, show ((((fitInt t sat (f k)).1 % 2 ^ t.width : Nat)) : Int) = (((fitInt t sat (f k)).1 : Nat) : Int) % 2 ^ t.width by push_cast; rfl, fit_mod]
  exact (fitInt_spec h ..).1

/-- The SI flag is what the active lanes of a fitted result raise (R34, R76). -/
theorem raised_siFlag (g : Group) (c : Ctl) {t : Ty} (h : 0 < t.width) (sat : Bool) (x : Nat → Nat → Int) :
    raised g c (64 / t.width) (fun l k => (fitInt t sat (x l k)).2) = siFlag g c t sat x := by
  refine BitVec.eq_of_getLsbD_eq fun j hj => ?_
  rw [raised_bit]
  simp only [(fitInt_spec h ..).2, siFlag]
  have hb : ∀ (p : Prop) [Decidable p], (if p then 0x20 else 0 : BitVec 6).getLsbD j = (decide p && (0x20#6).getLsbD j) := by
    intro p _; split <;> simp [*]
  simp only [hb]
  cases sat <;> cases hj : (0x20#6).getLsbD j <;> simp
  rw [Bool.eq_iff_iff]
  simp

/-! ### Well-formed instructions -/

/-- A well-formed instruction has types that it accepts. -/
theorem wf_types {i : Instr} (h : i.wf = true) (hc : i.ctl ≠ none) : i.typesOk = true := by
  unfold Instr.wf at h
  split at h
  · exact absurd ‹_› hc
  · simp only [Bool.and_eq_true] at h
    exact h.1.1.1.1.1.1

end Sys2Proof.Machine
end

