-- ==== Sys2Proof/Safety.lean ====
section
/-!
DEFINITION. What a safe run is: one whose steps all answer a next state.
-/
set_option Elab.async false
namespace Sys2Proof
open Sys2Proof.Machine

/-- The step at `s` answers a next state. -/
def Safe (s : State) : Prop := ∃ t, step s = .next t

/-- `n` steps from `s` all answer a next state. -/
def SafeRun : Nat → State → Prop
  | 0, _ => True
  | n + 1, s => ∃ t, step s = .next t ∧ SafeRun n t

end Sys2Proof
end

