-- ==== Sys2Proof/Tests/Slice0.lean ====
section
/-!
SUPPORT. Tests: well-formedness, words written out from the encodings of the spec, single steps, and for each statement states and operands that meet its
hypotheses. Expected values come from the spec's tables and worked examples, or from calculation by hand from them.
-/
namespace Sys2Proof.Machine
open Sys2Proof
set_option Elab.async false
set_option linter.unusedSimpArgs false

/-! ### Well-formedness: an ill-formed term for each check -/

/-- R56: a register number above its class maximum, in each operand field. -/
theorem test_wf_ranges :
    (Instr.smov {} { d := 64, a := { reg := 0 } }).wf = false ∧ (Instr.smov {} { d := 0, a := { reg := 64 } }).wf = false ∧
    (Instr.cwb {} { a := { reg := 0 }, b := { reg := 64 } }).wf = false ∧
    (Instr.psel { pre := some { srcC := 64 } } { d := 0, a := { reg := 0 }, b := { reg := 0 } }).wf = false ∧
    (Instr.mxreq {} 8).wf = false ∧ (Instr.tfree {} 32).wf = false ∧ (Instr.wmovFromW {} 0 16).wf = false ∧
    (Instr.smov {} { d := 63, a := { reg := 63 } }).wf = true ∧ (Instr.mxreq {} 7).wf = true := by decide +kernel

/-- R56: an operand of several registers ends within its class. -/
theorem test_wf_spans :
    (Instr.ld {} { d := 252, a := { reg := 0 }, cnt := .x4, ty := .b64 }).wf = true ∧
    (Instr.ld {} { d := 253, a := { reg := 0 }, cnt := .x4, ty := .b64 }).wf = false ∧
    (Instr.cpyIn {} { d := 0, u := { reg := 62 } }).wf = false := by decide +kernel

/-- R56: a kill bit stands only on the classes v, s and p. -/
theorem test_wf_kills : ({ cls := .h, num := 0, kill := true } : Opnd).ok = false ∧ ({ cls := .a, num := 0, kill := true } : Opnd).ok = false ∧
    ({ cls := .w, num := 0, kill := true } : Opnd).ok = false ∧ ({ cls := .p, num := 0, kill := true } : Opnd).ok = true := by decide +kernel

/-- R57: types and field values that an instruction does not accept. -/
theorem test_wf_types :
    (Instr.sadd {} { d := 0, a := { reg := 0 }, b := .imm 0, ty := .i8 }).wf = false ∧
    (Instr.sand {} { d := 0, a := { reg := 0 }, b := .imm 0, sat := true, ty := .b64 }).wf = false ∧
    (Instr.ssetp {} { d := 0, a := { reg := 0 }, b := .imm 0, cmp := .lt, ty := .b32 }).wf = false ∧
    (Instr.isetp {} { d := 0, a := { reg := 0 }, b := { reg := 0 }, cmp := .lt, sel := 2, ty := .i32 }).wf = false ∧
    (Instr.cvt {} { d := 0, a := { reg := 0 }, src := .f64, dst := .e4m3 }).wf = false ∧
    (Instr.st {} { d := 0, a := { reg := 0 }, ty := .i32 }).wf = false ∧
    (Instr.ld {} { d := 0, a := { reg := 0 }, cnt := .x2, ty := .b32 }).wf = false ∧
    (Instr.apost {} { a := { reg := 0 }, b := { reg := 0 }, op := .cas, scope := .g, ty := .b64 }).wf = false ∧
    (Instr.mxmma {} { d := 0, a := .reg { reg := 0 }, b := .reg { reg := 0 }, fa := .e4m3, fb := .f16 }).wf = false ∧
    (Instr.getsr {} 0 0x01 false).wf = false ∧ (Instr.getsr {} 0 0x00 false).wf = false ∧ (Instr.getsr {} 0 0x02 true).wf = false := by decide +kernel

/-- R60, R62: each prefix field on an instruction that does not take it, and an operand C without a prefix. -/
theorem test_wf_prefix :
    (Instr.smov { pre := some { mask := some 1 } } { d := 0, a := { reg := 0 } }).wf = false ∧
    (Instr.smov { pre := some { zero := true } } { d := 0, a := { reg := 0 } }).wf = false ∧
    (Instr.iadd { pre := some { rmode := some .rz } } { d := 0, a := { reg := 0 }, b := { reg := 0 }, ty := .i32 }).wf = false ∧
    (Instr.smov { pre := some { srcC := 1 } } { d := 0, a := { reg := 0 } }).wf = false ∧
    (Instr.nop { pre := some { idxD := true } }).wf = false ∧ (Instr.smovi { pre := some { idxA := true } } { d := 0, imm := 0 }).wf = false ∧
    (Instr.smov { pre := some { idxB := true } } { d := 0, a := { reg := 0 } }).wf = false ∧
    (Instr.smov { pre := some { idxC := true } } { d := 0, a := { reg := 0 } }).wf = false ∧
    (Instr.imad {} { d := 0, a := { reg := 0 }, b := { reg := 0 }, ty := .i32 }).wf = false ∧
    (Instr.imad { pre := some {} } { d := 0, a := { reg := 0 }, b := { reg := 0 }, ty := .i32 }).wf = true ∧
    (Instr.smov { pre := some { idxD := true, idxA := true } } { d := 0, a := { reg := 0 } }).wf = true := by decide +kernel

/-! ### Words of the spec's examples (R54, R55, R60) -/

theorem test_decode_control :
    decodeTableWord 64 0x27F0 = some (.nop {}) ∧ decodeTableWord 64 0x1BF0 = some (.exit {}) := by decide +kernel

theorem test_decode_uniform : decodeTableWord 64 0x87F91F00203103F0 =
    some (.sadd {} { d := 3, a := { reg := 2 }, b := .imm 0xFFF8, ty := .i64 }) := by decide +kernel

/-- `?p1 pand p4, p2, p3` with NB: MAJOR 2, MINOR 0, guard 1, MOD[6]. -/
theorem test_decode_predicate : decodeTableWord 64 (2 ^ 52 + 3 * 2 ^ 37 + 2 * 2 ^ 28 + 4 * 2 ^ 20 + 2 * 2 ^ 16 + 1 * 2 ^ 4) =
    some (.pand { guard := 1 } { d := 4, a := { reg := 2 }, b := { reg := 3 }, nb := true }) := by decide +kernel

theorem test_decode_integer :
    decodeTableWord 64 0x40004060201303F0 = some (.iadd {} { d := 1, a := { reg := 2 }, b := { reg := 3 }, sat := true, ty := .i8 }) ∧
    decodeTableWord 96 0x83330100810337F40001E001 =
      some (.lop3 { mark := true, pre := some { srcC := 30 } } { d := 16, a := { reg := 8 }, b := { reg := 8 }, uni := true, f0 := 6, f1 := 6 }) := by
  decide +kernel

theorem test_decode_float : decodeTableWord 96 0x0003C0D02044003C00000401 =
    some (.fadd { guard := 3, gneg := true, mark := true, pre := some { rmode := some .rz } }
      { d := 4, a := { reg := 2, kill := true }, b := { reg := 6 }, ty := .f32 }) ∧
    decodeTableWord 64 0x007C4000208427F0 = some (.cvt {} { d := 8, a := { reg := 2 }, src := .f32, dst := .e4m3 }) := by decide +kernel

/-- `fsqrt.f32 v3, -v2`: MAJOR 5, MINOR 2, MOD[16] and type 15. -/
theorem test_decode_function : decodeTableWord 64 (2 ^ 62 + 15 * 2 ^ 46 + 2 * 2 ^ 28 + 3 * 2 ^ 20 + 5 * 2 ^ 16 + 2 * 2 ^ 10 + 63 * 2 ^ 4) =
    some (.fsqrt {} { d := 3, a := { reg := 2 }, na := true, ty := .f32 }) := by decide +kernel

theorem test_decode_crosslane :
    decodeTableWord 64 0x0031C00010460820 = some (.red { guard := 2 } { op := .minidx, d := 4, a := { reg := 1 }, ty := .n32 }) ∧
    decodeTableWord 64 0x0002000020560C20 = some (.scan { guard := 2 } { op := .add, d := 5, a := { reg := 2 }, ty := .n64 }) ∧
    decodeTableWord 96 0x0002000020660C2000100001 =
      some (.scan { guard := 2, pre := some { zero := true } } { op := .add, d := 6, a := { reg := 2 }, ty := .n64 }) := by decide +kernel

theorem test_decode_memory :
    decodeTableWord 64 0x4082C040405703F0 = some (.ld {} { d := 5, a := { reg := 4 }, b := some { reg := 2 }, off := 64, ty := .b32 }) ∧
    decodeTableWord 64 0x0002C00050270030 = some (.ld { guard := 3 } { d := 2, a := { reg := 5 }, ty := .b32 }) ∧
    decodeTableWord 64 0x00D0000000071BF0 = some (.fence {} { ord := .sc, scope := .k }) := by decide +kernel

theorem test_decode_atomic : decodeTableWord 64 0x0181C060204803F0 =
    some (.atom {} { d := 4, a := { reg := 2 }, b := { reg := 3 }, op := .add, scope := .t, ty := .n32 }) := by decide +kernel

theorem test_decode_copy :
    decodeTableWord 64 0x00000020800903F0 = some (.cpyIn {} { d := 0, u := { reg := 8 }, bar := some 1 }) ∧
    decodeTableWord 64 0x000000A0100923F0 = some (.tbarInit {} { bar := .tile 1, b := { reg := 5 } }) ∧
    decodeTableWord 64 0x008000C010092BF0 = some (.tbarExpArv {} { bar := .tile 1, b := { reg := 6 } }) ∧
    decodeTableWord 64 0x0000000010092FF0 = some (.tbarWait {} { bar := .tile 1, par := .imm false }) := by decide +kernel

theorem test_decode_matrix :
    decodeTableWord 64 0x2A03F0 = some (.mxreq {} 2) ∧
    decodeTableWord 64 0x0A200301002A0BF0 =
      some (.mxmma {} { d := 2, a := .reg { reg := 16 }, b := .reg { reg := 24 }, rcnt := 1, fa := .e4m3, fb := .e4m3 }) ∧
    decodeTableWord 64 0x00000000228A1BF0 = some (.mxdrn {} { d := 40, a := 2 }) := by decide +kernel

/-- `wreg.set 5, s2, s4`: MAJOR B, MINOR 4, ID in MOD[10:5]. -/
theorem test_decode_delta : decodeTableWord 64 (5 * 2 ^ 51 + 4 * 2 ^ 37 + 2 * 2 ^ 28 + 0xB * 2 ^ 16 + 4 * 2 ^ 10 + 63 * 2 ^ 4) =
    some (.wregSet {} { id := 5, a := { reg := 2 }, b := { reg := 4 } }) := by decide +kernel

/-- `tex.l.3d.f16 v8, v4, s1`: MAJOR C, MINOR 1, DIMS 2, type 13. -/
theorem test_decode_filter : decodeTableWord 64 (2 * 2 ^ 51 + 13 * 2 ^ 46 + 1 * 2 ^ 37 + 4 * 2 ^ 28 + 8 * 2 ^ 20 + 0xC * 2 ^ 16 + 1 * 2 ^ 10 + 63 * 2 ^ 4) =
    some (.texL {} { d := 8, a := { reg := 4 }, b := { reg := 1 }, dim := .d3, ty := .f16 }) := by decide +kernel

theorem test_decode_ray :
    decodeTableWord 64 0x07F80100904D03F0 = some (.rayTrc {} { d := 4, a := { reg := 9 }, b := { reg := 8 } }) ∧
    decodeTableWord 64 0x0000000090CD0FF0 = some (.rayGet {} { d := 12, a := { reg := 9 }, sel := .hit }) := by decide +kernel

/-- R47, R60, R62: a header, a unit of kind 3 and a reserved field of a listed opcode. -/
theorem test_decode_rejects :
    decodeUnits 3 0xE 0 0 = .error .headerInBody ∧ decodeUnits 3 0x3 0 0 = .ok (.unlistedOpcode 3, 1) ∧ decodeUnits 1 0x27F0 0 0 = .error .crossesEnd ∧
    decodeUnits 3 0x02000001 0x27F0 0 = .error .badPrefix ∧ decodeUnits 2 0x1 0x27F0 0 = .error .lonePrefix ∧
    decodeUnits 3 0x27F0 0x8000 0 = .error .badField ∧ decodeUnits 3 0x703F0 0x7C000 0 = .error .badField ∧
    decodeUnits 3 0xE03F0 0 0 = .ok (.unlistedOpcode 0xE03F0, 2) := by decide +kernel

/-! ### A state to work at: one group that may issue, alone on core 0, the first 512 MiB mapped to themselves -/

def bench : State := State.reset.loadTest 0 0

/-- Registers of a class by number. -/
def r (n : BitVec 8) : Src := { reg := n }

/-- A prefix that names operand C. -/
def withC : Ctl := { pre := some { srcC := 7 } }

/-- The checks of `Clear`, as a computation. -/
def clearB (s : State) (i : Instr) (c : Ctl) : Bool :=
  i.wf && s.cur.rangeOk i c && decide s.cur.Sound && (decide (i.pendCount = 0) || decide (s.cur.uncommitted + i.pendCount ≤ 128))

theorem clear_of {s : State} {i : Instr} {c : Ctl} (h : clearB s i c = true) : Clear i c false s s := by
  simp only [clearB, Bool.and_eq_true, Bool.or_eq_true, decide_eq_true_eq] at h
  exact ⟨h.1.1.1, h.1.1.2, rfl, h.1.2, h.2⟩

/-- The checks of `Ready`, as a computation. -/
def readyB (s : State) (i : Instr) (c : Ctl) : Bool :=
  clearB s i c && decide (c.mark = false) && decide (s.cur.me.pc + BitVec.ofNat 32 c.units ≠ s.cur.me.blk.bend)

theorem ready_of {s : State} {i : Instr} {c : Ctl} (h : readyB s i c = true) : Ready i c s s := by
  simp only [readyB, Bool.and_eq_true, decide_eq_true_eq] at h
  obtain ⟨⟨h1, h2⟩, h3⟩ := h
  obtain ⟨a, b, d, e, f⟩ := clear_of h1
  exact ⟨a, b, by rw [h2]; rfl, e, f, h3⟩

/-- A computation that goes through, with what holds of its result. -/
def okWith {α : Type} (x : M α) (p : α → Bool) : Bool :=
  match x with
  | .ok a => p a
  | .error _ => false

theorem okWith_spec {α : Type} {x : M α} {p : α → Bool} (h : okWith x p = true) : ∃ a, x = .ok a ∧ p a = true := by
  cases x with
  | ok a => exact ⟨a, rfl, h⟩
  | error e => cases h


/-! ### The statements on register instructions: every form at a state where it goes through -/

/-- Instructions with their controls, each of which goes through at a state. -/
def allReady (s : State) (is : List (Ctl × (Ctl → Instr))) : Bool := is.all fun x => readyB s (x.2 x.1) x.1

/-- Lane 0 takes the result of an unguarded instruction at the bench. -/
theorem bench_takes : takes bench.cur {} 0 ∧ takes bench.cur withC 0 :=
  ⟨⟨by decide +kernel, by decide +kernel⟩, by decide +kernel, by decide +kernel⟩

theorem witness_VectorIntegerArithmetic :
    (∃ x, IntResult (.iadd {} ⟨1, r 2, r 3, false, true, .i8⟩) {} 1 .i8 true x ∧ Ready (.iadd {} ⟨1, r 2, r 3, false, true, .i8⟩) {} bench bench) ∧
    allReady bench [({}, (.iadd · ⟨1, r 2, r 3, false, true, .i8⟩)), ({}, (.isub · ⟨255, r 2, r 3, true, false, .n64⟩)),
      ({}, (.imul · ⟨1, r 2, r 3, false, true, .n16⟩)), ({}, (.imulh · ⟨1, r 2, r 3, false, false, .i32⟩)),
      (withC, (.imad · ⟨1, r 2, r 3, false, true, .i8⟩)), ({}, (.iabs · ⟨1, r 2, true, .i8⟩)), ({}, (.ineg · ⟨1, r 2, false, .i64⟩)),
      ({}, (.imin · ⟨1, r 2, r 3, false, false, .i8⟩)), ({}, (.imax · ⟨1, r 2, r 3, false, false, .i8⟩)),
      (withC, (.isad · ⟨1, r 2, r 3, false, true, .i8⟩)), (withC, (.idp4 · ⟨1, r 2, r 3, false, true, .i8, .n8⟩))] = true :=
  ⟨⟨_, .iadd _ _, ready_of (by decide +kernel)⟩, by decide +kernel⟩

theorem witness_VectorBits :
    (∃ b, BitResult (.ishl {} ⟨1, r 2, r 3, false, false, .b8⟩) {} 1 .b8 b ∧ Ready (.ishl {} ⟨1, r 2, r 3, false, false, .b8⟩) {} bench bench) ∧
    Ready (.popc {} ⟨16, r 16, false, .b64⟩) {} bench bench ∧ Ready (.clz {} ⟨1, r 2, false, .b8⟩) {} bench bench ∧
    allReady bench [({}, (.ishl · ⟨1, r 2, r 3, false, false, .b8⟩)), ({}, (.ishr · ⟨1, r 2, r 3, true, false, .b16⟩)),
      ({}, (.isar · ⟨1, r 2, r 3, false, false, .b64⟩)), ({}, (.brev · ⟨1, r 2, false, .b8⟩)), ({}, (.bfe · ⟨1, r 2, r 3, false, false, .i64⟩)),
      (withC, (.bfi · ⟨1, r 2, r 3, false, false, .b32⟩)), ({}, (.swz · ⟨1, r 2, r 3, false, false, .b8⟩)),
      (withC, (.lop3 · ⟨1, r 2, r 3, false, 6, 6⟩)), ({}, (.imov · ⟨1, r 2, true⟩)), ({}, (.imovi · ⟨1, 0x4000000⟩)),
      (withC, (.isel · ⟨1, r 2, r 3, false⟩))] = true :=
  ⟨⟨_, .ishl _ _, ready_of (by decide +kernel)⟩, ready_of (by decide +kernel), ready_of (by decide +kernel), by decide +kernel⟩

theorem witness_UniformResults :
    (∃ x, UniExact (.sadd {} ⟨3, r 2, .imm 0xFFF8, true, .i64⟩) {} 3 .i64 true x ∧ Ready (.sadd {} ⟨3, r 2, .imm 0xFFF8, true, .i64⟩) {} bench bench) ∧
    (∃ b, UniBits (.sand {} ⟨3, r 2, .reg (r 1), false, .b32⟩) {} 3 b ∧ Ready (.sand {} ⟨3, r 2, .reg (r 1), false, .b32⟩) {} bench bench) ∧
    bench.cur.passes {} = true ∧
    allReady bench [({}, (.ssub · ⟨3, r 2, .reg (r 1), true, .n32⟩)), ({}, (.smul · ⟨3, r 2, .imm 1, false, .i32⟩)),
      ({}, (.smulh · ⟨3, r 2, .imm 1, false, .n64⟩)), ({}, (.smin · ⟨3, r 2, .imm 1, false, .i64⟩)), ({}, (.smax · ⟨3, r 2, .imm 1, false, .i64⟩)),
      ({}, (.sor · ⟨3, r 2, .imm 1, false, .b64⟩)), ({}, (.sxor · ⟨3, r 2, .imm 1, false, .b64⟩)), ({}, (.snot · ⟨3, r 2, .b32⟩)),
      ({}, (.sshl · ⟨3, r 2, .imm 64, false, .b64⟩)), ({}, (.sshr · ⟨3, r 2, .imm 1, false, .b64⟩)), ({}, (.ssar · ⟨3, r 2, .imm 1, false, .b32⟩)),
      ({}, (.smov · ⟨3, r 2⟩)), ({}, (.smovi · ⟨3, 5⟩)), ({}, (.ssel · ⟨3, r 2, r 1, 62, .b64⟩))] = true :=
  ⟨⟨_, .sadd _ _, ready_of (by decide +kernel)⟩, ⟨_, .sand _ _, ready_of (by decide +kernel)⟩, by decide +kernel, by decide +kernel⟩

theorem witness_PredicatesAndVotes :
    (∃ b, PredResult (.pand {} ⟨4, r 2, r 3, true, false⟩) {} 4 b ∧ Ready (.pand {} ⟨4, r 2, r 3, true, false⟩) {} bench bench) ∧
    Ready (.voteBal {} ⟨3, r 2⟩) {} bench bench ∧ bench.cur.active {} ≠ 0 ∧
    allReady bench [({}, (.por · ⟨63, r 2, r 3, true, false⟩)), ({}, (.pxor · ⟨4, r 2, r 3, false, true⟩)), ({}, (.pnot · ⟨4, r 2⟩)),
      ({}, (.pmov · ⟨4, r 2, true⟩)), (withC, (.psel · ⟨4, r 2, r 3⟩)), ({}, (.voteAny · ⟨4, r 2, true⟩)), ({}, (.voteAll · ⟨4, r 2, false⟩)),
      ({}, (.ssetp · ⟨4, r 2, .imm 1, .lt, .i64⟩)), ({}, (.isetp · ⟨4, r 2, r 3, false, .ge, 7, .i8⟩)),
      ({}, (.fclass · ⟨4, r 2, 0x3FF, 1, .f32⟩))] = true :=
  ⟨⟨_, .pand _ _, ready_of (by decide +kernel)⟩, ready_of (by decide +kernel), by decide +kernel, by decide +kernel⟩

theorem witness_FloatResults :
    (∃ f, FpResult (.fadd {} ⟨4, r 2, r 3, false, true, false, .f16⟩) {} 4 .f16 f ∧ Ready (.fadd {} ⟨4, r 2, r 3, false, true, false, .f16⟩) {} bench bench) ∧
    Ready (.fsetp {} ⟨4, r 2, r 3, false, false, false, .ltu, 3, .f16⟩) {} bench bench ∧
    allReady bench [({}, (.fsub · ⟨4, r 2, r 3, true, true, false, .bf16⟩)), ({}, (.fmul · ⟨4, r 2, r 3, false, true, false, .f64⟩)),
      (withC, (.ffma · ⟨4, r 2, r 3, false, false, false, true, .f32⟩)), ({}, (.fmin · ⟨4, r 2, r 3, false, true, false, .f32⟩)),
      ({}, (.fmax · ⟨4, r 2, r 3, false, true, false, .f32⟩)), ({}, (.frnd · ⟨4, r 2, true, .f16⟩))] = true :=
  ⟨⟨_, .fadd _ _, ready_of (by decide +kernel)⟩, ready_of (by decide +kernel), by decide +kernel⟩

theorem witness_ConversionsAndFunctions :
    Ready (.cvt {} ⟨8, r 2, false, 3, .f32, .e4m3⟩) {} bench bench ∧ Ready (.cvt {} ⟨8, r 2, true, 0, .i64, .n8⟩) {} bench bench ∧
    SfuResult (.frcp {} ⟨4, r 2, true, .f64⟩) {} ⟨4, r 2, true, .f64⟩ .rcp ∧ Ready (.frcp {} ⟨4, r 2, true, .f64⟩) {} bench bench ∧
    allReady bench [({}, (.frsq · ⟨4, r 2, false, .f32⟩)), ({}, (.fsqrt · ⟨4, r 2, false, .bf16⟩)), ({}, (.fexp2 · ⟨4, r 2, false, .f16⟩)),
      ({}, (.flog2 · ⟨4, r 2, false, .f32⟩)), ({}, (.fsin · ⟨4, r 2, false, .f32⟩)), ({}, (.fcos · ⟨4, r 2, false, .f32⟩))] = true :=
  ⟨ready_of (by decide +kernel), ready_of (by decide +kernel), .frcp _ _, ready_of (by decide +kernel), by decide +kernel⟩

theorem witness_CrossLaneMoves :
    (∃ b, MoveResult (.shfl {} ⟨.rot, 4, r 2, r 3, false, .b16⟩) {} 4 .b16 b ∧ Ready (.shfl {} ⟨.rot, 4, r 2, r 3, false, .b16⟩) {} bench bench) ∧
    allReady bench [({}, (.qswp · ⟨.d, 4, r 2⟩)), ({}, (.match_ · ⟨4, r 2, .b32⟩))] = true :=
  ⟨⟨_, .shfl _ _, ready_of (by decide +kernel)⟩, by decide +kernel⟩

theorem witness_ReductionsAndScans :
    Ready (.red {} ⟨.minidx, true, 6, r 31, .n16⟩) {} bench bench ∧ Ready (.red {} ⟨.add, false, 6, r 31, .f32⟩) {} bench bench ∧
    Ready (.scan {} ⟨.max, true, 6, r 31, .i8⟩) {} bench bench ∧ bench.cur.active {} ≠ 0 :=
  ⟨ready_of (by decide +kernel), ready_of (by decide +kernel), ready_of (by decide +kernel), by decide +kernel⟩

/-! ### Memory, tiles, copies and barriers -/

theorem goes {α β : Type} {x : M (α × β)} (h : okWith x (fun _ => true) = true) : ∃ a b, x = .ok (a, b) := by
  obtain ⟨⟨a, b⟩, h, -⟩ := okWith_spec h; exact ⟨a, b, h⟩

theorem goesUnit {x : M Unit} (h : okWith x (fun _ => true) = true) : x = .ok () := by
  obtain ⟨⟨⟩, h, -⟩ := okWith_spec h; exact h

/-- A state with values in uniform registers of its group. -/
def setS (s : State) (l : List (Nat × Word64)) : State := s.setCur { s.cur with s := l.foldl (fun t e => tset t e.1 e.2) s.cur.s }

/-- A control whose guard no lane passes at the bench. -/
def offCtl : Ctl := { guard := 0 }

/-- The bench with tiles: 1 data, 2 an armed barrier, 3 a ring, 4 a barrier not yet armed, and its group the producer. -/
def tiled : State :=
  let s := bench.setCur { bench.cur with producer := 0 }
  let s := s.updHandle 1 1 fun _ => { st := .allocated, kind := .data, clus := true, rowb := 256, rows := 64 }
  let s := s.updHandle 1 2 fun _ => { st := .allocated, kind := .barrier, clus := true, rowb := 64, rows := 1, bar := { armed := true, expc := 1, phase := true } }
  let s := s.updHandle 1 3 fun _ => { st := .allocated, kind := .ring, clus := true, rowb := 16, rows := 64, tail := 2 }
  s.updHandle 1 4 fun _ => { st := .allocated, kind := .barrier, clus := true, rowb := 64, rows := 1 }

theorem witness_LoadsAndStoresAreIssued :
    Ready (.ld {} ⟨5, r 4, some (r 2), 64, .dflt, .x1, .b32⟩) {} bench bench ∧ bench.pathFree .load = .ok () ∧ bench.pathFree .store = .ok () ∧
    (∃ s2 accs, bench.accept bench.cur.vf .read (tyBytes .b32 * RegCnt.num .x1) true (bench.cur.laneReqs {} true (bench.cur.globalVa {} (r 4) (some (r 2)) 64)) =
      .ok (s2, accs)) ∧
    Ready (.lda {} ⟨5, r 4, none, 0, .k, .b32⟩) {} bench bench ∧ scopeAllows bench {} .k 0 ∧
    (∃ s2 accs, bench.accept bench.cur.vf .read (tyBytes .b32) true (bench.cur.laneReqs {} true (bench.cur.globalVa {} (r 4) none 0)) = .ok (s2, accs)) ∧
    Ready (.sld {} ⟨5, r 4, 8, .i32⟩) {} bench bench ∧ bench.cur.passes {} = true ∧
    (∃ s2 accs, bench.accept bench.cur.vf .read (tyBytes .i32) true [{ lane := 0, va := bench.cur.uniVa {} (r 4) 8 }] = .ok (s2, accs)) ∧
    Ready (.sld offCtl ⟨5, r 4, 8, .i32⟩) offCtl bench bench ∧ bench.cur.passes offCtl = false ∧
    Ready (.st {} ⟨5, r 4, none, 64, .dflt, .x4, .b64⟩) {} bench bench ∧
    (∃ s2 accs, bench.accept bench.cur.vf .write (tyBytes .b64 * RegCnt.num .x4) false (bench.cur.laneReqs {} false (bench.cur.globalVa {} (r 4) none 64)) = .ok (s2, accs)) ∧
    Ready (.strl {} ⟨5, r 4, none, 0, .g, .b8⟩) {} bench bench ∧ scopeAllows bench {} .g 1 ∧
    (∃ s2 accs, bench.accept bench.cur.vf .write (tyBytes .b8) false (bench.cur.laneReqs {} false (bench.cur.globalVa {} (r 4) none 0)) = .ok (s2, accs)) ∧
    Ready (.sst {} ⟨r 4, r 5, 8, .b64⟩) {} bench bench ∧
    (∃ s2 accs, bench.accept bench.cur.vf .write (tyBytes .b64) false (if bench.cur.passes {} then [{ lane := 0, va := bench.cur.uniVa {} (r 4) 8 }] else []) = .ok (s2, accs)) :=
  ⟨ready_of (by decide +kernel), goesUnit (by decide +kernel), goesUnit (by decide +kernel), goes (by decide +kernel), ready_of (by decide +kernel),
    .inr (.inl (by decide)), goes (by decide +kernel), ready_of (by decide +kernel), by decide +kernel, goes (by decide +kernel), ready_of (by decide +kernel),
    by decide +kernel, ready_of (by decide +kernel), goes (by decide +kernel), ready_of (by decide +kernel), .inr (.inl (by decide)), goes (by decide +kernel),
    ready_of (by decide +kernel), goes (by decide +kernel)⟩

/-- The bench with virtual line 4 in the L2. -/
def line4 : L2Line :=
  { vf := 0, line := 4, pa := 4, attr := { r := true, w := true, x := true, cpol := 0, comp := false }, bytes := List.replicate 64 0, dirty := false }

def lined : State := { bench with l2 := [line4] }

theorem witness_AccessChecks :
    (∀ q ∈ [({ lane := 31, va := 0x138 } : LaneReq)], q.helper = false ∧ q.va % 8 = 0 ∧ q.va < 2 ^ 57 ∧
      ∃ l, lined.l2.find? (fun m => m.vf = 0 && m.line = q.va / 64) = some l ∧ l.attr.permits .read = true ∧
        Loc.mk (64 * 4) false none + q.va % 64 = Loc.mk (64 * l.pa) l.attr.comp l.attr.watch + q.va % 64 ∧
        (true = true → lined.poisoned (Loc.mk (64 * 4) false none + q.va % 64) = false)) ∧
    ([({ lane := 0, va := 8 } : LaneReq), { lane := 1, va := 4 }].filter fun q => !q.helper).find? (fun q => q.va % 8 ≠ 0) = some { lane := 1, va := 4 } ∧
    ([({ lane := 0, va := 2 ^ 57 - 8 } : LaneReq), { lane := 1, va := 2 ^ 57 }].filter fun q => !q.helper).find? (fun q => 2 ^ 57 ≤ q.va) =
      some { lane := 1, va := 2 ^ 57 } := by
  refine ⟨?_, by decide +kernel, by decide +kernel⟩
  intro q hq
  simp only [List.mem_singleton] at hq
  subst hq
  exact ⟨rfl, by decide, by decide, line4, by decide +kernel, by decide, by decide +kernel, fun _ => by decide +kernel⟩

theorem witness_TileAccessesAreIssued :
    Ready (.ldt {} ⟨5, 1, r 2, 0, none, .x2, .b64⟩) {} tiled tiled ∧ tiled.pathFree .load = .ok () ∧ tiled.pathFree .store = .ok () ∧
    (∃ wg t, tiled.laneTile {} 1 none .data = .ok (wg, t) ∧ ∃ accs,
      tileAccs t 16 true (tiled.cur.laneReqs {} true fun l => tiled.cur.tileOff {} (r 2) 0 l) = .ok accs) ∧
    Ready (.stt {} ⟨5, 1, r 2, 255, none, .x1, .b8⟩) {} tiled tiled ∧
    (∃ wg t, tiled.laneTile {} 1 none .data = .ok (wg, t) ∧ ∃ accs,
      tileAccs t 1 false (tiled.cur.laneReqs {} false fun l => tiled.cur.tileOff {} (r 2) 255 l) = .ok accs) ∧
    Ready (.append {} ⟨5, 1, r 2, .b32⟩) {} tiled tiled ∧ (∃ wg t, tiled.laneTile {} 1 none .data = .ok (wg, t) ∧ (tiled.cur.active {} = 0 ∨ t.poison = [])) := by
  refine ⟨ready_of (by decide +kernel), goesUnit (by decide +kernel), goesUnit (by decide +kernel), ?_, ready_of (by decide +kernel), ?_,
    ready_of (by decide +kernel), ?_⟩
  · obtain ⟨⟨wg, t⟩, h, hp⟩ := okWith_spec (x := tiled.laneTile {} 1 none .data)
      (p := fun a => okWith (tileAccs a.2 16 true (tiled.cur.laneReqs {} true fun l => tiled.cur.tileOff {} (r 2) 0 l)) fun _ => true) (by decide +kernel)
    obtain ⟨accs, h2, -⟩ := okWith_spec hp
    exact ⟨wg, t, h, accs, h2⟩
  · obtain ⟨⟨wg, t⟩, h, hp⟩ := okWith_spec (x := tiled.laneTile {} 1 none .data)
      (p := fun a => okWith (tileAccs a.2 1 false (tiled.cur.laneReqs {} false fun l => tiled.cur.tileOff {} (r 2) 255 l)) fun _ => true) (by decide +kernel)
    obtain ⟨accs, h2, -⟩ := okWith_spec hp
    exact ⟨wg, t, h, accs, h2⟩
  · obtain ⟨⟨wg, t⟩, h, hp⟩ := okWith_spec (x := tiled.laneTile {} 1 none .data) (p := fun a => decide (a.2.poison = [])) (by decide +kernel)
    exact ⟨wg, t, h, .inr (by simpa using hp)⟩

theorem witness_OrderingInstructions :
    Ready (.fence {} ⟨.sc, .k⟩) {} bench bench ∧ bench.cur.passes {} = true ∧ bench.cur.counter .load = 0 ∧ bench.cur.counter .store = 0 ∧
    Ready (.fence {} ⟨.acq, .g⟩) {} bench bench ∧ Ready (.fence offCtl ⟨.rel, .s⟩) offCtl bench bench ∧ bench.cur.passes offCtl = false ∧
    Ready (.fence {} ⟨.rel, .s⟩) {} (bench.updVf 0 fun v => { v with spol := 4 }) (bench.updVf 0 fun v => { v with spol := 4 }) ∧
    ((bench.updVf 0 fun v => { v with spol := 4 }).vf 0).spol.getLsbD 2 = true ∧ (bench.updVf 0 fun v => { v with spol := 4 }).acked 1 = true ∧
    Ready (.waitc {} ⟨.load, .imm 0⟩) {} bench bench ∧ bench.cur.counter .load ≤ 0 ∧ Ready (.waitc offCtl ⟨.rem, .reg (r 3)⟩) offCtl bench bench ∧
    Ready (.pref {} ⟨r 4, some (r 2), 1, true⟩) {} bench bench ∧ bench.pathFree .store = .ok () ∧
    Ready (.cinv {} ⟨r 4, r 5, true⟩) {} bench bench ∧ Ready (.cwb {} ⟨r 4, r 5⟩) {} bench bench ∧ (bench.cur.uniA {} (r 4)).toNat % 64 = 0 ∧
    (bench.cur.uniB {} (r 5)).toNat % 64 = 0 ∧ Ready (.cwb offCtl ⟨r 4, r 5⟩) offCtl bench bench :=
  ⟨ready_of (by decide +kernel), by decide +kernel, by decide +kernel, by decide +kernel, ready_of (by decide +kernel), ready_of (by decide +kernel),
    by decide +kernel, ready_of (by decide +kernel), by decide +kernel, by decide +kernel, ready_of (by decide +kernel), by decide +kernel,
    ready_of (by decide +kernel), ready_of (by decide +kernel), goesUnit (by decide +kernel), ready_of (by decide +kernel), ready_of (by decide +kernel),
    by decide +kernel, by decide +kernel, ready_of (by decide +kernel)⟩

/-- What `ratom` asks of the accesses that it has accepted, for 8 bytes at each target. -/
def ratomGoes (x : State × List (LaneAcc × LaneAcc)) : Bool :=
  okWith (x.1.settled ((x.2.map fun p => (0, Loc.pa p.1.pa, 16)) ++
    ((x.2.filter fun p => isWindow (Loc.pa p.2.pa)).map fun p => (0, Loc.pa p.2.pa, tyBytes .b64)))) (fun _ => true) && x.1.tagsLeft

/-- A guard that lanes 0 and 5 pass at the bench with p1 set there. -/
def oneCtl : Ctl := { guard := 1 }
def single : State := bench.setCur { bench.cur with p := tset bench.cur.p 1 0x21 }

theorem witness_AtomicsAreIssued :
    Ready (.atom {} ⟨4, r 2, r 3, .add, .t, .ar, .n32⟩) {} bench bench ∧ scopeAllows bench {} .t 3 ∧ bench.pathFree .load = .ok () ∧
    (∃ s2 accs, bench.accept bench.cur.vf .atomic (tyBytes .n32) true (bench.cur.laneReqs {} false fun l => (bench.cur.srcA {} (r 2) l).toNat) = .ok (s2, accs)) ∧
    Ready (.apost {} ⟨r 2, r 3, .fadd, .g, .rel, .f64⟩) {} bench bench ∧ bench.pathFree .store = .ok () ∧
    (∃ s2 accs, bench.accept bench.cur.vf .atomic (tyBytes .f64) false (bench.cur.laneReqs {} false fun l => (bench.cur.srcA {} (r 2) l).toNat) = .ok (s2, accs)) ∧
    Ready (.rpoll oneCtl ⟨4, r 2, .i32⟩) oneCtl single single ∧ (single.cur.uniA oneCtl (r 2)).toNat % 16 = 0 ∧
    (∃ s2 recs, single.accept single.cur.vf .read 16 true (single.cur.laneReqs oneCtl false fun l => ((single.cur.uniA oneCtl (r 2)).toNat + 16 * l) % 2 ^ 64) =
      .ok (s2, recs)) := by
  refine ⟨ready_of (by decide +kernel), .inr (.inl (by decide)), goesUnit (by decide +kernel), goes (by decide +kernel), ready_of (by decide +kernel),
    goesUnit (by decide +kernel), goes (by decide +kernel), ready_of (by decide +kernel), by decide +kernel, goes (by decide +kernel)⟩

/-- The same, where `ratom` is permitted. -/
def ratoming : State := single.updVf 0 fun v => { v with spol := 0x10 }

theorem witness_AtomicsAreIssued_remote :
    Ready (.ratom oneCtl ⟨4, r 2, r 3, .xchg, .b64⟩) oneCtl ratoming ratoming ∧ scopeAllows ratoming oneCtl .s 4 ∧ ratoming.pathFree .rem = .ok () ∧
    (∃ x, ratoming.acceptPairs 0 (ratoming.cur.laneReqs oneCtl false fun l => ((ratoming.cur.readS (ratoming.cur.rD oneCtl 4)).toNat + 16 * l) % 2 ^ 64)
      (ratoming.cur.laneReqs oneCtl false fun l => (ratoming.cur.srcA oneCtl (r 2) l).toNat) = .ok x ∧ ratomGoes x = true) ∧ ratoming.cur.vf = 0 ∧
    (ratoming.cur.readS (ratoming.cur.rD oneCtl 4)).toNat % 16 = 0 ∧
    ∀ q ∈ ratoming.cur.laneReqs oneCtl false fun l => (ratoming.cur.srcA oneCtl (r 2) l).toNat, q.va % tyBytes .b64 = 0 :=
  ⟨ready_of (by decide +kernel), .inr (.inr (by decide +kernel)), goesUnit (by decide +kernel), okWith_spec (by decide +kernel), by decide +kernel⟩

theorem witness_TileHandleInstructions :
    (let s := setS bench [(2, 0x00400100)]
     Ready (.talloc {} ⟨5, r 2, true, .data⟩) {} s s ∧ (s.handle s.cur.wg (s.cur.rD {} 5)).st = .free ∧ (s.handle s.cur.wg (s.cur.rD {} 5)).prog = none ∧
     shapeOk .data (s.cur.uniA {} (r 2)) = true ∧ s.cur.passes {} = true) ∧
    Ready (.talloc offCtl ⟨5, r 2, false, .ring⟩) offCtl bench bench ∧ bench.cur.passes offCtl = false ∧
    Ready (.tfree {} 1) {} tiled tiled ∧ (tiled.handle tiled.cur.wg (tiled.cur.rA {} 1)).st = .allocated ∧
    (tiled.handle tiled.cur.wg (tiled.cur.rA {} 1)).prog = none ∧ Ready (.tfree offCtl 1) offCtl tiled tiled ∧
    Ready (.tqry {} ⟨6, 1⟩) {} tiled tiled ∧ Ready (.tqry offCtl ⟨6, 1⟩) offCtl tiled tiled :=
  ⟨⟨ready_of (by decide +kernel), by decide +kernel, by decide +kernel, by decide +kernel, by decide +kernel⟩, ready_of (by decide +kernel), by decide +kernel,
    ready_of (by decide +kernel), by decide +kernel, by decide +kernel, ready_of (by decide +kernel), ready_of (by decide +kernel), ready_of (by decide +kernel)⟩

/-- The tiled bench with the descriptor of a copy of four rows of 64 bytes in s8 to s10, and of a window in s12 to s15. -/
def copying : State := setS tiled [(8, 0x10000), (9, 0x4000000000), (10, 0x00400004), (12, 0x10000), (13, 0x40_0004_0004), (14, 0x03000800), (15, 0)]

/-- What `CopyOk` asks of a copy's shape, as a computation. -/
def copyGoes (x : CopyOp × Bool) : Bool :=
  okWith (copying.mapPages copying.cur.vf (if x.1.kind = .out then .write else .read) ((pagesOf x.1.runs).filterMap fun p => p.2.map fun a => (p.1, a))) (fun _ => true) &&
  x.1.fits (copying.handle 1 1) && !x.2 && decide (x.1.ga % 8 = 0 ∧ x.1.gp % 8 = 0 ∧ x.1.to_ % 8 = 0) &&
  decide (∀ p ∈ pagesOf x.1.runs, ∀ a ∈ p.2, a < 2 ^ 57)

theorem copying_ok (shape : CopyOp × Bool) (good : copyGoes shape = true) (clus : Bool) (ack : Option Nat) (hack : ack = none ∨ ack = some 2) :
    ∃ s2 maps, CopyOk copying s2 shape [1] clus 1 (some 2) ack maps := by
  simp only [copyGoes, Bool.and_eq_true, Bool.not_eq_true', decide_eq_true_eq] at good
  obtain ⟨⟨⟨⟨hs, hf⟩, hr⟩, ha⟩, hl⟩ := good
  obtain ⟨s2, maps, hm⟩ := goes hs
  refine ⟨s2, maps, ⟨by decide +kernel, ?_, ?_, ?_, hr, ha, fun p hp a h => hl p hp a h, hm⟩⟩
  · intro k hk
    simp only [List.mem_singleton] at hk
    subst hk
    exact ⟨⟨by decide +kernel, by decide +kernel, by decide +kernel⟩, fun _ => by decide +kernel, hf⟩
  · intro b hb k hk
    simp only [List.mem_singleton] at hk
    cases hb; subst hk
    exact ⟨⟨by decide +kernel, by decide +kernel, by decide +kernel⟩, by decide +kernel⟩
  · intro b hb
    rcases hack with h | h
    · rw [h] at hb; cases hb
    · rw [h] at hb; cases hb
      exact ⟨⟨by decide +kernel, by decide +kernel, by decide +kernel⟩, by decide +kernel⟩

theorem witness_CopiesAreIssued :
    (∃ sh, CopyForm (.cpyIn {} ⟨1, r 8, some 2⟩) {} 1 sh (some 2) ∧ ∃ s2 maps,
      CopyOk copying s2 (sh copying.cur) [copying.cur.wg] false (copying.cur.rD {} 1) ((some 2).map (copying.cur.rB {})) none maps) ∧
    (∃ sh, CopyForm (.cpyOut {} ⟨1, r 8, some 2⟩) {} 1 sh (some 2) ∧ ∃ s2 maps,
      CopyOk copying s2 (sh copying.cur) [copying.cur.wg] false (copying.cur.rD {} 1) ((some 2).map (copying.cur.rB {})) none maps) ∧
    (∃ sh, CopyForm (.cpyWin {} ⟨1, r 12, some 2⟩) {} 1 sh (some 2) ∧ ∃ s2 maps,
      CopyOk copying s2 (sh copying.cur) [copying.cur.wg] false (copying.cur.rD {} 1) ((some 2).map (copying.cur.rB {})) none maps) ∧
    (∃ s2 maps, CopyOk copying s2 (rowShape .mc (copying.cur.readS 8) (copying.cur.readS 9) (copying.cur.readS 10)) [1] true (copying.cur.rD {} 1)
      (some (copying.cur.rB {} 2)) (some (copying.cur.rC { pre := some { srcC := 2 } })) maps) ∧
    ((List.range copying.cur.gangN).filter fun n => (0 : BitVec 4) = 0 ∨ (0 : BitVec 4).getLsbD n = true).map (copying.peerWg copying.cur) = [1].map some ∧
    (0 : BitVec 4).toNat < 2 ^ copying.cur.gangN ∧ copying.cur.passes {} = true ∧ copying.pathFree .copy = .ok () ∧
    allReady copying [({}, (.cpyIn · ⟨1, r 8, some 2⟩)), ({}, (.cpyOut · ⟨1, r 8, some 2⟩)), ({}, (.cpyWin · ⟨1, r 12, none⟩)),
      ({ pre := some { srcC := 2 } }, (.cpyMc · ⟨1, r 8, 2, 0⟩)), (offCtl, (.cpyIn · ⟨1, r 8, none⟩)),
      ({ guard := 0, pre := some { srcC := 2 } }, (.cpyMc · ⟨1, r 8, 2, 0⟩))] = true ∧ copying.cur.passes offCtl = false :=
  ⟨⟨_, .cpyIn _ _, copying_ok _ (by decide +kernel) _ _ (.inl rfl)⟩, ⟨_, .cpyOut _ _, copying_ok _ (by decide +kernel) _ _ (.inl rfl)⟩,
    ⟨_, .cpyWin _ _, copying_ok _ (by decide +kernel) _ _ (.inl rfl)⟩, copying_ok _ (by decide +kernel) _ _ (.inr rfl),
    by decide +kernel, by decide +kernel, by decide +kernel, goesUnit (by decide +kernel), by decide +kernel, by decide +kernel⟩

/-- The tiled bench with counts in s5 and the address of a global barrier in s6. -/
def barring : State := setS tiled [(5, 1), (6, 0x10040)]

/-- What `tbar.init` asks of the barrier that it names. -/
def initOk (x : State × BarLoc) : Bool :=
  !(x.1.readBar x.2).armed && decide (0 < (x.1.cur.uniB {} (r 5)).toNat) && decide ((x.1.cur.uniB {} (r 5)).toNat < 2 ^ 32) &&
  x.1.allGroups.all fun g => g.ops.all fun p => p.fin || !p.kind.countsAt x.2

theorem witness_BarrierInstructions :
    Ready (.tbarInit {} ⟨.tile 4, r 5⟩) {} barring barring ∧ barring.cur.passes {} = true ∧
    (∃ x, barring.barAt {} (.tile 4) = .ok x ∧ (initOk x && decide (x.2 = .tile 1 4)) = true) ∧
    Ready (.tbarInit {} ⟨.glob (r 6), r 5⟩) {} barring barring ∧
    (∃ x, barring.barAt {} (.glob (r 6)) = .ok x ∧ (initOk x && decide (x.2 = .glob 0 0x10040 (2 ^ 70 + 0x10040)) &&
      decide ((x.1.barLines.filter fun b => b.2.1 = x.1.l2Home 0 0x10040).length < x.1.barRoom (x.1.l2Home 0 0x10040))) = true) ∧
    Ready (.tbarInit offCtl ⟨.tile 4, r 5⟩) offCtl barring barring ∧ barring.cur.passes offCtl = false ∧
    ArrivalForm (.tbarArv {} (.tile 2)) {} (.tile 2) (fun _ => 0) true ∧
    (∃ n, ArrivalForm (.tbarExp {} ⟨.peer 2 0, r 5⟩) {} (.peer 2 0) n false) ∧
    (∃ x, barring.barAt {} (.tile 2) = .ok x ∧ (x.1.readBar x.2).unarmed = false) ∧ (∃ x, barring.barAt {} (.peer 2 0) = .ok x ∧ (x.1.readBar x.2).unarmed = false) ∧
    barring.cur.me.tw = none ∧
    (∃ x, barring.barAt {} (.tile 2) = .ok x ∧ ((x.1.readBar x.2).unarmed = false ∧ (x.1.readBar x.2).phase ≠ x.1.cur.parity {} (.imm false))) ∧
    allReady barring [({}, (.tbarArv · (.tile 2))), ({}, (.tbarExp · ⟨.peer 2 0, r 5⟩)), ({}, (.tbarExpArv · ⟨.tile 2, r 5⟩)), ({}, (.tbarWait · ⟨.tile 2, .imm false⟩)),
      ({}, (.tbarInval · (.tile 2))), ({}, (.tbarTestPh · ⟨4, .tile 2, .reg (r 5)⟩)), ({}, (.tbarTestBrk · ⟨4, .tile 2⟩)), (offCtl, (.tbarArv · (.tile 2))),
      (offCtl, (.tbarWait · ⟨.tile 2, .imm false⟩)), (offCtl, (.tbarInval · (.tile 2))), (offCtl, (.tbarTestPh · ⟨4, .tile 2, .imm true⟩)),
      (offCtl, (.tbarTestBrk · ⟨4, .tile 2⟩))] = true ∧ barring.cur.active {} ≠ 0 ∧ barring.cur.active offCtl = 0 := by
  refine ⟨ready_of (by decide +kernel), by decide +kernel, okWith_spec (by decide +kernel), ready_of (by decide +kernel), okWith_spec (by decide +kernel),
    ready_of (by decide +kernel), by decide +kernel, .tbarArv _ _, ⟨_, .tbarExp _ _⟩, ?_, ?_, by decide +kernel, ?_, by decide +kernel, by decide +kernel, by decide +kernel⟩
  · obtain ⟨x, h, hp⟩ := okWith_spec (x := barring.barAt {} (.tile 2)) (p := fun x => !(x.1.readBar x.2).unarmed) (by decide +kernel)
    exact ⟨x, h, by simpa using hp⟩
  · obtain ⟨x, h, hp⟩ := okWith_spec (x := barring.barAt {} (.peer 2 0)) (p := fun x => !(x.1.readBar x.2).unarmed) (by decide +kernel)
    exact ⟨x, h, by simpa using hp⟩
  · obtain ⟨x, h, hp⟩ := okWith_spec (x := barring.barAt {} (.tile 2))
      (p := fun x => !(x.1.readBar x.2).unarmed && (x.1.readBar x.2).phase != x.1.cur.parity {} (.imm false)) (by decide +kernel)
    exact ⟨x, h, by simpa using hp⟩

/-- The tiled bench with barrier 2 set to given counts. -/
def barCounts (arvc expc : Word32) (pend : Word64) : State :=
  tiled.updHandle 1 2 fun t => { t with bar := { armed := true, arvc, expc, pend } }

theorem witness_BarrierSteps :
    (tiled.wg? 1).isSome = true ∧ (2 : Nat) < 32 ∧ (tiled.readBar (.tile 1 4)).armed = false ∧
    (let b := (barCounts 3 3 0).readBar (.tile 1 2); b.armed = true ∧ b.broken = false ∧ b.arvc = b.expc ∧ b.pend + 0 = 0) ∧
    (let b := (barCounts 2 3 5).readBar (.tile 1 2); b.armed = true ∧ b.broken = false ∧ b.arvc ≠ b.expc ∧ b.arvc + 1 = b.expc ∧ b.pend + (-5) = 0) ∧
    (let b := (barCounts 2 3 5).readBar (.tile 1 2); b.arvc ≠ b.expc ∧ b.arvc + 1 = b.expc ∧ b.pend + 0 ≠ 0) ∧
    (let b := (barCounts 1 3 5).readBar (.tile 1 2); b.arvc ≠ b.expc ∧ b.arvc + 1 ≠ b.expc) := by decide +kernel


/-! ### Records, the matrix engine, and the units behind descriptors -/

theorem goesOne {α β : Type} {x : M (α × List β)} (h : okWith x (fun a => decide (a.2.length = 1)) = true) : ∃ a b, x = .ok (a, [b]) := by
  obtain ⟨⟨a, l⟩, h, hp⟩ := okWith_spec h
  obtain ⟨b, rfl⟩ := List.length_eq_one_iff.1 (of_decide_eq_true hp)
  exact ⟨a, b, h⟩

theorem witness_RecordsRegionsAndIdleForms :
    GroupForm (.mxwin offCtl (r 2)) offCtl ∧ CountedForm (.mxpass offCtl (r 2)) offCtl .mx ∧ bench.pathFree .mx = .ok () ∧ bench.pathFree .store = .ok () ∧
    bench.cur.passes offCtl = false ∧
    allReady bench [(offCtl, (.mxreq · 2)), (offCtl, (.mxrel · 2)), (offCtl, (.mxscl · ⟨true, r 2, r 3⟩)), (offCtl, (.mxsclNone · false)), (offCtl, (.mxwin · (r 2))),
      (offCtl, (.rastSub · (r 2))), (offCtl, (.encTile · ⟨r 2, r 3⟩)), (offCtl, (.encFrm · (r 2))), (offCtl, (.trap · 1)), (offCtl, (.brk · 1)), (offCtl, (.yield ·)),
      (offCtl, (.daymark · 5 none)), (offCtl, (.setsr · 0x20 (r 2))), (offCtl, (.setx · (.imm 5))), (offCtl, (.wmovToW · 2 (r 3))), (offCtl, (.wmovFromW · 2 3)),
      (offCtl, (.getsr · 3 0x20 false)), (offCtl, (.mxmma · ⟨2, .reg (r 16), .reg (r 24), false, 1, .e4m3, .e4m3⟩)), (offCtl, (.mxzero · 2)), (offCtl, (.mxpass · (r 2))),
      (offCtl, (.mxdelta · (r 2))), (offCtl, (.dlrBind · ⟨r 2, r 4⟩)), (offCtl, (.dlrInval · (r 2))), (offCtl, (.dlrStat · ⟨3, r 2⟩)), (offCtl, (.wregSet · ⟨5, r 2, r 4⟩)),
      (offCtl, (.wregClr · 5))] = true ∧
    (let s := setS bench [(2, 0x10000), (5, 1)]
     RecordForm (.dlrBind {} ⟨r 2, r 4⟩) {} (r 2) 0 (fun g => (g.readS (g.rB {} 4), g.readS (g.rB {} 4 + 1))) .write none ∧
     Ready (.dlrBind {} ⟨r 2, r 4⟩) {} s s ∧ s.cur.passes {} = true ∧ bindOk (s.cur.readS (s.cur.rB {} 4)) (s.cur.readS (s.cur.rB {} 4 + 1)) = true ∧
     (∃ s2 acc, s.accept s.cur.vf .write 256 false [{ lane := 0, va := (s.cur.uniA {} (r 2)).toNat }] = .ok (s2, [acc])) ∧
     (∃ s2 acc, s.accept s.cur.vf .read 256 true [{ lane := 0, va := (s.cur.uniA {} (r 2)).toNat }] = .ok (s2, [acc])) ∧
     allReady s [({}, (.dlrInval · (r 2))), ({}, (.dlrStat · ⟨3, r 2⟩))] = true) ∧
    (let s := setS bench [(2, 2 ^ 57 - 64), (4, 64)]
     Ready (.wregSet {} ⟨5, r 2, r 4⟩) {} s s ∧ s.pathFree .store = .ok () ∧ s.cur.passes {} = true ∧ Ready (.wregClr {} 63) {} s s ∧
     (s.cur.uniA {} (r 2)).toNat % 64 = 0 ∧ (s.cur.uniB {} (r 4)).toNat % 64 = 0 ∧ 0 < (s.cur.uniB {} (r 4)).toNat ∧ (s.cur.uniB {} (r 4)).toNat ≤ 2 ^ 40 ∧
     (s.cur.uniA {} (r 2)).toNat + (s.cur.uniB {} (r 4)).toNat ≤ 2 ^ 57) := by
  refine ⟨.mxwin _ _, .mxpass _ _, goesUnit (by decide +kernel), goesUnit (by decide +kernel), by decide +kernel, by decide +kernel,
    ⟨.dlrBind _ _, ready_of (by decide +kernel), by decide +kernel, by decide +kernel, ?_, ?_, by decide +kernel⟩,
    ready_of (by decide +kernel), goesUnit (by decide +kernel), by decide +kernel, ready_of (by decide +kernel), by decide +kernel, by decide +kernel,
    by decide +kernel, by decide +kernel, by decide +kernel⟩
  · exact goesOne (by decide +kernel)
  · exact goesOne (by decide +kernel)

/-- The bench with accumulator 2 reserved, at a given drain row. -/
def reserved (row : Nat) : State := bench.setCur (bench.cur.setAccName 2 { bound := true, cur := row })

theorem witness_AccumulatorsAndSettings :
    Ready (.mxreq {} 2) {} bench bench ∧ bench.cur.passes {} = true ∧ (bench.cur.accName (bench.cur.rD {} 2)).bound = false ∧
    Ready (.mxrel {} 2) {} (reserved 63) (reserved 63) ∧ Ready (.mxzero {} 2) {} (reserved 63) (reserved 63) ∧ (reserved 63).pathFree .mx = .ok () ∧
    ((reserved 63).cur.accName ((reserved 63).cur.rD {} 2)).bound = true ∧
    Ready (.mxdrn {} ⟨40, 2, false⟩) {} (reserved 63) (reserved 63) ∧ (reserved 63).cur.active {} ≠ 0 ∧
    ((reserved 63).cur.accName (idxReg false 2 (reserved 63).cur.x)).cur < 64 ∧
    Ready (.mxdrn offCtl ⟨40, 2, false⟩) offCtl bench bench ∧ bench.cur.active offCtl = 0 ∧ bench.pathFree .mx = .ok () ∧
    (let s := setS bench [(2, 0x10000), (3, 0x118)]
     Ready (.mxscl {} ⟨true, r 2, r 3⟩) {} s s ∧ (s.cur.uniB {} (r 3)).toNat < 2 ^ 9 ∧ (s.cur.uniB {} (r 3)).toNat / 32 % 8 = 0 ∧ (s.cur.uniB {} (r 3)).toNat % 32 ≤ 24 ∧
     Ready (.mxsclNone {} true) {} s s) ∧
    (let s := setS bench [(4, 0x016120)]
     Ready (.mxwin {} (r 4)) {} s s ∧
     (let n := (s.cur.uniA {} (r 4)).toNat
      n < 2 ^ 24 ∧ n / 2 ^ 15 % 2 = 0 ∧ n % 32 = 0 ∧ n / 2 ^ 12 % 8 ≠ 7 ∧ n / 2 ^ 8 % 8 ≠ 0 ∧ n / 2 ^ 5 % 8 ≠ 0 ∧ n / 2 ^ 16 ≠ 0)) :=
  ⟨ready_of (by decide +kernel), by decide +kernel, by decide +kernel, ready_of (by decide +kernel), ready_of (by decide +kernel), goesUnit (by decide +kernel),
    by decide +kernel, ready_of (by decide +kernel), by decide +kernel, by decide +kernel, ready_of (by decide +kernel), by decide +kernel,
    goesUnit (by decide +kernel), ⟨ready_of (by decide +kernel), by decide +kernel, by decide +kernel, by decide +kernel, ready_of (by decide +kernel)⟩,
    ready_of (by decide +kernel), by decide +kernel⟩

/-- Tiles, an accumulator, the descriptors of two tile operands in s7 to s10, and a scale configuration of side A. -/
def posting : State :=
  let s := setS tiled [(7, 0), (8, 0x200100), (9, 0), (10, 0x100), (20, 0x30000)]
  (s.setCur (s.cur.setAccName 2 { bound := true })).setScale false { base := 0x20000, cfg := 6, en := true }

/-- What `MmaOk` asks, as a computation. -/
def mmaGoes (c : Ctl) (o : MxMma) : Bool :=
  let a := mmaDescA posting c o
  let b := mmaDescB posting c o
  let k := mmaK posting c o
  (posting.cur.accName (posting.cur.rD c o.d)).bound &&
  ((mmaTile posting c.idxA o.a).toList ++ (mmaTile posting c.idxB o.b).toList).all
    (fun t => t.2.prog.isNone && decide (t.2.st = .allocated) && decide (t.2.kind = .data) && t.2.clus) &&
  (a.toList ++ b.toList).all (fun d => !d.rsv && decide (d.off % 32 = 0) && decide (d.tp % 32 = 0) && decide (d.rp % 32 = 0)) &&
  !badShape (posting.cur.sclA.use o.fa false) o.fa && !badShape (posting.cur.sclB.use o.fb true) o.fb &&
  a.all (fun d => o.win == decide (d.klen = 0)) && b.all (fun d => decide (d.klen = 0)) &&
  (a.isNone || b.isSome || decide (k = rcntRegs o.rcnt * (32 / o.fa.width))) && decide (k ≤ kLimit o.fa.width) &&
  a.all (fun d => (mmaTile posting c.idxA o.a).all fun t => d.fits t.2 o.fa.width k (if o.win then some posting.cur.winOf else none)) &&
  b.all (fun d => (mmaTile posting c.idxB o.b).all fun t => d.fits t.2 o.fb.width k none) &&
  decide (o.fb.width = o.fa.width) && (mmaPages posting c o).all (fun p => decide (p.2 < 2 ^ 57)) &&
  okWith (posting.mapPages posting.cur.vf .read (mmaPages posting c o)) (fun x => okWith x.1.post fun _ => true)

theorem mma_ok (c : Ctl) (o : MxMma) (goal : mmaGoes c o = true) : ∃ s2 s3 maps, MmaOk posting s2 c o maps ∧ s2.post = .ok s3 := by
  simp only [mmaGoes, Bool.and_eq_true] at goal
  obtain ⟨⟨⟨⟨⟨⟨⟨⟨⟨⟨⟨⟨⟨hb, ht⟩, hd⟩, hs1⟩, hs2⟩, hA⟩, hB⟩, hr⟩, hl⟩, hfA⟩, hfB⟩, hw⟩, hp⟩, hm⟩ := goal
  obtain ⟨⟨s2, maps⟩, h, hq⟩ := okWith_spec hm
  obtain ⟨s3, h3, -⟩ := okWith_spec hq
  simp only [List.all_eq_true, List.mem_append, Option.mem_toList, Bool.and_eq_true, Bool.or_eq_true, decide_eq_true_eq, Bool.not_eq_true',
    Option.isNone_iff_eq_none, Option.all_eq_true, beq_iff_eq] at ht hd hs1 hs2 hA hB hr hl hfA hfB hw hp
  have hr : (mmaDescA posting c o).isSome = true → mmaDescB posting c o = none → mmaK posting c o = rcntRegs o.rcnt * (32 / o.fa.width) := by
    intro h1 h2
    rcases hr with (h | h) | h
    · rw [h] at h1; cases h1
    · rw [h2] at h; cases h
    · exact h
  refine ⟨s2, s3, maps, ⟨hb, fun t e => ?_, fun t e => ?_, fun d e => ?_, ⟨hs1, hs2⟩, fun d e => ?_, fun d e => hB d e, hr, hl, fun d t e f => hfA d e t f, fun d t e f => ?_, hp, h⟩, h3⟩
  · obtain ⟨⟨⟨a, b⟩, c⟩, d⟩ := ht t (.inl e); exact ⟨⟨a, b, c⟩, d⟩
  · obtain ⟨⟨⟨a, b⟩, c⟩, d⟩ := ht t (.inr e); exact ⟨⟨a, b, c⟩, d⟩
  · obtain ⟨⟨⟨a, b⟩, c⟩, f⟩ := hd d e; exact ⟨a, b, c, f⟩
  · rw [hA d e]; simp
  · rw [← hw]; exact hfB d e t f

theorem witness_PassesArePosted :
    (∃ s2 s3 maps, MmaOk posting s2 {} ⟨2, .reg (r 16), .reg (r 24), false, 1, .e4m3, .e4m3⟩ maps ∧ s2.post = .ok s3) ∧
    (∃ s2 s3 maps, MmaOk posting s2 withC ⟨2, .tile 1, .tile 1, false, 0, .f32, .f32⟩ maps ∧ s2.post = .ok s3) ∧
    allReady posting [({}, (.mxmma · ⟨2, .reg (r 16), .reg (r 24), false, 1, .e4m3, .e4m3⟩)), (withC, (.mxmma · ⟨2, .tile 1, .tile 1, false, 0, .f32, .f32⟩)),
      ({}, (.mxpass · (r 20))), ({}, (.mxdelta · (r 20)))] = true ∧ posting.pathFree .mx = .ok () ∧ posting.cur.passes withC = true ∧ posting.cur.passes {} = true ∧
    DetachedForm (.mxdelta {} (r 20)) {} (r 20) .delta ∧
    (∃ s2 s3 d pa, posting.takeDescriptor (posting.cur.uniA {} (r 20)).toNat = .ok (s2, d, pa) ∧ s2.post = .ok s3) := by
  refine ⟨mma_ok _ _ (by decide +kernel), mma_ok _ _ (by decide +kernel),
    by decide +kernel, goesUnit (by decide +kernel), by decide +kernel, by decide +kernel, .mxdelta _ _, ?_⟩
  obtain ⟨⟨s2, d, pa⟩, h, hp⟩ := okWith_spec (x := posting.takeDescriptor (posting.cur.uniA {} (r 20)).toNat) (p := fun x => okWith x.1.post fun _ => true) (by decide +kernel)
  obtain ⟨s3, h3, -⟩ := okWith_spec hp
  exact ⟨s2, s3, d, pa, h, h3⟩

/-- The bench with bytes of memory, and values in uniform registers. -/
def holding (bytes : List (Nat × List Byte)) (regs : List (Nat × Word64)) : State :=
  setS { bench with mem := bytes.foldl (fun m b => Memory.writeN m b.1 b.2) bench.mem } regs

/-- A state with a single lane in the path that issues. -/
def lone (s : State) : State := s.setCur (s.cur.setMe { s.cur.me with mask := 0x80 })

/-- A texture of one texel, whose descriptor is at 0x300000. -/
def textured : State := lone (holding [(0x300010, [64])] [(1, 0x300000)])

theorem witness_TextureInstructions :
    TexForm (.texL {} ⟨8, r 4, r 1, .d2, .f16⟩) {} ⟨8, r 4, r 1, .d2, .f16⟩ true ∧ TexForm (.texS {} ⟨8, r 4, r 1, .d2, .f32⟩) {} ⟨8, r 4, r 1, .d2, .f32⟩ false ∧
    TexQForm (.texQDim {} ⟨8, r 4, r 1, .d2⟩) {} ⟨8, r 4, r 1, .d2⟩ 2 ∧
    allReady textured [({}, (.texL · ⟨8, r 4, r 1, .d2, .f16⟩)), ({}, (.texS · ⟨8, r 4, r 1, .d2, .f32⟩)), ({}, (.texQDim · ⟨8, r 4, r 1, .d2⟩)),
      ({}, (.texQLod · ⟨8, r 4, r 1, .d2⟩)), (offCtl, (.texL · ⟨8, r 4, r 1, .d3, .f16⟩)), (offCtl, (.texQLod · ⟨8, r 4, r 1, .cube⟩))] = true ∧
    textured.pathFree .filt = .ok () ∧ textured.cur.active {} ≠ 0 ∧ textured.cur.active offCtl = 0 ∧
    (∃ s2 desc, textured.texDesc {} (r 1) .d2 = .ok (s2, desc) ∧
      ∃ s3 pages helpers, s2.acceptData {} true (texReads textured.cur {} ⟨8, r 4, r 1, .d2, .f16⟩ true desc) = .ok (s3, pages, helpers)) := by
  refine ⟨.texL _ _, .texS _ _, .dim _ _, by decide +kernel, goesUnit (by decide +kernel), by decide +kernel, by decide +kernel, ?_⟩
  obtain ⟨⟨s2, desc⟩, h, hp⟩ := okWith_spec (x := textured.texDesc {} (r 1) .d2)
    (p := fun x => okWith (x.1.acceptData {} true (texReads textured.cur {} ⟨8, r 4, r 1, .d2, .f16⟩ true x.2)) fun _ => true) (by decide +kernel)
  obtain ⟨⟨s3, pages, helpers⟩, h3, -⟩ := okWith_spec hp
  exact ⟨s2, desc, h, s3, pages, helpers, h3⟩

/-- A grid of one level of one two-feature FP32 entry at resolution 1, with a gradient header: its table is at 0x310000. -/
def gridded : State := lone (holding [(0x310040, bytesLE 8 0x320000 ++ bytesLE 8 0x10100 ++ bytesLE 8 0x330000)] [(1, 0x310000)])

theorem witness_HashGridInstructions :
    allReady gridded [({}, (.hgFetch · ⟨8, r 4, r 1, false, 0, .f32⟩)), ({}, (.hgScat · ⟨8, r 4, r 1, false, true, 0, .f32⟩)),
      ({}, (.hgScat · ⟨8, r 4, r 1, false, false, 0, .f32⟩)), (offCtl, (.hgFetch · ⟨8, r 4, r 1, true, 0, .f32⟩)),
      (offCtl, (.hgScat · ⟨8, r 4, r 1, true, true, 0, .f32⟩))] = true ∧
    gridded.pathFree .filt = .ok () ∧ gridded.cur.active {} ≠ 0 ∧ gridded.cur.active offCtl = 0 ∧
    (∃ s2 tab, gridded.gridTable {} (r 1) false (hgRegs 0) .f32 = .ok (s2, tab, 0) ∧
      (∃ s3 pages h, s2.acceptData {} false (fun l => (gridReads tab (gridLane gridded.cur {} (r 4) false l)).map (·.1)) = .ok (s3, pages, h)) ∧
      (∃ s4 accs, s2.accept gridded.cur.vf .atomic 1 false (scatSlots gridded.cur {} ⟨8, r 4, r 1, false, false, 0, .f32⟩ tab) = .ok (s4, accs)) ∧
      (∃ s3 hs s4 accs, s2.gradHeaders tab = .ok (s3, hs) ∧ (∀ h ∈ hs, h.2.2.2 ≠ 1000) ∧
        s3.accept gridded.cur.vf .atomic 1 false (scatSlots gridded.cur {} ⟨8, r 4, r 1, false, true, 0, .f32⟩ tab) = .ok (s4, accs))) := by
  refine ⟨by decide +kernel, goesUnit (by decide +kernel), by decide +kernel, by decide +kernel, ?_⟩
  obtain ⟨⟨s2, tab, z⟩, h, hp⟩ := okWith_spec (x := gridded.gridTable {} (r 1) false (hgRegs 0) .f32) (p := fun x => decide (x.2.2 = 0) &&
    (okWith (x.1.acceptData {} false (fun l => (gridReads x.2.1 (gridLane gridded.cur {} (r 4) false l)).map (·.1))) (fun _ => true) &&
    (okWith (x.1.accept gridded.cur.vf .atomic 1 false (scatSlots gridded.cur {} ⟨8, r 4, r 1, false, false, 0, .f32⟩ x.2.1)) (fun _ => true) &&
     okWith (x.1.gradHeaders x.2.1) fun y => y.2.all (fun h => decide (h.2.2.2 ≠ 1000)) &&
      okWith (y.1.accept gridded.cur.vf .atomic 1 false (scatSlots gridded.cur {} ⟨8, r 4, r 1, false, true, 0, .f32⟩ x.2.1)) fun _ => true))) (by decide +kernel)
  simp only [Bool.and_eq_true, decide_eq_true_eq] at hp
  obtain ⟨hz, ha, hb, hc⟩ := hp
  subst hz
  obtain ⟨⟨a1, a2, a3⟩, ha, -⟩ := okWith_spec ha
  obtain ⟨⟨s3, hs⟩, hg, hc⟩ := okWith_spec hc
  simp only [Bool.and_eq_true, List.all_eq_true, decide_eq_true_eq] at hc
  obtain ⟨s4, accs, hd⟩ := goes hc.2
  exact ⟨s2, tab, h, ⟨a1, a2, a3, ha⟩, goes hb, s3, hs, s4, accs, hg, hc.1, hd⟩

/-- The bench with a record base in s9, and the record of lane 7 in the L2. -/
def rayed : State := { lone (setS bench [(9, 0x20000)]) with l2 := (List.range 8).map fun i => { line4 with line := 0x838 + i, pa := 0x838 + i } }

theorem witness_RayInstructions :
    (∃ k flags f dst, RayForm (.rayTrc {} ⟨4, r 9, r 8, false, true, .back, 0x0F⟩) {} (r 9) .write k flags f dst) ∧ refBad (rayed.cur.uniB {} (r 8)).toNat = false ∧
    (∃ k flags f dst, RayForm (.rayRsm {} ⟨r 9, some (r 8)⟩) {} (r 9) .write k flags f dst) ∧
    (∃ k flags f dst, RayForm (.rayCmt {} ⟨r 9, r 8⟩) {} (r 9) .write k flags f dst) ∧
    (∃ k flags f dst, RayForm (.rayGet {} ⟨12, r 9, .oray⟩) {} (r 9) .read k flags f dst) ∧
    allReady rayed [({}, (.rayTrc · ⟨4, r 9, r 8, false, true, .back, 0x0F⟩)), ({}, (.rayRsm · ⟨r 9, some (r 8)⟩)), ({}, (.rayRsm · ⟨r 9, none⟩)),
      ({}, (.rayCmt · ⟨r 9, r 8⟩)), ({}, (.rayGet · ⟨12, r 9, .oray⟩)), ({}, (.rayGet · ⟨12, r 9, .hit⟩)), ({}, (.rayGet · ⟨12, r 9, .leaf⟩))] = true ∧
    rayed.pathFree .ray = .ok () ∧ (rayed.cur.uniA {} (r 9)).toNat % 512 = 0 ∧
    (∃ s2 accs, rayed.accept rayed.cur.vf .write 1 false (rayLines rayed.cur {} (rayed.cur.uniA {} (r 9)).toNat) = .ok (s2, accs)) ∧
    (∃ s2 accs, rayed.accept rayed.cur.vf .read 1 false (rayLines rayed.cur {} (rayed.cur.uniA {} (r 9)).toNat) = .ok (s2, accs)) :=
  ⟨⟨_, _, _, _, .rayTrc _ _⟩, by decide +kernel, ⟨_, _, _, _, .rayRsm _ _⟩, ⟨_, _, _, _, .rayCmt _ _⟩,
    ⟨_, _, _, _, .rayGet _ _⟩, by decide +kernel, goesUnit (by decide +kernel), by decide +kernel, goes (by decide +kernel), goes (by decide +kernel)⟩

theorem witness_RingQueues :
    Ready (.ringPush {} ⟨3, r 6, none⟩) {} tiled tiled ∧ Ready (.ringPush {} ⟨3, r 6, some 0⟩) {} tiled tiled ∧ Ready (.ringPop {} ⟨8, 3, none⟩) {} tiled tiled ∧
    Ready (.ringPush offCtl ⟨3, r 6, none⟩) offCtl tiled tiled ∧ Ready (.ringPop offCtl ⟨8, 3, some 0⟩) offCtl tiled tiled ∧ tiled.cur.active offCtl = 0 ∧
    tiled.cur.zeroLanes offCtl = 0 ∧ Ready (.ringPop { guard := 0, pre := some { zero := true } } ⟨8, 3, none⟩) { guard := 0, pre := some { zero := true } } tiled tiled ∧
    tiled.cur.zeroLanes { guard := 0, pre := some { zero := true } } ≠ 0 ∧ tiled.cur.active {} ≠ 0 ∧ tiled.cur.counter .load = 0 ∧ tiled.cur.counter .store = 0 ∧
    (∃ x, tiled.tileNamed (tiled.cur.rA {} 3) (some 0) .ring = .ok x ∧ (let act := lanesOf (tiled.cur.active {})
      decide (act.length ≤ x.2.rows) && decide (tiled.cur.rB {} 6 + x.2.rowb / 8 ≤ tiled.cur.nv) && decide ((x.2.tail - x.2.head).toNat + act.length ≤ x.2.rows) &&
      decide (tiled.cur.rD {} 8 + (x.2.rowb / 8 + 1) ≤ tiled.cur.nv) && decide (tiled.cur.uncommitted + x.2.rowb / 8 + 1 ≤ 128) &&
      (List.range (min (x.2.tail - x.2.head).toNat act.length)).all fun i => !x.2.poisoned ((x.2.head.toNat + i) % x.2.rows * x.2.rowb) x.2.rowb) = true) :=
by
  refine ⟨ready_of ?_, ready_of ?_, ready_of ?_, ready_of ?_, ready_of ?_, ?_, ?_, ready_of ?_, ?_, ?_, ?_, ?_, okWith_spec ?_⟩
  all_goals decide +kernel

/-- A frame of 16 by 16 pixels on lane 0, stream 0, whose descriptor is at 0x300000, and one of no pixels at 0x310000; their lines are in the L2. -/
def framed : State :=
  let line (a : Nat) (b : List Byte) : L2Line := { line4 with line := a / 64, pa := a / 64, bytes := b }
  { setS bench [(1, 0x300000), (2, 0x310000), (3, 2 ^ 48 - 1)] with
    l2 := line 0x300000 (List.replicate 32 0 ++ bytesLE 4 0x100010 ++ List.replicate 28 0) ::
      [0x300040, 0x310000, 0x310040].map fun a => line a (List.replicate 64 0) }

/-- The same with a frame of another function open on its stream. -/
def heldFrame : State := framed.updStream 0 0 fun t => { t with frames := [{ vf := 1, gid := 9, desc := [], va := 0, pa := 0 }] }

/-- What `enc.frm` finds of an accepted descriptor: whether it is bad, and whether its stream is held. -/
def frmIs (bad held : Bool) (x : State × List LaneAcc) : Bool :=
  match x.2 with
  | [acc, high] =>
    let desc := x.1.homeRead acc.pa 64 ++ x.1.homeRead high.pa 64
    let ag := x.1.cur.agent x.1.cur.me.pc
    let s3 := (x.1.readOnce 0 ag (acc.va, acc.pa)).readOnce 0 ag (high.va, high.pa)
    let d := FrameDesc.of desc
    okWith (x.1.settled [(0, Loc.pa acc.pa, 64), (0, Loc.pa high.pa, 64)]) (fun _ => true) && (d.bad desc (s3.gran s3.cur.slice).num == bad) &&
      (s3.streamHeld s3.cur.vf (s3.cur.slice + d.lane) d == held)
  | _ => false

/-- The lines of a frame descriptor. -/
def frmLines (s : State) (a : Src) : List LaneReq := [{ lane := 0, va := (s.cur.uniA {} a).toNat }, { lane := 0, va := (s.cur.uniA {} a).toNat + 64 }]

theorem witness_DrawsAndFrames :
    allReady framed [({}, (.rastSub · (r 1))), ({}, (.encFrm · (r 1))), ({}, (.encFrm · (r 2))), ({}, (.encTile · ⟨r 1, r 3⟩))] = true ∧
    Ready (.encFrm {} (r 1)) {} heldFrame heldFrame ∧
    (∃ x, framed.accept framed.cur.vf .read 64 true [{ lane := 0, va := (framed.cur.uniA {} (r 1)).toNat }] = .ok x ∧
      (match x.2 with
        | [acc] => decide ((x.1.gran x.1.cur.slice).draws.length < 16) && okWith (x.1.settled [(0, Loc.pa acc.pa, 64)]) fun _ => true
        | _ => false) = true) ∧
    (∃ x, framed.accept framed.cur.vf .read 64 true (frmLines framed (r 1)) = .ok x ∧ frmIs false false x = true) ∧
    (∃ x, framed.accept framed.cur.vf .read 64 true (frmLines framed (r 2)) = .ok x ∧ frmIs true false x = true) ∧
    (∃ x, heldFrame.accept heldFrame.cur.vf .read 64 true (frmLines heldFrame (r 1)) = .ok x ∧ frmIs false true x = true) ∧
    framed.cur.passes {} = true ∧ (framed.cur.uniB {} (r 3)).toNat < 2 ^ 48 ∧ (framed.cur.uniA {} (r 1)).toNat % 128 = 0 ∧ (framed.cur.uniA {} (r 2)).toNat % 128 = 0 := by
  refine ⟨by decide +kernel, ready_of (by decide +kernel), okWith_spec ?_, okWith_spec ?_, okWith_spec ?_, okWith_spec ?_, ?_⟩
  all_goals decide +kernel


/-! ### Control, traps and system instructions -/

/-- The bench with a header at unit 16 of its kernel, whose line the core's L1 holds, predicate 1 in the lower half of the lanes, a call frame, the
header's unit in s2, and the first line of its split table in the L2. -/
def coded : State :=
  let s := setS (bench.updCore 0 fun k => { k with l1 := [{ vf := 0, line := 0x4001, pa := 0x4001, attr := line4.attr, bytes := 0x22 :: List.replicate 63 0 }] }) [(2, 16)]
  { s.setCur { s.cur with p := tset s.cur.p 1 0xFFFF, stack := [{ wait := false, parent := 0, mask := 0, reconv := allLanes, pc := 16 }] } with
    l2 := [{ line4 with line := 0x8040, pa := 0x8040 }] }

/-- `br` to unit 16 at the bench: its target is read, and the entry changes nothing of the group block. -/
def brGoes : Bool :=
  okWith (coded.checkTarget 16) fun s2 => okWith (((s2.placed (.br {} 0x7FFFFFE) {} coded.cur.x).aimed 16).readHeader 16) fun y =>
    ((y.1.entered y.2).mirrorStop coded.cur).isNone

/-- `brc` to unit 16 by half of the lanes: the split is made, both slots make their entries, and the group block takes the changes. -/
def splitGoes : Bool :=
  okWith (coded.checkTarget 16) fun s2 =>
    let v := s2.placed (.brc { guard := 1 } 0x7FFFFFE) { guard := 1 } coded.cur.x
    match v.cur.splitSlot v.cur.sel1 (coded.cur.me.mask &&& coded.cur.guardLanes { guard := 1 }) 16 v.cur.me.pc noTarget with
    | none => false
    | some g => match ((v.setCur g).onward { guard := 1 }).makeEntry (!coded.cur.sel1) with
      | .next w => match if w.cur.canIssue coded.cur.sel1 then w.makeEntry coded.cur.sel1 else .next w with
        | .next w2 => (w2.mirrorStop coded.cur).isNone
        | _ => false
      | _ => false

theorem witness_Branches :
    allReady coded [({}, (.br · 0x7FFFFFE)), ({}, (.jmp · (r 2))), ({ guard := 1 }, (.brc · 0x7FFFFFE)), ({}, (.call · 0x7FFFFFE)), ({}, (.ret ·)),
      (offCtl, (.br · 0x7FFFFFE)), (offCtl, (.jmp · (r 2))), (offCtl, (.brc · 0x7FFFFFE)), (offCtl, (.call · 0x7FFFFFE)), (offCtl, (.ret ·))] = true ∧
    (∃ s2, BranchForm (.br {} 0x7FFFFFE) {} coded (coded.cur.passes {}) (coded.cur.target 0x7FFFFFE) s2) ∧
    (∃ s2, BranchForm (.jmp {} (r 2)) {} coded (coded.cur.passes {}) (coded.cur.uniA {} (r 2)).toNat s2) ∧
    (∃ s2, BranchForm (.brc {} 0x7FFFFFE) {} coded true (coded.cur.target 0x7FFFFFE) s2) ∧
    (∃ s2, BranchForm (.brc offCtl 0x7FFFFFE) offCtl coded false (coded.cur.target 0x7FFFFFE) s2) ∧
    (∃ s2, BranchForm (.call {} 0x7FFFFFE) {} coded true (coded.cur.target 0x7FFFFFE) s2) ∧
    (∃ s2, BranchForm (.call offCtl 0x7FFFFFE) offCtl coded false (coded.cur.target 0x7FFFFFE) s2) ∧
    (∃ s2, BranchForm (.ret {}) {} coded true 16 s2) ∧ BranchForm (.ret offCtl) offCtl coded false 0 coded ∧
    (∃ x, coded.readHeader 16 = .ok x ∧ decide (x.2.entry = .none) = true) ∧
    (let m := coded.cur.me.mask &&& coded.cur.guardLanes { guard := 1 }
     m ≠ 0 ∧ m ≠ coded.cur.me.mask ∧ coded.cur.me.blk.rc = 0 ∧ coded.cur.divTouched = false ∧ (coded.cur.slot coded.cur.sel1).st ≠ .empty ∧
     (coded.cur.splitSlot coded.cur.sel1 m 16 coded.cur.me.pc noTarget).isSome = true) ∧ brGoes = true ∧ splitGoes = true := by
  obtain ⟨s2, h, hd⟩ := okWith_spec (x := coded.checkTarget 16) (p := fun s => !s.cur.divTouched) (by decide +kernel)
  replace hd : s2.cur.divTouched = false := by simpa using hd
  have e : coded.cur.target 0x7FFFFFE = 16 := by decide +kernel
  have e2 : (coded.cur.uniA {} (r 2)).toNat = 16 := by decide +kernel
  exact ⟨by decide +kernel, ⟨_, .br _ _ _ s2 (e ▸ h)⟩, ⟨_, .jmp _ _ _ s2 (by rw [e2]; decide) (e2 ▸ h)⟩,
    ⟨_, .brcAll _ _ _ s2 (e ▸ h) (by decide +kernel) (by decide +kernel)⟩, ⟨_, .brcNone _ _ _ s2 (e ▸ h) (by decide +kernel)⟩,
    ⟨_, .call _ _ _ s2 (e ▸ h) (by decide +kernel) hd (by decide +kernel)⟩, ⟨_, .callNone _ _ _ s2 (e ▸ h) (by decide +kernel)⟩,
    ⟨_, .ret {} coded s2 { wait := false, parent := 0, mask := 0, reconv := allLanes, pc := 16 } [] [] (by decide +kernel) (by decide +kernel) (by decide +kernel)
      (by decide) (by decide +kernel) (by decide +kernel) (by simp) h⟩,
    .retNone _ _ (by decide +kernel), okWith_spec (by decide +kernel), by decide +kernel⟩

theorem parked_of {s : State} {i : Instr} {c : Ctl} {p : State → Bool} (h : (i.wf && s.cur.rangeOk i c && match s.takePark true with
      | some s1 => decide s1.cur.Sound && (decide (i.pendCount = 0) || decide (s1.cur.uncommitted + i.pendCount ≤ 128)) && p s1
      | none => false) = true) : ∃ s1, Clear i c true s s1 ∧ p s1 = true := by
  cases hs : s.takePark true with
  | none => simp [hs] at h
  | some s1 =>
    simp only [hs, Bool.and_eq_true, Bool.or_eq_true, decide_eq_true_eq] at h
    obtain ⟨⟨a, b⟩, ⟨d, e⟩, f⟩ := h
    exact ⟨s1, ⟨a, b, hs, d, e⟩, f⟩

/-- The state that `exit` leaves at a group, and whether its steps reach the group block. -/
def exitEnd (c : Ctl) (s s1 : State) (on : Bool) : Bool :=
  let v := s1.placed (.exit c) c s1.cur.x
  let g0 := v.cur.leave (s1.cur.active c)
  let g := g0.setSlot v.cur.sel1 { g0.slot v.cur.sel1 with parked := false, wait := none }
  let u := v.setCur { g with ended := g.live = 0 }
  ((if on then u.onward c else u).mirrorStop s.cur).isNone

theorem witness_ExitLeaves :
    (∃ s1, Clear (.exit {}) {} true bench s1 ∧ (exitEnd {} bench s1 false && decide (s1.cur.active {} ≠ 0) && !s1.cur.divTouched && decide (s1.cur.me.mask &&& ~~~(s1.cur.active {}) = 0) &&
      decide ((s1.cur.slot (!s1.cur.sel1)).st = .empty) && decide ((s1.cur.slot (!s1.cur.sel1)).mask = 0) && decide (s1.cur.stack = [])) = true) ∧
    (∃ s1, Clear (.exit { guard := 1 }) { guard := 1 } true coded s1 ∧ (exitEnd { guard := 1 } coded s1 true && decide (s1.cur.active { guard := 1 } ≠ 0) && !s1.cur.divTouched &&
      decide (s1.cur.me.mask &&& ~~~(s1.cur.active { guard := 1 }) ≠ 0) && decide (s1.cur.me.pc + 2 ≠ s1.cur.me.blk.bend)) = true) ∧
    (∃ s1, Clear (.exit offCtl) offCtl true bench s1 ∧ (decide (s1.cur.active offCtl = 0) && decide (s1.cur.me.pc + 2 ≠ s1.cur.me.blk.bend)) = true) :=
  ⟨parked_of (by decide +kernel), parked_of (by decide +kernel), parked_of (by decide +kernel)⟩

/-- The bench's group with a result outstanding. -/
def owing : Group :=
  { bench.cur with pend := [{ seq := 0, slot1 := false, write := { cls := .v, reg := 0, lanes := 1, val := Lanes.const 0 }, ret := false }] }

/-- In a trap handler: privilege S, with the trapped slot's place saved. -/
def trapped : State := coded.setCur { coded.cur with priv := .s, trapcause := 4, trappc := 18, trapBlk := { hdr := 16, bend := 26 } }

/-- `trap.skip` in the handler: the slot that trapped makes its entry, and the group block takes the steps. -/
def skipGoes : Bool :=
  okWith (trapped.skipTo trapped.cur.trappc trapped.cur.trapBlk) fun x =>
    let v := x.1.placed (.trapSkip {}) {} trapped.cur.x
    let b := v.cur.trapcause.getLsbD 4
    match (v.setCur ((v.cur.bankSlot b).fromTrap x.2.1 x.2.2)).makeEntry b with
    | .next w => (w.mirrorStop trapped.cur).isNone
    | _ => false

theorem witness_Traps :
    allReady bench [({}, (.trap · 5)), ({}, (.brk · 5)), (offCtl, (.trapRet ·)), ({}, (.trapRet ·)), (offCtl, (.trapSkip ·))] = true ∧ bench.cur.passes {} = true ∧
    (let s := bench.setCur { bench.cur with nv := 16, na := 0 }
     (∃ x, IntResult (.iadd {} ⟨16, r 2, r 3, false, true, .i8⟩) {} 16 .i8 true x) ∧ s.cur.rangeOk (.iadd {} ⟨16, r 2, r 3, false, true, .i8⟩) {} = false ∧
     GroupForm (.mxreq {} 2) {} ∧ s.cur.rangeOk (.mxreq {} 2) {} = false) ∧
    (let g := bench.cur
     g.returned = true ∧ g.priv = .u ∧ ({ g with trapvec := 0x20 } : Group).trapvec ≠ 0) ∧
    owing.returned = false ∧
    (∃ s2 pc e, ReturnForm (.trapSkip {}) {} trapped s2 pc e) ∧ ReturnForm (.trapRet {}) {} trapped trapped 18 .none ∧
    Clear (.trapRet {}) {} false trapped trapped ∧ Clear (.trapSkip {}) {} false trapped trapped ∧ trapped.cur.passes {} = true ∧ trapped.cur.priv = .s ∧ skipGoes = true := by
  refine ⟨by decide +kernel, by decide +kernel, ⟨⟨_, .iadd _ _⟩, by decide +kernel, .mxreq _ _, by decide +kernel⟩, by decide +kernel, by decide +kernel, ?_,
    .trapRet _ _, clear_of (by decide +kernel), clear_of (by decide +kernel), by decide +kernel⟩
  obtain ⟨⟨s2, pc, e⟩, h, -⟩ := okWith_spec (x := trapped.skipTo trapped.cur.trappc trapped.cur.trapBlk) (p := fun _ => true) (by decide +kernel)
  exact ⟨s2, pc, e, .trapSkip _ _ _ _ _ h⟩

/-- The bench with trace records on in its granule, and with values for special registers in s2 to s4. -/
def traced : State := setS (bench.updGran 0 fun k => { k with traceOn := true }) [(2, 0x14), (3, 0x3F), (4, 0x45)]

theorem witness_SystemInstructions :
    allReady bench [({}, (.nop ·)), ({}, (.yield ·)), (offCtl, (.park ·)), ({}, (.daymark · 5 (some (r 2)))), ({}, (.setx · (.reg (r 2)))), ({}, (.getsr · 3 0x10 false)),
      ({}, (.getsr · 3 0x31 false)), ({}, (.setsr · 0x30 (r 2))), ({}, (.wmovToW · 2 (r 3))), ({}, (.wmovFromW · 3 2))] = true ∧
    Ready (.getsr {} 3 0 true) {} bench bench ∧ bench.cur.passes {} = true ∧ bench.cur.priv = .u ∧
    (bench.gran bench.cur.slice).traceOn = false ∧ Ready (.daymark {} 5 none) {} traced traced ∧ (traced.gran traced.cur.slice).traceOn = true ∧
    (∃ s1, Clear (.park {}) {} true bench s1 ∧ decide (s1.cur.me.pc + 2 ≠ s1.cur.me.blk.bend) = true) ∧
    allReady traced [({}, (.setsr · 0x20 (r 2))), ({}, (.setsr · 0x21 (r 3))), ({}, (.setsr · 0x20 (r 3))), ({}, (.setsr · 0x21 (r 4)))] = true ∧
    (traced.cur.uniA {} (r 2)).toNat < 64 ∧ (traced.cur.uniA {} (r 2)).toNat % 8 < 5 ∧ (traced.cur.uniA {} (r 3)).toNat < 64 ∧
    5 ≤ (traced.cur.uniA {} (r 3)).toNat % 8 ∧ 64 ≤ (traced.cur.uniA {} (r 4)).toNat ∧
    Ready (.setsr {} 0x30 (r 2)) {} trapped trapped ∧ Ready (.getsr {} 3 0x34 false) {} trapped trapped ∧ trapped.cur.priv = .s ∧ trapped.cur.passes {} = true ∧
    (bench.wg? bench.cur.wg).isSome = true :=
  ⟨by decide +kernel, ready_of (by decide +kernel), by decide +kernel, by decide +kernel, by decide +kernel, ready_of (by decide +kernel), by decide +kernel,
    parked_of (by decide +kernel), by decide +kernel, by decide +kernel, by decide +kernel, by decide +kernel, by decide +kernel, by decide +kernel,
    ready_of (by decide +kernel), ready_of (by decide +kernel), by decide +kernel, by decide +kernel, by decide +kernel⟩

/-- The bench with a second group of its workgroup and gang that has not arrived. -/
def paired : State := { bench with groups := [{ bench.cur with id := 2, gid := 1 }] }

theorem gran_all {s : State} {p : Granule → Bool} (h : ((List.range 16).all fun n => p (s.gran n)) = true) (h0 : p {} = true) (n : Nat) : p (s.gran n) = true := by
  by_cases hn : n < 16
  · exact List.all_eq_true.1 h n (List.mem_range.2 hn)
  · have : s.gran n = {} := by simp only [State.gran, tget]; exact Array.getD_eq_getD_getElem?.trans (by simp [Nat.le_of_not_lt hn])
    rw [this]; exact h0

theorem witness_GroupSynchronisation :
    Ready (.syncWg {}) {} bench bench ∧ Ready (.syncGang {}) {} bench bench ∧ Ready (.syncWg offCtl) offCtl bench bench ∧ bench.cur.passes offCtl = false ∧
    bench.cur.passes {} = true ∧ bench.cur.counter .load = 0 ∧ bench.cur.counter .store = 0 ∧
    (let me : Group := { bench.cur with syncFrom := bench.steps, syncPc := bench.cur.me.pc, wgGen := bench.cur.wgGen + 1, waitg := 1 }
     (∀ g ∈ (bench.setCur me).members (fun g => g.wg = bench.cur.wg), g.waitg = 1 ∧ g.syncGen false = me.syncGen false) ∧ me.gone = false ∧ me.id ≠ 0) ∧
    (∀ n, (bench.gran n).prof = false) ∧
    Ready (.syncGang {}) {} paired paired ∧
    (let me : Group := { paired.cur with syncFrom := paired.steps, syncPc := paired.cur.me.pc, gangGen := paired.cur.gangGen + 1, waitg := 2 }
     (∃ g ∈ (paired.setCur me).members (fun g => g.gang = paired.cur.gang), g.waitg ≠ 2 ∨ g.syncGen true ≠ me.syncGen true) ∧
     (∀ g ∈ (paired.setCur me).members (fun g => g.gang = paired.cur.gang), g.waitg = 2 → g.syncGen true = me.syncGen true)) :=
  ⟨ready_of (by decide +kernel), ready_of (by decide +kernel), ready_of (by decide +kernel), by decide +kernel, by decide +kernel, by decide +kernel, by decide +kernel,
    by decide +kernel, fun n => by simpa using gran_all (s := bench) (p := fun k => !k.prof) (by decide +kernel) (by decide +kernel) n,
    ready_of (by decide +kernel), by decide +kernel⟩

/-- The bench with queue 3 of its function open to device launches, and a record's address in s2. -/
def queued : State := setS (bench.updVf 0 fun v => { v with queues := tset v.queues 3 { base := 0x400000, cfg := 0x302, tail := 4, head := 1 } }) [(2, 0x10040), (3, 3)]

/-- What `launch` asks once its record is accepted: no older access of it waits, queue 3 has room, and the slot behind its last record is writable. -/
def launchGoes (x : State × List LaneAcc) : Bool :=
  let seen := x.2.foldl (fun s a => s.readOnce 0 (x.1.cur.agent x.1.cur.me.pc) (a.va, a.pa)) x.1
  let k := (seen.unaccepted 0 3).length
  let slot := (seen.queue 0 3).slotAt ((seen.queue 0 3).tail.toNat + k)
  okWith (x.1.settled (x.2.map fun a => (0, Loc.pa a.pa, 64))) (fun _ => true) && decide ((seen.queue 0 3).held + k < (seen.queue 0 3).size) &&
  okWith (seen.accept 0 .write 1 false [{ lane := 0, va := slot }, { lane := 0, va := (slot + 64) % 2 ^ 64 }]) fun _ => true

theorem witness_LaunchInstruction :
    Ready (.launch {} ⟨r 2, r 3⟩) {} queued queued ∧ Ready (.launch offCtl ⟨r 2, r 3⟩) offCtl queued queued ∧ queued.pathFree .store = .ok () ∧
    queued.cur.passes offCtl = false ∧ queued.cur.passes {} = true ∧
    (let va := (queued.cur.uniA {} (r 2)).toNat
     let q := (queued.cur.uniB {} (r 3)).toNat
     let g := queued.cur
     va % 64 = 0 ∧ q < 16 ∧ (queued.queue g.vf q).enabled = true ∧ (queued.queue g.vf q).dev = true ∧
     ∃ x, queued.accept g.vf .read 1 true [{ lane := 0, va }, { lane := 0, va := (va + 64) % 2 ^ 64 }] = .ok x ∧ launchGoes x = true) := by
  refine ⟨ready_of (by decide +kernel), ready_of (by decide +kernel), goesUnit (by decide +kernel), by decide +kernel, by decide +kernel, ?_⟩
  exact ⟨by decide +kernel, by decide +kernel, by decide +kernel, by decide +kernel, okWith_spec (by decide +kernel)⟩


/-! ### Operations in flight -/

/-- A value that is there, with what holds of it. -/
def someWith {α : Type} (x : Option α) (p : α → Bool) : Bool :=
  match x with
  | some a => p a
  | none => false

theorem someWith_spec {α : Type} {x : Option α} {p : α → Bool} (h : someWith x p = true) : ∃ a, x = some a ∧ p a = true := by
  cases x with
  | some a => exact ⟨a, rfl, h⟩
  | none => cases h

/-- A state whose group has the given operations. -/
def opening (s : State) (os : List Op) : State := s.setCur { s.cur with ops := os }

/-- An operation as the bench's group issues it. -/
def opOf (path : Path) (kind : OpKind) : Op := { seq := 0, slot1 := false, path := some path, pc := 18, kind }

theorem open_of {s : State} {p : Path} {k : OpKind} (h : s.cur.id = 1 ∧ s.away 1 = false) :
    OpenOp (opening s [opOf p k]) 1 0 (opening s [opOf p k]).cur (opOf p k) := by
  refine ⟨?_, h.2, ?_, rfl⟩
  · unfold State.group?
    exact if_pos h.1
  · rfl

theorem group_cur {s : State} {n : Nat} (h : s.cur.id = n) : s.group? n = some s.cur := if_pos h

/-- The bench with one operation in flight. -/
def flying (p : Path) (k : OpKind) : State := opening bench [opOf p k]

theorem flying_open (p : Path) (k : OpKind) : OpenOp (flying p k) 1 0 (flying p k).cur (opOf p k) := open_of (by decide +kernel)

def twoAccs : List LaneAcc := [{ lane := 0, va := 0x10000, pa := 0x10000 }, { lane := 31, va := 0x1003C, pa := 0x1003C }]

def loadOp : OpKind := .load twoAccs 4 1 false false none

/-- An access through the page-table entry at 0x40008, whose byte 7 counts fills. -/
def hotAccs : List LaneAcc := [{ lane := 5, va := 0x10000, pa := 0x10000, attr := { leaf1 := 0x40008 } }]

def loadHot : OpKind := .load hotAccs 4 1 false false none

def tloadOp : OpKind := .tload twoAccs 1 1 4 1 false

def storeOp : OpKind := .store twoAccs [[1, 2, 3, 4], [5, 6, 7, 8]] none

theorem witness_LoadsComplete :
    OpenOp (flying .load loadOp) 1 0 (flying .load loadOp).cur (opOf .load loadOp) ∧ (flying .load loadOp).ready (flying .load loadOp).cur (opOf .load loadOp) = true ∧
    (∀ a ∈ twoAccs, (isWindow (Loc.pa a.pa) = false ∧ Loc.watch a.pa = none) ∧ a.hot = []) ∧ (twoAccs.map (·.lane)).Nodup ∧
    (∀ a ∈ hotAccs, (isWindow (Loc.pa a.pa) = false ∧ Loc.watch a.pa = none) ∧ Loc.comp a.pa = false ∧
      ∀ b ∈ hotAccs, b.hot = [0x4000F] ∧ ∀ x ∈ b.hot, x < 2 ^ 60 ∧ isWindow x = false ∧ ¬(Loc.pa a.pa ≤ x ∧ x < Loc.pa a.pa + 4 * 1)) ∧
    OpenOp (flying .load (loadHot)) 1 0 (flying .load loadHot).cur (opOf .load loadHot) ∧ (flying .load loadHot).ready (flying .load loadHot).cur (opOf .load loadHot) = true ∧
    Memory.wf (flying .load loadHot).mem ∧ (flying .load loadHot).l2 = [] ∧
    (flying .load loadOp).overlay (flying .load loadOp).cur 0 = [] ∧
    OpenOp (flying .load tloadOp) 1 0 (flying .load tloadOp).cur (opOf .load tloadOp) ∧
    (flying .load tloadOp).ready (flying .load tloadOp).cur (opOf .load tloadOp) = true :=
  ⟨flying_open _ _, by decide +kernel, by decide +kernel, by decide +kernel, by decide +kernel, flying_open _ _, by decide +kernel, by decide +kernel, rfl,
    by decide +kernel, flying_open _ _, by decide +kernel⟩

theorem witness_StoresArePerformed :
    OpenOp (flying .store storeOp) 1 0 (flying .store storeOp).cur (opOf .store storeOp) ∧
    (flying .store storeOp).ready (flying .store storeOp).cur (opOf .store storeOp) = true ∧ Memory.wf (flying .store storeOp).mem ∧ (flying .store storeOp).LinesWhole ∧
    (∀ p ∈ twoAccs.zip [[1, 2, 3, 4], ([5, 6, 7, 8] : List Byte)], (isWindow (Loc.pa p.1.pa) = false ∧ Loc.watch p.1.pa = none) ∧ Loc.comp p.1.pa = false ∧
      p.1.va % 64 = Loc.pa p.1.pa % 64 ∧ Loc.pa p.1.pa % 64 + p.2.length ≤ 64 ∧ ∀ b ∈ (flying .store storeOp).barLines, Loc.pa b.1 / 64 ≠ Loc.pa p.1.pa / 64) ∧
    (0x1003C : Nat) < 2 ^ 60 ∧ isWindow 0x1003C = false :=
  ⟨flying_open _ _, by decide +kernel, by decide +kernel, fun l h => absurd h (by simp [show (flying .store storeOp).l2 = [] from rfl]), by decide +kernel, by decide, by decide +kernel⟩

def atomicOp : OpKind := .atomic ([] ++ { lane := 0, va := 0x10000, pa := 0x10000, b := 1, c := 0 } :: [{ lane := 31, va := 0x10040, pa := 0x10040, b := 2, c := 0 }]) .add .n32 true none none

def ratomOp : OpKind := .ratom ([] ++ { lane := 0, va := 0x10000, pa := 0x10000, b := 1, c := 0 } ::
  [{ lane := 31, va := 0x10000, pa := 0x10000, b := 2, c := 0, fin := true }]) .xchg .b64 [{ lane := 0, va := 0x20000, pa := 0x20000 }]

theorem witness_AtomicsArePerformed :
    OpenOp (flying .load atomicOp) 1 0 (flying .load atomicOp).cur (opOf .load atomicOp) ∧
    (flying .load atomicOp).ready (flying .load atomicOp).cur (opOf .load atomicOp) = true ∧
    (∀ b ∈ ([] ++ [({ lane := 31, va := 0x10040, pa := 0x10040, b := 2, c := 0 } : AtomLane)]), b.lane ≠ 0 ∧ (b.fin = false → Loc.pa b.pa / 64 ≠ Loc.pa 0x10000 / 64)) ∧
    (isWindow (Loc.pa 0x10000) = false ∧ Loc.watch 0x10000 = none) ∧ (flying .load atomicOp).poisoned 0x10000 = false ∧
    ((flying .load atomicOp).group? 1).isSome = true ∧
    OpenOp (flying .rem ratomOp) 1 0 (flying .rem ratomOp).cur (opOf .rem ratomOp) ∧
    (flying .rem ratomOp).poisoned 0x10000 = false ∧ (flying .rem ratomOp).engineReady (flying .rem ratomOp).cur 0 [(0, Loc.pa 0x10000, tyBytes .b64)] = true ∧
    (∀ b ∈ ([] ++ [({ lane := 31, va := 0x10000, pa := 0x10000, b := 2, c := 0, fin := true } : AtomLane)]), b.lane ≠ 0 ∧
      (b.fin = false → Loc.pa b.pa / 64 ≠ Loc.pa 0x10000 / 64)) ∧ Loc.watch 0x20000 = none ∧
    [({ lane := 0, va := 0x20000, pa := 0x20000 } : LaneAcc)].find? (fun r => r.lane = 0) = some { lane := 0, va := 0x20000, pa := 0x20000 } ∧
    (flying .rem ratomOp).holds (flying .rem ratomOp).cur.vf = true :=
  ⟨flying_open _ _, by decide +kernel, by decide +kernel, by decide +kernel, by decide +kernel, by decide +kernel, flying_open _ _, by decide +kernel⟩

def arriveOp (arv : Bool) : OpKind := .arrive (.tile 1 2) 5 arv

def copyIn : CopyOp :=
  { kind := .in_, ga := 0x10000, gp := 64, to_ := 0, rot := 0, rb := 64, nr := 4, recv := [{ wg := 1, h := 1, rowb := 256, bar := none, ack := none }],
    pages := [{ vpage := 1, ppage := 0x10000 }] }

def copyingIn : State := opening tiled [opOf .copy (.copy copyIn)]

/-- The bench with a `tbar.init` as its next instruction, on the handle of a data tile being allocated. -/
def initNext : State :=
  (holding [(0x100048, bytesLE 8 0x000000A0100923F0)] [(5, 1)]).updHandle 1 1 fun _ => { st := .allocated, kind := .barrier, clus := true, rowb := 64, rows := 1 }

/-- An instruction that is fetched is a `tbar.init` of a tile, ready to issue, whose barrier may be armed. -/
def armGoes (x : State × Instr) : Bool :=
  match x.2 with
  | .tbarInit c o => readyB x.1 x.2 c && x.1.cur.passes c && okWith (x.1.barAt c o.bar) fun y =>
      initOk y && decide (y.2 = .tile 1 1) && okWith (y.1.settled y.2.spans) fun _ => true
  | _ => false

/-- The bench with a store in flight and an arrival deferred behind it. -/
def waiting : State := opening bench [{ opOf .mx (arriveOp true) with seq := 1 }, opOf .store storeOp]

theorem witness_TileAndBarrierEvents :
    (∃ w, (bench.updHandle 1 4 fun t => { t with prog := some (true, .data, 64, 256) }).wg? 1 = some w) ∧
    ((bench.updHandle 1 4 fun t => { t with prog := some (true, .data, 64, 256) }).handle 1 4).prog = some (true, .data, 64, 256) ∧
    (∃ w, (bench.updHandle 1 4 fun t => { t with st := .freeing }).wg? 1 = some w) ∧ ((bench.updHandle 1 4 fun t => { t with st := .freeing }).handle 1 4).st = .freeing ∧
    (bench.updHandle 1 4 fun t => { t with st := .freeing }).tileBusy 1 4 = false ∧
    OpenOp (flying .store (arriveOp true)) 1 0 (flying .store (arriveOp true)).cur (opOf .store (arriveOp true)) ∧
    (flying .store (arriveOp true)).arrivalWaits (flying .store (arriveOp true)).cur 0 (.tile 1 2) true = false ∧
    (flying .store (arriveOp false)).arrivalWaits (flying .store (arriveOp false)).cur 0 (.tile 1 2) false = false ∧ waiting.arrivalWaits waiting.cur 1 (.tile 1 2) true = true ∧
    OpenOp waiting 1 1 waiting.cur { opOf .mx (arriveOp true) with seq := 1 } ∧
    OpenOp copyingIn 1 0 copyingIn.cur (opOf .copy (.copy copyIn)) ∧ copyIn.recv[255 / copyIn.total]? = some { wg := 1, h := 1, rowb := 256, bar := none, ack := none } ∧
    255 ∉ copyIn.fin ∧ copyIn.src (255 % copyIn.total) = some 0x100FF ∧
    (isWindow (Loc.pa (pageLoc copyIn.pages 0x100FF)) = false ∧ Loc.watch (pageLoc copyIn.pages 0x100FF) = none) ∧ copyingIn.engPoisoned (pageLoc copyIn.pages 0x100FF) = false ∧
    Loc.watch (pageLoc copyIn.pages 0x100FF + (copyIn.lineRun 255).1 - 255) = none ∧
    copyingIn.copyByteReady copyingIn.cur 0 { wg := 1, h := 1, rowb := 256, bar := none, ack := none } (copyIn.dst 256 (255 % copyIn.total))
      (some (pageLoc copyIn.pages 0x100FF)) = true ∧
    (∃ t, initNext.select 1 false = some t ∧ (t.cur.canIssue false && decide (t.cur.me.blk.entry = .none) && okWith t.fetchItem armGoes) = true) :=
by
  refine ⟨Option.isSome_iff_exists.1 ?_, ?_, Option.isSome_iff_exists.1 ?_, ?_, ?_, flying_open _ _, ?_, ?_, ?_, ⟨group_cur rfl, ?_, rfl, rfl⟩, open_of ?_, ?_,
    ?_, ?_, ?_, ?_, ?_, ?_, someWith_spec ?_⟩
  all_goals decide +kernel


/-- The bench's group with changes. -/
def withGroup (f : Group → Group) : State := bench.setCur (f bench.cur)

theorem witness_GroupEvents :
    (let s := withGroup fun g => { g with slot0 := { g.slot0 with parking := true } }
     s.group? 1 = some s.cur ∧ s.away 1 = false ∧ s.cur.returned = true ∧ s.cur.slot0.parking = true ∧ s.cur.stop = none) ∧
    (let s := withGroup fun g => { g with pendTrap := some { cause := .illegal, slot1 := false, pc := 18, addr := 0 }, trapvec := 32 }
     s.group? 1 = some s.cur ∧ s.away 1 = false ∧ s.cur.returned = true ∧ s.cur.pendTrap = some { cause := .illegal, slot1 := false, pc := 18, addr := 0 } ∧ s.cur.priv = .u ∧
     s.cur.trapvec ≠ 0 ∧ s.cur.stop = none) ∧
    (let s := withGroup fun g => { g with stop := some .save }
     s.group? 1 = some s.cur ∧ s.cur.stop = some .save ∧ s.cur.ended = false ∧ s.cur.gone = false ∧ s.cur.stopped = none) ∧
    (let s := withGroup fun g => { g with ended := true }
     s.group? 1 = some s.cur ∧ s.away 1 = false ∧ s.cur.ended = true ∧ s.cur.gone = false ∧ s.cur.counter .load = 0 ∧ s.cur.counter .copy = 0 ∧ s.cur.counter .filt = 0 ∧
     s.cur.counter .ray = 0) :=
  ⟨⟨group_cur rfl, by decide +kernel, by decide +kernel, by decide +kernel, by decide +kernel⟩,
    ⟨group_cur rfl, by decide +kernel, by decide +kernel, by decide +kernel, by decide +kernel, by decide +kernel, by decide +kernel⟩,
    ⟨group_cur rfl, by decide +kernel, by decide +kernel, by decide +kernel, by decide +kernel⟩,
    group_cur rfl, by decide +kernel, by decide +kernel, by decide +kernel, by decide +kernel, by decide +kernel, by decide +kernel, by decide +kernel⟩

def mmaNone : MmaOp := { key := 7, a := .regs [], b := .regs [], fa := .f32, fb := .f32, k := 0, sa := none, sb := none, pages := [] }

/-- A pass posted, not yet granted. -/
def posted : State := (flying .mx (.mma mmaNone)).updCluster 0 fun k => { k with res := [{ gid := 1, op := 0, vf := 0, post := 0 }] }

/-- An engine that runs an operation of the group. -/
def running (kind : OpKind) (r : RunPass) : State := (flying .mx kind).updCluster 0 fun k => { k with run := some r }

def run0 : RunPass := { gid := 1, op := 0, vf := 0 }

/-- A pass descriptor of one e4m3 K-chunk over matrices at 0x10000, 0x12000 and 0x14000 (R213). -/
def passBytes : List Byte :=
  bytesLE 8 0x10000 ++ bytesLE 8 0x12000 ++ bytesLE 8 0x14000 ++ bytesLE 8 0 ++ bytesLE 8 0 ++ bytesLE 4 32 ++ bytesLE 4 32 ++
    bytesLE 8 (2 ^ 32 * 32 + 256 + 2 ^ 50 * 4 + 2 ^ 54 * 4) ++ bytesLE 8 0

/-- Runs of memory that map. -/
def mapOk (x : Mapped) (p : State → List PageMap → Bool) : Bool := match x with | .ok s m => p s m | _ => false

theorem mapOk_spec {x : Mapped} {p : State → List PageMap → Bool} (h : mapOk x p = true) : ∃ s m, x = .ok s m ∧ p s m = true := by
  cases x with
  | ok s m => exact ⟨s, m, rfl, h⟩
  | wait => cases h
  | perm => cases h

/-- A delta descriptor: record 0x10000, X 0x20000, W 0x30000, Y 0x40000, in e4m3 and FP32 (R228). -/
def deltaBytes : List Byte :=
  bytesLE 8 0x10000 ++ bytesLE 8 0x20000 ++ bytesLE 8 0x30000 ++ bytesLE 8 0x40000 ++ bytesLE 8 0 ++ bytesLE 4 128 ++ bytesLE 4 32 ++
    bytesLE 8 (2 ^ 32 * 256 + 2 ^ 26 * 4) ++ bytesLE 8 0

/-- An invocation that has been granted, on a record of one column tile and one K-block. -/
def invoked : State :=
  { running (.delta deltaBytes 0x300000 0x300000) run0 with mem := Memory.writeN bench.mem 0x10008 (bytesLE 8 1) }

theorem witness_EngineEvents :
    ((posted.cluster 0).run.isNone = true ∧ (posted.gate (engineUnit 0)).waking = false ∧ (posted.cluster 0).owner = none ∧
      posted.nextEntry 0 = some { gid := 1, op := 0, vf := 0, post := 0 } ∧ (∃ g, (posted.settleAcc 1 none).group? 1 = some g ∧
        (decide (g.op? 0 = some (opOf .mx (.mma mmaNone))) && (posted.settleAcc 1 none).passReady g (opOf .mx (.mma mmaNone)) mmaNone) = true)) ∧
    (let s := running (.mma mmaNone) { run0 with result := [List.replicate 64 1] }
     (s.cluster 0).run = some { run0 with result := [List.replicate 64 1] } ∧ s.group? 1 = some s.cur ∧ s.cur.op? 0 = some (opOf .mx (.mma mmaNone)) ∧
     (OpKind.mma mmaNone).accKey = some 7) ∧
    (let s := running (.pass [] 0x20000 0x20000) run0
     (s.cluster 0).run = some run0 ∧ s.group? 1 = some s.cur ∧ s.cur.op? 0 = some (opOf .mx (.pass [] 0x20000 0x20000)) ∧ (PassDesc.of []).isNone = true) ∧
    (let s := running (.pass passBytes 0x300000 0x300000) run0
     (s.cluster 0).run = some run0 ∧ s.group? 1 = some s.cur ∧ s.cur.op? 0 = some (opOf .mx (.pass passBytes 0x300000 0x300000)) ∧
     ∃ p, PassDesc.of passBytes = some p ∧
       (let reads := p.aRuns ++ p.bRuns ++ p.sRuns p.sa ++ p.sRuns p.sb ++ if p.cin then p.cRuns else []
        mapOk (s.engineMap s.cur.vf (.pass 0) .read reads) fun s1 mr => mapOk (s1.engineMap s.cur.vf (.pass 0) .write p.cRuns) fun s2 mw =>
          s2.engineReady s.cur 0 (runSpans (mr ++ mw) reads) && (s2.poisonIn (mr ++ mw) reads).isNone) = true) ∧
    (let s := running (.delta [] 0x20000 0x20000) run0
     (∃ x, s.runningDelta 0 = some x) ∧ (s.cur.ops.any fun p => !p.fin && decide (p.seq < 0) && p.path = some .store) = false ∧ (DeltaDesc.of []).isNone = true) ∧
    ((∃ x, invoked.runningDelta 0 = some x) ∧ ∃ x, DeltaDesc.of deltaBytes = some x ∧
      (mapOk (invoked.engineMap invoked.cur.vf (.pass 0) .write [(x.rb, 64)]) fun s1 hp => mapOk (s1.engineMap invoked.cur.vf (.pass 0) .read [(x.rb, 64)]) fun s2 _ =>
        let h := s2.homeRead (pageLoc hp x.rb) 64
        let full := decide (modeOf h (s2.regionOf invoked.cur.vf h) invoked.cur.vf ≠ 0)
        !s2.recHeld (pageLoc hp x.rb) && !s2.engPoisoned (pageLoc hp x.rb) && x.recordOk h (s2.regionOf invoked.cur.vf h) &&
          mapOk (s2.deltaMap invoked.cur.vf 0 x (Shape.of h) full) fun s3 pages =>
            s3.engineReady invoked.cur 0 (runSpans pages (x.reads (Shape.of h) full))) = true) ∧
    (∃ x, (running (.delta [] 0x20000 0x20000) { run0 with computed := true, writes := [(0x10000, 0x10000, [1])] }).runningDelta 0 = some x ∧ x.1.computed = true) := by
  refine ⟨⟨by decide +kernel, by decide +kernel, by decide +kernel, by decide +kernel, someWith_spec (by decide +kernel)⟩,
    ⟨by decide +kernel, group_cur rfl, rfl, rfl⟩, ⟨by decide +kernel, group_cur rfl, rfl, by decide +kernel⟩,
    ⟨by decide +kernel, group_cur rfl, rfl, someWith_spec (by decide +kernel)⟩, ⟨Option.isSome_iff_exists.1 (by decide +kernel), by decide +kernel, by decide +kernel⟩,
    ⟨Option.isSome_iff_exists.1 (by decide +kernel), someWith_spec (by decide +kernel)⟩, someWith_spec (by decide +kernel)⟩


def filterOp : OpKind := .filter (.texL {} ⟨8, r 4, r 1, .d2, .f16⟩) (List.replicate 64 0) 0xFFFF 0 [Lanes.const 0, Lanes.const 0] []

def slot3 (fast : Bool) : ScatAdd := { va := 0x10000, pa := 0x10000, fast, sum := 3, fsum := 0x3F800000, headers := [] }

def scatOp (fast : Bool) : OpKind := .scatter [slot3 fast]

def rayGetOp : OpKind := .ray (.get .hit) ([{ lane := 0, recVa := 0x20000, recPa := 0x20000 }] ++ { lane := 31, recVa := 0x20200, recPa := 0x20200 } :: []) 0

def draw (desc : List Byte) (res : Option Nat) : Draw := { vf := 0, gid := 1, desc, va := 0x300000, pa := 0x300000, result := res }

/-- A draw of no primitives over 16 by 16 pixels (R286). -/
def drawBytes : List Byte := List.replicate 24 0 ++ bytesLE 8 (2 ^ 32 * 256 + 2 ^ 16 * 16 + 16) ++ List.replicate 32 0

/-- A granule with one draw accepted, and a stream with one frame open. -/
def drawing (d : Draw) : State := bench.updGran 0 fun k => { k with draws := [d] }

def encoding (f : Frame) : State := bench.updStream 0 0 fun t => { t with frames := [f] }

/-- A frame of 16 by 16 pixels over memory at 0x10000, with its one superblock marked. -/
def frame16 : Frame :=
  { vf := 0, gid := 1, va := 0x300000, pa := 0x300000, marks := [0],
    desc := bytesLE 8 0x10000 ++ bytesLE 8 0x20000 ++ bytesLE 8 (2 ^ 32 * 256 + 256) ++ bytesLE 8 0x30000 ++ bytesLE 8 (2 ^ 32 * 4096 + 2 ^ 16 * 16 + 16) ++ List.replicate 88 0 }

/-- A fused frame of 16 by 80 pixels, whose lower half is the superblock 1, on the lanes of granules 0 and 1 of one slice. -/
def fusedFrame : Frame :=
  { frame16 with
    marks := [0, 1],
    desc := bytesLE 8 0x10000 ++ bytesLE 8 0x20000 ++ bytesLE 8 (2 ^ 32 * 256 + 256) ++ bytesLE 8 0x30000 ++ bytesLE 8 (2 ^ 32 * 4096 + 2 ^ 16 * 80 + 16) ++
      List.replicate 24 0 ++ bytesLE 8 0x20 ++ List.replicate 56 0 }

def fusing : State := ((encoding fusedFrame).updGran 0 fun k => { k with num := 2 }).updGran 1 fun k => { k with num := 0 }

/-- A superblock of a frame can be taken: its runs map, and none of their lines is poisoned. -/
def sbGoes (s : State) (runs : List (Nat × Nat)) : Bool := mapOk (s.engineMap 0 (.enc 0 0) .read runs) fun s1 pages => (s1.poisonIn pages runs).isNone

def lane31 : RayLane := { lane := 31, recVa := 0x20200, recPa := 0x20200 }

/-- Function 0 has completions withheld, while another function holds its slice (R380). -/
def withholding (s : State) (w : List (Nat × Withheld)) : State :=
  (s.updVf 0 fun v => { v with withheld := w }).updGran 0 fun k => { k with rotEn := true, entry := 0, rotVf := 1 }

theorem withholding_withheld (s : State) (w : List (Nat × Withheld)) : ((withholding s w).vf 0).withheld = w :=
  congrArg VFun.withheld (tget_tset_self s.vfs 0 { s.vf 0 with withheld := w } {} (by decide))

/-- The shadow storage of its slice is full. -/
def crammed (s : State) : State := withholding s (List.replicate 49152 (0, .pageIrq false))

theorem full_of {s : State} {vf : Nat} (hv : vf < 64) (hb : (s.vf vf).bound = true)
    (hl : 49152 * (s.gran (s.vf vf).slice).num ≤ (s.vf vf).withheld.length) : s.shadowFull (s.vf vf).slice = true := by
  refine decide_eq_true (hl.trans (List.le_sum_of_mem (List.mem_map_of_mem (List.mem_filter.2 ⟨?_, by simp [hb]⟩))))
  simp [State.vf, tget, Array.getD_eq_getD_getElem?, hv]

theorem crammed_ge {s : State} {n : Nat} (h : n ≤ 1) : 49152 * n ≤ ((crammed s).vf 0).withheld.length := by
  rw [crammed, withholding_withheld, List.length_replicate]
  omega

theorem witness_UnitEvents :
    (let s := flying .filt filterOp
     let o := opOf .filt filterOp
     OpenOp s 1 0 s.cur o ∧ ((s.gate (filterUnit s.cur.coreIx)).waking = false ∧
       s.engineReady s.cur 0 (runSpans [] (s.filterValues s.cur o (.texL {} ⟨8, r 4, r 1, .d2, .f16⟩) (List.replicate 64 0) (0xFFFF ||| 0)
         [Lanes.const 0, Lanes.const 0] []).2) = true)) ∧
    (∀ fast : Bool, let s := flying .filt (scatOp fast)
     OpenOp s 1 0 s.cur (opOf .filt (scatOp fast)) ∧ (s.engineReady s.cur 0 (slot3 fast).spans = true ∧ (s.gate (filterUnit s.cur.coreIx)).waking = false ∧
       s.poisoned 0x10000 = false ∧ isWindow (Loc.pa 0x10000) = false ∧ Loc.watch 0x10000 = none)) ∧
    (let s := flying .ray rayGetOp
     OpenOp s 1 0 s.cur (opOf .ray rayGetOp) ∧ ((s.gate (rayUnit s.cur.cluster)).waking = false ∧
      (∀ b ∈ [({ lane := 0, recVa := 0x20000, recPa := 0x20000 } : RayLane)] ++ [], b.lane ≠ 31) ∧
      s.rayBlocked s.cur 0 lane31 = false ∧ isWindow (Loc.pa 0x20200) = false ∧ Loc.watch 0x20200 = none ∧ Loc.pa 0x20200 % 512 = 0)) ∧
    ((drawing (draw [] none)).gran 0).draws = [draw [] none] ∧ (DrawDesc.of []).bad [] = true ∧
    ((drawing (draw drawBytes none)).gran 0).draws = [draw drawBytes none] ∧ (DrawDesc.of drawBytes).bad drawBytes = false ∧
    (let s := drawing (draw drawBytes (some 1))
     (s.gran 0).draws = [draw drawBytes (some 1)] ∧ s.statusStalls 0 = false ∧ ((crammed s).gran 0).draws = [draw drawBytes (some 1)] ∧
       (crammed s).holds 0 = false) ∧
    (let s := encoding frame16
     let x := FrameDesc.of frame16.desc
     (s.stream 0 0).frames = [frame16] ∧ frame16.encoded < x.upper ∧ frame16.encoded ∈ frame16.marks ∧ sbGoes s (x.sbRuns 0) = true) ∧
    (let x := FrameDesc.of fusedFrame.desc
     (fusing.stream 1 0).frames = [] ∧ (1 - fusing.sliceOf 1) % 2 = 1 ∧ (fusing.stream 0 0).frames = [fusedFrame] ∧ x.fuse = true ∧ x.upper + fusedFrame.low < x.cols * x.rows ∧
       x.upper + fusedFrame.low ∈ fusedFrame.marks ∧ sbGoes fusing (x.sbRuns (x.upper + fusedFrame.low)) = true) ∧
    ((encoding { frame16 with fail := some 4 }).stream 0 0).frames = [{ frame16 with fail := some 4 }] ∧
    (let s := encoding { frame16 with encoded := 1 }
     let x := FrameDesc.of frame16.desc
     (s.stream 0 0).frames = [{ frame16 with encoded := 1 }] ∧ s.statusStalls 0 = false ∧ x.cols * x.rows ≤ 1 ∧ (x.key || (s.stream 0 0).nextKey) = true) ∧
    (crammed (drawing (draw drawBytes (some 1)))).shadowFull 0 = true := by
  refine ⟨⟨flying_open _ _, ?_⟩, fun fast => ⟨flying_open _ _, ?_⟩, ⟨flying_open _ _, ?_⟩, ?_, ?_, ?_, ?_, ?_, ?_, ?_, ?_, ?_,
    full_of (vf := 0) (by decide) (by decide +kernel) (crammed_ge (by decide +kernel))⟩
  · decide +kernel
  · cases fast <;> decide +kernel
  all_goals decide +kernel


/-! ### Memory system and scheduling -/

def walkOk (s : State) (vf va : Nat) (p : State → Nat → Attr → Bool) : Bool := match s.walk vf va with | (s1, .ok loc a) => p s1 loc a | _ => false

theorem walkOk_spec {s : State} {vf va : Nat} {p : State → Nat → Attr → Bool} (h : walkOk s vf va p = true) : ∃ s1 loc a, s.walk vf va = (s1, .ok loc a) ∧ p s1 loc a = true := by
  unfold walkOk at h
  split at h
  · exact ⟨_, _, _, ‹_›, h⟩
  · cases h

def request (taken : Bool) : PageReq := { tag := 5, vf := 3, stage2 := false, page := 9, kind := .read, taken, who := [.group 1] }

def moving (m : Migration) : State := { bench with migs := tset bench.migs 2 m }

def mig1 : Migration := { src := 0x10000000, dst := 0x10010000, rep := 0x1000, pages := 1, stat := 1, job := (0x10000000, 0x10010000, 0x1000, 1, false) }

theorem witness_MemorySystemEvents :
    (∃ s1 loc a, bench.walk 0 (64 * 4) = (s1, .ok loc a) ∧ s1.fillable loc a = true) ∧
    (∃ s1 loc a, ({ bench with mixed := [(0, false)] } : State).walk 0 (64 * 4) = (s1, .ok loc a) ∧ (!s1.fillable loc a) = true) ∧
    (∀ l ∈ bench.l2, ¬(l.vf = 0 ∧ l.line = 4)) ∧ ((bench.vf 0).inval true).done = true ∧
    (let s := bench.updVf 0 fun v => v.setInval false { done := false, job := (0, 1, false) }
     ((s.vf 0).inval false).done = false ∧ ((s.vf 0).inval false).job = (0, 1, false) ∧ s.invalBusy 0 false 0 1 = false ∧
     (opening s [opOf .load loadOp]).invalBusy 0 false 0 8 = true) ∧
    (bench.mig 2).stat ≠ 1 ∧ ((moving mig1).mig 2).stat = 1 ∧ ((moving mig1).mig 2).ok = true ∧
    ((moving mig1).mig 2).job = (0x10000000, 0x10010000, 0x1000, 1, false) ∧ (moving mig1).l2 = [] ∧
    Memory.wf (moving mig1).mem ∧ (∀ p ∈ (moving mig1).poison, ¬(0x10000000 ≤ 64 * p ∧ 64 * p < 0x10000000 + 65536 * 1)) ∧
    ((0x1000 : Nat) + (64 + 8192 + (1 + 7) / 8) ≤ 0x10010000 ∨ (0x10010000 : Nat) + 65536 * 1 ≤ 0x1000) ∧
    (∀ r ∈ bench.prq, ¬(r.vf = 3 ∧ r.stage2 = false ∧ r.taken = false)) ∧
    (let s : State := { bench with prq := [request false] }
     s.prq = [] ++ request false :: [] ∧ (request false).vf = 3 ∧ (request false).stage2 = false ∧ (request false).taken = false) ∧
    (let s : State := { withGroup (fun g => { g with pageWait := some { cause := .xlate, slot1 := false, pc := 18, addr := 0x90000 } }) with prq := [request true] }
     s.prq.find? (fun q => q.tag = 5 && q.vf = 3 && q.stage2 = false) = some (request true) ∧ (request true).who = [.group 1] ∧ s.prqWait = [] ∧ s.group? 1 = some s.cur ∧
     s.cur.pageWait.isSome = true) ∧
    (∀ q ∈ bench.prq, ¬(q.tag = 5 ∧ q.vf = 3 ∧ q.stage2 = false)) :=
by
  refine ⟨walkOk_spec ?_, walkOk_spec ?_, fun l h => absurd h (by simp [show bench.l2 = [] from rfl]), ?_, ?_, ?_, ?_, ?_, ?_, rfl, ?_, ?_, ?_, ?_, ?_,
    ⟨?_, rfl, rfl, group_cur rfl, ?_⟩, ?_⟩
  all_goals decide +kernel

/-- The machine with function 0 bound and memory mapped, and no group on it; with changes to queue 3. -/
def idle (q : Queue) : State := { State.reset.updVf 0 (fun _ => { bench.vf 0 with queues := tset (bench.vf 0).queues 3 q }) with mem := bench.mem }

def queue3 (base : Word64) : Queue := { base, cfg := 0x102, tail := 4, head := 1 }

def reachOk (x : Reach) (p : State → Nat → Bool) : Bool := match x with | .ok s l => p s l | _ => false

theorem reachOk_spec {x : Reach} {p : State → Nat → Bool} (h : reachOk x p = true) : ∃ s l, x = .ok s l ∧ p s l = true := by
  cases x with
  | ok s l => exact ⟨s, l, rfl, h⟩
  | wait => cases h
  | fail => cases h

def reachFail (x : Reach) : Bool := match x with | .fail _ => true | _ => false

theorem reachFail_spec {x : Reach} (h : reachFail x = true) : ∃ s, x = .fail s := by
  cases x with
  | fail s => exact ⟨s, rfl⟩
  | ok => cases h
  | wait => cases h

/-- A launch under way, with no gang placed. -/
def launch1 : Launch := { key := 1, vf := 0, queue := 3, id := 0, stage := .run, rec_ := { depaddr := 0x10000, depval := 1 } }

theorem witness_RecordsAreTaken :
    (let s := idle (queue3 0x10000)
     s.lanternOn 0 = true ∧ s.boundTo 0 0 = true ∧ (s.queue 0 3).enabled = true ∧ (s.queue 0 3).held ≠ 0 ∧
     (∃ s1 loc, s.reach 0 ((s.queue 0 3).slotAt (s.queue 0 3).head.toNat) .read (.slotRead 0 3) (·.r) = .ok s1 loc ∧ (!s1.engPoisoned loc && !s1.engPoisoned (loc + 64)) = true) ∧
     (s.queue 0 3).dev = false ∧ ((4 : Word32) - (s.queue 0 3).head).toNat ≤ 2 ^ ((s.queue 0 3).cfg.extractLsb' 0 5).toNat ∧
     2 ^ ((s.queue 0 3).cfg.extractLsb' 0 5).toNat < ((9 : Word32) - (s.queue 0 3).head).toNat) ∧
    (let s := idle (queue3 (2 ^ 57))
     (s.queue 0 3).enabled = true ∧ (s.queue 0 3).held ≠ 0 ∧
     ∃ s1, s.reach 0 ((s.queue 0 3).slotAt (s.queue 0 3).head.toNat) .read (.slotRead 0 3) (·.r) = .fail s1) ∧
    (let s : State := { idle {} with launches := [launch1] }
     s.launches.filter (fun l => s.boundTo l.vf 0) = [launch1] ∧ s.launch? 1 = some launch1 ∧ launch1.stage = .run ∧ launch1.depOk = false ∧
     ∃ s1 loc, s.reach 0 launch1.rec_.depaddr.toNat .read (.dep 1) (·.r) = .ok s1 loc ∧ (!s1.engPoisoned loc) = true) ∧
    (queued.queue 0 3).dev = true :=
  ⟨⟨by decide +kernel, by decide +kernel, by decide +kernel, by decide +kernel, reachOk_spec (by decide +kernel), by decide +kernel, by decide +kernel, by decide +kernel⟩,
    ⟨by decide +kernel, by decide +kernel, reachFail_spec (by decide +kernel)⟩,
    ⟨by decide +kernel, by decide +kernel, rfl, rfl, reachOk_spec (by decide +kernel)⟩, by decide +kernel⟩

/-- The idle machine with launches under way; its slice has power to spare. -/
def launching (ls : List Launch) : State := { (idle {}).updGran 0 fun k => { k with slpow := 20000 } with launches := ls }

def ready1 : Launch := { launch1 with depOk := true, waitSince := some 0 }

def stuck2 : Launch := { launch1 with key := 2, queue := 2, depOk := true, rec_ := { saven := 0 } }

def placeIs (x : Placed) (done : Bool) (p : State → Bool) : Bool := match x, done with | .done s, true => p s | .no s, false => p s | _, _ => false

theorem placeDone {x : Placed} {p : State → Bool} (h : placeIs x true p = true) : ∃ s, x = .done s ∧ p s = true := by
  cases x with
  | done s => exact ⟨s, rfl, h⟩
  | no => cases h
  | fault => cases h

theorem placeNo {x : Placed} {p : State → Bool} (h : placeIs x false p = true) : ∃ s, x = .no s ∧ p s = true := by
  cases x with
  | no s => exact ⟨s, rfl, h⟩
  | done => cases h
  | fault => cases h

theorem witness_LaunchesInOrder :
    (launching [ready1]).lanternOn 0 = true ∧ ((launching [ready1]).gran 0).rotating = false ∧ (launching [ready1]).choices 0 = [ready1] ∧
    (∃ t, (launching [ready1]).place 0 ready1 = .done t ∧ (fun _ => true) t = true) ∧
    (launching [ready1, stuck2]).choices 0 = [stuck2, ready1] ∧
    (∃ u, (launching [ready1, stuck2]).place 0 stuck2 = .no u ∧ placeIs (u.place 0 ready1) true (fun _ => true) = true) ∧
    (launching []).choices 0 = [] ∧ (∀ l ∈ (launching [ready1]).launches, (launching [ready1]).boundTo l.vf 0 = true ∧ (launching [ready1]).eligible l = true) :=
  ⟨by decide +kernel, by decide +kernel, by decide +kernel, placeDone (by decide +kernel), by decide +kernel, placeNo (by decide +kernel), by decide +kernel,
    by decide +kernel⟩

theorem witness_LanternEvents :
    (let l : Launch := { launch1 with next := 1 }
     let s := launching [l]
     s.reap = s ∧ s.launch? 1 = some l ∧ s.groupsOf 1 = [] ∧ (∀ g ∈ s.gangs, g.launch = 1 → g.st = .ended) ∧ l.rec_.gangs ≤ l.next ∧ s.holds l.vf = true ∧
     l.rec_.compl = 0 ∧ l.rec_.sigaddr = 0 ∧ l.rec_.irq = false) ∧
    (let s := launching [{ launch1 with stage := .finish 1 }]
     s.reap = s ∧ s.launch? 1 = some { launch1 with stage := .finish 1 } ∧ ∀ w ∈ (s.vf 0).withheld, w.2 ≠ .launchSteps 1) ∧
    ((bench.gran 0).tick - (bench.gran 0).windowFrom).toNat < 10000 ∧
    (let s := bench.updGran 0 fun k => { k with tick := 10000 }
     10000 ≤ ((s.gran 0).tick - (s.gran 0).windowFrom).toNat) ∧
    (let s := launching [ready1]
     (s.choices 0).find? (fun l => !l.background) = some ready1 ∧ s.nextGang ready1 = some (.new 0) ∧ (match s.needs ready1 (.new 0) with | .ok _ => true | _ => false) = true ∧
     ((s.gran 0).tick - 0).toNat < (s.gran 0).pwait) ∧
    (let s := (launching [ready1]).updGran 0 fun k => { k with tick := 100 }
     (s.choices 0).find? (fun l => !l.background) = some ready1 ∧ (s.gran 0).pwait ≤ ((s.gran 0).tick - 0).toNat) ∧
    (∀ x ∈ [(bench, false), (withGroup fun g => { g with stop := some .save, stopped := some true }, true)],
      let u := (x.1.allGroups.filter fun g => g.gang = 1).foldl (fun s g => s.tryStop g.id) x.1
      let gs := u.allGroups.filter fun g => g.gang = 1 && !g.gone
      (x.1.gang? 1).isSome = true ∧ (u.launch? 1).isSome = true ∧ gs ≠ [] ∧ (gs.all (·.drained)) = x.2 ∧
      u.wgs.all (fun w => w.settled && w.handles.toList.all (fun h => h.poison.isEmpty)) = true) :=
  ⟨⟨rfl, by decide +kernel⟩, ⟨rfl, by decide +kernel⟩, by decide +kernel⟩


/-! ### Slices, functions, errors and power -/

/-- Functions 0 and 1 share slice 0 by rotation, entry 0 with the given time gone; function 1 has `n` records waiting. -/
def rotating (tick : Word64) (n : Word32) (f : Granule → Granule) : State :=
  ((idle {}).updVf 1 fun v => { v with bound := true, queues := tset v.queues 0 { cfg := 0x102, tail := n } }).updGran 0 fun k =>
    f { k with rotEn := true, rotNm := 1, rotVf := 0x0100, rotq := 0x00010001, tick }

/-- The same, with work of function 0 alone. -/
def busyAlone : State := (rotating 100 0 id).updVf 0 fun v => { v with queues := tset v.queues 0 { cfg := 0x102, tail := 1 } }

/-- The idle machine with a pass offered by slice 1 to slice 0. -/
def offering : State :=
  (((idle {}).updVf 5 fun v => { v with bound := true, slice := 1, brw := true }).updGran 0 fun k => { k with lend := 2 }).updCluster 4 fun k =>
    { k with res := [{ gid := 9, op := 0, vf := 5, post := 0, offered := some 0 }] }

theorem witness_RotationAndLeases :
    (let s := rotating 100 0 id
     (s.gran 0).num ≠ 0 ∧ (s.gran 0).rotEn = true ∧ (s.gran 0).hold = false ∧ (s.gran 0).resetting = false ∧ (s.gran 0).rotating = false ∧
     (s.gran 0).rotNext = none ∧ s.entryOk 0 (s.gran 0).entry = true ∧ (s.gran 0).quantum (s.gran 0).entry ≤ ((s.gran 0).tick - (s.gran 0).quantumFrom).toNat ∧
     s.nextRot 0 ((s.gran 0).entryVf (s.gran 0).entry) = some 1 ∧ (∀ j ≤ (s.gran 0).rotNm, s.entryOk 0 j = true → s.hasWork ((s.gran 0).entryVf j) = false) ∧ (s.gran 0).entryVf 1 ≠ (s.gran 0).entryVf 0 ∧
     (s.gran 0).preloaded = false) ∧
    (let s := busyAlone
     (∃ j ≤ (s.gran 0).rotNm, s.entryOk 0 j = true ∧ s.hasWork ((s.gran 0).entryVf j) = true) ∧
     (∀ j ≤ (s.gran 0).rotNm, s.entryOk 0 j = true → s.hasWork ((s.gran 0).entryVf j) = true → (s.gran 0).entryVf j = (s.gran 0).entryVf (s.gran 0).entry) ∧
     (s.gran 0).entry ≤ (s.gran 0).rotNm ∧ s.nextRot 0 ((s.gran 0).entryVf (s.gran 0).entry) = some 1 ∧
     (s.gran 0).quantum (s.gran 0).entry ≤ ((s.gran 0).tick - (s.gran 0).quantumFrom).toNat ∧ s.entryOk 0 (s.gran 0).entry = true) ∧
    (let s := rotating 100 1 fun k => { k with preloaded := true }
     (∃ j ≤ (s.gran 0).rotNm, s.entryOk 0 j = true ∧ s.hasWork ((s.gran 0).entryVf j) = true ∧ (s.gran 0).entryVf j ≠ (s.gran 0).entryVf (s.gran 0).entry) ∧
     (s.gran 0).preloaded = true ∧ s.nextRot 0 ((s.gran 0).entryVf (s.gran 0).entry) = some 1 ∧
     (s.gran 0).quantum (s.gran 0).entry ≤ ((s.gran 0).tick - (s.gran 0).quantumFrom).toNat) ∧
    (let s := rotating 99 1 id
     ((s.gran 0).tick - (s.gran 0).quantumFrom).toNat < (s.gran 0).quantum (s.gran 0).entry) ∧
    (let s := rotating 100 1 fun k => { k with rotating := true }
     (s.gran 0).rotating = true ∧ (s.gran 0).hold = false ∧ (s.gran 0).rotEn = true ∧ s.nextRot 0 ((s.gran 0).entryVf (s.gran 0).entry) = some 1 ∧ (s.gran 0).rotNext = none ∧ s.gangs = [] ∧
     (∀ g ∈ s.allGroups, ¬(g.gone = false ∧ 0 ≤ g.cluster / 4 ∧ g.cluster / 4 < 0 + (s.gran 0).num)) ∧ (s.vf ((s.gran 0).entryVf 1)).withheld = []) ∧
    ((bench.gran 0).rotating = false ∧ ∀ q ∈ bench.gangs, q.st = .saved → q.shadow = false) ∧
    (offering.lendable 0 = true ∧ 5 ≤ (offering.cluster 0).point ∧ offering.offers (offering.sliceOf (0 / 4)) = [(4, { gid := 9, op := 0, vf := 5, post := 0, offered := some 0 })] ∧
      ((offering.arrive (engineUnit 0)).gate (engineUnit 0)).waking = false) ∧
    offering.lendable 4 = false :=
  ⟨by decide +kernel, ⟨⟨0, by decide +kernel⟩, by decide +kernel⟩, ⟨⟨1, by decide +kernel⟩, by decide +kernel⟩, by decide +kernel⟩

theorem vf_all {s : State} {p : VFun → Bool} (h : ((List.range 64).all fun n => p (s.vf n)) = true) (h0 : p {} = true) (n : Nat) : p (s.vf n) = true := by
  by_cases hn : n < 64
  · exact List.all_eq_true.1 h n (List.mem_range.2 hn)
  · have : s.vf n = {} := by simp only [State.vf, tget]; exact Array.getD_eq_getD_getElem?.trans (by simp [Nat.le_of_not_lt hn])
    rw [this]; exact h0

/-- A package command that runs. -/
def commanded (op first num : Nat) (f : State → State) : State := { f (idle {}) with pcmdStat := 1, pcmdOp := op, pcmdFirst := first, pcmdNum := num, pcmdJob := (op, first, num) }

/-- Granule 3 belongs to the slice of granule 2. -/
def fused (s : State) : State := (s.updGran 2 fun k => { k with num := 2 }).updGran 3 fun k => { k with num := 0 }

theorem witness_SliceShapes :
    bench.isSlice 0 = true ∧ (fused bench).isSlice 3 = false ∧
    (let s := (idle {}).updGran 0 fun k => { k with hold := true }
     s.isSlice 0 = true ∧ (s.gran 0).hold = true ∧ s.residents (s.functionsOf 0) = false ∧ s.gangsOn 0 = [] ∧ s.outstanding (s.functionsOf 0) = false ∧
     s.asksPages (s.functionsOf 0) = false ∧ (∀ q ∈ s.gangs, q.unwritten = false) ∧ ∀ c r, 4 * 0 ≤ c → c < 4 * (0 + (s.gran 0).num) → (s.cluster c).run = some r → r.borrowed = false) ∧
    bench.residents (bench.functionsOf 0) = true ∧ bench.pcmdStat ≠ 1 ∧
    (let s := commanded 1 2 2 id
     s.pcmdStat = 1 ∧ s.pcmdJob = (1, 2, 2) ∧ 2 + 2 ≤ 16 ∧ 1 ≤ 2) ∧ (∀ f, ((commanded 1 2 2 id).vf f).withheld = []) ∧
    (let s := commanded 2 2 1 fused
     s.pcmdStat = 1 ∧ s.pcmdJob = (2, 2, 1) ∧ 1 ≤ 1 ∧ s.isSlice 2 = true ∧ 1 < (s.gran 2).num ∧ 2 + (s.gran 2).num ≤ 16 ∧
     (∀ k, 0 < k → k < (s.gran 2).num → (s.gran (2 + k)).num = 0) ∧ (∀ g < 2, s.isSlice g = true → g + (s.gran g).num ≤ 2)) ∧
    (∀ f, ((commanded 2 2 1 fused).vf f).withheld = []) := by
  refine ⟨by decide +kernel, by decide +kernel, ⟨by decide +kernel, by decide +kernel, by decide +kernel, by decide +kernel, by decide +kernel, by decide +kernel, by decide +kernel, ?_⟩,
    by decide +kernel, by decide +kernel, by decide +kernel, fun f => ?_, ⟨rfl, rfl, by decide, by decide +kernel, by decide +kernel, by decide +kernel, ?_, by decide +kernel⟩, fun f => ?_⟩
  · intro c r _ hc h
    have hr : ∀ c < 4, (((idle {}).updGran 0 fun k => { k with hold := true }).cluster c).run = none := by decide +kernel
    have h4 : 4 * (0 + (((idle {}).updGran 0 fun k => { k with hold := true }).gran 0).num) = 4 := by decide +kernel
    rw [hr c (by omega)] at h
    cases h
  · have := vf_all (s := commanded 1 2 2 id) (p := fun v => v.withheld.isEmpty) (by decide +kernel) (by decide +kernel) f
    simpa using this
  · intro k h0 hk
    have h2 : ((commanded 2 2 1 fused).gran 2).num = 2 := by decide +kernel
    obtain rfl : k = 1 := by omega
    decide +kernel
  · have := vf_all (s := commanded 2 2 1 fused) (p := fun v => v.withheld.isEmpty) (by decide +kernel) (by decide +kernel) f
    simpa using this

theorem witness_FunctionEvents :
    ((bench.vf 7).busy = false ∧ (bench.vf 7).bound = false ∧ bench.isSlice 2 = true ∧ (bench.functionsOf 2).length < 4 ∧ (bench.gran 2).hold = false ∧ bench.prqWait = []) ∧
    (fused bench).isSlice 3 = false ∧ ((bench.vf 0).bound = true ∧ (bench.vf 0).slice = 0 ∧ (bench.vf 0).slice ≠ 2 ∧ (bench.vf 0).busy = false) ∧
    (let s := bench.updGran 2 fun k => { k with hold := true, quiet := false }
     (s.gran 2).hold = true ∧ (s.gran 2).quiet = false ∧ (s.vf 7).busy = false ∧ (s.vf 7).bound = false) ∧
    (let s := bench.updVf 0 fun v => { v with busy := true }
     (s.vf 0).busy = true ∧ s.residents [0] = true) ∧
    (let s := bench.updVf 7 fun v => { v with busy := true }
     (s.vf 7).busy = true ∧ s.residents [7] = false ∧ s.outstanding [7] = false ∧ s.asksPages [7] = false ∧ (s.vf 7).withheld = [] ∧ s.prqWait = [] ∧ ∀ q ∈ s.gangs, q.unwritten = false) ∧
    ((bench.gran 0).rdone = true ∧ bench.pcmdStat ≠ 1 ∧ bench.isSlice 0 = true ∧ 0 ∈ bench.functionsOf 0 ∧ ∃ l ∈ bench.launches, l.vf = 0) ∧
    ((bench.updGran 0 fun k => { k with rdone := false }).gran 0).rdone = false ∧ (bench.gran 0).resetting = false ∧
    ((bench.updGran 0 fun k => { k with resetting := true }).gran 0).resetting = true ∧
    (bench.vf 0).flrDone = true ∧ (bench.gran (bench.vf 0).slice).rotEn = false ∧ ((bench.updVf 0 fun v => { v with flrDone := false }).vf 0).flrDone = false := by
  decide +kernel

def logging (n : Word32) : State := bench.updGran 0 fun k => { k with log := { k.log with base := 0x400000, log2e := 1, en := true, tail := n } }

theorem witness_ErrorEvents :
    (((logging 1).gran 0).log.en = true ∧ Memory.wf (logging 1).mem ∧ (((logging 1).gran 0).log.tail - ((logging 1).gran 0).log.head).toNat < 2 ^ ((logging 1).gran 0).log.log2e.toNat ∧
      2 ^ ((logging 2).gran 0).log.log2e.toNat ≤ (((logging 2).gran 0).log.tail - ((logging 2).gran 0).log.head).toNat) ∧ (bench.gran 0).log.en = false ∧
    (let s := bench.updGran 0 fun k => { k with wdog := 10, tick := 10 }
     s.isSlice 0 = true ∧ (s.gran 0).wdog ≠ 0 ∧ (s.gran 0).hangReported = false ∧ s.residents (s.functionsOf 0) = true ∧
     (s.gran 0).wdog.toNat ≤ ((s.gran 0).tick - (s.gran 0).progress).toNat) ∧
    (let s := bench.updGran 0 fun k => { k with wdog := 10, tick := 10, progress := 10, units := [(3, 0, 0)] }
     (s.gran 0).wdog ≠ 0 ∧ (s.gran 0).hangReported = false ∧ ∃ u ∈ (s.gran 0).units, (s.gran 0).wdog.toNat ≤ ((s.gran 0).tick - u.2.2).toNat) ∧
    ((bench.updGran 0 fun k => { k with wdog := 0 }).gran 0).wdog = 0 ∧ isDevice 0x10000 = true ∧
    (bench.allGroups ≠ [] ∧ (∀ g ∈ bench.allGroups, g.id ≠ 0 ∧ g.gone = false ∧ g.coreIx = 0 ∧ g.gslot = 0 ∧ (bench.launch? g.launch).isSome = true)) ∧
    ((tiled.wg? 1).isSome = true ∧ (tiled.handle 1 1).st = .allocated) ∧
    (let s : State := { (idle {}) with savedGroups := [testGroup], launches := bench.launches }
     (s.savedGroups.find? (fun h => h.id = testGroup.id)).isSome = true ∧ testGroup.gone = false ∧ (s.launch? testGroup.launch).isSome = true) ∧
    (let s := withholding bench [(4, .pageIrq false)]
     (s.vf 0).withheld = (4, .pageIrq false) :: [] ∧ ∀ l, Withheld.pageIrq false ≠ .launchSteps l) ∧
    (let w : Withheld := .status 0x10000 0x10000 [1] (bench.cur.agent 18)
     let s := withholding bench [(4, w)]
     (s.vf 0).withheld = (4, w) :: [] ∧ (∀ l, w ≠ .launchSteps l) ∧ (s.launches.find? fun l => l.vf = 0 && l.id = (bench.cur.agent 18).launch).isSome = true) ∧
    (let s : State := { bench with sethr := 2 }
     ¬(s.sethr.toNat / 2 ^ (8 * 0) % 256 = 0 ∨ 2 ≤ 1) ∧ s.sethr.toNat / 2 ^ (8 * 1) % 256 = 0 ∧ (2, 5) ∉ s.retired ∧ s.spareLeft 2 5 = true) ∧
    (let s : State := { bench with retired := [(2, 4)], sethr := 0x010000 }
     s.spareLeft 2 5 = false ∧ s.sethr.toNat / 2 ^ (8 * 2) % 256 = 1) ∧
    (let s : State := { bench with sewin := 10 }
     s.sewin ≠ 0 ∧ (s.gran 0).tick.toNat % s.sewin.toNat = 0) ∧
    (let s : State := { bench with sewin := 0 }
     s.sewin = 0) := by
  refine ⟨?_, ?_, ?_, ?_, ?_, ?_, ?_, ?_, ?_, ⟨?_, fun l h => Withheld.noConfusion h⟩, ⟨?_, fun l h => Withheld.noConfusion h, ?_⟩, ?_, ?_, ?_, rfl⟩
  all_goals decide +kernel

/-- The bench with regulator 1 above its target. -/
def falling : State := bench.setRail 1 { mv := 920, target := 830 }

theorem falling_points : ∀ c < 64, pointMv (falling.cluster c).point ≤ max (falling.rail 1).target ((falling.rail 1).mv - 10) := by decide +kernel

theorem falling_slices : ∀ g < 16, (falling.gran g).num = 1 := by decide +kernel

theorem witness_PowerEvents :
    (∀ c < 64, (bench.cluster c).demanding = false) ∧
    (let s := bench.updCluster 5 fun k => { k with demanding := true }
     (∀ c < 64, (s.cluster c).demanding = decide (c = 5)) ∧ 0 < s.baseBudget 5) ∧
    (let s := bench.setRail 1 { mv := 600, target := 830 }
     (s.rail 1).mv < (s.rail 1).target) ∧
    (let s := falling
     (s.rail 1).target < (s.rail 1).mv ∧ (s.rail 1).holding = false ∧
     ∀ g c, s.isSlice g = true → (s.gran g).rail = 1 → 4 * g ≤ c → c < 4 * (g + (s.gran g).num) → pointMv (s.cluster c).point ≤ max (s.rail 1).target ((s.rail 1).mv - 10)) ∧
    (bench.isSlice 2 = true ∧ (((List.range 16).filter fun g => bench.isSlice g && g ≠ 2).map fun g => (bench.gran g).slpow.toNat).sum + (10 : Word64).toNat ≤ bench.pkpow.toNat ∧
      bench.pkpow.toNat < (((List.range 16).filter fun g => bench.isSlice g && g ≠ 2).map fun g => (bench.gran g).slpow.toNat).sum + (2000 : Word64).toNat) ∧
    (let s := bench.updGran 2 fun k => { k with hold := true, quiet := true }
     (s.gran 2).hold = true ∧ (s.gran 2).quiet = true ∧ s.isSlice 2 = true) ∧ (bench.gran 2).hold = false ∧
    (let s := bench.setGate 1400 { pred := 2048, idleFrom := some 0 }
     (s.gate 1400).idleFrom = some 0 ∧ (s.gate 1400).gated = false ∧ (s.gate 1400).waking = false ∧ gateBE 1400 ≤ (s.gate 1400).pred.toNat) ∧
    (let s := bench.setGate 1400 { idleFrom := none }
     (s.gate 1400).idleFrom = none) ∧
    (bench.gran 0).num ≠ 0 ∧ ((bench.gran 0).tick - (bench.gran 0).windowFrom).toNat < 10000 ∧ (bench.gran 0).top < ((bench.updCluster 5 fun k => { k with point := 6 }).cluster 5).point :=
  ⟨by decide +kernel, by decide +kernel, by decide +kernel, ⟨by decide +kernel, by decide +kernel, fun g c h _ _ hc => falling_points c (by
        have hg : g < 16 := by simp only [State.isSlice, Bool.and_eq_true, decide_eq_true_eq] at h; exact h.1
        rw [falling_slices g hg] at hc
        omega)⟩, by decide +kernel⟩


/-! ### Debug, links and the host -/

/-- A checkpoint of slice 0 for interval 1, that goes to instruction 8. -/
def ckpt1 : Ckpt := { gran := 0, ivl := 1, start := bench.toDevice, stop := 8 }

/-- Slice 0 in replay mode, recorded and stopped, held and quiet. -/
def replaying (stop : Word64) : State :=
  { (idle {}).updGran 0 fun k => { k with rpEn := true, rpStat := 3, hold := true, quiet := true, rpStop := stop } with kept := [ckpt1] }

theorem witness_DebugAndReplay :
    (bench.vf 0).halted = false ∧ ((bench.updVf 0 fun v => { v with halted := true }).vf 0).halted = true ∧
    (let s := bench.updVf 7 fun v => { v with halting := true }
     (s.vf 7).halting = true ∧ (s.vf 7).halted = false ∧ s.residents [7] = false) ∧ (bench.vf 7).halting = false ∧
    ((bench.gran 0).rpEn = false ∧ bench.isSlice 0 = true ∧ bench.replayOk 0 = false) ∧
    ((idle {}).updGran 0 fun k => { k with hold := true, quiet := true, rpSize := 52428800 }).replayOk 0 = true ∧
    (let s := (idle {}).updGran 0 fun k => { k with rpEn := true, rpStat := 1 }
     (s.gran 0).rpEn = true ∧ (s.gran 0).rpStat = 1 ∧ (s.gran 0).rpStat ≠ 2 ∧ (s.gran 0).rpCount < 2 ^ (s.gran 0).ivl ∧ s.undoFull 0 = false) ∧
    (let s := (idle {}).updGran 0 fun k => { k with rpEn := true, rpStat := 1, ivl := 10, rpCount := 1024 }
     (s.gran 0).rpEn = true ∧ (s.gran 0).rpStat = 1 ∧ 2 ^ (s.gran 0).ivl ≤ (s.gran 0).rpCount) ∧
    (let s := (idle {}).updGran 0 fun k => { k with rpEn := true, rpStat := 2 }
     (s.gran 0).rpStat = 2 ∧ s.gangsOn 0 = [] ∧ s.residents (s.functionsOf 0) = false) ∧
    (((replaying (2 ^ 32 + 5)).gran 0).rpEn = true ∧ ((replaying (2 ^ 32 + 5)).gran 0).rpStat = 3 ∧ ((replaying (2 ^ 32 + 5)).gran 0).quiet = true) ∧
    (∀ c ∈ (replaying (2 ^ 33 + 5)).kept, c.gran = 0 → c.ivl ≠ ((replaying (2 ^ 33 + 5)).gran 0).rpStop.extractLsb' 32 32) ∧
    (replaying (2 ^ 32 + 5)).kept.find? (fun c => c.gran = 0 && c.ivl = ((replaying (2 ^ 32 + 5)).gran 0).rpStop.extractLsb' 32 32) = some ckpt1 ∧
    ((replaying (2 ^ 32 + 5)).gran 0).rpStop.toNat % 2 ^ 32 ≤ ckpt1.stop ∧ ckpt1.stop < ((replaying (2 ^ 32 + 9)).gran 0).rpStop.toNat % 2 ^ 32 := by
  refine ⟨?_, ?_, ?_, ?_, ?_, ?_, ?_, ?_, ?_, ?_, fun c hc _ => ?_, ?_, ?_, ?_⟩
  rotate_left 10
  ·
    have hk : (replaying (2 ^ 33 + 5)).kept = [ckpt1] := rfl
    have hn : ckpt1.ivl ≠ ((replaying (2 ^ 33 + 5)).gran 0).rpStop.extractLsb' 32 32 := by decide +kernel
    rw [hk, List.mem_singleton] at hc
    rw [hc]; exact hn
  · have hk : (replaying (2 ^ 32 + 5)).kept = [ckpt1] := rfl
    have hp : (decide (ckpt1.gran = 0) && decide (ckpt1.ivl = ((replaying (2 ^ 32 + 5)).gran 0).rpStop.extractLsb' 32 32)) = true := by decide +kernel
    rw [hk]
    exact List.find?_cons_of_pos hp
  all_goals decide +kernel

/-- Link 1 up, with its fields and what has just arrived on it. -/
def arrived (f : Link → Link) (p : Port) : State := { bench.updLink 1 fun l => f { l with state := 2 } with port := { p with link := 1 } }

/-- Link 0 up, and a transaction from the host. -/
def fromHost (s : State) (p : Port) : State := { s.updLink 0 fun l => { l with state := 2 } with port := { p with link := 0 } }

/-- The same flit with its checksum wrong. -/
def torn : Flit := { dataFlit 0 0 [] with crc := (dataFlit 0 0 []).crc + 1 }

theorem dataFlit_crc (ch seq : Nat) (body : List Byte) : (dataFlit ch seq body).crc = flitSum (dataFlit ch seq body) := rfl

theorem torn_crc (f : Flit) (h : f.crc = flitSum f) : ({ f with crc := f.crc + 1 } : Flit).crc ≠ flitSum { f with crc := f.crc + 1 } := by
  show f.crc + 1 ≠ flitSum f
  rw [h]
  intro e
  have := congrArg BitVec.toNat e
  rw [BitVec.toNat_add] at this
  have hl := (flitSum f).isLt
  simp at this
  omega

/-- The port presents a control frame. -/
theorem heard_of {s : State} {code arg : Nat} (hl : (decide (s.port.link < 5) && decide ((s.link s.port.link).state = 2)) = true)
    (hf : s.port.flit = controlFlit code arg) : s.heard code arg = true := by
  unfold State.heard
  rw [hl, Bool.true_and]
  exact decide_eq_true hf

/-- What it presents is no control flit. -/
theorem unheard_of {s : State} {code arg : Nat} (hf : s.port.flit.ctrl ≠ 4) : s.heard code arg = false := by
  unfold State.heard
  rw [decide_eq_false (fun h => hf (congrArg Flit.ctrl h)), Bool.and_false]

/-- Link 1 with frame `code` of number or channel `arg`. -/
def hearing (f : Link → Link) (code arg : Nat) : State :=
  arrived (fun l => { f l with state := 2 }) { seq := BitVec.ofNat 12 arg, chan := arg, flit := controlFlit code arg }

theorem hearing_heard {f : Link → Link} (code arg : Nat) : (hearing f code arg).heard code arg = true := heard_of rfl rfl

/-- A transaction stands first in its channel's receive buffer, with `rest` behind it, over a link that is UP. -/
def standing (s : State) (k : Nat) (kind : TlpKind) (ch : Nat) (p : Port) (rest : List Byte) (f : Link → Link := id) : State :=
  { s.updLink k fun l => f { l with state := 2, rx := tset l.rx ch (tlpOf { p with link := k, kind } ++ rest) } with port := { p with link := k } }

theorem arrived_of {s : State} {kind : TlpKind} {ch : Nat} {rest : List Byte}
    (hl : (decide (s.port.link < 5) && decide ((s.link s.port.link).state = 2)) = true)
    (hr : tget (s.link s.port.link).rx ch [] = tlpOf { s.port with kind } ++ rest) : s.arrived kind ch = true := by
  unfold State.arrived
  rw [hl, hr, Bool.true_and]
  exact List.isPrefixOf_iff_prefix.mpr ⟨rest, rfl⟩

theorem flow_aq (l : Link) (ch : Nat) : (l.flow ch).aq = l.aq := by
  unfold Link.flow
  dsimp only
  split
  · rfl
  · split <;> rfl

/-- Taking a transaction changes nothing that waits. -/
theorem takeTlp_waiters (s : State) (kind : TlpKind) (ch : Nat) : (s.takeTlp kind ch).waiters = s.waiters := by
  have same (t : Vector Link 5) (n : Nat) (x : Link) (h : x.aq = (tget t n {}).aq) : (tset t n x).toList.flatMap (·.aq) = t.toList.flatMap (·.aq) := by
    rw [List.flatMap_def, List.flatMap_def]
    congr 1
    apply List.ext_getElem
    · simp [tset]
    · intro i h1 h2
      simp only [List.getElem_map, Vector.getElem_toList, tset, Vector.getElem_setIfInBounds]
      split
      · rename_i e
        subst e
        rw [h]
        simp at h1
        simp [tget, h1]
      · rfl
  exact congrArg (s.incoming ++ ·) (same _ _ _ (flow_aq _ _))

/-- A buffer that holds these bytes already, and a flit. -/
def filled (b : List Byte) : State := arrived (fun l => { l with rx := tset l.rx 0 b }) { flit := dataFlit 0 0 [] }

theorem filled_rx (b : List Byte) : tget ((filled b).link 1).rx 0 [] = b := rfl

theorem witness_LinkEvents :
    (let s := arrived id { flit := dataFlit 0 0 [] }
     (s.link 1).state = 2 ∧ s.port.flit.ctrl.toNat < 3 ∧ s.port.flit.body.length = 246 ∧ s.port.flit = dataFlit 0 0 [] ∧
     s.port.flit.seq.toNat % 1024 = (s.link 1).rxSeq ∧ (tget (s.link 1).rx 0 []).length + 246 ≤ bufferBytes 0) ∧ (dataFlit 0 0 []).crc = flitSum (dataFlit 0 0 []) ∧
    (torn.crc ≠ flitSum torn ∧ (arrived id { flit := torn }).port.flit = torn ∧ ((arrived id { flit := torn }).link 1).state = 2) ∧
    (tget ((filled (List.replicate 196700 1)).link 1).rx 0 [] = List.replicate 196700 1 ∧ (List.replicate 196700 (1 : Byte)).length + 246 ≤ bufferBytes 0 ∧
      bufferBytes 0 - ((List.replicate 196700 (1 : Byte)).length + 246) < pauseBelow 0) ∧
    (let s := arrived (fun l => { l with aq := List.replicate 1024 { tag := 0, vf := 0, port := {}, kind := 3, asked := false } }) { flit := dataFlit 1 0 [] }
     s.port.flit.ctrl.toNat % 4 = 1 ∧ 1024 ≤ (s.link 1).aq.length) ∧
    (let s := arrived (fun l => { l with rxSeq := 7 }) { flit := dataFlit 0 0 [] }
     s.port.flit.seq.toNat % 1024 ≠ (s.link 1).rxSeq) ∧
    ((standing bench 1 .write 0 { data := [1] } [0, 0, 3] fun l => { l with rxPaused := tset l.rxPaused 0 true }).arrived .write 0 = true ∧
      tget ((standing bench 1 .write 0 { data := [1] } [0, 0, 3] fun l => { l with rxPaused := tset l.rxPaused 0 true }).link 1).rxPaused 0 false = true ∧
      2 * pauseBelow 0 ≤ bufferBytes 0 - (unpad [0, 0, 3]).length) ∧
    (let s := hearing (fun l => { l with buf := [dataFlit 0 4 [], dataFlit 0 5 []] }) 3 5
     s.heard 3 5 = true ∧ (s.link 1).buf = [dataFlit 0 4 []] ++ dataFlit 0 5 [] :: [] ∧ (dataFlit 0 5 []).seq.toNat = s.port.seq.toNat % 1024 ∧
     (∀ x ∈ [dataFlit 0 4 []], x.seq.toNat ≠ s.port.seq.toNat % 1024)) ∧
    ((hearing id 3 5).heard 3 5 = true ∧ ∀ x ∈ ((hearing id 3 5).link 1).buf, x.seq.toNat ≠ 5) ∧
    (∀ code arg, (arrived id {}).heard code arg = false) ∧ (hearing id 2 5).heard 2 5 = true ∧ (hearing id 0 1).heard 0 1 = true ∧
    ((hearing (fun l => { l with held := [(1, {})] }) 1 1).heard 1 1 = true ∧
      ((hearing (fun l => { l with held := [(1, {})] }) 1 1).link 1).held = [(1, {})]) ∧
    (((bench.link 1).np.find? (fun e => e.tag = 3)).isNone = true ∧
      ((bench.updLink 1 fun l => { l with np := [{ tag := 3, addr := 0, gid := 1, op := 0, lane := 0 }] }).link 1).np.find? (fun e => e.tag = 3) =
        some { tag := 3, addr := 0, gid := 1, op := 0, lane := 0 }) ∧
    ((bench.updLink 1 fun l => { l with state := 3 }).link 1).state = 3 ∧ (bench.link 1).state ≠ 3 ∧ (bench.link 1).state ≠ 1 ∧
    (let s := bench.updLink 1 fun l => { l with state := 1, held := [(0, {})] }
     (s.link 1).state = 1 ∧ (s.link 1).held = [(0, {})] ∧ tget (s.link 1).txPaused 0 false = false) := by
  refine ⟨⟨by decide +kernel, by decide +kernel, by decide +kernel, rfl, by decide +kernel, by decide +kernel⟩, dataFlit_crc _ _ _, ⟨torn_crc _ (dataFlit_crc _ _ _), rfl, by decide +kernel⟩,
    ⟨filled_rx _, by rw [List.length_replicate]; decide, by rw [List.length_replicate]; decide⟩, by decide +kernel, by decide +kernel, ⟨arrived_of rfl rfl, rfl, by decide +kernel⟩, ⟨hearing_heard 3 5, rfl, by decide +kernel, fun x hx => ?_⟩,
    ⟨hearing_heard 3 5, by decide +kernel⟩, fun code arg => unheard_of (by decide), hearing_heard 2 5, hearing_heard 0 1, ⟨hearing_heard 1 1, rfl⟩, by decide +kernel, by decide +kernel,
    by decide +kernel, by decide +kernel, by decide +kernel⟩
  · rw [List.mem_singleton] at hx
    subst hx
    decide +kernel

/-- Request 3 of the group outstanding on link 1, and its answer in the receive buffer. -/
def answered (kind : TlpKind) (k : OpKind) : State :=
  standing ((flying .load k).updLink 1 fun l => { l with np := [{ tag := 3, addr := 0, gid := 1, op := 0, lane := 0 }] }) 1 kind 2
    { tag := 3, data := [1, 2, 3, 4], value := 9 } []

theorem answered_open (kind : TlpKind) (k : OpKind) : OpenOp (answered kind k) 1 0 (answered kind k).cur (opOf .load k) := by
  exact ⟨group_cur rfl, rfl, rfl, rfl⟩

theorem standing_arrived (s : State) {k : Nat} (kind : TlpKind) {ch : Nat} (p : Port) (rest : List Byte) (hk : k < 5) (hc : ch < 3) :
    (standing s k kind ch p rest).arrived kind ch = true := by
  have hl : (standing s k kind ch p rest).link k = { s.link k with state := 2, rx := tset (s.link k).rx ch (tlpOf { p with link := k, kind } ++ rest) } :=
    tget_tset_self s.links k _ _ hk
  refine arrived_of (rest := rest) ?_ ?_
  · show (decide (k < 5) && decide (((standing s k kind ch p rest).link k).state = 2)) = true
    rw [hl, decide_eq_true hk]
    rfl
  · show tget ((standing s k kind ch p rest).link k).rx ch [] = _
    rw [hl]
    exact tget_tset_self _ _ _ _ hc

/-- A read of the host that waits for its page. -/
def asking : Incoming := { tag := 3, vf := 0, port := {}, kind := 1, asked := true }

/-- A transaction stands first; the window of function 0 lies at 0x10000. -/
def windowed (kind : TlpKind) (ch : Nat) (p : Port) (k : Nat := 0) : State := standing (bench.updVf 0 fun v => { v with winva := 0x10000 }) k kind ch p []

/-- Its access is made with the next key, once it has left the buffer. -/
def keyed (s : State) (kind : TlpKind) (ch : Nat) : State := { s.takeTlp kind ch with nextKey := (s.takeTlp kind ch).nextKey + 1 }

def add1 : OpKind := .atomic [{ lane := 0, va := 0, pa := 0, b := 0, c := 0 }] .add .n64 true none none

theorem witness_IncomingTransactions :
    (let s := answered .completion loadOp
     s.arrived .completion 2 = true ∧ (s.link s.port.link).np.find? (fun e => e.tag = s.port.tag) = some { tag := 3, addr := 0, gid := 1, op := 0, lane := 0 } ∧
      s.port.status = 0 ∧ OpenOp s 1 0 s.cur (opOf .load loadOp)) ∧
    (∀ kind, (standing bench 1 kind 2 { tag := 3 } []).arrived kind 2 = true ∧
      ((standing bench 1 kind 2 { tag := 3 } []).link 1).np.find? (fun e => e.tag = 3) = none ∧ (standing bench 1 kind 2 { tag := 3 } []).port.link ≠ 0) ∧
    ((∀ kind, bench.arrived kind 2 = false) ∧ bench.incoming = []) ∧
    ((crammed (answered .reply ratomOp)).arrived .reply 2 = true ∧
      ((crammed (answered .reply ratomOp)).link 1).np.find? (fun e => e.tag = 3) = some { tag := 3, addr := 0, gid := 1, op := 0, lane := 0 } ∧
      (crammed (answered .reply ratomOp)).repliesPaused 1 0 = true) ∧
    ((answered .reply add1).arrived .reply 2 = true ∧ (answered .reply add1).port.link ≠ 0 ∧ (answered .reply add1).port.status = 0 ∧
      OpenOp (answered .reply add1) 1 0 (answered .reply add1).cur (opOf .load add1)) := by
  refine ⟨⟨standing_arrived _ _ _ _ (by decide) (by decide), rfl, rfl, answered_open _ _⟩,
    fun kind => ⟨standing_arrived _ _ _ _ (by decide) (by decide), rfl, show (1 : Nat) ≠ 0 by decide⟩, ⟨fun kind => ?_, rfl⟩,
    ⟨standing_arrived _ _ _ _ (by decide) (by decide), rfl, ?_⟩,
    ⟨standing_arrived _ _ _ _ (by decide) (by decide), by decide, rfl, answered_open _ _⟩⟩
  · have : (decide (bench.port.link < 5) && decide ((bench.link bench.port.link).state = 2)) = false := by decide +kernel
    unfold State.arrived
    rw [this, Bool.false_and]
  · have full : (crammed (answered .reply ratomOp)).shadowFull 0 = true := full_of (vf := 0) (by decide) (by decide +kernel) (crammed_ge (by decide +kernel))
    have off : (crammed (answered .reply ratomOp)).holds 0 = false := by decide +kernel
    show (!(crammed (answered .reply ratomOp)).holds 0 && (crammed (answered .reply ratomOp)).shadowFull 0) = true
    rw [full, off]
    rfl

theorem witness_IncomingTransactions_windows :
    (let s := windowed .write 0 { addr := 0x40, data := [1, 2] }
     s.arrived .write 0 = true ∧ s.port.inWindow 2 = true ∧ (((s.takeTlp .write 0).vf 0).winva.toNat + 0x40) % 64 + 2 ≤ 64 ∧ (s.takeTlp .write 0).waiters = [] ∧
     mapOk ((keyed s .write 0).engineMap 0 (.incoming (s.takeTlp .write 0).nextKey) .write [(((s.takeTlp .write 0).vf 0).winva.toNat + 0x40, 2)]) (fun _ _ => true) = true) ∧
    (let s := windowed .read 1 { addr := 0x40, len := 16 }
     s.arrived .read 1 = true ∧ s.port.inWindow 16 = true ∧ (((s.takeTlp .read 1).vf 0).winva.toNat + 0x40) % 64 + 16 ≤ 64 ∧ (s.takeTlp .read 1).waiters = [] ∧
     mapOk ((keyed s .read 1).engineMap 0 (.incoming (s.takeTlp .read 1).nextKey) .read [(((s.takeTlp .read 1).vf 0).winva.toNat + 0x40, 16)])
       (fun s2 pages => (s2.poisonIn pages [(((s.takeTlp .read 1).vf 0).winva.toNat + 0x40, 16)]).isNone) = true) ∧
    (∀ kind k, k = 0 ∧ kind = .fetchAdd ∨ k = 1 ∧ kind = .request →
     (let s := windowed kind 1 { addr := 0x40, ty := .n32 } k
      s.arrived kind 1 = true ∧ s.port.inWindow 4 = true ∧ (((s.takeTlp kind 1).vf 0).winva.toNat + 0x40) % 4 = 0 ∧ (s.takeTlp kind 1).waiters = [] ∧
      s.port.atomicOk = true ∧ s.queued s.port.link < 1024 ∧
      mapOk ((keyed s kind 1).engineMap 0 (.incoming (s.takeTlp kind 1).nextKey) .atomic [(((s.takeTlp kind 1).vf 0).winva.toNat + 0x40, 4)])
        (fun s2 pages => (s2.poisonIn pages [(((s.takeTlp kind 1).vf 0).winva.toNat + 0x40, 4)]).isNone) = true)) ∧
    (let s := windowed .write 0 { bar := 0, fn := 1, addr := 0x1010, data := List.replicate 8 0, len := 8 }
     s.arrived .write 0 = true ∧ s.port.inWindow 8 = false ∧ s.port.register? = some 0x1010 ∧ s.port.data.length = 8 ∧ s.waiters = []) ∧
    (let s := windowed .write 0 { bar := 0, fn := 1, addr := 0x1010, data := List.replicate 4 0, len := 4 }
     s.arrived .write 0 = true ∧ s.port.inWindow 4 = false ∧ s.port.register? = some 0x1010 ∧ s.port.data.length ≠ 8 ∧ 0x1010 < 2 ^ 20 ∧ s.waiters = []) ∧
    (let s := windowed .read 1 { bar := 0, fn := 1, addr := 0x1010, len := 8 }
     s.arrived .read 1 = true ∧ s.port.inWindow 8 = false ∧ s.port.register? = some 0x1010 ∧ s.waiters = []) ∧
    (let s := windowed .read 1 { bar := 0, fn := 65 }
     s.arrived .read 1 = true ∧ s.port.inWindow s.port.len = false ∧ s.port.register? = none ∧ s.waiters = []) ∧
    (let s := windowed .fetchAdd 1 { op := .fadd }
     s.port.op = .fadd ∧ s.arrived .fetchAdd 1 = true ∧ s.port.atomicOk = false) ∧
    (∀ posted, (windowed .other (if posted then 0 else 1) { posted }).arrived .other (if posted then 0 else 1) = true ∧
      (windowed .other (if posted then 0 else 1) { posted }).port.posted = posted) := by
  have w {s : State} (kind : TlpKind) (ch : Nat) (h : s.waiters = []) : (s.takeTlp kind ch).waiters = [] := (takeTlp_waiters s kind ch).trans h
  refine ⟨⟨standing_arrived _ _ _ _ (by decide) (by decide), by decide +kernel, by decide +kernel, w _ _ (by decide +kernel), by decide +kernel⟩,
    ⟨standing_arrived _ _ _ _ (by decide) (by decide), by decide +kernel, by decide +kernel, w _ _ (by decide +kernel), by decide +kernel⟩, ?_,
    ⟨standing_arrived _ _ _ _ (by decide) (by decide), by decide +kernel⟩, ⟨standing_arrived _ _ _ _ (by decide) (by decide), by decide +kernel⟩,
    ⟨standing_arrived _ _ _ _ (by decide) (by decide), by decide +kernel⟩, ⟨standing_arrived _ _ _ _ (by decide) (by decide), by decide +kernel⟩,
    ⟨rfl, standing_arrived _ _ _ _ (by decide) (by decide), by decide +kernel⟩, ?_⟩
  · rintro kind k (⟨rfl, rfl⟩ | ⟨rfl, rfl⟩) <;>
      exact ⟨standing_arrived _ _ _ _ (by decide) (by decide), by decide +kernel, by decide +kernel, w _ _ (by decide +kernel), by decide +kernel, by decide +kernel,
        by decide +kernel⟩
  · intro posted
    cases posted <;> exact ⟨standing_arrived _ _ _ _ (by decide) (by decide), rfl⟩

theorem witness_IncomingTransactions_rest :
    (let s := arrived (fun l => { l with aq := List.replicate 1024 { asking with kind := 3, port := { link := 1 } } }) {}
     1024 ≤ s.queued s.port.link) ∧
    (∀ k < 2, (windowed .config 1 {} k).arrived .config 1 = true ∧ (windowed .config 1 {} k).waiters = [] ∧ (windowed .config 1 {} k).port.link = k) ∧
    ((windowed .config 1 { fn := 64 }).bootDone = false ∧ (windowed .config 1 { fn := 64 }).port.fn ≤ 64) ∧
    (∀ write, write = none ∨ write = some (7 : Word32) →
     (let s := standing { bench with bootDone := true } 0 .config 1 { fn := 64, addr := 0x10, write } []
      s.arrived .config 1 = true ∧ s.waiters = [] ∧ s.port.fn ≤ 64 ∧ s.port.link = 0 ∧ s.bootDone = true ∧ Sparse.wf 0 (s.configOf s.port.fn) = true ∧
        s.port.write = write)) ∧ (7 : Word32).getLsbD 15 = false ∧
    (let s : State := { bench with incoming := [asking] }
     s.incoming = [asking] ∧ s.waiters = [asking]) ∧ (asking.asked = true ∧ asking.kind = 1) := by
  refine ⟨by decide +kernel, fun k hk => ⟨standing_arrived _ _ _ _ (by omega) (by decide), ?_, rfl⟩, by decide +kernel, ?_, by decide +kernel⟩
  · have : k = 0 ∨ k = 1 := by omega
    rcases this with rfl | rfl <;> decide +kernel
  · rintro write (rfl | rfl) <;> exact ⟨standing_arrived _ _ _ _ (by decide) (by decide), by decide +kernel⟩


/-- The boot at a step, begun or not, with what its journal holds there and whether the step takes its alternate path. -/
def booting (n : Nat) (j : Journal) (runs : Bool := false) (alt : Bool := false) : State :=
  { State.reset with bootStep := n, journal := tset State.reset.journal n j, bootRuns := runs, alt := tset State.reset.alt n alt }

theorem witness_BootAndMailbox :
    (∀ n < 9, ∀ j ∈ [Journal.none, .started, .done, .failed], ∀ runs alt, (booting n j runs alt).bootStep = n ∧ (booting n j runs alt).bootDone = false ∧
      (booting n j runs alt).bootStopped = none ∧ (booting n j runs alt).bootRuns = runs ∧ tget (booting n j runs alt).alt n false = alt ∧
      tget (booting n j runs alt).journal n .none = j) ∧
    ({ State.reset with bootDone := true } : State).bootDone = true ∧ ({ State.reset with bootStopped := some 7 } : State).bootStopped.isSome = true ∧
    ({ State.reset with mbBusy := true } : State).mbBusy = true ∧ State.reset.mbBusy = false ∧
    State.reset.mbAddr.toNat % 64 = 0 ∧ ({ State.reset with mbAddr := 8 } : State).mbAddr.toNat % 64 ≠ 0 :=
  ⟨by decide +kernel, rfl, rfl, rfl, rfl, by decide +kernel, by decide +kernel⟩

theorem witness_RegistersOfTheHost :
    (0xFFFFFFFFFFFFE000 : Word64).toNat % 8192 = 0 ∧ (0x10000 : Word64).toNat % 65536 = 0 ∧ (7 : Word64).toNat < 8 ∧ 0x1208 % 8 = 0 ∧ 65528 < 65536 ∧
    (0x80 : Word64).toNat % 128 = 0 ∧ (0xFFFFFFFF : Word64).toNat < 2 ^ 32 ∧ 2 ^ 32 ≤ (0x100000000 : Word64).toNat ∧ State.reset.isSlice 15 = true ∧
    (fused State.reset).isSlice 3 = false ∧ (31 : Word64).toNat < 32 := by decide +kernel

theorem witness_RoundingAndOverflow :
    (let f := fmtOf .e4m3
     (0 < 1 ∧ 1 ≤ f.maxBits) ∧ (1 < f.maxBits ∧ f.magOf 1 < 3 / 1024 ∧ 3 / 1024 < f.magOf 2) ∧ (f.maxFin < 480 ∧ f.magOf (f.maxBits + 1) ≤ 480) ∧
     (f.maxFin < 460 ∧ 460 < f.magOf (f.maxBits + 1) ∧ ¬(f.magOf f.maxBits + f.magOf (f.maxBits + 1) ≤ 2 * 460))) := by decide +kernel

theorem witness_DecodeOfEncode :
    (Instr.iadd {} ⟨1, r 2, r 3, false, true, .i8⟩).wf = true ∧ encode (.iadd {} ⟨1, r 2, r 3, false, true, .i8⟩) = some [0x201303F0, 0x40004060] := by decide +kernel

def goesNext (x : Out) (p : State → Bool) : Bool := match x with | .next s => p s | _ => false

theorem goesNext_spec {x : Out} {p : State → Bool} (h : goesNext x p = true) : ∃ s, x = .next s ∧ p s = true := by
  cases x with
  | next s => exact ⟨s, rfl, h⟩
  | fault => cases h
  | refused => cases h

/-- The machine with a `nop`, or a `fadd` of three units, before it, and the turn that issues it. -/
def atNop : State := State.reset.withFetchWord 64 0x27F0

def atFadd : State := State.reset.withFetchWord 96 0x0003C0D02044003C00000401

def turned (s : State) : State := { s with tape := [], steps := s.steps + 1 }

def decodes (x : Except Reject (Instr × Nat)) : Bool := match x with | .ok _ => true | .error _ => false

/-- The turn that a state takes, as the statement lays it out: its record in a recording slice comes first. -/
def begun (s : State) (t : Turn) : State := match (turned s).turnSlice t with | some gr => (turned s).logTurn gr t | none => turned s

/-- The turn of this issue goes through to its end. -/
def issues (s1 : State) (i : Instr) : Bool :=
  match (s1.tryStop 1).select 1 false with
  | some t => t.mayGo && decide (t.cur.me.blk.entry = .none) && !t.atItem.cur.me.skip && !t.cur.watchHit &&
      okWith t.fetchItem fun x => decide (x.2 = i) && goesNext (exec i x.1) fun v => goesNext ((v.unstarted t.cur false).settleTurn) fun _ => true
  | none => false

/-- A turn that is this event goes through to its end. -/
def happens (i : Instr) : Bool := goesNext (exec i { begun { bench with tape := [.event i {}] } (.event i {}) with port := {} }) fun v => goesNext v.settleTurn fun _ => true

theorem witness_StepRunsTheDecoded :
    (atNop.tape = [.issue 1 false] ∧ (begun atNop (.issue 1 false)).mayIssue 1 false false = true ∧ (turned atNop).turnSlice (.issue 1 false) = some 0 ∧
      issues (begun atNop (.issue 1 false)) (.nop {}) = true) ∧
    ((∃ s : State, s.cur.atHeader s.cur.sel1 = true) ∧ bench.cur.atHeader bench.cur.sel1 = false) ∧
    (2 ≤ (atNop.atItem.cur.me.blk.bend - atNop.atItem.cur.me.pc).toNat ∧ ∃ x, atNop.atItem.fetchUnit atNop.atItem.cur.me.pc.toNat = .ok x ∧
      (decide (unitKind x.2 = 0) && okWith (x.1.fetchUnit (atNop.atItem.cur.me.pc.toNat + 1)) fun y =>
        decodes (decodeUnits (atNop.atItem.cur.me.blk.bend - atNop.atItem.cur.me.pc).toNat x.2 y.2 0)) = true) ∧
    (3 ≤ (atFadd.atItem.cur.me.blk.bend - atFadd.atItem.cur.me.pc).toNat ∧ ∃ x, atFadd.atItem.fetchUnit atFadd.atItem.cur.me.pc.toNat = .ok x ∧
      (decide (unitKind x.2 = 1) && okWith (x.1.fetchUnit (atFadd.atItem.cur.me.pc.toNat + 1)) fun y => decide (unitKind y.2 = 0) &&
        okWith (y.1.fetchUnit (atFadd.atItem.cur.me.pc.toNat + 2)) fun z =>
          decodes (decodeUnits (atFadd.atItem.cur.me.blk.bend - atFadd.atItem.cur.me.pc).toNat x.2 y.2 z.2)) = true) ∧
    (∀ i, i = .bootStep true ∨ i = .commitPark 1 → Instr.opcode i = none ∧ Instr.arrives i = false ∧ happens i = true) ∧
    ((turned bench).turnSlice (.event (.bootStep true) {}) = none ∧ (turned bench).turnSlice (.event (.commitPark 1) {}) = some 0) ∧
    ((∀ g ∈ bench.allGroups, g.recs = []) ∧ bench.incoming = [] ∧ ∀ l ∈ bench.links.toList, ∀ c < 3, tget l.tx c [] = []) := by
  refine ⟨⟨rfl, by decide +kernel, by decide +kernel, by decide +kernel⟩,
    ⟨⟨bench.setCur (bench.cur.setMe { bench.cur.me with pc := bench.cur.me.blk.hdr }), by decide +kernel⟩, by decide +kernel⟩,
    ⟨by decide +kernel, okWith_spec (by decide +kernel)⟩, ⟨by decide +kernel, okWith_spec (by decide +kernel)⟩, ?_, by decide +kernel, by decide +kernel⟩
  rintro i (rfl | rfl) <;> exact ⟨rfl, rfl, by decide +kernel⟩

/-- The bench with its block ending after the next instruction. -/
def atEnd : State := bench.setCur (bench.cur.setMe { bench.cur.me with blk := { hdr := 16, bend := 20 } })

theorem witness_EndOfBlock :
    RegisterForm (.iadd {} ⟨1, r 2, r 3, false, true, .i8⟩) {} ∧ Clear (.iadd {} ⟨1, r 2, r 3, false, true, .i8⟩) {} false atEnd atEnd ∧
    atEnd.cur.me.pc + BitVec.ofNat 32 2 = atEnd.cur.me.blk.bend ∧ (30 : Word32) ≠ atEnd.cur.me.blk.bend ∧
    (∃ t, exec (.iadd {} ⟨1, r 2, r 3, false, true, .i8⟩) (atEnd.setCur (atEnd.cur.setMe { atEnd.cur.me with blk := { atEnd.cur.me.blk with bend := 30 } })) = .next t ∧
      goesNext ((t.setCur (t.cur.setMe { t.cur.me with blk := { atEnd.cur.me.blk with entry := if t.cur.me.pc.toNat % 2 = 1 then .pad else .fall } })).makeEntry atEnd.cur.sel1)
        (fun w => (w.mirrorStop atEnd.cur).isNone) = true) ∧
    ((∃ u, MemoryIssue (.ld {} ⟨5, r 4, some (r 2), 64, .dflt, .x1, .b32⟩) {} atEnd u) ∧ Clear (.ld {} ⟨5, r 4, some (r 2), 64, .dflt, .x1, .b32⟩) {} false atEnd atEnd ∧
      atEnd.pathFree .load = .ok () ∧
      ∃ t, exec (.ld {} ⟨5, r 4, some (r 2), 64, .dflt, .x1, .b32⟩) (atEnd.setCur (atEnd.cur.setMe { atEnd.cur.me with blk := { atEnd.cur.me.blk with bend := 30 } })) = .next t ∧
        goesNext ((t.setCur (t.cur.setMe { t.cur.me with blk := { atEnd.cur.me.blk with entry := if t.cur.me.pc.toNat % 2 = 1 then .pad else .fall } })).makeEntry atEnd.cur.sel1)
          (fun w => (w.mirrorStop atEnd.cur).isNone) = true) := by
  obtain ⟨s2, accs, h⟩ := goes (x := atEnd.accept atEnd.cur.vf .read (tyBytes .b32 * RegCnt.num .x1) true
    (atEnd.cur.laneReqs {} true (atEnd.cur.globalVa {} (r 4) (some (r 2)) 64))) (by decide +kernel)
  exact ⟨.int _ _ _ _ _ _ (.iadd _ _), clear_of (by decide +kernel), by decide +kernel, by decide +kernel, goesNext_spec (by decide +kernel),
    ⟨_, .ld {} ⟨5, r 4, some (r 2), 64, .dflt, .x1, .b32⟩ atEnd s2 accs h⟩, clear_of (by decide +kernel), goesUnit (by decide +kernel), goesNext_spec (by decide +kernel)⟩

theorem witness_GroupsStaySound :
    (RegisterForm (.iadd {} ⟨1, r 2, r 3, false, true, .i8⟩) {} ∧ Ready (.iadd {} ⟨1, r 2, r 3, false, true, .i8⟩) {} bench bench ∧
      ∃ t, exec (.iadd {} ⟨1, r 2, r 3, false, true, .i8⟩) bench = .next t ∧ (fun _ => true) t = true) ∧
    ((∃ u, MemoryIssue (.st {} ⟨5, r 4, none, 64, .dflt, .x4, .b64⟩) {} bench u) ∧ Ready (.st {} ⟨5, r 4, none, 64, .dflt, .x4, .b64⟩) {} bench bench ∧
      bench.pathFree .store = .ok () ∧ ∃ t, exec (.st {} ⟨5, r 4, none, 64, .dflt, .x4, .b64⟩) bench = .next t ∧ (fun _ => true) t = true) ∧
    bench.cur.Sound ∧ (∃ s1, bench.takePark true = some s1 ∧ (fun _ => true) s1 = true) ∧ (∀ g ∈ bench.cur :: bench.groups, g.Sound) ∧
    (∃ t, exec (.commitPark 1) bench = .next t ∧ (fun _ => true) t = true) := by
  obtain ⟨s2, accs, h⟩ := goes (x := bench.accept bench.cur.vf .write (tyBytes .b64 * RegCnt.num .x4) false
    (bench.cur.laneReqs {} false (bench.cur.globalVa {} (r 4) none 64))) (by decide +kernel)
  exact ⟨⟨.int _ _ _ _ _ _ (.iadd _ _), ready_of (by decide +kernel), goesNext_spec (by decide +kernel)⟩,
    ⟨⟨_, .st {} ⟨5, r 4, none, 64, .dflt, .x4, .b64⟩ bench s2 accs h⟩, ready_of (by decide +kernel), goesUnit (by decide +kernel), goesNext_spec (by decide +kernel)⟩,
    by decide +kernel, someWith_spec (by decide +kernel), by decide +kernel, goesNext_spec (by decide +kernel)⟩

theorem witness_MemoryKeepsItsForm :
    Memory.wf bench.mem ∧ (∀ a, Memory.read bench.mem a = Memory.read bench.mem a) ∧
    (∃ t, exec (.storePerformed 1 0) (flying .store storeOp) = .next t ∧ (fun _ => true) t = true) ∧ Memory.wf (flying .store storeOp).mem ∧
    (∃ t, exec (.sliceTick 0) bench = .next t ∧ (fun _ => true) t = true) ∧ copyingIn.TilesWf ∧
    (∃ t, exec (.copyByteCount 1 0 0) copyingIn = .next t ∧ (fun _ => true) t = true) := by
  have tiles : ∀ w ∈ copyingIn.wgs, ∀ h < 32, Sparse.wf 0 (tget w.handles h {}).bytes = true := by decide +kernel
  exact ⟨by decide +kernel, fun _ => rfl, goesNext_spec (by decide +kernel), by decide +kernel, goesNext_spec (by decide +kernel), tiles, goesNext_spec (by decide +kernel)⟩

/-! ### The clauses of one statement that the theorems above leave -/

/-- Operands of every kind that the clauses on values tell apart: NaNs, infinities, zeros and numbers of each sign, and a subnormal that is flushed. -/
theorem witness_FloatResults_values :
    (let x (a : Nat) (neg : Bool := false) := operand {} .f32 neg a
     (x 0x7FC00000).isNan = true ∧ (x 0x7F800001).isNan = true ∧ (x 0x3F800000).isNan = false ∧ x 0x7F800000 = .inf false ∧ x 0x7F800000 true = .inf true ∧
     x 0 = .num false 0 ∧ x 0x80000000 = .num true 0 ∧ x 0x3F800000 = .num false 1 ∧ x 0xBFC00000 = .num true (3 / 2) ∧ (1 : Rat) ≠ 0) ∧
    operand { ftzs := true } .f32 false 0x80000001 = .num true 0 ∧ Ty.f32 ∈ fpTypes ∧ Ty.f64 ∈ fpTypes ∧ 31 ≤ (fmtOf .f16).emax ∧ 1023 < 2 ^ (fmtOf .f16).mbits := by
  decide +kernel

theorem witness_ConversionsAndFunctions_values :
    (Ty.i8.isInt = true ∧ Ty.n16.isInt = true ∧ Ty.bf16.isF = true ∧ Ty.f64.isF = true) ∧
    ((operand {} .e4m3 false 0x7F).isNan = true ∧ (fmtOf .f32).nan = true ∧ (fmtOf .e2m1).nan = false ∧ operand {} .e5m2 false 0xFC = .inf true ∧
      operand {} .f32 false 0x40200000 = .num false (5 / 2) ∧ operand {} .f32 false 0xBF800000 = .num true 1) ∧
    ((0xFF : Nat) < 256 ∧ (0x80 : Nat) ≠ 0xFF) ∧
    ((operand {} .f32 false 0x7FC00000).isNan = true ∧ operand {} .f32 false 0xFF800000 = .inf true ∧ operand {} .f32 false 0 = .num false 0 ∧
      operand {} .f32 false 0x7F800000 = .inf false ∧ operand {} .f32 false 0x3FC00000 = .num false (3 / 2) ∧ (2 : Rat) ^ (0 : Int) ≤ 3 / 2 ∧ (3 / 2 : Rat) < 2 ^ (1 : Int) ∧
      (127 : Int) < 127 + 1 ∧ (-127 - 1 : Int) < -127 ∧ (-127 : Int) ≤ -127 ∧ (127 : Int) ≤ 127) := by
  decide +kernel

/-- 2 has no rational square root. -/
theorem two_irrational (p : Rat) : p * p ≠ 2 := by
  intro h
  have : IsSquare ((2 : ℕ) : Rat) := ⟨p, by exact_mod_cast h.symm⟩
  rw [Rat.isSquare_natCast_iff] at this
  exact absurd this (by decide +kernel)

theorem witness_ConversionsAndFunctions_roots :
    (let x (a : Nat) := operand {} .f16 false a
     x 0x4400 = .num false 4 ∧ (0 : Rat) < 2 ∧ (2 : Rat) * 2 = 4 ∧ (0 : Rat) < 1 / 2 ∧ (1 / 2 : Rat) * (1 / 2) * 4 = 1 ∧ x 0x4000 = .num false 2 ∧
     (∀ p : Rat, p * p ≠ 2) ∧ (∀ p : Rat, p * p * 2 ≠ 1) ∧
     (let f := fmtOf .f16
      0x3DA8 < f.maxBits ∧ f.magOf 0x3DA8 * f.magOf 0x3DA8 < 2 ∧ 2 < f.magOf (0x3DA8 + 1) * f.magOf (0x3DA8 + 1) ∧
      0x39A8 < f.maxBits ∧ f.magOf 0x39A8 * f.magOf 0x39A8 * 2 < 1 ∧ 1 < f.magOf (0x39A8 + 1) * f.magOf (0x39A8 + 1) * 2) ∧
     x 0x4800 = .num false 8 ∧ (2 : Rat) ^ (3 : Int) = 8 ∧ x 0xC200 = .num true 3 ∧ signed true 3 = (-3 : Int) ∧ (-3 : Int).natAbs < 5000 ∧
     operand {} .f32 false 0x459C4000 = .num false 5000 ∧ signed false 5000 = (5000 : Int) ∧ signed true 5000 = (-5000 : Int)) := by
  refine ⟨by decide +kernel, by norm_num, by norm_num, by norm_num, by norm_num, by decide +kernel, two_irrational, fun p h => two_irrational (2 * p) (by linarith), ?_, ?_, ?_, ?_, ?_, ?_, ?_, ?_, ?_⟩
  all_goals decide +kernel

theorem witness_ReductionsAndScans_steps :
    (Ty.i16.isInt = true ∧ (0xFFFF : Nat) < 2 ^ Ty.i16.width) ∧ Ty.f16.isF = true ∧ bench.cur.active offCtl = 0 ∧
    Ready (.red offCtl ⟨.maxidx, false, 6, r 31, .f32⟩) offCtl bench bench := ⟨by decide, by decide, by decide +kernel, ready_of (by decide +kernel)⟩

theorem witness_RoundingAndOverflow_tiny :
    (let f := fmtOf .f16
     let edge : Rat := f.minNormal / 2 ^ (f.mbits + 1)
     let tiny (q : Rat) : Prop := q < f.minNormal ∧ (q ≤ f.minNormal - edge ∨ takesUpper .rne false true (f.minNormal - edge) f.minNormal q = false)
     tiny (f.minNormal / 2) ∧ (0 : Rat) < f.minNormal / 2 ∧ tiny (f.minNormal - edge) ∧ ¬tiny f.minNormal ∧ ¬tiny (f.minNormal - edge / 4) ∧ f.minNormal ≤ f.maxFin ∧ f.inf = true ∧
     f.nan = true ∧ f.maxBits ≤ f.maxBits) := by
  decide +kernel

/-- A change to the group of a state. -/
def cur' (s : State) (f : Group → Group) : State := s.setCur (f s.cur)

/-- States at which instructions raise their causes: a block whose reconvergence field names an odd unit; a split table that is full; deep stacks; a failed
handle and a tile of the core; lane 31 at the end of a tile; a short ring; a gang of two with one workgroup. -/
def oddTarget : State := cur' coded fun g => g.setMe { g.me with blk := { g.me.blk with rc := 1 } }
def fullTable : State := cur' coded fun g => { g with split := tableOf 256 { valid := true, parent := 0 } }
def deepStack (n : Nat) : State :=
  cur' coded fun g => { g with stack := List.replicate n { wait := false, parent := 0, mask := 0, reconv := allLanes, pc := 16 } }
def lostTile : State := (tiled.updHandle 1 6 fun _ => { st := .failed }).updHandle 1 5 fun _ => { st := .allocated, kind := .data, clus := false, rowb := 64, rows := 1 }
def edgeTile : State := cur' tiled fun g => { g with v := tset g.v 2 (Lanes.gen fun l => if l = 31 then 16369 else 16368) }
def edgeOp : TileOp := ⟨5, 1, r 2, 0, none, .x2, .b64⟩
def shortRing : State := tiled.updHandle 1 3 fun t => { t with rows := 31 }
def halfGang : State := cur' tiled fun g => { g with gangN := 2 }

theorem targetOk (s : State) (p : State → Bool) (h : okWith (s.checkTarget 16) p = true) : ∃ s2, s.checkTarget 16 = .ok s2 ∧ p s2 = true := okWith_spec h

theorem witness_AccessChecks_branches :
    Raises (.call {} 0x7FFFFFF) {} bench .badTarget 0 ∧ Raises (.br {} 0) {} coded .badTarget 0 ∧ Raises (.jmp {} (r 4)) {} (setS bench [(4, 2 ^ 32)]) .badTarget 0 ∧
    Raises (.ret {}) {} bench .badTarget 0 ∧ Raises (.brc { guard := 1 } 0x7FFFFFE) { guard := 1 } oddTarget .badTarget 0 ∧
    Raises (.brc { guard := 1 } 0x7FFFFFE) { guard := 1 } fullTable .divergeDepth 0 ∧
    Raises (.brc { guard := 1 } 0x7FFFFFE) { guard := 1 } (deepStack 257) .divergeDepth 0 ∧ Raises (.call {} 0x7FFFFFE) {} (deepStack 256) .divergeDepth 0 := by
  have split (s : State) (ht : s.cur.target 0x7FFFFFE = 16) (h : okWith (s.checkTarget 16) (fun s2 =>
      decide (s2.cur.me.mask &&& s2.cur.guardLanes { guard := 1 } ≠ 0) && decide (s2.cur.me.mask &&& s2.cur.guardLanes { guard := 1 } ≠ s2.cur.me.mask) &&
      decide (s2.cur.me.blk.rc = 0) && !s2.cur.divTouched && (((List.range 256).all fun n => n == 0 || (tget s2.cur.split n {}).valid) ||
      decide (256 < s2.cur.stack.length + (if s2.cur.me.reconv = noTarget then 0 else 1) + (if (s2.cur.slot (!s2.cur.sel1)).st = .empty then 0 else 1)))) = true) :
      Raises (.brc { guard := 1 } 0x7FFFFFE) { guard := 1 } s .divergeDepth 0 := by
    obtain ⟨s2, h, hp⟩ := okWith_spec h
    simp only [Bool.and_eq_true, Bool.or_eq_true, decide_eq_true_eq, Bool.not_eq_true', List.all_eq_true, List.mem_range, beq_iff_eq] at hp
    obtain ⟨⟨⟨⟨a, b⟩, c⟩, d⟩, e⟩ := hp
    exact .split _ _ _ s2 s2 (by rw [ht]; exact h) ⟨a, b⟩ (by rw [if_pos c]) d (e.imp (fun f n x y => (f n y).resolve_left (by omega)) id)
  refine ⟨.target _ _ _ _ (.call _ _) (.inl (by unfold offHeader; decide +kernel)), .target _ _ _ _ (.br _ _) (.inr ⟨by unfold offHeader; decide +kernel, ?_⟩), .jmp _ _ _ (.inl (by decide +kernel)),
    .ret _ _ (by decide +kernel) (by decide +kernel) (by decide +kernel), ?_, split _ (by decide +kernel) (by decide +kernel), split _ (by decide +kernel) (by decide +kernel), ?_⟩
  · obtain ⟨⟨s2, u⟩, h, hp⟩ := okWith_spec (x := coded.fetchUnit (coded.cur.target 0)) (p := fun x => decide (unitKind x.2 ≠ 2)) (by decide +kernel)
    exact ⟨s2, u, h, by simpa using hp⟩
  · obtain ⟨s2, h, hp⟩ := okWith_spec (x := oddTarget.checkTarget (oddTarget.cur.target 0x7FFFFFE)) (p := fun s2 =>
      decide (s2.cur.me.mask &&& s2.cur.guardLanes { guard := 1 } ≠ 0) && decide (s2.cur.me.mask &&& s2.cur.guardLanes { guard := 1 } ≠ s2.cur.me.mask) &&
      decide (s2.cur.me.blk.rc ≠ 0) && decide (reconvOf s2.cur % 2 = 1)) (by decide +kernel)
    simp only [Bool.and_eq_true, decide_eq_true_eq] at hp
    exact .reconv _ _ _ s2 h ⟨hp.1.1.1, hp.1.1.2⟩ hp.1.2 (.inl (.inl hp.2))
  · obtain ⟨s2, h, hp⟩ := okWith_spec (x := (deepStack 256).checkTarget ((deepStack 256).cur.target 0x7FFFFFE)) (p := fun s2 =>
      s2.cur.passes {} && !s2.cur.divTouched && decide (256 ≤ s2.cur.stack.length)) (by decide +kernel)
    simp only [Bool.and_eq_true, Bool.not_eq_true', decide_eq_true_eq] at hp
    exact .call _ _ _ s2 h hp.1.1 hp.1.2 hp.2

theorem witness_AccessChecks_causes :
    (Raises (.mxreq {} 2) {} (reserved 0) .mxReserve 0 ∧ Raises (.mxrel {} 2) {} bench .mxReserve 0 ∧ Raises (.mxzero {} 2) {} bench .mxReserve 0 ∧
      Raises (.mxmma {} ⟨2, .reg (r 16), .reg (r 24), false, 1, .e4m3, .e4m3⟩) {} bench .mxReserve 0 ∧ Raises (.mxdrn {} ⟨40, 2, false⟩) {} (reserved 64) .mxReserve 0) ∧
    (Raises (.ldt {} ⟨5, 6, r 2, 0, none, .x2, .b64⟩) {} tiled .tileKind 0 ∧ Raises (.stt {} ⟨5, 2, r 2, 0, none, .x2, .b64⟩) {} tiled .tileKind 0 ∧
      Raises (.append {} ⟨5, 6, r 2, .b32⟩) {} lostTile .tileBounds 0 ∧ Raises (.ringPop {} ⟨8, 3, some 1⟩) {} tiled .tileBounds 0 ∧
      Raises (.ringPush {} ⟨3, r 6, some 1⟩) {} halfGang .tileKind 0 ∧ Raises (.ldt {} ⟨5, 5, r 2, 0, some 0, .x1, .b8⟩) {} lostTile .tileKind 0 ∧
      Raises (.ldt {} ⟨5, 6, r 2, 0, some 0, .x1, .b8⟩) {} lostTile .tileBounds 0) ∧
    Raises (.ldt {} edgeOp) {} edgeTile .tileBounds (edgeTile.cur.tileOff {} edgeOp.b edgeOp.off 31) ∧
    (Raises (.tbarArv {} (.tile 6)) {} tiled .tileKind 0 ∧ Raises (.tbarTestPh {} ⟨4, .peer 1 0, .imm true⟩) {} tiled .tileKind 0 ∧
      Raises (.tbarExp {} ⟨.tile 4, r 5⟩) {} tiled .barrierState 0 ∧ Raises (.tbarWait {} ⟨.tile 4, .imm true⟩) {} tiled .barrierState 0 ∧
      Raises (.tbarInit {} ⟨.tile 4, r 5⟩) {} tiled .barrierState 0 ∧ Raises (.tbarInit {} ⟨.tile 2, r 5⟩) {} barring .barrierState 0) ∧
    (Raises (.talloc {} ⟨1, r 2, true, .data⟩) {} tiled .tileKind 0 ∧ Raises (.talloc {} ⟨7, r 2, true, .data⟩) {} tiled .tileBounds 0 ∧
      Raises (.tfree {} 7) {} tiled .tileKind 0 ∧ Raises (.ringPush {} ⟨3, r 6, none⟩) {} shortRing .tileBounds 0) ∧
    (Raises (.strl {} ⟨5, r 4, none, 0, .s, .b8⟩) {} bench .scopeDenied 0 ∧ Raises (.fence {} ⟨.rel, .s⟩) {} bench .scopeDenied 0 ∧
      Raises (.cpyIn {} ⟨1, r 8, some 2⟩) {} bench .copyRights 0) := by
  have bar (s : State) (b : BarRef) (p : State × BarLoc → Bool) (h : okWith (s.barAt {} b) p = true) : ∃ s2 l, s.barAt {} b = .ok (s2, l) ∧ p (s2, l) = true := by
    obtain ⟨⟨s2, l⟩, h⟩ := okWith_spec h; exact ⟨s2, l, h⟩
  refine ⟨⟨.mxreq _ _ _ (by decide +kernel) (by decide +kernel), .mxrel _ _ _ (by decide +kernel) (by decide +kernel),
      .mxzero _ _ _ (by decide +kernel) (goesUnit (by decide +kernel)) (by decide +kernel), .mxmma _ _ _ (by decide +kernel) (goesUnit (by decide +kernel)) (by decide +kernel),
      .mxdrn _ _ _ (by decide +kernel) (goesUnit (by decide +kernel)) (by decide +kernel)⟩,
    ⟨.laneTile _ _ _ _ _ _ _ _ (.ldt _ _) (by decide +kernel) (fun q e => by cases e; exact goesUnit (by decide +kernel)) (.own _ (.free (by decide +kernel) (by decide +kernel))),
      .laneTile _ _ _ _ _ _ _ _ (.stt _ _) (by decide +kernel) (fun q e => by cases e; exact goesUnit (by decide +kernel)) (.own _ (.kind (by decide +kernel) (by decide +kernel) (by decide +kernel))),
      .laneTile _ _ _ _ _ _ _ _ (.append _ _) (by decide +kernel) (fun q e => by cases e; exact goesUnit (by decide +kernel)) (.own _ (.failed (by decide +kernel) (by decide +kernel))),
      .laneTile _ _ _ _ _ _ _ _ (.ringPop _ _) (by decide +kernel) (fun q e => by cases e) (.far _ (by decide +kernel)),
      .laneTile _ _ _ _ _ _ _ _ (.ringPush _ _) (by decide +kernel) (fun q e => by cases e) (.gone _ (by decide +kernel) (by decide +kernel)),
      .laneTile _ _ _ _ _ _ _ _ (.ldt _ _) (by decide +kernel) (fun q e => by cases e; exact goesUnit (by decide +kernel))
        (.level _ 1 (by decide +kernel) (by decide +kernel) ⟨by decide +kernel, by decide +kernel, by decide +kernel⟩ (by decide +kernel) (by decide)),
      .laneTile _ _ _ _ _ _ _ _ (.ldt _ _) (by decide +kernel) (fun q e => by cases e; exact goesUnit (by decide +kernel))
        (.peer _ 1 _ (by decide +kernel) (by decide +kernel) (.failed (by decide +kernel) (by decide +kernel)))⟩, ?_,
    ⟨.tbarTile _ _ _ _ _ _ _ _ (.tbarArv _ _) (.tile _) (by decide +kernel) (.own _ (.free (by decide +kernel) (by decide +kernel))),
      .tbarTile _ _ _ _ _ _ _ _ (.tbarTestPh _ _) (.peer _ _) (by decide +kernel)
        (.peer _ 1 _ (by decide +kernel) (by decide +kernel) (.kind (by decide +kernel) (by decide +kernel) (by decide +kernel))), ?_, ?_, ?_, ?_⟩,
    ⟨.talloc _ _ _ (by decide +kernel) (by decide +kernel), .shape _ _ _ (by decide +kernel) (by decide +kernel) (by decide +kernel),
      .tfree _ _ _ (by decide +kernel) (by decide +kernel), ?_⟩,
    .scope _ _ _ _ _ (.strl _ _) (by decide +kernel) rfl (by decide +kernel), .fence _ _ _ (by decide +kernel) rfl (by decide +kernel),
    .rights _ _ _ (.cpyIn _ _) (by decide +kernel) (goesUnit (by decide +kernel)) (by decide +kernel)⟩
  · obtain ⟨⟨wg, t⟩, h, hp⟩ := okWith_spec (x := edgeTile.tileNamed (edgeTile.cur.rA {} edgeOp.h) edgeOp.peer .data)
      (p := fun x => decide (x.2.size < edgeTile.cur.tileOff {} edgeOp.b edgeOp.off 31 + tyBytes edgeOp.ty * edgeOp.cnt.num) && (List.range 31).all fun k => decide (edgeTile.cur.tileOff {} edgeOp.b edgeOp.off k + tyBytes edgeOp.ty * edgeOp.cnt.num ≤ x.2.size)) (by decide +kernel)
    simp only [Bool.and_eq_true, decide_eq_true_eq, List.all_eq_true, List.mem_range] at hp
    exact .bounds _ _ _ _ _ wg t 31 (.ldt _ _) (by decide +kernel) (goesUnit (by decide +kernel)) h (by decide +kernel) (by decide) hp.1 fun k hk _ => hp.2 k hk
  · obtain ⟨s2, l, h, hp⟩ := bar tiled (.tile 4) (fun x => (x.1.readBar x.2).unarmed) (by decide +kernel)
    exact .unarmed _ _ _ _ _ s2 l (.tbarExp _ _) (by decide +kernel) h (by simpa using hp)
  · obtain ⟨s2, l, h, hp⟩ := bar tiled (.tile 4) (fun x => (x.1.readBar x.2).unarmed) (by decide +kernel)
    exact .waitUnarmed _ _ _ s2 l (by decide +kernel) (by decide +kernel) h (by simpa using hp)
  · obtain ⟨s2, l, h, hp⟩ := bar tiled (.tile 4) (fun x => decide ((x.1.cur.uniB {} (r 5)).toNat = 0)) (by decide +kernel)
    exact .init _ _ _ s2 l (by decide +kernel) h (.inl (by simpa using hp))
  · obtain ⟨s2, l, h, hp⟩ := bar barring (.tile 2) (fun x => (x.1.readBar x.2).armed) (by decide +kernel)
    exact .init _ _ _ s2 l (by decide +kernel) h (.inr (.inr (by simpa using hp)))
  · obtain ⟨⟨k, t⟩, h, hp⟩ := okWith_spec (x := shortRing.tileNamed (shortRing.cur.rA {} 3) none .ring)
      (p := fun x => decide (x.2.rows < (lanesOf (shortRing.cur.active {})).length)) (by decide +kernel)
    exact .ringFull _ _ _ k t (by decide +kernel) h (by simpa using hp)

/-- The line without write permission, and the line poisoned; a malformed leaf, and an address without a page. -/
def sealed : State := setS { bench with l2 := [{ line4 with attr := { line4.attr with w := false } }] } [(4, 0x100)]
def tainted : State := setS { lined with poison := [4] } [(4, 0x100)]
def broken : State := setS { bench with mem := Memory.writeN bench.mem 0x60000 (bytesLE 8 0x3F) } [(4, 0x100)]
def beyond : State := setS bench [(4, 0x40000000)]
def stale (w : Nat) : State := tiled.updHandle 1 1 fun t => { t with poison := [w] }

/-- What stops an access, as a computation. -/
def stopIs {α : Type} (x : M α) (p : Stop → Bool) : Bool := match x with | .error e => p e | .ok _ => false

theorem stopIs_spec {α : Type} {x : M α} {e : Stop} (h : stopIs x (fun a => match a, e with
    | .trap c v, .trap d w => c == d && v == w
    | .xlate a b c d, .xlate e f g h => a == e && b == f && c == g && d == h
    | .malformed a b, .malformed c d => a == c && b == d
    | .poison a b, .poison c d => a == c && b == d
    | _, _ => false) = true) : x = .error e := by
  cases x with
  | ok a => cases h
  | error a => cases a <;> cases e <;> simp_all [stopIs]

theorem witness_AccessChecks_accesses :
    (∀ q ∈ [({ lane := 0, va := 0x108 } : LaneReq)], q.helper = false ∧ q.va % 8 = 0 ∧ q.va < 2 ^ 57 ∧
      (∃ l, sealed.l2.find? (fun m => m.vf = 0 && m.line = q.va / 64) = some l ∧ l.attr.permits .write = false) ∧
      ∃ l, tainted.l2.find? (fun m => m.vf = 0 && m.line = q.va / 64) = some l ∧ l.attr.permits .read = true ∧
        tainted.poisoned (Loc.mk (64 * l.pa) l.attr.comp l.attr.watch l.attr.gpage + q.va % 64) = true) ∧
    Accesses (.sst {} ⟨r 4, r 5, 8, .b64⟩) {} sealed .store (sealed.accept 0 .write 8 false [{ lane := 0, va := 0x108 }]) ∧
    sealed.accept 0 .write 8 false [{ lane := 0, va := 0x108 }] = .error (.trap .perm 0x108) ∧
    beyond.accept 0 .write 8 false [{ lane := 0, va := 0x40000008 }] = .error (.xlate false 16384 .write 0x40000008) ∧
    broken.accept 0 .write 8 false [{ lane := 0, va := 0x108 }] = .error (.malformed 0x60000 0x108) ∧
    Accesses (.sld {} ⟨5, r 4, 8, .b64⟩) {} tainted .load (tainted.accept 0 .read 8 true [{ lane := 0, va := 0x108 }]) ∧
    tainted.accept 0 .read 8 true [{ lane := 0, va := 0x108 }] = .error (.poison 4 0x108) ∧
    Clear (.sst {} ⟨r 4, r 5, 8, .b64⟩) {} false sealed sealed ∧ sealed.pathFree .store = .ok () ∧ Clear (.sst {} ⟨r 4, r 5, 8, .b64⟩) {} false beyond beyond ∧
    Clear (.sst {} ⟨r 4, r 5, 8, .b64⟩) {} false broken broken ∧ Clear (.sld {} ⟨5, r 4, 8, .b64⟩) {} false tainted tainted ∧ tainted.pathFree .load = .ok () := by
  refine ⟨?_, ?_, stopIs_spec (by decide +kernel), stopIs_spec (by decide +kernel), stopIs_spec (by decide +kernel), ?_, stopIs_spec (by decide +kernel),
    clear_of (by decide +kernel), goesUnit (by decide +kernel), clear_of (by decide +kernel), clear_of (by decide +kernel), clear_of (by decide +kernel),
    goesUnit (by decide +kernel)⟩
  · intro q hq
    simp only [List.mem_singleton] at hq
    subst hq
    exact ⟨rfl, by decide, by decide, ⟨_, rfl, by decide +kernel⟩, ⟨_, rfl, by decide +kernel, by decide +kernel⟩⟩
  · have h := Accesses.sst {} ⟨r 4, r 5, 8, .b64⟩ sealed (by decide +kernel)
    have e : sealed.cur.uniVa {} (r 4) 8 = 0x108 := by decide +kernel
    have v : sealed.cur.vf = 0 := by decide +kernel
    rw [e, v] at h
    exact h
  · have h := Accesses.sld {} ⟨5, r 4, 8, .b64⟩ tainted (by decide +kernel)
    have e : tainted.cur.uniVa {} (r 4) 8 = 0x108 := by decide +kernel
    have v : tainted.cur.vf = 0 := by decide +kernel
    rw [e, v] at h
    exact h

def pastOp : TileOp := ⟨5, 1, r 2, 8, none, .x1, .b64⟩

theorem witness_AccessChecks_poison :
    ReadsPoison (.ldt {} pastOp) {} (stale 1) ((stale 1).cur.tileOff {} pastOp.b pastOp.off 0) ∧ ReadsPoison (.append {} ⟨5, 1, r 2, .b32⟩) {} (stale 0) 0 ∧
    Clear (.ldt {} pastOp) {} false (stale 1) (stale 1) ∧ Clear (.append {} ⟨5, 1, r 2, .b32⟩) {} false (stale 0) (stale 0) := by
  refine ⟨?_, ?_, clear_of (by decide +kernel), clear_of (by decide +kernel)⟩
  · obtain ⟨⟨wg, t⟩, h, hp⟩ := okWith_spec (x := (stale 1).tileNamed ((stale 1).cur.rA {} pastOp.h) pastOp.peer .data)
      (p := fun x => x.2.poisoned ((stale 1).cur.tileOff {} pastOp.b pastOp.off 0) (tyBytes pastOp.ty * pastOp.cnt.num) && (List.range 32).all fun k =>
        decide ((stale 1).cur.tileOff {} pastOp.b pastOp.off k + tyBytes pastOp.ty * pastOp.cnt.num ≤ x.2.size) &&
        decide ((stale 1).cur.tileOff {} pastOp.b pastOp.off k % (tyBytes pastOp.ty * pastOp.cnt.num) = 0)) (by decide +kernel)
    simp only [Bool.and_eq_true, decide_eq_true_eq, List.all_eq_true, List.mem_range] at hp
    exact .ldt _ _ _ wg t 0 (by decide +kernel) (goesUnit (by decide +kernel)) h (by decide +kernel) (by decide) (fun k hk _ => hp.2 k hk) hp.1 (fun k hk => absurd hk (by omega))
  · obtain ⟨⟨wg, t⟩, h, hp⟩ := okWith_spec (x := (stale 0).tileNamed ((stale 0).cur.rA {} 1) none .data) (p := fun x => x.2.poisoned 0 8) (by decide +kernel)
    exact .append _ _ _ wg t (by decide +kernel) (goesUnit (by decide +kernel)) h hp

/-- The bench's group with its lanes in two halves, of split 1: each path at a unit with a target, and a stack. -/
def halved (st0 st1 : SlotState) (pc0 pc1 rc : Word32) (stack : List DivEnt) : Group :=
  let g := bench.cur
  { g with split := tset g.split 1 { valid := true, parent := 0 }, stack,
           slot0 := { g.slot0 with st := st0, pc := pc0, mask := 0xFFFF0000, reconv := rc, parent := 1 },
           slot1 := { st := st1, pc := pc1, mask := 0xFFFF, reconv := rc, parent := 1, blk := { hdr := 48, bend := 58 } } }

/-- A frame, a join entry of split 1, and path entries, one of which waits. -/
def frame1 : DivEnt := { wait := false, parent := 1, mask := 0, reconv := 0xFFFF, pc := 22 }
def join1 : DivEnt := { wait := true, parent := 1, mask := 0, reconv := 64, pc := 0 }
def path1 (w : Bool) : DivEnt := { wait := w, parent := 2, mask := 0xF0000000, reconv := 48, pc := 32 }

theorem witness_Branches_groups :
    (let g := halved .live .live 40 44 40 [frame1, join1]
     (g.slot false).st = .live ∧ (g.slot false).pc = (g.slot false).reconv ∧ (∀ e ∈ g.stack, e.mask = 0) ∧ (g.slot true).st = .live) ∧
    (∀ x ∈ [(join1, (64 : Word32)), ({ join1 with reconv := 40 }, 40)],
      let g := halved .live .waiting 40 40 40 [frame1, x.1]
      (g.slot false).st = .live ∧ (g.slot false).pc = (g.slot false).reconv ∧ (∀ e ∈ g.stack, e.mask = 0) ∧ (g.slot false).parent = 1 ∧ (g.slot true).st = .waiting ∧
        (g.slot true).parent = 1 ∧ (g.slot true).pc = (g.slot false).pc ∧ outerSplit g 1 0 ∧ JoinOf 1 g.stack (some x.2) [frame1]) ∧
    JoinOf 1 [frame1] none [frame1] ∧
    (let g := { halved .live .live 40 44 noTarget ([frame1] ++ path1 false :: [join1]) with slot1 := {} }
     (path1 false).mask ≠ 0 ∧ (g.slot true).st = .empty ∧ (g.slot (!true)).st = .live ∧ ∀ f ∈ [frame1], f.mask = 0) ∧
    (let g := halved .waiting .waiting 40 40 40 ([frame1, path1 true] ++ path1 false :: [])
     g.slot0.st = .waiting ∧ g.slot1.st = .waiting ∧ (path1 false).wait = false ∧ ∀ f ∈ [frame1, path1 true], f.mask = 0 ∨ f.wait = true) ∧
    (let g := halved .waiting .waiting 40 40 40 [frame1, path1 true]
     (∀ e ∈ g.stack, e.mask = 0 ∨ e.wait = true) ∧ g.slot0.st = .waiting ∧ g.slot1.st = .waiting) ∧
    (let g := { halved .waiting .waiting 40 40 40 [frame1] with slot0 := {} }
     (∀ e ∈ g.stack, e.mask = 0) ∧ g.slot0.st = .empty ∧ g.slot1.st = .waiting) ∧
    (∀ pc ∈ [(64 : Word32), 44],
      let g := halved .live .live 40 pc 48 [frame1, join1]
      g.me.mask &&& ~~~0xFFFF0000 = 0 ∧ g.me.parent = 1 ∧ (g.slot (!g.sel1)).parent = 1 ∧ (g.slot (!g.sel1)).st = .live ∧ (∀ e ∈ g.stack, e.mask = 0) ∧
        outerSplit g 1 0 ∧ JoinOf 1 g.stack (some 64) [frame1] ∧ (pc = 64 → (g.slot (!g.sel1)).pc = (some (64 : Word32)).getD noTarget) ∧
        (pc = 44 → (g.slot (!g.sel1)).pc ≠ (some (64 : Word32)).getD noTarget)) := by
  refine ⟨by decide +kernel, ?_, .none _ (by decide), by decide +kernel, by decide +kernel, by decide +kernel, by decide +kernel, ?_⟩
  · intro x hx
    simp only [List.mem_cons, List.not_mem_nil, or_false] at hx
    rcases hx with rfl | rfl
    · exact ⟨by decide +kernel, by decide +kernel, by decide +kernel, by decide +kernel, by decide +kernel, by decide +kernel, by decide +kernel, by unfold outerSplit; decide +kernel,
        .some [frame1] _ [] rfl rfl (by decide)⟩
    · exact ⟨by decide +kernel, by decide +kernel, by decide +kernel, by decide +kernel, by decide +kernel, by decide +kernel, by decide +kernel, by unfold outerSplit; decide +kernel,
        .some [frame1] { join1 with reconv := 40 } [] rfl rfl (by decide)⟩
  · intro pc hx
    simp only [List.mem_cons, List.not_mem_nil, or_false] at hx
    rcases hx with rfl | rfl
    all_goals exact ⟨by decide +kernel, by decide +kernel, by decide +kernel, by decide +kernel, by decide +kernel, by unfold outerSplit; decide +kernel,
        .some [frame1] join1 [] rfl rfl (by decide), by decide +kernel, by decide +kernel⟩

/-- The bench with a handler, and with a handler at privilege S. -/
def handled : State := withGroup fun g => { g with trapvec := 0x1_0000_0020 }
def nested : State := withGroup fun g => { g with trapvec := 0x20, priv := .s }

theorem witness_Traps_delivery :
    (let g := handled.cur
     g.returned = true ∧ handled.away g.id = false ∧ g.priv = .u ∧ g.trapvec ≠ 0 ∧ ¬(Cause.debug = .debug ∧ (handled.vf g.vf).att = true)) ∧
    (∀ s ∈ [bench, nested], s.cur.returned = true ∧ s.away s.cur.id = false ∧ (s.cur.priv = .s ∨ s.cur.trapvec = 0) ∧ (s.vf s.cur.vf).att = false ∧
      (∃ l, s.launch? s.cur.launch = some l ∧ (!l.faulted && decide (l.vf < 64)) = true) ∧ s.cur.gone = false) ∧
    owing.returned = false := by
  refine ⟨by decide +kernel, fun s hs => ?_, by decide +kernel⟩
  simp only [List.mem_cons, List.not_mem_nil, or_false] at hs
  rcases hs with rfl | rfl
  all_goals exact ⟨by decide +kernel, by decide +kernel, by decide +kernel, by decide +kernel, someWith_spec (by decide +kernel), by decide +kernel⟩

def tstoreOp : OpKind := .tstore [{ lane := 0, va := 8, pa := 8 }, { lane := 31, va := 10, pa := 10 }] 1 1 [[1, 2, 3, 4], [5, 6, 7, 8]]
def appendOp (vals : List (Nat × Word64)) : OpKind := .append 1 1 4 vals 0

/-- The tiled bench with an operation in flight; data tile 1 with a cursor of 2. -/
def tileFlying (p : Path) (k : OpKind) : State :=
  opening (tiled.updHandle 1 1 fun t => { t with bytes := Sparse.set 0 t.bytes 0 2 }) [opOf p k]

/-- The lined bench with line 4 written, and a range operation over it. -/
def ranging (inval l1 : Bool) : State :=
  opening { lined with l2 := [{ line4 with bytes := 7 :: List.replicate 63 0, dirty := true }] } [opOf .store (.range 4 1 inval l1)]

/-- A registration with nothing before it, and one behind a store. -/
def regOp : OpKind := .wreg 5 (some (0x10000, 64))
def behind (k : OpKind) (s : State) : State := opening s [{ opOf .store k with seq := 1 }, opOf .store storeOp]

/-- An operation that is the older of two. -/
theorem behind_open {k : OpKind} {s : State} (h : s.cur.id = 1 ∧ s.away 1 = false) :
    OpenOp (behind k s) 1 1 (behind k s).cur { opOf .store k with seq := 1 } := by
  refine ⟨?_, h.2, ?_, rfl⟩
  · unfold State.group?
    exact if_pos h.1
  · rfl

/-- The marks of a rectangle of one superblock, on a frame that has none. -/
def markOp : OpKind := .mark 0x300000 0
def marking : State := opening (encoding { frame16 with marks := [] }) [opOf .store markOp]

/-- A launch record on its way to queue 3. -/
def launchOp : OpKind := .launch (List.replicate 128 5) 3 0x400200 0x400200
def queueing : State := bench.updVf 0 fun v => { v with queues := tset v.queues 3 { base := 0x400000, cfg := 0x302, tail := 4, head := 1 } }
def launched : State := opening queueing [opOf .store launchOp]

theorem witness_StoresArePerformed_tiles :
    (let s := tileFlying .store tstoreOp
     OpenOp s 1 0 s.cur (opOf .store tstoreOp) ∧ (s.ready s.cur (opOf .store tstoreOp) = true ∧ (s.wg? 1).isSome = true ∧ Sparse.wf 0 (s.handle 1 1).bytes = true)) ∧
    (∀ vals ∈ [[], [(0, 7), (5, (9 : Word64))]],
      let s := tileFlying .load (appendOp vals)
      OpenOp s 1 0 s.cur (opOf .load (appendOp vals)) ∧ (s.ready s.cur (opOf .load (appendOp vals)) = true ∧ (s.wg? 1).isSome = true ∧
        Sparse.wf 0 (s.handle 1 1).bytes = true ∧ (vals.map (·.1)).Nodup ∧ natLE ((s.handle 1 1).readN 0 8) = 2 ∧ 8 + 4 * (2 + 1) + 4 ≤ (s.handle 1 1).size)) := by
  refine ⟨⟨open_of (by decide +kernel), by decide +kernel⟩, fun vals h => ?_⟩
  simp only [List.mem_cons, List.not_mem_nil, or_false] at h
  rcases h with rfl | rfl
  all_goals exact ⟨open_of (by decide +kernel), by decide +kernel⟩

theorem witness_StoresArePerformed_ranges :
    (∀ x ∈ [(true, true), (true, false), (false, false)],
      let s := ranging x.1 x.2
      OpenOp s 1 0 s.cur (opOf .store (.range 4 1 x.1 x.2)) ∧ s.ready s.cur (opOf .store (.range 4 1 x.1 x.2)) = true) ∧
    (let s := ranging false false
     let l : L2Line := { line4 with bytes := 7 :: List.replicate 63 0, dirty := true }
     (∀ l ∈ s.l2, ∀ m ∈ s.l2, ∀ x ∈ ([m.attr.leaf1, m.attr.leaf2] : List Nat), x = 0 ∨ Loc.pa (x + 7) / 64 ≠ l.pa) ∧
     s.l2.filter (fun l => l.vf = s.cur.vf && decide (4 ≤ l.line) && decide (l.line < 4 + 1)) = [l] ∧ (¬∃ b ∈ s.barLines, Loc.pa b.1 / 64 = l.pa) ∧
     l.attr.comp = false ∧ l.attr.leaf1 = 0 ∧ l.attr.leaf2 = 0 ∧ 64 * l.pa < 2 ^ 60 ∧ ∀ m ∈ s.l2, m.pa = l.pa → m = l) := by
  refine ⟨fun x h => ?_, by decide +kernel⟩
  simp only [List.mem_cons, List.not_mem_nil, or_false] at h
  rcases h with rfl | rfl | rfl
  all_goals exact ⟨open_of (by decide +kernel), by decide +kernel⟩

theorem witness_StoresArePerformed_others :
    (let s := flying .store regOp
     OpenOp s 1 0 s.cur (opOf .store regOp) ∧ (s.ready s.cur (opOf .store regOp) = true ∧ s.cur.olderStored (opOf .store regOp) = true)) ∧
    (let s := behind regOp bench
     OpenOp s 1 1 s.cur { opOf .store regOp with seq := 1 } ∧ (s.ready s.cur { opOf .store regOp with seq := 1 } = true ∧
       s.cur.olderStored { opOf .store regOp with seq := 1 } = false)) ∧
    (let s := marking
     OpenOp s 1 0 s.cur (opOf .store markOp) ∧ (s.ready s.cur (opOf .store markOp) = true ∧ s.cur.olderStored (opOf .store markOp) = true ∧ s.cur.slice ≤ 0 ∧
       0 < s.cur.slice + (s.gran s.cur.slice).num ∧ (s.stream 0 0).frames = [] ++ { frame16 with marks := [] } :: [] ∧
       (∀ m < 4, m ≠ 0 → (s.stream 0 m).frames = []) ∧ (s.gran s.cur.slice).num = 1)) ∧
    (let s := behind markOp (encoding { frame16 with marks := [] })
     OpenOp s 1 1 s.cur { opOf .store markOp with seq := 1 } ∧ (s.ready s.cur { opOf .store markOp with seq := 1 } = true ∧
       s.cur.olderStored { opOf .store markOp with seq := 1 } = false)) ∧
    (let s := launched
     OpenOp s 1 0 s.cur (opOf .store launchOp) ∧ (s.ready s.cur (opOf .store launchOp) = true ∧ s.launchReady s.cur (opOf .store launchOp) 3 = true ∧
       (isWindow (Loc.pa 0x400200) = false ∧ Loc.watch 0x400200 = none) ∧ (isWindow (Loc.pa (0x400200 + 64)) = false ∧ Loc.watch (0x400200 + 64) = none) ∧
       Loc.comp 0x400200 = false ∧ Loc.pa 0x400200 % 64 = 0 ∧ Loc.pa 0x400200 + 128 ≤ 2 ^ 60 ∧ Memory.wf s.mem ∧ s.l2 = [] ∧ s.barLines = [])) ∧
    (let s := behind launchOp queueing
     OpenOp s 1 1 s.cur { opOf .store launchOp with seq := 1 } ∧ (s.ready s.cur { opOf .store launchOp with seq := 1 } = true ∧
       s.launchReady s.cur { opOf .store launchOp with seq := 1 } 3 = false)) :=
  ⟨⟨flying_open _ _, by decide +kernel⟩, ⟨behind_open (by decide +kernel), by decide +kernel⟩, ⟨open_of (by decide +kernel), by decide +kernel⟩,
    ⟨behind_open (by decide +kernel), by decide +kernel⟩, ⟨open_of (by decide +kernel), by decide +kernel⟩, behind_open (by decide +kernel), by decide +kernel⟩

/-- A copy into or out of tile 1, counted at barrier 2 and acknowledged at barrier 4, with some of its bytes moved. -/
def copyBytes (kind : CopyKind) (fin : List Nat) : CopyOp :=
  { copyIn with kind, recv := [{ wg := 1, h := 1, rowb := 256, bar := some (.tile 1 2), ack := some (.tile 1 4) }], fin }

/-- Its source or target line in the L2, and the two barriers armed. -/
def copyFlying (kind : CopyKind) (fin : List Nat) : State :=
  let s := (tiled.updHandle 1 2 fun t => { t with bar := { armed := true, expc := 1, pend := 1 } }).updHandle 1 4 fun t => { t with bar := { armed := true, expc := 1 } }
  opening { s with l2 := [{ line4 with line := 0x403, pa := 0x403, bytes := List.replicate 64 9 }] } [opOf .copy (.copy (copyBytes kind fin))]

theorem witness_TileAndBarrierEvents_copies :
    ∀ x ∈ [(CopyKind.in_, ([] : List Nat)), (CopyKind.in_, List.range 255), (CopyKind.out, []), (CopyKind.out, List.range 255)],
      let s := copyFlying x.1 x.2
      let k := copyBytes x.1 x.2
      let o := opOf .copy (.copy k)
      let r : CopyRecv := { wg := 1, h := 1, rowb := 256, bar := some (.tile 1 2), ack := some (.tile 1 4) }
      OpenOp s 1 0 s.cur o ∧ (k.recv[255 / k.total]? = some r ∧ 255 ∉ k.fin ∧ (s.wg? 1).isSome = true ∧ Sparse.wf 0 (s.handle 1 1).bytes = true ∧
        k.src (255 % k.total) = some 0x100FF ∧ s.copyByteReady s.cur 0 r (k.dst 256 (255 % k.total)) (some (pageLoc k.pages 0x100FF)) = true ∧
        (isWindow (Loc.pa (pageLoc k.pages 0x100FF)) = false ∧ Loc.watch (pageLoc k.pages 0x100FF) = none) ∧
        Loc.watch (pageLoc k.pages 0x100FF + (k.lineRun 255).1 - 255) = none ∧ s.engPoisoned (pageLoc k.pages 0x100FF) = false ∧
        (s.handle 1 1).poisoned (k.dst 256 255) 1 = false ∧ Loc.comp (pageLoc k.pages 0x100FF) = false ∧ Memory.wf s.mem ∧
        (s.l2At (pageLoc k.pages 0x100FF)).isSome = true ∧ (∀ l ∈ s.l2, l.bytes.length = 64) ∧ s.barLines = [] ∧
        r.ack ≠ r.bar ∧ (s.readBar (.tile 1 2)).broken = false ∧ (s.readBar (.tile 1 4)).broken = false ∧
        (k.fin.length = 0 → k.fin.length + 1 ≠ k.total * k.recv.length) ∧ (k.fin.length = 255 → k.fin.length + 1 = k.total * k.recv.length)) := by
  intro x h
  simp only [List.mem_cons, List.not_mem_nil, or_false] at h
  rcases h with rfl | rfl | rfl | rfl
  all_goals exact ⟨open_of (by decide +kernel), by decide +kernel⟩

/-- A write of vector register `n` in all lanes, as an instruction of a window. -/
def putV (seq n : Nat) (killed : Bool := false) : WinEnt :=
  { seq, killed, write := some { cls := .v, reg := n, lanes := allLanes, val := Lanes.const (BitVec.ofNat 64 seq) } }

/-- A result of an L instruction for vector register `n`. -/
def lateV (seq n : Nat) : Pend :=
  { seq, slot1 := false, ret := true, write := { cls := .v, reg := n, lanes := 1, val := Lanes.const (BitVec.ofNat 64 (100 + seq)) } }

/-- A full window, whose oldest write was killed, one of the other slot, two results out, and a younger write banked already. -/
def worked (oldest : WinEnt) : Group :=
  { bench.cur with slot0 := { bench.cur.slot0 with win := [9, 8, 7, 6, 5, 4, 3].map (fun k => putV k (k % 3)) ++ [oldest] }, slot1 := { win := [putV 10 20] },
                   pend := [lateV 0 30, lateV 1 4, lateV 2 0], late := [(4, .v, 1, 1)], seq := 11 }

theorem witness_GroupEvents_registers :
    (worked (putV 1 4 true)).Ordered ∧ (worked (putV 1 4)).WindowOk ∧
    (let g := worked (putV 1 4 true)
     let puts (e : WinEnt) (n : Nat) : Bool := e.puts .v n 0
     (∃ q ∈ g.pend, q.write.covers .v 30 0 = true ∧ (∀ p ∈ g.pend, p.write.covers .v 30 0 = true → p.seq ≤ q.seq) ∧ ¬g.shadowed q .v 30 0) ∧
     ((∀ q ∈ g.pend, q.write.covers .v 0 0 = true → ∃ p ∈ g.pend, p.write.covers .v 0 0 = true ∧ q.seq ≤ p.seq ∧ g.shadowed p .v 0 0) ∧
       (∃ e ∈ (g.slot false).win, puts e 0 = true ∧ ∀ c, ∀ d ∈ (g.slot c).win, puts d 0 = true → d.seq ≤ e.seq) ∧ g.lateAfter 9 .v 0 0 = false) ∧
     ((∀ q ∈ g.pend, q.write.covers .v 1 0 = false) ∧ (∀ c, ∀ d ∈ (g.slot c).win, puts d 1 = true → d.seq ≤ 7) ∧ g.lateAfter 3 .v 1 0 = true) ∧
     (∀ b, ∀ e ∈ (g.slot b).win, puts e 50 = false)) ∧
    (let g := worked (putV 1 4)
     let covering (n : Nat) (e : WinEnt) : Bool := e.write.any fun w => w.covers .v n 31
     (∃ e, g.me.win.find? (covering 0) = some e ∧ (covering 0 e = true)) ∧ g.me.win.find? (covering 50) = none ∧
     ({ cls := .v, reg := 50, lanes := allLanes, val := Lanes.const 1 } : RegWrite).covers .v 50 31 = true ∧
     (g.me.win.take 7).find? (covering 4) = none ∧ g.me.win[7]? = some (putV 1 4) ∧ (worked (putV 1 4 true)).me.win[7]? = some (putV 1 4 true) ∧
     covering 4 (putV 1 4) = true ∧ (∃ e, (g.me.win.take 7).find? (covering 1) = some e ∧ (covering 1 e = true)) ∧ covering 50 (putV 1 4) = false) := by
  refine ⟨⟨by decide +kernel, by decide +kernel, by decide +kernel⟩, by decide +kernel, ⟨?_, ?_, by decide +kernel, by decide +kernel⟩,
    someWith_spec (by decide +kernel), by decide +kernel, by decide +kernel, by decide +kernel, by decide +kernel, by decide +kernel, by decide +kernel,
    someWith_spec (by decide +kernel), by decide +kernel⟩
  · unfold Group.shadowed; decide +kernel
  · unfold Group.shadowed; decide +kernel

/-- The bench with one operation of the MX path: on an accumulator, or on the record of line 4. -/
def drainOp (clr : Bool) : OpKind := .mxdrn 7 63 clr 0xFFFF
def accFlying (k : OpKind) : State := opening (bench.setCur (bench.cur.setAccOf 7 (accRow [] 63 (List.replicate 64 5)))) [opOf .mx k]
def recOp (which : Nat) : OpKind := .dlr which 0x100 0x100 0x20000 0x0100010001000100
def recFlying (which : Nat) : State := opening lined [opOf .mx (recOp which)]

theorem witness_EngineEvents_effects :
    (∀ k ∈ [OpKind.mxzero 7, drainOp true, drainOp false], let s := accFlying k
      s.group? 1 = some s.cur ∧ s.cur.ops = [opOf .mx k] ∧ Sparse.wf 0 (s.cur.accOf 7) = true ∧ Sparse.get 0 (s.cur.accOf 7) (64 * 63 + 63) = 5) ∧
    (∀ w < 3, let s := recFlying w
      s.group? 1 = some s.cur ∧ s.cur.ops = [opOf .mx (recOp w)]) ∧
    (let s := recFlying 0
     (isWindow (Loc.pa 0x100) = false ∧ Loc.watch 0x100 = none) ∧ Loc.comp 0x100 = false ∧ Loc.pa 0x100 % 64 = 0 ∧ (s.l2At 0x100).isSome = true ∧
     (∀ l ∈ s.l2, l.pa = Loc.pa 0x100 / 64 → l.vf = 0 ∧ l.line = 0x100 / 64) ∧ (∀ l ∈ s.l2, l.bytes.length = 64) ∧ s.barLines = [] ∧ s.poisoned 0x100 = false ∧
     s.recHeld 0x100 = false ∧ hdrResumes (s.homeRead 0x100 64) 0x20000 0x0100010001000100 s.cur.vf = false ∧
     hdrResumes (bytesLE 8 1 ++ bytesLE 8 1 ++ List.replicate 48 0) 0 1 0 = true) := by
  refine ⟨fun k h => ?_, fun w _ => ⟨group_cur rfl, rfl⟩, by decide +kernel⟩
  simp only [List.mem_cons, List.not_mem_nil, or_false] at h
  rcases h with rfl | rfl | rfl
  all_goals exact ⟨group_cur rfl, rfl, by decide +kernel, by decide +kernel⟩

/-- A contribution that is not finite, of a level whose gradient header is at 0x20000. -/
def ovfSlot : ScatAdd := { va := 0, pa := 0, fast := true, sum := 0, fsum := 0, headers := [(0x20000, 0x20000)] }

/-- An exact add at a slot with a header, which the slot holds. -/
def exactSlot : ScatAdd := { va := 0x10000, pa := 0x10000, fast := false, sum := 3, fsum := 0, headers := [(0x20000, 0x20000)] }

/-- `ray.get` of lane 31 with the lines of its record in the L2. -/
def rayHome : State := { flying .ray rayGetOp with l2 := (List.range 8).map fun i => { line4 with line := 0x808 + i, pa := 0x808 + i } }

theorem witness_UnitEvents_cases :
    (flying .filt filterOp).cur.cinvOpen 0 = false ∧
    (let s := flying .filt (.scatter [ovfSlot])
     OpenOp s 1 0 s.cur (opOf .filt (.scatter [ovfSlot])) ∧ (s.engineReady s.cur 0 ovfSlot.spans = true ∧ (s.gate (filterUnit s.cur.coreIx)).waking = false ∧
       s.poisoned ovfSlot.pa = false ∧ (isWindow (Loc.pa ovfSlot.pa) = false ∧ Loc.watch ovfSlot.pa = none) ∧
       isWindow (Loc.pa (0x20000 + 1)) = false ∧ Loc.watch (0x20000 + 1) = none)) ∧
    (let s := flying .filt (.scatter [exactSlot])
     OpenOp s 1 0 s.cur (opOf .filt (.scatter [exactSlot])) ∧ (s.engineReady s.cur 0 exactSlot.spans = true ∧ exactSlot.fast = false ∧
       (let r := s.serveRead s.cur.vf exactSlot.va exactSlot.pa
        let sum := signedOf 64 (natLE (r.homeRead exactSlot.pa 8)) + exactSlot.sum
        (-(2 ^ 63) ≤ sum ∧ sum < 2 ^ 63)))) ∧
    (OpenOp rayHome 1 0 rayHome.cur (opOf .ray rayGetOp) ∧ rayHome.rayBlocked rayHome.cur 0 lane31 = false ∧
      ∀ i < 8, (rayHome.l2At (0x20200 + 64 * i)).isSome = true ∧ ∀ l ∈ rayHome.l2, l.pa = Loc.pa (0x20200 + 64 * i) / 64 → l.vf = rayHome.cur.vf ∧ l.line = (0x20200 + 64 * i) / 64) :=
  ⟨by decide +kernel, ⟨flying_open _ _, by decide +kernel⟩, ⟨flying_open _ _, by decide +kernel⟩, ⟨group_cur rfl, by decide +kernel, rfl, rfl⟩, by decide +kernel, by decide +kernel⟩

/-- A launch that asks for a record at line 4, for a signal at line 5 and for an interrupt, with both lines in the L2. -/
def asksAll (irq : Bool) : Launch := { launch1 with next := 1, rec_ := { compl := 0x100, sigaddr := 0x178, irq, deadline := 0 } }
def line5 : L2Line := { line4 with line := 5, pa := 5, bytes := List.replicate 64 0xFF }
def finishing (irq : Bool) (msix : Sparse Byte) : State :=
  { (launching [asksAll irq]).updVf 0 (fun v => { v with msix }) with l2 := [line4, line5] }

/-- The message of vector 0, unmasked. -/
def message : Sparse Byte := Sparse.set 0 [] 12 1

theorem witness_LanternEvents_completion :
    (∀ x ∈ [(false, []), (true, []), (true, message)],
      let l := asksAll x.1
      let s := finishing x.1 x.2
      let free (va : Nat) (e : L2Line) : Prop := va ≠ 0 ∧ va < 2 ^ 57 ∧ s.l2.find? (fun m => m.vf = l.vf && m.line = va / 64) = some e ∧ (∀ m ∈ s.l2, m.pa = e.pa → m = e) ∧
         e.attr.w = true ∧ e.attr.watch = none ∧ e.attr.comp = false ∧ 64 * e.pa + 64 ≤ 2 ^ 60 ∧ isWindow (64 * e.pa + va % 64) = false ∧ e.pa ∉ s.poison ∧ s.barLines = []
      s.reap = s ∧ (s.launch? 1 = some l ∧ l.stage = .run ∧ s.groupsOf 1 = [] ∧ (∀ g ∈ s.gangs, g.launch = 1 → g.st = .ended) ∧ l.faulted = false ∧ l.rec_.gangs ≤ l.next ∧
        s.holds l.vf = true ∧ s.launchAcked 1 = true ∧ l.signalled = false ∧ s.asking (.compl 1) = false ∧ s.failed (.compl 1) = false ∧ (∀ l ∈ s.l2, l.bytes.length = 64) ∧
        free l.rec_.compl.toNat line4 ∧ free l.rec_.sigaddr.toNat line5 ∧ line4.pa ≠ line5.pa ∧ l.rec_.compl.toNat % 32 = 0 ∧ l.rec_.sigaddr.toNat % 8 = 0)) ∧
    State.msixMessage ((finishing true []).vf 0).msix 0 = none ∧ (State.msixMessage ((finishing true message).vf 0).msix 0).isSome = true ∧
    (let s := { launching [{ asksAll false with stage := .finish 0 }] with
       links := tset (launching []).links 0 { (launching []).link 0 with unacked := [{ addr := 0, gid := 0, launch := 1 }] } }
     s.reap = s ∧ (s.launch? 1 = some { asksAll false with stage := .finish 0 } ∧ s.holds 0 = true ∧ (asksAll false).rec_.compl ≠ 0 ∧ s.launchAcked 1 = false)) := by
  refine ⟨fun x h => ?_, by decide +kernel, by decide +kernel, rfl, by decide +kernel⟩
  simp only [List.mem_cons, List.not_mem_nil, or_false] at h
  rcases h with rfl | rfl | rfl
  all_goals exact ⟨rfl, by decide +kernel⟩

/-- The rotation with a ROTCFG value that waits, or that keeps one entry alone. -/
def rewriting (x : Option (Bool × Nat × Word32)) (nm : Nat) : State := rotating 100 0 fun k => { k with rotNext := x, rotNm := nm, preloaded := true }

theorem witness_RotationAndLeases_waiting :
    (∀ x ∈ [(none, 0), (some (false, 1, (5 : Word32)), 1), (some (true, 0, 1), 1)],
      let s := rewriting x.1 x.2
      (s.gran 0).num ≠ 0 ∧ (s.gran 0).rotEn = true ∧ (s.gran 0).hold = false ∧ (s.gran 0).resetting = false ∧ (s.gran 0).rotating = false ∧
        (s.gran 0).quantum (s.gran 0).entry ≤ ((s.gran 0).tick - (s.gran 0).quantumFrom).toNat ∧ (s.gran 0).rotNext = x.1) ∧
    (let s := rewriting none 0
     s.entryOk 0 (s.gran 0).entry = true ∧ (s.gran 0).entry ≤ (s.gran 0).rotNm ∧ s.nextRot 0 ((s.gran 0).entryVf (s.gran 0).entry) = none) ∧
    (let s := rewriting (some (true, 0, 1)) 1
     (s.gran 0).entry = 0 ∧ (1 : Word32).toNat % 64 ≠ (s.gran 0).entryVf 0 ∧ (s.gran 0).quantum 0 ≠ 0 ∧ s.boundTo ((1 : Word32).toNat % 64) 0 = true ∧ (s.gran 0).preloaded = true) := by
  decide +kernel

/-- Functions of a list bound to slice 2. -/
def crowded (l : List Nat) : State := l.foldl (fun s n => s.updVf n fun v => { v with bound := true, slice := 2 }) bench

theorem witness_FunctionEvents_bind :
    (4 ≤ (((crowded [1, 2, 3, 4]).functionsOf 2).filter (· ≠ 7)).length ∧ (crowded [1, 2, 3, 4]).isSlice 2 = true) ∧
    (let s := crowded [1, 2, 3, 7]
     (s.functionsOf 2).length = 4 ∧ s.isSlice 2 = true ∧ ((s.functionsOf 2).filter (· ≠ 7)).length < 4 ∧ (s.gran 2).hold = false ∧ (s.vf 7).bound = true) ∧
    (let s := crowded [1, 2, 3]
     s.isSlice 2 = true ∧ ((s.functionsOf 2).filter (· ≠ 7)).length < 4 ∧ (s.vf 7).bound = false ∧ s.prqWait = []) ∧
    (let s := (crowded []).updGran 2 fun k => { k with hold := true, quiet := true }
     (s.gran 2).hold = true ∧ (s.gran 2).quiet = true ∧ ((s.functionsOf 2).filter (· ≠ 7)).length < 4 ∧ (s.vf 7).bound = false) ∧
    (let s := bench.updVf 7 fun v => { v with busy := true, bound := true, newSlice := some 2 }
     (s.vf 7).busy = true ∧ s.residents [7] = false ∧ s.outstanding [7] = false ∧ s.asksPages [7] = false ∧ (s.vf 7).withheld = [] ∧ s.prqWait = [] ∧
       (∀ q ∈ s.gangs, q.unwritten = false) ∧ (s.vf 7).newSlice = some 2) := by
  decide +kernel

/-! ### Single steps: the spec's worked examples -/

/-- A state with values in vector registers of its group, the same in every lane. -/
def setV (s : State) (l : List (Nat × Word64)) : State := s.setCur { s.cur with v := l.foldl (fun t e => tset t e.1 (Lanes.const e.2)) s.cur.v }

/-- What an instruction leaves. -/
def ran (i : Instr) (s : State) (p : State → Bool) : Bool := goesNext (exec i s) p

/-- 05, packed addition. -/
def packed : State := setV bench [(2, 0x7F800164F0A01050), (3, 0x0180FF64F0E0F030)]

theorem test_iadd_packed :
    ran (.iadd {} ⟨1, r 2, r 3, false, true, .i8⟩) packed (fun t => t.cur.readV 1 31 = 0x7F80007FE080007F && t.cur.fpflags = 0x20 && t.cur.me.pc = 20) = true := by decide +kernel

/-- R80, R81, R87: 1 + 2^-24 is a tie, which goes to the even 1.0 with NX; the largest FP32 value twice overflows. -/
theorem test_fadd :
    ran (.fadd {} ⟨4, r 2, r 3, false, false, false, .f32⟩) (setV bench [(2, 0x7F7FFFFF3F800000), (3, 0x7F7FFFFF33800000)])
      (fun t => t.cur.readV 4 9 = 0x7F8000003F800000 && t.cur.fpflags = 0x14) = true := by decide +kernel

/-- The lower lanes' values of the example of 06, with lanes 8 to 31 exited. -/
def sparse : State :=
  let s := bench.setCur (bench.cur.setMe { bench.cur.me with mask := 0xFF })
  s.setCur { s.cur with
    p := tset s.cur.p 2 0xDB
    v := tset (tset s.cur.v 1 (Lanes.gen fun l => 0xFFFFFFFF00000000 + BitVec.ofNat 64 ([5, 3, 0, 1, 4, 0, 1, 6].getD l 0)))
      4 (Lanes.const 0xAAAAAAAAAAAAAAAA) }

/-- 06: a `red.minidx` with a guard: value 1 and index 6 in each active lane, and lane 2 keeps its own. -/
theorem test_red_minidx :
    ran (.red { guard := 2 } ⟨.minidx, false, 4, r 1, .n32⟩) sparse (fun t => t.cur.pend.map (fun p => (p.write.lanes, p.write.val.get 0 0, p.write.val.get 7 0)) = [(0xDB, 0x600000001, 0x600000001)]) = true := by
  decide +kernel

/-- R103: a `brc` that half the lanes take: both slots are live, with those lanes in the other one, inside the target's block. -/
theorem test_brc_splits :
    ran (.brc { guard := 1 } 0x7FFFFFE) coded (fun t => t.cur.slot0.mask = 0xFFFF0000 && t.cur.slot1.mask = 0xFFFF && t.cur.slot1.pc = 16 && t.cur.slot0.pc = 20) = true := by
  decide +kernel

/-- R36: a `brk` with a handler, as 14 DEBUG: the cause, the unit and the privilege; the handler's unit is the vector. -/
theorem test_trap : ran (.brk {} 5) (withGroup fun g => { g with trapvec := 32 })
    (fun t => t.cur.trapcause = 14 && t.cur.trappc = 18 && t.cur.priv = .s && t.cur.me.pc = 32) = true := by decide +kernel

/-- R161: the higher-numbered lane's bytes remain, least significant byte first. -/
theorem test_store_order : ran (.storePerformed 1 0) (flying .store (.store [{ lane := 0, va := 0x10008, pa := 0x10008 }, { lane := 1, va := 0x1000A, pa := 0x1000A }]
      [[1, 2, 3, 4], [5, 6, 7, 8]] none)) (fun t => t.homeRead 0x10008 8 = [1, 2, 5, 6, 7, 8, 0, 0]) = true := by decide +kernel

/-- R165: an atomic add returns what was there, and the sum stays. -/
theorem test_atomic : ran (.atomicPerform 1 0 0) { flying .load atomicOp with mem := Memory.writeN bench.mem 0x10000 [0xFF, 0xFF, 0, 0] }
    (fun t => t.homeRead 0x10000 4 = [0, 0, 1, 0]) = true := by decide +kernel

end Sys2Proof.Machine
end

section
/-!
Registers of the host's BARs (R9, R10, R382, R388, R389): which block of registers a write and a read of the host reach, what an update of a function, a queue
or a granule leaves to be read, and with them the registers that `Obligations.RegistersOfTheHost` names.
-/
set_option Elab.async false
namespace Sys2Proof.Machine
open Sys2Proof

/-! ### Fields of a written value -/

theorem fieldOf_eq_zero_of_lt {v : Word64} {hi lo : Nat} (h : v.toNat < 2 ^ lo) : fieldOf v hi lo = 0 := by
  rw [fieldOf, bitsOf, Nat.div_eq_of_lt h, Nat.zero_mod]

/-- A field from bit 0 up holds a value that fits it. -/
theorem fieldOf_zero_of_lt {v : Word64} {hi : Nat} (h : v.toNat < 2 ^ (hi + 1)) : fieldOf v hi 0 = v.toNat := by
  simp [fieldOf, bitsOf, Nat.mod_eq_of_lt h]

/-- The upper half of a value is zero exactly where the lower half holds it. -/
theorem fieldOf_63_32_eq_zero_iff (v : Word64) : fieldOf v 63 32 = 0 ↔ v.toNat < 2 ^ 32 := by
  have := v.isLt
  simp only [fieldOf, bitsOf]
  omega

theorem toNat_setWidth_of_lt {v : Word64} {w : Nat} (h : v.toNat < 2 ^ w) : (v.setWidth w).toNat = v.toNat := by
  rw [BitVec.toNat_setWidth, Nat.mod_eq_of_lt h]

/-! ### What an update leaves to be read -/

namespace State

theorem vf_updVf_self (s : State) {n : Nat} (f : VFun → VFun) (h : n < 64) : (s.updVf n f).vf n = f (s.vf n) :=
  tget_tset_self s.vfs n _ _ h

theorem gran_updGran_self (s : State) {gr : Nat} (f : Granule → Granule) (h : gr < 16) : (s.updGran gr f).gran gr = f (s.gran gr) :=
  tget_tset_self s.grans gr _ _ h

theorem queue_updQueue_self (s : State) {n q : Nat} (f : Queue → Queue) (hn : n < 64) (hq : q < 16) :
    (s.updQueue n q f).queue n q = f (s.queue n q) := by
  rw [queue, updQueue, vf_updVf_self s _ hn]
  exact tget_tset_self _ _ _ _ hq

theorem isSlice_lt {s : State} {gr : Nat} (h : s.isSlice gr = true) : gr < 16 := by
  simp only [isSlice, Bool.and_eq_true, decide_eq_true_eq] at h
  exact h.1

/-- An update that keeps the number of granules leaves a slice a slice. -/
theorem isSlice_updGran_self {s : State} {gr : Nat} {f : Granule → Granule} (hf : (f (s.gran gr)).num = (s.gran gr).num) (h : s.isSlice gr = true) :
    (s.updGran gr f).isSlice gr = true := by
  rw [isSlice, gran_updGran_self s f (isSlice_lt h), hf]
  exact h

end State

/-! ### The block that an offset reaches -/

/-- Blocks of 4096 bytes follow one another from a base: the block of an offset, and the place inside it. -/
theorem block_of_offset (base : Nat) {i off : Nat} (ho : off < 0x1000) : (base + 0x1000 * i + off - base) / 0x1000 = i := by omega

theorem place_of_offset {base i off : Nat} (hb : base % 0x1000 = 0) (ho : off < 0x1000) : (base + 0x1000 * i + off) % 0x1000 = off := by omega

theorem exec_registerWrite_vf (s : State) {n off : Nat} (v : Word64) (hn : n < 64) (ho : off < 65536) :
    exec (.registerWrite (n + 1) off v) s = s.writeVf n off v := by
  show execRegisterWrite (n + 1) off v s = _
  rw [execRegisterWrite, if_neg (by omega), if_neg (by omega), if_neg (by omega), if_pos ho, Nat.add_sub_cancel]

theorem registerRead_vf (s : State) {n off : Nat} (hn : n < 64) (ho : off < 65536) : s.registerRead (n + 1) off = s.readVf n off := by
  rw [State.registerRead, if_neg (by omega), if_neg (by omega), if_neg (by omega), if_pos ho, Nat.add_sub_cancel]

theorem exec_registerWrite_pf (s : State) {off : Nat} (v : Word64) (ho : off < 2 ^ 20) : exec (.registerWrite 0 off v) s = s.writePf off v := by
  show execRegisterWrite 0 off v s = _
  rw [execRegisterWrite, if_neg (by omega), if_neg (by omega), if_pos rfl]

theorem registerRead_pf (s : State) {off : Nat} (ho : off < 2 ^ 20) : s.registerRead 0 off = s.readPf off := by
  rw [State.registerRead, if_neg (by omega), if_neg (by omega), if_pos rfl]

theorem exec_registerWrite_package (s : State) {off : Nat} (v : Word64) (h8 : off % 8 = 0) (ho : off < 0x10000) :
    exec (.registerWrite 0 off v) s = s.writePackage off v := by
  rw [exec_registerWrite_pf s v (by omega), State.writePf, if_neg (by omega), if_pos ho]

theorem registerRead_package (s : State) {off : Nat} (h8 : off % 8 = 0) (ho : off < 0x10000) : s.registerRead 0 off = s.readPackage off := by
  rw [registerRead_pf s (by omega), State.readPf, if_neg (by omega), if_pos ho]

theorem exec_registerWrite_slice (s : State) {gr off : Nat} (v : Word64) (hg : gr < 16) (h8 : off % 8 = 0) (ho : off < 0x1000) :
    exec (.registerWrite 0 (0x10000 + 0x1000 * gr + off) v) s = s.writeSlice gr off v := by
  rw [exec_registerWrite_pf s v (by omega), State.writePf, if_neg (by omega), if_neg (by omega), if_pos (by omega), block_of_offset _ ho, place_of_offset rfl ho]

theorem registerRead_slice (s : State) {gr off : Nat} (hg : gr < 16) (h8 : off % 8 = 0) (ho : off < 0x1000) :
    s.registerRead 0 (0x10000 + 0x1000 * gr + off) = s.readSlice gr off := by
  rw [registerRead_pf s (by omega), State.readPf, if_neg (by omega), if_neg (by omega), if_pos (by omega), block_of_offset _ ho, place_of_offset rfl ho]

theorem exec_registerWrite_perFunction (s : State) {n off : Nat} (v : Word64) (hn : n < 64) (h8 : off % 8 = 0) (ho : off < 0x1000) :
    exec (.registerWrite 0 (0x20000 + 0x1000 * n + off) v) s = s.writePerFunction n off v := by
  rw [exec_registerWrite_pf s v (by omega), State.writePf, if_neg (by omega), if_neg (by omega), if_neg (by omega), if_pos (by omega), block_of_offset _ ho, place_of_offset rfl ho]

theorem registerRead_perFunction (s : State) {n off : Nat} (hn : n < 64) (h8 : off % 8 = 0) (ho : off < 0x1000) :
    s.registerRead 0 (0x20000 + 0x1000 * n + off) = s.readPerFunction n off := by
  rw [registerRead_pf s (by omega), State.readPf, if_neg (by omega), if_neg (by omega), if_neg (by omega), if_pos (by omega), block_of_offset _ ho, place_of_offset rfl ho]

/-! ### Registers of a virtual function (R347, R389) -/

section VirtualFunction
variable (s : State) {n : Nat} (v : Word64)

theorem writeVf_wtbase (h : v.toNat % 8192 = 0) : s.writeVf n 0x1010 v = .next (s.updVf n fun f => { f with wtbase := v }) := by
  simp [State.writeVf, h]

theorem readVf_wtbase : s.readVf n 0x1010 = (s.vf n).wtbase.toNat := by simp [State.readVf]

theorem writeVf_winva (h : v.toNat % 65536 = 0) : s.writeVf n 0x1200 v = .next (s.updVf n fun f => { f with winva := v }) := by
  simp [State.writeVf, h]

theorem readVf_winva : s.readVf n 0x1200 = (s.vf n).winva.toNat := by simp [State.readVf]

/-- R10: a written 1 clears its W1C bit, and zeros in the other bits note nothing. -/
theorem writeVf_vfstat (h : v.toNat < 8) :
    s.writeVf n 0x1040 v = .next (s.updVf n fun f =>
      { f with rws := f.rws && !v.getLsbD 0, lflt := f.lflt && !v.getLsbD 1, srst := f.srst && !v.getLsbD 2 }) := by
  have rest : fieldOf v 63 3 = 0 := fieldOf_eq_zero_of_lt h
  simp [State.writeVf, State.vfNoteIf, rest]

/-- No register of a virtual function stands above WINVA. -/
theorem writeVf_unnamed {off : Nat} (h8 : off % 8 = 0) (ho : 0x1208 ≤ off) : s.writeVf n off v = .next (s.vfNote n) := by
  have readOnly : off ≠ 0x1020 ∧ off ≠ 0x1028 ∧ off ≠ 0x1048 ∧ off ≠ 0x1050 ∧ off ≠ 0x1058 := by omega
  have buffers : (decide (0x1100 ≤ off) && decide (off < 0x1140)) = false := by
    simp only [Bool.and_eq_false_iff, decide_eq_false_iff_not]
    omega
  have named : off ≠ 0x1000 ∧ off ≠ 0x1008 ∧ off ≠ 0x1010 ∧ off ≠ 0x1030 ∧ off ≠ 0x1040 ∧ off ≠ 0x1140 ∧ off ≠ 0x1200 ∧ ¬off < 0x1000 := by omega
  simp [State.writeVf, h8, readOnly, buffers, named]

theorem readVf_unnamed {off : Nat} (ho : 0x1208 ≤ off) : s.readVf n off = 0 := by
  have lantern : ¬off < 0x200 ∧ off ≠ 0x200 ∧ off ≠ 0x208 := by omega
  have single : off ≠ 0x1000 ∧ off ≠ 0x1008 ∧ off ≠ 0x1010 ∧ off ≠ 0x1040 ∧ off ≠ 0x1048 ∧ off ≠ 0x1050 ∧ off ≠ 0x1058 ∧ off ≠ 0x1140 ∧ off ≠ 0x1200 := by
    omega
  have buffers : ¬off < 0x1120 ∧ ¬off < 0x1140 := by omega
  simp [State.readVf, lantern, single, buffers]

theorem writeVf_qbase {q : Nat} (hq : q < 16) (h : v.toNat % 128 = 0) :
    s.writeVf n (32 * q) v = .next (s.updQueue n q fun x => { x with base := v }) := by
  have aligned : 32 * q % 8 = 0 := by omega
  have lantern : 32 * q < 0x1000 := by omega
  have queues : 32 * q < 0x200 := by omega
  simp [State.writeVf, State.writeLantern, aligned, lantern, queues, h]

theorem readVf_qbase {q : Nat} (hq : q < 16) : s.readVf n (32 * q) = (s.queue n q).base.toNat := by
  have aligned : 32 * q % 8 = 0 := by omega
  have queues : 32 * q < 0x200 := by omega
  simp [State.readVf, aligned, queues]

variable (hn : n < 64)
include hn

theorem registerWrite_wtbase (h : v.toNat % 8192 = 0) :
    ∃ t, exec (.registerWrite (n + 1) 0x1010 v) s = .next t ∧ t.registerRead (n + 1) 0x1010 = v.toNat ∧ t.vf n = { s.vf n with wtbase := v } ∧
      t.mem = s.mem := by
  have vf := s.vf_updVf_self (fun f => { f with wtbase := v }) hn
  refine ⟨_, (exec_registerWrite_vf s v hn (by omega)).trans (writeVf_wtbase s v h), ?_, vf, rfl⟩
  rw [registerRead_vf _ hn (by omega), readVf_wtbase, vf]

theorem registerWrite_winva (h : v.toNat % 65536 = 0) :
    ∃ t, exec (.registerWrite (n + 1) 0x1200 v) s = .next t ∧ t.registerRead (n + 1) 0x1200 = v.toNat ∧ t.vf n = { s.vf n with winva := v } ∧
      t.mem = s.mem := by
  have vf := s.vf_updVf_self (fun f => { f with winva := v }) hn
  refine ⟨_, (exec_registerWrite_vf s v hn (by omega)).trans (writeVf_winva s v h), ?_, vf, rfl⟩
  rw [registerRead_vf _ hn (by omega), readVf_winva, vf]

theorem registerWrite_vfstat (h : v.toNat < 8) :
    ∃ t, exec (.registerWrite (n + 1) 0x1040 v) s = .next t ∧ t.mem = s.mem ∧
      t.vf n = { s.vf n with rws := (s.vf n).rws && !v.getLsbD 0, lflt := (s.vf n).lflt && !v.getLsbD 1, srst := (s.vf n).srst && !v.getLsbD 2 } :=
  ⟨_, (exec_registerWrite_vf s v hn (by omega)).trans (writeVf_vfstat s v h), rfl, s.vf_updVf_self _ hn⟩

theorem registerWrite_vf_unnamed {off : Nat} (h8 : off % 8 = 0) (ho : 0x1208 ≤ off) (hb : off < 65536) :
    ∃ t, exec (.registerWrite (n + 1) off v) s = .next t ∧ t.vf n = { s.vf n with rws := true } ∧ t.registerRead (n + 1) off = 0 :=
  ⟨_, (exec_registerWrite_vf s v hn hb).trans (writeVf_unnamed s v h8 ho), s.vf_updVf_self _ hn, (registerRead_vf _ hn hb).trans (readVf_unnamed _ ho)⟩

theorem registerWrite_qbase {q : Nat} (hq : q < 16) (h : v.toNat % 128 = 0) :
    ∃ t, exec (.registerWrite (n + 1) (32 * q) v) s = .next t ∧ (t.queue n q).base = v ∧ t.registerRead (n + 1) (32 * q) = v.toNat := by
  have base := congrArg Queue.base (s.queue_updQueue_self (fun x => { x with base := v }) hn hq)
  refine ⟨_, (exec_registerWrite_vf s v hn (by omega)).trans (writeVf_qbase s v hq h), base, ?_⟩
  rw [registerRead_vf _ hn (by omega), readVf_qbase _ hq, base]

end VirtualFunction

/-! ### Registers of the package block (R382, R403, R438) -/

section Package
variable (s : State) (v : Word64)

theorem registerWrite_mbaddr : ∃ t, exec (.registerWrite 0 0x808 v) s = .next t ∧ t.mbAddr = v ∧ t.registerRead 0 0x808 = v.toNat ∧ t.mem = s.mem := by
  refine ⟨{ s with mbAddr := v }, ?_, rfl, ?_, rfl⟩
  · rw [exec_registerWrite_package s v rfl (by omega)]
    simp [State.writePackage]
  · rw [registerRead_package _ rfl (by omega)]
    simp [State.readPackage]

theorem registerWrite_mblen : ∃ t, exec (.registerWrite 0 0x810 v) s = .next t ∧ t.mbLen = v ∧ t.registerRead 0 0x810 = v.toNat ∧ t.mem = s.mem := by
  refine ⟨{ s with mbLen := v }, ?_, rfl, ?_, rfl⟩
  · rw [exec_registerWrite_package s v rfl (by omega)]
    simp [State.writePackage]
  · rw [registerRead_package _ rfl (by omega)]
    simp [State.readPackage]

/-- SEWIN takes the lower half of what is written, and a nonzero upper half is noted (R10). -/
theorem exec_registerWrite_sewin :
    exec (.registerWrite 0 0x10 v) s = .next (({ s with sewin := v.setWidth 32 } : State).pfNoteIf (fieldOf v 63 32 ≠ 0)) := by
  rw [exec_registerWrite_package s v rfl (by omega)]
  simp [State.writePackage]

theorem registerWrite_sewin (h : v.toNat < 2 ^ 32) :
    ∃ t, exec (.registerWrite 0 0x10 v) s = .next t ∧ t.sewin = v.setWidth 32 ∧ t.registerRead 0 0x10 = v.toNat ∧ t.pfRws = s.pfRws := by
  have upper : fieldOf v 63 32 = 0 := (fieldOf_63_32_eq_zero_iff v).mpr h
  refine ⟨{ s with sewin := v.setWidth 32 }, ?_, rfl, ?_, rfl⟩
  · simp [exec_registerWrite_sewin, State.pfNoteIf, upper]
  · rw [registerRead_package _ rfl (by omega), ← toNat_setWidth_of_lt h]
    simp [State.readPackage]

theorem registerWrite_sewin_noted (h : 2 ^ 32 ≤ v.toNat) :
    ∃ t, exec (.registerWrite 0 0x10 v) s = .next t ∧ t.sewin = v.setWidth 32 ∧ t.pfRws = true := by
  have upper : fieldOf v 63 32 ≠ 0 := fun e => absurd ((fieldOf_63_32_eq_zero_iff v).mp e) (Nat.not_lt.mpr h)
  refine ⟨({ s with sewin := v.setWidth 32 } : State).pfNote, ?_, rfl, rfl⟩
  simp [exec_registerWrite_sewin, State.pfNoteIf, upper]

end Package

/-! ### Registers of a slice control block (R377, R382, R384) -/

section Slice
variable (s : State) {gr : Nat} (v : Word64)

theorem writeSlice_inactive {off : Nat} (h : s.isSlice gr = false) : s.writeSlice gr off v = .next s.pfNote := by simp [State.writeSlice, h]

theorem readSlice_inactive {off : Nat} (h : s.isSlice gr = false) : s.readSlice gr off = 0 := by simp [State.readSlice, h]

theorem readSlice_rotq (h : s.isSlice gr = true) : s.readSlice gr 0x20 = (s.gran gr).rotq.toNat := by simp [State.readSlice, h]

theorem readSlice_pwait (h : s.isSlice gr = true) : s.readSlice gr 0x10 = (s.gran gr).pwait := by simp [State.readSlice, h]

theorem writeSlice_rotq (h : s.isSlice gr = true) : s.writeSlice gr 0x20 v = .next (s.updGran gr fun g => { g with rotq := v }) := by
  simp [State.writeSlice, h]

theorem writeSlice_pwait (h : s.isSlice gr = true) (hv : v.toNat < 65536) :
    s.writeSlice gr 0x10 v = .next (s.updGran gr fun g => { g with pwait := v.toNat }) := by
  have whole : fieldOf v 15 0 = v.toNat := fieldOf_zero_of_lt hv
  have rest : fieldOf v 63 16 = 0 := fieldOf_eq_zero_of_lt hv
  simp [State.writeSlice, State.pfNoteIf, h, whole, rest]

theorem registerWrite_rotq (h : s.isSlice gr = true) :
    ∃ t, exec (.registerWrite 0 (0x10000 + 0x1000 * gr + 0x20) v) s = .next t ∧ t.gran gr = { s.gran gr with rotq := v } ∧ t.mem = s.mem ∧
      t.registerRead 0 (0x10000 + 0x1000 * gr + 0x20) = v.toNat := by
  have hg := State.isSlice_lt h
  have gran := s.gran_updGran_self (fun g => { g with rotq := v }) hg
  refine ⟨_, (exec_registerWrite_slice s v hg rfl (by omega)).trans (writeSlice_rotq s v h), gran, rfl, ?_⟩
  rw [registerRead_slice _ hg rfl (by omega), readSlice_rotq _ (State.isSlice_updGran_self rfl h), gran]

theorem registerWrite_pwait (h : s.isSlice gr = true) (hv : v.toNat < 65536) :
    ∃ t, exec (.registerWrite 0 (0x10000 + 0x1000 * gr + 0x10) v) s = .next t ∧ t.gran gr = { s.gran gr with pwait := v.toNat } ∧
      t.registerRead 0 (0x10000 + 0x1000 * gr + 0x10) = v.toNat := by
  have hg := State.isSlice_lt h
  have gran := s.gran_updGran_self (fun g => { g with pwait := v.toNat }) hg
  refine ⟨_, (exec_registerWrite_slice s v hg rfl (by omega)).trans (writeSlice_pwait s v h hv), gran, ?_⟩
  rw [registerRead_slice _ hg rfl (by omega), readSlice_pwait _ (State.isSlice_updGran_self rfl h), gran]

theorem registerWrite_slice_inactive {off : Nat} (hg : gr < 16) (h : s.isSlice gr = false) (ho : off < 0x1000) (h8 : off % 8 = 0) :
    exec (.registerWrite 0 (0x10000 + 0x1000 * gr + off) v) s = .next { s with pfRws := true } ∧ s.registerRead 0 (0x10000 + 0x1000 * gr + off) = 0 :=
  ⟨(exec_registerWrite_slice s v hg h8 ho).trans (writeSlice_inactive s v h), (registerRead_slice s hg h8 ho).trans (readSlice_inactive s h)⟩

end Slice

/-! ### Registers of a per-function block (R388) -/

theorem writePerFunction_spol (s : State) {n : Nat} {v : Word64} (hv : v.toNat < 32) :
    s.writePerFunction n 0 v = .next (s.updVf n fun f => { f with spol := v.setWidth 5 }) := by
  have rest : fieldOf v 63 5 = 0 := fieldOf_eq_zero_of_lt hv
  simp [State.writePerFunction, State.pfNoteIf, rest]

theorem registerWrite_spol (s : State) {n : Nat} {v : Word64} (hn : n < 64) (hv : v.toNat < 32) :
    ∃ t, exec (.registerWrite 0 (0x20000 + 0x1000 * n) v) s = .next t ∧ t.vf n = { s.vf n with spol := v.setWidth 5 } ∧ t.mem = s.mem ∧
      t.registerRead 0 (0x20000 + 0x1000 * n) = v.toNat := by
  have vf := s.vf_updVf_self (fun f => { f with spol := v.setWidth 5 }) hn
  refine ⟨_, (exec_registerWrite_perFunction (off := 0) s v hn rfl (by omega)).trans (writePerFunction_spol s hv), vf, rfl, ?_⟩
  calc (s.updVf n fun f => { f with spol := v.setWidth 5 }).registerRead 0 (0x20000 + 0x1000 * n)
      = (s.updVf n fun f => { f with spol := v.setWidth 5 }).readPerFunction n 0 := registerRead_perFunction (off := 0) _ hn rfl (by omega)
    _ = (v.setWidth 5).toNat := by simp [State.readPerFunction, vf]
    _ = v.toNat := toNat_setWidth_of_lt hv

/-- Settles O52: each clause is the write of one register, which reaches its block by its offset and is read back there. -/
theorem registersOfTheHost : Obligations.RegistersOfTheHost := by
  unfold Obligations.RegistersOfTheHost
  refine ⟨fun s n v hn => ⟨registerWrite_wtbase s v hn, registerWrite_winva s v hn, registerWrite_vfstat s v hn, fun off => registerWrite_vf_unnamed s v hn,
      fun q => registerWrite_qbase s v hn⟩,
    fun s v => ⟨registerWrite_mbaddr s v, registerWrite_mblen s v, registerWrite_sewin s v, registerWrite_sewin_noted s v⟩,
    fun s gr v h => ⟨registerWrite_rotq s v h, registerWrite_pwait s v h⟩,
    fun s gr off v hg h => registerWrite_slice_inactive s v hg h,
    fun s n v hn hv => registerWrite_spol s hn hv⟩

end Sys2Proof.Machine
end

section
/-!
The machine at package reset (R37, R377, R381, R384, R388, R389, R403): its tables hold reset entries everywhere, and the registers of `Obligations.ResetState` read
from those.
-/
set_option Elab.async false
namespace Sys2Proof.Machine
open Sys2Proof

namespace State

/-! ### The tables of the reset state -/

theorem gran_reset {g : Nat} (hg : g < 16) : reset.gran g = Granule.atReset g := by
  simp [gran, reset, gransAtReset, tget, hg]

@[simp] theorem vf_reset (n : Nat) : reset.vf n = {} := tget_tableOf ..

@[simp] theorem link_reset (k : Nat) : reset.link k = {} := tget_tableOf ..

theorem queue_reset (n q : Nat) : reset.queue n q = {} := by
  rw [queue, vf_reset]
  exact tget_tableOf ..

theorem isSlice_reset {g : Nat} (hg : g < 16) : reset.isSlice g = true := by
  simp [isSlice, gran_reset hg, hg, Granule.atReset]

/-! ### The registers of the reset state -/

/-- A register of slice control block `g` reads what the granule of a fresh slice holds. -/
theorem registerRead_slice_reset {g off v : Nat} (hg : g < 16) (h8 : off % 8 = 0) (ho : off < 0x1000) (h : reset.readSlice g off = v) :
    reset.registerRead 0 (0x10000 + 0x1000 * g + off) = v := by
  rw [registerRead_slice _ hg h8 ho, h]

theorem sliceRegisters_reset {g : Nat} (hg : g < 16) :
    reset.registerRead 0 (0x10000 + 0x1000 * g) = 256 ∧ reset.registerRead 0 (0x10000 + 0x1000 * g + 0x10) = 100 ∧
      reset.registerRead 0 (0x10000 + 0x1000 * g + 0x18) = 0 ∧ reset.registerRead 0 (0x10000 + 0x1000 * g + 0x58) = 100000000 ∧
      reset.registerRead 0 (0x10000 + 0x1000 * g + 0x30) = 4 * g + 2 ^ 8 * (4 * g + 3) := by
  have entry := gran_reset hg
  have slice := isSlice_reset hg
  refine ⟨registerRead_slice_reset (off := 0) hg rfl (by omega) ?_, registerRead_slice_reset hg rfl (by omega) ?_,
    registerRead_slice_reset hg rfl (by omega) ?_, registerRead_slice_reset hg rfl (by omega) ?_, registerRead_slice_reset hg rfl (by omega) ?_⟩ <;>
    simp [readSlice, slice, entry, Granule.atReset, b2n]
  omega

theorem functionRegisters_reset {n : Nat} (hn : n < 64) :
    reset.registerRead 0 (0x20000 + 0x1000 * n + 0x58) = 2 ∧ reset.registerRead (n + 1) 0x1008 = 4 ∧ reset.registerRead (n + 1) 0x1040 = 0 := by
  refine ⟨?_, ?_, ?_⟩
  · rw [registerRead_perFunction _ hn rfl (by omega)]
    simp [readPerFunction, b2n]
  · rw [registerRead_vf _ hn (by omega)]
    simp [readVf, Inval.readC, b2n]
  · rw [registerRead_vf _ hn (by omega)]
    simp [readVf, b2n]

end State

/-- Settles O54: the tables of the reset state hold their reset entries, from which the registers read. -/
theorem resetState : Obligations.ResetState := by
  unfold Obligations.ResetState
  refine ⟨rfl, rfl, rfl, rfl, rfl, rfl, rfl, rfl, rfl, fun k _ => by rw [State.link_reset], fun g hg => ?_, fun n hn => ?_, ?_, State.reset_mem_wf,
    fun _ => rfl, by decide⟩
  · refine ⟨State.isSlice_reset hg, ?_, ?_, ?_, State.sliceRegisters_reset hg⟩ <;> rw [State.gran_reset hg] <;> rfl
  · obtain ⟨reset, invalidation, status⟩ := State.functionRegisters_reset hn
    refine ⟨by rw [State.vf_reset], by rw [State.vf_reset], reset, invalidation, status, fun q _ => ?_⟩
    rw [State.queue_reset]
    rfl
  · rw [registerRead_package _ rfl (by omega)]
    rfl

end Sys2Proof.Machine
end

section
/-!
Why `Obligations.AccumulatorsAndSettings` fails (R36, R203, R223, R226). As an `mxzero` joins the operations on its accumulator, the older operations of its group that
may take effect do so. One of them can be a `dlr.stat` whose header line is poisoned: it raises POISON, and the issuing slot goes to its handler. An `mxzero` then moves
its slot on from the handler's unit; where that sum wraps round to the end of the handler's empty block, the slot makes an entry there, and it does not stand in the
block that it stood in.
-/
set_option Elab.async false
namespace Sys2Proof.Machine
open Sys2Proof

/-- A property of the state that an outcome goes on to. -/
def goesOnTo (p : State → Bool) : Out → Bool
  | .next t => p t
  | _ => false

/-- Whether the issuing slot has an entry of the kind pending. -/
def hasEntry (e : EntryMode) (t : State) : Bool := t.cur.me.blk.entry = e

/-- An instruction that goes on where an entry of one kind is pending is not behind an effect that leaves an entry of another kind. -/
theorem Completes.entry_unique {i : Instr} {c : Ctl} {s s1 u : State} {dest : RClass → Nat → Nat → Bool} {e e' : EntryMode}
    (h : Completes i c s s1 u dest) (hu : hasEntry e u = true) (hx : goesOnTo (hasEntry e') (exec i s) = true) : e' = e := by
  obtain ⟨t, hexec, after⟩ := h
  rw [hexec] at hx
  have same : t.cur.me.blk = u.cur.me.blk := after.path.2.2.2.2
  exact (of_decide_eq_true hx).symm.trans ((congrArg Blk.entry same).trans (of_decide_eq_true hu))

namespace PoisonedStat

/-- The group: accumulator 0 is reserved, a `dlr.stat` of the header at 0 is open, and the trap vector lies two units below 2^32. -/
def group : Group :=
  { id := 1, na := 1, seq := 1, trapvec := 0xFFFFFFFE, acc := tset (tableOf 8 {}) 0 { bound := true },
    slot0 := { st := .live, pc := 16, mask := 1, blk := { hdr := 14, bend := 20 } },
    ops := [{ seq := 0, slot1 := false, path := some .mx, pc := 14, kind := .dlr 2 0 0 0 0 }],
    pend := [{ seq := 0, slot1 := false, write := { cls := .s, reg := 0, lanes := allLanes, val := Lanes.const 0 }, ret := false }] }

/-- The machine: line 0, where the header stands, is poisoned. -/
def machine : State := { State.reset with cur := group, poison := [0] }

/-- The machine once `mxzero a0` has taken effect, as the statement gives it. -/
def effect : State :=
  ((machine.setCur ((group.setAccName (group.rD {} 0) { group.accName (group.rD {} 0) with cur := 0 }).addOp machine.steps (some .mx)
    (.mxzero (group.accName (group.rD {} 0)).key)))).settleAcc group.id none

theorem ready : Ready (.mxzero {} 0) {} machine machine := by
  refine ⟨by decide, by decide +kernel, rfl, by decide +kernel, .inl rfl, by decide⟩

theorem pathFree : machine.pathFree .mx = .ok () := by decide +kernel

/-- The `dlr.stat` sends the slot to its handler. -/
theorem effect_entry : hasEntry .vec effect = true := by decide +kernel

/-- The slot makes another entry behind the `mxzero`. -/
theorem exec_entry : goesOnTo (hasEntry .fall) (exec (.mxzero {} 0) machine) = true := by decide +kernel

end PoisonedStat

open PoisonedStat in
/-- Refutes O19: behind `mxzero a0` in `PoisonedStat.machine` the slot has an entry of another kind pending than in the state of which the statement says that the
instruction is behind it. -/
theorem not_accumulatorsAndSettings : ¬ Obligations.AccumulatorsAndSettings := by
  unfold Obligations.AccumulatorsAndSettings
  rintro ⟨⟨accumulators, -⟩, -⟩
  obtain ⟨-, -, zero⟩ := accumulators {} 0 machine machine (by decide +kernel)
  have completes := zero ready pathFree (by decide +kernel)
  exact absurd (completes.entry_unique (show hasEntry .vec effect = true from effect_entry) exec_entry) (by decide)

end Sys2Proof.Machine
end

section
/-!
What the machine does for an access beside it (R305, R313, R331, R334, R345, R346, R414): walks, fills, write-backs, trace records, breaks of barriers. All of it
leaves the path of the issuing group, its windows and its registers.
-/
set_option Elab.async false
namespace Sys2Proof.Machine
open Sys2Proof

/-- A group without what an access of any agent can change of it: the wake-up of its waits, its polls, its operations, its records, and its marks. -/
def Group.frame (g : Group) : Group :=
  { g with slot0 := { g.slot0 with woken := none }, slot1 := { g.slot1 with woken := none }, polls := [], ops := [], recs := [], watchHit := false, divTouched := false }

namespace State

/-- What an access of any agent leaves of the machine: its step, and the frame of the issuing group. -/
def spine (s : State) : Nat × Group := (s.steps, s.cur.frame)

theorem steps_of_spine {s t : State} (h : t.spine = s.spine) : t.steps = s.steps := congrArg Prod.fst h
theorem frame_of_spine {s t : State} (h : t.spine = s.spine) : t.cur.frame = s.cur.frame := congrArg Prod.snd h

/-! ### Changes outside the issuing group -/

@[simp] theorem updVf_spine (s : State) (n : Nat) (f : VFun → VFun) : (s.updVf n f).spine = s.spine := rfl
@[simp] theorem updCore_spine (s : State) (n : Nat) (f : Core → Core) : (s.updCore n f).spine = s.spine := rfl

theorem spine_foldl {α : Type} {f : State → α → State} (hf : ∀ s a, (f s a).spine = s.spine) :
    ∀ (l : List α) (s : State), (l.foldl f s).spine = s.spine
  | [], _ => rfl
  | a :: l, s => (spine_foldl hf l (f s a)).trans (hf s a)

theorem mapGroups_spine (s : State) {f : Group → Group} (hf : ∀ g, (f g).frame = g.frame) : (s.mapGroups f).spine = s.spine :=
  congrArg (Prod.mk s.steps) (hf s.cur)

theorem updGroup_spine (s : State) (id : Nat) {f : Group → Group} (hf : ∀ g, (f g).frame = g.frame) : (s.updGroup id f).spine = s.spine := by
  unfold updGroup
  split
  · exact congrArg (Prod.mk s.steps) (hf s.cur)
  · rfl

/-! ### Homes, caches -/

@[simp] theorem blockWrite_spine (s : State) (blk off : Nat) (d : List Byte) : (s.blockWrite blk off d).spine = s.spine := rfl

@[simp] theorem ctlWrite_spine (s : State) (loc : Nat) (d : List Byte) : (s.ctlWrite loc d).spine = s.spine := by
  unfold ctlWrite; dsimp only; split <;> rfl

@[simp] theorem homeWrite_spine (s : State) (loc : Nat) (d : List Byte) : (s.homeWrite loc d).spine = s.spine := by
  unfold homeWrite
  dsimp only
  split
  · split <;> rfl
  · rw [ctlWrite_spine]; split <;> rfl

@[simp] theorem bumpHot_spine (s : State) (leaf : Nat) : (s.bumpHot leaf).spine = s.spine := by
  unfold bumpHot
  dsimp only
  split
  · rfl
  · split
    · rfl
    · exact homeWrite_spine ..

@[simp] theorem writeback_spine (s : State) (keep : Bool) (pa : Nat) : (s.writeback keep pa).spine = s.spine := by
  unfold writeback
  split
  · rfl
  · dsimp only
    split
    · rfl
    · rw [bumpHot_spine, bumpHot_spine, ctlWrite_spine]; rfl

@[simp] theorem dropL1_spine (s : State) (vf : Nat) (p : Nat → Bool) : (s.dropL1 vf p).spine = s.spine :=
  spine_foldl (fun s c => updCore_spine s c _) _ s

@[simp] theorem dropL1s_spine (s : State) (p : L1Line → Bool) : (s.dropL1s p).spine = s.spine := by
  unfold dropL1s; split <;> rfl

@[simp] theorem flushLines_spine (s : State) (p : L2Line → Bool) : (s.flushLines p).spine = s.spine :=
  (spine_foldl (fun s (l : L2Line) => (dropL1_spine _ _ _).trans (writeback_spine s false l.pa)) _ s : _)

@[simp] theorem dropCoreLine_spine (s : State) (core : Option Nat) (loc : Nat) : (s.dropCoreLine core loc).spine = s.spine := by
  unfold dropCoreLine
  split
  · rfl
  · split <;> rfl

@[simp] theorem serveFill_spine (s : State) (vf va loc l1 l2 : Nat) : (s.serveFill vf va loc l1 l2).spine = s.spine := by
  unfold serveFill
  dsimp only
  split <;> split <;> simp

@[simp] theorem trimL1_spine (s : State) (core n : Nat) : (s.trimL1 core n).spine = s.spine := by
  simp only [spine, trimL1_cur, trimL1_steps]

@[simp] theorem fillL1_spine (s : State) (core vf va loc : Nat) (a : Attr) (ev : Bool) : (s.fillL1 core vf va loc a ev).spine = s.spine := by
  unfold fillL1
  dsimp only
  split <;> simp

/-! ### Translation -/

@[simp] theorem walkRead_spine (s : State) (vf : Nat) (st : Bool) (level a va : Nat) : (s.walkRead vf st level a va).1.spine = s.spine := by
  unfold walkRead
  dsimp only
  split
  · rfl
  · split <;> rfl

@[simp] theorem walk2_spine (vf gpa : Nat) : ∀ (ls : List Nat) (base : Nat) (s : State), (walk2 vf gpa ls base s).1.spine = s.spine
  | [], _, _ => rfl
  | lv :: r, base, s => by
    unfold walk2
    dsimp only
    have h := walkRead_spine s vf true lv (base + 8 * tableIx lv gpa) gpa
    split
    · exact h
    · split
      · exact h
      · split
        · split <;> exact h
        · exact (walk2_spine vf gpa r _ _).trans h

@[simp] theorem stage2_spine (s : State) (vf gpa : Nat) : (s.stage2 vf gpa).1.spine = s.spine := walk2_spine ..

@[simp] theorem walk1_spine (vf va : Nat) : ∀ (ls : List Nat) (base : Nat) (s : State), (walk1 vf va ls base s).1.spine = s.spine
  | [], _, _ => rfl
  | lv :: r, base, s => by
    unfold walk1
    have h2 := stage2_spine s vf (base + 8 * tableIx lv va)
    split
    · rename_i s' a _ _ _ hs
      rw [hs] at h2
      have h := (walkRead_spine s' vf false lv a va).trans h2
      dsimp only
      split
      · exact h
      · split
        · exact h
        · split
          · exact h
          · exact (walk1_spine vf va r _ _).trans h
    · rename_i s' w _ hs
      rw [hs] at h2
      exact h2

@[simp] theorem noteWalk_spine (s : State) (t : Walked) : (s.noteWalk t).spine = s.spine := by
  unfold noteWalk
  dsimp only
  split
  · split <;> rfl
  · rw [dropL1s_spine, flushLines_spine]; split <;> rfl

@[simp] theorem walk_spine (s : State) (vf va : Nat) : (s.walk vf va).1.spine = s.spine := by
  unfold walk
  have h1 := walk1_spine vf va [3, 2, 1, 0] (s.vf vf).s1root s
  split <;> rename_i hs <;> rw [hs] at h1
  · exact h1
  · exact h1
  · rename_i s' gpa _ _ _
    have h2 := (stage2_spine s' vf gpa).trans h1
    split <;> rename_i hs2 <;> rw [hs2] at h2
    · exact h2
    · exact h2
    · exact (noteWalk_spine _ _).trans h2

@[simp] theorem translate_spine (s : State) (vf va : Nat) (core : Option Nat) : (s.translate vf va core).1.spine = s.spine := by
  unfold translate
  dsimp only
  split
  · rfl
  · exact walk_spine ..

/-! ### Watch events and trace records -/

@[simp] theorem watchMask_spine (s : State) (vf va loc slot : Nat) : (s.watchMask vf va loc slot).1.spine = s.spine := by
  unfold watchMask
  split
  · rfl
  · have h := stage2_spine s vf ((s.vf vf).wtbase.toNat + 8192 * slot + 8 * (va / 64 % 1024))
    dsimp only
    split <;> rename_i hs <;> rw [hs] at h <;> exact h

@[simp] theorem bumpRegions_spine (s : State) (vf va n : Nat) : (s.bumpRegions vf va n).spine = s.spine := rfl

@[simp] theorem keepPast_spine (s : State) (loc : Nat) (d : List Byte) (w : Writer) : (s.keepPast loc d w).spine = s.spine := by
  unfold keepPast
  split
  · rfl
  · split
    · exact updGroup_spine s _ fun _ => rfl
    · rfl

/-- Waking the waiters of barriers changes no more of a group than whether its waits are over. -/
@[simp] theorem wakeWaiters_spine (s : State) (p : BarLoc → Bool) (id : Nat) (lpc : Word32) : (s.wakeWaiters p id lpc).spine = s.spine := by
  have slot : ∀ t : Slot, { (match t.tw with
      | some (b, _) => if p b then { t with woken := some (id, lpc) } else t
      | none => t : Slot) with woken := none } = { t with woken := none } := fun t => by
    split
    · split <;> rfl
    · rfl
  exact congrArg₂ (fun a b => (s.steps, ({ s.cur.frame with slot0 := a, slot1 := b } : Group))) (slot s.cur.slot0) (slot s.cur.slot1)

@[simp] theorem breakLine_spine (s : State) (loc : Nat) : (s.breakLine loc).spine = s.spine := by
  unfold breakLine
  split
  · rfl
  · dsimp only; rw [wakeWaiters_spine, homeWrite_spine]; rfl

@[simp] theorem dropRecs_spine (s : State) (loc : Nat) (keep : Option Nat) : (s.dropRecs loc keep).spine = s.spine :=
  spine_foldl (fun s c => by split <;> rfl) _ s

@[simp] theorem touchDiv_spine (s : State) (vf va n : Nat) : (s.touchDiv vf va n).spine = s.spine :=
  mapGroups_spine s fun g => by split <;> rfl

@[simp] theorem write_spine (s : State) (vf va loc : Nat) (d : List Byte) (w : Writer) : (s.write vf va loc d w).spine = s.spine := by
  unfold write
  dsimp only
  split
  · rfl
  · split <;> split <;> simp

@[simp] theorem record_spine (s : State) (vf : Nat) (beacon : Bool) (d : List Byte) : (s.record vf beacon d).spine = s.spine := by
  unfold record
  dsimp only
  generalize (if beacon = true then (s.vf vf).beacon else (s.vf vf).trace) = b
  split
  · rfl
  · have h := translate_spine s vf (b.base.toNat + 32 * (b.tail.toNat % 2 ^ b.log2n.toNat)) none
    split <;> rename_i hs <;> rw [hs] at h
    · split
      · rw [updVf_spine, write_spine]; exact h
      · exact h
    · exact h

@[simp] theorem traceWatch_spine (s : State) (vf : Nat) (ag : Agent) (d : List Byte) : (s.traceWatch vf ag d).spine = s.spine := by
  unfold traceWatch
  split
  · exact record_spine ..
  · split
    · exact record_spine ..
    · exact updGroup_spine s _ fun _ => rfl

@[simp] theorem watch_spine (s : State) (vf va loc n acc : Nat) (ag : Agent) : (s.watch vf va loc n acc ag).spine = s.spine := by
  unfold watch
  split
  · rfl
  · rename_i slot _
    have h := watchMask_spine s vf va loc slot
    dsimp only
    split
    · exact h
    · split
      · split
        · refine (updGroup_spine _ _ ?_).trans ((traceWatch_spine ..).trans h)
          exact fun _ => rfl
        · exact (traceWatch_spine ..).trans h
      · exact (traceWatch_spine ..).trans h

/-! ### Fetch (R50) and acceptance (R326) -/

/-- A fetch leaves the path and the registers of the group that fetches. -/
theorem fetchUnit_spine {s t : State} {off : Nat} {u : Word32} (h : s.fetchUnit off = .ok (t, u)) : t.spine = s.spine := by
  unfold fetchUnit at h
  dsimp only at h
  have ht := translate_spine s s.cur.vf ((s.cur.kbase.toNat + 4 * off) % 2 ^ 64) (some s.cur.coreIx)
  split at h
  · cases h
  · split at h
    · cases h
    · cases h
    · rename_i s' loc a hs
      rw [hs] at ht
      split at h
      · cases h
      · split at h
        · cases h
        · split at h <;> cases h
          · exact (watch_spine ..).trans ht
          · exact (fillL1_spine ..).trans ((watch_spine ..).trans ht)

theorem xlatLanes_spine (vf : Nat) : ∀ (rs : List LaneReq) (s : State) (done : List (Nat × Xlat)), (s.xlatLanes vf rs done).1.spine = s.spine
  | [], _, _ => rfl
  | r :: rest, s, done => by
    unfold xlatLanes
    split
    · exact xlatLanes_spine vf rest s done
    · exact (xlatLanes_spine vf rest _ _).trans (translate_spine ..)

/-- The acceptance of an instruction's accesses leaves the path and the registers of its group. -/
theorem accept_spine {s t : State} {vf : Nat} {kind : AccKind} {size : Nat} {p rd : Bool} {rs : List LaneReq} {accs : List LaneAcc}
    (h : s.accept vf kind size p rs rd = .ok (t, accs)) : t.spine = s.spine := by
  unfold accept at h
  simp only [bind, Except.bind, pure, Except.pure] at h
  repeat' split at h
  all_goals cases h
  exact xlatLanes_spine vf rs s []

end State
end Sys2Proof.Machine
end

section
/-!
What a bank, a commit park and a trap leave unchanged (R36, R66 to R68, R175, R395), and that they keep a group sound.
-/
set_option Elab.async false
namespace Sys2Proof.Machine
open Sys2Proof

namespace Group

/-! ### Banks and commits -/

/-- A group with the registers, the uncommitted results and the flags of another. -/
def wear (h g : Group) : Group := { h with v := g.v, s := g.s, p := g.p, pend := g.pend, late := g.late, fpflags := g.fpflags }

/-- `h` is `g` but for its registers, its uncommitted results and its flags. -/
def Banked (g h : Group) : Prop := h.wear g = g

theorem Banked.eq {g h : Group} (a : Banked g h) : h.wear g = g := a

theorem Banked.trans {g h k : Group} (a : Banked g h) (b : Banked h k) : Banked g k :=
  (congrArg (·.wear g) b.eq : k.wear g = h.wear g).trans a.eq

theorem banked_foldl {α : Type} {f : Group → α → Group} (hf : ∀ g a, Banked g (f g a)) : ∀ (l : List α) (g : Group), Banked g (l.foldl f g)
  | [], _ => rfl
  | a :: l, g => (hf g a).trans (banked_foldl hf l (f g a))

theorem bankEnt_banked (g : Group) (b : Bool) (e : WinEnt) : Banked g (g.bankEnt b e) :=
  (congrArg (·.wear g) (bankEnt_rest g b e) : (g.bankEnt b e).wear g = g)

theorem commitOne_banked (g : Group) (p : Pend) : Banked g (g.commitOne p) :=
  (congrArg (·.wear g) (bankWrite_rest g p.write) : (g.commitOne p).wear g = g)

theorem Banked.slot {g h : Group} (a : Banked g h) (b : Bool) : h.slot b = g.slot b :=
  (congrArg (Group.slot · b) a.eq : (h.wear g).slot b = g.slot b)

/-- A bank of a window leaves that window empty, and changes registers, results and flags beside it. -/
theorem bankSlot_banked (g : Group) (b : Bool) : Banked (g.setSlot b { g.slot b with win := [] }) (g.bankSlot b) := by
  have h : Banked g ((g.slot b).win.reverse.foldl (fun g e => g.bankEnt b e) g) := banked_foldl (fun g e => bankEnt_banked g b e) _ g
  cases b
  · exact (congrArg (fun x : Group => x.setSlot false { x.slot0 with win := [] }) h.eq : _)
  · exact (congrArg (fun x : Group => x.setSlot true { x.slot1 with win := [] }) h.eq : _)

/-- A group with empty windows. -/
def emptied (g : Group) : Group := { g with slot0 := { g.slot0 with win := [] }, slot1 := { g.slot1 with win := [] } }

theorem slot_emptied (g : Group) (b : Bool) : g.emptied.slot b = { g.slot b with win := [] } := by cases b <;> rfl

/-- A commit empties the windows, and changes registers, results and flags beside them. -/
theorem commit_banked (g : Group) : Banked g.emptied g.commit := by
  have h1 := banked_foldl (fun g (e : Bool × WinEnt) => bankEnt_banked g e.1 e.2) (winOrder g.slot0.win.reverse g.slot1.win.reverse) g
  have h2 : Banked g.emptied g.bankAll := (congrArg emptied h1.eq : _)
  exact (h2.trans (banked_foldl commitOne_banked g.bankAll.pend g.bankAll) : _)

@[simp] theorem commit_pend (g : Group) : g.commit.pend = [] := rfl

theorem slot_commit (g : Group) (b : Bool) :
    g.commit.slot b = { g.slot b with win := [] } := ((commit_banked g).slot b).trans (slot_emptied g b)
@[simp] theorem commit_slot0 (g : Group) : g.commit.slot0 = { g.slot0 with win := [] } := slot_commit g false
@[simp] theorem commit_slot1 (g : Group) : g.commit.slot1 = { g.slot1 with win := [] } := slot_commit g true
@[simp] theorem commit_seq (g : Group) : g.commit.seq = g.seq :=
  (congrArg Group.seq g.commit_banked.eq : (g.commit.wear g.emptied).seq = g.emptied.seq)
@[simp] theorem commit_sel1 (g : Group) : g.commit.sel1 = g.sel1 :=
  (congrArg Group.sel1 g.commit_banked.eq : (g.commit.wear g.emptied).sel1 = g.emptied.sel1)
@[simp] theorem commit_id (g : Group) : g.commit.id = g.id :=
  (congrArg Group.id g.commit_banked.eq : (g.commit.wear g.emptied).id = g.emptied.id)
@[simp] theorem commit_wg (g : Group) : g.commit.wg = g.wg :=
  (congrArg Group.wg g.commit_banked.eq : (g.commit.wear g.emptied).wg = g.emptied.wg)
@[simp] theorem commit_nv (g : Group) : g.commit.nv = g.nv :=
  (congrArg Group.nv g.commit_banked.eq : (g.commit.wear g.emptied).nv = g.emptied.nv)
@[simp] theorem commit_ns (g : Group) : g.commit.ns = g.ns :=
  (congrArg Group.ns g.commit_banked.eq : (g.commit.wear g.emptied).ns = g.emptied.ns)
@[simp] theorem commit_np (g : Group) : g.commit.np = g.np :=
  (congrArg Group.np g.commit_banked.eq : (g.commit.wear g.emptied).np = g.emptied.np)

/-! ### Soundness -/

/-- A group keeps sound while its windows empty or stay, and its counts and its place in issue order stay. -/
theorem Sound.keep {g h : Group} (hg : g.Sound) (hw : ∀ b, (h.slot b).win = [] ∨ (h.slot b).win = (g.slot b).win)
    (hq : h.seq = g.seq) (hv : h.nv = g.nv) (hs : h.ns = g.ns) (hp : h.np = g.np) : h.Sound := by
  obtain ⟨win, v, s, p⟩ := hg
  refine ⟨fun b => ?_, by rwa [hv], by rwa [hs], by rwa [hp]⟩
  rw [hq]
  rcases hw b with e | e <;> rw [e]
  · simp
  · exact win b

theorem Sound.commit {g : Group} (hg : g.Sound) : g.commit.Sound :=
  hg.keep (fun b => .inl (by rw [slot_commit])) g.commit_seq g.commit_nv g.commit_ns g.commit_np

/-- An instruction that joins its window keeps its group sound. -/
theorem Sound.group_done {g : Group} (hg : g.Sound) (i : Instr) (c : Ctl) (x : BitVec 16) (w : Option RegWrite) (k : Nat) :
    (g.done i c x w k).Sound := by
  obtain ⟨win, hv, hs, hp⟩ := hg
  obtain ⟨rest, -, other, -, -, -, -, -, -, -, sel, seq⟩ := done_spec g i c x w k
  refine ⟨fun b => ?_, ?_, ?_, ?_⟩
  · rw [seq]
    by_cases hb : b = g.sel1
    · subst hb
      obtain ⟨killed, hk, same⟩ := kills_spec g i c x
      have own : ((g.done i c x w k).slot g.sel1).win = (({ seq := g.seq, write := w } : WinEnt) :: killed).take 8 := by
        have pushed := (pushWin_spec (g.kills i c x) w).2.2.2.2.2.1
        have hme : (g.done i c x w k).slot g.sel1 = (g.done i c x w k).me := by rw [me, sel]
        rw [hme, Group.done, me_setMe]
        show ((g.kills i c x).pushWin w).me.win = _
        rw [pushed, hk]
        simp
      rw [own]
      refine ⟨List.length_take_le .., fun e he => ?_⟩
      rcases List.mem_cons.1 (List.mem_of_mem_take he) with rfl | he
      · exact Nat.lt_succ_self _
      · have : (e.seq, e.write) ∈ writes g.me.win := same ▸ List.mem_map_of_mem he
        obtain ⟨f, hf, hfe⟩ := List.mem_map.1 this
        have older := (win g.sel1).2 f hf
        simp only [Prod.mk.injEq] at hfe
        omega
    · obtain rfl := Bool.eq_not.2 hb
      rw [other]
      exact ⟨(win _).1, fun e he => Nat.lt_succ_of_lt ((win _).2 e he)⟩
  · rwa [show (g.done i c x w k).nv = g.nv from (congrArg Group.nv rest : (g.done i c x w k).bare.nv = g.bare.nv)]
  · rwa [show (g.done i c x w k).ns = g.ns from (congrArg Group.ns rest : (g.done i c x w k).bare.ns = g.bare.ns)]
  · rwa [show (g.done i c x w k).np = g.np from (congrArg Group.np rest : (g.done i c x w k).bare.np = g.bare.np)]

end Group

namespace State

/-! ### The allocations of a park -/

theorem trimL1_rest (s : State) (core n : Nat) : { s.trimL1 core n with cores := s.cores } = s := by
  unfold trimL1; dsimp only; split <;> rfl

theorem finishAlloc_rest (s : State) (wg h : Nat) : { s.finishAlloc wg h with wgs := s.wgs, cores := s.cores } = s := by
  unfold finishAlloc
  split
  · rfl
  · split
    · rfl
    · dsimp only
      split
      · rfl
      · exact congrArg (fun x : State => { x with wgs := s.wgs }) (trimL1_rest (s.updHandle wg h _) _ _)

/-- The allocations of a group that complete change workgroups, and what the cores' L1s hold (R175, R324). -/
theorem finishAllocs_rest (s : State) (id wg : Nat) : { s.finishAllocs id wg with wgs := s.wgs, cores := s.cores } = s := by
  have key : ∀ {f : State → Nat → State}, (∀ s h, { f s h with wgs := s.wgs, cores := s.cores } = s) →
      ∀ (l : List Nat) (s : State), { l.foldl f s with wgs := s.wgs, cores := s.cores } = s := by
    intro f hf l
    induction l with
    | nil => exact fun _ => rfl
    | cons a l ih => exact fun s => (congrArg (fun x : State => { x with wgs := s.wgs, cores := s.cores }) (ih (f s a))).trans (hf s a)
  unfold finishAllocs
  split
  · rfl
  · refine key (fun s h => ?_) _ s
    dsimp only
    split
    · exact finishAlloc_rest s wg h
    · rfl

/-- What a commit park of group `id` does beside the group: its writes of workgroup registers are published, its allocations complete (R66, R119, R175). -/
def parkEnd (s : State) (id wg : Nat) : State := (s.publishW id wg).finishAllocs id wg

theorem parkEnd_rest (s : State) (id wg : Nat) : { s.parkEnd id wg with wgs := s.wgs, cores := s.cores } = s :=
  congrArg (fun x : State => { x with wgs := s.wgs }) (finishAllocs_rest (s.publishW id wg) id wg)

@[simp] theorem parkEnd_cur (s : State) (id wg : Nat) : (s.parkEnd id wg).cur = s.cur :=
  (congrArg (fun x : State => x.cur) (parkEnd_rest s id wg) : _)
@[simp] theorem parkEnd_groups (s : State) (id wg : Nat) : (s.parkEnd id wg).groups = s.groups :=
  (congrArg (fun x : State => x.groups) (parkEnd_rest s id wg) : _)
@[simp] theorem parkEnd_vfs (s : State) (id wg : Nat) : (s.parkEnd id wg).vfs = s.vfs :=
  (congrArg (fun x : State => x.vfs) (parkEnd_rest s id wg) : _)

/-! ### The commit park before an instruction -/

/-- A commit park that is taken: none was asked for or it had been taken, or every result has returned and the group commits (R66). -/
theorem takePark_cases {s s1 : State} {park : Bool} (h : s.takePark park = some s1) :
    s1 = s ∨ s1.cur = s.cur.commit.setMe { s.cur.commit.me with parked := true, parking := false } := by
  unfold takePark at h
  dsimp only at h
  split at h
  · exact .inl (Option.some.inj h).symm
  · split at h
    · exact .inr (Option.some.inj h ▸ finishAllocs_cur ..)
    · cases h

/-- Taking a commit park leaves the slot at its item. -/
theorem takePark_at {s s1 : State} {park : Bool} (h : s.takePark park = some s1) : s1.cur.sel1 = s.cur.sel1 ∧ s1.cur.me.pc = s.cur.me.pc := by
  rcases takePark_cases h with rfl | e
  · exact ⟨rfl, rfl⟩
  · rw [e, Group.me_setMe]
    exact ⟨by simp, by simp only [Group.me, Group.slot_commit, Group.commit_sel1]⟩

theorem takePark_sound {s s1 : State} {park : Bool} (hs : s.cur.Sound) (h : s.takePark park = some s1) : s1.cur.Sound := by
  rcases takePark_cases h with rfl | e
  · exact hs
  · rw [e]
    refine hs.commit.keep (fun b => .inr ?_) (by simp) (by simp) (by simp) (by simp)
    by_cases hb : b = s.cur.commit.sel1
    · subst hb; simp [Group.setMe, Group.me]
    · obtain rfl := Bool.eq_not.2 hb
      simp only [Group.setMe, Group.slot_setSlot_not]

end State
end Sys2Proof.Machine
end

section
/-!
How a trap of the issuing group is delivered (R36, R66, R395, R419).
-/
set_option Elab.async false
namespace Sys2Proof.Machine
open Sys2Proof

/-- A group as a trap finds it: its commit park is taken, and nothing waits to be delivered (R36, R66). -/
def Group.trapCommit (g : Group) : Group := { g.commit with pendTrap := none, pageWait := none }

namespace Group

/-- A group that halts for a trap (R36, R395). -/
def haltFor (g : Group) (t : TrapRec) : Group := { g with halt := some (.trap t.cause.code.toNat t.pc t.addr) }

/-- The commit of a trap empties the windows, and changes registers, results, flags and what waits beside them. -/
theorem trapCommit_banked (g : Group) : Banked { g.emptied with pendTrap := none, pageWait := none } g.trapCommit :=
  (congrArg (fun h : Group => { h with pendTrap := none, pageWait := none }) g.commit_banked.eq :
    g.trapCommit.wear { g.emptied with pendTrap := none, pageWait := none } = _)

theorem slot_trapCommit (g : Group) (b : Bool) :
    g.trapCommit.slot b = { g.slot b with win := [] } := (g.trapCommit_banked.slot b).trans (slot_emptied g b)
@[simp] theorem trapCommit_id (g : Group) : g.trapCommit.id = g.id :=
  (congrArg Group.id g.trapCommit_banked.eq : (g.trapCommit.wear _).id = _)
@[simp] theorem trapCommit_launch (g : Group) : g.trapCommit.launch = g.launch :=
  (congrArg Group.launch g.trapCommit_banked.eq : (g.trapCommit.wear _).launch = _)
@[simp] theorem trapCommit_vf (g : Group) : g.trapCommit.vf = g.vf :=
  (congrArg Group.vf g.trapCommit_banked.eq : (g.trapCommit.wear _).vf = _)
@[simp] theorem trapCommit_wg (g : Group) : g.trapCommit.wg = g.wg :=
  (congrArg Group.wg g.trapCommit_banked.eq : (g.trapCommit.wear _).wg = _)
@[simp] theorem trapCommit_sel1 (g : Group) : g.trapCommit.sel1 = g.sel1 :=
  (congrArg Group.sel1 g.trapCommit_banked.eq : (g.trapCommit.wear _).sel1 = _)
@[simp] theorem trapCommit_seq (g : Group) : g.trapCommit.seq = g.seq :=
  (congrArg Group.seq g.trapCommit_banked.eq : (g.trapCommit.wear _).seq = _)
@[simp] theorem trapCommit_nv (g : Group) : g.trapCommit.nv = g.nv :=
  (congrArg Group.nv g.trapCommit_banked.eq : (g.trapCommit.wear _).nv = _)
@[simp] theorem trapCommit_ns (g : Group) : g.trapCommit.ns = g.ns :=
  (congrArg Group.ns g.trapCommit_banked.eq : (g.trapCommit.wear _).ns = _)
@[simp] theorem trapCommit_np (g : Group) : g.trapCommit.np = g.np :=
  (congrArg Group.np g.trapCommit_banked.eq : (g.trapCommit.wear _).np = _)
@[simp] theorem trapCommit_priv (g : Group) : g.trapCommit.priv = g.priv :=
  (congrArg Group.priv g.trapCommit_banked.eq : (g.trapCommit.wear _).priv = _)
@[simp] theorem trapCommit_trapvec (g : Group) : g.trapCommit.trapvec = g.trapvec :=
  (congrArg Group.trapvec g.trapCommit_banked.eq : (g.trapCommit.wear _).trapvec = _)
@[simp] theorem trapCommit_trapcause (g : Group) : g.trapCommit.trapcause = g.trapcause :=
  (congrArg Group.trapcause g.trapCommit_banked.eq : (g.trapCommit.wear _).trapcause = _)
@[simp] theorem trapCommit_gone (g : Group) : g.trapCommit.gone = g.gone :=
  (congrArg Group.gone g.trapCommit_banked.eq : (g.trapCommit.wear _).gone = _)

theorem Sound.trapCommit {g : Group} (hg : g.Sound) : g.trapCommit.Sound :=
  hg.keep (fun b => .inl (by rw [slot_trapCommit])) (by simp) (by simp) (by simp) (by simp)

end Group

namespace State

theorem group?_cur (s : State) : s.group? s.cur.id = some s.cur := if_pos rfl
theorem updGroup_cur (s : State) (f : Group → Group) : s.updGroup s.cur.id f = s.setCur (f s.cur) := if_pos rfl

/-- The machine once the issuing group has taken the commit park of a trap (R36, R66). -/
def trapPark (s : State) : State := (s.setCur s.cur.trapCommit).parkEnd s.cur.id s.cur.wg

/-- A trap of the issuing group is delivered at once, or waits for the group's results (R36, R375). -/
theorem raise_cur (s : State) (t : TrapRec) :
    s.raise s.cur.id t =
      if s.cur.returned && !s.away s.cur.id then s.deliver s.cur.id t else s.setCur { s.cur with pendTrap := some t, pageWait := none } := by
  simp only [raise, group?_cur, updGroup_cur]

/-- Where a trap of the issuing group goes: to the debugger, to the group's handler, or to the halt of the group and its launch (R36, R395, R419). -/
theorem deliver_cur (s : State) (t : TrapRec) :
    s.deliver s.cur.id t =
      if t.cause = .debug && (s.vf s.cur.vf).att then (s.trapPark.setCur (s.cur.trapCommit.trapRegs t)).debugHalt s.cur.id (!t.watch)
      else if s.cur.priv = .u && s.cur.trapvec ≠ 0 then s.trapPark.setCur (s.cur.trapCommit.toHandler t)
      else (s.trapPark.setCur (s.cur.trapCommit.haltFor t)).faultLaunch s.cur.launch t.cause.code.toNat t.pc t.addr := by
  have vf : (s.trapPark.vf s.cur.vf).att = (s.vf s.cur.vf).att := by simp [State.vf, trapPark]
  have cur : s.trapPark.cur = s.cur.trapCommit := parkEnd_cur ..
  have upd : ∀ f : Group → Group, s.trapPark.updGroup s.cur.id f = s.trapPark.setCur (f s.cur.trapCommit) := fun f => by
    simp [updGroup, cur, setCur]
  have own : (s.setCur s.cur.trapCommit).group? s.cur.id = some s.cur.trapCommit := by simp [group?]
  unfold deliver
  rw [updGroup_cur, show ({ s.cur.commit with pendTrap := none, pageWait := none } : Group) = s.cur.trapCommit from rfl]
  simp only [own, Group.trapCommit_wg, Group.trapCommit_vf, Group.trapCommit_priv, Group.trapCommit_trapvec, Group.trapCommit_launch]
  rw [show ((s.setCur s.cur.trapCommit).publishW s.cur.id s.cur.wg).finishAllocs s.cur.id s.cur.wg = s.trapPark from rfl, vf, upd, upd, upd]
  rfl

/-- An error-log record touches the log, memory, links and the interrupt of the physical function (R400, R431). -/
theorem logError_rest (s : State) (sl kind cls vf unit addr : Nat) (lx : Word64) :
    { s.logError sl kind cls vf unit addr lx with grans := s.grans, mem := s.mem, links := s.links, pfIrq := s.pfIrq } = s := by
  have irq : ∀ (t : State) (n : Nat), { t.raisePf n with grans := s.grans, mem := s.mem, links := s.links, pfIrq := s.pfIrq } =
      { t with grans := s.grans, mem := s.mem, links := s.links, pfIrq := s.pfIrq } := fun t n => by
    unfold raisePf; split <;> rfl
  unfold logError
  dsimp only
  split
  · rfl
  · split
    · split
      · exact irq _ _
      · rfl
    · rfl

@[simp] theorem logError_cur (s : State) (sl kind cls vf unit addr : Nat) (lx : Word64) : (s.logError sl kind cls vf unit addr lx).cur = s.cur :=
  (congrArg (fun x : State => x.cur) (logError_rest s sl kind cls vf unit addr lx) : _)
@[simp] theorem logError_groups (s : State) (sl kind cls vf unit addr : Nat) (lx : Word64) : (s.logError sl kind cls vf unit addr lx).groups = s.groups :=
  (congrArg (fun x : State => x.groups) (logError_rest s sl kind cls vf unit addr lx) : _)
@[simp] theorem logError_launches (s : State) (sl kind cls vf unit addr : Nat) (lx : Word64) :
    (s.logError sl kind cls vf unit addr lx).launches = s.launches :=
  (congrArg (fun x : State => x.launches) (logError_rest s sl kind cls vf unit addr lx) : _)
@[simp] theorem logError_vfs (s : State) (sl kind cls vf unit addr : Nat) (lx : Word64) : (s.logError sl kind cls vf unit addr lx).vfs = s.vfs :=
  (congrArg (fun x : State => x.vfs) (logError_rest s sl kind cls vf unit addr lx) : _)

theorem debugHalt_cur (s : State) (skip : Bool) :
    (s.debugHalt s.cur.id skip).cur = { s.cur with halt := some (.debug skip), stop := some .save } := by
  simp [debugHalt, group?_cur, mapGroups, updGroup]

/-- A launch's fault asks its groups to end, and changes nothing else of the issuing one (R395). -/
theorem faultLaunch_cur (s : State) (key fc : Nat) (pc : Word32) (addr : Word64) :
    (s.faultLaunch key fc pc addr).cur = s.cur ∨ (s.faultLaunch key fc pc addr).cur = { s.cur with stop := some .endGroup } := by
  unfold faultLaunch
  split
  · exact .inl rfl
  · split
    · exact .inl rfl
    · dsimp only
      rw [logError_cur]
      dsimp only [updVf_cur, mapGroups]
      split
      · exact .inr rfl
      · exact .inl rfl

end State
end Sys2Proof.Machine
end

section
/-!
The instructions whose results are registers alone, loads and stores, commit parks and traps keep groups sound (R25, R67).
-/
set_option Elab.async false
namespace Sys2Proof.Machine
open Sys2Proof

/-! ### Bodies that deliver registers alone -/

/-- A body that never stops, and changes no more of the machine than the flags and the uncommitted results of the issuing group. -/
def RegisterBody (body : State → M (State × Option RegWrite)) : Prop :=
  ∀ s, ∃ ps fl w, body s = .ok (s.setCur { s.cur with pend := ps, fpflags := fl }, w)

/-- A step function that issues an instruction with such a body. -/
def IssuesRegisters (i : Instr) (c : Ctl) (f : State → Out) : Prop := ∃ body, RegisterBody body ∧ f = runInstr i c body

theorem shortResult_registerBody (f : Group → Option RegWrite × BitVec 6) : RegisterBody (shortResult f) := fun s => ⟨s.cur.pend, _, _, rfl⟩

theorem longResult_registerBody (f : Group → RegWrite × BitVec 6) : RegisterBody (longResult f) := fun s => ⟨_, s.cur.fpflags, none, rfl⟩

theorem groupLevel_registerBody {body : State → M (State × Option RegWrite)} (c : Ctl) (h : RegisterBody body) :
    RegisterBody (groupLevel c body) := fun s => by
  unfold groupLevel
  split
  · exact h s
  · exact ⟨s.cur.pend, s.cur.fpflags, none, rfl⟩

section
variable {i : Instr} {c : Ctl}

/-! The short per-lane, the uniform and the long forms. -/

theorem issues_short (f : Group → Option RegWrite × BitVec 6) : IssuesRegisters i c (runInstr i c (shortResult f)) :=
  ⟨_, shortResult_registerBody f, rfl⟩
theorem issues_lanes (cls : RClass) (reg : Group → Nat) (f : Group → Nat → Flagged Word64) :
    IssuesRegisters i c (runInstr i c (laneShort c cls reg f)) :=
  issues_short _
theorem issues_uniform (d : BitVec 8) (f : Group → Flagged Word64) : IssuesRegisters i c (runInstr i c (uniShort c d f)) :=
  ⟨_, groupLevel_registerBody c (shortResult_registerBody _), rfl⟩
theorem issues_long (f : Group → RegWrite × BitVec 6) : IssuesRegisters i c (runInstr i c (longResult f)) :=
  ⟨_, longResult_registerBody f, rfl⟩
theorem issues_lanesLong (cls : RClass) (reg : Group → Nat) (f : Group → Nat → Flagged Word64) :
    IssuesRegisters i c (runInstr i c (laneLong c cls reg f)) :=
  issues_long _

end

theorem IntResult.issues {i : Instr} {c : Ctl} {d : BitVec 8} {t : Ty} {sat : Bool} {x : Group → Nat → Nat → Int} (h : IntResult i c d t sat x) :
    IssuesRegisters i c fun s => exec i s := by
  cases h <;> dsimp only [exec, execIadd, execIsub, execImul, execImulh, execImad, execIabs, execIneg, execImin, execImax, execIsad, execIdp4, vecArith, vecArith3, vecUnary] <;>
    apply issues_lanes

theorem BitResult.issues {i : Instr} {c : Ctl} {d : BitVec 8} {t : Ty} {b : Group → Nat → Nat → Nat → Bool} (h : BitResult i c d t b) :
    IssuesRegisters i c fun s => exec i s := by
  cases h <;> dsimp only [exec, execIshl, execIshr, execIsar, execBrev, execBfe, execBfi, execSwz, execLop3, execImov, execImovi, execIsel, vecBits, vecBits1, vecWhole] <;>
    apply issues_lanes

theorem UniExact.issues {i : Instr} {c : Ctl} {d : BitVec 8} {t : Ty} {sat : Bool} {x : Group → Int} (h : UniExact i c d t sat x) :
    IssuesRegisters i c fun s => exec i s := by
  cases h <;> dsimp only [exec, execSadd, execSsub, execSmul, execSmulh, execSmin, execSmax, uniArith] <;> apply issues_uniform

theorem UniBits.issues {i : Instr} {c : Ctl} {d : BitVec 8} {b : Group → Nat → Bool} (h : UniBits i c d b) :
    IssuesRegisters i c fun s => exec i s := by
  cases h <;> dsimp only [exec, execSand, execSor, execSxor, execSnot, execSshl, execSshr, execSsar, execSmov, execSmovi, execSsel, uniLogic, uniShift] <;>
    apply issues_uniform

theorem PredResult.issues {i : Instr} {c : Ctl} {d : BitVec 8} {b : Group → Nat → Bool} (h : PredResult i c d b) :
    IssuesRegisters i c fun s => exec i s := by
  cases h <;> dsimp only [exec, execPand, execPor, execPxor, execPnot, execPmov, execPsel, execVoteAny, execVoteAll, execSsetp, execIsetp, execFclass, predLanes] <;>
    apply issues_lanes

theorem FpResult.issues {i : Instr} {c : Ctl} {d : BitVec 8} {t : Ty} {f : Group → Nat → Nat → Flagged Nat} (h : FpResult i c d t f) :
    IssuesRegisters i c fun s => exec i s := by
  cases h <;> dsimp only [exec, execFadd, execFsub, execFmul, execFfma, execFmin, execFmax, execFrnd, fp2] <;> apply issues_lanes

theorem SfuResult.issues {i : Instr} {c : Ctl} {o : F1} {f : Sfu} (h : SfuResult i c o f) :
    IssuesRegisters i c fun s => exec i s := by
  cases h <;> dsimp only [exec, execFrcp, execFrsq, execFsqrt, execFexp2, execFlog2, execFsin, execFcos, sfuLanes] <;>
    apply issues_lanesLong

theorem MoveResult.issues {i : Instr} {c : Ctl} {d : BitVec 8} {t : Ty} {b : Group → Nat → Nat → Nat → Bool} (h : MoveResult i c d t b) :
    IssuesRegisters i c fun s => exec i s := by
  cases h <;> dsimp only [exec, execShfl, execQswp, execMatch] <;> apply issues_lanesLong

/-- Every instruction whose results are registers alone has such a body. -/
theorem RegisterForm.issues {i : Instr} {c : Ctl} (h : RegisterForm i c) : IssuesRegisters i c fun s => exec i s := by
  cases h with
  | int _ _ _ _ _ _ h => exact h.issues
  | bits _ _ _ _ _ h => exact h.issues
  | popc => dsimp only [exec, execPopc, vecBits1]; apply issues_lanes
  | clz => dsimp only [exec, execClz, vecBits1]; apply issues_lanes
  | uniExact _ _ _ _ _ _ h => exact h.issues
  | uniBits _ _ _ _ h => exact h.issues
  | pred _ _ _ _ h => exact h.issues
  | voteBal => dsimp only [exec, execVoteBal]; apply issues_short
  | fp _ _ _ _ _ h => exact h.issues
  | fsetp => dsimp only [exec, execFsetp]; apply issues_lanes
  | cvt => dsimp only [exec, execCvt]; apply issues_lanes
  | sfu _ _ _ _ h => exact h.issues
  | move _ _ _ _ _ h => exact h.issues
  | red => dsimp only [exec, execRed]; apply issues_long
  | scan => dsimp only [exec, execScan]; apply issues_long

/-! ### Where a group stands -/

/-- A group's frame without its uncommitted results and its flags: its path, its windows and its counts. -/
def Group.stance (g : Group) : Group := { g.frame with pend := [], fpflags := 0 }

namespace Group

theorem stance_of_frame {g h : Group} (e : g.frame = h.frame) :
    g.stance = h.stance := congrArg (fun x : Group => { x with pend := [], fpflags := 0 }) e

theorem slot_of_stance {g h : Group} (e : g.stance = h.stance) (b : Bool) :
    { g.slot b with woken := none } = { h.slot b with woken := none } := by
  have at_ : ∀ g : Group, g.stance.slot b = { g.slot b with woken := none } := fun g => by cases b <;> rfl
  rw [← at_, ← at_, e]

theorem me_of_stance {g h : Group} (e : g.stance = h.stance) : { g.me with woken := none } = { h.me with woken := none } := by
  have hs : g.sel1 = h.sel1 := (congrArg Group.sel1 e : g.stance.sel1 = h.stance.sel1)
  simpa only [me, hs] using slot_of_stance e h.sel1

theorem Sound.of_stance {g h : Group} (hg : g.Sound) (e : h.stance = g.stance) : h.Sound :=
  hg.keep (fun b => .inr (congrArg Slot.win (slot_of_stance e b) : _)) (congrArg Group.seq e : h.stance.seq = g.stance.seq)
    (congrArg Group.nv e : h.stance.nv = g.stance.nv) (congrArg Group.ns e : h.stance.ns = g.stance.ns) (congrArg Group.np e : h.stance.np = g.stance.np)

@[simp] theorem stance_addOp (g : Group) (k : Nat) (p : Option Path) (o : OpKind) : (g.addOp k p o).stance = g.stance := rfl
@[simp] theorem stance_awaiting (g : Group) (cls : RClass) (reg n : Nat) (m : Word32) : (g.awaiting cls reg n m).stance = g.stance := by
  have key : ∀ (l : List Nat) (g : Group), (l.foldl (fun g k => g.addPend cls (reg + k) m (Lanes.const 0) false) g).stance = g.stance := by
    intro l
    induction l with
    | nil => exact fun _ => rfl
    | cons k l ih => exact fun g => ih _
  exact key ..

end Group

/-- An instruction whose body leaves the stance of its group keeps the group sound. -/
theorem runInstr_sound {i : Instr} {c : Ctl} {s s1 t u : State} {w : Option RegWrite} {body : State → M (State × Option RegWrite)}
    (hr : Ready i c s s1) (hb : body s1 = .ok (u, w)) (hu : u.cur.stance = s1.cur.stance) (ht : runInstr i c body s = .next t) : t.cur.Sound := by
  have hme := Group.me_of_stance hu
  rw [runInstr_done hr hb (congrArg Slot.pc hme : _) (congrArg (fun x : Slot => x.blk.bend) hme : _)
    (congrArg Group.stack hu : u.cur.stance.stack = s1.cur.stance.stack) (congrArg Group.split hu : u.cur.stance.split = s1.cur.stance.split)] at ht
  cases ht
  obtain ⟨-, -, -, hs, -⟩ := hr
  exact (hs.of_stance hu).group_done ..

/-- R25, R67 for the instructions whose results are registers alone. -/
theorem RegisterForm.sound {i : Instr} {c : Ctl} {s s1 t : State} (h : RegisterForm i c) (hr : Ready i c s s1) (ht : exec i s = .next t) :
    t.cur.Sound := by
  obtain ⟨body, regs, run⟩ := h.issues
  obtain ⟨ps, fl, w, hb⟩ := regs s1
  exact runInstr_sound hr hb rfl ((congrFun run s).symm.trans ht)

/-- A load or store whose accesses are accepted posts its operation: what its body leaves has the stance of its group. -/
theorem MemoryIssue.body {i : Instr} {c : Ctl} {s u : State} (h : MemoryIssue i c s u) (hp : s.pathFree (memoryPath i) = .ok ()) :
    ∃ body v, (fun s => exec i s) = runInstr i c body ∧ body s = .ok (v, none) ∧ v.cur.stance = s.cur.stance := by
  have post : ∀ {t : State} {g : Group}, t.spine = s.spine → g.stance = t.cur.stance → (t.setCur g).cur.stance = s.cur.stance :=
    fun ht hg => hg.trans (Group.stance_of_frame (State.frame_of_spine ht))
  have allowed : ∀ {sc : Scope} {bit : Nat}, scopeAllows s c sc bit → ifActive s.cur c (s.scopeOk sc bit) = .ok () := by
    intro sc bit h
    unfold ifActive State.scopeOk trapIf
    split
    · rfl
    · rw [if_neg]
      rcases h with h | h | h
      · contradiction
      · simp [h]
      · simp [h]
  cases h with
  | ld _ o _ s2 accs ha =>
    exact ⟨_, _, by dsimp only [exec, execLd],
      by simp only [issueLoad, show s.pathFree .load = .ok () from hp, bind, Except.bind, ha]; rfl,
      post (State.accept_spine ha) (by simp)⟩
  | lda _ o _ s2 accs hs ha =>
    exact ⟨_, _, by dsimp only [exec, execLda],
      by simp only [issueLoad, show s.pathFree .load = .ok () from hp, bind, Except.bind, Nat.mul_one, allowed hs, ha]; rfl,
      post (State.accept_spine ha) (by simp)⟩
  | sld _ o _ s2 accs hp' ha =>
    exact ⟨_, _, by dsimp only [exec, execSld],
      by simp only [show s.pathFree .load = .ok () from hp, hp', bind, Except.bind, if_true, ha]; rfl,
      post (State.accept_spine ha) (by simp)⟩
  | st _ o _ s2 accs ha =>
    exact ⟨_, _, by dsimp only [exec, execSt],
      by simp only [issueStore, show s.pathFree .store = .ok () from hp, bind, Except.bind, ha]; rfl,
      post (State.accept_spine ha) (by simp)⟩
  | strl _ o _ s2 accs hs ha =>
    exact ⟨_, _, by dsimp only [exec, execStrl],
      by simp only [issueStore, show s.pathFree .store = .ok () from hp, bind, Except.bind, Nat.mul_one, allowed hs, ha]; rfl,
      post (State.accept_spine ha) (by simp)⟩
  | sst _ o _ s2 accs ha =>
    exact ⟨_, _, by dsimp only [exec, execSst],
      by simp only [show s.pathFree .store = .ok () from hp, bind, Except.bind, ha]; rfl,
      post (State.accept_spine ha) (by simp)⟩

/-- R25, R67 for loads and stores of global memory. -/
theorem MemoryIssue.sound {i : Instr} {c : Ctl} {s s1 t u : State} (h : MemoryIssue i c s1 u) (hp : s1.pathFree (memoryPath i) = .ok ())
    (hr : Ready i c s s1) (ht : exec i s = .next t) : t.cur.Sound := by
  obtain ⟨body, v, run, hb, hv⟩ := h.body hp
  exact runInstr_sound hr hb hv ((congrFun run s).symm.trans ht)

/-! ### Commit parks and traps -/

/-- A group that goes to its handler keeps its windows and its counts. -/
theorem Group.Sound.toHandler {g : Group} (h : g.Sound) (t : TrapRec) : (g.toHandler t).Sound := by
  obtain ⟨cause, slot1, pc, addr, watch, entry⟩ := t
  cases slot1 <;> exact h.keep (fun b => .inr (by cases b <;> rfl)) rfl rfl rfl rfl

namespace State

/-- Every resident group is sound, the issuing one first. -/
def AllSound (s : State) : Prop := ∀ g ∈ s.cur :: s.groups, g.Sound

theorem AllSound.updGroup {s : State} (h : s.AllSound) (id : Nat) {f : Group → Group} (hf : ∀ g, g.Sound → (f g).Sound) :
    (s.updGroup id f).AllSound := by
  obtain ⟨hc, hgs⟩ := List.forall_mem_cons.1 h
  unfold State.updGroup
  split
  · exact List.forall_mem_cons.2 ⟨hf _ hc, hgs⟩
  · refine List.forall_mem_cons.2 ⟨hc, fun g hg => ?_⟩
    obtain ⟨g', hg', rfl⟩ := List.mem_map.1 hg
    split
    · exact hf _ (hgs g' hg')
    · exact hgs g' hg'

theorem AllSound.parkEnd {s : State} (h : s.AllSound) (id wg : Nat) : (s.parkEnd id wg).AllSound := by
  unfold AllSound
  rwa [parkEnd_cur, parkEnd_groups]

/-- A stop leaves windows and counts. -/
theorem AllSound.tryStop {s : State} (h : s.AllSound) (id : Nat) : (s.tryStop id).AllSound := by
  refine h.updGroup id fun g hg => ?_
  split
  · exact hg
  · split <;> exact hg
  · split
    · exact hg
    · split <;> exact hg

theorem execCommitPark_sound {s t : State} {gid : Nat} (h : s.AllSound) (ht : execCommitPark gid s = .next t) : t.AllSound := by
  unfold execCommitPark at ht
  split at ht
  · cases ht; exact h
  · split at ht
    · cases ht; exact h
    · cases ht
      refine ((h.updGroup gid fun g hg => ?_).parkEnd gid _).tryStop gid
      have taken : ∀ u : Slot, (if u.parking then { u with parking := false, parked := true } else u).win = u.win := fun u => by split <;> rfl
      refine hg.commit.keep (fun b => .inr ?_) rfl rfl rfl rfl
      cases b
      · exact taken g.commit.slot0
      · exact taken g.commit.slot1

/-- A trap keeps the issuing group sound, whether it waits, goes to the debugger or the handler, or halts the group. -/
theorem raise_sound {s : State} (h : s.cur.Sound) (t : TrapRec) : (s.raise s.cur.id t).cur.Sound := by
  rw [raise_cur]
  split
  · rw [deliver_cur]
    split
    · rw [show s.cur.id = (s.trapPark.setCur (s.cur.trapCommit.trapRegs t)).cur.id from s.cur.trapCommit_id.symm, debugHalt_cur]
      exact h.trapCommit
    · split
      · exact h.trapCommit.toHandler t
      · rcases faultLaunch_cur (s.trapPark.setCur (s.cur.trapCommit.haltFor t)) s.cur.launch t.cause.code.toNat t.pc t.addr with e | e <;> rw [e]
        · exact h.trapCommit
        · exact h.trapCommit
  · exact h

end State

/-- Settles O59: each of the instructions joins its window with a younger place than all that stand there, and keeps eight; parks and traps empty windows. -/
theorem groupsStaySound : Obligations.GroupsStaySound := by
  unfold Obligations.GroupsStaySound
  refine ⟨fun i c s s1 t form ready ht => form.sound ready ht, fun i c s s1 t u form hp ready ht => form.sound hp ready ht,
    fun s s1 park h hp => State.takePark_sound h hp, fun s t gid h ht => State.execCommitPark_sound h ht,
    fun s cause addr h => State.raise_sound h _⟩

end Sys2Proof.Machine
end

section
/-!
Issue with any commit park, and the system instructions: special registers, marks, workgroup registers (R27, R31, R112, R113, R116 to R119).
-/
set_option Elab.async false
namespace Sys2Proof.Machine
open Sys2Proof

/-! ### Issue, whatever takes the commit park -/

/-- The range check looks at no register, window or flag. -/
theorem Group.rangeOk_bare (g : Group) (i : Instr) (c : Ctl) : g.bare.rangeOk i c = g.rangeOk i c := rfl

/-- A commit park that has been taken is not taken again (R66). -/
theorem State.takePark_again {s s1 : State} {park : Bool} (h : s.takePark park = some s1) : s1.takePark park = some s1 := by
  have stays : ∀ t : State, (!park || t.cur.me.parked) = true → t.takePark park = some t := fun t h => by unfold State.takePark; exact if_pos h
  unfold State.takePark at h
  dsimp only at h
  split at h
  · rename_i hp
    cases h
    exact stays s hp
  · split at h
    · refine stays s1 ?_
      rw [← Option.some.inj h, finishAllocs_cur]
      simp
    · cases h

section
variable {i : Instr} {c : Ctl} {park : Bool} {body : State → M Effect} {s s1 : State}

/-- An instruction that names a register at or above its declared count does nothing else (R25, R72). -/
theorem runWith_range (h : s.cur.rangeOk i c = false) : runWith i c park body s = .next (s.traps .regRange 0) := by
  unfold runWith
  simp only [h, Bool.not_false, if_true]
  rfl

/-- What an instruction comes to when its first checks are met (R72). -/
theorem runWith_clear (h : Clear i c park s s1) :
    runWith i c park body s = match body s1 with
      | .error e => s1.stopAt s.cur.sel1 s.cur.me.pc e
      | .ok (t, w, go) => mirrored s.cur s1 s.cur.sel1 s.cur.me.pc (go (t.setCur (((t.cur.kills i c s1.cur.x).pushWin w).issued s1.steps))) := by
  obtain ⟨-, range, taken, -, room⟩ := h
  have room' : (i.pendCount ≠ 0 && decide (128 < s1.cur.uncommitted + i.pendCount)) = false := by
    rcases room with h | h
    · simp [h]
    · simp [Nat.not_lt.2 h]
  unfold runWith
  simp only [range, taken, room', Bool.not_true, Bool.false_eq_true, if_false] <;> rfl

/-- An instruction whose own checks raise a trap raises it at its own unit (R36, R72). -/
theorem runWith_trap {cause : Cause} {addr : Nat} (h : Clear i c park s s1) (hb : body s1 = .error (.trap cause addr)) :
    runWith i c park body s = .next (s1.traps cause addr) := by
  obtain ⟨sel, pc⟩ := State.takePark_at h.2.2.1
  rw [runWith_clear h, hb]
  simp only [State.stopAt, State.traps, sel, pc]

/-- Behind the commit park the first checks are still met. -/
theorem Clear.again (h : Clear i c park s s1) : Clear i c park s1 s1 := by
  obtain ⟨wf, range, taken, sound, room⟩ := h
  refine ⟨wf, ?_, State.takePark_again taken, sound, room⟩
  rw [← Group.rangeOk_bare, takePark_bare taken, Group.rangeOk_bare]
  exact range

theorem mirrored_bare (old : Group) (s : State) (b : Bool) (pc : Word32) (o : Out) : mirrored old.bare s b pc o = mirrored old s b pc o := rfl

/-- Issue goes on from the state behind the commit park as from the state before it. -/
theorem runWith_again (h : Clear i c park s s1) : runWith i c park body s = runWith i c park body s1 := by
  obtain ⟨sel, pc⟩ := State.takePark_at h.2.2.1
  rw [runWith_clear h, runWith_clear h.again, ← sel, ← pc]
  split
  · rfl
  · rw [← mirrored_bare s.cur, ← takePark_bare h.2.2.1, mirrored_bare]

/-- Where the commit park has been taken it does not matter who asked for it. -/
theorem runWith_park {park' : Bool} (h : Clear i c park s s) (h' : Clear i c park' s s) :
    runWith i c park body s = runWith i c park' body s := by
  rw [runWith_clear h, runWith_clear h']

end

/-- An instruction that goes on to the next item raises a trap of its own checks at its own unit. -/
theorem runInstr_trap {i : Instr} {c : Ctl} {s s1 : State} {cause : Cause} {addr : Nat} {body : State → M (State × Option RegWrite)}
    (h : Clear i c c.mark s s1) (hb : body s1 = .error (.trap cause addr)) : runInstr i c body s = .next (s1.traps cause addr) :=
  runWith_trap h (by simp only [hb, bind, Except.bind])

/-- An instruction that goes through meets the first checks. -/
theorem Ready.clear {i : Instr} {c : Ctl} {s s1 : State} (h : Ready i c s s1) : Clear i c c.mark s s1 := by
  obtain ⟨wf, range, taken, sound, room, -⟩ := h
  exact ⟨wf, range, taken, sound, room⟩

/-- An instruction that is not the last item of its block, behind a commit park that it may have asked for beside its M bit, goes through (R48, R66). -/
theorem Clear.ready {i : Instr} {c : Ctl} {s s1 : State} {extra : Bool} (h : Clear i c (c.mark || extra) s s1)
    (hend : s1.cur.me.pc + BitVec.ofNat 32 c.units ≠ s1.cur.me.blk.bend) : Ready i c s1 s1 := by
  obtain ⟨wf, range, taken, sound, room⟩ := h.again
  refine ⟨wf, range, ?_, sound, room, hend⟩
  cases hm : c.mark
  · rfl
  · rwa [hm] at taken

/-! ### Instructions that act for the group -/

theorem groupLevel_passes {c : Ctl} {s : State} (h : s.cur.passes c = true) (body : State → M (State × Option RegWrite)) :
    groupLevel c body s = body s := if_pos h

/-- An instruction without a result that leaves the stance of its group completes. -/
theorem runInstr_still {i : Instr} {c : Ctl} {s s1 u : State} {body : State → M (State × Option RegWrite)} (hr : Ready i c s s1)
    (hb : body s1 = .ok (u, none)) (hu : u.cur.stance = s1.cur.stance) : ∃ t, runInstr i c body s = .next t ∧ After i c s1.cur.x u t noDest := by
  have hme := Group.me_of_stance hu
  exact runInstr_after_none hr hb (congrArg Slot.win hme : _) (congrArg Slot.pc hme : _) (congrArg (fun x : Slot => x.blk.bend) hme : _)
    (congrArg Group.seq hu : u.cur.stance.seq = s1.cur.stance.seq) (congrArg Group.stack hu : u.cur.stance.stack = s1.cur.stance.stack)
    (congrArg Group.split hu : u.cur.stance.split = s1.cur.stance.split)

/-- A uniform result of an instruction that acts for the group: it writes its destination, and its slot reads it. -/
theorem runInstr_uniform {i : Instr} {c : Ctl} {s s1 u : State} {d : BitVec 8} {v : Word64} {body : State → M (State × Option RegWrite)}
    (hr : Ready i c s s1) (hp : s1.cur.passes c = true) (hb : body s1 = .ok (u, some (Group.uniWrite (s1.cur.rD c d) v)))
    (hd : i.operands.d = Opnd.of .s d) (hme : u.cur.me = s1.cur.me) (hq : u.cur.seq = s1.cur.seq)
    (hst : u.cur.stack = s1.cur.stack) (hsp : u.cur.split = s1.cur.split) :
    ∃ t, runInstr i c body s = .next t ∧ After i c s1.cur.x u t (uniDest s1.cur c (s1.cur.rD c d)) ∧ t.cur.readS (s1.cur.rD c d) = v := by
  have covers : ∀ {cls n l}, (Group.uniWrite (s1.cur.rD c d) v).covers cls n l = true ↔ .s = cls ∧ s1.cur.rD c d = n := by
    intro cls n l
    refine (RegWrite.covers_iff ..).trans ⟨fun ⟨a, b, _⟩ => ⟨a, b⟩, fun ⟨a, b⟩ => ⟨a, b, ?_⟩⟩
    rw [if_pos a.symm]
    exact lane_allLanes 0 (by decide)
  obtain ⟨t, run, after, own⟩ := runInstr_after (dest := uniDest s1.cur c (s1.cur.rD c d)) hr hb (by rw [hme]) (by rw [hme]) (by rw [hme]) hq hst hsp (by
    rintro r hw cls n l - - hc
    cases hw
    obtain ⟨rfl, rfl⟩ := covers.1 hc
    simp [uniDest, hp])
  refine ⟨t, run, after, ?_⟩
  have hn := hr.dest hd (by decide) (.inr (.inl rfl))
  refine (own _ rfl .s (s1.cur.rD c d) 0 hn (by decide) (by simp) (covers.2 ⟨rfl, rfl⟩)).trans ?_
  show Group.norm .s ((Lanes.const v).get 0 0) = v
  rw [Lanes.get_const _ _ _ (by decide)]; rfl

/-- What the kills and the place of an instruction in its window leave of its group. -/
theorem Group.joined_spec (g : Group) (i : Instr) (c : Ctl) (x : BitVec 16) (w : Option RegWrite) :
    ((g.kills i c x).pushWin w).bare = g.bare ∧ ((g.kills i c x).pushWin w).me.pc = g.me.pc ∧ ((g.kills i c x).pushWin w).me.blk = g.me.blk := by
  obtain ⟨win, hk, -⟩ := kills_spec g i c x
  obtain ⟨rest, -, -, -, -, me, -⟩ := pushWin_spec (g.kills i c x) w
  rw [rest, me, hk]
  simp

/-! ### Marks (R112, R113, R118) -/

/-- A group that notes whether it yields (R112, R370). -/
def Group.yields (g : Group) (y : Bool) : Group := { g with yielded := y }

theorem Group.setMe_yields (g : Group) (y : Bool) (t : Slot) : (g.yields y).setMe t = (g.setMe t).yields y := by
  unfold setMe
  rw [show (g.yields y).sel1 = g.sel1 from rfl]
  cases g.sel1 <;> rfl

/-- `After` says nothing of whether the group yields (R366). -/
theorem After.yields {i : Instr} {c : Ctl} {x : BitVec 16} {u t : State} {dest : RClass → Nat → Nat → Bool} (h : After i c x u t dest) (y : Bool) :
    After i c x u (t.setCur (t.cur.yields y)) dest :=
  ⟨h.outside, h.rest, h.flags, h.other, h.path, h.pc, h.regs, h.pends, h.own⟩

section
variable {c : Ctl} {s s1 : State}

theorem nop_completes (hr : Ready (.nop c) c s s1) : Completes (.nop c) c s s1 s1 noDest := by
  unfold Completes
  dsimp only [exec, execNop]
  exact runInstr_still hr rfl rfl

/-- `yield` is a `nop` that notes whether the group yields (R112). -/
theorem yield_after (hr : Ready (.yield c) c s s1) :
    ∃ u, exec (.yield c) s = .next u ∧ After (.yield c) c s1.cur.x s1 u noDest ∧ u.cur.yielded = s1.cur.passes c := by
  obtain ⟨t, run, after⟩ := runInstr_still (body := fun s => .ok (s, none)) hr rfl rfl
  rw [runInstr_done hr rfl rfl rfl rfl rfl] at run
  cases run
  refine ⟨_, ?_, after.yields (s1.cur.passes c), rfl⟩
  have clear := hr.clear
  obtain ⟨-, -, taken, -, -, hend⟩ := hr
  obtain ⟨rest, pc, blk⟩ := s1.cur.joined_spec (.yield c) c s1.cur.x none
  have whole := rest.trans (takePark_bare taken)
  dsimp only [exec, execYield]
  rw [runWith_clear clear]
  simp only [pure, Except.pure]
  generalize hg : (s1.cur.kills (.yield c) c s1.cur.x).pushWin none = g at rest pc blk whole
  have step := advance_next (s1.setCur ((g.issued s1.steps).yields (s1.cur.passes c))) c.units (by
    show g.me.pc + _ ≠ g.me.blk.bend
    rw [pc, blk]; exact hend)
  rw [State.setCur_cur, Group.setMe_yields] at step
  refine (congrArg (mirrored s.cur s1 s.cur.sel1 s.cur.me.pc) step).trans ?_
  rw [mirrored_same _ _ _ _ _ ?_ ?_]
  · simp only [Group.done, hg]; rfl
  · exact (Group.stack_of_bare (Group.bare_setMe ..)).trans (Group.stack_of_bare whole)
  · exact (Group.split_of_bare (Group.bare_setMe ..)).trans (Group.split_of_bare whole)

theorem park_completes (h : Clear (.park c) c (c.mark || s.cur.passes c) s s1) (hend : s1.cur.me.pc + BitVec.ofNat 32 c.units ≠ s1.cur.me.blk.bend) :
    Completes (.park c) c s s1 s1 noDest := by
  have hr := h.ready hend
  obtain ⟨t, run, after⟩ := runInstr_still (body := fun s => .ok (s, none)) hr rfl rfl
  refine ⟨t, ?_, after⟩
  rw [← run]
  dsimp only [exec, execPark]
  rw [runWith_again h]
  exact runWith_park h.again hr.clear

theorem daymark_completes {n : BitVec 12} {a : Option Src} : Ready (.daymark c n a) c s s1 → s1.cur.passes c = true →
    ((s1.gran s1.cur.slice).traceOn = false → Completes (.daymark c n a) c s s1 s1 noDest) ∧
    ((s1.gran s1.cur.slice).traceOn = true →
      Completes (.daymark c n a) c s s1 (s1.traceWatch s1.cur.vf (s1.cur.agent s1.cur.me.pc) (bytesLE 8 s1.cur.launchId.toNat ++ bytesLE 8 (s1.tickOf s1.cur.slice).toNat ++
        bytesLE 8 (match a with | some a => (s1.cur.uniA c a).toNat | none => 0) ++
        bytesLE 8 (s1.cur.me.pc.toNat + 2 ^ 32 * s1.cur.lastId.toNat + 2 ^ 48 * n.toNat + 2 ^ 60))) noDest) := by
  intro hr hp
  unfold Completes
  dsimp only [exec, execDaymark]
  refine ⟨fun off => runInstr_still hr ?_ rfl, fun on => runInstr_still hr ?_ (Group.stance_of_frame (State.frame_of_spine (State.traceWatch_spine ..)))⟩
  · rw [groupLevel_passes hp]
    simp only [off]; rfl
  · rw [groupLevel_passes hp]
    simp only [on]
    cases a <;> rfl

theorem setx_completes {v : RegImm 12} : Ready (.setx c v) c s s1 → s1.cur.passes c = true →
    Completes (.setx c v) c s s1 (s1.setCur { s1.cur with x := match v with | .reg r => (s1.cur.uniA c r).setWidth 16 | .imm n => n.setWidth 16 }) noDest := by
  intro hr hp
  unfold Completes
  dsimp only [exec, execSetx]
  exact runInstr_after_none hr (groupLevel_passes hp _) rfl rfl rfl rfl rfl rfl

/-! ### Special registers (R31, R116, R117) -/

theorem getsr_lanes {d sr : BitVec 8} (hr : Ready (.getsr c d sr true) c s s1) :
    ∃ u, exec (.getsr c d sr true) s = .next u ∧ After (.getsr c d sr true) c s1.cur.x s1 u (laneDest s1.cur c .v (s1.cur.rD c d)) ∧
      ∀ l < 32, (takes s1.cur c l → u.cur.seen .v (s1.cur.rD c d) l = BitVec.ofNat 64 l) ∧
        (lane (s1.cur.zeroLanes c) l = true → u.cur.seen .v (s1.cur.rD c d) l = 0) := by
  dsimp only [exec, execGetsr]
  simp only [if_true]
  obtain ⟨t, run, after, seen⟩ := laneShort_after (reg := fun g => g.rD c d) (f := fun _ l => ((BitVec.ofNat 64 l, 0) : Flagged Word64)) hr (by decide : RClass.v ≠ .s)
  have flags : (s1.cur.laneResult c .v (s1.cur.rD c d) fun l => ((BitVec.ofNat 64 l, 0) : Flagged Word64)).2 = 0 :=
    BitVec.eq_of_getLsbD_eq fun j _ => by rw [laneResult_flags]; simp
  have hz : s1.withFlags (0 : BitVec 6) = s1 := by
    have : s1.cur.fpflags ||| (0 : BitVec 6) = s1.cur.fpflags := BitVec.or_zero
    unfold State.withFlags
    rw [this]; rfl
  rw [flags, hz] at after
  have hn := hr.dest (cls := .v) rfl (by decide) (.inl rfl)
  refine ⟨t, run, after, fun l hl => ⟨fun ⟨takes, nz⟩ => ?_, fun z => ?_⟩⟩
  · rw [seen l hl hn (by simp) (by simp [Group.written, lane_or] at takes ⊢; simp [takes])]
    simp [nz, Group.norm]
  · rw [seen l hl hn (by simp) (by simp [Group.written, lane_or, z])]
    simp [z, Group.norm]

theorem getsr_uniform {d sr : BitVec 8} (hr : Ready (.getsr c d sr false) c s s1) (hp : s1.cur.passes c = true) :
    (0x31 ≤ sr.toNat ∧ sr.toNat ≤ 0x34 → s1.cur.priv = .u → exec (.getsr c d sr false) s = .next (s1.traps .perm 0)) ∧
    ((0x31 ≤ sr.toNat ∧ sr.toNat ≤ 0x34 → s1.cur.priv = .s) →
      ∃ u, exec (.getsr c d sr false) s = .next u ∧ After (.getsr c d sr false) c s1.cur.x s1 u (uniDest s1.cur c (s1.cur.rD c d)) ∧
        u.cur.readS (s1.cur.rD c d) = s1.special sr) := by
  dsimp only [exec, execGetsr]
  simp only [Bool.false_eq_true, if_false]
  have system : srSystem sr = true ↔ 0x31 ≤ sr.toNat ∧ sr.toNat ≤ 0x34 := by simp [srSystem]
  refine ⟨fun sys user => runInstr_trap hr.clear ?_, fun may => runInstr_uniform hr hp ?_ rfl rfl rfl rfl rfl⟩
  · rw [groupLevel_passes hp]
    simp [system.2 sys, user, trapIf, bind, Except.bind]
  · rw [groupLevel_passes hp]
    have : (srSystem sr && decide (s1.cur.priv = .u)) = false := by
      rw [Bool.and_eq_false_iff, ← Bool.not_eq_true, system]
      by_cases h : 0x31 ≤ sr.toNat ∧ sr.toNat ≤ 0x34
      · exact .inr (by simp [may h])
      · exact .inl h
    simp [this, trapIf, bind, Except.bind, pure, Except.pure]

end

section
variable {c : Ctl} {s s1 : State}

/-- What `setsr` writes, and what it refuses (R117). -/
theorem setsr_effect {sr : BitVec 8} {a : Src} (hr : Ready (.setsr c sr a) c s s1) (hp : s1.cur.passes c = true) :
    let v := s1.cur.uniA c a
    (sr = 0x20 → v.toNat < 64 → v.toNat % 8 < 5 → Completes (.setsr c sr a) c s s1 (s1.setCur { s1.cur with fpctl := v.setWidth 6 }) noDest) ∧
    (sr = 0x21 → v.toNat < 64 → Completes (.setsr c sr a) c s s1 (s1.setCur { s1.cur with fpflags := v.setWidth 6 }) noDest) ∧
    (sr = 0x30 → s1.cur.priv = .s → Completes (.setsr c sr a) c s s1 (s1.setCur { s1.cur with trapvec := v }) noDest) ∧
    (sr ≠ 0x20 → sr ≠ 0x21 → (sr = 0x30 → s1.cur.priv = .u) → exec (.setsr c sr a) s = .next (s1.traps .perm 0)) ∧
    (sr = 0x20 ∨ sr = 0x21 → 64 ≤ v.toNat ∨ (sr = 0x20 ∧ 5 ≤ v.toNat % 8) → exec (.setsr c sr a) s = .next (s1.traps .illegal 0)) := by
  intro v
  unfold Completes
  dsimp only [exec, execSetsr]
  refine ⟨?_, ?_, ?_, ?_, ?_⟩
  · rintro rfl small mode
    refine runInstr_after_none hr ((groupLevel_passes hp _).trans ?_) rfl rfl rfl rfl rfl rfl
    simp [trapIf, bind, Except.bind, pure, Except.pure, show ¬ 64 ≤ (s1.cur.uniA c a).toNat from Nat.not_le.2 small,
      show ¬ 5 ≤ (s1.cur.uniA c a).toNat % 8 from Nat.not_le.2 mode]
    rfl
  · rintro rfl small
    refine runInstr_after_none hr ((groupLevel_passes hp _).trans ?_) rfl rfl rfl rfl rfl rfl
    simp [trapIf, bind, Except.bind, pure, Except.pure, show ¬ 64 ≤ (s1.cur.uniA c a).toNat from Nat.not_le.2 small]
    rfl
  · rintro rfl sys
    refine runInstr_after_none hr ((groupLevel_passes hp _).trans ?_) rfl rfl rfl rfl rfl rfl
    simp [trapIf, bind, Except.bind, pure, Except.pure, sys]
    rfl
  · intro h20 h21 h30
    refine runInstr_trap hr.clear ((groupLevel_passes hp _).trans ?_)
    have n20 : sr.toNat ≠ 0x20 := fun h => h20 (BitVec.eq_of_toNat_eq h)
    have n21 : sr.toNat ≠ 0x21 := fun h => h21 (BitVec.eq_of_toNat_eq h)
    have n30 : sr.toNat = 0x30 → s1.cur.priv = .u := fun h => h30 (BitVec.eq_of_toNat_eq h)
    have refused : (sr.toNat = 0x20 || sr.toNat = 0x21 || (sr.toNat = 0x30 && s1.cur.priv = .s)) = false := by
      simp only [n20, n21, decide_false, Bool.false_or, Bool.and_eq_false_iff, decide_eq_false_iff_not]
      by_cases h : sr.toNat = 0x30
      · exact .inr (by simp [n30 h])
      · exact .inl h
    simp only [refused, Bool.not_false, trapIf, if_true]
    rfl
  · intro which bad
    refine runInstr_trap hr.clear ((groupLevel_passes hp _).trans ?_)
    rcases which with rfl | rfl
    · by_cases big : 64 ≤ v.toNat
      · simp [trapIf, bind, Except.bind, show 64 ≤ (s1.cur.uniA c a).toNat from big]
      · obtain ⟨-, mode⟩ := bad.resolve_left big
        simp [trapIf, bind, Except.bind, show ¬ 64 ≤ (s1.cur.uniA c a).toNat from big, show 5 ≤ (s1.cur.uniA c a).toNat % 8 from mode]
    · have big : 64 ≤ (s1.cur.uniA c a).toNat := bad.resolve_right fun h => absurd h.1 (by decide)
      simp [trapIf, bind, Except.bind, big]

/-! ### Workgroup registers (R119) -/

theorem wmovToW_completes {d : BitVec 8} {a : Src} (hr : Ready (.wmovToW c d a) c s s1) (hp : s1.cur.passes c = true) :
    Completes (.wmovToW c d a) c s s1 (s1.updWg s1.cur.wg fun w =>
      { w with wr := tset w.wr (s1.cur.rD c d) (tget w.wr (s1.cur.rD c d) [] ++ [{ val := s1.cur.uniA c a, by_ := s1.cur.id, pub := false }]) }) noDest := by
  unfold Completes
  dsimp only [exec, execWmovToW]
  exact runInstr_after_none hr (groupLevel_passes hp _) rfl rfl rfl rfl rfl rfl

/-- The last place below `n` that `p` picks lies at or behind every such place, and below `n` where there is any place at all. -/
theorem lastPlace_spec (p : Nat → Bool) : ∀ n : Nat,
    (∀ k < n, p k = true → k ≤ ((List.range n).reverse.find? p).getD 0) ∧ (0 < n → ((List.range n).reverse.find? p).getD 0 < n)
  | 0 => by simp
  | n + 1 => by
    obtain ⟨above, below⟩ := lastPlace_spec p n
    rw [List.range_succ, List.reverse_append, List.reverse_singleton, List.singleton_append, List.find?_cons]
    cases h : p n with
    | true => exact ⟨fun k hk _ => Nat.lt_succ_iff.1 hk, fun _ => Nat.lt_succ_self n⟩
    | false =>
      refine ⟨fun k hk hpk => above k ?_ hpk, fun _ => ?_⟩
      · have : k ≠ n := fun e => by simp [e, h] at hpk
        omega
      · rcases Nat.eq_zero_or_pos n with rfl | hn
        · simp
        · exact Nat.lt_succ_of_lt (below hn)

/-- The place that a read of a w-register takes: one at or behind the least that the group may read, as the model's choice `free` says (R119). -/
def wPlace (g : Group) (free base n : Nat) (h : List WHist) : Nat :=
  if base + h.length - wLow g base n h ≤ 1 then wLow g base n h else wLow g base n h + free % (base + h.length - wLow g base n h)

/-- The least place is no older than the last that the group has read, than its own last write, and than the last published one. -/
theorem wLow_spec (g : Group) (base n : Nat) (h : List WHist) :
    tget g.wseen n 0 ≤ wLow g base n h ∧ (∀ k e, h[k]? = some e → e.pub = true ∨ e.by_ = g.id → base + k ≤ wLow g base n h) ∧
    (tget g.wseen n 0 < base + h.length → h ≠ [] → wLow g base n h < base + h.length) := by
  obtain ⟨above, below⟩ := lastPlace_spec (fun i => match h[i]? with | some e => e.pub || e.by_ = g.id | none => false) h.length
  refine ⟨le_max_left .., fun k e hk seen => ?_, fun young some => ?_⟩
  · obtain ⟨hlt, -⟩ := List.getElem?_eq_some_iff.1 hk
    refine le_trans (Nat.add_le_add_left (above k hlt ?_) base) (le_max_right ..)
    simpa [hk] using seen
  · exact max_lt young (Nat.add_lt_add_left (below (List.length_pos_iff.2 some)) base)

theorem wPlace_spec (g : Group) (free base n : Nat) (h : List WHist) :
    wLow g base n h ≤ wPlace g free base n h ∧ (wLow g base n h < base + h.length → wPlace g free base n h < base + h.length) := by
  unfold wPlace
  split
  · exact ⟨le_refl _, id⟩
  · have := Nat.mod_lt free (show 0 < base + h.length - wLow g base n h by omega)
    omega

theorem wmovFromW_delivers {d a : BitVec 8} {w : Workgroup} (hr : Ready (.wmovFromW c d a) c s s1) (hp : s1.cur.passes c = true)
    (hw : s1.wg? s1.cur.wg = some w) :
    let n := s1.cur.rA c a
    let h := tget w.wr n []
    let base := tget w.wbase n 0
    ∃ (u : State) (ix : Nat), exec (.wmovFromW c d a) s = .next u ∧
      After (.wmovFromW c d a) c s1.cur.x (s1.setCur { s1.cur with wseen := tset s1.cur.wseen n ix }) u (uniDest s1.cur c (s1.cur.rD c d)) ∧
      tget s1.cur.wseen n 0 ≤ ix ∧ (∀ k e, h[k]? = some e → e.pub = true ∨ e.by_ = s1.cur.id → base + k ≤ ix) ∧
      (tget s1.cur.wseen n 0 < base + h.length → h ≠ [] → ix < base + h.length) ∧
      u.cur.readS (s1.cur.rD c d) = (match h[ix - base]? with | some e => e.val | none => 0) := by
  intro n h base
  obtain ⟨seen, writes, young⟩ := wLow_spec s1.cur base n h
  obtain ⟨low, high⟩ := wPlace_spec s1.cur (Config.freeChoice s1.steps) base n h
  dsimp only [exec, execWmovFromW]
  refine (runInstr_uniform (u := s1.setCur { s1.cur with wseen := tset s1.cur.wseen n (wPlace s1.cur (Config.freeChoice s1.steps) base n h) })
    (v := match h[wPlace s1.cur (Config.freeChoice s1.steps) base n h - base]? with | some e => e.val | none => 0) hr hp ?_ rfl rfl rfl rfl rfl).imp
    fun u ⟨run, after, read⟩ => ⟨_, run, after, seen.trans low, fun k e hk own => (writes k e hk own).trans low, fun hy hn => high (young hy hn), read⟩
  rw [groupLevel_passes hp]
  simp only [hw]
  rfl

end

/-- Settles O29. -/
theorem systemInstructions : Obligations.SystemInstructions := by
  unfold Obligations.SystemInstructions
  refine ⟨⟨⟨fun c s s1 => nop_completes, fun c s s1 hr hp => ?_, fun c s s1 hr hp => ?_, fun c s s1 => park_completes, fun c n a s s1 => daymark_completes,
    fun c v s s1 => setx_completes⟩, ⟨fun c d sr s s1 => getsr_lanes, fun c d sr s s1 hr hp => getsr_uniform hr hp, fun c sr a s s1 hr hp => setsr_effect hr hp⟩⟩,
    fun c d a s s1 => wmovToW_completes, fun c d a s s1 w => wmovFromW_delivers⟩
  · obtain ⟨u, run, after, y⟩ := yield_after hr
    exact ⟨u, run, after, y.trans hp⟩
  · obtain ⟨u, run, after, -⟩ := yield_after hr
    exact ⟨u, run, after⟩

end Sys2Proof.Machine
end

section
/-!
Traps: which instructions raise which causes, what the delivery of a trap does to the group, its launch and its function, and the return from one (R25, R36, R47, R66,
R72, R110, R111, R395).
-/
set_option Elab.async false
namespace Sys2Proof.Machine
open Sys2Proof

/-! ### Causes (R25, R47, R72, R110, R111) -/

theorem trap_raises {c : Ctl} {n : BitVec 11} {s s1 : State} (h : Clear (.trap c n) c c.mark s s1) (hp : s1.cur.passes c = true) :
    exec (.trap c n) s = .next (s1.traps .illegal 0) := by
  dsimp only [exec, execTrap]
  exact runInstr_trap h (groupLevel_passes hp _)

theorem brk_raises {c : Ctl} {n : BitVec 13} {s s1 : State} (h : Clear (.brk c n) c c.mark s s1) (hp : s1.cur.passes c = true) :
    exec (.brk c n) s = .next (s1.traps .debug 0) := by
  dsimp only [exec, execBrk]
  exact runInstr_trap h (groupLevel_passes hp _)

theorem unlistedOpcode_raises (w : Word64) (s : State) : exec (.unlistedOpcode w) s = .next (s.traps .illegal 0) := by
  dsimp only [exec, execUnlistedOpcode, State.stopAt, State.traps]

section
variable {i : Instr} {c : Ctl} {s : State} (h : s.cur.rangeOk i c = false)
include h

/-- An instruction that names a register at or above its declared count raises REG_RANGE, whatever its body is. -/
theorem runInstr_range {body : State → M (State × Option RegWrite)} : runInstr i c body s = .next (s.traps .regRange 0) := runWith_range h

theorem IssuesRegisters.range (f : IssuesRegisters i c fun s => exec i s) : exec i s = .next (s.traps .regRange 0) := by
  obtain ⟨body, -, run⟩ := f
  exact (congrFun run s).trans (runInstr_range h)

theorem CountedForm.range {p : Path} (f : CountedForm i c p) : exec i s = .next (s.traps .regRange 0) := by
  cases f <;> dsimp only [exec, execMxmma, execMxzero, execMxpass, execMxdelta, execDlrBind, execDlrInval, execDlrStat, execWregSet, execWregClr] <;>
    exact runInstr_range h

theorem GroupForm.range (f : GroupForm i c) : exec i s = .next (s.traps .regRange 0) := by
  cases f <;> dsimp only [exec, execMxreq, execMxrel, execMxscl, execMxsclNone, execMxwin, execRastSub, execEncTile, execEncFrm, execTrap, execBrk, execYield,
    execDaymark, execSetsr, execSetx, execWmovToW, execWmovFromW, execGetsr] <;> exact runWith_range h

end

/-! ### Delivery (R36, R66, R395) -/

namespace State

theorem launch?_updLaunch (s : State) (key : Nat) {f : Launch → Launch} (hf : ∀ l, (f l).key = l.key) :
    (s.updLaunch key f).launch? key = (s.launch? key).map f := by
  unfold launch? updLaunch
  dsimp only
  rw [List.find?_map]
  have same : ((fun l : Launch => decide (l.key = key)) ∘ fun l => if l.key = key then f l else l) = fun l => decide (l.key = key) := by
    funext l
    by_cases h : l.key = key <;> simp [h, hf]
  rw [same]
  cases h : s.launches.find? fun l => decide (l.key = key) with
  | none => rfl
  | some l =>
    have hkey : l.key = key := of_decide_eq_true (List.find?_some (p := fun l : Launch => decide (l.key = key)) h)
    simp [hkey]

/-- What the fault of a launch that has not faulted does to it, to its groups and to the registers of its function (R395). -/
theorem faultLaunch_spec {s : State} {key : Nat} {l : Launch} (fc : Nat) (pc : Word32) (addr : Word64) (hl : s.launch? key = some l) (hf : l.faulted = false) :
    let t := s.faultLaunch key fc pc addr
    t.launch? key = some { l with faulted := true, status := 2 } ∧
    (s.cur.launch = key → s.cur.gone = false → t.cur.stop = some .endGroup) ∧
    (∀ h ∈ t.groups, h.launch = key → h.gone = false → h.stop = some .endGroup) ∧
    (l.vf < 64 → (t.vf l.vf).flaunch = l.id ∧ (t.vf l.vf).finfo = BitVec.ofNat 64 (pc.toNat + 2 ^ 32 * fc) ∧ (t.vf l.vf).faddr = addr ∧
      (t.vf l.vf).lflt = true) := by
  unfold faultLaunch
  simp only [hl, hf, Bool.false_eq_true, if_false]
  refine ⟨?_, fun own here => ?_, fun h hh own here => ?_, fun hv => ?_⟩
  · have := launch?_updLaunch s key (f := fun l => { l with faulted := true, status := 2 }) fun _ => rfl
    rw [hl] at this
    unfold launch?
    rw [logError_launches]
    exact this
  · simp [mapGroups, own, here]
  · simp only [logError_groups, updVf_groups, mapGroups, List.mem_map] at hh
    obtain ⟨g, -, rfl⟩ := hh
    split at own <;> split at here <;> simp_all
  · simp [State.vf, updVf, hv]

/-! #### Where a trap of the issuing group goes -/

section
variable {s : State} {cause : Cause} {addr : Nat}

/-- At U, with a handler (R36). -/
theorem traps_handler (hr : s.cur.returned = true) (ha : s.away s.cur.id = false) (hu : s.cur.priv = .u) (hv : s.cur.trapvec ≠ 0)
    (hd : ¬(cause = .debug ∧ (s.vf s.cur.vf).att = true)) : s.traps cause addr = s.trapPark.setCur (s.cur.trapCommit.toHandler (s.trapHere cause addr)) := by
  have h1 : (s.cur.returned && !s.away s.cur.id) = true := by simp [hr, ha]
  have h2 : ¬(decide (cause = .debug) && (s.vf s.cur.vf).att) = true := by simpa using hd
  have h3 : (decide (s.cur.priv = .u) && decide (s.cur.trapvec ≠ 0)) = true := by simpa [hu] using hv
  exact (raise_cur ..).trans ((if_pos h1).trans ((deliver_cur ..).trans ((if_neg h2).trans (if_pos h3))))

/-- At S, or with no handler (R36, R395). -/
theorem traps_halt (hr : s.cur.returned = true) (ha : s.away s.cur.id = false) (hs : s.cur.priv = .s ∨ s.cur.trapvec = 0)
    (hd : ¬(cause = .debug ∧ (s.vf s.cur.vf).att = true)) :
    s.traps cause addr = (s.trapPark.setCur (s.cur.trapCommit.haltFor (s.trapHere cause addr))).faultLaunch s.cur.launch cause.code.toNat s.cur.me.pc
      (BitVec.ofNat 64 addr) := by
  have h1 : (s.cur.returned && !s.away s.cur.id) = true := by simp [hr, ha]
  have h2 : ¬(decide (cause = .debug) && (s.vf s.cur.vf).att) = true := by simpa using hd
  have h3 : ¬(decide (s.cur.priv = .u) && decide (s.cur.trapvec ≠ 0)) = true := by rcases hs with h | h <;> simp [h]
  exact (raise_cur ..).trans ((if_pos h1).trans ((deliver_cur ..).trans ((if_neg h2).trans (if_neg h3))))

/-- While results are out (R36). -/
theorem traps_waits (hr : s.cur.returned = false) :
    s.traps cause addr = s.setCur { s.cur with pendTrap := some (s.trapHere cause addr), pageWait := none } :=
  (raise_cur ..).trans (if_neg (by simp [hr]))

end

/-- What the parked state keeps of the machine outside the workgroups and the L1s. -/
theorem trapPark_rest (s : State) : { s.trapPark with wgs := s.wgs, cores := s.cores } = s.setCur s.cur.trapCommit := parkEnd_rest ..

end State

namespace Group

/-- A trap's commit leaves its registers as a commit does (R66). -/
theorem seen_trapCommit (g : Group) (cls : RClass) (n l : Nat) : g.trapCommit.seen cls n l = g.commit.seen cls n l :=
  seen_congr rfl rfl rfl rfl ..

theorem me_trapCommit (g : Group) : g.trapCommit.me = { g.me with win := [] } := by rw [me, trapCommit_sel1, slot_trapCommit, me]

/-- What a group that goes to its handler for a trap of its issuing slot holds (R36). -/
theorem toHandler_spec (g : Group) (cause : Cause) (pc : Word32) (addr : Word64) :
    let h := g.toHandler { cause, slot1 := g.sel1, pc, addr }
    h.trapcause = bit g.sel1 ++ cause.code ∧ h.trappc = pc ∧ h.trapaddr = addr ∧ h.priv = .s ∧ h.me.pc = g.trapvec.setWidth 32 ∧ h.me.blk.entry = .vec ∧
    h.me.mask = g.me.mask ∧ h.trapBlk = g.me.blk ∧ h.pendTrap = g.pendTrap ∧ h.slot0.win = g.slot0.win ∧ h.slot1.win = g.slot1.win ∧ h.pend = g.pend ∧
    ∀ cls n l, h.seen cls n l = g.seen cls n l := by
  intro h
  have seen : ∀ cls n l, h.seen cls n l = g.seen cls n l := by
    refine fun cls n l => seen_congr ?_ ?_ ?_ ?_ cls n l <;> cases hs : g.sel1 <;> simp [h, toHandler, trapRegs, hs, me, slot, setSlot]
  cases hs : g.sel1 <;> simp [h, toHandler, trapRegs, hs, me, slot, setSlot] at seen ⊢ <;> exact seen

end Group

theorem Group.seen_haltFor (g : Group) (t : TrapRec) (cls : RClass) (n l : Nat) : (g.haltFor t).seen cls n l = g.seen cls n l :=
  seen_congr rfl rfl rfl rfl ..
theorem Group.seen_stop (g : Group) (q : Option StopReq) (cls : RClass) (n l : Nat) :
    ({ g with stop := q } : Group).seen cls n l = g.seen cls n l :=
  seen_congr rfl rfl rfl rfl ..

/-- R36 at U with a handler. -/
theorem traps_at_user {s : State} {cause : Cause} {addr : Nat} (hr : s.cur.returned = true) (ha : s.away s.cur.id = false) (hu : s.cur.priv = .u)
    (hv : s.cur.trapvec ≠ 0) (hd : ¬(cause = .debug ∧ (s.vf s.cur.vf).att = true)) :
    let g := s.cur
    let t := s.traps cause addr
    t.cur.trapcause = bit g.sel1 ++ cause.code ∧ t.cur.trappc = g.me.pc ∧ t.cur.trapaddr = BitVec.ofNat 64 addr ∧ t.cur.priv = .s ∧
    t.cur.me.pc = g.trapvec.setWidth 32 ∧ t.cur.me.blk.entry = .vec ∧ t.cur.me.mask = g.me.mask ∧ t.cur.trapBlk = g.me.blk ∧ t.cur.pendTrap = none ∧
    t.cur.slot0.win = [] ∧ t.cur.slot1.win = [] ∧ t.cur.pend = [] ∧ (∀ cls n l, t.cur.seen cls n l = g.commit.seen cls n l) ∧
    t.mem = s.mem ∧ t.l2 = s.l2 ∧ t.groups = s.groups := by
  intro g t
  have ht : t = s.trapPark.setCur (s.cur.trapCommit.toHandler (s.trapHere cause addr)) := State.traps_handler hr ha hu hv hd
  have rest := s.trapPark_rest
  have spec := s.cur.trapCommit.toHandler_spec cause s.cur.me.pc (BitVec.ofNat 64 addr)
  rw [Group.trapCommit_sel1, Group.me_trapCommit] at spec
  obtain ⟨hcause, hpc, haddr, hpriv, hvec, hentry, hmask, hblk, hpend, hwin0, hwin1, hps, hseen⟩ := spec
  rw [ht]
  exact ⟨hcause, hpc, haddr, hpriv, hvec.trans (by rw [Group.trapCommit_trapvec]), hentry, hmask, hblk, hpend, hwin0.trans (congrArg Slot.win (Group.slot_trapCommit _ false)),
    hwin1.trans (congrArg Slot.win (Group.slot_trapCommit _ true)), hps, fun cls n l => (hseen cls n l).trans (Group.seen_trapCommit ..),
    (congrArg (fun x : State => x.mem) rest : _), (congrArg (fun x : State => x.l2) rest : _), (congrArg (fun x : State => x.groups) rest : _)⟩

/-- R36, R395 at S, or with no handler. -/
theorem traps_without_handler {s : State} {cause : Cause} {addr : Nat} (hr : s.cur.returned = true) (ha : s.away s.cur.id = false)
    (hs : s.cur.priv = .s ∨ s.cur.trapvec = 0) (hd : ¬(cause = .debug ∧ (s.vf s.cur.vf).att = true)) :
    let g := s.cur
    let t := s.traps cause addr
    t.cur.halt = some (.trap cause.code.toNat g.me.pc (BitVec.ofNat 64 addr)) ∧ t.cur.pendTrap = none ∧ t.cur.priv = g.priv ∧ t.cur.trapcause = g.trapcause ∧
    t.cur.pend = [] ∧ (∀ cls n l, t.cur.seen cls n l = g.commit.seen cls n l) ∧
    ∀ l : Launch, s.launch? g.launch = some l → l.faulted = false → l.vf < 64 → g.gone = false →
      t.launch? g.launch = some { l with faulted := true, status := 2 } ∧ t.cur.stop = some .endGroup ∧
      (∀ h ∈ t.groups, h.launch = g.launch → h.gone = false → h.stop = some .endGroup) ∧
      (t.vf l.vf).flaunch = l.id ∧ (t.vf l.vf).finfo = BitVec.ofNat 64 (g.me.pc.toNat + 2 ^ 32 * cause.code.toNat) ∧
      (t.vf l.vf).faddr = BitVec.ofNat 64 addr ∧ (t.vf l.vf).lflt = true := by
  intro g t
  have ht := State.traps_halt (cause := cause) (addr := addr) hr ha hs hd
  have cur : t.cur = s.cur.trapCommit.haltFor (s.trapHere cause addr) ∨
      t.cur = { s.cur.trapCommit.haltFor (s.trapHere cause addr) with stop := some .endGroup } := by
    rw [show t = _ from ht]
    exact State.faultLaunch_cur ..
  refine ⟨?_, ?_, ?_, ?_, ?_, fun cls n l => ?_, fun l hl hf hvf here => ?_⟩
  · rcases cur with e | e <;> rw [e] <;> rfl
  · rcases cur with e | e <;> rw [e] <;> rfl
  · rcases cur with e | e <;> rw [e] <;> exact s.cur.trapCommit_priv
  · rcases cur with e | e <;> rw [e] <;> exact s.cur.trapCommit_trapcause
  · rcases cur with e | e <;> rw [e] <;> rfl
  · rcases cur with e | e <;> rw [e]
    · rw [Group.seen_haltFor, Group.seen_trapCommit]
    · rw [Group.seen_stop, Group.seen_haltFor, Group.seen_trapCommit]
  · have launch : (s.trapPark.setCur (s.cur.trapCommit.haltFor (s.trapHere cause addr))).launch? s.cur.launch = some l := by
      have same : s.trapPark.launches = s.launches := (congrArg (fun x : State => x.launches) s.trapPark_rest : _)
      unfold State.launch? at hl ⊢
      rwa [State.setCur_launches, same]
    obtain ⟨faults, stops, ends, regs⟩ := State.faultLaunch_spec cause.code.toNat s.cur.me.pc (BitVec.ofNat 64 addr) launch hf
    rw [show t = _ from ht]
    exact ⟨faults, stops s.cur.trapCommit_launch (s.cur.trapCommit_gone.trans here), ends, regs hvf⟩

/-! ### Returns (R110) -/

theorem State.itemUnits_spine {s t : State} {pc bend : Word32} {n : Nat} (h : s.itemUnits pc bend = .ok (t, n)) : t.spine = s.spine := by
  unfold State.itemUnits at h
  simp only [bind, Except.bind, pure, Except.pure] at h
  split at h
  · cases h
  · rename_i r hr
    have first : r.1.spine = s.spine := fetchUnit_spine hr
    split at h
    · cases h; exact first
    · split at h
      · cases h; exact first
      · split at h
        · cases h
        · rename_i q hq
          cases h
          exact (fetchUnit_spine hq).trans first
    · cases h; exact first

theorem State.skipTo_spine {s t : State} {pc next : Word32} {k : Blk} {e : EntryMode} (h : s.skipTo pc k = .ok (t, next, e)) :
    t.spine = s.spine := by
  unfold State.skipTo at h
  split at h
  · cases h; rfl
  · simp only [bind, Except.bind, pure, Except.pure] at h
    split at h
    · cases h
    · rename_i r hr
      cases h
      exact itemUnits_spine hr
  · cases h; rfl

/-- The returns are issued alike: their own part is where they resume. -/
theorem ReturnForm.issue {i : Instr} {c : Ctl} {s s2 : State} {pc : Word32} {e : EntryMode} (h : ReturnForm i c s s2 pc e) :
    s2.spine = s.spine ∧ ∃ f : State → M Effect, (fun s => exec i s) = trapReturn i c f ∧ f s = .ok (s2, none, goResume pc e) := by
  cases h with
  | trapRet => exact ⟨rfl, _, by dsimp only [exec, execTrapRet], rfl⟩
  | trapSkip _ _ _ _ _ hs => exact ⟨State.skipTo_spine hs, _, by dsimp only [exec, execTrapSkip], by simp only [hs, bind, Except.bind]; rfl⟩

/-- What a return form comes to, whoever issues it (R58, R110). -/
theorem trapReturn_clear {i : Instr} {c : Ctl} {s s1 : State} {f : State → M Effect} (h : Clear i c c.mark s s1) :
    (s1.cur.passes c = true → s1.cur.priv = .u → trapReturn i c f s = .next (s1.traps .perm 0)) ∧
    (s1.cur.passes c = false → trapReturn i c f s = runInstr i c (fun s => .ok (s, none)) s) ∧
    (∀ s2 go, s1.cur.passes c = true → s1.cur.priv = .s → f s1 = .ok (s2, none, go) →
      trapReturn i c f s = mirrored s.cur s1 s.cur.sel1 s.cur.me.pc (go (s2.setCur (((s2.cur.kills i c s1.cur.x).pushWin none).issued s1.steps)))) := by
  refine ⟨fun hp hu => runWith_trap h ?_, fun hp => ?_, fun s2 go hp hs hf => ?_⟩
  · simp [hp, hu]
  · unfold trapReturn runInstr
    rw [runWith_clear h, runWith_clear h]
    simp [hp, bind, Except.bind, pure, Except.pure]
  · unfold trapReturn
    rw [runWith_clear h]
    simp [hp, hs, hf]

theorem Group.stack_of_frame {g h : Group} (e : g.frame = h.frame) : g.stack = h.stack :=
  (congrArg Group.stack e : g.frame.stack = h.frame.stack)
theorem Group.split_of_frame {g h : Group} (e : g.frame = h.frame) : g.split = h.split :=
  (congrArg Group.split e : g.frame.split = h.frame.split)

/-- Where a return leaves its group: the slot that trapped goes on at `pc` in the block it stood in, with an empty window (R67, R110). -/
theorem Group.returned_spec (v : Group) (pc : Word32) (e : EntryMode) :
    let b := v.trapcause.getLsbD 4
    let g := (v.bankSlot b).fromTrap pc e
    g.priv = .u ∧ (g.slot b).pc = pc ∧ (g.slot b).blk = { v.trapBlk with entry := e } ∧ (g.slot b).win = [] ∧ g.stack = v.stack ∧ g.split = v.split := by
  intro b g
  have rest := bankSlot_banked v b
  have cause : (v.bankSlot b).trapcause = v.trapcause :=
    (congrArg Group.trapcause rest.eq : ((v.bankSlot b).wear _).trapcause = _).trans (by cases b <;> rfl)
  have blk : (v.bankSlot b).trapBlk = v.trapBlk :=
    (congrArg Group.trapBlk rest.eq : ((v.bankSlot b).wear _).trapBlk = _).trans (by cases b <;> rfl)
  have stack : (v.bankSlot b).stack = v.stack :=
    (congrArg Group.stack rest.eq : ((v.bankSlot b).wear _).stack = _).trans (by cases b <;> rfl)
  have split : (v.bankSlot b).split = v.split :=
    (congrArg Group.split rest.eq : ((v.bankSlot b).wear _).split = _).trans (by cases b <;> rfl)
  have slot : (v.bankSlot b).slot b = { v.slot b with win := [] } := (rest.slot b).trans (slot_setSlot ..)
  have hg : g = ({ v.bankSlot b with priv := .u } : Group).setSlot b
      { (v.bankSlot b).slot b with pc, parked := false, wait := none, blk := { v.trapBlk with entry := e } } := by
    show (v.bankSlot b).fromTrap pc e = _
    unfold fromTrap
    rw [show (v.bankSlot b).trapcause.getLsbD 4 = b by rw [cause]]
    dsimp only
    rw [blk]
    rfl
  rw [hg]
  refine ⟨by simp, by simp, by simp, by simp [slot], ?_, ?_⟩
  · rw [setSlot_stack]; exact stack
  · rw [setSlot_split]; exact split

/-- A slot without a pending entry makes none. -/
theorem State.makeEntry_none {s : State} {b : Bool} (h : (s.cur.slot b).blk.entry = .none) : s.makeEntry b = .next s := by
  have pad : s.passPad b = .ok s := by unfold State.passPad; simp [h]; rfl
  have hdr : s.passHeader b = .ok s := by unfold State.passHeader; simp only [h]; rfl
  simp only [State.makeEntry, pad, hdr]

/-- R110: the returns from a trap. -/
theorem ReturnForm.returns {i : Instr} {c : Ctl} {s s1 s2 : State} {pc : Word32} {e : EntryMode} (form : ReturnForm i c s1 s2 pc e) (h : Clear i c c.mark s s1) :
    (s1.cur.passes c = true → s1.cur.priv = .u → exec i s = .next (s1.traps .perm 0)) ∧
    (s1.cur.passes c = false → s1.cur.me.pc + BitVec.ofNat 32 c.units ≠ s1.cur.me.blk.bend → Completes i c s s1 s1 noDest) ∧
    (s1.cur.passes c = true → s1.cur.priv = .s →
      (let v := s2.placed i c s1.cur.x
       let b := v.cur.trapcause.getLsbD 4
       let g := (v.cur.bankSlot b).fromTrap pc e
       g.priv = .u ∧ (g.slot b).pc = pc ∧ (g.slot b).blk = { s2.cur.trapBlk with entry := e } ∧ (g.slot b).win = [] ∧
       (e = .none → exec i s = .next ((v.setCur g).mirror s.cur)) ∧
       (∀ w, (v.setCur g).makeEntry b = .next w → w.mirrorStop s.cur = none → exec i s = .next (w.mirror s.cur)))) := by
  obtain ⟨spine, f, run, hf⟩ := form.issue
  obtain ⟨user, off, system⟩ := trapReturn_clear (f := f) h
  have exec_eq : exec i s = trapReturn i c f s := congrFun run s
  rw [exec_eq]
  refine ⟨user, fun hp hend => ?_, fun hp hs => ?_⟩
  · obtain ⟨wf, range, taken, sound, room⟩ := h
    unfold Completes
    rw [exec_eq, off hp]
    exact runInstr_still ⟨wf, range, taken, sound, room, hend⟩ rfl rfl
  · intro v b g
    obtain ⟨priv, at_, blk, win, stack, split⟩ := v.cur.returned_spec pc e
    have issued : trapReturn i c f s = mirrored s.cur s1 s.cur.sel1 s.cur.me.pc ((v.setCur g).makeEntry b) := by
      rw [system s2 _ hp hs hf, ← State.steps_of_spine spine]
      rfl
    obtain ⟨rest, -, -⟩ := s2.cur.joined_spec i c s1.cur.x none
    have vrest : v.cur.bare = s2.cur.bare := rest
    have frame := State.frame_of_spine spine
    have bare := takePark_bare h.2.2.1
    have hst : (v.setCur g).cur.stack = s.cur.stack := stack.trans ((Group.stack_of_bare vrest).trans
      ((Group.stack_of_frame frame).trans (Group.stack_of_bare bare)))
    have hsp : (v.setCur g).cur.split = s.cur.split := split.trans ((Group.split_of_bare vrest).trans
      ((Group.split_of_frame frame).trans (Group.split_of_bare bare)))
    have trapBlk : v.cur.trapBlk = s2.cur.trapBlk := (congrArg Group.trapBlk vrest : v.cur.bare.trapBlk = s2.cur.bare.trapBlk)
    refine ⟨priv, at_, blk.trans (by rw [trapBlk]), win, fun none => ?_, fun w entered reaches => ?_⟩
    · rw [issued, State.makeEntry_none (by rw [State.setCur_cur, blk]; exact none), mirrored_same _ _ _ _ _ hst hsp, mirror_same _ _ hst hsp]
    · rw [issued, entered]
      simp only [mirrored, reaches]

/-- Settles O28. -/
theorem traps : Obligations.Traps := by
  unfold Obligations.Traps
  refine ⟨⟨⟨fun c n s s1 => trap_raises, fun c n s s1 => brk_raises, unlistedOpcode_raises⟩, fun i c d t s range form => ?_⟩,
    fun s cause addr => ⟨traps_at_user, traps_without_handler, State.traps_waits⟩, fun i c s s1 s2 pc e form clear => form.returns clear⟩
  rcases form with ⟨b, form⟩ | ⟨b, x, form⟩ | ⟨x, form⟩ | ⟨p, form⟩ | form
  · exact form.issues.range range
  · exact form.issues.range range
  · exact form.issues.range range
  · exact form.range range
  · exact form.range range

end Sys2Proof.Machine
end

section
/-!
The encoder and the decoder are inverse on well-formed instructions (R47, R54, R55, R60, R73): the table gives an instruction back from its opcode and fields, a word
its fields, opcode, guard and marker, and prefixes theirs.
-/
set_option Elab.async false
namespace Sys2Proof

open Laws.Encoding in
/-- The decoder's table reads every instruction back, row by row; an event has no row. -/
theorem Laws.Encoding.reads_back (i : Instr) : Laws.Encoding.Statement i := by
  cases i with
  | br c imm => exact br c imm | brc c imm => exact brc c imm | jmp c a => exact jmp c a | call c imm => exact call c imm | ret c => exact ret c
  | exit c => exact exit c | trap c n => exact trap c n | trapRet c => exact trapRet c | trapSkip c => exact trapSkip c | brk c n => exact brk c n
  | nop c => exact nop c | yield c => exact yield c | park c => exact park c | daymark c n a => exact daymark c n a | syncWg c => exact syncWg c
  | syncGang c => exact syncGang c | launch c o => exact launch c o | getsr c d sr vdst => exact getsr c d sr vdst | setsr c sr a => exact setsr c sr a
  | setx c v => exact setx c v | wmovToW c d a => exact wmovToW c d a | wmovFromW c d a => exact wmovFromW c d a | sadd c o => exact sadd c o
  | ssub c o => exact ssub c o | smul c o => exact smul c o | smulh c o => exact smulh c o | sand c o => exact sand c o | sor c o => exact sor c o
  | sxor c o => exact sxor c o | snot c o => exact snot c o | sshl c o => exact sshl c o | sshr c o => exact sshr c o | ssar c o => exact ssar c o
  | smin c o => exact smin c o | smax c o => exact smax c o | ssetp c o => exact ssetp c o | smov c o => exact smov c o | smovi c o => exact smovi c o
  | ssel c o => exact ssel c o | sld c o => exact sld c o | sst c o => exact sst c o | pand c o => exact pand c o | por c o => exact por c o
  | pxor c o => exact pxor c o | pnot c o => exact pnot c o | pmov c o => exact pmov c o | psel c o => exact psel c o | voteAny c o => exact voteAny c o
  | voteAll c o => exact voteAll c o | voteBal c o => exact voteBal c o | iadd c o => exact iadd c o | isub c o => exact isub c o
  | imul c o => exact imul c o | imulh c o => exact imulh c o | imad c o => exact imad c o | iabs c o => exact iabs c o | ineg c o => exact ineg c o
  | imin c o => exact imin c o | imax c o => exact imax c o | isad c o => exact isad c o | ishl c o => exact ishl c o | ishr c o => exact ishr c o
  | isar c o => exact isar c o | lop3 c o => exact lop3 c o | popc c o => exact popc c o | clz c o => exact clz c o | brev c o => exact brev c o
  | bfe c o => exact bfe c o | bfi c o => exact bfi c o | isetp c o => exact isetp c o | imov c o => exact imov c o | imovi c o => exact imovi c o
  | isel c o => exact isel c o | idp4 c o => exact idp4 c o | swz c o => exact swz c o | fadd c o => exact fadd c o | fsub c o => exact fsub c o
  | fmul c o => exact fmul c o | ffma c o => exact ffma c o | fmin c o => exact fmin c o | fmax c o => exact fmax c o | fsetp c o => exact fsetp c o
  | fclass c o => exact fclass c o | frnd c o => exact frnd c o | cvt c o => exact cvt c o | frcp c o => exact frcp c o | frsq c o => exact frsq c o
  | fsqrt c o => exact fsqrt c o | fexp2 c o => exact fexp2 c o | flog2 c o => exact flog2 c o | fsin c o => exact fsin c o | fcos c o => exact fcos c o
  | shfl c o => exact shfl c o | qswp c o => exact qswp c o | red c o => exact red c o | scan c o => exact scan c o | append c o => exact append c o
  | match_ c o => exact match_ c o | ld c o => exact ld c o | st c o => exact st c o | ldt c o => exact ldt c o | stt c o => exact stt c o
  | lda c o => exact lda c o | strl c o => exact strl c o | fence c o => exact fence c o | waitc c o => exact waitc c o | pref c o => exact pref c o
  | cinv c o => exact cinv c o | cwb c o => exact cwb c o | atom c o => exact atom c o | apost c o => exact apost c o | ratom c o => exact ratom c o
  | rpoll c o => exact rpoll c o | talloc c o => exact talloc c o | tfree c h => exact tfree c h | tqry c o => exact tqry c o
  | cpyIn c o => exact cpyIn c o | cpyOut c o => exact cpyOut c o | cpyMc c o => exact cpyMc c o | cpyWin c o => exact cpyWin c o
  | tbarInit c o => exact tbarInit c o | tbarArv c bar => exact tbarArv c bar | tbarExp c o => exact tbarExp c o | tbarExpArv c o => exact tbarExpArv c o
  | tbarWait c o => exact tbarWait c o | tbarTestPh c o => exact tbarTestPh c o | tbarTestBrk c o => exact tbarTestBrk c o
  | tbarInval c bar => exact tbarInval c bar | mxreq c d => exact mxreq c d | mxrel c d => exact mxrel c d | mxmma c o => exact mxmma c o
  | mxscl c o => exact mxscl c o | mxsclNone c sideB => exact mxsclNone c sideB | mxwin c a => exact mxwin c a | mxzero c d => exact mxzero c d
  | mxdrn c o => exact mxdrn c o | mxpass c a => exact mxpass c a | dlrBind c o => exact dlrBind c o | dlrInval c a => exact dlrInval c a
  | dlrStat c o => exact dlrStat c o | mxdelta c a => exact mxdelta c a | wregSet c o => exact wregSet c o | wregClr c id => exact wregClr c id
  | texS c o => exact texS c o | texL c o => exact texL c o | texQDim c o => exact texQDim c o | texQLod c o => exact texQLod c o
  | hgFetch c o => exact hgFetch c o | hgScat c o => exact hgScat c o | rayTrc c o => exact rayTrc c o | rayRsm c o => exact rayRsm c o
  | rayCmt c o => exact rayCmt c o | rayGet c o => exact rayGet c o | rastSub c a => exact rastSub c a | ringPush c o => exact ringPush c o
  | ringPop c o => exact ringPop c o | encTile c o => exact encTile c o | encFrm c a => exact encFrm c a
  | _ => exact event rfl

/-- A base word decodes to the well-formed instruction that it encodes, after any prefixes that the instruction has (R72, step 3). -/
theorem decodeBase_encodeBase {i : Instr} {op : BitVec 10} {c : Ctl} (wf : i.wf = true) (hop : i.opcode = some op) (hc : i.ctl = some c) :
    decodeBase (encodeBase op i.fields c) c.pre = .ok i := by
  obtain ⟨row, listed⟩ := Laws.Encoding.reads_back i op c hop hc
  simp only [decodeBase, wordOpcode_encodeBase, wordFields_encodeBase, wordCtl_encodeBase, row, listed, wf]
  simp

/-- Settles O56: a word with no prefixes before it is read as such, and one behind its prefixes with what they hold. -/
theorem decodeOfEncode : Obligations.DecodeOfEncode := by
  unfold Obligations.DecodeOfEncode
  intro i us wf enc
  unfold encode at enc
  split at enc
  next op c hop hc =>
    have base := decodeBase_encodeBase wf hop hc
    cases hp : c.pre with
    | none =>
      simp only [hp, wordUnits, Option.some.injEq] at base enc
      subst enc
      simp [decodeList, decodeUnits, unitKind_encodeBase, units_eq, base, Except.map]
    | some p =>
      simp only [hp, wordUnits, Option.some.injEq] at base enc
      subst enc
      simp [decodeList, decodeUnits, unitKind_encodePrefix, unitKind_encodeBase, decodePrefix_encodePrefix, units_eq, base, Except.map]
  next => cases enc

/-- Settles O55: the decoder evaluates on each of the words. -/
theorem wordsDecode : Obligations.WordsDecode := by
  unfold Obligations.WordsDecode
  decide +kernel

end Sys2Proof
end

section
/-!
A step of the machine (R47, R72, R396, R423): the turn that it takes from the tape, the item that a slot fetches, and what follows from a turn when nothing waits.
-/
set_option Elab.async false
namespace Sys2Proof.Machine
open Sys2Proof

/-! ### Turns -/

/-- A step takes the next turn from the tape. -/
theorem step_of_tape {s : State} {t : Turn} {r : List Turn} (h : s.tape = t :: r) : step s = ({ s with tape := r, steps := s.steps + 1 } : State).turn t := by
  unfold step State.nextTurn
  rw [h]

/-- What a turn comes to that is taken, and after which the machine settles (R396, R423). -/
theorem State.turn_next {s u w : State} {t : Turn}
    (taken : (match s.turnSlice t with | some gr => s.logTurn gr t | none => s).take t = .next u) (settled : u.settleTurn = .next w) :
    s.turn t = .next (match s.turnSlice t with | some gr => ((w.noteTurn s t).note u s).noteRetired u s gr | none => (w.noteTurn s t).note u s) := by
  unfold State.turn
  cases h : s.turnSlice t <;> simp only [h] at taken ⊢ <;> simp only [taken, settled, Out.andThen]

/-- A selected group issues from the slot that was asked for. -/
theorem State.select_sel1 {s t : State} {gid : Nat} {b : Bool} (h : s.select gid b = some t) : t.cur.sel1 = b := by
  unfold State.select at h
  split at h
  · cases h; rfl
  · split at h
    · cases h
    · cases h; rfl

@[simp] theorem Group.watchHit_startBody (g : Group) (b : Bool) : (g.startBody b).watchHit = g.watchHit := by
  unfold Group.startBody
  split <;> simp

/-- A slot with no entry pending, that neither the debugger nor a watch event holds, runs the item that it fetches (R72). -/
theorem State.issue_item {s u v : State} {i : Instr} (entry : s.cur.me.blk.entry = .none) (skip : s.atItem.cur.me.skip = false)
    (hit : s.cur.watchHit = false) (fetched : s.fetchItem = .ok (u, i)) (run : exec i u = .next v) :
    s.issue = .next (v.unstarted s.cur s.cur.sel1) := by
  have hit' : s.atItem.cur.watchHit = false := (Group.watchHit_startBody ..).trans hit
  unfold State.issue
  simp only [entry, skip, hit', fetched, run, Out.andThen, ne_eq, not_true_eq_false, if_false, Bool.false_and, Bool.false_eq_true]

/-- A turn of a slot that may issue. -/
theorem State.take_issue {s t u : State} {gid : Nat} {b : Bool} (may : s.mayIssue gid b false = true) (sel : (s.tryStop gid).select gid b = some t)
    (go : t.mayGo = true) (issued : t.issue = .next u) : s.take (.issue gid b) = .next u := by
  unfold State.take State.issueTurn
  simp only [may, sel, go, issued, Bool.not_true, Bool.false_eq_true, if_false, if_true]

/-- A turn of an event that does not arrive over a link. -/
theorem State.take_event {s : State} {i : Instr} {p : Port} (event : i.opcode = none) (local_ : i.arrives = false) :
    s.take (.event i p) = exec i { s with port := p } := by
  unfold State.take State.eventTurn
  dsimp only
  generalize ({ s with port := p } : State).eventSlice i = slice
  cases slice <;> simp [event, local_]

/-! ### Items -/

theorem State.atItem_header {s : State} (h : s.cur.atHeader s.cur.sel1 = true) :
    s.atItem = s.setCur (s.cur.setMe { s.cur.me with pc := s.cur.me.pc + 2 }) := by
  unfold State.atItem Group.startBody
  rw [if_pos h]
  rfl

theorem State.atItem_inside {s : State} (h : s.cur.atHeader s.cur.sel1 = false) : s.atItem = s := by
  unfold State.atItem Group.startBody
  rw [h]
  rfl

section
variable {s s1 s2 s3 : State} {u0 u1 u2 : Word32} {i : Instr} {n : Nat}

/-- An item of a base word alone takes two units (R47). -/
theorem State.fetchItem_base (room : 2 ≤ (s.atItem.cur.me.blk.bend - s.atItem.cur.me.pc).toNat)
    (first : s.atItem.fetchUnit s.atItem.cur.me.pc.toNat = .ok (s1, u0)) (kind : unitKind u0 = 0)
    (second : s1.fetchUnit (s.atItem.cur.me.pc.toNat + 1) = .ok (s2, u1))
    (decoded : decodeUnits (s.atItem.cur.me.blk.bend - s.atItem.cur.me.pc).toNat u0 u1 0#32 = .ok (i, n)) : s.fetchItem = .ok (s2, i) := by
  unfold State.fetchItem
  simp [-BitVec.toNat_sub, first, kind, room, second, decoded, bind, Except.bind, pure, Except.pure]

/-- An item of a base word behind a unit that extends it takes three units (R47, R61). -/
theorem State.fetchItem_prefixed (room : 3 ≤ (s.atItem.cur.me.blk.bend - s.atItem.cur.me.pc).toNat)
    (first : s.atItem.fetchUnit s.atItem.cur.me.pc.toNat = .ok (s1, u0)) (kind : unitKind u0 = 1)
    (second : s1.fetchUnit (s.atItem.cur.me.pc.toNat + 1) = .ok (s2, u1)) (kind1 : unitKind u1 = 0)
    (third : s2.fetchUnit (s.atItem.cur.me.pc.toNat + 2) = .ok (s3, u2))
    (decoded : decodeUnits (s.atItem.cur.me.blk.bend - s.atItem.cur.me.pc).toNat u0 u1 u2 = .ok (i, n)) : s.fetchItem = .ok (s3, i) := by
  have room2 : 2 ≤ (s.atItem.cur.me.blk.bend - s.atItem.cur.me.pc).toNat := by omega
  unfold State.fetchItem
  simp [-BitVec.toNat_sub, first, kind, kind1, room, room2, second, third, decoded, bind, Except.bind, pure, Except.pure]

end

/-! ### Settling -/

/-- A link on which no byte waits has nothing to drain (R426). -/
theorem Link.drain_empty {l : Link} (h : ∀ c < 3, tget l.tx c [] = []) : l.drain = l := by
  unfold Link.drain
  simp [List.range_succ, h 0 (by decide), h 1 (by decide), h 2 (by decide)]

/-- Where no record, no access and no byte of a link waits, groups that are over go, and that is all (R109, R414, R426, R433). -/
theorem State.settleTurn_quiet {s : State} (recs : ∀ g ∈ s.allGroups, g.recs = []) (incoming : s.incoming = [])
    (links : ∀ l ∈ s.links.toList, ∀ c < 3, tget l.tx c [] = []) : s.settleTurn = .next s.reap := by
  have none_waits : s.allGroups.filter (fun g => !g.recs.isEmpty) = [] := List.filter_eq_nil_iff.2 fun g hg => by simp [recs g hg]
  have drained : s.links.map Link.drain = s.links :=
    Vector.ext fun k hk => by simpa using Link.drain_empty (links _ (by simp))
  have padded : s.pad = s := by
    unfold State.pad
    split
    · rw [drained]
    · rfl
  unfold State.settleTurn
  simp only [none_waits, List.foldl_nil, incoming, List.length_nil, State.settleIncoming, Out.andThen, padded]

/-- Settles O57: the turn comes from the tape, the item from the units, and settling and notes follow. -/
theorem stepRunsTheDecoded : Obligations.StepRunsTheDecoded := by
  unfold Obligations.StepRunsTheDecoded
  refine ⟨?_, fun s => ⟨State.atItem_header, State.atItem_inside⟩, ?_, ?_, ?_, fun s => State.settleTurn_quiet⟩
  · intro s t u v w gid b r i tape s0 turn s1 may sel go entry skip hit fetched run settled n
    have issued := State.issue_item entry skip hit fetched run
    rw [State.select_sel1 sel] at issued
    exact (step_of_tape tape).trans (State.turn_next (State.take_issue may sel go issued) settled)
  · intro s s1 s2 u0 u1 i n at_ left room first kind second decoded
    exact State.fetchItem_base room first kind second decoded
  · intro s s1 s2 s3 u0 u1 u2 i n at_ left room first kind second kind1 third decoded
    exact State.fetchItem_prefixed room first kind second kind1 third decoded
  · intro s v w i p r tape event local_ s0 turn s1 run settled n
    exact (step_of_tape tape).trans (State.turn_next ((State.take_event event local_).trans run) settled)

end Sys2Proof.Machine
end

section
/-!
Loads and stores of global memory are posted (R59, R124, R160, R170): translation, and so acceptance, changes memory, caches and the walker's notes alone, and the
operation joins its group.
-/
set_option Elab.async false
namespace Sys2Proof.Machine
open Sys2Proof

namespace State

/-! ### What translation leaves unchanged (R326 to R331, R334) -/

/-- The machine without memory, caches, and what the walker notes. -/
def sansMemory (s : State) : State := { s with mem := [], poison := [], l2 := [], cores := tableOf _ {}, walks := [], walked := [], mixed := [] }

theorem cur_of_sansMemory {s t : State} (h : t.sansMemory = s.sansMemory) : t.cur = s.cur := (congrArg (fun x : State => x.cur) h : _)
theorem steps_of_sansMemory {s t : State} (h : t.sansMemory = s.sansMemory) : t.steps = s.steps := (congrArg (fun x : State => x.steps) h : _)

theorem ctlWrite_sansMemory (s : State) (loc : Nat) (d : List Byte) : (s.ctlWrite loc d).sansMemory = s.sansMemory := by
  unfold ctlWrite; dsimp only; split <;> rfl

theorem homeWrite_sansMemory (s : State) (loc : Nat) (d : List Byte) : (s.homeWrite loc d).sansMemory = s.sansMemory := by
  unfold homeWrite
  dsimp only
  split
  · split <;> rfl
  · rw [ctlWrite_sansMemory]; split <;> rfl

theorem bumpHot_sansMemory (s : State) (leaf : Nat) : (s.bumpHot leaf).sansMemory = s.sansMemory := by
  unfold bumpHot
  dsimp only
  split
  · rfl
  · split
    · rfl
    · exact homeWrite_sansMemory ..

theorem writeback_sansMemory (s : State) (keep : Bool) (pa : Nat) : (s.writeback keep pa).sansMemory = s.sansMemory := by
  unfold writeback
  split
  · rfl
  · dsimp only
    split
    · rfl
    · rw [bumpHot_sansMemory, bumpHot_sansMemory, ctlWrite_sansMemory]; rfl

theorem sansMemory_foldl {α : Type} {f : State → α → State} (hf : ∀ s a, (f s a).sansMemory = s.sansMemory) :
    ∀ (l : List α) (s : State), (l.foldl f s).sansMemory = s.sansMemory
  | [], _ => rfl
  | a :: l, s => (sansMemory_foldl hf l (f s a)).trans (hf s a)

theorem dropL1_sansMemory (s : State) (vf : Nat) (p : Nat → Bool) : (s.dropL1 vf p).sansMemory = s.sansMemory := by
  unfold dropL1
  refine sansMemory_foldl (fun s c => ?_) _ s
  rfl

theorem dropL1s_sansMemory (s : State) (p : L1Line → Bool) : (s.dropL1s p).sansMemory = s.sansMemory := by
  unfold dropL1s; split <;> rfl

theorem flushLines_sansMemory (s : State) (p : L2Line → Bool) : (s.flushLines p).sansMemory = s.sansMemory :=
  (sansMemory_foldl (fun s (l : L2Line) => (dropL1_sansMemory _ _ _).trans (writeback_sansMemory s false l.pa)) _ s : _)

theorem walkRead_sansMemory (s : State) (vf : Nat) (st : Bool) (level a va : Nat) : (s.walkRead vf st level a va).1.sansMemory = s.sansMemory := by
  unfold walkRead
  dsimp only
  split
  · rfl
  · split <;> rfl

theorem walk2_sansMemory (vf gpa : Nat) : ∀ (ls : List Nat) (base : Nat) (s : State), (walk2 vf gpa ls base s).1.sansMemory = s.sansMemory
  | [], _, _ => rfl
  | lv :: r, base, s => by
    have read := walkRead_sansMemory s vf true lv (base + 8 * tableIx lv gpa) gpa
    unfold walk2
    dsimp only
    split
    · exact read
    · split
      · exact read
      · split
        · split <;> exact read
        · exact (walk2_sansMemory vf gpa r _ _).trans read

theorem walk1_sansMemory (vf va : Nat) : ∀ (ls : List Nat) (base : Nat) (s : State), (walk1 vf va ls base s).1.sansMemory = s.sansMemory
  | [], _, _ => rfl
  | lv :: r, base, s => by
    have second : (s.stage2 vf (base + 8 * tableIx lv va)).1.sansMemory = s.sansMemory := walk2_sansMemory ..
    unfold walk1
    split
    · rename_i s' a _ _ _ hs
      rw [hs] at second
      have read := (walkRead_sansMemory s' vf false lv a va).trans second
      dsimp only
      split
      · exact read
      · split
        · exact read
        · split
          · exact read
          · exact (walk1_sansMemory vf va r _ _).trans read
    · rename_i s' w _ hs
      rw [hs] at second
      exact second

theorem noteWalk_sansMemory (s : State) (t : Walked) : (s.noteWalk t).sansMemory = s.sansMemory := by
  unfold noteWalk
  dsimp only
  split
  · split <;> rfl
  · refine (dropL1s_sansMemory ..).trans ((flushLines_sansMemory ..).trans ?_)
    split <;> rfl

theorem walk_sansMemory (s : State) (vf va : Nat) : (s.walk vf va).1.sansMemory = s.sansMemory := by
  have first := walk1_sansMemory vf va [3, 2, 1, 0] (s.vf vf).s1root s
  unfold walk
  split <;> rename_i hs <;> rw [hs] at first
  · exact first
  · exact first
  · rename_i s' gpa _ _ _
    have second : (s'.stage2 vf gpa).1.sansMemory = s.sansMemory := (walk2_sansMemory ..).trans first
    split <;> rename_i hs2 <;> rw [hs2] at second
    · exact second
    · exact second
    · exact (noteWalk_sansMemory _ _).trans second

theorem translate_sansMemory (s : State) (vf va : Nat) (core : Option Nat) : (s.translate vf va core).1.sansMemory = s.sansMemory := by
  unfold translate
  dsimp only
  split
  · rfl
  · exact walk_sansMemory ..

theorem xlatLanes_sansMemory (vf : Nat) : ∀ (rs : List LaneReq) (s : State) (done : List (Nat × Xlat)), (s.xlatLanes vf rs done).1.sansMemory = s.sansMemory
  | [], _, _ => rfl
  | r :: rest, s, done => by
    unfold xlatLanes
    split
    · exact xlatLanes_sansMemory vf rest s done
    · exact (xlatLanes_sansMemory vf rest _ _).trans (translate_sansMemory ..)

/-- The acceptance of accesses changes no group (R326). -/
theorem accept_sansMemory {s t : State} {vf : Nat} {kind : AccKind} {size : Nat} {p rd : Bool} {rs : List LaneReq} {accs : List LaneAcc}
    (h : s.accept vf kind size p rs rd = .ok (t, accs)) : t.sansMemory = s.sansMemory := by
  unfold accept at h
  simp only [bind, Except.bind, pure, Except.pure] at h
  repeat' split at h
  all_goals cases h
  exact xlatLanes_sansMemory vf rs s []

theorem accept_cur {s t : State} {vf : Nat} {kind : AccKind} {size : Nat} {p rd : Bool} {rs : List LaneReq} {accs : List LaneAcc}
    (h : s.accept vf kind size p rs rd = .ok (t, accs)) : t.cur = s.cur := cur_of_sansMemory (accept_sansMemory h)
theorem accept_steps {s t : State} {vf : Nat} {kind : AccKind} {size : Nat} {p rd : Bool} {rs : List LaneReq} {accs : List LaneAcc}
    (h : s.accept vf kind size p rs rd = .ok (t, accs)) : t.steps = s.steps := steps_of_sansMemory (accept_sansMemory h)

/-- An access of no lane is accepted, and nothing happens (R59). -/
theorem accept_nil (s : State) (vf : Nat) (kind : AccKind) (size : Nat) (p rd : Bool) : s.accept vf kind size p [] rd = .ok (s, []) := rfl

end State

/-! ### The operation is posted -/

/-- A scope that the policy permits passes its check (R59, R303). -/
theorem scopeAllows.check {s : State} {c : Ctl} {sc : Scope} {bit : Nat} (h : scopeAllows s c sc bit) : ifActive s.cur c (s.scopeOk sc bit) = .ok () := by
  unfold ifActive State.scopeOk trapIf
  split
  · rfl
  · next active =>
    rcases h with h | h | h
    · exact absurd h active
    · simp [h]
    · simp [h]

/-- A load or store whose accesses are accepted is issued with a body that posts its operation. -/
theorem MemoryIssue.posts {i : Instr} {c : Ctl} {s u : State} (h : MemoryIssue i c s u) (path : s.pathFree (memoryPath i) = .ok ()) :
    ∃ body, (fun s => exec i s) = runInstr i c body ∧ body s = .ok (u, none) := by
  cases h with
  | ld _ o _ s2 accs accepted =>
    refine ⟨_, by dsimp only [exec, execLd], ?_⟩
    simp only [issueLoad, show s.pathFree .load = .ok () from path, bind, Except.bind, accepted, State.accept_cur accepted, State.accept_steps accepted, marked]
    rfl
  | lda _ o _ s2 accs allowed accepted =>
    refine ⟨_, by dsimp only [exec, execLda], ?_⟩
    simp only [issueLoad, show s.pathFree .load = .ok () from path, bind, Except.bind, Nat.mul_one, allowed.check, accepted, State.accept_cur accepted,
      State.accept_steps accepted, marked]
    rfl
  | sld _ o _ s2 accs passes accepted =>
    refine ⟨_, by dsimp only [exec, execSld], ?_⟩
    simp only [show s.pathFree .load = .ok () from path, passes, bind, Except.bind, if_true, accepted, State.accept_cur accepted, State.accept_steps accepted]
    rfl
  | st _ o _ s2 accs accepted =>
    refine ⟨_, by dsimp only [exec, execSt], ?_⟩
    simp only [issueStore, show s.pathFree .store = .ok () from path, bind, Except.bind, accepted, State.accept_cur accepted, State.accept_steps accepted, marked]
    rfl
  | strl _ o _ s2 accs allowed accepted =>
    refine ⟨_, by dsimp only [exec, execStrl], ?_⟩
    simp only [issueStore, show s.pathFree .store = .ok () from path, bind, Except.bind, Nat.mul_one, allowed.check, accepted, State.accept_cur accepted,
      State.accept_steps accepted, marked]
    rfl
  | sst _ o _ s2 accs accepted =>
    refine ⟨_, by dsimp only [exec, execSst], ?_⟩
    simp only [show s.pathFree .store = .ok () from path, bind, Except.bind, accepted, State.accept_cur accepted, State.accept_steps accepted]
    rfl

/-- The posted operation is all that the stance of its group does not see. -/
theorem MemoryIssue.stance {i : Instr} {c : Ctl} {s u : State} (h : MemoryIssue i c s u) : u.cur.stance = s.cur.stance := by
  cases h <;> simp

/-- A load or store whose accesses are accepted completes with its operation posted. -/
theorem MemoryIssue.completes {i : Instr} {c : Ctl} {s s1 u : State} (h : MemoryIssue i c s1 u) (path : s1.pathFree (memoryPath i) = .ok ())
    (hr : Ready i c s s1) : Completes i c s s1 u noDest := by
  obtain ⟨body, run, posted⟩ := h.posts path
  unfold Completes
  rw [show exec i s = runInstr i c body s from congrFun run s]
  exact runInstr_still hr posted h.stance

/-- R124: an `sld` that no lane passes posts a load of nothing. -/
theorem sld_idle {c : Ctl} {o : ULoad} {s s1 : State} (hr : Ready (.sld c o) c s s1) (path : s1.pathFree .load = .ok ()) (off : s1.cur.passes c = false) :
    Completes (.sld c o) c s s1 (s1.setCur (s1.cur.addOp s1.steps (some .load) (.load [] (tyBytes o.ty) 1 o.ty.isI false none))) noDest := by
  unfold Completes
  dsimp only [exec, execSld]
  refine runInstr_still hr ?_ rfl
  simp only [path, off, bind, Except.bind, Bool.false_eq_true, if_false, State.accept_nil]
  rfl

/-- Settles O9: each load and store is one of the forms that post their operation. -/
theorem loadsAndStoresAreIssued : Obligations.LoadsAndStoresAreIssued := by
  unfold Obligations.LoadsAndStoresAreIssued
  refine ⟨⟨?_, ?_, ?_⟩, ?_, ?_, ?_⟩
  · exact fun c o s s1 s2 accs hr path accepted => (MemoryIssue.ld c o s1 s2 accs accepted).completes path hr
  · exact fun c o s s1 s2 accs hr allowed path accepted => (MemoryIssue.lda c o s1 s2 accs allowed accepted).completes path hr
  · exact fun c o s s1 s2 accs hr path =>
      ⟨fun passes accepted => (MemoryIssue.sld c o s1 s2 accs passes accepted).completes path hr, sld_idle hr path⟩
  · exact fun c o s s1 s2 accs hr path accepted => (MemoryIssue.st c o s1 s2 accs accepted).completes path hr
  · exact fun c o s s1 s2 accs hr allowed path accepted => (MemoryIssue.strl c o s1 s2 accs allowed accepted).completes path hr
  · exact fun c o s s1 s2 accs hr path accepted => (MemoryIssue.sst c o s1 s2 accs accepted).completes path hr

end Sys2Proof.Machine
end

section
/-!
The last item of a block (R48, R52): an instruction whose results are registers alone does not look at where its block ends, so it has the effect that it has inside one;
a load or store that posts its operation posts it as inside one; the entry of the next block follows.
-/
set_option Elab.async false
namespace Sys2Proof.Machine
open Sys2Proof

/-! ### Where a block ends -/

/-- A slot whose block ends at another unit, where it is the one meant. -/
def Slot.ending (t : Slot) (e : Word32) (mine : Bool) : Slot := if mine then { t with blk := { t.blk with bend := e } } else t

@[simp] theorem Slot.ending_win (t : Slot) (e : Word32) (m : Bool) : (t.ending e m).win = t.win := by cases m <;> rfl
@[simp] theorem Slot.ending_mask (t : Slot) (e : Word32) (m : Bool) : (t.ending e m).mask = t.mask := by cases m <;> rfl

namespace Group

/-- A group whose issuing slot's block ends at another unit. -/
def ending (g : Group) (e : Word32) : Group := { g with slot0 := g.slot0.ending e (!g.sel1), slot1 := g.slot1.ending e g.sel1 }

theorem ending_eq_setMe (g : Group) (e : Word32) : g.ending e = g.setMe { g.me with blk := { g.me.blk with bend := e } } := by
  unfold ending setMe me setSlot slot
  cases g.sel1 <;> rfl

@[simp] theorem slot_ending (g : Group) (e : Word32) (b : Bool) : (g.ending e).slot b = (g.slot b).ending e (b == g.sel1) := by
  unfold ending slot
  cases b <;> cases g.sel1 <;> rfl

@[simp] theorem me_ending (g : Group) (e : Word32) : (g.ending e).me = { g.me with blk := { g.me.blk with bend := e } } := by
  rw [ending_eq_setMe, me_setMe]

@[simp] theorem bare_ending (g : Group) (e : Word32) : (g.ending e).bare = g.bare := rfl

/-! #### What is read -/

@[simp] theorem banked_ending (g : Group) (e : Word32) (cls : RClass) (n l : Nat) : (g.ending e).banked cls n l = g.banked cls n l := by cases cls <;> rfl
@[simp] theorem read_ending (g : Group) (e : Word32) (cls : RClass) (n l : Nat) : (g.ending e).read cls n l = g.read cls n l := by simp [read]
@[simp] theorem readV_ending (g : Group) (e : Word32) : (g.ending e).readV = g.readV := by funext n l; simp [readV]
@[simp] theorem readS_ending (g : Group) (e : Word32) : (g.ending e).readS = g.readS := by funext n; simp [readS]
@[simp] theorem readP_ending (g : Group) (e : Word32) : (g.ending e).readP = g.readP := by funext n l; simp [readP]
@[simp] theorem lanesV_ending (g : Group) (e : Word32) : (g.ending e).lanesV = g.lanesV := by funext n; simp [lanesV]
@[simp] theorem rD_ending (g : Group) (e : Word32) (c : Ctl) (n : BitVec 8) : (g.ending e).rD c n = g.rD c n := rfl
@[simp] theorem rA_ending (g : Group) (e : Word32) (c : Ctl) (n : BitVec 8) : (g.ending e).rA c n = g.rA c n := rfl
@[simp] theorem rB_ending (g : Group) (e : Word32) (c : Ctl) (n : BitVec 8) : (g.ending e).rB c n = g.rB c n := rfl
@[simp] theorem rC_ending (g : Group) (e : Word32) (c : Ctl) : (g.ending e).rC c = g.rC c := rfl
@[simp] theorem fctl_ending (g : Group) (e : Word32) : (g.ending e).fctl = g.fctl := rfl
@[simp] theorem rmode_ending (g : Group) (e : Word32) (c : Ctl) : (g.ending e).rmode c = g.rmode c := rfl
@[simp] theorem srcA_ending (g : Group) (e : Word32) (c : Ctl) (a : Src) : (g.ending e).srcA c a = g.srcA c a := by funext l; simp [srcA]
@[simp] theorem srcB_ending (g : Group) (e : Word32) (c : Ctl) (u : Bool) (b : Src) : (g.ending e).srcB c u b = g.srcB c u b := by funext l; simp [srcB]
@[simp] theorem srcC_ending (g : Group) (e : Word32) (c : Ctl) : (g.ending e).srcC c = g.srcC c := by funext l; simp [srcC]
@[simp] theorem uniA_ending (g : Group) (e : Word32) (c : Ctl) (a : Src) : (g.ending e).uniA c a = g.uniA c a := by simp [uniA]
@[simp] theorem uniB_ending (g : Group) (e : Word32) (c : Ctl) (b : Src) : (g.ending e).uniB c b = g.uniB c b := by simp [uniB]
@[simp] theorem ubVal_ending (g : Group) (e : Word32) (c : Ctl) (b : UB) : (g.ending e).ubVal c b = g.ubVal c b := by cases b <;> simp [ubVal]
@[simp] theorem predA_ending (g : Group) (e : Word32) (c : Ctl) (a : Src) (na : Bool) : (g.ending e).predA c a na = g.predA c a na := by funext l; simp [predA]
@[simp] theorem predB_ending (g : Group) (e : Word32) (c : Ctl) (b : Src) (nb : Bool) : (g.ending e).predB c b nb = g.predB c b nb := by funext l; simp [predB]
@[simp] theorem guardLanes_ending (g : Group) (e : Word32) (c : Ctl) : (g.ending e).guardLanes c = g.guardLanes c := by simp [guardLanes]
@[simp] theorem active_ending (g : Group) (e : Word32) (c : Ctl) : (g.ending e).active c = g.active c := by simp [active]
@[simp] theorem passes_ending (g : Group) (e : Word32) (c : Ctl) : (g.ending e).passes c = g.passes c := by simp [passes]
@[simp] theorem live_ending (g : Group) (e : Word32) : (g.ending e).live = g.live := by simp [live, ending]
@[simp] theorem helpers_ending (g : Group) (e : Word32) : (g.ending e).helpers = g.helpers := by
  unfold helpers helpersOf
  simp only [live_ending, slot_ending, Slot.ending_mask]
  rfl
@[simp] theorem helpersFor_ending (g : Group) (e : Word32) (c : Ctl) : (g.ending e).helpersFor c = g.helpersFor c := by simp [helpersFor]
@[simp] theorem zeroLanes_ending (g : Group) (e : Word32) (c : Ctl) : (g.ending e).zeroLanes c = g.zeroLanes c := by simp [zeroLanes]
@[simp] theorem written_ending (g : Group) (e : Word32) (c : Ctl) : (g.ending e).written c = g.written c := by simp [written]
@[simp] theorem laneWrite_ending (g : Group) (e : Word32) (c : Ctl) (cls : RClass) (reg : Nat) : (g.ending e).laneWrite c cls reg = g.laneWrite c cls reg := by
  funext f; simp [laneWrite]
@[simp] theorem laneResult_ending (g : Group) (e : Word32) (c : Ctl) (cls : RClass) (reg : Nat) :
    (g.ending e).laneResult c cls reg = g.laneResult c cls reg := by funext f; simp [laneResult]
@[simp] theorem voters_ending (g : Group) (e : Word32) (c : Ctl) : (g.ending e).voters c = g.voters c := by simp [voters]
@[simp] theorem contrib_ending (g : Group) (e : Word32) (c : Ctl) (w : Nat) : (g.ending e).contrib c w = g.contrib c w := by
  funext a; simp [contrib]
@[simp] theorem redValue_ending (g : Group) (e : Word32) (c : Ctl) (o : Red) : redValue (g.ending e) c o = redValue g c o := by simp [redValue]

/-! #### What is banked, and what an instruction leaves -/

theorem bankWrite_ending (g : Group) (e : Word32) (w : RegWrite) : (g.ending e).bankWrite w = (g.bankWrite w).ending e := by
  obtain ⟨cls, reg, lanes, val⟩ := w
  cases cls <;> simp only [bankWrite] <;> (try split) <;> rfl

theorem bankEnt_ending (g : Group) (e : Word32) (b : Bool) (x : WinEnt) : (g.ending e).bankEnt b x = (g.bankEnt b x).ending e := by
  unfold bankEnt
  split
  next w hw =>
    split
    · rfl
    · exact congrArg (fun h : Group => { h with pend := shadePend w x.seq b g.pend, late := (x.seq, w.cls, w.reg, w.lanes) :: g.late })
        (bankWrite_ending g e { w with lanes := g.freshLanes x.seq w })
  · rfl

theorem foldl_ending {α : Type} {f : Group → α → Group} {e : Word32} (hf : ∀ g a, f (g.ending e) a = (f g a).ending e) :
    ∀ (l : List α) (g : Group), l.foldl f (g.ending e) = (l.foldl f g).ending e
  | [], _ => rfl
  | a :: l, g => by rw [List.foldl_cons, List.foldl_cons, hf, foldl_ending hf l]

theorem pruneLate_ending (g : Group) (e : Word32) : (g.ending e).pruneLate = g.pruneLate.ending e := by
  unfold pruneLate
  simp only [ending, Slot.ending_win]

theorem setMe_ending (g : Group) (e : Word32) (t : Slot) :
    (g.ending e).setMe { t with blk := { t.blk with bend := e } } = (g.setMe t).ending e := by
  rw [ending_eq_setMe, ending_eq_setMe]
  simp

theorem killReg_ending (g : Group) (e : Word32) (cls : RClass) (n : Nat) : (g.ending e).killReg cls n = (g.killReg cls n).ending e := by
  unfold killReg
  rw [← setMe_ending, me_ending]

theorem killOpnd_ending (g : Group) (e : Word32) (idx : Bool) (o : Option Opnd) : (g.ending e).killOpnd idx o = (g.killOpnd idx o).ending e := by
  unfold killOpnd
  split
  · rfl
  · split
    · exact foldl_ending (fun g k => killReg_ending ..) _ _
    · rfl

theorem kills_ending (g : Group) (e : Word32) (i : Instr) (c : Ctl) (x : BitVec 16) : (g.ending e).kills i c x = (g.kills i c x).ending e := by
  show ({ ((({ g with x := x } : Group).ending e).killOpnd c.idxA i.operands.a).killOpnd c.idxB i.operands.b with x := g.x } : Group) = _
  rw [killOpnd_ending, killOpnd_ending]
  rfl

theorem pushWin_ending (g : Group) (e : Word32) (w : Option RegWrite) : (g.ending e).pushWin w = (g.pushWin w).ending e := by
  have win : (g.ending e).me.win = g.me.win := by rw [me_ending]
  have seat : ∀ ws, (g.ending e).setMe { (g.ending e).me with win := ws } = (g.setMe { g.me with win := ws }).ending e := fun ws => by
    rw [me_ending]
    exact setMe_ending g e { g.me with win := ws }
  unfold pushWin
  cases leaver : (({ seq := g.seq, write := w } : WinEnt) :: g.me.win)[8]? <;>
    simp only [win, seat, show (g.ending e).seq = g.seq from rfl, show (g.ending e).sel1 = g.sel1 from rfl, leaver, bankEnt_ending, pruneLate_ending]

theorem done_ending (g : Group) (e : Word32) (i : Instr) (c : Ctl) (x : BitVec 16) (w : Option RegWrite) (k : Nat) :
    (g.ending e).done i c x w k = (g.done i c x w k).ending e := by
  show ((((g.ending e).kills i c x).pushWin w).issued k).setMe ((((g.ending e).kills i c x).pushWin w).me.next c.units) = _
  rw [kills_ending, pushWin_ending, me_ending]
  exact setMe_ending (((g.kills i c x).pushWin w).issued k) e (((g.kills i c x).pushWin w).me.next c.units)

theorem emptied_ending (g : Group) (e : Word32) : (g.ending e).emptied = g.emptied.ending e := by
  have slot : ∀ (t : Slot) (m : Bool), { t.ending e m with win := [] } = ({ t with win := [] } : Slot).ending e m := fun t m => by cases m <;> rfl
  exact congrArg₂ (fun a b => ({ g with slot0 := a, slot1 := b } : Group)) (slot g.slot0 _) (slot g.slot1 _)

theorem commit_ending (g : Group) (e : Word32) : (g.ending e).commit = g.commit.ending e := by
  have windows : (winOrder (g.ending e).slot0.win.reverse (g.ending e).slot1.win.reverse).foldl (fun g x => g.bankEnt x.1 x.2) (g.ending e) =
      ((winOrder g.slot0.win.reverse g.slot1.win.reverse).foldl (fun g x => g.bankEnt x.1 x.2) g).ending e := by
    rw [show (g.ending e).slot0.win = g.slot0.win from Slot.ending_win .., show (g.ending e).slot1.win = g.slot1.win from Slot.ending_win ..]
    exact foldl_ending (fun g x => bankEnt_ending g e x.1 x.2) _ g
  have all : (g.ending e).bankAll = g.bankAll.ending e :=
    congrArg (fun h : Group => { h with late := [] }) ((congrArg emptied windows).trans (emptied_ending _ e))
  have results := foldl_ending (e := e) (f := fun g p => g.commitOne p) (fun g p =>
    congrArg (fun h : Group => { h with fpflags := h.fpflags ||| p.flags }) (bankWrite_ending g e p.write)) g.bankAll.pend g.bankAll
  unfold commit
  rw [all]
  exact congrArg (fun h : Group => { h with pend := [] }) results

end Group

namespace State

/-- A machine whose issuing slot's block ends at another unit. -/
def ending (s : State) (e : Word32) : State := s.setCur (s.cur.ending e)

@[simp] theorem ending_cur (s : State) (e : Word32) : (s.ending e).cur = s.cur.ending e := rfl

theorem trimL1_setCur (s : State) (g : Group) (core n : Nat) : (s.setCur g).trimL1 core n = (s.trimL1 core n).setCur g := by
  have out : ((s.setCur g).coreAt core).l1.length + n - (s.setCur g).l1Room core = (s.coreAt core).l1.length + n - s.l1Room core := rfl
  unfold trimL1
  dsimp only
  rw [out]
  split <;> rfl

theorem finishAlloc_setCur (s : State) (g : Group) (wg h : Nat) : (s.setCur g).finishAlloc wg h = (s.finishAlloc wg h).setCur g := by
  unfold finishAlloc
  rw [show (s.setCur g).wg? wg = s.wg? wg from rfl]
  split
  · rfl
  · split
    · rfl
    · dsimp only
      split
      · rfl
      · rw [← trimL1_setCur]; rfl

theorem finishAllocs_setCur (s : State) (g : Group) (id wg : Nat) : (s.setCur g).finishAllocs id wg = (s.finishAllocs id wg).setCur g := by
  have fold : ∀ {f : State → Nat → State}, (∀ s h, f (s.setCur g) h = (f s h).setCur g) → ∀ (l : List Nat) (s : State),
      l.foldl f (s.setCur g) = (l.foldl f s).setCur g := by
    intro f hf l
    induction l with
    | nil => exact fun _ => rfl
    | cons a l ih => exact fun s => by rw [List.foldl_cons, List.foldl_cons, hf, ih]
  unfold finishAllocs
  rw [show (s.setCur g).wg? wg = s.wg? wg from rfl]
  split
  · rfl
  · refine fold (fun s h => ?_) _ s
    dsimp only
    split
    · exact finishAlloc_setCur ..
    · rfl

/-- A commit park does not look at where the block ends (R66). -/
theorem takePark_ending (s : State) (e : Word32) (park : Bool) : (s.ending e).takePark park = (s.takePark park).map (·.ending e) := by
  have parked : (s.cur.ending e).me.parked = s.cur.me.parked := by rw [Group.me_ending]
  have seat : (s.cur.commit.ending e).setMe { (s.cur.commit.ending e).me with parked := true, parking := false } =
      (s.cur.commit.setMe { s.cur.commit.me with parked := true, parking := false }).ending e := by
    rw [Group.me_ending]
    exact Group.setMe_ending s.cur.commit e { s.cur.commit.me with parked := true, parking := false }
  have ends : ∀ (X : Group) (id wg : Nat), (((s.ending e).setCur (X.ending e)).publishW id wg).finishAllocs id wg =
      (((s.setCur X).publishW id wg).finishAllocs id wg).ending e := fun X id wg => by
    show _ = (((s.setCur X).publishW id wg).finishAllocs id wg).setCur ((((s.setCur X).publishW id wg).finishAllocs id wg).cur.ending e)
    rw [finishAllocs_cur, publishW_cur, setCur_cur, ← finishAllocs_setCur]
    rfl
  unfold takePark
  simp only [ending_cur, parked, Group.commit_ending, show (s.cur.ending e).returned = s.cur.returned from rfl]
  split
  · rfl
  · split
    · rw [seat]
      exact congrArg some (ends ..)
    · rfl

end State

/-! ### Bodies that do not look at where the block ends -/

/-- A function of a group that does not look at where the block of its issuing slot ends. -/
def EndBlind {α : Type} (f : Group → α) : Prop := ∀ g e, f (g.ending e) = f g

/-- A body that does not look at it, and leaves it. -/
def EndBlindBody (body : State → M (State × Option RegWrite)) : Prop :=
  ∀ s e t w, body s = .ok (t, w) → body (s.ending e) = .ok (t.ending e, w)

/-- A step function that issues an instruction with a body that delivers registers alone and does not look at where the block ends. -/
def IssuesBlind (i : Instr) (c : Ctl) (f : State → Out) : Prop := ∃ body, RegisterBody body ∧ EndBlindBody body ∧ f = runInstr i c body

theorem shortResult_blind {f : Group → Option RegWrite × BitVec 6} (hf : EndBlind f) : EndBlindBody (shortResult f) := by
  intro s e t w h
  unfold shortResult at h ⊢
  rw [State.ending_cur, hf]
  cases h
  rfl

theorem longResult_blind {f : Group → RegWrite × BitVec 6} (hf : EndBlind f) : EndBlindBody (longResult f) := by
  intro s e t w h
  unfold longResult at h ⊢
  rw [State.ending_cur, hf]
  cases h
  rfl

theorem groupLevel_blind {c : Ctl} {body : State → M (State × Option RegWrite)} (hb : EndBlindBody body) : EndBlindBody (groupLevel c body) := by
  intro s e t w h
  unfold groupLevel at h ⊢
  rw [State.ending_cur, Group.passes_ending]
  split at h
  · rw [if_pos ‹_›]; exact hb s e t w h
  · rw [if_neg ‹_›]; cases h; rfl

section
variable {i : Instr} {c : Ctl}

theorem blind_short {f : Group → Option RegWrite × BitVec 6} (hf : EndBlind f) : IssuesBlind i c (runInstr i c (shortResult f)) :=
  ⟨_, shortResult_registerBody f, shortResult_blind hf, rfl⟩
theorem blind_lanes {cls : RClass} {reg : Group → Nat} {f : Group → Nat → Flagged Word64} (hr : EndBlind reg) (hf : EndBlind f) :
    IssuesBlind i c (runInstr i c (laneShort c cls reg f)) :=
  blind_short fun g e => by rw [Group.laneResult_ending, hr, hf]
theorem blind_uniform {d : BitVec 8} {f : Group → Flagged Word64} (hf : EndBlind f) : IssuesBlind i c (runInstr i c (uniShort c d f)) :=
  ⟨_, groupLevel_registerBody c (shortResult_registerBody _), groupLevel_blind (shortResult_blind fun g e => by rw [hf]; rfl), rfl⟩
theorem blind_long {f : Group → RegWrite × BitVec 6} (hf : EndBlind f) : IssuesBlind i c (runInstr i c (longResult f)) :=
  ⟨_, longResult_registerBody f, longResult_blind hf, rfl⟩
theorem blind_lanesLong {cls : RClass} {reg : Group → Nat} {f : Group → Nat → Flagged Word64} (hr : EndBlind reg) (hf : EndBlind f) :
    IssuesBlind i c (runInstr i c (laneLong c cls reg f)) :=
  blind_long fun g e => by rw [Group.laneResult_ending, hr, hf]

end

theorem IntResult.blind {i : Instr} {c : Ctl} {d : BitVec 8} {t : Ty} {sat : Bool} {x : Group → Nat → Nat → Int} (h : IntResult i c d t sat x) :
    IssuesBlind i c fun s => exec i s := by
  cases h <;>
    dsimp only [exec, execIadd, execIsub, execImul, execImulh, execImad, execIabs, execIneg, execImin, execImax, execIsad, execIdp4, vecArith, vecArith3, vecUnary] <;>
    exact blind_lanes (fun g e => rfl) fun g e => by simp

theorem BitResult.blind {i : Instr} {c : Ctl} {d : BitVec 8} {t : Ty} {b : Group → Nat → Nat → Nat → Bool} (h : BitResult i c d t b) :
    IssuesBlind i c fun s => exec i s := by
  cases h <;>
    dsimp only [exec, execIshl, execIshr, execIsar, execBrev, execBfe, execBfi, execSwz, execLop3, execImov, execImovi, execIsel, vecBits, vecBits1, vecWhole] <;>
    exact blind_lanes (fun g e => rfl) fun g e => by simp

theorem UniExact.blind {i : Instr} {c : Ctl} {d : BitVec 8} {t : Ty} {sat : Bool} {x : Group → Int} (h : UniExact i c d t sat x) :
    IssuesBlind i c fun s => exec i s := by
  cases h <;> dsimp only [exec, execSadd, execSsub, execSmul, execSmulh, execSmin, execSmax, uniArith] <;> exact blind_uniform fun g e => by simp

theorem UniBits.blind {i : Instr} {c : Ctl} {d : BitVec 8} {b : Group → Nat → Bool} (h : UniBits i c d b) :
    IssuesBlind i c fun s => exec i s := by
  cases h <;> dsimp only [exec, execSand, execSor, execSxor, execSnot, execSshl, execSshr, execSsar, execSmov, execSmovi, execSsel, uniLogic, uniShift] <;>
    exact blind_uniform fun g e => by simp

theorem PredResult.blind {i : Instr} {c : Ctl} {d : BitVec 8} {b : Group → Nat → Bool} (h : PredResult i c d b) :
    IssuesBlind i c fun s => exec i s := by
  cases h <;>
    dsimp only [exec, execPand, execPor, execPxor, execPnot, execPmov, execPsel, execVoteAny, execVoteAll, execSsetp, execIsetp, execFclass, predLanes] <;>
    exact blind_lanes (fun g e => rfl) fun g e => by simp

theorem FpResult.blind {i : Instr} {c : Ctl} {d : BitVec 8} {t : Ty} {f : Group → Nat → Nat → Flagged Nat} (h : FpResult i c d t f) :
    IssuesBlind i c fun s => exec i s := by
  cases h <;> dsimp only [exec, execFadd, execFsub, execFmul, execFfma, execFmin, execFmax, execFrnd, fp2] <;>
    exact blind_lanes (fun g e => rfl) fun g e => by simp

theorem SfuResult.blind {i : Instr} {c : Ctl} {o : F1} {f : Sfu} (h : SfuResult i c o f) : IssuesBlind i c fun s => exec i s := by
  cases h <;> dsimp only [exec, execFrcp, execFrsq, execFsqrt, execFexp2, execFlog2, execFsin, execFcos, sfuLanes] <;>
    exact blind_lanesLong (fun g e => rfl) fun g e => by simp

theorem MoveResult.blind {i : Instr} {c : Ctl} {d : BitVec 8} {t : Ty} {b : Group → Nat → Nat → Nat → Bool} (h : MoveResult i c d t b) :
    IssuesBlind i c fun s => exec i s := by
  cases h <;> dsimp only [exec, execShfl, execQswp, execMatch] <;> exact blind_lanesLong (fun g e => rfl) fun g e => by simp

/-- No instruction whose results are registers alone looks at where its block ends. -/
theorem RegisterForm.blind {i : Instr} {c : Ctl} (h : RegisterForm i c) : IssuesBlind i c fun s => exec i s := by
  cases h with
  | int _ _ _ _ _ _ h => exact h.blind
  | bits _ _ _ _ _ h => exact h.blind
  | popc => dsimp only [exec, execPopc, vecBits1]; exact blind_lanes (fun g e => rfl) fun g e => by simp
  | clz => dsimp only [exec, execClz, vecBits1]; exact blind_lanes (fun g e => rfl) fun g e => by simp
  | uniExact _ _ _ _ _ _ h => exact h.blind
  | uniBits _ _ _ _ h => exact h.blind
  | pred _ _ _ _ h => exact h.blind
  | voteBal => dsimp only [exec, execVoteBal]; exact blind_short fun g e => by simp
  | fp _ _ _ _ _ h => exact h.blind
  | fsetp => dsimp only [exec, execFsetp]; exact blind_lanes (fun g e => rfl) fun g e => by simp
  | cvt => dsimp only [exec, execCvt]; exact blind_lanes (fun g e => rfl) fun g e => by simp
  | sfu _ _ _ _ h => exact h.blind
  | move _ _ _ _ _ h => exact h.blind
  | red => dsimp only [exec, execRed]; exact blind_long fun g e => by simp
  | scan => dsimp only [exec, execScan]; exact blind_long fun g e => by simp


/-! ### The end of a block -/

theorem Group.Sound.ending {g : Group} (h : g.Sound) (e : Word32) : (g.ending e).Sound :=
  h.keep (fun b => .inr (by rw [Group.slot_ending, Slot.ending_win])) rfl rfl rfl rfl

/-- An instruction whose first checks are met goes through where its block ends elsewhere than behind it. -/
theorem Clear.ready_ending {i : Instr} {c : Ctl} {s s1 : State} {e : Word32} (h : Clear i c c.mark s s1) (he : s1.cur.me.pc + BitVec.ofNat 32 c.units ≠ e) :
    Ready i c (s.ending e) (s1.ending e) := by
  obtain ⟨wf, range, taken, sound, room⟩ := h
  refine ⟨wf, range, ?_, sound.ending e, room, ?_⟩
  · rw [State.takePark_ending, taken]; rfl
  · rw [State.ending_cur, Group.me_ending]; exact he

/-- A commit park leaves the slot in its block. -/
theorem State.takePark_blk {s s1 : State} {park : Bool} (h : s.takePark park = some s1) : s1.cur.me.blk = s.cur.me.blk := by
  rcases takePark_cases h with rfl | e
  · rfl
  · rw [e, Group.me_setMe]
    simp only [Group.me, Group.slot_commit, Group.commit_sel1]

/-- The issuing slot, behind the last item of the block `k`, has the entry of the block that follows to make: at a padding unit or by falling through (R48). -/
def State.behindBlock (t : State) (k : Blk) : State :=
  t.setCur (t.cur.setMe { t.cur.me with blk := { k with entry := if t.cur.me.pc.toNat % 2 = 1 then .pad else .fall } })

theorem State.behindBlock_ending (t : State) (e : Word32) (k : Blk) : (t.ending e).behindBlock k = t.behindBlock k := by
  unfold behindBlock
  rw [State.ending_cur, Group.me_ending, Group.ending_eq_setMe, Group.setMe_setMe]
  rfl

/-- Moving on at the end of a block. -/
theorem advance_last {s : State} {n : Nat} (h : s.cur.me.pc + BitVec.ofNat 32 n = s.cur.me.blk.bend) :
    s.advance n = ((s.setCur (s.cur.setMe (s.cur.me.next n))).behindBlock s.cur.me.blk).makeEntry s.cur.sel1 := by
  unfold State.advance State.behindBlock
  simp only [h, if_true, State.setCur_cur, Group.me_setMe, Group.setMe_setMe]
  rw [← h]
  rfl

/-- AN INSTRUCTION AT THE END OF ITS BLOCK has its effect, and its slot makes the entry of the next block (R48, R52). -/
theorem runInstr_last {i : Instr} {c : Ctl} {s s1 u v : State} {w : Option RegWrite} {body : State → M (State × Option RegWrite)}
    (h : Clear i c c.mark s s1) (hb : body s1 = .ok (u, w)) (hu : u.cur.stance = s1.cur.stance)
    (last : s1.cur.me.pc + BitVec.ofNat 32 c.units = s1.cur.me.blk.bend)
    (entered : ((u.setCur (u.cur.done i c s1.cur.x w s1.steps)).behindBlock s.cur.me.blk).makeEntry s.cur.sel1 = .next v) (reaches : v.mirrorStop s.cur = none) :
    runInstr i c body s = .next (v.mirror s.cur) := by
  have taken := h.2.2.1
  obtain ⟨sel, -⟩ := State.takePark_at taken
  obtain ⟨rest, pc, blk⟩ := u.cur.joined_spec i c s1.cur.x w
  have hme := Group.me_of_stance hu
  generalize hj : (u.cur.kills i c s1.cur.x).pushWin w = j at rest pc blk
  have hpc : j.me.pc = s1.cur.me.pc := pc.trans (congrArg Slot.pc hme : _)
  have hblk : j.me.blk = s1.cur.me.blk := blk.trans (congrArg Slot.blk hme : _)
  have hsel : j.sel1 = s.cur.sel1 :=
    ((congrArg Group.sel1 rest : j.bare.sel1 = u.cur.bare.sel1).trans (congrArg Group.sel1 hu : u.cur.stance.sel1 = s1.cur.stance.sel1)).trans sel
  have moved : (u.setCur (j.issued s1.steps)).advance c.units = .next v := by
    rw [advance_last (show j.me.pc + BitVec.ofNat 32 c.units = j.me.blk.bend by rw [hpc, hblk, last])]
    rw [← entered, Group.done, hj]
    show ((State.setCur _ _).behindBlock j.me.blk).makeEntry j.sel1 = _
    rw [hblk, hsel, State.takePark_blk taken]
    rfl
  unfold runInstr
  rw [runWith_clear h]
  simp only [hb, bind, Except.bind, pure, Except.pure, hj, moved, mirrored, reaches]

/-- Behind a body that posts an operation its group is that of `After`, whatever follows in the block. -/
theorem After.of_done {i : Instr} {c : Ctl} {s u : State} (sound : s.cur.Sound) (hu : u.cur.stance = s.cur.stance) (k : Nat) :
    After i c s.cur.x u (u.setCur (u.cur.done i c s.cur.x none k)) noDest := by
  obtain ⟨rest, flags, other, st, mask, reconv, parent, blk, pc, pends, -, -⟩ := Group.done_spec u.cur i c s.cur.x none k
  obtain ⟨window, -⟩ := sound.of_stance hu
  have kills := Group.kills_spec u.cur i c s.cur.x
  obtain ⟨win, hk, same⟩ := id kills
  have lengths : win.length = u.cur.me.win.length := by simpa [Group.writes] using congrArg List.length same
  refine ⟨rfl, rest, flags, other, ⟨st, mask, reconv, parent, blk⟩, pc, fun cls n l hn hl _ kept => ?_, pends, fun p hp own => ?_⟩
  · rw [State.setCur_cur, Group.seen_done, Group.seen_pushWin _ none cls n l hn hl kept (by rw [hk, Group.me_setMe]; exact lengths.trans_le (window _).1)]
    exact kills.seen cls n l hn
  · have joined : p ∈ ((u.cur.kills i c s.cur.x).pushWin none).pend := by
      refine Group.pend_pushWin_own _ _ (by rw [hk]; simpa using hp) fun e he => ?_
      rw [hk, Group.me_setMe] at he
      have : (e.seq, e.write) ∈ Group.writes u.cur.me.win := same ▸ List.mem_map_of_mem he
      obtain ⟨f, hf, hfe⟩ := List.mem_map.1 this
      have older := (window _).2 f hf
      simp only [Prod.mk.injEq] at hfe
      omega
    simpa [Group.done] using joined

/-- What an instruction leaves does not depend on where the block ends. -/
theorem State.done_ending (u : State) (e : Word32) (i : Instr) (c : Ctl) (x : BitVec 16) (w : Option RegWrite) (k : Nat) :
    (u.ending e).setCur ((u.ending e).cur.done i c x w k) = (u.setCur (u.cur.done i c x w k)).ending e := by
  rw [State.ending_cur, Group.done_ending]
  rfl

/-- R48, R52 for the instructions whose results are registers alone. -/
theorem RegisterForm.ends {i : Instr} {c : Ctl} {s s1 t v : State} {e : Word32} (form : RegisterForm i c) (h : Clear i c c.mark s s1)
    (last : s1.cur.me.pc + BitVec.ofNat 32 c.units = s1.cur.me.blk.bend) (he : e ≠ s1.cur.me.blk.bend) (inside : exec i (s.ending e) = .next t)
    (entered : (t.behindBlock s.cur.me.blk).makeEntry s.cur.sel1 = .next v) (reaches : v.mirrorStop s.cur = none) :
    exec i s = .next (v.mirror s.cur) := by
  obtain ⟨body, regs, blind, run⟩ := form.blind
  obtain ⟨ps, fl, w, hb⟩ := regs s1
  generalize hu : s1.setCur { s1.cur with pend := ps, fpflags := fl } = u at hb
  obtain ⟨me, stack, split, stance⟩ : u.cur.me = s1.cur.me ∧ u.cur.stack = s1.cur.stack ∧ u.cur.split = s1.cur.split ∧ u.cur.stance = s1.cur.stance := by
    subst hu; exact ⟨rfl, rfl, rfl, rfl⟩
  have step := runInstr_done (h.ready_ending (by rw [last]; exact he.symm)) (blind s1 e u w hb) (by simp [me]) (by simp [me]) stack split
  rw [← show exec i (s.ending e) = runInstr i c body (s.ending e) from congrFun run (s.ending e), inside] at step
  rw [show exec i s = runInstr i c body s from congrFun run s]
  refine runInstr_last h hb stance last ?_ reaches
  have same : t = (u.setCur (u.cur.done i c s1.cur.x w s1.steps)).ending e := (Host.Outcome.next.inj step).trans (u.done_ending ..)
  rw [← entered, same, State.behindBlock_ending]

/-- Settles O58. -/
theorem endOfBlock : Obligations.EndOfBlock := by
  unfold Obligations.EndOfBlock
  refine ⟨fun i c s s1 t w e form h last he inside entered reaches => ?_, fun i c s s1 u form path h last => ?_⟩
  · rw [← Group.ending_eq_setMe] at inside
    exact form.ends h last he inside entered reaches
  · obtain ⟨body, run, posted⟩ := form.posts path
    refine ⟨_, After.of_done h.2.2.2.1 form.stance s1.steps, fun w entered reaches => ?_⟩
    rw [show exec i s = runInstr i c body s from congrFun run s]
    exact runInstr_last h posted form.stance last entered reaches

end Sys2Proof.Machine
end

section
/-!
The record instructions, and a trap that settling can deliver (R223, R226): `settleAcc` also lets an older `dlr.stat` take effect, and one that finds its header poisoned
raises POISON there. Its group then goes to its handler within the turn of the younger instruction.
-/
set_option Elab.async false
namespace Sys2Proof.Machine
open Sys2Proof

/-- A group with its handler at unit 2^32 - 2 and its kernel at 2^57, where no unit can be fetched, and with an open `dlr.stat` whose header line is poisoned. -/
def lateStat : State :=
  let s := setS bench [(2, 0x10000)]
  let stat : Op := { seq := 0, slot1 := false, path := some .mx, pc := 16, kind := .dlr 2 0x20000 0x20000 0 0, stamp := 0 }
  { s with poison := [0x20000 / 64], cur := { s.cur with seq := 1, kbase := 2 ^ 57, trapvec := 2 ^ 32 - 2, ops := [stat] } }

/-- The machine once a younger `dlr.inval`, of the header at 0x10000, has joined the operations of `lateStat` behind the acceptance `a`. -/
def invalJoined (a : State × List LaneAcc) : State :=
  (a.1.setCur (lateStat.cur.addOp lateStat.steps (some .mx)
    (.dlr 1 (lateStat.cur.uniA {} (r 2)).toNat (((a.2.head?).map (·.pa)).getD 0) 0 0))).settleAcc lateStat.cur.id none

/-- What the refutation asks of the acceptance: one line, free of older accesses, and a handler's entry that the slot has to make once the operations have settled. -/
def invalDelivers (a : State × List LaneAcc) : Bool :=
  decide (a.2.length = 1) && okWith (a.1.settled [(0, Loc.pa (((a.2.head?).map (·.pa)).getD 0), 64)]) (fun _ => true) &&
    decide ((invalJoined a).cur.me.blk.entry = .vec)

theorem lateStat_accepts :
    okWith (lateStat.accept lateStat.cur.vf .write 256 false [{ lane := 0, va := (lateStat.cur.uniA {} (r 2)).toNat }]) invalDelivers = true := by decide +kernel

/-- The `dlr.inval` goes on from the handler's vector, whose block it takes to end there. -/
theorem lateStat_falls : goesNext (exec (.dlrInval {} (r 2)) lateStat) (fun t => decide (t.cur.me.blk.entry = .fall)) = true := by decide +kernel

/-- Refutes O18. An older `dlr.stat` takes effect while a `dlr.inval` joins the operations, finds its header poisoned, and its trap sends the slot to the vector 2^32 - 2; the
`dlr.inval` moves on from there to unit 0, where the block of a trap's entry has its end, so the slot makes another entry than the one that settling left. -/
theorem not_recordsRegionsAndIdleForms : ¬ Obligations.RecordsRegionsAndIdleForms := by
  unfold Obligations.RecordsRegionsAndIdleForms
  rintro ⟨-, records, -⟩
  obtain ⟨⟨s2, accs⟩, accepted, delivers⟩ := okWith_spec lateStat_accepts
  simp only [invalDelivers, Bool.and_eq_true, decide_eq_true_eq] at delivers
  obtain ⟨⟨one, settled⟩, vec⟩ := delivers
  obtain ⟨acc, rfl⟩ := List.length_eq_one_iff.1 one
  obtain ⟨t, run, after⟩ := records _ {} (r 2) 1 _ .write none lateStat lateStat s2 acc (.dlrInval {} (r 2)) (ready_of (by decide +kernel))
    (goesUnit (by decide +kernel)) (by decide +kernel) nofun accepted (goesUnit settled) nofun
  obtain ⟨t', run', fall⟩ := goesNext_spec lateStat_falls
  cases run.symm.trans run'
  obtain ⟨-, -, -, -, blk⟩ := after.path
  have entry : t.cur.me.blk.entry = .vec := (congrArg Blk.entry blk).trans vec
  rw [of_decide_eq_true fall] at entry
  cases entry

end Sys2Proof.Machine
end

section
/-!
Texture instructions (R59, R241 to R243, R253 to R256): reading a descriptor and accepting texels leave the path of the group, and the operation joins its group.
-/
set_option Elab.async false
namespace Sys2Proof.Machine
open Sys2Proof

namespace State

/-! ### What reading a descriptor and accepting texels leave unchanged -/

@[simp] theorem serveRead_spine (s : State) (vf va loc : Nat) : (s.serveRead vf va loc).spine = s.spine := by
  unfold serveRead; split <;> exact serveFill_spine ..

@[simp] theorem noteRead_spine (s : State) (vf acc : Nat) (ag : Agent) (va loc n : Nat) : (s.noteRead vf acc ag va loc n).spine = s.spine :=
  (watch_spine ..).trans (serveRead_spine ..)

@[simp] theorem setGate_spine (s : State) (u : Nat) (g : Gate) : (s.setGate u g).spine = s.spine := by
  unfold setGate; repeat' split
  all_goals rfl

@[simp] theorem arrive_spine (s : State) (u : Nat) : (s.arrive u).spine = s.spine := by
  unfold arrive
  dsimp only
  split
  · rfl
  · rw [setGate_spine]
    repeat' split
    all_goals rfl

/-- Reading lines at issue leaves the path and the registers of the group (R305). -/
theorem readNow_spine {s t : State} {acc : Nat} {lines : List (Nat × Nat × Nat)} {d : List Byte} (h : s.readNow acc lines = .ok (t, d)) : t.spine = s.spine := by
  unfold readNow at h
  simp only [bind, Except.bind, pure, Except.pure] at h
  repeat' split at h
  all_goals cases h
  exact spine_foldl (fun s (l : Nat × Nat × Nat) => (noteRead_spine ..).trans (dropCoreLine_spine ..)) lines s

theorem readTable_spine {s t : State} {va n : Nat} {d : List Byte} (h : s.readTable va n = .ok (t, d)) : t.spine = s.spine := by
  unfold readTable at h
  simp only [bind, Except.bind, pure, Except.pure] at h
  split at h
  · cases h
  next x accepted =>
    split at h
    · cases h
    next y read =>
      cases h
      exact (readNow_spine read).trans (accept_spine accepted)

theorem texDesc_spine {s t : State} {c : Ctl} {b : Src} {dim : TexDim} {d : List Byte} (h : s.texDesc c b dim = .ok (t, d)) : t.spine = s.spine := by
  unfold texDesc at h
  simp only [bind, Except.bind, pure, Except.pure] at h
  split at h
  · cases h
  · split at h
    · cases h
    next x read =>
      split at h <;> cases h
      exact readTable_spine read

theorem acceptData_spine {s t : State} {c : Ctl} {helpers : Bool} {reads : Nat → List Nat} {pages : List PageMap} {m : Word32}
    (h : s.acceptData c helpers reads = .ok (t, pages, m)) : t.spine = s.spine := by
  unfold acceptData at h
  simp only [bind, Except.bind, pure, Except.pure] at h
  split at h <;> cases h
  next x accepted => exact accept_spine accepted

end State

/-! ### Operations of the filter unit -/

/-- What issuing looks at in the group that a body leaves: the issuing slot, the issue counter, and the stack with its splits. -/
def Group.seat (g : Group) : Slot × Nat × List DivEnt × Vector SplitEnt 256 := ({ g.me with woken := none }, g.seq, g.stack, g.split)

theorem Group.seat_of_stance {g h : Group} (e : g.stance = h.stance) : g.seat = h.seat :=
  Prod.ext (me_of_stance e) (Prod.ext (congrArg Group.seq e : g.stance.seq = h.stance.seq)
    (Prod.ext (congrArg Group.stack e : g.stance.stack = h.stance.stack) (congrArg Group.split e : g.stance.split = h.stance.split)))

theorem Group.seat_finishOp (g : Group) (op : Nat) : (g.finishOp op).seat = g.seat := by
  unfold finishOp
  split
  · rfl
  · split <;> rfl

/-- An instruction without a result whose body leaves its group seated completes. -/
theorem runInstr_seated {i : Instr} {c : Ctl} {s s1 u : State} {body : State → M (State × Option RegWrite)} (hr : Ready i c s s1)
    (hb : body s1 = .ok (u, none)) (hu : u.cur.seat = s1.cur.seat) : ∃ t, runInstr i c body s = .next t ∧ After i c s1.cur.x u t noDest := by
  obtain ⟨me, seq, stack, split⟩ := Prod.mk.inj hu |>.imp_right fun h => (Prod.mk.inj h).imp_right Prod.mk.inj
  exact runInstr_after_none hr hb (congrArg Slot.win me : _) (congrArg Slot.pc me : _) (congrArg (fun x : Slot => x.blk.bend) me : _) seq stack split

/-- The instructions of the filter unit that no lane passes take their place among its operations and are over. -/
theorem idleFilter_eq (d n : Nat) (lanes : Word32) (s : State) : idleFilter d n lanes s = .ok (nullFilter s d n lanes, none) := by
  have seq : ∀ g : Group, (g.awaiting .v d n lanes).seq = g.seq := fun g => (congrArg Group.seq (g.stance_awaiting .v d n lanes) : _)
  unfold idleFilter nullFilter
  dsimp only
  rw [seq]
  rfl

theorem nullFilter_seat (s : State) (d n : Nat) (lanes : Word32) : (nullFilter s d n lanes).cur.seat = s.cur.seat :=
  (Group.seat_finishOp ..).trans (Group.seat_of_stance ((Group.stance_awaiting ..).trans (Group.stance_addOp ..)))

theorem addFilter_seat (s : State) (i : Instr) (c : Ctl) (d n : Nat) (desc : List Byte) (helpers lanes : Word32) (srcs : List (Lanes Word64)) (pages : List PageMap) :
    (s.addFilter i c d n desc helpers lanes srcs pages).cur.seat = s.cur.seat :=
  Group.seat_of_stance ((Group.stance_awaiting ..).trans ((Group.stance_addOp ..).trans (Group.stance_of_frame (State.frame_of_spine (State.arrive_spine ..)))))

theorem State.seat_of_spine {s t : State} (h : t.spine = s.spine) : t.cur.seat = s.cur.seat := Group.seat_of_stance (Group.stance_of_frame (State.frame_of_spine h))

section
variable {c : Ctl} {s s1 s2 s3 : State} {desc : List Byte}

/-- A texture instruction that no lane passes. -/
theorem issueTex_idle (i : Instr) (o : Tex) (given : Bool) (path : s1.pathFree .filt = .ok ()) (off : s1.cur.active c = 0) :
    issueTex i c o given s1 = .ok (nullFilter s1 (s1.cur.rD c o.d) o.dstRegs (s1.cur.written c), none) := by
  unfold issueTex
  simp only [path, bind, Except.bind, off, if_true, idleFilter_eq]

/-- A texture instruction whose descriptor and texels are in order joins the filter unit's operations. -/
theorem issueTex_joins (i : Instr) {o : Tex} {given : Bool} {pages : List PageMap} {helpers : Word32} (path : s1.pathFree .filt = .ok ())
    (on : s1.cur.active c ≠ 0) (read : s1.texDesc c o.b o.dim = .ok (s2, desc))
    (accepted : s2.acceptData c true (texReads s2.cur c o given desc) = .ok (s3, pages, helpers)) :
    issueTex i c o given s1 =
      .ok (s3.addFilter i c (s1.cur.rD c o.d) o.dstRegs desc helpers (s3.cur.written c) (s2.cur.texSrcs c o.a) pages, none) := by
  unfold issueTex
  simp only [path, bind, Except.bind, on, if_false, read]
  change Except.bind (s2.acceptData c true (texReads s2.cur c o given desc)) _ = _
  rw [accepted]
  rfl

/-- A texture query that no lane passes. -/
theorem issueTexQ_idle (i : Instr) (o : TexQ) (n : Nat) (path : s1.pathFree .filt = .ok ()) (off : s1.cur.active c = 0) :
    issueTexQ i c o n s1 = .ok (nullFilter s1 (s1.cur.rD c o.d) n (s1.cur.written c), none) := by
  unfold issueTexQ
  simp only [path, bind, Except.bind, off, if_true, idleFilter_eq]

/-- A texture query whose descriptor is in order joins the filter unit's operations. -/
theorem issueTexQ_joins (i : Instr) {o : TexQ} (n : Nat) (path : s1.pathFree .filt = .ok ()) (on : s1.cur.active c ≠ 0)
    (read : s1.texDesc c o.b o.dim = .ok (s2, desc)) :
    issueTexQ i c o n s1 =
      .ok (s2.addFilter i c (s1.cur.rD c o.d) n desc (s2.cur.helpersFor c) (s2.cur.written c) (s2.cur.texSrcs c o.a) [], none) := by
  unfold issueTexQ
  simp only [path, bind, Except.bind, on, if_false, read]
  rfl

end

theorem TexForm.issues {i : Instr} {c : Ctl} {o : Tex} {given : Bool} (h : TexForm i c o given) : (fun s => exec i s) = runInstr i c (issueTex i c o given) := by
  cases h <;> rfl

theorem TexQForm.issues {i : Instr} {c : Ctl} {o : TexQ} {n : Nat} (h : TexQForm i c o n) : (fun s => exec i s) = runInstr i c (issueTexQ i c o n) := by
  cases h <;> rfl

/-- An instruction whose body leaves its group seated completes as its body says. -/
theorem Completes.of_seated {i : Instr} {c : Ctl} {s s1 u : State} {body : State → M (State × Option RegWrite)} (run : (fun s => exec i s) = runInstr i c body)
    (hr : Ready i c s s1) (hb : body s1 = .ok (u, none)) (hu : u.cur.seat = s1.cur.seat) : Completes i c s s1 u noDest := by
  unfold Completes
  rw [show exec i s = runInstr i c body s from congrFun run s]
  exact runInstr_seated hr hb hu

/-- Settles O21. -/
theorem textureInstructions : Obligations.TextureInstructions := by
  unfold Obligations.TextureInstructions
  refine ⟨fun i c o given s s1 form hr path => ⟨fun off => ?_, fun s2 s3 desc pages helpers on read accepted => ?_⟩,
    fun i c o n s s1 form hr path => ⟨fun off => ?_, fun s2 desc on read => ?_⟩⟩
  · exact .of_seated form.issues hr (issueTex_idle i o given path off) (nullFilter_seat ..)
  · exact .of_seated form.issues hr (issueTex_joins i path on read accepted)
      ((addFilter_seat ..).trans (State.seat_of_spine ((State.acceptData_spine accepted).trans (State.texDesc_spine read))))
  · exact .of_seated form.issues hr (issueTexQ_idle i o n path off) (nullFilter_seat ..)
  · exact .of_seated form.issues hr (issueTexQ_joins i n path on read) ((addFilter_seat ..).trans (State.seat_of_spine (State.texDesc_spine read)))

end Sys2Proof.Machine
end

section
/-!
Divergence (R101 to R106, R109): what the steps of entry, fusion, the end of a split and refill do to a group whose stack holds no path.
-/
set_option Elab.async false
namespace Sys2Proof.Machine
open Sys2Proof

/-! ### The first element of a list that a test accepts -/

theorem findIdx?_first {α : Type} {p : α → Bool} {e : α} (he : p e = true) :
    ∀ {young : List α} (_ : ∀ f ∈ young, p f = false) (old : List α), (young ++ e :: old).findIdx? p = some young.length
  | [], _, old => by simp [List.findIdx?_cons, he]
  | y :: ys, h, old => by
    rw [List.cons_append, List.findIdx?_cons, h y (List.mem_cons_self ..), findIdx?_first he (fun f hf => h f (List.mem_cons_of_mem y hf)) old]
    rfl

theorem eraseIdx_first {α : Type} (e : α) (old : List α) : ∀ young : List α, (young ++ e :: old).eraseIdx young.length = young ++ old
  | [] => rfl
  | y :: ys => congrArg (List.cons y) (eraseIdx_first e old ys)

theorem getElem?_first {α : Type} (e : α) (old young : List α) : (young ++ e :: old)[young.length]? = some e := by simp

namespace Group

/-- No entry of the stack is a path. -/
def NoPath (g : Group) : Prop := ∀ e ∈ g.stack, e.mask = 0

/-! ### The youngest path entry, and the records of a group -/

theorem youngest_none {g : Group} {f : DivEnt → Bool} (h : ∀ e ∈ g.stack, e.mask = 0 ∨ f e = false) : g.youngest f = none := by
  refine List.findIdx?_eq_none_iff.2 fun e he => ?_
  rcases h e he with h | h <;> simp [h]

theorem youngest_first {g : Group} {f : DivEnt → Bool} {young old : List DivEnt} {e : DivEnt} (stack : g.stack = young ++ e :: old) (path : e.mask ≠ 0)
    (accepted : f e = true) (first : ∀ x ∈ young, x.mask = 0 ∨ f x = false) : g.youngest f = some young.length := by
  unfold youngest
  rw [stack]
  refine findIdx?_first (p := fun x : DivEnt => decide (x.mask ≠ 0) && f x) (Bool.and_eq_true_iff.2 ⟨decide_eq_true path, accepted⟩) (fun x hx => ?_) old
  exact Bool.and_eq_false_iff.2 ((first x hx).imp_left fun h => decide_eq_false (not_not.2 h))

/-- Where the stack holds no path, the records are those of the slots (R101). -/
theorem NoPath.pathRefs {g : Group} (h : g.NoPath) :
    g.pathRefs = (if g.slot0.st = .empty then [] else [.slot false]) ++ (if g.slot1.st = .empty then [] else [.slot true]) := by
  unfold Group.pathRefs
  rw [List.append_right_eq_self, List.filterMap_eq_nil_iff]
  intro i _
  split
  next e he => rw [if_pos (h e (List.mem_of_getElem? he))]
  · rfl

/-- One slot alone holds a path. -/
theorem NoPath.pathRefs_one {g : Group} (h : g.NoPath) {b : Bool} (on : (g.slot b).st ≠ .empty) (off : (g.slot (!b)).st = .empty) :
    g.pathRefs = [.slot b] := by
  rw [h.pathRefs]
  cases b
  · rw [if_neg (show ¬ g.slot0.st = .empty from on), if_pos (show g.slot1.st = .empty from off)]; rfl
  · rw [if_neg (show ¬ g.slot1.st = .empty from on), if_pos (show g.slot0.st = .empty from off)]; rfl

/-- A record that a slot holds, where the stack holds none. -/
theorem NoPath.mem_pathRefs {g : Group} (h : g.NoPath) {r : PRef} (hr : r ∈ g.pathRefs) : ∃ b, r = .slot b ∧ (g.slot b).st ≠ .empty := by
  rw [h.pathRefs, List.mem_append] at hr
  rcases hr with hr | hr
  · split at hr
    · cases hr
    · exact ⟨false, List.mem_singleton.1 hr, ‹_›⟩
  · split at hr
    · cases hr
    · exact ⟨true, List.mem_singleton.1 hr, ‹_›⟩

/-! ### Refill (R106) -/

theorem refillSlot_full {g : Group} {b : Bool} (h : (g.slot b).st ≠ .empty) : refillSlot b g = g := if_pos h

theorem refillSlot_none {g : Group} (b : Bool) (h : g.NoPath) : refillSlot b g = g := by
  unfold refillSlot
  rw [youngest_none fun e he => .inl (h e he)]
  exact ite_self g

theorem anyLive_of_slot {g : Group} (b : Bool) (h : (g.slot b).st = .live) : g.anyLive = true := by
  unfold anyLive
  cases b
  · simp [show g.slot0.st = .live from h]
  · simp [show g.slot1.st = .live from h]

/-- Filling the slots changes nothing where both hold their paths, or none waits for one, and one is live. -/
theorem refill_live {g : Group} (h0 : refillSlot false g = g) (h1 : refillSlot true g = g) (b : Bool) (live : (g.slot b).st = .live) : g.refill = g := by
  unfold refill
  simp only [h0, h1, anyLive_of_slot b live, if_true]

theorem dead_of_waiting {g : Group} (h0 : g.slot0.st ≠ .live) (h1 : g.slot1.st ≠ .live) : g.anyLive = false := by simp [anyLive, h0, h1]

/-- Where no path is there to fill the slots with, the path that waits in slot 0 goes on, with no target (R106). -/
theorem refill_waiting {g : Group} (h1 : refillSlot true g = g) (other : g.slot1.st ≠ .live) (none_ : ∀ e ∈ g.stack, e.mask = 0 ∨ e.wait = true)
    (w : g.slot0.st = .waiting) : g.refill = { g with slot0 := { g.slot0 with st := .live, reconv := noTarget } } := by
  have full : ¬ g.slot0.st = .empty := by rw [w]; decide
  unfold refill
  simp only [refillSlot_full (show (g.slot false).st ≠ .empty from full), h1, dead_of_waiting (by rw [w]; decide) other, Bool.false_eq_true, if_false,
    youngest_none (f := fun e => !e.wait) fun e he => (none_ e he).imp_right fun w => by rw [w]; rfl, if_neg full, if_pos w]

/-- The path that waits in slot 1 goes on in slot 0, where that is EMPTY (R106). -/
theorem refill_moves {g : Group} (h : g.NoPath) (off : g.slot0.st = .empty) (w : g.slot1.st = .waiting) :
    g.refill = { g with slot0 := { g.slot1 with st := .live, reconv := noTarget }, slot1 := {} } := by
  unfold refill
  simp only [refillSlot_none _ h, dead_of_waiting (show g.slot0.st ≠ .live by rw [off]; decide) (show g.slot1.st ≠ .live by rw [w]; decide),
    Bool.false_eq_true, if_false, youngest_none (f := fun e => !e.wait) fun e he => .inl (h e he), if_pos off, if_pos w]

/-- One path alone, which waits, goes on in slot 0. -/
theorem refill_one_waits {g : Group} (h : g.NoPath) {b : Bool} (wait : (g.slot b).st = .waiting) (off : g.slot (!b) = {}) :
    g.refill = { g with slot0 := { g.slot b with st := .live, reconv := noTarget }, slot1 := {} } := by
  cases b
  · have o : g.slot1 = {} := off
    rw [refill_waiting (refillSlot_none _ h) (by rw [o]; decide) (fun e he => .inl (h e he)) wait, ← o]
    rfl
  · exact refill_moves h (by rw [show g.slot0 = {} from off]) wait

/-- The records that a slot takes and gives are the same (R67). -/
theorem path_slot (p : PathRec) : p.slot.path = p := by
  cases p with
  | mk wait pc mask reconv parent blk => cases wait <;> rfl

/-- An empty slot takes the youngest path entry; the other slot keeps its path. -/
theorem refillSlot_takes {g : Group} {b : Bool} {young old : List DivEnt} {e : DivEnt} (stack : g.stack = young ++ e :: old) (path : e.mask ≠ 0)
    (first : ∀ x ∈ young, x.mask = 0) (off : (g.slot b).st = .empty) :
    refillSlot b g = { g.setSlot b e.path.slot with stack := young ++ old } := by
  unfold refillSlot
  rw [if_neg (not_not.2 off), youngest_first (f := fun _ => true) stack path rfl fun x hx => .inl (first x hx)]
  unfold dropPath Group.path
  simp only [setSlot_stack, stack, getElem?_first, Option.getD_some, eraseIdx_first]

/-! ### Steps of R104 and R105 -/

/-- A waiting record without a partner. -/
theorem settle_alone (f : Nat) {r : PRef} {ts : List DivTask} {g : Group}
    (alone : ∀ o ∈ g.pathRefs, o ≠ r → ¬((g.path o).wait = true ∧ (g.path o).parent = (g.path r).parent ∧ (g.path o).pc = (g.path r).pc)) :
    settle (f + 1) (.settle r :: ts) g = settle f ts g := by
  have none_ : g.pathRefs.find? (fun o => o ≠ r && (g.path o).wait && (g.path o).parent = (g.path r).parent && (g.path o).pc = (g.path r).pc) = none := by
    rw [List.find?_eq_none]
    intro o ho
    have := alone o ho
    simp only [Bool.and_eq_true, decide_eq_true_eq, not_and] at this ⊢
    exact fun h => this h.1.1 h.1.2 h.2
  rw [settle]
  simp only [none_]

theorem settle_nil (f : Nat) (g : Group) : settle f [] g = g := by cases f <;> rfl

/-- A split that is not in use does not end. -/
theorem settle_unused (f : Nat) {n : Nat} {ts : List DivTask} {g : Group} (h : n = 0 ∨ (tget g.split n {}).valid = false) :
    settle (f + 1) (.end_ n :: ts) g = settle f ts g := by
  rw [settle, if_pos]
  rcases h with h | h
  · rw [decide_eq_true h]; rfl
  · rw [h]; exact Bool.or_true _

/-- The join entry of a split is taken away, and gives its target (R105). -/
theorem takeJoin_of {g : Group} {n : BitVec 8} {j : Option Word32} {rest : List DivEnt} (h : JoinOf n g.stack j rest) :
    g.takeJoin n.toNat = ({ g with stack := rest }, j) := by
  have same : ∀ e : DivEnt, (e.isJoin && decide (e.parent.toNat = n.toNat)) = true ↔ e.isJoin = true ∧ e.parent = n := fun e => by
    simp [BitVec.toNat_inj]
  generalize hst : g.stack = st at h
  unfold takeJoin
  rw [hst]
  cases h with
  | none _ h =>
    have none_ : List.findIdx? (fun e : DivEnt => e.isJoin && decide (e.parent.toNat = n.toNat)) g.stack = none :=
      List.findIdx?_eq_none_iff.2 fun e he => Bool.eq_false_iff.2 fun k => h e (hst ▸ he) ((same e).1 k)
    rw [← hst]
    simp only [none_]
  | some young e old join parent first =>
    have found := findIdx?_first (p := fun e : DivEnt => e.isJoin && decide (e.parent.toNat = n.toNat)) ((same e).2 ⟨join, parent⟩)
      (fun x hx => Bool.eq_false_iff.2 fun k => first x hx ((same x).1 k)) old
    simp only [found, eraseIdx_first, getElem?_first, Option.map_some]

theorem mem_of_joinOf {n : BitVec 8} {st rest : List DivEnt} {j : Option Word32} (h : JoinOf n st j rest) : ∀ e ∈ rest, e ∈ st := by
  cases h with
  | none => exact fun _ h => h
  | some young e old =>
    intro x hx
    rcases List.mem_append.1 hx with h | h
    · exact List.mem_append_left _ h
    · exact List.mem_append_right _ (List.mem_cons_of_mem e h)

/-! #### A record replaced in its slot -/

theorem setPath_slot_path (g : Group) (b : Bool) (p : PathRec) : ((g.setPath (.slot b) p).slot b).path = p := by
  obtain ⟨wait, pc, mask, reconv, parent, blk⟩ := p
  cases wait <;> exact (congrArg Slot.path (slot_setSlot ..) : _)

theorem setPath_slot_st (g : Group) (b : Bool) (p : PathRec) : ((g.setPath (.slot b) p).slot b).st = if p.wait then .waiting else .live := by
  obtain ⟨wait, pc, mask, reconv, parent, blk⟩ := p
  cases wait <;> exact (congrArg Slot.st (slot_setSlot ..) : _)

theorem setPath_slot_not (g : Group) (b : Bool) (p : PathRec) : (g.setPath (.slot b) p).slot (!b) = g.slot (!b) := by
  obtain ⟨wait, pc, mask, reconv, parent, blk⟩ := p
  cases wait <;> exact slot_setSlot_not ..

theorem setPath_slot_stack (g : Group) (b : Bool) (p : PathRec) : (g.setPath (.slot b) p).stack = g.stack := by
  obtain ⟨wait, pc, mask, reconv, parent, blk⟩ := p
  cases wait <;> exact setSlot_stack ..

theorem setPath_slot_split (g : Group) (b : Bool) (p : PathRec) : (g.setPath (.slot b) p).split = g.split := by
  obtain ⟨wait, pc, mask, reconv, parent, blk⟩ := p
  cases wait <;> exact setSlot_split ..

/-- What the end of split `n` leaves of a group whose one path is in slot `b`: the path belongs to the outer split, with the join's target (R105). -/
def splitEnds (g : Group) (b : Bool) (n up : BitVec 8) (j : Option Word32) (rest : List DivEnt) : Group :=
  let p := (g.slot b).path
  { ({ g with stack := rest } : Group).setPath (.slot b) { p with parent := up, reconv := j.getD noTarget, wait := p.pc = j.getD noTarget } with
    split := splitGone g n up }

theorem splitEnds_slot_not (g : Group) (b : Bool) (n up : BitVec 8) (j : Option Word32) (rest : List DivEnt) :
    (g.splitEnds b n up j rest).slot (!b) = g.slot (!b) := setPath_slot_not _ b _

/-- The path of the slot, which waits where it stands at the join's target. -/
theorem splitEnds_path (g : Group) (b : Bool) (n up : BitVec 8) (j : Option Word32) (rest : List DivEnt) :
    ((g.splitEnds b n up j rest).slot b).path =
      { (g.slot b).path with parent := up, reconv := j.getD noTarget, wait := (g.slot b).pc = j.getD noTarget } := setPath_slot_path _ b _

theorem splitEnds_stack (g : Group) (b : Bool) (n up : BitVec 8) (j : Option Word32) (rest : List DivEnt) :
    (g.splitEnds b n up j rest).stack = rest := setPath_slot_stack _ b _

theorem splitEnds_st (g : Group) (b : Bool) (n up : BitVec 8) (j : Option Word32) (rest : List DivEnt) :
    ((g.splitEnds b n up j rest).slot b).st = if (g.slot b).pc = j.getD noTarget then .waiting else .live := by
  refine (setPath_slot_st _ b _).trans ?_
  by_cases h : (g.slot b).pc = j.getD noTarget <;> simp [h, Slot.path]

/-- Once the split has ended, nothing more of R104 and R105 is to be done: the path has no partner, and its outer split does not end. -/
theorem settle_splitEnds (f : Nat) {g : Group} {b : Bool} {n up : BitVec 8} {j : Option Word32} {rest : List DivEnt} (no : g.NoPath)
    (off : (g.slot (!b)).st = .empty) (outer : outerSplit g n up) (join : JoinOf n g.stack j rest) (ts : List DivTask) (hts : ts = [] ∨ ts = [.settle (.slot b)]) :
    settle (f + 3) (ts ++ [.end_ up.toNat]) (g.splitEnds b n up j rest) = g.splitEnds b n up j rest := by
  have no' : (g.splitEnds b n up j rest).NoPath := fun e he => no e (mem_of_joinOf join e (by rwa [splitEnds_stack] at he))
  have refs : (g.splitEnds b n up j rest).pathRefs = [.slot b] := no'.pathRefs_one (by rw [splitEnds_st]; split <;> decide) (by rw [splitEnds_slot_not, off])
  have unused : up.toNat = 0 ∨ (tget (g.splitEnds b n up j rest).split up.toNat {}).valid = false := by
    obtain ⟨-, -, zero | invalid⟩ := outer
    · exact .inl (by rw [zero]; rfl)
    · refine .inr ?_
      show (tget (splitGone g n up) up.toNat {}).valid = false
      unfold splitGone
      rw [tget_tset]
      split
      · rfl
      · exact invalid
  have last : ∀ f, settle (f + 2) [.end_ up.toNat] (g.splitEnds b n up j rest) = g.splitEnds b n up j rest := fun f => by
    rw [settle_unused _ unused, settle_nil]
  rcases hts with rfl | rfl
  · exact last (f + 1)
  · rw [List.singleton_append, settle_alone _ (by rw [refs]; simp), last]

/-- A split that one record alone belongs to ends (R105). -/
theorem settle_split (f : Nat) {g : Group} {b : Bool} {n up : BitVec 8} {j : Option Word32} {rest : List DivEnt} (no : g.NoPath)
    (on : (g.slot b).st ≠ .empty) (off : (g.slot (!b)).st = .empty) (parent : (g.slot b).parent = n) (outer : outerSplit g n up) (join : JoinOf n g.stack j rest) :
    settle (f + 4) [.end_ n.toNat] g = g.splitEnds b n up j rest := by
  have subtree : g.subtree n.toNat = [.slot b] := by
    unfold Group.subtree
    rw [no.pathRefs_one on off, List.filter_cons_of_pos]
    · rfl
    · show (decide ((g.slot b).parent.toNat = n.toNat) || _) = true
      rw [parent, decide_eq_true rfl]; rfl
  have ⟨nonzero, entry, _⟩ := outer
  have used : ¬(decide (n.toNat = 0) || !(tget g.split n.toNat {}).valid) = true := by
    rw [entry, decide_eq_false fun k : n.toNat = 0 => nonzero (BitVec.eq_of_toNat_eq k)]
    exact Bool.false_ne_true
  have gone : ({ g with stack := rest } : Group).freed n.toNat = splitGone g n up := by
    unfold freed splitGone
    dsimp only
    rw [entry]
  rw [settle, if_neg used]
  simp only [subtree, takeJoin_of join, entry, gone]
  refine Eq.trans ?_ (settle_splitEnds f no off outer join (if (g.slot b).pc = j.getD noTarget then [.settle (.slot b)] else []) (by split <;> simp))
  cases g.stack.findIdx? fun e => e.isJoin && decide (e.parent.toNat = n.toNat)
  · rfl
  · rfl

/-! ### Arrival at the reconvergence target (R104) -/

/-- The slot's path waits. -/
def waits (g : Group) (b : Bool) : Group := g.setPath (.slot b) { (g.slot b).path with wait := true }

theorem waits_slot_not (g : Group) (b : Bool) : (g.waits b).slot (!b) = g.slot (!b) := setPath_slot_not ..
theorem waits_path (g : Group) (b : Bool) : ((g.waits b).slot b).path = { (g.slot b).path with wait := true } := setPath_slot_path ..
theorem waits_st (g : Group) (b : Bool) : ((g.waits b).slot b).st = .waiting := setPath_slot_st ..
theorem waits_stack (g : Group) (b : Bool) : (g.waits b).stack = g.stack := setPath_slot_stack ..
theorem waits_split (g : Group) (b : Bool) : (g.waits b).split = g.split := setPath_slot_split ..

theorem enter_at_target {g : Group} {b : Bool} (h : (g.slot b).pc = (g.slot b).reconv) : g.enter (.slot b) = settle divFuel [.settle (.slot b)] (g.waits b) := by
  unfold enter
  simp only [if_pos (show (g.path (.slot b)).pc = (g.path (.slot b)).reconv from h)]
  rfl

theorem enter_elsewhere {g : Group} {b : Bool} (h : (g.slot b).pc ≠ (g.slot b).reconv) : g.enter (.slot b) = settle divFuel [.settle (.slot b)] g := by
  unfold enter
  simp only [if_neg (show ¬(g.path (.slot b)).pc = (g.path (.slot b)).reconv from h)]

/-- A path that no other path waits for waits, while the other slot goes on. -/
theorem enter_refill_waits {g : Group} {b : Bool} (no : g.NoPath) (at_ : (g.slot b).pc = (g.slot b).reconv) (other : (g.slot (!b)).st = .live) :
    (g.enter (.slot b)).refill = g.waits b := by
  have no' : (g.waits b).NoPath := fun e he => no e (by rwa [waits_stack] at he)
  rw [enter_at_target at_, show divFuel = 4095 + 1 from rfl, settle_alone, settle_nil]
  · exact refill_live (refillSlot_none _ no') (refillSlot_none _ no') (!b) (by rw [waits_slot_not, other])
  · intro o ho hne k
    obtain ⟨d, rfl, -⟩ := no'.mem_pathRefs ho
    have hd : d = !b := by cases d <;> cases b <;> simp_all
    have : ((g.waits b).slot (!b)).path.wait = true := hd ▸ k.1
    rw [waits_slot_not] at this
    simp [Slot.path, other] at this

/-- Two waiting paths in the slots become one, in slot 0. -/
def joined (g : Group) (b : Bool) : Group :=
  ((g.waits b).setPath (.slot false)
    { (g.slot b).path with mask := (g.slot b).mask ||| (g.slot (!b)).mask, wait := true }).setSlot true {}

theorem joined_path (g : Group) (b : Bool) :
    (g.joined b).slot0.path = { (g.slot b).path with mask := (g.slot b).mask ||| (g.slot (!b)).mask, wait := true } :=
  (congrArg Slot.path (slot_not_setSlot _ false {}) : _).trans (setPath_slot_path _ false _)

theorem joined_st (g : Group) (b : Bool) : (g.joined b).slot0.st = .waiting :=
  (congrArg Slot.st (slot_not_setSlot _ false {}) : _).trans (setPath_slot_st _ false _)

theorem joined_slot1 (g : Group) (b : Bool) : (g.joined b).slot1 = {} := slot_setSlot _ true {}
theorem joined_stack (g : Group) (b : Bool) : (g.joined b).stack = g.stack := (setSlot_stack ..).trans ((setPath_slot_stack ..).trans (waits_stack ..))
theorem joined_split (g : Group) (b : Bool) : (g.joined b).split = g.split := (setSlot_split ..).trans ((setPath_slot_split ..).trans (waits_split ..))

/-- The path that arrives finds the one that waits in the other slot. -/
theorem settle_partner (f : Nat) {g : Group} {b : Bool} (no : g.NoPath) (parent : (g.slot (!b)).parent = (g.slot b).parent)
    (at_ : (g.slot (!b)).pc = (g.slot b).pc) (wait : (g.slot (!b)).st = .waiting) :
    settle (f + 1) [.settle (.slot b)] (g.waits b) = settle f [.end_ (g.slot b).parent.toNat] (g.joined b) := by
  have no' : (g.waits b).NoPath := fun e he => no e (by rwa [waits_stack] at he)
  have mine : (g.waits b).path (.slot b) = { (g.slot b).path with wait := true } := waits_path g b
  have other : (g.waits b).path (.slot (!b)) = (g.slot (!b)).path := congrArg Slot.path (waits_slot_not g b)
  have waiting : ∀ d, ((g.waits b).slot d).st = .waiting := fun d => by
    rcases Bool.eq_or_eq_not d b with rfl | rfl
    · exact waits_st ..
    · rw [waits_slot_not, wait]
  have refs : (g.waits b).pathRefs = [.slot false, .slot true] := by
    rw [no'.pathRefs, show (g.waits b).slot0.st = .waiting from waiting false, show (g.waits b).slot1.st = .waiting from waiting true]
    rfl
  have partner : (g.waits b).pathRefs.find? (fun o => o ≠ .slot b && ((g.waits b).path o).wait &&
      ((g.waits b).path o).parent = ((g.waits b).path (.slot b)).parent && ((g.waits b).path o).pc = ((g.waits b).path (.slot b)).pc) = some (.slot (!b)) := by
    have found : (PRef.slot (!b) ≠ .slot b && ((g.waits b).path (.slot (!b))).wait &&
        ((g.waits b).path (.slot (!b))).parent = ((g.waits b).path (.slot b)).parent &&
        ((g.waits b).path (.slot (!b))).pc = ((g.waits b).path (.slot b)).pc) = true := by
      rw [other, mine]
      simp [Slot.path, wait, parent, at_]
    rw [refs]
    cases b
    · rw [List.find?_cons_of_neg (by simp)]
      exact List.find?_cons_of_pos found
    · exact List.find?_cons_of_pos found
  rw [settle]
  simp only [partner]
  unfold fuse
  rw [mine, other]
  rfl

/-- A path that arrives where its partner waits: the two are one path, and their split ends (R104, R105). -/
theorem enter_joins {g : Group} {b : Bool} {n up : BitVec 8} {j : Option Word32} {rest : List DivEnt} (no : g.NoPath) (at_ : (g.slot b).pc = (g.slot b).reconv)
    (parent : (g.slot b).parent = n) (other : (g.slot (!b)).parent = n) (pc : (g.slot (!b)).pc = (g.slot b).pc) (wait : (g.slot (!b)).st = .waiting)
    (outer : outerSplit g n up) (join : JoinOf n g.stack j rest) : g.enter (.slot b) = (g.joined b).splitEnds false n up j rest := by
  rw [enter_at_target at_, show divFuel = 4091 + 4 + 1 from rfl, settle_partner _ no (other.trans parent.symm) pc wait, parent]
  refine settle_split _ (fun e he => no e (by rwa [joined_stack] at he)) ?_ ?_ ?_ ?_ (by rwa [joined_stack])
  · rw [show (g.joined b).slot false = (g.joined b).slot0 from rfl, joined_st]; decide
  · rw [show (g.joined b).slot (!false) = (g.joined b).slot1 from rfl, joined_slot1]
  · exact (congrArg PathRec.parent (joined_path g b)).trans parent
  · unfold outerSplit
    rw [joined_split]
    exact outer

/-- What refill makes of one path alone: it goes on in its slot, or where it waits, in slot 0 with no target (R106). -/
theorem refill_alone {k : Group} {b : Bool} (no : k.NoPath) (off : k.slot (!b) = {}) (on : (k.slot b).st = .live ∨ (k.slot b).st = .waiting) :
    k.refill.stack = k.stack ∧ k.refill.split = k.split ∧ ((k.slot b).st = .live → k.refill = k) ∧
    ((k.slot b).st = .waiting → k.refill.slot0.path = { (k.slot b).path with wait := false, reconv := noTarget } ∧ k.refill.slot1 = {}) := by
  rcases on with st | st
  · have same : k.refill = k := refill_live (refillSlot_none _ no) (refillSlot_none _ no) b st
    refine ⟨by rw [same], by rw [same], fun _ => same, fun w => ?_⟩
    rw [st] at w; cases w
  · have moved := refill_one_waits no st off
    rw [moved]
    refine ⟨rfl, rfl, fun l => ?_, fun _ => ⟨rfl, rfl⟩⟩
    rw [st] at l; cases l

/-- What becomes of the path of a split that has ended, whatever frame entries go (R104 to R106, R109). -/
theorem splitEnds_refill {g k : Group} {b : Bool} {n up : BitVec 8} {j : Option Word32} {rest : List DivEnt} (no : k.NoPath) (off : g.slot (!b) = {})
    (slots : ∀ d, k.slot d = (g.splitEnds b n up j rest).slot d) (split : k.split = (g.splitEnds b n up j rest).split) :
    k.refill.stack = k.stack ∧ k.refill.split = splitGone g n up ∧
    ((g.slot b).pc ≠ j.getD noTarget →
      (k.refill.slot b).path = { (g.slot b).path with wait := false, parent := up, reconv := j.getD noTarget } ∧ k.refill.slot (!b) = {}) ∧
    ((g.slot b).pc = j.getD noTarget → k.refill.slot0.path = { (g.slot b).path with wait := false, parent := up, reconv := noTarget } ∧ k.refill.slot1 = {}) := by
  have path := splitEnds_path g b n up j rest
  have st := splitEnds_st g b n up j rest
  rw [← slots] at path st
  have off' : k.slot (!b) = {} := (slots _).trans ((splitEnds_slot_not ..).trans off)
  obtain ⟨stack_, split_, live, wait⟩ := refill_alone no off' (by rw [st]; split <;> simp)
  refine ⟨stack_, split_.trans split, fun elsewhere => ?_, fun here => ?_⟩
  · rw [live (st.trans (if_neg elsewhere))]
    refine ⟨path.trans ?_, off'⟩
    rw [decide_eq_false elsewhere]
  · obtain ⟨slot0, slot1⟩ := wait (st.trans (if_pos here))
    refine ⟨slot0.trans ?_, slot1⟩
    rw [path]

/-- R104 to R106: the path that two waiting ones have become goes on in slot 0, for the outer split; at the join's target it has no target any more. -/
theorem enter_joins_refill {g : Group} {b : Bool} {n up : BitVec 8} {j : Option Word32} {rest : List DivEnt} (no : g.NoPath) (at_ : (g.slot b).pc = (g.slot b).reconv)
    (parent : (g.slot b).parent = n) (other : (g.slot (!b)).parent = n) (pc : (g.slot (!b)).pc = (g.slot b).pc) (wait : (g.slot (!b)).st = .waiting)
    (outer : outerSplit g n up) (join : JoinOf n g.stack j rest) :
    let h := (g.enter (.slot b)).refill
    h.slot0.path = { wait := false, pc := (g.slot b).pc, mask := (g.slot b).mask ||| (g.slot (!b)).mask,
                     reconv := if j = some (g.slot b).pc then noTarget else j.getD noTarget, parent := up, blk := (g.slot b).blk } ∧
    h.slot1 = {} ∧ h.stack = rest ∧ h.split = splitGone g n up := by
  intro h
  have one : (g.joined b).slot (!false) = {} := joined_slot1 g b
  have noJ : ((g.joined b).splitEnds false n up j rest).NoPath := fun e he => no e (mem_of_joinOf join e (by rwa [splitEnds_stack] at he))
  obtain ⟨stack, split, elsewhere, here⟩ := splitEnds_refill noJ one (fun _ => rfl) rfl
  have hh : h = ((g.joined b).splitEnds false n up j rest).refill := congrArg Group.refill (enter_joins no at_ parent other pc wait outer join)
  rw [← hh] at stack split elsewhere here
  have path : ((g.joined b).slot false).path = _ := joined_path g b
  rw [show ((g.joined b).slot false).pc = (g.slot b).pc from congrArg PathRec.pc path, path] at elsewhere here
  refine ⟨?_, ?_, stack.trans (splitEnds_stack ..), split.trans (by unfold splitGone; rw [joined_split])⟩
  · by_cases target : (g.slot b).pc = j.getD noTarget
    · obtain ⟨slot0, -⟩ := here target
      rw [slot0, show (if j = some (g.slot b).pc then noTarget else j.getD noTarget) = noTarget from ?_]
      · rfl
      · split
        · rfl
        next other => cases j with
          | none => rfl
          | some x => exact absurd (congrArg some target.symm) other
    · obtain ⟨slot0, -⟩ := elsewhere target
      rw [show h.slot0.path = _ from slot0, if_neg fun k => target (by rw [k]; rfl)]
      rfl
  · by_cases target : (g.slot b).pc = j.getD noTarget
    · exact (here target).2
    · exact (elsewhere target).2

/-! ### A bank of a window -/

theorem bankSlot_slot_self (g : Group) (b : Bool) : (g.bankSlot b).slot b = { g.slot b with win := [] } := ((bankSlot_banked g b).slot b).trans (slot_setSlot ..)
theorem bankSlot_slot_not (g : Group) (b : Bool) : (g.bankSlot b).slot (!b) = g.slot (!b) := ((bankSlot_banked g b).slot (!b)).trans (slot_setSlot_not ..)
theorem bankSlot_stack (g : Group) (b : Bool) : (g.bankSlot b).stack = g.stack :=
  (congrArg Group.stack (bankSlot_banked g b).eq : ((g.bankSlot b).wear _).stack = _).trans (setSlot_stack ..)
theorem bankSlot_split (g : Group) (b : Bool) : (g.bankSlot b).split = g.split :=
  (congrArg Group.split (bankSlot_banked g b).eq : ((g.bankSlot b).wear _).split = _).trans (setSlot_split ..)
theorem bankSlot_sel1 (g : Group) (b : Bool) : (g.bankSlot b).sel1 = g.sel1 :=
  (congrArg Group.sel1 (bankSlot_banked g b).eq : ((g.bankSlot b).wear _).sel1 = _).trans (setSlot_sel1 ..)

/-! ### A slot takes a path entry (R106) -/

section
variable {g : Group} {young old : List DivEnt} {e : DivEnt}

/-- An EMPTY slot beside a live one takes the youngest path entry, with an empty window (R67, R106). -/
theorem refill_takes {b : Bool} (stack : g.stack = young ++ e :: old) (path : e.mask ≠ 0) (off : (g.slot b).st = .empty) (live : (g.slot (!b)).st = .live)
    (first : ∀ f ∈ young, f.mask = 0) : g.refill = { g.setSlot b e.path.slot with stack := young ++ old } := by
  generalize hk : ({ g.setSlot b e.path.slot with stack := young ++ old } : Group) = k
  have takes : refillSlot b g = k := (refillSlot_takes stack path first off).trans hk
  have mine : k.slot b = e.path.slot := hk ▸ slot_setSlot g b e.path.slot
  have other : k.slot (!b) = g.slot (!b) := hk ▸ slot_setSlot_not g b e.path.slot
  have full : refillSlot b k = k := refillSlot_full (by
    rw [mine]
    unfold PathRec.slot
    dsimp only
    split <;> decide)
  have fullOther : ∀ h : Group, h.slot (!b) = g.slot (!b) → refillSlot (!b) h = h := fun h eq => refillSlot_full (by rw [eq, live]; decide)
  have filled : refillSlot true (refillSlot false g) = k := by
    cases b
    · rw [takes]; exact fullOther k other
    · rw [show refillSlot false g = g from fullOther g rfl, takes]
  unfold refill
  simp only [filled, anyLive_of_slot (!b) (show (k.slot (!b)).st = .live by rw [other, live]), if_true]

/-- Where both slots wait, the path in slot 1 changes places with the youngest entry that does not wait (R106). -/
theorem refill_swaps (stack : g.stack = young ++ e :: old) (path : e.mask ≠ 0) (w0 : g.slot0.st = .waiting) (w1 : g.slot1.st = .waiting) (runs : e.wait = false)
    (first : ∀ f ∈ young, f.mask = 0 ∨ f.wait = true) :
    g.refill.slot1 = e.path.slot ∧ g.refill.slot0 = g.slot0 ∧ g.refill.stack = g.slot1.path.entry :: (young ++ old) := by
  have found : g.youngest (fun e => !e.wait) = some young.length :=
    youngest_first stack path (by rw [runs]; rfl) fun x hx => (first x hx).imp_right fun w => by rw [w]; rfl
  have full0 : refillSlot false g = g := refillSlot_full (by rw [show (g.slot false).st = _ from w0]; decide)
  have full1 : refillSlot true g = g := refillSlot_full (by rw [show (g.slot true).st = _ from w1]; decide)
  have taken : (g.bankSlot true).path (.stk young.length) = e.path := by
    unfold Group.path
    dsimp only
    rw [bankSlot_stack, stack, getElem?_first, Option.getD_some]
  have out : ({ g.slot1.path.entry with wait := true } : DivEnt) = g.slot1.path.entry := by simp [Slot.path, PathRec.entry, w1]
  unfold refill
  simp only [full0, full1, dead_of_waiting (show g.slot0.st ≠ .live by rw [w0]; decide) (show g.slot1.st ≠ .live by rw [w1]; decide), Bool.false_eq_true, if_false,
    found, w1, decide_true, taken]
  refine ⟨rfl, bankSlot_slot_not g true, congrArg₂ List.cons out ?_⟩
  show (g.bankSlot true).stack.eraseIdx young.length = young ++ old
  rw [bankSlot_stack, stack, eraseIdx_first]

end

/-! ### Lanes leave (R109) -/

theorem NoPath.live {g : Group} (h : g.NoPath) : g.live = g.slot0.mask ||| g.slot1.mask := by
  have none_ : ∀ (l : List DivEnt) (m : Word32), (∀ e ∈ l, e.mask = 0) → l.foldl (fun m e => m ||| e.mask) m = m := by
    intro l
    induction l with
    | nil => exact fun _ _ => rfl
    | cons e l ih =>
      intro m h
      rw [List.foldl_cons, h e (List.mem_cons_self ..), show m ||| (0 : Word32) = m from BitVec.or_zero]
      exact ih m fun x hx => h x (List.mem_cons_of_mem e hx)
  exact none_ g.stack _ h

/-- The lanes of one path alone. -/
theorem NoPath.live_one {g : Group} (h : g.NoPath) {b : Bool} (off : g.slot (!b) = {}) : g.live = (g.slot b).mask := by
  rw [h.live]
  cases b
  · rw [show g.slot1 = {} from off]; exact BitVec.or_zero ..
  · rw [show g.slot0 = {} from off]; exact BitVec.zero_or ..

/-- R105, R109: the path that `exit` leaves alone belongs to the outer split, and the frames that share no lane with it go. -/
theorem leave_ends {g : Group} {out : Word32} {n up : BitVec 8} {j : Option Word32} {rest : List DivEnt} (all : g.me.mask &&& ~~~out = 0) (mine : g.me.parent = n)
    (other : (g.slot (!g.sel1)).parent = n) (live : (g.slot (!g.sel1)).st = .live) (no : g.NoPath) (outer : outerSplit g n up) (join : JoinOf n g.stack j rest) :
    let x := g.slot (!g.sel1)
    let h := g.leave out
    h.stack = rest.filter (fun e => !(e.isFrame && e.reconv &&& x.mask = 0)) ∧ h.split = splitGone g n up ∧
    (x.pc ≠ j.getD noTarget → (h.slot (!g.sel1)).path = { x.path with parent := up, reconv := j.getD noTarget } ∧ h.slot g.sel1 = {}) ∧
    (x.pc = j.getD noTarget → h.slot0.path = { x.path with parent := up, reconv := noTarget } ∧ h.slot1 = {}) := by
  intro x h
  obtain ⟨l, hl, slots, stack, split⟩ : ∃ l : Group, h = (settle divFuel [.end_ n.toNat] l).dropFrames.refill ∧ (∀ d, l.slot d = (g.setSlot g.sel1 {}).slot d) ∧
      l.stack = g.stack ∧ l.split = g.split := by
    refine ⟨_, by
      show g.leave out = _
      unfold leave
      simp only [show (g.slot g.sel1).mask &&& ~~~out = 0 from all, show (g.slot g.sel1).parent = n from mine, if_true]
      rfl, fun d => ?_, ?_, ?_⟩
    · cases d <;> rfl
    · exact setSlot_stack ..
    · exact setSlot_split ..
  have gone : l.slot (!(!g.sel1)) = {} := by rw [slots, Bool.not_not, slot_setSlot]
  have kept : l.slot (!g.sel1) = x := by rw [slots, slot_setSlot_not]
  have noL : l.NoPath := fun e he => no e (stack ▸ he)
  have outerL : outerSplit l n up := by unfold outerSplit; rw [split]; exact outer
  have joinL : JoinOf n l.stack j rest := by rw [stack]; exact join
  have ended := settle_split 4092 noL (b := !g.sel1) (by rw [kept, live]; decide) (by rw [gone]) (by rw [kept]; exact other) outerL joinL
  rw [show settle divFuel = settle (4092 + 4) from rfl, ended] at hl
  generalize hk : l.splitEnds (!g.sel1) n up j rest = k at hl
  have noK : k.NoPath := fun e he => noL e (mem_of_joinOf joinL e (by rwa [← hk, splitEnds_stack] at he))
  have path : (k.slot (!g.sel1)).path.mask = x.mask := by rw [← hk, splitEnds_path, kept]; rfl
  have lanes : k.pathLanes = x.mask := (noK.live_one (b := !g.sel1) (by rw [← hk, splitEnds_slot_not, gone])).trans path
  have noD : k.dropFrames.NoPath := fun e he => noK e (List.mem_of_mem_filter he)
  obtain ⟨hstack, hsplit, elsewhere, here⟩ := splitEnds_refill (k := k.dropFrames) noD gone (fun d => by rw [hk]; rfl) (by rw [hk]; rfl)
  rw [← hl] at hstack hsplit elsewhere here
  have asLive : ∀ (p : BitVec 8) (r : Word32), ({ x.path with wait := false, parent := p, reconv := r } : PathRec) = { x.path with parent := p, reconv := r } :=
    fun p r => by simp [Slot.path, show x.st = .live from live]
  rw [kept, asLive] at elsewhere here
  rw [Bool.not_not] at elsewhere
  refine ⟨hstack.trans ?_, hsplit.trans (by unfold splitGone; rw [split]), elsewhere, here⟩
  show k.stack.filter _ = _
  rw [lanes, ← hk, splitEnds_stack]

/-! ### A split (R103) -/

theorem freeSplit_spec {g : Group} {n : Nat} (h : g.freeSplit = some n) : 0 < n ∧ n < 256 ∧ (tget g.split n {}).valid = false := by
  have found := List.find?_some h
  have mem := List.mem_range.1 (List.mem_of_find?_eq_some h)
  simp only [Bool.and_eq_true, decide_eq_true_eq, Bool.not_eq_true'] at found
  exact ⟨Nat.pos_of_ne_zero found.1, mem, found.2⟩

/-- R103: what a split leaves of the two slots and of the split table. -/
theorem splitSlot_spec {g h : Group} {b : Bool} {taken tgt next rc : Word32} (split : g.splitSlot b taken tgt next rc = some h) :
    ∃ n, 0 < n ∧ n < 256 ∧ (tget g.split n {}).valid = false ∧ h.split = tset g.split n { valid := true, parent := (g.slot b).parent } ∧
      (h.slot (!b)).st = .live ∧ (h.slot (!b)).mask = taken ∧ (h.slot b).mask = (g.slot b).mask &&& ~~~taken ∧ (h.slot (!b)).pc = tgt ∧ (h.slot b).pc = next ∧
      (h.slot (!b)).reconv = rc ∧ (h.slot b).reconv = rc ∧ (h.slot (!b)).parent = BitVec.ofNat 8 n ∧ (h.slot b).parent = BitVec.ofNat 8 n ∧
      h.sel1 = g.sel1 ∧ (h.slot b).blk = (g.slot b).blk := by
  unfold splitSlot at split
  dsimp only at split
  split at split
  · cases split
  next n free =>
    split at split
    · cases split
    · obtain ⟨pos, bound, unused⟩ := freeSplit_spec free
      have table : ∀ k : Group, k = (if (g.slot (!b)).st = .empty then g else g.bankSlot (!b)) → k.split = g.split ∧ k.sel1 = g.sel1 ∧
          k.slot b = g.slot b := by
        rintro _ rfl
        split
        · exact ⟨rfl, rfl, rfl⟩
        · exact ⟨bankSlot_split .., bankSlot_sel1 .., by have := bankSlot_slot_not g (!b); rwa [Bool.not_not] at this⟩
      generalize hk : (if (g.slot (!b)).st = .empty then g else g.bankSlot (!b)) = k at split
      obtain ⟨splits, sel, kept⟩ := table k hk.symm
      rw [splits] at split
      cases split
      refine ⟨n, pos, bound, unused, ?_⟩
      simp [sel]
      exact congrArg Slot.blk kept

/-- Whether there is an identifier and room for a split (R22, R103). -/
theorem splitSlot_isSome (g : Group) (b : Bool) (taken tgt next rc : Word32) : (g.splitSlot b taken tgt next rc).isSome =
    (g.freeSplit.isSome && decide (g.stack.length + (b2n ((g.slot b).reconv ≠ noTarget) + b2n ((g.slot (!b)).st ≠ .empty)) ≤ 256)) := by
  unfold splitSlot
  cases g.freeSplit with
  | none => rfl
  | some n =>
    by_cases full : g.stack.length + (b2n ((g.slot b).reconv ≠ noTarget) + b2n ((g.slot (!b)).st ≠ .empty)) > 256
    · simp only [if_pos full, decide_eq_false (Nat.not_le.2 full)]
      rfl
    · simp only [if_neg full, decide_eq_true (Nat.not_lt.1 full)]
      rfl

/-! ### What an access of any agent leaves of a group decides its branches -/

section
variable {g h : Group} (e : g.frame = h.frame)
include e

theorem splitSlot_isSome_of_frame (b : Bool) (taken tgt next rc : Word32) :
    (g.splitSlot b taken tgt next rc).isSome = (h.splitSlot b taken tgt next rc).isSome := by
  have slot := fun d => slot_of_stance (stance_of_frame e) d
  have reconv : (g.slot b).reconv = (h.slot b).reconv := (congrArg Slot.reconv (slot b) : _)
  have st : (g.slot (!b)).st = (h.slot (!b)).st := (congrArg Slot.st (slot (!b)) : _)
  rw [splitSlot_isSome, splitSlot_isSome, stack_of_frame e, reconv, st]
  unfold freeSplit
  rw [split_of_frame e]

theorem sel1_of_frame : g.sel1 = h.sel1 := (congrArg Group.sel1 e : g.frame.sel1 = h.frame.sel1)
theorem me_of_frame : { g.me with woken := none } = { h.me with woken := none } := me_of_stance (stance_of_frame e)
theorem mask_of_frame : g.me.mask = h.me.mask := (congrArg Slot.mask (me_of_frame e) : _)
theorem parent_of_frame : g.me.parent = h.me.parent := (congrArg Slot.parent (me_of_frame e) : _)
theorem pc_of_frame : g.me.pc = h.me.pc := (congrArg Slot.pc (me_of_frame e) : _)
theorem blk_of_frame : g.me.blk = h.me.blk := (congrArg Slot.blk (me_of_frame e) : _)

theorem readP_of_frame : g.readP = h.readP := by
  have win : g.me.win = h.me.win := (congrArg Slot.win (me_of_frame e) : _)
  have banked : g.p = h.p := (congrArg Group.p e : g.frame.p = h.frame.p)
  funext n l
  unfold readP Group.read
  rw [win, show g.banked = h.banked from ?_]
  funext cls n l
  unfold Group.banked
  rw [banked, show g.v = h.v from (congrArg Group.v e : g.frame.v = h.frame.v), show g.s = h.s from (congrArg Group.s e : g.frame.s = h.frame.s)]

theorem guardLanes_of_frame (c : Ctl) : g.guardLanes c = h.guardLanes c := by unfold guardLanes; rw [readP_of_frame e]
theorem passes_of_frame (c : Ctl) : g.passes c = h.passes c := by unfold passes; rw [mask_of_frame e, guardLanes_of_frame e]

end
end Group

namespace State

/-! ### Headers -/

theorem checkTarget_spine {s t : State} {tgt : Nat} (h : s.checkTarget tgt = .ok t) : t.spine = s.spine := by
  unfold checkTarget at h
  split at h
  · cases h
  · split at h
    · cases h
    next fetched =>
      split at h <;> cases h
      exact fetchUnit_spine fetched

theorem readHeader_spine {s t : State} {pc : Word32} {k : Blk} (h : s.readHeader pc = .ok (t, k)) : t.spine = s.spine := by
  unfold readHeader at h
  simp only [bind, Except.bind, pure, Except.pure] at h
  split at h
  · cases h
  next x first =>
    split at h
    · cases h
    next y second =>
      split at h <;> cases h
      exact (fetchUnit_spine second).trans (fetchUnit_spine first)

/-- A slot that stands at a header enters the block that it describes (R48, R53, R104). -/
theorem makeEntry_header {s t : State} {k : Blk} (entry : s.cur.me.blk.entry = .hdr) (read : s.readHeader s.cur.me.pc = .ok (t, k)) :
    s.makeEntry s.cur.sel1 = .next (t.entered k) := by
  have sel : t.cur.sel1 = s.cur.sel1 := Group.sel1_of_frame (frame_of_spine (readHeader_spine read))
  have pad : s.passPad s.cur.sel1 = .ok s := by unfold passPad; rw [if_pos]; rfl; rw [show (s.cur.slot s.cur.sel1).blk.entry = .hdr from entry]; decide
  have enter : s.enterBlock s.cur.sel1 true = .ok (t.entered k) := by
    unfold enterBlock
    simp only [show s.readHeader (s.cur.slot s.cur.sel1).pc = .ok (t, k) from read, bind, Except.bind]
    unfold entered Group.setMe Group.me
    simp only [Group.setSlot_sel1, Group.bankSlot_sel1, sel, if_true, pure, Except.pure]
  have header : s.passHeader s.cur.sel1 = .ok (t.entered k) := by
    unfold passHeader
    simp only [show (s.cur.slot s.cur.sel1).blk.entry = .hdr from entry]
    exact enter
  unfold makeEntry
  simp only [pad, header]

/-- R104: entering a block where nothing waits. -/
theorem entered_alone {s : State} {k : Blk} (live : s.cur.me.st = .live) (off : (s.cur.slot (!s.cur.sel1)).st = .empty) (stack : s.cur.stack = [])
    (elsewhere : s.cur.me.pc ≠ s.cur.me.reconv) :
    (s.entered k).cur.me = { s.cur.me with win := [], blk := k } ∧ (s.entered k).cur.split = s.cur.split ∧ (s.entered k).setCur s.cur = s := by
  generalize hg : (s.cur.bankSlot s.cur.sel1).setMe { (s.cur.bankSlot s.cur.sel1).me with blk := k } = g
  have sel : g.sel1 = s.cur.sel1 := by rw [← hg, Group.setMe_sel1, Group.bankSlot_sel1]
  have me : g.me = { s.cur.me with win := [], blk := k } := by
    rw [← hg, Group.me_setMe]
    unfold Group.me
    rw [Group.bankSlot_sel1, Group.bankSlot_slot_self]
  have other : g.slot (!g.sel1) = s.cur.slot (!s.cur.sel1) := by
    rw [sel, ← hg]
    unfold Group.setMe
    rw [Group.bankSlot_sel1, Group.slot_setSlot_not, Group.bankSlot_slot_not]
  have no : g.NoPath := by
    have : g.stack = [] := by rw [← hg, Group.setMe_stack, Group.bankSlot_stack, stack]
    intro e he
    rw [this] at he
    cases he
  have split : g.split = s.cur.split := by rw [← hg, Group.setMe_split, Group.bankSlot_split]
  have alive : (g.slot g.sel1).st = .live := (congrArg Slot.st me : _).trans live
  have refs : g.pathRefs = [.slot g.sel1] := no.pathRefs_one (by rw [alive]; decide) (by rw [other, off])
  have entered : s.entered k = s.setCur g := by
    unfold State.entered
    dsimp only
    rw [hg, Group.enter_elsewhere (g := g) (b := g.sel1) (by rw [show g.slot g.sel1 = _ from me]; exact elsewhere), show Group.divFuel = 4095 + 1 from rfl,
      Group.settle_alone _ (by rw [refs]; simp), Group.settle_nil, Group.refill_live (Group.refillSlot_none _ no) (Group.refillSlot_none _ no) g.sel1 alive]
  rw [entered]
  exact ⟨me, split, rfl⟩

end State

/-! ### Branches (R100 to R103, R108) -/

section
variable {i : Instr} {c : Ctl} {s s1 u : State} {body : State → M Effect}

/-- An instruction without a result that issues: its slot goes on as its body says. -/
theorem runWith_goes {go : State → Out} (h : Clear i c c.mark s s1) (hb : body s1 = .ok (u, none, go)) (steps : u.steps = s1.steps) :
    runWith i c c.mark body s = mirrored s.cur s1 s.cur.sel1 s.cur.me.pc (go (u.placed i c s1.cur.x)) := by
  rw [runWith_clear h]
  simp only [hb]
  unfold State.placed
  rw [steps]

/-- An instruction that goes on to the next item does so as any other. -/
theorem runWith_advances (h : Clear i c c.mark s s1) (hb : body s1 = .ok (u, none, fun s => s.advance c.units)) :
    runWith i c c.mark body s = runInstr i c (fun _ => .ok (u, none)) s := by
  unfold runInstr
  rw [runWith_clear h, runWith_clear h]
  simp only [hb]
  rfl

/-- A step that reaches the image of the divergence state is made (R24). -/
theorem mirrored_next {old : Group} {s t : State} {b : Bool} {pc : Word32} (h : t.mirrorStop old = none) : mirrored old s b pc (.next t) = .next (t.mirror old) := by
  simp only [mirrored, h]

/-- The transfer of a branch that is taken (R53, R104). -/
theorem runWith_transfers {tgt : Nat} (h : Clear i c c.mark s s1) (hb : body s1 = .ok (u, none, goIf true tgt c.units)) (steps : u.steps = s1.steps)
    (run : exec i s = runWith i c c.mark body s) : Transfers i c s s1 u tgt := by
  intro s3 k read reaches
  have sel : ((u.placed i c s1.cur.x).aimed (BitVec.ofNat 32 tgt)).cur.sel1 = (u.placed i c s1.cur.x).cur.sel1 := Group.setMe_sel1 ..
  have at_ : ((u.placed i c s1.cur.x).aimed (BitVec.ofNat 32 tgt)).cur.me =
      { (u.placed i c s1.cur.x).cur.me with
        pc := BitVec.ofNat 32 tgt, parked := false, wait := none, tw := none, woken := none, blk := { (u.placed i c s1.cur.x).cur.me.blk with entry := .hdr } } :=
    Group.me_setMe ..
  have entry := State.makeEntry_header (s := (u.placed i c s1.cur.x).aimed (BitVec.ofNat 32 tgt)) (by rw [at_]) (by rw [at_]; exact read)
  rw [sel] at entry
  rw [run, runWith_goes h hb steps]
  exact (congrArg _ entry).trans (mirrored_next reaches)

/-- The younger of the frames that a `ret` finds (R108). -/
theorem returnFrame {young old : List DivEnt} {e : DivEnt} {parent : BitVec 8} {mask : Word32} (frame : e.isFrame = true)
    (split : e.parent = parent) (shares : e.reconv &&& mask ≠ 0) (first : ∀ f ∈ young, ¬(f.isFrame = true ∧ f.parent = parent ∧ f.reconv &&& mask ≠ 0)) :
    (young ++ e :: old).findIdx? (fun e => e.isFrame && e.parent = parent && e.reconv &&& mask ≠ 0) = some young.length := by
  have accepts : ∀ f : DivEnt, (f.isFrame && f.parent = parent && f.reconv &&& mask ≠ 0) = true ↔ f.isFrame = true ∧ f.parent = parent ∧ f.reconv &&& mask ≠ 0 :=
    fun f => by rw [Bool.and_eq_true, Bool.and_eq_true, decide_eq_true_iff, decide_eq_true_iff, and_assoc]
  exact findIdx?_first (p := fun e : DivEnt => e.isFrame && e.parent = parent && e.reconv &&& mask ≠ 0) ((accepts e).2 ⟨frame, split, shares⟩)
    (fun f hf => Bool.eq_false_iff.2 fun k => first f hf ((accepts f).1 k)) old

/-- What a branch's own part gives: its checks, its own changes, and whether it is taken. -/
theorem BranchForm.issues {taken : Bool} {tgt : Nat} (form : BranchForm i c s1 taken tgt u) :
    ∃ body, (fun s => exec i s) = runWith i c c.mark body ∧ body s1 = .ok (u, none, goIf taken tgt c.units) ∧ u.steps = s1.steps ∧
      (taken = false → u.cur.stance = s1.cur.stance) := by
  have checked : ∀ {t : State} {n : Nat}, s1.checkTarget n = .ok t → t.steps = s1.steps ∧ t.cur.frame = s1.cur.frame := fun h =>
    ⟨State.steps_of_spine (State.checkTarget_spine h), State.frame_of_spine (State.checkTarget_spine h)⟩
  cases form with
  | br _ imm _ s2 check =>
    obtain ⟨steps, frame⟩ := checked check
    refine ⟨_, by dsimp only [exec, execBr], ?_, steps, fun _ => Group.stance_of_frame frame⟩
    simp only [bind, Except.bind, check, pure, Except.pure, Group.passes_of_frame frame]
  | jmp _ a _ s2 range check =>
    obtain ⟨steps, frame⟩ := checked check
    refine ⟨_, by dsimp only [exec, execJmp], ?_, steps, fun _ => Group.stance_of_frame frame⟩
    simp only [trapIf, decide_eq_false (Nat.not_le.2 range), Bool.false_eq_true, if_false, bind, Except.bind, check, pure, Except.pure, Group.passes_of_frame frame]
  | brcNone _ imm _ s2 check none_ =>
    obtain ⟨steps, frame⟩ := checked check
    refine ⟨_, by dsimp only [exec, execBrc], ?_, steps, fun _ => Group.stance_of_frame frame⟩
    simp only [bind, Except.bind, check, pure, Except.pure, Group.mask_of_frame frame, Group.guardLanes_of_frame frame, none_, if_true]
  | brcAll _ imm _ s2 check all some_ =>
    obtain ⟨steps, frame⟩ := checked check
    refine ⟨_, by dsimp only [exec, execBrc], ?_, steps, fun _ => Group.stance_of_frame frame⟩
    simp only [bind, Except.bind, check, pure, Except.pure, Group.mask_of_frame frame, Group.guardLanes_of_frame frame, all, if_neg some_, if_true]
  | callNone _ imm _ s2 check off =>
    obtain ⟨steps, frame⟩ := checked check
    refine ⟨_, by dsimp only [exec, execCall], ?_, steps, fun _ => Group.stance_of_frame frame⟩
    simp only [bind, Except.bind, check, pure, Except.pure, Group.passes_of_frame frame, off, Bool.not_false, if_true]
  | call _ imm _ s2 check on clean room =>
    obtain ⟨steps, frame⟩ := checked check
    refine ⟨_, by dsimp only [exec, execCall], ?_, steps, nofun⟩
    simp only [bind, Except.bind, check, pure, Except.pure, Group.passes_of_frame frame, on, Group.divGuard, clean, trapIf, Group.stack_of_frame frame,
      decide_eq_false (Nat.not_le.2 room), Group.pc_of_frame frame, Group.blk_of_frame frame, Group.mask_of_frame frame,
      Group.parent_of_frame frame, Bool.and_eq_true, decide_eq_true_eq, Bool.not_true, Bool.false_eq_true, if_false]
  | retNone _ _ off =>
    refine ⟨_, by dsimp only [exec, execRet], ?_, rfl, fun _ => rfl⟩
    simp only [off, Bool.not_false, if_true, pure, Except.pure]
  | ret _ _ s2 e young old on clean stack isFrame split shares first check =>
    obtain ⟨steps, frame⟩ := checked check
    refine ⟨_, by dsimp only [exec, execRet], ?_, steps, nofun⟩
    simp only [on, Group.divGuard, clean, bind, Except.bind, returnFrame isFrame split shares first, Bool.not_true, Bool.false_eq_true,
      if_false, stack, getElem?_first, Option.map_some, Option.getD_some, check, Group.stack_of_frame frame, eraseIdx_first, pure, Except.pure]

/-- R100 to R103, R108: a branch that is taken transfers its slot, one that is not goes on. -/
theorem BranchForm.branches {taken : Bool} {tgt : Nat} (form : BranchForm i c s1 taken tgt u) (h : Clear i c c.mark s s1) :
    (taken = true → Transfers i c s s1 u tgt) ∧
    (taken = false → s1.cur.me.pc + BitVec.ofNat 32 c.units ≠ s1.cur.me.blk.bend → Completes i c s s1 u noDest) := by
  obtain ⟨body, run, issued, steps, stance⟩ := form.issues
  refine ⟨fun yes => ?_, fun no inside => ?_⟩
  · subst yes
    exact runWith_transfers h issued steps (congrFun run s)
  · subst no
    have ready : Ready i c s s1 := by
      obtain ⟨wf, range, taken, sound, room⟩ := h
      exact ⟨wf, range, taken, sound, room, inside⟩
    unfold Completes
    rw [show exec i s = runWith i c c.mark body s from congrFun run s, runWith_advances h issued]
    exact runInstr_still ready rfl (stance rfl)

/-- R103: a `brc` whose lanes disagree: its own part is the split of its path. -/
theorem brc_splits {imm : BitVec 27} {s2 s3 : State} {m rcw : Word32} {rc : Int} (check : s1.checkTarget (s1.cur.target imm) = .ok s2)
    (hm : m = s1.cur.me.mask &&& s1.cur.guardLanes c) (some_ : m ≠ 0) (notAll : m ≠ s1.cur.me.mask) (hrc : rc = (s1.cur.me.blk.hdr.toNat : Int) + s1.cur.me.blk.rc.toInt)
    (hrcw : rcw = if s1.cur.me.blk.rc = 0 then noTarget else BitVec.ofInt 32 rc)
    (target : if s1.cur.me.blk.rc = 0 then s3 = s2 else s2.checkTarget (if rc < 0 then 1 else rc.toNat) = .ok s3) (clean : s2.cur.divTouched = false)
    (room : (s3.cur.splitSlot s3.cur.sel1 m (BitVec.ofNat 32 (s1.cur.target imm)) s1.cur.me.pc rcw).isSome = true) :
    s3.spine = s1.spine ∧ ∃ body, (fun s => exec (.brc c imm) s) = runWith (.brc c imm) c c.mark body ∧
      body s1 = .ok (s3, none, goSplit c.units fun g => g.splitSlot g.sel1 m (BitVec.ofNat 32 (s1.cur.target imm)) g.me.pc rcw) := by
  have first := State.checkTarget_spine check
  have frame := State.frame_of_spine first
  have second : s3.spine = s2.spine := by
    split at target
    · rw [target]
    · exact State.checkTarget_spine target
  have frame' := State.frame_of_spine second
  have fits : (s2.cur.splitSlot s2.cur.sel1 m (BitVec.ofNat 32 (s1.cur.target imm)) s2.cur.me.pc rcw).isNone = false := by
    rw [Group.splitSlot_isSome] at room
    rw [← Option.not_isSome, ← Group.splitSlot_isSome_of_frame frame', ← Group.sel1_of_frame frame', Group.splitSlot_isSome, room]
    rfl
  refine ⟨second.trans first, _, by dsimp only [exec, execBrc], ?_⟩
  simp only [bind, Except.bind, check, Group.mask_of_frame frame, Group.guardLanes_of_frame frame, ← hm, if_neg some_, if_neg notAll, Group.blk_of_frame frame, ← hrc, ← hrcw]
  simp only [pure, Except.pure, Group.divGuard, clean, Bool.false_eq_true, if_false, trapIf, fits]
  split at target
  · rw [if_pos ‹_›, target]
  · rw [if_neg ‹_›, target]

/-- Both slots of a split go on: the other enters its target, then the issuing one makes what entry it has (R103). -/
theorem goSplit_next {split : Group → Option Group} {v w w2 : State} {g : Group} (made : split v.cur = some g) (sel : g.sel1 = v.cur.sel1)
    (inside : g.me.pc + BitVec.ofNat 32 c.units ≠ g.me.blk.bend) (other : ((v.setCur g).onward c).makeEntry (!v.cur.sel1) = .next w)
    (own : if w.cur.canIssue v.cur.sel1 then w.makeEntry v.cur.sel1 = .next w2 else w2 = w) : goSplit c.units split v = .next w2 := by
  have at_ : g.slot v.cur.sel1 = g.me := by rw [← sel]; rfl
  unfold State.onward Group.setMe at other
  simp only [State.setCur_cur, sel] at other
  unfold goSplit
  simp only [made, at_, if_neg inside]
  rw [show (v.setCur (g.setSlot v.cur.sel1 _)).makeEntry _ = _ from other]
  dsimp only
  split at own
  · rw [if_pos ‹_›, own]
  · rw [if_neg ‹_›, own]

/-- Settles O26: the branches by what their own part gives, and the steps of R104 to R106 on a stack that holds no path, or whose youngest path is taken. -/
theorem branches : Obligations.Branches := by
  unfold Obligations.Branches
  refine ⟨⟨fun i c s s1 u taken tgt form h => form.branches h, fun s k live off stack elsewhere _ _ => State.entered_alone live off stack elsewhere⟩,
    ⟨?_, ?_⟩, ?_, ?_, ?_, ?_, ?_⟩
  · intro c imm s s1 s2 s3 w g h check m rc v some_ notAll target clean room made inside other w2 own reaches
    obtain ⟨spine, body, run, issued⟩ := brc_splits (c := c) check rfl some_ notAll rfl rfl target clean room
    have frame := State.frame_of_spine spine
    obtain ⟨rest, pc, blk⟩ := s3.cur.joined_spec (.brc c imm) c s1.cur.x none
    have sel : v.cur.sel1 = s1.cur.sel1 := Eq.trans (b := s3.cur.sel1) (congrArg Group.sel1 rest : _) (Group.sel1_of_frame frame)
    have vpc : v.cur.me.pc = s1.cur.me.pc := Eq.trans pc (Group.pc_of_frame frame)
    have vblk : v.cur.me.blk = s1.cur.me.blk := Eq.trans blk (Group.blk_of_frame frame)
    obtain ⟨-, -, -, -, -, -, -, -, -, gpc, -, -, -, -, gsel, gblk⟩ := Group.splitSlot_spec made
    have gme : g.me = g.slot v.cur.sel1 := by rw [← gsel]; rfl
    rw [← sel] at other own
    rw [show exec (.brc c imm) s = _ from congrFun run s, runWith_goes h issued (State.steps_of_spine spine)]
    exact (congrArg _ (goSplit_next made gsel (by rw [gme, gpc, gblk, vpc]; exact vblk ▸ inside) other own)).trans (mirrored_next reaches)
  · intro g h b taken tgt next rc split _
    obtain ⟨n, pos, bound, unused, table, st, mask, stay, pc, pc', reconv, reconv', parent, parent', -, -⟩ := Group.splitSlot_spec split
    exact ⟨n, pos, bound, unused, table, st, mask, stay, pc, pc', reconv, reconv', parent, parent'⟩
  · intro g b n up j rest t o h live at_ no
    refine ⟨fun other => ?_, fun parent wait parent' pc outer join => ?_⟩
    · rw [show h = g.waits b from Group.enter_refill_waits no at_ other]
      exact ⟨Group.waits_path g b, Group.waits_slot_not g b, Group.waits_stack g b, Group.waits_split g b⟩
    · exact Group.enter_joins_refill no at_ parent parent' pc wait outer join
  · intro g young old e stack path
    refine ⟨fun b off live first => ?_, fun w0 w1 runs first => ?_⟩
    · rw [Group.refill_takes stack path off live first]
      refine ⟨?_, ?_, ?_, rfl⟩
      · exact (congrArg Slot.path (Group.slot_setSlot g b e.path.slot) : _).trans (Group.path_slot e.path)
      · exact (congrArg Slot.win (Group.slot_setSlot g b e.path.slot) : _)
      · exact Group.slot_setSlot_not g b e.path.slot
    · obtain ⟨slot1, slot0, swapped⟩ := Group.refill_swaps stack path w0 w1 runs first
      exact ⟨by rw [slot1, Group.path_slot], by rw [slot1]; rfl, slot0, swapped⟩
  · exact fun g none_ w0 w1 => Group.refill_waiting (Group.refillSlot_full (b := true) (by rw [show (g.slot true).st = _ from w1]; decide)) (by rw [w1]; decide) none_ w0
  · exact fun g no off w => Group.refill_moves no off w
  · exact fun g out n up j rest => fun all mine other live no outer join => Group.leave_ends all mine other live no outer join

end
end Sys2Proof.Machine
end

section
/-!
What a commit park leaves in a register (R66 to R68): the claims that outstanding L results have on it, those that banked S writes take away, and the youngest of what is
left; and what the window and its kill bits do to a read (R67).
-/
set_option Elab.async false
namespace Sys2Proof.Machine
open Sys2Proof

/-- Elements with distinct keys are named by their keys. -/
theorem eq_of_key {α : Type} {k : α → Nat} {l : List α} (h : l.Pairwise fun x y => k x ≠ k y) {x y : α} (hx : x ∈ l) (hy : y ∈ l) (e : k x = k y) : x = y :=
  List.Pairwise.forall_of_forall_of_flip (R := fun x y => k x = k y → x = y) (fun _ _ _ => rfl) (h.imp fun ne e => absurd e ne)
    (h.imp fun ne e => absurd e.symm ne) hx hy e

/-! ### Claims of outstanding L results on a register in a lane -/

/-- What an L result that covers a register has to say in its lane: its place in issue order, its slot, and its values. -/
structure Claim where
  seq : Nat
  slot1 : Bool
  val : Lanes Word64

def Pend.claim (p : Pend) : Claim := { seq := p.seq, slot1 := p.slot1, val := p.write.val }

/-- A younger S write of slot `b` takes the register from the claim: it is of its slot, or the register is a uniform one (R68). -/
def Claim.yields (x : Claim) (cls : RClass) (b : Bool) (seq : Nat) : Bool := decide (x.seq < seq) && (x.slot1 = b || cls = .s)

/-- The claims on register `n` of a class in lane `l`, in issue order. -/
def claims (cls : RClass) (n l : Nat) (ps : List Pend) : List Claim := (ps.filter fun p => p.write.covers cls n l).map Pend.claim

/-- The claims have one place each in issue order. -/
def InOrder (cs : List Claim) : Prop := cs.Pairwise fun x y => x.seq < y.seq

theorem InOrder.eq_of_seq {cs : List Claim} (h : InOrder cs) {x y : Claim} (hx : x ∈ cs) (hy : y ∈ cs) (e : x.seq = y.seq) : x = y :=
  eq_of_key (k := Claim.seq) (h.imp Nat.ne_of_lt) hx hy e

theorem mem_claims {cls : RClass} {n l : Nat} {ps : List Pend} {x : Claim} :
    x ∈ claims cls n l ps ↔ ∃ p ∈ ps, p.write.covers cls n l = true ∧ p.claim = x := by
  simp only [claims, List.mem_map, List.mem_filter, and_assoc]

/-- The claims that an S write of slot `b` at place `seq` leaves: those that are younger than all that yield to it (R68). -/
def Claim.survives (cs : List Claim) (cls : RClass) (b : Bool) (seq : Nat) (x : Claim) : Bool :=
  !cs.any fun y => y.yields cls b seq && decide (x.seq ≤ y.seq)

/-! ### Lanes that a banked S write takes from older L results -/

/-- The lane at which a register of a class is looked up lies in a group. -/
theorem at_lt (cls : RClass) {l : Nat} (h : l < 32) : Group.at_ cls l < 32 := by
  unfold Group.at_; split <;> omega

theorem covers_eq (w : RegWrite) (cls : RClass) (n l : Nat) : w.covers cls n l = (w.cls = cls && w.reg = n && lane w.lanes (Group.at_ cls l)) := rfl

theorem lane_foldl_clear {α : Type} (f : α → Word32) {k : Nat} (hk : k < 32) : ∀ (qs : List α) (m : Word32),
    lane (qs.foldl (fun m q => m &&& ~~~f q) m) k = (lane m k && qs.all fun q => !lane (f q) k)
  | [], m => by simp
  | q :: qs, m => by rw [List.foldl_cons, lane_foldl_clear f hk qs, lane_and, lane_not _ _ hk, List.all_cons, Bool.and_assoc]

/-- An L result once the S write `w` of slot `b` at place `seq` is banked (R68). -/
def shaded (w : RegWrite) (seq : Nat) (b : Bool) (ps : List Pend) (p : Pend) : Pend :=
  if Group.discards w seq b p then { p with write := { p.write with lanes := p.write.lanes &&& ~~~w.lanes } }
  else if p.write.cls = w.cls && p.write.reg = w.reg then
    { p with write := { p.write with lanes := (ps.filter fun q => Group.discards w seq b q && decide (p.seq < q.seq)).foldl (fun m q =>
      m &&& ~~~(q.write.lanes &&& w.lanes)) p.write.lanes } }
  else p

theorem shadePend_eq (w : RegWrite) (seq : Nat) (b : Bool) (ps : List Pend) : Group.shadePend w seq b ps = ps.map (shaded w seq b ps) := rfl

theorem shaded_claim (w : RegWrite) (seq : Nat) (b : Bool) (ps : List Pend) (p : Pend) : (shaded w seq b ps p).claim = p.claim := by
  unfold shaded
  split
  · rfl
  · split <;> rfl

section
variable {w : RegWrite} {seq : Nat} {b : Bool} {ps : List Pend} {cls : RClass} {n l : Nat}

theorem discards_of_covers (cover : w.covers cls n l = true) {p : Pend} (hp : p.write.covers cls n l = true) :
    Group.discards w seq b p = p.claim.yields cls b seq := by
  obtain ⟨wc, wr, -⟩ := (RegWrite.covers_iff ..).1 cover
  obtain ⟨pc, pr, -⟩ := (RegWrite.covers_iff ..).1 hp
  unfold Group.discards Claim.yields Pend.claim
  rw [pc, pr, wc, wr]
  simp

/-- What a banked write leaves an L result is among what it had. -/
theorem shaded_covers_le (hl : l < 32) {p : Pend} (h : (shaded w seq b ps p).write.covers cls n l = true) : p.write.covers cls n l = true := by
  have hk := at_lt cls hl
  rw [RegWrite.covers_iff] at h ⊢
  change _ ∧ _ ∧ lane _ (Group.at_ cls l) = true at h
  unfold shaded at h
  split at h
  · obtain ⟨c, r, on⟩ := h
    rw [lane_and, Bool.and_eq_true] at on
    exact ⟨c, r, on.1⟩
  · split at h
    · obtain ⟨c, r, on⟩ := h
      rw [lane_foldl_clear (fun q : Pend => q.write.lanes &&& w.lanes) hk, Bool.and_eq_true] at on
      exact ⟨c, r, on.1⟩
    · exact h

/-- A banked write that does not cover a register takes nothing of it from an L result. -/
theorem shaded_covers_of_not (hl : l < 32) (out : w.covers cls n l = false) (p : Pend) :
    (shaded w seq b ps p).write.covers cls n l = p.write.covers cls n l := by
  have hk := at_lt cls hl
  rw [Bool.eq_iff_iff]
  refine ⟨shaded_covers_le hl, fun h => ?_⟩
  obtain ⟨pc, pr, pl⟩ := (RegWrite.covers_iff ..).1 h
  by_cases same : w.cls = cls ∧ w.reg = n
  · have off : lane w.lanes (Group.at_ cls l) = false := by
      rw [covers_eq] at out
      simpa [same] using out
    rw [RegWrite.covers_iff]
    unfold shaded
    split
    · refine ⟨pc, pr, ?_⟩
      change lane _ (Group.at_ cls l) = true
      rw [lane_and, lane_not _ _ hk, off, show lane p.write.lanes (Group.at_ cls l) = true from pl]
      rfl
    · split
      · refine ⟨pc, pr, ?_⟩
        change lane _ (Group.at_ cls l) = true
        rw [lane_foldl_clear (fun q : Pend => q.write.lanes &&& w.lanes) hk, show lane p.write.lanes (Group.at_ cls l) = true from pl, Bool.true_and,
          List.all_eq_true]
        intro q _
        rw [lane_and, off, Bool.and_false, Bool.not_false]
      · exact ⟨pc, pr, pl⟩
  · have other : (p.write.cls = w.cls && p.write.reg = w.reg) = false := by
      rw [pc, pr, Bool.eq_false_iff, ne_eq, Bool.and_eq_true, decide_eq_true_eq, decide_eq_true_eq]
      exact fun e => same ⟨e.1.symm, e.2.symm⟩
    unfold shaded Group.discards
    rw [other, Bool.false_and, Bool.false_and, if_neg Bool.false_ne_true, if_neg Bool.false_ne_true]
    exact h

/-- A banked write that covers a register takes it from the claims that yield to it, and from those that are older than one that does (R68). -/
theorem shaded_covers (hl : l < 32) (cover : w.covers cls n l = true) (order : InOrder (claims cls n l ps)) {p : Pend} (hp : p ∈ ps) :
    (shaded w seq b ps p).write.covers cls n l = (Claim.survives (claims cls n l ps) cls b seq p.claim && p.write.covers cls n l) := by
  have wl : lane w.lanes (Group.at_ cls l) = true := ((RegWrite.covers_iff ..).1 cover).2.2
  have hk := at_lt cls hl
  by_cases hc : p.write.covers cls n l = true
  · have own : p.claim ∈ claims cls n l ps := mem_claims.2 ⟨p, hp, hc, rfl⟩
    obtain ⟨pc, pr, pl⟩ := (RegWrite.covers_iff ..).1 hc
    obtain ⟨wc, wr, -⟩ := (RegWrite.covers_iff ..).1 cover
    rw [hc, Bool.and_true]
    unfold shaded
    split
    next taken =>
      rw [discards_of_covers cover hc] at taken
      have dies : Claim.survives (claims cls n l ps) cls b seq p.claim = false := by
        unfold Claim.survives
        rw [Bool.not_eq_false', List.any_eq_true]
        exact ⟨p.claim, own, by simp [taken]⟩
      rw [dies, covers_eq]
      simp [lane_not _ _ hk, wl]
    next kept =>
      rw [discards_of_covers cover hc] at kept
      rw [if_pos (by simp [pc, pr, wc, wr]), covers_eq]
      simp only [pc, pr, decide_true, Bool.true_and]
      rw [lane_foldl_clear (fun q : Pend => q.write.lanes &&& w.lanes) hk, show lane p.write.lanes (Group.at_ cls l) = true from pl, Bool.true_and]
      unfold Claim.survives
      rw [Bool.eq_iff_iff, List.all_eq_true, Bool.not_eq_true', List.any_eq_false]
      constructor
      · intro all y hy
        obtain ⟨q, hq, qc, rfl⟩ := mem_claims.1 hy
        intro bad
        rw [Bool.and_eq_true, decide_eq_true_eq] at bad
        obtain ⟨yields, le⟩ := bad
        rcases Nat.lt_or_eq_of_le le with lt | eq
        · have := all q (List.mem_filter.2 ⟨hq, by rw [discards_of_covers cover qc, yields]; exact decide_eq_true (show p.seq < q.seq from lt)⟩)
          rw [lane_and, wl, show lane q.write.lanes (Group.at_ cls l) = true from ((RegWrite.covers_iff ..).1 qc).2.2] at this
          cases this
        · exact kept (order.eq_of_seq own hy eq ▸ yields)
      · intro all q hq
        obtain ⟨hq, younger⟩ := List.mem_filter.1 hq
        rw [Bool.and_eq_true, decide_eq_true_eq] at younger
        obtain ⟨taken, lt⟩ := younger
        rw [lane_and, wl, Bool.and_true]
        by_contra on
        rw [Bool.not_eq_true, Bool.not_eq_false'] at on
        have qc : q.write.covers cls n l = true := by
          simp only [Group.discards, Bool.and_eq_true, decide_eq_true_eq] at taken
          exact (RegWrite.covers_iff ..).2 ⟨taken.1.1.1.trans wc, taken.1.1.2.trans wr, on⟩
        refine all q.claim (mem_claims.2 ⟨q, hq, qc, rfl⟩) ?_
        rw [← discards_of_covers cover qc, taken, Bool.true_and]
        exact decide_eq_true lt.le
  · rw [Bool.not_eq_true] at hc
    rw [hc, Bool.and_false]
    by_contra on
    rw [Bool.not_eq_false] at on
    rw [shaded_covers_le hl on] at hc
    cases hc

/-- What a banked write that covers a register leaves of the claims on it. -/
theorem claims_shadePend (hl : l < 32) (cover : w.covers cls n l = true) (order : InOrder (claims cls n l ps)) :
    claims cls n l (Group.shadePend w seq b ps) = (claims cls n l ps).filter (Claim.survives (claims cls n l ps) cls b seq) := by
  have keep : ps.filter (fun p => (shaded w seq b ps p).write.covers cls n l) =
      ps.filter (fun p => Claim.survives (claims cls n l ps) cls b seq p.claim && p.write.covers cls n l) :=
    List.filter_congr fun p hp => shaded_covers hl cover order hp
  unfold claims at keep ⊢
  rw [shadePend_eq, List.filter_map, List.map_map, List.filter_map, List.filter_filter]
  simp only [Function.comp_def, shaded_claim]
  rw [keep]

/-- A banked write that does not cover a register leaves the claims on it. -/
theorem claims_shadePend_of_not (hl : l < 32) (out : w.covers cls n l = false) :
    claims cls n l (Group.shadePend w seq b ps) = claims cls n l ps := by
  unfold claims
  rw [shadePend_eq, List.filter_map, List.map_map]
  simp only [Function.comp_def, shaded_claim, shaded_covers_of_not hl out]

end

/-! ### Claims as windows are banked -/

section
variable {cls : RClass} {n l : Nat}

/-- An entry of a window that is banked puts a write in a register where it covers it. -/
theorem WinEnt.puts_iff {e : WinEnt} : e.puts cls n l = true ↔ e.killed = false ∧ ∃ w, e.write = some w ∧ w.covers cls n l = true := by
  unfold WinEnt.puts
  cases e.write <;> simp

theorem claims_bankEnt (hl : l < 32) (g : Group) (b : Bool) (e : WinEnt) (order : InOrder (claims cls n l g.pend)) :
    claims cls n l (g.bankEnt b e).pend = if e.puts cls n l = true then
      (claims cls n l g.pend).filter (Claim.survives (claims cls n l g.pend) cls b e.seq) else claims cls n l g.pend := by
  unfold Group.bankEnt WinEnt.puts
  cases e.write with
  | none => simp
  | some w =>
    cases e.killed with
    | true => simp
    | false =>
      cases cover : w.covers cls n l with
      | true => simpa [cover] using claims_shadePend hl cover order
      | false => simpa [cover] using claims_shadePend_of_not hl cover

/-- The banked entries of windows take a claim: one of them puts a write in the register and takes the claim itself, or a younger one with it (R68). -/
def Claim.taken (cs : List Claim) (cls : RClass) (n l : Nat) (es : List (Bool × WinEnt)) (x : Claim) : Bool :=
  es.any fun e => e.2.puts cls n l && !Claim.survives cs cls e.1 e.2.seq x

/-- The windows' entries banked one after the other. -/
def Group.bankEnts (g : Group) (es : List (Bool × WinEnt)) : Group := es.foldl (fun g e => g.bankEnt e.1 e.2) g

theorem Group.bankEnts_append (g : Group) (es : List (Bool × WinEnt)) (e : Bool × WinEnt) : g.bankEnts (es ++ [e]) = (g.bankEnts es).bankEnt e.1 e.2 := by
  rw [bankEnts, List.foldl_append]; rfl

theorem Claim.survives_iff {cs : List Claim} {b : Bool} {seq : Nat} {x : Claim} :
    x.survives cs cls b seq = true ↔ ∀ y ∈ cs, y.yields cls b seq = true → y.seq < x.seq := by
  unfold Claim.survives
  rw [Bool.not_eq_true', List.any_eq_false]
  simp

/-- Whether a claim survives depends on the claims alone that earlier entries have left. -/
theorem Claim.survives_filter {cs : List Claim} {es : List (Bool × WinEnt)} {b : Bool} {seq : Nat} {x : Claim}
    (here : x.taken cs cls n l es = false) :
    x.survives (cs.filter fun y => !y.taken cs cls n l es) cls b seq = x.survives cs cls b seq := by
  rw [Bool.eq_iff_iff, survives_iff, survives_iff]
  refine ⟨fun h y hy yields => ?_, fun h y hy => h y (List.mem_of_mem_filter hy)⟩
  by_contra older
  have left : y.taken cs cls n l es = false := by
    unfold Claim.taken at here ⊢
    rw [List.any_eq_false] at here ⊢
    intro e he gone
    refine here e he ?_
    rw [Bool.and_eq_true, Bool.not_eq_true', ← Bool.not_eq_true, survives_iff] at gone ⊢
    exact ⟨gone.1, fun all => gone.2 fun z hz zy => (all z hz zy).trans_le (Nat.le_of_not_lt older)⟩
  exact older (h y (List.mem_filter.2 ⟨hy, by rw [left]; rfl⟩) yields)

/-- Entries that are banked leave the claims that none of them takes. -/
theorem claims_bankEnts (hl : l < 32) (g : Group) (order : InOrder (claims cls n l g.pend)) (es : List (Bool × WinEnt)) :
    claims cls n l (g.bankEnts es).pend = (claims cls n l g.pend).filter fun x => !x.taken (claims cls n l g.pend) cls n l es := by
  induction es using List.reverseRecOn with
  | nil => exact (List.filter_eq_self.2 fun _ _ => rfl).symm
  | append_singleton es e ih =>
    have order' : InOrder (claims cls n l (g.bankEnts es).pend) := ih ▸ List.Pairwise.filter _ order
    have step (x : Claim) : x.taken (claims cls n l g.pend) cls n l (es ++ [e]) = (x.taken (claims cls n l g.pend) cls n l es ||
        (e.2.puts cls n l && !x.survives (claims cls n l g.pend) cls e.1 e.2.seq)) := by
      simp [Claim.taken]
    rw [Group.bankEnts_append, claims_bankEnt hl _ _ _ order']
    simp only [step]
    split
    next puts =>
      rw [ih, List.filter_filter]
      refine List.filter_congr fun x _ => ?_
      cases here : x.taken (claims cls n l g.pend) cls n l es with
      | true => simp
      | false => rw [Claim.survives_filter here, puts]; simp
    next out => simp [ih, out]

/-! ### The register file as windows are banked -/

theorem lane_foldl_unless {α : Type} (c : α → Bool) (f : α → Word32) {k : Nat} (hk : k < 32) : ∀ (es : List α) (m : Word32),
    lane (es.foldl (fun m e => if c e then m &&& ~~~f e else m) m) k = (lane m k && !es.any fun e => c e && lane (f e) k)
  | [], m => by simp
  | e :: es, m => by
    rw [List.foldl_cons, lane_foldl_unless c f hk es, List.any_cons]
    cases c e
    · simp
    · simp [lane_not _ _ hk, Bool.and_assoc]

/-- A write to be banked covers what no younger one has been banked in (R67). -/
theorem Group.freshLanes_covers (hl : l < 32) (g : Group) (seq : Nat) (w : RegWrite) :
    ({ w with lanes := g.freshLanes seq w } : RegWrite).covers cls n l = (w.covers cls n l && !g.lateAfter seq cls n l) := by
  have fresh : lane (g.freshLanes seq w) (at_ cls l) = (lane w.lanes (at_ cls l) &&
      !g.late.any fun e => (decide (seq < e.1) && e.2.1 = w.cls && e.2.2.1 = w.reg) && lane e.2.2.2 (at_ cls l)) :=
    lane_foldl_unless _ _ (at_lt cls hl) g.late w.lanes
  rw [covers_eq, covers_eq]
  show (_ && lane (g.freshLanes seq w) (at_ cls l)) = _
  rw [fresh]
  unfold Group.lateAfter
  by_cases c : w.cls = cls
  · by_cases r : w.reg = n
    · subst c r; simp [at_]
    · simp [r]
  · simp [c]

/-- The register file once an entry of a window is banked. -/
theorem Group.banked_bankEnt (hn : n < regCount cls) (hl : l < 32) (h63 : ¬(cls = .p ∧ n = 63)) (g : Group) (b : Bool) {e : WinEnt} {w : RegWrite}
    (he : e.write = some w) : (g.bankEnt b e).banked cls n (at_ cls l) =
      if e.puts cls n l = true ∧ g.lateAfter e.seq cls n l = false then norm cls (w.val.get (at_ cls l) 0) else g.banked cls n (at_ cls l) := by
  unfold bankEnt WinEnt.puts
  rw [he]
  cases e.killed with
  | true => simp
  | false =>
    have file := banked_bankWrite g { w with lanes := g.freshLanes e.seq w } cls n l hn hl h63
    rw [freshLanes_covers hl] at file
    refine ((banked_congr rfl rfl rfl ..).trans file).trans ?_
    by_cases cover : w.covers cls n l = true <;> by_cases late : g.lateAfter e.seq cls n l = true <;> simp [cover, late]

theorem Group.banked_bankEnt_of_none (g : Group) (b : Bool) {e : WinEnt} (he : e.write = none) : g.bankEnt b e = g := by
  unfold bankEnt; rw [he]

/-- A banked entry that puts nothing in a register, or too late, leaves it. -/
theorem Group.banked_bankEnt_of_not (hn : n < regCount cls) (hl : l < 32) (h63 : ¬(cls = .p ∧ n = 63)) (g : Group) (b : Bool) {e : WinEnt}
    (out : e.puts cls n l = true → g.lateAfter e.seq cls n l = true) : (g.bankEnt b e).banked cls n (at_ cls l) = g.banked cls n (at_ cls l) := by
  cases he : e.write with
  | none => rw [banked_bankEnt_of_none g b he]
  | some w =>
    rw [banked_bankEnt hn hl h63 g b he, if_neg]
    rintro ⟨puts, fresh⟩
    rw [out puts] at fresh
    cases fresh

/-- The writes that are banked grow by what an entry puts in the register. -/
theorem Group.lateAfter_bankEnt (g : Group) (b : Bool) (e : WinEnt) (seq : Nat) :
    (g.bankEnt b e).lateAfter seq cls n l = (e.puts cls n l && decide (seq < e.seq) || g.lateAfter seq cls n l) := by
  unfold bankEnt WinEnt.puts
  cases e.write with
  | none => simp
  | some w =>
    cases e.killed with
    | true => simp
    | false =>
      simp only [Bool.false_eq_true, if_false, lateAfter, List.any_cons, Bool.not_false, Bool.true_and, Option.any_some, covers_eq, at_]
      congr 1
      cases decide (seq < e.seq) <;> simp

theorem Group.lateAfter_mono {g : Group} {a b : Nat} (h : a ≤ b) (late : g.lateAfter b cls n l = true) : g.lateAfter a cls n l = true := by
  unfold lateAfter at late ⊢
  rw [List.any_eq_true] at late ⊢
  obtain ⟨e, he, younger⟩ := late
  simp only [Bool.and_eq_true, decide_eq_true_eq] at younger ⊢
  obtain ⟨⟨⟨lt, c⟩, r⟩, on⟩ := younger
  exact ⟨e, he, ⟨⟨Nat.lt_of_le_of_lt h lt, c⟩, r⟩, on⟩

/-- Entries that put nothing in a register, or too late, leave it. -/
theorem Group.banked_bankEnts_of_not (hn : n < regCount cls) (hl : l < 32) (h63 : ¬(cls = .p ∧ n = 63)) : ∀ (es : List (Bool × WinEnt)) (g : Group),
    (∀ e ∈ es, e.2.puts cls n l = true → g.lateAfter e.2.seq cls n l = true) → (g.bankEnts es).banked cls n (at_ cls l) = g.banked cls n (at_ cls l)
  | [], _, _ => rfl
  | e :: es, g, out =>
    (banked_bankEnts_of_not hn hl h63 es (g.bankEnt e.1 e.2) fun d hd puts => by
      rw [lateAfter_bankEnt, out d (List.mem_cons_of_mem e hd) puts, Bool.or_true]).trans
      (banked_bankEnt_of_not hn hl h63 g e.1 (out e List.mem_cons_self))

/-- Once the youngest entry for a register is banked, it keeps what that gave it. -/
theorem Group.banked_bankEnts_kept (hn : n < regCount cls) (hl : l < 32) (h63 : ¬(cls = .p ∧ n = 63)) {e : WinEnt} {w : RegWrite} (he : e.write = some w) :
    ∀ (es : List (Bool × WinEnt)) (g : Group), (∀ d ∈ es, d.2.puts cls n l = true → d.2.seq < e.seq ∨ d.2 = e) →
      (∀ k < e.seq, g.lateAfter k cls n l = true) → g.banked cls n (at_ cls l) = norm cls (w.val.get (at_ cls l) 0) →
      (g.bankEnts es).banked cls n (at_ cls l) = norm cls (w.val.get (at_ cls l) 0)
  | [], _, _, _, file => file
  | d :: es, g, young, late, file => by
    refine banked_bankEnts_kept hn hl h63 he es (g.bankEnt d.1 d.2) (fun c hc => young c (List.mem_cons_of_mem d hc))
      (fun k hk => by rw [lateAfter_bankEnt, late k hk, Bool.or_true]) ?_
    by_cases same : d.2 = e
    · rw [same, banked_bankEnt hn hl h63 g d.1 he, file, ite_self]
    · refine (banked_bankEnt_of_not hn hl h63 g d.1 fun puts => ?_).trans file
      exact late _ ((young d List.mem_cons_self puts).resolve_right same)

/-- The youngest entry for a register gives it its value, unless a younger write is banked already (R67). -/
theorem Group.banked_bankEnts (hn : n < regCount cls) (hl : l < 32) (h63 : ¬(cls = .p ∧ n = 63)) {b : Bool} {e : WinEnt} {w : RegWrite}
    (he : e.write = some w) (puts : e.puts cls n l = true) : ∀ (es : List (Bool × WinEnt)) (g : Group), (b, e) ∈ es →
      (∀ d ∈ es, d.2.puts cls n l = true → d.2.seq < e.seq ∨ d.2 = e) → g.lateAfter e.seq cls n l = false →
      (g.bankEnts es).banked cls n (at_ cls l) = norm cls (w.val.get (at_ cls l) 0)
  | [], _, mem, _, _ => by cases mem
  | d :: es, g, mem, young, fresh => by
    have rest (c : Bool × WinEnt) (hc : c ∈ es) := young c (List.mem_cons_of_mem d hc)
    by_cases same : d.2 = e
    · refine banked_bankEnts_kept hn hl h63 he es (g.bankEnt d.1 d.2) rest (fun k hk => ?_) ?_
      · rw [lateAfter_bankEnt, same, puts, decide_eq_true hk]; rfl
      · rw [same, banked_bankEnt hn hl h63 g d.1 he, if_pos ⟨puts, fresh⟩]
    · refine banked_bankEnts hn hl h63 he puts es (g.bankEnt d.1 d.2) ((List.mem_cons.1 mem).resolve_left fun h => same (h ▸ rfl)) rest ?_
      rw [lateAfter_bankEnt, fresh, Bool.or_false, Bool.and_eq_false_iff, decide_eq_false_iff_not]
      by_cases dp : d.2.puts cls n l = true
      · exact .inr (Nat.not_lt_of_gt (((young d List.mem_cons_self dp).resolve_right same)))
      · exact .inl (Bool.not_eq_true _ ▸ dp)

/-! ### What a commit park leaves (R66, R68) -/

namespace Group

/-- Both windows' entries are banked, and no others. -/
theorem mem_winOrder {b : Bool} {e : WinEnt} : ∀ (as bs : List WinEnt), (b, e) ∈ winOrder as bs ↔ (b = false ∧ e ∈ as) ∨ (b = true ∧ e ∈ bs)
  | [], bs => by simp [winOrder, and_comm, eq_comm]
  | a :: as, bs => by
    have split : e ∈ bs ↔ e ∈ bs.takeWhile (fun e => e.seq < a.seq) ∨ e ∈ bs.dropWhile (fun e => e.seq < a.seq) := by
      rw [← List.mem_append, List.takeWhile_append_dropWhile]
    rw [winOrder, List.mem_append, List.mem_cons, mem_winOrder as, split, List.mem_map, List.mem_cons]
    cases b <;> simp

/-- The entries that a commit park banks, in their order. -/
def parkEnts (g : Group) : List (Bool × WinEnt) := winOrder g.slot0.win.reverse g.slot1.win.reverse

theorem mem_parkEnts {g : Group} {b : Bool} {e : WinEnt} : (b, e) ∈ g.parkEnts ↔ e ∈ (g.slot b).win := by
  unfold parkEnts
  rw [mem_winOrder]
  cases b <;> simp [slot]

theorem bankAll_pend (g : Group) : g.bankAll.pend = (g.bankEnts g.parkEnts).pend := rfl
theorem bankAll_banked (g : Group) (l : Nat) : g.bankAll.banked cls n l = (g.bankEnts g.parkEnts).banked cls n l := banked_congr rfl rfl rfl ..

/-- A commit park writes the results that are left one after the other. -/
theorem commit_banked_eq (g : Group) (l : Nat) : g.commit.banked cls n l = (g.bankAll.pend.foldl commitOne g.bankAll).banked cls n l :=
  banked_congr rfl rfl rfl ..

/-- L results that are written leave the youngest one's value. -/
theorem banked_commitOnes (hn : n < regCount cls) (hl : l < 32) (h63 : ¬(cls = .p ∧ n = 63)) : ∀ (ps : List Pend) (g : Group),
    (ps.foldl commitOne g).banked cls n (at_ cls l) = match (claims cls n l ps).getLast? with
      | some x => norm cls (x.val.get (at_ cls l) 0)
      | none => g.banked cls n (at_ cls l)
  | [], _ => rfl
  | p :: ps, g => by
    have one : (g.commitOne p).banked cls n (at_ cls l) = if p.write.covers cls n l = true then norm cls (p.write.val.get (at_ cls l) 0)
        else g.banked cls n (at_ cls l) := (banked_congr rfl rfl rfl ..).trans (banked_bankWrite g p.write cls n l hn hl h63)
    rw [List.foldl_cons, banked_commitOnes hn hl h63 ps, one]
    unfold claims
    rw [List.filter_cons]
    by_cases cover : p.write.covers cls n l = true
    · rw [if_pos cover, if_pos cover, List.map_cons, List.getLast?_cons]
      cases (List.map Pend.claim (ps.filter fun p => p.write.covers cls n l)).getLast? <;> rfl
    · rw [if_neg cover, if_neg cover]

/-- Once the windows are empty a read gives what the register file holds. -/
theorem commit_seen (hn : n < regCount cls) (h63 : ¬(cls = .p ∧ n = 63)) (g : Group) :
    g.commit.seen cls n l = g.commit.banked cls n (at_ cls l) := by
  have empty : g.commit.me.win = [] := by rw [me, slot_commit]
  rw [seen_eq _ _ _ _ hn, if_neg h63, empty]
  exact norm_banked ..

/-- The claims that no S write takes at a commit park. -/
def claimsLeft (g : Group) (cls : RClass) (n l : Nat) : List Claim :=
  (claims cls n l g.pend).filter fun x => !x.taken (claims cls n l g.pend) cls n l g.parkEnts

/-- A commit park leaves a register the youngest claim that is left, else what the windows and the register file gave it. -/
theorem commit_reads (hn : n < regCount cls) (hl : l < 32) (h63 : ¬(cls = .p ∧ n = 63)) (g : Group) (order : InOrder (claims cls n l g.pend)) :
    g.commit.seen cls n l = match (g.claimsLeft cls n l).getLast? with
      | some x => norm cls (x.val.get (at_ cls l) 0)
      | none => (g.bankEnts g.parkEnts).banked cls n (at_ cls l) := by
  rw [commit_seen hn h63, commit_banked_eq, banked_commitOnes hn hl h63, bankAll_pend, claims_bankEnts hl g order, bankAll_banked]
  rfl

/-! The windows and results of a group in issue order. -/

theorem Ordered.claims {g : Group} (o : g.Ordered) (cls : RClass) (n l : Nat) : InOrder (claims cls n l g.pend) := by
  refine List.pairwise_map.2 (List.pairwise_filter.2 (o.pend.imp fun {p q} h hp hq => ?_))
  obtain ⟨pc, pr, -⟩ := (RegWrite.covers_iff ..).1 hp
  obtain ⟨qc, qr, -⟩ := (RegWrite.covers_iff ..).1 hq
  exact h.resolve_right fun ⟨_, ne⟩ => ne (by rw [pc, pr, qc, qr])

/-- Instructions of the windows are named by their places in issue order. -/
theorem Ordered.eq_of_seq {g : Group} (o : g.Ordered) {b c : Bool} {d e : WinEnt} (hd : d ∈ (g.slot b).win) (he : e ∈ (g.slot c).win) (same : d.seq = e.seq) :
    d = e := by
  by_cases h : b = c
  · subst h
    exact eq_of_key (k := WinEnt.seq) ((o.win b).imp fun lt => Nat.ne_of_gt lt) hd he same
  · cases b <;> cases c
    · exact absurd rfl h
    · exact absurd same (o.slots d hd e he)
    · exact absurd same.symm (o.slots e he d hd)
    · exact absurd rfl h

/-- An L result is taken at a commit park where a younger S write shadows it or a younger result for the register (R68). -/
theorem taken_iff {g : Group} {q : Pend} :
    q.claim.taken (Sys2Proof.Machine.claims cls n l g.pend) cls n l g.parkEnts = true ↔
      ∃ p ∈ g.pend, p.write.covers cls n l = true ∧ q.seq ≤ p.seq ∧ g.shadowed p cls n l := by
  unfold Claim.taken
  rw [List.any_eq_true]
  constructor
  · rintro ⟨⟨b, e⟩, he, gone⟩
    rw [Bool.and_eq_true, Bool.not_eq_true', ← Bool.not_eq_true, Claim.survives_iff] at gone
    obtain ⟨puts, gone⟩ := gone
    push Not at gone
    obtain ⟨y, hy, yields, le⟩ := gone
    obtain ⟨p, hp, pc, rfl⟩ := mem_claims.1 hy
    rw [Claim.yields, Bool.and_eq_true, decide_eq_true_eq, Bool.or_eq_true, decide_eq_true_eq, decide_eq_true_eq] at yields
    exact ⟨p, hp, pc, le, b, e, mem_parkEnts.1 he, puts, yields.1, yields.2.symm.imp_right Eq.symm⟩
  · rintro ⟨p, hp, pc, le, b, e, he, puts, lt, side⟩
    refine ⟨(b, e), mem_parkEnts.2 he, ?_⟩
    rw [Bool.and_eq_true, Bool.not_eq_true', ← Bool.not_eq_true, Claim.survives_iff]
    refine ⟨puts, fun all => Nat.not_lt_of_le le (all p.claim (mem_claims.2 ⟨p, hp, pc, rfl⟩) ?_)⟩
    rw [Claim.yields, Bool.and_eq_true, decide_eq_true_eq, Bool.or_eq_true, decide_eq_true_eq, decide_eq_true_eq]
    exact ⟨lt, side.symm.imp_left Eq.symm⟩

theorem mem_claimsLeft {g : Group} {x : Claim} : x ∈ g.claimsLeft cls n l ↔
    ∃ q ∈ g.pend, q.write.covers cls n l = true ∧ (¬∃ p ∈ g.pend, p.write.covers cls n l = true ∧ q.seq ≤ p.seq ∧ g.shadowed p cls n l) ∧ q.claim = x := by
  unfold claimsLeft
  rw [List.mem_filter, mem_claims]
  constructor
  · rintro ⟨⟨q, hq, qc, rfl⟩, stays⟩
    exact ⟨q, hq, qc, fun h => (by rw [taken_iff.2 h] at stays; cases stays), rfl⟩
  · rintro ⟨q, hq, qc, stays, rfl⟩
    refine ⟨⟨q, hq, qc, rfl⟩, ?_⟩
    rw [Bool.not_eq_true', ← Bool.not_eq_true, taken_iff]
    exact stays

/-- The youngest of some claims in issue order is the last. -/
theorem getLast?_eq_of_youngest {cs : List Claim} (order : InOrder cs) {x : Claim} (hx : x ∈ cs) (young : ∀ y ∈ cs, y.seq ≤ x.seq) : cs.getLast? = some x := by
  obtain ⟨as, bs, rfl⟩ := List.append_of_mem hx
  cases bs with
  | nil => exact List.getLast?_concat
  | cons y bs =>
    have later := (List.pairwise_cons.1 (List.pairwise_append.1 order).2.1).1 y List.mem_cons_self
    exact absurd (young y (by simp)) (Nat.not_le_of_lt later)

/-- A commit park leaves a register the youngest L result that covers it, where no younger S write shadows that (R68). -/
theorem commit_seen_pend (hn : n < regCount cls) (hl : l < 32) (h63 : ¬(cls = .p ∧ n = 63)) {g : Group} (o : g.Ordered) {q : Pend} (hq : q ∈ g.pend)
    (qc : q.write.covers cls n l = true) (young : ∀ p ∈ g.pend, p.write.covers cls n l = true → p.seq ≤ q.seq) (clear : ¬g.shadowed q cls n l) :
    g.commit.seen cls n l = q.write.gives cls l := by
  have order := o.claims cls n l
  have left : q.claim ∈ g.claimsLeft cls n l := by
    refine mem_claimsLeft.2 ⟨q, hq, qc, ?_, rfl⟩
    rintro ⟨p, hp, pc, le, gone⟩
    have same : p.claim = q.claim :=
      order.eq_of_seq (mem_claims.2 ⟨p, hp, pc, rfl⟩) (mem_claims.2 ⟨q, hq, qc, rfl⟩) (Nat.le_antisymm (young p hp pc) le)
    obtain ⟨b, e, he, puts, lt, side⟩ := gone
    have hseq : p.seq = q.seq := congrArg Claim.seq same
    have hslot : p.slot1 = q.slot1 := congrArg Claim.slot1 same
    exact clear ⟨b, e, he, puts, hseq ▸ lt, hslot ▸ side⟩
  rw [commit_reads hn hl h63 g order, getLast?_eq_of_youngest (show InOrder (g.claimsLeft cls n l) from List.Pairwise.filter _ order) left]
  · rfl
  · intro y hy
    obtain ⟨p, hp, pc, -, rfl⟩ := mem_claimsLeft.1 hy
    exact young p hp pc

/-- Where every L result that covers a register is shadowed, or older than one that is, a commit park leaves the register to the windows (R68). -/
theorem commit_seen_of_taken (hn : n < regCount cls) (hl : l < 32) (h63 : ¬(cls = .p ∧ n = 63)) {g : Group} (o : g.Ordered)
    (gone : ∀ q ∈ g.pend, q.write.covers cls n l = true → ∃ p ∈ g.pend, p.write.covers cls n l = true ∧ q.seq ≤ p.seq ∧ g.shadowed p cls n l) :
    g.commit.seen cls n l = (g.bankEnts g.parkEnts).banked cls n (at_ cls l) := by
  have none : g.claimsLeft cls n l = [] := by
    rw [List.eq_nil_iff_forall_not_mem]
    intro x hx
    obtain ⟨q, hq, qc, stays, -⟩ := mem_claimsLeft.1 hx
    exact stays (gone q hq qc)
  rw [commit_reads hn hl h63 g (o.claims cls n l), none]
  rfl

/-- The youngest S write for a register is what the windows leave in it, unless a younger one is banked already (R67). -/
theorem parkEnts_banked (hn : n < regCount cls) (hl : l < 32) (h63 : ¬(cls = .p ∧ n = 63)) {g : Group} (o : g.Ordered) {b : Bool} {e : WinEnt}
    (he : e ∈ (g.slot b).win) {w : RegWrite} (hw : e.write = some w) (puts : e.puts cls n l = true)
    (young : ∀ c, ∀ d ∈ (g.slot c).win, d.puts cls n l = true → d.seq ≤ e.seq) :
    (g.bankEnts g.parkEnts).banked cls n (at_ cls l) = if g.lateAfter e.seq cls n l = true then g.banked cls n (at_ cls l) else w.gives cls l := by
  split
  next late => exact banked_bankEnts_of_not hn hl h63 _ g fun d hd dp => lateAfter_mono (young d.1 d.2 (mem_parkEnts.1 hd) dp) late
  next fresh =>
    refine banked_bankEnts hn hl h63 hw puts _ g (mem_parkEnts.2 he) (fun d hd dp => ?_) (Bool.not_eq_true _ ▸ fresh)
    have hd := mem_parkEnts.1 hd
    exact (Nat.lt_or_eq_of_le (young d.1 d.2 hd dp)).imp_right (o.eq_of_seq hd he)

/-- The windows leave a register that none of their entries puts anything in. -/
theorem parkEnts_banked_of_not (hn : n < regCount cls) (hl : l < 32) (h63 : ¬(cls = .p ∧ n = 63)) {g : Group}
    (out : ∀ b, ∀ e ∈ (g.slot b).win, e.puts cls n l = false) : (g.bankEnts g.parkEnts).banked cls n (at_ cls l) = g.banked cls n (at_ cls l) :=
  banked_bankEnts_of_not hn hl h63 _ g fun e he puts => by rw [out e.1 e.2 (mem_parkEnts.1 he)] at puts; cases puts

/-! The flags of results that return. -/

theorem fpflags_commitOne (g : Group) (p : Pend) : (g.commitOne p).fpflags = g.fpflags ||| p.flags := by
  have flags : (g.bankWrite p.write).fpflags = g.fpflags := (congrArg Group.fpflags (bankWrite_rest g p.write) : _)
  exact congrArg (· ||| p.flags) flags

theorem fpflags_commitOnes (k : Nat) : ∀ (ps : List Pend) (g : Group),
    (ps.foldl commitOne g).fpflags.getLsbD k = (g.fpflags.getLsbD k || ps.any fun p => p.flags.getLsbD k)
  | [], g => (Bool.or_false _).symm
  | p :: ps, g => by rw [List.foldl_cons, fpflags_commitOnes k ps, fpflags_commitOne, BitVec.getLsbD_or, List.any_cons, Bool.or_assoc]

theorem bankEnts_flags : ∀ (es : List (Bool × WinEnt)) (g : Group),
    (g.bankEnts es).fpflags = g.fpflags ∧ (g.bankEnts es).pend.map Pend.core = g.pend.map Pend.core
  | [], _ => ⟨rfl, rfl⟩
  | e :: es, g => by
    obtain ⟨flags, pend⟩ := bankEnts_flags es (g.bankEnt e.1 e.2)
    exact ⟨flags.trans (fpflags_bankEnt ..), pend.trans (pend_bankEnt ..)⟩

/-- A commit park adds the flags of the results that it writes (R35). -/
theorem fpflags_commit (g : Group) (k : Nat) :
    g.commit.fpflags.getLsbD k = (g.fpflags.getLsbD k || g.pend.any fun p => p.flags.getLsbD k) := by
  obtain ⟨flags, pend⟩ := bankEnts_flags g.parkEnts g
  have anyCore (ps : List Pend) : (ps.any fun p => p.flags.getLsbD k) = (ps.map Pend.core).any fun p => p.flags.getLsbD k := by
    rw [List.any_map]; rfl
  have folded := fpflags_commitOnes k g.bankAll.pend g.bankAll
  rw [bankAll_pend, show g.bankAll.fpflags = g.fpflags from flags, anyCore, pend, ← anyCore] at folded
  exact folded

end Group

end

end Sys2Proof.Machine
end
section
/-!
What an instruction reads from its slot's window, what a window that is full lets go, and what kill bits change (R67).
-/
set_option Elab.async false
namespace Sys2Proof.Machine
open Sys2Proof

/-- The instruction of a window entry wrote register `n` of a class in lane `l`, killed or not. -/
def WinEnt.wrote (cls : RClass) (n l : Nat) (e : WinEnt) : Bool := e.write.any fun w => w.covers cls n l

namespace Group

section
variable {cls : RClass} {n l : Nat}

/-- What a window gives a read is the value of its youngest write that covers the register. -/
theorem winFind_eq (es : List WinEnt) : winFind cls n (at_ cls l) es =
    (es.find? (WinEnt.wrote cls n l)).bind fun e => e.write.map fun w => w.val.get (at_ cls l) 0 := by
  induction es with
  | nil => rfl
  | cons e es ih =>
    rw [winFind_cons, List.find?_cons]
    unfold WinEnt.wrote at ih ⊢
    cases he : e.write with
    | none => exact ih
    | some w =>
      cases cover : w.covers cls n l with
      | true => simp [cover, he]
      | false => simpa [cover] using ih

theorem seen_of_wrote (hn : n < regCount cls) (h63 : ¬(cls = .p ∧ n = 63)) {g : Group} {e : WinEnt} {w : RegWrite}
    (he : g.me.win.find? (WinEnt.wrote cls n l) = some e) (hw : e.write = some w) : g.seen cls n l = w.gives cls l := by
  rw [seen_eq _ _ _ _ hn, if_neg h63, winFind_eq, he, Option.bind_some, hw]
  rfl

theorem seen_of_not_wrote (hn : n < regCount cls) (h63 : ¬(cls = .p ∧ n = 63)) {g : Group} (he : g.me.win.find? (WinEnt.wrote cls n l) = none) :
    g.seen cls n l = g.banked cls n (at_ cls l) := by
  rw [seen_eq _ _ _ _ hn, if_neg h63, winFind_eq, he]
  exact norm_banked ..

/-- A window after an instruction joins it: that one, and the seven before it. -/
theorem pushWin_win (g : Group) (w : Option RegWrite) : (g.pushWin w).me.win = ({ seq := g.seq, write := w } : WinEnt) :: g.me.win.take 7 := by
  obtain ⟨-, -, -, -, -, me, -⟩ := pushWin_spec g w
  rw [me]
  rfl

/-- The youngest write of the window after an instruction that does not write the register joins it. -/
theorem pushWin_find {w : Option RegWrite} (out : ∀ v, w = some v → v.covers cls n l = false) (g : Group) :
    (g.pushWin w).me.win.find? (WinEnt.wrote cls n l) = (g.me.win.take 7).find? (WinEnt.wrote cls n l) := by
  have new : WinEnt.wrote cls n l { seq := g.seq, write := w } = false := by
    unfold WinEnt.wrote
    cases w with
    | none => rfl
    | some v => exact out v rfl
  rw [pushWin_win, List.find?_cons, new]

/-- The register file after an instruction joins a window: that of the group with the entry that leaves the window banked. -/
theorem banked_pushWin_of_full {g : Group} {e : WinEnt} (he : g.me.win[7]? = some e) (w : Option RegWrite) (k : Nat) :
    ∃ h : Group, h.late = g.late ∧ (∀ m, h.banked cls n m = g.banked cls n m) ∧ (g.pushWin w).banked cls n k = (h.bankEnt g.sel1 e).banked cls n k := by
  refine ⟨g.setMe { g.me with win := (({ seq := g.seq, write := w } : WinEnt) :: g.me.win).take 8 }, by simp, fun _ => banked_setMe .., ?_⟩
  unfold pushWin
  simp only [List.getElem?_cons_succ, he, banked_pruneLate]

theorem banked_pushWin_of_room {g : Group} (he : g.me.win[7]? = none) (w : Option RegWrite) (k : Nat) :
    (g.pushWin w).banked cls n k = g.banked cls n k := by
  unfold pushWin
  simp only [List.getElem?_cons_succ, he, banked_setMe]

theorem lateAfter_congr {g h : Group} (same : h.late = g.late) (seq : Nat) : h.lateAfter seq cls n l = g.lateAfter seq cls n l := by
  unfold lateAfter; rw [same]

/-- The write that leaves a full window reaches the register file unless it is killed, or a younger one is banked already (R67). -/
theorem banked_pushWin (hn : n < regCount cls) (hl : l < 32) (h63 : ¬(cls = .p ∧ n = 63)) {g : Group} {e : WinEnt} (he : g.me.win[7]? = some e)
    {v : RegWrite} (hv : e.write = some v) (cover : v.covers cls n l = true) (w : Option RegWrite) :
    (g.pushWin w).banked cls n (at_ cls l) =
      if e.killed = true ∨ g.lateAfter e.seq cls n l = true then g.banked cls n (at_ cls l) else v.gives cls l := by
  obtain ⟨h, late, file, eq⟩ := banked_pushWin_of_full (cls := cls) (n := n) he w (at_ cls l)
  have puts : e.puts cls n l = !e.killed := by rw [WinEnt.puts, hv, Option.any_some, cover, Bool.and_true]
  rw [eq, banked_bankEnt hn hl h63 h g.sel1 hv, file, lateAfter_congr late, puts]
  by_cases out : e.killed = true ∨ g.lateAfter e.seq cls n l = true
  · rw [if_pos out, if_neg]
    rintro ⟨kept, fresh⟩
    rcases out with k | k
    · rw [k] at kept; cases kept
    · rw [k] at fresh; cases fresh
  · rw [if_neg out, if_pos]
    · rfl
    · rw [not_or, Bool.not_eq_true, Bool.not_eq_true] at out
      exact ⟨by rw [out.1]; rfl, out.2⟩

/-- An entry that leaves a full window leaves the registers that it did not write. -/
theorem banked_pushWin_of_not (hn : n < regCount cls) (hl : l < 32) (h63 : ¬(cls = .p ∧ n = 63)) {g : Group}
    (out : ∀ e, g.me.win[7]? = some e → e.wrote cls n l = false) (w : Option RegWrite) :
    (g.pushWin w).banked cls n (at_ cls l) = g.banked cls n (at_ cls l) := by
  cases he : g.me.win[7]? with
  | none => exact banked_pushWin_of_room he w _
  | some e =>
    obtain ⟨h, -, file, eq⟩ := banked_pushWin_of_full (cls := cls) (n := n) he w (at_ cls l)
    rw [eq, banked_bankEnt_of_not hn hl h63 h g.sel1 fun puts => ?_, file]
    have := out e he
    unfold WinEnt.wrote at this
    rw [WinEnt.puts, this, Bool.and_false] at puts
    cases puts

end

/-! ### Kill bits -/

/-- A kill marks the writes that `f` picks. -/
def marked (f : RegWrite → Bool) (e : WinEnt) : WinEnt := { e with killed := e.killed || e.write.any f }

theorem marked_none (e : WinEnt) : marked (fun _ => false) e = e := by
  unfold marked
  cases he : e.write <;> simp [← he]

theorem marked_marked (f k : RegWrite → Bool) (e : WinEnt) : marked k (marked f e) = marked (fun w => f w || k w) e := by
  unfold marked
  cases e.write <;> simp [Bool.or_assoc]

/-- A group whose issuing slot's window has had the writes killed that `f` picks. -/
def KillsAll (f : RegWrite → Bool) (g h : Group) : Prop := h = g.setMe { g.me with win := g.me.win.map (marked f) }

theorem KillsAll.none (g : Group) : KillsAll (fun _ => false) g g := by
  unfold KillsAll
  rw [List.map_congr_left (fun e _ => marked_none e), List.map_id']
  exact (setMe_me g).symm

theorem KillsAll.then {f k : RegWrite → Bool} {g h i : Group} (a : KillsAll f g h) (b : KillsAll k h i) : KillsAll (fun w => f w || k w) g i := by
  unfold KillsAll at a b ⊢
  subst a
  rw [b, me_setMe, setMe_setMe, List.map_map]
  exact congrArg (fun win => g.setMe { g.me with win }) (List.map_congr_left fun e _ => marked_marked f k e)

theorem killReg_all (g : Group) (cls : RClass) (n : Nat) : KillsAll (fun w => w.cls = cls && w.reg = n) g (g.killReg cls n) := by
  refine congrArg (fun win => g.setMe { g.me with win }) (List.map_congr_left fun e _ => ?_)
  obtain ⟨seq, write, killed⟩ := e
  unfold marked
  cases write with
  | none => simp
  | some w => by_cases hit : w.cls = cls ∧ w.reg = n <;> simp [hit]

/-- The registers that a killed operand kills: those that it spans (R67). -/
def spans (idx : Bool) (o : Opnd) (x : BitVec 16) (k : Nat) (w : RegWrite) : Bool :=
  w.cls = o.cls && decide (idxReg idx o.num x ≤ w.reg) && decide (w.reg < idxReg idx o.num x + k)

theorem KillsAll.x {f : RegWrite → Bool} {g h : Group} (k : KillsAll f g h) : h.x = g.x := by rw [k, setMe_x]

theorem killSpan_all (idx : Bool) (o : Opnd) (g : Group) (k : Nat) :
    KillsAll (spans idx o g.x k) g ((List.range k).foldl (fun h j => h.killReg o.cls (idxReg idx o.num h.x + j)) g) := by
  induction k with
  | zero =>
    have empty : spans idx o g.x 0 = fun _ => false := by
      funext w
      unfold spans
      rw [Bool.eq_false_iff]
      simp only [ne_eq, Bool.and_eq_true, decide_eq_true_eq]
      rintro ⟨⟨-, le⟩, lt⟩
      omega
    rw [empty]
    exact .none g
  | succ k ih =>
    have more : spans idx o g.x (k + 1) = fun w => spans idx o g.x k w || (w.cls = o.cls && w.reg = idxReg idx o.num g.x + k) := by
      funext w
      unfold spans
      rw [Bool.eq_iff_iff]
      simp only [Bool.or_eq_true, Bool.and_eq_true, decide_eq_true_eq]
      by_cases same : w.cls = o.cls
      · simp only [same, true_and]; omega
      · simp only [same, false_and, or_false]
    rw [more, List.range_succ, List.foldl_append]
    refine ih.then ?_
    rw [← ih.x]
    exact killReg_all ..

/-- The writes that an operand's kill bit ends: those of the registers that it spans. -/
def named (idx : Bool) (o : Option Opnd) (x : BitVec 16) (w : RegWrite) : Bool :=
  match o with
  | some o => o.kill && w.cls = o.cls && decide (idxReg idx o.num x ≤ w.reg) && decide (w.reg < idxReg idx o.num x + o.span)
  | none => false

theorem killOpnd_all (g : Group) (idx : Bool) (o : Option Opnd) : KillsAll (named idx o g.x) g (g.killOpnd idx o) := by
  cases o with
  | none => exact .none g
  | some o =>
    cases kill : o.kill with
    | false =>
      have : named idx (some o) g.x = fun _ => false := by funext w; simp [named, kill]
      rw [this, killOpnd, kill]
      exact .none g
    | true =>
      have : named idx (some o) g.x = spans idx o g.x o.span := by funext w; simp [named, spans, kill]
      rw [this, killOpnd, kill]
      exact killSpan_all idx o g o.span

/-- The kill bits of an instruction mark the writes of the registers that its first two operands name, and do no more (R67). -/
theorem kills_all (g : Group) (i : Instr) (c : Ctl) (x : BitVec 16) :
    KillsAll (fun w => named c.idxA i.operands.a x w || named c.idxB i.operands.b x w) g (g.kills i c x) := by
  have first := killOpnd_all { g with x := x } c.idxA i.operands.a
  have keeps : ({ g with x := x }.killOpnd c.idxA i.operands.a).x = x := by rw [first]; simp
  have second := killOpnd_all ({ g with x := x }.killOpnd c.idxA i.operands.a) c.idxB i.operands.b
  rw [keeps] at second
  have both := first.then second
  unfold KillsAll at both ⊢
  refine (congrArg (fun h : Group => { h with x := g.x }) both).trans ?_
  simp only [setMe, setSlot, me, slot]
  cases g.sel1 <;> rfl

theorem KillsAll.win {f : RegWrite → Bool} {g h : Group} (k : KillsAll f g h) : h.me.win = g.me.win.map (marked f) := by
  rw [k, me_setMe]

theorem KillsAll.setMe_me {f : RegWrite → Bool} {g h : Group} (k : KillsAll f g h) : h.setMe g.me = g := by
  rw [k, setMe_setMe, Group.setMe_me]

/-- A kill changes no read (R67). -/
theorem KillsAll.seen {f : RegWrite → Bool} {g h : Group} (k : KillsAll f g h) (cls : RClass) (n l : Nat) : h.seen cls n l = g.seen cls n l := by
  have same : writes (g.me.win.map (marked f)) = writes g.me.win := by rw [writes, List.map_map]; rfl
  have reads (c : RClass) (n l : Nat) : h.read c n l = g.read c n l := by
    unfold read
    rw [k, me_setMe]
    simp only [winFind_writes c n _ _ _ same, banked_setMe]
  cases cls <;> simp [Group.seen, readV, readS, readP, reads]

end Group

end Sys2Proof.Machine
end
section
/-!
The events of a group: its commit park, a trap that waits, the end of its grace window, and its own end (R36, R66, R109, R370).
-/
set_option Elab.async false
namespace Sys2Proof.Machine
open Sys2Proof

namespace State

/-! ### A group by its key -/

theorem find?_upd {id : Nat} {f : Group → Group} (keep : ∀ g, (f g).id = g.id) (gs : List Group) :
    (gs.map fun g => if g.id = id then f g else g).find? (fun g => g.id = id) = (gs.find? fun g => g.id = id).map f := by
  induction gs with
  | nil => rfl
  | cons g gs ih =>
    rw [List.map_cons, List.find?_cons, List.find?_cons]
    by_cases h : g.id = id
    · simp [h, keep]
    · simpa [h] using ih

/-- A group that is changed, under its own key. -/
theorem group?_updGroup {s : State} {id : Nat} {g : Group} (hg : s.group? id = some g) {f : Group → Group} (keep : ∀ g, (f g).id = g.id) :
    (s.updGroup id f).group? id = some (f g) := by
  unfold group? at hg
  unfold updGroup
  by_cases cur : s.cur.id = id
  · rw [if_pos cur] at hg ⊢
    rw [group?, if_pos ((keep _).trans cur), Option.some.inj hg]
  · rw [if_neg cur] at hg ⊢
    rw [group?, if_neg cur]
    simp only [find?_upd keep]
    cases here : s.groups.find? (fun g => g.id = id) with
    | some h => rw [here] at hg; exact congrArg (Option.map f) hg
    | none => rw [here] at hg; exact congrArg (Option.map f) hg

@[simp] theorem updGroup_mem (s : State) (id : Nat) (f : Group → Group) : (s.updGroup id f).mem = s.mem := by unfold updGroup; split <;> rfl
@[simp] theorem updGroup_vfs (s : State) (id : Nat) (f : Group → Group) : (s.updGroup id f).vfs = s.vfs := by unfold updGroup; split <;> rfl

@[simp] theorem parkEnd_savedGroups (s : State) (id wg : Nat) : (s.parkEnd id wg).savedGroups = s.savedGroups :=
  (congrArg (fun x : State => x.savedGroups) (parkEnd_rest s id wg) : _)
@[simp] theorem parkEnd_mem (s : State) (id wg : Nat) : (s.parkEnd id wg).mem = s.mem :=
  (congrArg (fun x : State => x.mem) (parkEnd_rest s id wg) : _)
@[simp] theorem parkEnd_group? (s : State) (id wg k : Nat) : (s.parkEnd id wg).group? k = s.group? k := by
  simp only [group?, parkEnd_cur, parkEnd_groups, parkEnd_savedGroups]

end State

/-! ### Stops -/

/-- A group where its stop request, if it has one, finds it (R370, R395). -/
def Group.atStop (g : Group) : Group :=
  match g.stop with
  | none => g
  | some .endGroup => if g.gone then g else { g with ended := true, stop := none, stopped := none, halt := none, pendTrap := none, pageWait := none }
  | some .save =>
    if g.ended || g.gone || g.stopped.isSome then g
    else match g.boundary with
      | some full => { g with stopped := some full }
      | none => g

namespace State

theorem tryStop_eq (s : State) (id : Nat) : s.tryStop id = s.updGroup id Group.atStop := rfl

@[simp] theorem tryStop_mem (s : State) (id : Nat) : (s.tryStop id).mem = s.mem := updGroup_mem ..

end State

namespace Group

theorem atStop_id (g : Group) : g.atStop.id = g.id := by
  unfold atStop
  repeat' split
  all_goals rfl

theorem atStop_of_none {g : Group} (h : g.stop = none) : g.atStop = g := by unfold atStop; rw [h]

/-- A group with a request to be saved stops where it stands at a boundary (R370). -/
theorem atStop_of_save {g : Group} (h : g.stop = some .save) (live : g.ended = false) (here : g.gone = false) (runs : g.stopped = none) :
    g.atStop.stopped = g.boundary ∧ g.atStop.grace = g.grace := by
  unfold atStop
  rw [h, live, here, runs]
  cases at_ : g.boundary with
  | none => exact ⟨runs, rfl⟩
  | some full => exact ⟨rfl, rfl⟩

@[simp] theorem commit_stop (g : Group) : g.commit.stop = g.stop :=
  (congrArg Group.stop g.commit_banked.eq : (g.commit.wear g.emptied).stop = g.emptied.stop)
@[simp] theorem trapCommit_stop (g : Group) : g.trapCommit.stop = g.stop :=
  (congrArg Group.stop g.trapCommit_banked.eq : (g.trapCommit.wear _).stop = _)

end Group

/-! ### The commit park of a group -/

/-- A slot whose wait for a commit park is over. -/
def Slot.unpark (t : Slot) : Slot := if t.parking then { t with parking := false, parked := true } else t

theorem Slot.unpark_parking (t : Slot) : t.unpark.parking = false := by
  unfold unpark
  split
  next => rfl
  next h => exact Bool.not_eq_true _ ▸ h

theorem Slot.unpark_win (t : Slot) : t.unpark.win = t.win := by unfold unpark; split <;> rfl

theorem Slot.unpark_parked {t : Slot} (h : t.parking = true) : t.unpark.parked = true := by unfold unpark; rw [if_pos h]

/-- A group whose commit park has been taken for the slots that wait for it (R66). -/
def Group.parkTaken (g : Group) : Group := { g.commit with slot0 := g.commit.slot0.unpark, slot1 := g.commit.slot1.unpark }

namespace Group

theorem parkTaken_id (g : Group) : g.parkTaken.id = g.id := g.commit_id
theorem parkTaken_stop (g : Group) : g.parkTaken.stop = g.stop := g.commit_stop
theorem parkTaken_pend (g : Group) : g.parkTaken.pend = [] := g.commit_pend

theorem parkTaken_win (g : Group) : g.parkTaken.slot0.win = [] ∧ g.parkTaken.slot1.win = [] := by
  unfold parkTaken
  exact ⟨(Slot.unpark_win _).trans (by rw [commit_slot0]), (Slot.unpark_win _).trans (by rw [commit_slot1])⟩

theorem parkTaken_parked (g : Group) : (g.slot0.parking = true → g.parkTaken.slot0.parked = true) ∧ (g.slot1.parking = true → g.parkTaken.slot1.parked = true) :=
  ⟨fun h => Slot.unpark_parked (by rw [commit_slot0]; exact h), fun h => Slot.unpark_parked (by rw [commit_slot1]; exact h)⟩

theorem parkTaken_seen (g : Group) (cls : RClass) (n l : Nat) : g.parkTaken.seen cls n l = g.commit.seen cls n l := by
  refine seen_congr (g := g.commit) (h := g.parkTaken) ?_ rfl rfl rfl cls n l
  obtain ⟨win0, win1⟩ := g.parkTaken_win
  have taken : g.parkTaken.me.win = [] := by unfold me slot; split <;> assumption
  rw [taken, me, slot_commit]

end Group

/-- A commit park of a group whose results have all returned is taken (R66). -/
theorem execCommitPark_taken {s : State} {gid : Nat} {g : Group} (hg : s.group? gid = some g) (home : s.away gid = false) (ret : g.returned = true)
    (park : g.slot0.parking = true ∨ g.slot1.parking = true) :
    execCommitPark gid s = .next (((s.updGroup gid Group.parkTaken).parkEnd gid g.wg).tryStop gid) := by
  have waits : (g.slot0.parking || g.slot1.parking) = true := by simpa using park
  unfold execCommitPark
  rw [hg]
  simp only [waits, ret, home]
  rfl

/-! ### A trap that waits -/

/-- A trap of a group with a handler that waits is delivered to it once every result has returned (R36, R66). -/
theorem execTrapDelivery_delivers {s : State} {gid : Nat} {g : Group} {r : TrapRec} (hg : s.group? gid = some g) (home : s.away gid = false)
    (ret : g.returned = true) (trap : g.pendTrap = some r) (user : g.priv = .u) (handler : g.trapvec ≠ 0)
    (free : ¬(r.cause = .debug ∧ (s.vf g.vf).att = true)) :
    execTrapDelivery gid s =
      .next ((((s.updGroup gid Group.trapCommit).parkEnd gid g.wg).updGroup gid fun h => h.toHandler r).tryStop gid) := by
  have parked : (s.updGroup gid Group.trapCommit).group? gid = some g.trapCommit := State.group?_updGroup hg Group.trapCommit_id
  have att : ((((s.updGroup gid Group.trapCommit).parkEnd gid g.wg).vf g.vf)) = s.vf g.vf := by
    simp only [State.vf, State.parkEnd_vfs, State.updGroup_vfs]
  have hands : s.deliver gid r = ((s.updGroup gid Group.trapCommit).parkEnd gid g.wg).updGroup gid fun h => h.toHandler r := by
    unfold State.deliver
    rw [show (fun h : Group => ({ h.commit with pendTrap := none, pageWait := none } : Group)) = Group.trapCommit from rfl]
    simp only [parked, Group.trapCommit_wg, Group.trapCommit_vf, Group.trapCommit_priv, Group.trapCommit_trapvec]
    rw [show ((s.updGroup gid Group.trapCommit).publishW gid g.wg).finishAllocs gid g.wg = (s.updGroup gid Group.trapCommit).parkEnd gid g.wg from rfl,
      att, if_neg (by simpa using free), if_pos (by simpa [user] using handler)]
  unfold execTrapDelivery
  rw [hg]
  simp only [trap, ret, home]
  exact congrArg (fun t : State => (.next (t.tryStop gid) : Out)) hands

namespace Group

theorem toHandler_id (g : Group) (r : TrapRec) : (g.toHandler r).id = g.id := by simp [toHandler, trapRegs]
theorem toHandler_stop (g : Group) (r : TrapRec) : (g.toHandler r).stop = g.stop := by simp [toHandler, trapRegs]

/-- What a group that goes to its handler holds (R36). -/
theorem toHandler_regs (g : Group) (r : TrapRec) :
    (g.toHandler r).pendTrap = g.pendTrap ∧ (g.toHandler r).priv = .s ∧ (g.toHandler r).trapcause = bit r.slot1 ++ r.cause.code ∧
    (g.toHandler r).trappc = r.pc ∧ (g.toHandler r).trapaddr = r.addr ∧ ((g.toHandler r).slot r.slot1).pc = g.trapvec.setWidth 32 := by
  refine ⟨?_, ?_, ?_, ?_, ?_, ?_⟩ <;> simp [toHandler, trapRegs]

end Group

/-! ### The end of a grace window -/

/-- A group whose grace window ends: one that is asked to be saved may stop (R370). -/
def Group.graceOver (g : Group) : Group := if g.stop = some .save then { g with grace := true } else g

theorem Group.graceOver_id (g : Group) : g.graceOver.id = g.id := by unfold graceOver; split <;> rfl

theorem execGraceExpiry_eq (gid : Nat) (s : State) : execGraceExpiry gid s = .next ((s.updGroup gid Group.graceOver).tryStop gid) := rfl

/-- Settles O36: a commit park by the claims on a register that S writes leave (R68), the window by its youngest write (R67), the events of a group by what each
does to the group under its key. -/
theorem groupEvents : Obligations.GroupEvents := by
  unfold Obligations.GroupEvents
  refine ⟨⟨?commits, ?flags, ?window, ?killed⟩, ?park, ?trap, ?grace, ?leaves⟩
  case commits =>
    intro g cls n l o hn hl h63
    refine ⟨fun q hq qc young clear => Group.commit_seen_pend hn hl h63 o hq qc young clear, fun gone => ?_⟩
    rw [Group.commit_seen_of_taken hn hl h63 o gone]
    exact ⟨fun b e he w hw puts young => Group.parkEnts_banked hn hl h63 o he hw puts young, Group.parkEnts_banked_of_not hn hl h63⟩
  case flags =>
    intro g
    exact ⟨g.commit_pend, by rw [Group.commit_slot0], by rw [Group.commit_slot1], g.fpflags_commit⟩
  case window =>
    intro g w cls n l _ hn hl h63 covering file
    refine ⟨fun e he v hv => Group.seen_of_wrote hn h63 he hv, Group.seen_of_not_wrote hn h63, ?_, fun out => ⟨fun e v he hv => ?_, fun none => ?_⟩⟩
    · rintro v rfl cover
      exact Group.seen_pushWin_own g v cls n l hn h63 cover
    · exact Group.seen_of_wrote hn h63 ((Group.pushWin_find out g).trans he) hv
    · rw [Group.seen_of_not_wrote hn h63 ((Group.pushWin_find out g).trans none)]
      exact ⟨fun e v he hv cover => Group.banked_pushWin hn hl h63 he hv cover w, fun clear => Group.banked_pushWin_of_not hn hl h63 clear w⟩
  case killed =>
    intro g i c x names
    have kill := g.kills_all i c x
    exact ⟨kill.setMe_me, kill.seen, kill.win⟩
  case park =>
    intro s gid g hg home ret park calm
    obtain ⟨win0, win1⟩ := g.parkTaken_win
    obtain ⟨parked0, parked1⟩ := g.parkTaken_parked
    have taken : ((s.updGroup gid Group.parkTaken).parkEnd gid g.wg).group? gid = some g.parkTaken := by
      rw [State.parkEnd_group?, State.group?_updGroup hg Group.parkTaken_id]
    have after := State.group?_updGroup taken Group.atStop_id
    rw [Group.atStop_of_none (g.parkTaken_stop.trans calm)] at after
    exact ⟨_, execCommitPark_taken hg home ret park, by simp, _, after, Slot.unpark_parking _, Slot.unpark_parking _, g.parkTaken_pend, win0, win1, parked0,
      parked1, g.parkTaken_seen⟩
  case trap =>
    intro s gid g r hg home ret trap user handler free calm
    obtain ⟨idle, priv, cause, pc, addr, at_⟩ := g.trapCommit.toHandler_regs r
    have parked : ((s.updGroup gid Group.trapCommit).parkEnd gid g.wg).group? gid = some g.trapCommit := by
      rw [State.parkEnd_group?, State.group?_updGroup hg Group.trapCommit_id]
    have after := State.group?_updGroup (State.group?_updGroup parked (fun h => h.toHandler_id r)) Group.atStop_id
    rw [Group.atStop_of_none ((Group.toHandler_stop ..).trans (g.trapCommit_stop.trans calm))] at after
    exact ⟨_, execTrapDelivery_delivers hg home ret trap user handler free, by simp, _, after, idle, priv, cause, pc, addr, g.trapCommit_trapvec ▸ at_⟩
  case grace =>
    intro s gid g hg save live here runs
    have expired : g.graceOver = { g with grace := true } := if_pos save
    have after := State.group?_updGroup (State.group?_updGroup hg Group.graceOver_id) Group.atStop_id
    obtain ⟨stops, grace⟩ := Group.atStop_of_save (g := { g with grace := true }) save live here runs
    rw [expired] at after
    exact ⟨_, _, execGraceExpiry_eq gid s, after, grace, stops, by simp⟩
  case leaves =>
    intro s gid g hg home ended here load copy filt ray
    show execGroupEnd gid s = _
    unfold execGroupEnd
    rw [hg]
    simp only [ended, here, home, load, copy, filt, ray]
    rfl

end Sys2Proof.Machine
end

section
/-!
Powers of two, rounding to an integer, and the magnitudes that a format's encodings stand for (R77, R80).
-/
set_option Elab.async false
namespace Sys2Proof.Machine
open Sys2Proof

/-! ### Powers of two -/

@[simp] theorem pow2_eq_zpow (e : Int) : pow2 e = (2 : Rat) ^ e := by
  unfold pow2
  split
  case isTrue h =>
    obtain ⟨n, rfl⟩ := Int.eq_ofNat_of_zero_le h
    simp
  case isFalse h =>
    obtain ⟨n, hn⟩ := Int.eq_ofNat_of_zero_le (by omega : 0 ≤ -e)
    obtain rfl : e = -n := by omega
    simp

theorem mul_den_eq_natAbs {q : Rat} (hq : 0 ≤ q) : q * q.den = q.num.natAbs := by
  rw [Rat.mul_den_eq_num, Nat.cast_natAbs, abs_of_nonneg (Rat.num_nonneg.mpr hq)]

/-- A quotient of naturals lies within a factor of two of the quotient of their leading powers of two. -/
theorem ilog2_spec {q : Rat} (hq : 0 < q) : (2 : Rat) ^ ilog2 q ≤ q ∧ q < 2 ^ (ilog2 q + 1) := by
  set a := Nat.log2 q.num.natAbs with ha
  set b := Nat.log2 q.den with hb
  have num0 : q.num.natAbs ≠ 0 := by simpa using hq.ne'
  have numLe : (2 : Rat) ^ a ≤ q.num.natAbs := by exact_mod_cast Nat.log2_self_le num0
  have numLt : (q.num.natAbs : Rat) < 2 ^ (a + 1) := by exact_mod_cast Nat.lt_log2_self (n := q.num.natAbs)
  have denLe : (2 : Rat) ^ b ≤ q.den := by exact_mod_cast Nat.log2_self_le q.den_nz
  have denLt : (q.den : Rat) < 2 ^ (b + 1) := by exact_mod_cast Nat.lt_log2_self (n := q.den)
  have den0 : (0 : Rat) < q.den := by exact_mod_cast q.den_pos
  have ratio := mul_den_eq_natAbs hq.le
  have lower : (2 : Rat) ^ ((a : Int) - b - 1) < q := by
    rw [zpow_sub₀ two_ne_zero, zpow_sub₀ two_ne_zero, div_div, div_lt_iff₀ (by positivity)]
    simp only [zpow_natCast, zpow_one]
    rw [pow_succ] at denLt
    nlinarith
  have upper : q < (2 : Rat) ^ ((a : Int) - b + 1) := by
    rw [zpow_add₀ two_ne_zero, zpow_sub₀ two_ne_zero, div_mul_eq_mul_div, lt_div_iff₀ (by positivity)]
    simp only [zpow_natCast, zpow_one]
    rw [pow_succ] at numLt
    nlinarith
  unfold ilog2
  simp only [pow2_eq_zpow, ← ha, ← hb]
  split
  case isTrue h => exact ⟨h, upper⟩
  case isFalse h => exact ⟨lower.le, by simpa using lt_of_not_ge h⟩

theorem ilog2_eq_of_bounds {q : Rat} {e : Int} (lo : (2 : Rat) ^ e ≤ q) (hi : q < 2 ^ (e + 1)) : ilog2 q = e := by
  obtain ⟨le, lt⟩ := ilog2_spec (lt_of_lt_of_le (by positivity) lo)
  have h1 : e < ilog2 q + 1 := (zpow_lt_zpow_iff_right₀ one_lt_two).mp (lo.trans_lt lt)
  have h2 : ilog2 q < e + 1 := (zpow_lt_zpow_iff_right₀ one_lt_two).mp (le.trans_lt hi)
  omega

theorem ilog2_le_of_lt {q : Rat} {e : Int} (hq : 0 < q) (h : q < 2 ^ (e + 1)) : ilog2 q ≤ e := by
  have : ilog2 q < e + 1 := (zpow_lt_zpow_iff_right₀ one_lt_two).mp ((ilog2_spec hq).1.trans_lt h)
  omega

/-! ### Rounding to an integer (R80) -/

theorem takesUpper_mul {m : Rounding} {neg odd : Bool} {lo hi q c : Rat} (hc : 0 < c) :
    takesUpper m neg odd (lo * c) (hi * c) (q * c) = takesUpper m neg odd lo hi q := by
  have sum : lo * c + hi * c = (lo + hi) * c := by ring
  have twice : 2 * (q * c) = 2 * q * c := by ring
  cases m <;> simp [takesUpper, sum, twice, hc, hc.ne']

/-- A lower neighbour farther away makes the upper one no farther. -/
theorem takesUpper_of_lower {m : Rounding} {neg odd odd' : Bool} {lo lo' hi q : Rat} (h : lo' < lo) (up : takesUpper m neg odd lo hi q = true) :
    takesUpper m neg odd' lo' hi q = true := by
  cases m <;> simp only [takesUpper, Bool.or_eq_true, Bool.and_eq_true, decide_eq_true_eq] at up ⊢
  case rne =>
    left
    rcases up with up | ⟨up, -⟩ <;> linarith
  case rna => linarith
  all_goals exact up

theorem roundNat_picks (m : Rounding) (neg : Bool) {q : Rat} (hq : 0 ≤ q) : Picks m neg q (roundNat m neg q) := by
  intro n lo hi
  have den0 : (0 : Rat) < q.den := by exact_mod_cast q.den_pos
  have ratio := mul_den_eq_natAbs hq
  have floor : q.num.natAbs / q.den = n := by
    have le : (n : Rat) * q.den ≤ q.num.natAbs := by rw [← ratio]; gcongr
    have lt : (q.num.natAbs : Rat) < (n + 1) * q.den := by rw [← ratio]; gcongr
    exact Nat.div_eq_of_lt_le (by exact_mod_cast le) (by exact_mod_cast lt)
  obtain ⟨r, hr⟩ : ∃ r, q.num.natAbs % q.den = r := ⟨_, rfl⟩
  have split : q * q.den = n * q.den + r := by
    rw [ratio, ← floor, ← hr]
    exact_mod_cast (Nat.div_add_mod' q.num.natAbs q.den).symm
  have whole : q = n ↔ r = 0 := by
    rw [← mul_left_inj' den0.ne', split]
    simp
  have compare : 2 * q - (n + (n + 1)) = (2 * r - q.den) / q.den := by
    rw [eq_div_iff den0.ne']
    linear_combination 2 * split
  have above : (n : Rat) + (n + 1) < 2 * q ↔ q.den < 2 * r := by
    rw [← sub_pos, compare, div_pos_iff_of_pos_right den0, sub_pos]
    exact_mod_cast Iff.rfl
  have middle : (n : Rat) + (n + 1) = 2 * q ↔ 2 * r = q.den := by
    rw [eq_comm, ← sub_eq_zero, compare, div_eq_zero_iff, or_iff_left den0.ne', sub_eq_zero]
    exact_mod_cast Iff.rfl
  have pos := q.den_pos
  have atLeast : (n : Rat) + (n + 1) ≤ 2 * q ↔ q.den ≤ 2 * r := by
    rw [le_iff_lt_or_eq, above, middle]
    omega
  unfold roundNat
  simp only [floor, hr]
  cases m <;> simp only [takesUpper, ne_eq, whole, above, middle, atLeast]
  case rz => simp
  case rdn => simp [and_comm]
  case rup => simp [and_comm]
  case rna =>
    simp only [ge_iff_le, decide_eq_true_eq]
    exact if_congr (by omega) rfl rfl
  case rne =>
    rcases lt_trichotomy (2 * r) q.den with h | h | h
    · simp [h.ne, h.not_gt]
    · have : r ≠ 0 := by omega
      simp [h, this]
    · have : r ≠ 0 := by omega
      simp [h, this]

theorem roundNat_le (m : Rounding) (neg : Bool) {q : Rat} {n : Nat} (hq : 0 ≤ q) (h : q ≤ n) : roundNat m neg q ≤ n := by
  have pick := roundNat_picks m neg hq ⌊q⌋₊ (Nat.floor_le hq) (Nat.lt_floor_add_one q)
  have floor : ⌊q⌋₊ ≤ n := Nat.floor_le_of_le h
  split at pick
  case isTrue up =>
    have : (⌊q⌋₊ : Rat) < n := ((Nat.floor_le hq).lt_of_ne up.1.symm).trans_le h
    have : ⌊q⌋₊ < n := by exact_mod_cast this
    omega
  case isFalse => omega

/-! ### Magnitudes of encodings (R77) -/

namespace Fmt

/-- The significand of an encoding, as an integer. -/
def sig (f : Fmt) (b : Nat) : Nat := if b < 2 ^ f.mbits then b else 2 ^ f.mbits + b % 2 ^ f.mbits

/-- The exponent of the last bit of an encoding's significand. -/
def unitExp (f : Fmt) (b : Nat) : Int := max ((b / 2 ^ f.mbits : Nat) : Int) 1 - f.bias - f.mbits

theorem sig_of_subnormal {f : Fmt} {b : Nat} (h : b < 2 ^ f.mbits) : f.sig b = b := if_pos h

theorem unitExp_of_subnormal {f : Fmt} {b : Nat} (h : b < 2 ^ f.mbits) : f.unitExp b = 1 - f.bias - f.mbits := by
  simp [unitExp, Nat.div_eq_of_lt h]

theorem sig_of_normal {f : Fmt} {b : Nat} (h : 2 ^ f.mbits ≤ b) : f.sig b = 2 ^ f.mbits + b % 2 ^ f.mbits := if_neg h.not_gt

theorem unitExp_of_normal {f : Fmt} {b : Nat} (h : 2 ^ f.mbits ≤ b) : f.unitExp b = (b / 2 ^ f.mbits : Nat) - f.bias - f.mbits := by
  have : 1 ≤ b / 2 ^ f.mbits := (Nat.one_le_div_iff (by positivity)).mpr h
  rw [unitExp, max_eq_left (by exact_mod_cast this)]

theorem magOf_eq (f : Fmt) (b : Nat) : f.magOf b = f.sig b * (2 : Rat) ^ f.unitExp b := by
  unfold magOf
  rcases lt_or_ge b (2 ^ f.mbits) with h | h
  · simp [sig_of_subnormal h, unitExp_of_subnormal h, Nat.div_eq_of_lt h, Nat.mod_eq_of_lt h]
  · have : b / 2 ^ f.mbits ≠ 0 := (Nat.div_pos h (by positivity)).ne'
    simp [sig_of_normal h, unitExp_of_normal h, this]

/-- The next encoding is one unit above, where the exponent steps as well. -/
theorem magOf_succ (f : Fmt) (b : Nat) : f.magOf (b + 1) = (f.sig b + 1) * (2 : Rat) ^ f.unitExp b := by
  rw [magOf_eq]
  have pos : 0 < 2 ^ f.mbits := by positivity
  rcases Nat.lt_trichotomy (b + 1) (2 ^ f.mbits) with h | h | h
  · have low : b < 2 ^ f.mbits := by omega
    simp [sig_of_subnormal h, sig_of_subnormal low, unitExp_of_subnormal h, unitExp_of_subnormal low]
  · have low : b < 2 ^ f.mbits := by omega
    rw [sig_of_normal h.ge, unitExp_of_normal h.ge, sig_of_subnormal low, unitExp_of_subnormal low, h, Nat.div_self pos, Nat.mod_self, ← h]
    simp
  · have low : 2 ^ f.mbits ≤ b := by omega
    rw [sig_of_normal h.le, unitExp_of_normal h.le, sig_of_normal low, unitExp_of_normal low]
    have whole := Nat.div_add_mod b (2 ^ f.mbits)
    have less := Nat.mod_lt b pos
    rcases Nat.lt_or_ge (b % 2 ^ f.mbits + 1) (2 ^ f.mbits) with inside | last
    · obtain ⟨quot, rem⟩ := (Nat.div_mod_unique pos).mpr ⟨(by omega : b % 2 ^ f.mbits + 1 + 2 ^ f.mbits * (b / 2 ^ f.mbits) = b + 1), inside⟩
      rw [quot, rem]
      push_cast
      ring
    · have full : b % 2 ^ f.mbits + 1 = 2 ^ f.mbits := by omega
      obtain ⟨quot, rem⟩ := (Nat.div_mod_unique pos).mpr
        ⟨(by rw [Nat.mul_succ]; omega : 0 + 2 ^ f.mbits * (b / 2 ^ f.mbits + 1) = b + 1), pos⟩
      have double : ((b / 2 ^ f.mbits + 1 : Nat) : Int) - f.bias - f.mbits = (b / 2 ^ f.mbits : Nat) - f.bias - f.mbits + 1 := by push_cast; ring
      have fullRat : ((b % 2 ^ f.mbits : Nat) : Rat) + 1 = (2 ^ f.mbits : Nat) := by exact_mod_cast full
      rw [quot, rem, double, zpow_add_one₀ two_ne_zero, Nat.cast_add, Nat.cast_add, ← fullRat]
      push_cast
      ring

theorem magOf_succ_eq_add (f : Fmt) (b : Nat) : f.magOf (b + 1) = f.magOf b + 2 ^ f.unitExp b := by
  rw [magOf_succ, magOf_eq]
  ring

theorem magOf_lt_succ (f : Fmt) (b : Nat) : f.magOf b < f.magOf (b + 1) := by
  rw [magOf_succ_eq_add]
  exact lt_add_of_pos_right _ (by positivity)

theorem magOf_strictMono (f : Fmt) : StrictMono f.magOf := strictMono_nat_of_lt_succ f.magOf_lt_succ

@[simp] theorem magOf_zero (f : Fmt) : f.magOf 0 = 0 := by simp [magOf]

/-- The smallest normal value is the first with a leading one. -/
theorem minNormal_eq (f : Fmt) : f.minNormal = f.magOf (2 ^ f.mbits) := by
  rw [magOf_eq, sig_of_normal le_rfl, unitExp_of_normal le_rfl, Nat.div_self (by positivity), Nat.mod_self, minNormal, pow2_eq_zpow, Nat.add_zero,
    Nat.cast_pow, Nat.cast_ofNat, ← zpow_natCast, ← zpow_add₀ two_ne_zero]
  congr 1
  push_cast
  ring

theorem mul_unit_le_magOf (f : Fmt) (b : Nat) : b * (2 : Rat) ^ (1 - f.bias - f.mbits : Int) ≤ f.magOf b := by
  induction b with
  | zero => simp
  | succ b ih =>
    have unit : (2 : Rat) ^ (1 - f.bias - f.mbits : Int) ≤ 2 ^ f.unitExp b :=
      zpow_le_zpow_right₀ one_le_two (by unfold unitExp; omega)
    rw [magOf_succ_eq_add]
    push_cast
    linarith

/-- Every magnitude lies at an encoding or between it and the next, whatever the largest finite one. -/
theorem exists_bracket (f : Fmt) {q : Rat} (hq : 0 ≤ q) : ∃ b, f.magOf b ≤ q ∧ q < f.magOf (b + 1) := by
  have unbounded : ∃ n, q < f.magOf n := by
    obtain ⟨n, hn⟩ := exists_nat_gt (q / (2 : Rat) ^ (1 - f.bias - f.mbits : Int))
    exact ⟨n, ((div_lt_iff₀ (by positivity)).mp hn).trans_le (f.mul_unit_le_magOf n)⟩
  classical
  obtain ⟨b, hb⟩ : ∃ b, Nat.find unbounded = b + 1 := Nat.exists_eq_succ_of_ne_zero fun h => by
    have := Nat.find_spec unbounded
    rw [h, magOf_zero] at this
    exact this.not_ge hq
  exact ⟨b, le_of_not_gt (Nat.find_min unbounded (by omega)), hb ▸ Nat.find_spec unbounded⟩

/-! ### One format's rounding -/

/-- How far above its lower neighbour `b` a magnitude is delivered: one encoding where the mode takes the upper one, else none (R80). -/
def stepUp (f : Fmt) (m : Rounding) (neg : Bool) (b : Nat) (q : Rat) : Nat :=
  if q ≠ f.magOf b ∧ takesUpper m neg (b % 2 = 1) (f.magOf b) (f.magOf (b + 1)) q = true then 1 else 0

theorem stepUp_le (f : Fmt) (m : Rounding) (neg : Bool) (b : Nat) (q : Rat) : f.stepUp m neg b q ≤ 1 := by
  unfold stepUp
  split <;> omega

@[simp] theorem stepUp_self (f : Fmt) (m : Rounding) (neg : Bool) (b : Nat) : f.stepUp m neg b (f.magOf b) = 0 := by simp [stepUp]

theorem add_stepUp (f : Fmt) (m : Rounding) (neg : Bool) {b : Nat} {q : Rat} (h : f.magOf b < q) :
    b + f.stepUp m neg b q = if takesUpper m neg (b % 2 = 1) (f.magOf b) (f.magOf (b + 1)) q = true then b + 1 else b := by
  simp only [stepUp, ne_eq, h.ne', not_false_eq_true, true_and]
  split <;> rfl

theorem magOf_add_stepUp (f : Fmt) (m : Rounding) (neg : Bool) (b : Nat) (q : Rat) :
    f.magOf (b + f.stepUp m neg b q) = ((f.sig b + f.stepUp m neg b q : Nat) : Rat) * 2 ^ f.unitExp b := by
  unfold stepUp
  split
  · rw [magOf_succ, Nat.cast_add_one]
  · exact f.magOf_eq b

theorem sig_mod_two {f : Fmt} (hm : 1 ≤ f.mbits) (b : Nat) : f.sig b % 2 = b % 2 := by
  have even : 2 ∣ 2 ^ f.mbits := dvd_pow_self 2 (by omega)
  unfold sig
  split
  · rfl
  · rw [Nat.add_mod, Nat.mod_mod_of_dvd b even, Nat.mod_eq_zero_of_dvd even]
    omega

/-- A magnitude counted in units of its lower neighbour rounds to the significand of the encoding that is delivered. -/
theorem roundNat_div_unit {f : Fmt} (hm : 1 ≤ f.mbits) (m : Rounding) (neg : Bool) {b : Nat} {q : Rat} (lo : f.magOf b ≤ q) (hi : q < f.magOf (b + 1)) :
    roundNat m neg (q / 2 ^ f.unitExp b) = f.sig b + f.stepUp m neg b q := by
  have unit : (0 : Rat) < 2 ^ f.unitExp b := by positivity
  rw [magOf_eq] at lo
  rw [magOf_succ] at hi
  have pick := roundNat_picks m neg (div_nonneg ((by positivity : (0 : Rat) ≤ _).trans lo) unit.le) (f.sig b) ((le_div_iff₀ unit).mpr lo)
    ((div_lt_iff₀ unit).mpr hi)
  have inexact : q / 2 ^ f.unitExp b ≠ f.sig b ↔ q ≠ f.magOf b := by rw [magOf_eq, ne_eq, div_eq_iff unit.ne']
  have upper : takesUpper m neg (f.sig b % 2 = 1) (f.sig b) (f.sig b + 1) (q / 2 ^ f.unitExp b) =
      takesUpper m neg (b % 2 = 1) (f.magOf b) (f.magOf (b + 1)) q := by
    rw [← takesUpper_mul unit, div_mul_cancel₀ _ unit.ne', ← magOf_succ, ← magOf_eq, sig_mod_two hm]
  rw [pick, stepUp]
  simp only [inexact, upper]
  split <;> rfl

theorem ilog2_of_bracket {f : Fmt} {b : Nat} {q : Rat} (normal : 2 ^ f.mbits ≤ b) (lo : f.magOf b ≤ q) (hi : q < f.magOf (b + 1)) :
    ilog2 q - f.mbits = f.unitExp b := by
  have unit : (0 : Rat) < 2 ^ f.unitExp b := by positivity
  have sigLe : (2 : Rat) ^ f.mbits ≤ f.sig b := by
    rw [sig_of_normal normal]
    push_cast
    linarith
  have sigLt : (f.sig b : Rat) + 1 ≤ 2 ^ (f.mbits + 1) := by
    rw [sig_of_normal normal, pow_succ]
    have := Nat.mod_lt b (show 0 < 2 ^ f.mbits by positivity)
    exact_mod_cast (by omega : 2 ^ f.mbits + b % 2 ^ f.mbits + 1 ≤ 2 ^ f.mbits * 2)
  rw [ilog2_eq_of_bounds (e := f.mbits + f.unitExp b)]
  · ring
  · rw [zpow_add₀ two_ne_zero, zpow_natCast]
    exact (by gcongr : _ ≤ (f.sig b : Rat) * 2 ^ f.unitExp b).trans (f.magOf_eq b ▸ lo)
  · rw [add_right_comm, zpow_add₀ two_ne_zero]
    exact (f.magOf_succ b ▸ hi).trans_le (by gcongr; exact_mod_cast sigLt)

end Fmt

end Sys2Proof.Machine
end

section
/-!
The delivery of an exact magnitude in a format: the neighbour that the mode picks, tininess, overflow and flushing, and how an encoding is read
(R77, R78, R80 to R83, R91).
-/
set_option Elab.async false
namespace Sys2Proof.Machine
open Sys2Proof

namespace Fmt

/-! ### Tininess (R82) -/

/-- The significand of a magnitude rounded without a lower limit of the exponent. -/
def wideSig (f : Fmt) (m : Rounding) (neg : Bool) (q : Rat) : Nat := roundNat m neg (q / 2 ^ (ilog2 q - f.mbits))

/-- A magnitude rounded without a lower limit of the exponent. -/
def wide (f : Fmt) (m : Rounding) (neg : Bool) (q : Rat) : Rat := f.wideSig m neg q * 2 ^ (ilog2 q - f.mbits)

/-- How far below the smallest normal value the next one stands where the exponent has no lower limit. -/
def edge (f : Fmt) : Rat := f.minNormal / 2 ^ (f.mbits + 1)

/-- The magnitudes that round below the smallest normal value where the exponent has no lower limit. -/
def Tiny (f : Fmt) (m : Rounding) (neg : Bool) (q : Rat) : Prop :=
  q < f.minNormal ∧ (q ≤ f.minNormal - f.edge ∨ takesUpper m neg true (f.minNormal - f.edge) f.minNormal q = false)

theorem minNormal_eq_zpow (f : Fmt) : f.minNormal = 2 ^ (-f.bias + 1 : Int) := by
  rw [minNormal, pow2_eq_zpow, neg_add_eq_sub]

theorem edge_pos (f : Fmt) : 0 < f.edge := by
  rw [edge, minNormal, pow2_eq_zpow]
  positivity

theorem minNormal_eq_mul_edge (f : Fmt) : f.minNormal = 2 ^ (f.mbits + 1) * f.edge := by
  rw [edge, mul_div_cancel₀ _ (by positivity)]

theorem edge_eq (f : Fmt) : f.edge = 2 ^ (-f.bias - f.mbits : Int) := by
  rw [edge, minNormal, pow2_eq_zpow, ← zpow_natCast, ← zpow_sub₀ two_ne_zero]
  congr 1
  push_cast
  ring

theorem minNormal_sub_edge (f : Fmt) : f.minNormal - f.edge = ((2 ^ (f.mbits + 1) - 1 : Nat) : Rat) * f.edge := by
  rw [Nat.cast_sub Nat.one_le_two_pow, minNormal_eq_mul_edge]
  push_cast
  ring

theorem not_tiny_of_le {f : Fmt} {m : Rounding} {neg : Bool} {q : Rat} (h : f.minNormal ≤ q) : ¬f.Tiny m neg q := fun tiny => h.not_gt tiny.1

section
variable {f : Fmt} (m : Rounding) (neg : Bool) {q : Rat} (hq : 0 < q)
include hq

/-- Below half the smallest normal value, rounding cannot reach it. -/
theorem wide_lt_of_ilog2_lt (h : ilog2 q < -f.bias) : f.wide m neg q < f.minNormal ∧ f.Tiny m neg q := by
  have above := (ilog2_spec hq).2
  have top : (2 : Rat) ^ (ilog2 q + 1) = (2 ^ (f.mbits + 1) : Nat) * 2 ^ (ilog2 q - f.mbits) := by
    rw [Nat.cast_pow, Nat.cast_ofNat, ← zpow_natCast, ← zpow_add₀ two_ne_zero]
    congr 1
    push_cast
    ring
  have sigLe : f.wideSig m neg q ≤ 2 ^ (f.mbits + 1) := roundNat_le m neg (by positivity) ((div_le_iff₀ (by positivity)).mpr (top ▸ above.le))
  have wideLe : f.wide m neg q ≤ 2 ^ (ilog2 q + 1) := by
    rw [top, wide]
    gcongr
  have half : (2 : Rat) ^ (ilog2 q + 1) ≤ f.minNormal / 2 := by
    rw [minNormal, pow2_eq_zpow, div_eq_mul_inv, ← zpow_sub_one₀ two_ne_zero]
    exact zpow_le_zpow_right₀ one_le_two (by omega)
  have near : f.edge ≤ f.minNormal / 2 := by
    rw [minNormal_eq_mul_edge, pow_succ, mul_right_comm, mul_div_cancel_right₀ _ two_ne_zero]
    exact le_mul_of_one_le_left f.edge_pos.le (one_le_pow₀ one_le_two)
  have := f.edge_pos
  exact ⟨by linarith, by linarith, .inl (by linarith)⟩

/-- In the last binade below the smallest normal value, rounding reaches it from the last interval alone, and there where the mode takes its upper end. -/
theorem wideSig_of_ilog2_eq (h : ilog2 q = -f.bias) (below : q < f.minNormal) :
    (f.Tiny m neg q → f.wideSig m neg q < 2 ^ (f.mbits + 1)) ∧ (¬f.Tiny m neg q → f.wideSig m neg q = 2 ^ (f.mbits + 1)) := by
  have edge0 := f.edge_pos
  have one : 1 ≤ 2 ^ (f.mbits + 1) := Nat.one_le_two_pow
  rw [wideSig, h, ← edge_eq]
  rcases le_or_gt q (f.minNormal - f.edge) with low | high
  · have : roundNat m neg (q / f.edge) ≤ 2 ^ (f.mbits + 1) - 1 :=
      roundNat_le m neg (by positivity) ((div_le_iff₀ edge0).mpr (f.minNormal_sub_edge ▸ low))
    exact ⟨fun _ => by omega, fun no => (no ⟨below, .inl low⟩).elim⟩
  · have next : ((2 ^ (f.mbits + 1) - 1 : Nat) : Rat) + 1 = 2 ^ (f.mbits + 1) := by
      rw [Nat.cast_sub one]
      push_cast
      ring
    have odd : (2 ^ (f.mbits + 1) - 1) % 2 = 1 := by omega
    have pick := roundNat_picks m neg (q := q / f.edge) (by positivity) (2 ^ (f.mbits + 1) - 1)
      ((le_div_iff₀ edge0).mpr (f.minNormal_sub_edge ▸ high.le)) (by rwa [next, div_lt_iff₀ edge0, ← minNormal_eq_mul_edge])
    have inexact : q / f.edge ≠ ((2 ^ (f.mbits + 1) - 1 : Nat) : Rat) := by
      rw [ne_eq, div_eq_iff edge0.ne', ← minNormal_sub_edge]
      exact high.ne'
    rw [← takesUpper_mul edge0, ← minNormal_sub_edge, next, ← minNormal_eq_mul_edge, div_mul_cancel₀ _ edge0.ne', odd, decide_eq_true rfl] at pick
    cases up : takesUpper m neg true (f.minNormal - f.edge) f.minNormal q
    · rw [if_neg (by simp [up])] at pick
      exact ⟨fun _ => by omega, fun no => (no ⟨below, .inr up⟩).elim⟩
    · rw [if_pos ⟨inexact, up⟩] at pick
      refine ⟨fun tiny => ?_, fun _ => by omega⟩
      rcases tiny.2 with low | keep
      · exact absurd low high.not_ge
      · exact absurd (up.symm.trans keep) (by simp)

theorem wide_lt_of_tiny (tiny : f.Tiny m neg q) : f.wide m neg q < f.minNormal := by
  have least : ilog2 q ≤ -f.bias := ilog2_le_of_lt hq (minNormal_eq_zpow f ▸ tiny.1)
  rcases least.lt_or_eq with less | last
  · exact (wide_lt_of_ilog2_lt m neg hq less).1
  · have := (wideSig_of_ilog2_eq m neg hq last tiny.1).1 tiny
    rw [wide, minNormal_eq_mul_edge, last, ← edge_eq]
    exact mul_lt_mul_of_pos_right (by exact_mod_cast this) f.edge_pos

theorem wideSig_of_not_tiny (below : q < f.minNormal) (full : ¬f.Tiny m neg q) : ilog2 q = -f.bias ∧ f.wideSig m neg q = 2 ^ (f.mbits + 1) := by
  have least : ilog2 q ≤ -f.bias := ilog2_le_of_lt hq (minNormal_eq_zpow f ▸ below)
  rcases least.lt_or_eq with less | last
  · exact (full (wide_lt_of_ilog2_lt m neg hq less).2).elim
  · exact ⟨last, (wideSig_of_ilog2_eq m neg hq last below).2 full⟩

end
/-! ### Delivery in a format (R80 to R83, R91) -/

/-- What delivery needs of the widths of a format and of its sign; every format of R77 has it. -/
structure Proper (f : Fmt) : Prop where
  mbits : 1 ≤ f.mbits
  ebits : 2 ≤ f.ebits
  signed : f.inf = true → f.signed = true

theorem proper_fmtOf (t : Ty) : (fmtOf t).Proper := by
  cases t <;> constructor <;> decide

section
variable {f : Fmt} (hf : f.Proper)
include hf

theorem two_pow_signPos : 2 ^ f.signPos = f.emax * 2 ^ f.mbits + 2 ^ f.mbits ∧ 3 * 2 ^ f.mbits ≤ f.emax * 2 ^ f.mbits := by
  have four : 2 ^ 2 ≤ 2 ^ f.ebits := Nat.pow_le_pow_right two_pos hf.ebits
  refine ⟨?_, Nat.mul_le_mul_right _ (by unfold emax; omega)⟩
  rw [signPos, pow_add, emax, Nat.sub_mul, one_mul, Nat.sub_add_cancel (Nat.le_mul_of_pos_left _ (by positivity))]

theorem two_le_two_pow_mbits : 2 ≤ 2 ^ f.mbits := Nat.pow_le_pow_right two_pos hf.mbits

theorem two_pow_mbits_le_maxBits : 2 ^ f.mbits ≤ f.maxBits := by
  obtain ⟨sign, top⟩ := two_pow_signPos hf
  have two := two_le_two_pow_mbits hf
  unfold maxBits
  split_ifs <;> omega

theorem maxBits_lt : f.maxBits < 2 ^ f.signPos := by
  obtain ⟨sign, top⟩ := two_pow_signPos hf
  have two := two_le_two_pow_mbits hf
  unfold maxBits
  split_ifs <;> omega

theorem minNormal_le_maxFin : f.minNormal ≤ f.maxFin := by
  rw [minNormal_eq]
  exact f.magOf_strictMono.monotone (two_pow_mbits_le_maxBits hf)

end

/-- Subnormal values stand two edges apart: the wider precision has one bit more there. -/
theorem unit_of_subnormal {f : Fmt} {b : Nat} (h : b < 2 ^ f.mbits) : (2 : Rat) ^ f.unitExp b = 2 * f.edge := by
  rw [unitExp_of_subnormal h, edge_eq, ← zpow_one_add₀ two_ne_zero]
  congr 1
  ring

section
variable {f : Fmt} (hf : f.Proper) {m : Rounding} {neg : Bool} {b : Nat} {q : Rat} (hq : 0 < q) (lo : f.magOf b ≤ q) (hi : q < f.magOf (b + 1))
include lo

theorem subnormal_of_lt (below : q < f.minNormal) : b < 2 ^ f.mbits :=
  f.magOf_strictMono.lt_iff_lt.mp (lo.trans_lt (f.minNormal_eq ▸ below))

include hi

/-- A magnitude that rounds up to the smallest normal value in the wider precision does so in its own. -/
theorem add_stepUp_of_not_tiny (below : q < f.minNormal) (full : ¬f.Tiny m neg q) : b + f.stepUp m neg b q = 2 ^ f.mbits := by
  have sub := subnormal_of_lt lo below
  have edge0 := f.edge_pos
  obtain ⟨high, up⟩ : f.minNormal - f.edge < q ∧ takesUpper m neg true (f.minNormal - f.edge) f.minNormal q = true := by
    simpa [Tiny, below] using full
  have last : b + 1 = 2 ^ f.mbits := by
    rw [magOf_succ, sig_of_subnormal sub, unit_of_subnormal sub] at hi
    rw [minNormal_eq_mul_edge] at high
    have : (2 ^ (f.mbits + 1) - 1 : Rat) < 2 * (b + 1) := lt_of_mul_lt_mul_right (by linarith) edge0.le
    have : 2 ^ (f.mbits + 1) < 2 * (b + 1) + 1 := by exact_mod_cast sub_lt_iff_lt_add.mp this
    omega
  have farther : f.magOf b < f.minNormal - f.edge := by
    rw [minNormal_eq, ← last, magOf_succ_eq_add, unit_of_subnormal sub]
    linarith
  rw [add_stepUp f m neg (farther.trans high), last, ← minNormal_eq, if_pos (takesUpper_of_lower farther up)]

include hf hq

theorem wide_of_not_tiny (full : ¬f.Tiny m neg q) :
    f.wide m neg q = f.magOf (b + f.stepUp m neg b q) ∧ 2 ^ f.mbits ≤ b + f.stepUp m neg b q ∧
    (ilog2 q + f.bias).toNat * 2 ^ f.mbits + f.wideSig m neg q - 2 ^ f.mbits = b + f.stepUp m neg b q := by
  rcases lt_or_ge q f.minNormal with below | normal
  · obtain ⟨exp, sig⟩ := wideSig_of_not_tiny m neg hq below full
    rw [add_stepUp_of_not_tiny lo hi below full, wide, sig, exp, ← minNormal_eq, ← edge_eq, minNormal_eq_mul_edge]
    refine ⟨by push_cast; rfl, le_rfl, ?_⟩
    rw [neg_add_cancel, Int.toNat_zero, pow_succ]
    omega
  · have normal : 2 ^ f.mbits ≤ b := Nat.lt_succ_iff.mp (f.magOf_strictMono.lt_iff_lt.mp ((f.minNormal_eq ▸ normal).trans_lt hi))
    have exp := ilog2_of_bracket normal lo hi
    have sig : f.wideSig m neg q = f.sig b + f.stepUp m neg b q := by rw [wideSig, exp, roundNat_div_unit hf.mbits m neg lo hi]
    have biased : ilog2 q + f.bias = (b / 2 ^ f.mbits : Nat) := by linarith [unitExp_of_normal normal]
    refine ⟨by rw [wide, sig, exp, magOf_add_stepUp], by omega, ?_⟩
    rw [biased, Int.toNat_natCast, sig, sig_of_normal normal]
    have := Nat.div_add_mod' b (2 ^ f.mbits)
    omega

end
end Fmt

open Fmt

/-- The flags and the result of an overflow (R81, R91). -/
def overflowed (f : Fmt) (m : Rounding) (sat neg : Bool) : Flagged Nat :=
  (if f.inf && !sat && (match m with | .rne | .rna => true | .rz => false | .rdn => neg | .rup => !neg) then f.infBits neg else f.signBits neg + f.maxBits,
    flOF ||| flNX)

@[simp] theorem overflowed_sat (f : Fmt) (m : Rounding) (neg : Bool) : overflowed f m true neg = (f.signBits neg + f.maxBits, flOF ||| flNX) := by
  simp [overflowed]

theorem roundMag_eq (t : Ty) (m : Rounding) (flush sat neg : Bool) (q : Rat) :
    roundMag t m flush sat neg q =
      if (fmtOf t).wide m neg q < (fmtOf t).minNormal then
        if flush then ((fmtOf t).signBits neg, flUF ||| flNX)
        else ((fmtOf t).signBits neg + roundNat m neg (q / 2 ^ (1 - (fmtOf t).bias - (fmtOf t).mbits : Int)),
          flIf (roundNat m neg (q / 2 ^ (1 - (fmtOf t).bias - (fmtOf t).mbits : Int)) *
            (2 : Rat) ^ (1 - (fmtOf t).bias - (fmtOf t).mbits : Int) ≠ q) (flUF ||| flNX))
      else if (fmtOf t).maxFin < (fmtOf t).wide m neg q then overflowed (fmtOf t) m sat neg
      else ((fmtOf t).signBits neg + ((ilog2 q + (fmtOf t).bias).toNat * 2 ^ (fmtOf t).mbits + (fmtOf t).wideSig m neg q - 2 ^ (fmtOf t).mbits),
        flIf ((fmtOf t).wide m neg q ≠ q) flNX) := by
  simp only [roundMag, pow2_eq_zpow]
  rfl

section
variable {t : Ty} {m : Rounding} {flush sat neg : Bool} {b : Nat} {q : Rat} (hq : 0 < q) (lo : (fmtOf t).magOf b ≤ q) (hi : q < (fmtOf t).magOf (b + 1))
include hq lo hi

theorem roundMag_of_tiny (tiny : (fmtOf t).Tiny m neg q) :
    roundMag t m flush sat neg q = if flush then ((fmtOf t).signBits neg, flUF ||| flNX)
      else ((fmtOf t).signBits neg + (b + (fmtOf t).stepUp m neg b q), flIf ((fmtOf t).magOf (b + (fmtOf t).stepUp m neg b q) ≠ q) (flUF ||| flNX)) := by
  have sub := subnormal_of_lt lo tiny.1
  have pick := roundNat_div_unit (proper_fmtOf t).mbits m neg lo hi
  have value := (fmtOf t).magOf_add_stepUp m neg b q
  rw [sig_of_subnormal sub, unitExp_of_subnormal sub] at pick value
  rw [roundMag_eq, if_pos (wide_lt_of_tiny m neg hq tiny), pick, ← value]

theorem roundMag_of_not_tiny (full : ¬(fmtOf t).Tiny m neg q) :
    roundMag t m flush sat neg q = if (fmtOf t).maxBits < b + (fmtOf t).stepUp m neg b q then overflowed (fmtOf t) m sat neg
      else ((fmtOf t).signBits neg + (b + (fmtOf t).stepUp m neg b q), flIf ((fmtOf t).magOf (b + (fmtOf t).stepUp m neg b q) ≠ q) flNX) := by
  obtain ⟨value, normal, code⟩ := wide_of_not_tiny (proper_fmtOf t) hq lo hi full
  have least : ¬(fmtOf t).wide m neg q < (fmtOf t).minNormal := by
    rw [value, minNormal_eq, (fmtOf t).magOf_strictMono.lt_iff_lt]
    exact normal.not_gt
  rw [roundMag_eq, if_neg least, code, value, maxFin]
  simp only [(fmtOf t).magOf_strictMono.lt_iff_lt]

end

@[simp] theorem roundVal_zero (t : Ty) (m : Rounding) (flush sat neg : Bool) : roundVal t m flush sat neg 0 = ((fmtOf t).signBits neg, 0) := if_pos rfl

theorem roundVal_of_pos {t : Ty} {m : Rounding} {flush sat neg : Bool} {q : Rat} (hq : 0 < q) :
    roundVal t m flush sat neg q = roundMag t m flush sat neg q := if_neg hq.ne'

theorem magOf_pos (f : Fmt) {b : Nat} (hb : 0 < b) : 0 < f.magOf b := f.magOf_zero ▸ f.magOf_strictMono hb

/-- A magnitude that the format holds is delivered as it is. -/
theorem roundVal_magOf (t : Ty) (m : Rounding) (neg : Bool) {b : Nat} (hb : 0 < b) (le : b ≤ (fmtOf t).maxBits) :
    roundVal t m false false neg ((fmtOf t).magOf b) = ((fmtOf t).signBits neg + b, 0) := by
  have pos := magOf_pos (fmtOf t) hb
  have next := (fmtOf t).magOf_lt_succ b
  rw [roundVal_of_pos pos]
  by_cases tiny : (fmtOf t).Tiny m neg ((fmtOf t).magOf b)
  · simp [roundMag_of_tiny pos le_rfl next tiny, flIf]
  · simp [roundMag_of_not_tiny pos le_rfl next tiny, flIf, le.not_gt]

/-- A magnitude strictly between two neighbours is delivered as one of them, inexact, with UF where it is tiny. -/
theorem roundVal_between (t : Ty) (m : Rounding) (neg : Bool) {b : Nat} {q : Rat} (lt : b < (fmtOf t).maxBits) (lo : (fmtOf t).magOf b < q)
    (hi : q < (fmtOf t).magOf (b + 1)) :
    ∃ fl, roundVal t m false false neg q =
        ((fmtOf t).signBits neg + (if takesUpper m neg (b % 2 = 1) ((fmtOf t).magOf b) ((fmtOf t).magOf (b + 1)) q then b + 1 else b), fl) ∧
      fl &&& flNX = flNX ∧ fl &&& flOF = 0 ∧ (fl &&& flUF = flUF ↔ (fmtOf t).Tiny m neg q) := by
  have pos : 0 < q := ((fmtOf t).magOf_zero ▸ (fmtOf t).magOf_strictMono.monotone b.zero_le).trans_lt lo
  have inexact : (fmtOf t).magOf (b + (fmtOf t).stepUp m neg b q) ≠ q := by
    rw [add_stepUp _ _ _ lo]
    split
    · exact hi.ne'
    · exact lo.ne
  have fits : ¬(fmtOf t).maxBits < b + (fmtOf t).stepUp m neg b q := by
    have := (fmtOf t).stepUp_le m neg b q
    omega
  rw [← add_stepUp _ _ _ lo, roundVal_of_pos pos]
  by_cases tiny : (fmtOf t).Tiny m neg q
  · exact ⟨flUF ||| flNX, by simp [roundMag_of_tiny pos lo.le hi tiny, inexact, flIf], by decide, by decide, iff_of_true (by decide) tiny⟩
  · exact ⟨flNX, by simp [roundMag_of_not_tiny pos lo.le hi tiny, inexact, fits, flIf], by decide, by decide, iff_of_false (by decide) tiny⟩

theorem not_tiny_of_maxFin_lt {t : Ty} {m : Rounding} {neg : Bool} {q : Rat} (h : (fmtOf t).maxFin < q) : ¬(fmtOf t).Tiny m neg q :=
  not_tiny_of_le ((minNormal_le_maxFin (proper_fmtOf t)).trans h.le)

theorem pos_of_maxFin_lt {t : Ty} {q : Rat} (h : (fmtOf t).maxFin < q) : 0 < q :=
  (magOf_pos _ (Nat.two_pow_pos _ |>.trans_le (two_pow_mbits_le_maxBits (proper_fmtOf t)))).trans h

/-- A magnitude that the mode takes beyond the largest finite value overflows. -/
theorem roundVal_overflow (t : Ty) (m : Rounding) (flush sat neg : Bool) {q : Rat} (h : (fmtOf t).maxFin < q)
    (beyond : (fmtOf t).magOf ((fmtOf t).maxBits + 1) ≤ q ∨
      takesUpper m neg ((fmtOf t).maxBits % 2 = 1) ((fmtOf t).magOf (fmtOf t).maxBits) ((fmtOf t).magOf ((fmtOf t).maxBits + 1)) q = true) :
    roundVal t m flush sat neg q = overflowed (fmtOf t) m sat neg := by
  have pos : 0 < q := pos_of_maxFin_lt h
  obtain ⟨b, lo, hi⟩ := (fmtOf t).exists_bracket pos.le
  have least : (fmtOf t).maxBits ≤ b := Nat.lt_succ_iff.mp ((fmtOf t).magOf_strictMono.lt_iff_lt.mp (h.trans hi))
  have above : (fmtOf t).maxBits < b + (fmtOf t).stepUp m neg b q := by
    rcases least.lt_or_eq with less | rfl
    · omega
    · rw [add_stepUp _ _ _ h, if_pos (beyond.resolve_left hi.not_ge)]
      omega
  rw [roundVal_of_pos pos, roundMag_of_not_tiny pos lo hi (not_tiny_of_maxFin_lt h), if_pos above]

theorem roundVal_to_maxFin (t : Ty) (m : Rounding) (neg : Bool) {q : Rat} (h : (fmtOf t).maxFin < q) (hi : q < (fmtOf t).magOf ((fmtOf t).maxBits + 1))
    (keep : takesUpper m neg ((fmtOf t).maxBits % 2 = 1) ((fmtOf t).magOf (fmtOf t).maxBits) ((fmtOf t).magOf ((fmtOf t).maxBits + 1)) q = false) :
    roundVal t m false false neg q = ((fmtOf t).signBits neg + (fmtOf t).maxBits, flNX) := by
  have pos : 0 < q := pos_of_maxFin_lt h
  have stays : (fmtOf t).maxBits + (fmtOf t).stepUp m neg (fmtOf t).maxBits q = (fmtOf t).maxBits := by
    rw [add_stepUp _ _ _ h, if_neg (by simp [keep])]
  have inexact : (fmtOf t).magOf (fmtOf t).maxBits ≠ q := h.ne
  rw [roundVal_of_pos pos, roundMag_of_not_tiny pos h.le hi (not_tiny_of_maxFin_lt h), stays, if_neg (lt_irrefl _)]
  simp [inexact, flIf]

/-- Flushing touches tiny magnitudes alone, and saturation those beyond the largest finite value (R82, R83, R91). -/
theorem roundVal_flush (t : Ty) (m : Rounding) (flush sat neg : Bool) {q : Rat} (hq : 0 < q) :
    ((fmtOf t).Tiny m neg q → roundVal t m true sat neg q = ((fmtOf t).signBits neg, flUF ||| flNX)) ∧
    (¬(fmtOf t).Tiny m neg q → roundVal t m flush sat neg q = roundVal t m false sat neg q) ∧
    (q ≤ (fmtOf t).maxFin → roundVal t m flush sat neg q = roundVal t m flush false neg q) := by
  obtain ⟨b, lo, hi⟩ := (fmtOf t).exists_bracket hq.le
  simp only [roundVal_of_pos hq]
  refine ⟨fun tiny => by rw [roundMag_of_tiny hq lo hi tiny, if_pos rfl], fun full => by simp only [roundMag_of_not_tiny hq lo hi full], fun le => ?_⟩
  by_cases tiny : (fmtOf t).Tiny m neg q
  · simp only [roundMag_of_tiny hq lo hi tiny]
  · have fits : ¬(fmtOf t).maxBits < b + (fmtOf t).stepUp m neg b q := by
      rcases ((fmtOf t).magOf_strictMono.le_iff_le.mp (lo.trans le)).lt_or_eq with less | rfl
      · have := (fmtOf t).stepUp_le m neg b q
        omega
      · simp [le_antisymm le lo, maxFin]
    simp only [roundMag_of_not_tiny hq lo hi tiny, if_neg fits]

/-! ### Reading an encoding (R77, R78) -/

namespace Fmt
variable {f : Fmt} (hf : f.Proper)

theorem signBits_add (f : Fmt) (neg : Bool) {a : Nat} (h : a < 2 ^ f.signPos) :
    (f.signed && bitOf (f.signBits neg + a) f.signPos) = (neg && f.signed) ∧ (f.signBits neg + a) % 2 ^ f.signPos = a := by
  have pos : 0 < 2 ^ f.signPos := by positivity
  unfold signBits bitOf
  split
  case isTrue minus =>
    rw [Nat.add_div_left _ pos, Nat.add_mod_left, Nat.div_eq_of_lt h, Nat.mod_eq_of_lt h, minus]
    simp [(Bool.and_eq_true_iff.mp minus).2]
  case isFalse plus =>
    rw [Nat.zero_add, Nat.div_eq_of_lt h, Nat.mod_eq_of_lt h, Bool.eq_false_of_not_eq_true plus]
    simp

include hf

theorem decode_finite (neg : Bool) {b : Nat} (h : b ≤ f.maxBits) : f.decode (f.signBits neg + b) = .num (neg && f.signed) (f.magOf b) := by
  obtain ⟨sign, mag⟩ := f.signBits_add neg (h.trans_lt (maxBits_lt hf))
  obtain ⟨width, top⟩ := two_pow_signPos hf
  have finite : f.inf = true → b / 2 ^ f.mbits ≠ f.emax := fun inf => by
    have := two_le_two_pow_mbits hf
    rw [maxBits, if_pos inf] at h
    exact ((Nat.div_lt_iff_lt_mul (by positivity)).mpr (by omega)).ne
  have number : f.inf = false → f.nan = true → b ≠ 2 ^ f.signPos - 1 := fun inf nan => by
    have := two_le_two_pow_mbits hf
    simp only [maxBits, inf, nan, Bool.false_eq_true, if_false, if_true] at h
    omega
  simp only [decode, sign, mag]
  rw [if_neg (by simpa using finite), if_neg (by simpa using number)]

theorem decode_infBits (neg : Bool) (inf : f.inf = true) : f.decode (f.infBits neg) = .inf neg := by
  obtain ⟨width, top⟩ := two_pow_signPos hf
  have pos : 0 < 2 ^ f.mbits := by positivity
  obtain ⟨sign, mag⟩ := f.signBits_add neg (a := f.emax * 2 ^ f.mbits) (by omega)
  simp only [hf.signed inf, Bool.true_and, Bool.and_true] at sign
  simp [decode, infBits, sign, mag, inf, hf.signed inf, Nat.mul_div_cancel _ pos]

theorem decode_qnan (nan : f.nan = true) : ∃ frac, f.decode f.qnan = .nan false true frac := by
  obtain ⟨width, top⟩ := two_pow_signPos hf
  have half : 2 ^ (f.mbits - 1) * 2 = 2 ^ f.mbits := by rw [← pow_succ, Nat.sub_add_cancel hf.mbits]
  have pos : 0 < 2 ^ (f.mbits - 1) := by positivity
  have lt : f.qnan < 2 ^ f.signPos := by
    unfold qnan
    split <;> omega
  obtain ⟨sign, mag⟩ := f.signBits_add false lt
  simp only [signBits, Bool.false_and, Bool.false_eq_true, if_false, Nat.zero_add] at sign mag
  cases inf : f.inf
  · have ones : f.qnan = 2 ^ f.signPos - 1 := by simp [qnan, inf]
    exact ⟨f.qnan % 2 ^ f.mbits * 2 ^ (52 - f.mbits), by simp [decode, sign, mag, inf, nan, ← ones]⟩
  · obtain ⟨quot, rem⟩ := (Nat.div_mod_unique (by positivity : 0 < 2 ^ f.mbits)).mpr
      ⟨(by rw [qnan, if_pos inf]; ring : 2 ^ (f.mbits - 1) + 2 ^ f.mbits * f.emax = f.qnan), (by omega)⟩
    have quiet : bitOf (2 ^ (f.mbits - 1)) (f.mbits - 1) = true := by simp [bitOf, Nat.div_self pos]
    exact ⟨2 ^ (f.mbits - 1) * 2 ^ (52 - f.mbits), by simp [decode, sign, mag, quot, rem, inf, quiet]⟩

end Fmt

/-- Settles O53, the delivery of a magnitude by the neighbours that it stands between, tininess by the significand that has no lower limit of the exponent. -/
theorem roundingAndOverflow : Obligations.RoundingAndOverflow := by
  unfold Obligations.RoundingAndOverflow
  intro t m neg _
  have hf := proper_fmtOf t
  exact ⟨fun b pos le => roundVal_magOf t m neg pos le,
    fun b q lt lo hi => roundVal_between t m neg lt lo hi,
    fun q h beyond => ⟨by rw [roundVal_overflow t m false false neg h beyond]; cases m <;> simp [overflowed],
      by rw [roundVal_overflow t m false true neg h beyond, overflowed_sat]⟩,
    fun q h hi keep => roundVal_to_maxFin t m neg h hi keep,
    fun q flush sat pos => roundVal_flush t m flush sat neg pos,
    fun flush sat => roundVal_zero t m flush sat neg,
    fun b le => decode_finite hf neg le,
    decode_infBits hf neg,
    decode_qnan hf⟩

end Sys2Proof.Machine
end

section
/-!
Uniform results: exact values fitted to their type, and values given bit by bit (R76, R120 to R123).
-/
set_option Elab.async false
namespace Sys2Proof.Machine
open Sys2Proof

/-! ### Integers of a type (R76) -/

theorem width_le (t : Ty) : t.width ≤ 64 := by cases t <;> decide

/-- A bit pattern read as its type gives is the number wrapped into the type. -/
theorem intOf_eq_fit {t : Ty} (h : 0 < t.width) (n : Nat) : intOf t n = fit t false n := by
  have small : n % 2 ^ t.width < 2 ^ 64 := (Nat.mod_lt _ (by positivity)).trans_le (Nat.pow_le_pow_right two_pos (width_le t))
  have wraps : (((n % 2 ^ t.width : Nat)) : Int) = (n : Int) % 2 ^ t.width := by push_cast; rfl
  have read := intSub_elem h (BitVec.ofNat 64 (n % 2 ^ t.width)) 0
  simp only [intSub, subEl, elem, BitVec.toNat_ofNat, Nat.mod_eq_of_lt small, Nat.mul_zero, pow_zero, Nat.div_one, Nat.mod_mod, wraps, fit_mod] at read
  rw [← read]
  simp [intOf, signedOf]

theorem uniInt_eq_elem {t : Ty} (h : 0 < t.width) (v : Word64) : uniInt t v = elem t v 0 := by
  simp [uniInt, intOf_eq_fit h, elem]

/-- A uniform result: the fitted value, extended, with SI where saturation changed it (R121). -/
theorem uniFit_eq {t : Ty} (h : 0 < t.width) (sat : Bool) (v : Int) :
    uniFit t sat v = (BitVec.ofInt 64 (fit t sat v), if sat = true ∧ fit t true v ≠ v then 0x20 else 0) := by
  obtain ⟨value, flags⟩ := fitInt_spec h sat v
  show (BitVec.ofInt 64 (intOf t (fitInt t sat v).1), (fitInt t sat v).2) = _
  rw [intOf_eq_fit h, value, flags]

/-- The types of uniform arithmetic and logic have a width. -/
theorem width_pos_of_uniform {t : Ty} (h : tyU4 t = true ∨ tyB2 t = true) : 0 < t.width := by
  cases t <;> simp [tyU4, tyB2, Ty.width] at h ⊢

/-! ### Exact uniform results (R121) -/

/-- The exact uniform results are those of an instruction that delivers once for the group what its values come to. -/
theorem UniExact.fits {i : Instr} {c : Ctl} {d : BitVec 8} {t : Ty} {sat : Bool} {x : Group → Int} (h : UniExact i c d t sat x) (wf : i.wf = true) :
    i.operands.d = Opnd.of .s d ∧ 0 < t.width ∧ (fun s => exec i s) = runInstr i c (uniShort c d fun g => uniFit t sat (x g)) := by
  have pos : 0 < t.width := by
    have types := wf_types wf (by cases h <;> exact Option.some_ne_none c)
    cases h <;> simp only [Instr.typesOk, Bool.and_eq_true, Bool.or_eq_true, decide_eq_true_eq] at types
    case smulh => rcases types.1 with e | e <;> rw [e] <;> decide
    case sadd | ssub | smul => exact width_pos_of_uniform (.inl types)
    case smin | smax => exact width_pos_of_uniform (.inl types.1)
  refine ⟨by cases h <;> rfl, pos, ?_⟩
  cases h <;> simp only [← uniInt_eq_elem pos] <;> rfl

/-! ### Bits of uniform results (R121 to R123) -/

/-- Bit `j` of the low `w` bits of a number, as a register holds them. -/
theorem getLsbD_low (w n : Nat) {j : Nat} (hj : j < 64) : (BitVec.ofNat 64 (n % 2 ^ w)).getLsbD j = (decide (j < w) && n.testBit j) := by
  rw [BitVec.getLsbD_ofNat, Nat.testBit_mod_two_pow, decide_eq_true hj, Bool.true_and]

theorem testBit_shiftLeft (w a n j : Nat) : (shiftLeft w a n).testBit j = (decide (j < w) && decide (n ≤ j) && a.testBit (j - n)) := by
  unfold shiftLeft
  split
  next wide => simp; omega
  · simp [Nat.testBit_mod_two_pow, Nat.testBit_mul_two_pow, Bool.and_assoc]

theorem testBit_shiftRight (w a n j : Nat) : (shiftRight w a n).testBit j = (decide (j + n < w) && a.testBit (j + n)) := by
  unfold shiftRight
  split
  next wide => simp; omega
  · simp [Nat.testBit_div_two_pow, Nat.testBit_mod_two_pow]

/-- The low bits of an integer, as a vector of bits. -/
theorem lowBits_eq_ofInt (w : Nat) (x : Int) : lowBits w x = (BitVec.ofInt w x).toNat := by
  simp [lowBits, BitVec.toNat_ofInt]

theorem signedOf_eq_toInt {w : Nat} (hw : 0 < w) (n : Nat) : signedOf w n = (BitVec.ofNat w n).toInt := by
  have half : 2 ^ w = 2 * 2 ^ (w - 1) := by rw [← pow_succ', Nat.sub_add_cancel hw]
  rw [signedOf, BitVec.toInt_eq_toNat_cond, BitVec.toNat_ofNat]
  refine if_congr ?_ rfl (by norm_cast)
  omega

theorem testBit_shiftSign {w : Nat} (a n j : Nat) (hw : 0 < w) : (shiftSign w a n).testBit j = (decide (j < w) && a.testBit (min (j + n) (w - 1))) := by
  have shifted : shiftSign w a n = ((BitVec.ofNat w a).sshiftRight (min n w)).toNat := by
    rw [shiftSign, lowBits_eq_ofInt, signedOf_eq_toInt hw, BitVec.sshiftRight, Int.shiftRight_eq_div_pow]
    norm_cast
  rw [shifted, BitVec.testBit_toNat, BitVec.getLsbD_sshiftRight, BitVec.msb_eq_getLsbD_last, BitVec.getLsbD_ofNat, BitVec.getLsbD_ofNat]
  by_cases inside : j < w
  · by_cases near : j + n < w
    · rw [min_eq_left (by omega), if_pos (by omega), min_eq_left (by omega), Nat.add_comm j]
      simp [inside, show n + j < w by omega]
    · rw [if_neg (by omega), min_eq_right (by omega)]
      simp [inside, hw]
  · simp [inside, Nat.not_lt.1 inside]


/-- A uniform result given bit by bit is the register of those bits. -/
theorem UniBits.bits {i : Instr} {c : Ctl} {d : BitVec 8} {b : Group → Nat → Bool} (h : UniBits i c d b) (wf : i.wf = true) :
    i.operands.d = Opnd.of .s d ∧ ∃ v : Group → Word64, (fun s => exec i s) = runInstr i c (uniShort c d fun g => (v g, 0)) ∧
      ∀ g, ∀ j < 64, (v g).getLsbD j = b g j := by
  refine ⟨by cases h <;> rfl, ?_⟩
  cases h with
  | sand _ o => exact ⟨_, rfl, fun g j hj => by simp only [getLsbD_low _ _ hj, BitVec.testBit_toNat, BitVec.getLsbD_and, Bool.and_assoc]⟩
  | sor _ o => exact ⟨_, rfl, fun g j hj => by simp only [getLsbD_low _ _ hj, BitVec.testBit_toNat, BitVec.getLsbD_or]⟩
  | sxor _ o => exact ⟨_, rfl, fun g j hj => by simp only [getLsbD_low _ _ hj, BitVec.testBit_toNat, BitVec.getLsbD_xor]⟩
  | snot _ o => exact ⟨_, rfl, fun g j hj => by simp only [getLsbD_low _ _ hj, BitVec.testBit_toNat, BitVec.getLsbD_not, hj, decide_true, Bool.true_and]⟩
  | sshl _ o =>
    refine ⟨_, rfl, fun g j hj => ?_⟩
    rw [BitVec.getLsbD_ofNat, testBit_shiftLeft, Nat.testBit_mod_two_pow, BitVec.testBit_toNat]
    by_cases inside : j < o.ty.width
    · simp [hj, inside, show j - (g.ubVal c o.b).toNat < o.ty.width by omega]
    · simp [inside]
  | sshr _ o =>
    refine ⟨_, rfl, fun g j hj => ?_⟩
    rw [BitVec.getLsbD_ofNat, testBit_shiftRight, Nat.testBit_mod_two_pow, BitVec.testBit_toNat, decide_eq_true hj, Bool.true_and, ← Bool.and_assoc, Bool.and_self]
  | ssar _ o =>
    have pos : 0 < o.ty.width := by
      have types := wf_types wf (Option.some_ne_none c)
      simp only [Instr.typesOk, Bool.and_eq_true] at types
      exact width_pos_of_uniform (.inr types.1)
    refine ⟨_, rfl, fun g j hj => ?_⟩
    rw [BitVec.getLsbD_ofNat, testBit_shiftSign _ _ _ pos, Nat.testBit_mod_two_pow, BitVec.testBit_toNat, decide_eq_true hj, Bool.true_and,
      decide_eq_true (show min (j + (g.ubVal c o.b).toNat) (o.ty.width - 1) < o.ty.width by omega), Bool.true_and]
  | smov _ o => exact ⟨_, rfl, fun g j _ => rfl⟩
  | smovi _ o =>
    refine ⟨_, rfl, fun g j hj => ?_⟩
    show (o.imm.signExtend 64).getLsbD j = o.imm.getLsbD (min j 26)
    rw [BitVec.getLsbD_signExtend, BitVec.msb_eq_getLsbD_last, decide_eq_true hj, Bool.true_and]
    split
    next low => rw [min_eq_left (by omega)]
    next high => rw [min_eq_right (by omega)]
  | ssel _ o => exact ⟨_, rfl, fun g j hj => by simp only [getLsbD_low _ _ hj, BitVec.testBit_toNat]; rfl⟩

/-! ### The group takes the result once -/

theorem State.withFlags_zero (s : State) : s.withFlags 0 = s := by
  have same : s.cur.fpflags ||| (0 : BitVec 6) = s.cur.fpflags := BitVec.or_zero
  unfold withFlags
  rw [same]
  rfl

/-- Settles O3: both shapes of uniform result are delivered once for the group. -/
theorem uniformResults : Obligations.UniformResults := by
  unfold Obligations.UniformResults
  refine ⟨fun i c d t sat x s s1 form hr => ?_, fun i c d b s s1 form hr => ?_⟩
  · obtain ⟨dest, pos, run⟩ := form.fits hr.1
    obtain ⟨u, goes, after, value⟩ := uniShort_after (d := d) (f := fun g => uniFit t sat (x g)) hr
    rw [show exec i s = _ from congrFun run s]
    simp only [uniFit_eq pos] at goes after value
    refine ⟨u, ?_, ?_, fun passes => value passes (hr.dest dest one_pos (.inr (.inl rfl)))⟩
    · simpa only [uniFit_eq pos] using goes
    · simpa only [ite_and] using after
  · obtain ⟨dest, v, run, bits⟩ := form.bits hr.1
    obtain ⟨u, goes, after, value⟩ := uniShort_after (d := d) (f := fun g => (v g, 0)) hr
    rw [show exec i s = _ from congrFun run s]
    rw [ite_self, State.withFlags_zero] at after
    refine ⟨u, goes, after, fun passes j hj => ?_⟩
    rw [value passes (hr.dest dest one_pos (.inr (.inl rfl)))]
    exact bits s1.cur j hj

end Sys2Proof.Machine
end

section
/-!
Predicate results and votes, lane by lane (R122, R125, R126, R134, R142).
-/
set_option Elab.async false
namespace Sys2Proof.Machine
open Sys2Proof

/-! ### Results without flags in the lanes of an instruction (R58, R63) -/

/-- A short per-lane result that raises no flag: the lanes that take it hold its values, and those of the zero clause hold zero. -/
theorem laneShort_values {i : Instr} {c : Ctl} {s s1 : State} {cls : RClass} {d : BitVec 8} {v : Group → Nat → Word64} (hr : Ready i c s s1)
    (dest : i.operands.d = Opnd.of cls d) (hc : cls = .v ∨ cls = .p) :
    ∃ u, runInstr i c (laneShort c cls (fun g => g.rD c d) fun g l => (v g l, 0)) s = .next u ∧
      After i c s1.cur.x s1 u (laneDest s1.cur c cls (s1.cur.rD c d)) ∧
      ∀ l < 32, ¬(cls = .p ∧ s1.cur.rD c d = 63) →
        (takes s1.cur c l → u.cur.seen cls (s1.cur.rD c d) l = Group.norm cls (v s1.cur l)) ∧
        (lane (s1.cur.zeroLanes c) l = true → u.cur.seen cls (s1.cur.rD c d) l = Group.norm cls 0) := by
  obtain ⟨u, goes, after, seen⟩ := laneShort_after (reg := fun g => g.rD c d) (f := fun g l => ((v g l, 0) : Flagged Word64)) hr
    (show cls ≠ .s by rintro rfl; simp at hc)
  have flags : (s1.cur.laneResult c cls (s1.cur.rD c d) fun l => ((v s1.cur l, 0) : Flagged Word64)).2 = 0 :=
    BitVec.eq_of_getLsbD_eq fun j _ => by rw [laneResult_flags]; simp
  rw [flags, State.withFlags_zero] at after
  have bound := hr.dest dest one_pos (hc.imp_right .inr)
  refine ⟨u, goes, after, fun l hl h63 => ⟨fun ⟨on, nonzero⟩ => ?_, fun zero => ?_⟩⟩
  · rw [seen l hl bound h63 (by rw [Group.written, lane_or, on, Bool.true_or]), nonzero]
    rfl
  · rw [seen l hl bound h63 (by rw [Group.written, lane_or, zero, Bool.or_true]), zero]
    rfl

/-! ### Predicate values (R122, R125, R126) -/

theorem cmpHolds_eq_condition (cc : Cmp) (a b : Int) : cmpHolds cc a b = condition cc a b := by
  cases cc <;> simp [cmpHolds, condition, bne, beq_eq_decide]

theorem voters_any (g : Group) (c : Ctl) (p : Nat → Bool) : (g.voters c).any p = (List.range 32).any fun k => lane (g.active c) k && p k :=
  List.any_filter ..

theorem voters_all (g : Group) (c : Ctl) (p : Nat → Bool) : (g.voters c).all p = (List.range 32).all fun k => !lane (g.active c) k || p k :=
  List.all_filter ..

/-- The comparisons and tests read the types that they accept. -/
theorem width_pos_of_isInt {t : Ty} (h : t.isInt = true ∨ t.isB = true) : 0 < t.width := by
  cases t <;> simp [Ty.isInt, Ty.isI, Ty.isN, Ty.isB, Ty.width] at h ⊢

theorem predA_plain (g : Group) (c : Ctl) (a : Src) (l : Nat) : g.predA c a false l = g.readP (g.rA c a.reg) l := Bool.bne_false _
theorem predB_plain (g : Group) (c : Ctl) (b : Src) (l : Nat) : g.predB c b false l = g.readP (g.rB c b.reg) l := Bool.bne_false _

/-- The predicate results are those of an instruction that gives each lane its value. -/
theorem PredResult.lanes {i : Instr} {c : Ctl} {d : BitVec 8} {b : Group → Nat → Bool} (h : PredResult i c d b) (wf : i.wf = true) :
    i.operands.d = Opnd.of .p d ∧
      (fun s => exec i s) = runInstr i c (laneShort c .p (fun g => g.rD c d) fun g l => (predVal (b g l), 0)) := by
  refine ⟨by cases h <;> rfl, ?_⟩
  have types := wf_types wf (by cases h <;> exact Option.some_ne_none c)
  cases h with
  | pand _ o | por _ o | pxor _ o | pmov _ o | fclass _ o => rfl
  | pnot _ o => dsimp only [exec, execPnot, predLanes]; simp only [predA_plain]
  | psel _ o => dsimp only [exec, execPsel, predLanes]; simp only [predA_plain, predB_plain]
  | voteAny _ o => simp only [← voters_any]; rfl
  | voteAll _ o => simp only [← voters_all]; rfl
  | ssetp _ o =>
    simp only [Instr.typesOk, Bool.and_eq_true, Bool.or_eq_true] at types
    dsimp only [exec, execSsetp]
    simp only [cmpHolds_eq_condition, uniInt_eq_elem (width_pos_of_uniform types.1)]
  | isetp _ o =>
    simp only [Instr.typesOk, Bool.and_eq_true, Bool.or_eq_true] at types
    dsimp only [exec, execIsetp]
    simp only [cmpHolds_eq_condition, intSub_elem (width_pos_of_isInt (types.1.imp_right And.left))]

theorem readP_of_seen {g : Group} {n l : Nat} {b : Bool} (h : g.seen .p n l = Group.norm .p (predVal b)) : g.readP n l = b := by
  change predVal (g.readP n l) = _ at h
  cases b <;> cases hr : g.readP n l <;> simp_all [Group.norm, predVal]

/-! ### The mask of a vote (R126) -/

/-- The write of `vote.bal`: the mask of the active lanes whose source is 1. -/
def ballot (g : Group) (c : Ctl) (o : DA) : Word64 := (g.active c &&& maskOf (g.predA c o.a false)).setWidth 64

theorem getLsbD_ballot (g : Group) (c : Ctl) (o : DA) (j : Nat) :
    (ballot g c o).getLsbD j = (decide (j < 32) && lane (g.active c) j && g.readP (g.rA c o.a.reg) j) := by
  by_cases hj : j < 32
  · have voted := lane_maskOf (g.predA c o.a false) j hj
    rw [predA_plain] at voted
    rw [ballot, BitVec.getLsbD_setWidth, decide_eq_true (show j < 64 by omega), decide_eq_true hj, Bool.true_and, Bool.true_and, ← voted]
    exact lane_and ..
  · have outside : (g.active c &&& maskOf (g.predA c o.a false)).getLsbD j = false := BitVec.getLsbD_of_ge _ _ (by omega)
    rw [ballot, BitVec.getLsbD_setWidth, outside, Bool.and_false, decide_eq_false hj, Bool.false_and, Bool.false_and]

/-- A lane that is active passes the guard (R58). -/
theorem passes_of_active {g : Group} {c : Ctl} (h : g.active c ≠ 0) : g.passes c = true := by
  refine decide_eq_true fun none_ => h ?_
  rw [Group.active, none_]
  exact BitVec.zero_and ..

/-- What `vote.bal` writes: nothing where no lane is active (R59). -/
def ballotWrite (c : Ctl) (o : DA) (g : Group) : Option RegWrite × BitVec 6 :=
  if g.active c = 0 then (none, 0) else (some (Group.uniWrite (g.rD c o.d) (ballot g c o)), 0)

theorem shortResult_ballotWrite (c : Ctl) (o : DA) (s : State) :
    shortResult (ballotWrite c o) s = .ok (s, if s.cur.active c = 0 then none else some (Group.uniWrite (s.cur.rD c o.d) (ballot s.cur c o))) := by
  show Except.ok (s.withFlags (ballotWrite c o s.cur).2, (ballotWrite c o s.cur).1) = _
  unfold ballotWrite
  split <;> rw [State.withFlags_zero]

theorem voteBal_ballots {c : Ctl} {o : DA} {s s1 : State} (hr : Ready (.voteBal c o) c s s1) :
    ∃ u, exec (.voteBal c o) s = .next u ∧
      After (.voteBal c o) c s1.cur.x s1 u (fun k n _ => k = .s && n = s1.cur.rD c o.d && s1.cur.active c != 0) ∧
      (s1.cur.active c ≠ 0 → u.cur.readS (s1.cur.rD c o.d) = ballot s1.cur c o) := by
  rw [show exec (.voteBal c o) s = runInstr (.voteBal c o) c (shortResult (ballotWrite c o)) s from rfl]
  by_cases idle : s1.cur.active c = 0
  · obtain ⟨u, goes, after⟩ := runInstr_still hr ((shortResult_ballotWrite c o s1).trans (by rw [if_pos idle])) rfl
    refine ⟨u, goes, (congrArg (After _ c _ s1 u) ?_).mp after, fun on => absurd idle on⟩
    funext k n _
    simp [noDest, idle]
  · obtain ⟨u, goes, after, value⟩ :=
      runInstr_uniform hr (passes_of_active idle) ((shortResult_ballotWrite c o s1).trans (by rw [if_neg idle])) rfl rfl rfl rfl rfl
    refine ⟨u, goes, (congrArg (After _ c _ s1 u) ?_).mp after, fun _ => value⟩
    funext k n _
    rw [uniDest, passes_of_active idle, bne_iff_ne.2 idle]

/-- Settles O4: each lane takes its value, and a vote's mask is written once where some lane is active. -/
theorem predicatesAndVotes : Obligations.PredicatesAndVotes := by
  unfold Obligations.PredicatesAndVotes
  refine ⟨fun i c d b s s1 form hr => ?_, fun c o s s1 hr => ?_⟩
  · obtain ⟨dest, run⟩ := form.lanes hr.1
    obtain ⟨u, goes, after, seen⟩ := laneShort_values (v := fun g l => predVal (b g l)) hr dest (.inr rfl)
    rw [show exec i s = _ from congrFun run s]
    refine ⟨u, goes, after, fun l hl => ⟨Group.readP_63 .., fun h63 => ?_⟩⟩
    obtain ⟨value, zero⟩ := seen l hl fun h => h63 h.2
    exact ⟨fun on => readP_of_seen (value on), fun off => readP_of_seen (b := false) (zero off)⟩
  · obtain ⟨u, goes, after, value⟩ := voteBal_ballots hr
    exact ⟨u, goes, after, fun on j _ => by rw [value on, getLsbD_ballot]⟩

end Sys2Proof.Machine
end

section
/-!
`exit`: the lanes that leave, the slot that goes on, and the group that has ended (R18, R105, R106, R109).
-/
set_option Elab.async false
namespace Sys2Proof.Machine
open Sys2Proof

namespace Group

/-! ### A group that no path is left in -/

/-- No slot and no entry of the stack holds a path. -/
structure Deserted (g : Group) : Prop where
  slots : ∀ b, (g.slot b).st = .empty
  stack : g.stack = []

theorem Deserted.noPath {g : Group} (h : g.Deserted) : g.NoPath := fun e he => by rw [h.stack] at he; cases he

theorem Deserted.pathRefs {g : Group} (h : g.Deserted) : g.pathRefs = [] := by
  rw [h.noPath.pathRefs, if_pos (show g.slot0.st = .empty from h.slots false), if_pos (show g.slot1.st = .empty from h.slots true)]
  rfl

theorem Deserted.takeJoin {g : Group} (h : g.Deserted) (n : Nat) : g.takeJoin n = (g, none) := by
  unfold Group.takeJoin
  rw [h.stack]
  rfl

/-- Ending splits changes the split table alone (R105). -/
theorem Deserted.settle : ∀ (f : Nat) (ts : List DivTask) {g : Group}, g.Deserted → ∃ t, settle f ts g = { g with split := t }
  | 0, _, g, _ => ⟨g.split, rfl⟩
  | f + 1, [], g, _ => ⟨g.split, rfl⟩
  | f + 1, .settle r :: ts, g, h => by
    rw [settle_alone f (by rw [h.pathRefs]; simp)]
    exact h.settle f ts
  | f + 1, .end_ n :: ts, g, h => by
    unfold Group.settle
    split
    · exact h.settle f ts
    · have none_ : g.subtree n = [] := by rw [subtree, h.pathRefs]; rfl
      simp only [none_, h.takeJoin]
      obtain ⟨t, rest⟩ := Deserted.settle f _ (g := { g with split := g.freed n }) ⟨h.slots, h.stack⟩
      exact ⟨t, rest⟩

/-- There is nothing to fill the slots with (R106). -/
theorem Deserted.refill {g : Group} (h : g.Deserted) : g.refill = { g with slot0 := g.slot1, slot1 := {} } := by
  have off : ¬ g.slot1.st = .waiting := by rw [show g.slot1.st = .empty from h.slots true]; decide
  have dead : g.anyLive = false := dead_of_waiting (by rw [show g.slot0.st = .empty from h.slots false]; decide)
    (by rw [show g.slot1.st = .empty from h.slots true]; decide)
  unfold Group.refill
  simp only [refillSlot_none _ h.noPath, dead, Bool.false_eq_true, if_false, youngest_none (f := fun e => !e.wait) fun e he => .inl (h.noPath e he),
    if_pos (show g.slot0.st = .empty from h.slots false), if_neg off]

/-- Where no lane becomes a helper, all that leave are exited. -/
theorem exited_all (gone helpers out keep : Word32) : gone ||| ((helpers ||| out) &&& ~~~(keep &&& 0)) = gone ||| helpers ||| out := by
  rw [show keep &&& 0 = 0 from BitVec.and_zero, show ~~~(0 : Word32) = BitVec.allOnes 32 from BitVec.not_zero, BitVec.and_allOnes, BitVec.or_assoc]

theorem liveQuads_zero : liveQuads 0 = 0 := by decide

theorem eachSlot {b : Bool} {p : Bool → Prop} (mine : p b) (other : p (!b)) (d : Bool) : p d := by
  cases b <;> cases d <;> assumption

/-- R18, R109: the last lanes leave: none is a helper lane any more, and no path is left. -/
theorem leave_last {g : Group} {out : Word32} (all : g.me.mask &&& ~~~out = 0) (off : (g.slot (!g.sel1)).st = .empty) (empty : (g.slot (!g.sel1)).mask = 0)
    (stack : g.stack = []) :
    let h := g.leave out
    h.helper = 0 ∧ h.exited = g.exited ||| g.helper ||| out ∧ h.stack = [] ∧ ∀ b, (h.slot b).mask = 0 := by
  intro h
  have masks : ∀ b, ((g.setSlot g.sel1 {}).slot b).mask = 0 := eachSlot (by rw [slot_setSlot]) (by rw [slot_setSlot_not]; exact empty)
  have states : ∀ b, ((g.setSlot g.sel1 {}).slot b).st = .empty := eachSlot (by rw [slot_setSlot]) (by rw [slot_setSlot_not]; exact off)
  have nobody : (g.setSlot g.sel1 {}).live = 0 := by
    rw [NoPath.live fun e he => by rw [setSlot_stack, stack] at he; cases he]
    exact congrArg₂ (· ||| ·) (masks false) (masks true)
  obtain ⟨l, hl, slots, lstack, helper, exited⟩ : ∃ l : Group, h = (settle divFuel [.end_ g.me.parent.toNat] l).dropFrames.refill ∧
      (∀ d, l.slot d = (g.setSlot g.sel1 {}).slot d) ∧ l.stack = [] ∧ l.helper = 0 ∧ l.exited = g.exited ||| g.helper ||| out := by
    refine ⟨_, by
      show g.leave out = _
      unfold leave
      simp only [show (g.slot g.sel1).mask &&& ~~~out = 0 from all, if_true]
      rfl, fun d => ?_, ?_, ?_, ?_⟩
    · cases d <;> rfl
    · exact (setSlot_stack ..).trans stack
    · rw [nobody, liveQuads_zero]
      exact BitVec.and_zero
    · rw [nobody, liveQuads_zero, setSlot_exited, setSlot_helper]
      exact exited_all ..
  have deserted : l.Deserted := ⟨fun b => by rw [slots, states], lstack⟩
  obtain ⟨t, ended⟩ := deserted.settle divFuel [.end_ g.me.parent.toNat]
  have frames : ({ l with split := t } : Group).dropFrames.Deserted := ⟨deserted.slots, by
    show l.stack.filter _ = []
    rw [lstack]
    rfl⟩
  rw [ended, frames.refill] at hl
  rw [hl]
  exact ⟨helper, exited, frames.stack, fun b => match b with
    | false => (congrArg Slot.mask (slots true)).trans (masks true)
    | true => rfl⟩

end Group

/-! ### What `exit` comes to -/

@[simp] theorem Group.issued_me (g : Group) (k : Nat) : (g.issued k).me = g.me := rfl

/-- An instruction that has its place in the window leaves the lanes of its slot and the other slot. -/
theorem State.placed_spec (u : State) (i : Instr) (c : Ctl) (x : BitVec 16) :
    (u.placed i c x).cur.bare = u.cur.bare ∧ (u.placed i c x).cur.me.mask = u.cur.me.mask ∧
      (u.placed i c x).cur.slot (!u.cur.sel1) = u.cur.slot (!u.cur.sel1) := by
  obtain ⟨win, hk, -⟩ := Group.kills_spec u.cur i c x
  have kept : (u.cur.kills i c x).bare = u.cur.bare ∧ (u.cur.kills i c x).me.mask = u.cur.me.mask ∧
      (u.cur.kills i c x).slot (!u.cur.sel1) = u.cur.slot (!u.cur.sel1) ∧ (u.cur.kills i c x).sel1 = u.cur.sel1 := by
    rw [hk]
    exact ⟨Group.bare_setMe .., by rw [Group.me_setMe], Group.slot_setSlot_not .., Group.setMe_sel1 ..⟩
  obtain ⟨bare, mask, other, sel⟩ := kept
  obtain ⟨rest, -, -, -, place, me, -⟩ := Group.pushWin_spec (u.cur.kills i c x) none
  rw [sel] at place
  have placed : (u.placed i c x).cur = ((u.cur.kills i c x).pushWin none).issued u.steps := rfl
  rw [placed, Group.issued_bare, Group.issued_me, Group.issued_slot, rest, me, place]
  exact ⟨bare, mask, other⟩

section
variable {c : Ctl} {s s1 : State}

/-- `exit` with a lane active, behind its commit park. -/
theorem exit_leaves (h : Clear (.exit c) c true s s1) (on : s1.cur.active c ≠ 0) (clean : s1.cur.divTouched = false) :
    exec (.exit c) s = mirrored s.cur s1 s.cur.sel1 s.cur.me.pc (goExit (s1.cur.active c) c.units (s1.placed (.exit c) c s1.cur.x)) := by
  dsimp only [exec, execExit]
  rw [runWith_clear h]
  simp only [bind, Except.bind, pure, Except.pure, if_pos on, Group.divGuard, clean, Bool.false_eq_true, if_false, if_neg on]
  rfl

/-- `exit` with no lane active goes on as any other instruction behind its commit park. -/
theorem exit_idle (h : Clear (.exit c) c true s s1) (off : s1.cur.active c = 0) (inside : s1.cur.me.pc + BitVec.ofNat 32 c.units ≠ s1.cur.me.blk.bend) :
    Completes (.exit c) c s s1 s1 noDest := by
  have hr : Ready (.exit c) c s1 s1 := Clear.ready (extra := true) (by rwa [Bool.or_true]) inside
  obtain ⟨t, run, after⟩ := runInstr_still (body := fun _ => .ok (s1, none)) hr rfl rfl
  refine ⟨t, ?_, after⟩
  dsimp only [exec, execExit]
  rw [runWith_again h, runWith_park h.again hr.clear, runWith_advances hr.clear ?_, run]
  simp only [bind, Except.bind, pure, Except.pure, off, ne_eq, not_true_eq_false, if_false, if_true]

/-- A group in which no lane is left has ended, and keeps its lanes' marks (R109). -/
theorem Group.markEnded (g : Group) (none_ : g.live = 0) :
    ({ g with ended := g.live = 0 } : Group).ended = true ∧ ({ g with ended := g.live = 0 } : Group).helper = g.helper ∧
      ({ g with ended := g.live = 0 } : Group).exited = g.exited := by
  rw [none_]
  exact ⟨rfl, rfl, rfl⟩

/-- Settles O27: `exit` as one step, its lanes gone in `exit_leaves`, and in `exit_idle` where no lane is active. -/
theorem exitLeaves : Obligations.ExitLeaves := by
  unfold Obligations.ExitLeaves
  intro c s s1 h out v g0 g u
  obtain ⟨bare, mask, other⟩ : v.cur.bare = s1.cur.bare ∧ v.cur.me.mask = s1.cur.me.mask ∧ v.cur.slot (!s1.cur.sel1) = s1.cur.slot (!s1.cur.sel1) :=
    s1.placed_spec (.exit c) c s1.cur.x
  have sel : v.cur.sel1 = s1.cur.sel1 := (congrArg Group.sel1 bare : _)
  have goes : goExit out c.units v = if s1.cur.me.mask &&& ~~~out = 0 then .next u else u.advance c.units := by rw [← mask]; rfl
  refine ⟨fun on clean none_ reaches => ?_, fun on clean some_ inside reaches => ?_, fun off inside => exit_idle h off inside, fun none_ off empty stack => ?_⟩
  · rw [exit_leaves h on clean, goes, if_pos none_]
    exact mirrored_next reaches
  · rw [exit_leaves h on clean, goes, if_neg some_, advance_next u c.units inside]
    exact mirrored_next reaches
  · obtain ⟨helper, exited, nothing, masks⟩ := Group.leave_last (g := v.cur) (out := out) (by rw [mask]; exact none_) (by rw [sel, other]; exact off)
      (by rw [sel, other]; exact empty) ((congrArg Group.stack bare : _).trans stack)
    have nobody : g.live = 0 := by
      rw [Group.NoPath.live fun e he => by rw [Group.setSlot_stack, nothing] at he; cases he]
      have gone : ∀ b, (g.slot b).mask = 0 :=
        Group.eachSlot (b := v.cur.sel1) (by rw [Group.slot_setSlot]; exact masks _) (by rw [Group.slot_setSlot_not]; exact masks _)
      exact congrArg₂ (· ||| ·) (gone false) (gone true)
    obtain ⟨ended, helper', exited'⟩ := g.markEnded nobody
    refine ⟨ended, ?_, ?_⟩
    · exact helper'.trans ((Group.setSlot_helper ..).trans helper)
    · rw [show s1.cur.exited = v.cur.exited from (congrArg Group.exited bare : _).symm,
        show s1.cur.helper = v.cur.helper from (congrArg Group.helper bare : _).symm]
      exact exited'.trans ((Group.setSlot_exited ..).trans exited)

end
end Sys2Proof.Machine
end

section
/-!
Group barriers: the arrival, the wait of the members that have arrived, and the completion of a generation (R114, R304).
-/
set_option Elab.async false
namespace Sys2Proof.Machine
open Sys2Proof

/-! ### The set of a barrier, and who waits there -/

/-- A group belongs to the set of one of the two barriers (R114). -/
def inSet (gang : Bool) (key : Nat) (g : Group) : Bool := if gang then g.gang = key else g.wg = key

/-- How a group marks that it waits at one of the two barriers. -/
def waitCode (gang : Bool) : Nat := if gang then 2 else 1

/-- A group that waits at the barrier of a set goes on. -/
def wakes (gang : Bool) (p : Group → Bool) (g : Group) : Group := if p g && g.waitg = waitCode gang then { g with waitg := 0 } else g

section
variable (gang : Bool) (p : Group → Bool) (g : Group)

theorem wakes_seat : (wakes gang p g).seat = g.seat := by unfold wakes; split <;> rfl
theorem wakes_gone : (wakes gang p g).gone = g.gone := by unfold wakes; split <;> rfl
theorem wakes_inSet (key : Nat) : inSet gang key (wakes gang p g) = inSet gang key g := by unfold wakes; split <;> rfl

theorem wakes_waitg (member : p g = true) (waits : g.waitg = waitCode gang) : (wakes gang p g).waitg = 0 := by
  unfold wakes
  rw [if_pos (by rw [member, waits]; simp)]

end

namespace State
variable (s : State) (gang : Bool) (p : Group → Bool)

theorem updCores_groups {α : Type} (n : α → Nat) (f : α → Core → Core) : ∀ (l : List α) (s : State),
    (l.foldl (fun s k => s.updCore (n k) (f k)) s).cur = s.cur ∧ (l.foldl (fun s k => s.updCore (n k) (f k)) s).groups = s.groups
  | [], _ => ⟨rfl, rfl⟩
  | k :: l, s => updCores_groups n f l (s.updCore (n k) (f k))

theorem syncWake_groups : (s.syncWake gang p).cur = wakes gang p s.cur ∧ (s.syncWake gang p).groups = s.groups.map (wakes gang p) := by
  unfold syncWake
  cases gang
  · exact ⟨rfl, rfl⟩
  · exact updCores_groups (fun k : Nat × Nat => k.1) (fun k q => { q with l1 := q.l1.filter fun e => e.vf ≠ k.2 }) _ _

theorem cur_mem_members {s : State} {p : Group → Bool} (started : s.cur.id ≠ 0) (stays : s.cur.gone = false) (member : p s.cur = true) :
    s.cur ∈ s.members p := by
  simp [members, allGroups, started, stays, member]

theorem mem_members_of_mem_groups {s : State} {p : Group → Bool} {g : Group} (known : g ∈ s.groups) (stays : g.gone = false) (member : p g = true) :
    g ∈ s.members p := by
  simp [members, allGroups, known, stays, member]

variable (key : Nat) (last : Option Group)

/-- The workgroup registers that a completed generation publishes (R119). -/
def publishes : State := if gang then s else s.updWg key fun w => w.publish fun _ => true

theorem publishes_spine : (s.publishes gang key).spine = s.spine := by cases gang <;> rfl
theorem publishes_groups : (s.publishes gang key).cur = s.cur ∧ (s.publishes gang key).groups = s.groups ∧ ∀ n, (s.publishes gang key).gran n = s.gran n := by
  cases gang <;> exact ⟨rfl, rfl, fun _ => rfl⟩

/-- Every member of a set waits at its barrier, all at one generation. -/
def Arrived : Prop :=
  ∃ w ∈ s.members (inSet gang key), w.waitg = waitCode gang ∧ ∀ g ∈ s.members (inSet gang key), g.waitg = waitCode gang ∧ g.syncGen gang = w.syncGen gang

/-- What a set comes to: nothing while some member has not arrived; else, beside its records, that its members go on (R114, R119, R416). -/
theorem syncCheck_cases :
    (¬s.Arrived gang key ∧ s.syncCheck gang key last = s) ∨
    (s.Arrived gang key ∧ ∃ t : State, t.spine = s.spine ∧ ((∀ n, (s.gran n).prof = false) → t.cur = s.cur ∧ t.groups = s.groups) ∧
      s.syncCheck gang key last = t.syncWake gang (inSet gang key)) := by
  unfold syncCheck
  dsimp only
  rw [show (fun g : Group => if gang = true then decide (g.gang = key) else decide (g.wg = key)) = inSet gang key from rfl,
    show (if gang = true then 2 else 1) = waitCode gang from rfl]
  split
  next none_ =>
    refine .inl ⟨fun ⟨w, member, waits, _⟩ => ?_, rfl⟩
    exact List.find?_eq_none.1 none_ w member (decide_eq_true waits)
  next w found =>
    have member := List.mem_of_find?_eq_some found
    have waits : w.waitg = waitCode gang := by simpa using List.find?_some found
    by_cases whole : ((s.members (inSet gang key)).all fun g => decide (g.waitg = waitCode gang) && decide (g.syncGen gang = w.syncGen gang)) = true
    · rw [if_pos whole, show (if gang = true then s else s.updWg key fun w => w.publish fun _ => true) = s.publishes gang key from rfl]
      refine .inr ⟨⟨w, member, waits, by simpa using whole⟩, _, ?_, fun plain => ?_, rfl⟩
      · split
        · exact (record_spine ..).trans (s.publishes_spine gang key)
        · exact s.publishes_spine gang key
      · obtain ⟨cur, groups, gran⟩ := s.publishes_groups gang key
        rw [if_neg (by rw [gran, plain]; exact Bool.noConfusion)]
        exact ⟨cur, groups⟩
    · rw [if_neg whole]
      refine .inl ⟨fun ⟨v, _, _, all⟩ => whole ?_, rfl⟩
      have same := (all w member).2
      simpa [same] using all

/-- A set of which some member has not arrived waits on. -/
theorem syncCheck_waits (waits : ¬s.Arrived gang key) : s.syncCheck gang key last = s :=
  (s.syncCheck_cases gang key last).elim And.right fun h => (waits h.1).elim

/-- Where no slice keeps beacon records, the members of a set that has arrived go on. -/
theorem syncCheck_wakes (arrived : s.Arrived gang key) (plain : ∀ n, (s.gran n).prof = false) :
    (s.syncCheck gang key last).cur = wakes gang (inSet gang key) s.cur ∧
      (s.syncCheck gang key last).groups = s.groups.map (wakes gang (inSet gang key)) := by
  rcases s.syncCheck_cases gang key last with ⟨waits, -⟩ | ⟨-, t, -, same, goes⟩
  · exact (waits arrived).elim
  · obtain ⟨cur, groups⟩ := same plain
    rw [goes, ← cur, ← groups]
    exact t.syncWake_groups ..

/-- Whatever a set comes to, the issuing group keeps its place. -/
theorem syncCheck_seat : (s.syncCheck gang key last).cur.seat = s.cur.seat := by
  rcases s.syncCheck_cases gang key last with ⟨-, stays⟩ | ⟨-, t, spine, -, goes⟩
  · rw [stays]
  · rw [goes, (t.syncWake_groups ..).1, wakes_seat, seat_of_spine spine]

/-- A set of which some member has not arrived at the generation goes on waiting. -/
theorem not_arrived {n : BitVec 16} (missing : ∃ g ∈ s.members (inSet gang key), g.waitg ≠ waitCode gang ∨ g.syncGen gang ≠ n)
    (same : ∀ g ∈ s.members (inSet gang key), g.waitg = waitCode gang → g.syncGen gang = n) : ¬s.Arrived gang key := by
  rintro ⟨w, member, waits, all⟩
  obtain ⟨g, here, late⟩ := missing
  obtain ⟨arrived, gen⟩ := all g here
  exact late.elim (· arrived) (· (gen.trans (same w member waits)))

end State

/-! ### The arrival -/

/-- A group that arrives at one of the two barriers, at a step. -/
def Group.arrives (g : Group) (gang : Bool) (step : Nat) : Group :=
  let me := { g with syncFrom := step, syncPc := g.me.pc }
  if gang then { me with gangGen := me.gangGen + 1, waitg := 2 } else { me with wgGen := me.wgGen + 1, waitg := 1 }

section
variable (g : Group) (gang : Bool) (step : Nat)

theorem Group.arrives_seat : (g.arrives gang step).seat = g.seat := by cases gang <;> rfl
theorem Group.arrives_waitg : (g.arrives gang step).waitg = waitCode gang := by cases gang <;> rfl
theorem Group.arrives_inSet : inSet gang (if gang then g.gang else g.wg) (g.arrives gang step) = true := by cases gang <;> exact decide_eq_true rfl

end

section
variable {c : Ctl} {s s1 : State} {gang : Bool} {i : Instr}

/-- A barrier that no lane reaches. -/
theorem syncArrive_idle (run : exec i s = syncArrive i c gang s) (hr : Ready i c s s1) (off : s1.cur.passes c = false) : Completes i c s s1 s1 noDest := by
  unfold Completes
  rw [run, syncArrive, runWith_advances hr.clear (u := s1) (by simp only [off]; rfl)]
  exact runInstr_still hr rfl rfl

/-- The state in which the issuing group has arrived at the barrier of its set. -/
def State.atBarrier (s : State) (gang : Bool) : State :=
  (s.setCur (s.cur.arrives gang s.steps)).syncCheck gang (if gang then s.cur.gang else s.cur.wg) (some (s.cur.arrives gang s.steps))

/-- An arrival, once the group's loads and stores are complete. -/
theorem syncArrive_completes (run : exec i s = syncArrive i c gang s) (hr : Ready i c s s1) (on : s1.cur.passes c = true)
    (loads : s1.cur.counter .load = 0) (stores : s1.cur.counter .store = 0) : Completes i c s s1 (s1.atBarrier gang) noDest := by
  unfold Completes
  rw [run, syncArrive, runWith_advances hr.clear (u := s1.atBarrier gang) (by simp only [on, loads, stores]; rfl)]
  exact runInstr_seated hr rfl ((State.syncCheck_seat ..).trans (Group.arrives_seat ..))

end

/-- Settles O30: a set that has not arrived stays as it is, one that has arrived wakes each of its members. -/
theorem groupSynchronisation : Obligations.GroupSynchronisation := by
  unfold Obligations.GroupSynchronisation
  intro c s s1 gang i hi hr
  have run : exec i s = syncArrive i c gang s := by rw [hi]; cases gang <;> rfl
  have members : (fun g : Group => if gang = true then decide (g.gang = s1.cur.gang) else decide (g.wg = s1.cur.wg)) =
      inSet gang (if gang then s1.cur.gang else s1.cur.wg) := by cases gang <;> rfl
  refine ⟨syncArrive_idle run hr, fun on loads stores => ?_⟩
  intro me0 me u
  rw [members]
  refine ⟨syncArrive_completes run hr on loads stores, fun missing same => State.syncCheck_waits _ _ _ _ (State.not_arrived _ _ _ missing same), ?_⟩
  intro all stays started plain
  have here : me ∈ (s1.setCur me).members (inSet gang (if gang then s1.cur.gang else s1.cur.wg)) :=
    State.cur_mem_members started stays (Group.arrives_inSet ..)
  obtain ⟨cur, groups⟩ := State.syncCheck_wakes (s1.setCur me) gang _ (some me) ⟨me, here, (all me here).1, all⟩ plain
  refine ⟨(congrArg Group.waitg cur).trans (wakes_waitg _ _ _ (Group.arrives_inSet ..) (Group.arrives_waitg ..)), fun g listed _ live member => ?_⟩
  obtain ⟨g, known, rfl⟩ := List.mem_map.1 (groups ▸ listed)
  have joined : inSet gang (if gang then s1.cur.gang else s1.cur.wg) g = true := by
    rw [← wakes_inSet gang (inSet gang (if gang then s1.cur.gang else s1.cur.wg)), inSet]
    cases gang <;> exact decide_eq_true member
  have stayed : g.gone = false := (wakes_gone ..).symm.trans live
  exact wakes_waitg _ _ _ joined (all g (State.mem_members_of_mem_groups known stayed joined)).1

end Sys2Proof.Machine
end

section
/-!
`launch`: the record and the slot at issue (R115, R352).
-/
set_option Elab.async false
namespace Sys2Proof.Machine
open Sys2Proof

/-- The two lines at an address, as `launch` asks for its record and for its slot. -/
def twoLines (va : Nat) : List LaneReq := [{ lane := 0, va }, { lane := 0, va := (va + 64) % 2 ^ 64 }]

namespace State
variable {s : State} {accs : List LaneAcc} {acc : Nat}

/-- Whole lines that no older access of the group stands on, and whose requests are not lost, are read as they issue (R305, R331). -/
theorem readNow_lines (settles : s.settled (accs.map fun a => (0, Loc.pa a.pa, 64)) = .ok ()) (kept : ∀ a ∈ accs, s.lost a.pa = false) :
    s.readNow acc (accs.map fun a => (a.va, a.pa, 64)) =
      .ok (accs.foldl (fun t a => t.readOnce acc (s.cur.agent s.cur.me.pc) (a.va, a.pa)) s, accs.flatMap fun a => s.homeRead a.pa 64) := by
  have none_ : (accs.map fun a => (a.va, a.pa, 64)).find? (fun l => s.lost l.2.1) = none := by simpa using kept
  unfold readNow
  dsimp only
  rw [List.map_map, none_, List.foldl_map, List.flatMap_map]
  simp only [bind, Except.bind, Function.comp_def, settles]
  rfl

theorem readOnce_spine (ag : Agent) (l : Nat × Nat) : (s.readOnce acc ag l).spine = s.spine := (noteRead_spine ..).trans (dropCoreLine_spine ..)

end State

section
variable {c : Ctl} {o : AB} {s s1 : State}

/-- A `launch` that no lane passes joins the STORE operations and is over. -/
theorem launch_off (hr : Ready (.launch c o) c s s1) (path : s1.pathFree .store = .ok ()) (off : s1.cur.passes c = false) :
    Completes (.launch c o) c s s1 (s1.setCur (s1.cur.addOp s1.steps (some .store) .null)) noDest := by
  unfold Completes
  dsimp only [exec, execLaunch]
  exact runInstr_still hr (by simp only [path, off]; rfl) rfl

/-- What `launch` does at issue, once its record's address and its queue are allowed, its record is read and its slot is granted (R115, R352). -/
theorem launch_on {s2 seen s3 : State} {accs out : List LaneAcc} {rec_ : List Byte} {va q slot : Nat} (hr : Ready (.launch c o) c s s1)
    (path : s1.pathFree .store = .ok ()) (on : s1.cur.passes c = true) (address : (s1.cur.uniA c o.a).toNat = va) (number : (s1.cur.uniB c o.b).toNat = q)
    (aligned : va % 64 = 0) (small : q < 16) (enabled : (s1.queue s1.cur.vf q).enabled = true) (dev : (s1.queue s1.cur.vf q).dev = true)
    (record : s1.accept s1.cur.vf .read 1 true (twoLines va) = .ok (s2, accs))
    (read : s2.readNow 0 (accs.map fun a => (a.va, a.pa, 64)) = .ok (seen, rec_))
    (room : (seen.queue s1.cur.vf q).held + (seen.unaccepted s1.cur.vf q).length < (seen.queue s1.cur.vf q).size)
    (next : (seen.queue s1.cur.vf q).slotAt ((seen.queue s1.cur.vf q).tail.toNat + (seen.unaccepted s1.cur.vf q).length) = slot)
    (granted : seen.accept s1.cur.vf .write 1 false (twoLines slot) = .ok (s3, out)) :
    Completes (.launch c o) c s s1 (s3.setCur (s3.cur.addOp s3.steps (some .store) (.launch rec_ q slot (((out.head?).map (·.pa)).getD 0)))) noDest := by
  have seat : s3.cur.seat = s1.cur.seat := by
    rw [State.seat_of_spine (State.accept_spine granted), State.seat_of_spine (State.readNow_spine read), State.seat_of_spine (State.accept_spine record)]
  have full : ¬(seen.queue s1.cur.vf q).size ≤ (seen.queue s1.cur.vf q).held + (seen.unaccepted s1.cur.vf q).length := Nat.not_le.2 room
  have first : ¬(16 ≤ q) := Nat.not_le.2 small
  unfold twoLines at record granted
  unfold Completes
  dsimp only [exec, execLaunch]
  refine runInstr_seated hr ?_ ((Group.seat_of_stance (Group.stance_addOp ..)).trans seat)
  simp [path, on, bind, Except.bind, pure, Except.pure, trapIf, address, number, aligned, first, enabled, dev, record, read, full, next, granted, -Nat.reducePow]

end

/-- Settles O31: the record is read as the lines of `launch_on`, which carries the instruction through its issue. -/
theorem launchInstruction : Obligations.LaunchInstruction := by
  unfold Obligations.LaunchInstruction
  intro c o s s1 hr path
  refine ⟨launch_off hr path, fun s2 s3 accs out on settles kept => ?_⟩
  intro va q g rec_ seen qu k slot aligned small enabled dev record room granted
  exact launch_on hr path on rfl rfl aligned small enabled dev record (State.readNow_lines settles kept) room rfl granted

end Sys2Proof.Machine
end

section
/-!
Results of per-lane instructions made of sub-elements, and the exact vector integer results (R26, R58, R127, R131, R136).
-/
set_option Elab.async false
namespace Sys2Proof.Machine
open Sys2Proof

/-! ### Results in the lanes of an instruction (R58, R63, R127) -/

/-- A short per-lane result with flags: the lanes that take it hold its values, and those of the zero clause hold zero. -/
theorem laneShort_takes {i : Instr} {c : Ctl} {s s1 : State} {cls : RClass} {d : BitVec 8} {f : Group → Nat → Flagged Word64} (hr : Ready i c s s1)
    (dest : i.operands.d = Opnd.of cls d) (hc : cls = .v ∨ cls = .p) :
    ∃ u, runInstr i c (laneShort c cls (fun g => g.rD c d) f) s = .next u ∧
      After i c s1.cur.x (s1.withFlags (s1.cur.laneResult c cls (s1.cur.rD c d) (f s1.cur)).2) u (laneDest s1.cur c cls (s1.cur.rD c d)) ∧
      ∀ l < 32, ¬(cls = .p ∧ s1.cur.rD c d = 63) →
        (takes s1.cur c l → u.cur.seen cls (s1.cur.rD c d) l = Group.norm cls (f s1.cur l).1) ∧
        (lane (s1.cur.zeroLanes c) l = true → u.cur.seen cls (s1.cur.rD c d) l = Group.norm cls 0) := by
  obtain ⟨u, goes, after, seen⟩ := laneShort_after (reg := fun g => g.rD c d) (f := f) hr (show cls ≠ .s by rintro rfl; simp at hc)
  have bound := hr.dest dest one_pos (hc.imp_right .inr)
  refine ⟨u, goes, after, fun l hl h63 => ⟨fun ⟨on, nonzero⟩ => ?_, fun zero => ?_⟩⟩
  · rw [seen l hl bound h63 (by rw [Group.written, lane_or, on, Bool.true_or]), nonzero]
    rfl
  · rw [seen l hl bound h63 (by rw [Group.written, lane_or, zero, Bool.or_true]), zero]
    rfl

/-- A short vector result made of sub-elements: each is delivered in its place, and the flags of the active lanes are added at issue. -/
theorem laneShort_subs {i : Instr} {c : Ctl} {s s1 : State} {d : BitVec 8} {w : Nat} {f : Group → Nat → Nat → Flagged Nat} (hr : Ready i c s s1)
    (dest : i.operands.d = Opnd.of .v d) :
    ∃ u, runInstr i c (laneShort c .v (fun g => g.rD c d) fun g l => bySubF w (f g l)) s = .next u ∧
      After i c s1.cur.x (s1.withFlags (raised s1.cur c (64 / w) fun l k => (f s1.cur l k).2)) u (laneDest s1.cur c .v (s1.cur.rD c d)) ∧
      ∀ l < 32, (takes s1.cur c l → u.cur.seen .v (s1.cur.rD c d) l = (bySubF w (f s1.cur l)).1) ∧
        (lane (s1.cur.zeroLanes c) l = true → u.cur.seen .v (s1.cur.rD c d) l = 0) := by
  obtain ⟨u, goes, after, seen⟩ := laneShort_takes (f := fun g l => bySubF w (f g l)) hr dest (.inl rfl)
  exact ⟨u, goes, laneResult_raised .. ▸ after, fun l hl => seen l hl (by simp)⟩

theorem bitsAt_bySubF {t : Ty} (f : Nat → Flagged Nat) {k : Nat} (hk : k < 64 / t.width) : bitsAt t (bySubF t.width f).1 k = (f k).1 % 2 ^ t.width :=
  subEl_bySubF t.width f k hk (Nat.mul_div_le ..)

/-! ### Exact integer results (R131, R136) -/

theorem abs_eq_ite {α : Type} [AddCommGroup α] [LinearOrder α] [IsOrderedAddMonoid α] (a : α) : |a| = if a < 0 then -a else a := by
  split
  next minus => exact abs_of_neg minus
  next plus => exact abs_of_nonneg (not_lt.mp plus)

theorem abs_sub_eq_ite (a b : Int) : |a - b| = if a < b then b - a else a - b := by
  rw [abs_eq_ite, neg_sub]
  exact if_congr sub_neg rfl rfl

theorem width_pos_of_int {t : Ty} (h : t.isInt = true) : 0 < t.width := width_pos_of_isInt (.inl h)

/-- The type of the sums of `idp4` (R136). -/
theorem width_pos_of_idp4 (ta tb : Ty) : 0 < (if ta = .i8 ∨ tb = .i8 then Ty.i32 else .n32).width := by
  split <;> decide

theorem width_pos_of_byte {t : Ty} (h : t = .i8 ∨ t = .n8) : 0 < t.width := by
  rcases h with rfl | rfl <;> decide

/-- The type of an exact integer result has a width, and those of its factors as well (R131, R136). -/
theorem IntResult.width_pos {i : Instr} {c : Ctl} {d : BitVec 8} {t : Ty} {sat : Bool} {x : Group → Nat → Nat → Int} (h : IntResult i c d t sat x)
    (wf : i.wf = true) : 0 < t.width := by
  have types := wf_types wf (by cases h <;> exact Option.some_ne_none c)
  cases h <;> simp only [Instr.typesOk, Bool.and_eq_true] at types
  case idp4 => exact width_pos_of_idp4 ..
  case iadd | isub | imul | imad | isad => exact width_pos_of_int types
  case imulh | imin | imax => exact width_pos_of_int types.1
  case iabs | ineg => exact width_pos_of_int (by rw [Ty.isInt, types, Bool.true_or])

/-- The exact integer results are those of an instruction that fits each sub-element's value to its type. -/
theorem IntResult.fits {i : Instr} {c : Ctl} {d : BitVec 8} {t : Ty} {sat : Bool} {x : Group → Nat → Nat → Int} (h : IntResult i c d t sat x)
    (wf : i.wf = true) :
    i.operands.d = Opnd.of .v d ∧
      (fun s => exec i s) = runInstr i c (laneShort c .v (fun g => g.rD c d) fun g l => intSubs t sat (x g l)) := by
  refine ⟨by cases h <;> rfl, ?_⟩
  have pos := h.width_pos wf
  cases h with
  | iadd _ o | isub _ o | imul _ o | imulh _ o | imad _ o | ineg _ o | imin _ o | imax _ o =>
    simp only [← intSub_elem pos]
    rfl
  | iabs _ o =>
    simp only [← intSub_elem pos, abs_eq_ite]
    rfl
  | isad _ o =>
    simp only [← intSub_elem pos, abs_sub_eq_ite]
    rfl
  | idp4 _ o =>
    have types := wf_types wf (Option.some_ne_none c)
    simp only [Instr.typesOk, Bool.and_eq_true, Bool.or_eq_true, decide_eq_true_eq] at types
    simp only [← intSub_elem pos, ← intSub_elem (width_pos_of_byte types.1), ← intSub_elem (width_pos_of_byte types.2)]
    dsimp only [exec, execIdp4]
    simp only [Bool.or_eq_true, decide_eq_true_eq]
    rfl

/-- Settles O1: each sub-element is the exact value fitted to the type, and SI is what the active lanes' fits raise. -/
theorem vectorIntegerArithmetic : Obligations.VectorIntegerArithmetic := by
  unfold Obligations.VectorIntegerArithmetic
  intro i c d t sat x s s1 form hr
  obtain ⟨dest, run⟩ := form.fits hr.1
  have pos := form.width_pos hr.1
  obtain ⟨u, goes, after, seen⟩ := laneShort_subs (w := t.width) (f := fun g l k => fitInt t sat (x g l k)) hr dest
  rw [show exec i s = _ from congrFun run s]
  refine ⟨u, goes, raised_siFlag s1.cur c pos sat (x s1.cur) ▸ after, fun l hl => ⟨fun on k hk => ?_, (seen l hl).2⟩⟩
  rw [(seen l hl).1 on]
  exact elem_intSubs pos sat (x s1.cur l) hk

end Sys2Proof.Machine
end

section
/-!
Vector results given bit by bit: shifts, fields, bit orders, permutations, logic, moves and selects, and the bit counts (R132, R133, R135, R137).
-/
set_option Elab.async false
namespace Sys2Proof.Machine
open Sys2Proof

/-! ### Bits of numbers and of sub-elements (R26) -/

theorem bitOf_eq_testBit (n i : Nat) : bitOf n i = n.testBit i := by
  rw [Nat.testBit_eq_decide_div_mod_eq]
  rfl

theorem testBit_subEl (w : Nat) (v : Word64) (k j : Nat) : (subEl w v k).testBit j = (decide (j < w) && v.getLsbD (w * k + j)) := by
  rw [subEl, Nat.testBit_mod_two_pow, Nat.testBit_div_two_pow, BitVec.testBit_toNat, Nat.add_comm j]

/-- A bit of a sub-element is that bit of the number that the sub-element is. -/
theorem testBit_subEl_of_lt {t : Ty} (v : Word64) (k : Nat) {j : Nat} (hj : j < t.width) : (subEl t.width v k).testBit j = bitAt t v k j := by
  rw [testBit_subEl, decide_eq_true hj, Bool.true_and, bitAt]

theorem bitAt_bySub {t : Ty} (f : Nat → Nat) {k j : Nat} (hk : k < 64 / t.width) (hj : j < t.width) :
    bitAt t (bySub t.width f) k j = (f k).testBit j := by
  rw [← testBit_subEl_of_lt _ _ hj, subEl_bySub t.width f k hk (Nat.mul_div_le ..), Nat.testBit_mod_two_pow, decide_eq_true hj, Bool.true_and]

/-- The one sub-element of a whole-lane operation is the lane value (R135). -/
theorem bitAt_b64 (v : Word64) {k : Nat} (hk : k < 64 / Ty.b64.width) (j : Nat) : bitAt .b64 v k j = v.getLsbD j := by
  obtain rfl : k = 0 := Nat.lt_one_iff.mp hk
  rw [bitAt, Nat.mul_zero, Nat.zero_add]

theorem width_pos_of_bits {t : Ty} (h : t.isB = true) : 0 < t.width := width_pos_of_isInt (.inr h)

/-! ### Bit orders, fields and functions (R132, R133, R135) -/

/-- Bits appended one after another: the last is the lowest. -/
theorem testBit_foldl_double (b : Nat → Bool) (m j : Nat) :
    ((List.range m).foldl (fun a i => 2 * a + b2n (b i)) 0).testBit j = (decide (j < m) && b (m - 1 - j)) := by
  induction m generalizing j with
  | zero => simp
  | succ m ih =>
    rw [List.range_succ, List.foldl_append, List.foldl_cons, List.foldl_nil]
    cases j with
    | zero => cases last : b m <;> simp [Nat.testBit_zero, b2n, last]
    | succ j =>
      have half (a : Nat) : (2 * a + b2n (b m)) / 2 = a := by unfold b2n; split <;> omega
      rw [Nat.testBit_succ, half, ih]
      by_cases h : j < m
      · simp [h, show m - 1 - j = m - (j + 1) by omega]
      · simp [h]

theorem testBit_bitReverse (w n : Nat) {j : Nat} (hj : j < w) : (bitReverse w n).testBit j = n.testBit (w - 1 - j) := by
  rw [bitReverse, testBit_foldl_double, decide_eq_true hj, Bool.true_and, bitOf_eq_testBit]

/-- The number made of single bits. -/
theorem testBit_packBits (b : Nat → Bool) {n j : Nat} (hj : j < n) : (packSubs 1 ((List.range n).map fun i => b2n (b i))).testBit j = b j := by
  have get := packSubs_get 1 ((List.range n).map fun i => b2n (b i)) j (by simpa using hj)
  rw [Nat.one_mul, List.getElem_map, List.getElem_range] at get
  rw [Nat.testBit_eq_decide_div_mod_eq, show ∀ x : Nat, x % 2 = x % 2 ^ 1 from fun _ => rfl, get]
  cases b j <;> rfl

theorem testBit_bitInsert (n a b d : Nat) {j : Nat} (hj : j < n) :
    (bitInsert n a b d).testBit j = if b % 256 ≤ j ∧ j < b % 256 + min (b / 256 % 256) n then a.testBit (j - b % 256) else d.testBit j := by
  rw [bitInsert, testBit_packBits _ hj, ← Bool.decide_and]
  simp only [decide_eq_true_eq, bitOf_eq_testBit]

/-- Bit `i` of the field that `bfe` reads at an offset, beyond the sub-element the sign or zero (R133). -/
def fieldBit (t : Ty) (a off i : Nat) : Bool :=
  if off + i < t.width then a.testBit (off + i) else t.isI && a.testBit (t.width - 1)

/-- The low bits of a number read with its sign are those of its sign extension. -/
theorem testBit_lowBits_signedOf {n : Nat} (hn : 0 < n) (w a : Nat) {j : Nat} (hj : j < w) :
    (lowBits w (signedOf n a)).testBit j = a.testBit (min j (n - 1)) := by
  rw [lowBits_eq_ofInt, signedOf_eq_toInt hn, ← BitVec.signExtend, BitVec.testBit_toNat, BitVec.getLsbD_signExtend, decide_eq_true hj, Bool.true_and,
    BitVec.msb_eq_getLsbD_last, BitVec.getLsbD_ofNat, BitVec.getLsbD_ofNat]
  split
  next inside => rw [min_eq_left (by omega), decide_eq_true inside, Bool.true_and]
  next outside => rw [min_eq_right (by omega), decide_eq_true (by omega), Bool.true_and]

theorem lowBits_natCast (w n : Nat) : lowBits w (n : Int) = n % 2 ^ w := by
  rw [lowBits, ← pow_cast, ← Int.natCast_mod, Int.toNat_natCast]

theorem testBit_field {t : Ty} (ht : 0 < t.width) (a off : Nat) {wid i : Nat} (hw : wid ≤ t.width) (hi : i < wid) :
    (lowBits wid (intOf t a / 2 ^ off)).testBit i = fieldBit t a off i := by
  have inside : i < t.width := hi.trans_le hw
  unfold intOf fieldBit
  split
  case isTrue signed =>
    have shifted : signedOf t.width a / 2 ^ off = ((BitVec.ofNat t.width a).sshiftRight off).toInt := by
      rw [signedOf_eq_toInt ht, BitVec.toInt_sshiftRight, Int.shiftRight_eq_div_pow]
      norm_cast
    rw [shifted, lowBits_eq_ofInt, ← BitVec.signExtend, BitVec.testBit_toNat, BitVec.getLsbD_signExtend, BitVec.getLsbD_sshiftRight,
      BitVec.msb_eq_getLsbD_last, BitVec.getLsbD_ofNat, BitVec.getLsbD_ofNat, decide_eq_true hi, if_pos inside, decide_eq_false inside.not_ge]
    split
    next near => simp [near]
    next => simp [signed, show t.width - 1 < t.width by omega]
  case isFalse unsigned =>
    rw [← pow_cast, ← Int.natCast_div, lowBits_natCast, Nat.testBit_mod_two_pow, decide_eq_true hi, Nat.testBit_div_two_pow, Nat.testBit_mod_two_pow,
      Nat.add_comm i]
    by_cases near : off + i < t.width <;> simp [near, unsigned]

theorem testBit_bitExtract {t : Ty} (ht : 0 < t.width) (a b : Nat) {j : Nat} (hj : j < t.width) :
    (bitExtract t a b).testBit j = if j < fieldWid t b then fieldBit t a (fieldOff b) j
      else t.isI && fieldWid t b ≠ 0 && fieldBit t a (fieldOff b) (fieldWid t b - 1) := by
  have narrow : fieldWid t b ≤ t.width := min_le_right ..
  change (if fieldWid t b = 0 then 0 else if t.isI then lowBits t.width (signedOf (fieldWid t b) (lowBits (fieldWid t b) (intOf t a / 2 ^ fieldOff b)))
    else lowBits (fieldWid t b) (intOf t a / 2 ^ fieldOff b)).testBit j = _
  by_cases none_ : fieldWid t b = 0
  · simp [none_]
  · have last : fieldWid t b - 1 < fieldWid t b := by omega
    rw [if_neg none_]
    split
    case isTrue signed =>
      rw [testBit_lowBits_signedOf (Nat.pos_of_ne_zero none_) _ _ hj, testBit_field ht _ _ narrow (by omega), signed]
      split
      next inside => rw [min_eq_left (by omega)]
      next outside => simp [none_, min_eq_right (show fieldWid t b - 1 ≤ j by omega)]
    case isFalse unsigned =>
      split
      next inside => exact testBit_field ht _ _ narrow inside
      next outside =>
        rw [lowBits_eq_ofInt, BitVec.testBit_toNat, BitVec.getLsbD_of_ge _ _ (by omega)]
        simp [unsigned]

theorem getLsbD_fun2 (code : BitVec 4) (a b : Word64) {j : Nat} (hj : j < 64) : (fun2 code a b).getLsbD j = twoInput code (a.getLsbD j) (b.getLsbD j) := by
  have choose (p : Bool) (v : Word64) : (if p then v else 0).getLsbD j = (p && v.getLsbD j) := by cases p <;> simp
  simp only [fun2, twoInput, BitVec.getLsbD_or, choose, BitVec.getLsbD_and, BitVec.getLsbD_not, hj, decide_true, Bool.true_and]
  cases a.getLsbD j <;> cases b.getLsbD j <;> simp

/-- An immediate of 27 bits, extended by its sign (R135). -/
theorem getLsbD_signExtend_imm (imm : BitVec 27) {j : Nat} (hj : j < 64) : (imm.signExtend 64).getLsbD j = imm.getLsbD (min j 26) := by
  rw [BitVec.getLsbD_signExtend, BitVec.msb_eq_getLsbD_last, decide_eq_true hj, Bool.true_and]
  split
  next low => rw [min_eq_left (by omega)]
  next high => rw [min_eq_right (by omega)]

/-! ### Results bit by bit -/

/-- The type of a result given bit by bit has a width. -/
theorem BitResult.width_pos {i : Instr} {c : Ctl} {d : BitVec 8} {t : Ty} {b : Group → Nat → Nat → Nat → Bool} (h : BitResult i c d t b)
    (wf : i.wf = true) : 0 < t.width := by
  have types := wf_types wf (by cases h <;> exact Option.some_ne_none c)
  cases h <;> simp only [Instr.typesOk, Bool.and_eq_true, Bool.or_eq_true, decide_eq_true_eq] at types
  case ishl | ishr | isar | brev => exact width_pos_of_bits types.1
  case bfe => exact width_pos_of_uniform (.inl types.1)
  case bfi => exact width_pos_of_uniform (.inr types.1)
  case swz => rcases types.1 with (e | e) | e <;> rw [e] <;> decide
  all_goals decide

/-- A result given bit by bit is the lane value of those bits. -/
theorem BitResult.bits {i : Instr} {c : Ctl} {d : BitVec 8} {t : Ty} {b : Group → Nat → Nat → Nat → Bool} (h : BitResult i c d t b) (wf : i.wf = true) :
    i.operands.d = Opnd.of .v d ∧
      ∃ v : Group → Nat → Word64, (fun s => exec i s) = runInstr i c (laneShort c .v (fun g => g.rD c d) fun g l => (v g l, 0)) ∧
        ∀ g l, ∀ k < 64 / t.width, ∀ j < t.width, bitAt t (v g l) k j = b g l k j := by
  refine ⟨by cases h <;> rfl, ?_⟩
  have pos := h.width_pos wf
  cases h with
  | ishl _ o =>
    refine ⟨fun g l => bySub o.ty.width fun k =>
        shiftLeft o.ty.width (subEl o.ty.width (g.srcA c o.a l) k) (subEl o.ty.width (g.srcB c o.uni o.b l) k),
      rfl, fun g l k hk j hj => ?_⟩
    rw [bitAt_bySub _ hk hj, testBit_shiftLeft, decide_eq_true hj, Bool.true_and, testBit_subEl_of_lt _ _ (by omega)]
    rfl
  | ishr _ o =>
    refine ⟨fun g l => bySub o.ty.width fun k =>
        shiftRight o.ty.width (subEl o.ty.width (g.srcA c o.a l) k) (subEl o.ty.width (g.srcB c o.uni o.b l) k),
      rfl, fun g l k hk j hj => ?_⟩
    rw [bitAt_bySub _ hk hj, testBit_shiftRight, testBit_subEl, ← Bool.and_assoc, Bool.and_self]
    rfl
  | isar _ o =>
    refine ⟨fun g l => bySub o.ty.width fun k =>
        shiftSign o.ty.width (subEl o.ty.width (g.srcA c o.a l) k) (subEl o.ty.width (g.srcB c o.uni o.b l) k),
      rfl, fun g l k hk j hj => ?_⟩
    rw [bitAt_bySub _ hk hj, testBit_shiftSign _ _ _ pos, decide_eq_true hj, Bool.true_and, testBit_subEl_of_lt _ _ (by omega)]
    rfl
  | brev _ o =>
    refine ⟨fun g l => bySub o.ty.width fun k => bitReverse o.ty.width (subEl o.ty.width (g.srcA c o.a l) k), rfl, fun g l k hk j hj => ?_⟩
    rw [bitAt_bySub _ hk hj, testBit_bitReverse _ _ hj, testBit_subEl_of_lt _ _ (by omega)]
  | bfe _ o =>
    refine ⟨fun g l => bySub o.ty.width fun k => bitExtract o.ty (subEl o.ty.width (g.srcA c o.a l) k) (subEl o.ty.width (g.srcB c o.uni o.b l) k),
      rfl, fun g l k hk j hj => ?_⟩
    have field (off i : Nat) : fieldBit o.ty (subEl o.ty.width (g.srcA c o.a l) k) off i =
        if off + i < o.ty.width then bitAt o.ty (g.srcA c o.a l) k (off + i) else o.ty.isI && bitAt o.ty (g.srcA c o.a l) k (o.ty.width - 1) := by
      unfold fieldBit
      rw [testBit_subEl_of_lt _ _ (show o.ty.width - 1 < o.ty.width by omega)]
      exact if_ctx_congr Iff.rfl (testBit_subEl_of_lt _ _) fun _ => rfl
    rw [bitAt_bySub _ hk hj, testBit_bitExtract pos _ _ hj]
    simp only [field]
    rfl
  | bfi _ o =>
    refine ⟨fun g l => bySub o.ty.width fun k =>
        bitInsert o.ty.width (subEl o.ty.width (g.srcA c o.a l) k) (subEl o.ty.width (g.srcB c o.uni o.b l) k) (subEl o.ty.width (g.srcC c l) k),
      rfl, fun g l k hk j hj => ?_⟩
    rw [bitAt_bySub _ hk hj, testBit_bitInsert _ _ _ _ hj, testBit_subEl_of_lt _ _ hj]
    exact if_ctx_congr Iff.rfl (fun inside => testBit_subEl_of_lt _ _ (by omega)) fun _ => rfl
  | swz _ o =>
    refine ⟨fun g l => bySub o.ty.width fun k =>
        if bitOf (subEl o.ty.width (g.srcB c o.uni o.b l) k) (o.ty.width - 1) then 0
        else subEl o.ty.width (g.srcA c o.a l) ((subEl o.ty.width (g.srcB c o.uni o.b l) k) % subCount o.ty.width),
      rfl, fun g l k hk j hj => ?_⟩
    rw [bitAt_bySub _ hk hj, bitOf_eq_testBit, testBit_subEl_of_lt _ _ (show o.ty.width - 1 < o.ty.width by omega)]
    dsimp only
    cases bitAt o.ty (g.srcB c o.uni o.b l) k (o.ty.width - 1)
    · rw [if_neg (by simp), testBit_subEl_of_lt _ _ hj, Bool.not_false, Bool.true_and]
      rfl
    · simp
  | lop3 _ o =>
    refine ⟨fun g l => (fun2 o.f0 (g.srcA c o.a l) (g.srcB c o.uni o.b l) &&& ~~~g.srcC c l) |||
        (fun2 o.f1 (g.srcA c o.a l) (g.srcB c o.uni o.b l) &&& g.srcC c l),
      rfl, fun g l k hk j hj => ?_⟩
    replace hj : j < 64 := hj
    rw [bitAt_b64 _ hk, BitVec.getLsbD_or, BitVec.getLsbD_and, BitVec.getLsbD_and, BitVec.getLsbD_not, getLsbD_fun2 _ _ _ hj, getLsbD_fun2 _ _ _ hj,
      decide_eq_true hj, Bool.true_and]
    dsimp only
    cases (g.srcC c l).getLsbD j <;> simp
  | imov _ o => exact ⟨fun g l => if o.uni then g.uniA c o.a else g.srcA c o.a l, rfl, fun g l k hk j _ => bitAt_b64 _ hk j⟩
  | isel _ o => exact ⟨fun g l => if g.readP (g.rC c) l then g.srcA c o.a l else g.srcB c o.uni o.b l, rfl, fun g l k hk j _ => bitAt_b64 _ hk j⟩
  | imovi _ o =>
    refine ⟨fun _ _ => o.imm.signExtend 64, rfl, fun g l k hk j hj => ?_⟩
    rw [bitAt_b64 _ hk, getLsbD_signExtend_imm _ hj]

/-! ### Bit counts (R132) -/

theorem popCount_lt (w n : Nat) : popCount w n < 2 ^ w := by
  refine lt_of_le_of_lt ?_ Nat.lt_two_pow_self
  rw [popCount]
  exact (List.length_filter_le ..).trans_eq List.length_range

theorem popCount_subEl (t : Ty) (v : Word64) (k : Nat) :
    popCount t.width (subEl t.width v k) = ((List.range t.width).filter (bitAt t v k)).length := by
  rw [popCount]
  congr 1
  refine List.filter_congr fun j hj => ?_
  rw [bitOf_eq_testBit, testBit_subEl_of_lt _ _ (List.mem_range.mp hj)]

theorem leadingZeros_le (w n : Nat) : leadingZeros w n ≤ w := by
  unfold leadingZeros
  split <;> omega

/-- The 0 bits counted by `clz` stand above the highest 1 bit. -/
theorem leadingZeros_spec (w n : Nat) :
    (∀ j < w, w ≤ j + leadingZeros w n → n.testBit j = false) ∧ (leadingZeros w n < w → n.testBit (w - 1 - leadingZeros w n) = true) := by
  have low {j : Nat} (hj : j < w) : n.testBit j = (n % 2 ^ w).testBit j := by rw [Nat.testBit_mod_two_pow, decide_eq_true hj, Bool.true_and]
  unfold leadingZeros
  split
  case isTrue zero => exact ⟨fun j hj _ => by rw [low hj, zero, Nat.zero_testBit], fun h => (lt_irrefl w h).elim⟩
  case isFalse nonzero =>
    have top : (n % 2 ^ w).log2 < w := (Nat.log2_lt nonzero).mpr (Nat.mod_lt _ (by positivity))
    refine ⟨fun j hj above => ?_, fun _ => ?_⟩
    · rw [low hj]
      exact Nat.testBit_lt_two_pow ((Nat.log2_lt nonzero).mp (by omega))
    · rw [show w - 1 - (w - 1 - (n % 2 ^ w).log2) = (n % 2 ^ w).log2 by omega, low top]
      exact Nat.testBit_log2 nonzero

/-- A short vector result of one number in each sub-element, without flags. -/
theorem laneShort_numbers {i : Instr} {c : Ctl} {s s1 : State} {d : BitVec 8} {t : Ty} {f : Group → Nat → Nat → Nat} (hr : Ready i c s s1)
    (dest : i.operands.d = Opnd.of .v d) (small : ∀ g l k, f g l k < 2 ^ t.width) :
    ∃ u, runInstr i c (laneShort c .v (fun g => g.rD c d) fun g l => (bySub t.width (f g l), 0)) s = .next u ∧
      After i c s1.cur.x s1 u (laneDest s1.cur c .v (s1.cur.rD c d)) ∧
      ∀ l < 32, (takes s1.cur c l → ∀ k < 64 / t.width, bitsAt t (u.cur.seen .v (s1.cur.rD c d) l) k = f s1.cur l k) ∧
        (lane (s1.cur.zeroLanes c) l = true → u.cur.seen .v (s1.cur.rD c d) l = 0) := by
  obtain ⟨u, goes, after, seen⟩ := laneShort_values (v := fun g l => bySub t.width (f g l)) hr dest (.inl rfl)
  refine ⟨u, goes, after, fun l hl => ⟨fun on k hk => ?_, (seen l hl (by simp)).2⟩⟩
  rw [(seen l hl (by simp)).1 on]
  exact (subEl_bySub t.width _ k hk (Nat.mul_div_le ..)).trans (Nat.mod_eq_of_lt (small ..))

/-- Settles O2: the results bit by bit are lane values of those bits, and the counts are numbers below the width's range. -/
theorem vectorBits : Obligations.VectorBits := by
  unfold Obligations.VectorBits
  refine ⟨fun i c d t b s s1 form hr => ?_, fun c o s s1 => ⟨fun hr => ?_, fun hr => ?_⟩⟩
  · obtain ⟨dest, v, run, bits⟩ := form.bits hr.1
    obtain ⟨u, goes, after, seen⟩ := laneShort_values (v := v) hr dest (.inl rfl)
    rw [show exec i s = _ from congrFun run s]
    refine ⟨u, goes, after, fun l hl => ⟨fun on k hk j hj => ?_, (seen l hl (by simp)).2⟩⟩
    rw [(seen l hl (by simp)).1 on]
    exact bits s1.cur l k hk j hj
  · obtain ⟨u, goes, after, seen⟩ :=
      laneShort_numbers (f := fun g l k => popCount o.ty.width (subEl o.ty.width (g.srcA c o.a l) k)) hr rfl fun _ _ _ => popCount_lt ..
    exact ⟨u, goes, after, fun l hl => ⟨fun on k hk => ((seen l hl).1 on k hk).trans (popCount_subEl ..), (seen l hl).2⟩⟩
  · obtain ⟨u, goes, after, seen⟩ :=
      laneShort_numbers (f := fun g l k => leadingZeros o.ty.width (subEl o.ty.width (g.srcA c o.a l) k)) hr rfl
        fun _ _ _ => (leadingZeros_le ..).trans_lt Nat.lt_two_pow_self
    refine ⟨u, goes, after, fun l hl => ⟨fun on k hk z count => ?_, (seen l hl).2⟩⟩
    rw [(seen l hl).1 on k hk] at count
    obtain ⟨above, top⟩ := leadingZeros_spec o.ty.width (subEl o.ty.width (s1.cur.srcA c o.a l) k)
    rw [← count] at above top
    refine ⟨count ▸ leadingZeros_le .., fun j hj h => ?_, fun h => ?_⟩
    · rw [← testBit_subEl_of_lt _ _ hj, above j hj h]
    · rw [← testBit_subEl_of_lt _ _ (by omega), top h]

end Sys2Proof.Machine
end

section
/-!
Operands as floating-point operations take them, and the NaNs that they deliver (R77, R78, R83, R85, R86, R138).
-/
set_option Elab.async false
namespace Sys2Proof.Machine
open Sys2Proof

/-! ### Formats of arithmetic (R77, R79) -/

/-- A format of vector arithmetic, in a type of its own width. -/
structure Arith (t : Ty) : Prop where
  inf : (fmtOf t).inf = true
  nan : (fmtOf t).nan = true
  width : t.width = (fmtOf t).signPos + 1
  whole : (fmtOf t).bias + (fmtOf t).mbits < (fmtOf t).emax
  centred : (fmtOf t).emax = 2 * (fmtOf t).bias + 1
  wide : (fmtOf t).mbits + 3 ≤ (fmtOf t).bias

theorem arith_of_mem {t : Ty} (h : t ∈ fpTypes) : Arith t := by
  simp only [fpTypes, List.mem_cons, List.not_mem_nil, or_false] at h
  rcases h with rfl | rfl | rfl | rfl <;> constructor <;> decide

theorem Arith.hasSign {t : Ty} (h : Arith t) : (fmtOf t).signed = true := (Fmt.proper_fmtOf t).signed h.inf

theorem mbits_le (t : Ty) : (fmtOf t).mbits ≤ 52 := by cases t <;> decide

/-! ### Operands (R83, R85, R138) -/

@[simp] theorem FpVal.isNan_flipIf (b : Bool) (v : FpVal) : (v.flipIf b).isNan = v.isNan := by
  cases b <;> cases v <;> rfl

/-- An operand as it is read, its sign flipped where the instruction negates, and the flag that it raises. -/
theorem readOperand_eq (k : FCtl) (t : Ty) (flip : Bool) (b : Nat) :
    (readOperand k t b).1.flipIf flip = operand k t flip b ∧ (readOperand k t b).2 = sigFlag t b := by
  unfold readOperand operand sigFlag
  dsimp only
  cases (fmtOf t).decode b with
  | nan s quiet frac => cases flip <;> cases quiet <;> cases s <;> exact ⟨rfl, rfl⟩
  | inf s => cases flip <;> cases s <;> exact ⟨rfl, rfl⟩
  | num s q =>
    refine ⟨?_, rfl⟩
    by_cases flushed : k.flushes t = true ∧ q < (fmtOf t).minNormal
    · cases flip <;> cases s <;> simp [flushed, FpVal.flipIf, FpVal.flip]
    · cases flip <;> cases s <;> simp [flushed, FpVal.flipIf, FpVal.flip]

theorem readOperand_plain (k : FCtl) (t : Ty) (b : Nat) : readOperand k t b = (operand k t false b, sigFlag t b) :=
  Prod.ext (readOperand_eq k t false b).1 (readOperand_eq k t false b).2

/-- Only a NaN is signalling. -/
theorem sigFlag_eq_zero {k : FCtl} {t : Ty} {flip : Bool} {b : Nat} (h : (operand k t flip b).isNan = false) : sigFlag t b = 0 := by
  unfold operand at h
  unfold sigFlag
  cases hd : (fmtOf t).decode b with
  | nan s quiet frac => simp [hd, FpVal.isNan] at h
  | inf s => rfl
  | num s q => rfl

theorem isNan_of_eq_inf {x : FpVal} {s : Bool} (h : x = .inf s) : x.isNan = false := h ▸ rfl
theorem isNan_of_eq_num {x : FpVal} {s : Bool} {q : Rat} (h : x = .num s q) : x.isNan = false := h ▸ rfl

theorem decode_num {f : Fmt} (hf : f.Proper) {b : Nat} {s : Bool} {q : Rat} (h : f.decode b = .num s q) : ∃ c ≤ f.maxBits, q = f.magOf c := by
  obtain ⟨width, top⟩ := Fmt.two_pow_signPos hf
  have below : b % 2 ^ f.signPos < 2 ^ f.signPos := Nat.mod_lt _ (by positivity)
  simp only [Fmt.decode] at h
  split_ifs at h with special zero nan
  all_goals cases h
  refine ⟨_, ?_, rfl⟩
  simp only [Bool.and_eq_true, decide_eq_true_eq, not_and, Bool.not_eq_true'] at special nan
  unfold Fmt.maxBits
  split
  case isTrue inf =>
    have : b % 2 ^ f.signPos / 2 ^ f.mbits < f.emax + 1 :=
      (Nat.div_lt_iff_lt_mul (by positivity)).mpr (by rw [Nat.add_mul, one_mul, ← width]; exact below)
    have := (Nat.div_lt_iff_lt_mul (by positivity)).mp (show b % 2 ^ f.signPos / 2 ^ f.mbits < f.emax by have := special inf; omega)
    omega
  case isFalse finite =>
    have finite : f.inf = false := by simpa using finite
    split
    next ones =>
      have := nan ⟨finite, ones⟩
      omega
    next => omega

/-- A number that is an operand is one of its format. -/
theorem operand_num {k : FCtl} {t : Ty} {flip : Bool} {b : Nat} {s : Bool} {q : Rat} (h : operand k t flip b = .num s q) :
    ∃ c ≤ (fmtOf t).maxBits, q = (fmtOf t).magOf c := by
  unfold operand at h
  cases hd : (fmtOf t).decode b with
  | nan s quiet frac => simp [hd] at h
  | inf s => simp [hd] at h
  | num s' q' =>
    simp only [hd, FpVal.num.injEq] at h
    obtain ⟨c, le, rfl⟩ := decode_num (Fmt.proper_fmtOf t) hd
    split at h
    · exact ⟨0, Nat.zero_le _, by rw [Fmt.magOf_zero, ← h.2]⟩
    · exact ⟨c, le, h.2.symm⟩

theorem operand_num_nonneg {k : FCtl} {t : Ty} {flip : Bool} {b : Nat} {s : Bool} {q : Rat} (h : operand k t flip b = .num s q) : 0 ≤ q := by
  obtain ⟨c, -, rfl⟩ := operand_num h
  rw [← Fmt.magOf_zero]
  exact (fmtOf t).magOf_strictMono.monotone (Nat.zero_le c)

/-! ### The NaN of an operation (R86) -/

/-- The fraction of a NaN that has been read is aligned to 52 bits. -/
def FpVal.Aligned (v : FpVal) : Prop := ∀ s quiet frac, v = .nan s quiet frac → frac < 2 ^ 52

theorem operand_aligned (k : FCtl) (t : Ty) (flip : Bool) (b : Nat) : (operand k t flip b).Aligned := by
  have mantissa (x : Nat) : x % 2 ^ (fmtOf t).mbits * 2 ^ (52 - (fmtOf t).mbits) < 2 ^ 52 := by
    have : 2 ^ (fmtOf t).mbits * 2 ^ (52 - (fmtOf t).mbits) = 2 ^ 52 := by rw [← pow_add, Nat.add_sub_cancel' (mbits_le t)]
    exact this ▸ Nat.mul_lt_mul_of_pos_right (Nat.mod_lt _ (by positivity)) (by positivity)
  intro s quiet frac h
  simp only [operand, Fmt.decode] at h
  split_ifs at h
  all_goals cases h
  all_goals exact mantissa _

/-- The payload of a quieted NaN fits the format, and its first bit is the quiet bit (R78, R86). -/
theorem quieted_payload {f : Fmt} (hf : f.Proper) (hm : f.mbits ≤ 52) {frac : Nat} (h : frac < 2 ^ 52) :
    (frac ||| 2 ^ 51) / 2 ^ (52 - f.mbits) < 2 ^ f.mbits ∧ bitOf ((frac ||| 2 ^ 51) / 2 ^ (52 - f.mbits)) (f.mbits - 1) = true := by
  have one := hf.mbits
  constructor
  · rw [Nat.div_lt_iff_lt_mul (by positivity), ← pow_add, Nat.add_sub_cancel' hm]
    exact Nat.or_lt_two_pow h (by norm_num)
  · rw [bitOf_eq_testBit, Nat.testBit_div_two_pow, show f.mbits - 1 + (52 - f.mbits) = 51 by omega, Nat.testBit_or, Nat.testBit_two_pow_self, Bool.or_true]

theorem decode_quieted {f : Fmt} (hf : f.Proper) (hm : f.mbits ≤ 52) (inf : f.inf = true) (s : Bool) {frac : Nat} (h : frac < 2 ^ 52) :
    f.decode (f.signBits s + f.emax * 2 ^ f.mbits + (frac ||| 2 ^ 51) / 2 ^ (52 - f.mbits)) =
      .nan s true ((frac ||| 2 ^ 51) / 2 ^ (52 - f.mbits) * 2 ^ (52 - f.mbits)) := by
  obtain ⟨small, quiet⟩ := quieted_payload hf hm h
  obtain ⟨width, -⟩ := Fmt.two_pow_signPos hf
  generalize (frac ||| 2 ^ 51) / 2 ^ (52 - f.mbits) = p at small quiet ⊢
  obtain ⟨sign, mag⟩ := f.signBits_add s (a := f.emax * 2 ^ f.mbits + p) (by omega)
  have nonzero : p ≠ 0 := by
    rintro rfl
    simp [bitOf] at quiet
  obtain ⟨quot, rem⟩ := (Nat.div_mod_unique (by positivity : 0 < 2 ^ f.mbits)).mpr
    ⟨(by ring : p + 2 ^ f.mbits * f.emax = f.emax * 2 ^ f.mbits + p), small⟩
  rw [add_assoc]
  simp only [Fmt.decode, sign, mag, quot, rem]
  simp [inf, hf.signed inf, nonzero, quiet]

theorem nanResult_eq (t : Ty) (nanq : Bool) (ins : List FpVal) :
    nanResult t nanq ins = match ins.find? FpVal.isNan with
      | some (.nan s _ frac) =>
        if nanq then (fmtOf t).qnan
        else if (fmtOf t).inf then (fmtOf t).signBits s + (fmtOf t).emax * 2 ^ (fmtOf t).mbits + ((frac ||| 2 ^ 51) / 2 ^ (52 - (fmtOf t).mbits))
        else (fmtOf t).signBits s + (2 ^ (fmtOf t).signPos - 1)
      | _ => (fmtOf t).qnan := rfl

theorem signBits_add_lt {f : Fmt} (s : Bool) {b : Nat} (h : b < 2 ^ f.signPos) : f.signBits s + b < 2 ^ (f.signPos + 1) := by
  rw [pow_succ]
  unfold Fmt.signBits
  split <;> omega

/-- The NaN that an operation delivers, of inputs that have been read. -/
theorem nanOf_nanResult (k : FCtl) {t : Ty} (hw : (fmtOf t).inf = true → (fmtOf t).signPos + 1 ≤ t.width) {ins : List FpVal}
    (aligned : ∀ v ∈ ins, v.Aligned) : NanOf k t ins (nanResult t k.nanq ins) := by
  rw [nanResult_eq, NanOf]
  cases found : ins.find? FpVal.isNan with
  | none => rfl
  | some v =>
    cases v with
    | inf s => rfl
    | num s q => rfl
    | nan s quiet frac =>
      have fits := aligned _ (List.mem_of_find?_eq_some found) _ _ _ rfl
      have hf := Fmt.proper_fmtOf t
      obtain ⟨width, -⟩ := Fmt.two_pow_signPos hf
      obtain ⟨small, -⟩ := quieted_payload hf (mbits_le t) fits
      dsimp only
      split
      · rfl
      · split
        next inf =>
          refine ⟨lt_of_lt_of_le ?_ (Nat.pow_le_pow_right two_pos (hw inf)), decode_quieted hf (mbits_le t) inf s fits⟩
          rw [add_assoc]
          exact signBits_add_lt s (by omega)
        next => rfl

theorem Arith.nanOf {t : Ty} (ht : Arith t) (k : FCtl) {ins : List FpVal} (aligned : ∀ v ∈ ins, v.Aligned) : NanOf k t ins (nanResult t k.nanq ins) :=
  nanOf_nanResult k (fun _ => ht.width.ge) aligned

end Sys2Proof.Machine
end

section
/-!
Sums, products and fused products of operands (R84 to R88, R139).
-/
set_option Elab.async false
namespace Sys2Proof.Machine
open Sys2Proof

/-! ### Exact results and their delivery (R84, R86 to R88) -/

@[simp] theorem orFlags_zero (r : Flagged Nat) : orFlags 0 r = r := Prod.ext rfl BitVec.or_zero

/-- An operation that has a NaN delivers one, with the flags of its operands alone. -/
theorem Arith.deliver_nan {t : Ty} (ht : Arith t) (k : FCtl) (m : Rounding) (fl : BitVec 6) {ins : List FpVal} (aligned : ∀ v ∈ ins, v.Aligned) :
    NanOf k t ins (orFlags fl (deliverFp k t m ins .nan)).1 ∧ (orFlags fl (deliverFp k t m ins .nan)).2 = fl :=
  ⟨ht.nanOf k aligned, BitVec.zero_or⟩

/-- An invalid operation raises IV beside the flags of its operands. -/
theorem Arith.deliver_invalid {t : Ty} (ht : Arith t) (k : FCtl) (m : Rounding) (fl : BitVec 6) {ins : List FpVal} (aligned : ∀ v ∈ ins, v.Aligned) :
    NanOf k t ins (orFlags fl (deliverFp k t m ins .invalid)).1 ∧ (orFlags fl (deliverFp k t m ins .invalid)).2 = fl ||| flIV :=
  ⟨ht.nanOf k aligned, BitVec.or_comm ..⟩

theorem Arith.deliver_inf {t : Ty} (ht : Arith t) (k : FCtl) (m : Rounding) (ins : List FpVal) (s : Bool) :
    deliverFp k t m ins (.val (.inf s)) = ((fmtOf t).infBits s, 0) := by
  simp [deliverFp, encodeInf, ht.inf]

/-- A sum of numbers: zero with the sign of R84, or the exact value with its sign. -/
theorem sumExact_num (m : Rounding) (s u : Bool) (q p : Rat) :
    sumExact m [.num s q, .num u p] =
      if signed s q + signed u p = 0 then .val (.num (if s = u then s else m = .rdn) 0)
      else .val (.num (signed s q + signed u p < 0) |signed s q + signed u p|) := by
  have total : FpVal.rat (.num s q) + FpVal.rat (.num u p) = signed s q + signed u p := rfl
  rw [abs_eq_ite]
  simp only [sumExact, List.any_cons, List.any_nil, FpVal.isNan, reduceCtorEq, decide_false, Bool.or_false, Bool.false_eq_true, if_false, Bool.and_self,
    List.foldl_cons, List.foldl_nil, zero_add, total, List.all_cons, List.all_nil, FpVal.neg, Bool.and_true]
  cases s <;> cases u <;> simp

/-- A sum of numbers is delivered with one rounding. -/
theorem deliver_sumExact_num (k : FCtl) (t : Ty) (m : Rounding) (ins : List FpVal) (s u : Bool) (q p : Rat) :
    deliverFp k t m ins (sumExact m [.num s q, .num u p]) = sumOf k t m s u (signed s q + signed u p) := by
  rw [sumExact_num, sumOf]
  split
  · simp [deliverFp]
  · rfl

theorem sumExact_nan {m : Rounding} {x y : FpVal} (h : x.isNan = true ∨ y.isNan = true) : sumExact m [x, y] = .nan :=
  if_pos (by simpa using h)

theorem sumExact_opposite (m : Rounding) (s : Bool) : sumExact m [.inf s, .inf (!s)] = .invalid := by cases s <;> rfl

theorem sumExact_inf (m : Rounding) {s : Bool} {y : FpVal} (h : y = .inf s ∨ ∃ u p, y = .num u p) : sumExact m [.inf s, y] = .val (.inf s) := by
  obtain rfl | ⟨u, p, rfl⟩ := h <;> cases s <;> rfl

theorem sumExact_num_inf (m : Rounding) (s u : Bool) (q : Rat) : sumExact m [.num u q, .inf s] = .val (.inf s) := by cases s <;> rfl

theorem mulExact_nan {x y : FpVal} (h : x.isNan = true ∨ y.isNan = true) : mulExact x y = .nan := by
  cases x <;> cases y <;> simp [FpVal.isNan, mulExact] at h ⊢

/-- An infinity times zero. -/
def ZeroTimesInf (x y : FpVal) : Prop := ∃ s u, x = .inf s ∧ y = .num u 0 ∨ x = .num u 0 ∧ y = .inf s

theorem mulExact_invalid {x y : FpVal} (h : ZeroTimesInf x y) : mulExact x y = .invalid := by
  obtain ⟨s, u, ⟨rfl, rfl⟩ | ⟨rfl, rfl⟩⟩ := h <;> simp [mulExact]

theorem mulExact_inf {x y : FpVal} {s u : Bool} {q : Rat} (hq : q ≠ 0) (h : x = .inf s ∧ (y = .inf u ∨ y = .num u q) ∨ x = .num u q ∧ y = .inf s) :
    mulExact x y = .val (.inf (s != u)) := by
  obtain ⟨rfl, rfl | rfl⟩ | ⟨rfl, rfl⟩ := h
  · rfl
  · exact if_neg hq
  · exact if_neg hq

/-- A product of values that are no NaN is invalid, an infinity or a number. -/
theorem mulExact_val {x y : FpVal} (hx : x.isNan = false) (hy : y.isNan = false) (h : ¬ZeroTimesInf x y) :
    ∃ p, p.isNan = false ∧ mulExact x y = .val p := by
  cases x with
  | nan => simp [FpVal.isNan] at hx
  | inf s =>
    cases y with
    | nan => simp [FpVal.isNan] at hy
    | inf u => exact ⟨_, rfl, rfl⟩
    | num u q => exact ⟨_, rfl, mulExact_inf (fun zero => h ⟨s, u, .inl ⟨rfl, zero ▸ rfl⟩⟩) (.inl ⟨rfl, .inr rfl⟩)⟩
  | num s q =>
    cases y with
    | nan => simp [FpVal.isNan] at hy
    | inf u => exact ⟨_, rfl, mulExact_inf (fun zero => h ⟨u, s, .inr ⟨zero ▸ rfl, rfl⟩⟩) (.inr ⟨rfl, rfl⟩)⟩
    | num u p => exact ⟨_, rfl, rfl⟩

/-! ### The operations on operands -/

section
variable {k : FCtl} {m : Rounding} {t : Ty} {na nb nc : Bool} {a b d : Nat}

theorem fpAdd_eq (k : FCtl) (m : Rounding) (t : Ty) (na nb : Bool) (a b : Nat) :
    fpAdd k m t na nb a b = orFlags (sigFlag t a ||| sigFlag t b)
      (deliverFp k t m [operand k t na a, operand k t nb b] (sumExact m [operand k t na a, operand k t nb b])) := by
  simp only [fpAdd, (readOperand_eq ..).1, (readOperand_eq _ _ false _).2]

theorem fpMul_eq (k : FCtl) (m : Rounding) (t : Ty) (na nb : Bool) (a b : Nat) :
    fpMul k m t na nb a b = orFlags (sigFlag t a ||| sigFlag t b)
      (deliverFp k t m [operand k t na a, operand k t nb b] (mulExact (operand k t na a) (operand k t nb b))) := by
  simp only [fpMul, (readOperand_eq ..).1, (readOperand_eq _ _ false _).2]

/-- The exact value of a fused product and sum. -/
def fmaExact (m : Rounding) (x y z : FpVal) : Exact :=
  match mulExact x y with
  | .val p => if z.isNan then .nan else sumExact m [p, z]
  | e => e

theorem fpFma_eq (k : FCtl) (m : Rounding) (t : Ty) (na nb nc : Bool) (a b d : Nat) :
    fpFma k m t na nb nc a b d = orFlags (sigFlag t a ||| sigFlag t b ||| sigFlag t d)
      (deliverFp k t m [operand k t na a, operand k t nb b, operand k t nc d] (fmaExact m (operand k t na a) (operand k t nb b) (operand k t nc d))) := by
  simp only [fpFma, (readOperand_eq ..).1, (readOperand_eq _ _ false _).2]
  rfl

theorem aligned_two : ∀ v ∈ [operand k t na a, operand k t nb b], v.Aligned := by
  simp [operand_aligned]

theorem aligned_three : ∀ v ∈ [operand k t na a, operand k t nb b, operand k t nc d], v.Aligned := by
  simp [operand_aligned]

/-- Operands that are no NaN raise no flag. -/
theorem noSig_two (hx : (operand k t na a).isNan = false) (hy : (operand k t nb b).isNan = false) : sigFlag t a ||| sigFlag t b = 0 := by
  rw [sigFlag_eq_zero hx, sigFlag_eq_zero hy]
  rfl

theorem noSig_three (hx : (operand k t na a).isNan = false) (hy : (operand k t nb b).isNan = false) (hz : (operand k t nc d).isNan = false) :
    sigFlag t a ||| sigFlag t b ||| sigFlag t d = 0 := by
  rw [noSig_two hx hy, sigFlag_eq_zero hz]
  rfl

theorem Arith.add_values (ht : Arith t) (k : FCtl) (m : Rounding) (na nb : Bool) (a b : Nat) :
    let f := fmtOf t
    let x := operand k t na a
    let y := operand k t nb b
    let r := fpAdd k m t na nb a b
    (x.isNan = true ∨ y.isNan = true → NanOf k t [x, y] r.1 ∧ r.2 = sigFlag t a ||| sigFlag t b) ∧
      (∀ s, x = .inf s → y = .inf (!s) → r = (f.qnan, flIV)) ∧
      (∀ s, x = .inf s → y = .inf s ∨ (∃ u p, y = .num u p) → r = (f.infBits s, 0)) ∧
      (∀ s u q, x = .num u q → y = .inf s → r = (f.infBits s, 0)) ∧
      (∀ s q u p, x = .num s q → y = .num u p → r = sumOf k t m s u (signed s q + signed u p)) := by
  intro f x y r
  have run : r = orFlags _ (deliverFp k t m [x, y] (sumExact m [x, y])) := fpAdd_eq k m t na nb a b
  refine ⟨fun nan => ?_, fun s hx hy => ?_, fun s hx hy => ?_, fun s u q hx hy => ?_, fun s q u p hx hy => ?_⟩
  · rw [run, sumExact_nan nan]
    exact ht.deliver_nan k m _ aligned_two
  · rw [run, noSig_two (isNan_of_eq_inf hx) (isNan_of_eq_inf hy), hx, hy, sumExact_opposite, orFlags_zero]
    rfl
  · have plain : y.isNan = false := by rcases hy with hy | ⟨u, p, hy⟩ <;> rw [hy] <;> rfl
    rw [run, noSig_two (isNan_of_eq_inf hx) plain, hx, sumExact_inf m hy, orFlags_zero, ht.deliver_inf]
  · rw [run, noSig_two (isNan_of_eq_num hx) (isNan_of_eq_inf hy), hx, hy, sumExact_num_inf, orFlags_zero, ht.deliver_inf]
  · rw [run, noSig_two (isNan_of_eq_num hx) (isNan_of_eq_num hy), hx, hy, deliver_sumExact_num, orFlags_zero]

theorem Arith.mul_values (ht : Arith t) (k : FCtl) (m : Rounding) (na nb : Bool) (a b : Nat) :
    let f := fmtOf t
    let x := operand k t na a
    let y := operand k t nb b
    let r := fpMul k m t na nb a b
    (x.isNan = true ∨ y.isNan = true → NanOf k t [x, y] r.1 ∧ r.2 = sigFlag t a ||| sigFlag t b) ∧
      (∀ s u, x = .inf s ∧ y = .num u 0 ∨ x = .num u 0 ∧ y = .inf s → r = (f.qnan, flIV)) ∧
      (∀ s u q, q ≠ 0 → x = .inf s ∧ (y = .inf u ∨ y = .num u q) ∨ x = .num u q ∧ y = .inf s → r = (f.infBits (s != u), 0)) ∧
      (∀ s q u p, x = .num s q → y = .num u p → r = roundVal t m (k.flushes t) false (s != u) (q * p)) := by
  intro f x y r
  have run : r = orFlags _ (deliverFp k t m [x, y] (mulExact x y)) := fpMul_eq k m t na nb a b
  refine ⟨fun nan => ?_, fun s u h => ?_, fun s u q hq h => ?_, fun s q u p hx hy => ?_⟩
  · rw [run, mulExact_nan nan]
    exact ht.deliver_nan k m _ aligned_two
  · rw [run, mulExact_invalid ⟨s, u, h⟩]
    rcases h with ⟨hx, hy⟩ | ⟨hx, hy⟩
    · rw [noSig_two (isNan_of_eq_inf hx) (isNan_of_eq_num hy), hx, hy, orFlags_zero]
      rfl
    · rw [noSig_two (isNan_of_eq_num hx) (isNan_of_eq_inf hy), hx, hy, orFlags_zero]
      rfl
  · have plain : sigFlag t a ||| sigFlag t b = 0 := by
      rcases h with ⟨hx, hy | hy⟩ | ⟨hx, hy⟩
      · exact noSig_two (isNan_of_eq_inf hx) (isNan_of_eq_inf hy)
      · exact noSig_two (isNan_of_eq_inf hx) (isNan_of_eq_num hy)
      · exact noSig_two (isNan_of_eq_num hx) (isNan_of_eq_inf hy)
    rw [run, plain, mulExact_inf hq h, orFlags_zero, ht.deliver_inf]
  · rw [run, noSig_two (isNan_of_eq_num hx) (isNan_of_eq_num hy), hx, hy, orFlags_zero]
    rfl

/-! ### Fused products and sums (R87, R139) -/

theorem fmaExact_invalid (m : Rounding) {x y : FpVal} (z : FpVal) (h : ZeroTimesInf x y) : fmaExact m x y z = .invalid := by
  rw [fmaExact, mulExact_invalid h]

theorem fmaExact_nan (m : Rounding) {x y z : FpVal} (valid : ¬ZeroTimesInf x y) (h : x.isNan = true ∨ y.isNan = true ∨ z.isNan = true) :
    fmaExact m x y z = .nan := by
  by_cases product : x.isNan = true ∨ y.isNan = true
  · rw [fmaExact, mulExact_nan product]
  · obtain ⟨hx, hy⟩ : x.isNan = false ∧ y.isNan = false := by simpa using product
    obtain ⟨p, -, val⟩ := mulExact_val hx hy valid
    rw [fmaExact, val]
    exact if_pos (by simpa [hx, hy] using h)

theorem fmaExact_val (m : Rounding) {x y z p : FpVal} (val : mulExact x y = .val p) (hz : z.isNan = false) : fmaExact m x y z = sumExact m [p, z] := by
  rw [fmaExact, val]
  exact if_neg (by rw [hz]; exact Bool.false_ne_true)

/-- An infinite product and a term that is no NaN: invalid where they are opposite infinities, else the product. -/
theorem sumExact_inf_plain (m : Rounding) (s : Bool) {z : FpVal} (hz : z.isNan = false) :
    sumExact m [.inf s, z] = if z = .inf (!s) then .invalid else .val (.inf s) := by
  split
  next opposite => rw [opposite, sumExact_opposite]
  next other =>
    refine sumExact_inf m ?_
    cases z with
    | nan => simp [FpVal.isNan] at hz
    | inf u => exact .inl (by cases u <;> cases s <;> simp at other ⊢)
    | num u p => exact .inr ⟨u, p, rfl⟩

theorem Arith.fma_values (ht : Arith t) (k : FCtl) (m : Rounding) (na nb nc : Bool) (a b d : Nat) :
    let f := fmtOf t
    let x := operand k t na a
    let y := operand k t nb b
    let z := operand k t nc d
    let iv := sigFlag t a ||| sigFlag t b
    let r := fpFma k m t na nb nc a b d
    let bad : Prop := ∃ s u, x = .inf s ∧ y = .num u 0 ∨ x = .num u 0 ∧ y = .inf s
    (bad → NanOf k t [x, y, z] r.1 ∧ r.2 = iv ||| sigFlag t d ||| flIV) ∧
      (¬bad → x.isNan = true ∨ y.isNan = true ∨ z.isNan = true → NanOf k t [x, y, z] r.1 ∧ r.2 = iv ||| sigFlag t d) ∧
      (∀ s u q, q ≠ 0 → x = .inf s ∧ (y = .inf u ∨ y = .num u q) ∨ x = .num u q ∧ y = .inf s → z.isNan = false →
        r = if z = .inf (!(s != u)) then (f.qnan, flIV) else (f.infBits (s != u), 0)) ∧
      (∀ s q u p w, x = .num s q → y = .num u p → z = .inf w → r = (f.infBits w, 0)) ∧
      (∀ s q u p w v, x = .num s q → y = .num u p → z = .num w v → r = sumOf k t m (s != u) w (signed (s != u) (q * p) + signed w v)) := by
  intro f x y z iv r bad
  have run : r = orFlags _ (deliverFp k t m [x, y, z] (fmaExact m x y z)) := fpFma_eq k m t na nb nc a b d
  refine ⟨fun zeroInf => ?_, fun valid nan => ?_, fun s u q hq h hz => ?_, fun s q u p w hx hy hz => ?_, fun s q u p w v hx hy hz => ?_⟩
  · rw [run, fmaExact_invalid m z zeroInf]
    exact ht.deliver_invalid k m _ aligned_three
  · rw [run, fmaExact_nan m valid nan]
    exact ht.deliver_nan k m _ aligned_three
  · obtain ⟨hx, hy, ins⟩ : x.isNan = false ∧ y.isNan = false ∧ nanResult t k.nanq [x, y, z] = f.qnan := by
      have third (u v : FpVal) (hu : u.isNan = false) (hv : v.isNan = false) : nanResult t k.nanq [u, v, z] = f.qnan := by
        rw [nanResult_eq]
        simp [List.find?, hu, hv, hz, f]
      rcases h with ⟨hx, hy | hy⟩ | ⟨hx, hy⟩ <;> rw [hx, hy] <;> exact ⟨rfl, rfl, third _ _ rfl rfl⟩
    rw [run, noSig_three hx hy hz, fmaExact_val m (mulExact_inf hq h) hz, sumExact_inf_plain m _ hz, orFlags_zero]
    split
    · exact congrArg (·, flIV) ins
    · exact ht.deliver_inf ..
  · rw [run, noSig_three (isNan_of_eq_num hx) (isNan_of_eq_num hy) (isNan_of_eq_inf hz), hx, hy, hz, fmaExact_val m (p := .num (s != u) (q * p)) rfl rfl,
      sumExact_num_inf, orFlags_zero, ht.deliver_inf]
  · rw [run, noSig_three (isNan_of_eq_num hx) (isNan_of_eq_num hy) (isNan_of_eq_num hz), hx, hy, hz, fmaExact_val m (p := .num (s != u) (q * p)) rfl rfl,
      deliver_sumExact_num, orFlags_zero]

end

end Sys2Proof.Machine
end

section
/-!
Comparisons, the smaller and the larger, rounding to an integral value, and classes (R140 to R143).
-/
set_option Elab.async false
namespace Sys2Proof.Machine
open Sys2Proof

/-! ### Values that are encoded exactly -/

theorem encodeExact_num (t : Ty) (s : Bool) {c : Nat} (le : c ≤ (fmtOf t).maxBits) :
    encodeExact t (.num s ((fmtOf t).magOf c)) = (fmtOf t).signBits s + c := by
  show (roundVal t .rne false false s ((fmtOf t).magOf c)).1 = _
  rcases Nat.eq_zero_or_pos c with rfl | pos
  · rw [Fmt.magOf_zero, roundVal_zero, Nat.add_zero]
  · rw [roundVal_magOf t .rne s pos le]

section
variable {t : Ty} (ht : Arith t)
include ht

/-- A number of the format is encoded as itself. -/
theorem Arith.decode_encodeExact_num (s : Bool) {c : Nat} (le : c ≤ (fmtOf t).maxBits) :
    encodeExact t (.num s ((fmtOf t).magOf c)) < 2 ^ t.width ∧
      (fmtOf t).decode (encodeExact t (.num s ((fmtOf t).magOf c))) = .num s ((fmtOf t).magOf c) := by
  have hf := Fmt.proper_fmtOf t
  rw [encodeExact_num t s le, Fmt.decode_finite hf s le, ht.hasSign, Bool.and_true, ht.width]
  exact ⟨signBits_add_lt s (le.trans_lt (Fmt.maxBits_lt hf)), rfl⟩

/-- An operand that is no NaN is encoded as itself. -/
theorem Arith.decode_encodeExact {k : FCtl} {flip : Bool} {b : Nat} {x : FpVal} (hx : operand k t flip b = x) (plain : x.isNan = false) :
    encodeExact t x < 2 ^ t.width ∧ (fmtOf t).decode (encodeExact t x) = x := by
  cases x with
  | nan => simp [FpVal.isNan] at plain
  | inf s =>
    have hf := Fmt.proper_fmtOf t
    obtain ⟨width, -⟩ := Fmt.two_pow_signPos hf
    have : 0 < 2 ^ (fmtOf t).mbits := by positivity
    refine ⟨?_, Fmt.decode_infBits hf s ht.inf⟩
    rw [ht.width]
    exact signBits_add_lt s (by omega)
  | num s q =>
    obtain ⟨c, le, rfl⟩ := operand_num hx
    exact ht.decode_encodeExact_num s le

end

/-! ### Comparisons (R140, R141) -/

theorem below_asymm {x y : FpVal} (h : below x y = true) : below y x = false := by
  cases x with
  | nan => simp [below] at h
  | inf s =>
    cases y with
    | nan => simp [below] at h
    | inf u => cases s <;> cases u <;> simp [below] at h ⊢
    | num u p => cases s <;> simp [below] at h ⊢
  | num s q =>
    cases y with
    | nan => simp [below] at h
    | inf u => cases u <;> simp [below] at h ⊢
    | num u p => exact decide_eq_false (of_decide_eq_true h).not_gt

theorem below0_num (s u : Bool) (q p : Rat) :
    below0 (.num s q) (.num u p) = true ↔ signed s q < signed u p ∨ s = true ∧ q = 0 ∧ u = false ∧ p = 0 := by
  simp [below0, below, and_assoc]

theorem below0_asymm {x y : FpVal} (h : below0 x y = true) : below0 y x = false := by
  rcases Bool.or_eq_true_iff.mp h with less | zeros
  · have greater := below_asymm less
    have mixed : (y == .num true 0 && x == .num false 0) = false := by
      by_contra both
      simp only [Bool.not_eq_false, Bool.and_eq_true, beq_iff_eq] at both
      obtain ⟨rfl, rfl⟩ := both
      simp [below, signed] at less
    rw [below0, greater, mixed, Bool.or_self]
  · simp only [Bool.and_eq_true, beq_iff_eq] at zeros
    obtain ⟨rfl, rfl⟩ := zeros
    simp [below0, below, signed]

theorem fpCompare_num (signed0 : Bool) (s u : Bool) (q p : Rat) :
    fpCompare signed0 (.num s q) (.num u p) = if signed s q < signed u p then -1 else if signed u p < signed s q then 1
      else if signed0 && signed s q = 0 && s ≠ u then (if s then -1 else 1) else 0 := rfl

/-- The comparison under which zeros of either sign are equal. -/
theorem fpCompare_false {x y : FpVal} (hx : x.isNan = false) (hy : y.isNan = false) :
    fpCompare false x y = if below x y then -1 else if below y x then 1 else 0 := by
  cases x with
  | nan => simp [FpVal.isNan] at hx
  | inf s =>
    cases y with
    | nan => simp [FpVal.isNan] at hy
    | inf u => cases s <;> cases u <;> rfl
    | num u p => cases s <;> rfl
  | num s q =>
    cases y with
    | nan => simp [FpVal.isNan] at hy
    | inf u => cases u <;> rfl
    | num u p => simp [fpCompare_num, below]

/-- The comparison that orders −0 below +0. -/
theorem fpCompare_true {x y : FpVal} (hx : x.isNan = false) (hy : y.isNan = false) :
    fpCompare true x y = if below0 x y then -1 else if below0 y x then 1 else 0 := by
  cases x with
  | nan => simp [FpVal.isNan] at hx
  | inf s =>
    cases y with
    | nan => simp [FpVal.isNan] at hy
    | inf u => cases s <;> cases u <;> rfl
    | num u p => cases s <;> simp [fpCompare, below0, below]
  | num s q =>
    cases y with
    | nan => simp [FpVal.isNan] at hy
    | inf u => cases u <;> simp [fpCompare, below0, below]
    | num u p =>
      rw [fpCompare_num]
      rcases lt_trichotomy (signed s q) (signed u p) with less | same | more
      · rw [if_pos less, if_pos ((below0_num ..).mpr (.inl less))]
      · simp only [below0_num, same, lt_irrefl, false_or, if_false]
        cases s <;> cases u <;> simp only [signed, Bool.false_eq_true, if_false, if_true] at same
        · simp
        · simp [signed, same]
        · simp [signed, ← same]
        · simp
      · have greater := (below0_num u s p q).mpr (.inl more)
        rw [if_neg more.not_gt, if_pos more, if_neg (by simp [below0_asymm greater]), if_pos greater]

/-! ### The smaller and the larger (R140) -/

/-- Which of two operands is delivered. -/
def minMaxOf (isMax : Bool) (x y : FpVal) : FpVal :=
  if x.isNan then y else if y.isNan then x else if (if isMax then below0 x y else below0 y x) then y else x

theorem minMaxOf_mem (isMax : Bool) {x y : FpVal} (h : x.isNan = false ∨ y.isNan = false) :
    (minMaxOf isMax x y = x ∨ minMaxOf isMax x y = y) ∧ (minMaxOf isMax x y).isNan = false := by
  unfold minMaxOf
  split
  next nan => exact ⟨.inr rfl, by simpa [nan] using h⟩
  next number =>
    have hx : x.isNan = false := by simpa using number
    split
    next => exact ⟨.inl rfl, hx⟩
    next plain =>
      have hy : y.isNan = false := by simpa using plain
      generalize (if isMax then below0 x y else below0 y x) = second
      cases second
      · exact ⟨.inl rfl, hx⟩
      · exact ⟨.inr rfl, hy⟩

theorem fpMinMax_eq (k : FCtl) (t : Ty) (isMax na nb : Bool) (a b : Nat) :
    fpMinMax k t isMax na nb a b =
      (if (operand k t na a).isNan = true ∧ (operand k t nb b).isNan = true then nanResult t k.nanq [operand k t na a, operand k t nb b]
        else encodeExact t (minMaxOf isMax (operand k t na a) (operand k t nb b)), sigFlag t a ||| sigFlag t b) := by
  simp only [fpMinMax, (readOperand_eq ..).1, (readOperand_eq _ _ false _).2]
  refine Prod.ext ?_ rfl
  generalize operand k t na a = x
  generalize operand k t nb b = y
  unfold minMaxOf
  cases hx : x.isNan <;> cases hy : y.isNan <;> simp only [Bool.false_eq_true, if_false, if_true, and_false, and_self, and_true]
  rw [fpCompare_true hx hy]
  cases isMax
  · by_cases less : below0 x y = true
    · simp [less, below0_asymm less]
    · by_cases more : below0 y x = true <;> simp [less, more]
  · by_cases less : below0 x y = true
    · simp [less]
    · by_cases more : below0 y x = true <;> simp [less, more]

theorem Arith.minMax_values {t : Ty} (ht : Arith t) (k : FCtl) (isMax na nb : Bool) (a b : Nat) :
    let x := operand k t na a
    let y := operand k t nb b
    let r := fpMinMax k t isMax na nb a b
    r.2 = sigFlag t a ||| sigFlag t b ∧ (x.isNan = true → y.isNan = true → NanOf k t [x, y] r.1) ∧
      (x.isNan = false ∨ y.isNan = false → r.1 < 2 ^ t.width ∧ (fmtOf t).decode r.1 = minMaxOf isMax x y) := by
  intro x y r
  have run : r = _ := fpMinMax_eq k t isMax na nb a b
  refine ⟨by rw [run], fun hx hy => ?_, fun plain => ?_⟩
  · rw [run]
    dsimp only
    rw [if_pos ⟨hx, hy⟩]
    exact ht.nanOf k aligned_two
  · have one : ¬(x.isNan = true ∧ y.isNan = true) := fun ⟨hx, hy⟩ => by simp [hx, hy] at plain
    rw [run]
    dsimp only
    rw [if_neg one]
    obtain ⟨pick | pick, number⟩ := minMaxOf_mem isMax plain
    · exact ht.decode_encodeExact pick.symm number
    · exact ht.decode_encodeExact pick.symm number

/-! ### `fsetp` (R141) -/

theorem fpSetp_eq (k : FCtl) (t : Ty) (cc : FCmp) (na nb : Bool) (a b : Nat) :
    fpSetp k t cc na nb a b =
      (fpCondition ((operand k t na a).isNan || (operand k t nb b).isNan) (below (operand k t na a) (operand k t nb b))
        (below (operand k t nb b) (operand k t na a)) cc, sigFlag t a ||| sigFlag t b) := by
  have read (flip : Bool) (e : Nat) : (readOperand k t e).1.isNan = (operand k t flip e).isNan := by
    rw [← (readOperand_eq k t flip e).1, FpVal.isNan_flipIf]
  simp only [fpSetp, (readOperand_eq ..).1, (readOperand_eq _ _ false _).2, read na a, read nb b]
  generalize operand k t na a = x
  generalize operand k t nb b = y
  refine Prod.ext ?_ rfl
  cases un : x.isNan || y.isNan
  case true => cases cc <;> simp [fpCondition]
  case false =>
    obtain ⟨hx, hy⟩ := Bool.or_eq_false_iff.mp un
    rw [fpCompare_false hx hy]
    cases less : below x y
    · cases below y x <;> cases cc <;> rfl
    · rw [below_asymm less]
      cases cc <;> rfl

/-! ### Integral values (R143) -/

namespace Fmt

theorem sig_lt (f : Fmt) (b : Nat) : f.sig b + 1 ≤ 2 ^ (f.mbits + 1) := by
  have := Nat.mod_lt b (show 0 < 2 ^ f.mbits by positivity)
  rw [pow_succ]
  unfold sig
  split <;> omega

theorem unitExp_mono (f : Fmt) {b c : Nat} (h : b ≤ c) : f.unitExp b ≤ f.unitExp c := by
  have : b / 2 ^ f.mbits ≤ c / 2 ^ f.mbits := Nat.div_le_div_right h
  unfold unitExp
  omega

/-- A magnitude that is a whole number of units of its lower neighbour is that neighbour. -/
theorem eq_magOf_of_units {f : Fmt} {b n : Nat} (lo : f.magOf b ≤ n * (2 : Rat) ^ f.unitExp b) (hi : n * (2 : Rat) ^ f.unitExp b < f.magOf (b + 1)) :
    n * (2 : Rat) ^ f.unitExp b = f.magOf b := by
  have unit : (0 : Rat) < 2 ^ f.unitExp b := by positivity
  rw [magOf_eq, mul_le_mul_iff_left₀ unit] at lo
  rw [magOf_succ, mul_lt_mul_iff_left₀ unit] at hi
  rw [magOf_eq, show n = f.sig b from Nat.le_antisymm (Nat.lt_succ_iff.mp (by exact_mod_cast hi)) (by exact_mod_cast lo)]

/-- The value of an encoding with an empty mantissa. -/
theorem magOf_power (f : Fmt) {e : Nat} (he : 0 < e) : f.magOf (e * 2 ^ f.mbits) = 2 ^ (e - f.bias : Int) := by
  have normal : 2 ^ f.mbits ≤ e * 2 ^ f.mbits := Nat.le_mul_of_pos_left _ he
  rw [magOf_eq, sig_of_normal normal, unitExp_of_normal normal, Nat.mul_div_cancel _ (by positivity), Nat.mul_mod_left, Nat.add_zero,
    Nat.cast_pow, Nat.cast_ofNat, ← zpow_natCast, ← zpow_add₀ two_ne_zero]
  congr 1
  ring

/-- The format holds every integer that its significand holds. -/
theorem exists_magOf_eq_natCast {f : Fmt} (pos : 0 < f.bias) {n : Nat} (h : n ≤ 2 ^ f.mbits) :
    ∃ c ≤ (f.bias + f.mbits) * 2 ^ f.mbits, f.magOf c = n := by
  have top : f.magOf ((f.bias + f.mbits) * 2 ^ f.mbits) = 2 ^ f.mbits := by
    rw [f.magOf_power (by omega), Nat.cast_add, add_sub_cancel_left, zpow_natCast]
  obtain ⟨b, lo, hi⟩ := f.exists_bracket (q := n) n.cast_nonneg
  have below : b ≤ (f.bias + f.mbits) * 2 ^ f.mbits :=
    f.magOf_strictMono.le_iff_le.mp (lo.trans (by rw [top]; exact_mod_cast h))
  have unit : f.unitExp b ≤ 0 := by
    refine (f.unitExp_mono below).trans ?_
    have : 1 ≤ f.bias + f.mbits := by omega
    rw [unitExp, Nat.mul_div_cancel _ (by positivity)]
    omega
  have units : (n : Rat) = (n * 2 ^ (-f.unitExp b).toNat : Nat) * (2 : Rat) ^ f.unitExp b := by
    rw [Nat.cast_mul, Nat.cast_pow, Nat.cast_ofNat, mul_assoc, ← zpow_natCast, ← zpow_add₀ two_ne_zero, Int.toNat_of_nonneg (by omega),
      neg_add_cancel, zpow_zero, mul_one]
  rw [units] at lo hi
  exact ⟨b, below, by rw [units]; exact (eq_magOf_of_units lo hi).symm⟩

end Fmt

theorem roundNat_natCast (m : Rounding) (neg : Bool) (n : Nat) : roundNat m neg n = n := by
  have pick := roundNat_picks m neg (q := n) n.cast_nonneg n le_rfl (by linarith)
  rwa [if_neg (by simp)] at pick

/-- Rounding a number of the format to an integer stays in the format. -/
theorem Arith.roundNat_magOf {t : Ty} (ht : Arith t) (m : Rounding) (neg : Bool) {c : Nat} (le : c ≤ (fmtOf t).maxBits) :
    ∃ h ≤ (fmtOf t).maxBits, (roundNat m neg ((fmtOf t).magOf c) : Rat) = (fmtOf t).magOf h := by
  rcases lt_or_ge ((fmtOf t).unitExp c) 0 with fine | coarse
  · have small : (fmtOf t).magOf c ≤ (2 ^ (fmtOf t).mbits : Nat) := by
      have sig : ((fmtOf t).sig c : Rat) ≤ 2 ^ ((fmtOf t).mbits + 1) := by
        have := (fmtOf t).sig_lt c
        exact_mod_cast (by omega : (fmtOf t).sig c ≤ 2 ^ ((fmtOf t).mbits + 1))
      have unit : (2 : Rat) ^ (fmtOf t).unitExp c ≤ 2 ^ (-1 : Int) := zpow_le_zpow_right₀ one_le_two (by omega)
      rw [Fmt.magOf_eq]
      calc ((fmtOf t).sig c : Rat) * 2 ^ (fmtOf t).unitExp c ≤ 2 ^ ((fmtOf t).mbits + 1) * 2 ^ (-1 : Int) := by gcongr
        _ = (2 ^ (fmtOf t).mbits : Nat) := by
          push_cast
          rw [pow_succ, zpow_neg_one, mul_inv_cancel_right₀ two_ne_zero]
    have nonneg : 0 ≤ (fmtOf t).magOf c := (fmtOf t).magOf_zero ▸ (fmtOf t).magOf_strictMono.monotone c.zero_le
    obtain ⟨h, top, eq⟩ := Fmt.exists_magOf_eq_natCast (by have := ht.wide; omega) (roundNat_le m neg nonneg small)
    refine ⟨h, top.trans ?_, eq.symm⟩
    have room := Nat.mul_le_mul_right (2 ^ (fmtOf t).mbits) (Nat.succ_le_of_lt ht.whole)
    have : 0 < 2 ^ (fmtOf t).mbits := by positivity
    rw [Nat.succ_mul] at room
    rw [Fmt.maxBits, if_pos ht.inf]
    omega
  · obtain ⟨e, he⟩ := Int.eq_ofNat_of_zero_le coarse
    have whole : (fmtOf t).magOf c = ((fmtOf t).sig c * 2 ^ e : Nat) := by
      rw [Fmt.magOf_eq, he]
      push_cast
      rw [zpow_natCast]
    exact ⟨c, le, by rw [whole, roundNat_natCast]⟩

theorem fpRound_eq (k : FCtl) (m : Rounding) (t : Ty) (na : Bool) (a : Nat) :
    fpRound k m t na a = match operand k t na a with
      | .num s q => (encodeExact t (.num s (roundNat m s q)), sigFlag t a ||| flIf ((roundNat m s q : Rat) ≠ q) flNX)
      | .inf s => ((fmtOf t).infBits s, sigFlag t a)
      | v => (nanResult t k.nanq [v], sigFlag t a) := by
  simp only [fpRound, (readOperand_eq ..).1, (readOperand_eq _ _ false _).2]
  rfl

theorem Arith.round_values {t : Ty} (ht : Arith t) (k : FCtl) (m : Rounding) (na : Bool) (a : Nat) :
    let f := fmtOf t
    let x := operand k t na a
    let r := fpRound k m t na a
    (x.isNan = true → NanOf k t [x] r.1 ∧ r.2 = sigFlag t a) ∧ (∀ s, x = .inf s → r = (f.infBits s, 0)) ∧
      (∀ s q, x = .num s q → r.1 < 2 ^ t.width ∧ ∃ h : Nat, Picks m s q h ∧ f.decode r.1 = .num s h ∧ r.2 = if (h : Rat) = q then 0 else flNX) := by
  intro f x r
  have run : r = _ := fpRound_eq k m t na a
  refine ⟨fun nan => ?_, fun s hx => ?_, fun s q hx => ?_⟩
  · cases hx : x with
    | nan s quiet frac =>
      rw [run, show operand k t na a = _ from hx]
      exact ⟨ht.nanOf k (by simp [← hx, x, operand_aligned]), rfl⟩
    | inf s => simp [hx, FpVal.isNan] at nan
    | num s q => simp [hx, FpVal.isNan] at nan
  · rw [run, show operand k t na a = _ from hx, sigFlag_eq_zero (isNan_of_eq_inf hx)]
  · obtain ⟨c, le, rfl⟩ := operand_num hx
    obtain ⟨h, fits, value⟩ := ht.roundNat_magOf m s le
    obtain ⟨bound, decoded⟩ := ht.decode_encodeExact_num s fits
    rw [run, show operand k t na a = _ from hx, sigFlag_eq_zero (isNan_of_eq_num hx), ← value] at *
    refine ⟨bound, roundNat m s ((fmtOf t).magOf c), roundNat_picks m s (operand_num_nonneg hx), decoded, ?_⟩
    by_cases same : (roundNat m s ((fmtOf t).magOf c) : Rat) = (fmtOf t).magOf c <;> simp [same, flIf]

/-! ### Classes (R142) -/

/-- The fields of an encoding, as it is read. -/
theorem Arith.decode_fields {t : Ty} (ht : Arith t) (neg : Bool) {e n : Nat} (he : e ≤ (fmtOf t).emax) (hn : n < 2 ^ (fmtOf t).mbits) :
    (fmtOf t).decode ((fmtOf t).signBits neg + (e * 2 ^ (fmtOf t).mbits + n)) =
      if e = (fmtOf t).emax then (if n = 0 then .inf neg else .nan neg (bitOf n ((fmtOf t).mbits - 1)) (n * 2 ^ (52 - (fmtOf t).mbits)))
      else .num neg ((fmtOf t).magOf (e * 2 ^ (fmtOf t).mbits + n)) := by
  obtain ⟨width, -⟩ := Fmt.two_pow_signPos (Fmt.proper_fmtOf t)
  have most := Nat.mul_le_mul_right (2 ^ (fmtOf t).mbits) he
  obtain ⟨sign, mag⟩ := (fmtOf t).signBits_add neg (a := e * 2 ^ (fmtOf t).mbits + n) (by omega)
  obtain ⟨quot, rem⟩ := (Nat.div_mod_unique (by positivity : 0 < 2 ^ (fmtOf t).mbits)).mpr
    ⟨(by ring : n + 2 ^ (fmtOf t).mbits * e = e * 2 ^ (fmtOf t).mbits + n), hn⟩
  simp only [Fmt.decode, sign, mag, quot, rem]
  simp [ht.inf, ht.hasSign]

/-- The first bit of a fraction. -/
theorem bitOf_top {w n : Nat} (hw : 1 ≤ w) (hn : n < 2 ^ w) : bitOf n (w - 1) = !decide (n < 2 ^ (w - 1)) := by
  have half : 2 ^ w = 2 ^ (w - 1) * 2 := by rw [← pow_succ, Nat.sub_add_cancel hw]
  have pos : 0 < 2 ^ (w - 1) := by positivity
  rw [half] at hn
  by_cases low : n < 2 ^ (w - 1)
  · simp [bitOf, Nat.div_eq_of_lt low, low]
  · have one : n / 2 ^ (w - 1) = 1 := Nat.div_eq_of_lt_le (by omega) (by omega)
    simp [bitOf, one, low]

theorem Arith.class_values {t : Ty} (ht : Arith t) (neg : Bool) {e n : Nat} (he : e ≤ (fmtOf t).emax) (hn : n < 2 ^ (fmtOf t).mbits) :
    fpClass t ((fmtOf t).signBits neg + (e * 2 ^ (fmtOf t).mbits + n)) =
      if e = (fmtOf t).emax then (if n = 0 then (if neg then 2 else 9) else if n < 2 ^ ((fmtOf t).mbits - 1) then 0 else 1)
      else if e = 0 then (if n = 0 then (if neg then 5 else 6) else if neg then 4 else 7)
      else if neg then 3 else 8 := by
  have hm := (Fmt.proper_fmtOf t).mbits
  rw [fpClass, ht.decode_fields neg he hn]
  by_cases special : e = (fmtOf t).emax
  · simp only [special, if_true]
    by_cases zero : n = 0
    · simp [zero]
    · simp only [zero, if_false, bitOf_top hm hn]
      by_cases low : n < 2 ^ ((fmtOf t).mbits - 1) <;> simp [low]
  · simp only [special, if_false]
    have isZero : (fmtOf t).magOf (e * 2 ^ (fmtOf t).mbits + n) = 0 ↔ e = 0 ∧ n = 0 := by
      have := (fmtOf t).magOf_strictMono.injective.eq_iff (a := e * 2 ^ (fmtOf t).mbits + n) (b := 0)
      rw [Fmt.magOf_zero] at this
      simp [this]
    have isLow : (fmtOf t).magOf (e * 2 ^ (fmtOf t).mbits + n) < (fmtOf t).minNormal ↔ e = 0 := by
      rw [Fmt.minNormal_eq, (fmtOf t).magOf_strictMono.lt_iff_lt]
      rcases Nat.eq_zero_or_pos e with rfl | pos
      · simpa using hn
      · have := Nat.mul_le_mul_right (2 ^ (fmtOf t).mbits) pos
        exact iff_of_false (by omega) pos.ne'
    simp only [isZero, isLow]
    by_cases low : e = 0 <;> by_cases zero : n = 0 <;> simp [low, zero]

/-! ### Short floating-point results (R138 to R143) -/

/-- The short floating-point results are those of an instruction that delivers each sub-element's number operation. -/
theorem FpResult.lanes {i : Instr} {c : Ctl} {d : BitVec 8} {t : Ty} {f : Group → Nat → Nat → Flagged Nat} (h : FpResult i c d t f) :
    i.operands.d = Opnd.of .v d ∧
      (fun s => exec i s) = runInstr i c (laneShort c .v (fun g => g.rD c d) fun g l => bySubF t.width (f g l)) := by
  refine ⟨by cases h <;> rfl, ?_⟩
  cases h <;> rfl

/-- The comparison that `fsetp` makes in a lane (R141). -/
def fsetpLane (c : Ctl) (o : FSetp) (g : Group) (l : Nat) : Bool × BitVec 6 :=
  fpSetp g.fctl o.ty o.cmp o.na o.nb (bitsAt o.ty (g.srcA c o.a l) o.sel.toNat) (bitsAt o.ty (g.srcB c o.uni o.b l) o.sel.toNat)

theorem exec_fsetp (c : Ctl) (o : FSetp) (s : State) :
    exec (.fsetp c o) s = runInstr (.fsetp c o) c
      (laneShort c .p (fun g => g.rD c o.d) fun g l => (predVal (fsetpLane c o g l).1, (fsetpLane c o g l).2)) s := rfl

/-- The flags of one value in each lane. -/
theorem laneResult_raised_one (g : Group) (c : Ctl) (cls : RClass) (reg : Nat) (f : Nat → Flagged Word64) :
    (g.laneResult c cls reg f).2 = raised g c 1 fun l _ => (f l).2 := by
  refine BitVec.eq_of_getLsbD_eq fun j _ => ?_
  rw [laneResult_flags, raised_bit]
  simp

/-- Settles O5: the lanes take the number operations, which are what the lemmas on exact values, comparisons and integral values say. -/
theorem floatResults : Obligations.FloatResults := by
  unfold Obligations.FloatResults
  refine ⟨fun i c d t f s s1 form hr => ?_, fun c o s s1 hr => ?_, fun k m t na nb nc a b d ht => ?_, fun t neg e n ht he hn => ?_⟩
  · obtain ⟨dest, run⟩ := form.lanes
    obtain ⟨u, goes, after, seen⟩ := laneShort_subs (f := f) hr dest
    rw [show exec i s = _ from congrFun run s]
    refine ⟨u, goes, after, fun l hl => ⟨fun on k hk => ?_, (seen l hl).2⟩⟩
    rw [(seen l hl).1 on]
    exact bitsAt_bySubF _ hk
  · obtain ⟨u, goes, after, seen⟩ :=
      laneShort_takes (d := o.d) (f := fun g l => (predVal (fsetpLane c o g l).1, (fsetpLane c o g l).2)) hr rfl (.inr rfl)
    rw [exec_fsetp]
    rw [laneResult_raised_one] at after
    refine ⟨u, goes, after, fun h63 l hl => ?_⟩
    obtain ⟨value, zero⟩ := seen l hl fun h => h63 h.2
    exact ⟨fun on => readP_of_seen (value on), fun off => readP_of_seen (b := false) (zero off)⟩
  · have hf := arith_of_mem ht
    exact ⟨hf.add_values k m na nb a b, hf.mul_values k m na nb a b, hf.fma_values k m na nb nc a b d, fun isMax => hf.minMax_values k isMax na nb a b,
      fun cc => fpSetp_eq k t cc na nb a b, hf.round_values k m na a⟩
  · exact (arith_of_mem ht).class_values neg he hn

end Sys2Proof.Machine
end

section
/-!
The elements of a conversion in a lane, and the lanes of a special function (R144, R148 to R150).
-/
set_option Elab.async false
namespace Sys2Proof.Machine
open Sys2Proof

/-! ### The elements of `cvt` (R149) -/

/-- How many elements `cvt` converts in a lane, and where it reads and writes the one with a number. -/
def cvtCount (o : Cvt) : Nat := 64 / max o.src.width o.dst.width
def cvtSrc (o : Cvt) (k : Nat) : Nat := if o.src.width < o.dst.width then o.part.toNat * cvtCount o + k else k
def cvtDst (o : Cvt) (k : Nat) : Nat := if o.dst.width < o.src.width then o.part.toNat * cvtCount o + k else k

/-- What stands in a place of the destination: a converted element, or in a wider destination what stood there. -/
def cvtSub (o : Cvt) (f : Nat → Flagged Nat) (a old : Word64) (j : Nat) : Flagged Nat :=
  if o.dst.width < o.src.width then
    if o.part.toNat * cvtCount o ≤ j ∧ j < o.part.toNat * cvtCount o + cvtCount o then f (bitsAt o.src a (j - o.part.toNat * cvtCount o))
    else (bitsAt o.dst old j, 0)
  else f (bitsAt o.src a (cvtSrc o j))

theorem cvtLane_eq (f : Nat → Flagged Nat) (o : Cvt) (a old : Word64) : cvtLane f o a old = bySubF o.dst.width (cvtSub o f a old) := by
  have four (w : Nat) : (if w = 4 then 4 else w) = w := by split <;> simp [*]
  unfold cvtLane
  simp only [four, ← Bool.decide_and, decide_eq_true_eq]
  split
  next narrower =>
    congr 1
    funext j
    simp only [cvtSub, narrower, if_true]
    rfl
  next wider =>
    congr 1
    funext j
    simp only [cvtSub, wider, if_false]
    rfl

theorem cvtSub_dst {o : Cvt} (f : Nat → Flagged Nat) (a old : Word64) {k : Nat} (hk : k < cvtCount o) :
    cvtSub o f a old (cvtDst o k) = f (bitsAt o.src a (cvtSrc o k)) := by
  unfold cvtSub cvtDst
  split
  next narrower => rw [if_pos ⟨by omega, by omega⟩, Nat.add_sub_cancel_left, cvtSrc, if_neg narrower.not_gt]
  next => rfl

theorem cvtSub_other {o : Cvt} (f : Nat → Flagged Nat) (a old : Word64) {j : Nat} (hj : j < 64 / o.dst.width) (other : ∀ k < cvtCount o, j ≠ cvtDst o k) :
    cvtSub o f a old j = (bitsAt o.dst old j, 0) := by
  unfold cvtDst at other
  unfold cvtSub
  split
  next narrower =>
    simp only [narrower, if_true] at other
    exact if_neg fun inside => other (j - o.part.toNat * cvtCount o) (by omega) (by omega)
  next wider =>
    simp only [wider, if_false] at other
    exact absurd rfl (other j (by rwa [cvtCount, max_eq_right (not_lt.mp wider)]))

theorem width_mem {t : Ty} (h : t ≠ .none) : t.width ∈ [4, 8, 16, 32, 64] := by
  cases t <;> simp [Ty.width] at h ⊢

/-- The widths that a conversion takes. -/
theorem width_of_convPair {s d : Ty} (h : convPair s d = true) : s.width ∈ [4, 8, 16, 32, 64] ∧ d.width ∈ [4, 8, 16, 32, 64] := by
  have hs : s ≠ .none := by
    rintro rfl
    cases d <;> exact absurd h (by decide)
  have hd : d ≠ .none := by
    rintro rfl
    cases s <;> exact absurd h (by decide)
  exact ⟨width_mem hs, width_mem hd⟩

/-- The parts of a lane are as many as the wider elements are times the narrower. -/
theorem parts_of_widths : ∀ ws ∈ [4, 8, 16, 32, 64], ∀ wd ∈ [4, 8, 16, 32, 64], max ws wd / min ws wd * (64 / max ws wd) = 64 / min ws wd := by decide

section
variable {o : Cvt} (ok : o.ok = true)
include ok

theorem cvt_part_fits : o.part.toNat * cvtCount o + cvtCount o ≤ 64 / min o.src.width o.dst.width := by
  simp only [Cvt.ok, Bool.and_eq_true, decide_eq_true_eq] at ok
  obtain ⟨⟨pair, -⟩, part⟩ := ok
  obtain ⟨ws, wd⟩ := width_of_convPair pair
  rw [← parts_of_widths _ ws _ wd, ← Nat.succ_mul]
  exact Nat.mul_le_mul_right _ part

theorem cvtDst_lt {k : Nat} (hk : k < cvtCount o) : cvtDst o k < 64 / o.dst.width := by
  have fits := cvt_part_fits ok
  unfold cvtDst
  split
  next narrower =>
    rw [min_eq_right narrower.le] at fits
    omega
  next wider => rwa [cvtCount, max_eq_right (not_lt.mp wider)] at hk

/-- The flags of a lane are those of the elements that it converts. -/
theorem raised_cvtSub (g : Group) (c : Ctl) (f : Nat → Flagged Nat) (a old : Nat → Word64) :
    raised g c (64 / o.dst.width) (fun l j => (cvtSub o f (a l) (old l) j).2) =
      raised g c (cvtCount o) fun l k => (f (bitsAt o.src (a l) (cvtSrc o k))).2 := by
  refine BitVec.eq_of_getLsbD_eq fun b _ => ?_
  rw [raised_bit, raised_bit]
  congr 1
  funext l
  congr 1
  rw [Bool.eq_iff_iff]
  simp only [List.any_eq_true, List.mem_range]
  constructor
  · rintro ⟨j, hj, flag⟩
    by_cases other : ∀ k < cvtCount o, j ≠ cvtDst o k
    · rw [cvtSub_other f _ _ hj other, noFlag] at flag
      cases flag
    · push Not at other
      obtain ⟨k, hk, rfl⟩ := other
      exact ⟨k, hk, by rwa [cvtSub_dst f _ _ hk] at flag⟩
  · rintro ⟨k, hk, flag⟩
    exact ⟨cvtDst o k, cvtDst_lt ok hk, by rwa [cvtSub_dst f _ _ hk]⟩

end

theorem exec_cvt (c : Ctl) (o : Cvt) (s : State) :
    exec (.cvt c o) s = runInstr (.cvt c o) c (laneShort c .v (fun g => g.rD c o.d) fun g l =>
      bySubF o.dst.width (cvtSub o (convert g.fctl (g.rmode c) o.sat o.src o.dst) (g.srcA c o.a l) (g.readV (g.rD c o.d) l))) s := by
  simp only [← cvtLane_eq]
  rfl

/-- `cvt` goes through: each converted element stands in its place, and the other places of a wider destination keep what they held. -/
theorem cvt_converts {c : Ctl} {o : Cvt} {s s1 : State} (hr : Ready (.cvt c o) c s s1) :
    ∃ u, exec (.cvt c o) s = .next u ∧
      (let r (l k : Nat) := convert s1.cur.fctl (s1.cur.rmode c) o.sat o.src o.dst (bitsAt o.src (s1.cur.srcA c o.a l) (cvtSrc o k))
       After (.cvt c o) c s1.cur.x (s1.withFlags (raised s1.cur c (cvtCount o) fun l k => (r l k).2)) u (laneDest s1.cur c .v (s1.cur.rD c o.d)) ∧
       ∀ l < 32, (takes s1.cur c l →
           (∀ k < cvtCount o, bitsAt o.dst (u.cur.seen .v (s1.cur.rD c o.d) l) (cvtDst o k) = (r l k).1 % 2 ^ o.dst.width) ∧
           ∀ j < 64 / o.dst.width, (∀ k < cvtCount o, j ≠ cvtDst o k) →
             bitsAt o.dst (u.cur.seen .v (s1.cur.rD c o.d) l) j = bitsAt o.dst (s1.cur.readV (s1.cur.rD c o.d) l) j) ∧
         (lane (s1.cur.zeroLanes c) l = true → u.cur.seen .v (s1.cur.rD c o.d) l = 0)) := by
  have ok : o.ok = true := wf_types hr.1 (Option.some_ne_none c)
  obtain ⟨u, goes, after, seen⟩ := laneShort_subs (d := o.d) (w := o.dst.width)
    (f := fun g l => cvtSub o (convert g.fctl (g.rmode c) o.sat o.src o.dst) (g.srcA c o.a l) (g.readV (g.rD c o.d) l)) hr rfl
  rw [raised_cvtSub ok] at after
  rw [exec_cvt]
  refine ⟨u, goes, after, fun l hl => ⟨fun on => ⟨fun k hk => ?_, fun j hj other => ?_⟩, (seen l hl).2⟩⟩
  · rw [(seen l hl).1 on, bitsAt_bySubF _ (cvtDst_lt ok hk), cvtSub_dst _ _ _ hk]
  · rw [(seen l hl).1 on, bitsAt_bySubF _ hj, cvtSub_other _ _ _ hj other]
    exact Nat.mod_mod ..

/-! ### The lanes of special functions (R144) -/

theorem SfuResult.lanes {i : Instr} {c : Ctl} {o : F1} {f : Sfu} (h : SfuResult i c o f) :
    (fun s => exec i s) = runInstr i c (laneLong c .v (fun g => g.rD c o.d) fun g l =>
      bySubF o.ty.width fun k => fpSfu f g.fctl (g.rmode c) o.ty o.na (bitsAt o.ty (g.srcA c o.a l) k)) := by
  cases h <;> rfl

/-- A long per-lane result made of sub-elements joins the uncommitted ones, with the flags of the active lanes. -/
theorem laneLong_subs {i : Instr} {c : Ctl} {s s1 : State} {d : BitVec 8} {t : Ty} {f : Group → Nat → Nat → Flagged Nat} (hr : Ready i c s s1) :
    ∃ u, runInstr i c (laneLong c .v (fun g => g.rD c d) fun g l => bySubF t.width (f g l)) s = .next u ∧ ∃ v : Lanes Word64,
      After i c s1.cur.x (s1.setCur (s1.cur.addPend .v (s1.cur.rD c d) (s1.cur.written c) v true (raised s1.cur c (64 / t.width) fun l k => (f s1.cur l k).2)))
        u noDest ∧
      ∀ l < 32, (takes s1.cur c l → ∀ k < 64 / t.width, bitsAt t (v.get l 0) k = (f s1.cur l k).1 % 2 ^ t.width) ∧
        (lane (s1.cur.zeroLanes c) l = true → v.get l 0 = 0) := by
  obtain ⟨u, goes, after⟩ := longResult_after (f := fun g => g.laneResult c .v (g.rD c d) fun l => bySubF t.width (f g l)) hr
  rw [laneResult_raised] at after
  refine ⟨u, goes, _, after, fun l hl => ⟨fun ⟨on, nonzero⟩ k hk => ?_, fun zero => ?_⟩⟩
  · have written : lane (s1.cur.written c) l = true := by rw [Group.written, lane_or, on, Bool.true_or]
    simp only [Group.laneResult, Group.laneWrite, Lanes.get_gen _ _ _ hl, nonzero, written, if_true, Bool.false_eq_true, if_false]
    exact bitsAt_bySubF _ hk
  · simp only [Group.laneResult, Group.laneWrite, Lanes.get_gen _ _ _ hl, zero, if_true]

end Sys2Proof.Machine
end

section
/-!
What a conversion delivers (R76, R89 to R92).
-/
set_option Elab.async false
namespace Sys2Proof.Machine
open Sys2Proof

/-! ### Between integers, and from them (R76, R89) -/

/-- A fitted integer as the bits that hold it, with SI where saturation changed it. -/
theorem fitInt_eq {t : Ty} (pos : 0 < t.width) (sat : Bool) (v : Int) :
    fitInt t sat v = ((fit t sat v % 2 ^ t.width).toNat, if sat = true ∧ fit t true v ≠ v then flSI else 0) := by
  refine Prod.ext ?_ (fitInt_spec pos sat v).2
  obtain ⟨low, high, ordered⟩ := least_greatest pos
  cases sat
  · show lowBits t.width v = _
    rw [lowBits, fit, if_neg Bool.false_ne_true, Int.add_emod_emod, add_sub_cancel]
  · show lowBits t.width (clampInt v (tyMin t) (tyMax t)) = _
    rw [low, high, clampInt_eq v _ _ ordered]
    rfl

theorem convert_int {s d : Ty} (hs : s.isInt = true) (k : FCtl) (m : Rounding) (sat : Bool) (a : Nat) :
    (d.isInt = true → convert k m sat s d a = fitInt d sat (fit s false a)) ∧
      (d.isF = true → convert k m sat s d a = roundVal d m (k.flushes d) false (fit s false a < 0) |(fit s false a : Rat)|) := by
  have read := intOf_eq_fit (width_pos_of_int hs) a
  constructor <;> intro hd
  · simp only [convert, hs, hd, if_true, read]
  · have float : d.isInt = false := by cases d <;> simp [Ty.isF, Ty.isInt, Ty.isI, Ty.isN] at hd ⊢
    simp only [convert, hs, float, if_true, Bool.false_eq_true, if_false, read, Nat.cast_natAbs, Int.cast_abs]

/-! ### To integers (R90) -/

theorem convert_to_int {s d : Ty} (hs : s.isF = true) (hd : d.isInt = true) (k : FCtl) (m : Rounding) (sat : Bool) (a : Nat) :
    convert k m sat s d a = fpToInt k m s d a := by
  have float : s.isInt = false := by cases s <;> simp [Ty.isF, Ty.isInt, Ty.isI, Ty.isN] at hs ⊢
  simp only [convert, float, hd, if_true, Bool.false_eq_true, if_false]

theorem sigFlag_or_iv (t : Ty) (a : Nat) : sigFlag t a ||| flIV = flIV := by
  unfold sigFlag
  split <;> rfl

theorem roundInt_signed (m : Rounding) (u : Bool) {q : Rat} (hq : 0 ≤ q) :
    roundInt m (signed u q) = if u then -(roundNat m u q : Int) else roundNat m u q := by
  have zero (neg : Bool) : roundNat m neg 0 = 0 := by simpa using roundNat_natCast m neg 0
  unfold roundInt
  cases u
  · exact if_neg hq.not_gt
  · rcases hq.eq_or_lt with rfl | pos
    · simp [signed, zero]
    · simp [signed, pos]

/-- An integer that is clamped to a type, with IV and SI where it lies outside. -/
theorem clamp_eq_clampTo {d : Ty} (pos : 0 < d.width) (z : Int) :
    (lowBits d.width (clampInt z (tyMin d) (tyMax d)), flIf (clampInt z (tyMin d) (tyMax d) ≠ z) (flIV ||| flSI)) = clampTo d z := by
  obtain ⟨low, high, ordered⟩ := least_greatest pos
  rw [low, high]
  refine Prod.ext rfl ?_
  have changed : clampInt z (least d) (greatest d) ≠ z ↔ z < least d ∨ greatest d < z := by
    unfold clampInt
    split
    · omega
    · split <;> omega
  simp only [clampTo, flIf, decide_eq_true_eq, changed]

theorem fpToInt_values {d : Ty} (hd : d.isInt = true) (k : FCtl) (m : Rounding) (s : Ty) (a : Nat) :
    let x := operand k s false a
    let r := fpToInt k m s d a
    (x.isNan = true → r = (0, flIV)) ∧
      (∀ u, x = .inf u → r = (((if u then least d else greatest d) % 2 ^ d.width).toNat, flIV ||| flSI)) ∧
      (∀ u q, x = .num u q → ∃ h : Nat, Picks m u q h ∧ (let z : Int := if u then -h else h
        r = ((clampTo d z).1, (if (h : Rat) = q then 0 else flNX) ||| (clampTo d z).2))) := by
  intro x r
  have pos := width_pos_of_int hd
  obtain ⟨low, high, -⟩ := least_greatest pos
  have run : r = fpToInt k m s d a := rfl
  simp only [fpToInt, readOperand_plain] at run
  refine ⟨fun nan => ?_, fun u hx => ?_, fun u q hx => ?_⟩
  · cases hx : x with
    | nan u quiet frac => rw [run, show operand k s false a = _ from hx, sigFlag_or_iv]
    | inf u => simp [hx, FpVal.isNan] at nan
    | num u q => simp [hx, FpVal.isNan] at nan
  · rw [run, show operand k s false a = _ from hx, sigFlag_eq_zero (isNan_of_eq_inf hx), low, high]
    cases u <;> rfl
  · have nonneg : 0 ≤ q := operand_num_nonneg hx
    have value : FpVal.rat (.num u q) = signed u q := rfl
    refine ⟨roundNat m u q, roundNat_picks m u nonneg, ?_⟩
    intro z
    have rounded : roundInt m (signed u q) = z := roundInt_signed m u nonneg
    have exact_ : ((z : Rat) ≠ signed u q) ↔ (roundNat m u q : Rat) ≠ q := by cases u <;> simp [z, signed]
    rw [← clamp_eq_clampTo pos, run, show operand k s false a = _ from hx, sigFlag_eq_zero (isNan_of_eq_num hx)]
    simp only [value, rounded, exact_]
    by_cases same : (roundNat m u q : Rat) = q <;> simp [same, flIf]

/-! ### Between formats (R91, R92) -/

/-- The types that a conversion between formats reads and writes. -/
def readFormats : List Ty := [.f64, .f32, .f16, .bf16, .e5m2, .e4m3, .e3m2, .e2m3, .e2m1]
def writtenFormats : List Ty := [.f64, .f32, .f16, .bf16, .e5m2, .e4m3, .e3m2, .e2m3, .e2m1, .e5m3n]

theorem readFormats_spec : ∀ s ∈ readFormats, s.isInt = false ∧ s ≠ .e8m0 ∧ s ≠ .e5m3n := by decide

theorem writtenFormats_spec : ∀ d ∈ writtenFormats, d.isInt = false ∧ d ≠ .e8m0 ∧ ((fmtOf d).signed = false ↔ d = .e5m3n) ∧
    ((fmtOf d).inf = true → (fmtOf d).signPos + 1 ≤ d.width) := by decide

theorem convert_formats {s d : Ty} (hs : s ∈ readFormats) (hd : d ∈ writtenFormats) (k : FCtl) (m : Rounding) (sat : Bool) (a : Nat) :
    convert k m sat s d a = fpToFp k m sat s d a := by
  obtain ⟨si, s8, s5⟩ := readFormats_spec s hs
  obtain ⟨di, d8, -⟩ := writtenFormats_spec d hd
  simp [convert, si, di, s8, s5, d8]

theorem fpToFp_values {d : Ty} (hd : d ∈ writtenFormats) (k : FCtl) (m : Rounding) (sat : Bool) (s : Ty) (a : Nat) :
    let f := fmtOf d
    let x := operand k s false a
    let r := fpToFp k m sat s d a
    (x.isNan = true → f.nan = true → NanOf k d [x] r.1 ∧ r.2 = if d = .e5m3n then flIV else sigFlag s a) ∧
      (x.isNan = true → f.nan = false → r = (0, flIV)) ∧
      (∀ u, x = .inf u → r = if d = .e5m3n ∧ u = true then (0xFF, flIV) else if f.inf = true ∧ sat = false then (f.infBits u, 0)
        else (f.signBits u + f.maxBits, flOF ||| flNX)) ∧
      (∀ u q, x = .num u q → r = if d = .e5m3n ∧ u = true ∧ q ≠ 0 then (0xFF, flIV) else roundVal d m (k.flushes d) sat u q) := by
  intro f x r
  obtain ⟨-, -, unsigned, width⟩ := writtenFormats_spec d hd
  have run : r = fpToFp k m sat s d a := rfl
  simp only [fpToFp, readOperand_plain] at run
  have nanRun (nan : x.isNan = true) :
      r = if f.nan then (nanResult d k.nanq [x], sigFlag s a ||| flIf (!f.signed) flIV) else (0, sigFlag s a ||| flIV) := by
    cases hx : x with
    | nan u quiet frac => rw [run, show operand k s false a = _ from hx]
    | inf u => simp [hx, FpVal.isNan] at nan
    | num u q => simp [hx, FpVal.isNan] at nan
  refine ⟨fun nan has => ?_, fun nan none_ => ?_, fun u hx => ?_, fun u q hx => ?_⟩
  · rw [nanRun nan, if_pos has]
    refine ⟨nanOf_nanResult k width (by simp [x, operand_aligned]), ?_⟩
    by_cases scale : d = .e5m3n
    · have : f.signed = false := unsigned.mpr scale
      rw [this, if_pos scale]
      exact sigFlag_or_iv s a
    · have : f.signed = true := by simpa using mt unsigned.mp scale
      simp [this, scale, flIf]
  · rw [nanRun nan, none_, sigFlag_or_iv]
    rfl
  · rw [run, show operand k s false a = _ from hx, sigFlag_eq_zero (isNan_of_eq_inf hx)]
    simp only [orFlags_zero, Bool.and_eq_true, Bool.not_eq_true', unsigned, encodeInf, and_comm (a := u = true)]
    rfl
  · rw [run, show operand k s false a = _ from hx, sigFlag_eq_zero (isNan_of_eq_num hx)]
    simp only [orFlags_zero, Bool.and_eq_true, Bool.not_eq_true', unsigned, decide_eq_true_eq, and_assoc]
    rfl

/-! ### Scales (R92) -/

theorem convert_scale {s : Ty} (hs : s = .e8m0 ∨ s = .e5m3n) (k : FCtl) (m : Rounding) (sat : Bool) {a : Nat} (ha : a < 256) :
    (a = 0xFF → convert k m sat s .f32 a = (0x7FC00000, 0)) ∧
      (a ≠ 0xFF → convert k m sat s .f32 a =
        roundVal .f32 .rne k.ftzs false false (if s = .e8m0 then (2 : Rat) ^ ((a : Int) - 127) else (fmtOf .e5m3n).magOf a)) := by
  have scale : convert k m sat s .f32 a = scaleToFp k s a := by
    rcases hs with rfl | rfl <;> simp [convert, Ty.isInt, Ty.isI, Ty.isN]
  rw [scale, scaleToFp, Nat.mod_eq_of_lt ha]
  refine ⟨fun nan => if_pos nan, fun number => ?_⟩
  rw [if_neg number]
  simp only [pow2_eq_zpow]

/-- The power of two that a mode picks for a magnitude, and its delivery. -/
def scaleUp (m : Rounding) (e : Int) (q : Rat) : Bool :=
  match m with | .rz | .rdn => false | .rup => decide (q ≠ 2 ^ e) | .rne | .rna => decide (3 * 2 ^ e ≤ 2 * q)

theorem fpToE8m0_values (k : FCtl) (m : Rounding) (a : Nat) :
    let x := operand k .f32 false a
    let r := fpToE8m0 k m a
    (x.isNan = true ∨ x = .inf true ∨ (∃ q, x = .num true q) ∨ x = .num false 0 → r = (0xFF, flIV)) ∧
      (x = .inf false → r = (0xFE, flOF ||| flNX)) ∧
      (∀ (q : Rat) (e : Int), x = .num false q → (2 : Rat) ^ e ≤ q → q < 2 ^ (e + 1) →
        (let h := if scaleUp m e q then e + 1 else e
         (127 < h → r = (0xFE, flOF ||| flNX)) ∧ (h < -127 → r = (0, flUF ||| flNX)) ∧
         (-127 ≤ h → h ≤ 127 → r = ((h + 127).toNat, if (2 : Rat) ^ h = q then 0 else flNX)))) := by
  intro x r
  have run : r = fpToE8m0 k m a := rfl
  simp only [fpToE8m0, readOperand_plain] at run
  refine ⟨fun invalid => ?_, fun hx => ?_, fun q e hx lo hi => ?_⟩
  · rcases invalid with nan | hx | ⟨q, hx⟩ | hx
    · cases hx : x with
      | nan u quiet frac => rw [run, show operand k .f32 false a = _ from hx, sigFlag_or_iv]
      | inf u => simp [hx, FpVal.isNan] at nan
      | num u q => simp [hx, FpVal.isNan] at nan
    · rw [run, show operand k .f32 false a = _ from hx, sigFlag_or_iv]
      rfl
    · rw [run, show operand k .f32 false a = _ from hx, sigFlag_or_iv]
      rfl
    · rw [run, show operand k .f32 false a = _ from hx, sigFlag_or_iv]
      simp
  · rw [run, show operand k .f32 false a = _ from hx, sigFlag_eq_zero (isNan_of_eq_inf hx)]
    rfl
  · have pos : 0 < q := lt_of_lt_of_le (by positivity) lo
    have half : (2 : Rat) ^ e * 3 / 2 ≤ q ↔ 3 * 2 ^ e ≤ 2 * q := by
      rw [div_le_iff₀ two_pos, mul_comm q, mul_comm (3 : Rat)]
    intro h
    have body : r = if 127 < h then (0xFE, flOF ||| flNX) else if h < -127 then (0, flUF ||| flNX)
        else ((h + 127).toNat, flIf ((2 : Rat) ^ h ≠ q) flNX) := by
      rw [run, show operand k .f32 false a = _ from hx, sigFlag_eq_zero (isNan_of_eq_num hx)]
      simp only [ilog2_eq_of_bounds lo hi, pow2_eq_zpow, pos.ne', decide_false, Bool.or_self, Bool.false_eq_true, if_false, half]
      cases m <;> simp [h, scaleUp]
    refine ⟨fun high => ?_, fun low => ?_, fun least most => ?_⟩
    · rw [body, if_pos high]
    · rw [body, if_neg (by omega), if_pos low]
    · rw [body, if_neg (by omega), if_neg (by omega)]
      by_cases same : (2 : Rat) ^ h = q <;> simp [same, flIf]

end Sys2Proof.Machine
end

section
/-!
Square roots: the rational that stands for a root rounds as the root does (R145, R146).
-/
set_option Elab.async false
namespace Sys2Proof.Machine
open Sys2Proof

/-! ### A rational that compares as a root does -/

/-- To every multiple of a power of two from 2^-n on, `v` compares as the square root of `r` does. -/
def ComparesAsRoot (n : Nat) (v r : Rat) : Prop :=
  ∀ (j : Nat) (e : Int), -n ≤ e → (j * (2 : Rat) ^ e < v ↔ (j * (2 : Rat) ^ e) ^ 2 < r) ∧ (v < j * 2 ^ e ↔ r < (j * (2 : Rat) ^ e) ^ 2)

theorem ComparesAsRoot.eq_iff {n : Nat} {v r : Rat} (h : ComparesAsRoot n v r) (j : Nat) {e : Int} (he : -n ≤ e) :
    j * (2 : Rat) ^ e = v ↔ (j * (2 : Rat) ^ e) ^ 2 = r := by
  obtain ⟨below, above⟩ := h j e he
  rw [← not_iff_not, ← ne_eq, ← ne_eq, ne_iff_lt_or_gt, ne_iff_lt_or_gt]
  exact or_congr below above

/-- A root compares as itself. -/
theorem comparesAsRoot_self (n : Nat) {p : Rat} (hp : 0 < p) : ComparesAsRoot n p (p * p) := by
  intro j e _
  have nonneg : (0 : Rat) ≤ j * 2 ^ e := by positivity
  rw [← pow_two]
  exact ⟨(pow_lt_pow_iff_left₀ nonneg hp.le two_ne_zero).symm, (pow_lt_pow_iff_left₀ hp.le nonneg two_ne_zero).symm⟩

/-- Comparison with whole numbers is enough, at the scale of the finest multiple. -/
theorem comparesAsRoot_of_nat {n : Nat} {v r : Rat} (h : ∀ j : Nat, ((j : Rat) < v * 2 ^ n ↔ (j : Rat) ^ 2 < r * 4 ^ n) ∧
    (v * 2 ^ n < j ↔ r * 4 ^ n < (j : Rat) ^ 2)) : ComparesAsRoot n v r := by
  intro j e he
  obtain ⟨d, hd⟩ := Int.eq_ofNat_of_zero_le (show 0 ≤ e + n by omega)
  have scaled : (j : Rat) * 2 ^ e * 2 ^ n = (j * 2 ^ d : Nat) := by
    rw [mul_assoc, ← zpow_natCast, ← zpow_add₀ two_ne_zero, hd]
    push_cast
    rw [zpow_natCast]
  have squared : ((j : Rat) * 2 ^ e) ^ 2 * 4 ^ n = (j * 2 ^ d : Nat) ^ 2 := by
    rw [← scaled, mul_pow _ ((2 : Rat) ^ n), ← pow_mul, mul_comm n, pow_mul]
    norm_num
  obtain ⟨below, above⟩ := h (j * 2 ^ d)
  rw [← squared, ← scaled] at below above
  exact ⟨by rwa [mul_lt_mul_iff_left₀ (by positivity), mul_lt_mul_iff_left₀ (by positivity)] at below,
    by rwa [mul_lt_mul_iff_left₀ (by positivity), mul_lt_mul_iff_left₀ (by positivity)] at above⟩

/-- How many bits after the point `sqrtRat` takes. -/
def rootBits (r : Rat) : Nat := (70 - ilog2 r / 2).toNat

/-- The root of a square, or the middle of the interval of the finest multiples that the root lies in. -/
theorem sqrtRat_compares {r : Rat} (hr : 0 < r) : ComparesAsRoot (rootBits r) (sqrtRat r) r := by
  obtain ⟨n, hn⟩ : ∃ n, rootBits r = n := ⟨_, rfl⟩
  obtain ⟨x, hx⟩ : ∃ x, r.num.natAbs * 4 ^ n / r.den = x := ⟨_, rfl⟩
  have den0 : (0 : Rat) < r.den := by exact_mod_cast r.den_pos
  have scaled : r * 4 ^ n * r.den = (r.num.natAbs * 4 ^ n : Nat) := by
    rw [mul_right_comm, mul_den_eq_natAbs hr.le]
    push_cast
    rfl
  have least : (x : Rat) ≤ r * 4 ^ n := by
    rw [← mul_le_mul_iff_left₀ den0, scaled, ← hx]
    exact_mod_cast Nat.div_mul_le_self ..
  have most : r * 4 ^ n < x + 1 := by
    rw [← mul_lt_mul_iff_left₀ den0, scaled, ← hx]
    exact_mod_cast Nat.lt_mul_of_div_lt (Nat.lt_succ_self _) r.den_pos
  have low : ((Nat.sqrt x : Nat) : Rat) ^ 2 ≤ r * 4 ^ n := le_trans (by exact_mod_cast Nat.sqrt_le' x) least
  have high : r * 4 ^ n < ((Nat.sqrt x : Nat) + 1 : Rat) ^ 2 := most.trans_le (by exact_mod_cast Nat.succ_le_succ_sqrt' x)
  have pow0 : (0 : Rat) < 2 ^ n := by positivity
  have value : sqrtRat r = if Nat.sqrt x * Nat.sqrt x * r.den = r.num.natAbs * 4 ^ n then mkRat (Nat.sqrt x) (2 ^ n)
      else mkRat (2 * Nat.sqrt x + 1) (2 ^ (n + 1)) := by
    rw [← hx, ← hn]
    rfl
  rw [hn]
  generalize Nat.sqrt x = f at low high value
  have whole : f * f * r.den = r.num.natAbs * 4 ^ n ↔ (f : Rat) ^ 2 = r * 4 ^ n := by
    rw [← mul_left_inj' den0.ne', scaled, pow_two]
    exact_mod_cast Iff.rfl
  refine comparesAsRoot_of_nat fun j => ?_
  split at value
  case isTrue square =>
    have point : sqrtRat r * 2 ^ n = f := by
      rw [value, Rat.mkRat_eq_div]
      push_cast
      rw [div_mul_cancel₀ _ pow0.ne']
    rw [point, ← whole.mp square]
    exact_mod_cast (⟨(Nat.pow_lt_pow_iff_left two_ne_zero).symm, (Nat.pow_lt_pow_iff_left two_ne_zero).symm⟩ :
      (j < f ↔ j ^ 2 < f ^ 2) ∧ (f < j ↔ f ^ 2 < j ^ 2))
  case isFalse other =>
    have low' : (f : Rat) ^ 2 < r * 4 ^ n := low.lt_of_ne (mt whole.mpr other)
    have middle : sqrtRat r * 2 ^ n = f + 1 / 2 := by
      rw [value, Rat.mkRat_eq_div]
      push_cast
      rw [pow_succ]
      field_simp
    rw [middle]
    rcases Nat.lt_or_ge f j with above | below
    · have : (f : Rat) + 1 ≤ j := by exact_mod_cast above
      have : ((f : Rat) + 1) ^ 2 ≤ (j : Rat) ^ 2 := by gcongr
      exact ⟨iff_of_false (by linarith) (by linarith), iff_of_true (by linarith) (by linarith)⟩
    · have : (j : Rat) ≤ f := by exact_mod_cast below
      have : (j : Rat) ^ 2 ≤ (f : Rat) ^ 2 := by gcongr
      exact ⟨iff_of_true (by linarith) (by linarith), iff_of_false (by linarith) (by linarith)⟩

/-! ### The points at which a format decides -/

/-- The middle of two neighbours, and the neighbours, in halves of a unit. -/
theorem Fmt.magOf_halves (f : Fmt) (b : Nat) :
    f.magOf b = (2 * f.sig b : Nat) * (2 : Rat) ^ (f.unitExp b - 1) ∧ f.magOf (b + 1) = (2 * f.sig b + 2 : Nat) * (2 : Rat) ^ (f.unitExp b - 1) ∧
      (f.magOf b + f.magOf (b + 1)) / 2 = (2 * f.sig b + 1 : Nat) * (2 : Rat) ^ (f.unitExp b - 1) := by
  rw [magOf_succ, magOf_eq, zpow_sub_one₀ two_ne_zero]
  push_cast
  exact ⟨by ring, by ring, by ring⟩

/-- A root has bits enough for the neighbours that it lies between. -/
theorem rootBits_fine {f : Fmt} (hm : f.mbits ≤ 52) {b : Nat} {r : Rat} (hr : 0 < r) (hi : r < f.magOf (b + 1) ^ 2) :
    -(rootBits r : Int) ≤ f.unitExp b - 1 := by
  have top : f.magOf (b + 1) ≤ 2 ^ (f.mbits + 1 + f.unitExp b : Int) := by
    rw [Fmt.magOf_succ, zpow_add₀ two_ne_zero]
    gcongr
    exact_mod_cast f.sig_lt b
  have : (2 : Rat) ^ ilog2 r < 2 ^ (2 * (f.mbits + 1 + f.unitExp b) : Int) := by
    calc (2 : Rat) ^ ilog2 r ≤ r := (ilog2_spec hr).1
      _ < f.magOf (b + 1) ^ 2 := hi
      _ ≤ ((2 : Rat) ^ (f.mbits + 1 + f.unitExp b : Int)) ^ 2 := by
        have := magOf_pos f (Nat.succ_pos b)
        gcongr
      _ = _ := by rw [← zpow_natCast, ← zpow_mul, mul_comm]; rfl
  have := (zpow_lt_zpow_iff_right₀ one_lt_two).mp this
  unfold rootBits
  omega

/-! ### Rounding a root -/

/-- A positive magnitude in the normal range, by the neighbours that it lies between. -/
theorem roundVal_normal {t : Ty} {b : Nat} {q : Rat} (m : Rounding) (flush : Bool) (normal : 2 ^ (fmtOf t).mbits ≤ b) (lo : (fmtOf t).magOf b ≤ q)
    (hi : q < (fmtOf t).magOf (b + 1)) :
    roundVal t m flush false false q = if (fmtOf t).maxBits < b + (fmtOf t).stepUp m false b q then overflowed (fmtOf t) m false false
      else (b + (fmtOf t).stepUp m false b q, flIf ((fmtOf t).magOf (b + (fmtOf t).stepUp m false b q) ≠ q) flNX) := by
  have least : (fmtOf t).minNormal ≤ q := by
    rw [Fmt.minNormal_eq]
    exact ((fmtOf t).magOf_strictMono.monotone normal).trans lo
  have pos : 0 < q := lt_of_lt_of_le (by rw [Fmt.minNormal_eq]; exact magOf_pos _ (by positivity)) least
  rw [roundVal_of_pos pos, roundMag_of_not_tiny pos lo hi (Fmt.not_tiny_of_le least)]
  simp [Fmt.signBits]

/-- Where a mode takes the upper neighbour of a positive magnitude: by how it stands to their middle. -/
theorem takesUpper_middle (m : Rounding) (odd : Bool) {lo hi q : Rat} :
    takesUpper m false odd lo hi q =
      match m with
      | .rz | .rdn => false
      | .rup => true
      | .rna => decide ((lo + hi) / 2 < q) || decide ((lo + hi) / 2 = q)
      | .rne => decide ((lo + hi) / 2 < q) || (decide ((lo + hi) / 2 = q) && odd) := by
  have lt : lo + hi < 2 * q ↔ (lo + hi) / 2 < q := (div_lt_iff₀' two_pos).symm
  have eq : lo + hi = 2 * q ↔ (lo + hi) / 2 = q := (div_eq_iff two_ne_zero).trans (by rw [mul_comm]) |>.symm
  cases m <;> simp [takesUpper, le_iff_lt_or_eq, lt, eq]

section
variable {f : Fmt} {b n : Nat} {v r : Rat} (h : ComparesAsRoot n v r) (fine : -(n : Int) ≤ f.unitExp b - 1)
include h fine

/-- How a stand-in for a root compares to two neighbours and to their middle. -/
theorem ComparesAsRoot.points :
    ((f.magOf b < v ↔ f.magOf b ^ 2 < r) ∧ (f.magOf b = v ↔ f.magOf b ^ 2 = r)) ∧
      ((v < f.magOf (b + 1) ↔ r < f.magOf (b + 1) ^ 2) ∧ (f.magOf (b + 1) = v ↔ f.magOf (b + 1) ^ 2 = r)) ∧
      (((f.magOf b + f.magOf (b + 1)) / 2 < v ↔ ((f.magOf b + f.magOf (b + 1)) / 2) ^ 2 < r) ∧
        ((f.magOf b + f.magOf (b + 1)) / 2 = v ↔ ((f.magOf b + f.magOf (b + 1)) / 2) ^ 2 = r)) := by
  obtain ⟨low, high, middle⟩ := f.magOf_halves b
  rw [middle, low, high]
  exact ⟨⟨(h _ _ fine).1, h.eq_iff _ fine⟩, ⟨(h _ _ fine).2, h.eq_iff _ fine⟩, (h _ _ fine).1, h.eq_iff _ fine⟩

end

section
variable {t : Ty} (m : Rounding) (flush : Bool) {r : Rat} (hr : (fmtOf t).minNormal ^ 2 ≤ r)
include hr

theorem radicand_pos : 0 < r := by
  refine lt_of_lt_of_le ?_ hr
  rw [Fmt.minNormal_eq]
  have := magOf_pos (fmtOf t) (show 0 < 2 ^ (fmtOf t).mbits by positivity)
  positivity

/-- The neighbours that a root lies between are normal. -/
theorem normal_of_root_lt {b : Nat} (hi : r < (fmtOf t).magOf (b + 1) ^ 2) : 2 ^ (fmtOf t).mbits ≤ b := by
  have less := lt_of_pow_lt_pow_left₀ 2 (magOf_pos _ (Nat.succ_pos b)).le (hr.trans_lt hi)
  rw [Fmt.minNormal_eq, (fmtOf t).magOf_strictMono.lt_iff_lt] at less
  omega

/-- The stand-in for a rational root rounds as the root does. -/
theorem roundVal_sqrtRat {p : Rat} (hp : 0 < p) (square : p * p = r) :
    roundVal t m flush false false (sqrtRat r) = roundVal t m flush false false p := by
  obtain ⟨b, lo, hi⟩ := (fmtOf t).exists_bracket hp.le
  have above : r < (fmtOf t).magOf (b + 1) ^ 2 := by
    rw [← square, ← pow_two]
    gcongr
  have normal := normal_of_root_lt hr above
  have fine := rootBits_fine (mbits_le t) (radicand_pos hr) above
  obtain ⟨⟨l, l'⟩, ⟨u, u'⟩, c, c'⟩ := (sqrtRat_compares (radicand_pos hr)).points fine
  have self := comparesAsRoot_self (rootBits r) hp
  rw [square] at self
  obtain ⟨⟨pl, pl'⟩, ⟨pu, pu'⟩, pc, pc'⟩ := self.points fine
  rw [← pl] at l
  rw [← pl'] at l'
  rw [← pu] at u
  rw [← pu'] at u'
  rw [← pc] at c
  rw [← pc'] at c'
  have lo' : (fmtOf t).magOf b ≤ sqrtRat r := by rwa [le_iff_lt_or_eq, l, l', ← le_iff_lt_or_eq]
  have step : (fmtOf t).stepUp m false b (sqrtRat r) = (fmtOf t).stepUp m false b p := by
    simp only [Fmt.stepUp, takesUpper_middle, c, c', ne_eq, eq_comm (b := (fmtOf t).magOf b), l']
  have inexact : ((fmtOf t).magOf (b + (fmtOf t).stepUp m false b p) ≠ sqrtRat r) ↔ ((fmtOf t).magOf (b + (fmtOf t).stepUp m false b p) ≠ p) := by
    rcases Nat.le_one_iff_eq_zero_or_eq_one.mp ((fmtOf t).stepUp_le m false b p) with zero | one
    · rw [zero, Nat.add_zero, ne_eq, l']
    · rw [one, ne_eq, u']
  rw [roundVal_normal m flush normal lo' (u.mpr hi), roundVal_normal m flush normal lo hi, step]
  simp only [inexact]

/-- The stand-in for an irrational root is delivered as the neighbour that the mode takes, inexact. -/
theorem roundVal_sqrtRat_between (irrational : ∀ p : Rat, p * p ≠ r) {b : Nat} (lt : b < (fmtOf t).maxBits)
    (lo : (fmtOf t).magOf b * (fmtOf t).magOf b < r) (hi : r < (fmtOf t).magOf (b + 1) * (fmtOf t).magOf (b + 1)) :
    (let mid := (fmtOf t).magOf b + (fmtOf t).magOf (b + 1)
     roundVal t m flush false false (sqrtRat r) =
      ((if (match m with | .rz | .rdn => false | .rup => true | .rne | .rna => decide (mid * mid < 4 * r)) = true then b + 1 else b), flNX)) := by
  intro mid
  rw [← pow_two] at lo hi
  have normal := normal_of_root_lt hr hi
  obtain ⟨⟨l, l'⟩, ⟨u, u'⟩, c, c'⟩ := (sqrtRat_compares (radicand_pos hr)).points (rootBits_fine (mbits_le t) (radicand_pos hr) hi)
  have low := l.mpr lo
  have high := u.mpr hi
  have off : ¬mid / 2 = sqrtRat r := fun same => irrational (mid / 2) (by rw [← pow_two]; exact c'.mp same)
  have middle : mid / 2 < sqrtRat r ↔ mid * mid < 4 * r := by
    rw [c, div_pow, div_lt_iff₀ (by norm_num), pow_two, mul_comm r]
    norm_num [mid]
  have step := (fmtOf t).add_stepUp m false low
  have fits : ¬(fmtOf t).maxBits < b + (fmtOf t).stepUp m false b (sqrtRat r) := by
    have := (fmtOf t).stepUp_le m false b (sqrtRat r)
    omega
  have inexact : (fmtOf t).magOf (b + (fmtOf t).stepUp m false b (sqrtRat r)) ≠ sqrtRat r := by
    rw [step]
    split
    · exact high.ne'
    · exact low.ne
  rw [roundVal_normal m flush normal low.le high, if_neg fits, flIf, decide_eq_true inexact, if_pos rfl, step, takesUpper_middle]
  change (if _ = true then b + 1 else b, flNX) = _
  cases m <;> simp [mid, off, middle]

end

end Sys2Proof.Machine
end

section
/-!
What the special functions deliver: special inputs, reciprocals and roots, and the exact cases of `fexp2` and `flog2` (R145, R146).
-/
set_option Elab.async false
namespace Sys2Proof.Machine
open Sys2Proof

/-! ### By the kind of operand -/

/-- What a special function gives at an infinity (R146). -/
def sfuInf (t : Ty) (neg : Bool) : Sfu → Flagged Nat
  | .rcp => ((fmtOf t).signBits neg, 0)
  | .rsq => if neg then ((fmtOf t).qnan, flIV) else (0, 0)
  | .sqrt | .elem .log2 => if neg then ((fmtOf t).qnan, flIV) else ((fmtOf t).infBits false, 0)
  | .elem .exp2 => if neg then (0, 0) else ((fmtOf t).infBits false, 0)
  | .elem .sin | .elem .cos => ((fmtOf t).qnan, flIV)

/-- What a special function gives at a zero (R146). -/
def sfuZero (t : Ty) (neg : Bool) : Sfu → Flagged Nat
  | .rcp | .rsq => ((fmtOf t).infBits neg, flDZ)
  | .sqrt | .elem .sin => ((fmtOf t).signBits neg, 0)
  | .elem .exp2 | .elem .cos => ((fmtOf t).bias * 2 ^ (fmtOf t).mbits, 0)
  | .elem .log2 => ((fmtOf t).infBits true, flDZ)

section
variable {t : Ty}

theorem sfu_inf {k : FCtl} {na : Bool} {a : Nat} {s : Bool} (hx : operand k t na a = .inf s) (g : Sfu) (m : Rounding) :
    fpSfu g k m t na a = sfuInf t s g := by
  simp only [fpSfu, (readOperand_eq ..).1, (readOperand_eq _ _ false _).2, hx, sigFlag_eq_zero (isNan_of_eq_inf hx), orFlags_zero]
  cases g with
  | elem g => cases g <;> rfl
  | _ => rfl

theorem sfu_num {k : FCtl} {na : Bool} {a : Nat} {s : Bool} {q : Rat} (hx : operand k t na a = .num s q) (hq : q ≠ 0) (g : Sfu) (m : Rounding) :
    fpSfu g k m t na a = sfuNum g k t m s q a [.num s q] := by
  simp only [fpSfu, (readOperand_eq ..).1, (readOperand_eq _ _ false _).2, hx, sigFlag_eq_zero (isNan_of_eq_num hx), orFlags_zero, hq, if_false]

theorem log2_power {k : FCtl} {na : Bool} {a : Nat} {i : Int} (hx : operand k t na a = .num false (2 ^ i)) (m : Rounding) :
    fpSfu (.elem .log2) k m t na a = roundVal t .rne (k.flushes t) false (i < 0) |(i : Rat)| := by
  have exponent : ilog2 ((2 : Rat) ^ i) = i := ilog2_eq_of_bounds le_rfl (zpow_lt_zpow_right₀ one_lt_two (lt_add_one i))
  rw [sfu_num hx (by positivity)]
  simp only [sfuNum, Bool.false_eq_true, if_false, exponent, pow2_eq_zpow, if_true, Int.cast_neg, abs_eq_ite, Int.cast_lt_zero]

end

/-! ### Numbers at the ends of a format's range -/

theorem bias_le (t : Ty) : (fmtOf t).bias ≤ 1023 := by cases t <;> decide

/-- Less than half of the smallest number rounds to zero. -/
theorem roundVal_below_edge (t : Ty) (flush : Bool) {p : Rat} (pos : 0 < p) (half : p < (fmtOf t).edge) :
    roundVal t .rne flush false false p = (0, flUF ||| flNX) := by
  have next : (fmtOf t).magOf (0 + 1) = 2 * (fmtOf t).edge := by
    rw [Fmt.magOf_succ_eq_add, Fmt.magOf_zero, zero_add, Fmt.unit_of_subnormal (by positivity)]
  have wide : 2 * (fmtOf t).edge ≤ (fmtOf t).minNormal := by
    rw [Fmt.minNormal_eq, ← next]
    exact (fmtOf t).magOf_strictMono.monotone Nat.one_le_two_pow
  have tiny : (fmtOf t).Tiny .rne false p := ⟨by linarith, .inl (by linarith)⟩
  have stays : (fmtOf t).stepUp .rne false 0 p = 0 := by
    refine if_neg fun ⟨_, up⟩ => ?_
    rw [takesUpper_middle, next, Fmt.magOf_zero, zero_add, mul_div_cancel_left₀ _ two_ne_zero] at up
    simp [half.not_gt, half.ne'] at up
  rw [roundVal_of_pos pos, roundMag_of_tiny (b := 0) pos (by rw [Fmt.magOf_zero]; exact pos.le) (by rw [next]; linarith) tiny, stays]
  cases flush <;> simp [Fmt.signBits, flIf, pos.ne]

theorem roundVal_small (t : Ty) (flush : Bool) : roundVal t .rne flush false false (2 ^ (-5000 : Int)) = (0, flUF ||| flNX) := by
  have small := bias_le t
  have narrow := mbits_le t
  refine roundVal_below_edge t flush (by positivity) ?_
  rw [Fmt.edge_eq]
  exact zpow_lt_zpow_right₀ one_lt_two (by omega)

section
variable {t : Ty} (ht : Arith t)
include ht

theorem Arith.maxBits_eq : (fmtOf t).maxBits + 1 = (fmtOf t).emax * 2 ^ (fmtOf t).mbits := by
  obtain ⟨-, top⟩ := Fmt.two_pow_signPos (Fmt.proper_fmtOf t)
  have : 0 < 2 ^ (fmtOf t).mbits := by positivity
  rw [Fmt.maxBits, if_pos ht.inf]
  omega

/-- The value that would come after the largest finite one. -/
theorem Arith.magOf_overflow : (fmtOf t).magOf ((fmtOf t).maxBits + 1) = 2 ^ ((fmtOf t).bias + 1 : Int) := by
  have centred := ht.centred
  rw [ht.maxBits_eq, Fmt.magOf_power _ (by omega), centred]
  congr 1
  push_cast
  ring

theorem Arith.roundVal_one : roundVal t .rne false false false 1 = ((fmtOf t).bias * 2 ^ (fmtOf t).mbits, 0) := by
  have wide := ht.wide
  have centred := ht.centred
  have one : (fmtOf t).magOf ((fmtOf t).bias * 2 ^ (fmtOf t).mbits) = 1 := by
    rw [Fmt.magOf_power _ (by omega), sub_self, zpow_zero]
  have most := ht.maxBits_eq
  have room := Nat.mul_le_mul_right (2 ^ (fmtOf t).mbits) (show (fmtOf t).bias + 1 ≤ (fmtOf t).emax by omega)
  have : 0 < 2 ^ (fmtOf t).mbits := by positivity
  rw [Nat.succ_mul] at room
  have exact_ := roundVal_magOf t .rne false (Nat.mul_pos (show 0 < (fmtOf t).bias by omega) this) (by omega)
  rw [one] at exact_
  rw [exact_]
  simp [Fmt.signBits]

theorem Arith.sfu_nan (g : Sfu) (k : FCtl) (m : Rounding) (na : Bool) (a : Nat) (nan : (operand k t na a).isNan = true) :
    NanOf k t [operand k t na a] (fpSfu g k m t na a).1 ∧ (fpSfu g k m t na a).2 = sigFlag t a := by
  have run : fpSfu g k m t na a = (nanResult t k.nanq [operand k t na a], sigFlag t a) := by
    simp only [fpSfu, (readOperand_eq ..).1, (readOperand_eq _ _ false _).2]
    cases hx : operand k t na a with
    | nan s quiet frac => exact Prod.ext rfl BitVec.zero_or
    | inf s => simp [hx, FpVal.isNan] at nan
    | num s q => simp [hx, FpVal.isNan] at nan
  rw [run]
  exact ⟨ht.nanOf k (by simp [operand_aligned]), rfl⟩

theorem Arith.sfu_zero {k : FCtl} {na : Bool} {a : Nat} {s : Bool} (hx : operand k t na a = .num s 0) (g : Sfu) (m : Rounding) :
    fpSfu g k m t na a = sfuZero t s g := by
  simp only [fpSfu, (readOperand_eq ..).1, (readOperand_eq _ _ false _).2, hx, sigFlag_eq_zero (isNan_of_eq_num hx), orFlags_zero, if_true,
    ht.roundVal_one]
  cases g with
  | elem g => cases g <;> rfl
  | _ => rfl

/-! ### The range of operands -/

theorem Arith.operand_range {k : FCtl} {na : Bool} {a : Nat} {s : Bool} {q : Rat} (hx : operand k t na a = .num s q) (hq : q ≠ 0) :
    0 < q ∧ (fmtOf t).minNormal ^ 2 ≤ q ∧ (fmtOf t).minNormal ^ 2 ≤ 1 / q := by
  have wide := ht.wide
  obtain ⟨c, le, rfl⟩ := operand_num hx
  have c0 : 0 < c := Nat.pos_of_ne_zero fun zero => hq (zero ▸ Fmt.magOf_zero _)
  have pos := magOf_pos (fmtOf t) c0
  have square : (fmtOf t).minNormal ^ 2 = (2 : Rat) ^ (2 * (1 - (fmtOf t).bias) : Int) := by
    rw [Fmt.minNormal, pow2_eq_zpow, ← zpow_natCast, ← zpow_mul, mul_comm]
    rfl
  have least : (2 : Rat) ^ (1 - (fmtOf t).bias - (fmtOf t).mbits : Int) ≤ (fmtOf t).magOf c := by
    refine le_trans ?_ ((fmtOf t).magOf_strictMono.monotone c0)
    simpa using (fmtOf t).mul_unit_le_magOf 1
  have most : (fmtOf t).magOf c ≤ 2 ^ ((fmtOf t).bias + 1 : Int) := by
    rw [← ht.magOf_overflow]
    exact (fmtOf t).magOf_strictMono.monotone (by omega)
  refine ⟨pos, ?_, ?_⟩
  · rw [square]
    exact (zpow_le_zpow_right₀ one_le_two (by omega)).trans least
  · rw [square, le_div_iff₀ pos]
    calc (2 : Rat) ^ (2 * (1 - (fmtOf t).bias) : Int) * (fmtOf t).magOf c
        ≤ 2 ^ (2 * (1 - (fmtOf t).bias) : Int) * 2 ^ ((fmtOf t).bias + 1 : Int) := by gcongr
      _ = 2 ^ (2 * (1 - (fmtOf t).bias) + ((fmtOf t).bias + 1) : Int) := (zpow_add₀ two_ne_zero _ _).symm
      _ ≤ 2 ^ (0 : Int) := zpow_le_zpow_right₀ one_le_two (by omega)
      _ = 1 := zpow_zero _

/-! ### Roots of positive numbers -/

theorem Arith.sqrt_values {k : FCtl} {na : Bool} {a : Nat} {q : Rat} (hx : operand k t na a = .num false q) (hq : q ≠ 0) (m : Rounding) :
    let f := fmtOf t
    (∀ p : Rat, 0 < p → p * p = q → fpSfu .sqrt k m t na a = roundVal t m (k.flushes t) false false p) ∧
      ((∀ p : Rat, p * p ≠ q) → ∀ b < f.maxBits, f.magOf b * f.magOf b < q → q < f.magOf (b + 1) * f.magOf (b + 1) →
        (let mid := f.magOf b + f.magOf (b + 1)
         fpSfu .sqrt k m t na a =
          ((if (match m with | .rz | .rdn => false | .rup => true | .rne | .rna => decide (mid * mid < 4 * q)) = true then b + 1 else b), flNX))) := by
  intro f
  have run : fpSfu .sqrt k m t na a = roundVal t m (k.flushes t) false false (sqrtRat q) := sfu_num hx hq .sqrt m
  obtain ⟨pos, low, -⟩ := ht.operand_range hx hq
  rw [run]
  exact ⟨fun p hp square => roundVal_sqrtRat m _ low hp square,
    fun irrational b lt lo hi => roundVal_sqrtRat_between m _ low irrational lt lo hi⟩

theorem Arith.rsq_values {k : FCtl} {na : Bool} {a : Nat} {q : Rat} (hx : operand k t na a = .num false q) (hq : q ≠ 0) (m : Rounding) :
    let f := fmtOf t
    (∀ p : Rat, 0 < p → p * p * q = 1 → fpSfu .rsq k m t na a = roundVal t .rne (k.flushes t) false false p) ∧
      ((∀ p : Rat, p * p * q ≠ 1) → ∀ b < f.maxBits, f.magOf b * f.magOf b * q < 1 → 1 < f.magOf (b + 1) * f.magOf (b + 1) * q →
        (let mid := f.magOf b + f.magOf (b + 1)
         fpSfu .rsq k m t na a = ((if mid * mid * q < 4 then b + 1 else b), flNX))) := by
  intro f
  have run : fpSfu .rsq k m t na a = roundVal t .rne (k.flushes t) false false (sqrtRat (1 / q)) := sfu_num hx hq .rsq m
  obtain ⟨pos, -, low⟩ := ht.operand_range hx hq
  rw [run]
  refine ⟨fun p hp square => roundVal_sqrtRat .rne _ low hp (eq_one_div_of_mul_eq_one_left square), fun irrational b lt lo hi => ?_⟩
  have between := roundVal_sqrtRat_between .rne (k.flushes t) low (fun p square => irrational p (by rw [square, one_div_mul_cancel hq])) lt
    ((lt_div_iff₀ pos).mpr lo) ((div_lt_iff₀ pos).mpr hi)
  refine between.trans ?_
  simp only [decide_eq_true_eq, mul_one_div, lt_div_iff₀ pos]
  rfl

/-! ### Powers and logarithms of two -/

theorem Arith.roundVal_large (flush : Bool) : roundVal t .rne flush false false (2 ^ (5000 : Int)) = ((fmtOf t).infBits false, flOF ||| flNX) := by
  have small := bias_le t
  have beyond : (fmtOf t).magOf ((fmtOf t).maxBits + 1) ≤ 2 ^ (5000 : Int) := by
    rw [ht.magOf_overflow]
    exact zpow_le_zpow_right₀ one_le_two (by omega)
  rw [roundVal_overflow t .rne flush false false (((fmtOf t).magOf_lt_succ _).trans_le beyond) (.inl beyond)]
  simp [overflowed, ht.inf]

/-- `fexp2` of an integer. -/
theorem Arith.exp2_values {k : FCtl} {na : Bool} {a : Nat} {u : Bool} {q : Rat} {i : Int} (hx : operand k t na a = .num u q) (hq : q ≠ 0)
    (whole : signed u q = i) (m : Rounding) :
    (i.natAbs < 5000 → fpSfu (.elem .exp2) k m t na a = roundVal t .rne (k.flushes t) false false (2 ^ i)) ∧
      (5000 ≤ i → fpSfu (.elem .exp2) k m t na a = ((fmtOf t).infBits false, flOF ||| flNX)) ∧
      (i ≤ -5000 → fpSfu (.elem .exp2) k m t na a = (0, flUF ||| flNX)) := by
  have value : (if u then -q else q) = (i : Rat) := whole
  have run : fpSfu (.elem .exp2) k m t na a =
      if i < 5000 ∧ -5000 < i then roundVal t .rne (k.flushes t) false false (2 ^ i)
      else if 5000 ≤ i then roundVal t .rne (k.flushes t) false false (2 ^ (5000 : Int))
      else if i ≤ -5000 then roundVal t .rne (k.flushes t) false false (2 ^ (-5000 : Int))
      else elemRound .exp2 t (k.flushes t) i a 6 96 := by
    rw [sfu_num hx hq]
    simp only [sfuNum, value, Rat.den_intCast, Rat.num_intCast, pow2_eq_zpow, decide_true, Bool.true_and, Bool.and_eq_true, decide_eq_true_eq]
    norm_cast
  rw [run]
  refine ⟨fun near => if_pos (by omega), fun far => ?_, fun far => ?_⟩
  · rw [if_neg (by omega), if_pos far, ht.roundVal_large]
  · rw [if_neg (by omega), if_neg (by omega), if_pos far, roundVal_small]

end

end Sys2Proof.Machine
end

section
/-!
Conversions and special functions together (R144 to R150).
-/
set_option Elab.async false
namespace Sys2Proof.Machine
open Sys2Proof

theorem sfu_completes {i : Instr} {c : Ctl} {o : F1} {f : Sfu} {s s1 : State} (h : SfuResult i c o f) (hr : Ready i c s s1) :
    ∃ v : Lanes Word64,
      (let r (l k : Nat) := fpSfu f s1.cur.fctl (s1.cur.rmode c) o.ty o.na (bitsAt o.ty (s1.cur.srcA c o.a l) k)
       Completes i c s s1 (s1.setCur (s1.cur.addPend .v (s1.cur.rD c o.d) (s1.cur.written c) v true (raised s1.cur c (64 / o.ty.width) fun l k => (r l k).2)))
         noDest ∧
       ∀ l < 32, (takes s1.cur c l → ∀ k < 64 / o.ty.width, bitsAt o.ty (v.get l 0) k = (r l k).1 % 2 ^ o.ty.width) ∧
         (lane (s1.cur.zeroLanes c) l = true → v.get l 0 = 0)) := by
  obtain ⟨u, goes, v, after, seen⟩ := laneLong_subs
    (f := fun g l k => fpSfu f g.fctl (g.rmode c) o.ty o.na (bitsAt o.ty (g.srcA c o.a l) k)) hr
  exact ⟨v, ⟨u, (congrFun h.lanes s).trans goes, after⟩, seen⟩

/-- Roots and logarithms of what is negative are invalid (R146). -/
theorem sfu_negative {k : FCtl} {t : Ty} {na : Bool} {a : Nat} (h : operand k t na a = .inf true ∨ ∃ q, q ≠ 0 ∧ operand k t na a = .num true q)
    {g : Sfu} (hg : g ∈ [Sfu.rsq, .sqrt, .elem .log2]) (m : Rounding) : fpSfu g k m t na a = ((fmtOf t).qnan, flIV) := by
  simp only [List.mem_cons, List.not_mem_nil, or_false] at hg
  obtain hx | ⟨q, hq, hx⟩ := h
  · rw [sfu_inf hx]
    obtain rfl | rfl | rfl := hg <;> rfl
  · rw [sfu_num hx hq]
    obtain rfl | rfl | rfl := hg <;> rfl

/-- Settles O6: the elements of `cvt`, the lanes of special functions, and the values of either, by the kind of operand. -/
theorem conversionsAndFunctions : Obligations.ConversionsAndFunctions := by
  unfold Obligations.ConversionsAndFunctions
  refine ⟨fun c o s s1 hr => cvt_converts hr, fun i c o f s s1 h hr => sfu_completes h hr, fun k m sat s d a => ?_, fun k m t na a ht => ?_⟩
  · intro f x n r
    refine ⟨fun hs hd => ?_, fun hs hd => (convert_int hs k m sat a).2 hd, fun hs hd => ?_, fun hs hd => ?_, fun hs hd ha => ?_, fun hs hd => ?_⟩
    · exact ((convert_int hs k m sat a).1 hd).trans (fitInt_eq (width_pos_of_int hd) sat n)
    · have run : r = fpToInt k m s d a := convert_to_int hs hd k m sat a
      rw [run]
      exact fpToInt_values hd k m s a
    · have run : r = fpToFp k m sat s d a := convert_formats hs hd k m sat a
      rw [run]
      exact fpToFp_values hd k m sat s a
    · subst hd
      exact convert_scale hs k m sat ha
    · subst hs hd
      exact fpToE8m0_values k m a
  · have ht := arith_of_mem ht
    intro f x one r e
    refine ⟨fun nan g => ht.sfu_nan g k m na a nan, fun u hx => ?zero, fun hx => ?inf, fun hx => ⟨sfu_inf hx .rcp m, sfu_inf hx (.elem .exp2) m⟩,
      fun u hx => ⟨sfu_inf hx (.elem .sin) m, sfu_inf hx (.elem .cos) m⟩,
      fun h => ⟨sfu_negative h (by simp) m, sfu_negative h (by simp) m, sfu_negative h (by simp) m⟩,
      fun u q hx hq => sfu_num hx hq .rcp m, fun q hx hq => ?roots, fun u q i hx hq whole => ?powers⟩
    case zero =>
      simp only [r, e, ht.sfu_zero hx]
      exact ⟨rfl, rfl, rfl, rfl, rfl, rfl, rfl⟩
    case inf =>
      simp only [r, e, sfu_inf hx]
      exact ⟨by simp [sfuInf, Fmt.signBits], rfl, rfl, rfl, rfl⟩
    case roots =>
      obtain ⟨root, between⟩ := ht.sqrt_values hx hq m
      obtain ⟨inverse, betweenInverse⟩ := ht.rsq_values hx hq m
      refine ⟨root, inverse, between, betweenInverse, fun i power => ?_⟩
      subst power
      exact log2_power hx m
    case powers =>
      obtain ⟨near, large, small⟩ := ht.exp2_values hx hq whole m
      exact ⟨near, fun _ => large, fun _ => small⟩

end Sys2Proof.Machine
end

section
/-!
Ordering instructions (R171 to R174): fences, counter waits, prefetch and cache maintenance.
-/
set_option Elab.async false
namespace Sys2Proof.Machine
open Sys2Proof

namespace State

/-! ### What the L1, the L2 and beacon records take beside the issuing group -/

@[simp] theorem dropCoreL1_spine (s : State) (core vf : Nat) : (s.dropCoreL1 core vf).spine = s.spine := rfl

@[simp] theorem evict_spine (s : State) (home : Nat) : (s.evict home).spine = s.spine := by
  unfold evict
  dsimp only
  split <;> split
  · rfl
  · split <;> simp
  · exact writeback_spine ..
  · split <;> simp

@[simp] theorem fillMask_spine (s : State) (vf va loc : Nat) : (s.fillMask vf va loc).1.spine = s.spine := by
  unfold fillMask
  split
  · exact watchMask_spine ..
  · rfl

@[simp] theorem fillL2_spine (s : State) (vf line : Nat) (ev : Bool) : (s.fillL2 vf line ev).spine = s.spine := by
  have walked := walk_spine s vf (64 * line)
  unfold fillL2
  split
  · rfl
  · split <;> rename_i found <;> rw [found] at walked
    · split
      · exact walked
      · refine Eq.trans ?_ walked
        refine Eq.trans (b := ((State.bumpHot _ _).bumpHot _).spine) rfl ?_
        rw [bumpHot_spine, bumpHot_spine, flushLines_spine, fillMask_spine, evict_spine]
    · exact walked

@[simp] theorem prefetch_spine (s : State) (lvl2 : Bool) (va : Nat) : (s.prefetch lvl2 va).spine = s.spine := by
  have translated := translate_spine s s.cur.vf (64 * (va / 64)) (some s.cur.coreIx)
  unfold prefetch
  dsimp only
  split
  · rfl
  · split
    · rename_i found
      rw [found] at translated
      split
      · rfl
      · split
        · exact (fillL2_spine ..).trans translated
        · split
          · exact translated
          · exact (fillL1_spine ..).trans translated
    · rfl

@[simp] theorem beaconSince_spine (s : State) (g : Group) (pc : Word32) (k kind path lastId lpc : Nat) :
    (s.beaconSince g pc k kind path lastId lpc).spine = s.spine := by
  unfold beaconSince
  dsimp only
  split
  · exact record_spine ..
  · rfl

@[simp] theorem beaconOwn_spine (s : State) (kind : Nat) (paths : List Path) : (s.beaconOwn kind paths).spine = s.spine := by
  have end_ : ∀ path lastId lpc, (s.beacon kind path lastId lpc).spine = s.spine := fun path lastId lpc => by
    unfold beacon
    split
    · rfl
    · exact beaconSince_spine ..
  unfold beaconOwn
  split <;> exact end_ ..

/-- A state with the spine of another has its issuing group's stance. -/
theorem stance_of_spine {s t : State} (h : t.spine = s.spine) : t.cur.stance = s.cur.stance := Group.stance_of_frame (frame_of_spine h)

end State

/-! ### Instructions without a result -/

section
variable {i : Instr} {c : Ctl} {s s1 u : State} {body : State → M (State × Option RegWrite)}

/-- A step function that issues an instruction completes it with what its body leaves. -/
theorem completes_still (run : exec i s = runInstr i c body s) (hr : Ready i c s s1) (hb : body s1 = .ok (u, none)) (hu : u.cur.stance = s1.cur.stance) :
    Completes i c s s1 u noDest := by
  unfold Completes
  rw [run]
  exact runInstr_still hr hb hu

/-- A group-level instruction whose guard no lane passes does nothing (R58). -/
theorem completes_off (run : exec i s = runInstr i c (groupLevel c body) s) (hr : Ready i c s s1) (off : s1.cur.passes c = false) :
    Completes i c s s1 s1 noDest :=
  completes_still run hr (by simp [groupLevel, off]) rfl

/-- A group-level instruction whose guard some lane passes does what its body does (R58). -/
theorem completes_on (run : exec i s = runInstr i c (groupLevel c body) s) (hr : Ready i c s s1) (on : s1.cur.passes c = true) (hb : body s1 = .ok (u, none))
    (hu : u.cur.stance = s1.cur.stance) : Completes i c s s1 u noDest :=
  completes_still run hr ((groupLevel_passes on body).trans hb) hu

end

/-! ### Fences, waits, prefetch, ranges -/

/-- R172, R303: a fence that waits for nothing drops the lines of its core's L1 where it acquires beyond its workgroup. -/
theorem fence_completes {c : Ctl} {o : Fence} {s s1 : State} (hr : Ready (.fence c o) c s s1) (on : s1.cur.passes c = true)
    (allowed : o.scope ≠ .s ∨ (s1.vf s1.cur.vf).spol.getLsbD 2 = true) (loads : s1.cur.counter .load = 0) (stores : s1.cur.counter .store = 0)
    (acked : o.ord = .acq ∨ o.scope ≠ .s ∨ s1.acked s1.cur.id = true) :
    Completes (.fence c o) c s s1 (if o.ord = .rel ∨ o.scope = .g ∨ o.scope = .w then s1.beaconOwn 4 [.load, .store]
      else (s1.beaconOwn 4 [.load, .store]).dropCoreL1 s1.cur.coreIx s1.cur.vf) noDest := by
  have scope : s1.scopeOk o.scope 2 = .ok () := by
    unfold State.scopeOk trapIf
    rcases allowed with h | h <;> simp [h]
  have heard : ¬((o.ord ≠ .acq && decide (o.scope = .s) && !s1.acked s1.cur.id) = true) := by
    rcases acked with h | h | h <;> simp [h]
  have effect : (if o.ord = .rel then s1.beaconOwn 4 [.load, .store] else (s1.beaconOwn 4 [.load, .store]).acquireAt s1.cur (some o.scope)) =
      if o.ord = .rel ∨ o.scope = .g ∨ o.scope = .w then s1.beaconOwn 4 [.load, .store]
      else (s1.beaconOwn 4 [.load, .store]).dropCoreL1 s1.cur.coreIx s1.cur.vf := by
    by_cases rel : o.ord = .rel
    · simp [rel]
    · cases sc : o.scope <;> simp [rel, State.acquireAt]
  refine completes_on (by dsimp only [exec, execFence]) hr on ?_ (State.stance_of_spine ?_)
  · simp only [scope, loads, stores, bind, Except.bind, pure, Except.pure, effect, heard, ne_eq, not_true_eq_false, decide_false, Bool.or_self,
      Bool.false_eq_true, if_false]
  · split <;> simp

theorem waitc_completes {c : Ctl} {o : Waitc} {s s1 : State} (hr : Ready (.waitc c o) c s s1) (on : s1.cur.passes c = true)
    (low : s1.cur.counter o.path ≤ (match o.lim with | .reg r => (s1.cur.uniA c r).toNat | .imm n => n.toNat)) :
    Completes (.waitc c o) c s s1 (s1.beaconOwn 5 [o.path]) noDest := by
  refine completes_on (by dsimp only [exec, execWaitc]) hr on ?_ (State.stance_of_spine (by simp))
  exact if_neg (Nat.not_lt.2 low)

theorem pref_completes {c : Ctl} {o : Pref} {s s1 : State} (hr : Ready (.pref c o) c s s1) :
    Completes (.pref c o) c s s1 ((lanesOf (s1.cur.active c)).foldl (fun t l => t.prefetch o.l2 (s1.cur.globalVa c o.a o.b o.off l)) s1) noDest :=
  completes_still (by dsimp only [exec, execPref]) hr rfl
    (State.stance_of_spine (State.spine_foldl (fun t l => State.prefetch_spine t o.l2 (s1.cur.globalVa c o.a o.b o.off l)) _ _))

/-- `cinv` and `cwb` are one operation over a range of lines (R174). -/
theorem range_completes {i : Instr} {c : Ctl} {o : AB} {inval l1 : Bool} {s s1 : State} (run : exec i s = rangeOp i c o inval l1 s) (hr : Ready i c s s1)
    (path : s1.pathFree .store = .ok ()) :
    (s1.cur.passes c = true → (s1.cur.uniA c o.a).toNat % 64 = 0 → (s1.cur.uniB c o.b).toNat % 64 = 0 →
      Completes i c s s1 (s1.setCur (s1.cur.addOp s1.steps (some .store)
        (.range ((s1.cur.uniA c o.a).toNat / 64) ((s1.cur.uniB c o.b).toNat / 64) inval l1))) noDest) ∧
    (s1.cur.passes c = false → Completes i c s s1 (s1.setCur (s1.cur.addOp s1.steps (some .store) .null)) noDest) := by
  refine ⟨fun on aligned whole => completes_still run hr ?_ (Group.stance_addOp ..), fun off => completes_still run hr ?_ (Group.stance_addOp ..)⟩
  · simp [path, on, aligned, whole, trapIf, bind, Except.bind, pure, Except.pure]
  · simp [path, off, bind, Except.bind, pure, Except.pure]

/-- Settles O12: each instruction's body passes its checks and leaves the stance of its group. -/
theorem orderingInstructions : Obligations.OrderingInstructions := by
  unfold Obligations.OrderingInstructions
  refine ⟨fun c o s s1 hr => ⟨fence_completes hr, ?_⟩, fun c o s s1 hr => ⟨waitc_completes hr, ?_⟩, fun c o s s1 => pref_completes, ?_⟩
  · exact completes_off (by dsimp only [exec, execFence]) hr
  · exact completes_off (by dsimp only [exec, execWaitc]) hr
  · rintro i c a b inval l1 s s1 (⟨o, rfl, rfl, rfl, rfl, rfl⟩ | ⟨o, rfl, rfl, rfl, rfl, rfl⟩) hr path
    · exact range_completes (o := { a := o.a, b := o.b }) (by dsimp only [exec, execCinv]) hr path
    · exact range_completes (by dsimp only [exec, execCwb]) hr path

end Sys2Proof.Machine
end

section
/-!
Tile loads, tile stores, `append` and the instructions on tile handles (R156, R163, R175 to R178): their checks pass, and the operation is posted or the handle changes.
-/
set_option Elab.async false
namespace Sys2Proof.Machine
open Sys2Proof

/-! ### Tile loads and stores, `append` (R156, R163) -/

section
variable {c : Ctl} {s s1 : State} {wg : Nat} {t : Handle} {accs : List LaneAcc}

theorem ldt_completes {o : TileOp} (hr : Ready (.ldt c o) c s s1) (path : s1.pathFree .load = .ok ())
    (named : s1.laneTile c o.h o.peer .data = .ok (wg, t))
    (checked : tileAccs t (tyBytes o.ty * o.cnt.num) true (s1.cur.laneReqs c true fun l => s1.cur.tileOff c o.b o.off l) = .ok accs) :
    Completes (.ldt c o) c s s1 (s1.setCur
      ((s1.cur.addOp s1.steps (some .load) (.tload accs wg (s1.cur.rA c o.h) (tyBytes o.ty) o.cnt.num o.ty.isI)).awaiting .v (s1.cur.rD c o.d) o.cnt.num
        (s1.cur.written c))) noDest := by
  refine completes_still (by dsimp only [exec, execLdt]) hr ?_ (by simp)
  simp only [path, named, checked, bind, Except.bind]
  rfl

theorem stt_completes {o : TileOp} (hr : Ready (.stt c o) c s s1) (path : s1.pathFree .store = .ok ())
    (named : s1.laneTile c o.h o.peer .data = .ok (wg, t))
    (checked : tileAccs t (tyBytes o.ty * o.cnt.num) false (s1.cur.laneReqs c false fun l => s1.cur.tileOff c o.b o.off l) = .ok accs) :
    Completes (.stt c o) c s s1 (s1.setCur (s1.cur.addOp s1.steps (some .store)
      (.tstore accs wg (s1.cur.rA c o.h) (accs.map fun a => s1.cur.storeData c o.d o.ty o.cnt.num a.lane)))) noDest := by
  refine completes_still (by dsimp only [exec, execStt]) hr ?_ (by simp)
  simp only [path, named, checked, bind, Except.bind]
  rfl

/-- A check that active lanes alone make passes where no lane is active or its condition does not hold (R59). -/
theorem ifActive_pass {g : Group} {p : Prop} [Decidable p] {e : Stop} (h : g.active c = 0 ∨ ¬p) :
    ifActive g c (if p then .error e else .ok ()) = .ok () := by
  unfold ifActive
  split
  · rfl
  · next active => exact if_neg (h.resolve_left active)

theorem append_completes {o : Append} (hr : Ready (.append c o) c s s1) (path : s1.pathFree .load = .ok ())
    (named : s1.laneTile c o.h none .data = .ok (wg, t)) (clean : s1.cur.active c = 0 ∨ t.poisoned 0 8 = false) :
    Completes (.append c o) c s s1 (s1.setCur
      ((s1.cur.addOp s1.steps (some .load) (.append wg (s1.cur.rA c o.h) (tyBytes o.ty)
        (((List.range 32).filter (lane (s1.cur.active c))).map fun l => (l, s1.cur.readV (s1.cur.rB c o.b.reg) l)) (s1.cur.helpersFor c))).awaiting
        .v (s1.cur.rD c o.d) 1 (s1.cur.written c))) noDest := by
  refine completes_still (by dsimp only [exec, execAppend]) hr ?_ (by simp)
  have cursor : ifActive s1.cur c (if t.poisoned 0 8 = true then .error (.poison 0 0) else .ok ()) = .ok () :=
    ifActive_pass (clean.imp_right fun h => by simp [h])
  simp only [path, named, pure, Except.pure, cursor, bind, Except.bind]
  rfl

end

/-- Settles O11: the checks of each form pass, and its operation is posted. -/
theorem tileAccessesAreIssued : Obligations.TileAccessesAreIssued := by
  unfold Obligations.TileAccessesAreIssued
  exact ⟨fun c o s s1 wg t accs => ldt_completes, fun c o s s1 wg t accs => stt_completes, fun c o s s1 wg t => append_completes⟩

/-! ### Handles (R175, R177, R178) -/

section
variable {c : Ctl} {s s1 : State}

theorem talloc_completes {o : TAlloc} (hr : Ready (.talloc c o) c s s1) (on : s1.cur.passes c = true)
    (idle : (s1.handle s1.cur.wg (s1.cur.rD c o.h)).st = .free ∨ (s1.handle s1.cur.wg (s1.cur.rD c o.h)).st = .failed)
    (none_ : (s1.handle s1.cur.wg (s1.cur.rD c o.h)).prog = none) (shape : shapeOk o.kind (s1.cur.uniA c o.a) = true) :
    Completes (.talloc c o) c s s1 (s1.updHandle s1.cur.wg (s1.cur.rD c o.h) fun t =>
      { t with prog := some (o.clus, o.kind, (s1.cur.uniA c o.a).toNat % 2 ^ 16, (s1.cur.uniA c o.a).toNat / 2 ^ 16 % 2 ^ 16), progBy := s1.cur.id }) noDest := by
  refine completes_on (by dsimp only [exec, execTalloc]) hr on ?_ rfl
  rcases idle with idle | idle <;> simp [idle, none_, shape, trapIf, bind, Except.bind, pure, Except.pure, bitsOf]

theorem tfree_completes {h : BitVec 8} (hr : Ready (.tfree c h) c s s1) (on : s1.cur.passes c = true)
    (used : (s1.handle s1.cur.wg (s1.cur.rA c h)).st = .allocated ∨ (s1.handle s1.cur.wg (s1.cur.rA c h)).st = .failed)
    (none_ : (s1.handle s1.cur.wg (s1.cur.rA c h)).prog = none) :
    Completes (.tfree c h) c s s1
      ((s1.updHandle s1.cur.wg (s1.cur.rA c h) Handle.freed).wakeWaiters (fun b => b = .tile s1.cur.wg (s1.cur.rA c h)) 0xFFFF 0) noDest := by
  refine completes_on (by dsimp only [exec, execTfree]) hr on ?_ (State.stance_of_spine (State.wakeWaiters_spine ..))
  rcases used with used | used <;> simp [used, none_, trapIf, bind, Except.bind, pure, Except.pure]

/-- The summary of a handle, by its state (R178). -/
theorem Handle.summary_eq (t : Handle) : t.summary = BitVec.ofNat 64
    (match t.st with
     | .free => 0
     | .allocated => 2 ^ 35 + 2 ^ 33 * (match t.kind with | .data => 0 | .barrier => 1 | .ring => 2) + 2 ^ 32 * (if t.clus then 1 else 0) + 2 ^ 16 * t.rowb + t.rows
     | .failed => 2 ^ 36
     | .freeing => 2 ^ 36 + 2 ^ 35) := by
  unfold summary
  congr 1
  cases t.st
  case allocated => cases t.kind <;> cases t.clus <;> simp [HState.code, TKind.code, b2n] <;> omega
  all_goals simp [HState.code]

theorem tqry_completes {o : TQry} (hr : Ready (.tqry c o) c s s1) (on : s1.cur.passes c = true)
    (none_ : (s1.handle s1.cur.wg (s1.cur.rA c o.h)).prog = none) :
    Completes (.tqry c o) c s s1
      (s1.setCur (s1.cur.addPend .s (s1.cur.rD c o.d) allLanes (Lanes.const (s1.handle s1.cur.wg (s1.cur.rA c o.h)).summary) true)) noDest := by
  refine completes_on (by dsimp only [exec, execTqry]) hr on ?_ rfl
  simp [none_]

end

/-- Settles O14: each body passes its checks and changes the handle, or delivers its summary. -/
theorem tileHandleInstructions : Obligations.TileHandleInstructions := by
  unfold Obligations.TileHandleInstructions
  refine ⟨fun c o s s1 hr => ⟨talloc_completes hr, ?_⟩, fun c h s s1 hr => ⟨tfree_completes hr, ?_⟩, fun c o s s1 hr => ⟨fun on none_ => ?_, ?_⟩⟩
  · exact completes_off (by dsimp only [exec, execTalloc]) hr
  · exact completes_off (by dsimp only [exec, execTfree]) hr
  · exact (Handle.summary_eq _ ▸ tqry_completes hr on none_ : _)
  · exact completes_off (by dsimp only [exec, execTqry]) hr

end Sys2Proof.Machine
end

section
/-!
Atomics, polls of reply records and remote atomics are issued (R164 to R169).
-/
set_option Elab.async false
namespace Sys2Proof.Machine
open Sys2Proof

/-! ### What the writes and requests of a remote atomic leave of the issuing group -/

namespace State

@[simp] theorem sendAtomic_spine (s : State) (gid seq : Nat) (op : AtomOp) (ty : Ty) (a : AtomLane) : (s.sendAtomic gid seq op ty a).spine = s.spine := rfl

/-- Records and targets that are accepted together change memory, caches and walks alone (R162, R326). -/
theorem acceptPairs_spine {s t : State} {vf : Nat} {replies targets : List LaneReq} {both : List (LaneAcc × LaneAcc)}
    (h : s.acceptPairs vf replies targets = .ok (t, both)) : t.spine = s.spine := by
  unfold acceptPairs at h
  split at h
  · cases h
  · cases h
  · rename_i accepted
    cases h
    exact accept_spine accepted

end State

/-! ### Issue -/

section
variable {c : Ctl} {s s1 s2 : State} {accs : List LaneAcc}

/-- The body of `atom` and `apost`, whose accesses are accepted (R164, R166). -/
theorem issueAtomic_posts {path : Path} {a b : Src} {op : AtomOp} {ty : Ty} {sc : Scope} {ord : AtomOrd} {ret : Bool} {f : Group → Group}
    (allowed : scopeAllows s1 c sc 3) (free : s1.pathFree path = .ok ())
    (accepted : s1.accept s1.cur.vf .atomic (tyBytes ty) ret (s1.cur.laneReqs c false fun l => (s1.cur.srcA c a l).toNat) = .ok (s2, accs)) :
    issueAtomic c path a b op ty sc ord ret f s1 = .ok (s2.setCur (f (s1.cur.addOp s1.steps (some path)
      (.atomic (s1.cur.atomLanes c b op accs) op ty ret (if ord = .acq ∨ ord = .ar then some sc else none) (if ord = .rel ∨ ord = .ar then some sc else none)))),
      none) := by
  simp only [issueAtomic, allowed.check, free, accepted, bind, Except.bind, pure, Except.pure, State.accept_cur accepted, State.accept_steps accepted,
    Bool.or_eq_true, decide_eq_true_eq]

theorem atom_completes {o : Atom} (hr : Ready (.atom c o) c s s1) (allowed : scopeAllows s1 c o.scope 3) (free : s1.pathFree .load = .ok ())
    (accepted : s1.accept s1.cur.vf .atomic (tyBytes o.ty) true (s1.cur.laneReqs c false fun l => (s1.cur.srcA c o.a l).toNat) = .ok (s2, accs)) :
    Completes (.atom c o) c s s1 (s2.setCur ((s1.cur.addOp s1.steps (some .load) (.atomic (s1.cur.atomLanes c o.b o.op accs) o.op o.ty true
        (if o.ord = .acq ∨ o.ord = .ar then some o.scope else none) (if o.ord = .rel ∨ o.ord = .ar then some o.scope else none))).awaiting
      .v (s1.cur.rD c o.d) 1 (s1.cur.written c &&& ~~~(s1.cur.helpersFor c)))) noDest :=
  completes_still (by dsimp only [exec, execAtom]) hr (issueAtomic_posts allowed free accepted) (Group.stance_awaiting ..)

/-- An `apost` is no acquire. -/
theorem apost_order {c : Ctl} {o : APost} (wf : (Instr.apost c o).wf = true) : o.ord ≠ .acq ∧ o.ord ≠ .ar := by
  have types := wf_types wf (Option.some_ne_none c)
  simp only [Instr.typesOk, Bool.and_eq_true, Bool.or_eq_true, decide_eq_true_eq] at types
  obtain ⟨-, ord | ord⟩ := types <;> simp [ord]

theorem apost_completes {o : APost} (hr : Ready (.apost c o) c s s1) (allowed : scopeAllows s1 c o.scope 3) (free : s1.pathFree .store = .ok ())
    (accepted : s1.accept s1.cur.vf .atomic (tyBytes o.ty) false (s1.cur.laneReqs c false fun l => (s1.cur.srcA c o.a l).toNat) = .ok (s2, accs)) :
    Completes (.apost c o) c s s1 (s2.setCur (s1.cur.addOp s1.steps (some .store) (.atomic (s1.cur.atomLanes c o.b o.op accs) o.op o.ty false
        none (if o.ord = .rel then some o.scope else none)))) noDest := by
  refine completes_still (by dsimp only [exec, execApost]) hr ((issueAtomic_posts allowed free accepted).trans ?_) (Group.stance_addOp ..)
  obtain ⟨acq, ar⟩ := apost_order hr.1
  simp [acq, ar]

theorem rpoll_completes {o : UUn} (hr : Ready (.rpoll c o) c s s1) (free : s1.pathFree .load = .ok ())
    (aligned : s1.cur.active c = 0 ∨ (s1.cur.uniA c o.a).toNat % 16 = 0)
    (accepted : s1.accept s1.cur.vf .read 16 true (s1.cur.laneReqs c false fun l => ((s1.cur.uniA c o.a).toNat + 16 * l) % 2 ^ 64) = .ok (s2, accs)) :
    Completes (.rpoll c o) c s s1 (s2.setCur ((s1.cur.addOp s1.steps (some .load) (.rpoll (s1.cur.uniA c o.a) accs o.ty)).awaiting
      .v (s1.cur.rD c o.d) 1 (s1.cur.written c &&& ~~~(s1.cur.helpersFor c)))) noDest := by
  refine completes_still (by dsimp only [exec, execRpoll]) hr ?_ (by simp)
  have base : ifActive s1.cur c (trapIf (decide ((s1.cur.uniA c o.a).toNat % 16 ≠ 0)) .misalign (s1.cur.uniA c o.a).toNat) = .ok () :=
    ifActive_pass (aligned.imp_right fun h => by simp [h])
  simp only [free, base, accepted, bind, Except.bind, pure, Except.pure, State.accept_cur accepted, State.accept_steps accepted]
  rfl

/-- A check of requests passes where no request of an active lane fails it. -/
theorem firstReq_pass {rs : List LaneReq} {f : LaneReq → Option Stop} (h : ∀ r ∈ rs, r.helper = false → f r = none) : firstReq rs f = .ok () := by
  have none_ : (rs.filter fun r => !r.helper).findSome? f = none := List.findSome?_eq_none_iff.2 fun r hr => by
    obtain ⟨mem, own⟩ := List.mem_filter.1 hr
    exact h r mem (by simpa using own)
  unfold firstReq
  rw [none_]

theorem ratom_completes {o : RAtom} {both : List (LaneAcc × LaneAcc)} (hr : Ready (.ratom c o) c s s1) (allowed : scopeAllows s1 c .s 4)
    (free : s1.pathFree .rem = .ok ())
    (aligned : s1.cur.active c = 0 ∨ (s1.cur.readS (s1.cur.rD c o.d)).toNat % 16 = 0)
    (whole : ∀ r ∈ s1.cur.laneReqs c false fun l => (s1.cur.srcA c o.a l).toNat, r.va % tyBytes o.ty = 0)
    (accepted : s1.acceptPairs s1.cur.vf (s1.cur.laneReqs c false fun l => ((s1.cur.readS (s1.cur.rD c o.d)).toNat + 16 * l) % 2 ^ 64)
      (s1.cur.laneReqs c false fun l => (s1.cur.srcA c o.a l).toNat) = .ok (s2, both))
    (settled : s2.settled ((both.map fun p => (0, Loc.pa p.1.pa, 16)) ++
      ((both.filter fun p => isWindow (Loc.pa p.2.pa)).map fun p => (0, Loc.pa p.2.pa, tyBytes o.ty))) = .ok ()) (tags : s2.tagsLeft = true) :
    (let recs := both.map (·.1)
     let lanes := s1.cur.atomLanes c o.b o.op (both.map (·.2))
     let zeroed := recs.foldl (fun s r => (s.write s1.cur.vf r.va r.pa (List.replicate 16 0) s1.cur.writer).watch
       s1.cur.vf r.va r.pa 16 1 (s1.cur.agent s1.cur.me.pc)) s2
     let sent := lanes.foldl (fun s a => if isWindow (Loc.pa a.pa) = false ∨ (physRegion (Loc.pa a.pa) = .host ∧ hostAtomic o.op = false) then s
       else s.sendAtomic s1.cur.id s1.cur.seq o.op o.ty a) zeroed
     Completes (.ratom c o) c s s1 (sent.setCur (sent.cur.addOp sent.steps (some .rem) (.ratom lanes o.op o.ty recs))) noDest) := by
  intro recs lanes zeroed sent
  have base : ifActive s1.cur c (trapIf (decide ((s1.cur.readS (s1.cur.rD c o.d)).toNat % 16 ≠ 0)) .misalign (s1.cur.readS (s1.cur.rD c o.d)).toNat) = .ok () :=
    ifActive_pass (aligned.imp_right fun h => by simp [h])
  have targets : firstReq (s1.cur.laneReqs c false fun l => (s1.cur.srcA c o.a l).toNat)
      (fun r => if r.va % tyBytes o.ty ≠ 0 then some (.trap .misalign r.va) else none) = .ok () :=
    firstReq_pass fun r hr _ => by simp [whole r hr]
  have spine : sent.spine = s1.spine := by
    have zero : zeroed.spine = s2.spine := State.spine_foldl (fun t r => (State.watch_spine ..).trans (State.write_spine ..)) _ _
    refine (State.spine_foldl (fun t a => ?_) _ _).trans (zero.trans (State.acceptPairs_spine accepted))
    split
    · rfl
    · exact State.sendAtomic_spine ..
  refine completes_still (by dsimp only [exec, execRatom]) hr ?_ ((Group.stance_addOp ..).trans (State.stance_of_spine spine))
  simp only [allowed.check, free, base, targets, accepted, tags, bind, Except.bind, pure, Except.pure, List.map_map, List.filter_map, Function.comp_def] at settled ⊢
  simp only [settled, if_true, Bool.or_eq_true, Bool.and_eq_true, Bool.not_eq_true', decide_eq_true_eq]
  rfl

end

/-- Settles O13: each body passes its checks and posts its operation. -/
theorem atomicsAreIssued : Obligations.AtomicsAreIssued := by
  unfold Obligations.AtomicsAreIssued
  exact ⟨⟨fun c o s s1 s2 accs => atom_completes, fun c o s s1 s2 accs => apost_completes, fun c o s s1 s2 recs hr free aligned => rpoll_completes hr free aligned⟩,
    fun c o s s1 s2 both => ratom_completes⟩

end Sys2Proof.Machine
end

section
/-!
Moves between lanes: shuffles, quad swaps and matches (R152, R153, R157).
-/
set_option Elab.async false
namespace Sys2Proof.Machine
open Sys2Proof

/-- A long per-lane result that raises no flag: the lanes that take it hold its values, and those of the zero clause hold zero. -/
theorem laneLong_values {i : Instr} {c : Ctl} {s s1 : State} {d : BitVec 8} {v : Group → Nat → Word64}
    (run : exec i s = runInstr i c (laneLong c .v (fun g => g.rD c d) fun g l => (v g l, 0)) s) (hr : Ready i c s s1) :
    ∃ w : Lanes Word64, Completes i c s s1 (s1.setCur (s1.cur.addPend .v (s1.cur.rD c d) (s1.cur.written c) w true)) noDest ∧
      ∀ l < 32, (takes s1.cur c l → w.get l 0 = v s1.cur l) ∧ (lane (s1.cur.zeroLanes c) l = true → w.get l 0 = 0) := by
  obtain ⟨u, goes, after⟩ := longResult_after (f := fun g => g.laneResult c .v (g.rD c d) fun l => ((v g l, 0) : Flagged Word64)) hr
  have flags : (s1.cur.laneResult c .v (s1.cur.rD c d) fun l => ((v s1.cur l, 0) : Flagged Word64)).2 = 0 :=
    BitVec.eq_of_getLsbD_eq fun j _ => by rw [laneResult_flags]; simp
  rw [flags] at after
  refine ⟨_, ⟨u, run.trans goes, after⟩, fun l hl => ⟨fun ⟨on, nonzero⟩ => ?_, fun zero => ?_⟩⟩
  · have written : lane (s1.cur.written c) l = true := by rw [Group.written, lane_or, on, Bool.true_or]
    simp only [Group.laneResult, Group.laneWrite, Lanes.get_gen _ _ _ hl, nonzero, written, if_true, Bool.false_eq_true, if_false]
  · simp only [Group.laneResult, Group.laneWrite, Lanes.get_gen _ _ _ hl, zero, if_true]

/-! ### The lane that a shuffle takes from (R152) -/

/-- A register holds a power of two of sub-elements of a type that a shuffle takes. -/
theorem subs_two_pow {t : Ty} (h : t.isB = true) : ∃ p, 32 * (64 / t.width) = 2 ^ p := by
  cases t <;> simp [Ty.isB] at h
  · exact ⟨8, by decide⟩
  · exact ⟨7, by decide⟩
  · exact ⟨6, by decide⟩
  · exact ⟨5, by decide⟩

/-- A shuffle takes a sub-element of the group (R152). -/
theorem shflFrom_lt {m : ShflMode} {p i b : Nat} (hi : i < 2 ^ p) : shflFrom m (2 ^ p) i b < 2 ^ p := by
  have pos : 0 < 2 ^ p := Nat.two_pow_pos p
  cases m <;> simp only [shflFrom]
  case gat => exact Nat.mod_lt _ pos
  case fwd => split <;> assumption
  case back => split <;> omega
  case rot => exact Nat.mod_lt _ pos
  case flip => exact Nat.xor_lt_two_pow hi (Nat.mod_lt _ pos)

theorem shflIndex_eq (m : ShflMode) (n i b : Nat) : shflIndex m n i b = shflFrom m (32 * n) i b := by
  cases m <;> simp only [shflIndex, shflFrom]
  case fwd => by_cases h : i + b < 32 * n <;> simp [h]
  case back => by_cases h : b ≤ i <;> simp [h, Nat.not_lt.2, Nat.lt_of_not_le]
  case flip => rfl

/-- A sub-element of the lanes of a register, by its group index (R151). -/
theorem groupEl_lanesV (g : Group) (w n : Nat) {i : Nat} (hi : i / subCount w < 32) :
    groupEl w (g.lanesV n) i = subEl w (g.readV n (i / subCount w)) (i % subCount w) := by
  rw [groupEl, Group.lanesV, Lanes.get_gen _ _ _ hi]

/-! ### Bits of the lane values -/

theorem shfl_bits (m : ShflMode) {t : Ty} (ht : t.isB = true) (g : Group) (n : Nat) {l k j : Nat} (x : Nat) (hl : l < 32) (hk : k < 64 / t.width)
    (hj : j < t.width) :
    (groupEl t.width (g.lanesV n) (shflIndex m (subCount t.width) (subCount t.width * l + k) x)).testBit j =
      bitAt t (g.readV n (shflFrom m (32 * (64 / t.width)) (64 / t.width * l + k) x / (64 / t.width)))
        (shflFrom m (32 * (64 / t.width)) (64 / t.width * l + k) x % (64 / t.width)) j := by
  obtain ⟨p, size⟩ := subs_two_pow ht
  have pos : 0 < 64 / t.width := Nat.zero_lt_of_lt hk
  have inside : 64 / t.width * l + k < 2 ^ p := by
    rw [← size, Nat.mul_comm 32]
    calc 64 / t.width * l + k < 64 / t.width * (l + 1) := by rw [Nat.mul_succ]; omega
      _ ≤ 64 / t.width * 32 := Nat.mul_le_mul_left _ hl
  have from_ : shflFrom m (32 * subCount t.width) (subCount t.width * l + k) x < 32 * subCount t.width :=
    (congrArg (fun n => shflFrom m n (64 / t.width * l + k) x) size).trans_lt (shflFrom_lt inside) |>.trans_eq size.symm
  rw [shflIndex_eq, groupEl_lanesV _ _ _ ((Nat.div_lt_iff_lt_mul pos).2 from_)]
  exact testBit_subEl_of_lt _ _ hj

/-- The lanes that a `match` finds, as bits (R157). -/
theorem match_bits (f : Nat → Bool) {j : Nat} (hj : j < 64) : ((maskOf f).setWidth 64).getLsbD j = (decide (j < 32) && f j) := by
  rw [BitVec.getLsbD_setWidth, decide_eq_true hj, Bool.true_and]
  by_cases low : j < 32
  · exact (lane_maskOf _ j low).trans (by simp [low])
  · rw [BitVec.getLsbD_of_ge _ _ (Nat.not_lt.1 low), decide_eq_false low, Bool.false_and]

/-- The moves between lanes are long per-lane results whose bits come from the lanes that the rules name. -/
theorem MoveResult.bits {i : Instr} {c : Ctl} {d : BitVec 8} {t : Ty} {b : Group → Nat → Nat → Nat → Bool} (h : MoveResult i c d t b) (wf : i.wf = true) :
    ∃ v : Group → Nat → Word64, (∀ s, exec i s = runInstr i c (laneLong c .v (fun g => g.rD c d) fun g l => (v g l, 0)) s) ∧
      ∀ g, ∀ l < 32, ∀ k < 64 / t.width, ∀ j < t.width, bitAt t (v g l) k j = b g l k j := by
  have types := wf_types wf (by cases h <;> exact Option.some_ne_none c)
  cases h with
  | shfl _ o =>
    refine ⟨fun g l => bySub o.ty.width fun k => groupEl o.ty.width (g.lanesV (g.rA c o.a.reg))
      (shflIndex o.mode (subCount o.ty.width) (subCount o.ty.width * l + k) (subEl o.ty.width (g.srcB c o.uni o.b l) k)),
      fun s => by dsimp only [exec, execShfl], fun g l hl k hk j hj => ?_⟩
    rw [bitAt_bySub _ hk hj]
    exact shfl_bits o.mode types g _ _ hl hk hj
  | qswp _ o =>
    refine ⟨fun g l => g.srcA c o.a (l / 4 * 4 + qswpPos o.dir (l % 4)), fun s => by dsimp only [exec, execQswp], fun g l hl k hk j hj => ?_⟩
    rw [bitAt_b64 _ hk]
    dsimp only [Group.srcA]
    rw [Nat.mul_comm (l / 4)]
    cases o.dir <;> rfl
  | match_ _ o =>
    refine ⟨fun g l => (maskOf fun k => lane (g.active c) k && subEl o.ty.width (g.srcA c o.a k) 0 = subEl o.ty.width (g.srcA c o.a l) 0).setWidth 64,
      fun s => by dsimp only [exec, execMatch], fun g l hl k hk j hj => ?_⟩
    rw [bitAt_b64 _ hk, match_bits _ hj]
    simp only [Bool.and_assoc, beq_eq_decide]
    rfl

/-- Settles O7: the moves are long per-lane results, bit by bit. -/
theorem crossLaneMoves : Obligations.CrossLaneMoves := by
  unfold Obligations.CrossLaneMoves
  intro i c d t b s s1 form hr
  obtain ⟨v, run, bits⟩ := form.bits hr.1
  obtain ⟨w, goes, seen⟩ := laneLong_values (run s) hr
  refine ⟨w, goes, fun l hl => ⟨fun on k hk j hj => ?_, (seen l hl).2⟩⟩
  rw [(seen l hl).1 on]
  exact bits s1.cur l hl k hk j hj

end Sys2Proof.Machine
end

section
/-!
Reductions and scans: the contributing sub-elements, the steps over them, and the winner of an index form (R151, R154, R155).
-/
set_option Elab.async false
namespace Sys2Proof.Machine
open Sys2Proof

/-! ### Steps and identities (R154) -/

theorem isF_of_isInt {t : Ty} (h : t.isInt = true) : t.isF = false := by cases t <;> simp [Ty.isInt, Ty.isI, Ty.isN, Ty.isF] at h ⊢

/-- The bits of a type are those of the number that they stand for. -/
theorem lowBits_intOf {t : Ty} (h : 0 < t.width) {a : Nat} (ha : a < 2 ^ t.width) : lowBits t.width (intOf t a) = a := by
  rw [intOf_eq_fit h, fit, if_neg Bool.false_ne_true, lowBits, Int.add_emod_emod, add_sub_cancel, ← lowBits, lowBits_natCast, Nat.mod_eq_of_lt ha]

/-- A sum of numbers of a type wraps as the sum of their bits. -/
theorem lowBits_intOf_add {t : Ty} (h : 0 < t.width) (a b : Nat) : lowBits t.width (intOf t a + intOf t b) = (a + b) % 2 ^ t.width := by
  have wraps (n : Nat) : (intOf t n : Int) % 2 ^ t.width = n % 2 ^ t.width := by
    rw [intOf_eq_fit h, fit, if_neg Bool.false_ne_true, Int.add_emod_emod, add_sub_cancel]
  rw [lowBits, Int.add_emod, wraps, wraps, ← Int.add_emod, ← Nat.cast_add, ← lowBits, lowBits_natCast]

/-- Integer steps wrap and compare in their type, from its identities. -/
theorem redStep_int {t : Ty} (ht : t.isInt = true) (k : FCtl) {a b : Nat} (ha : a < 2 ^ t.width) (hb : b < 2 ^ t.width) :
    redStep k .add t a b = ((a + b) % 2 ^ t.width, 0) ∧
      redStep k .min t a b = (if fit t false (b : Int) < fit t false (a : Int) then b else a, 0) ∧
      redStep k .max t a b = (if fit t false (a : Int) < fit t false (b : Int) then b else a, 0) ∧
      redIdentity .add t = 0 ∧ redIdentity .min t = (greatest t % 2 ^ t.width).toNat ∧ redIdentity .max t = (least t % 2 ^ t.width).toNat := by
  have pos := width_pos_of_isInt (.inl ht)
  obtain ⟨low, high, -⟩ := least_greatest pos
  simp only [redStep, redIdentity, isF_of_isInt ht, Bool.false_eq_true, if_false, lowBits_intOf_add pos, low, high, ← intOf_eq_fit pos, true_and]
  refine ⟨?_, ?_, rfl, rfl⟩ <;> congr 1 <;> split
  next less => rw [min_eq_right less.le, lowBits_intOf pos hb]
  next least => rw [min_eq_left (not_lt.mp least), lowBits_intOf pos ha]
  next less => rw [max_eq_right less.le, lowBits_intOf pos hb]
  next most => rw [max_eq_left (not_lt.mp most), lowBits_intOf pos ha]

/-- The steps of R154. -/
theorem red_steps (k : FCtl) (t : Ty) (a b : Nat) :
    (t.isInt = true → a < 2 ^ t.width → b < 2 ^ t.width →
      redStep k .add t a b = ((a + b) % 2 ^ t.width, 0) ∧
      redStep k .min t a b = (if fit t false (b : Int) < fit t false (a : Int) then b else a, 0) ∧
      redStep k .max t a b = (if fit t false (a : Int) < fit t false (b : Int) then b else a, 0) ∧
      redIdentity .add t = 0 ∧ redIdentity .min t = (greatest t % 2 ^ t.width).toNat ∧ redIdentity .max t = (least t % 2 ^ t.width).toNat) ∧
    (t.isF = true → redStep k .add t a b = fpAdd k k.rnd t false false a b ∧ redStep k .min t a b = fpMinMax k t false false false a b ∧
      redStep k .max t a b = fpMinMax k t true false false a b ∧
      redIdentity .add t = (fmtOf t).signBits true ∧ redIdentity .min t = (fmtOf t).infBits false ∧ redIdentity .max t = (fmtOf t).infBits true) ∧
    (a < 2 ^ t.width → b < 2 ^ t.width → ∀ j, (redStep k .and t a b).1.testBit j = (a.testBit j && b.testBit j) ∧
      (redStep k .or t a b).1.testBit j = (a.testBit j || b.testBit j) ∧ (redStep k .xor t a b).1.testBit j = (a.testBit j ^^ b.testBit j)) ∧
    (redIdentity .and t = 2 ^ t.width - 1 ∧ redIdentity .or t = 0 ∧ redIdentity .xor t = 0) := by
  refine ⟨fun ht ha hb => redStep_int ht k ha hb, fun ht => ?_, fun _ _ j => ?_, rfl, rfl, rfl⟩
  · simp only [redStep, redIdentity, ht, if_true, and_self]
  · exact ⟨Nat.testBit_and .., Nat.testBit_or .., Nat.testBit_xor ..⟩

/-! ### Which value is better in an index form (R154) -/

theorem better_int {t : Ty} (ht : t.isInt = true) (k : FCtl) (isMax : Bool) (src : Nat → Nat) (i j : Nat) :
    better k isMax t src i j = decide (if isMax then fit t false (src j : Int) < fit t false (src i : Int)
      else fit t false (src i : Int) < fit t false (src j : Int)) := by
  have pos := width_pos_of_isInt (.inl ht)
  simp only [better, idxBetter, isF_of_isInt ht, intOf_eq_fit pos, Bool.false_eq_true, if_false]
  cases isMax <;> rfl

theorem better_fp {t : Ty} (ht : t.isF = true) (k : FCtl) (isMax : Bool) (src : Nat → Nat) (i j : Nat) :
    better k isMax t src i j = (!(operand k t false (src i)).isNan && ((operand k t false (src j)).isNan ||
      if isMax then below0 (operand k t false (src j)) (operand k t false (src i)) else below0 (operand k t false (src i)) (operand k t false (src j)))) := by
  simp only [better, idxBetter, ht, if_true, readOperand_plain]
  generalize operand k t false (src i) = x
  generalize operand k t false (src j) = y
  cases hx : x.isNan with
  | true => rfl
  | false =>
    cases hy : y.isNan with
    | true => rfl
    | false =>
      simp only [fpCompare_true hx hy, Bool.not_false, Bool.true_and, Bool.false_or]
      cases less : below0 x y with
      | true => cases isMax <;> simp [below0_asymm less]
      | false => cases more : below0 y x <;> cases isMax <;> simp

theorem below0_of_negInf {y : FpVal} (hy : y.isNan = false) (above : y ≠ .inf true) : below0 (.inf true) y = true := by
  cases y with
  | nan => simp [FpVal.isNan] at hy
  | inf s => cases s with
    | true => exact absurd rfl above
    | false => rfl
  | num => rfl

theorem below0_of_posInf {x : FpVal} (hx : x.isNan = false) (under : x ≠ .inf false) : below0 x (.inf false) = true := by
  cases x with
  | nan => simp [FpVal.isNan] at hx
  | inf s => cases s with
    | true => rfl
    | false => exact absurd rfl under
  | num => rfl

/-- What lies below something is no NaN and not +∞, and nor is that a NaN or −∞. -/
theorem below0_plain {x y : FpVal} (h : below0 x y = true) :
    x.isNan = false ∧ y.isNan = false ∧ x ≠ .inf false ∧ y ≠ .inf true := by
  refine ⟨?_, ?_, ?_, ?_⟩
  · cases x <;> simp [below0, below, FpVal.isNan] at h ⊢
  · cases y <;> cases x <;> simp [below0, below, FpVal.isNan] at h ⊢
  · rintro rfl
    simp [below0, below] at h
  · rintro rfl
    cases x <;> simp [below0, below] at h

/-- One value below another has every third number above it, or the other above that number. -/
theorem below0_cotrans {x y z : FpVal} (hz : z.isNan = false) (h : below0 x y = true) : below0 x z = true ∨ below0 z y = true := by
  obtain ⟨hx, hy, under, above⟩ := below0_plain h
  cases z with
  | nan => simp [FpVal.isNan] at hz
  | inf u => cases u with
    | true => exact .inr (below0_of_negInf hy above)
    | false => exact .inl (below0_of_posInf hx under)
  | num u r =>
    cases x with
    | nan => simp [FpVal.isNan] at hx
    | inf s => cases s with
      | true => exact .inl rfl
      | false => exact absurd rfl under
    | num s q =>
      cases y with
      | nan => simp [FpVal.isNan] at hy
      | inf v => cases v with
        | true => exact absurd rfl above
        | false => exact .inr rfl
      | num v p =>
        simp only [below0_num] at h ⊢
        rcases h with less | ⟨rfl, rfl, rfl, rfl⟩
        · rcases lt_or_ge (signed s q) (signed u r) with low | low
          · exact .inl (.inl low)
          · exact .inr (.inl (low.trans_lt less))
        · rcases lt_trichotomy (signed u r) 0 with low | zero | high
          · exact .inr (.inl (by simpa [signed] using low))
          · have none : r = 0 := by cases u <;> simpa [signed] using zero
            cases u
            · exact .inl (.inr ⟨rfl, rfl, rfl, none⟩)
            · exact .inr (.inr ⟨rfl, none, rfl, rfl⟩)
          · exact .inl (.inl (by simpa [signed] using high))

/-- What is better is not worse. -/
theorem better_asymm {t : Ty} (ht : t.isInt = true ∨ t.isF = true) {k : FCtl} {isMax : Bool} {src : Nat → Nat} {i j : Nat}
    (h : better k isMax t src i j = true) : better k isMax t src j i = false := by
  rcases ht with ht | ht
  · rw [better_int ht, decide_eq_true_eq] at h
    rw [better_int ht, decide_eq_false_iff_not]
    cases isMax <;> exact lt_asymm h
  · rw [better_fp ht, Bool.and_eq_true, Bool.not_eq_true'] at h
    obtain ⟨number, less⟩ := h
    rw [better_fp ht, number]
    rcases Bool.or_eq_true_iff.mp less with nan | less
    · rw [nan]; rfl
    · cases isMax <;> simp only [Bool.false_eq_true, if_true, if_false] at less ⊢ <;> rw [below0_asymm less] <;> simp

/-- Of two values of which one is better, every third is worse than the better one or better than the other. -/
theorem better_cotrans {t : Ty} (ht : t.isInt = true ∨ t.isF = true) {k : FCtl} {isMax : Bool} {src : Nat → Nat} {i j : Nat}
    (h : better k isMax t src i j = true) (m : Nat) : better k isMax t src i m = true ∨ better k isMax t src m j = true := by
  rcases ht with ht | ht
  · simp only [better_int ht, decide_eq_true_eq] at h ⊢
    cases isMax <;> simp only [Bool.false_eq_true, if_true, if_false] at h ⊢ <;> omega
  · simp only [better_fp ht, Bool.and_eq_true, Bool.not_eq_true', Bool.or_eq_true] at h ⊢
    obtain ⟨number, less⟩ := h
    cases hm : (operand k t false (src m)).isNan with
    | true => exact .inl ⟨number, .inl rfl⟩
    | false =>
      rcases less with nan | less
      · exact .inr ⟨rfl, .inl nan⟩
      · cases isMax <;> simp only [Bool.false_eq_true, if_true, if_false] at less ⊢
        · exact (below0_cotrans hm less).imp (fun l => ⟨number, .inr l⟩) fun l => ⟨trivial, .inr l⟩
        · exact (below0_cotrans hm less).symm.imp (fun l => ⟨number, .inr l⟩) fun l => ⟨trivial, .inr l⟩

/-! ### The winner of an index form (R154) -/

/-- The winner of a list under a relation that says what is better: a later element takes over only where it is better. -/
def firstBest (r : Nat → Nat → Bool) (i : Nat) (js : List Nat) : Nat := js.foldl (fun best j => if r j best then j else best) i

/-- No element is better than the winner, and the winner is better than every element before it. -/
theorem firstBest_wins {r : Nat → Nat → Bool} (asymm : ∀ a b, r a b = true → r b a = false)
    (cotrans : ∀ a b, r a b = true → ∀ m, r a m = true ∨ r m b = true) :
    ∀ (js : List Nat) (i : Nat), (i :: js).Pairwise (· < ·) → firstBest r i js ∈ i :: js ∧
      ∀ j ∈ i :: js, r j (firstBest r i js) = false ∧ (j < firstBest r i js → r (firstBest r i js) j = true)
  | [], i, _ => by
    have irrefl : r i i = false := by
      cases h : r i i with
      | false => rfl
      | true => exact h.symm.trans (asymm _ _ h)
    simp [firstBest, irrefl]
  | j :: js, i, ordered => by
    rw [List.pairwise_cons, List.pairwise_cons] at ordered
    obtain ⟨above, later, rest⟩ := ordered
    cases h : r j i with
    | true =>
      have step : firstBest r i (j :: js) = firstBest r j js := by simp [firstBest, h]
      obtain ⟨mem, best⟩ := firstBest_wins asymm cotrans js j (List.pairwise_cons.mpr ⟨later, rest⟩)
      rw [step]
      have beats : r (firstBest r j js) i = true := (cotrans _ _ h _).resolve_left (by rw [(best j List.mem_cons_self).1]; exact Bool.false_ne_true)
      refine ⟨List.mem_cons_of_mem _ mem, fun m hm => ?_⟩
      rcases List.mem_cons.mp hm with rfl | hm
      · exact ⟨asymm _ _ beats, fun _ => beats⟩
      · exact best m hm
    | false =>
      have step : firstBest r i (j :: js) = firstBest r i js := by simp [firstBest, h]
      obtain ⟨mem, best⟩ := firstBest_wins asymm cotrans js i
        (List.pairwise_cons.mpr ⟨fun m hm => above m (List.mem_cons_of_mem _ hm), rest⟩)
      rw [step]
      refine ⟨by rcases List.mem_cons.mp mem with e | e <;> simp [e], fun m hm => ?_⟩
      rcases List.mem_cons.mp hm with rfl | hm
      · exact best m List.mem_cons_self
      rcases List.mem_cons.mp hm with rfl | hm
      · rcases List.mem_cons.mp mem with same | mem
        · rw [same]
          exact ⟨h, fun less => absurd (above m List.mem_cons_self) less.not_gt⟩
        · have beats : r (firstBest r i js) m = true :=
            (cotrans _ _ ((best i List.mem_cons_self).2 (above _ (List.mem_cons_of_mem _ mem))) m).resolve_right (by rw [h]; exact Bool.false_ne_true)
          exact ⟨asymm _ _ beats, fun _ => beats⟩
      · exact best m (List.mem_cons_of_mem _ hm)

/-! ### The contributing sub-elements (R151) -/

theorem contributors_lt {g : Group} {c : Ctl} {w i : Nat} (h : i ∈ contributors g c w) : i < 32 * (64 / w) := List.mem_range.mp (List.mem_filter.mp h).1

theorem groupEl_groupSub (g : Group) (t : Ty) (n : Nat) {i : Nat} (hi : i < 32 * (64 / t.width)) :
    groupEl t.width (g.lanesV n) i = groupSub g t n i :=
  groupEl_lanesV g t.width n (Nat.div_lt_of_lt_mul (by rwa [Nat.mul_comm] at hi))

theorem contrib_eq (g : Group) (c : Ctl) (t : Ty) (n : Nat) :
    g.contrib c t.width (g.lanesV n) = (contributors g c t.width).map fun i => (i, groupSub g t n i) :=
  List.map_congr_left fun _ hi => congrArg _ (groupEl_groupSub g t n (contributors_lt hi))

theorem contributors_ordered (g : Group) (c : Ctl) (w : Nat) : (contributors g c w).Pairwise (· < ·) := List.pairwise_lt_range.filter _

theorem redFold_eq (k : FCtl) (op : RedOp) (t : Ty) (src : Nat → Nat) (es : List Nat) :
    redFold k op t (es.map fun i => (i, src i)) = reduce k op t src es := List.foldl_map

/-- Where a lane is active, a type of at most 64 bits has a contributing sub-element. -/
theorem contributors_ne_nil {g : Group} {c : Ctl} {w : Nat} (pos : 0 < w) (le : w ≤ 64) (on : g.active c ≠ 0) : contributors g c w ≠ [] := by
  obtain ⟨l, hl, active⟩ : ∃ l < 32, lane (g.active c) l = true := by
    by_contra none
    push Not at none
    exact on (BitVec.eq_of_getLsbD_eq fun l hl => by simpa [lane] using none l hl)
  have sub : 0 < 64 / w := Nat.div_pos le pos
  refine List.ne_nil_of_mem (a := l * (64 / w)) (List.mem_filter.mpr ⟨List.mem_range.mpr (Nat.mul_lt_mul_of_pos_right hl sub), ?_⟩)
  rw [Nat.mul_div_cancel _ sub]
  exact active

/-! ### What an index form delivers (R154) -/

/-- The value of an index form at its winner. -/
def winnerBits (k : FCtl) (t : Ty) (b : Nat) : Nat :=
  if t.isF then (if (operand k t false b).isNan then nanResult t k.nanq [operand k t false b] else encodeExact t (operand k t false b))
  else lowBits 32 (intOf t b)

/-- The flags of an index form. -/
def indexFlags (t : Ty) (src : Nat → Nat) (es : List Nat) : BitVec 6 := if t.isF then es.foldl (fun a j => a ||| sigFlag t (src j)) 0 else 0

theorem redIndex_eq (k : FCtl) (isMax : Bool) (t : Ty) (src : Nat → Nat) (i : Nat) (js : List Nat) :
    redIndex k isMax t ((i :: js).map fun j => (j, src j)) =
      (winnerBits k t (src (firstBest (better k isMax t src) i js)) + 2 ^ 32 * firstBest (better k isMax t src) i js, indexFlags t src (i :: js)) := by
  have winner : (js.map fun j => (j, src j)).foldl (fun best x => if idxBetter isMax t (readOperand k t x.2).1 (readOperand k t best.2).1
      (intOf t x.2) (intOf t best.2) then x else best) (i, src i) =
      (firstBest (better k isMax t src) i js, src (firstBest (better k isMax t src) i js)) := by
    rw [List.foldl_map, firstBest]
    exact List.foldl_hom (fun j => (j, src j)) fun best j => by
      dsimp only
      rw [better]
      split <;> rfl
  rw [List.map_cons, redIndex]
  simp only [winner]
  rw [← List.map_cons (f := fun j => (j, src j))]
  simp only [List.foldl_map, readOperand_plain]
  rfl

theorem winnerBits_int {t : Ty} (ht : t.isInt = true) (k : FCtl) (b : Nat) : winnerBits k t b = lowBits 32 (intOf t b) := by
  rw [winnerBits, isF_of_isInt ht, if_neg Bool.false_ne_true]

theorem nanResult_lt {t : Ty} (ht : Arith t) (k : FCtl) (x : FpVal) (aligned : x.Aligned) (quiet : (fmtOf t).qnan < 2 ^ t.width) :
    nanResult t k.nanq [x] < 2 ^ t.width := by
  have delivered := ht.nanOf k (ins := [x]) (by simpa using aligned)
  rw [NanOf] at delivered
  split at delivered
  · split at delivered
    · rwa [delivered]
    · rw [if_pos ht.inf] at delivered
      exact delivered.1
  · rwa [delivered]

/-- A floating-point winner is delivered as it was read, a NaN quieted. -/
theorem winnerBits_fp {t : Ty} (ht : t ∈ fpTypes) (k : FCtl) (b : Nat) :
    winnerBits k t b < 2 ^ t.width ∧
      ((operand k t false b).isNan = true → NanOf k t [operand k t false b] (winnerBits k t b)) ∧
      ((operand k t false b).isNan = false → (fmtOf t).decode (winnerBits k t b) = operand k t false b) := by
  have arith := arith_of_mem ht
  have isF : t.isF = true := by
    simp only [fpTypes, List.mem_cons, List.not_mem_nil, or_false] at ht
    rcases ht with rfl | rfl | rfl | rfl <;> rfl
  have quiet : (fmtOf t).qnan < 2 ^ t.width := by
    simp only [fpTypes, List.mem_cons, List.not_mem_nil, or_false] at ht
    rcases ht with rfl | rfl | rfl | rfl <;> decide
  have aligned := operand_aligned k t false b
  simp only [winnerBits, isF, if_true]
  generalize hx : operand k t false b = x at aligned ⊢
  cases plain : x.isNan with
  | true => exact ⟨nanResult_lt arith k x aligned quiet, fun _ => arith.nanOf k (by simpa using aligned), nofun⟩
  | false =>
    obtain ⟨small, decoded⟩ := arith.decode_encodeExact hx plain
    exact ⟨small, nofun, fun _ => decoded⟩

/-- The types of an index form: integers of at most 32 bits, or FP16, BF16 or FP32. -/
theorem index_types {op : RedOp} {t : Ty} (ok : op.tyOk t = true) (index : op = .minidx ∨ op = .maxidx) :
    (t.isInt = true ∨ t.isF = true ∧ t ∈ fpTypes) ∧ 0 < t.width ∧ t.width ≤ 32 := by
  rcases index with rfl | rfl <;> cases t <;> simp [RedOp.tyOk, Ty.isInt, Ty.isI, Ty.isN, Ty.width] at ok <;> decide

theorem winnerBits_lt {op : RedOp} {t : Ty} (ok : op.tyOk t = true) (index : op = .minidx ∨ op = .maxidx) (k : FCtl) (b : Nat) :
    winnerBits k t b < 2 ^ 32 := by
  obtain ⟨int | ⟨-, mem⟩, pos, le⟩ := index_types ok index
  · rw [winnerBits_int int, lowBits_eq_ofInt]
    exact BitVec.isLt _
  · exact (winnerBits_fp mem k b).1.trans_le (Nat.pow_le_pow_right two_pos le)

/-- The index form of an operation delivers the winner's value and index. -/
theorem redIndex_spec {op : RedOp} {t : Ty} (ok : op.tyOk t = true) (index : op = .minidx ∨ op = .maxidx) (k : FCtl) (isMax : Bool) (src : Nat → Nat)
    {es : List Nat} (ordered : es.Pairwise (· < ·)) (bound : ∀ i ∈ es, i < 2 ^ 32) (some_ : es ≠ []) :
    let r := redIndex k isMax t (es.map fun i => (i, src i))
    let v := BitVec.ofNat 64 r.1
    ∃ i ∈ es, v.toNat / 2 ^ 32 = i ∧
      (∀ j ∈ es, better k isMax t src j i = false ∧ (j < i → better k isMax t src i j = true)) ∧
      (t.isInt = true → v.toNat % 2 ^ 32 = lowBits 32 (intOf t (src i)) ∧ r.2 = 0) ∧
      (t.isF = true → (∀ b < 6, r.2.getLsbD b = es.any fun j => (sigFlag t (src j)).getLsbD b) ∧
        (let x := operand k t false (src i)
         (x.isNan = true → NanOf k t [x] (v.toNat % 2 ^ 32)) ∧ (x.isNan = false → (fmtOf t).decode (v.toNat % 2 ^ 32) = x))) := by
  intro r v
  obtain ⟨i, js, rfl⟩ := List.exists_cons_of_ne_nil some_
  obtain ⟨types, -, -⟩ := index_types ok index
  have ordering : t.isInt = true ∨ t.isF = true := types.imp_right And.left
  obtain ⟨mem, best⟩ := firstBest_wins (r := better k isMax t src) (fun _ _ => better_asymm ordering) (fun _ _ => better_cotrans ordering) js i ordered
  have run : r = _ := redIndex_eq k isMax t src i js
  generalize firstBest (better k isMax t src) i js = w at mem best run
  have small := winnerBits_lt ok index k (src w)
  have inside := bound w mem
  have value : v.toNat = winnerBits k t (src w) + 2 ^ 32 * w := by
    rw [BitVec.toNat_ofNat, run]
    exact Nat.mod_eq_of_lt (by dsimp only; omega)
  have high : v.toNat / 2 ^ 32 = w := by omega
  have low : v.toNat % 2 ^ 32 = winnerBits k t (src w) := by omega
  refine ⟨w, mem, high, best, fun int => ?_, fun fp => ?_⟩
  · rw [low, winnerBits_int int, run]
    exact ⟨rfl, by rw [indexFlags, isF_of_isInt int, if_neg Bool.false_ne_true]⟩
  · have mem : t ∈ fpTypes := types.elim (fun int => by simp [isF_of_isInt int] at fp) And.right
    refine ⟨fun b _ => ?_, ?_⟩
    · rw [run]
      simp [indexFlags, fp, foldFlags_bit]
    · rw [low]
      exact (winnerBits_fp mem k (src w)).2

/-! ### What `red` delivers (R154) -/

/-- An operation that reduces, without an index. -/
theorem redValue_fold {g : Group} {c : Ctl} {o : Red} (min : o.op ≠ .minidx) (max : o.op ≠ .maxidx) :
    redValue g c o =
      (bySub o.ty.width fun _ => (reduce g.fctl o.op o.ty (groupSub g o.ty (g.rA c o.a.reg)) (contributors g c o.ty.width)).1,
        (reduce g.fctl o.op o.ty (groupSub g o.ty (g.rA c o.a.reg)) (contributors g c o.ty.width)).2) := by
  rw [redValue, contrib_eq]
  simp only [redFold_eq]

theorem redValue_index {g : Group} {c : Ctl} {o : Red} (index : o.op = .minidx ∨ o.op = .maxidx) :
    redValue g c o =
      let r := redIndex g.fctl (o.op = .maxidx) o.ty ((contributors g c o.ty.width).map fun i => (i, groupSub g o.ty (g.rA c o.a.reg) i))
      (BitVec.ofNat 64 r.1, r.2) := by
  rw [redValue, contrib_eq]
  rcases index with op | op <;> simp [op]

/-- What `red` delivers, and its flags: nothing but zeros where no lane is active. -/
def redDelivered (g : Group) (c : Ctl) (o : Red) : Flagged Word64 := if g.active c = 0 then (0, 0) else redValue g c o

theorem contributors_small {g : Group} {c : Ctl} {w i : Nat} (h : i ∈ contributors g c w) : i < 2 ^ 32 := by
  have bound := contributors_lt h
  have := Nat.div_le_self 64 w
  omega

theorem bitsAt_bySub {t : Ty} (f : Nat → Nat) {k : Nat} (hk : k < 64 / t.width) : bitsAt t (bySub t.width f) k = f k % 2 ^ t.width :=
  subEl_bySub t.width f k hk (Nat.mul_div_le ..)

theorem red_completes {c : Ctl} {o : Red} {s s1 : State} (hr : Ready (.red c o) c s s1) :
    ∃ val : Lanes Word64,
      Completes (.red c o) c s s1
        (s1.setCur (if o.sdst then s1.cur.addPend .s (s1.cur.rD c o.d) (if s1.cur.active c = 0 then 0 else allLanes) val true (redDelivered s1.cur c o).2
          else s1.cur.addPend .v (s1.cur.rD c o.d) (s1.cur.written c) val true (redDelivered s1.cur c o).2)) noDest ∧
      ∀ l < 32, val.get l 0 = if o.sdst = false ∧ lane (s1.cur.zeroLanes c) l = true then 0 else (redDelivered s1.cur c o).1 := by
  obtain ⟨u, goes, after⟩ := longResult_after (f := fun g =>
    if o.sdst then ({ cls := .s, reg := g.rD c o.d, lanes := if g.active c = 0 then 0 else allLanes, val := Lanes.const (redDelivered g c o).1 },
      (redDelivered g c o).2)
    else (g.laneWrite c .v (g.rD c o.d) fun _ => (redDelivered g c o).1, (redDelivered g c o).2)) hr
  have run : exec (.red c o) s = .next u := goes
  cases dest : o.sdst with
  | true =>
    simp only [dest, if_true] at after ⊢
    exact ⟨_, ⟨u, run, after⟩, fun l hl => by simp [Lanes.get_const _ _ _ hl]⟩
  | false =>
    simp only [dest, Bool.false_eq_true, if_false] at after ⊢
    exact ⟨_, ⟨u, run, after⟩, fun l hl => by simp [Group.laneWrite, Lanes.get_gen _ _ _ hl]⟩

/-! ### The running values of a scan (R155) -/

/-- One step over a sub-element, with the flags so far. -/
def scanStep (k : FCtl) (op : RedOp) (t : Ty) (src : Nat → Nat) (a : Flagged Nat) (i : Nat) : Flagged Nat :=
  ((redStep k op t a.1 (src i)).1, a.2 ||| (redStep k op t a.1 (src i)).2)

/-- The sub-elements that the running value at `i` covers. -/
def scanned (excl : Bool) (act : Word32) (n : Nat) (i j : Nat) : Bool := lane act (j / n) && (decide (j < i) || (!excl && j == i))

theorem scanRun_eq (k : FCtl) (op : RedOp) (t : Ty) (excl : Bool) (act : Word32) (a : Lanes Word64) {src : Nat → Nat} :
    ∀ (is : List Nat) (acc : Flagged Nat), is.Pairwise (· < ·) → (∀ i ∈ is, groupEl t.width a i = src i) →
      scanRun k op t excl act a is acc.1 acc.2 =
        (is.map fun i => ((is.filter (scanned excl act (64 / t.width) i)).foldl (scanStep k op t src) acc).1,
          ((is.filter fun j => lane act (j / (64 / t.width))).foldl (scanStep k op t src) acc).2)
  | [], acc, _, _ => rfl
  | i :: is, acc, ordered, same => by
    obtain ⟨above, later⟩ := List.pairwise_cons.mp ordered
    have value := same i List.mem_cons_self
    have rest (acc : Flagged Nat) := scanRun_eq k op t excl act a is acc later fun j hj => same j (List.mem_cons_of_mem _ hj)
    have none : is.filter (scanned excl act (64 / t.width) i) = [] := List.filter_eq_nil_iff.mpr fun j hj => by
      have := above j hj
      simp [scanned, this.not_gt, this.ne']
    have before (j : Nat) (hj : j ∈ is) : scanned excl act (64 / t.width) j i = lane act (i / (64 / t.width)) := by simp [scanned, above j hj]
    have here : scanned excl act (64 / t.width) i i = (lane act (i / (64 / t.width)) && !excl) := by simp [scanned]
    cases on : lane act (i / (64 / t.width)) with
    | true =>
      have tail := rest (scanStep k op t src acc i)
      simp only [scanStep] at tail
      simp only [scanRun, subCount, on, if_true, value, tail, List.map_cons, List.filter_cons, here, none, Bool.true_and, List.foldl_cons]
      refine Prod.ext (congrArg₂ List.cons ?_ (List.map_congr_left fun j hj => ?_)) rfl
      · cases excl <;> rfl
      · rw [before j hj, on]
        rfl
    | false =>
      simp only [scanRun, subCount, on, Bool.false_eq_true, if_false, rest acc, List.map_cons, List.filter_cons, here, none, Bool.false_and]
      refine Prod.ext (congrArg₂ List.cons rfl (List.map_congr_left fun j hj => ?_)) rfl
      rw [before j hj, on]
      rfl

/-- A scan of a register: the running values by group index, and the flags of all its steps. -/
theorem scanRun_range (g : Group) (c : Ctl) (o : Scan) :
    let src := groupSub g o.ty (g.rA c o.a.reg)
    let es := contributors g c o.ty.width
    scanRun g.fctl o.op o.ty o.excl (g.active c) (g.lanesV (g.rA c o.a.reg)) (List.range (32 * subCount o.ty.width)) (redIdentity o.op o.ty) 0 =
      ((List.range (32 * (64 / o.ty.width))).map fun i =>
        (reduce g.fctl o.op o.ty src (es.filter fun j => decide (j < i) || (!o.excl && j == i))).1, (reduce g.fctl o.op o.ty src es).2) := by
  intro src es
  refine (scanRun_eq g.fctl o.op o.ty o.excl (g.active c) (g.lanesV (g.rA c o.a.reg)) (src := src) (List.range (32 * subCount o.ty.width))
    (redIdentity o.op o.ty, 0) List.pairwise_lt_range fun i hi => groupEl_groupSub g o.ty _ (List.mem_range.mp hi)).trans ?_
  refine Prod.ext (List.map_congr_left fun i _ => ?_) rfl
  simp only [es, contributors, List.filter_filter]
  congr 2
  exact List.filter_congr fun j _ => Bool.and_comm ..

theorem scan_completes {c : Ctl} {o : Scan} {s s1 : State} (hr : Ready (.scan c o) c s s1) :
    ∃ v : Lanes Word64,
      (let src := groupSub s1.cur o.ty (s1.cur.rA c o.a.reg)
       let es := contributors s1.cur c o.ty.width
       Completes (.scan c o) c s s1
         (s1.setCur (s1.cur.addPend .v (s1.cur.rD c o.d) (s1.cur.written c) v true (reduce s1.cur.fctl o.op o.ty src es).2)) noDest ∧
       ∀ l < 32, (takes s1.cur c l → ∀ k < 64 / o.ty.width, bitsAt o.ty (v.get l 0) k =
           (reduce s1.cur.fctl o.op o.ty src (es.filter fun i => decide (i < 64 / o.ty.width * l + k) ||
             (!o.excl && i == 64 / o.ty.width * l + k))).1 % 2 ^ o.ty.width) ∧
         (lane (s1.cur.zeroLanes c) l = true → v.get l 0 = 0)) := by
  obtain ⟨u, goes, after⟩ := longResult_after (f := fun g =>
    let r := scanRun g.fctl o.op o.ty o.excl (g.active c) (g.lanesV (g.rA c o.a.reg)) (List.range (32 * subCount o.ty.width)) (redIdentity o.op o.ty) 0
    (g.laneWrite c .v (g.rD c o.d) fun l => bySub o.ty.width fun k => r.1.getD (subCount o.ty.width * l + k) 0, r.2)) hr
  simp only [scanRun_range] at after
  refine ⟨_, ⟨u, goes, after⟩, fun l hl => ⟨fun ⟨_, nonzero⟩ k hk => ?_, fun zero => ?_⟩⟩
  · have inside : 64 / o.ty.width * l + k < 32 * (64 / o.ty.width) :=
      calc 64 / o.ty.width * l + k < 64 / o.ty.width * (l + 1) := by rw [Nat.mul_succ]; omega
        _ ≤ 64 / o.ty.width * 32 := Nat.mul_le_mul_left _ hl
        _ = _ := Nat.mul_comm ..
    simp only [Group.laneWrite, Lanes.get_gen _ _ _ hl, nonzero, Bool.false_eq_true, if_false]
    rw [bitsAt_bySub _ hk]
    simp [subCount, inside]
  · simp only [Group.laneWrite, Lanes.get_gen _ _ _ hl, zero, if_true]

/-- Settles O8: the winner of an index form, the fold of the other operations, and the running values of a scan. -/
theorem reductionsAndScans : Obligations.ReductionsAndScans := by
  unfold Obligations.ReductionsAndScans
  refine ⟨fun c o s s1 hr => ?_, fun c o s s1 hr => scan_completes hr, red_steps,
    fun k isMax t src i j => ⟨fun ht => better_int ht k isMax src i j, fun ht => better_fp ht k isMax src i j⟩⟩
  obtain ⟨val, completes, values⟩ := red_completes hr
  have ok : o.op.tyOk o.ty = true := wf_types hr.1 (Option.some_ne_none c)
  refine ⟨_, _, val, completes, values, fun off => ?_, fun on min max => ?_, fun on index => ?_⟩
  · rw [redDelivered, if_pos off]
  · rw [redDelivered, if_neg on, redValue_fold min max]
    exact ⟨rfl, fun k hk => bitsAt_bySub _ hk⟩
  · obtain ⟨-, pos, le⟩ := index_types ok index
    rw [redDelivered, if_neg on, redValue_index index]
    exact redIndex_spec ok index _ _ _ (contributors_ordered ..) (fun _ => contributors_small) (contributors_ne_nil pos (le.trans (by decide)) on)

end Sys2Proof.Machine
end

section
/-!
Which accesses are accepted, and what stops an instruction at its own unit (R36, R158, R162, R326, R342, R397).
-/
set_option Elab.async false
namespace Sys2Proof.Machine
open Sys2Proof

/-! ### The first request that a check answers (R162) -/

theorem findSome?_of_find? {α β : Type} {p : α → Bool} {f : α → Option β} {e : α → β} :
    ∀ {l : List α} {x : α}, (∀ y ∈ l, f y = if p y = true then some (e y) else none) → l.find? p = some x → l.findSome? f = some (e x)
  | y :: l, x, answers, h => by
    have here := answers y List.mem_cons_self
    rw [List.find?_cons] at h
    rw [List.findSome?_cons]
    cases hp : p y with
    | true =>
      rw [hp] at h here
      cases h
      rw [here, if_pos rfl]
    | false =>
      rw [hp] at h here
      rw [here, if_neg Bool.false_ne_true]
      exact findSome?_of_find? (fun z hz => answers z (List.mem_cons_of_mem _ hz)) h

/-- The first request that a check answers stops the instruction. -/
theorem firstReq_stops {rs : List LaneReq} {p : LaneReq → Bool} {f : LaneReq → Option Stop} {e : LaneReq → Stop} {r : LaneReq}
    (answers : ∀ q ∈ rs, q.helper = false → f q = if p q = true then some (e q) else none) (first : (rs.filter fun q => !q.helper).find? p = some r) :
    firstReq rs f = .error (e r) := by
  rw [firstReq, findSome?_of_find? (fun q hq => ?_) first]
  obtain ⟨mem, own⟩ := List.mem_filter.1 hq
  exact answers q mem (by simpa using own)

/-! ### Lines that the L2 holds (R326, R330) -/

namespace State

/-- What the translation of a line gives that the machine need not walk for. -/
def lineXlat (s : State) (vf line : Nat) : Xlat := (s.translate vf (64 * line) (s.coreFor vf)).2

theorem translate_held {s : State} {vf va : Nat} {core : Option Nat} {l : L2Line} (held : s.l2.find? (fun m => m.vf = vf && m.line = va / 64) = some l) :
    s.translate vf va core = (s, .ok (Loc.mk (64 * l.pa + va % 64) l.attr.comp l.attr.watch l.attr.gpage) l.attr) := by
  unfold translate
  rw [held]

/-- Lines that need no walk leave the machine as it is; each request finds the translation of its own line. -/
theorem xlatLanes_still {s : State} {vf : Nat} :
    ∀ (rs : List LaneReq) (done : List (Nat × Xlat)),
      (∀ r ∈ rs, r.va < 2 ^ 57 ∧ (s.translate vf (64 * (r.va / 64)) (s.coreFor vf)).1 = s) → (∀ d ∈ done, d.2 = s.lineXlat vf d.1) →
      ∃ xs, s.xlatLanes vf rs done = (s, xs) ∧ (∀ d ∈ xs, d.2 = s.lineXlat vf d.1) ∧ (∀ d ∈ done, d ∈ xs) ∧
        ∀ r ∈ rs, ∃ d ∈ xs, d.1 = r.va / 64
  | [], done, _, known => ⟨done, rfl, known, fun _ h => h, nofun⟩
  | r :: rs, done, held, known => by
    obtain ⟨below, still⟩ := held r List.mem_cons_self
    have rest := fun q hq => held q (List.mem_cons_of_mem _ hq)
    rw [xlatLanes]
    cases seen : done.any (fun d => d.1 = r.va / 64) with
    | true =>
      rw [if_pos (by simp)]
      obtain ⟨xs, run, values, keeps, covers⟩ := xlatLanes_still rs done rest known
      refine ⟨xs, run, values, keeps, fun q hq => ?_⟩
      rcases List.mem_cons.mp hq with rfl | hq
      · obtain ⟨d, hd, same⟩ := List.any_eq_true.mp seen
        exact ⟨d, keeps d hd, of_decide_eq_true same⟩
      · exact covers q hq
    | false =>
      rw [if_neg (by simpa using below)]
      have pair : s.translate vf (64 * (r.va / 64)) (s.coreFor vf) = (s, s.lineXlat vf (r.va / 64)) := Prod.ext still rfl
      rw [pair]
      obtain ⟨xs, run, values, keeps, covers⟩ := xlatLanes_still rs ((r.va / 64, s.lineXlat vf (r.va / 64)) :: done) rest fun d hd => by
        rcases List.mem_cons.mp hd with rfl | hd
        · rfl
        · exact known d hd
      refine ⟨xs, run, values, fun d hd => keeps d (List.mem_cons_of_mem _ hd), fun q hq => ?_⟩
      rcases List.mem_cons.mp hq with rfl | hq
      · exact ⟨_, keeps _ List.mem_cons_self, rfl⟩
      · exact covers q hq

end State

/-- A request finds the translation of its line. -/
theorem reqXlat_eq {s : State} {vf : Nat} {xs : List (Nat × State.Xlat)} {r : LaneReq} (values : ∀ d ∈ xs, d.2 = s.lineXlat vf d.1)
    (covered : ∃ d ∈ xs, d.1 = r.va / 64) : reqXlat xs r = some (s.lineXlat vf (r.va / 64)) := by
  obtain ⟨d, hd, same⟩ := covered
  have some_ : (xs.find? fun d => d.1 = r.va / 64).isSome = true := List.find?_isSome.mpr ⟨d, hd, by simp [same]⟩
  obtain ⟨e, found⟩ := Option.isSome_iff_exists.mp some_
  have line : e.1 = r.va / 64 := by simpa using List.find?_some found
  rw [reqXlat, found, Option.map_some, values e (List.mem_of_find?_eq_some found), line]

section
variable {s : State} {vf size : Nat} {rs : List LaneReq} {loc : LaneReq → Nat} {att : LaneReq → Attr}

/-- The lanes of an access whose lines the L2 holds: active ones, aligned and below 2^57, each with the location and the attributes of its line. -/
def HeldLanes (s : State) (vf size : Nat) (rs : List LaneReq) (loc : LaneReq → Nat) (att : LaneReq → Attr) : Prop :=
  ∀ r ∈ rs, r.helper = false ∧ r.va % size = 0 ∧ r.va < 2 ^ 57 ∧
    ∃ l, s.l2.find? (fun m => m.vf = vf && m.line = r.va / 64) = some l ∧ l.attr = att r ∧
      loc r = Loc.mk (64 * l.pa) (att r).comp (att r).watch (att r).gpage + r.va % 64

/-- The start of the line of a location. -/
def lineLoc (loc : LaneReq → Nat) (r : LaneReq) : Nat := loc r - r.va % 64

theorem HeldLanes.translate (h : HeldLanes s vf size rs loc att) {r : LaneReq} (hr : r ∈ rs) :
    s.translate vf (64 * (r.va / 64)) (s.coreFor vf) = (s, .ok (lineLoc loc r) (att r)) ∧ lineLoc loc r + r.va % 64 = loc r := by
  obtain ⟨-, -, -, l, found, attr, place⟩ := h r hr
  have start : lineLoc loc r = Loc.mk (64 * l.pa) (att r).comp (att r).watch (att r).gpage := by rw [lineLoc, place, Nat.add_sub_cancel]
  have line : 64 * (r.va / 64) / 64 = r.va / 64 := Nat.mul_div_cancel_left _ (by decide)
  refine ⟨?_, by rw [start, place]⟩
  rw [State.translate_held (by rw [line]; exact found), Nat.mul_mod_right, Nat.add_zero, attr, start]

/-- The line that a location of an access lies in. -/
theorem HeldLanes.line (h : HeldLanes s vf size rs loc att) {r : LaneReq} (hr : r ∈ rs) : Loc.pa (lineLoc loc r) / 64 = Loc.pa (loc r) / 64 := by
  obtain ⟨-, -, -, l, -, -, place⟩ := h r hr
  simp only [lineLoc, place, Nat.add_sub_cancel, Loc.pa, Loc.mk]
  omega

/-- What the lanes of an access find. -/
theorem HeldLanes.found (h : HeldLanes s vf size rs loc att) :
    ∃ xs, s.xlatLanes vf rs [] = (s, xs) ∧ ∀ r ∈ rs, reqXlat xs r = some (.ok (lineLoc loc r) (att r)) := by
  obtain ⟨xs, run, values, -, covers⟩ := State.xlatLanes_still (s := s) (vf := vf) rs []
    (fun r hr => ⟨(h r hr).2.2.1, congrArg Prod.fst (h.translate hr).1⟩) nofun
  exact ⟨xs, run, fun r hr => (reqXlat_eq values (covers r hr)).trans (congrArg some (congrArg Prod.snd (h.translate hr).1))⟩

/-- The checks of alignment and range are passed. -/
theorem HeldLanes.placed (h : HeldLanes s vf size rs loc att) :
    (firstReq rs fun r => if r.va % size ≠ 0 then some (.trap .misalign r.va) else none) = .ok () ∧
      (firstReq rs fun r => if 2 ^ 57 ≤ r.va then some (.trap .perm r.va) else none) = .ok () := by
  refine ⟨firstReq_pass fun r hr _ => ?_, firstReq_pass fun r hr _ => ?_⟩
  · rw [if_neg (by simp [(h r hr).2.1])]
  · rw [if_neg (Nat.not_le.2 (h r hr).2.2.1)]

theorem HeldLanes.active (h : HeldLanes s vf size rs loc att) : (rs.filter fun q => !q.helper) = rs :=
  List.filter_eq_self.mpr fun r hr => by simp [(h r hr).1]

/-- The accesses of lanes whose lines the L2 holds are accepted, each with the location and the attributes of its line. -/
theorem HeldLanes.accepts (h : HeldLanes s vf size rs loc att) {kind : AccKind} {poison : Bool} (may : ∀ r ∈ rs, (att r).permits kind = true)
    (sound : ∀ r ∈ rs, poison = true → s.poisoned (loc r) = false) :
    s.accept vf kind size poison rs = .ok (s, rs.map fun r => { lane := r.lane, va := r.va, pa := loc r, attr := att r }) := by
  obtain ⟨xs, run, found⟩ := h.found
  obtain ⟨aligned, inside⟩ := h.placed
  have clean : ∀ r ∈ rs, (poison && s.poisoned (loc r)) = false := fun r hr => by
    cases hp : poison with
    | false => rfl
    | true => rw [sound r hr hp]; rfl
  unfold State.accept
  simp only [bind, Except.bind, aligned, inside, run]
  rw [firstReq_pass fun r hr _ => by simp only [found r hr], firstReq_pass fun r hr _ => by simp only [found r hr, may r hr]; rfl,
    firstReq_pass fun r hr _ => by simp only [found r hr, (h.translate hr).2, clean r hr]; rfl]
  refine congrArg (fun l => Except.ok (s, l)) (List.map_congr_left fun r hr => ?_)
  simp only [found r hr, (h.translate hr).2, clean r hr, may r hr, (h r hr).2.1]
  rfl

/-- The lowest lane without permission stops the instruction. -/
theorem HeldLanes.denied (h : HeldLanes s vf size rs loc att) {kind : AccKind} (poison : Bool) {r : LaneReq}
    (first : rs.find? (fun q => !(att q).permits kind) = some r) : s.accept vf kind size poison rs = .error (.trap .perm r.va) := by
  obtain ⟨xs, run, found⟩ := h.found
  obtain ⟨aligned, inside⟩ := h.placed
  unfold State.accept
  simp only [bind, Except.bind, aligned, inside, run]
  rw [firstReq_pass fun r hr _ => by simp only [found r hr],
    firstReq_stops (p := fun q => !(att q).permits kind) (e := fun q => .trap .perm q.va) (r := r) (fun q hq _ => ?_) (by rw [h.active]; exact first)]
  rcases Bool.eq_false_or_eq_true ((att q).permits kind) with allowed | allowed <;> simp [found q hq, allowed]

/-- The lowest lane on a poisoned line stops an instruction whose lanes are all permitted. -/
theorem HeldLanes.poisons (h : HeldLanes s vf size rs loc att) {kind : AccKind} (may : ∀ r ∈ rs, (att r).permits kind = true) {r : LaneReq}
    (first : rs.find? (fun q => s.poisoned (loc q)) = some r) :
    s.accept vf kind size true rs = .error (.poison (Loc.pa (loc r) / 64) r.va) := by
  obtain ⟨xs, run, found⟩ := h.found
  obtain ⟨aligned, inside⟩ := h.placed
  unfold State.accept
  simp only [bind, Except.bind, aligned, inside, run]
  rw [firstReq_pass fun r hr _ => by simp only [found r hr], firstReq_pass fun r hr _ => by simp only [found r hr, may r hr]; rfl,
    firstReq_stops (p := fun q => s.poisoned (loc q)) (e := fun q => .poison (Loc.pa (loc q) / 64) q.va) (r := r) (fun q hq _ => ?_)
      (by rw [h.active]; exact first)]
  simp only [found q hq, (h.translate hq).2, h.line hq, Bool.true_and]

end

/-! ### The order of the first two causes (R162) -/

theorem accept_misaligned {s : State} {vf size : Nat} {kind : AccKind} {poison : Bool} {rs : List LaneReq} {r : LaneReq}
    (first : (rs.filter fun q => !q.helper).find? (fun q => q.va % size ≠ 0) = some r) : s.accept vf kind size poison rs = .error (.trap .misalign r.va) := by
  unfold State.accept
  rw [firstReq_stops (p := fun q => decide (q.va % size ≠ 0)) (e := fun q => .trap .misalign q.va) (fun q _ _ => by simp) first]
  rfl

theorem accept_beyond {s : State} {vf size : Nat} {kind : AccKind} {poison : Bool} {rs : List LaneReq} {r : LaneReq}
    (aligned : ∀ q ∈ rs, q.helper = false → q.va % size = 0) (first : (rs.filter fun q => !q.helper).find? (fun q => 2 ^ 57 ≤ q.va) = some r) :
    s.accept vf kind size poison rs = .error (.trap .perm r.va) := by
  unfold State.accept
  rw [firstReq_pass fun q hq own => by simp [aligned q hq own],
    firstReq_stops (p := fun q => decide (2 ^ 57 ≤ q.va)) (e := fun q => .trap .perm q.va) (fun q _ _ => by simp) first]
  rfl

/-! ### Stops of an instruction's own part (R36, R342) -/

/-- The instruction's own part stops in state `s1` with `e`. -/
def Stops (i : Instr) (c : Ctl) (s1 : State) (e : Stop) : Prop := ∃ body, (fun s => exec i s) = runWith i c c.mark body ∧ body s1 = .error e

theorem Stops.of_instr {i : Instr} {c : Ctl} {s1 : State} {e : Stop} (body : State → M (State × Option RegWrite))
    (run : (fun s => exec i s) = runInstr i c body) (stops : body s1 = .error e) : Stops i c s1 e :=
  ⟨_, run, by simp only [stops, bind, Except.bind]⟩

/-- An instruction that stops does so at its own unit. -/
theorem Stops.at_unit {i : Instr} {c : Ctl} {s s1 : State} {e : Stop} (h : Stops i c s1 e) (hc : Clear i c c.mark s s1) :
    exec i s = s1.stopAt s1.cur.sel1 s1.cur.me.pc e := by
  obtain ⟨body, run, stops⟩ := h
  obtain ⟨sel, pc⟩ := State.takePark_at hc.2.2.1
  rw [show exec i s = runWith i c c.mark body s from congrFun run s, runWith_clear hc, stops, sel, pc]

end Sys2Proof.Machine
end

section
/-!
The causes that instructions raise at their own unit, one lemma for each check (R53, R102, R103, R108, R156, R163, R175 to R177, R182, R192 to R195, R203,
R212, R290, R303).
-/
set_option Elab.async false
namespace Sys2Proof.Machine
open Sys2Proof

/-! ### Accesses of global memory (R124, R160, R162, R164, R169) -/

section
variable {i : Instr} {c : Ctl} {s s1 : State} {e : Stop}

/-- An instruction whose accesses are not accepted stops with what acceptance answers. -/
theorem Accesses.stops {p : Path} {r : M (State × List LaneAcc)} (h : Accesses i c s1 p r) (free : s1.pathFree p = .ok ()) (hr : r = .error e) :
    Stops i c s1 e := by
  cases h with
  | ld _ o => refine .of_instr _ (by dsimp only [exec, execLd]) ?_; simp only [issueLoad, free, hr, bind, Except.bind]
  | lda _ o _ allowed => refine .of_instr _ (by dsimp only [exec, execLda]) ?_; simp only [allowed.check, issueLoad, Nat.mul_one, free, hr, bind, Except.bind]
  | sld _ o _ on => refine .of_instr _ (by dsimp only [exec, execSld]) ?_; simp only [free, on, if_true, hr, bind, Except.bind]
  | st _ o => refine .of_instr _ (by dsimp only [exec, execSt]) ?_; simp only [issueStore, free, hr, bind, Except.bind]
  | strl _ o _ allowed => refine .of_instr _ (by dsimp only [exec, execStrl]) ?_; simp only [allowed.check, issueStore, Nat.mul_one, free, hr, bind, Except.bind]
  | sst _ o _ on => refine .of_instr _ (by dsimp only [exec, execSst]) ?_; simp only [free, on, if_true, hr, bind, Except.bind]
  | atom _ o _ allowed => refine .of_instr _ (by dsimp only [exec, execAtom]) ?_; simp only [issueAtomic, allowed.check, free, hr, bind, Except.bind]
  | apost _ o _ allowed => refine .of_instr _ (by dsimp only [exec, execApost]) ?_; simp only [issueAtomic, allowed.check, free, hr, bind, Except.bind]
  | rpoll _ o _ aligned =>
    refine .of_instr _ (by dsimp only [exec, execRpoll]) ?_
    have base : ifActive s1.cur c (trapIf (decide ((s1.cur.uniA c o.a).toNat % 16 ≠ 0)) .misalign (s1.cur.uniA c o.a).toNat) = .ok () := by
      rcases aligned with off | whole
      · exact if_pos off
      · simp [ifActive, trapIf, whole]
    simp only [base, free, hr, bind, Except.bind]

/-! ### Branch targets (R53) -/

theorem checkTarget_bad {s : State} {t : Nat} (h : offHeader s t ∨ notHeader s t) : s.checkTarget t = .error (.trap .badTarget 0) := by
  unfold State.checkTarget
  rcases h with off | ⟨on, u, word, fetched, kind⟩
  · rw [if_pos]
    rcases off with odd | low | past
    · simp [odd]
    · simp [low]
    · simp [past]
  · rw [if_neg]
    · simp only [fetched, if_pos kind]
    · intro off
      simp only [Bool.or_eq_true, decide_eq_true_eq] at off
      exact on (by unfold offHeader; omega)

theorem OffsetForm.stops {imm : BitVec 27} (h : OffsetForm i c imm) (bad : s1.checkTarget (s1.cur.target imm) = .error e) : Stops i c s1 e := by
  cases h with
  | br => exact ⟨_, by dsimp only [exec, execBr], by simp only [bad, bind, Except.bind]⟩
  | brc => exact ⟨_, by dsimp only [exec, execBrc], by simp only [bad, bind, Except.bind]⟩
  | call => exact ⟨_, by dsimp only [exec, execCall], by simp only [bad, bind, Except.bind]⟩

theorem jmp_bad {a : Src} (bad : 2 ^ 32 ≤ (s1.cur.uniA c a).toNat ∨ offHeader s1 (s1.cur.uniA c a).toNat ∨ notHeader s1 (s1.cur.uniA c a).toNat) :
    Stops (.jmp c a) c s1 (.trap .badTarget 0) := by
  refine ⟨_, by dsimp only [exec, execJmp], ?_⟩
  by_cases range : 2 ^ 32 ≤ (s1.cur.uniA c a).toNat
  · simp only [trapIf, decide_eq_true range, if_true, bind, Except.bind]
  · simp only [trapIf, decide_eq_false range, Bool.false_eq_true, if_false, checkTarget_bad (bad.resolve_left range), bind, Except.bind]

theorem ret_bad (on : s1.cur.passes c = true) (clean : s1.cur.divTouched = false)
    (noFrame : ∀ e ∈ s1.cur.stack, ¬(e.isFrame = true ∧ e.parent = s1.cur.me.parent ∧ e.reconv &&& s1.cur.me.mask ≠ 0)) :
    Stops (.ret c) c s1 (.trap .badTarget 0) := by
  refine ⟨_, by dsimp only [exec, execRet], ?_⟩
  have none_ : s1.cur.stack.findIdx? (fun e => e.isFrame && e.parent = s1.cur.me.parent && e.reconv &&& s1.cur.me.mask ≠ 0) = none :=
    List.findIdx?_eq_none_iff.mpr fun e he => by simpa [and_assoc] using noFrame e he
  simp only [on, Bool.not_true, Bool.false_eq_true, if_false, Group.divGuard, clean, none_, bind, Except.bind]

/-- A `brc` whose lanes disagree comes to its reconvergence target, then to its room. -/
theorem brc_reconv {imm : BitVec 27} {s2 : State} (check : s1.checkTarget (s1.cur.target imm) = .ok s2) (split : disagrees s2.cur c)
    (rc : s2.cur.me.blk.rc ≠ 0) (bad : offHeader s2 (reconvOf s2.cur) ∨ notHeader s2 (reconvOf s2.cur)) :
    Stops (.brc c imm) c s1 (.trap .badTarget 0) := by
  obtain ⟨some_, notAll⟩ := split
  have target : s2.checkTarget (if (s2.cur.me.blk.hdr.toNat : Int) + s2.cur.me.blk.rc.toInt < 0 then 1
      else ((s2.cur.me.blk.hdr.toNat : Int) + s2.cur.me.blk.rc.toInt).toNat) = .error (.trap .badTarget 0) := checkTarget_bad bad
  refine ⟨_, by dsimp only [exec, execBrc], ?_⟩
  simp only [check, if_neg some_, if_neg notAll, if_neg rc, target, bind, Except.bind]

/-- There is no identifier, or no room, for a split (R22, R103). -/
theorem splitSlot_full {g : Group} {taken tgt next rcw : Word32}
    (full : (∀ n, 0 < n → n < 256 → (tget g.split n {}).valid = true) ∨
      256 < g.stack.length + (if g.me.reconv = noTarget then 0 else 1) + (if (g.slot (!g.sel1)).st = .empty then 0 else 1)) :
    (g.splitSlot g.sel1 taken tgt next rcw).isNone = true := by
  rw [← Option.not_isSome, Bool.not_eq_true', Group.splitSlot_isSome, Bool.and_eq_false_iff]
  rcases full with used | room
  · left
    cases free : g.freeSplit with
    | none => rfl
    | some n =>
      obtain ⟨pos, bound, unused⟩ := Group.freeSplit_spec free
      rw [used n pos bound] at unused
      cases unused
  · right
    refine decide_eq_false (Nat.not_le.2 ?_)
    simp only [Group.me] at room
    by_cases reconv : (g.slot g.sel1).reconv = noTarget <;> by_cases other : (g.slot (!g.sel1)).st = .empty <;> simp [reconv, other, b2n] at room ⊢ <;> omega

theorem brc_full {imm : BitVec 27} {s2 s3 : State} (check : s1.checkTarget (s1.cur.target imm) = .ok s2) (split : disagrees s2.cur c)
    (target : if s2.cur.me.blk.rc = 0 then s3 = s2 else s2.checkTarget (reconvOf s2.cur) = .ok s3) (clean : s2.cur.divTouched = false)
    (full : (∀ n, 0 < n → n < 256 → (tget s2.cur.split n {}).valid = true) ∨
      256 < s2.cur.stack.length + (if s2.cur.me.reconv = noTarget then 0 else 1) + (if (s2.cur.slot (!s2.cur.sel1)).st = .empty then 0 else 1)) :
    Stops (.brc c imm) c s1 (.trap .divergeDepth 0) := by
  obtain ⟨some_, notAll⟩ := split
  refine ⟨_, by dsimp only [exec, execBrc], ?_⟩
  simp only [check, if_neg some_, if_neg notAll, bind, Except.bind, Group.divGuard, clean, Bool.false_eq_true, if_false, splitSlot_full full, trapIf, if_true]
  split at target
  · rw [if_pos ‹_›]
    rfl
  · rw [if_neg ‹_›, show s2.checkTarget (if (s2.cur.me.blk.hdr.toNat : Int) + s2.cur.me.blk.rc.toInt < 0 then 1
      else ((s2.cur.me.blk.hdr.toNat : Int) + s2.cur.me.blk.rc.toInt).toNat) = .ok s3 from target]

theorem call_full {imm : BitVec 27} {s2 : State} (check : s1.checkTarget (s1.cur.target imm) = .ok s2) (on : s2.cur.passes c = true)
    (clean : s2.cur.divTouched = false) (full : 256 ≤ s2.cur.stack.length) : Stops (.call c imm) c s1 (.trap .divergeDepth 0) := by
  refine ⟨_, by dsimp only [exec, execCall], ?_⟩
  simp only [check, on, Bool.not_true, Bool.false_eq_true, if_false, Group.divGuard, clean, trapIf, decide_eq_true full, if_true, bind, Except.bind]

/-! ### Tiles (R162, R163, R176) -/

theorem Unfit.stops {s : State} {wg h : Nat} {kind : TKind} {cause : Cause} (u : Unfit (s.handle wg h) kind cause) :
    s.tileOf wg h kind = .error (.trap cause 0) := by
  unfold State.tileOf
  cases u with
  | free still st => rcases st with st | st <;> simp only [still, st, Option.isSome_none, Bool.false_eq_true, if_false]
  | kind still st other => simp only [still, st, Option.isSome_none, Bool.false_eq_true, if_false, if_neg other]
  | failed still st => simp only [still, st, Option.isSome_none, Bool.false_eq_true, if_false]

theorem tileUsable.found {s : State} {wg h : Nat} {kind : TKind} (u : tileUsable (s.handle wg h) kind) : s.tileOf wg h kind = .ok (s.handle wg h) := by
  obtain ⟨still, st, same⟩ := u
  unfold State.tileOf
  simp only [still, st, Option.isSome_none, Bool.false_eq_true, if_false, if_pos same]

/-- A handle name that finds no tile stops the instruction. -/
theorem NoTile.stops {s : State} {h : Nat} {kind : TKind} {peer : Option (BitVec 2)} {cause : Cause} (n : NoTile s h kind peer cause) :
    s.tileNamed h peer kind = .error (.trap cause 0) := by
  unfold State.tileNamed
  cases n with
  | own _ unfit => simp only [unfit.stops, bind, Except.bind]
  | far n beyond => simp only [if_pos beyond]
  | gone n inside ended => simp only [if_neg (Nat.not_le.2 inside), ended]
  | peer n k _ inside there unfit => simp only [if_neg (Nat.not_le.2 inside), there, unfit.stops, bind, Except.bind]
  | level n k inside there usable own notBarrier =>
    simp only [if_neg (Nat.not_le.2 inside), there, usable.found, own, bind, Except.bind]
    simp [notBarrier]

theorem laneTile_on {s : State} (on : s.cur.active c ≠ 0) (h : BitVec 8) (peer : Option (BitVec 2)) (kind : TKind) :
    s.laneTile c h peer kind = s.tileNamed (s.cur.rA c h) peer kind := if_neg on

/-- The active lanes of a group, as a list, are not empty. -/
theorem lanesOf_ne_nil {m : Word32} (h : m ≠ 0) : (lanesOf m).isEmpty = false := by
  rw [List.isEmpty_eq_false_iff]
  refine fun empty => h (BitVec.eq_of_getLsbD_eq fun l hl => ?_)
  have none_ := List.filter_eq_nil_iff.mp (show laneList.filter (lane m) = [] from empty) l (by simpa [laneList] using hl)
  simpa [lane] using none_

theorem LaneTileForm.stops {h : BitVec 8} {peer : Option (BitVec 2)} {kind : TKind} {p : Option Path} (form : LaneTileForm i c h peer kind p)
    (on : s1.cur.active c ≠ 0) (free : ∀ q, p = some q → s1.pathFree q = .ok ()) (bad : s1.tileNamed (s1.cur.rA c h) peer kind = .error e) :
    Stops i c s1 e := by
  cases form with
  | ldt => refine .of_instr _ (by dsimp only [exec, execLdt]) ?_; simp only [free _ rfl, laneTile_on on, bad, bind, Except.bind]
  | stt => refine .of_instr _ (by dsimp only [exec, execStt]) ?_; simp only [free _ rfl, laneTile_on on, bad, bind, Except.bind]
  | append => refine .of_instr _ (by dsimp only [exec, execAppend]) ?_; simp only [free _ rfl, laneTile_on on, bad, bind, Except.bind]
  | ringPush =>
    refine .of_instr _ (by dsimp only [exec, execRingPush]) ?_
    simp only [lanesOf_ne_nil on, Bool.false_eq_true, if_false, bad, bind, Except.bind]
  | ringPop =>
    refine .of_instr _ (by dsimp only [exec, execRingPop]) ?_
    simp only [lanesOf_ne_nil on, Bool.false_eq_true, if_false, bad, bind, Except.bind]

/-- A tile access whose lane checks fail stops. -/
theorem TileAccessForm.stops {o : TileOp} {p : Path} {wg : Nat} {t : Handle} (form : TileAccessForm i c o p) (on : s1.cur.active c ≠ 0)
    (free : s1.pathFree p = .ok ()) (found : s1.tileNamed (s1.cur.rA c o.h) o.peer .data = .ok (wg, t))
    (bad : ∀ helpers poison, tileAccs t (tyBytes o.ty * o.cnt.num) poison (s1.cur.laneReqs c helpers fun l => s1.cur.tileOff c o.b o.off l) = .error e) :
    Stops i c s1 e := by
  cases form with
  | ldt => refine .of_instr _ (by dsimp only [exec, execLdt]) ?_; simp only [free, laneTile_on on, found, bad, bind, Except.bind]
  | stt => refine .of_instr _ (by dsimp only [exec, execStt]) ?_; simp only [free, laneTile_on on, found, bad, bind, Except.bind]

end

end Sys2Proof.Machine
end

section
/-!
Lanes outside a tile and poisoned words, barriers, accumulators, handles, rings, scopes and rights: the other causes of an instruction's own unit.
-/
set_option Elab.async false
namespace Sys2Proof.Machine
open Sys2Proof

/-! ### Lane checks of tile accesses (R163, R397) -/

/-- The requests of the active lanes of an access. -/
theorem laneReqs_active (g : Group) (c : Ctl) (helpers : Bool) (va : Nat → Nat) :
    ((g.laneReqs c helpers va).filter fun r => !r.helper) = (lanesOf (g.active c)).map fun l => { lane := l, va := va l } := by
  rw [Group.laneReqs, Group.accLanes, lanesOf, List.map_filterMap]
  generalize (if helpers then g.helpersFor c else 0) = others
  induction laneList with
  | nil => rfl
  | cons l ls ih =>
    rw [List.filterMap_cons, List.filter_cons]
    cases on : lane (g.active c) l with
    | true => simp [ih]
    | false => cases helper : lane others l <;> simp [ih]

/-- The first active lane of an access whose address a check answers. -/
theorem laneReqs_first {g : Group} {c : Ctl} {helpers : Bool} {va : Nat → Nat} {p : Nat → Bool} {l : Nat} (on : lane (g.active c) l = true) (hl : l < 32)
    (answers : p (va l) = true) (first : ∀ k < l, lane (g.active c) k = true → p (va k) = false) :
    ((g.laneReqs c helpers va).filter fun r => !r.helper).find? (fun r => p r.va) = some { lane := l, va := va l } := by
  rw [laneReqs_active, List.find?_map, lanesOf, List.find?_filter, laneList]
  rw [List.find?_range_eq_some.mpr ⟨by simp [on, answers], List.mem_range.mpr hl, fun k hk => ?_⟩]
  · rfl
  · cases active : lane (g.active c) k with
    | true => simp [first k hk active]
    | false => simp

/-- A request of an active lane is one of an active lane. -/
theorem laneReqs_own {g : Group} {c : Ctl} {helpers : Bool} {va : Nat → Nat} {r : LaneReq} (hr : r ∈ g.laneReqs c helpers va) (own : r.helper = false) :
    ∃ l < 32, lane (g.active c) l = true ∧ r.va = va l := by
  have mem : r ∈ (g.laneReqs c helpers va).filter fun r => !r.helper := List.mem_filter.mpr ⟨hr, by simp [own]⟩
  rw [laneReqs_active] at mem
  obtain ⟨l, hl, rfl⟩ := List.mem_map.mp mem
  obtain ⟨listed, on⟩ := List.mem_filter.mp hl
  exact ⟨l, List.mem_range.mp listed, on, rfl⟩

section
variable {g : Group} {c : Ctl} {helpers poison : Bool} {va : Nat → Nat} {t : Handle} {n l : Nat}

theorem tileAccs_bounds (on : lane (g.active c) l = true) (hl : l < 32) (out : t.size < va l + n)
    (first : ∀ k < l, lane (g.active c) k = true → va k + n ≤ t.size) :
    tileAccs t n poison (g.laneReqs c helpers va) = .error (.trap .tileBounds (va l)) := by
  unfold tileAccs
  rw [firstReq_stops (p := fun r => decide (t.size < r.va + n)) (e := fun r => .trap .tileBounds r.va) (fun q _ _ => by simp)
    (laneReqs_first (p := fun a => decide (t.size < a + n)) on hl (decide_eq_true out) fun k hk active => decide_eq_false (Nat.not_lt.2 (first k hk active)))]
  rfl

theorem tileAccs_poison (on : lane (g.active c) l = true) (hl : l < 32)
    (inside : ∀ k < 32, lane (g.active c) k = true → va k + n ≤ t.size ∧ va k % n = 0) (bad : t.poisoned (va l) n = true)
    (first : ∀ k < l, lane (g.active c) k = true → t.poisoned (va k) n = false) :
    tileAccs t n true (g.laneReqs c helpers va) = .error (.poison 0 (va l)) := by
  have placed : ∀ r ∈ g.laneReqs c helpers va, r.helper = false → r.va + n ≤ t.size ∧ r.va % n = 0 := fun r hr own => by
    obtain ⟨k, hk, active, at_⟩ := laneReqs_own hr own
    rw [at_]
    exact inside k hk active
  unfold tileAccs
  rw [firstReq_pass fun r hr own => if_neg (Nat.not_lt.2 (placed r hr own).1), firstReq_pass fun r hr own => if_neg (not_not.mpr (placed r hr own).2),
    firstReq_stops (p := fun r => t.poisoned r.va n) (e := fun r => .poison 0 r.va) (fun q _ _ => by simp)
      (laneReqs_first (p := fun a => t.poisoned a n) on hl bad first)]
  rfl

end

section
variable {i : Instr} {c : Ctl} {s s1 s2 : State} {e : Stop}

/-- R163, R397: the instructions that read a tile stop at the first poisoned bytes. -/
theorem ReadsPoison.stops {addr : Nat} (h : ReadsPoison i c s1 addr) : Stops i c s1 (.poison 0 addr) := by
  cases h with
  | ldt _ o _ wg t l on free found active hl inside bad first =>
    refine .of_instr _ (by dsimp only [exec, execLdt]) ?_
    simp only [free, laneTile_on on, found, tileAccs_poison active hl inside bad first, bind, Except.bind]
  | append _ o _ wg t on free found bad =>
    refine .of_instr _ (by dsimp only [exec, execAppend]) ?_
    simp only [free, laneTile_on on, found, ifActive, if_neg on, bad, if_true, bind, Except.bind]

/-! ### Barriers (R192 to R195) -/

theorem TileBar.stops {b : BarRef} {h : BitVec 8} {peer : Option (BitVec 2)} {cause : Cause} (name : TileBar b h peer)
    (bad : NoTile s1 (s1.cur.rA c h) .barrier peer cause) : s1.barAt c b = .error (.trap cause 0) := by
  cases name <;> simp only [State.barAt, bad.stops, bind, Except.bind]

theorem barArmed_unarmed {b : BarRef} {l : BarLoc} (found : s1.barAt c b = .ok (s2, l)) (unarmed : (s2.readBar l).unarmed = true) :
    s1.barArmed c b = .error (.trap .barrierState 0) := by
  simp only [State.barArmed, found, unarmed, trapIf, if_true, bind, Except.bind]

theorem barArmed_lost {b : BarRef} (bad : s1.barAt c b = .error e) : s1.barArmed c b = .error e := by simp only [State.barArmed, bad, bind, Except.bind]

/-- An instruction that needs a barrier stops where it finds none. -/
theorem BarrierForm.stops {b : BarRef} {lanes : Bool} (form : BarrierForm i c b lanes)
    (acts : if lanes then s1.cur.active c ≠ 0 else s1.cur.passes c = true) (bad : s1.barArmed c b = .error e) : Stops i c s1 e := by
  cases form with
  | tbarArv =>
    refine .of_instr _ (by dsimp only [exec, execTbarArv]) ((groupLevel_passes acts _).trans ?_); simp only [issueArrival, bad, bind, Except.bind]
  | tbarExp _ o =>
    refine .of_instr _ (by dsimp only [exec, execTbarExp]) ((groupLevel_passes acts _).trans ?_); simp only [issueArrival, bad, bind, Except.bind]
  | tbarExpArv _ o =>
    refine .of_instr _ (by dsimp only [exec, execTbarExpArv]) ((groupLevel_passes acts _).trans ?_); simp only [issueArrival, bad, bind, Except.bind]
  | tbarInval =>
    refine .of_instr _ (by dsimp only [exec, execTbarInval]) ((groupLevel_passes acts _).trans ?_); simp only [bad, bind, Except.bind]
  | tbarTestPh _ o =>
    have on : s1.cur.active c ≠ 0 := acts
    refine .of_instr _ (by dsimp only [exec, execTbarTestPh]) ?_; simp only [if_neg on, bad, bind, Except.bind]
  | tbarTestBrk _ o =>
    have on : s1.cur.active c ≠ 0 := acts
    refine .of_instr _ (by dsimp only [exec, execTbarTestBrk]) ?_; simp only [if_neg on, bad, bind, Except.bind]

theorem tbarWait_unarmed {o : BarPar} {l : BarLoc} (on : s1.cur.passes c = true) (fresh : s1.cur.me.tw = none) (found : s1.barAt c o.bar = .ok (s2, l))
    (unarmed : (s2.readBar l).unarmed = true) : Stops (.tbarWait c o) c s1 (.trap .barrierState 0) := by
  refine .of_instr _ (by dsimp only [exec, execTbarWait]) ((groupLevel_passes on _).trans ?_)
  simp only [fresh, barArmed_unarmed found unarmed, bind, Except.bind]

theorem tbarInit_refused {o : BarB} {l : BarLoc} (on : s1.cur.passes c = true) (found : s1.barAt c o.bar = .ok (s2, l))
    (bad : (s2.cur.uniB c o.b).toNat = 0 ∨ 2 ^ 32 ≤ (s2.cur.uniB c o.b).toNat ∨ (s2.readBar l).armed = true) :
    Stops (.tbarInit c o) c s1 (.trap .barrierState 0) := by
  refine .of_instr _ (by dsimp only [exec, execTbarInit]) ((groupLevel_passes on _).trans ?_)
  have refused : (decide ((s2.cur.uniB c o.b).toNat = 0) || decide (2 ^ 32 ≤ (s2.cur.uniB c o.b).toNat) || (s2.readBar l).armed) = true := by
    simpa [or_assoc] using bad
  simp only [found, refused, trapIf, if_true, bind, Except.bind]

/-! ### Accumulators (R203, R212) -/

theorem mxreq_bound {d : BitVec 8} (on : s1.cur.passes c = true) (bound : (s1.cur.accName (s1.cur.rD c d)).bound = true) :
    Stops (.mxreq c d) c s1 (.trap .mxReserve 0) := by
  refine .of_instr _ (by dsimp only [exec, execMxreq]) ((groupLevel_passes on _).trans ?_)
  simp only [bound, trapIf, if_true, bind, Except.bind]

theorem mxrel_free {d : BitVec 8} (on : s1.cur.passes c = true) (free : (s1.cur.accName (s1.cur.rD c d)).bound = false) :
    Stops (.mxrel c d) c s1 (.trap .mxReserve 0) := by
  refine .of_instr _ (by dsimp only [exec, execMxrel]) ((groupLevel_passes on _).trans ?_)
  simp only [free, Bool.not_false, trapIf, if_true, bind, Except.bind]

/-- An instruction that raises its path's counter goes on to its own part where a lane passes its guard and the counter has room. -/
theorem counted_on {p : Path} (on : s1.cur.passes c = true) (room : s1.pathFree p = .ok ()) (body : State → M (State × Option RegWrite)) :
    counted c p body s1 = body s1 := by
  simp only [counted, room, on, if_true, bind, Except.bind]

theorem mxzero_free {d : BitVec 8} (on : s1.cur.passes c = true) (room : s1.pathFree .mx = .ok ())
    (free : (s1.cur.accName (s1.cur.rD c d)).bound = false) : Stops (.mxzero c d) c s1 (.trap .mxReserve 0) := by
  refine .of_instr _ (by dsimp only [exec, execMxzero]) ((counted_on on room _).trans ?_)
  simp only [free, Bool.not_false, trapIf, if_true, bind, Except.bind]

theorem mxmma_free {o : MxMma} (on : s1.cur.passes c = true) (room : s1.pathFree .mx = .ok ())
    (free : (s1.cur.accName (s1.cur.rD c o.d)).bound = false) : Stops (.mxmma c o) c s1 (.trap .mxReserve 0) := by
  refine .of_instr _ (by dsimp only [exec, execMxmma]) ((counted_on on room _).trans ?_)
  simp only [free, Bool.not_false, trapIf, if_true, bind, Except.bind]

theorem mxdrn_spent {o : MxDrn} (on : s1.cur.active c ≠ 0) (room : s1.pathFree .mx = .ok ())
    (bad : let a := s1.cur.accName (idxReg c.idxA o.a s1.cur.x); a.bound = false ∨ 64 ≤ a.cur) : Stops (.mxdrn c o) c s1 (.trap .mxReserve 0) := by
  refine .of_instr _ (by dsimp only [exec, execMxdrn]) ?_
  have spent : (!(s1.cur.accName (idxReg c.idxA o.a s1.cur.x)).bound || decide (64 ≤ (s1.cur.accName (idxReg c.idxA o.a s1.cur.x)).cur)) = true := by
    simpa using bad
  simp only [room, ifActive, if_neg on, spent, trapIf, if_true, bind, Except.bind]

/-! ### Handles and rings (R175 to R177, R290) -/

theorem talloc_taken {o : TAlloc} (on : s1.cur.passes c = true)
    (taken : let t := s1.handle s1.cur.wg (s1.cur.rD c o.h); t.st = .allocated ∨ t.st = .freeing ∨ t.prog.isSome = true) :
    Stops (.talloc c o) c s1 (.trap .tileKind 0) := by
  refine .of_instr _ (by dsimp only [exec, execTalloc]) ((groupLevel_passes on _).trans ?_)
  have taken : (decide ((s1.handle s1.cur.wg (s1.cur.rD c o.h)).st = .allocated) || decide ((s1.handle s1.cur.wg (s1.cur.rD c o.h)).st = .freeing) ||
      (s1.handle s1.cur.wg (s1.cur.rD c o.h)).prog.isSome) = true := by
    simpa [or_assoc] using taken
  simp only [taken, trapIf, if_true, bind, Except.bind]

theorem talloc_shape {o : TAlloc} (on : s1.cur.passes c = true)
    (free : let t := s1.handle s1.cur.wg (s1.cur.rD c o.h); (t.st = .free ∨ t.st = .failed) ∧ t.prog = none)
    (bad : shapeOk o.kind (s1.cur.uniA c o.a) = false) : Stops (.talloc c o) c s1 (.trap .tileBounds 0) := by
  refine .of_instr _ (by dsimp only [exec, execTalloc]) ((groupLevel_passes on _).trans ?_)
  obtain ⟨st, still⟩ := free
  rcases st with st | st <;> simp only [st, still, bad, trapIf, bind, Except.bind] <;> rfl

theorem tfree_free {h : BitVec 8} (on : s1.cur.passes c = true)
    (free : let t := s1.handle s1.cur.wg (s1.cur.rA c h); t.prog = none ∧ (t.st = .free ∨ t.st = .freeing)) :
    Stops (.tfree c h) c s1 (.trap .tileKind 0) := by
  refine .of_instr _ (by dsimp only [exec, execTfree]) ((groupLevel_passes on _).trans ?_)
  obtain ⟨still, st⟩ := free
  rcases st with st | st <;> simp only [st, still, trapIf, bind, Except.bind] <;> rfl

theorem ringPush_small {o : RingPush} {k : Nat} {t : Handle} (on : s1.cur.active c ≠ 0) (found : s1.tileNamed (s1.cur.rA c o.h) o.peer .ring = .ok (k, t))
    (small : t.rows < (lanesOf (s1.cur.active c)).length) : Stops (.ringPush c o) c s1 (.trap .tileBounds 0) := by
  refine .of_instr _ (by dsimp only [exec, execRingPush]) ?_
  simp only [lanesOf_ne_nil on, Bool.false_eq_true, if_false, found, decide_eq_true small, trapIf, if_true, bind, Except.bind]

/-! ### Scopes and rights (R182, R303) -/

theorem scopeOk_denied {bit : Nat} (denied : (s1.vf s1.cur.vf).spol.getLsbD bit = false) : s1.scopeOk .s bit = .error (.trap .scopeDenied 0) := by
  simp only [State.scopeOk, denied, trapIf]
  rfl

theorem ScopedForm.stops {sc : Scope} {bit : Nat} (form : ScopedForm i c sc bit) (on : s1.cur.active c ≠ 0) (bad : s1.scopeOk sc bit = .error e) :
    Stops i c s1 e := by
  have check : ifActive s1.cur c (s1.scopeOk sc bit) = .error e := (if_neg on).trans bad
  cases form with
  | lda _ o => refine .of_instr _ (by dsimp only [exec, execLda]) ?_; simp only [check, bind, Except.bind]
  | strl _ o => refine .of_instr _ (by dsimp only [exec, execStrl]) ?_; simp only [check, bind, Except.bind]
  | atom _ o => refine .of_instr _ (by dsimp only [exec, execAtom]) ?_; simp only [issueAtomic, check, bind, Except.bind]
  | apost _ o => refine .of_instr _ (by dsimp only [exec, execApost]) ?_; simp only [issueAtomic, check, bind, Except.bind]
  | ratom _ o => refine .of_instr _ (by dsimp only [exec, execRatom]) ?_; simp only [check, bind, Except.bind]

theorem fence_denied {o : Fence} (on : s1.cur.passes c = true) (sys : o.scope = .s) (denied : (s1.vf s1.cur.vf).spol.getLsbD 2 = false) :
    Stops (.fence c o) c s1 (.trap .scopeDenied 0) := by
  refine .of_instr _ (by dsimp only [exec, execFence]) ((groupLevel_passes on _).trans ?_)
  simp only [sys, scopeOk_denied denied, bind, Except.bind]

theorem issueCopy_denied (shape : CopyOp × Bool) (d : BitVec 8) (bar ack : Option (BitVec 8)) (wgs : Option (List Nat)) (low : Bool)
    (no : s1.cur.gid ≠ s1.cur.producer ∨ s1.cur.producer = 0xFF) : issueCopy c shape d bar ack wgs low s1 = .error (.trap .copyRights 0) := by
  have refused : (decide (s1.cur.gid ≠ s1.cur.producer) || decide (s1.cur.producer = 0xFF)) = true := by simpa using no
  simp only [issueCopy, refused, trapIf, if_true, bind, Except.bind]

theorem IsCopy.stops (form : IsCopy i c) (on : s1.cur.passes c = true) (room : s1.pathFree .copy = .ok ())
    (no : s1.cur.gid ≠ s1.cur.producer ∨ s1.cur.producer = 0xFF) : Stops i c s1 (.trap .copyRights 0) := by
  cases form with
  | cpyIn _ o => refine .of_instr _ (by dsimp only [exec, execCpyIn]) ((counted_on on room _).trans ?_); exact issueCopy_denied _ _ _ _ _ _ no
  | cpyOut _ o => refine .of_instr _ (by dsimp only [exec, execCpyOut]) ((counted_on on room _).trans ?_); exact issueCopy_denied _ _ _ _ _ _ no
  | cpyWin _ o => refine .of_instr _ (by dsimp only [exec, execCpyWin]) ((counted_on on room _).trans ?_); exact issueCopy_denied _ _ _ _ _ _ no
  | cpyMc _ o => refine .of_instr _ (by dsimp only [exec, execCpyMc]) ((counted_on on room _).trans ?_); exact issueCopy_denied _ _ _ _ _ _ no

/-! ### All causes -/

/-- Each cause stops its instruction at its own unit. -/
theorem Raises.stops {cause : Cause} {addr : Nat} (h : Raises i c s1 cause addr) : Stops i c s1 (.trap cause addr) := by
  cases h with
  | target _ _ imm _ form bad => exact form.stops (checkTarget_bad bad)
  | jmp _ a _ bad => exact jmp_bad bad
  | ret _ _ on clean noFrame => exact ret_bad on clean noFrame
  | reconv _ imm _ s2 check split rc bad => exact brc_reconv check split rc bad
  | split _ imm _ s2 s3 check split target clean full => exact brc_full check split target clean full
  | call _ imm _ s2 check on clean full => exact call_full check on clean full
  | mxreq _ d _ on bound => exact mxreq_bound on bound
  | mxrel _ d _ on free => exact mxrel_free on free
  | mxzero _ d _ on room free => exact mxzero_free on room free
  | mxmma _ o _ on room free => exact mxmma_free on room free
  | mxdrn _ o _ on room bad => exact mxdrn_spent on room bad
  | laneTile _ _ h peer kind p _ _ form on free bad => exact form.stops on free bad.stops
  | bounds _ _ o p _ wg t l form on free found active hl out first =>
    exact form.stops on free found fun helpers poison => tileAccs_bounds active hl out first
  | tbarTile _ _ b lanes h peer _ _ form name acts bad => exact form.stops acts (barArmed_lost (name.stops bad))
  | unarmed _ _ b lanes _ s2 l form acts found unarmed => exact form.stops acts (barArmed_unarmed found unarmed)
  | waitUnarmed _ o _ s2 l on fresh found unarmed => exact tbarWait_unarmed on fresh found unarmed
  | init _ o _ s2 l on found bad => exact tbarInit_refused on found bad
  | talloc _ o _ on taken => exact talloc_taken on taken
  | shape _ o _ on free bad => exact talloc_shape on free bad
  | tfree _ h _ on free => exact tfree_free on free
  | ringFull _ o _ k t on found small => exact ringPush_small on found small
  | scope _ _ sc bit _ form on sys denied => exact form.stops on (by rw [sys]; exact scopeOk_denied denied)
  | fence _ o _ on sys denied => exact fence_denied on sys denied
  | rights _ _ _ form on room no => exact form.stops on room no

end

/-- A lost line that no window serves is not noted. -/
theorem logLost_zero (s : State) : s.logLost 0 = s := by
  unfold State.logLost
  rw [show isWindow 0 = false from by decide, Bool.false_and, if_neg Bool.false_ne_true]

@[simp] theorem logLost_cur (s : State) (a : Nat) : (s.logLost a).cur = s.cur := by
  unfold State.logLost
  split
  · exact State.logError_cur ..
  · rfl

/-- Settles O10: acceptance by the lines that the L2 holds, and what stops an instruction. -/
theorem accessChecks : Obligations.AccessChecks := by
  unfold Obligations.AccessChecks
  refine ⟨fun s vf size kind poison rs loc att h => ?_, fun s vf size kind poison rs r => ⟨accept_misaligned, accept_beyond⟩,
    fun s vf size kind poison rs loc att r h => ?_, fun i c s s1 p r h free hc => ?_, fun i c s s1 cause addr h hc => h.stops.at_unit hc,
    fun i c s s1 addr h hc => ?_⟩
  · have held : HeldLanes s vf size rs loc att := fun r hr => by
      obtain ⟨own, aligned, below, l, found, attr, -, place, -⟩ := h r hr
      exact ⟨own, aligned, below, l, found, attr, place⟩
    refine held.accepts (fun r hr => ?_) fun r hr => ?_
    · obtain ⟨-, -, -, l, -, -, may, -⟩ := h r hr
      exact may
    · obtain ⟨-, -, -, l, -, -, -, -, sound⟩ := h r hr
      exact sound
  · have held : HeldLanes s vf size rs loc att := h
    refine ⟨held.denied poison, fun may bad first => ?_⟩
    rw [bad]
    exact held.poisons may first
  · refine ⟨fun cause va hr => (h.stops free hr).at_unit hc, fun st page kind va hr => (h.stops free hr).at_unit hc,
      fun entry va hr => ((h.stops free hr).at_unit hc).trans ?_, fun line va hr => ((h.stops free hr).at_unit hc).trans ?_⟩
    · simp only [State.stopAt, State.traps, State.logError_cur]
    · simp only [State.stopAt, State.traps, State.logError_cur, logLost_cur]
  · refine (h.stops.at_unit hc).trans ?_
    simp only [State.stopAt, State.traps, State.logError_cur, Nat.mul_zero, logLost_zero]

end Sys2Proof.Machine
end

section
/-!
Flits and control frames of links, their buffers, timeouts and training (R172, R426 to R429).
-/
set_option Elab.async false
namespace Sys2Proof.Machine
open Sys2Proof

/-! ### Links by their number -/

namespace State

theorem link_updLink_self (s : State) {k : Nat} (hk : k < 5) (f : Link → Link) : (s.updLink k f).link k = f (s.link k) := tget_tset_self _ _ _ _ hk

theorem link_updLink_ne (s : State) {k j : Nat} (h : j ≠ k) (f : Link → Link) : (s.updLink k f).link j = s.link j := tget_tset_ne _ _ _ _ _ h.symm

end State

/-! ### What sending leaves of a link (R426, R427) -/

namespace Link

/-- A link but for its numbering, its replay buffer, the bytes that wait for a flit, what is on the wire and the posted writes that wait for an
acknowledgement. -/
def idle (l : Link) : Link := { l with txSeq := 0, buf := [], tx := tableOf 3 [], wire := [], unacked := [] }

theorem emit_idle (l : Link) (ch : Nat) (body : List Byte) : (l.emit ch body).idle = l.idle := rfl

theorem pack_idle (ch : Nat) : ∀ (n : Nat) (l : Link), (l.pack ch n).idle = l.idle
  | 0, _ => rfl
  | n + 1, l => by
    unfold pack
    dsimp only
    split
    · rfl
    · exact pack_idle ch n _

theorem start_idle (l : Link) (ch : Nat) (p : Port) : (l.start ch p).idle = { l.idle with out := l.out ++ [p] } :=
  pack_idle ch _ { l with tx := tset l.tx ch (tget l.tx ch [] ++ tlpOf p), out := l.out ++ [p] }

theorem drain_idle (l : Link) : l.drain.idle = l.idle := by
  have step (l : Link) (ch : Nat) : (match tget l.tx ch [] with
      | [] => l
      | b => ({ l with tx := tset l.tx ch [] } : Link).emit ch b).idle = l.idle := by
    split <;> rfl
  unfold drain
  generalize List.range 3 = chs
  induction chs generalizing l with
  | nil => rfl
  | cons ch chs ih => exact (ih _).trans (step l ch)

theorem idle_sent (l : Link) : l.idle.sent = l.sent := rfl
theorem idle_rxPaused (l : Link) : l.idle.rxPaused = l.rxPaused := rfl
theorem drain_sent (l : Link) : l.drain.sent = l.sent := by rw [← idle_sent, drain_idle, idle_sent]
theorem drain_rxPaused (l : Link) : l.drain.rxPaused = l.rxPaused := by rw [← idle_rxPaused, drain_idle, idle_rxPaused]

/-- The one transaction that waits on a channel that may go starts. -/
theorem flush_one {l : Link} {ch : Nat} {p : Port} (up : l.state = 2) (free : tget l.txPaused ch false = false) (waits : l.held = [(ch, p)]) :
    l.flush.idle = { l.idle with held := [], out := l.out ++ [p] } := by
  have goes : ({ l with held := [] } : Link).send ch p = ({ l with held := [] } : Link).start ch p := by
    unfold send
    rw [if_pos (by simp [up, free])]
  unfold flush
  rw [waits, List.foldl_cons, List.foldl_nil, goes, start_idle]
  rfl

/-! ### Flow control (R427) -/

/-- A channel pauses where its buffer has less free space than its threshold, and resumes at twice that. -/
theorem flow_pauses {l : Link} {ch : Nat} (off : tget l.rxPaused ch false = false) (low : l.room ch < pauseBelow ch) :
    l.flow ch = { l with rxPaused := tset l.rxPaused ch true }.control 0 ch := by
  unfold flow
  simp only [off, decide_eq_true low, Bool.not_false, Bool.true_and, if_true]

theorem flow_goes_on {l : Link} {ch : Nat} (off : tget l.rxPaused ch false = false) (free : pauseBelow ch ≤ l.room ch) : l.flow ch = l := by
  unfold flow
  simp only [off, decide_eq_false (Nat.not_lt.2 free), Bool.and_false, Bool.false_and, Bool.false_eq_true, if_false]

theorem flow_resumes {l : Link} {ch : Nat} (on : tget l.rxPaused ch false = true) (free : 2 * pauseBelow ch ≤ l.room ch) :
    l.flow ch = { l with rxPaused := tset l.rxPaused ch false }.control 1 ch := by
  unfold flow
  simp only [on, decide_eq_true free, Bool.not_true, Bool.false_and, Bool.false_eq_true, Bool.true_and, if_false, if_true]

theorem flow_waits {l : Link} {ch : Nat} (on : tget l.rxPaused ch false = true) (low : l.room ch < 2 * pauseBelow ch) : l.flow ch = l := by
  unfold flow
  simp only [on, decide_eq_false (Nat.not_le.2 low), Bool.not_true, Bool.false_and, Bool.and_false, Bool.false_eq_true, if_false]

/-- Flow control sends at most one control flit, and leaves the receiving side but for its pauses. -/
theorem flow_keeps (l : Link) (ch : Nat) : (l.flow ch).rxSeq = l.rxSeq ∧ (l.flow ch).rx = l.rx ∧ (∀ x ∈ l.sent, x ∈ (l.flow ch).sent) ∧
    ∀ x ∈ l.wire, x ∈ (l.flow ch).wire := by
  unfold flow
  dsimp only
  split
  · exact ⟨rfl, rfl, fun _ => List.mem_append_left _, fun _ => List.mem_append_left _⟩
  · split
    · exact ⟨rfl, rfl, fun _ => List.mem_append_left _, fun _ => List.mem_append_left _⟩
    · exact ⟨rfl, rfl, fun _ h => h, fun _ h => h⟩

theorem room_of_not_full {l : Link} {ch : Nat} (h : (ch = 1 && decide (1024 ≤ l.aq.length)) = false) : l.room ch = bufferBytes ch - (tget l.rx ch []).length := by
  unfold room
  rw [h, if_neg Bool.false_ne_true]

theorem room_le (l : Link) (ch : Nat) : l.room ch ≤ bufferBytes ch - (tget l.rx ch []).length := by
  unfold room
  split
  · exact Nat.zero_le _
  · exact le_rfl

theorem pauseBelow_pos (ch : Nat) : 0 < pauseBelow ch := by
  unfold pauseBelow
  split <;> decide

end Link

/-! ### Data flits (R426, R427) -/

section
variable {s : State}

/-- What the receiver looks at first: the flit is a data flit of a channel, with 246 bytes, on a link that is UP. -/
def DataFlit (s : State) : Prop :=
  s.port.link < 5 ∧ (s.link s.port.link).state = 2 ∧ s.port.flit.ctrl.toNat < 3 ∧ s.port.flit.body.length = 246

theorem DataFlit.receive (h : DataFlit s) :
    execFlitReceive s =
      if s.port.flit.crc ≠ flitSum s.port.flit then .next (s.updLink s.port.link fun l => l.control 3 l.rxSeq)
      else if s.port.flit.seq.toNat % 1024 ≠ (s.link s.port.link).rxSeq then .next s
      else if (s.link s.port.link).room (s.port.flit.ctrl.toNat % 4) < 246 then .next (s.failLink s.port.link)
      else .next (s.updLink s.port.link fun l =>
        ({ l with rxSeq := (l.rxSeq + 1) % 1024,
                  rx := tset l.rx (s.port.flit.ctrl.toNat % 4) (unpad (tget l.rx (s.port.flit.ctrl.toNat % 4) [] ++ s.port.flit.body)) }.control 2
          (s.port.flit.seq.toNat % 1024)).flow (s.port.flit.ctrl.toNat % 4)) := by
  obtain ⟨link, up, channel, size⟩ := h
  have body : (s.port.flit.body ++ List.replicate 246 0).take 246 = s.port.flit.body := List.take_left' size
  have data : (decide (5 ≤ s.port.link) || decide ((s.link s.port.link).state ≠ 2) || decide (s.port.flit.ctrl.toNat / 4 ≠ 0) ||
      decide (s.port.flit.ctrl.toNat % 4 = 3)) = false := by
    simp only [up, Bool.or_eq_false_iff, decide_eq_false_iff_not]
    omega
  unfold execFlitReceive
  simp only [data, body, Bool.false_eq_true, if_false]

/-- A flit in turn fills its buffer and is acknowledged. -/
theorem DataFlit.taken (h : DataFlit s) (crc : s.port.flit.crc = flitSum s.port.flit)
    (turn : s.port.flit.seq.toNat % 1024 = (s.link s.port.link).rxSeq) {ch : Nat} (hch : ch = s.port.flit.ctrl.toNat % 4)
    (fits : (tget (s.link s.port.link).rx ch []).length + 246 ≤ bufferBytes ch)
    (room : (ch = 1 && decide (1024 ≤ (s.link s.port.link).aq.length)) = false) :
    let l := s.link s.port.link
    let got := unpad (tget l.rx ch [] ++ s.port.flit.body)
    ∃ t, exec .flitReceive s = .next t ∧
      (t.link s.port.link).rxSeq = (l.rxSeq + 1) % 1024 ∧ tget (t.link s.port.link).rx ch [] = got ∧
      (∀ c < 3, c ≠ ch → tget (t.link s.port.link).rx c [] = tget l.rx c []) ∧
      (2, l.rxSeq) ∈ (t.link s.port.link).sent ∧ controlFlit 2 l.rxSeq ∈ (t.link s.port.link).wire ∧ (∀ j, j ≠ s.port.link → t.link j = s.link j) ∧
      t.mem = s.mem ∧
      (tget l.rxPaused ch false = false → bufferBytes ch - got.length < pauseBelow ch →
        tget (t.link s.port.link).rxPaused ch false = true ∧ (0, ch) ∈ (t.link s.port.link).sent ∧ controlFlit 0 ch ∈ (t.link s.port.link).wire) ∧
      (pauseBelow ch ≤ bufferBytes ch - got.length → tget l.rxPaused ch false = false → tget (t.link s.port.link).rxPaused ch false = false) := by
  intro l got
  have link := h.1
  have small : ch < 3 := by
    have := h.2.2.1
    omega
  have wide : ¬(l.room ch < 246) := by
    rw [Link.room_of_not_full room]
    omega
  generalize hm : ({ l with rxSeq := (l.rxSeq + 1) % 1024, rx := tset l.rx ch got }.control 2 (s.port.flit.seq.toNat % 1024) : Link) = m
  have run : exec .flitReceive s = .next (s.updLink s.port.link fun _ => m.flow ch) := by
    refine h.receive.trans ?_
    rw [if_neg (not_not.mpr crc), if_neg (not_not.mpr turn), ← hch, if_neg wide, ← hm]
    rfl
  have at_ : (s.updLink s.port.link fun _ => m.flow ch).link s.port.link = m.flow ch := State.link_updLink_self s link _
  have free : m.room ch = bufferBytes ch - got.length := by
    rw [Link.room_of_not_full (by rw [← hm]; exact room), ← hm]
    simp only [Link.control, tget_tset_self _ _ _ _ small]
  have paused : tget m.rxPaused ch false = tget l.rxPaused ch false := by rw [← hm]; rfl
  obtain ⟨seq, rx, sent, wire⟩ := m.flow_keeps ch
  refine ⟨_, run, ?_, ?_, fun c _ other => ?_, ?_, ?_, fun j hj => State.link_updLink_ne s hj _, rfl, fun off low => ?_, fun enough off => ?_⟩
  · rw [at_, seq, ← hm]; rfl
  · rw [at_, rx, ← hm]
    exact tget_tset_self _ _ _ _ small
  · rw [at_, rx, ← hm]
    exact tget_tset_ne _ _ _ _ _ other.symm
  · rw [at_]
    exact sent _ (by rw [← hm, turn]; exact List.mem_append_right _ List.mem_cons_self)
  · rw [at_]
    exact wire _ (by rw [← hm, turn]; exact List.mem_append_right _ List.mem_cons_self)
  · rw [at_, Link.flow_pauses (paused.trans off) (by rw [free]; exact low)]
    exact ⟨tget_tset_self _ _ _ _ small, List.mem_append_right _ List.mem_cons_self, List.mem_append_right _ List.mem_cons_self⟩
  · rw [at_, Link.flow_goes_on (paused.trans off) (by rw [free]; exact enough), paused, off]

/-- A flit in turn that its buffer cannot hold fails the link. -/
theorem DataFlit.overflows (h : DataFlit s) (crc : s.port.flit.crc = flitSum s.port.flit)
    (turn : s.port.flit.seq.toNat % 1024 = (s.link s.port.link).rxSeq) {ch : Nat} (hch : ch = s.port.flit.ctrl.toNat % 4)
    (full : bufferBytes ch < (tget (s.link s.port.link).rx ch []).length + 246 ∨ (ch = 1 && decide (1024 ≤ (s.link s.port.link).aq.length)) = true) :
    exec .flitReceive s = .next (s.failLink s.port.link) := by
  have small : (s.link s.port.link).room ch < 246 := by
    rcases full with short | full
    · exact (Link.room_le _ _).trans_lt (by omega)
    · unfold Link.room
      rw [if_pos full]
      decide
  refine h.receive.trans ?_
  rw [if_neg (not_not.mpr crc), if_neg (not_not.mpr turn), ← hch, if_pos small]

/-! ### Transactions leave their buffer (R426, R427) -/

theorem takeTlp_frees {kind : TlpKind} {ch : Nat} {rest : List Byte} (hch : ch < 3) (there : s.arrived kind ch = true)
    (first : tget (s.link s.port.link).rx ch [] = tlpOf { s.port with kind } ++ rest) :
    let l := s.link s.port.link
    let t := s.takeTlp kind ch
    let free := bufferBytes ch - (unpad rest).length
    tget (t.link s.port.link).rx ch [] = unpad rest ∧ t.mem = s.mem ∧ (∀ j, j ≠ s.port.link → t.link j = s.link j) ∧
      (tget l.rxPaused ch false = true → ¬(ch = 1 ∧ 1024 ≤ l.aq.length) → 2 * pauseBelow ch ≤ free →
        tget (t.link s.port.link).rxPaused ch false = false ∧ (t.link s.port.link).sent = l.sent ++ [(1, ch)]) ∧
      (tget l.rxPaused ch false = true → free < 2 * pauseBelow ch → tget (t.link s.port.link).rxPaused ch false = true) := by
  intro l t free
  have link : s.port.link < 5 := by
    unfold State.arrived at there
    simp only [Bool.and_eq_true, decide_eq_true_eq] at there
    exact there.1.1
  generalize hm : ({ l with rx := tset l.rx ch (unpad rest) } : Link) = m
  have run : t = s.updLink s.port.link fun _ => m.flow ch := by
    have left : (tget l.rx ch []).drop (tlpOf (s.tlp kind)).length = rest := by
      rw [first]
      exact List.drop_left
    rw [← hm, ← left]
    rfl
  have at_ : t.link s.port.link = m.flow ch := by
    rw [run]
    exact State.link_updLink_self s link _
  have rx : tget m.rx ch [] = unpad rest := by
    rw [← hm]
    exact tget_tset_self _ _ _ _ hch
  have paused : tget m.rxPaused ch false = tget l.rxPaused ch false := by rw [← hm]
  obtain ⟨-, kept, -, -⟩ := m.flow_keeps ch
  refine ⟨by rw [at_, kept, rx], by rw [run]; rfl, fun j hj => by rw [run]; exact State.link_updLink_ne s hj _, fun on open_ enough => ?_, fun on low => ?_⟩
  · have room : m.room ch = free := by
      rw [Link.room_of_not_full, rx]
      rw [← hm]
      simpa using open_
    rw [at_, Link.flow_resumes (paused.trans on) (by rw [room]; exact enough), ← hm]
    exact ⟨tget_tset_self _ _ _ _ hch, rfl⟩
  · have room : m.room ch < 2 * pauseBelow ch := (m.room_le ch).trans_lt (by rw [rx]; exact low)
    rw [at_, Link.flow_waits (paused.trans on) room, paused, on]

/-! ### Control frames at the sender (R172, R426, R427) -/

theorem nak_resends {n : Nat} {old rest : List Flit} {f : Flit} (hn : n = s.port.seq.toNat % 1024) (link : s.port.link < 5) (heard : s.heard 3 n = true)
    (buf : (s.link s.port.link).buf = old ++ f :: rest) (named : f.seq.toNat = n) (first : ∀ x ∈ old, x.seq.toNat ≠ n) :
    ∃ t, exec .nakReceive s = .next t ∧ (t.link s.port.link).replays.toNat = min (2 ^ 32 - 1) ((s.link s.port.link).replays.toNat + (rest.length + 1)) ∧
      (t.link s.port.link).buf = (s.link s.port.link).buf ∧ (t.link s.port.link).wire = (s.link s.port.link).wire ++ f :: rest ∧ t.mem = s.mem := by
  have again : (s.link s.port.link).buf.dropWhile (fun f => f.seq.toNat ≠ n) = f :: rest := by
    rw [buf, List.dropWhile_append_of_pos fun x hx => by simpa using first x hx, List.dropWhile_cons_of_neg (by simp [named])]
  refine ⟨s.updLink s.port.link fun l =>
    { l with wire := l.wire ++ f :: rest, replays := BitVec.ofNat 32 (min (2 ^ 32 - 1) (l.replays.toNat + (f :: rest).length)) }, ?_, ?_, ?_, ?_, rfl⟩
  · show execNakReceive s = _
    unfold execNakReceive
    simp only [← hn, heard, again, Bool.not_true, Bool.false_eq_true, if_false, List.isEmpty_cons]
  all_goals rw [State.link_updLink_self s link]
  · rw [BitVec.toNat_ofNat, List.length_cons]
    exact Nat.mod_eq_of_lt (by omega)

theorem nak_fails {n : Nat} (hn : n = s.port.seq.toNat % 1024) (heard : s.heard 3 n = true) (gone : ∀ x ∈ (s.link s.port.link).buf, x.seq.toNat ≠ n) :
    exec .nakReceive s = .next (s.failLink s.port.link) := by
  have again : (s.link s.port.link).buf.dropWhile (fun f => f.seq.toNat ≠ n) = [] := List.dropWhile_eq_nil_iff.mpr fun x hx => by simpa using gone x hx
  show execNakReceive s = _
  unfold execNakReceive
  simp only [← hn, heard, again, Bool.not_true, Bool.false_eq_true, if_false, List.isEmpty_nil, if_true]

theorem ack_releases {n : Nat} (hn : n = s.port.seq.toNat % 1024) (link : s.port.link < 5) (heard : s.heard 2 n = true) :
    ∃ t, exec .ackReceive s = .next t ∧ t.mem = s.mem ∧
      (∀ f, f ∈ (t.link s.port.link).buf ↔ f ∈ (s.link s.port.link).buf ∧ upTo n f.seq.toNat = false) ∧
      ∀ u, u ∈ (t.link s.port.link).unacked ↔ u ∈ (s.link s.port.link).unacked ∧ ∀ x, u.flit = some x → upTo n x = false := by
  subst hn
  have run : execAckReceive s = _ := if_neg (by rw [heard]; simp)
  refine ⟨_, run, rfl, fun f => ?_, fun u => ?_⟩
  all_goals rw [State.link_updLink_self s link]
  · simp [List.mem_filter]
  · rw [List.mem_filter]
    refine and_congr_right fun _ => ?_
    cases u.flit <;> simp

theorem resume_starts {p : Port} (link : s.port.link < 5) (up : (s.link s.port.link).state = 2) (channel : s.port.chan < 3)
    (heard : s.heard 1 s.port.chan = true) (waits : (s.link s.port.link).held = [(s.port.chan, p)]) :
    ∃ t, exec .resumeReceive s = .next t ∧ t.mem = s.mem ∧ tget (t.link s.port.link).txPaused s.port.chan false = false ∧
      (t.link s.port.link).held = [] ∧ (t.link s.port.link).out = (s.link s.port.link).out ++ [p] := by
  have free : tget (tset (s.link s.port.link).txPaused s.port.chan false) s.port.chan false = false := tget_tset_self _ _ _ _ channel
  have flushed := Link.flush_one (l := { s.link s.port.link with txPaused := tset (s.link s.port.link).txPaused s.port.chan false }) up free waits
  have run : execResumeReceive s = _ := if_neg (by rw [heard]; simp)
  refine ⟨_, run, State.updLink_mem .., ?_⟩
  rw [State.link_updLink_self s link]
  exact ⟨(congrArg (fun l : Link => tget l.txPaused s.port.chan false) flushed : _).trans free, (congrArg Link.held flushed : _), (congrArg Link.out flushed : _)⟩

theorem flowState_repeats {k : Nat} (hk : k < 5) (up : (s.link k).state = 2) :
    ∃ t, exec (.flowStateRepeat k) s = .next t ∧ t.mem = s.mem ∧
      (let state (c : Nat) : Nat := if tget (s.link k).rxPaused c false then 0 else 1
       (t.link k).sent = (s.link k).sent ++ (List.range 3).map (fun c => (state c, c)) ∧
       (t.link k).wire = (s.link k).drain.wire ++ (List.range 3).map fun c => controlFlit (state c) c) := by
  have run : execFlowStateRepeat k s = _ := if_neg (by simp [up, hk])
  refine ⟨_, run, State.updLink_mem .., ?_⟩
  rw [State.link_updLink_self s hk]
  simp [List.range_succ, Link.control, Link.drain_sent, Link.drain_rxPaused]

/-! ### Training (R428) -/

theorem retrains {k : Nat} (hk : k < 5) (failed : (s.link k).state = 3) :
    ∃ t, exec (.lnkstRetrain k) s = .next t ∧ (t.link k).state = 1 ∧ (t.link k).txSeq = 0 ∧ (t.link k).rxSeq = 0 ∧
      (t.link k).replays = (s.link k).replays ∧ (t.link k).buf = [] ∧ (∀ c < 3, tget (t.link k).rx c [] = []) ∧ t.mem = s.mem := by
  have run : execLnkstRetrain k s = _ := if_neg (by simp [failed, hk])
  refine ⟨_, run, ?_⟩
  rw [State.link_updLink_self s hk]
  exact ⟨rfl, rfl, rfl, rfl, rfl, fun c _ => tget_tableOf .., rfl⟩

theorem trained {k c : Nat} {p : Port} (hk : k < 5) (training : (s.link k).state = 1) (waits : (s.link k).held = [(c, p)])
    (free : tget (s.link k).txPaused c false = false) :
    ∃ t, exec (.linkTrainingComplete k) s = .next t ∧ (t.link k).state = 2 ∧ (t.link k).held = [] ∧ (t.link k).out = (s.link k).out ++ [p] ∧ t.mem = s.mem := by
  have flushed := Link.flush_one (l := { s.link k with state := 2 }) rfl free waits
  have run : execLinkTrainingComplete k s = _ := if_neg (by simp [training, hk])
  refine ⟨_, run, ?_⟩
  rw [State.link_updLink_self s hk]
  exact ⟨(congrArg Link.state flushed : _), (congrArg Link.held flushed : _), (congrArg Link.out flushed : _), rfl⟩

end

/-- Settles O49: each event by what the flit, the frame or the state of the link says. -/
theorem linkEvents : Obligations.LinkEvents := by
  unfold Obligations.LinkEvents
  refine ⟨fun s => ?_, fun s kind ch rest hch there first => takeTlp_frees hch there first, fun s link up => ?_, fun s k hk up => flowState_repeats hk up,
    fun s k tag => ⟨fun none_ => ?_, fun e found => ?_⟩, fun s k hk => ⟨retrains hk, fun other => ?_, fun c p training waits free => trained hk training waits free,
      fun other => ?_⟩⟩
  · intro k f l ch got full link up channel size
    have data : DataFlit s := ⟨link, up, channel, size⟩
    refine ⟨fun bad => data.receive.trans (if_pos bad), fun crc out => data.receive.trans ((if_neg (not_not.mpr crc)).trans (if_pos out)),
      fun crc turn fits room => data.taken crc turn rfl fits room, fun crc turn full => data.overflows crc turn rfl full⟩
  · refine ⟨fun old rest f heard buf named first => nak_resends rfl link heard buf named first, fun heard gone => nak_fails rfl heard gone, fun deaf => ?_,
      fun heard => ack_releases rfl link heard, fun deaf => ?_, fun channel heard => ?_, fun deaf => ?_,
      fun p channel heard waits => resume_starts link up channel heard waits, fun deaf => ?_⟩
    · exact if_pos (by rw [deaf]; rfl)
    · exact if_pos (by rw [deaf]; rfl)
    · refine ⟨s.updLink s.port.link fun l => { l with txPaused := tset l.txPaused s.port.chan true }, if_neg (by rw [heard]; simp), rfl, ?_⟩
      rw [State.link_updLink_self s link]
      exact ⟨tget_tset_self _ _ _ _ channel, rfl⟩
    · exact if_pos (by rw [deaf]; rfl)
    · exact if_pos (by rw [deaf]; rfl)
  · show execNonpostedTimeout k tag s = _
    unfold execNonpostedTimeout
    rw [none_]
  · show execNonpostedTimeout k tag s = _
    unfold execNonpostedTimeout
    rw [found]
  · exact if_pos (by simp [other])
  · exact if_pos (by simp [other])

end Sys2Proof.Machine
end

section
/-!
Operations in flight (R161, R170): the group of a key, what completing an operation leaves open, and values that return for some lanes.
-/
set_option Elab.async false
namespace Sys2Proof.Machine
open Sys2Proof

/-! ### One element of a list -/

/-- Where a predicate picks one place of a list alone, filtering gives its element. -/
theorem filter_alone {α : Type} {p : α → Bool} {young old : List α} {a : α} (ha : p a = true) (others : ∀ b ∈ young ++ old, p b = false) :
    (young ++ a :: old).filter p = [a] := by
  have young_ : young.filter p = [] := List.filter_eq_nil_iff.2 fun b hb => by simp [others b (List.mem_append_left _ hb)]
  have old_ : old.filter p = [] := List.filter_eq_nil_iff.2 fun b hb => by simp [others b (List.mem_append_right _ hb)]
  rw [List.filter_append, List.filter_cons_of_pos ha, young_, old_, List.nil_append]

/-- Where a predicate picks one place of a list alone, a change of what it picks is a change there. -/
theorem map_alone {α : Type} {p : α → Bool} {f : α → α} {young old : List α} {a : α} (ha : p a = true) (others : ∀ b ∈ young ++ old, p b = false) :
    (young ++ a :: old).map (fun b => if p b then f b else b) = young ++ f a :: old := by
  have keep : ∀ l : List α, (∀ b ∈ l, p b = false) → l.map (fun b => if p b then f b else b) = l := fun l hl =>
    (List.map_congr_left fun b hb => if_neg (by simp [hl b hb])).trans (List.map_id' l)
  rw [List.map_append, List.map_cons, if_pos ha, keep young fun b hb => others b (List.mem_append_left _ hb),
    keep old fun b hb => others b (List.mem_append_right _ hb)]

/-- A search for what only the element at one place can be finds it, where it is that. -/
theorem find?_alone {α : Type} {p : α → Bool} {young old : List α} {a : α} (ha : p a = true) (others : ∀ b ∈ young, p b = false) :
    (young ++ a :: old).find? p = some a := by
  rw [List.find?_append, List.find?_eq_none.2 fun b hb => by simp [others b hb], Option.none_or, List.find?_cons_of_pos ha]

/-! ### Keys of groups and of operations -/

theorem State.id_of_group? {s : State} {gid : Nat} {g : Group} (h : s.group? gid = some g) : g.id = gid := by
  unfold group? at h
  split at h
  next cur => exact Option.some.inj h ▸ cur
  · split at h
    next found => cases h; simpa using List.find?_some found
    · simpa using List.find?_some h

theorem Group.seq_of_op? {g : Group} {op : Nat} {o : Op} (h : g.op? op = some o) : o.seq = op := by
  simpa using List.find?_some h

@[simp] theorem Group.updOp_id (g : Group) (op : Nat) (f : Op → Op) : (g.updOp op f).id = g.id := rfl
@[simp] theorem Group.fillPend_id (g : Group) (op : Nat) (m : Word32) (all : Bool) (f : Nat → Nat → Word64) : (g.fillPend op m all f).id = g.id := rfl
@[simp] theorem Group.finishOp_id (g : Group) (op : Nat) : (g.finishOp op).id = g.id := by
  unfold finishOp
  split
  · rfl
  · split <;> rfl

/-! ### Completion -/

/-- Among the operations of a group that has completed one there is no open one of its number (R170). -/
theorem Group.fin_of_finishOp {g : Group} {op : Nat} {p : Op} (h : (g.finishOp op).op? op = some p) : p.fin = true := by
  have finished : ∀ x ∈ (g.updOp op fun o => { o with fin := true }).sweep.ops, x.seq = op → x.fin = true := by
    intro x hx hseq
    obtain ⟨y, -, rfl⟩ := List.mem_map.1 (List.mem_of_mem_filter hx)
    by_cases same : y.seq = op
    · rw [if_pos same]
    · rw [if_neg same] at hseq
      exact absurd hseq same
  unfold finishOp at h
  split at h
  next missing => rw [missing] at h; cases h
  · split at h <;> exact finished p (List.mem_of_find?_eq_some h) (seq_of_op? h)

/-- A group completes an operation, whatever else it does before (R170). -/
theorem finished_updGroup {s : State} {gid op : Nat} (hg : (s.group? gid).isSome = true) {f : Group → Group} (keep : ∀ g, (f g).id = g.id) :
    Finished (s.updGroup gid fun g => (f g).finishOp op) gid op := by
  obtain ⟨g, hg⟩ := Option.isSome_iff_exists.1 hg
  exact ⟨_, State.group?_updGroup hg (fun g => (Group.finishOp_id ..).trans (keep g)), fun _ => Group.fin_of_finishOp⟩

/-! ### Values that return -/

/-- What returns for lanes outside the mask does not count (R170). -/
theorem Group.fillPend_congr (g : Group) (op : Nat) {m : Word32} (all : Bool) {f f' : Nat → Nat → Word64} (h : ∀ k l, lane m l = true → f k l = f' k l) :
    g.fillPend op m all f = g.fillPend op m all f' := by
  have same : ∀ (k : Nat) (w : Lanes Word64), (Lanes.gen fun l => if lane m l then f k l else w.get l 0) = Lanes.gen fun l => if lane m l then f' k l else w.get l 0 :=
    fun k w => congrArg Lanes.gen (funext fun l => by split <;> [exact h k l ‹_›; rfl])
  unfold fillPend
  simp only [same]

end Sys2Proof.Machine
end

section
/-!
Homes of lines (R323 to R325, R331, R397): a write at its home by cases, and what does not change it.
-/
set_option Elab.async false
namespace Sys2Proof.Machine
open Sys2Proof

namespace State

/-- The machine in which a write of a whole line has cleared its poison (R397). -/
def unpoison (s : State) (loc n : Nat) : State := if n = 64 then { s with poison := s.poison.filter (· ≠ Loc.pa loc / 64) } else s

@[simp] theorem unpoison_mem (s : State) (loc n : Nat) : (s.unpoison loc n).mem = s.mem := by unfold unpoison; split <;> rfl
@[simp] theorem unpoison_l2 (s : State) (loc n : Nat) : (s.unpoison loc n).l2 = s.l2 := by unfold unpoison; split <;> rfl

/-- The lines of the L2 once bytes of the physical line `pl` have been replaced (R325). -/
def splice (ls : List L2Line) (pl off : Nat) (data : List Byte) : List L2Line :=
  ls.map fun m => if m.pa = pl then { m with bytes := spliceLine m.bytes off data, dirty := true } else m

/-- A line that the L2 holds is the line of its location (R334). -/
theorem pa_of_l2At {s : State} {loc : Nat} {l : L2Line} (h : s.l2At loc = some l) : l.pa = Loc.pa loc / 64 ∧ l.attr.comp = Loc.comp loc := by
  simpa using List.find?_some h

theorem homeWrite_held {s : State} {loc : Nat} {l : L2Line} (h : s.l2At loc = some l) (d : List Byte) :
    s.homeWrite loc d = { s.unpoison loc d.length with l2 := splice s.l2 (Loc.pa loc / 64) (Loc.pa loc % 64) d } := by
  have held : (s.unpoison loc d.length).l2At loc = some l := by unfold l2At; rw [unpoison_l2]; exact h
  unfold homeWrite
  dsimp only
  change (match (s.unpoison loc d.length).l2At loc with | some _ => _ | none => _) = _
  rw [held]
  dsimp only
  rw [(pa_of_l2At h).1]
  unfold unpoison splice
  split <;> rfl

theorem homeWrite_missing {s : State} {loc : Nat} (h : s.l2At loc = none) (d : List Byte) :
    s.homeWrite loc d = (s.unpoison loc d.length).ctlWrite loc d := by
  have missing : (s.unpoison loc d.length).l2At loc = none := by unfold l2At; rw [unpoison_l2]; exact h
  unfold homeWrite
  dsimp only
  change (match (s.unpoison loc d.length).l2At loc with | some _ => _ | none => _) = _
  rw [missing]
  rfl

end State

end Sys2Proof.Machine
end

section
/-!
What reads and writes of global memory leave of the machine (R160, R196, R220, R235, R325): all but memory, caches and the walker's notes, the versions of regions, the
record caches, the registered barriers, and what an access of any agent changes of a group.
-/
set_option Elab.async false
namespace Sys2Proof.Machine
open Sys2Proof

/-! ### Tables of which one field is left out -/

theorem map_tset_same {α : Type} {n : Nat} (f : α → α) (v : Vector α n) (i : Nat) {a d : α} (h : f a = f (tget v i d)) : (tset v i a).map f = v.map f := by
  refine Vector.ext fun j hj => ?_
  unfold tset
  rw [Vector.getElem_map, Vector.getElem_map, Vector.getElem_setIfInBounds]
  split
  next at_ =>
    subst at_
    rw [h, tget]
    simp [hj]
  · rfl

theorem tget_map {α β : Type} {n : Nat} (f : α → β) (v : Vector α n) (i : Nat) (d : α) : tget (v.map f) i (f d) = f (tget v i d) := by
  unfold tget
  rw [Vector.toArray_map, Array.getD_eq_getD_getElem?, Array.getD_eq_getD_getElem?, Array.getElem?_map, Option.getD_map]

namespace State

/-- A function without its weight regions. -/
def sansRegions (v : VFun) : VFun := { v with regions := tableOf _ {} }

/-- A cluster without its record caches. -/
def sansRecs (k : Cluster) : Cluster := { k with recs := [] }

/-- What reads and writes of global memory leave of the machine. -/
def apart (s : State) : State :=
  { s.sansMemory with cur := s.cur.frame, groups := s.groups.map Group.frame, savedGroups := s.savedGroups.map Group.frame,
                      clusters := s.clusters.map sansRecs, vfs := s.vfs.map sansRegions, barLines := [] }

/-! ### What is read off it -/

section
variable {s t : State} (h : t.apart = s.apart)
include h

theorem launches_of_apart : t.launches = s.launches := (congrArg (fun x : State => x.launches) h : _)
theorem grans_of_apart : t.grans = s.grans := (congrArg (fun x : State => x.grans) h : _)

theorem vf_of_apart (n : Nat) : sansRegions (t.vf n) = sansRegions (s.vf n) := by
  have all := congrArg (fun x : State => tget x.vfs n (sansRegions {})) h
  exact (tget_map ..).symm.trans (all.trans (tget_map ..))

theorem holds_of_apart (vf : Nat) : t.holds vf = s.holds vf := by
  have bound : (t.vf vf).bound = (s.vf vf).bound := (congrArg VFun.bound (vf_of_apart h vf) : _)
  have slice : (t.vf vf).slice = (s.vf vf).slice := (congrArg VFun.slice (vf_of_apart h vf) : _)
  unfold holds gran
  dsimp only
  rw [bound, slice, grans_of_apart h]

end

theorem find?_frame (gs : List Group) (gid : Nat) : (gs.map Group.frame).find? (fun g => g.id = gid) = (gs.find? fun g => g.id = gid).map Group.frame :=
  List.find?_map ..

theorem group?_apart (s : State) (gid : Nat) : s.apart.group? gid = (s.group? gid).map Group.frame := by
  unfold group?
  change (if s.cur.id = gid then some s.cur.frame else match (s.groups.map Group.frame).find? (fun g => g.id = gid) with
    | some g => some g
    | none => (s.savedGroups.map Group.frame).find? fun g => g.id = gid) = _
  rw [find?_frame, find?_frame]
  split
  · rfl
  · cases s.groups.find? (fun g => g.id = gid) <;> rfl

theorem group?_of_apart {s t : State} (h : t.apart = s.apart) (gid : Nat) : (t.group? gid).map Group.frame = (s.group? gid).map Group.frame := by
  rw [← group?_apart, h, group?_apart]

theorem isSome_group?_of_apart {s t : State} (h : t.apart = s.apart) (gid : Nat) : (t.group? gid).isSome = (s.group? gid).isSome := by
  have same := congrArg Option.isSome (group?_of_apart h gid)
  rwa [Option.isSome_map, Option.isSome_map] at same

/-! ### Reads and writes leave it -/

theorem apart_of_sansMemory {s t : State} (h : t.sansMemory = s.sansMemory) : t.apart = s.apart :=
  congrArg (fun x : State => { x with cur := x.cur.frame, groups := x.groups.map Group.frame, savedGroups := x.savedGroups.map Group.frame,
                                      clusters := x.clusters.map sansRecs, vfs := x.vfs.map sansRegions, barLines := [] }) h

theorem apart_foldl {α : Type} {f : State → α → State} (hf : ∀ s a, (f s a).apart = s.apart) : ∀ (l : List α) (s : State), (l.foldl f s).apart = s.apart
  | [], _ => rfl
  | a :: l, s => (apart_foldl hf l (f s a)).trans (hf s a)

@[simp] theorem updCore_apart (s : State) (n : Nat) (f : Core → Core) : (s.updCore n f).apart = s.apart := rfl
@[simp] theorem ctlWrite_apart (s : State) (loc : Nat) (d : List Byte) : (s.ctlWrite loc d).apart = s.apart := apart_of_sansMemory (ctlWrite_sansMemory ..)
@[simp] theorem homeWrite_apart (s : State) (loc : Nat) (d : List Byte) : (s.homeWrite loc d).apart = s.apart := apart_of_sansMemory (homeWrite_sansMemory ..)
@[simp] theorem bumpHot_apart (s : State) (leaf : Nat) : (s.bumpHot leaf).apart = s.apart := apart_of_sansMemory (bumpHot_sansMemory ..)
@[simp] theorem writeback_apart (s : State) (keep : Bool) (pa : Nat) : (s.writeback keep pa).apart = s.apart := apart_of_sansMemory (writeback_sansMemory ..)
@[simp] theorem dropL1_apart (s : State) (vf : Nat) (p : Nat → Bool) : (s.dropL1 vf p).apart = s.apart := apart_of_sansMemory (dropL1_sansMemory ..)
@[simp] theorem flushLines_apart (s : State) (p : L2Line → Bool) : (s.flushLines p).apart = s.apart := apart_of_sansMemory (flushLines_sansMemory ..)

@[simp] theorem serveFill_apart (s : State) (vf va loc l1 l2 : Nat) : (s.serveFill vf va loc l1 l2).apart = s.apart := by
  unfold serveFill
  dsimp only
  split <;> split <;> simp

@[simp] theorem serveRead_apart (s : State) (vf va loc : Nat) : (s.serveRead vf va loc).apart = s.apart := by
  unfold serveRead; split <;> exact serveFill_apart ..

@[simp] theorem dropCoreLine_apart (s : State) (core : Option Nat) (loc : Nat) : (s.dropCoreLine core loc).apart = s.apart := by
  unfold dropCoreLine
  split
  · rfl
  · split <;> rfl

theorem updVf_apart (s : State) (n : Nat) {f : VFun → VFun} (hf : sansRegions (f (s.vf n)) = sansRegions (s.vf n)) : (s.updVf n f).apart = s.apart :=
  congrArg (fun v => { s.apart with vfs := v }) (map_tset_same sansRegions s.vfs n hf)

theorem updCluster_apart (s : State) (n : Nat) {f : Cluster → Cluster} (hf : sansRecs (f (s.cluster n)) = sansRecs (s.cluster n)) :
    (s.updCluster n f).apart = s.apart :=
  congrArg (fun k => { s.apart with clusters := k }) (map_tset_same sansRecs s.clusters n hf)

@[simp] theorem bumpRegions_apart (s : State) (vf va n : Nat) : (s.bumpRegions vf va n).apart = s.apart :=
  updVf_apart s vf rfl

theorem map_frame {f : Group → Group} (hf : ∀ g, (f g).frame = g.frame) (gs : List Group) : (gs.map f).map Group.frame = gs.map Group.frame := by
  rw [List.map_map]
  exact List.map_congr_left fun g _ => hf g

theorem mapGroups_apart (s : State) {f : Group → Group} (hf : ∀ g, (f g).frame = g.frame) : (s.mapGroups f).apart = s.apart :=
  congrArg₂ (fun c gs => { s.apart with cur := c, groups := gs }) (hf s.cur) (map_frame hf s.groups)

theorem updGroup_apart (s : State) (id : Nat) {f : Group → Group} (hf : ∀ g, (f g).frame = g.frame) : (s.updGroup id f).apart = s.apart := by
  have each := map_frame (f := fun g => if g.id = id then f g else g) fun g => by
    split
    · exact hf g
    · rfl
  unfold updGroup
  split
  · exact congrArg (fun c => { s.apart with cur := c }) (hf s.cur)
  · exact congrArg₂ (fun a b => { s.apart with groups := a, savedGroups := b }) (each s.groups) (each s.savedGroups)

@[simp] theorem keepPast_apart (s : State) (loc : Nat) (d : List Byte) (w : Writer) : (s.keepPast loc d w).apart = s.apart := by
  unfold keepPast
  split
  · rfl
  · split
    · exact updGroup_apart s _ fun _ => rfl
    · rfl

@[simp] theorem wakeWaiters_apart (s : State) (p : BarLoc → Bool) (id : Nat) (lpc : Word32) : (s.wakeWaiters p id lpc).apart = s.apart := by
  have slot : ∀ t : Slot, { (match t.tw with
      | some (b, _) => if p b then { t with woken := some (id, lpc) } else t
      | none => t : Slot) with woken := none } = { t with woken := none } := fun t => by
    split
    · split <;> rfl
    · rfl
  have wake : ∀ g : Group, ({ g with
      slot0 := (match g.slot0.tw with | some (b, _) => if p b then { g.slot0 with woken := some (id, lpc) } else g.slot0 | none => g.slot0),
      slot1 := (match g.slot1.tw with | some (b, _) => if p b then { g.slot1 with woken := some (id, lpc) } else g.slot1 | none => g.slot1),
      polls := g.polls.map fun q => if p q.bar then { q with fin := some (id, lpc) } else q } : Group).frame = g.frame := fun g =>
    congrArg₂ (fun a b => ({ g.frame with slot0 := a, slot1 := b } : Group)) (slot g.slot0) (slot g.slot1)
  exact congrArg₂ (fun c (gs : List Group × List Group) => { s.apart with cur := c, groups := gs.1, savedGroups := gs.2 }) (wake s.cur)
    (congrArg₂ Prod.mk (map_frame wake s.groups) (map_frame wake s.savedGroups))

@[simp] theorem breakLine_apart (s : State) (loc : Nat) : (s.breakLine loc).apart = s.apart := by
  unfold breakLine
  split
  · rfl
  · dsimp only; rw [wakeWaiters_apart, homeWrite_apart]; rfl

@[simp] theorem dropRecs_apart (s : State) (loc : Nat) (keep : Option Nat) : (s.dropRecs loc keep).apart = s.apart :=
  apart_foldl (fun s c => by
    split
    · rfl
    · exact updCluster_apart s c rfl) _ s

@[simp] theorem touchDiv_apart (s : State) (vf va n : Nat) : (s.touchDiv vf va n).apart = s.apart :=
  mapGroups_apart s fun g => by split <;> rfl

/-- A write of device memory leaves the rest of the machine. -/
theorem write_apart (s : State) {loc : Nat} (here : isWindow (Loc.pa loc) = false) (vf va : Nat) (d : List Byte) (w : Writer) :
    (s.write vf va loc d w).apart = s.apart := by
  unfold write
  dsimp only
  rw [here, if_neg Bool.false_ne_true]
  split <;> split <;> simp

end State

end Sys2Proof.Machine
end

section
/-!
Atomics at their home (R164 to R168). An atomic counts hits of its core's L1 first and a reply frees its request's tag on a link; reads and writes of memory look at
neither, and so what they do is what they do without.
-/
set_option Elab.async false
namespace Sys2Proof.Machine
open Sys2Proof

namespace State

/-! ### Memory does not look at the cores and the links -/

/-- The machine `t` is `s` but for its cores and its links. -/
def Beside (s t : State) : Prop := ∃ c l, t = { s with cores := c, links := l }

namespace Beside
variable {s t : State}

theorem refl (s : State) : Beside s s := ⟨_, _, rfl⟩

theorem mem (h : Beside s t) : t.mem = s.mem := by obtain ⟨c, l, rfl⟩ := h; rfl
theorem l2 (h : Beside s t) : t.l2 = s.l2 := by obtain ⟨c, l, rfl⟩ := h; rfl
theorem group? (h : Beside s t) (gid : Nat) : t.group? gid = s.group? gid := by obtain ⟨c, l, rfl⟩ := h; rfl
theorem homeRead (h : Beside s t) (loc n : Nat) : t.homeRead loc n = s.homeRead loc n := by obtain ⟨c, l, rfl⟩ := h; rfl
theorem poisoned (h : Beside s t) (loc : Nat) : t.poisoned loc = s.poisoned loc := by obtain ⟨c, l, rfl⟩ := h; rfl

theorem foldl {α : Type} {f : State → α → State} (hf : ∀ {s t : State}, Beside s t → ∀ a, Beside (f s a) (f t a)) :
    ∀ (l : List α) {s t : State}, Beside s t → Beside (l.foldl f s) (l.foldl f t)
  | [], _, _, h => h
  | a :: l, _, _, h => foldl hf l (hf h a)

theorem updCore (h : Beside s t) (n : Nat) (f : Core → Core) : Beside s (t.updCore n f) := by obtain ⟨c, l, rfl⟩ := h; exact ⟨_, _, rfl⟩

theorem updCore_left (h : Beside s t) (n : Nat) (f : Core → Core) : Beside (s.updCore n f) t := by obtain ⟨c, l, rfl⟩ := h; exact ⟨_, _, rfl⟩

theorem ctlWrite (h : Beside s t) (loc : Nat) (d : List Byte) : Beside (s.ctlWrite loc d) (t.ctlWrite loc d) := by
  obtain ⟨c, l, rfl⟩ := h
  unfold State.ctlWrite
  dsimp only
  split <;> exact ⟨c, l, rfl⟩

theorem homeWrite (h : Beside s t) (loc : Nat) (d : List Byte) : Beside (s.homeWrite loc d) (t.homeWrite loc d) := by
  have cleared : Beside (s.unpoison loc d.length) (t.unpoison loc d.length) := by
    obtain ⟨c, l, rfl⟩ := h
    unfold State.unpoison
    split <;> exact ⟨c, l, rfl⟩
  have same : t.l2At loc = s.l2At loc := by obtain ⟨c, l, rfl⟩ := h; rfl
  cases at_ : s.l2At loc with
  | some l =>
    rw [homeWrite_held at_, homeWrite_held (same.trans at_), h.l2]
    obtain ⟨c, l, e⟩ := cleared
    rw [e]
    exact ⟨c, l, rfl⟩
  | none =>
    rw [homeWrite_missing at_, homeWrite_missing (same.trans at_)]
    exact cleared.ctlWrite ..

theorem bumpHot (h : Beside s t) (leaf : Nat) : Beside (s.bumpHot leaf) (t.bumpHot leaf) := by
  unfold State.bumpHot
  dsimp only
  rw [h.homeRead]
  split
  · exact h
  · split
    · exact h
    · exact h.homeWrite ..

theorem writeback (h : Beside s t) (keep : Bool) (pa : Nat) : Beside (s.writeback keep pa) (t.writeback keep pa) := by
  unfold State.writeback
  rw [h.l2]
  split
  · exact h
  · obtain ⟨c, l, rfl⟩ := h
    dsimp only
    split
    · exact ⟨c, l, rfl⟩
    · exact ((ctlWrite ⟨c, l, rfl⟩ _ _).bumpHot _).bumpHot _

theorem dropL1 (h : Beside s t) (vf : Nat) (p : Nat → Bool) : Beside (s.dropL1 vf p) (t.dropL1 vf p) := by
  unfold State.dropL1
  rw [show t.sliceCores (t.vf vf).slice = s.sliceCores (s.vf vf).slice by obtain ⟨c, l, rfl⟩ := h; rfl]
  exact foldl (fun h c => (h.updCore_left c _).updCore c _) _ h

theorem flushLines (h : Beside s t) (p : L2Line → Bool) : Beside (s.flushLines p) (t.flushLines p) := by
  have folded := foldl (f := fun s (l : L2Line) => (s.writeback false l.pa).dropL1 l.vf (fun v => v = l.line))
    (fun h l => (h.writeback false l.pa).dropL1 l.vf _) (s.l2.filter p) h
  unfold State.flushLines
  dsimp only
  rw [h.l2]
  obtain ⟨c, l, e⟩ := folded
  rw [e]
  exact ⟨c, l, rfl⟩

theorem serveFill (h : Beside s t) (vf va loc leaf1 leaf2 : Nat) : Beside (s.serveFill vf va loc leaf1 leaf2) (t.serveFill vf va loc leaf1 leaf2) := by
  have counted : ∀ {s t : State}, Beside s t → Beside
      (if (s.l2At loc).isSome || !isDevice (Loc.pa loc) then s else (s.bumpHot leaf1).bumpHot leaf2)
      (if (t.l2At loc).isSome || !isDevice (Loc.pa loc) then t else (t.bumpHot leaf1).bumpHot leaf2) := by
    intro s t h
    rw [show t.l2At loc = s.l2At loc by obtain ⟨c, l, rfl⟩ := h; rfl]
    split
    · exact h
    · exact (h.bumpHot leaf1).bumpHot leaf2
  unfold State.serveFill
  dsimp only
  rw [h.l2]
  split
  · exact counted (h.flushLines _)
  · exact counted h

theorem serveRead (h : Beside s t) (vf va loc : Nat) : Beside (s.serveRead vf va loc) (t.serveRead vf va loc) := by
  unfold State.serveRead
  rw [show t.walked = s.walked by obtain ⟨c, l, rfl⟩ := h; rfl]
  split <;> exact h.serveFill ..

theorem updGroup (h : Beside s t) (id : Nat) (f : Group → Group) : Beside (s.updGroup id f) (t.updGroup id f) := by
  obtain ⟨c, l, rfl⟩ := h
  unfold State.updGroup
  dsimp only
  split <;> exact ⟨c, l, rfl⟩

theorem bumpRegions (h : Beside s t) (vf va n : Nat) : Beside (s.bumpRegions vf va n) (t.bumpRegions vf va n) := by
  obtain ⟨c, l, rfl⟩ := h; exact ⟨c, l, rfl⟩

theorem keepPast (h : Beside s t) (loc : Nat) (d : List Byte) (w : Writer) : Beside (s.keepPast loc d w) (t.keepPast loc d w) := by
  unfold State.keepPast
  rw [h.group?]
  split
  · exact h
  · dsimp only
    rw [h.homeRead]
    split
    · exact h.updGroup ..
    · exact h

theorem dropCoreLine (h : Beside s t) (core : Option Nat) (loc : Nat) : Beside (s.dropCoreLine core loc) (t.dropCoreLine core loc) := by
  unfold State.dropCoreLine
  split
  · exact h
  · split <;> split
    · exact h
    · exact h.updCore ..
    · exact h.updCore_left ..
    · exact (h.updCore_left ..).updCore ..

theorem wakeWaiters (h : Beside s t) (p : BarLoc → Bool) (id : Nat) (lpc : Word32) : Beside (s.wakeWaiters p id lpc) (t.wakeWaiters p id lpc) := by
  obtain ⟨c, l, rfl⟩ := h; exact ⟨c, l, rfl⟩

theorem breakLine (h : Beside s t) (loc : Nat) : Beside (s.breakLine loc) (t.breakLine loc) := by
  unfold State.breakLine
  rw [show t.barLines = s.barLines by obtain ⟨c, l, rfl⟩ := h; rfl]
  split
  · exact h
  · dsimp only
    rw [h.homeRead]
    refine wakeWaiters (homeWrite ?_ _ _) ..
    obtain ⟨c, l, rfl⟩ := h
    exact ⟨c, l, rfl⟩

theorem dropRecs (h : Beside s t) (loc : Nat) (keep : Option Nat) : Beside (s.dropRecs loc keep) (t.dropRecs loc keep) := by
  refine foldl (fun {s t} h c => ?_) _ h
  rw [show t.cluster c = s.cluster c by obtain ⟨c, l, rfl⟩ := h; rfl]
  split
  · exact h
  · obtain ⟨c, l, rfl⟩ := h
    exact ⟨c, l, rfl⟩

theorem touchDiv (h : Beside s t) (vf va n : Nat) : Beside (s.touchDiv vf va n) (t.touchDiv vf va n) := by
  obtain ⟨c, l, rfl⟩ := h; exact ⟨c, l, rfl⟩

/-- A write of device memory is the same write whatever the cores hold and the links carry. -/
theorem write (h : Beside s t) {vf va loc : Nat} (here : isWindow (Loc.pa loc) = false) (d : List Byte) (w : Writer) :
    Beside (s.write vf va loc d w) (t.write vf va loc d w) := by
  have done := (((h.bumpRegions vf va d.length).keepPast loc d w).homeWrite loc d).dropCoreLine w.core loc
  unfold State.write
  dsimp only
  rw [here, if_neg Bool.false_ne_true, if_neg Bool.false_ne_true]
  split <;> split
  · exact done.dropRecs ..
  · exact (done.breakLine loc).dropRecs ..
  · exact (done.dropRecs ..).touchDiv ..
  · exact ((done.breakLine loc).dropRecs ..).touchDiv ..

/-- A write, of a window too, leaves the same memory whatever the cores hold and the links carry. -/
theorem write_memory (h : Beside s t) (vf va loc : Nat) (d : List Byte) (w : Writer) :
    (t.write vf va loc d w).mem = (s.write vf va loc d w).mem ∧ (t.write vf va loc d w).l2 = (s.write vf va loc d w).l2 := by
  rcases Bool.eq_false_or_eq_true (isWindow (Loc.pa loc)) with window | here
  · unfold State.write
    dsimp only
    rw [if_pos window, if_pos window]
    exact ⟨h.mem, h.l2⟩
  · exact ⟨(h.write here d w).mem, (h.write here d w).l2⟩

theorem countHits (s : State) (g : Group) (l1 : Bool) (vas : List Nat) : Beside s (s.countHits g l1 vas) := by
  unfold State.countHits
  dsimp only
  split
  · exact refl s
  · exact (refl s).updCore ..

end Beside

/-! ### What an acquire, and an access of a page that is not watched, leave -/

@[simp] theorem acquireAt_mem (s : State) (g : Group) (sc : Option Scope) : (s.acquireAt g sc).mem = s.mem := by unfold acquireAt; split <;> rfl
@[simp] theorem acquireAt_l2 (s : State) (g : Group) (sc : Option Scope) : (s.acquireAt g sc).l2 = s.l2 := by unfold acquireAt; split <;> rfl
@[simp] theorem acquireAt_group? (s : State) (g : Group) (sc : Option Scope) (gid : Nat) : (s.acquireAt g sc).group? gid = s.group? gid := by
  unfold acquireAt; split <;> rfl
@[simp] theorem updGroup_l2 (s : State) (id : Nat) (f : Group → Group) : (s.updGroup id f).l2 = s.l2 := by unfold updGroup; split <;> rfl

theorem watch_unwatched {s : State} {loc : Nat} (h : Loc.watch loc = none) (vf va n acc : Nat) (ag : Agent) : s.watch vf va loc n acc ag = s := by
  unfold watch; rw [h]

end State

/-! ### An atomic (R164 to R166) -/

/-- The mask of the lanes that a single value names. -/
theorem maskOf_eq_laneBit (l : Nat) : (maskOf fun i => decide (l = i)) = laneBit l := by
  refine BitVec.eq_of_getLsbD_eq fun i hi => (lane_maskOf _ i hi).trans ?_
  rw [laneBit, BitVec.getLsbD_ofNat, Nat.testBit_two_pow]
  simp [hi]

/-- The machine once a lane's operation is performed at its home, and the old value (R165). -/
theorem State.atomLane_home {s : State} {g : Group} {o : Op} {aop : AtomOp} {ty : Ty} {ret : Bool} {a : AtomLane} (plain : plainLoc a.pa)
    (sound : s.poisoned a.pa = false) : s.atomLane g o aop ty ret a = s.atomAt g.vf aop ty a (g.writer o.seq) := by
  unfold atomLane
  rw [sound, Bool.and_false, if_neg Bool.false_ne_true]
  dsimp only
  rw [watch_unwatched plain.2]

theorem State.Beside.atomAt {s t : State} (h : Beside s t) {vf : Nat} {a : AtomLane} (here : isWindow (Loc.pa a.pa) = false) (aop : AtomOp) (ty : Ty) (w : Writer) :
    Beside (s.atomAt vf aop ty a w).1 (t.atomAt vf aop ty a w).1 ∧ (t.atomAt vf aop ty a w).2 = (s.atomAt vf aop ty a w).2 := by
  have served := h.serveRead vf a.va a.pa
  unfold State.atomAt
  dsimp only
  rw [served.homeRead]
  exact ⟨served.write here _ _, rfl⟩

/-- What an atomic of the lanes `rest`, some of which may be open, keeps once `v` has returned for lane `l` (R165, R170). -/
def Group.atomReturned (h : Group) (o : Op) (l : Nat) (v : Word64) (rest : List AtomLane) (aop : AtomOp) (ty : Ty) (ret : Bool) (acq rel : Option Scope) : Group :=
  let f := h.fillPend o.seq (laneBit l) (rest.all (·.fin)) fun _ _ => v
  if rest.all (·.fin) then f.finishOp o.seq else f.updOp o.seq fun o => { o with kind := .atomic rest aop ty ret acq rel }

@[simp] theorem Group.atomReturned_id (h : Group) (o : Op) (l : Nat) (v : Word64) (rest : List AtomLane) (aop : AtomOp) (ty : Ty) (ret : Bool)
    (acq rel : Option Scope) : (h.atomReturned o l v rest aop ty ret acq rel).id = h.id := by
  unfold atomReturned; dsimp only; split <;> simp

/-- The one value that an atomic of one lane has taken returns for that lane. -/
theorem Group.fillPend_single (h : Group) (op : Nat) (all : Bool) {l v : Nat} {f : Nat → Nat → Word64} {w : Word64} (hf : ∀ k, f k l = w) :
    h.fillPend op (maskOf fun i => [(l, v)].any fun p => p.1 = i) all f = h.fillPend op (laneBit l) all fun _ _ => w := by
  have one : (fun i => [(l, v)].any fun p => p.1 = i) = fun i => decide (l = i) := funext fun i => Bool.or_false _
  rw [one, maskOf_eq_laneBit]
  refine h.fillPend_congr _ _ fun k i hi => ?_
  rw [← maskOf_eq_laneBit, lane_maskOf _ i (BitVec.lt_of_getLsbD hi)] at hi
  exact of_decide_eq_true hi ▸ hf k

/-- A lane that is alone on its line is performed on what its atomic has counted, and its old value returns (R165, R166, R170). -/
theorem State.atomRun_alone {s : State} {g : Group} {o : Op} {young old : List AtomLane} {a : AtomLane} {aop : AtomOp} {ty : Ty} {ret : Bool}
    {acq rel : Option Scope} (live : a.fin = false)
    (alone : ∀ b ∈ young ++ old, b.fin = false → Loc.pa b.pa / 64 ≠ Loc.pa a.pa / 64) (plain : plainLoc a.pa) (sound : s.poisoned a.pa = false) :
    ∃ u, Beside s u ∧ (let r := u.atomAt g.vf aop ty a (g.writer o.seq)
      let rest := young ++ { a with fin := true } :: old
      let t := r.1.updGroup g.id fun h => h.atomReturned o a.lane (oldValue ty r.2) rest aop ty ret acq rel
      s.atomRun g o (young ++ a :: old) aop ty ret acq rel (Loc.pa a.pa / 64) = if rest.all (·.fin) then t.acquireAt g acq else t) := by
  have mine : (!a.fin && decide (Loc.pa a.pa / 64 = Loc.pa a.pa / 64)) = true := by simp [live]
  have others : ∀ b ∈ young ++ old, (!b.fin && decide (Loc.pa b.pa / 64 = Loc.pa a.pa / 64)) = false := by
    intro b hb
    rcases Bool.eq_false_or_eq_true b.fin with fin | open_
    · simp [fin]
    · simp [alone b hb open_]
  have only : (young ++ a :: old).filter (fun b => !b.fin && decide (Loc.pa b.pa / 64 = Loc.pa a.pa / 64)) = [a] := filter_alone mine others
  have changed := map_alone (f := fun b : AtomLane => { b with fin := true }) mine others
  have near : Beside s (if ret then s.countHits g false ([a].map (·.va)) else s) := by
    split
    · exact Beside.countHits ..
    · exact Beside.refl s
  refine ⟨_, near, ?_⟩
  unfold State.atomRun
  dsimp only
  rw [only, changed, List.foldl_cons, List.foldl_nil, atomLane_home plain ((near.poisoned _).trans sound)]
  have returned : ∀ (h : Group) (v : Nat) (rest : List AtomLane) (f : Nat → Nat → Word64), (∀ k, f k a.lane = oldValue ty v) →
      (if rest.all (·.fin) then (h.fillPend o.seq (maskOf fun i => [(a.lane, v)].any fun p => p.1 = i) (rest.all (·.fin)) f).finishOp o.seq
        else (h.fillPend o.seq (maskOf fun i => [(a.lane, v)].any fun p => p.1 = i) (rest.all (·.fin)) f).updOp o.seq
          fun o => { o with kind := .atomic rest aop ty ret acq rel }) = h.atomReturned o a.lane (oldValue ty v) rest aop ty ret acq rel := by
    intro h v rest f hf
    rw [Group.fillPend_single h _ _ hf]
    rfl
  refine if_congr Iff.rfl (congrArg (State.acquireAt · g acq) ?_) ?_ <;>
    exact congrArg (State.updGroup _ g.id) (funext fun h => returned h _ _ _ fun _ => by simp)

/-- An atomic that may be performed performs the lane that the event names with those on its line (R165). -/
theorem State.atomicPerform_run {s : State} {gid op l : Nat} {g : Group} {o : Op} {young old : List AtomLane} {a : AtomLane} {aop : AtomOp} {ty : Ty} {ret : Bool}
    {acq rel : Option Scope} (hop : OpenOp s gid op g o) (ready : s.ready g o = true) (kind : o.kind = .atomic (young ++ a :: old) aop ty ret acq rel)
    (named : a.lane = l) (live : a.fin = false) (others : ∀ b ∈ young ++ old, b.lane ≠ l) (here : isWindow (Loc.pa a.pa) = false) :
    exec (.atomicPerform gid op l) s = .next (s.atomRun g o (young ++ a :: old) aop ty ret acq rel (Loc.pa a.pa / 64)) := by
  obtain ⟨hg, -, ho, hfin⟩ := hop
  have found : (young ++ a :: old).find? (fun a => a.lane = l && !a.fin) = some a :=
    find?_alone (by simp [named, live]) fun b hb => by simp [others b (List.mem_append_left _ hb)]
  dsimp only [exec, execAtomicPerform]
  rw [hg]
  dsimp only
  rw [ho]
  dsimp only
  rw [kind]
  dsimp only
  rw [hfin, ready, found]
  simp [here]

theorem atomicsPerformed {s : State} {gid op l : Nat} {g : Group} {o : Op} {young old : List AtomLane} {a : AtomLane} {aop : AtomOp} {ty : Ty} {ret : Bool}
    {acq rel : Option Scope} (hop : OpenOp s gid op g o) (ready : s.ready g o = true) (kind : o.kind = .atomic (young ++ a :: old) aop ty ret acq rel)
    (named : a.lane = l) (live : a.fin = false)
    (others : ∀ b ∈ young ++ old, b.lane ≠ l ∧ (b.fin = false → Loc.pa b.pa / 64 ≠ Loc.pa a.pa / 64)) (plain : plainLoc a.pa) (sound : s.poisoned a.pa = false) :
    let r := s.atomAt g.vf aop ty a (g.writer o.seq)
    ∃ t, exec (.atomicPerform gid op l) s = .next t ∧ t.mem = r.1.mem ∧ t.l2 = r.1.l2 ∧ ∀ h, r.1.group? gid = some h →
      t.group? gid = some (h.atomReturned o l (oldValue ty r.2) (young ++ { a with fin := true } :: old) aop ty ret acq rel) := by
  intro r
  subst named
  obtain ⟨u, near, run⟩ := State.atomRun_alone (aop := aop) (ty := ty) (ret := ret) (acq := acq) (rel := rel) (g := g) (o := o) live
    (fun b hb => (others b hb).2) plain sound
  obtain ⟨done, value⟩ := near.atomAt plain.1 aop ty (g.writer o.seq) (vf := g.vf)
  have event := State.atomicPerform_run hop ready kind rfl live (fun b hb => (others b hb).1) plain.1
  rw [run, value, State.id_of_group? hop.1] at event
  refine ⟨_, event, ?_, ?_, fun h hh => ?_⟩
  · split <;> simpa using done.mem
  · split <;> simpa using done.l2
  · have returned := State.group?_updGroup ((done.group? gid).trans hh) fun h =>
      Group.atomReturned_id h o a.lane (oldValue ty r.2) (young ++ { a with fin := true } :: old) aop ty ret acq rel
    split <;> simpa [r] using returned

/-! ### A reply of a remote atomic (R167, R168) -/

namespace State

/-- Whether an engine may access bytes looks at no link but for the writes over it that are not acknowledged (R172, R305). -/
theorem engineReady_links {s : State} {ls : Vector Link 5} (same : ∀ k, (tget ls k {}).unacked = (s.link k).unacked) (g : Group) (seq : Nat) (t : List Span) :
    ({ s with links := ls } : State).engineReady g seq t = s.engineReady g seq t := by
  have acked : ∀ gid, ({ s with links := ls } : State).acked gid = s.acked gid := fun gid =>
    congrArg (List.all (List.range 5)) (funext fun k => congrArg (List.all · _) (same k))
  have order : ∀ (h : Group) (o : Op), ({ s with links := ls } : State).inOrder h o = s.inOrder h o := by
    intro h o; unfold inOrder; simp only [acked]
  have free : ∀ (h : Group) (o : Op), ({ s with links := ls } : State).free h o = s.free h o := by
    intro h o; unfold State.free; simp only [order]; rfl
  unfold engineReady consulted
  simp only [free]
  rfl

/-- A link without the requests of a lane among its outstanding ones (R167). -/
def sansRequest (gid op l : Nat) (k : Link) : Link := { k with np := k.np.filter fun e => !(e.gid = gid && e.op = op && e.lane = l) }

/-- The machine whose links have no request of a lane outstanding any more (R167). -/
def unasked (s : State) (gid op l : Nat) : State := { s with links := s.links.map (sansRequest gid op l) }

theorem unasked_beside (s : State) (gid op l : Nat) : Beside s (s.unasked gid op l) := ⟨_, _, rfl⟩

theorem unasked_engineReady (s : State) (gid op l : Nat) (g : Group) (seq : Nat) (t : List Span) :
    (s.unasked gid op l).engineReady g seq t = s.engineReady g seq t :=
  engineReady_links (fun k => (congrArg Link.unacked (tget_map (sansRequest gid op l) s.links k {}) : _)) g seq t

/-- A lane of a remote atomic in device memory whose line is not poisoned is performed there, with STATUS 1 (R167, R168). -/
theorem remoteAnswer_home {s : State} {g : Group} {o : Op} {aop : AtomOp} {ty : Ty} {a : AtomLane} (plain : plainLoc a.pa) (sound : s.poisoned a.pa = false)
    (fail : Bool) :
    s.remoteAnswer g o aop ty a fail =
      ((s.atomAt g.vf aop ty a (g.writer o.seq)).1, 1, oldValue ty (s.atomAt g.vf aop ty a (g.writer o.seq)).2) := by
  unfold remoteAnswer
  dsimp only
  rw [plain.1, sound]
  rw [Bool.not_false, if_pos rfl, if_neg Bool.false_ne_true, watch_unwatched plain.2]

theorem atomAt_apart (s : State) {vf : Nat} {a : AtomLane} (here : isWindow (Loc.pa a.pa) = false) (aop : AtomOp) (ty : Ty) (w : Writer) :
    (s.atomAt vf aop ty a w).1.apart = s.apart := (write_apart _ here ..).trans (serveRead_apart ..)

/-- The reply record of a page that is not watched, of a function that holds its slice, is written (R168, R380). -/
theorem deliverReply_now {s : State} {vf pa : Nat} (unwatched : Loc.watch pa = none) (holds : s.holds vf = true) (va : Nat) (d : List Byte) (w : Writer) (ag : Agent)
    (l : Nat) : s.deliverReply vf va pa d w ag l = s.write vf va pa d w := by
  unfold deliverReply
  rw [if_pos holds, watch_unwatched unwatched]

end State

theorem remoteAtomicPerformed {s : State} {gid op l : Nat} {g : Group} {o : Op} {young old : List AtomLane} {a : AtomLane} {aop : AtomOp} {ty : Ty}
    {recs : List LaneAcc} {r : LaneAcc} (hop : OpenOp s gid op g o) (kind : o.kind = .ratom (young ++ a :: old) aop ty recs) (named : a.lane = l)
    (live : a.fin = false) (free : a.held = false) (plain : plainLoc a.pa) (sound : s.poisoned a.pa = false)
    (ready : s.engineReady g op [(0, Loc.pa a.pa, tyBytes ty)] = true)
    (others : ∀ b ∈ young ++ old, b.lane ≠ l ∧ (b.fin = false → Loc.pa b.pa / 64 ≠ Loc.pa a.pa / 64)) (record : recs.find? (fun r => r.lane = l) = some r)
    (unwatched : Loc.watch r.pa = none) (holds : s.holds g.vf = true) :
    let f := s.atomAt g.vf aop ty a (g.writer o.seq)
    let w := f.1.write g.vf r.va r.pa (replyBytes 1 (oldValue ty f.2)) (g.writer o.seq)
    ∃ t, exec (.ratomReply gid op l false) s = .next t ∧ t.mem = w.mem ∧ t.l2 = w.l2 := by
  intro f w
  obtain ⟨hg, -, ho, hfin⟩ := hop
  subst named
  have pauses : s.repliesPaused gid op = false := by
    unfold State.repliesPaused
    rw [hg]
    dsimp only
    split
    · rw [holds]; rfl
    · rfl
  have near := s.unasked_beside gid op a.lane
  obtain ⟨done, value⟩ := near.atomAt plain.1 aop ty (g.writer o.seq) (vf := g.vf)
  have mine : (!a.fin && !a.held && (decide (a.lane = a.lane) || (!isWindow (Loc.pa a.pa) && decide (Loc.pa a.pa / 64 = Loc.pa a.pa / 64)))) = true := by
    simp [live, free]
  have rest : ∀ b ∈ young ++ old,
      (!b.fin && !b.held && (decide (b.lane = a.lane) || (!isWindow (Loc.pa a.pa) && decide (Loc.pa b.pa / 64 = Loc.pa a.pa / 64)))) = false := by
    intro b hb
    obtain ⟨lane, line⟩ := others b hb
    rcases Bool.eq_false_or_eq_true b.fin with fin | open_
    · simp [fin]
    · simp [lane, line open_]
  have only : (young ++ a :: old).filter (fun b =>
      !b.fin && !b.held && (decide (b.lane = a.lane) || (!isWindow (Loc.pa a.pa) && decide (Loc.pa b.pa / 64 = Loc.pa a.pa / 64)))) = [a] := filter_alone mine rest
  have found : (young ++ a :: old).find? (fun b => decide (b.lane = a.lane) && !b.fin && !b.held) = some a :=
    find?_alone (by simp [live, free]) fun b hb => by simp [(others b (List.mem_append_left _ hb)).1]
  have still : ((s.unasked gid op a.lane).atomAt g.vf aop ty a (g.writer o.seq)).1.holds g.vf = true :=
    (State.holds_of_apart (State.atomAt_apart _ plain.1 ..) _).trans holds
  have memory := done.write_memory g.vf r.va r.pa (replyBytes 1 (oldValue ty f.2)) (g.writer o.seq)
  have event : ∃ k, exec (.ratomReply gid op a.lane false) s =
      .next ((((s.unasked gid op a.lane).atomAt g.vf aop ty a (g.writer o.seq)).1.write g.vf r.va r.pa (replyBytes 1 (oldValue ty f.2))
        (g.writer o.seq)).updGroup gid k) := by
    dsimp only [exec, execRatomReply]
    rw [pauses, if_neg Bool.false_ne_true]
    change ∃ k, Host.Outcome.next ((s.unasked gid op a.lane).ratomReply gid op a.lane false) = _
    unfold State.ratomReply
    rw [near.group?, hg]
    dsimp only
    rw [ho]
    dsimp only
    rw [kind]
    dsimp only
    rw [if_neg (by simp), found]
    dsimp only
    rw [only]
    dsimp only [List.map, List.foldl]
    rw [if_neg (by rw [State.unasked_engineReady, ready]; simp),
      State.remoteAnswer_home plain ((near.poisoned _).trans sound), record]
    dsimp only
    rw [State.deliverReply_now unwatched still, value]
    exact ⟨_, rfl⟩
  obtain ⟨k, event⟩ := event
  exact ⟨_, event, (State.updGroup_mem ..).trans memory.1, (State.updGroup_l2 ..).trans memory.2⟩

/-- Settles O34: an atomic's lane is performed on a machine that differs from the statement's in its cores alone, and a reply on one that differs in its links. -/
theorem atomicsArePerformed : Obligations.AtomicsArePerformed := by
  unfold Obligations.AtomicsArePerformed
  refine ⟨fun s gid op l g o young old a aop ty ret acq rel hop ready kind named _ live others plain sound => ?_,
    fun s gid op l g o young old a aop ty recs r hop kind named live free plain sound ready others record unwatched holds =>
      remoteAtomicPerformed hop kind named live free plain sound ready others record unwatched holds⟩
  obtain rfl : o.seq = op := Group.seq_of_op? hop.2.2.1
  exact atomicsPerformed hop ready kind named live others plain sound

end Sys2Proof.Machine
end

section
/-!
Bytes at their homes (R323 to R325, R331, R334): two machines whose memory agrees outside a set of bytes read alike outside it, and a write in uncompressed memory
changes the bytes that it names alone.
-/
set_option Elab.async false
namespace Sys2Proof.Machine
open Sys2Proof

/-! ### Runs of bytes -/

theorem getElem?_of_getD {α : Type} {l l' : List α} {i : Nat} {d : α} (len : l'.length = l.length) (h : l'.getD i d = l.getD i d) : l'[i]? = l[i]? := by
  by_cases hi : i < l.length
  · rw [List.getD_eq_getElem _ _ (len ▸ hi), List.getD_eq_getElem _ _ hi] at h
    rw [List.getElem?_eq_getElem (len ▸ hi), List.getElem?_eq_getElem hi, h]
  · rw [List.getElem?_eq_none (by omega), List.getElem?_eq_none (by omega)]

theorem take_drop_congr {α : Type} {l l' : List α} {o n : Nat} (h : ∀ i, o ≤ i → i < o + n → l'[i]? = l[i]?) : (l'.drop o).take n = (l.drop o).take n := by
  refine List.ext_getElem? fun i => ?_
  rw [List.getElem?_take, List.getElem?_take]
  split
  next hi => rw [List.getElem?_drop, List.getElem?_drop, h (o + i) (by omega) (by omega)]
  · rfl

/-- A line in which bytes are replaced (R325). -/
theorem getD_spliceLine {b d : List Byte} {o : Nat} (fits : o + d.length ≤ b.length) (i : Nat) :
    (State.spliceLine b o d).getD i 0 = if o ≤ i ∧ i < o + d.length then d.getD (i - o) 0 else b.getD i 0 := by
  have front : (b.take o).length = o := by rw [List.length_take]; omega
  unfold State.spliceLine
  simp only [List.getD_eq_getElem?_getD]
  split
  next inside =>
    rw [List.append_assoc, List.getElem?_append_right (by omega), List.getElem?_append_left (by omega), front]
  next outside =>
    by_cases before : i < o
    · rw [List.append_assoc, List.getElem?_append_left (by omega), List.getElem?_take, if_pos before]
    · rw [List.getElem?_append_right (by rw [List.length_append]; omega), List.getElem?_drop, List.length_append, front]
      congr 2
      omega

theorem length_spliceLine {b d : List Byte} {o : Nat} (fits : o + d.length ≤ b.length) : (State.spliceLine b o d).length = b.length := by
  simp only [State.spliceLine, List.length_append, List.length_take, List.length_drop]
  omega

namespace Memory

theorem readN_congr {m m' : List Host.Cell} : ∀ {n a : Nat}, (∀ x, a ≤ x → x < a + n → read m' x = read m x) → readN m' a n = readN m a n
  | 0, _, _ => rfl
  | n + 1, a, h => congrArg₂ List.cons (h a (by omega) (by omega)) (readN_congr fun x lo hi => h x (by omega) (by omega))

/-- A byte among the written ones reads as it was written. -/
theorem read_writeN_inside : ∀ {d : List Byte} {m : List Host.Cell} {a p : Nat}, wf m → a ≤ p → p < a + d.length → read (writeN m a d) p = d.getD (p - a) 0
  | [], _, _, _, _, lo, hi => absurd hi (by simpa using lo)
  | b :: r, m, a, p, h, lo, hi => by
    rw [List.length_cons] at hi
    by_cases first : p = a
    · subst first
      rw [writeN, read_writeN _ _ _ (write_wf p b h) (.inl (by omega)), Nat.sub_self]
      exact Sparse.get_set_self p b h
    · rw [writeN, read_writeN_inside (write_wf a b h) (by omega) (by omega), show p - a = (p - (a + 1)) + 1 by omega, List.getD_cons_succ]

end Memory

/-! ### Locations -/

theorem Loc.pa_of_lt {x : Nat} (h : x < 2 ^ 60) : Loc.pa x = x := Nat.mod_eq_of_lt h
theorem Loc.comp_of_lt {x : Nat} (h : x < 2 ^ 60) : Loc.comp x = false := by
  unfold Loc.comp bitOf
  rw [Nat.div_eq_of_lt h]
  rfl

namespace State

/-! ### What the home of a byte gives -/

theorem homeRead_congr (s : State) {loc loc' : Nat} (pa : Loc.pa loc' = Loc.pa loc) (comp : Loc.comp loc' = Loc.comp loc) (n : Nat) :
    s.homeRead loc' n = s.homeRead loc n := by
  unfold homeRead l2At ctlRead
  dsimp only
  rw [pa, comp]

theorem byteAt_congr (s : State) {loc loc' : Nat} (pa : Loc.pa loc' = Loc.pa loc) (comp : Loc.comp loc' = Loc.comp loc) : s.byteAt loc' = s.byteAt loc := by
  unfold byteAt; rw [homeRead_congr s pa comp]

theorem homeRead_held {s : State} {loc : Nat} {l : L2Line} (h : s.l2At loc = some l) (n : Nat) :
    s.homeRead loc n = (l.bytes.drop (Loc.pa loc % 64)).take n := by unfold homeRead; rw [h]

theorem homeRead_missing {s : State} {loc : Nat} (h : s.l2At loc = none) (n : Nat) : s.homeRead loc n = s.ctlRead loc n := by unfold homeRead; rw [h]

theorem ctlRead_plain {s : State} {loc : Nat} (here : isWindow (Loc.pa loc) = false) (comp : Loc.comp loc = false) (n : Nat) :
    s.ctlRead loc n = Memory.readN s.mem (Loc.pa loc) n := by
  unfold ctlRead
  dsimp only
  rw [here, comp, if_neg Bool.false_ne_true, if_neg Bool.false_ne_true]

theorem byteAt_held {s : State} {loc : Nat} {l : L2Line} (h : s.l2At loc = some l) : s.byteAt loc = l.bytes.getD (Loc.pa loc % 64) 0 := by
  rw [byteAt, homeRead_held h, List.getD_eq_getElem?_getD, List.getElem?_take, if_pos Nat.zero_lt_one, List.getElem?_drop, Nat.add_zero,
    ← List.getD_eq_getElem?_getD]

theorem byteAt_missing {s : State} {loc : Nat} (h : s.l2At loc = none) (here : isWindow (Loc.pa loc) = false) (comp : Loc.comp loc = false) :
    s.byteAt loc = Memory.read s.mem (Loc.pa loc) := by
  rw [byteAt, homeRead_missing h, ctlRead_plain here comp]
  rfl

/-! ### Memories that agree outside a set of bytes -/

/-- An L2 line and another one in its place, which may differ in the bytes of `H`, in whether it is dirty, and in whether it leaves first. -/
structure Stands (H : Nat → Prop) (m m' : L2Line) : Prop where
  vf : m'.vf = m.vf
  line : m'.line = m.line
  pa : m'.pa = m.pa
  attr : m'.attr = m.attr
  length : m'.bytes.length = m.bytes.length
  bytes : ∀ i, ¬H (64 * m.pa + i) → m'.bytes.getD i 0 = m.bytes.getD i 0

/-- The memory of machine `t` is that of `s` outside the bytes `H`, in the L2 and behind it. -/
structure Agree (H : Nat → Prop) (s t : State) : Prop where
  lines : List.Forall₂ (Stands H) s.l2 t.l2
  same : (∀ x, ¬H x) → t.mem = s.mem
  mem : Memory.wf s.mem → Memory.wf t.mem ∧ ∀ x, ¬H x → Memory.read t.mem x = Memory.read s.mem x
  cmbase : t.cmbase = s.cmbase
  steps : t.steps = s.steps

theorem Stands.refl (H : Nat → Prop) (m : L2Line) : Stands H m m := ⟨rfl, rfl, rfl, rfl, rfl, fun _ _ => rfl⟩

theorem Stands.trans {H : Nat → Prop} {a b c : L2Line} (h : Stands H a b) (k : Stands H b c) : Stands H a c :=
  ⟨k.vf.trans h.vf, k.line.trans h.line, k.pa.trans h.pa, k.attr.trans h.attr, k.length.trans h.length, fun i out =>
    (k.bytes i (by rwa [h.pa])).trans (h.bytes i out)⟩

theorem forall₂_map_right {α : Type} {R : α → α → Prop} {f : α → α} (hf : ∀ a, R a (f a)) : ∀ l : List α, List.Forall₂ R l (l.map f)
  | [] => .nil
  | a :: l => .cons (hf a) (forall₂_map_right hf l)

theorem forall₂_refl {α : Type} {R : α → α → Prop} (hR : ∀ a, R a a) (l : List α) : List.Forall₂ R l l := List.forall₂_same.2 fun a _ => hR a

theorem forall₂_trans {α : Type} {R : α → α → Prop} (hR : ∀ a b c, R a b → R b c → R a c) :
    ∀ {l m n : List α}, List.Forall₂ R l m → List.Forall₂ R m n → List.Forall₂ R l n
  | _, _, _, .nil, .nil => .nil
  | _, _, _, .cons h hs, .cons k ks => .cons (hR _ _ _ h k) (forall₂_trans hR hs ks)

/-- What a list holds stands in the place of something that the other one holds. -/
theorem forall₂_mem {α : Type} {R : α → α → Prop} {b : α} : ∀ {l m : List α}, List.Forall₂ R l m → b ∈ m → ∃ a ∈ l, R a b
  | _, _, .cons h hs, hb => by
    rcases List.mem_cons.1 hb with rfl | hb
    · exact ⟨_, List.mem_cons_self, h⟩
    · obtain ⟨a, ha, r⟩ := forall₂_mem hs hb
      exact ⟨a, List.mem_cons_of_mem _ ha, r⟩

/-- A search finds in the one list what stands in the place of what it finds in the other. -/
theorem forall₂_find? {α : Type} {R : α → α → Prop} {p : α → Bool} (hp : ∀ a b, R a b → p b = p a) :
    ∀ {l m : List α}, List.Forall₂ R l m → Option.Rel R (l.find? p) (m.find? p)
  | _, _, .nil => .none
  | a :: l, b :: m, .cons h hs => by
    rw [List.find?_cons, List.find?_cons, hp a b h]
    cases p a with
    | true => exact .some h
    | false => exact forall₂_find? hp hs

namespace Agree
variable {H : Nat → Prop} {s t u : State}

theorem refl (H : Nat → Prop) (s : State) : Agree H s s :=
  ⟨forall₂_refl (Stands.refl H) _, fun _ => rfl, fun h => ⟨h, fun _ _ => rfl⟩, rfl, rfl⟩

theorem trans (h : Agree H s t) (k : Agree H t u) : Agree H s u :=
  ⟨forall₂_trans (R := Stands H) (fun _ _ _ => Stands.trans) h.lines k.lines, fun none_ => (k.same none_).trans (h.same none_),
    fun wf => ⟨(k.mem (h.mem wf).1).1, fun x out => ((k.mem (h.mem wf).1).2 x out).trans ((h.mem wf).2 x out)⟩,
    k.cmbase.trans h.cmbase, k.steps.trans h.steps⟩

/-- What keeps memory, the L2, the metadata and the step keeps the memory that is read. -/
theorem of_eq (mem : t.mem = s.mem) (l2 : t.l2 = s.l2) (cmbase : t.cmbase = s.cmbase) (steps : t.steps = s.steps) : Agree H s t :=
  ⟨l2 ▸ forall₂_refl (Stands.refl H) _, fun _ => mem, fun h => ⟨mem ▸ h, fun _ _ => mem ▸ rfl⟩, cmbase, steps⟩

theorem l2At (h : Agree H s t) (loc : Nat) : Option.Rel (Stands H) (s.l2At loc) (t.l2At loc) :=
  forall₂_find? (fun _ _ k => by rw [k.pa, k.attr]) h.lines

theorem isSome_l2At (h : Agree H s t) (loc : Nat) : (t.l2At loc).isSome = (s.l2At loc).isSome := by
  have r := h.l2At loc
  generalize s.l2At loc = x at r ⊢
  generalize t.l2At loc = y at r ⊢
  cases r <;> rfl

theorem whole (h : Agree H s t) (lines : s.LinesWhole) : t.LinesWhole := fun l hl => by
  obtain ⟨m, hm, k⟩ := forall₂_mem h.lines hl
  exact k.length.trans (lines m hm)

theorem unaliased (h : Agree H s t) {vf va loc : Nat} (un : s.unaliased vf va loc) : t.unaliased vf va loc := fun l hl at_ => by
  obtain ⟨m, hm, k⟩ := forall₂_mem h.lines hl
  rw [k.vf, k.line]
  exact un m hm (k.pa ▸ at_)

/-- A run without bytes of `H`, in uncompressed memory, reads alike; where `H` is empty, every run does. -/
theorem homeRead (h : Agree H s t) (wf : Memory.wf s.mem) {loc n : Nat} (here : isWindow (Loc.pa loc) = false) (comp : Loc.comp loc = false)
    (out : ∀ x, Loc.pa loc ≤ x → x < Loc.pa loc + n → ¬H x) : t.homeRead loc n = s.homeRead loc n := by
  have at_ := h.l2At loc
  cases sl : s.l2At loc with
  | none =>
    cases tl : t.l2At loc with
    | some m => rw [sl, tl] at at_; cases at_
    | none =>
      rw [homeRead_missing sl, homeRead_missing tl, ctlRead_plain here comp, ctlRead_plain here comp]
      exact Memory.readN_congr fun x lo hi => (h.mem wf).2 x (out x lo hi)
  | some l =>
    cases tl : t.l2At loc with
    | none => rw [sl, tl] at at_; cases at_
    | some m =>
      rw [sl, tl] at at_
      have k : Stands H l m := by cases at_; assumption
      rw [homeRead_held sl, homeRead_held tl]
      have pl := (pa_of_l2At sl).1
      exact take_drop_congr fun i lo hi => getElem?_of_getD (d := 0) k.length (k.bytes i (out _ (by omega) (by omega)))

theorem byteAt (h : Agree H s t) (wf : Memory.wf s.mem) {loc : Nat} (here : isWindow (Loc.pa loc) = false) (comp : Loc.comp loc = false)
    (out : ¬H (Loc.pa loc)) : t.byteAt loc = s.byteAt loc := by
  unfold State.byteAt
  rw [h.homeRead wf here comp fun x lo hi => by rwa [show x = Loc.pa loc by omega]]

/-- Where memory agrees in every byte, every run reads alike. -/
theorem homeRead_all (h : Agree (fun _ => False) s t) (loc n : Nat) : t.homeRead loc n = s.homeRead loc n := by
  have at_ := h.l2At loc
  have mem := h.same fun _ => id
  cases sl : s.l2At loc with
  | none =>
    cases tl : t.l2At loc with
    | some m => rw [sl, tl] at at_; cases at_
    | none =>
      rw [homeRead_missing sl, homeRead_missing tl]
      unfold ctlRead block sizeCode metaByte
      rw [mem, h.cmbase, h.steps]
  | some l =>
    cases tl : t.l2At loc with
    | none => rw [sl, tl] at at_; cases at_
    | some m =>
      rw [sl, tl] at at_
      have k : Stands (fun _ => False) l m := by cases at_; assumption
      rw [homeRead_held sl, homeRead_held tl]
      exact take_drop_congr fun i _ _ => getElem?_of_getD (d := 0) k.length (k.bytes i id)

/-! ### Steps that change memory in a set of bytes alone -/

theorem markEv (s : State) (loc : Nat) : Agree H s (s.markEv loc) :=
  ⟨forall₂_map_right (fun l => by
    split
    · exact ⟨rfl, rfl, rfl, rfl, rfl, fun _ _ => rfl⟩
    · exact Stands.refl H l) s.l2, fun _ => rfl, fun wf => ⟨wf, fun _ _ => rfl⟩, rfl, rfl⟩

theorem unpoison (s : State) (loc n : Nat) : Agree H s (s.unpoison loc n) := by
  unfold State.unpoison
  split
  · exact of_eq rfl rfl rfl rfl
  · exact refl H s

/-- A write within one line of uncompressed memory changes the bytes that it covers alone (R325). -/
theorem homeWrite {s : State} (whole : s.LinesWhole) {loc : Nat} {d : List Byte} (comp : Loc.comp loc = false) (fits : Loc.pa loc % 64 + d.length ≤ 64)
    (inH : ∀ x, Loc.pa loc ≤ x → x < Loc.pa loc + d.length → H x) : Agree H s (s.homeWrite loc d) := by
  have cleared : Agree H s (s.unpoison loc d.length) := unpoison s loc d.length
  cases sl : s.l2At loc with
  | some l =>
    rw [homeWrite_held sl]
    refine ⟨?_, cleared.same, cleared.mem, cleared.cmbase, cleared.steps⟩
    exact List.forall₂_map_right_iff.2 <| List.forall₂_same.2 fun m hm => by
      have len : m.bytes.length = 64 := whole m hm
      split
      next at_ =>
        refine ⟨rfl, rfl, rfl, rfl, length_spliceLine (len ▸ fits), fun i out => ?_⟩
        dsimp only
        rw [getD_spliceLine (len ▸ fits), if_neg fun inside => out (inH _ (by omega) (by omega))]
      · exact Stands.refl H m
  | none =>
    rw [homeWrite_missing sl]
    refine cleared.trans ?_
    unfold ctlWrite
    dsimp only
    rw [comp, if_neg Bool.false_ne_true]
    refine ⟨forall₂_refl (Stands.refl H) _, fun none_ => ?_, fun wf => ⟨Memory.writeN_wf _ _ wf, fun x out => ?_⟩, rfl, rfl⟩
    · cases d with
      | nil => rfl
      | cons b r => exact absurd (inH _ (Nat.le_refl _) (by simp)) (none_ _)
    · refine Memory.read_writeN _ _ _ wf ?_
      by_contra inside
      exact out (inH x (by omega) (by omega))

end Agree

/-- A byte that a write within one line of uncompressed memory covers is the byte that it gives (R325). -/
theorem byteAt_homeWrite {s : State} (wf : Memory.wf s.mem) (whole : s.LinesWhole) {loc x : Nat} {d : List Byte} (comp : Loc.comp loc = false)
    (fits : Loc.pa loc % 64 + d.length ≤ 64) (small : x < 2 ^ 60) (here : isWindow x = false) (lo : Loc.pa loc ≤ x) (hi : x < Loc.pa loc + d.length) :
    (s.homeWrite loc d).byteAt x = d.getD (x - Loc.pa loc) 0 := by
  have line : Loc.pa x / 64 = Loc.pa loc / 64 := by rw [Loc.pa_of_lt small]; omega
  have same : ∀ u : State, u.l2At x = u.l2At loc := fun u => by unfold l2At; rw [line, Loc.comp_of_lt small, comp]
  cases sl : s.l2At loc with
  | some l =>
    have len : l.bytes.length = 64 := whole l (List.mem_of_find?_eq_some sl)
    have held : (s.homeWrite loc d).l2At x = some { l with bytes := spliceLine l.bytes (Loc.pa loc % 64) d, dirty := true } := by
      rw [same, homeWrite_held sl]
      unfold l2At splice
      dsimp only
      rw [List.find?_map]
      have p : ((fun l : L2Line => decide (l.pa = Loc.pa loc / 64) && decide (l.attr.comp = Loc.comp loc)) ∘ fun m =>
          if m.pa = Loc.pa loc / 64 then { m with bytes := spliceLine m.bytes (Loc.pa loc % 64) d, dirty := true } else m) =
          fun l => decide (l.pa = Loc.pa loc / 64) && decide (l.attr.comp = Loc.comp loc) := by
        funext m
        dsimp only [Function.comp]
        split <;> rfl
      rw [p]
      change Option.map _ (s.l2At loc) = _
      rw [sl, Option.map_some, if_pos (pa_of_l2At sl).1]
    rw [byteAt_held held, getD_spliceLine (len ▸ fits), if_pos (by rw [Loc.pa_of_lt small]; omega), Loc.pa_of_lt small]
    congr 1
    omega
  | none =>
    have missing : (s.homeWrite loc d).l2At x = none := by
      rw [same, homeWrite_missing sl]
      unfold l2At ctlWrite
      dsimp only
      rw [comp, if_neg Bool.false_ne_true, unpoison_l2]
      rw [← comp]
      exact sl
    rw [byteAt_missing missing (by rwa [Loc.pa_of_lt small]) (Loc.comp_of_lt small), homeWrite_missing sl]
    unfold ctlWrite
    dsimp only
    rw [comp, if_neg Bool.false_ne_true, unpoison_mem, Loc.pa_of_lt small]
    exact Memory.read_writeN_inside wf lo hi

end State

end Sys2Proof.Machine
end

section
/-!
Loads (R160, R163, R170, R331): a load reads each of its accesses at its home. What it does beside reading, the counts of fills apart, stays in the caches.
-/
set_option Elab.async false
namespace Sys2Proof.Machine
open Sys2Proof

theorem OpKind.store_of_isStore {k : OpKind} (h : k.isStore = true) : ∃ accs data rel, k = .store accs data rel := by
  unfold isStore at h
  split at h
  · exact ⟨_, _, _, rfl⟩
  · cases h

namespace State

/-! ### Changes of groups and of the cores alone -/

@[simp] theorem updGroup_cmbase (s : State) (id : Nat) (f : Group → Group) : (s.updGroup id f).cmbase = s.cmbase := by unfold updGroup; split <;> rfl
@[simp] theorem updGroup_steps (s : State) (id : Nat) (f : Group → Group) : (s.updGroup id f).steps = s.steps := by unfold updGroup; split <;> rfl
@[simp] theorem updGroup_wgs (s : State) (id : Nat) (f : Group → Group) : (s.updGroup id f).wgs = s.wgs := by unfold updGroup; split <;> rfl

/-- The machine `t` is `s` but for its cores. -/
def InCores (s t : State) : Prop := ∃ c, t = { s with cores := c }

namespace InCores
variable {s t : State}

theorem refl (s : State) : InCores s s := ⟨_, rfl⟩
theorem updCore (h : InCores s t) (n : Nat) (f : Core → Core) : InCores s (t.updCore n f) := by obtain ⟨c, rfl⟩ := h; exact ⟨_, rfl⟩

theorem sansMemory (h : InCores s t) : t.sansMemory = s.sansMemory := by obtain ⟨c, rfl⟩ := h; rfl
theorem agree {H : Nat → Prop} (h : InCores s t) : Agree H s t := by obtain ⟨c, rfl⟩ := h; exact .of_eq rfl rfl rfl rfl

theorem trimL1 (h : InCores s t) (core n : Nat) : InCores s (t.trimL1 core n) := by
  unfold State.trimL1
  dsimp only
  split
  · exact h
  · exact h.updCore ..

theorem dropCoreLine (h : InCores s t) (core : Option Nat) (loc : Nat) : InCores s (t.dropCoreLine core loc) := by
  unfold State.dropCoreLine
  split
  · exact h
  · split
    · exact h
    · exact h.updCore ..

theorem countHits (s : State) (g : Group) (l1 : Bool) (vas : List Nat) : InCores s (s.countHits g l1 vas) := by
  unfold State.countHits
  dsimp only
  split
  · exact refl s
  · exact (refl s).updCore ..

/-- A fill of an L1 changes the cores beside what serving it does (R323). -/
theorem fillL1 (s : State) (core vf va loc : Nat) (a : Attr) (ev : Bool) :
    InCores (s.serveFill vf va loc a.leaf1 a.leaf2) (s.fillL1 core vf va loc a ev) := by
  unfold State.fillL1
  dsimp only
  split
  · exact (refl _).dropCoreLine ..
  · exact ((((refl _).dropCoreLine ..).updCore ..).trimL1 ..).updCore ..

end InCores

theorem group?_of_sansMemory {s t : State} (h : t.sansMemory = s.sansMemory) (gid : Nat) : t.group? gid = s.group? gid :=
  (congrArg (fun x : State => x.group? gid) h : _)
theorem wgs_of_sansMemory {s t : State} (h : t.sansMemory = s.sansMemory) : t.wgs = s.wgs := (congrArg (fun x : State => x.wgs) h : _)

theorem serveFill_sansMemory (s : State) (vf va loc l1 l2 : Nat) : (s.serveFill vf va loc l1 l2).sansMemory = s.sansMemory := by
  unfold serveFill
  dsimp only
  split <;> split <;> simp only [bumpHot_sansMemory, flushLines_sansMemory]

/-! ### Counts of fills (R331) -/

/-- A leaf entry whose count of fills stands, uncompressed, among the bytes `H`. -/
def Counted (H : Nat → Prop) (s : State) (leaf : Nat) : Prop := leaf ≠ 0 → s.LinesWhole ∧ leaf + 7 < 2 ^ 60 ∧ H (leaf + 7)

namespace Agree
variable {H : Nat → Prop} {s t : State}

theorem counted (h : Agree H s t) {leaf : Nat} (c : Counted H s leaf) : Counted H t leaf := fun ne => ⟨h.whole (c ne).1, (c ne).2⟩

theorem bumpHot {leaf : Nat} (c : Counted H s leaf) : Agree H s (s.bumpHot leaf) := by
  unfold State.bumpHot
  dsimp only
  split
  · exact refl H s
  next ne =>
    obtain ⟨whole, small, inH⟩ := c ne
    split
    · exact refl H s
    · refine homeWrite whole (Loc.comp_of_lt small) (by simp only [List.length_singleton]; omega) fun x lo hi => ?_
      rw [Loc.pa_of_lt small] at lo hi
      rw [List.length_singleton] at hi
      rwa [show x = leaf + 7 by omega]

/-- Where no L2 line aliases the access, serving a read changes the counts of its leaves alone (R331, R334). -/
theorem serveFill {vf va loc l1 l2 : Nat} (un : s.unaliased vf va loc) (c : (s.l2At loc).isSome = true ∨ Counted H s l1 ∧ Counted H s l2) :
    Agree H s (s.serveFill vf va loc l1 l2) := by
  have own : s.l2.any (fun l => l.pa = Loc.pa loc / 64 && !(l.vf = vf && l.line = va / 64)) = false := by
    refine List.any_eq_false.2 fun l hl at_ => ?_
    rw [Bool.and_eq_true, decide_eq_true_eq] at at_
    obtain ⟨hvf, hline⟩ := un l hl at_.1
    simp [hvf, hline] at at_
  unfold State.serveFill
  dsimp only
  rw [own, if_neg Bool.false_ne_true]
  split
  · exact refl H s
  next out =>
    obtain ⟨c1, c2⟩ := c.resolve_left fun held => out (by rw [held]; rfl)
    have first := bumpHot c1
    exact first.trans (bumpHot (first.counted c2))

end Agree

/-! ### The accesses of a load -/

/-- An access of a load that serving it for machine `s` leaves as it is: no other copy of its line, no watch, its counts among the bytes `H`, and its own bytes not. -/
structure Readable (H : Nat → Prop) (s : State) (vf n : Nat) (a : LaneAcc) : Prop where
  watch : Loc.watch a.pa = none
  unaliased : s.unaliased vf a.va a.pa
  served : (s.l2At a.pa).isSome = true ∨ Counted H s a.attr.leaf1 ∧ Counted H s a.attr.leaf2
  value : ∀ t, Agree H s t → t.homeRead a.pa n = s.homeRead a.pa n

/-- What a load takes for a lane (R59, R160). -/
def laneBytes (s : State) (n : Nat) (a : LaneAcc) : Nat × List Byte := (a.lane, if a.zero then [] else s.homeRead a.pa n)

theorem readAccs_values {H : Nat → Prop} {s : State} {g : Group} {o : Op} {n : Nat} (l2 : Bool) (young : s.overlay g o.seq = []) :
    ∀ (accs : List LaneAcc) (u : State) (got : List (Nat × List Byte)), (∀ a ∈ accs, a.zero = false → Readable H s g.vf n a) → Agree H s u →
      ∃ v, u.readAccs g o n l2 false accs got = (v, (accs.map (s.laneBytes n)).reverse ++ got) ∧ Agree H s v ∧ v.sansMemory = u.sansMemory
  | [], u, got, _, h => ⟨u, rfl, h, rfl⟩
  | a :: r, u, got, ok, h => by
    have rest := fun x hx => ok x (List.mem_cons_of_mem a hx)
    have append : ∀ b, s.laneBytes n a = b → ((a :: r).map (s.laneBytes n)).reverse ++ got = (r.map (s.laneBytes n)).reverse ++ b :: got := by
      rintro b rfl
      rw [List.map_cons, List.reverse_cons, List.append_assoc, List.singleton_append]
    unfold readAccs
    split
    next zero =>
      rw [append (a.lane, []) (by rw [laneBytes, if_pos zero])]
      exact readAccs_values l2 young r u _ rest h
    next live =>
      obtain ⟨watch, un, served, value⟩ := ok a List.mem_cons_self (Bool.eq_false_iff.2 live)
      have data : u.coreRead g o.seq false a.va a.pa n = s.homeRead a.pa n := by
        have ov : u.overlay g o.seq = [] := young
        unfold coreRead
        dsimp only
        rw [ov]
        exact value u h
      have marked : ∃ m, (if a.ev then u.markEv a.pa else u) = m ∧ Agree H s m ∧ m.sansMemory = u.sansMemory := by
        split
        · exact ⟨_, rfl, h.trans (.markEv u a.pa), rfl⟩
        · exact ⟨_, rfl, h, rfl⟩
      obtain ⟨m, hm, near, still⟩ := marked
      have fill : Agree H s (m.serveFill g.vf a.va a.pa a.attr.leaf1 a.attr.leaf2) :=
        near.trans (.serveFill (near.unaliased un) (served.imp (fun held => (near.isSome_l2At a.pa).trans held) (And.imp near.counted near.counted)))
      have filled : ∃ f, (if l2 then (m.serveFill g.vf a.va a.pa a.attr.leaf1 a.attr.leaf2).dropCoreLine (some g.coreIx) a.pa
          else m.fillL1 g.coreIx g.vf a.va a.pa a.attr a.ev) = f ∧ InCores (m.serveFill g.vf a.va a.pa a.attr.leaf1 a.attr.leaf2) f := by
        split
        · exact ⟨_, rfl, (InCores.refl _).dropCoreLine ..⟩
        · exact ⟨_, rfl, InCores.fillL1 ..⟩
      obtain ⟨f, hf, beside⟩ := filled
      rw [hm]
      simp only [Bool.false_and, Bool.false_eq_true, if_false]
      rw [hf, watch_unwatched watch, ite_self, data, append (a.lane, s.homeRead a.pa n) (by rw [laneBytes, if_neg live])]
      obtain ⟨v, run, after, same⟩ := readAccs_values l2 young r f ((a.lane, s.homeRead a.pa n) :: got) rest (fill.trans beside.agree)
      exact ⟨v, run, after, same.trans (beside.sansMemory.trans ((serveFill_sansMemory ..).trans still))⟩

/-! ### The event (R170) -/

/-- A load of a group without pending stores shows no store (R310). -/
theorem show_young {s : State} {g : Group} {o : Op} (young : s.overlay g o.seq = []) (notStore : o.kind.isStore = false) : s.show g o = s := by
  have none_ : ∀ p ∈ g.ops, p.fin = false → p.kind.isStore = true → p.seq < o.seq → overlaps p.kind.touch o.kind.touch = false := by
    intro p hp live store older
    unfold overlay at young
    rw [List.flatten_eq_nil_iff] at young
    have mine := young _ (List.mem_map_of_mem (List.mem_reverse.2 (List.mem_filter.2 ⟨List.mem_filter.2 ⟨hp, by simp [older, live]⟩, store⟩)))
    obtain ⟨accs, data, rel, kind⟩ := OpKind.store_of_isStore store
    rw [kind] at mine
    have nothing : accs.zip data = [] := by simpa using mine
    simp [kind, OpKind.touch, overlaps, nothing]
  have empty : g.shown o = [] := by
    unfold Group.shown
    dsimp only
    rw [notStore, if_neg Bool.false_ne_true]
    split
    · rw [List.filter_eq_nil_iff.2 fun p hp => ?_]
      · rfl
      · obtain ⟨hp, live⟩ := List.mem_filter.1 hp
        simp only [Bool.and_eq_true, Bool.not_eq_true', decide_eq_true_eq] at live ⊢
        rintro ⟨older, meets⟩
        rw [none_ p hp live.1 live.2 older] at meets
        cases meets
    · rfl
  unfold State.show
  rw [empty]
  rfl

end State

theorem find?_reverse {α : Type} {k : Nat} : ∀ {l : List (Nat × α)}, (l.map (·.1)).Nodup → l.reverse.find? (fun p => p.1 = k) = l.find? (fun p => p.1 = k)
  | [], _ => rfl
  | a :: r, h => by
    obtain ⟨apart, nodup⟩ := List.nodup_cons.1 h
    rw [List.reverse_cons, List.find?_append, find?_reverse nodup]
    by_cases at_ : a.1 = k
    · rw [List.find?_eq_none.2 fun b hb => by
        simp only [decide_eq_true_eq]
        exact fun e => apart (List.mem_map.2 ⟨b, hb, e.trans at_.symm⟩)]
      simp [at_]
    · simp [at_]

theorem extend_nil (sgn : Bool) : extend sgn [] = 0 := by cases sgn <;> rfl

/-- What the lanes of a load have taken returns as the value that each access names (R160). -/
theorem loadedValue_find? (accs : List LaneAcc) (f : LaneAcc → List Byte) (n : Nat) (sgn : Bool) (k l : Nat) :
    loadedValue (accs.map fun a => (a.lane, if a.zero then [] else f a)) n sgn k l =
      match accs.find? (fun a => a.lane = l) with
      | some a => if a.zero then 0 else extend sgn (((f a).drop (n * k)).take n)
      | none => 0 := by
  unfold loadedValue
  rw [List.find?_map]
  simp only [Function.comp_def]
  cases accs.find? fun a => decide (a.lane = l) with
  | none => rfl
  | some a =>
    dsimp only [Option.map]
    split
    · rw [List.drop_nil, List.take_nil, extend_nil]
    · rfl

theorem gotLanes_map (accs : List LaneAcc) (f : LaneAcc → List Byte) :
    gotLanes (accs.map fun a => (a.lane, f a)) = maskOf fun l => accs.any fun a => a.lane = l := by
  unfold gotLanes
  simp only [List.any_map, Function.comp_def]

theorem gotLanes_reverse (got : List (Nat × List Byte)) : gotLanes got.reverse = gotLanes got := by
  unfold gotLanes
  simp only [List.any_reverse]

/-- LOAD_COMPLETE of an open operation that may be performed is what its kind says (R170). -/
theorem loadComplete_ready {s : State} {gid op : Nat} {g : Group} {o : Op} {l1 : Bool} (hop : OpenOp s gid op g o) (ready : s.ready g o = true) :
    exec (.loadComplete gid op l1) s = match o.kind with
      | .load accs n cnt sgn l2 acq => .next (s.loadPerformed g o accs n cnt sgn l2 acq l1)
      | .tload accs wg h n cnt sgn => .next (s.tloadPerformed g o accs wg h n cnt sgn)
      | .append wg h esz vals helpers => .next (s.appendPerformed g o wg h esz vals helpers)
      | .rpoll _ recs ty => .next (s.pollPerformed g o recs ty)
      | _ => .next s := by
  obtain ⟨hg, home, ho, live⟩ := hop
  dsimp only [exec, execLoadComplete]
  rw [hg]
  dsimp only
  rw [ho]
  dsimp only
  rw [live, home, ready]
  rfl

/-- A load whose accesses serving leaves as they are returns what their homes hold (R160, R170). -/
theorem loadComplete_values {H : Nat → Prop} {s : State} {gid op : Nat} {g : Group} {o : Op} {accs : List LaneAcc} {n cnt : Nat} {sgn l2 : Bool}
    (hop : OpenOp s gid op g o) (ready : s.ready g o = true) (kind : o.kind = .load accs n cnt sgn l2 none)
    (here : ∀ a ∈ accs, a.zero = false → isWindow (Loc.pa a.pa) = false) (ok : ∀ a ∈ accs, a.zero = false → s.Readable H g.vf (n * cnt) a)
    (lanes : (accs.map (·.lane)).Nodup) (young : s.overlay g op = []) :
    ∃ t, exec (.loadComplete gid op false) s = .next t ∧ State.Agree H s t ∧ t.wgs = s.wgs ∧
      t.group? gid = some ((g.fillPend op (maskOf fun l => accs.any fun a => a.lane = l) true fun k l => loadValue s accs n cnt sgn k l).finishOp op) := by
  obtain rfl : o.seq = op := Group.seq_of_op? hop.2.2.1
  have none_ : accs.filter (fun a => !a.zero && isWindow (Loc.pa a.pa)) = [] := List.filter_eq_nil_iff.2 fun a ha => by
    rcases Bool.eq_false_or_eq_true a.zero with zero | live
    · simp [zero]
    · simp [here a ha live]
  have all : accs.filter (fun a => a.zero || !isWindow (Loc.pa a.pa)) = accs := List.filter_eq_self.2 fun a ha => by
    rcases Bool.eq_false_or_eq_true a.zero with zero | live
    · simp [zero]
    · simp [here a ha live]
  have counted := State.InCores.countHits s g false ((accs.filter (!·.zero)).map (·.va))
  obtain ⟨v, run, near, still⟩ := State.readAccs_values (o := o) l2 young accs _ [] ok counted.agree
  have beside : v.sansMemory = s.sansMemory := still.trans counted.sansMemory
  have event : exec (.loadComplete gid o.seq false) s = .next (v.updGroup gid fun h =>
      (h.fillPend o.seq (gotLanes (accs.map (s.laneBytes (n * cnt))).reverse) true fun k l =>
        loadedValue (accs.map (s.laneBytes (n * cnt))).reverse n sgn k l).finishOp o.seq) := by
    rw [loadComplete_ready hop ready, kind]
    dsimp only
    unfold State.loadPerformed
    dsimp only
    rw [none_, all, State.show_young young (by rw [kind]; rfl), Bool.false_and, Bool.false_and, run]
    simp [State.request, State.countHits, State.acquireAt, State.id_of_group? hop.1]
  have values : (fun k l => loadedValue (accs.map (s.laneBytes (n * cnt))).reverse n sgn k l) = fun k l => loadValue s accs n cnt sgn k l := by
    funext k l
    have nodup : ((accs.map (s.laneBytes (n * cnt))).map (·.1)).Nodup := by rwa [List.map_map]
    have forward : loadedValue (accs.map (s.laneBytes (n * cnt))).reverse n sgn k l = loadedValue (accs.map (s.laneBytes (n * cnt))) n sgn k l := by
      unfold loadedValue
      rw [find?_reverse nodup]
    exact forward.trans (loadedValue_find? accs (fun a => s.homeRead a.pa (n * cnt)) n sgn k l)
  have mask : gotLanes (accs.map (s.laneBytes (n * cnt))) = maskOf fun l => accs.any fun a => a.lane = l := gotLanes_map accs _
  rw [gotLanes_reverse, mask, values] at event
  refine ⟨_, event, ?_, ?_, State.group?_updGroup ((State.group?_of_sansMemory beside gid).trans hop.1) fun h => Group.finishOp_id ..⟩
  · exact near.trans (.of_eq (State.updGroup_mem ..) (State.updGroup_l2 ..) (State.updGroup_cmbase ..) (State.updGroup_steps ..))
  · exact (State.updGroup_wgs ..).trans (State.wgs_of_sansMemory beside)

theorem loadsComplete_cached {s : State} {gid op : Nat} {g : Group} {o : Op} {accs : List LaneAcc} {n cnt : Nat} {sgn l2 : Bool}
    (hop : OpenOp s gid op g o) (ready : s.ready g o = true) (kind : o.kind = .load accs n cnt sgn l2 none)
    (ok : ∀ a ∈ accs, a.zero = false → plainLoc a.pa ∧ s.unaliased g.vf a.va a.pa ∧ ((s.l2At a.pa).isSome = true ∨ a.hot = []))
    (lanes : (accs.map (·.lane)).Nodup) (young : s.overlay g op = []) :
    ∃ t, exec (.loadComplete gid op false) s = .next t ∧ t.mem = s.mem ∧ t.wgs = s.wgs ∧ (∀ x, t.byteAt x = s.byteAt x) ∧
      t.group? gid = some ((g.fillPend op (maskOf fun l => accs.any fun a => a.lane = l) true fun k l => loadValue s accs n cnt sgn k l).finishOp op) := by
  have readable : ∀ a ∈ accs, a.zero = false → s.Readable (fun _ => False) g.vf (n * cnt) a := fun a ha live => by
    obtain ⟨plain, un, served⟩ := ok a ha live
    refine ⟨plain.2, un, served.imp_right fun none_ => ?_, fun t h => h.homeRead_all a.pa _⟩
    have zero : ∀ x ∈ [a.attr.leaf1, a.attr.leaf2], ¬x ≠ 0 := fun x hx ne => by
      have := List.map_eq_nil_iff.1 none_
      exact absurd (List.filter_eq_nil_iff.1 this x hx) (by simpa using ne)
    exact ⟨fun ne => absurd ne (zero _ (by simp)), fun ne => absurd ne (zero _ (by simp))⟩
  obtain ⟨t, run, near, wgs, returned⟩ := loadComplete_values hop ready kind (fun a ha live => (ok a ha live).1.1) readable lanes young
  exact ⟨t, run, near.same fun _ => id, wgs, fun x => by rw [State.byteAt, State.byteAt, near.homeRead_all], returned⟩

theorem loadsComplete_counted {s : State} {gid op : Nat} {g : Group} {o : Op} {accs : List LaneAcc} {n cnt : Nat} {sgn l2 : Bool}
    (hop : OpenOp s gid op g o) (ready : s.ready g o = true) (kind : o.kind = .load accs n cnt sgn l2 none) (wf : Memory.wf s.mem) (whole : s.LinesWhole)
    (ok : ∀ a ∈ accs, a.zero = false → plainLoc a.pa ∧ s.unaliased g.vf a.va a.pa ∧ Loc.comp a.pa = false ∧
      ∀ b ∈ accs, ∀ x ∈ b.hot, x < 2 ^ 60 ∧ isWindow x = false ∧ ¬(Loc.pa a.pa ≤ x ∧ x < Loc.pa a.pa + n * cnt))
    (lanes : (accs.map (·.lane)).Nodup) (young : s.overlay g op = []) :
    ∃ t, exec (.loadComplete gid op false) s = .next t ∧ t.wgs = s.wgs ∧
      (∀ x < 2 ^ 60, isWindow x = false → (∀ a ∈ accs, a.zero = false → x ∉ a.hot) → t.byteAt x = s.byteAt x) ∧
      t.group? gid = some ((g.fillPend op (maskOf fun l => accs.any fun a => a.lane = l) true fun k l => loadValue s accs n cnt sgn k l).finishOp op) := by
  have readable : ∀ a ∈ accs, a.zero = false → s.Readable (fun x => ∃ b ∈ accs, b.zero = false ∧ x ∈ b.hot) g.vf (n * cnt) a := fun a ha live => by
    obtain ⟨plain, un, comp, apart⟩ := ok a ha live
    have counted : ∀ leaf ∈ [a.attr.leaf1, a.attr.leaf2], State.Counted (fun x => ∃ b ∈ accs, b.zero = false ∧ x ∈ b.hot) s leaf := fun leaf hl ne => by
      have hot : leaf + 7 ∈ a.hot := List.mem_map_of_mem (List.mem_filter.2 ⟨hl, by simpa using ne⟩)
      exact ⟨whole, (apart a ha _ hot).1, a, ha, live, hot⟩
    refine ⟨plain.2, un, .inr ⟨counted _ (by simp), counted _ (by simp)⟩, fun t h => h.homeRead wf plain.1 comp ?_⟩
    rintro x lo hi ⟨b, hb, -, hot⟩
    exact (apart b hb x hot).2.2 ⟨lo, hi⟩
  obtain ⟨t, run, near, wgs, returned⟩ := loadComplete_values hop ready kind (fun a ha live => (ok a ha live).1.1) readable lanes young
  refine ⟨t, run, wgs, fun x small here out => near.byteAt wf (by rwa [Loc.pa_of_lt small]) (Loc.comp_of_lt small) ?_, returned⟩
  rintro ⟨a, ha, live, hot⟩
  exact out a ha live (Loc.pa_of_lt small ▸ hot)

/-- A tile load reads its tile and changes nothing else (R163). -/
theorem tileLoadsComplete {s : State} {gid op : Nat} {g : Group} {o : Op} {accs : List LaneAcc} {wg h n cnt : Nat} {sgn l1 : Bool}
    (hop : OpenOp s gid op g o) (ready : s.ready g o = true) (kind : o.kind = .tload accs wg h n cnt sgn) :
    ∃ t, exec (.loadComplete gid op l1) s = .next t ∧ t.mem = s.mem ∧ t.l2 = s.l2 ∧ t.wgs = s.wgs ∧
      t.group? gid = some ((g.fillPend op (maskOf fun l => accs.any fun a => a.lane = l) true fun k l =>
        match accs.find? (fun a => a.lane = l) with
        | some a => if a.zero then 0 else extend sgn ((((s.handle wg h).readN a.pa (n * cnt)).drop (n * k)).take n)
        | none => 0).finishOp op) := by
  obtain rfl : o.seq = op := Group.seq_of_op? hop.2.2.1
  have event : exec (.loadComplete gid o.seq l1) s = .next (s.updGroup gid fun f => (f.fillPend o.seq (maskOf fun l => accs.any fun a => a.lane = l) true
      fun k l => loadedValue (accs.map fun a => (a.lane, if a.zero then [] else (s.handle wg h).readN a.pa (n * cnt))) n sgn k l).finishOp o.seq) := by
    rw [loadComplete_ready hop ready, kind]
    dsimp only
    unfold State.tloadPerformed
    dsimp only
    rw [gotLanes_map, State.id_of_group? hop.1]
  simp only [loadedValue_find?] at event
  exact ⟨_, event, State.updGroup_mem .., State.updGroup_l2 .., State.updGroup_wgs .., State.group?_updGroup hop.1 fun f => Group.finishOp_id ..⟩

/-- Settles O32: serving the accesses of a load changes counts of fills alone, which no access of it covers. -/
theorem loadsComplete : Obligations.LoadsComplete := by
  unfold Obligations.LoadsComplete
  exact ⟨fun s gid op g o accs n cnt sgn l2 hop ready kind ok lanes young => loadsComplete_cached hop ready kind ok lanes young,
    fun s gid op g o accs n cnt sgn l2 hop ready kind wf whole ok lanes young => loadsComplete_counted hop ready kind wf whole ok lanes young,
    fun s gid op g o accs wg h n cnt sgn l1 hop ready kind _ => tileLoadsComplete hop ready kind⟩

end Sys2Proof.Machine
end

section
/-!
A byte of a copy out of a line that the L2 holds short (R184, R323): the statement asks the L2's lines to hold 64 bytes each of `cpy.out` alone.
-/
set_option Elab.async false
namespace Sys2Proof.Machine
open Sys2Proof

namespace ShortLine

/-- The copy: eight bytes of line 0 into tile 0 of workgroup 1. -/
def copy : CopyOp :=
  { kind := .in_, ga := 0, gp := 0, to_ := 0, rot := 0, rb := 8, nr := 1, recv := [{ wg := 1, h := 0, rowb := 8, bar := none, ack := none }],
    pages := [{ vpage := 0, ppage := 0 }] }

/-- The copy in flight. -/
def flight : Op := { seq := 0, slot1 := false, path := some .copy, pc := 0, kind := .copy copy }

/-- The tile, whose first byte is 5. -/
def tile : Handle := { st := .allocated, rowb := 8, rows := 1, bytes := [(0, 5)] }

/-- The machine: the L2 holds line 0 with no byte in it. -/
def machine : State :=
  { State.reset with
    cur := { id := 1, wg := 1, seq := 1, ops := [flight] },
    wgs := [{ key := 1, gang := 0, launch := 0, vf := 0, cluster := 0, core := 0, wgid := 0, ntiles := 1, handles := tset (tableOf 32 {}) 0 tile }],
    l2 := [{ vf := 0, line := 0, pa := 0, attr := {}, bytes := [], dirty := false }] }

theorem open_ : OpenOp machine 1 0 machine.cur flight := ⟨rfl, by decide +kernel, rfl, rfl⟩

theorem src : copy.src 0 = some 0 := by decide +kernel

/-- The home gives no byte, so byte 0 reads as 0. -/
theorem byteAt_zero : machine.byteAt 0 = 0 := by decide +kernel

/-- The event leaves the tile's first byte. -/
theorem exec_byte : goesOnTo (fun t => (t.handle 1 0).byte 0 = 5) (exec (.copyByteCount 1 0 0) machine) = true := by decide +kernel

end ShortLine

open ShortLine in
/-- Refutes O35: byte 0 of the copy of `ShortLine.machine` reads as 0 at its home, in the L2's line of no bytes, but the event writes nothing into the tile, whose
byte stays 5. That the L2's lines hold 64 bytes each (R323) is a hypothesis of the clause on `cpy.out` alone. -/
theorem not_tileAndBarrierEvents : ¬ Obligations.TileAndBarrierEvents := by
  unfold Obligations.TileAndBarrierEvents
  rintro ⟨-, -, -, copies, -⟩
  have moved := copies machine 1 0 0 machine.cur flight copy { wg := 1, h := 0, rowb := 8, bar := none, ack := none } open_ rfl rfl (by decide) (by decide +kernel)
    (by decide) (by decide +kernel) (by rintro l (h | h) <;> cases h) (by decide +kernel)
  have from_ : ∀ va, copy.src (0 % copy.total) = some va → va = 0 := fun va h => (Option.some.inj (src.symm.trans h)).symm
  obtain ⟨into, -⟩ := moved fun va h => by obtain rfl := from_ va h; exact ⟨⟨by decide +kernel, by decide +kernel⟩, by decide +kernel⟩
  obtain ⟨t, run, -, byte, -⟩ := into (by decide) fun va h => by obtain rfl := from_ va h; decide +kernel
  have stays := exec_byte
  rw [run] at stays
  have five : (t.handle 1 0).byte 0 = 5 := of_decide_eq_true stays
  have zero : (t.handle 1 0).byte 0 = 0 := byte.trans byteAt_zero
  rw [five] at zero
  exact absurd zero (by decide)

end Sys2Proof.Machine
end

section
/-!
Stores of global memory and launches (R160, R161, R305, R352): a write of uncompressed memory puts its bytes at their home, and the lanes of a store do so in turn.
-/
set_option Elab.async false
namespace Sys2Proof.Machine
open Sys2Proof

/-! ### Writes one after another -/

/-- The bytes of a list of writes, each at its place, made in turn. -/
def Covers (at_ : LaneAcc → Nat) (p : LaneAcc × List Byte) (x : Nat) : Prop := at_ p.1 ≤ x ∧ x < at_ p.1 + p.2.length

/-- Where each step of a run writes the bytes of its lane and leaves the others, the run writes them in lane order (R160, R163). -/
theorem writtenInOrder_foldl {σ : Type} {at_ : LaneAcc → Nat} {step : σ → LaneAcc × List Byte → σ} {read : σ → Nat → Byte} {inv : σ → Prop}
    {good : LaneAcc × List Byte → Prop} {x : Nat} (keep : ∀ s p, good p → inv s → inv (step s p))
    (off : ∀ s p, good p → inv s → ¬Covers at_ p x → read (step s p) x = read s x)
    (on : ∀ s p, good p → inv s → Covers at_ p x → read (step s p) x = p.2.getD (x - at_ p.1) 0) :
    ∀ (ps : List (LaneAcc × List Byte)) (s : σ), inv s → (∀ p ∈ ps, good p) →
      inv (ps.foldl step s) ∧ ((∀ p ∈ ps, ¬Covers at_ p x) → read (ps.foldl step s) x = read s x) ∧
      ∀ (i : Nat) (p : LaneAcc × List Byte), ps[i]? = some p → Covers at_ p x → (∀ (j : Nat) (q : LaneAcc × List Byte), i < j → ps[j]? = some q → ¬Covers at_ q x) →
        read (ps.foldl step s) x = p.2.getD (x - at_ p.1) 0
  | [], s, h, _ => ⟨h, fun _ => rfl, fun i p hi => by simp at hi⟩
  | p :: ps, s, h, ok => by
    have mine := ok p List.mem_cons_self
    obtain ⟨last, skip, hit⟩ := writtenInOrder_foldl keep off on ps (step s p) (keep s p mine h) fun q hq => ok q (List.mem_cons_of_mem p hq)
    refine ⟨last, fun none_ => ?_, fun i q hi cov later => ?_⟩
    · exact (skip fun q hq => none_ q (List.mem_cons_of_mem p hq)).trans (off s p mine h (none_ p List.mem_cons_self))
    · cases i with
      | zero =>
        obtain rfl : p = q := by simpa using hi
        refine (skip fun q hq => ?_).trans (on s p mine h cov)
        obtain ⟨j, hj⟩ := List.getElem?_of_mem hq
        exact later (j + 1) q (Nat.succ_pos j) hj
      | succ i => exact hit i q hi cov fun j r lt hr => later (j + 1) r (Nat.succ_lt_succ lt) hr

/-- The run over accesses and their data, as the statements write it. -/
theorem writtenInOrder_zip {at_ : LaneAcc → Nat} {accs : List LaneAcc} {data : List (List Byte)} {new old : Nat → Byte} {x : Nat}
    (skip : (∀ p ∈ accs.zip data, ¬Covers at_ p x) → new x = old x)
    (hit : ∀ (i : Nat) (p : LaneAcc × List Byte), (accs.zip data)[i]? = some p → Covers at_ p x →
      (∀ (j : Nat) (q : LaneAcc × List Byte), i < j → (accs.zip data)[j]? = some q → ¬Covers at_ q x) → new x = p.2.getD (x - at_ p.1) 0) :
    WrittenInOrder at_ accs data new old x := by
  refine ⟨skip, fun i a d ha hd lo hi later => hit i (a, d) (List.getElem?_zip_eq_some.2 ⟨ha, hd⟩) ⟨lo, hi⟩ fun j q lt hq => ?_⟩
  obtain ⟨ha', hd'⟩ := List.getElem?_zip_eq_some.1 hq
  exact later j q.1 q.2 lt ha' hd'

namespace State

/-! ### A write of uncompressed memory (R325) -/

@[simp] theorem updGroup_barLines (s : State) (id : Nat) (f : Group → Group) : (s.updGroup id f).barLines = s.barLines := by unfold updGroup; split <;> rfl

theorem barLines_of_sansMemory {s t : State} (h : t.sansMemory = s.sansMemory) : t.barLines = s.barLines := (congrArg (fun x : State => x.barLines) h : _)

/-- What leaves memory, the L2 and the barriers where they are. -/
structure Aside (s t : State) : Prop where
  mem : t.mem = s.mem
  l2 : t.l2 = s.l2
  cmbase : t.cmbase = s.cmbase
  steps : t.steps = s.steps
  bars : t.barLines = s.barLines

namespace Aside
variable {s t u : State}

theorem refl (s : State) : Aside s s := ⟨rfl, rfl, rfl, rfl, rfl⟩
theorem trans (h : Aside s t) (k : Aside t u) : Aside s u :=
  ⟨k.mem.trans h.mem, k.l2.trans h.l2, k.cmbase.trans h.cmbase, k.steps.trans h.steps, k.bars.trans h.bars⟩
theorem agree {H : Nat → Prop} (h : Aside s t) : Agree H s t := .of_eq h.mem h.l2 h.cmbase h.steps

theorem updGroup (s : State) (id : Nat) (f : Group → Group) : Aside s (s.updGroup id f) := ⟨by simp, by simp, by simp, by simp, by simp⟩
theorem updVf (s : State) (n : Nat) (f : VFun → VFun) : Aside s (s.updVf n f) := ⟨rfl, rfl, rfl, rfl, rfl⟩
theorem inCores (h : InCores s t) : Aside s t := by obtain ⟨c, rfl⟩ := h; exact ⟨rfl, rfl, rfl, rfl, rfl⟩

theorem foldl {α : Type} {f : State → α → State} (hf : ∀ s a, Aside s (f s a)) : ∀ (l : List α) (s : State), Aside s (l.foldl f s)
  | [], s => refl s
  | a :: l, s => (hf s a).trans (foldl hf l (f s a))

theorem keepPast (s : State) (loc : Nat) (d : List Byte) (w : Writer) : Aside s (s.keepPast loc d w) := by
  unfold State.keepPast
  split
  · exact refl s
  · dsimp only
    split
    · exact updGroup ..
    · exact refl s

theorem dropRecs (s : State) (loc : Nat) (keep : Option Nat) : Aside s (s.dropRecs loc keep) :=
  foldl (fun s c => by
    split
    · exact refl s
    · exact ⟨rfl, rfl, rfl, rfl, rfl⟩) _ s

theorem touchDiv (s : State) (vf va n : Nat) : Aside s (s.touchDiv vf va n) := ⟨rfl, rfl, rfl, rfl, rfl⟩

end Aside

theorem breakLine_unregistered {s : State} {loc : Nat} (h : s.noBarrierAt loc) : s.breakLine loc = s := by
  unfold breakLine
  rw [List.find?_eq_none.2 fun b hb => by simpa using h b hb]

/-- What a write prepares before its bytes change (R161, R220). -/
def prepared (s : State) (vf va loc : Nat) (d : List Byte) (w : Writer) : State := (s.bumpRegions vf va d.length).keepPast loc d w

theorem aside_prepared (s : State) (vf va loc : Nat) (d : List Byte) (w : Writer) : Aside s (s.prepared vf va loc d w) :=
  (Aside.updVf ..).trans (Aside.keepPast ..)

/-- A write of device memory, where no barrier is registered, is the write at its home as far as memory goes (R325). -/
theorem aside_write {s : State} {loc : Nat} (here : isWindow (Loc.pa loc) = false) (free : s.noBarrierAt loc) (vf va : Nat) (d : List Byte) (w : Writer) :
    Aside ((s.prepared vf va loc d w).homeWrite loc d) (s.write vf va loc d w) := by
  have dropped : Aside ((s.prepared vf va loc d w).homeWrite loc d) (((s.prepared vf va loc d w).homeWrite loc d).dropCoreLine w.core loc) :=
    .inCores ((InCores.refl _).dropCoreLine ..)
  have bars : (((s.prepared vf va loc d w).homeWrite loc d).dropCoreLine w.core loc).barLines = s.barLines :=
    dropped.bars.trans ((barLines_of_sansMemory (homeWrite_sansMemory ..)).trans (aside_prepared s vf va loc d w).bars)
  have unbroken : (((s.prepared vf va loc d w).homeWrite loc d).dropCoreLine w.core loc).breakLine loc =
      ((s.prepared vf va loc d w).homeWrite loc d).dropCoreLine w.core loc := breakLine_unregistered (by unfold noBarrierAt; rw [bars]; exact free)
  have shape : s.write vf va loc d w =
      if w.own then (((s.prepared vf va loc d w).homeWrite loc d).dropCoreLine w.core loc).dropRecs loc w.keep
      else ((((s.prepared vf va loc d w).homeWrite loc d).dropCoreLine w.core loc).dropRecs loc w.keep).touchDiv vf va d.length := by
    unfold prepared at unbroken ⊢
    unfold write
    dsimp only
    rw [here, if_neg Bool.false_ne_true, unbroken, ite_self]
  rw [shape]
  split
  · exact dropped.trans (.dropRecs ..)
  · exact (dropped.trans (.dropRecs ..)).trans (.touchDiv ..)

/-- The form of memory that writes keep: canonical, with whole lines in the L2. -/
structure Formed (s : State) : Prop where
  wf : Memory.wf s.mem
  whole : s.LinesWhole

theorem Agree.formed {H : Nat → Prop} {s t : State} (h : Agree H s t) (f : Formed s) : Formed t := ⟨(h.mem f.wf).1, h.whole f.whole⟩

/-- A write within one line of uncompressed memory where no barrier is registered. -/
structure Writable (s : State) (loc n : Nat) : Prop where
  here : isWindow (Loc.pa loc) = false
  comp : Loc.comp loc = false
  fits : Loc.pa loc % 64 + n ≤ 64
  free : s.noBarrierAt loc

section
variable {s : State} {loc : Nat} {d : List Byte} (f : Formed s) (ok : Writable s loc d.length) (vf va : Nat) (w : Writer)
include f ok

/-- It changes the bytes that it covers alone. -/
theorem agree_write : Agree (fun x => Loc.pa loc ≤ x ∧ x < Loc.pa loc + d.length) s (s.write vf va loc d w) := by
  have before : Agree (fun x => Loc.pa loc ≤ x ∧ x < Loc.pa loc + d.length) s (s.prepared vf va loc d w) := (aside_prepared s vf va loc d w).agree
  exact (before.trans (.homeWrite (before.whole f.whole) ok.comp ok.fits fun x lo hi => ⟨lo, hi⟩)).trans (aside_write ok.here ok.free vf va d w).agree

/-- They are then what it gives. -/
theorem byteAt_write {x : Nat} (small : x < 2 ^ 60) (here : isWindow x = false) (lo : Loc.pa loc ≤ x) (hi : x < Loc.pa loc + d.length) :
    (s.write vf va loc d w).byteAt x = d.getD (x - Loc.pa loc) 0 := by
  have before := (aside_prepared s vf va loc d w).agree (H := fun _ => False)
  have after := (aside_write ok.here ok.free vf va d w).agree (H := fun _ => False)
  rw [byteAt, after.homeRead_all]
  exact byteAt_homeWrite (before.formed f).wf (before.formed f).whole ok.comp ok.fits small here lo hi

omit f in
theorem barLines_write : (s.write vf va loc d w).barLines = s.barLines :=
  (aside_write ok.here ok.free vf va d w).bars.trans ((barLines_of_sansMemory (homeWrite_sansMemory ..)).trans (aside_prepared s vf va loc d w).bars)

end

/-! ### The lanes of a store (R160) -/

/-- A run within a line is one piece, or none where it is empty at the start of a line. -/
theorem linePieces_within {va n : Nat} (h : va % 64 + n ≤ 64) : linePieces va n = if va % 64 + n = 0 then [] else [(va, n)] := by
  unfold linePieces
  split
  next zero => rw [show (va % 64 + n + 63) / 64 = 0 by omega]; rfl
  next some_ =>
    rw [show (va % 64 + n + 63) / 64 = 1 by omega, List.range_one, List.map_singleton]
    dsimp only
    rw [show max va ((va / 64 + 0) * 64) = va by omega, show min (va + n) ((va / 64 + 0 + 1) * 64) - va = n by omega]

/-- One lane of a store (R160). -/
def storeLane (s : State) (g : Group) (o : Op) (p : LaneAcc × List Byte) : State :=
  (linePieces p.1.va p.2.length).foldl (fun s q =>
    let off := q.1 - p.1.va
    let s := (s.write g.vf q.1 (p.1.pa + off) ((p.2.drop off).take q.2) (g.writer o.seq)).watch g.vf q.1 (p.1.pa + off) q.2 1 (g.agent o.pc o.seq)
    if p.1.ev then s.markEv (p.1.pa + off) else s) s

theorem storeLanes_eq (s : State) (g : Group) (o : Op) (accs : List LaneAcc) (data : List (List Byte)) :
    s.storeLanes g o accs data = (accs.zip data).foldl (fun s p => s.storeLane g o p) s := rfl

/-- A lane within a line is one write and a mark. -/
theorem storeLane_within {s : State} {g : Group} {o : Op} {p : LaneAcc × List Byte} (unwatched : Loc.watch p.1.pa = none) (fits : p.1.va % 64 + p.2.length ≤ 64) :
    s.storeLane g o p = if p.1.va % 64 + p.2.length = 0 then s
      else if p.1.ev then (s.write g.vf p.1.va p.1.pa p.2 (g.writer o.seq)).markEv p.1.pa else s.write g.vf p.1.va p.1.pa p.2 (g.writer o.seq) := by
  unfold storeLane
  rw [linePieces_within fits]
  by_cases zero : p.1.va % 64 + p.2.length = 0
  · rw [if_pos zero, if_pos zero, List.foldl_nil]
  · rw [if_neg zero, if_neg zero, List.foldl_cons, List.foldl_nil]
    dsimp only
    rw [Nat.sub_self, Nat.add_zero, List.drop_zero, List.take_length, watch_unwatched unwatched]

/-- What the lanes of a store keep of the machine. -/
structure Stored (s t : State) : Prop where
  formed : Formed t
  bars : t.barLines = s.barLines
  apart : t.apart = s.apart

/-- A lane of a store that the statement speaks of. -/
def Storable (s : State) (p : LaneAcc × List Byte) : Prop :=
  plainLoc p.1.pa ∧ Loc.comp p.1.pa = false ∧ p.1.va % 64 = Loc.pa p.1.pa % 64 ∧ Loc.pa p.1.pa % 64 + p.2.length ≤ 64 ∧ s.noBarrierAt p.1.pa

section
variable {s t : State} {p : LaneAcc × List Byte} (h : Stored s t) (ok : Storable s p) (g : Group) (o : Op)
include h ok

theorem Storable.writable : Writable t p.1.pa p.2.length := by
  obtain ⟨plain, comp, -, fits, free⟩ := ok
  exact ⟨plain.1, comp, fits, by unfold noBarrierAt; rw [h.bars]; exact free⟩

/-- A lane of a store changes the bytes that it covers alone. -/
theorem agree_storeLane : Agree (Covers (fun a => Loc.pa a.pa) p) t (t.storeLane g o p) := by
  have done := agree_write h.formed (ok.writable h) g.vf p.1.va (g.writer o.seq)
  obtain ⟨plain, -, same, fits, -⟩ := ok
  rw [storeLane_within plain.2 (same ▸ fits)]
  split
  · exact .refl _ t
  · split
    · exact done.trans (.markEv ..)
    · exact done

theorem Stored.storeLane : Stored s (t.storeLane g o p) := by
  refine ⟨(agree_storeLane h ok g o).formed h.formed, ?_, ?_⟩
  · have done := barLines_write (ok.writable h) g.vf p.1.va (g.writer o.seq)
    obtain ⟨plain, -, same, fits, -⟩ := ok
    rw [storeLane_within plain.2 (same ▸ fits)]
    split
    · exact h.bars
    · split
      · exact done.trans h.bars
      · exact done.trans h.bars
  · have done := write_apart t (ok.writable h).here g.vf p.1.va p.2 (g.writer o.seq)
    obtain ⟨plain, -, same, fits, -⟩ := ok
    rw [storeLane_within plain.2 (same ▸ fits)]
    split
    · exact h.apart
    · split
      · exact done.trans h.apart
      · exact done.trans h.apart

theorem byteAt_storeLane {x : Nat} (small : x < 2 ^ 60) (here : isWindow x = false) (cov : Covers (fun a => Loc.pa a.pa) p x) :
    (t.storeLane g o p).byteAt x = p.2.getD (x - Loc.pa p.1.pa) 0 := by
  have done := byteAt_write h.formed (ok.writable h) g.vf p.1.va (g.writer o.seq) small here cov.1 cov.2
  obtain ⟨plain, -, same, fits, -⟩ := ok
  rw [storeLane_within plain.2 (same ▸ fits), if_neg (by have := cov.1; have := cov.2; dsimp only at *; omega)]
  split
  · rw [byteAt, (Agree.markEv (H := fun _ => False) _ _).homeRead_all]
    exact done
  · exact done

end

/-- The lanes of a store write their bytes in lane order (R160, R161). -/
theorem storeLanes_written {s : State} {accs : List LaneAcc} {data : List (List Byte)} (f : Formed s) (ok : ∀ p ∈ accs.zip data, Storable s p) (g : Group) (o : Op) :
    Stored s (s.storeLanes g o accs data) ∧
      ∀ x < 2 ^ 60, isWindow x = false → WrittenInOrder (fun a => Loc.pa a.pa) accs data (s.storeLanes g o accs data).byteAt s.byteAt x := by
  rw [storeLanes_eq]
  have run := fun (x : Nat) (small : x < 2 ^ 60) (here : isWindow x = false) =>
    writtenInOrder_foldl (at_ := fun a => Loc.pa a.pa) (step := fun t p => t.storeLane g o p) (read := State.byteAt) (inv := Stored s) (good := Storable s) (x := x)
      (fun t p ok h => h.storeLane ok g o)
      (fun t p ok h out => (agree_storeLane h ok g o).byteAt h.formed.wf (by rwa [Loc.pa_of_lt small]) (Loc.comp_of_lt small) (by rwa [Loc.pa_of_lt small]))
      (fun t p ok h cov => byteAt_storeLane h ok g o small here cov) (accs.zip data) s ⟨f, rfl, rfl⟩ ok
  refine ⟨(run 0 (by decide) (by decide)).1, fun x small here => ?_⟩
  obtain ⟨-, skip, hit⟩ := run x small here
  exact writtenInOrder_zip skip hit

/-! ### The event (R170, R310) -/

/-- The core sees stores: a mark of the group's operations (R310). -/
theorem aside_show (s : State) (g : Group) (o : Op) : Aside s (s.show g o) ∧ (s.show g o).apart = s.apart := by
  unfold State.show
  split
  · exact ⟨.refl s, rfl⟩
  · exact ⟨.updGroup .., updGroup_apart _ _ fun _ => rfl⟩

/-- An operation that neither loads nor stores global memory shows no store (R310). -/
theorem show_other {s : State} {g : Group} {o : Op} (store : o.kind.isStore = false) (load : o.kind.isLoad = false) : s.show g o = s := by
  have none_ : g.shown o = [] := by
    unfold Group.shown
    dsimp only
    rw [store, load, if_neg Bool.false_ne_true, if_neg Bool.false_ne_true]
  unfold State.show
  rw [none_]
  rfl

end State

/-- STORE_PERFORMED of an open operation that may be performed is its effect, with which it is complete (R170). -/
theorem storePerformed_ready {s : State} {gid op : Nat} {g : Group} {o : Op} (hop : OpenOp s gid op g o) (ready : s.ready g o = true) :
    exec (.storePerformed gid op) s = match (s.show g o).storeEffect g o with
      | some u => .next (u.updGroup gid fun g => g.finishOp op)
      | none => .next s := by
  obtain ⟨hg, home, ho, live⟩ := hop
  dsimp only [exec, execStorePerformed]
  rw [hg]
  dsimp only
  rw [ho]
  dsimp only
  rw [live, home, ready]
  rfl

theorem storePerformed_waits {s : State} {gid op : Nat} {g : Group} {o : Op} (hop : OpenOp s gid op g o) (ready : s.ready g o = true)
    (waits : (s.show g o).storeEffect g o = none) : exec (.storePerformed gid op) s = .next s := by
  rw [storePerformed_ready hop ready, waits]

/-- An effect under which the group stays leaves the operation complete (R170). -/
theorem storePerformed_done {s u : State} {gid op : Nat} {g : Group} {o : Op} (hop : OpenOp s gid op g o) (ready : s.ready g o = true)
    (effect : (s.show g o).storeEffect g o = some u) (stays : (u.group? gid).isSome = true) :
    exec (.storePerformed gid op) s = .next (u.updGroup gid fun g => g.finishOp op) ∧ Finished (u.updGroup gid fun g => g.finishOp op) gid op := by
  rw [storePerformed_ready hop ready, effect]
  exact ⟨rfl, finished_updGroup stays fun _ => rfl⟩

theorem OpenOp.group {s : State} {gid op : Nat} {g : Group} {o : Op} (hop : OpenOp s gid op g o) : (s.group? gid).isSome = true := by rw [hop.1]; rfl

theorem storesPerformed {s : State} {gid op : Nat} {g : Group} {o : Op} {accs : List LaneAcc} {data : List (List Byte)} {rel : Option Scope}
    (hop : OpenOp s gid op g o) (ready : s.ready g o = true) (kind : o.kind = .store accs data rel) (wf : Memory.wf s.mem) (whole : s.LinesWhole)
    (ok : ∀ p ∈ accs.zip data, State.Storable s p) :
    ∃ t, exec (.storePerformed gid op) s = .next t ∧ Finished t gid op ∧
      ∀ x < 2 ^ 60, isWindow x = false → WrittenInOrder (fun a => Loc.pa a.pa) accs data t.byteAt s.byteAt x := by
  obtain ⟨shown, same⟩ := State.aside_show s g o
  have begun := shown.agree (H := fun _ => False)
  have here : ∀ p ∈ accs.zip data, State.Storable (s.show g o) p := fun p hp => by
    obtain ⟨plain, comp, line, fits, free⟩ := ok p hp
    exact ⟨plain, comp, line, fits, by unfold State.noBarrierAt; rw [shown.bars]; exact free⟩
  obtain ⟨stored, written⟩ := State.storeLanes_written (begun.formed ⟨wf, whole⟩) here g o
  have stays : (((s.show g o).storeLanes g o accs data).group? gid).isSome = true :=
    (State.isSome_group?_of_apart (stored.apart.trans same) gid).trans hop.group
  have effect : (s.show g o).storeEffect g o = some ((s.show g o).storeLanes g o accs data) := by unfold State.storeEffect; rw [kind]
  obtain ⟨run, done⟩ := storePerformed_done hop ready effect stays
  refine ⟨_, run, done, fun x small window => ?_⟩
  have last := (State.Aside.updGroup ((s.show g o).storeLanes g o accs data) gid fun g => g.finishOp op).agree (H := fun _ => False)
  have before : (s.show g o).byteAt = s.byteAt := funext fun y => by rw [State.byteAt, begun.homeRead_all]; rfl
  have after : (((s.show g o).storeLanes g o accs data).updGroup gid fun g => g.finishOp op).byteAt = ((s.show g o).storeLanes g o accs data).byteAt :=
    funext fun y => by rw [State.byteAt, last.homeRead_all]; rfl
  rw [after, ← before]
  exact written x small window

end Sys2Proof.Machine
end

section
/-!
Launches, registrations and the marks of `enc.tile` as they take effect (R115, R219, R297, R352).
-/
set_option Elab.async false
namespace Sys2Proof.Machine
open Sys2Proof

/-! ### Lines of windows and of device memory (R432) -/

theorem isWindow_iff (a : Nat) : isWindow a = true ↔ 0x40000000000 ≤ a ∧ a < 0x500000000000 := by
  unfold isWindow physRegion
  split_ifs <;> simp <;> omega

/-- A line lies in a window as a whole, or not at all. -/
theorem isWindow_line {a b : Nat} (h : a / 64 = b / 64) : isWindow a = isWindow b := by
  rw [Bool.eq_iff_iff, isWindow_iff, isWindow_iff]
  omega

/-- A location some bytes on, below the end of the address bits, is in the same mapping. -/
theorem Loc.pa_add {loc k : Nat} (h : Loc.pa loc + k < 2 ^ 60) : Loc.pa (loc + k) = Loc.pa loc + k := by
  unfold Loc.pa at *
  omega
theorem Loc.comp_add {loc k : Nat} (h : Loc.pa loc + k < 2 ^ 60) : Loc.comp (loc + k) = Loc.comp loc := by
  unfold Loc.pa at h
  unfold Loc.comp bitOf
  rw [show (loc + k) / 2 ^ 60 = loc / 2 ^ 60 by omega]

/-! ### Launches (R352) -/

namespace State

theorem queue_updQueue_same {s : State} {vf q : Nat} (hv : vf < 64) (hq : q < 16) (f : Queue → Queue) : (s.updQueue vf q f).queue vf q = f (s.queue vf q) := by
  unfold updQueue queue
  rw [show (s.updVf vf fun v => { v with queues := tset v.queues q (f (tget v.queues q {})) }).vf vf =
    { s.vf vf with queues := tset (s.vf vf).queues q (f (tget (s.vf vf).queues q {})) } from tget_tset_self _ _ _ _ hv]
  exact tget_tset_self _ _ _ _ hq

theorem queue_of_apart {s t : State} (h : t.apart = s.apart) (vf q : Nat) : t.queue vf q = s.queue vf q :=
  (congrArg (fun v : VFun => tget v.queues q {}) (vf_of_apart h vf) : _)

@[simp] theorem updGroup_grans (s : State) (id : Nat) (f : Group → Group) : (s.updGroup id f).grans = s.grans := by unfold updGroup; split <;> rfl
@[simp] theorem updGroup_launches (s : State) (id : Nat) (f : Group → Group) : (s.updGroup id f).launches = s.launches := by unfold updGroup; split <;> rfl

/-- The record's two lines are written, then QTAIL advances (R352). -/
theorem launchAccept_eq {s : State} {g : Group} {o : Op} {data : List Byte} {q va pa : Nat} (low : Loc.watch pa = none) (high : Loc.watch (pa + 64) = none) :
    s.launchAccept g o data q va pa =
      ((s.write g.vf va pa (data.take 64) (g.writer o.seq)).write g.vf (va + 64) (pa + 64) ((data.drop 64).take 64) (g.writer o.seq)).updQueue g.vf q
        fun x => { x with tail := x.tail + 1 } := by
  unfold launchAccept
  dsimp only
  rw [Nat.add_zero, Nat.add_zero, List.drop_zero, watch_unwatched low, watch_unwatched high]

theorem vfs_aside (s : State) (vf q : Nat) (f : Queue → Queue) : Aside s (s.updQueue vf q f) := .updVf ..

end State

theorem launchPerformed {s : State} {gid op q va pa : Nat} {g : Group} {o : Op} {rec_ : List Byte} (hop : OpenOp s gid op g o) (ready : s.ready g o = true)
    (kind : o.kind = .launch rec_ q va pa) (may : s.launchReady g o q = true) (hv : g.vf < 64) (hq : q < 16) (len : rec_.length = 128) (low : plainLoc pa)
    (high : plainLoc (pa + 64)) (comp : Loc.comp pa = false) (line : Loc.pa pa % 64 = 0) (room : Loc.pa pa + 128 ≤ 2 ^ 60) (wf : Memory.wf s.mem)
    (whole : s.LinesWhole) (freeLow : s.noBarrierAt pa) (freeHigh : s.noBarrierAt (pa + 64)) :
    ∃ t, exec (.storePerformed gid op) s = .next t ∧ Finished t gid op ∧ (∀ x < 128, t.byteAt (pa + x) = rec_.getD x 0) ∧
      t.queue g.vf q = { s.queue g.vf q with tail := (s.queue g.vf q).tail + 1 } ∧ t.launches = s.launches := by
  have f0 : State.Formed s := ⟨wf, whole⟩
  have len1 : (rec_.take 64).length = 64 := by rw [List.length_take]; omega
  have len2 : ((rec_.drop 64).take 64).length = 64 := by rw [List.length_take, List.length_drop]; omega
  have pa64 : Loc.pa (pa + 64) = Loc.pa pa + 64 := Loc.pa_add (by omega)
  have ok1 : State.Writable s pa (rec_.take 64).length := ⟨low.1, comp, by omega, freeLow⟩
  have near1 := State.agree_write f0 ok1 g.vf va (g.writer o.seq)
  have apart1 := State.write_apart s low.1 g.vf va (rec_.take 64) (g.writer o.seq)
  have bars1 := State.barLines_write ok1 g.vf va (g.writer o.seq)
  have at1 := fun {x : Nat} => State.byteAt_write (x := x) f0 ok1 g.vf va (g.writer o.seq)
  generalize first : s.write g.vf va pa (rec_.take 64) (g.writer o.seq) = s1 at near1 apart1 bars1 at1
  have f1 := near1.formed f0
  have ok2 : State.Writable s1 (pa + 64) ((rec_.drop 64).take 64).length :=
    ⟨high.1, (Loc.comp_add (by omega)).trans comp, by omega, by unfold State.noBarrierAt; rw [bars1]; exact freeHigh⟩
  have near2 := State.agree_write f1 ok2 g.vf (va + 64) (g.writer o.seq)
  have apart2 := State.write_apart s1 high.1 g.vf (va + 64) ((rec_.drop 64).take 64) (g.writer o.seq)
  have at2 := fun {x : Nat} => State.byteAt_write (x := x) f1 ok2 g.vf (va + 64) (g.writer o.seq)
  generalize second : s1.write g.vf (va + 64) (pa + 64) ((rec_.drop 64).take 64) (g.writer o.seq) = s2 at near2 apart2 at2
  have shown : s.show g o = s := State.show_other (by rw [kind]; rfl) (by rw [kind]; rfl)
  have effect : (s.show g o).storeEffect g o = some (s2.updQueue g.vf q fun x => { x with tail := x.tail + 1 }) := by
    unfold State.storeEffect
    rw [kind, shown]
    dsimp only
    rw [if_pos may, State.launchAccept_eq low.2 high.2, first, second]
  have apart : s2.apart = s.apart := apart2.trans apart1
  have stays : ((s2.updQueue g.vf q fun x => { x with tail := x.tail + 1 }).group? gid).isSome = true := (State.isSome_group?_of_apart apart gid).trans hop.group
  obtain ⟨run, done⟩ := storePerformed_done hop ready effect stays
  have rest := ((State.vfs_aside s2 g.vf q fun x => { x with tail := x.tail + 1 }).trans (.updGroup _ gid fun g => g.finishOp op)).agree (H := fun _ => False)
  refine ⟨_, run, done, fun x hx => ?_, ?_, ?_⟩
  · have small : Loc.pa pa + x < 2 ^ 60 := by omega
    have plain : isWindow (Loc.pa pa + x) = false := by
      by_cases lower : x < 64
      · exact (isWindow_line (by omega)).trans low.1
      · exact (isWindow_line (by omega)).trans high.1
    rw [State.byteAt, rest.homeRead_all]
    change s2.byteAt (pa + x) = _
    rw [s2.byteAt_congr (loc := Loc.pa pa + x) (by rw [Loc.pa_add small, Loc.pa_of_lt small]) (by rw [Loc.comp_add small, comp, Loc.comp_of_lt small])]
    by_cases lower : x < 64
    · rw [near2.byteAt f1.wf (by rwa [Loc.pa_of_lt small]) (Loc.comp_of_lt small) (by rw [Loc.pa_of_lt small]; omega),
        at1 small plain (by omega) (by omega), Nat.add_sub_cancel_left, List.getD_eq_getElem?_getD, List.getElem?_take, if_pos lower, ← List.getD_eq_getElem?_getD]
    · rw [at2 small plain (by omega) (by omega), pa64, List.getD_eq_getElem?_getD, List.getElem?_take, if_pos (by omega), List.getElem?_drop,
        ← List.getD_eq_getElem?_getD, show 64 + (Loc.pa pa + x - (Loc.pa pa + 64)) = x by omega]
  · have same : ((s2.updQueue g.vf q fun x => { x with tail := x.tail + 1 }).updGroup gid fun g => g.finishOp op).queue g.vf q =
        (s2.updQueue g.vf q fun x => { x with tail := x.tail + 1 }).queue g.vf q := by unfold State.queue State.vf; rw [State.updGroup_vfs]
    rw [same, State.queue_updQueue_same hv hq, State.queue_of_apart apart]
  · exact (State.updGroup_launches ..).trans ((rfl : _ = s2.launches).trans (State.launches_of_apart apart))

/-! ### Registrations (R219) -/

namespace State

theorem vf_setRegion_regions {s : State} {vf id : Nat} (hv : vf < 64) (set : Option (Nat × Nat)) (k : Nat) :
    tget ((s.setRegion vf id set).vf vf).regions k {} =
      tget (tset (s.vf vf).regions id
        { (match set with
            | some (b, n) => { tget (s.vf vf).regions id {} with reg := true, base := b, size := n }
            | none => { tget (s.vf vf).regions id {} with reg := false } : Region) with ver := (tget (s.vf vf).regions id {}).ver + 1, obs := false }) k {} := by
  unfold setRegion updVf
  rw [show State.vf { s with vfs := tset s.vfs vf _ } vf = _ from tget_tset_self _ _ _ _ hv]
  cases set <;> rfl

end State

theorem registrationPerformed {s : State} {gid op id : Nat} {g : Group} {o : Op} {set : Option (Nat × Nat)} (hop : OpenOp s gid op g o) (ready : s.ready g o = true)
    (kind : o.kind = .wreg id set) (hv : g.vf < 64) (hid : id < 64) (older : g.olderStored o = true) :
    ∃ t, exec (.storePerformed gid op) s = .next t ∧ Finished t gid op ∧ t.mem = s.mem ∧ t.l2 = s.l2 ∧
      (∀ k ≠ id, tget (t.vf g.vf).regions k {} = tget (s.vf g.vf).regions k {}) ∧
      (let r := tget (s.vf g.vf).regions id {}
       tget (t.vf g.vf).regions id {} = { r with reg := set.isSome, base := (set.map (·.1)).getD r.base, size := (set.map (·.2)).getD r.size,
                                                 ver := r.ver + 1, obs := false }) := by
  have shown : s.show g o = s := State.show_other (by rw [kind]; rfl) (by rw [kind]; rfl)
  have effect : (s.show g o).storeEffect g o = some (s.setRegion g.vf id set) := by
    unfold State.storeEffect
    rw [kind, shown]
    dsimp only
    rw [if_pos older]
  obtain ⟨run, done⟩ := storePerformed_done hop ready effect hop.group
  have same : ∀ k, tget (((s.setRegion g.vf id set).updGroup gid fun g => g.finishOp op).vf g.vf).regions k {} =
      tget ((s.setRegion g.vf id set).vf g.vf).regions k {} := fun k => by unfold State.vf; rw [State.updGroup_vfs]
  refine ⟨_, run, done, State.updGroup_mem .., State.updGroup_l2 .., fun k ne => ?_, ?_⟩
  · rw [same, State.vf_setRegion_regions hv, tget_tset_ne _ _ _ _ _ (Ne.symm ne)]
  · dsimp only
    rw [same, State.vf_setRegion_regions hv, tget_tset_self _ _ _ _ hid]
    cases set <;> rfl

/-! ### Marks of a frame (R297) -/

/-- A place's number names its row and its column. -/
theorem place_inj {c row col row' col' : Nat} (h : col < c) (h' : col' < c) (e : row' * c + col' = row * c + col) : row' = row ∧ col' = col := by
  have rows : row' = row := by
    have := congrArg (· / c) e
    simpa [Nat.mul_comm _ c, Nat.mul_add_div (Nat.zero_lt_of_lt h), Nat.div_eq_of_lt h, Nat.div_eq_of_lt h'] using this
  exact ⟨rows, by rw [rows] at e; exact Nat.add_left_cancel e⟩

/-- The superblocks of a rectangle that lie in a frame. -/
theorem FrameDesc.mem_marked {x : FrameDesc} {rect : Word64} {row col : Nat} (hr : row < x.rows) (hc : col < x.cols) :
    row * x.cols + col ∈ x.marked rect ↔
      (rect.toNat / 2 ^ 16 % 2 ^ 16 ≤ row ∧ row ≤ rect.toNat / 2 ^ 16 % 2 ^ 16 + rect.toNat / 2 ^ 40 % 2 ^ 8 ∧
        rect.toNat % 2 ^ 16 ≤ col ∧ col ≤ rect.toNat % 2 ^ 16 + rect.toNat / 2 ^ 32 % 2 ^ 8) := by
  have fields : bitsOf rect.toNat 31 16 = rect.toNat / 2 ^ 16 % 2 ^ 16 ∧ bitsOf rect.toNat 15 0 = rect.toNat % 2 ^ 16 ∧
      bitsOf rect.toNat 47 40 = rect.toNat / 2 ^ 40 % 2 ^ 8 ∧ bitsOf rect.toNat 39 32 = rect.toNat / 2 ^ 32 % 2 ^ 8 := by
    simp [bitsOf]
  obtain ⟨top, left, height, width⟩ := fields
  unfold marked
  dsimp only
  rw [top, left, height, width]
  generalize rect.toNat / 2 ^ 16 % 2 ^ 16 = y
  generalize rect.toNat % 2 ^ 16 = z
  generalize rect.toNat / 2 ^ 40 % 2 ^ 8 = dy
  generalize rect.toNat / 2 ^ 32 % 2 ^ 8 = dz
  simp only [List.mem_flatMap, List.mem_filterMap, List.mem_range, Bool.and_eq_true, decide_eq_true_eq, Option.ite_none_right_eq_some, Option.some.injEq]
  constructor
  · rintro ⟨j, hj, i, hi, ⟨-, hi'⟩, e⟩
    obtain ⟨rfl, rfl⟩ := place_inj hc hi' e
    omega
  · rintro ⟨lo, hi, lo', hi'⟩
    refine ⟨row - y, by omega, col - z, by omega, ?_⟩
    rw [show y + (row - y) = row by omega, show z + (col - z) = col by omega]
    exact ⟨⟨hr, hc⟩, rfl⟩

theorem markFrames_none {vf va : Nat} {rect : Word64} : ∀ {fs : List Frame}, (∀ e ∈ fs, ¬(e.vf = vf ∧ e.va = va)) → markFrames vf va rect fs = (fs, false)
  | [], _ => rfl
  | f :: r, h => by
    rw [markFrames, if_neg (by simpa using h f List.mem_cons_self), markFrames_none fun e he => h e (List.mem_cons_of_mem f he)]

/-- The marks that a frame holds once those of a rectangle have taken effect. -/
def Frame.withMarks (f : Frame) (rect : Word64) : Frame :=
  { f with marks := f.marks ++ ((FrameDesc.of f.desc).marked rect).filter (fun n => !f.marks.contains n) }

theorem markFrames_first {vf va : Nat} {rect : Word64} {f : Frame} {rest : List Frame} (hv : f.vf = vf) (ha : f.va = va) :
    ∀ {young : List Frame}, (∀ e ∈ young, ¬(e.vf = vf ∧ e.va = va)) → markFrames vf va rect (young ++ f :: rest) = (young ++ f.withMarks rect :: rest, true)
  | [], _ => by
    rw [List.nil_append, markFrames, if_pos (by simp [hv, ha])]
    rfl
  | e :: young, h => by
    rw [List.cons_append, markFrames, if_neg (by simpa using h e List.mem_cons_self), markFrames_first hv ha fun e he => h e (List.mem_cons_of_mem _ he)]
    rfl

theorem Frame.mem_withMarks (f : Frame) (rect : Word64) (n : Nat) : n ∈ (f.withMarks rect).marks ↔ n ∈ f.marks ∨ n ∈ (FrameDesc.of f.desc).marked rect := by
  unfold withMarks
  dsimp only
  rw [List.mem_append, List.mem_filter]
  by_cases h : n ∈ f.marks <;> simp [h]

namespace State

theorem stream_updStream_same {s : State} {gr n : Nat} (hg : gr < 16) (hn : n < 4) (f : Stream → Stream) : (s.updStream gr n f).stream gr n = f (s.stream gr n) := by
  unfold updStream stream
  rw [show (s.updGran gr fun k => { k with streams := tset k.streams n (f (tget k.streams n {})) }).gran gr =
    { s.gran gr with streams := tset (s.gran gr).streams n (f (tget (s.gran gr).streams n {})) } from tget_tset_self _ _ _ _ hg]
  exact tget_tset_self _ _ _ _ hn

theorem stream_updStream_ne {s : State} {gr n k m : Nat} (hg : gr < 16) (ne : (k, m) ≠ (gr, n)) (f : Stream → Stream) :
    (s.updStream gr n f).stream k m = s.stream k m := by
  unfold updStream stream
  by_cases at_ : gr = k
  · subst at_
    rw [show (s.updGran gr fun k => { k with streams := tset k.streams n (f (tget k.streams n {})) }).gran gr =
      { s.gran gr with streams := tset (s.gran gr).streams n (f (tget (s.gran gr).streams n {})) } from tget_tset_self _ _ _ _ hg]
    exact tget_tset_ne _ _ _ _ _ fun e => ne (by rw [e])
  · rw [show (s.updGran gr fun k => { k with streams := tset k.streams n (f (tget k.streams n {})) }).gran k = s.gran k from tget_tset_ne _ _ _ _ _ at_]

/-- One stream is searched for a frame that takes marks, unless one before it had it. -/
def markStep (g : Group) (va : Nat) (rect : Word64) (acc : State × Bool) (p : Nat × Nat) : State × Bool :=
  if acc.2 then acc
  else match markFrames g.vf va rect (acc.1.stream p.1 p.2).frames with
    | (fs, true) => (acc.1.updStream p.1 p.2 fun t => { t with frames := fs }, true)
    | (_, false) => acc

theorem markStep_over (g : Group) (va : Nat) (rect : Word64) (s : State) : ∀ l : List (Nat × Nat), l.foldl (markStep g va rect) (s, true) = (s, true)
  | [] => rfl
  | _ :: l => markStep_over g va rect s l

theorem markStep_none {g : Group} {va : Nat} {rect : Word64} {s : State} : ∀ {l : List (Nat × Nat)},
    (∀ p ∈ l, ∀ e ∈ (s.stream p.1 p.2).frames, ¬(e.vf = g.vf ∧ e.va = va)) → l.foldl (markStep g va rect) (s, false) = (s, false)
  | [], _ => rfl
  | p :: l, h => by
    have here : markStep g va rect (s, false) p = (s, false) := by
      unfold markStep
      rw [if_neg Bool.false_ne_true, markFrames_none (h p List.mem_cons_self)]
    rw [List.foldl_cons, here]
    exact markStep_none fun q hq => h q (List.mem_cons_of_mem p hq)

/-- The streams of a slice, in the order in which they are searched. -/
def sliceStreams (s : State) (slice : Nat) : List (Nat × Nat) := (List.range (s.gran slice).num).flatMap fun k => (List.range 4).map fun n => (slice + k, n)

theorem mem_sliceStreams {s : State} {slice k n : Nat} : (k, n) ∈ s.sliceStreams slice ↔ (slice ≤ k ∧ k < slice + (s.gran slice).num) ∧ n < 4 := by
  unfold sliceStreams
  simp only [List.mem_flatMap, List.mem_map, List.mem_range, Prod.mk.injEq]
  constructor
  · rintro ⟨j, hj, m, hm, rfl, rfl⟩
    omega
  · rintro ⟨⟨lo, hi⟩, hn⟩
    exact ⟨k - slice, by omega, n, hn, by omega, rfl⟩

/-- The first frame that is open at the address takes the marks (R297). -/
theorem applyMark_first {s : State} {g : Group} {va gr n : Nat} {rect : Word64} {f : Frame} {young rest : List Frame} (hn : n < 4) (lo : g.slice ≤ gr)
    (hi : gr < g.slice + (s.gran g.slice).num) (frames : (s.stream gr n).frames = young ++ f :: rest) (hv : f.vf = g.vf) (ha : f.va = va)
    (first : ∀ e ∈ young, ¬(e.vf = g.vf ∧ e.va = va))
    (others : ∀ k m, g.slice ≤ k → k < g.slice + (s.gran g.slice).num → m < 4 → (k, m) ≠ (gr, n) → ∀ e ∈ (s.stream k m).frames, ¬(e.vf = g.vf ∧ e.va = va)) :
    s.applyMark g va rect = s.updStream gr n fun t => { t with frames := young ++ f.withMarks rect :: rest } := by
  obtain ⟨before, after, split, new⟩ := List.eq_append_cons_of_mem (mem_sliceStreams.2 ⟨⟨lo, hi⟩, hn⟩)
  have quiet : ∀ p ∈ before, ∀ e ∈ (s.stream p.1 p.2).frames, ¬(e.vf = g.vf ∧ e.va = va) := by
    rintro ⟨k, m⟩ hp
    obtain ⟨⟨klo, khi⟩, hm⟩ := mem_sliceStreams.1 (split ▸ List.mem_append_left _ hp)
    exact others k m klo khi hm fun e => new (e ▸ hp)
  have found : markStep g va rect (s, false) (gr, n) = (s.updStream gr n fun t => { t with frames := young ++ f.withMarks rect :: rest }, true) := by
    unfold markStep
    rw [if_neg Bool.false_ne_true]
    dsimp only
    rw [frames, markFrames_first hv ha first]
  change ((s.sliceStreams g.slice).foldl (markStep g va rect) (s, false)).1 = _
  rw [split, List.foldl_append, List.foldl_cons, markStep_none quiet, found, markStep_over]

end State

theorem marksPerformed {s : State} {gid op va gr n : Nat} {g : Group} {o : Op} {rect : Word64} {f : Frame} {young rest : List Frame} (hop : OpenOp s gid op g o)
    (ready : s.ready g o = true) (kind : o.kind = .mark va rect) (older : g.olderStored o = true) (hg : gr < 16) (hn : n < 4) (lo : g.slice ≤ gr)
    (hi : gr < g.slice + (s.gran g.slice).num) (frames : (s.stream gr n).frames = young ++ f :: rest) (hv : f.vf = g.vf) (ha : f.va = va)
    (first : ∀ e ∈ young, ¬(e.vf = g.vf ∧ e.va = va))
    (others : ∀ k m, g.slice ≤ k → k < g.slice + (s.gran g.slice).num → m < 4 → (k, m) ≠ (gr, n) → ∀ e ∈ (s.stream k m).frames, ¬(e.vf = g.vf ∧ e.va = va)) :
    (let x := FrameDesc.of f.desc
     let a := rect.toNat
     ∃ (t : State) (marks : List Nat), exec (.storePerformed gid op) s = .next t ∧ Finished t gid op ∧ t.mem = s.mem ∧
       t.stream gr n = { s.stream gr n with frames := young ++ { f with marks } :: rest } ∧
       (∀ k m, (k, m) ≠ (gr, n) → t.stream k m = s.stream k m) ∧
       ∀ row col, row < x.rows → col < x.cols →
         (row * x.cols + col ∈ marks ↔ row * x.cols + col ∈ f.marks ∨
           (a / 2 ^ 16 % 2 ^ 16 ≤ row ∧ row ≤ a / 2 ^ 16 % 2 ^ 16 + a / 2 ^ 40 % 2 ^ 8 ∧ a % 2 ^ 16 ≤ col ∧ col ≤ a % 2 ^ 16 + a / 2 ^ 32 % 2 ^ 8))) := by
  intro x a
  have shown : s.show g o = s := State.show_other (by rw [kind]; rfl) (by rw [kind]; rfl)
  have effect : (s.show g o).storeEffect g o = some (s.updStream gr n fun t => { t with frames := young ++ f.withMarks rect :: rest }) := by
    unfold State.storeEffect
    rw [kind, shown]
    dsimp only
    rw [if_pos older, State.applyMark_first hn lo hi frames hv ha first others]
  obtain ⟨run, done⟩ := storePerformed_done hop ready effect hop.group
  have same : ∀ k m, ((s.updStream gr n fun t => { t with frames := young ++ f.withMarks rect :: rest }).updGroup gid fun g => g.finishOp op).stream k m =
      (s.updStream gr n fun t => { t with frames := young ++ f.withMarks rect :: rest }).stream k m := fun k m => by
    unfold State.stream State.gran
    rw [State.updGroup_grans]
  refine ⟨_, (f.withMarks rect).marks, run, done, State.updGroup_mem .., ?_, fun k m ne => ?_, fun row col hr hc => ?_⟩
  · rw [same, State.stream_updStream_same hg hn]
    rfl
  · rw [same, State.stream_updStream_ne hg ne]
  · rw [Frame.mem_withMarks, FrameDesc.mem_marked hr hc]

end Sys2Proof.Machine
end

section
/-!
Stores to tiles and appends (R156, R163): bytes of a tile are written in turn, and an append's elements behind its cursor.
-/
set_option Elab.async false
namespace Sys2Proof.Machine
open Sys2Proof

/-! ### Bytes of a tile -/

/-- The bytes of a tile once a run has been written at `o`. -/
def putBytes (m : Sparse Byte) (o : Nat) (d : List Byte) : Sparse Byte := (d.foldl (fun (a : Nat × Sparse Byte) b => (a.1 + 1, Sparse.set 0 a.2 a.1 b)) (o, m)).2

theorem putBytes_cons (m : Sparse Byte) (o : Nat) (b : Byte) (d : List Byte) : putBytes m o (b :: d) = putBytes (Sparse.set 0 m o b) (o + 1) d := rfl

theorem putBytes_wf : ∀ {d : List Byte} {m : Sparse Byte} {o : Nat}, Sparse.wf 0 m = true → Sparse.wf 0 (putBytes m o d) = true
  | [], _, _, h => h
  | b :: d, m, o, h => by
    rw [putBytes_cons]
    exact putBytes_wf (Sparse.set_wf o b h)

theorem get_putBytes : ∀ {d : List Byte} {m : Sparse Byte} {o : Nat}, Sparse.wf 0 m = true → ∀ x,
    Sparse.get 0 (putBytes m o d) x = if o ≤ x ∧ x < o + d.length then d.getD (x - o) 0 else Sparse.get 0 m x
  | [], m, o, _, x => by
    rw [if_neg (by simp only [List.length_nil]; omega)]
    rfl
  | b :: d, m, o, h, x => by
    rw [putBytes_cons, get_putBytes (Sparse.set_wf o b h), List.length_cons]
    by_cases first : x = o
    · subst first
      rw [if_neg (by omega), if_pos (by omega), Nat.sub_self]
      exact Sparse.get_set_self x b h
    · by_cases inside : o ≤ x ∧ x < o + (d.length + 1)
      · rw [if_pos (by omega), if_pos inside, show x - o = (x - (o + 1)) + 1 by omega, List.getD_cons_succ]
      · rw [if_neg (by omega), if_neg inside]
        exact Sparse.get_set_ne b h first

namespace Handle

theorem writeN_wf {t : Handle} (h : Sparse.wf 0 t.bytes = true) (o : Nat) (d : List Byte) : Sparse.wf 0 (t.writeN o d).bytes = true := putBytes_wf h

theorem byte_writeN {t : Handle} (h : Sparse.wf 0 t.bytes = true) (o : Nat) (d : List Byte) (x : Nat) :
    (t.writeN o d).byte x = if o ≤ x ∧ x < o + d.length then d.getD (x - o) 0 else t.byte x := get_putBytes h x

end Handle

theorem length_bytesLE : ∀ k n : Nat, (bytesLE k n).length = k
  | 0, _ => rfl
  | k + 1, n => by rw [bytesLE, List.length_cons, length_bytesLE k]

/-- A run of a tile's bytes as it was written. -/
theorem Handle.readN_writeN {t : Handle} (h : Sparse.wf 0 t.bytes = true) (o : Nat) (d : List Byte) : (t.writeN o d).readN o d.length = d := by
  refine List.ext_getElem (by simp [readN]) fun i hi hd => ?_
  simp only [readN, List.getElem_map, List.getElem_range]
  rw [byte_writeN h, if_pos (by omega), Nat.add_sub_cancel_left, List.getD_eq_getElem _ _ hd]

/-! ### Handles of a workgroup -/

namespace State

theorem find?_key {key : Nat} {f : Workgroup → Workgroup} (keep : ∀ w, (f w).key = w.key) (k : Nat) :
    ∀ ws : List Workgroup, (ws.map fun w => if w.key = key then f w else w).find? (fun w => w.key = k) =
      (ws.find? fun w => w.key = k).map fun w => if w.key = key then f w else w
  | [] => rfl
  | w :: ws => by
    have same : (if w.key = key then f w else w).key = w.key := by split <;> simp [keep]
    rw [List.map_cons, List.find?_cons, List.find?_cons, same]
    cases decide (w.key = k) with
    | true => rfl
    | false => exact find?_key keep k ws

theorem handle_updHandle_same {s : State} {wg h : Nat} (resident : (s.wg? wg).isSome = true) (hh : h < 32) (f : Handle → Handle) :
    (s.updHandle wg h f).handle wg h = f (s.handle wg h) := by
  obtain ⟨w, hw⟩ := Option.isSome_iff_exists.1 resident
  have key : w.key = wg := by simpa using List.find?_some hw
  have new : (s.updHandle wg h f).wg? wg = some { w with handles := tset w.handles h (f (tget w.handles h {})) } :=
    (find?_key (f := fun w => { w with handles := tset w.handles h (f (tget w.handles h {})) }) (fun _ => rfl) wg s.wgs).trans
      (by rw [show s.wgs.find? (fun w => w.key = wg) = some w from hw, Option.map_some, if_pos key])
  unfold handle
  rw [new, hw]
  exact tget_tset_self _ _ _ _ hh

theorem handle_updHandle_ne {s : State} {wg h k j : Nat} (ne : (k, j) ≠ (wg, h)) (f : Handle → Handle) : (s.updHandle wg h f).handle k j = s.handle k j := by
  have new : (s.updHandle wg h f).wg? k = (s.wg? k).map fun w => if w.key = wg then { w with handles := tset w.handles h (f (tget w.handles h {})) } else w :=
    find?_key (f := fun w => { w with handles := tset w.handles h (f (tget w.handles h {})) }) (fun _ => rfl) k s.wgs
  unfold handle
  rw [new]
  cases hw : s.wg? k with
  | none => rfl
  | some w =>
    have key : w.key = k := by simpa using List.find?_some hw
    dsimp only [Option.map]
    by_cases at_ : w.key = wg
    · rw [if_pos at_]
      exact tget_tset_ne _ _ _ _ _ fun e => ne (by rw [← key, at_, e])
    · rw [if_neg at_]

theorem handle_updGroup (s : State) (id : Nat) (f : Group → Group) (k j : Nat) : (s.updGroup id f).handle k j = s.handle k j := by
  unfold handle wg?
  rw [updGroup_wgs]

end State

/-! ### Tile stores (R163) -/

/-- A tile store writes its lanes' bytes in lane order (R163). -/
theorem tileStorePerformed {s : State} {gid op : Nat} {g : Group} {o : Op} {accs : List LaneAcc} {wg h : Nat} {data : List (List Byte)} (hop : OpenOp s gid op g o)
    (ready : s.ready g o = true) (kind : o.kind = .tstore accs wg h data) (resident : (s.wg? wg).isSome = true) (hh : h < 32)
    (wf : Sparse.wf 0 (s.handle wg h).bytes = true) :
    ∃ t, exec (.storePerformed gid op) s = .next t ∧ Finished t gid op ∧ t.mem = s.mem ∧ t.l2 = s.l2 ∧
      (∀ k j, (k, j) ≠ (wg, h) → t.handle k j = s.handle k j) ∧
      ∀ x, WrittenInOrder (·.pa) accs data (t.handle wg h).byte (s.handle wg h).byte x := by
  have shown : s.show g o = s := State.show_other (by rw [kind]; rfl) (by rw [kind]; rfl)
  have effect : (s.show g o).storeEffect g o = some (s.storeTile wg h accs data) := by
    unfold State.storeEffect
    rw [kind, shown]
  obtain ⟨run, done⟩ := storePerformed_done hop ready effect hop.group
  refine ⟨_, run, done, State.updGroup_mem .., State.updGroup_l2 .., fun k j ne => ?_, fun x => ?_⟩
  · exact (State.handle_updGroup ..).trans (State.handle_updHandle_ne ne _)
  · have tile : ((s.storeTile wg h accs data).updGroup gid fun g => g.finishOp op).handle wg h =
        (accs.zip data).foldl (fun t p => t.writeN p.1.pa p.2) (s.handle wg h) :=
      (State.handle_updGroup ..).trans (State.handle_updHandle_same resident hh _)
    rw [tile]
    obtain ⟨-, skip, hit⟩ := writtenInOrder_foldl (at_ := (·.pa)) (step := fun (t : Handle) p => t.writeN p.1.pa p.2) (read := Handle.byte)
      (inv := fun t => Sparse.wf 0 t.bytes = true) (good := fun _ => True) (x := x)
      (fun t p _ wf => Handle.writeN_wf wf _ _)
      (fun t p _ wf out => (Handle.byte_writeN wf ..).trans (if_neg out))
      (fun t p _ wf cov => (Handle.byte_writeN wf ..).trans (if_pos cov)) (accs.zip data) (s.handle wg h) wf fun _ _ => trivial
    exact writtenInOrder_zip skip hit

/-! ### Appends (R156) -/

/-- Element `i` of an append at cursor `n` lies in a tile of `size` bytes. -/
def Fits (esz n size i : Nat) : Prop := 8 + esz * (n + i) + esz ≤ size

/-- One element of an append, as the model takes it. -/
def appendStep (esz n : Nat) (acc : Handle × Nat × List (Nat × Word64)) (v : Nat × Word64) : Handle × Nat × List (Nat × Word64) :=
  if 8 + esz * (n + acc.2.1) + esz ≤ acc.1.size then
    (acc.1.writeN (8 + esz * (n + acc.2.1)) (bytesLE esz v.2.toNat), acc.2.1 + 1, (v.1, BitVec.ofNat 64 (n + acc.2.1)) :: acc.2.2)
  else (acc.1, acc.2.1 + 1, (v.1, 0xFFFFFFFFFFFFFFFF) :: acc.2.2)

/-- The place that element `i` of an append gets. -/
def appendPlace (esz n size i : Nat) : Word64 := if 8 + esz * (n + i) + esz ≤ size then BitVec.ofNat 64 (n + i) else 0xFFFFFFFFFFFFFFFF

/-- The lanes of an append with their places, the first of which is numbered `i`. -/
def appendPlaces (esz n size : Nat) : Nat → List (Nat × Word64) → List (Nat × Word64)
  | _, [] => []
  | i, v :: vs => (v.1, appendPlace esz n size i) :: appendPlaces esz n size (i + 1) vs

theorem appendStep_fits {esz n : Nat} {t : Handle} {i : Nat} (fits : Fits esz n t.size i) (out : List (Nat × Word64)) (v : Nat × Word64) :
    appendStep esz n (t, i, out) v = (t.writeN (8 + esz * (n + i)) (bytesLE esz v.2.toNat), i + 1, (v.1, appendPlace esz n t.size i) :: out) := by
  unfold Fits at fits
  unfold appendStep appendPlace
  dsimp only
  rw [if_pos fits, if_pos fits]

theorem appendStep_full {esz n : Nat} {t : Handle} {i : Nat} (full : ¬Fits esz n t.size i) (out : List (Nat × Word64)) (v : Nat × Word64) :
    appendStep esz n (t, i, out) v = (t, i + 1, (v.1, appendPlace esz n t.size i) :: out) := by
  unfold Fits at full
  unfold appendStep appendPlace
  dsimp only
  rw [if_neg full, if_neg full]

/-- What the elements of an append leave of a tile, and the places that they get. -/
structure Appended (esz n : Nat) (vs : List (Nat × Word64)) (t : Handle) (i : Nat) (out : List (Nat × Word64)) (r : Handle × Nat × List (Nat × Word64)) : Prop where
  next : r.2.1 = i + vs.length
  places : r.2.2 = (appendPlaces esz n t.size i vs).reverse ++ out
  size : r.1.size = t.size
  wf : Sparse.wf 0 r.1.bytes = true
  hit : ∀ (k : Nat) (v : Nat × Word64) (j : Nat), vs[k]? = some v → Fits esz n t.size (i + k) → j < esz →
    r.1.byte (8 + esz * (n + (i + k)) + j) = (bytesLE esz v.2.toNat).getD j 0
  skip : ∀ x, (∀ k < vs.length, Fits esz n t.size (i + k) → ¬(8 + esz * (n + (i + k)) ≤ x ∧ x < 8 + esz * (n + (i + k)) + esz)) → r.1.byte x = t.byte x

theorem append_elements (esz n : Nat) : ∀ (vs : List (Nat × Word64)) (t : Handle) (i : Nat) (out : List (Nat × Word64)), Sparse.wf 0 t.bytes = true →
    Appended esz n vs t i out (vs.foldl (appendStep esz n) (t, i, out))
  | [], t, i, out, wf => ⟨rfl, rfl, rfl, wf, fun k v j hk => by simp at hk, fun _ _ => rfl⟩
  | v :: vs, t, i, out, wf => by
    have step : ∃ u, appendStep esz n (t, i, out) v = (u, i + 1, (v.1, appendPlace esz n t.size i) :: out) ∧ u.size = t.size ∧ Sparse.wf 0 u.bytes = true ∧
        (Fits esz n t.size i → ∀ j < esz, u.byte (8 + esz * (n + i) + j) = (bytesLE esz v.2.toNat).getD j 0) ∧
        ∀ x, (Fits esz n t.size i → ¬(8 + esz * (n + i) ≤ x ∧ x < 8 + esz * (n + i) + esz)) → u.byte x = t.byte x := by
      by_cases fits : Fits esz n t.size i
      · refine ⟨_, appendStep_fits fits out v, rfl, Handle.writeN_wf wf .., fun _ j hj => ?_, fun x apart => ?_⟩
        · rw [Handle.byte_writeN wf, if_pos (by rw [length_bytesLE]; omega), Nat.add_sub_cancel_left]
        · rw [Handle.byte_writeN wf, if_neg (by rw [length_bytesLE]; exact apart fits)]
      · exact ⟨t, appendStep_full fits out v, rfl, wf, fun h => absurd h fits, fun _ _ => rfl⟩
    obtain ⟨u, run, size, uwf, mine, others⟩ := step
    obtain ⟨next, places, rsize, rwf, hit, skip⟩ := append_elements esz n vs u (i + 1) ((v.1, appendPlace esz n t.size i) :: out) uwf
    rw [size] at places rsize hit skip
    rw [List.foldl_cons, run]
    refine ⟨by rw [next, List.length_cons]; omega, ?_, rsize, rwf, fun k w j hk fits hj => ?_, fun x apart => ?_⟩
    · rw [places, appendPlaces, List.reverse_cons, List.append_assoc, List.singleton_append]
    · cases k with
      | zero =>
        obtain rfl : v = w := by simpa using hk
        refine (skip _ fun k hk _ inside => ?_).trans (mine fits j hj)
        have later : esz * (n + i) + esz ≤ esz * (n + (i + 1 + k)) := by
          rw [← Nat.mul_succ]
          exact Nat.mul_le_mul_left esz (by omega)
        simp only [Nat.add_zero] at inside
        omega
      | succ k =>
        have place : i + 1 + k = i + (k + 1) := by omega
        have := hit k w j (by simpa using hk) (by rwa [place]) hj
        rwa [place] at this
    · refine (skip x fun k hk fits => ?_).trans (others x fun fits => by simpa using apart 0 (by simp) (by simpa using fits))
      have place : i + 1 + k = i + (k + 1) := by omega
      rw [place] at fits ⊢
      exact apart (k + 1) (by simpa using hk) fits

/-- The place that a lane of an append is given, by its element. -/
theorem find?_appendPlaces (esz n size l : Nat) : ∀ (vs : List (Nat × Word64)) (i : Nat),
    ((appendPlaces esz n size i vs).find? (fun r => r.1 = l)).map (·.2) = (vs.findIdx? fun v => v.1 = l).map fun k => appendPlace esz n size (i + k)
  | [], _ => rfl
  | v :: vs, i => by
    rw [appendPlaces, List.findIdx?_cons]
    by_cases at_ : v.1 = l
    · simp [at_]
    · rw [List.find?_cons_of_neg (by simpa using at_), find?_appendPlaces esz n size l vs (i + 1), if_neg (by simpa using at_), Option.map_map]
      congr 1
      funext k
      dsimp only [Function.comp]
      congr 1
      omega

theorem map_fst_appendPlaces (esz n size : Nat) : ∀ (vs : List (Nat × Word64)) (i : Nat), (appendPlaces esz n size i vs).map (·.1) = vs.map (·.1)
  | [], _ => rfl
  | v :: vs, i => by rw [appendPlaces, List.map_cons, List.map_cons, map_fst_appendPlaces esz n size vs (i + 1)]

/-- The lanes that an append gives places to are those of its elements. -/
theorem any_appendPlaces (esz n size : Nat) (vs : List (Nat × Word64)) (i l : Nat) :
    ((appendPlaces esz n size i vs).any fun r => decide (r.1 = l)) = vs.any fun v => decide (v.1 = l) := by
  have names := congrArg (List.any · fun k => decide (k = l)) (map_fst_appendPlaces esz n size vs i)
  simpa only [List.any_map, Function.comp_def] using names

/-- The tile of an append once its elements are taken, behind the cursor `n`. -/
def appendTile (esz n : Nat) (q : Handle) (vals : List (Nat × Word64)) : Handle := (vals.foldl (appendStep esz n) (q, 0, [])).1

/-- An append puts its elements behind the cursor, moves the cursor on, and delivers the places (R156). -/
theorem appendPerformed_eq (s : State) (g : Group) (o : Op) (wg h esz : Nat) {vals : List (Nat × Word64)} (helpers : Word32)
    (wf : Sparse.wf 0 (s.handle wg h).bytes = true) (lanes : (vals.map (·.1)).Nodup) :
    let q := s.handle wg h
    let n := natLE (q.readN 0 8)
    s.appendPerformed g o wg h esz vals helpers =
      (if vals.isEmpty then s else s.updHandle wg h fun _ => (appendTile esz n q vals).writeN 0 (bytesLE 8 (n + vals.length))).updGroup g.id fun f =>
        (f.fillPend o.seq (helpers ||| maskOf fun l => vals.any fun v => v.1 = l) true fun _ l =>
          ((vals.findIdx? fun v => v.1 = l).map fun k => appendPlace esz n q.size (0 + k)).getD 0xFFFFFFFFFFFFFFFF).finishOp o.seq := by
  intro q n
  obtain ⟨next, places, -⟩ := append_elements esz n vals q 0 [] wf
  rw [List.append_nil] at places
  rw [Nat.zero_add] at next
  have shape : s.appendPerformed g o wg h esz vals helpers =
      (if vals.isEmpty then s else s.updHandle wg h fun _ => (appendTile esz n q vals).writeN 0 (bytesLE 8 (n + (vals.foldl (appendStep esz n) (q, 0, [])).2.1))).updGroup
        g.id fun f => (f.fillPend o.seq (helpers ||| maskOf fun l => (vals.foldl (appendStep esz n) (q, 0, [])).2.2.any fun r => r.1 = l) true fun _ l =>
          match (vals.foldl (appendStep esz n) (q, 0, [])).2.2.find? (fun r => r.1 = l) with
          | some r => r.2
          | none => 0xFFFFFFFFFFFFFFFF).finishOp o.seq := rfl
  rw [shape, next, places]
  refine congrArg (State.updGroup _ g.id) (funext fun f => ?_)
  simp only [List.any_reverse, any_appendPlaces]
  refine congrArg (fun F => (f.fillPend o.seq _ true F).finishOp o.seq) (funext fun _ => funext fun l => ?_)
  rw [find?_reverse (by rwa [map_fst_appendPlaces]), ← find?_appendPlaces]
  cases (appendPlaces esz n q.size 0 vals).find? fun r => decide (r.1 = l) <;> rfl

theorem appendsPerformed {s : State} {gid op : Nat} {g : Group} {o : Op} {wg h esz : Nat} {vals : List (Nat × Word64)} {helpers : Word32} {l1 : Bool}
    (hop : OpenOp s gid op g o) (ready : s.ready g o = true) (kind : o.kind = .append wg h esz vals helpers) (resident : (s.wg? wg).isSome = true) (hh : h < 32)
    (wf : Sparse.wf 0 (s.handle wg h).bytes = true) (lanes : (vals.map (·.1)).Nodup) :
    (let q := s.handle wg h
     let n := natLE (q.readN 0 8)
     let fits (i : Nat) : Prop := 8 + esz * (n + i) + esz ≤ q.size
     ∃ t, exec (.loadComplete gid op l1) s = .next t ∧ t.mem = s.mem ∧ t.l2 = s.l2 ∧ (∀ k j, (k, j) ≠ (wg, h) → t.handle k j = s.handle k j) ∧
       t.group? gid = some ((g.fillPend op (helpers ||| maskOf fun l => vals.any fun v => v.1 = l) true fun _ l =>
         match vals.findIdx? (fun v => v.1 = l) with
         | some i => if 8 + esz * (n + i) + esz ≤ q.size then BitVec.ofNat 64 (n + i) else 0xFFFFFFFFFFFFFFFF
         | none => 0xFFFFFFFFFFFFFFFF).finishOp op) ∧
       (vals = [] → t.handle wg h = q) ∧ (vals ≠ [] → (t.handle wg h).readN 0 8 = bytesLE 8 (n + vals.length)) ∧
       (∀ i v j, vals[i]? = some v → fits i → j < esz → (t.handle wg h).byte (8 + esz * (n + i) + j) = (bytesLE esz v.2.toNat).getD j 0) ∧
       (∀ x, 8 ≤ x → (∀ i < vals.length, fits i → ¬(8 + esz * (n + i) ≤ x ∧ x < 8 + esz * (n + i) + esz)) → (t.handle wg h).byte x = q.byte x)) := by
  intro q n fits
  obtain rfl : o.seq = op := Group.seq_of_op? hop.2.2.1
  have event : exec (.loadComplete gid o.seq l1) s = .next (s.appendPerformed g o wg h esz vals helpers) := by rw [loadComplete_ready hop ready, kind]
  rw [appendPerformed_eq s g o wg h esz helpers wf lanes, State.id_of_group? hop.1] at event
  obtain ⟨-, -, -, rwf, hit, skip⟩ := append_elements esz n vals q 0 [] wf
  simp only [Nat.zero_add] at hit skip
  replace rwf : Sparse.wf 0 (appendTile esz n q vals).bytes = true := rwf
  have before : ∃ u, (if vals.isEmpty then s else s.updHandle wg h fun _ => (appendTile esz n q vals).writeN 0 (bytesLE 8 (n + vals.length))) = u ∧
      u.mem = s.mem ∧ u.l2 = s.l2 ∧ u.group? gid = s.group? gid ∧ (∀ k j, (k, j) ≠ (wg, h) → u.handle k j = s.handle k j) ∧
      u.handle wg h = if vals.isEmpty then q else (appendTile esz n q vals).writeN 0 (bytesLE 8 (n + vals.length)) := by
    split
    · exact ⟨s, rfl, rfl, rfl, rfl, fun _ _ _ => rfl, rfl⟩
    · exact ⟨_, rfl, rfl, rfl, rfl, fun k j ne => State.handle_updHandle_ne ne _, State.handle_updHandle_same resident hh _⟩
  obtain ⟨u, hu, mem, l2, group, others, tile⟩ := before
  rw [hu] at event
  have cursor : vals ≠ [] → u.handle wg h = (appendTile esz n q vals).writeN 0 (bytesLE 8 (n + vals.length)) := fun ne => by
    rw [tile, if_neg (by simpa using ne)]
  have behind : ∀ x, 8 ≤ x → (u.handle wg h).byte x = (appendTile esz n q vals).byte x := fun x hx => by
    by_cases empty : vals = []
    · subst empty
      rw [tile]
      rfl
    · rw [cursor empty, Handle.byte_writeN rwf, if_neg (by rw [length_bytesLE]; omega)]
  refine ⟨_, event, (State.updGroup_mem ..).trans mem, (State.updGroup_l2 ..).trans l2, fun k j ne => (State.handle_updGroup ..).trans (others k j ne), ?_,
    fun empty => ?_, fun some_ => ?_, fun i v j hi inside hj => ?_, fun x hx apart => ?_⟩
  · refine (State.group?_updGroup (group.trans hop.1) fun f => by rw [Group.finishOp_id, Group.fillPend_id]).trans ?_
    refine congrArg (fun F => some ((g.fillPend o.seq _ true F).finishOp o.seq)) (funext fun _ => funext fun l => ?_)
    simp only [Nat.zero_add]
    cases vals.findIdx? fun v => decide (v.1 = l) <;> rfl
  · rw [State.handle_updGroup, tile, if_pos (by simpa using empty)]
  · have read := Handle.readN_writeN rwf 0 (bytesLE 8 (n + vals.length))
    rw [length_bytesLE] at read
    rw [State.handle_updGroup, cursor some_]
    exact read
  · rw [State.handle_updGroup, behind _ (by omega)]
    exact hit i v j hi inside hj
  · rw [State.handle_updGroup, behind x hx]
    exact skip x apart

end Sys2Proof.Machine
end

section
/-!
Range operations (R174, R197, R331, R332): `cinv` drops the lines of its range, and `cwb` leaves them clean.
-/
set_option Elab.async false
namespace Sys2Proof.Machine
open Sys2Proof

namespace State

/-! ### Lines of an L1 -/

/-- What an L1 holds once lines have been dropped from one of them. -/
theorem mem_l1_updCore {s : State} {n c : Nat} {p : L1Line → Bool} {e : L1Line}
    (h : e ∈ ((s.updCore n fun k => { k with l1 := k.l1.filter p }).coreAt c).l1) : e ∈ (s.coreAt c).l1 ∧ (c = n → p e = true) := by
  change e ∈ (tget (tset s.cores n { s.coreAt n with l1 := (s.coreAt n).l1.filter p }) c {}).l1 at h
  rw [tget_tset] at h
  split at h
  next at_ =>
    obtain ⟨rfl, -⟩ := at_
    obtain ⟨mem, keep⟩ := List.mem_filter.1 h
    exact ⟨mem, fun _ => keep⟩
  next out =>
    refine ⟨h, fun same => ?_⟩
    subst same
    have beyond : tget s.cores c {} = ({} : Core) := by
      unfold tget
      rw [Array.getD_eq_getD_getElem?, Array.getElem?_eq_none (by simp at out ⊢; omega)]
      rfl
    rw [beyond] at h
    cases h

/-- Dropping lines from the L1s of a list of cores leaves none of them there. -/
theorem mem_l1_dropped (p : L1Line → Bool) {c : Nat} {e : L1Line} : ∀ (cs : List Nat) (s : State),
    e ∈ ((cs.foldl (fun s n => s.updCore n fun k => { k with l1 := k.l1.filter p }) s).coreAt c).l1 → e ∈ (s.coreAt c).l1 ∧ (c ∈ cs → p e = true)
  | [], _, h => ⟨h, fun hc => by cases hc⟩
  | n :: cs, s, h => by
    obtain ⟨mem, keep⟩ := mem_l1_dropped p cs _ h
    obtain ⟨was, here⟩ := mem_l1_updCore mem
    exact ⟨was, fun hc => (List.mem_cons.1 hc).elim here keep⟩

theorem l2_dropL1 (s : State) (vf : Nat) (p : Nat → Bool) : (s.dropL1 vf p).l2 = s.l2 := by
  have each : ∀ (cs : List Nat) (s : State), (cs.foldl (fun s c => s.updCore c fun k => { k with l1 := k.l1.filter fun e => !(e.vf = vf && p e.line) }) s).l2 = s.l2 :=
    fun cs => by induction cs with
      | nil => exact fun _ => rfl
      | cons c cs ih => exact fun s => ih _
  exact each _ s

theorem sliceCores_of_sansMemory {s t : State} (h : t.sansMemory = s.sansMemory) (vf : Nat) : t.sliceCores (t.vf vf).slice = s.sliceCores (s.vf vf).slice :=
  (congrArg (fun x : State => x.sliceCores (x.vf vf).slice) h : _)

theorem mem_flushLines_l2 {s : State} {p : L2Line → Bool} {l : L2Line} (h : l ∈ (s.flushLines p).l2) : p l = false := by
  unfold flushLines at h
  simpa using (List.mem_filter.1 h).2

theorem coreAt_updGroup (s : State) (id : Nat) (f : Group → Group) (c : Nat) : (s.updGroup id f).coreAt c = s.coreAt c := by
  unfold updGroup; split <;> rfl

/-! ### Write-backs that keep the line (R331) -/

/-- The line of an entry's count is not in the L2. -/
def Outside (s : State) (leaf : Nat) : Prop := ∀ l ∈ s.l2, leaf = 0 ∨ Loc.pa (leaf + 7) / 64 ≠ l.pa

theorem ctlWrite_l2 (s : State) (loc : Nat) (d : List Byte) : (s.ctlWrite loc d).l2 = s.l2 := by
  unfold ctlWrite; dsimp only; split <;> rfl

theorem bumpHot_l2 {s : State} {leaf : Nat} (h : s.Outside leaf) : (s.bumpHot leaf).l2 = s.l2 := by
  unfold bumpHot
  dsimp only
  split
  · rfl
  next ne =>
    split
    · rfl
    · have missing : s.l2At (leaf + 7) = none := List.find?_eq_none.2 fun l hl => by
        have apart := (h l hl).resolve_left ne
        simp [Ne.symm apart]
      rw [homeWrite_missing missing, ctlWrite_l2, unpoison_l2]

/-- A line as a write-back leaves it. -/
def cleaned (pa : Nat) (m : L2Line) : L2Line := if m.pa = pa then { m with dirty := false } else m

theorem cleaned_fields (pa : Nat) (m : L2Line) :
    (cleaned pa m).vf = m.vf ∧ (cleaned pa m).line = m.line ∧ (cleaned pa m).pa = m.pa ∧ (cleaned pa m).attr = m.attr ∧
      (m.dirty = false → (cleaned pa m).dirty = false) ∧ (m.pa = pa → (cleaned pa m).dirty = false) := by
  unfold cleaned
  split
  · exact ⟨rfl, rfl, rfl, rfl, fun _ => rfl, fun _ => rfl⟩
  next other => exact ⟨rfl, rfl, rfl, rfl, id, fun e => absurd e other⟩

/-- No count of a line's leaves is in the L2. -/
def CountsOutside (s : State) : Prop := ∀ l ∈ s.l2, ∀ m ∈ s.l2, ∀ x ∈ ([m.attr.leaf1, m.attr.leaf2] : List Nat), x = 0 ∨ Loc.pa (x + 7) / 64 ≠ l.pa

theorem CountsOutside.cleaned {s u : State} (h : s.CountsOutside) {pa : Nat} (l2 : u.l2 = s.l2.map (State.cleaned pa)) : u.CountsOutside := by
  unfold CountsOutside
  rw [l2]
  intro l hl m hm x hx
  obtain ⟨l', hl', rfl⟩ := List.mem_map.1 hl
  obtain ⟨m', hm', rfl⟩ := List.mem_map.1 hm
  rw [(cleaned_fields pa m').2.2.2.1] at hx
  rw [(cleaned_fields pa l').2.2.1]
  exact h l' hl' m' hm' x hx

/-- A write-back that keeps its line leaves it clean, and the L2 otherwise as it was. -/
theorem writeback_l2 {s : State} (h : s.CountsOutside) (pa : Nat) : (s.writeback true pa).l2 = s.l2.map (cleaned pa) := by
  unfold writeback
  split
  next none_ =>
    refine ((List.map_congr_left fun m hm => ?_).trans (List.map_id' _)).symm
    unfold cleaned
    rw [if_neg (by simpa using List.find?_eq_none.1 none_ m hm)]
  next l found =>
    have hl := List.mem_of_find?_eq_some found
    dsimp only
    rw [if_pos rfl]
    split
    · rfl
    · have mine : ∀ x ∈ ([l.attr.leaf1, l.attr.leaf2] : List Nat), ∀ u : State, u.l2 = s.l2.map (cleaned pa) → u.Outside x := by
        intro x hx u hu m hm
        rw [hu] at hm
        obtain ⟨m', hm', rfl⟩ := List.mem_map.1 hm
        rw [(cleaned_fields pa m').2.2.1]
        exact h m' hm' l hl x hx
      have written : (({ s with l2 := s.l2.map fun m => if m.pa = pa then { m with dirty := false } else m } : State).ctlWrite
          (Loc.mk (64 * pa) l.attr.comp none) l.bytes).l2 = s.l2.map (cleaned pa) := ctlWrite_l2 ..
      have first := (bumpHot_l2 (mine l.attr.leaf1 (by simp) _ written)).trans written
      exact (bumpHot_l2 (mine l.attr.leaf2 (by simp) _ first)).trans first

/-- Write-backs of a list of lines leave them clean, and no other line dirtier (R174). -/
theorem mem_writebacks : ∀ (ls : List L2Line) (s : State), s.CountsOutside → ∀ l ∈ (ls.foldl (fun s l => s.writeback true l.pa) s).l2,
    ∃ m ∈ s.l2, l.vf = m.vf ∧ l.line = m.line ∧ l.pa = m.pa ∧ (m.dirty = false → l.dirty = false) ∧ ((∃ k ∈ ls, k.pa = m.pa) → l.dirty = false)
  | [], _, _, l, hl => ⟨l, hl, rfl, rfl, rfl, id, fun ⟨_, hk, _⟩ => by cases hk⟩
  | k :: ls, s, h, l, hl => by
    have l2 := writeback_l2 h k.pa
    obtain ⟨m, hm, vf, line, pa, still, clean⟩ := mem_writebacks ls (s.writeback true k.pa) (h.cleaned l2) l hl
    rw [l2] at hm
    obtain ⟨m', hm', rfl⟩ := List.mem_map.1 hm
    obtain ⟨vf', line', pa', -, still', clean'⟩ := cleaned_fields k.pa m'
    refine ⟨m', hm', vf.trans vf', line.trans line', pa.trans pa', fun dirty => still (still' dirty), ?_⟩
    rintro ⟨k', hk', e⟩
    rcases List.mem_cons.1 hk' with rfl | rest
    · exact still (clean' e.symm)
    · exact clean ⟨k', rest, e.trans pa'.symm⟩

/-- The location of a whole line of memory, uncompressed. -/
theorem loc_line (pa : Nat) : Loc.mk (64 * pa) false none = 64 * pa := by simp [Loc.mk, b2n]

/-- The write-back of a dirty, uncompressed line whose page counts nothing is a write of its bytes (R331, R338). -/
theorem writeback_mem {s : State} {l : L2Line} (hl : l ∈ s.l2) (only : ∀ m ∈ s.l2, m.pa = l.pa → m = l) (dirty : l.dirty = true) (comp : l.attr.comp = false)
    (leaf1 : l.attr.leaf1 = 0) (leaf2 : l.attr.leaf2 = 0) (small : 64 * l.pa < 2 ^ 60) :
    (s.writeback true l.pa).mem = Memory.writeN s.mem (64 * l.pa) l.bytes := by
  have found : s.l2.find? (fun m => m.pa = l.pa) = some l := by
    cases at_ : s.l2.find? (fun m => m.pa = l.pa) with
    | none => exact absurd (decide_eq_true rfl) (List.find?_eq_none.1 at_ l hl)
    | some m => rw [only m (List.mem_of_find?_eq_some at_) (by simpa using List.find?_some at_)]
  unfold writeback
  rw [found]
  dsimp only
  rw [dirty, comp, leaf1, leaf2, loc_line]
  unfold bumpHot ctlWrite
  dsimp only
  rw [Loc.comp_of_lt small, Loc.pa_of_lt small]
  rfl

/-! ### What a range operation leaves of the group -/

theorem rangePerformed_sansMemory (s : State) (g : Group) (first count : Nat) (inval l1Only : Bool) :
    (s.rangePerformed g first count inval l1Only).sansMemory = s.sansMemory := by
  unfold rangePerformed
  dsimp only
  split
  · rfl
  · split
    · rw [dropL1_sansMemory, flushLines_sansMemory]
    · exact sansMemory_foldl (fun s (l : L2Line) => writeback_sansMemory s true l.pa) _ s

/-- The lines of a range of a function, but for those of registered barriers (R174, R197). -/
def inRange (s : State) (vf first count : Nat) (l : L2Line) : Bool :=
  l.vf = vf && (decide (first ≤ l.line) && decide (l.line < first + count)) && s.barLines.all fun b => Loc.pa b.1 / 64 ≠ l.pa

theorem inRange_iff {s : State} {vf first count : Nat} {l : L2Line} :
    s.inRange vf first count l = true ↔ (l.vf = vf ∧ first ≤ l.line ∧ l.line < first + count) ∧ ¬∃ b ∈ s.barLines, Loc.pa b.1 / 64 = l.pa := by
  simp [inRange]

theorem rangePerformed_l1 (s : State) (g : Group) (first count : Nat) (inval : Bool) :
    s.rangePerformed g first count inval true =
      s.updCore g.coreIx fun k => { k with l1 := k.l1.filter fun e => !(e.vf = g.vf && (decide (first ≤ e.line) && decide (e.line < first + count))) } := rfl

theorem rangePerformed_inval (s : State) (g : Group) (first count : Nat) :
    s.rangePerformed g first count true false =
      (s.flushLines (s.inRange g.vf first count)).dropL1 g.vf fun line => decide (first ≤ line) && decide (line < first + count) := rfl

theorem rangePerformed_clean (s : State) (g : Group) (first count : Nat) :
    s.rangePerformed g first count false false = (s.l2.filter (s.inRange g.vf first count)).foldl (fun s l => s.writeback true l.pa) s := rfl

end State

theorem rangesPerformed {s : State} {gid op first count : Nat} {g : Group} {o : Op} {inval l1Only : Bool} (hop : OpenOp s gid op g o) (ready : s.ready g o = true)
    (kind : o.kind = .range first count inval l1Only) :
    (let mine (vf line : Nat) : Prop := vf = g.vf ∧ first ≤ line ∧ line < first + count
     let bars (pl : Nat) : Prop := ∃ b ∈ s.barLines, Loc.pa b.1 / 64 = pl
     ∃ t, exec (.storePerformed gid op) s = .next t ∧ Finished t gid op ∧
       (l1Only = true → t.mem = s.mem ∧ t.l2 = s.l2 ∧ ∀ e ∈ (t.coreAt g.coreIx).l1, ¬mine e.vf e.line) ∧
       (l1Only = false → inval = true → (∀ l ∈ t.l2, mine l.vf l.line → bars l.pa) ∧
         ∀ c ∈ s.sliceCores (s.vf g.vf).slice, ∀ e ∈ (t.coreAt c).l1, ¬mine e.vf e.line) ∧
       (l1Only = false → inval = false →
         ((∀ l ∈ s.l2, ∀ m ∈ s.l2, ∀ x ∈ ([m.attr.leaf1, m.attr.leaf2] : List Nat), x = 0 ∨ Loc.pa (x + 7) / 64 ≠ l.pa) →
           ∀ l ∈ t.l2, mine l.vf l.line → bars l.pa ∨ l.dirty = false) ∧
         ∀ l, s.l2.filter (fun l => l.vf = g.vf && decide (first ≤ l.line) && decide (l.line < first + count)) = [l] → l.dirty = true → ¬bars l.pa →
           l.attr.comp = false → l.attr.leaf1 = 0 → l.attr.leaf2 = 0 → 64 * l.pa < 2 ^ 60 → (∀ m ∈ s.l2, m.pa = l.pa → m = l) →
           t.mem = Memory.writeN s.mem (64 * l.pa) l.bytes)) := by
  intro mine bars
  have shown : s.show g o = s := State.show_other (by rw [kind]; rfl) (by rw [kind]; rfl)
  have effect : (s.show g o).storeEffect g o = some (s.rangePerformed g first count inval l1Only) := by
    unfold State.storeEffect
    rw [kind, shown]
  have rest := s.rangePerformed_sansMemory g first count inval l1Only
  obtain ⟨run, done⟩ := storePerformed_done hop ready effect ((congrArg Option.isSome (State.group?_of_sansMemory rest gid)).trans hop.group)
  refine ⟨_, run, done, fun l1 => ?_, fun l2 drops => ?_, fun l2 keeps => ?_⟩
  · subst l1
    rw [State.rangePerformed_l1]
    refine ⟨State.updGroup_mem .., State.updGroup_l2 .., fun e he hm => ?_⟩
    rw [State.coreAt_updGroup] at he
    have out := (State.mem_l1_updCore he).2 rfl
    obtain ⟨vf, lo, hi⟩ := hm
    simp [vf, lo, hi] at out
  · subst l2 drops
    rw [State.rangePerformed_inval]
    refine ⟨fun l hl hm => ?_, fun c hc e he hm => ?_⟩
    · rw [State.updGroup_l2, State.l2_dropL1] at hl
      by_contra free
      exact Bool.false_ne_true ((State.mem_flushLines_l2 hl).symm.trans (State.inRange_iff.2 ⟨hm, free⟩))
    · rw [State.coreAt_updGroup] at he
      unfold State.dropL1 at he
      rw [State.sliceCores_of_sansMemory (State.flushLines_sansMemory ..)] at he
      have out := (State.mem_l1_dropped (fun e => !(e.vf = g.vf && (decide (first ≤ e.line) && decide (e.line < first + count)))) _ _ he).2 hc
      obtain ⟨vf, lo, hi⟩ := hm
      simp [vf, lo, hi] at out
  · subst l2 keeps
    rw [State.rangePerformed_clean]
    refine ⟨fun outside l hl hm => ?_, fun l only dirty free comp leaf1 leaf2 small unique => ?_⟩
    · rw [State.updGroup_l2] at hl
      obtain ⟨m, hm', vf, line, pa, -, clean⟩ := State.mem_writebacks _ s outside l hl
      by_cases bar : bars l.pa
      · exact .inl bar
      · refine .inr (clean ⟨m, List.mem_filter.2 ⟨hm', State.inRange_iff.2 ⟨?_, ?_⟩⟩, rfl⟩)
        · rw [← vf, ← line]
          exact hm
        · rw [← pa]
          exact bar
    · have hl := List.mem_filter.1 (only ▸ List.mem_singleton_self l)
      have one : s.l2.filter (s.inRange g.vf first count) = [l] := by
        have both : s.inRange g.vf first count = fun m => (s.barLines.all fun b => Loc.pa b.1 / 64 ≠ m.pa) &&
            (m.vf = g.vf && decide (first ≤ m.line) && decide (m.line < first + count)) := by
          funext m
          unfold State.inRange
          rw [Bool.and_comm, Bool.and_assoc (decide (m.vf = g.vf))]
        rw [both, ← List.filter_filter, only, List.filter_cons_of_pos (by simpa [bars] using free), List.filter_nil]
      rw [State.updGroup_mem, one, List.foldl_cons, List.foldl_nil]
      exact State.writeback_mem hl.1 unique dirty comp leaf1 leaf2 small

/-- Settles O33: each kind of operation is performed as its own theorem says. -/
theorem storesArePerformed : Obligations.StoresArePerformed := by
  unfold Obligations.StoresArePerformed
  refine ⟨fun s gid op g o accs data rel hop ready kind _ wf whole ok => storesPerformed hop ready kind wf whole ok,
    ⟨fun s gid op g o accs wg h data hop ready kind _ resident hh wf => tileStorePerformed hop ready kind resident hh wf,
      fun s gid op g o wg h esz vals helpers l1 hop ready kind resident hh wf lanes => appendsPerformed hop ready kind resident hh wf lanes⟩,
    fun s gid op g o first count inval l1Only hop ready kind => rangesPerformed hop ready kind,
    fun s gid op id g o set hop ready kind hv hid => ⟨fun waits => ?_, fun older => registrationPerformed hop ready kind hv hid older⟩,
    fun s gid op va gr n g o rect f young rest hop ready kind => ⟨fun waits => ?_, fun older hg hn lo hi frames hv ha first others =>
      marksPerformed hop ready kind older hg hn lo hi frames hv ha first others⟩,
    fun s gid op q va pa g o rec_ hop ready kind => ⟨fun waits => ?_, fun may hv hq len low high comp line room wf whole freeLow freeHigh =>
      launchPerformed hop ready kind may hv hq len low high comp line room wf whole freeLow freeHigh⟩⟩
  all_goals
    refine storePerformed_waits hop ready ?_
    rw [State.show_other (by rw [kind]; rfl) (by rw [kind]; rfl)]
    unfold State.storeEffect
    rw [kind]
    dsimp only
    rw [waits, if_neg Bool.false_ne_true]

end Sys2Proof.Machine
end
